-- ==== Sys2Proof/Word.lean ====
section
/-! DEFINITION. The word types of the JX-7040: scalar registers and control registers are 64 bits (R200), vector registers
256 bits, addresses 80 bits (R13), memory is bytes (R3). -/

namespace Sys2Proof

/-- A scalar register, a control register, or an address as an instruction forms it (R88, R200). -/
abbrev Word := BitVec 64

/-- The smallest addressable unit of memory (R3). -/
abbrev Byte := BitVec 8

/-- A vector register: 32 byte lanes (R202). -/
abbrev VReg := BitVec 256

/-- A virtual address after widening (R13, R88). -/
abbrev VAddr := BitVec 80

end Sys2Proof
end

