-- ==== Sys2Proof/Syntax.lean ====
section
/-! DEFINITION. The instruction set as data: one constructor per row of the opcode table (spec/opcode_table.json),
encoded instructions first, then the device's indivisible events (spec/95). Fields run from the low bits of the word up, the stall count st last. -/

namespace Sys2Proof

/-- One whole, indivisible step of the JX-7040: an instruction of a context, or an event of the device. -/
inductive Instr where
  /-- ADD (R206): Writes the 64-bit sum of a and b to d. -/
  | add (d : BitVec 5) (a : BitVec 5) (b : BitVec 5) (st : BitVec 3)
  /-- SUB (R206): Writes a minus b to d. -/
  | sub (d : BitVec 5) (a : BitVec 5) (b : BitVec 5) (st : BitVec 3)
  /-- AND (R206): Writes the bitwise AND of a and b to d. -/
  | andR (d : BitVec 5) (a : BitVec 5) (b : BitVec 5) (st : BitVec 3)
  /-- OR (R206): Writes the bitwise OR of a and b to d. -/
  | orR (d : BitVec 5) (a : BitVec 5) (b : BitVec 5) (st : BitVec 3)
  /-- XOR (R206): Writes the bitwise XOR of a and b to d. -/
  | xorR (d : BitVec 5) (a : BitVec 5) (b : BitVec 5) (st : BitVec 3)
  /-- SLL (R206): Shifts a left by the low six bits of b and writes the result to d. -/
  | sll (d : BitVec 5) (a : BitVec 5) (b : BitVec 5) (st : BitVec 3)
  /-- SRL (R206): Shifts a right logically by the low six bits of b and writes the result to d. -/
  | srl (d : BitVec 5) (a : BitVec 5) (b : BitVec 5) (st : BitVec 3)
  /-- SRA (R206): Shifts a right arithmetically by the low six bits of b and writes the result to d. -/
  | sra (d : BitVec 5) (a : BitVec 5) (b : BitVec 5) (st : BitVec 3)
  /-- MUL (R206): Writes the low 64 bits of the product of a and b to d. -/
  | mul (d : BitVec 5) (a : BitVec 5) (b : BitVec 5) (st : BitVec 3)
  /-- MULH (R206): Writes bits 127:64 of the signed product of a and b to d. -/
  | mulh (d : BitVec 5) (a : BitVec 5) (b : BitVec 5) (st : BitVec 3)
  /-- DIV (R207): Writes the signed quotient of a by b, truncated toward zero, to d and never traps. -/
  | div (d : BitVec 5) (a : BitVec 5) (b : BitVec 5) (st : BitVec 3)
  /-- REM (R207): Writes the signed remainder of a by b to d and never traps. -/
  | rem (d : BitVec 5) (a : BitVec 5) (b : BitVec 5) (st : BitVec 3)
  /-- MIN (R206): Writes the signed minimum of a and b to d. -/
  | min (d : BitVec 5) (a : BitVec 5) (b : BitVec 5) (st : BitVec 3)
  /-- MAX (R206): Writes the signed maximum of a and b to d. -/
  | max (d : BitVec 5) (a : BitVec 5) (b : BitVec 5) (st : BitVec 3)
  /-- MINN (R206): Writes the unsigned minimum of a and b to d. -/
  | minn (d : BitVec 5) (a : BitVec 5) (b : BitVec 5) (st : BitVec 3)
  /-- MAXN (R206): Writes the unsigned maximum of a and b to d. -/
  | maxn (d : BitVec 5) (a : BitVec 5) (b : BitVec 5) (st : BitVec 3)
  /-- MOV (R206): Copies a to d. -/
  | mov (d : BitVec 5) (a : BitVec 5) (st : BitVec 3)
  /-- CMP_EQ (R206): Writes 1 to d if a equals b, and 0 otherwise. -/
  | cmpEq (d : BitVec 5) (a : BitVec 5) (b : BitVec 5) (st : BitVec 3)
  /-- CMP_NE (R206): Writes 1 to d if a differs from b, and 0 otherwise. -/
  | cmpNe (d : BitVec 5) (a : BitVec 5) (b : BitVec 5) (st : BitVec 3)
  /-- CMP_LT (R206): Writes 1 to d if a is below b, signed, and 0 otherwise. -/
  | cmpLt (d : BitVec 5) (a : BitVec 5) (b : BitVec 5) (st : BitVec 3)
  /-- CMP_GE (R206): Writes 1 to d if a is at least b, signed, and 0 otherwise. -/
  | cmpGe (d : BitVec 5) (a : BitVec 5) (b : BitVec 5) (st : BitVec 3)
  /-- CMP_LTN (R206): Writes 1 to d if a is below b, unsigned, and 0 otherwise. -/
  | cmpLtn (d : BitVec 5) (a : BitVec 5) (b : BitVec 5) (st : BitVec 3)
  /-- CMP_GEN (R206): Writes 1 to d if a is at least b, unsigned, and 0 otherwise. -/
  | cmpGen (d : BitVec 5) (a : BitVec 5) (b : BitVec 5) (st : BitVec 3)
  /-- SEL (R206): Writes a to d if the old d is nonzero, and b otherwise. -/
  | sel (d : BitVec 5) (a : BitVec 5) (b : BitVec 5) (st : BitVec 3)
  /-- CLZ (R206): Writes the number of leading zero bits of a to d. -/
  | clz (d : BitVec 5) (a : BitVec 5) (st : BitVec 3)
  /-- POPC (R206): Writes the number of one bits of a to d. -/
  | popc (d : BitVec 5) (a : BitVec 5) (st : BitVec 3)
  /-- BDEP (R208): Deposits the low bits of a at the one-bit positions of mask b. -/
  | bdep (d : BitVec 5) (a : BitVec 5) (b : BitVec 5) (st : BitVec 3)
  /-- BXTR (R208): Extracts the bits of a at the one-bit positions of mask b into the low bits of d. -/
  | bxtr (d : BitVec 5) (a : BitVec 5) (b : BitVec 5) (st : BitVec 3)
  /-- ADDI (R209): Adds a sign-extended 12-bit immediate to a and writes the result to d. -/
  | addi (d : BitVec 5) (a : BitVec 5) (i : BitVec 12) (st : BitVec 3)
  /-- ANDI (R209): ANDs a with a sign-extended 10-bit immediate. -/
  | andi (d : BitVec 5) (a : BitVec 5) (i : BitVec 10) (st : BitVec 3)
  /-- ORI (R209): ORs a with a sign-extended 10-bit immediate. -/
  | ori (d : BitVec 5) (a : BitVec 5) (i : BitVec 10) (st : BitVec 3)
  /-- XORI (R209): XORs a with a sign-extended 10-bit immediate. -/
  | xori (d : BitVec 5) (a : BitVec 5) (i : BitVec 10) (st : BitVec 3)
  /-- SLLI (R209): Shifts a left by an immediate amount from 0 to 63. -/
  | slli (d : BitVec 5) (a : BitVec 5) (k : BitVec 6) (st : BitVec 3)
  /-- SRLI (R209): Shifts a right logically by an immediate amount. -/
  | srli (d : BitVec 5) (a : BitVec 5) (k : BitVec 6) (st : BitVec 3)
  /-- SRAI (R209): Shifts a right arithmetically by an immediate amount. -/
  | srai (d : BitVec 5) (a : BitVec 5) (k : BitVec 6) (st : BitVec 3)
  /-- LIM (R209): Writes a sign-extended 17-bit immediate to d. -/
  | lim (d : BitVec 5) (i : BitVec 17) (st : BitVec 3)
  /-- JAL (R210): Writes the return address to d and jumps to a parcel-relative target. -/
  | jal (d : BitVec 5) (o : BitVec 17) (st : BitVec 3)
  /-- JR (R210): Jumps to a plus twice the immediate and writes the return address to d. -/
  | jr (d : BitVec 5) (a : BitVec 5) (i : BitVec 12) (st : BitVec 3)
  /-- BR_EQ (R211): Branches if a equals b. -/
  | brEq (a : BitVec 5) (b : BitVec 5) (o : BitVec 12) (st : BitVec 3)
  /-- BR_NE (R211): Branches if a differs from b. -/
  | brNe (a : BitVec 5) (b : BitVec 5) (o : BitVec 12) (st : BitVec 3)
  /-- BR_LT (R211): Branches if a is below b, signed. -/
  | brLt (a : BitVec 5) (b : BitVec 5) (o : BitVec 12) (st : BitVec 3)
  /-- BR_GE (R211): Branches if a is at least b, signed. -/
  | brGe (a : BitVec 5) (b : BitVec 5) (o : BitVec 12) (st : BitVec 3)
  /-- BR_LTN (R211): Branches if a is below b, unsigned. -/
  | brLtn (a : BitVec 5) (b : BitVec 5) (o : BitVec 12) (st : BitVec 3)
  /-- BR_GEN (R211): Branches if a is at least b, unsigned. -/
  | brGen (a : BitVec 5) (b : BitVec 5) (o : BitVec 12) (st : BitVec 3)
  /-- LOOP (R212): Starts a hardware-loop level with the count in a, or skips the body. -/
  | loop (a : BitVec 5) (o : BitVec 12) (st : BitVec 3)
  /-- LD_B (R117): Loads a byte, zero- or sign-extended. -/
  | ldB (d : BitVec 5) (b : BitVec 5) (x : BitVec 1) (o : BitVec 9) (st : BitVec 3)
  /-- LD_H (R117): Loads a half-word, zero- or sign-extended. -/
  | ldH (d : BitVec 5) (b : BitVec 5) (x : BitVec 1) (o : BitVec 9) (st : BitVec 3)
  /-- LD_W (R117): Loads a word, zero- or sign-extended. -/
  | ldW (d : BitVec 5) (b : BitVec 5) (x : BitVec 1) (o : BitVec 9) (st : BitVec 3)
  /-- LD_D (R117): Loads a double-word. -/
  | ldD (d : BitVec 5) (b : BitVec 5) (o : BitVec 9) (st : BitVec 3)
  /-- ST_B (R117): Pushes a byte store into the store buffer, optionally ordered. -/
  | stB (d : BitVec 5) (b : BitVec 5) (f : BitVec 1) (o : BitVec 9) (st : BitVec 3)
  /-- ST_H (R117): Pushes a half-word store into the store buffer. -/
  | stH (d : BitVec 5) (b : BitVec 5) (f : BitVec 1) (o : BitVec 9) (st : BitVec 3)
  /-- ST_W (R117): Pushes a word store into the store buffer. -/
  | stW (d : BitVec 5) (b : BitVec 5) (f : BitVec 1) (o : BitVec 9) (st : BitVec 3)
  /-- ST_D (R117): Pushes a double-word store into the store buffer. -/
  | stD (d : BitVec 5) (b : BitVec 5) (f : BitVec 1) (o : BitVec 9) (st : BitVec 3)
  /-- LD_ACQ (R118): Loads, zero-extended, with an acquire at the encoded scope. -/
  | ldAcq (d : BitVec 5) (b : BitVec 5) (z : BitVec 2) (c : BitVec 3) (o : BitVec 6) (st : BitVec 3)
  /-- ST_REL (R118): Performs a release at the encoded scope and then a store. -/
  | stRel (d : BitVec 5) (b : BitVec 5) (z : BitVec 2) (c : BitVec 3) (o : BitVec 6) (st : BitVec 3)
  /-- AMO_ADD_W (R121): Atomically adds b to a 32-bit word at the home and returns the old value. -/
  | amoAddW (d : BitVec 5) (a : BitVec 5) (b : BitVec 5) (c : BitVec 3) (st : BitVec 3)
  /-- AMO_AND_W (R121): Atomic 32-bit AND. -/
  | amoAndW (d : BitVec 5) (a : BitVec 5) (b : BitVec 5) (c : BitVec 3) (st : BitVec 3)
  /-- AMO_OR_W (R121): Atomic 32-bit OR. -/
  | amoOrW (d : BitVec 5) (a : BitVec 5) (b : BitVec 5) (c : BitVec 3) (st : BitVec 3)
  /-- AMO_XOR_W (R121): Atomic 32-bit XOR. -/
  | amoXorW (d : BitVec 5) (a : BitVec 5) (b : BitVec 5) (c : BitVec 3) (st : BitVec 3)
  /-- AMO_MIN_W (R121): Atomic 32-bit signed minimum. -/
  | amoMinW (d : BitVec 5) (a : BitVec 5) (b : BitVec 5) (c : BitVec 3) (st : BitVec 3)
  /-- AMO_MAX_W (R121): Atomic 32-bit signed maximum. -/
  | amoMaxW (d : BitVec 5) (a : BitVec 5) (b : BitVec 5) (c : BitVec 3) (st : BitVec 3)
  /-- AMO_MINN_W (R121): Atomic 32-bit unsigned minimum. -/
  | amoMinnW (d : BitVec 5) (a : BitVec 5) (b : BitVec 5) (c : BitVec 3) (st : BitVec 3)
  /-- AMO_MAXN_W (R121): Atomic 32-bit unsigned maximum. -/
  | amoMaxnW (d : BitVec 5) (a : BitVec 5) (b : BitVec 5) (c : BitVec 3) (st : BitVec 3)
  /-- AMO_SWAP_W (R121): Atomic 32-bit swap. -/
  | amoSwapW (d : BitVec 5) (a : BitVec 5) (b : BitVec 5) (c : BitVec 3) (st : BitVec 3)
  /-- CAS_W (R121): Atomic 32-bit compare-and-swap with the comparison value in d. -/
  | casW (d : BitVec 5) (a : BitVec 5) (b : BitVec 5) (c : BitVec 3) (st : BitVec 3)
  /-- AMO_ADD_D (R121): Atomic 64-bit add. -/
  | amoAddD (d : BitVec 5) (a : BitVec 5) (b : BitVec 5) (c : BitVec 3) (st : BitVec 3)
  /-- AMO_AND_D (R121): Atomic 64-bit AND. -/
  | amoAndD (d : BitVec 5) (a : BitVec 5) (b : BitVec 5) (c : BitVec 3) (st : BitVec 3)
  /-- AMO_OR_D (R121): Atomic 64-bit OR. -/
  | amoOrD (d : BitVec 5) (a : BitVec 5) (b : BitVec 5) (c : BitVec 3) (st : BitVec 3)
  /-- AMO_XOR_D (R121): Atomic 64-bit XOR. -/
  | amoXorD (d : BitVec 5) (a : BitVec 5) (b : BitVec 5) (c : BitVec 3) (st : BitVec 3)
  /-- AMO_MIN_D (R121): Atomic 64-bit signed minimum. -/
  | amoMinD (d : BitVec 5) (a : BitVec 5) (b : BitVec 5) (c : BitVec 3) (st : BitVec 3)
  /-- AMO_MAX_D (R121): Atomic 64-bit signed maximum. -/
  | amoMaxD (d : BitVec 5) (a : BitVec 5) (b : BitVec 5) (c : BitVec 3) (st : BitVec 3)
  /-- AMO_MINN_D (R121): Atomic 64-bit unsigned minimum. -/
  | amoMinnD (d : BitVec 5) (a : BitVec 5) (b : BitVec 5) (c : BitVec 3) (st : BitVec 3)
  /-- AMO_MAXN_D (R121): Atomic 64-bit unsigned maximum. -/
  | amoMaxnD (d : BitVec 5) (a : BitVec 5) (b : BitVec 5) (c : BitVec 3) (st : BitVec 3)
  /-- AMO_SWAP_D (R121): Atomic 64-bit swap. -/
  | amoSwapD (d : BitVec 5) (a : BitVec 5) (b : BitVec 5) (c : BitVec 3) (st : BitVec 3)
  /-- CAS_D (R121): Atomic 64-bit compare-and-swap with the comparison value in d. -/
  | casD (d : BitVec 5) (a : BitVec 5) (b : BitVec 5) (c : BitVec 3) (st : BitVec 3)
  /-- VLD (R119): Loads a block of vector registers from consecutive 32-byte units. -/
  | vld (c : BitVec 6) (b : BitVec 5) (h : BitVec 3) (w : BitVec 3) (st : BitVec 3)
  /-- VST (R119): Pushes a block of vector registers into the store buffer as consecutive 32-byte units. -/
  | vst (c : BitVec 6) (b : BitVec 5) (h : BitVec 3) (w : BitVec 3) (f : BitVec 1) (st : BitVec 3)
  /-- VLDX (R120): Gathers elements into one register through an index register. -/
  | vldx (d : BitVec 6) (b : BitVec 5) (i : BitVec 6) (z : BitVec 2) (st : BitVec 3)
  /-- VSTX (R120): Scatters the elements of one register through an index register. -/
  | vstx (d : BitVec 6) (b : BitVec 5) (i : BitVec 6) (z : BitVec 2) (f : BitVec 1) (st : BitVec 3)
  /-- VADD (R221): Adds block a into block d elementwise. -/
  | vadd (d : BitVec 6) (a : BitVec 6) (h : BitVec 3) (w : BitVec 3) (st : BitVec 3)
  /-- VSUB (R221): Subtracts block a from block d elementwise. -/
  | vsub (d : BitVec 6) (a : BitVec 6) (h : BitVec 3) (w : BitVec 3) (st : BitVec 3)
  /-- VADDS (R222): Saturating elementwise integer add. -/
  | vadds (d : BitVec 6) (a : BitVec 6) (h : BitVec 3) (w : BitVec 3) (st : BitVec 3)
  /-- VSUBS (R222): Saturating elementwise integer subtract. -/
  | vsubs (d : BitVec 6) (a : BitVec 6) (h : BitVec 3) (w : BitVec 3) (st : BitVec 3)
  /-- VMIN (R221): Elementwise minimum of blocks d and a. -/
  | vmin (d : BitVec 6) (a : BitVec 6) (h : BitVec 3) (w : BitVec 3) (st : BitVec 3)
  /-- VMAX (R221): Elementwise maximum of blocks d and a. -/
  | vmax (d : BitVec 6) (a : BitVec 6) (h : BitVec 3) (w : BitVec 3) (st : BitVec 3)
  /-- VABS (R221): Writes the absolute value of block a to block d. -/
  | vabs (d : BitVec 6) (a : BitVec 6) (h : BitVec 3) (w : BitVec 3) (st : BitVec 3)
  /-- VNEG (R221): Writes the negation of block a to block d. -/
  | vneg (d : BitVec 6) (a : BitVec 6) (h : BitVec 3) (w : BitVec 3) (st : BitVec 3)
  /-- VAND (R221): Bitwise AND of blocks. -/
  | vand (d : BitVec 6) (a : BitVec 6) (h : BitVec 3) (w : BitVec 3) (st : BitVec 3)
  /-- VOR (R221): Bitwise OR of blocks. -/
  | vor (d : BitVec 6) (a : BitVec 6) (h : BitVec 3) (w : BitVec 3) (st : BitVec 3)
  /-- VXOR (R221): Bitwise XOR of blocks. -/
  | vxor (d : BitVec 6) (a : BitVec 6) (h : BitVec 3) (w : BitVec 3) (st : BitVec 3)
  /-- VSHL (R222): Shifts the elements of d left by the elements of a. -/
  | vshl (d : BitVec 6) (a : BitVec 6) (h : BitVec 3) (w : BitVec 3) (st : BitVec 3)
  /-- VSHR (R222): Shifts the elements of d right by the elements of a. -/
  | vshr (d : BitVec 6) (a : BitVec 6) (h : BitVec 3) (w : BitVec 3) (st : BitVec 3)
  /-- VCMP (R225): Writes predicates from an elementwise comparison under VAUX.CC. -/
  | vcmp (d : BitVec 6) (a : BitVec 6) (h : BitVec 3) (w : BitVec 3) (st : BitVec 3)
  /-- VSEL (R225): Selects per byte lane between a and d under predicates. -/
  | vsel (d : BitVec 6) (a : BitVec 6) (h : BitVec 3) (w : BitVec 3) (st : BitVec 3)
  /-- VMOV (R221): Copies block a to block d. -/
  | vmov (d : BitVec 6) (a : BitVec 6) (h : BitVec 3) (w : BitVec 3) (st : BitVec 3)
  /-- VMUL (R221): Elementwise multiply of blocks. -/
  | vmul (d : BitVec 6) (a : BitVec 6) (h : BitVec 3) (w : BitVec 3) (st : BitVec 3)
  /-- CMUL (R224): Complex elementwise multiply. -/
  | cmul (d : BitVec 6) (a : BitVec 6) (h : BitVec 3) (w : BitVec 3) (st : BitVec 3)
  /-- CMULC (R224): Complex multiply by the conjugate of a. -/
  | cmulc (d : BitVec 6) (a : BitVec 6) (h : BitVec 3) (w : BitVec 3) (st : BitVec 3)
  /-- VCVT (R227): Converts elements from VTYPE.SRC to VTYPE.ET under VTYPE.RM. -/
  | vcvt (d : BitVec 6) (a : BitVec 6) (h : BitVec 3) (w : BitVec 3) (st : BitVec 3)
  /-- VBFLY (R228): Applies a 2x2 butterfly along an element-index bit. -/
  | vbfly (d : BitVec 6) (a : BitVec 6) (h : BitVec 3) (w : BitVec 3) (st : BitVec 3)
  /-- VPERM (R229): Permutes elements by their index bits under VAUX.PMAP. -/
  | vperm (d : BitVec 6) (a : BitVec 6) (h : BitVec 3) (w : BitVec 3) (st : BitVec 3)
  /-- VBCAST (R230): Broadcasts element LANE of each a register. -/
  | vbcast (d : BitVec 6) (a : BitVec 6) (h : BitVec 3) (w : BitVec 3) (st : BitVec 3)
  /-- VRED (R230): Reduces each a register into element 0 of d. -/
  | vred (d : BitVec 6) (a : BitVec 6) (h : BitVec 3) (w : BitVec 3) (st : BitVec 3)
  /-- PAND (R226): ANDs predicate pa into pd. -/
  | pand (d : BitVec 3) (a : BitVec 3) (st : BitVec 3)
  /-- POR (R226): ORs predicate pa into pd. -/
  | por (d : BitVec 3) (a : BitVec 3) (st : BitVec 3)
  /-- PNOT (R226): Writes NOT pa to pd. -/
  | pnot (d : BitVec 3) (a : BitVec 3) (st : BitVec 3)
  /-- VFMA (R231): Fused d := d + a x b with b broadcast. -/
  | vfma (d : BitVec 6) (a : BitVec 6) (b : BitVec 6) (w : BitVec 2) (h : BitVec 2) (st : BitVec 3)
  /-- VFMS (R231): Fused d := d - a x b with b broadcast. -/
  | vfms (d : BitVec 6) (a : BitVec 6) (b : BitVec 6) (w : BitVec 2) (h : BitVec 2) (st : BitVec 3)
  /-- CFMA (R231): Complex fused d := d + a x b. -/
  | cfma (d : BitVec 6) (a : BitVec 6) (b : BitVec 6) (w : BitVec 2) (h : BitVec 2) (st : BitVec 3)
  /-- CFMAC (R231): Complex fused d := d + a x conj(b). -/
  | cfmac (d : BitVec 6) (a : BitVec 6) (b : BitVec 6) (w : BitVec 2) (h : BitVec 2) (st : BitVec 3)
  /-- CSRR (R350): Reads a control register into a scalar register. -/
  | csrr (r : BitVec 5) (n : BitVec 12) (st : BitVec 3)
  /-- CSRW (R350): Writes a scalar register to a control register after the access and field checks. -/
  | csrw (r : BitVec 5) (n : BitVec 12) (st : BitVec 3)
  /-- CSRS (R350): Sets bits of a control register indivisibly. -/
  | csrs (r : BitVec 5) (n : BitVec 12) (st : BitVec 3)
  /-- CSRC (R350): Clears bits of a control register indivisibly. -/
  | csrc (r : BitVec 5) (n : BitVec 12) (st : BitVec 3)
  /-- FENCE_FULL (R124): Orders all earlier loads and stores before all later ones at the encoded scope. -/
  | fenceFull (c : BitVec 3) (st : BitVec 3)
  /-- FENCE_ACQ (R124): Orders earlier loads before later loads and stores at the encoded scope. -/
  | fenceAcq (c : BitVec 3) (st : BitVec 3)
  /-- FENCE_REL (R124): Orders earlier loads and stores before later stores at the encoded scope. -/
  | fenceRel (c : BitVec 3) (st : BitVec 3)
  /-- FENCE_ACK (R125): Stalls until every earlier store is acknowledged, then reports STORE_FAIL if recorded. -/
  | fenceAck (st : BitVec 3)
  /-- WAIT (R127): Arms a monitor and sleeps until the location meets the condition, then acquires. -/
  | wait (a : BitVec 5) (b : BitVec 5) (c : BitVec 3) (z : BitVec 1) (st : BitVec 3)
  /-- PF (R129): Fills the TLBs for an address and, for kind 1, sends a read hint to the home. -/
  | pf (a : BitVec 5) (k : BitVec 1) (st : BitVec 3)
  /-- TRAP (R354): Raises SOFT_TRAP with the immediate in INFO. -/
  | trap (k : BitVec 6) (st : BitVec 3)
  /-- ERET (R349): Returns from a handler to EPC, clearing INTRAP and span state. -/
  | eret (st : BitVec 3)
  /-- TLBINV_PAGE (R355): Invalidates the entries of the issuing region's tag for the page of an address in every TLB. -/
  | tlbinvPage (a : BitVec 5) (st : BitVec 3)
  /-- TLBINV_TAG (R355): Invalidates every TLB entry of one tag. -/
  | tlbinvTag (a : BitVec 5) (st : BitVec 3)
  /-- TLBINV_ALL (R355): Invalidates every TLB entry of the device, for system software only. -/
  | tlbinvAll (a : BitVec 5) (st : BitVec 3)
  /-- FENCE_I (R354): Waits for earlier stores, then discards the fetch buffer and the cluster's instruction lines. -/
  | fenceI (st : BitVec 3)
  /-- PAUSE (R354): Makes the context not ready for 16(k+1) cycles. -/
  | pause (k : BitVec 6) (st : BitVec 3)
  /-- TASK_END (R284): Ends the task and makes the context idle. -/
  | taskEnd (st : BitVec 3)
  /-- SPAWN (R284): Releases at cluster scope and pushes a task record onto the core's deque. -/
  | spawn (a : BitVec 5) (b : BitVec 5) (st : BitVec 3)
  /-- YIELD (R284): Appends a continuation to the context's own inbox and ends the task if other work is waiting. -/
  | yield (a : BitVec 5) (st : BitVec 3)
  /-- CNT_INIT (R284): Arms a counter of the core, adding to its count and firing at once if it is not positive. -/
  | cntInit (a : BitVec 5) (b : BitVec 5) (st : BitVec 3)
  /-- BAR_INIT (R285): Sets a barrier's expected count and clears its arrivals and link. -/
  | barInit (a : BitVec 5) (b : BitVec 5) (st : BitVec 3)
  /-- BAR_ARRIVE (R285): Releases at device scope and sends an arrival to a barrier. -/
  | barArrive (a : BitVec 5) (st : BitVec 3)
  /-- BAR_WAIT (R285): Waits until a barrier's phase leaves the given value, then acquires. -/
  | barWait (a : BitVec 5) (b : BitVec 5) (st : BitVec 3)
  /-- BAR_LINK (R285): Links a barrier to a parent barrier, with HOLD or PASS. -/
  | barLink (a : BitVec 5) (b : BitVec 5) (st : BitVec 3)
  /-- PHASE (R286): Sets the core's utilisation phase. -/
  | phase (a : BitVec 5) (st : BitVec 3)
  /-- SLEEP (R287): Stops issue until a deadline or the arrival of work. -/
  | sleep (a : BitVec 5) (w : BitVec 1) (st : BitVec 3)
  /-- TEAM_BIND (R292): Stages a member set for a role for the next full mark. -/
  | teamBind (a : BitVec 5) (b : BitVec 5) (st : BitVec 3)
  /-- HAND (R298): Sends a value to the partner of equal rank and/or receives one from it. -/
  | hand (a : BitVec 5) (b : BitVec 5) (rcv : BitVec 3) (snd : BitVec 3) (st : BitVec 3)
  /-- MARK (R299): Passes the member's next mark, waiting under the drift bound or for a full mark. -/
  | mark (st : BitVec 3)
  /-- DRIFT_SET (R300): Stages the drift bound D for the next mark. -/
  | driftSet (bound : BitVec 6) (st : BitVec 3)
  /-- REALIGN (R301): Holds the member until all others reach the same realign or 4,096 cycles pass. -/
  | realign (st : BitVec 3)
  /-- TEAM_END (R302): Releases at device scope and leaves the team; the last member ends the team. -/
  | teamEnd (st : BitVec 3)
  /-- MREQ_READ (R74): Sends a main-memory line read whose reply starts a task. -/
  | mreqRead (a : BitVec 5) (t : BitVec 6) (st : BitVec 3)
  /-- MREQ_WRITE (R74): Sends a main-memory double-word write whose reply starts a task. -/
  | mreqWrite (d : BitVec 5) (a : BitVec 5) (t : BitVec 6) (st : BitVec 3)
  /-- PGMOVE (R86): Queues a page motion on Turnip and returns a result code. -/
  | pgmove (d : BitVec 5) (a : BitVec 5) (k : BitVec 5) (t : BitVec 2) (st : BitVec 3)
  /-- PGHOT (R86): Returns a page's hotness counts or motion state, and optionally clears the counts. -/
  | pghot (d : BitVec 5) (a : BitVec 5) (c : BitVec 2) (st : BitVec 3)
  /-- PGABORT (R86): Aborts a page's Moving motion with cause 4. -/
  | pgabort (d : BitVec 5) (a : BitVec 5) (st : BitVec 3)
  /-- SEND (R142): Pushes a task record with eight carried registers toward a core's inbox or counter. -/
  | send (d : BitVec 5) (a : BitVec 5) (o : BitVec 1) (st : BitVec 3)
  /-- PORT_OPEN (R144): Opens the core's stream port toward a tile on channel 3. -/
  | portOpen (d : BitVec 5) (a : BitVec 5) (st : BitVec 3)
  /-- PORT_CLOSE (R145): Sends the closing marker of the held stream port. -/
  | portClose (d : BitVec 5) (st : BitVec 3)
  /-- TREE_INJ (R148): Pushes a contribution into the context's combining-tree injection queue. -/
  | treeInj (d : BitVec 5) (a : BitVec 5) (st : BitVec 3)
  /-- TREE_EXT (R149): Removes one result from the extraction queue, or returns zeros. -/
  | treeExt (d : BitVec 5) (a : BitVec 5) (st : BitVec 3)
  /-- CPY (R171): Checks a four-word copy request and pushes it into the command FIFO, stalling when full. -/
  | cpy (d : BitVec 5) (a : BitVec 5) (st : BitVec 3)
  /-- CPY_TRY (R171): Pushes a copy request, or returns 1 when the FIFO is full. -/
  | cpyTry (d : BitVec 5) (a : BitVec 5) (st : BitVec 3)
  /-- CPYID (R172): Tests whether a copy identifier is covered, acquiring it if so. -/
  | cpyid (d : BitVec 5) (a : BitVec 5) (st : BitVec 3)
  /-- CPYWAIT (R172): Waits until a copy identifier is covered, then acquires it. -/
  | cpywait (a : BitVec 5) (st : BitVec 3)
  /-- SBIND (R175): Binds a stream descriptor to register v(56+n). -/
  | sbind (d : BitVec 5) (a : BitVec 5) (n : BitVec 3) (st : BitVec 3)
  /-- SFREE (R177): Drains or discards a stream and unbinds it. -/
  | sfree (d : BitVec 5) (n : BitVec 3) (st : BitVec 3)
  /-- SSTAT (R177): Returns a stream's state from one instant. -/
  | sstat (d : BitVec 5) (n : BitVec 3) (st : BitVec 3)
  /-- DICT_LD (R173): Starts filling the pending dictionary buffer from the core's own slice. -/
  | dictLd (a : BitVec 5) (k : BitVec 7) (st : BitVec 3)
  /-- LAUNCH (R314): Enters a launch record into the die's pending-launch store, stalling when full. -/
  | launch (a : BitVec 5) (st : BitVec 3)
  /-- LAUNCH_TRY (R314): Enters a launch record, or returns 1 when the store is full. -/
  | launchTry (d : BitVec 5) (a : BitVec 5) (st : BitVec 3)
  /-- AXDEF (R182): Defines an axis array in a Fennel slot of every agent of its span and returns a handle. -/
  | axdef (d : BitVec 5) (a : BitVec 5) (b : BitVec 5) (st : BitVec 3)
  /-- AXDEF_RELEASE (R182): Releases an axis array after its wave has ended or stopped. -/
  | axdefRelease (d : BitVec 5) (b : BitVec 5) (st : BitVec 3)
  /-- MAP_SET (R196): Replaces an array's map without moving data. -/
  | mapSet (d : BitVec 5) (a : BitVec 5) (b : BitVec 5) (st : BitVec 3)
  /-- MAP_SWAP (R196): Swaps two logical bits of the map and leaves a pending wave. -/
  | mapSwap (d : BitVec 5) (a : BitVec 5) (b : BitVec 5) (st : BitVec 3)
  /-- MAP_RD (R196): Reads one map position or the wave status from the map master. -/
  | mapRd (d : BitVec 5) (a : BitVec 5) (b : BitVec 5) (st : BitVec 3)
  /-- REMAP (R197): Brings named logical bits in-block by NeedInBlock, or starts a pending wave. -/
  | remap (d : BitVec 5) (a : BitVec 5) (b : BitVec 5) (st : BitVec 3)
  /-- RMWAIT (R198): Starts a pending wave and waits until the array's wave is none. -/
  | rmwait (a : BitVec 5) (st : BitVec 3)
  /-- AXLD (R199): Loads e elements of an axis array by logical index. -/
  | axld (d : BitVec 6) (a : BitVec 5) (b : BitVec 5) (st : BitVec 3)
  /-- AXST (R199): Stores e elements of an axis array by logical index. -/
  | axst (d : BitVec 6) (a : BitVec 5) (b : BitVec 5) (st : BitVec 3)
  /-- AXCTX (R260): Waits for the core's axis requests and loads its format context. -/
  | axctx (a : BitVec 5) (st : BitVec 3)
  /-- AXMAT (R261): Fills a matrix slot from an image in the core's slice. -/
  | axmat (a : BitVec 5) (b : BitVec 5) (st : BitVec 3)
  /-- AXAP (R262): Requests an apply of a slot's matrix along named bits of an array and returns a ticket. -/
  | axap (d : BitVec 5) (a : BitVec 5) (b : BitVec 5) (st : BitVec 3)
  /-- AXMM (R265): Requests a matrix product over gathered rows into the core's bank. -/
  | axmm (d : BitVec 6) (a : BitVec 5) (st : BitVec 3)
  /-- AXDRAIN (R267): Requests a drain of bank words to an address or a core's home and returns a ticket. -/
  | axdrain (d : BitVec 5) (a : BitVec 5) (b : BitVec 5) (st : BitVec 3)
  /-- AXSTAT (R269): Tests whether an axis ticket is covered, acquiring it if so. -/
  | axstat (d : BitVec 5) (a : BitVec 5) (st : BitVec 3)
  /-- AXWAIT (R269): Waits until an axis ticket is covered, then acquires. -/
  | axwait (a : BitVec 5) (st : BitVec 3)
  /-- C_MOV (R58): 16-bit form of mov d, a. -/
  | cMov (a : BitVec 5) (d : BitVec 5)
  /-- C_ADD (R58): 16-bit form of add d, d, a. -/
  | cAdd (a : BitVec 5) (d : BitVec 5)
  /-- C_SUB (R58): 16-bit form of sub d, d, a. -/
  | cSub (a : BitVec 5) (d : BitVec 5)
  /-- C_AND (R58): 16-bit form of and d, d, a. -/
  | cAnd (a : BitVec 5) (d : BitVec 5)
  /-- C_OR (R58): 16-bit form of or d, d, a. -/
  | cOr (a : BitVec 5) (d : BitVec 5)
  /-- C_XOR (R58): 16-bit form of xor d, d, a. -/
  | cXor (a : BitVec 5) (d : BitVec 5)
  /-- C_LD_D (R58): 16-bit form of ld.d d, 0(a). -/
  | cLdD (a : BitVec 5) (d : BitVec 5)
  /-- C_ST_D (R58): 16-bit form of st.d d, 0(a). -/
  | cStD (a : BitVec 5) (d : BitVec 5)
  /-- C_JR (R58): 16-bit form of jr s0, a, 0. -/
  | cJr (a : BitVec 5)
  /-- C_ADDI (R58): 16-bit form of addi d, d, imm. -/
  | cAddi (i : BitVec 5) (d : BitVec 5)
  /-- C_LIM (R58): 16-bit form of lim d, imm. -/
  | cLim (i : BitVec 5) (d : BitVec 5)
  /-- C_SLLI (R58): 16-bit form of slli d, d, k. -/
  | cSlli (k : BitVec 5) (d : BitVec 5)
  /-- C_SRLI (R58): 16-bit form of srli d, d, k. -/
  | cSrli (k : BitVec 5) (d : BitVec 5)
  /-- C_SRAI (R58): 16-bit form of srai d, d, k. -/
  | cSrai (k : BitVec 5) (d : BitVec 5)
  /-- C_ANDI (R58): 16-bit form of andi d, d, imm. -/
  | cAndi (i : BitVec 5) (d : BitVec 5)
  /-- C_BR_EQ (R58): 16-bit form of br.eq a, s0, L. -/
  | cBrEq (o : BitVec 5) (a : BitVec 5)
  /-- C_BR_NE (R58): 16-bit form of br.ne a, s0, L. -/
  | cBrNe (o : BitVec 5) (a : BitVec 5)
  /-- C_BR_LT (R58): 16-bit form of br.lt a, s0, L. -/
  | cBrLt (o : BitVec 5) (a : BitVec 5)
  /-- C_BR_GE (R58): 16-bit form of br.ge a, s0, L. -/
  | cBrGe (o : BitVec 5) (a : BitVec 5)
  /-- C_JMP (R58): 16-bit form of jal s0, L. -/
  | cJmp (o : BitVec 10)
  /-- ROLE (R24): Role prefix: executes or skips the following span by the member's roles, after validation. -/
  | role (n : BitVec 4) (m : BitVec 8)
  /-- CPYDONE_READ (R164): A csrr of CPYDONE traps while CPYERR is valid and otherwise acquires the covered copies. -/
  | cpydoneRead (ch : BitVec 2) (r : BitVec 5) (st : BitVec 3)
  /-- AXDONE_READ (R257): A csrr of AXDONE traps while AXERR is valid and otherwise acquires the covered requests. -/
  | axdoneRead (r : BitVec 5) (st : BitVec 3)
  /-- PATHDONE_READ (R140): A read showing SENT = DONE acquires the counted path stores. -/
  | pathdoneRead (p : BitVec 2) (r : BitVec 5) (st : BitVec 3)
  /-- STERR_CLEAR (R116): A write to STERR clears VALID and OVER. -/
  | sterrClear (r : BitVec 5) (st : BitVec 3)
  /-- CPYERR_CLEAR (R167): A write to CPYERR clears its record. -/
  | cpyerrClear (ch : BitVec 2) (r : BitVec 5) (st : BitVec 3)
  /-- AXERR_CLEAR (R257): A write to AXERR clears its record. -/
  | axerrClear (r : BitVec 5) (st : BitVec 3)
  /-- TEAMERR_CLEAR (R304): Clearing TEAMERR.VALID resumes every halted engine member. -/
  | teamerrClear (r : BitVec 5) (st : BitVec 3)
  /-- SLWIN_WRITE (R133): Writes a swizzle window, refusing SPAN 111 or LIMIT above 64 with SLICE_CONFIG. -/
  | slwinWrite (w : BitVec 3) (r : BitVec 5) (st : BitVec 3)
  /-- STPATH_WRITE (R139): Writes the store path mode, refusing mode 11. -/
  | stpathWrite (r : BitVec 5) (st : BitVec 3)
  /-- VTYPE_WRITE (R205): Writes the element type and rounding, refusing reserved codes. -/
  | vtypeWrite (r : BitVec 5) (st : BitVec 3)
  /-- VAUX_WRITE (R219): Writes the vector auxiliary operands, refusing CC 111 or ROP 11. -/
  | vauxWrite (r : BitVec 5) (st : BitVec 3)
  /-- LPCTL_WRITE (R215): Writes loop registers, refusing an active level 1 without level 0. -/
  | lpctlWrite (k : BitVec 1) (r : BitVec 5) (st : BitVec 3)
  /-- VRAND_WRITE (R248): Writes the conversion generator state, storing 1 for 0. -/
  | vrandWrite (r : BitVec 5) (st : BitVec 3)
  /-- MOTIONCTL_WRITE (R84): Sets the motion policy; a new EPOCH ends the epoch at the next multiple of its length. -/
  | motionctlWrite (r : BitVec 5) (st : BitVec 3)
  /-- MRECPTR_WRITE (R85): Advances HEAD of the system record ring, ignored if it would overfill. -/
  | mrecptrWrite (r : BitVec 5) (st : BitVec 3)
  /-- EVPTR_WRITE (R377): Advances HEAD of the event ring, ignored if it would overfill. -/
  | evptrWrite (r : BitVec 5) (st : BitVec 3)
  /-- LQBASE_WRITE (R308): Sets a host launch queue's base and size, ignoring sizes above 20. -/
  | lqbaseWrite (q : Nat) (v : BitVec 64)
  /-- LQTAIL_WRITE (R308): Advances a launch queue's TAIL, making its records available and waking the device from P2. -/
  | lqtailWrite (q : Nat) (v : BitVec 64)
  /-- LQHEAD_WRITE (R308): A write by system software or the host clears a queue's ERR bit. -/
  | lqheadWrite (q : Nat) (v : BitVec 64)
  /-- PWRCAP_WRITE (R380): Sets the module power cap, ignoring values outside 1,200 to 3,600 W. -/
  | pwrcapWrite (v : BitVec 64)
  /-- STORE_BUFFER_DRAIN (R322): A store-buffer entry leaves toward its home once its ordering conditions are met. -/
  | storeBufferDrain (ctx : Nat)
  /-- HOME_REQUEST (R71): A home controller or slice bank serves one read, write or atomic in its serialisation order. -/
  | homeRequest (i : Nat)
  /-- STORE_ACK (R116): A store acknowledgement arrives; a failed one is recorded in STERR. -/
  | storeAck (i : Nat)
  /-- LOAD_REPLY (R114): A load or atomic reply arrives and writes its register or raises its trap. -/
  | loadReply (i : Nat)
  /-- REPLAY_NOTICE (R322): A home's replay notice makes a die-local load perform again. -/
  | replayNotice (ctx : Nat)
  /-- WAIT_WAKE (R127): A sleeping wait re-reads its location after its monitor fires. -/
  | waitWake (ctx : Nat)
  /-- WAIT_POLL (R128): A wait on far-tier or host memory re-reads every 1,024 cycles. -/
  | waitPoll (ctx : Nat)
  /-- MREQ_REPLY (R74): An mreq reply arrives, loads s24-s31 and MRSTAT, and starts the tag's handler. -/
  | mreqReply (i : Nat)
  /-- ROW_RESERVATION_TIMEOUT (R73): A bank reservation ends after 2,048 cycles without an access from its holder. -/
  | rowReservationTimeout (i : Nat)
  /-- PAGE_WALK (R95): A walker translates a VA through the page table and fills the TLBs or reports a fault. -/
  | pageWalk (ctx : Nat) (va : BitVec 80) (acc : Nat)
  /-- PAGER_REPLY (R105): A nonzero reply word wakes the faulting context to re-execute or trap. -/
  | pagerReply (ctx : Nat)
  /-- ENGINE_FAULT_REPLY (R107): An engine reply word answer resumes a held request or records its fault. -/
  | engineFaultReply (ctx : Nat)
  /-- TURNIP_MOTION_START (R77): A queued motion leaves the queue, takes a destination frame or aborts with cause 2. -/
  | turnipMotionStart (die : Nat)
  /-- TURNIP_COPY_STEP (R77): Copies line c to the destination and advances the cursor, swapping the leaf entry after the last line. -/
  | turnipCopyStep (die : Nat) (i : Nat)
  /-- SWEEP_COMPLETE (R77): When every TLB acknowledges the invalidation sweep, the source frame is released. -/
  | sweepComplete (die : Nat) (i : Nat)
  /-- EPOCH_END (R82): When the time stamp reaches a multiple of the epoch length, counts halve and demotions queue. -/
  | epochEnd
  /-- COPY_START (R166): The transfer unit starts a copy once the pusher's earlier stores are acknowledged. -/
  | copyStart (core : Nat)
  /-- COPY_COMPLETE (R163): A copy completes, advancing CPYDONE and recording any error in CPYERR. -/
  | copyComplete (core : Nat)
  /-- DICT_FILL_COMPLETE (R109): The pending dictionary becomes active when its fill completes. -/
  | dictFillComplete (tile : Nat)
  /-- STREAM_FETCH (R175): An input stream fetches its next element ahead of the pops. -/
  | streamFetch (ctx : Nat) (n : Nat)
  /-- STREAM_WRITE (R176): An output stream writes its next pushed element, setting FAULT on failure. -/
  | streamWrite (ctx : Nat) (n : Nat)
  /-- PORT_ROUTE_OPEN (R144): The open flit completes its channel-3 route and releases waiting port traffic. -/
  | portRouteOpen (core : Nat)
  /-- RECORD_ARRIVAL (R277): A task record reaches its destination inbox, or the spill ring, and is acknowledged. -/
  | recordArrival (i : Nat)
  /-- COUNTER_DECREMENT (R278): A counted record decrements a counter and fires it when armed and not positive. -/
  | counterDecrement (i : Nat)
  /-- BARRIER_ARRIVAL (R282): An arrival increments a barrier and completes it when the count is reached. -/
  | barrierArrival (i : Nat)
  /-- BARRIER_RELEASE (R282): A parent's release clears HELD and flips the child's phase. -/
  | barrierRelease (i : Nat)
  /-- TREE_CONTRIBUTION (R150): A combining-tree node takes a contribution or partial and finishes an instance when complete. -/
  | treeContribution (ctx : Nat)
  /-- TREE_RESULT (R150): A finished result is delivered into each contributor's extraction queue. -/
  | treeResult (i : Nat)
  /-- TASK_START (R279): An idle context takes a record from its inbox, deque or a steal and starts the handler. -/
  | taskStart (ctx : Nat)
  /-- TEAM_START (R290): A team record starts its core members at the team's first instruction. -/
  | teamStart (core : Nat)
  /-- AXIS_REQUEST_START (R256): The axis unit takes the next request round robin and performs it. -/
  | axisRequestStart (tile : Nat)
  /-- AXIS_REQUEST_COMPLETE (R255): A request completes, advancing AXDONE and recording any error in AXERR. -/
  | axisRequestComplete (tile : Nat)
  /-- FENNEL_EXCHANGE_STEP (R186): An owner exchanges one line set of a group and sets the group's progress bit when done. -/
  | fennelExchangeStep (tile : Nat) (slot : Nat)
  /-- ISSUE_CHOICE (R316): Each cycle the core issues from the high context if ready, else the low. -/
  | issueChoice (core : Nat)
  /-- LOW_PRECEDENCE_START (R317): When the starvation count reaches 65,536, the low context takes precedence for 1,024 cycles. -/
  | lowPrecedenceStart (core : Nat)
  /-- LOW_PRECEDENCE_END (R317): After 1,024 cycles the low context's precedence ends and the count restarts. -/
  | lowPrecedenceEnd (core : Nat)
  /-- PAUSE_END (R354): A pause's cycles expire and the context becomes ready. -/
  | pauseEnd (ctx : Nat)
  /-- SLEEP_WAKE (R287): A sleeping context wakes at its deadline or when work arrives. -/
  | sleepWake (ctx : Nat)
  /-- REALIGN_TIMEOUT (R301): A member waiting in realign is released after 4,096 cycles. -/
  | realignTimeout (ctx : Nat)
  /-- DISPATCHER_TAKE_RECORD (R309): The dispatcher takes a launch record into the pending-launch store and handles it by region state. -/
  | dispatcherTakeRecord (q : Nat)
  /-- REGION_GRANT (R310): Grants a ready region all its clusters, writes its slice image and state, and starts it. -/
  | regionGrant (die : Nat)
  /-- DUSK_SAVE (R356): Stops a region, settles in-flight work and writes its context area. -/
  | duskSave (rcb : Nat)
  /-- DUSK_RESTORE (R360): Reloads a saved region on its own clusters and resumes it. -/
  | duskRestore (rcb : Nat)
  /-- BUDGET_EXHAUSTED (R312): When USED reaches BCSEC, the region is saved and not granted again. -/
  | budgetExhausted (rcb : Nat)
  /-- REGION_DONE (R274): A region with nothing outstanding frees its clusters and takes STATE 4. -/
  | regionDone (rcb : Nat)
  /-- UTIL_FLUSH (R288): A cluster adds its busy and idle counts to the utilisation table. -/
  | utilFlush (cluster : Nat)
  /-- EVENT_POST (R377): Plebex posts an event record to the event ring after holding it 64 counts. -/
  | eventPost
  /-- SOFT_ERROR (R115): A detected uncorrectable error poisons a line; a corrected one is logged. -/
  | softError (loc : Nat) (corrected : Bool)
  /-- NOON_SAMPLE (R381): Every microsecond Noon samples consumers and throttles or releases them against LIMIT. -/
  | noonSample (watts : List Nat)
  /-- ENTER_P2 (R379): Plebex enters idle after 1 ms with no granted region and empty launch queues. -/
  | enterP2
  /-- P2_WAKE (R379): The device returns to P0 within 20 µs after a TAIL write or Goldex arrival. -/
  | p2Wake
  /-- P3_EXIT (R379): Leaving retain completes after 5 ms with every slice zero. -/
  | p3Exit
  /-- DAWN (R382): At power-on, reset or leaving P4, Plebex verifies the image and initialises the device. -/
  | dawn (absent : BitVec 12) (links : BitVec 16)
  /-- MAILBOX_IMAGE (R383): The host delivers a firmware image through the mailbox for recovery or update. -/
  | mailboxImage (image : List (BitVec 8))
  /-- MAILBOX_ATTEST (R384): A host nonce returns a report signed with the identity key. -/
  | mailboxAttest (nonce : List (BitVec 8))
  /-- MAILBOX_DEBUG_TOKEN (R378): A signed token moves the device to owner-debug or vendor-debug. -/
  | mailboxDebugToken (token : List (BitVec 8))
  /-- MAILBOX_POWER_COMMAND (R379): A host command enters P3 or P4 when no region is ready or running. -/
  | mailboxPowerCommand (state : BitVec 4)
  /-- MAILBOX_DUSK_SAVE (R379): In debug states the host asks Dusk to save a region. -/
  | mailboxDuskSave (rcb : Nat)
  /-- HOST_ACCESS (R363): A host access through BAR0, BAR2 or CXL.mem reaches device registers, slices or memory. -/
  | hostAccess (kind : BitVec 4) (addr : Nat) (data : List (BitVec 8))
  /-- HOST_COMPLETION (R363): A PCIe completion for a device load to the host window arrives. -/
  | hostCompletion (ctx : Nat) (status : Nat) (data : BitVec 512)
  /-- FAR_LINK_DOWN (R364): Port 1's link to a memory device goes down, and requests wait. -/
  | farLinkDown (dev : Nat)
  /-- FAR_LOST_TIMEOUT (R364): After 2 ms down, far-tier lines of the link are lost. -/
  | farLostTimeout (dev : Nat)
  /-- FAR_LINK_UP (R364): Port 1's link returns and its lines are reachable again. -/
  | farLinkUp (dev : Nat)
  /-- GOLDEX_FLIT_RECEIVE (R365): A Goldex flit arrives; it is CRC-checked, acknowledged, forwarded or passed in ESEQ order. -/
  | goldexFlitReceive (link : Nat) (flit : List Nat)
  /-- LINK_REPLAY_TIMEOUT (R366): A flit unacknowledged for 2 µs is resent from LACK + 1. -/
  | linkReplayTimeout (link : Nat)
  /-- RETRAIN_START (R366): Eight failed replays or loss of lock start a link retrain. -/
  | retrainStart (link : Nat)
  /-- RETRAIN_END (R366): A retrain ends with the link up or down within 20 µs. -/
  | retrainEnd (link : Nat) (up : Bool)
  /-- END_TO_END_RESEND (R367): A stream flit unacknowledged for 100 µs, or lost to a retrain, is resent over any up link. -/
  | endToEndResend (i : Nat)
  /-- BOUNCE_TIMEOUT (R369): A remote send with no allowed link up for 1 ms bounces with reason 1. -/
  | bounceTimeout (i : Nat)
  /-- TIME_FLIT_SEND (R376): The time master sends its count on every link once per microsecond. -/
  | timeFlitSend
  /-- TIME_FLIT_RECEIVE (R376): A receiver slews its count toward the master and relays the flit. -/
  | timeFlitReceive (link : Nat) (count : BitVec 64)
  /-- ILLEGAL_INSTRUCTION (R42): A fetched word or parcel with an unassigned major, op or function code, a nonzero reserved field or an illegal field value raises ILLEGAL_INSTRUCTION at its first parcel with no effect. -/
  | illegalInstruction
  /-- FETCH_FAULT (R45): A parcel that cannot be fetched raises a precise fetch fault at the instruction's first parcel, with ACCESS 3 and FAULTVA naming the parcel. -/
  | fetchFault
  deriving DecidableEq, Repr

end Sys2Proof
end

