-- ==== Sys2Proof/WellFormed.lean ====
section
/-! DEFINITION. The encoding limits of R42 that are not reserved bits or unassigned codes: which field values an
instruction may carry, each refused under a name of its own. -/

namespace Sys2Proof

/-- Why an instruction is ill formed (R42). -/
inductive WfError where
  /-- scope codes 110 and 111 (R33) -/
  | scope
  /-- a LOOP offset below 1 (R31) -/
  | loopOffset
  /-- a block that leaves the grid (R37) -/
  | block
  /-- a `cpy` or `cpy.try` base outside R39 -/
  | copyBase
  /-- a `send` register other than s8, s16 and s24 (R142) -/
  | sendBase
  /-- a `spawn` register b other than s8, s16 and s24 (R284) -/
  | spawnBase
  /-- `wait` conditions 6 and 7 (R127) -/
  | waitCondition
  /-- `pgmove` tier 11, stack 12 to 30, or a far-tier move with a stack other than 31 (R86) -/
  | moveTarget
  /-- `dict.ld` lengths 0 and 17 to 127 (R173) -/
  | dictLength
  /-- `drift.set` bounds 0 and 16 to 63 (R297) -/
  | driftBound
  /-- a control-register number that no field map assigns (R350) -/
  | csrNumber
  /-- a role prefix with an empty mask (R25) -/
  | roleMask
  /-- `axdef` naming s0 is the release row (R182): it is written `axdefRelease` -/
  | releaseForm
  deriving DecidableEq, Repr

/-- R33: the scope codes 000 to 101 name the core, the tile, the cluster, the die, the device and the system. -/
def scopeOk (c : BitVec 3) : Bool := c.toNat ≤ 5

/-- R37: a block with corner v(8·row + col) and extent h × w fits the grid. -/
def blockFits (corner : BitVec 6) (h w : Nat) : Bool :=
  corner.toNat / 8 + h ≤ 8 && corner.toNat % 8 + w ≤ 8

/-- R39: s4, s8, …, s28 name the first of four request registers. -/
def copyBaseOk (a : BitVec 5) : Bool := a.toNat % 4 = 0 && a ≠ 0

/-- R142, R284: s8, s16 and s24 name the first of eight carried registers. -/
def carriedBaseOk (d : BitVec 5) : Bool := d.toNat % 8 = 0 && d ≠ 0

/-- R350: the control-register numbers that some field map of the manual assigns. -/
def csrAssigned (n : Nat) : Bool :=
  (0x040 ≤ n && n ≤ 0x046) || (0x080 ≤ n && n ≤ 0x090) || (0x0C0 ≤ n && n ≤ 0x0C5) ||
  (0x0C8 ≤ n && n ≤ 0x0CA) || (0x0D0 ≤ n && n ≤ 0x0D3) || (0x0D8 ≤ n && n ≤ 0x0E9) || (0x0F0 ≤ n && n ≤ 0x0F3) ||
  (0x100 ≤ n && n ≤ 0x136) || (0x140 ≤ n && n ≤ 0x152)

/-- The block test of a VB instruction: the d block and the a block share one extent (R35, R37). -/
def checkVB (d a : BitVec 6) (h w : BitVec 3) : Option WfError :=
  if blockFits d (h.toNat + 1) (w.toNat + 1) && blockFits a (h.toNat + 1) (w.toNat + 1) then none else some .block

/-- The block test of a VF instruction: extents are powers of two (R36, R37). -/
def checkVF (d a : BitVec 6) (h w : BitVec 2) : Option WfError :=
  if blockFits d (2 ^ h.toNat) (2 ^ w.toNat) && blockFits a (2 ^ h.toNat) (2 ^ w.toNat) then none else some .block

/-- The block test of `vld` and `vst` (R34, R37). -/
def checkVM (c : BitVec 6) (h w : BitVec 3) : Option WfError :=
  if blockFits c (h.toNat + 1) (w.toNat + 1) then none else some .block

/-- Scope test. -/
def checkScope (c : BitVec 3) : Option WfError := if scopeOk c then none else some .scope

/-- Register-number test of the control-register forms. -/
def checkCsr (n : BitVec 12) : Option WfError := if csrAssigned n.toNat then none else some .csrNumber

/-- R42: the first illegal field value of an instruction, if any. R42's list is closed, so every row not named here has
no field limit beyond its reserved bits. -/
def Instr.check : Instr → Option WfError
  | .loop _ o _ => if 1 ≤ o.toInt then none else some .loopOffset
  | .ldAcq _ _ _ c _ _ | .stRel _ _ _ c _ _ => checkScope c
  | .amoAddW _ _ _ c _ | .amoAndW _ _ _ c _ | .amoOrW _ _ _ c _ | .amoXorW _ _ _ c _ | .amoMinW _ _ _ c _
  | .amoMaxW _ _ _ c _ | .amoMinnW _ _ _ c _ | .amoMaxnW _ _ _ c _ | .amoSwapW _ _ _ c _ | .casW _ _ _ c _
  | .amoAddD _ _ _ c _ | .amoAndD _ _ _ c _ | .amoOrD _ _ _ c _ | .amoXorD _ _ _ c _ | .amoMinD _ _ _ c _
  | .amoMaxD _ _ _ c _ | .amoMinnD _ _ _ c _ | .amoMaxnD _ _ _ c _ | .amoSwapD _ _ _ c _ | .casD _ _ _ c _ => checkScope c
  | .vld c _ h w _ | .vst c _ h w _ _ => checkVM c h w
  | .vadd d a h w _ | .vsub d a h w _ | .vadds d a h w _ | .vsubs d a h w _ | .vmin d a h w _ | .vmax d a h w _
  | .vabs d a h w _ | .vneg d a h w _ | .vand d a h w _ | .vor d a h w _ | .vxor d a h w _ | .vshl d a h w _
  | .vshr d a h w _ | .vcmp d a h w _ | .vsel d a h w _ | .vmov d a h w _ | .vmul d a h w _ | .cmul d a h w _
  | .cmulc d a h w _ | .vcvt d a h w _ | .vbfly d a h w _ | .vperm d a h w _ | .vbcast d a h w _ | .vred d a h w _ =>
    checkVB d a h w
  | .vfma d a _ w h _ | .vfms d a _ w h _ | .cfma d a _ w h _ | .cfmac d a _ w h _ => checkVF d a h w
  | .csrr _ n _ | .csrw _ n _ | .csrs _ n _ | .csrc _ n _ => checkCsr n
  | .fenceFull c _ | .fenceAcq c _ | .fenceRel c _ => checkScope c
  | .wait _ _ c _ _ => if c.toNat ≤ 5 then none else some .waitCondition
  | .spawn _ b _ => if carriedBaseOk b then none else some .spawnBase
  | .driftSet d _ => if 1 ≤ d.toNat && d.toNat ≤ 15 then none else some .driftBound
  | .pgmove _ _ k t _ =>
    if t.toNat ≤ 2 && (k.toNat ≤ 11 || k = 31) && (t ≠ 2 || k = 31) then none else some .moveTarget
  | .send d _ _ _ => if carriedBaseOk d then none else some .sendBase
  | .cpy _ a _ | .cpyTry _ a _ => if copyBaseOk a then none else some .copyBase
  | .dictLd _ k _ => if 1 ≤ k.toNat && k.toNat ≤ 16 then none else some .dictLength
  | .axdef _ a _ _ => if a ≠ 0 then none else some .releaseForm
  | .role _ m => if m ≠ 0 then none else some .roleMask
  | _ => none

/-- An instruction every field of which R42 allows. -/
def Instr.wf (i : Instr) : Bool := i.check = none

end Sys2Proof
end

