-- ==== Sys2Proof/Decode.lean ====
section
/-! DEFINITION. The decoder (R20 to R42, R58, R63 to R67), total on any bytes and rejecting by name, and after it the
encoder, written from the same tables. Words are read as numbers: bit 0 is the least significant bit of the first parcel. -/

namespace Sys2Proof

/-- Why bytes do not decode. -/
inductive DecodeError where
  /-- fewer bytes than the first parcel's length bits ask for -/
  | truncated
  /-- a 16-bit op that R58 does not assign, quadrant 0 op 0 included -/
  | unassigned16
  /-- majors 29, 30 and 31 -/
  | unassignedMajor
  /-- a function code that the major's table does not assign -/
  | unassignedFunction
  /-- a nonzero reserved bit -/
  | reservedBits
  /-- a field value that R42 calls illegal -/
  | illFormed (e : WfError)
  deriving DecidableEq, Repr

/-- Bits lo + n − 1 : lo of w. -/
def bitsOf (w lo n : Nat) : Nat := w / 2 ^ lo % 2 ^ n

/-- The same bits, as an n-bit field. -/
def fld (w lo n : Nat) : BitVec n := BitVec.ofNat n (bitsOf w lo n)

/-- An instruction whose reserved bits lo + n − 1 : lo must be zero. -/
def needZero (w lo n : Nat) (i : Instr) : Except DecodeError Instr :=
  if bitsOf w lo n = 0 then .ok i else .error .reservedBits

/-- Major 0, OP (R63). -/
def decodeOp (w : Nat) : Except DecodeError Instr :=
  match bitsOf w 25 7 with
  | 0 => .ok (.add (fld w 10 5) (fld w 15 5) (fld w 20 5) (fld w 7 3))
  | 1 => .ok (.sub (fld w 10 5) (fld w 15 5) (fld w 20 5) (fld w 7 3))
  | 2 => .ok (.andR (fld w 10 5) (fld w 15 5) (fld w 20 5) (fld w 7 3))
  | 3 => .ok (.orR (fld w 10 5) (fld w 15 5) (fld w 20 5) (fld w 7 3))
  | 4 => .ok (.xorR (fld w 10 5) (fld w 15 5) (fld w 20 5) (fld w 7 3))
  | 5 => .ok (.sll (fld w 10 5) (fld w 15 5) (fld w 20 5) (fld w 7 3))
  | 6 => .ok (.srl (fld w 10 5) (fld w 15 5) (fld w 20 5) (fld w 7 3))
  | 7 => .ok (.sra (fld w 10 5) (fld w 15 5) (fld w 20 5) (fld w 7 3))
  | 8 => .ok (.mul (fld w 10 5) (fld w 15 5) (fld w 20 5) (fld w 7 3))
  | 9 => .ok (.mulh (fld w 10 5) (fld w 15 5) (fld w 20 5) (fld w 7 3))
  | 10 => .ok (.div (fld w 10 5) (fld w 15 5) (fld w 20 5) (fld w 7 3))
  | 11 => .ok (.rem (fld w 10 5) (fld w 15 5) (fld w 20 5) (fld w 7 3))
  | 12 => .ok (.min (fld w 10 5) (fld w 15 5) (fld w 20 5) (fld w 7 3))
  | 13 => .ok (.max (fld w 10 5) (fld w 15 5) (fld w 20 5) (fld w 7 3))
  | 14 => .ok (.minn (fld w 10 5) (fld w 15 5) (fld w 20 5) (fld w 7 3))
  | 15 => .ok (.maxn (fld w 10 5) (fld w 15 5) (fld w 20 5) (fld w 7 3))
  | 16 => needZero w 20 5 (.mov (fld w 10 5) (fld w 15 5) (fld w 7 3))
  | 17 => .ok (.cmpEq (fld w 10 5) (fld w 15 5) (fld w 20 5) (fld w 7 3))
  | 18 => .ok (.cmpNe (fld w 10 5) (fld w 15 5) (fld w 20 5) (fld w 7 3))
  | 19 => .ok (.cmpLt (fld w 10 5) (fld w 15 5) (fld w 20 5) (fld w 7 3))
  | 20 => .ok (.cmpGe (fld w 10 5) (fld w 15 5) (fld w 20 5) (fld w 7 3))
  | 21 => .ok (.cmpLtn (fld w 10 5) (fld w 15 5) (fld w 20 5) (fld w 7 3))
  | 22 => .ok (.cmpGen (fld w 10 5) (fld w 15 5) (fld w 20 5) (fld w 7 3))
  | 23 => .ok (.sel (fld w 10 5) (fld w 15 5) (fld w 20 5) (fld w 7 3))
  | 24 => needZero w 20 5 (.clz (fld w 10 5) (fld w 15 5) (fld w 7 3))
  | 25 => needZero w 20 5 (.popc (fld w 10 5) (fld w 15 5) (fld w 7 3))
  | 26 => .ok (.bdep (fld w 10 5) (fld w 15 5) (fld w 20 5) (fld w 7 3))
  | 27 => .ok (.bxtr (fld w 10 5) (fld w 15 5) (fld w 20 5) (fld w 7 3))
  | _ => .error .unassignedFunction

/-- Major 2, LOGI (R30): kind in bits 31:30; for the shifts, bits 29:28 and a reserved pair 27:26. -/
def decodeLogi (w : Nat) : Except DecodeError Instr :=
  match bitsOf w 30 2 with
  | 0 => .ok (.andi (fld w 10 5) (fld w 15 5) (fld w 20 10) (fld w 7 3))
  | 1 => .ok (.ori (fld w 10 5) (fld w 15 5) (fld w 20 10) (fld w 7 3))
  | 2 => .ok (.xori (fld w 10 5) (fld w 15 5) (fld w 20 10) (fld w 7 3))
  | _ =>
    match bitsOf w 28 2 with
    | 0 => needZero w 26 2 (.slli (fld w 10 5) (fld w 15 5) (fld w 20 6) (fld w 7 3))
    | 1 => needZero w 26 2 (.srli (fld w 10 5) (fld w 15 5) (fld w 20 6) (fld w 7 3))
    | 2 => needZero w 26 2 (.srai (fld w 10 5) (fld w 15 5) (fld w 20 6) (fld w 7 3))
    | _ => .error .unassignedFunction

/-- Major 13, LD (R32): size in bits 22:21; a double-word with `.x` is illegal. -/
def decodeLd (w : Nat) : Except DecodeError Instr :=
  match bitsOf w 21 2 with
  | 0 => .ok (.ldB (fld w 10 5) (fld w 15 5) (fld w 20 1) (fld w 23 9) (fld w 7 3))
  | 1 => .ok (.ldH (fld w 10 5) (fld w 15 5) (fld w 20 1) (fld w 23 9) (fld w 7 3))
  | 2 => .ok (.ldW (fld w 10 5) (fld w 15 5) (fld w 20 1) (fld w 23 9) (fld w 7 3))
  | _ => needZero w 20 1 (.ldD (fld w 10 5) (fld w 15 5) (fld w 23 9) (fld w 7 3))

/-- Major 14, ST (R32): size in bits 22:21. -/
def decodeSt (w : Nat) : Except DecodeError Instr :=
  match bitsOf w 21 2 with
  | 0 => .ok (.stB (fld w 10 5) (fld w 15 5) (fld w 20 1) (fld w 23 9) (fld w 7 3))
  | 1 => .ok (.stH (fld w 10 5) (fld w 15 5) (fld w 20 1) (fld w 23 9) (fld w 7 3))
  | 2 => .ok (.stW (fld w 10 5) (fld w 15 5) (fld w 20 1) (fld w 23 9) (fld w 7 3))
  | _ => .ok (.stD (fld w 10 5) (fld w 15 5) (fld w 20 1) (fld w 23 9) (fld w 7 3))

/-- Major 15, ORD (R32): bit 20 selects `ld.acq` or `st.rel`. -/
def decodeOrd (w : Nat) : Except DecodeError Instr :=
  if bitsOf w 20 1 = 0 then .ok (.ldAcq (fld w 10 5) (fld w 15 5) (fld w 21 2) (fld w 23 3) (fld w 26 6) (fld w 7 3)) else .ok (.stRel (fld w 10 5) (fld w 15 5) (fld w 21 2) (fld w 23 3) (fld w 26 6) (fld w 7 3))

/-- Major 16, AMOW (R30). -/
def decodeAmoW (w : Nat) : Except DecodeError Instr :=
  match bitsOf w 28 4 with
  | 0 => .ok (.amoAddW (fld w 10 5) (fld w 15 5) (fld w 20 5) (fld w 25 3) (fld w 7 3))
  | 1 => .ok (.amoAndW (fld w 10 5) (fld w 15 5) (fld w 20 5) (fld w 25 3) (fld w 7 3))
  | 2 => .ok (.amoOrW (fld w 10 5) (fld w 15 5) (fld w 20 5) (fld w 25 3) (fld w 7 3))
  | 3 => .ok (.amoXorW (fld w 10 5) (fld w 15 5) (fld w 20 5) (fld w 25 3) (fld w 7 3))
  | 4 => .ok (.amoMinW (fld w 10 5) (fld w 15 5) (fld w 20 5) (fld w 25 3) (fld w 7 3))
  | 5 => .ok (.amoMaxW (fld w 10 5) (fld w 15 5) (fld w 20 5) (fld w 25 3) (fld w 7 3))
  | 6 => .ok (.amoMinnW (fld w 10 5) (fld w 15 5) (fld w 20 5) (fld w 25 3) (fld w 7 3))
  | 7 => .ok (.amoMaxnW (fld w 10 5) (fld w 15 5) (fld w 20 5) (fld w 25 3) (fld w 7 3))
  | 8 => .ok (.amoSwapW (fld w 10 5) (fld w 15 5) (fld w 20 5) (fld w 25 3) (fld w 7 3))
  | 9 => .ok (.casW (fld w 10 5) (fld w 15 5) (fld w 20 5) (fld w 25 3) (fld w 7 3))
  | _ => .error .unassignedFunction

/-- Major 17, AMOD (R30). -/
def decodeAmoD (w : Nat) : Except DecodeError Instr :=
  match bitsOf w 28 4 with
  | 0 => .ok (.amoAddD (fld w 10 5) (fld w 15 5) (fld w 20 5) (fld w 25 3) (fld w 7 3))
  | 1 => .ok (.amoAndD (fld w 10 5) (fld w 15 5) (fld w 20 5) (fld w 25 3) (fld w 7 3))
  | 2 => .ok (.amoOrD (fld w 10 5) (fld w 15 5) (fld w 20 5) (fld w 25 3) (fld w 7 3))
  | 3 => .ok (.amoXorD (fld w 10 5) (fld w 15 5) (fld w 20 5) (fld w 25 3) (fld w 7 3))
  | 4 => .ok (.amoMinD (fld w 10 5) (fld w 15 5) (fld w 20 5) (fld w 25 3) (fld w 7 3))
  | 5 => .ok (.amoMaxD (fld w 10 5) (fld w 15 5) (fld w 20 5) (fld w 25 3) (fld w 7 3))
  | 6 => .ok (.amoMinnD (fld w 10 5) (fld w 15 5) (fld w 20 5) (fld w 25 3) (fld w 7 3))
  | 7 => .ok (.amoMaxnD (fld w 10 5) (fld w 15 5) (fld w 20 5) (fld w 25 3) (fld w 7 3))
  | 8 => .ok (.amoSwapD (fld w 10 5) (fld w 15 5) (fld w 20 5) (fld w 25 3) (fld w 7 3))
  | 9 => .ok (.casD (fld w 10 5) (fld w 15 5) (fld w 20 5) (fld w 25 3) (fld w 7 3))
  | _ => .error .unassignedFunction

/-- Major 18, VM (R34): bits 31:30 select the operation. -/
def decodeVm (w : Nat) : Except DecodeError Instr :=
  match bitsOf w 30 2 with
  | 0 => needZero w 27 3 (.vld (fld w 10 6) (fld w 16 5) (fld w 21 3) (fld w 24 3) (fld w 7 3))
  | 1 => needZero w 28 2 (.vst (fld w 10 6) (fld w 16 5) (fld w 21 3) (fld w 24 3) (fld w 27 1) (fld w 7 3))
  | 2 => needZero w 29 1 (.vldx (fld w 10 6) (fld w 16 5) (fld w 21 6) (fld w 27 2) (fld w 7 3))
  | _ => .ok (.vstx (fld w 10 6) (fld w 16 5) (fld w 21 6) (fld w 27 2) (fld w 29 1) (fld w 7 3))

/-- Major 19, VB0 (R64). -/
def decodeVb0 (w : Nat) : Except DecodeError Instr :=
  match bitsOf w 28 4 with
  | 0 => .ok (.vadd (fld w 10 6) (fld w 16 6) (fld w 22 3) (fld w 25 3) (fld w 7 3))
  | 1 => .ok (.vsub (fld w 10 6) (fld w 16 6) (fld w 22 3) (fld w 25 3) (fld w 7 3))
  | 2 => .ok (.vadds (fld w 10 6) (fld w 16 6) (fld w 22 3) (fld w 25 3) (fld w 7 3))
  | 3 => .ok (.vsubs (fld w 10 6) (fld w 16 6) (fld w 22 3) (fld w 25 3) (fld w 7 3))
  | 4 => .ok (.vmin (fld w 10 6) (fld w 16 6) (fld w 22 3) (fld w 25 3) (fld w 7 3))
  | 5 => .ok (.vmax (fld w 10 6) (fld w 16 6) (fld w 22 3) (fld w 25 3) (fld w 7 3))
  | 6 => .ok (.vabs (fld w 10 6) (fld w 16 6) (fld w 22 3) (fld w 25 3) (fld w 7 3))
  | 7 => .ok (.vneg (fld w 10 6) (fld w 16 6) (fld w 22 3) (fld w 25 3) (fld w 7 3))
  | 8 => .ok (.vand (fld w 10 6) (fld w 16 6) (fld w 22 3) (fld w 25 3) (fld w 7 3))
  | 9 => .ok (.vor (fld w 10 6) (fld w 16 6) (fld w 22 3) (fld w 25 3) (fld w 7 3))
  | 10 => .ok (.vxor (fld w 10 6) (fld w 16 6) (fld w 22 3) (fld w 25 3) (fld w 7 3))
  | 11 => .ok (.vshl (fld w 10 6) (fld w 16 6) (fld w 22 3) (fld w 25 3) (fld w 7 3))
  | 12 => .ok (.vshr (fld w 10 6) (fld w 16 6) (fld w 22 3) (fld w 25 3) (fld w 7 3))
  | 13 => .ok (.vcmp (fld w 10 6) (fld w 16 6) (fld w 22 3) (fld w 25 3) (fld w 7 3))
  | 14 => .ok (.vsel (fld w 10 6) (fld w 16 6) (fld w 22 3) (fld w 25 3) (fld w 7 3))
  | 15 => .ok (.vmov (fld w 10 6) (fld w 16 6) (fld w 22 3) (fld w 25 3) (fld w 7 3))
  | _ => .error .unassignedFunction

/-- Major 20, VB1 (R64). The predicate forms use the low three bits of a and d. -/
def decodeVb1 (w : Nat) : Except DecodeError Instr :=
  match bitsOf w 28 4 with
  | 0 => .ok (.vmul (fld w 10 6) (fld w 16 6) (fld w 22 3) (fld w 25 3) (fld w 7 3))
  | 1 => .ok (.cmul (fld w 10 6) (fld w 16 6) (fld w 22 3) (fld w 25 3) (fld w 7 3))
  | 2 => .ok (.cmulc (fld w 10 6) (fld w 16 6) (fld w 22 3) (fld w 25 3) (fld w 7 3))
  | 3 => .ok (.vcvt (fld w 10 6) (fld w 16 6) (fld w 22 3) (fld w 25 3) (fld w 7 3))
  | 4 => .ok (.vbfly (fld w 10 6) (fld w 16 6) (fld w 22 3) (fld w 25 3) (fld w 7 3))
  | 5 => .ok (.vperm (fld w 10 6) (fld w 16 6) (fld w 22 3) (fld w 25 3) (fld w 7 3))
  | 6 => .ok (.vbcast (fld w 10 6) (fld w 16 6) (fld w 22 3) (fld w 25 3) (fld w 7 3))
  | 7 => .ok (.vred (fld w 10 6) (fld w 16 6) (fld w 22 3) (fld w 25 3) (fld w 7 3))
  | 8 => if bitsOf w 13 3 = 0 ∧ bitsOf w 19 9 = 0 then .ok (.pand (fld w 10 3) (fld w 16 3) (fld w 7 3)) else .error .reservedBits
  | 9 => if bitsOf w 13 3 = 0 ∧ bitsOf w 19 9 = 0 then .ok (.por (fld w 10 3) (fld w 16 3) (fld w 7 3)) else .error .reservedBits
  | 10 => if bitsOf w 13 3 = 0 ∧ bitsOf w 19 9 = 0 then .ok (.pnot (fld w 10 3) (fld w 16 3) (fld w 7 3)) else .error .reservedBits
  | _ => .error .unassignedFunction

/-- Major 25, CSR (R38): op in bits 11:10, bits 19:17 reserved. -/
def decodeCsr (w : Nat) : Except DecodeError Instr :=
  match bitsOf w 10 2 with
  | 0 => needZero w 17 3 (.csrr (fld w 12 5) (fld w 20 12) (fld w 7 3))
  | 1 => needZero w 17 3 (.csrw (fld w 12 5) (fld w 20 12) (fld w 7 3))
  | 2 => needZero w 17 3 (.csrs (fld w 12 5) (fld w 20 12) (fld w 7 3))
  | _ => needZero w 17 3 (.csrc (fld w 12 5) (fld w 20 12) (fld w 7 3))

/-- `fence` (R65): kind in bits 31:29. -/
def decodeFence (w : Nat) : Except DecodeError Instr :=
  match bitsOf w 29 3 with
  | 0 => needZero w 16 10 (.fenceFull (fld w 26 3) (fld w 7 3))
  | 1 => needZero w 16 10 (.fenceAcq (fld w 26 3) (fld w 7 3))
  | 2 => needZero w 16 10 (.fenceRel (fld w 26 3) (fld w 7 3))
  | _ => .error .unassignedFunction

/-- `tlbinv` (R354): kind in bits 27:26, bits 31:28 reserved. -/
def decodeTlbinv (w : Nat) : Except DecodeError Instr :=
  match bitsOf w 26 2 with
  | 0 => if bitsOf w 21 5 = 0 ∧ bitsOf w 28 4 = 0 then .ok (.tlbinvPage (fld w 16 5) (fld w 7 3)) else .error .reservedBits
  | 1 => if bitsOf w 21 5 = 0 ∧ bitsOf w 28 4 = 0 then .ok (.tlbinvTag (fld w 16 5) (fld w 7 3)) else .error .reservedBits
  | 2 => if bitsOf w 21 5 = 0 ∧ bitsOf w 28 4 = 0 then .ok (.tlbinvAll (fld w 16 5) (fld w 7 3)) else .error .reservedBits
  | _ => .error .unassignedFunction

/-- Major 26, SYS (R65). -/
def decodeSys (w : Nat) : Except DecodeError Instr :=
  match bitsOf w 10 6 with
  | 0 => decodeFence w
  | 6 => decodeTlbinv w
  | 1 => needZero w 16 16 (.fenceAck (fld w 7 3))
  | 2 => needZero w 30 2 (.wait (fld w 16 5) (fld w 21 5) (fld w 26 3) (fld w 29 1) (fld w 7 3))
  | 3 => if bitsOf w 21 5 = 0 ∧ bitsOf w 27 5 = 0 then .ok (.pf (fld w 16 5) (fld w 26 1) (fld w 7 3)) else .error .reservedBits
  | 4 => needZero w 16 10 (.trap (fld w 26 6) (fld w 7 3))
  | 5 => needZero w 16 16 (.eret (fld w 7 3))
  | 7 => needZero w 16 16 (.fenceI (fld w 7 3))
  | 8 => needZero w 16 10 (.pause (fld w 26 6) (fld w 7 3))
  | 9 => needZero w 16 16 (.taskEnd (fld w 7 3))
  | 10 => needZero w 26 6 (.spawn (fld w 16 5) (fld w 21 5) (fld w 7 3))
  | 11 => needZero w 21 11 (.yield (fld w 16 5) (fld w 7 3))
  | 12 => needZero w 26 6 (.cntInit (fld w 16 5) (fld w 21 5) (fld w 7 3))
  | 13 => needZero w 26 6 (.barInit (fld w 16 5) (fld w 21 5) (fld w 7 3))
  | 14 => needZero w 21 11 (.barArrive (fld w 16 5) (fld w 7 3))
  | 15 => needZero w 26 6 (.barWait (fld w 16 5) (fld w 21 5) (fld w 7 3))
  | 16 => needZero w 26 6 (.barLink (fld w 16 5) (fld w 21 5) (fld w 7 3))
  | 17 => needZero w 21 11 (.phase (fld w 16 5) (fld w 7 3))
  | 18 => if bitsOf w 21 5 = 0 ∧ bitsOf w 27 5 = 0 then .ok (.sleep (fld w 16 5) (fld w 26 1) (fld w 7 3)) else .error .reservedBits
  | 19 => needZero w 26 6 (.teamBind (fld w 16 5) (fld w 21 5) (fld w 7 3))
  | 20 => .ok (.hand (fld w 16 5) (fld w 21 5) (fld w 26 3) (fld w 29 3) (fld w 7 3))
  | 21 => needZero w 16 16 (.mark (fld w 7 3))
  | 22 => needZero w 16 10 (.driftSet (fld w 26 6) (fld w 7 3))
  | 23 => needZero w 16 16 (.realign (fld w 7 3))
  | 24 => needZero w 16 16 (.teamEnd (fld w 7 3))
  | _ => .error .unassignedFunction

/-- `mreq` (R74): bit 31 is the kind; a read names s0 as d. -/
def decodeMreq (w : Nat) : Except DecodeError Instr :=
  if bitsOf w 31 1 = 0 then needZero w 10 5 (.mreqRead (fld w 15 5) (fld w 25 6) (fld w 7 3)) else .ok (.mreqWrite (fld w 10 5) (fld w 15 5) (fld w 25 6) (fld w 7 3))

/-- Major 27, ENG (R66). -/
def decodeEng (w : Nat) : Except DecodeError Instr :=
  match bitsOf w 20 5 with
  | 0 => decodeMreq w
  | 1 => .ok (.pgmove (fld w 10 5) (fld w 15 5) (fld w 25 5) (fld w 30 2) (fld w 7 3))
  | 2 => needZero w 27 5 (.pghot (fld w 10 5) (fld w 15 5) (fld w 25 2) (fld w 7 3))
  | 3 => needZero w 25 7 (.pgabort (fld w 10 5) (fld w 15 5) (fld w 7 3))
  | 4 => needZero w 26 6 (.send (fld w 10 5) (fld w 15 5) (fld w 25 1) (fld w 7 3))
  | 5 => needZero w 25 7 (.portOpen (fld w 10 5) (fld w 15 5) (fld w 7 3))
  | 6 => if bitsOf w 15 5 = 0 ∧ bitsOf w 25 7 = 0 then .ok (.portClose (fld w 10 5) (fld w 7 3)) else .error .reservedBits
  | 7 => needZero w 25 7 (.treeInj (fld w 10 5) (fld w 15 5) (fld w 7 3))
  | 8 => needZero w 25 7 (.treeExt (fld w 10 5) (fld w 15 5) (fld w 7 3))
  | 9 => needZero w 25 7 (.cpy (fld w 10 5) (fld w 15 5) (fld w 7 3))
  | 10 => needZero w 25 7 (.cpyTry (fld w 10 5) (fld w 15 5) (fld w 7 3))
  | 11 => needZero w 25 7 (.cpyid (fld w 10 5) (fld w 15 5) (fld w 7 3))
  | 12 => if bitsOf w 10 5 = 0 ∧ bitsOf w 25 7 = 0 then .ok (.cpywait (fld w 15 5) (fld w 7 3)) else .error .reservedBits
  | 13 => needZero w 28 4 (.sbind (fld w 10 5) (fld w 15 5) (fld w 25 3) (fld w 7 3))
  | 14 => if bitsOf w 15 5 = 0 ∧ bitsOf w 28 4 = 0 then .ok (.sfree (fld w 10 5) (fld w 25 3) (fld w 7 3)) else .error .reservedBits
  | 15 => if bitsOf w 15 5 = 0 ∧ bitsOf w 28 4 = 0 then .ok (.sstat (fld w 10 5) (fld w 25 3) (fld w 7 3)) else .error .reservedBits
  | 16 => needZero w 10 5 (.dictLd (fld w 15 5) (fld w 25 7) (fld w 7 3))
  | 17 => if bitsOf w 10 5 = 0 ∧ bitsOf w 25 7 = 0 then .ok (.launch (fld w 15 5) (fld w 7 3)) else .error .reservedBits
  | 18 => needZero w 25 7 (.launchTry (fld w 10 5) (fld w 15 5) (fld w 7 3))
  | _ => .error .unassignedFunction

/-- `axdef` (R182): naming s0 as a is the release form. Bit 15 is reserved because d is scalar (R40). -/
def decodeAxdef (w : Nat) : Except DecodeError Instr :=
  if bitsOf w 16 5 = 0 then needZero w 15 1 (.axdefRelease (fld w 10 5) (fld w 21 5) (fld w 7 3)) else needZero w 15 1 (.axdef (fld w 10 5) (fld w 16 5) (fld w 21 5) (fld w 7 3))

/-- Major 28, AX (R67). -/
def decodeAx (w : Nat) : Except DecodeError Instr :=
  match bitsOf w 26 6 with
  | 0 => decodeAxdef w
  | 1 => needZero w 15 1 (.mapSet (fld w 10 5) (fld w 16 5) (fld w 21 5) (fld w 7 3))
  | 2 => needZero w 15 1 (.mapSwap (fld w 10 5) (fld w 16 5) (fld w 21 5) (fld w 7 3))
  | 3 => needZero w 15 1 (.mapRd (fld w 10 5) (fld w 16 5) (fld w 21 5) (fld w 7 3))
  | 4 => needZero w 15 1 (.remap (fld w 10 5) (fld w 16 5) (fld w 21 5) (fld w 7 3))
  | 5 => if bitsOf w 10 6 = 0 ∧ bitsOf w 21 5 = 0 then .ok (.rmwait (fld w 16 5) (fld w 7 3)) else .error .reservedBits
  | 6 => .ok (.axld (fld w 10 6) (fld w 16 5) (fld w 21 5) (fld w 7 3))
  | 7 => .ok (.axst (fld w 10 6) (fld w 16 5) (fld w 21 5) (fld w 7 3))
  | 8 => if bitsOf w 10 6 = 0 ∧ bitsOf w 21 5 = 0 then .ok (.axctx (fld w 16 5) (fld w 7 3)) else .error .reservedBits
  | 9 => needZero w 10 6 (.axmat (fld w 16 5) (fld w 21 5) (fld w 7 3))
  | 10 => needZero w 15 1 (.axap (fld w 10 5) (fld w 16 5) (fld w 21 5) (fld w 7 3))
  | 11 => needZero w 21 5 (.axmm (fld w 10 6) (fld w 16 5) (fld w 7 3))
  | 12 => needZero w 15 1 (.axdrain (fld w 10 5) (fld w 16 5) (fld w 21 5) (fld w 7 3))
  | 13 => if bitsOf w 15 1 = 0 ∧ bitsOf w 21 5 = 0 then .ok (.axstat (fld w 10 5) (fld w 16 5) (fld w 7 3)) else .error .reservedBits
  | 14 => if bitsOf w 10 6 = 0 ∧ bitsOf w 21 5 = 0 then .ok (.axwait (fld w 16 5) (fld w 7 3)) else .error .reservedBits
  | _ => .error .unassignedFunction

/-- A 32-bit word by its major opcode (R41), before the field limits of R42. -/
def decodeRaw32 (w : Nat) : Except DecodeError Instr :=
  match bitsOf w 2 5 with
  | 0 => decodeOp w
  | 1 => .ok (.addi (fld w 10 5) (fld w 15 5) (fld w 20 12) (fld w 7 3))
  | 2 => decodeLogi w
  | 3 => .ok (.lim (fld w 10 5) (fld w 15 17) (fld w 7 3))
  | 4 => .ok (.jal (fld w 10 5) (fld w 15 17) (fld w 7 3))
  | 5 => .ok (.jr (fld w 10 5) (fld w 15 5) (fld w 20 12) (fld w 7 3))
  | 6 => .ok (.brEq (fld w 10 5) (fld w 15 5) (fld w 20 12) (fld w 7 3))
  | 7 => .ok (.brNe (fld w 10 5) (fld w 15 5) (fld w 20 12) (fld w 7 3))
  | 8 => .ok (.brLt (fld w 10 5) (fld w 15 5) (fld w 20 12) (fld w 7 3))
  | 9 => .ok (.brGe (fld w 10 5) (fld w 15 5) (fld w 20 12) (fld w 7 3))
  | 10 => .ok (.brLtn (fld w 10 5) (fld w 15 5) (fld w 20 12) (fld w 7 3))
  | 11 => .ok (.brGen (fld w 10 5) (fld w 15 5) (fld w 20 12) (fld w 7 3))
  | 12 => needZero w 15 5 (.loop (fld w 10 5) (fld w 20 12) (fld w 7 3))
  | 13 => decodeLd w
  | 14 => decodeSt w
  | 15 => decodeOrd w
  | 16 => decodeAmoW w
  | 17 => decodeAmoD w
  | 18 => decodeVm w
  | 19 => decodeVb0 w
  | 20 => decodeVb1 w
  | 21 => .ok (.vfma (fld w 10 6) (fld w 16 6) (fld w 22 6) (fld w 28 2) (fld w 30 2) (fld w 7 3))
  | 22 => .ok (.vfms (fld w 10 6) (fld w 16 6) (fld w 22 6) (fld w 28 2) (fld w 30 2) (fld w 7 3))
  | 23 => .ok (.cfma (fld w 10 6) (fld w 16 6) (fld w 22 6) (fld w 28 2) (fld w 30 2) (fld w 7 3))
  | 24 => .ok (.cfmac (fld w 10 6) (fld w 16 6) (fld w 22 6) (fld w 28 2) (fld w 30 2) (fld w 7 3))
  | 25 => decodeCsr w
  | 26 => decodeSys w
  | 27 => decodeEng w
  | 28 => decodeAx w
  | _ => .error .unassignedMajor

/-- A 16-bit parcel by quadrant and op (R21, R58); quadrant 2 with bits 15:14 = 11 is the role prefix (R23). -/
def decodeRaw16 (w : Nat) : Except DecodeError Instr :=
  match bitsOf w 0 2, bitsOf w 12 4 with
  | 0, 1 => .ok (.cMov (fld w 2 5) (fld w 7 5))
  | 0, 2 => .ok (.cAdd (fld w 2 5) (fld w 7 5))
  | 0, 3 => .ok (.cSub (fld w 2 5) (fld w 7 5))
  | 0, 4 => .ok (.cAnd (fld w 2 5) (fld w 7 5))
  | 0, 5 => .ok (.cOr (fld w 2 5) (fld w 7 5))
  | 0, 6 => .ok (.cXor (fld w 2 5) (fld w 7 5))
  | 0, 7 => .ok (.cLdD (fld w 2 5) (fld w 7 5))
  | 0, 8 => .ok (.cStD (fld w 2 5) (fld w 7 5))
  | 0, 9 => needZero w 7 5 (.cJr (fld w 2 5))
  | 1, 0 => .ok (.cAddi (fld w 2 5) (fld w 7 5))
  | 1, 1 => .ok (.cLim (fld w 2 5) (fld w 7 5))
  | 1, 2 => .ok (.cSlli (fld w 2 5) (fld w 7 5))
  | 1, 3 => .ok (.cSrli (fld w 2 5) (fld w 7 5))
  | 1, 4 => .ok (.cSrai (fld w 2 5) (fld w 7 5))
  | 1, 5 => .ok (.cAndi (fld w 2 5) (fld w 7 5))
  | 2, 0 => .ok (.cBrEq (fld w 2 5) (fld w 7 5))
  | 2, 1 => .ok (.cBrNe (fld w 2 5) (fld w 7 5))
  | 2, 2 => .ok (.cBrLt (fld w 2 5) (fld w 7 5))
  | 2, 3 => .ok (.cBrGe (fld w 2 5) (fld w 7 5))
  | 2, 4 => .ok (.cJmp (fld w 2 10))
  | 2, 12 => .ok (.role (fld w 2 4) (fld w 6 8))
  | 2, 13 => .ok (.role (fld w 2 4) (fld w 6 8))
  | 2, 14 => .ok (.role (fld w 2 4) (fld w 6 8))
  | 2, 15 => .ok (.role (fld w 2 4) (fld w 6 8))
  | _, _ => .error .unassigned16

/-- The field limits of R42 applied to a decoded instruction. -/
def checked (r : Except DecodeError Instr) : Except DecodeError Instr :=
  match r with
  | .ok i => match i.check with
    | none => .ok i
    | some e => .error (.illFormed e)
  | .error e => .error e

/-- R20: the first parcel's bits 1:0 give the length; 0b11 marks two parcels. -/
def isLong (parcel : Nat) : Bool := bitsOf parcel 0 2 = 3

/-- A 16-bit parcel. -/
def decode16 (w : Nat) : Except DecodeError Instr := checked (decodeRaw16 w)

/-- A 32-bit word. -/
def decode32 (w : Nat) : Except DecodeError Instr := checked (decodeRaw32 w)

/-- Two bytes, least significant first (R3). -/
def le16 (a b : Byte) : Nat := a.toNat + 256 * b.toNat

/-- The instruction at the head of some bytes, and its length in bytes. -/
def decodeBytes : List Byte → Except DecodeError (Instr × Nat)
  | b0 :: b1 :: t =>
    if isLong (le16 b0 b1) then
      match t with
      | b2 :: b3 :: _ =>
        match decode32 (le16 b0 b1 + 65536 * le16 b2 b3) with
        | .ok i => .ok (i, 4)
        | .error e => .error e
      | _ => .error .truncated
    else match decode16 (le16 b0 b1) with
      | .ok i => .ok (i, 2)
      | .error e => .error e
  | _ => .error .truncated

/-- The instruction that the decoder reads from the low nbits of w, laid out as memory holds it. -/
def decodeTableWord (nbits w : Nat) : Option Instr :=
  let v := w % 2 ^ nbits
  let bytes := (List.range 4).map fun k => (BitVec.ofNat 8 (v / 256 ^ k) : Byte)
  match decodeBytes bytes with
  | .ok (i, _) => some i
  | .error _ => none

/-! ### The encoder -/

/-- A 32-bit word with fields at bits 10, 15, 20, 7. -/
def enc32At10_15_20_7w5553 (base : Nat) (f10 : BitVec 5) (f15 : BitVec 5) (f20 : BitVec 5) (f7 : BitVec 3) : Option (Nat × Nat) :=
  some (32, base + f10.toNat * 2 ^ 10 + f15.toNat * 2 ^ 15 + f20.toNat * 2 ^ 20 + f7.toNat * 2 ^ 7)

/-- A 32-bit word with fields at bits 10, 15, 7. -/
def enc32At10_15_7w553 (base : Nat) (f10 : BitVec 5) (f15 : BitVec 5) (f7 : BitVec 3) : Option (Nat × Nat) :=
  some (32, base + f10.toNat * 2 ^ 10 + f15.toNat * 2 ^ 15 + f7.toNat * 2 ^ 7)

/-- A 32-bit word with fields at bits 10, 15, 20, 7. -/
def enc32At10_15_20_7w55123 (base : Nat) (f10 : BitVec 5) (f15 : BitVec 5) (f20 : BitVec 12) (f7 : BitVec 3) : Option (Nat × Nat) :=
  some (32, base + f10.toNat * 2 ^ 10 + f15.toNat * 2 ^ 15 + f20.toNat * 2 ^ 20 + f7.toNat * 2 ^ 7)

/-- A 32-bit word with fields at bits 10, 15, 20, 7. -/
def enc32At10_15_20_7w55103 (base : Nat) (f10 : BitVec 5) (f15 : BitVec 5) (f20 : BitVec 10) (f7 : BitVec 3) : Option (Nat × Nat) :=
  some (32, base + f10.toNat * 2 ^ 10 + f15.toNat * 2 ^ 15 + f20.toNat * 2 ^ 20 + f7.toNat * 2 ^ 7)

/-- A 32-bit word with fields at bits 10, 15, 20, 7. -/
def enc32At10_15_20_7w5563 (base : Nat) (f10 : BitVec 5) (f15 : BitVec 5) (f20 : BitVec 6) (f7 : BitVec 3) : Option (Nat × Nat) :=
  some (32, base + f10.toNat * 2 ^ 10 + f15.toNat * 2 ^ 15 + f20.toNat * 2 ^ 20 + f7.toNat * 2 ^ 7)

/-- A 32-bit word with fields at bits 10, 15, 7. -/
def enc32At10_15_7w5173 (base : Nat) (f10 : BitVec 5) (f15 : BitVec 17) (f7 : BitVec 3) : Option (Nat × Nat) :=
  some (32, base + f10.toNat * 2 ^ 10 + f15.toNat * 2 ^ 15 + f7.toNat * 2 ^ 7)

/-- A 32-bit word with fields at bits 10, 20, 7. -/
def enc32At10_20_7w5123 (base : Nat) (f10 : BitVec 5) (f20 : BitVec 12) (f7 : BitVec 3) : Option (Nat × Nat) :=
  some (32, base + f10.toNat * 2 ^ 10 + f20.toNat * 2 ^ 20 + f7.toNat * 2 ^ 7)

/-- A 32-bit word with fields at bits 10, 15, 20, 23, 7. -/
def enc32At10_15_20_23_7w55193 (base : Nat) (f10 : BitVec 5) (f15 : BitVec 5) (f20 : BitVec 1) (f23 : BitVec 9) (f7 : BitVec 3) : Option (Nat × Nat) :=
  some (32, base + f10.toNat * 2 ^ 10 + f15.toNat * 2 ^ 15 + f20.toNat * 2 ^ 20 + f23.toNat * 2 ^ 23 + f7.toNat * 2 ^ 7)

/-- A 32-bit word with fields at bits 10, 15, 23, 7. -/
def enc32At10_15_23_7w5593 (base : Nat) (f10 : BitVec 5) (f15 : BitVec 5) (f23 : BitVec 9) (f7 : BitVec 3) : Option (Nat × Nat) :=
  some (32, base + f10.toNat * 2 ^ 10 + f15.toNat * 2 ^ 15 + f23.toNat * 2 ^ 23 + f7.toNat * 2 ^ 7)

/-- A 32-bit word with fields at bits 10, 15, 21, 23, 26, 7. -/
def enc32At10_15_21_23_26_7w552363 (base : Nat) (f10 : BitVec 5) (f15 : BitVec 5) (f21 : BitVec 2) (f23 : BitVec 3) (f26 : BitVec 6) (f7 : BitVec 3) : Option (Nat × Nat) :=
  some (32, base + f10.toNat * 2 ^ 10 + f15.toNat * 2 ^ 15 + f21.toNat * 2 ^ 21 + f23.toNat * 2 ^ 23 + f26.toNat * 2 ^ 26 + f7.toNat * 2 ^ 7)

/-- A 32-bit word with fields at bits 10, 15, 20, 25, 7. -/
def enc32At10_15_20_25_7w55533 (base : Nat) (f10 : BitVec 5) (f15 : BitVec 5) (f20 : BitVec 5) (f25 : BitVec 3) (f7 : BitVec 3) : Option (Nat × Nat) :=
  some (32, base + f10.toNat * 2 ^ 10 + f15.toNat * 2 ^ 15 + f20.toNat * 2 ^ 20 + f25.toNat * 2 ^ 25 + f7.toNat * 2 ^ 7)

/-- A 32-bit word with fields at bits 10, 16, 21, 24, 7. -/
def enc32At10_16_21_24_7w65333 (base : Nat) (f10 : BitVec 6) (f16 : BitVec 5) (f21 : BitVec 3) (f24 : BitVec 3) (f7 : BitVec 3) : Option (Nat × Nat) :=
  some (32, base + f10.toNat * 2 ^ 10 + f16.toNat * 2 ^ 16 + f21.toNat * 2 ^ 21 + f24.toNat * 2 ^ 24 + f7.toNat * 2 ^ 7)

/-- A 32-bit word with fields at bits 10, 16, 21, 24, 27, 7. -/
def enc32At10_16_21_24_27_7w653313 (base : Nat) (f10 : BitVec 6) (f16 : BitVec 5) (f21 : BitVec 3) (f24 : BitVec 3) (f27 : BitVec 1) (f7 : BitVec 3) : Option (Nat × Nat) :=
  some (32, base + f10.toNat * 2 ^ 10 + f16.toNat * 2 ^ 16 + f21.toNat * 2 ^ 21 + f24.toNat * 2 ^ 24 + f27.toNat * 2 ^ 27 + f7.toNat * 2 ^ 7)

/-- A 32-bit word with fields at bits 10, 16, 21, 27, 7. -/
def enc32At10_16_21_27_7w65623 (base : Nat) (f10 : BitVec 6) (f16 : BitVec 5) (f21 : BitVec 6) (f27 : BitVec 2) (f7 : BitVec 3) : Option (Nat × Nat) :=
  some (32, base + f10.toNat * 2 ^ 10 + f16.toNat * 2 ^ 16 + f21.toNat * 2 ^ 21 + f27.toNat * 2 ^ 27 + f7.toNat * 2 ^ 7)

/-- A 32-bit word with fields at bits 10, 16, 21, 27, 29, 7. -/
def enc32At10_16_21_27_29_7w656213 (base : Nat) (f10 : BitVec 6) (f16 : BitVec 5) (f21 : BitVec 6) (f27 : BitVec 2) (f29 : BitVec 1) (f7 : BitVec 3) : Option (Nat × Nat) :=
  some (32, base + f10.toNat * 2 ^ 10 + f16.toNat * 2 ^ 16 + f21.toNat * 2 ^ 21 + f27.toNat * 2 ^ 27 + f29.toNat * 2 ^ 29 + f7.toNat * 2 ^ 7)

/-- A 32-bit word with fields at bits 10, 16, 22, 25, 7. -/
def enc32At10_16_22_25_7w66333 (base : Nat) (f10 : BitVec 6) (f16 : BitVec 6) (f22 : BitVec 3) (f25 : BitVec 3) (f7 : BitVec 3) : Option (Nat × Nat) :=
  some (32, base + f10.toNat * 2 ^ 10 + f16.toNat * 2 ^ 16 + f22.toNat * 2 ^ 22 + f25.toNat * 2 ^ 25 + f7.toNat * 2 ^ 7)

/-- A 32-bit word with fields at bits 10, 16, 7. -/
def enc32At10_16_7w333 (base : Nat) (f10 : BitVec 3) (f16 : BitVec 3) (f7 : BitVec 3) : Option (Nat × Nat) :=
  some (32, base + f10.toNat * 2 ^ 10 + f16.toNat * 2 ^ 16 + f7.toNat * 2 ^ 7)

/-- A 32-bit word with fields at bits 10, 16, 22, 28, 30, 7. -/
def enc32At10_16_22_28_30_7w666223 (base : Nat) (f10 : BitVec 6) (f16 : BitVec 6) (f22 : BitVec 6) (f28 : BitVec 2) (f30 : BitVec 2) (f7 : BitVec 3) : Option (Nat × Nat) :=
  some (32, base + f10.toNat * 2 ^ 10 + f16.toNat * 2 ^ 16 + f22.toNat * 2 ^ 22 + f28.toNat * 2 ^ 28 + f30.toNat * 2 ^ 30 + f7.toNat * 2 ^ 7)

/-- A 32-bit word with fields at bits 12, 20, 7. -/
def enc32At12_20_7w5123 (base : Nat) (f12 : BitVec 5) (f20 : BitVec 12) (f7 : BitVec 3) : Option (Nat × Nat) :=
  some (32, base + f12.toNat * 2 ^ 12 + f20.toNat * 2 ^ 20 + f7.toNat * 2 ^ 7)

/-- A 32-bit word with fields at bits 26, 7. -/
def enc32At26_7w33 (base : Nat) (f26 : BitVec 3) (f7 : BitVec 3) : Option (Nat × Nat) :=
  some (32, base + f26.toNat * 2 ^ 26 + f7.toNat * 2 ^ 7)

/-- A 32-bit word with fields at bits 7. -/
def enc32At7w3 (base : Nat) (f7 : BitVec 3) : Option (Nat × Nat) :=
  some (32, base + f7.toNat * 2 ^ 7)

/-- A 32-bit word with fields at bits 16, 21, 26, 29, 7. -/
def enc32At16_21_26_29_7w55313 (base : Nat) (f16 : BitVec 5) (f21 : BitVec 5) (f26 : BitVec 3) (f29 : BitVec 1) (f7 : BitVec 3) : Option (Nat × Nat) :=
  some (32, base + f16.toNat * 2 ^ 16 + f21.toNat * 2 ^ 21 + f26.toNat * 2 ^ 26 + f29.toNat * 2 ^ 29 + f7.toNat * 2 ^ 7)

/-- A 32-bit word with fields at bits 16, 26, 7. -/
def enc32At16_26_7w513 (base : Nat) (f16 : BitVec 5) (f26 : BitVec 1) (f7 : BitVec 3) : Option (Nat × Nat) :=
  some (32, base + f16.toNat * 2 ^ 16 + f26.toNat * 2 ^ 26 + f7.toNat * 2 ^ 7)

/-- A 32-bit word with fields at bits 26, 7. -/
def enc32At26_7w63 (base : Nat) (f26 : BitVec 6) (f7 : BitVec 3) : Option (Nat × Nat) :=
  some (32, base + f26.toNat * 2 ^ 26 + f7.toNat * 2 ^ 7)

/-- A 32-bit word with fields at bits 16, 7. -/
def enc32At16_7w53 (base : Nat) (f16 : BitVec 5) (f7 : BitVec 3) : Option (Nat × Nat) :=
  some (32, base + f16.toNat * 2 ^ 16 + f7.toNat * 2 ^ 7)

/-- A 32-bit word with fields at bits 16, 21, 7. -/
def enc32At16_21_7w553 (base : Nat) (f16 : BitVec 5) (f21 : BitVec 5) (f7 : BitVec 3) : Option (Nat × Nat) :=
  some (32, base + f16.toNat * 2 ^ 16 + f21.toNat * 2 ^ 21 + f7.toNat * 2 ^ 7)

/-- A 32-bit word with fields at bits 16, 21, 26, 29, 7. -/
def enc32At16_21_26_29_7w55333 (base : Nat) (f16 : BitVec 5) (f21 : BitVec 5) (f26 : BitVec 3) (f29 : BitVec 3) (f7 : BitVec 3) : Option (Nat × Nat) :=
  some (32, base + f16.toNat * 2 ^ 16 + f21.toNat * 2 ^ 21 + f26.toNat * 2 ^ 26 + f29.toNat * 2 ^ 29 + f7.toNat * 2 ^ 7)

/-- A 32-bit word with fields at bits 15, 25, 7. -/
def enc32At15_25_7w563 (base : Nat) (f15 : BitVec 5) (f25 : BitVec 6) (f7 : BitVec 3) : Option (Nat × Nat) :=
  some (32, base + f15.toNat * 2 ^ 15 + f25.toNat * 2 ^ 25 + f7.toNat * 2 ^ 7)

/-- A 32-bit word with fields at bits 10, 15, 25, 7. -/
def enc32At10_15_25_7w5563 (base : Nat) (f10 : BitVec 5) (f15 : BitVec 5) (f25 : BitVec 6) (f7 : BitVec 3) : Option (Nat × Nat) :=
  some (32, base + f10.toNat * 2 ^ 10 + f15.toNat * 2 ^ 15 + f25.toNat * 2 ^ 25 + f7.toNat * 2 ^ 7)

/-- A 32-bit word with fields at bits 10, 15, 25, 30, 7. -/
def enc32At10_15_25_30_7w55523 (base : Nat) (f10 : BitVec 5) (f15 : BitVec 5) (f25 : BitVec 5) (f30 : BitVec 2) (f7 : BitVec 3) : Option (Nat × Nat) :=
  some (32, base + f10.toNat * 2 ^ 10 + f15.toNat * 2 ^ 15 + f25.toNat * 2 ^ 25 + f30.toNat * 2 ^ 30 + f7.toNat * 2 ^ 7)

/-- A 32-bit word with fields at bits 10, 15, 25, 7. -/
def enc32At10_15_25_7w5523 (base : Nat) (f10 : BitVec 5) (f15 : BitVec 5) (f25 : BitVec 2) (f7 : BitVec 3) : Option (Nat × Nat) :=
  some (32, base + f10.toNat * 2 ^ 10 + f15.toNat * 2 ^ 15 + f25.toNat * 2 ^ 25 + f7.toNat * 2 ^ 7)

/-- A 32-bit word with fields at bits 10, 15, 25, 7. -/
def enc32At10_15_25_7w5513 (base : Nat) (f10 : BitVec 5) (f15 : BitVec 5) (f25 : BitVec 1) (f7 : BitVec 3) : Option (Nat × Nat) :=
  some (32, base + f10.toNat * 2 ^ 10 + f15.toNat * 2 ^ 15 + f25.toNat * 2 ^ 25 + f7.toNat * 2 ^ 7)

/-- A 32-bit word with fields at bits 10, 7. -/
def enc32At10_7w53 (base : Nat) (f10 : BitVec 5) (f7 : BitVec 3) : Option (Nat × Nat) :=
  some (32, base + f10.toNat * 2 ^ 10 + f7.toNat * 2 ^ 7)

/-- A 32-bit word with fields at bits 15, 7. -/
def enc32At15_7w53 (base : Nat) (f15 : BitVec 5) (f7 : BitVec 3) : Option (Nat × Nat) :=
  some (32, base + f15.toNat * 2 ^ 15 + f7.toNat * 2 ^ 7)

/-- A 32-bit word with fields at bits 10, 15, 25, 7. -/
def enc32At10_15_25_7w5533 (base : Nat) (f10 : BitVec 5) (f15 : BitVec 5) (f25 : BitVec 3) (f7 : BitVec 3) : Option (Nat × Nat) :=
  some (32, base + f10.toNat * 2 ^ 10 + f15.toNat * 2 ^ 15 + f25.toNat * 2 ^ 25 + f7.toNat * 2 ^ 7)

/-- A 32-bit word with fields at bits 10, 25, 7. -/
def enc32At10_25_7w533 (base : Nat) (f10 : BitVec 5) (f25 : BitVec 3) (f7 : BitVec 3) : Option (Nat × Nat) :=
  some (32, base + f10.toNat * 2 ^ 10 + f25.toNat * 2 ^ 25 + f7.toNat * 2 ^ 7)

/-- A 32-bit word with fields at bits 15, 25, 7. -/
def enc32At15_25_7w573 (base : Nat) (f15 : BitVec 5) (f25 : BitVec 7) (f7 : BitVec 3) : Option (Nat × Nat) :=
  some (32, base + f15.toNat * 2 ^ 15 + f25.toNat * 2 ^ 25 + f7.toNat * 2 ^ 7)

/-- A 32-bit word with fields at bits 10, 16, 21, 7. -/
def enc32At10_16_21_7w5553 (base : Nat) (f10 : BitVec 5) (f16 : BitVec 5) (f21 : BitVec 5) (f7 : BitVec 3) : Option (Nat × Nat) :=
  some (32, base + f10.toNat * 2 ^ 10 + f16.toNat * 2 ^ 16 + f21.toNat * 2 ^ 21 + f7.toNat * 2 ^ 7)

/-- A 32-bit word with fields at bits 10, 21, 7. -/
def enc32At10_21_7w553 (base : Nat) (f10 : BitVec 5) (f21 : BitVec 5) (f7 : BitVec 3) : Option (Nat × Nat) :=
  some (32, base + f10.toNat * 2 ^ 10 + f21.toNat * 2 ^ 21 + f7.toNat * 2 ^ 7)

/-- A 32-bit word with fields at bits 10, 16, 21, 7. -/
def enc32At10_16_21_7w6553 (base : Nat) (f10 : BitVec 6) (f16 : BitVec 5) (f21 : BitVec 5) (f7 : BitVec 3) : Option (Nat × Nat) :=
  some (32, base + f10.toNat * 2 ^ 10 + f16.toNat * 2 ^ 16 + f21.toNat * 2 ^ 21 + f7.toNat * 2 ^ 7)

/-- A 32-bit word with fields at bits 10, 16, 7. -/
def enc32At10_16_7w653 (base : Nat) (f10 : BitVec 6) (f16 : BitVec 5) (f7 : BitVec 3) : Option (Nat × Nat) :=
  some (32, base + f10.toNat * 2 ^ 10 + f16.toNat * 2 ^ 16 + f7.toNat * 2 ^ 7)

/-- A 32-bit word with fields at bits 10, 16, 7. -/
def enc32At10_16_7w553 (base : Nat) (f10 : BitVec 5) (f16 : BitVec 5) (f7 : BitVec 3) : Option (Nat × Nat) :=
  some (32, base + f10.toNat * 2 ^ 10 + f16.toNat * 2 ^ 16 + f7.toNat * 2 ^ 7)

/-- A 16-bit word with fields at bits 2, 7. -/
def enc16At2_7w55 (base : Nat) (f2 : BitVec 5) (f7 : BitVec 5) : Option (Nat × Nat) :=
  some (16, base + f2.toNat * 2 ^ 2 + f7.toNat * 2 ^ 7)

/-- A 16-bit word with fields at bits 2. -/
def enc16At2w5 (base : Nat) (f2 : BitVec 5) : Option (Nat × Nat) :=
  some (16, base + f2.toNat * 2 ^ 2)

/-- A 16-bit word with fields at bits 2. -/
def enc16At2w10 (base : Nat) (f2 : BitVec 10) : Option (Nat × Nat) :=
  some (16, base + f2.toNat * 2 ^ 2)

/-- A 16-bit word with fields at bits 2, 6. -/
def enc16At2_6w48 (base : Nat) (f2 : BitVec 4) (f6 : BitVec 8) : Option (Nat × Nat) :=
  some (16, base + f2.toNat * 2 ^ 2 + f6.toNat * 2 ^ 6)

/-- An instruction's length in bits and its word; none for an event of the device and for the rows that restate a
control-register access, which have no encoding of their own. -/
def encodeWord : Instr → Option (Nat × Nat)
  | .add d a b st => enc32At10_15_20_7w5553 0x3 d a b st
  | .sub d a b st => enc32At10_15_20_7w5553 0x2000003 d a b st
  | .andR d a b st => enc32At10_15_20_7w5553 0x4000003 d a b st
  | .orR d a b st => enc32At10_15_20_7w5553 0x6000003 d a b st
  | .xorR d a b st => enc32At10_15_20_7w5553 0x8000003 d a b st
  | .sll d a b st => enc32At10_15_20_7w5553 0xa000003 d a b st
  | .srl d a b st => enc32At10_15_20_7w5553 0xc000003 d a b st
  | .sra d a b st => enc32At10_15_20_7w5553 0xe000003 d a b st
  | .mul d a b st => enc32At10_15_20_7w5553 0x10000003 d a b st
  | .mulh d a b st => enc32At10_15_20_7w5553 0x12000003 d a b st
  | .div d a b st => enc32At10_15_20_7w5553 0x14000003 d a b st
  | .rem d a b st => enc32At10_15_20_7w5553 0x16000003 d a b st
  | .min d a b st => enc32At10_15_20_7w5553 0x18000003 d a b st
  | .max d a b st => enc32At10_15_20_7w5553 0x1a000003 d a b st
  | .minn d a b st => enc32At10_15_20_7w5553 0x1c000003 d a b st
  | .maxn d a b st => enc32At10_15_20_7w5553 0x1e000003 d a b st
  | .mov d a st => enc32At10_15_7w553 0x20000003 d a st
  | .cmpEq d a b st => enc32At10_15_20_7w5553 0x22000003 d a b st
  | .cmpNe d a b st => enc32At10_15_20_7w5553 0x24000003 d a b st
  | .cmpLt d a b st => enc32At10_15_20_7w5553 0x26000003 d a b st
  | .cmpGe d a b st => enc32At10_15_20_7w5553 0x28000003 d a b st
  | .cmpLtn d a b st => enc32At10_15_20_7w5553 0x2a000003 d a b st
  | .cmpGen d a b st => enc32At10_15_20_7w5553 0x2c000003 d a b st
  | .sel d a b st => enc32At10_15_20_7w5553 0x2e000003 d a b st
  | .clz d a st => enc32At10_15_7w553 0x30000003 d a st
  | .popc d a st => enc32At10_15_7w553 0x32000003 d a st
  | .bdep d a b st => enc32At10_15_20_7w5553 0x34000003 d a b st
  | .bxtr d a b st => enc32At10_15_20_7w5553 0x36000003 d a b st
  | .addi d a i st => enc32At10_15_20_7w55123 0x7 d a i st
  | .andi d a i st => enc32At10_15_20_7w55103 0xb d a i st
  | .ori d a i st => enc32At10_15_20_7w55103 0x4000000b d a i st
  | .xori d a i st => enc32At10_15_20_7w55103 0x8000000b d a i st
  | .slli d a k st => enc32At10_15_20_7w5563 0xc000000b d a k st
  | .srli d a k st => enc32At10_15_20_7w5563 0xd000000b d a k st
  | .srai d a k st => enc32At10_15_20_7w5563 0xe000000b d a k st
  | .lim d i st => enc32At10_15_7w5173 0xf d i st
  | .jal d o st => enc32At10_15_7w5173 0x13 d o st
  | .jr d a i st => enc32At10_15_20_7w55123 0x17 d a i st
  | .brEq a b o st => enc32At10_15_20_7w55123 0x1b a b o st
  | .brNe a b o st => enc32At10_15_20_7w55123 0x1f a b o st
  | .brLt a b o st => enc32At10_15_20_7w55123 0x23 a b o st
  | .brGe a b o st => enc32At10_15_20_7w55123 0x27 a b o st
  | .brLtn a b o st => enc32At10_15_20_7w55123 0x2b a b o st
  | .brGen a b o st => enc32At10_15_20_7w55123 0x2f a b o st
  | .loop a o st => enc32At10_20_7w5123 0x33 a o st
  | .ldB d b x o st => enc32At10_15_20_23_7w55193 0x37 d b x o st
  | .ldH d b x o st => enc32At10_15_20_23_7w55193 0x200037 d b x o st
  | .ldW d b x o st => enc32At10_15_20_23_7w55193 0x400037 d b x o st
  | .ldD d b o st => enc32At10_15_23_7w5593 0x600037 d b o st
  | .stB d b f o st => enc32At10_15_20_23_7w55193 0x3b d b f o st
  | .stH d b f o st => enc32At10_15_20_23_7w55193 0x20003b d b f o st
  | .stW d b f o st => enc32At10_15_20_23_7w55193 0x40003b d b f o st
  | .stD d b f o st => enc32At10_15_20_23_7w55193 0x60003b d b f o st
  | .ldAcq d b z c o st => enc32At10_15_21_23_26_7w552363 0x3f d b z c o st
  | .stRel d b z c o st => enc32At10_15_21_23_26_7w552363 0x10003f d b z c o st
  | .amoAddW d a b c st => enc32At10_15_20_25_7w55533 0x43 d a b c st
  | .amoAndW d a b c st => enc32At10_15_20_25_7w55533 0x10000043 d a b c st
  | .amoOrW d a b c st => enc32At10_15_20_25_7w55533 0x20000043 d a b c st
  | .amoXorW d a b c st => enc32At10_15_20_25_7w55533 0x30000043 d a b c st
  | .amoMinW d a b c st => enc32At10_15_20_25_7w55533 0x40000043 d a b c st
  | .amoMaxW d a b c st => enc32At10_15_20_25_7w55533 0x50000043 d a b c st
  | .amoMinnW d a b c st => enc32At10_15_20_25_7w55533 0x60000043 d a b c st
  | .amoMaxnW d a b c st => enc32At10_15_20_25_7w55533 0x70000043 d a b c st
  | .amoSwapW d a b c st => enc32At10_15_20_25_7w55533 0x80000043 d a b c st
  | .casW d a b c st => enc32At10_15_20_25_7w55533 0x90000043 d a b c st
  | .amoAddD d a b c st => enc32At10_15_20_25_7w55533 0x47 d a b c st
  | .amoAndD d a b c st => enc32At10_15_20_25_7w55533 0x10000047 d a b c st
  | .amoOrD d a b c st => enc32At10_15_20_25_7w55533 0x20000047 d a b c st
  | .amoXorD d a b c st => enc32At10_15_20_25_7w55533 0x30000047 d a b c st
  | .amoMinD d a b c st => enc32At10_15_20_25_7w55533 0x40000047 d a b c st
  | .amoMaxD d a b c st => enc32At10_15_20_25_7w55533 0x50000047 d a b c st
  | .amoMinnD d a b c st => enc32At10_15_20_25_7w55533 0x60000047 d a b c st
  | .amoMaxnD d a b c st => enc32At10_15_20_25_7w55533 0x70000047 d a b c st
  | .amoSwapD d a b c st => enc32At10_15_20_25_7w55533 0x80000047 d a b c st
  | .casD d a b c st => enc32At10_15_20_25_7w55533 0x90000047 d a b c st
  | .vld c b h w st => enc32At10_16_21_24_7w65333 0x4b c b h w st
  | .vst c b h w f st => enc32At10_16_21_24_27_7w653313 0x4000004b c b h w f st
  | .vldx d b i z st => enc32At10_16_21_27_7w65623 0x8000004b d b i z st
  | .vstx d b i z f st => enc32At10_16_21_27_29_7w656213 0xc000004b d b i z f st
  | .vadd d a h w st => enc32At10_16_22_25_7w66333 0x4f d a h w st
  | .vsub d a h w st => enc32At10_16_22_25_7w66333 0x1000004f d a h w st
  | .vadds d a h w st => enc32At10_16_22_25_7w66333 0x2000004f d a h w st
  | .vsubs d a h w st => enc32At10_16_22_25_7w66333 0x3000004f d a h w st
  | .vmin d a h w st => enc32At10_16_22_25_7w66333 0x4000004f d a h w st
  | .vmax d a h w st => enc32At10_16_22_25_7w66333 0x5000004f d a h w st
  | .vabs d a h w st => enc32At10_16_22_25_7w66333 0x6000004f d a h w st
  | .vneg d a h w st => enc32At10_16_22_25_7w66333 0x7000004f d a h w st
  | .vand d a h w st => enc32At10_16_22_25_7w66333 0x8000004f d a h w st
  | .vor d a h w st => enc32At10_16_22_25_7w66333 0x9000004f d a h w st
  | .vxor d a h w st => enc32At10_16_22_25_7w66333 0xa000004f d a h w st
  | .vshl d a h w st => enc32At10_16_22_25_7w66333 0xb000004f d a h w st
  | .vshr d a h w st => enc32At10_16_22_25_7w66333 0xc000004f d a h w st
  | .vcmp d a h w st => enc32At10_16_22_25_7w66333 0xd000004f d a h w st
  | .vsel d a h w st => enc32At10_16_22_25_7w66333 0xe000004f d a h w st
  | .vmov d a h w st => enc32At10_16_22_25_7w66333 0xf000004f d a h w st
  | .vmul d a h w st => enc32At10_16_22_25_7w66333 0x53 d a h w st
  | .cmul d a h w st => enc32At10_16_22_25_7w66333 0x10000053 d a h w st
  | .cmulc d a h w st => enc32At10_16_22_25_7w66333 0x20000053 d a h w st
  | .vcvt d a h w st => enc32At10_16_22_25_7w66333 0x30000053 d a h w st
  | .vbfly d a h w st => enc32At10_16_22_25_7w66333 0x40000053 d a h w st
  | .vperm d a h w st => enc32At10_16_22_25_7w66333 0x50000053 d a h w st
  | .vbcast d a h w st => enc32At10_16_22_25_7w66333 0x60000053 d a h w st
  | .vred d a h w st => enc32At10_16_22_25_7w66333 0x70000053 d a h w st
  | .pand d a st => enc32At10_16_7w333 0x80000053 d a st
  | .por d a st => enc32At10_16_7w333 0x90000053 d a st
  | .pnot d a st => enc32At10_16_7w333 0xa0000053 d a st
  | .vfma d a b w h st => enc32At10_16_22_28_30_7w666223 0x57 d a b w h st
  | .vfms d a b w h st => enc32At10_16_22_28_30_7w666223 0x5b d a b w h st
  | .cfma d a b w h st => enc32At10_16_22_28_30_7w666223 0x5f d a b w h st
  | .cfmac d a b w h st => enc32At10_16_22_28_30_7w666223 0x63 d a b w h st
  | .csrr r n st => enc32At12_20_7w5123 0x67 r n st
  | .csrw r n st => enc32At12_20_7w5123 0x467 r n st
  | .csrs r n st => enc32At12_20_7w5123 0x867 r n st
  | .csrc r n st => enc32At12_20_7w5123 0xc67 r n st
  | .fenceFull c st => enc32At26_7w33 0x6b c st
  | .fenceAcq c st => enc32At26_7w33 0x2000006b c st
  | .fenceRel c st => enc32At26_7w33 0x4000006b c st
  | .fenceAck st => enc32At7w3 0x46b st
  | .wait a b c z st => enc32At16_21_26_29_7w55313 0x86b a b c z st
  | .pf a k st => enc32At16_26_7w513 0xc6b a k st
  | .trap k st => enc32At26_7w63 0x106b k st
  | .eret st => enc32At7w3 0x146b st
  | .tlbinvPage a st => enc32At16_7w53 0x186b a st
  | .tlbinvTag a st => enc32At16_7w53 0x400186b a st
  | .tlbinvAll a st => enc32At16_7w53 0x800186b a st
  | .fenceI st => enc32At7w3 0x1c6b st
  | .pause k st => enc32At26_7w63 0x206b k st
  | .taskEnd st => enc32At7w3 0x246b st
  | .spawn a b st => enc32At16_21_7w553 0x286b a b st
  | .yield a st => enc32At16_7w53 0x2c6b a st
  | .cntInit a b st => enc32At16_21_7w553 0x306b a b st
  | .barInit a b st => enc32At16_21_7w553 0x346b a b st
  | .barArrive a st => enc32At16_7w53 0x386b a st
  | .barWait a b st => enc32At16_21_7w553 0x3c6b a b st
  | .barLink a b st => enc32At16_21_7w553 0x406b a b st
  | .phase a st => enc32At16_7w53 0x446b a st
  | .sleep a w st => enc32At16_26_7w513 0x486b a w st
  | .teamBind a b st => enc32At16_21_7w553 0x4c6b a b st
  | .hand a b rcv snd st => enc32At16_21_26_29_7w55333 0x506b a b rcv snd st
  | .mark st => enc32At7w3 0x546b st
  | .driftSet bound st => enc32At26_7w63 0x586b bound st
  | .realign st => enc32At7w3 0x5c6b st
  | .teamEnd st => enc32At7w3 0x606b st
  | .mreqRead a t st => enc32At15_25_7w563 0x6f a t st
  | .mreqWrite d a t st => enc32At10_15_25_7w5563 0x8000006f d a t st
  | .pgmove d a k t st => enc32At10_15_25_30_7w55523 0x10006f d a k t st
  | .pghot d a c st => enc32At10_15_25_7w5523 0x20006f d a c st
  | .pgabort d a st => enc32At10_15_7w553 0x30006f d a st
  | .send d a o st => enc32At10_15_25_7w5513 0x40006f d a o st
  | .portOpen d a st => enc32At10_15_7w553 0x50006f d a st
  | .portClose d st => enc32At10_7w53 0x60006f d st
  | .treeInj d a st => enc32At10_15_7w553 0x70006f d a st
  | .treeExt d a st => enc32At10_15_7w553 0x80006f d a st
  | .cpy d a st => enc32At10_15_7w553 0x90006f d a st
  | .cpyTry d a st => enc32At10_15_7w553 0xa0006f d a st
  | .cpyid d a st => enc32At10_15_7w553 0xb0006f d a st
  | .cpywait a st => enc32At15_7w53 0xc0006f a st
  | .sbind d a n st => enc32At10_15_25_7w5533 0xd0006f d a n st
  | .sfree d n st => enc32At10_25_7w533 0xe0006f d n st
  | .sstat d n st => enc32At10_25_7w533 0xf0006f d n st
  | .dictLd a k st => enc32At15_25_7w573 0x100006f a k st
  | .launch a st => enc32At15_7w53 0x110006f a st
  | .launchTry d a st => enc32At10_15_7w553 0x120006f d a st
  | .axdef d a b st => enc32At10_16_21_7w5553 0x73 d a b st
  | .axdefRelease d b st => enc32At10_21_7w553 0x73 d b st
  | .mapSet d a b st => enc32At10_16_21_7w5553 0x4000073 d a b st
  | .mapSwap d a b st => enc32At10_16_21_7w5553 0x8000073 d a b st
  | .mapRd d a b st => enc32At10_16_21_7w5553 0xc000073 d a b st
  | .remap d a b st => enc32At10_16_21_7w5553 0x10000073 d a b st
  | .rmwait a st => enc32At16_7w53 0x14000073 a st
  | .axld d a b st => enc32At10_16_21_7w6553 0x18000073 d a b st
  | .axst d a b st => enc32At10_16_21_7w6553 0x1c000073 d a b st
  | .axctx a st => enc32At16_7w53 0x20000073 a st
  | .axmat a b st => enc32At16_21_7w553 0x24000073 a b st
  | .axap d a b st => enc32At10_16_21_7w5553 0x28000073 d a b st
  | .axmm d a st => enc32At10_16_7w653 0x2c000073 d a st
  | .axdrain d a b st => enc32At10_16_21_7w5553 0x30000073 d a b st
  | .axstat d a st => enc32At10_16_7w553 0x34000073 d a st
  | .axwait a st => enc32At16_7w53 0x38000073 a st
  | .cMov a d => enc16At2_7w55 0x1000 a d
  | .cAdd a d => enc16At2_7w55 0x2000 a d
  | .cSub a d => enc16At2_7w55 0x3000 a d
  | .cAnd a d => enc16At2_7w55 0x4000 a d
  | .cOr a d => enc16At2_7w55 0x5000 a d
  | .cXor a d => enc16At2_7w55 0x6000 a d
  | .cLdD a d => enc16At2_7w55 0x7000 a d
  | .cStD a d => enc16At2_7w55 0x8000 a d
  | .cJr a => enc16At2w5 0x9000 a
  | .cAddi i d => enc16At2_7w55 0x1 i d
  | .cLim i d => enc16At2_7w55 0x1001 i d
  | .cSlli k d => enc16At2_7w55 0x2001 k d
  | .cSrli k d => enc16At2_7w55 0x3001 k d
  | .cSrai k d => enc16At2_7w55 0x4001 k d
  | .cAndi i d => enc16At2_7w55 0x5001 i d
  | .cBrEq o a => enc16At2_7w55 0x2 o a
  | .cBrNe o a => enc16At2_7w55 0x1002 o a
  | .cBrLt o a => enc16At2_7w55 0x2002 o a
  | .cBrGe o a => enc16At2_7w55 0x3002 o a
  | .cJmp o => enc16At2w10 0x4002 o
  | .role n m => enc16At2_6w48 0xc002 n m
  | .cpydoneRead _ _ _ => none
  | .axdoneRead _ _ => none
  | .pathdoneRead _ _ _ => none
  | .sterrClear _ _ => none
  | .cpyerrClear _ _ _ => none
  | .axerrClear _ _ => none
  | .teamerrClear _ _ => none
  | .slwinWrite _ _ _ => none
  | .stpathWrite _ _ => none
  | .vtypeWrite _ _ => none
  | .vauxWrite _ _ => none
  | .lpctlWrite _ _ _ => none
  | .vrandWrite _ _ => none
  | .motionctlWrite _ _ => none
  | .mrecptrWrite _ _ => none
  | .evptrWrite _ _ => none
  | .lqbaseWrite _ _ => none
  | .lqtailWrite _ _ => none
  | .lqheadWrite _ _ => none
  | .pwrcapWrite _ => none
  | .storeBufferDrain _ => none
  | .homeRequest _ => none
  | .storeAck _ => none
  | .loadReply _ => none
  | .replayNotice _ => none
  | .waitWake _ => none
  | .waitPoll _ => none
  | .mreqReply _ => none
  | .rowReservationTimeout _ => none
  | .pageWalk _ _ _ => none
  | .pagerReply _ => none
  | .engineFaultReply _ => none
  | .turnipMotionStart _ => none
  | .turnipCopyStep _ _ => none
  | .sweepComplete _ _ => none
  | .epochEnd => none
  | .copyStart _ => none
  | .copyComplete _ => none
  | .dictFillComplete _ => none
  | .streamFetch _ _ => none
  | .streamWrite _ _ => none
  | .portRouteOpen _ => none
  | .recordArrival _ => none
  | .counterDecrement _ => none
  | .barrierArrival _ => none
  | .barrierRelease _ => none
  | .treeContribution _ => none
  | .treeResult _ => none
  | .taskStart _ => none
  | .teamStart _ => none
  | .axisRequestStart _ => none
  | .axisRequestComplete _ => none
  | .fennelExchangeStep _ _ => none
  | .issueChoice _ => none
  | .lowPrecedenceStart _ => none
  | .lowPrecedenceEnd _ => none
  | .pauseEnd _ => none
  | .sleepWake _ => none
  | .realignTimeout _ => none
  | .dispatcherTakeRecord _ => none
  | .regionGrant _ => none
  | .duskSave _ => none
  | .duskRestore _ => none
  | .budgetExhausted _ => none
  | .regionDone _ => none
  | .utilFlush _ => none
  | .eventPost => none
  | .softError _ _ => none
  | .noonSample _ => none
  | .enterP2 => none
  | .p2Wake => none
  | .p3Exit => none
  | .dawn _ _ => none
  | .mailboxImage _ => none
  | .mailboxAttest _ => none
  | .mailboxDebugToken _ => none
  | .mailboxPowerCommand _ => none
  | .mailboxDuskSave _ => none
  | .hostAccess _ _ _ => none
  | .hostCompletion _ _ _ => none
  | .farLinkDown _ => none
  | .farLostTimeout _ => none
  | .farLinkUp _ => none
  | .goldexFlitReceive _ _ => none
  | .linkReplayTimeout _ => none
  | .retrainStart _ => none
  | .retrainEnd _ _ => none
  | .endToEndResend _ => none
  | .bounceTimeout _ => none
  | .timeFlitSend => none
  | .timeFlitReceive _ _ => none
  | .illegalInstruction => none
  | .fetchFault => none

/-- The bytes of an instruction in memory order. -/
def encode (i : Instr) : List Byte :=
  match encodeWord i with
  | some (n, w) => (List.range (n / 8)).map fun k => BitVec.ofNat 8 (w / 256 ^ k)
  | none => []

end Sys2Proof
end

