-- ==== Sys2Proof/Config.lean ====
section
/-! DEFINITION. What the manual leaves to the implementation or leaves open: constants with no body, so that no proof can
see their values. A statement about one of them holds for every value it could have. -/

namespace Sys2Proof.Config

/-- Time-stamp counts (of 2 cycles each, R12) that pass in the step numbered n: the manual gives lower bounds of
latencies only (R15). Log entry 4. -/
opaque freeElapse : Nat → Nat

/-- Step 2 of R382: whether a firmware image passes the SHAKE256, key, ML-DSA-65 and version checks. The manual names the
algorithms and gives neither keys nor the image layout. Log entry 5. -/
opaque imageVerifies : List Byte → Bool

/-- R382 step 5: the device number that the image's configuration names. Log entry 5. -/
opaque configuredDevice : List Byte → BitVec 19

/-- R382 step 3: the HBM4 stacks that the image's configuration sets to cache mode. Log entry 5. -/
opaque configuredCache : List Byte → BitVec 12

/-- R378: the debug state that a token grants against a nonce: 1 owner-debug, 2 vendor-debug, any other value refused.
Log entry 5. -/
opaque tokenGrants : List Byte → BitVec 256 → Nat

/-- R382 step 1: whether Plebex starts from its ROM and brings up port 0 at the Dawn of the step numbered n. Log entry 5. -/
opaque plebexStarts : Nat → Bool

/-- R382 steps 3 and 5, where recovery goes on to them: the stacks that do not train, and the Goldex links that do, in the step
numbered n. Log entry 5. -/
opaque untrainedStacks : Nat → BitVec 12
opaque trainedLinks : Nat → BitVec 16

/-- R384: an image's SHAKE256 measurement and its version. Log entry 5. -/
opaque measurement : List Byte → List Byte
opaque imageVersion : List Byte → Nat

/-- R384: the identity key that the fused device secret gives with a measurement, and a report's signature under a key. Log
entry 5. -/
opaque identityKey : List Byte → List Byte
opaque signature : List Byte → List Byte → List Byte

/-- R381: the limit in watts that the firmware's thermal tables allow in the step numbered n. Log entry 6. -/
opaque thermalLimit : Nat → Nat

/-- R381: how many watts below LIMIT the total draw "nears" it. Log entry 6. -/
opaque nearMargin : Nat

/-- R378: the fresh nonce that Plebex draws in the step numbered n. Log entry 5. -/
opaque freshNonce : Nat → BitVec 256

end Sys2Proof.Config
end

