-- ==== Sys2Proof/Machine/State.lean ====
section
/-! DEFINITION. The state of one JX-7040: everything the manual gives the device, as plain data. One context (or one engine
member of a team) is in focus: its registers stand in `cur`; every other one stands in `parked`. Units (cores, tiles,
clusters, dies, regions) are sparse maps in which an absent key reads as the unit's reset value. -/

namespace Sys2Proof.Machine

/-- Why the machine stops with a fault. -/
inductive Fault where
  /-- `step` raises it when the agenda names an instruction of a context where only an event of the device may stand: the
  agenda is the model's own schedule, so no hardware state corresponds. Safe. -/
  | notAnEvent
  deriving DecidableEq, Repr

/-- Why a step has no meaning. -/
inductive Refusal where
  /-- `exec` raises it for an instruction that has no meaning yet. Safe. -/
  | notModelled (mnemonic : String)
  deriving DecidableEq, Repr

/-- A sparse map in one canonical form: keys strictly rising, no entry equal to the default. -/
abbrev SMap (α : Type) := List (Nat × α)

/-- Memory: `Host.Cell`s, keys strictly rising, no zero byte listed (an unlisted byte reads 0: Dawn zeroes every slice and
all device memory, R382). A key below 2^52 is a device physical address; 2^52 + tile · 2^18 + p is byte p of a tile's
banks, in physical order (R132). -/
abbrev Memory := List Host.Cell

/-- A task record (R276). -/
structure TaskRec where
  cls : BitVec 8 := 0
  cid : BitVec 8 := 0
  pri : Bool := false
  cnt : Bool := false
  src : BitVec 16 := 0
  carried : Vector Word 8 := Vector.replicate 8 0
  /-- `MRSTAT` that the started task loads (R75), for an `mreq` reply -/
  mrstat : Option Word := none
  /-- a pager's message starts it (R102) -/
  pager : Bool := false
  /-- its creator released the stores of a context before a position at cluster scope, and some may be on their way (R284) -/
  gate : Option (Nat × Nat) := none
  deriving DecidableEq, Repr

/-- What a store-buffer entry or a message carries. -/
inductive Payload where
  /-- a store of these bytes; `line` marks a register of a `vst` pair that covers a whole aligned line (R115) -/
  | store (data : List Byte) (line : Bool)
  /-- an `axst` register: elements of z bytes at logical indices of an array (R199) -/
  | axst (arr : Nat) (z : Nat) (idx : Nat) (data : List Byte)
  /-- a `send` to a core of this device (R142) -/
  | record (core : BitVec 14) (r : TaskRec)
  /-- a `send` with REMOTE = 1 (R369) -/
  | remote (hdr : Word) (regs : Vector Word 8)
  /-- a deferred load of these many bytes for a slot of its context -/
  | load (size : Nat) (slot : Nat)
  | mreqRead (tag : BitVec 6)
  | mreqWrite (tag : BitVec 6) (data : List Byte)
  /-- Arrive(B) and Release(B) of R282; an arrival names the HOLD child it comes from, if any -/
  | barArrive (core bar : Nat) (child : Option (Nat × Nat))
  | barRelease (core bar : Nat)
  deriving DecidableEq, Repr

/-- A page as a translation found it: its first VA, the log of its size, and its frame. -/
structure VPage where
  va : Nat
  log : Nat
  frame : Nat
  deriving DecidableEq, Repr

/-- An entry of a context's store buffer (R113). -/
structure StoreEntry where
  /-- the target: a device physical address, or 2^52 + tile · 2^18 + slice offset -/
  loc : Nat := 0
  body : Payload := .store [] false
  /-- the ordered flag of R141 -/
  ordered : Bool := false
  /-- mesh channel 0, 2 or 3 (R136) and path (R138) -/
  chan : Nat := 0
  path : Nat := 0
  /-- position in the context's order of stores and sends -/
  seq : Nat := 0
  /-- the leaf entry that translated it (R72) -/
  leaf : Nat := 0
  /-- issued by a context of a team, task or engine: the region tag it runs under -/
  tag : Nat := 0
  /-- `VABASE.HIGH` (R88) and `TROOT` at the issue of an `axst` -/
  high : BitVec 16 := 0
  troot : Word := 0
  /-- the page through which its VA was translated, if any (R327) -/
  page : Option VPage := none
  /-- of a record that the device makes: the RCB of the region it is for (R277) -/
  rcb : Nat := 0
  deriving DecidableEq, Repr

/-- A message on the mesh: it has left its source and its home has not served it. -/
structure Msg where
  src : Nat := 0
  entry : StoreEntry := {}
  deriving DecidableEq, Repr

/-- A reply on channel 1: an acknowledgement of a store, a send or an arrival, or the data of a load or `mreq`. -/
structure Reply where
  dst : Nat := 0
  entry : StoreEntry := {}
  data : List Byte := []
  /-- 0 served, 1 line poisoned, 2 far-tier line lost -/
  status : Nat := 0
  /-- where the elements of an `axst` were served, for one acknowledgement that its homes give together -/
  spots : List Nat := []
  deriving DecidableEq, Repr

/-- What a context waits for (R289). `stalled` marks an instruction that could not issue and is tried again. -/
inductive Wait where
  | ready
  | stalled
  /-- a non-posted read of host memory at a location, or a PCIe AtomicOp with its op, operand and comparison value (R363,
  R361, R123) -/
  | host (d : BitVec 5) (size : Nat) (sx : Bool) (len st : Nat) (va : VAddr) (at1 : Nat) (amo : Option (Nat × Nat × Nat))
  /-- the aligned 8 bytes of host memory at a location, which an instruction needs before it is tried again: access and VA
  (R363) -/
  | hostFill (at1 access : Nat) (va : VAddr)
  /-- the reply word of R105, for this cause, access and VA -/
  | pager (cause access : Nat) (va : VAddr) (reply : Word)
  /-- a `wait` asleep on a line, with its operands; `fired` once its monitor fired (R127) -/
  | monitor (line : Nat) (fired : Bool) (addr b : Word) (c : BitVec 3) (z : BitVec 1) (st : BitVec 3)
  /-- a `wait` on far-tier or host memory, re-read at this cycle (R128) -/
  | poll (next : Nat) (addr b : Word) (c : BitVec 3) (z : BitVec 1) (st : BitVec 3)
  | pause (till : Nat)
  /-- deadline (0 for none), whether work wakes it, whether a wake event has happened, and its stall count (R287) -/
  | sleep (till : Nat) (work fired : Bool) (st : BitVec 3)
  | realign (since : Nat) (st : BitVec 3)
  deriving DecidableEq, Repr

/-- What a context is doing. -/
inductive Run where
  /-- no task and no team program (R281) -/
  | idle
  | running
  /-- an engine member halted by a fault (R304) -/
  | halted
  deriving DecidableEq, Repr

/-- A fetched stream element: 32 bytes, and why it cannot be popped: 0 good, 1 poison, 2 fault. -/
structure StreamElem where
  data : VReg := 0
  err : Nat := 0
  deriving DecidableEq, Repr

/-- A bound stream (R174 to R177). -/
structure Stream where
  bound : Bool := false
  output : Bool := false
  fault : Bool := false
  base : Word := 0
  counts : List Nat := []
  strides : List Int := []
  /-- elements fetched or written so far, and elements popped or pushed so far -/
  moved : Nat := 0
  taken : Nat := 0
  buf : List StreamElem := []
  /-- `VABASE.HIGH` at the bind, and the store of the context that the bind releases -/
  high : BitVec 16 := 0
  gate : Nat := 0
  desc : Word := 0
  deriving DecidableEq, Repr

/-- A decompression as it runs (R162): the next source offset, literal bytes of the current token still to read, the output
written so far, newest first, and output not yet written. A byte stands with why its line could not be read: 0 good, 1 poison,
2 lost. -/
structure Unpack where
  src : Nat := 0
  lit : Nat := 0
  out : List (Nat × Nat) := []
  todo : List (Nat × Nat) := []
  deriving DecidableEq, Repr

/-- A result not yet ready, for the scoreboard (R217): register class (0 scalar, 1 vector, 2 predicate), number, result
latency, written distance so far, and the cycle from which it can be read. -/
structure Pending where
  cls : Nat
  reg : Nat
  lat : Nat
  dist : Nat
  till : Nat := 0
  deriving DecidableEq, Repr

/-- A load that has issued and has not yet written its register (R114, R322): what it writes, where it stands, and its reply.
Loads of one context take effect in program order, whatever the order in which their homes serve them. -/
structure LoadSlot where
  id : Nat
  d : BitVec 5
  size : Nat
  sx : Bool
  /-- an `ld.acq`: no later access issues before it has its value (R118) -/
  acq : Bool
  va : VAddr
  loc : Nat
  leaf : Nat
  /-- the pc and the loop levels at the load, to which a trap goes back -/
  pc : Word
  lp0 : Word
  lp1 : Word
  /-- it was served by a home on the issuing die (R321) -/
  local1 : Bool
  /-- the page through which its VA was translated, if any (R327) -/
  page : Option VPage := none
  /-- its home has served it, and so marked the line, or it took the context's own buffered bytes -/
  served : Bool := false
  /-- the reply: status and value -/
  val : Option (Nat × Nat) := none
  /-- the home sent a replay notice -/
  noticed : Bool := false
  deriving DecidableEq, Repr

/-- One hardware context, or one engine member of a team (R200, R294). -/
structure Ctx where
  regs : Vector Word 32 := Vector.replicate 32 0
  vregs : Vector VReg 64 := Vector.replicate 64 0
  preds : Vector (BitVec 32) 8 := (Vector.replicate 8 0).set 0 0xFFFFFFFF
  pc : Word := 0
  cause : Word := 0
  epc : Word := 0
  faultva : Word := 0
  faultvah : Word := 0
  tvec : Word := 0
  tscratch : Word := 0
  tstatus : Word := 0
  vtype : Word := 0x231
  issuectl : Word := 0
  vaux : Word := 0x2C688000000
  lpaddr0 : Word := 0
  lpaddr1 : Word := 0
  lpctl0 : Word := 0
  lpctl1 : Word := 0
  vrand : Word := 1
  mrstat : Word := 0
  sterr : Word := 0
  vabase : Word := 0
  troot : Word := 0
  stpath : Word := 0
  pathdone : Vector Word 4 := Vector.replicate 4 0
  /-- span state (R26): parcels of the span yet to execute, and the address of its prefix -/
  span : Nat := 0
  spanAt : Word := 0
  /-- the parcels of that span, as the one fetch of R46 read them -/
  spanCode : List Nat := []
  /-- what the last fetches saw at the ends of loop levels: level, end address, and the bytes of the span whose prefix stands
  there (R397, R26) -/
  ends : List (Nat × Word × Nat) := []
  /-- loads that have issued and not yet taken effect, oldest first, and the next slot's number -/
  loads : List LoadSlot := []
  loadNext : Nat := 0
  /-- host words that the instruction being tried has read: location and value (R363) -/
  hostGot : List (Nat × Nat) := []
  /-- parcels at the pc and behind it as they stood when the last of those words of code came: VA, and the parcel where it stands
  in the device and could be translated (R46) -/
  codeAt : List (Nat × Option Nat) := []
  board : List Pending := []
  buf : List StoreEntry := []
  seqNext : Nat := 0
  /-- where in the order of stores the releases at a scope up to the die stand that may still hold an entry (R118, R124,
  R323) -/
  rels : List Nat := []
  run : Run := .idle
  wait : Wait := .ready
  /-- unanswered `mreq`s (R74) -/
  mreqs : Nat := 0
  /-- the current task was started by a pager's message (R102) -/
  pagerTask : Bool := false
  streams : Vector Stream 8 := Vector.replicate 8 {}
  /-- an engine fault on this context's behalf: the request that met it, cause, access and VA (R107) -/
  engFault : Option (Nat × Nat × Nat × VAddr) := none
  /-- answers of the pager that their requests have not taken yet: the request, and whether it resumes -/
  engSaid : List (Nat × Bool) := []
  /-- words of host memory that engines read on this context's behalf: request and location of those asked for, oldest first,
  and request, location, completion status and value of those that came (R363) -/
  engWant : List (Nat × Nat) := []
  /-- the requests of engines whose next access is held for a pager (R107) -/
  engHeld : List Nat := []
  engHost : List (Nat × Nat × Nat × Nat) := []
  /-- the issue of its next instruction waits until this cycle (R28) -/
  busyTill : Nat := 0
  /-- the core's vector datapath is taken by an instruction of this context until this cycle (R233) -/
  vecTill : Nat := 0
  deriving DecidableEq, Repr

/-- A leaf held by a TLB (R96), with the access table's verdict for its page cached with it (R374): spans of physical
addresses, first to past the last, and whether the tag may read and write there; the first that holds an address counts. -/
structure TlbEntry where
  tag : Nat
  va : Nat
  log : Nat
  frame : Nat
  r : Bool
  w : Bool
  x : Bool
  leaf : Nat
  movable : Bool
  rights : List (Nat × Nat × Bool × Bool)
  deriving DecidableEq, Repr

/-- A barrier (R282); `kids` are the HOLD children that arrived in this phase. -/
structure Barrier where
  exp : Nat := 0
  arr : Nat := 0
  ph : Bool := false
  held : Bool := false
  link : Bool := false
  hold : Bool := false
  pbar : Nat := 0
  pcore : Nat := 0
  kids : List (Nat × Nat) := []
  deriving DecidableEq, Repr

/-- A copy in a core's command FIFO (R151, R171). -/
structure Copy where
  ch : Nat := 0
  seq : Nat := 0
  ctx : Nat := 0
  high : BitVec 16 := 0
  w0 : Word := 0
  w1 : Word := 0
  w2 : Word := 0
  w3 : Word := 0
  /-- the store of the pushing context that the push releases, and the push's place in that context's order of stores (R144) -/
  gate : Nat := 0
  order : Nat := 0
  /-- its turn among the copies of its FIFO -/
  turn : Nat := 0
  /-- units of the traversal moved so far (a pager may hold it there) -/
  pos : Nat := 0
  /-- the descriptor as it was read at the start (R155), the dictionary that was active then (R109), and the decompression -/
  desc : List Byte := []
  dict : List Byte := []
  unpack : Unpack := {}
  started : Bool := false
  moved : Bool := false
  /-- cause of R167, 0 for none; whether the notify word is written -/
  err : Nat := 0
  notify : Bool := true
  deriving DecidableEq, Repr

/-- A format context (R253) with ts and the accumulator type (R254). -/
structure FmtCtx where
  afmt : Nat := 0
  bfmt : Nat := 0
  ofmt : Nat := 0
  rm : Nat := 0
  asc : Bool := false
  bsc : Bool := false
  osc : Bool := false
  ats : BitVec 32 := 0
  bts : BitVec 32 := 0
  seed : BitVec 16 := 0
  aspitch : Nat := 0
  bspitch : Nat := 0
  ascale : Word := 0
  bscale : Word := 0
  oscale : Word := 0
  /-- `VABASE.HIGH` as its image was accepted (R88) -/
  high : BitVec 16 := 0
  ts : BitVec 32 := 0
  accInt : Bool := true
  deriving DecidableEq, Repr

/-- A matrix slot (R261): k, kind and the k² entries as fp32 patterns (real and imaginary parts for a complex slot). -/
structure Matrix where
  k : Nat
  cplx : Bool
  entries : List (BitVec 32)
  deriving DecidableEq, Repr

/-- A request of the axis unit (R255): op 0 `axap`, 1 `axmm`, 2 `axdrain`. -/
structure AxReq where
  op : Nat := 0
  seq : Nat := 0
  ctx : Nat := 0
  high : BitVec 16 := 0
  gate : Nat := 0
  fmt : FmtCtx := {}
  a : Word := 0
  b : Word := 0
  /-- the 64 bytes of an `axmm` descriptor, and the row indices read at issue; for `axap`, the map NeedInBlock left -/
  desc : List Byte := []
  rows : List Nat := []
  mat : Option Matrix := none
  /-- `axap`: named bits in matrix order, the array, and tiles of the span still to finish -/
  bits : List Nat := []
  arr : Nat := 0
  left : List Nat := []
  started : Bool := false
  done : Bool := false
  err : Nat := 0
  pos : Nat := 0
  deriving DecidableEq, Repr

/-- A core's stream port (R144). -/
structure Port where
  ctx : Nat
  tile : Nat
  /-- links of its route that the open flit has taken (R137), and whether it has reached the tile -/
  held : Nat := 0
  routed : Bool
  /-- it was open at a Dusk save, and its context issues nothing until the route is open again (R145) -/
  reopening : Bool := false
  deriving DecidableEq, Repr

/-- State kept once per core. -/
structure Core where
  cpydone : Vector Word 4 := #v[0x2000000000000000, 0x6000000000000000, 0xA000000000000000, 0xE000000000000000]
  cpyerr : Vector Word 4 := Vector.replicate 4 0
  axdone : Word := 0x1000000000000000
  axerr : Word := 0
  cpyNext : Vector Nat 4 := Vector.replicate 4 1
  /-- sequence numbers that completed out of order, per channel -/
  cpyEarly : List (Nat × Nat) := []
  fifo : List Copy := []
  axNext : Nat := 1
  axq : List AxReq := []
  fmt : FmtCtx := {}
  bank : SMap (BitVec 32) := []
  bankPoison : List Nat := []
  barriers : SMap Barrier := []
  phase : BitVec 8 := 0
  port : Option Port := none
  tlb : List TlbEntry := []
  /-- cycles in which the high context issued while the low was ready, and the cycle at which precedence ends (R317) -/
  starve : Nat := 0
  lowTill : Option Nat := none
  /-- `MRSTAT` of the records of each inbox that are `mreq` replies: (inbox, record number, value) -/
  mrInfo : List (Nat × Nat × Word) := []
  /-- inbox record numbers whose record is a pager's message (R102) -/
  pagerInfo : List (Nat × Nat) := []
  /-- records of the inboxes (0, 1) and of the deque (2) with a release still to be met: queue, number, and the gate (R284) -/
  gateInfo : List (Nat × Nat × Nat × Nat) := []
  /-- the first cycle in which it has not issued (R316) -/
  cycle : Nat := 0
  /-- cycles in which a context issued since the phase was last accounted, and the cycle of that (R288) -/
  issued : Nat := 0
  phaseAt : Nat := 0
  deriving DecidableEq, Repr

/-- State kept once per tile. -/
structure Tile where
  slwin : Vector Word 8 := Vector.replicate 8 0
  slown : Word := 0
  slots : Vector (Option Matrix) 8 := Vector.replicate 8 none
  /-- cores whose `axap` has work for this unit (R262) -/
  spanq : List Nat := []
  /-- the axis unit's generator (R247), whose value before its first request is the model's choice: 1, its smallest state. DESIGN
  CHOICE, log entry 7 -/
  gen : BitVec 16 := 1
  dict : List Byte := []
  dictNext : Option (List Byte) := none
  /-- round-robin pointers of the transfer unit (R151) and of the axis unit (R256) -/
  rrCopy : Nat := 0
  rrAx : Nat := 0
  /-- staging areas withheld while blocks are staged (R264): the core of the apply, slice offset and length -/
  staged : List (Nat × Nat × Nat) := []
  deriving DecidableEq, Repr

/-- A member of a team (R291): its agent, marks passed, whether it ended, and its completed send (R298). -/
structure Member where
  agent : Nat
  marks : Nat := 0
  ended : Bool := false
  hsent : Bool := false
  /-- it has reached its next mark and waits there -/
  atMark : Bool := false
  realign : Option Word := none
  /-- a core member that joins when its task ends -/
  late : Bool := false
  deriving DecidableEq, Repr

/-- A hand buffer (R298). -/
structure HandBuf where
  snd : Nat
  rcv : Nat
  value : Word
  pc : Word
  deriving DecidableEq, Repr

/-- The team table of a cluster (R291). -/
structure Team where
  entry : Word := 0
  members : List Member := []
  /-- role, kind and set of the current and of the staged bindings -/
  binds : List (Nat × Nat × Nat) := []
  staged : List (Nat × Nat × Nat) := []
  stagedD : Option Nat := none
  /-- the mark that owns each staging: its role, 8 for D, and the mark (R292, R300) -/
  stagedAt : List (Nat × Nat) := []
  d : Nat := 4
  /-- the launch record's carried registers and the address of its handler-table entry (R306) -/
  carried : Vector Word 8 := Vector.replicate 8 0
  entryAt : Nat := 0
  bufs : List HandBuf := []
  err : Word := 0
  epc : Word := 0
  deriving DecidableEq, Repr

/-- One collective instance at a combining-tree node or root (R150); `tag` is its region's RCB. -/
structure TreeInst where
  tag : Nat
  hdr : Nat
  count : Nat
  value : Nat
  bad : Bool
  /-- contexts that contributed (the result travels back to them) -/
  who : List Nat
  deriving DecidableEq, Repr

/-- State kept once per cluster. -/
structure Cluster where
  /-- the region it is granted to (its RCB address) and its index k there -/
  region : Option (Nat × Nat) := none
  tlb : List TlbEntry := []
  /-- fetch-port instruction cache: the parcels of a kept fetch, by region tag and VA (R46, R354) -/
  icache : List (Nat × List (Nat × Nat)) := []
  team : Option Team := none
  node : List TreeInst := []
  /-- busy and idle cycles by phase, not yet flushed (R288) -/
  busy : SMap Nat := []
  idle : SMap Nat := []
  deriving DecidableEq, Repr

/-- A page motion (R77). -/
structure Motion where
  leaf : Nat
  old : Nat
  src : Nat
  dst : Nat
  log : Nat
  /-- destination tier location k of R85 -/
  loc : Nat
  cursor : Nat := 0
  forwarding : Bool := false
  /-- the `pgmove` that asked: its core and VA; none for the policy -/
  who : Option (Nat × VAddr) := none
  /-- the pager that takes the abort record of a `pgmove`: core, class and the RCB of that core's region, found at issue (R106) -/
  pager : Option (Nat × Nat × Nat) := none
  deriving DecidableEq, Repr

/-- A page's hotness counts at its home (R82). -/
structure Hot where
  total : Nat := 0
  ne : Nat := 0
  nw : Nat := 0
  se : Nat := 0
  sw : Nat := 0
  leaf : Nat := 0
  log : Nat := 16
  deriving DecidableEq, Repr

/-- A launch record in a pending-launch store (R306, R309). -/
structure Launch where
  rcb : Nat := 0
  kind : Nat := 0
  pri : Bool := false
  cls : BitVec 8 := 0
  clk : Nat := 0
  core : Nat := 0
  carried : Vector Word 8 := Vector.replicate 8 0
  src : BitVec 16 := 0
  /-- the host queue it came from, or none for `launch` -/
  queue : Option Nat := none
  /-- a resume record has had its test of the budget (R312) -/
  tested : Bool := false
  deriving DecidableEq, Repr

/-- State kept once per die. -/
structure Die where
  queue : List Motion := []
  active : List Motion := []
  /-- the pending-launch store (R309) -/
  store : List Launch := []
  rrQueue : Nat := 0
  root : List TreeInst := []
  deriving DecidableEq, Repr

/-- An axis array (R182): the same slot in every agent of its span. -/
structure AxArray where
  slot : Nat := 0
  region : Nat := 0
  first : Nat := 0
  tiles : List Nat := []
  fmt : Nat := 0
  n : Nat := 0
  b : Nat := 0
  t : Nat := 0
  mbase : Word := 0
  soff : Nat := 0
  /-- used runs: lowest bit and length g -/
  runs : List (Nat × Nat) := []
  map : List Nat := []
  prev : List Nat := []
  stamps : List Nat := []
  clock : Nat := 0
  version : Nat := 0
  /-- 0 none, 1 pending, 2 running, 3 stopped (R186) -/
  wave : Nat := 0
  swaps : List (Nat × Nat) := []
  /-- line sets exchanged so far, by group number -/
  cursors : SMap Nat := []
  fault : Bool := false
  poison : Bool := false
  /-- the context whose instruction started the wave, and `VABASE.HIGH` as it stood then (R88) -/
  who : Nat := 0
  high : BitVec 16 := 0
  /-- cores whose applies passed NeedInBlock and have not completed, in order (R263) -/
  applies : List Nat := []
  deriving DecidableEq, Repr

/-- A spilled record (R277); of a counted one, the message that is acknowledged once it is counted (R276). -/
structure Spilled where
  slot : Nat
  core : Nat
  pri : Bool
  task : TaskRec
  due : Option Msg := none
  deriving DecidableEq, Repr

/-- What a saved region's contexts, cores, tiles and arrays hold beside the fields of their records (R359), whose bytes stand in
its area. -/
structure Image where
  ctxs : List (Nat × Ctx) := []
  cores : List (Nat × Core) := []
  tiles : List (Nat × Tile) := []
  arrays : List AxArray := []
  deriving DecidableEq, Repr

/-- A region that some dispatcher has resolved and that is ready, running or saved. Its RCB stands in memory (R271). -/
structure Region where
  rcb : Nat := 0
  die : Nat := 0
  clusters : List Nat := []
  age : Nat := 0
  /-- order of becoming ready, and of being granted -/
  readyAt : Nat := 0
  grantAt : Nat := 0
  /-- 1 ready, 2 running, 3 saved (R273); 6 while Dusk is saving it (R356), 7 while the end of its fault domain waits (R364) -/
  state : Nat := 1
  spill : List Spilled := []
  spillNext : Nat := 0
  image : Option Image := none
  saves : Nat := 0
  /-- what the last restore loaded, as its image's cells and poisoned lines: a byte that still stands so is clean (R357) -/
  base : List (Nat × Byte) × List Nat := ([], [])
  /-- count up to which USED has been charged -/
  charged : Nat := 0
  overBudget : Bool := false
  deriving DecidableEq, Repr

/-- A reserved bank (R73): the row, the tile that holds it, and the cycle of its last access. -/
structure Reserved where
  row : Nat
  tile : Nat
  last : Nat
  /-- the request that reserved it -/
  key : Nat := 0
  deriving DecidableEq, Repr

/-- A device of the far tier on port 1 (R68, R364). -/
structure FarDev where
  dev : Nat
  base : Nat
  size : Nat
  /-- the count at which its link went down -/
  down : Option Nat := none
  lost : Bool := false
  deriving DecidableEq, Repr

/-- An event record not yet posted (R377). -/
structure Event where
  stampv : Nat
  source : Nat
  code : Nat
  detail : Nat
  deriving DecidableEq, Repr

/-- A Goldex link endpoint (R365, R366). -/
structure GLink where
  txSeq : Nat := 0
  rxNext : Nat := 0
  /-- flits sent and not acknowledged: link sequence number, bytes, time sent -/
  replay : List (Nat × List Nat × Nat) := []
  /-- replays in a row that have failed, and whether one has been sent since the peer last took a flit -/
  failed : Nat := 0
  tried : Bool := false
  /-- the count at which its training began -/
  trainAt : Option Nat := none
  /-- the last LACK received, and whether two in a row were the same with flits unacknowledged (R366) -/
  lastAck : Nat := 65535
  gap : Bool := false
  /-- receive buffers freed since the last flit (R365) -/
  freed : Nat := 0
  deriving DecidableEq, Repr

/-- The sending end of a stream to another device (R367): next ESEQ and the flits kept, with their times, 0 for one that is due at
once. Records are kept until they are acknowledged, the last 64 acknowledgements (channel 1) as long as their peer may miss them. -/
structure GTx where
  dst : Nat
  ch : Nat
  next : Nat
  unacked : List (Nat × List Nat × Nat)
  deriving DecidableEq, Repr

/-- The receiving end of a stream (R367): next ESEQ and the flits held in the reorder window. -/
structure GRx where
  src : Nat
  ch : Nat
  next : Nat
  held : List (Nat × List Nat)
  deriving DecidableEq, Repr

/-- A remote send accepted and not yet acknowledged (R369): context, header, registers, ESEQ once sent, waiting since. -/
structure Remote where
  ctx : Nat
  hdr : Word
  regs : Vector Word 8
  eseq : Option Nat
  since : Nat
  /-- its place in its context's order of stores -/
  seq : Nat := 0
  deriving DecidableEq, Repr

/-- Registers that exist once per device. -/
structure DevRegs where
  motionctl : Word := 0
  mfree : Word := 0
  mrec : Word := 0
  mrecptr : Word := 0
  lqbase : Vector Word 16 := Vector.replicate 16 0
  lqtail : Vector Word 16 := Vector.replicate 16 0
  lqhead : Vector Word 16 := Vector.replicate 16 0
  gxcfg : Word := 0
  gxrt : Word := 0
  gxlink : Vector Word 16 := Vector.replicate 16 0
  mtab : Word := 0
  evring : Word := 0
  evptr : Word := 0
  pwrcap : Word := 3600
  pwrstat : Word := 0x0E100000
  secst : Word := 0
  deriving DecidableEq, Repr

/-- Plain choices among behaviours that the manual allows alike; statements hold for every value of them. -/
structure Sched where
  /-- loads leave a request on the mesh instead of being served at once, and later loads may issue meanwhile -/
  deferLoads : Bool := false
  /-- fetches stay in the cluster's instruction cache until `fence.i` (R46) -/
  keepFetched : Bool := false
  /-- how many steps of a copy one COPY_START makes at most; 0 for no limit -/
  copyChunk : Nat := 0
  deriving DecidableEq, Repr

/-- The whole device. -/
structure State where
  /-- the agent in focus: context 2 · core + x (x = 0 high, 1 low), or engine member 32768 + 4 · tile + kind -/
  who : Nat
  cur : Ctx
  parked : SMap Ctx
  mem : Memory
  /-- poisoned 64-byte lines: logical address / 64, rising -/
  poison : List Nat
  cores : SMap Core
  tiles : SMap Tile
  clusters : SMap Cluster
  dies : SMap Die
  regions : List Region
  arrays : List AxArray
  dev : DevRegs
  /-- the time-stamp counter (R12), which starts at 0 (DESIGN CHOICE, log entry 7), the count of steps, and the time master's lead
  over it (R376) -/
  stamp : Nat
  tick : Nat
  slew : Int
  net : List Msg
  replies : List Reply
  hot : SMap Hot
  reserved : List Reserved
  /-- contexts that hold a monitor, by line (R127) -/
  monitors : List (Nat × Nat)
  absent : BitVec 12
  cacheMode : BitVec 12
  far : List FarDev
  /-- what waits for the link of a far-tier device (R364): fault domains to end, with the cause (R274); pages that have reached
  PROMOTE, with their home (R83); and flits for another device (R368) -/
  ends : List (Nat × Nat)
  asks : List (Nat × Nat)
  passing : List (Nat × List Nat)
  /-- posted writes in port 0's queue (R328) -/
  posted : List (Nat × List Byte)
  /-- TURNIP records that wait for room in the system ring -/
  recs : List (List Byte)
  rootInst : List TreeInst
  /-- finished results on their way down: context, value, header, and the region they belong to -/
  results : List (Nat × Nat × Nat × Nat)
  events : List Event
  links : SMap GLink
  gtx : List GTx
  grx : List GRx
  remotes : List Remote
  lastEpoch : Nat
  /-- power state 0 to 4 and samples of draw, newest first (R379, R381) -/
  pstate : Nat
  draws : List Nat
  idleSince : Nat
  wakeAt : Option Nat
  mailbox : List Byte
  nonce : BitVec 256
  /-- the image in flash, the one that Dawn started, and whether Plebex waits for a new one (R383) -/
  image : List Byte
  booted : List Byte
  recovering : Bool
  /-- Plebex has posted ready in the mailbox (R382 step 6) -/
  isReady : Bool
  /-- what the host's last access returned: 0 data, 1 Unsupported Request, 2 poison (R363, R374) -/
  hostOut : Nat × List Byte
  /-- accesses of the host that wait at port 0 behind one to a reserved bank (R73, R328): kind, address and data, oldest first -/
  hostWaits : List (Nat × Nat × List Byte)
  /-- the count at which the time master last sent time flits (R376) -/
  timeSent : Nat
  /-- the count from which Noon may sample again (R381) -/
  sampleAt : Nat
  /-- Plebex's identity key (R384) -/
  identity : List Byte
  grants : Nat
  sched : Sched
  /-- what moves next, ahead of the focus context: events of the device and of the outside world -/
  agenda : List Instr
  deriving DecidableEq, Repr

/-- The machine right after a successful Dawn (R382): every register at its field map's reset value, all memory zero, no
region known, every context idle. DESIGN CHOICE, log entry 7. -/
def State.reset : State where
  who := 0
  cur := {}
  parked := []
  mem := []
  poison := []
  cores := []
  tiles := []
  clusters := []
  dies := []
  regions := []
  arrays := []
  dev := {}
  stamp := 0
  tick := 0
  slew := 0
  net := []
  replies := []
  hot := []
  reserved := []
  monitors := []
  absent := 0
  cacheMode := 0
  far := []
  ends := []
  asks := []
  passing := []
  posted := []
  recs := []
  rootInst := []
  results := []
  events := []
  links := []
  gtx := []
  grx := []
  remotes := []
  lastEpoch := 0
  pstate := 0
  draws := []
  idleSince := 0
  wakeAt := none
  mailbox := []
  nonce := 0
  image := []
  booted := []
  recovering := false
  isReady := true
  hostOut := (0, [])
  hostWaits := []
  timeSent := 0
  sampleAt := 0
  identity := []
  grants := 0
  sched := {}
  agenda := []

end Sys2Proof.Machine
end

