-- ==== Sys2Proof/Machine/Ops.lean ====
section
/-! DEFINITION. The named operations over the state: sparse maps, bytes, memory and its homes, registers, contexts,
regions, messages, and the one operation by which a context takes a trap (R348), with the return from one beside it. -/

namespace Sys2Proof.Machine

open Sys2Proof

/-! ### Sparse maps -/

/-- The entry at key k, or the default. -/
def mapGet {α : Type} (d : α) : SMap α → Nat → α
  | [], _ => d
  | (j, v) :: t, k => if k = j then v else if k < j then d else mapGet d t k

/-- Set key k, keeping keys rising and no default listed. -/
def mapSet {α : Type} [DecidableEq α] (d : α) : SMap α → Nat → α → SMap α
  | [], k, v => if v = d then [] else [(k, v)]
  | (j, w) :: t, k, v =>
    if k < j then (if v = d then (j, w) :: t else (k, v) :: (j, w) :: t)
    else if k = j then (if v = d then t else (k, v) :: t)
    else (j, w) :: mapSet d t k v

/-- The canonical form: keys strictly rising, all above the bound, no default listed. -/
def mapWfFrom {α : Type} [DecidableEq α] (d : α) : Nat → SMap α → Bool
  | _, [] => true
  | lo, (j, v) :: t => decide (lo ≤ j) && decide (v ≠ d) && mapWfFrom d (j + 1) t

/-- R12: the global time-stamp counter is 64 bits wide; `stamp` counts on without end. -/
def timeStamp (s : State) : Nat := s.stamp % 2 ^ 64

/-- Memory in canonical form. -/
def Memory.wf (m : Memory) : Bool := mapWfFrom (0 : Byte) 0 m

/-! ### Bytes and bit fields -/

/-- Bits hi : lo of a word (R5). -/
def bits (x : Word) (hi lo : Nat) : Nat := x.toNat / 2 ^ lo % 2 ^ (hi + 1 - lo)

/-- Bits hi : lo of a natural number. -/
def nbits (x hi lo : Nat) : Nat := x / 2 ^ lo % 2 ^ (hi + 1 - lo)

/-- A word with bits hi : lo replaced by v. -/
def setBits (x : Word) (hi lo v : Nat) : Word :=
  BitVec.ofNat 64 (x.toNat - bits x hi lo * 2 ^ lo + v % 2 ^ (hi + 1 - lo) * 2 ^ lo)

/-- The n bytes of a number, least significant first (R3). -/
def toBytes (n : Nat) (v : Nat) : List Byte := (List.range n).map fun k => BitVec.ofNat 8 (v / 256 ^ k)

/-- The number that bytes hold, least significant first (R3). -/
def fromBytes : List Byte → Nat
  | [] => 0
  | b :: t => b.toNat + 256 * fromBytes t

/-- The low w bits of x read as a signed number. -/
def signed (w x : Nat) : Int := if 2 * (x % 2 ^ w) < 2 ^ w then (x % 2 ^ w : Nat) else (x % 2 ^ w : Nat) - (2 ^ w : Nat)

/-- The low 64 bits of an integer's two's complement (R5). -/
def ofInt (i : Int) : Word := BitVec.ofInt 64 i

/-- All bytes of a list from index i, n of them, missing ones zero. -/
def slice (l : List Byte) (i n : Nat) : List Byte :=
  (List.range n).map fun k => l.getD (i + k) 0

/-- A number field of a byte image: n bytes at offset i. -/
def at_ (l : List Byte) (i n : Nat) : Nat := fromBytes (slice l i n)

/-! ### Agents (R6, R10, R294) -/

/-- Keys at and above this are engine members: 32768 + 4 · tile + kind. -/
def engineBase : Nat := 32768
def isEngine (a : Nat) : Bool := engineBase ≤ a
/-- Kind of an engine member: 1 transfer unit, 2 axis unit, 3 Fennel agent; 0 for a core's context. -/
def kindOf (a : Nat) : Nat := if isEngine a then (a - engineBase) % 4 else 0
/-- Keys from here on are the sources of what the device itself makes at a core: no context's, so that no fence waits for it
(R289). -/
def deviceBase : Nat := 2 ^ 20
def devAgent (core : Nat) : Nat := deviceBase + core
/-- The core whose state an agent shares; an engine member shares that of core 3 of its tile (R294). -/
def coreOf (a : Nat) : Nat :=
  if deviceBase ≤ a then a - deviceBase else if isEngine a then (a - engineBase) / 4 * 4 + 3 else a / 2
def tileOf (a : Nat) : Nat := coreOf a / 4
def clusterOf (a : Nat) : Nat := coreOf a / 64
def dieOf (a : Nat) : Nat := coreOf a / 4096
/-- The context an agent counts as where a rule names the issuing context (R294). -/
def asCtx (a : Nat) : Nat := if isEngine a then 2 * coreOf a + 1 else a
/-- A high-priority context. -/
def isHigh (a : Nat) : Bool := !isEngine a && a % 2 = 0

/-- Device mesh coordinates of a cluster (R12). -/
def meshX (cl : Nat) : Nat := 8 * (cl / 64 % 2) + cl % 8
def meshY (cl : Nat) : Nat := 8 * (cl / 128) + cl / 8 % 8

def getCtx (s : State) (a : Nat) : Ctx := if a = s.who then s.cur else mapGet {} s.parked a
def putCtx (s : State) (a : Nat) (c : Ctx) : State :=
  if a = s.who then { s with cur := c } else { s with parked := mapSet {} s.parked a c }
/-- Move the focus to agent a. -/
def focus (s : State) (a : Nat) : State :=
  if a = s.who then s else
    { s with who := a, cur := mapGet {} s.parked a,
             parked := mapSet {} (mapSet {} s.parked a {}) s.who s.cur }

def getCore (s : State) (k : Nat) : Core := mapGet {} s.cores k
def putCore (s : State) (k : Nat) (c : Core) : State := { s with cores := mapSet {} s.cores k c }
def getTile (s : State) (k : Nat) : Tile := mapGet {} s.tiles k
def putTile (s : State) (k : Nat) (c : Tile) : State := { s with tiles := mapSet {} s.tiles k c }
def getCluster (s : State) (k : Nat) : Cluster := mapGet {} s.clusters k
def putCluster (s : State) (k : Nat) (c : Cluster) : State := { s with clusters := mapSet {} s.clusters k c }
def getDie (s : State) (k : Nat) : Die := mapGet {} s.dies k
def putDie (s : State) (k : Nat) (c : Die) : State := { s with dies := mapSet {} s.dies k c }

/-- Run an operation with agent a in focus, and give the focus back. -/
def withFocus (s : State) (a : Nat) (f : State → State) : State := focus (f (focus s a)) s.who

/-- The cycle in which an agent issues next, as the time stands (R12, R316): a core issues at most once in a cycle. -/
def cycleOf (s : State) (a : Nat) : Nat :=
  max (2 * s.stamp) (if isEngine a then (getCtx s a).busyTill else (getCore s (coreOf a)).cycle)
def cycleNow (s : State) : Nat := cycleOf s s.who

/-- The core of the focus, and its update. -/
def myCore (s : State) : Core := getCore s (coreOf s.who)
def putMyCore (s : State) (c : Core) : State := putCore s (coreOf s.who) c

/-! ### Registers (R201 to R203) -/

/-- R201: s0 reads 0. -/
def Ctx.rd (c : Ctx) (r : BitVec 5) : Word := if r = 0 then 0 else c.regs[r.toNat]
/-- R44, R201: a write to s0 is discarded. -/
def Ctx.wr (c : Ctx) (r : BitVec 5) (v : Word) : Ctx :=
  if r = 0 then c else { c with regs := c.regs.set r.toNat v }
/-- R203: p0 reads all ones. -/
def Ctx.pr (c : Ctx) (p : BitVec 3) : BitVec 32 := if p = 0 then 0xFFFFFFFF else c.preds[p.toNat]
/-- R44, R203: a write to p0 is discarded. -/
def Ctx.pw (c : Ctx) (p : BitVec 3) (v : BitVec 32) : Ctx :=
  if p = 0 then c else { c with preds := c.preds.set p.toNat v }
def Ctx.vr (c : Ctx) (v : BitVec 6) : VReg := c.vregs[v.toNat]
def Ctx.vw (c : Ctx) (v : BitVec 6) (x : VReg) : Ctx := { c with vregs := c.vregs.set v.toNat x }

/-- Registers and other fields of the focus. -/
def rd (s : State) (r : BitVec 5) : Word := s.cur.rd r
def wr (s : State) (r : BitVec 5) (v : Word) : State := { s with cur := s.cur.wr r v }

/-- Eight carried registers from r on (R142, R284). -/
def carried8 (c : Ctx) (r : BitVec 5) : Vector Word 8 :=
  Vector.ofFn fun k => c.rd (r + BitVec.ofNat 5 k.val)

/-! ### Where a byte stands (R68, R90, R132) -/

/-- The first logical address of slice space. -/
def sliceBase : Nat := 2 ^ 52
def isSlice (loc : Nat) : Bool := sliceBase ≤ loc
def sliceTile (loc : Nat) : Nat := (loc - sliceBase) / 2 ^ 18
def sliceOff (loc : Nat) : Nat := (loc - sliceBase) % 2 ^ 18
/-- The logical address of an offset in a tile's slice. -/
def sliceLoc (tile off : Nat) : Nat := sliceBase + tile * 2 ^ 18 + off
/-- The logical address of an offset in a core's home (R13). -/
def homeLoc (core off : Nat) : Nat := sliceBase + core * 2 ^ 16 + off

/-- R131: the swizzle window that covers a slice offset, lowest number first. -/
def windowOf : List Word → Nat → Option Word
  | [], _ => none
  | w :: t, o => if bits w 21 16 * 4096 ≤ o ∧ o < bits w 30 24 * 4096 then some w else windowOf t o

/-- R132: the physical place of slice offset o under a tile's windows. -/
def swizzle (win : List Word) (o : Nat) : Nat :=
  match windowOf win o with
  | none => o
  | some w =>
    let k := bits w 34 32
    if k ≤ 5 then
      let key := o / (16 * (16 * 2 ^ k)) % 16
      o - o % 256 + (Nat.xor (o / 16 % 16) key) * 16 + o % 16
    else o

/-! ### Motions (R77, R78) -/

/-- Every active motion of the device. -/
def motions (s : State) : List Motion := s.dies.flatMap fun d => d.2.active

/-- The motion whose source frame holds an address. -/
def motionAt (s : State) (loc : Nat) : Option Motion :=
  if isSlice loc then none else (motions s).find? fun m => m.src ≤ loc ∧ loc < m.src + 2 ^ m.log

/-- R77: in Forwarding an access that names the source frame is served at the destination. -/
def forwarded (s : State) (loc : Nat) : Nat :=
  match motionAt s loc with
  | some m => if m.forwarding then m.dst + (loc - m.src) else loc
  | none => loc

/-- R78: where a write to a line that a Moving motion has already copied lands as well. -/
def mirrorOf (s : State) (loc : Nat) : Option Nat :=
  match motionAt s loc with
  | some m => if !m.forwarding && decide ((loc - m.src) / 64 < m.cursor) then some (m.dst + (loc - m.src)) else none
  | none => none

/-- The memory key of a logical address: a slice offset is swizzled (R132), a frame in Forwarding stands at its destination. -/
def physKey (s : State) (loc : Nat) : Nat :=
  if isSlice loc then
    let win := (getTile s (sliceTile loc)).slwin.toList
    sliceBase + sliceTile loc * 2 ^ 18 + swizzle win (sliceOff loc)
  else forwarded s loc

/-- DESIGN CHOICE, log entry 3. -/
def readByte (s : State) (loc : Nat) : Byte := mapGet 0 s.mem (physKey s loc)
def writeByte (s : State) (loc : Nat) (b : Byte) : State := { s with mem := mapSet 0 s.mem (physKey s loc) b }

/-- n bytes from a logical address on. -/
def readBytes (s : State) (loc n : Nat) : List Byte := (List.range n).map fun k => readByte s (loc + k)

/-- Bytes written from a logical address on. -/
def writeBytes (s : State) (loc : Nat) : List Byte → State
  | [] => s
  | b :: t => writeBytes (writeByte s loc b) (loc + 1) t

def readNat (s : State) (loc n : Nat) : Nat := fromBytes (readBytes s loc n)
def writeNat (s : State) (loc n v : Nat) : State := writeBytes s loc (toBytes n v)

/-! ### Homes (R68, R71, R110, R363) -/

/-- The home of a logical address: HBM4 stack k and LPDDR-6 beneath it 12 + k, the far tier 24, the host 25, the slice of
tile t 100 + t; none where nothing is populated. DESIGN CHOICE, log entry 11. -/
def homeOf (s : State) (loc : Nat) : Option Nat :=
  if isSlice loc then (if sliceTile loc < 4096 then some (100 + sliceTile loc) else none)
  else if loc < 12 * 2 ^ 36 then
    let k := loc / 2 ^ 36
    if loc % 2 ^ 36 < 63999967232 ∧ !s.cacheMode.getLsbD k ∧ !s.absent.getLsbD k then some k else none
  else if 2 ^ 40 ≤ loc ∧ loc < 2 ^ 40 + 12 * 2 ^ 38 then
    let k := (loc - 2 ^ 40) / 2 ^ 38
    if s.absent.getLsbD k then none else some (12 + k)
  else if 2 ^ 44 ≤ loc ∧ loc < 5 * 2 ^ 44 then
    if s.far.any (fun f => f.base ≤ loc ∧ loc < f.base + f.size) then some 24 else none
  else if 2 ^ 51 ≤ loc ∧ loc < 2 ^ 51 + 2 ^ 48 then some 25
  else none

/-- The die of a home (R69, R71); the host is on none (R321). -/
def homeDie (h : Nat) : Nat :=
  if h < 12 then h / 3 else if h < 24 then (h - 12) / 3 else if h = 24 then 1 else if h = 25 then 4 else (h - 100) / 1024

/-- The far-tier device that holds an address now, when its link is down. -/
def farDown (s : State) (loc : Nat) : Option FarDev :=
  let l := forwarded s loc
  s.far.find? fun f => f.base ≤ l ∧ l < f.base + f.size ∧ f.down.isSome

/-- R364: lost beyond the retrain window. -/
def farLost (s : State) (loc : Nat) : Bool := (farDown s loc).any (·.lost)
/-- Down within the window: requests wait. -/
def farWaits (s : State) (loc : Nat) : Bool := (farDown s loc).any (fun f => !f.lost)
/-- A write waits too where it goes to the destination of a Moving page as well, and that cannot be reached (R78). -/
def writeWaits (s : State) (loc : Nat) : Bool := farWaits s loc || (mirrorOf s loc).any (farWaits s)
/-- What the device itself reads or writes in n bytes; a page that moves holds 64 KiB at least. -/
def farHolds (s : State) (loc n : Nat) : Bool :=
  farWaits s (loc + (n - 1)) || (List.range (n / 2 ^ 16 + 1)).any (fun k => farWaits s (loc + 2 ^ 16 * k)) ||
    (motions s).any fun m => !m.forwarding && decide (m.src < loc + n ∧ loc < m.src + 2 ^ m.log) && farWaits s m.dst

/-- The home that serves an address now (R71, R77). -/
def homeAt (s : State) (loc : Nat) : Option Nat := homeOf s (forwarded s loc)

/-! ### Poison (R115) -/

def lineOf (loc : Nat) : Nat := loc / 64
/-- The line in which an address stands now. -/
def lineAt (s : State) (loc : Nat) : Nat := lineOf (forwarded s loc)
def isPoisoned (s : State) (loc : Nat) : Bool := s.poison.contains (lineAt s loc)
def insertLine : Nat → List Nat → List Nat
  | k, [] => [k]
  | k, j :: t => if k < j then k :: j :: t else if k = j then j :: t else j :: insertLine k t
/-- Poison of a line, by its logical line: in a slice it stays at its offset when a write of `SLWIN` changes where bytes stand (R133).
DESIGN CHOICE, log entry 72. -/
def setPoison (s : State) (loc : Nat) (p : Bool) : State :=
  if p then { s with poison := insertLine (lineAt s loc) s.poison }
  else { s with poison := s.poison.filter (· ≠ lineAt s loc) }
/-- A write's poison, or the end of it, at the line's home and at the destination of a Moving line already copied (R78). -/
def markLine (s : State) (loc : Nat) (p : Bool) : State :=
  match mirrorOf s loc with
  | some d => setPoison (setPoison s loc p) d p
  | none => setPoison s loc p

/-! ### Hotness (R82) and the policy's destinations (R83, R85) -/

def satInc (n : Nat) : Nat := if n < 0xFFFF then n + 1 else n

/-- The log of a leaf entry's page size (R95). -/
def leafLog (e : Nat) : Nat := if nbits e 9 8 = 0 then 16 else if nbits e 9 8 = 1 then 21 else 30

/-- The frame that a leaf entry names. -/
def entryFrame (e : Nat) : Nat := nbits e 51 16 * 2 ^ 16

/-- The frame and the size of the page that holds an address: by the leaf entry that the request carried, else by what the
home last recorded, else a 64 KiB frame. -/
def pageOf (s : State) (loc leaf : Nat) : Nat × Nat :=
  let e := readNat s leaf 16
  let f := entryFrame e
  if leaf ≠ 0 ∧ e % 4 = 2 ∧ f ≤ loc ∧ loc < f + 2 ^ leafLog e then (f, leafLog e)
  else match s.hot.find? fun h => h.1 ≤ loc ∧ loc < h.1 + 2 ^ h.2.log with
    | some h => (h.1, h.2.log)
    | none => (loc - loc % 2 ^ 16, 16)

/-- A tier location's free ring for page size z (R85): its base, capacity, head and tail; none without a table. -/
def freeRing (s : State) (k z : Nat) : Option (Nat × Nat × Nat × Nat) :=
  let b := bits s.dev.mfree 51 6 * 64
  if b = 0 then none else
  let d := b + 32 * (2 * k + z)
  some (readNat s d 8, readNat s (d + 8) 4, readNat s (d + 12) 4, readNat s (d + 16) 4)

def ringEmpty (s : State) (k z : Nat) : Bool := match freeRing s k z with
  | none => true
  | some (_, _, h, t) => h = t

/-- Page size code of a motion: 0 for 64 KiB, 1 for 2 MiB. -/
def sizeCode (log : Nat) : Nat := if log = 16 then 0 else 1

/-- R69: the stack against a quadrant of a die (0 NE, 1 NW, 2 SE, 3 SW). -/
def quadStack (die q : Nat) : Option Nat :=
  ([[some 1, some 0, none, some 2], [some 4, some 3, some 5, none], [none, some 6, some 8, some 7],
    [some 9, none, some 11, some 10]].getD die []).getD q none

/-- Insert into a list ordered by a test, before the first element that it may precede. -/
def insertBy (le : Nat → Nat → Bool) (x : Nat) : List Nat → List Nat
  | [] => [x]
  | y :: t => if le x y then x :: y :: t else y :: insertBy le x t

/-- The quadrants by sub-count, highest first, ties in the order NE, NW, SE, SW. -/
def quadRank (p : Hot) : List Nat :=
  let c := [p.ne, p.nw, p.se, p.sw]
  (List.range 4).foldr (insertBy fun x y => decide (c.getD y 0 ≤ c.getD x 0)) []

/-- Can HBM4 stack k take a page of size z? -/
def stackReady (s : State) (z k : Nat) : Bool := !s.cacheMode.getLsbD k && !s.absent.getLsbD k && !ringEmpty s k z

/-- The die that the quadrant rule of R83 names for a far-tier page. -/
def farQuadDie (p : Hot) : Nat := match quadRank p with
  | 0 :: _ => 1
  | 1 :: _ => 0
  | 2 :: _ => 3
  | _ => 2

/-- R83: the HBM4 stack that a promotion of a page homed at h takes. -/
def promoteTo (s : State) (h z : Nat) (p : Hot) : Option Nat :=
  if h < 24 then ((quadRank p).filterMap (quadStack (homeDie h))).find? (stackReady s z)
  else ([0, 1, 2].map (3 * farQuadDie p + ·)).find? (stackReady s z)

/-- Is a page queued, Moving or Forwarding? A Forwarding page's leaf entry names its destination frame already. -/
def inMotion (s : State) (frame : Nat) : Bool :=
  s.dies.any fun d => d.2.queue.any (fun m => m.src = frame) ||
    d.2.active.any fun m => m.src = frame || (m.forwarding && m.dst = frame)

/-- Queue a motion on its source die's Turnip; none when 256 are queued (R76). -/
def queueMotion (s : State) (h : Nat) (m : Motion) : Option State :=
  let d := getDie s (homeDie h)
  if 256 ≤ d.queue.length then none else some (putDie s (homeDie h) { d with queue := d.queue ++ [m] })

/-- R364: do the descriptors of the free rings lie where requests wait? -/
def ringsFar (s : State) : Bool := bits s.dev.mfree 51 6 ≠ 0 && farHolds s (bits s.dev.mfree 51 6 * 64) 1600

/-- Promote a page that has reached PROMOTE, once the free rings can be read: until then it waits (R364). -/
def promotePage (s : State) (frame h : Nat) (p : Hot) : State :=
  let e := readNat s p.leaf 16
  if bits s.dev.motionctl 37 37 = 1 ∧ 12 ≤ h ∧ h ≤ 24 ∧ p.log ≤ 21 ∧ nbits e 7 7 = 1 ∧ e % 4 = 2 ∧ entryFrame e = frame ∧
      !inMotion s frame then
    if ringsFar s then { s with asks := s.asks ++ [(frame, h)] } else
    match promoteTo s h (sizeCode p.log) p with
    | some k => (queueMotion s h { leaf := p.leaf, old := e, src := frame, dst := 0, log := p.log, loc := k }).getD s
    | none => s
  else s

/-- R83: a counted request raised a page's total to PROMOTE. A Turnip that holds 256 queued motions takes none more, and the
policy asks again only when the total next passes PROMOTE. DESIGN CHOICE, log entry 65. -/
def promote (s : State) (frame h : Nat) (p : Hot) : State :=
  if p.total = bits s.dev.motionctl 15 0 ∧ p.total ≠ 0 then promotePage s frame h p else s

/-- The pages that waited for the free rings ask again, with the counts they have now. -/
def askAgain (s : State) : State :=
  s.asks.foldl (fun s x => promotePage s x.1 x.2 (mapGet {} s.hot x.1)) { s with asks := [] }

/-- Count one request to a page of main memory from the mesh position of a core's cluster (R12, R82); a forwarded one counts at the
destination. -/
def countHot (s : State) (loc0 core leaf : Nat) : State :=
  let loc := forwarded s loc0
  if isSlice loc then s else match homeOf s loc with
  | none => s
  | some h => if h = 25 then s else
    let pg := pageOf s loc leaf
    let old := mapGet {} s.hot pg.1
    let cx := if h = 24 then 8 else 8 * (homeDie h % 2) + 4
    let cy := if h = 24 then 8 else 8 * (homeDie h / 2) + 4
    let east := decide (cx ≤ meshX (core / 64))
    let south := decide (cy ≤ meshY (core / 64))
    let p := { old with total := satInc old.total, leaf := if leaf = 0 then old.leaf else leaf, log := pg.2 }
    let p := if east && south then { p with se := satInc p.se } else if east then { p with ne := satInc p.ne }
      else if south then { p with sw := satInc p.sw } else { p with nw := satInc p.nw }
    let s := { s with hot := mapSet {} s.hot pg.1 p }
    if old.total < p.total then promote s pg.1 h p else s

/-! ### Service at a home (R71, R115) -/

/-- Fire every monitor on a line that a test picks. -/
def fireWhere (s : State) (p : Nat → Bool) : State :=
  (s.monitors.filter (p ·.1)).foldl (fun s e =>
    let c := getCtx s e.2
    match c.wait with
    | .monitor l _ a b k z st => putCtx s e.2 { c with wait := .monitor l true a b k z st }
    | _ => s) { s with monitors := s.monitors.filter fun m => !p m.1 }

/-- R127: a write or atomic to a line fires its monitors. -/
def fireMonitors (s : State) (line : Nat) : State := fireWhere s (decide <| · = line)

/-- Has a load no value that may stand: its home has not answered, or it is to be performed again? -/
def LoadSlot.opened (x : LoadSlot) : Bool := x.val.isNone || x.noticed
def LoadSlot.meets (x y : LoadSlot) : Bool := decide (x.loc < y.loc + y.size) && decide (y.loc < x.loc + x.size)

/-- R322: of a context's loads, those that a write to a marked line sends a replay notice: served, and behind an open load of the
context, both die-local, or behind an open load of the same location, wherever it stands (R319). `near` tells the addresses whose
home is now on the context's die; `before` holds the open loads. -/
def noteSlots (near hit : Nat → Bool) : List LoadSlot → List LoadSlot → List LoadSlot
  | _, [] => []
  | before, x :: t =>
    let near1 := fun (x : LoadSlot) => x.local1 || near x.loc
    let y := if x.served && hit x.loc && before.any (fun z => x.meets z || (near1 x && near1 z)) then { x with noticed := true } else x
    y :: noteSlots near hit (if y.opened then y :: before else before) t

/-- Is the home of an address on the die of an agent (R321)? -/
def nearAt (s : State) (a loc : Nat) : Bool := (homeAt s loc).any fun h => homeDie h = dieOf a

/-- R322: a write to the lines that a test picks notifies every context whose loads their homes have marked. -/
def noteWhere (s : State) (p : Nat → Bool) : State :=
  let f := fun (a : Nat) (c : Ctx) => { c with loads := noteSlots (nearAt s a) (fun l => p (lineAt s l)) [] c.loads }
  { s with cur := f s.who s.cur, parked := s.parked.map fun c => (c.1, f c.1 c.2) }

/-- What a write to a line of memory sets off, and at the destination of a Moving line that is already copied (R78, R127). -/
def wroteAt (s : State) (line : Nat) : State := noteWhere (fireMonitors s line) (decide <| · = line)
def wrote (s : State) (line : Nat) : State :=
  match mirrorOf s (64 * line) with
  | some d => wroteAt (wroteAt s line) (lineOf d)
  | none => wroteAt s line
/-- The same for every line that a test picks. -/
def wroteWhere (s : State) (p : Nat → Bool) : State := noteWhere (fireWhere s p) p
/-- The same for k lines from one on. -/
def wroteLines (s : State) (line : Nat) : Nat → State
  | 0 => s
  | k + 1 => wroteLines (wrote s line) (line + 1) k

/-- One byte, and bytes, applied where they stand: at their home, and at the destination of a Moving line that is already
copied (R78). -/
def applyByte (s : State) (loc : Nat) (b : Byte) : State :=
  match mirrorOf s loc with
  | some d => writeByte (writeByte s loc b) d b
  | none => writeByte s loc b
def applyBytes (s : State) (loc : Nat) : List Byte → State
  | [] => s
  | b :: t => applyBytes (applyByte s loc b) (loc + 1) t

/-- A line is written poisoned (R115, R169). -/
def poisonWrite (s : State) (loc : Nat) : State := wrote (markLine s loc true) (lineAt s loc)

/-- R264: a withheld staging area reads zero. -/
def withheld (s : State) (loc : Nat) : Bool :=
  isSlice loc && (getTile s (sliceTile loc)).staged.any fun x =>
    decide (x.2.1 ≤ sliceOff loc ∧ sliceOff loc < x.2.1 + x.2.2)

/-- Read n bytes within one line at its home: status 0 served, 1 poisoned, 2 lost (R115). Loads from a withheld staging area return
zero, whatever stands there (R264); of a line both poisoned and lost a read tests the poison first and a write the loss. DESIGN
CHOICE, log entry 70. -/
def serveRead (s : State) (loc n : Nat) : Nat × List Byte :=
  let l := forwarded s loc
  if withheld s l then (0, List.replicate n 0)
  else if isPoisoned s l then (1, []) else if farLost s l then (2, []) else (0, readBytes s l n)

/-- Write bytes within one line at its home; `whole` replaces a whole aligned line and clears its poison (R115); a lost line takes no
write, poisoned or not. DESIGN CHOICE, log entry 70. While the page is Moving, a line below the cursor is written at both places (R78). -/
def serveWrite (s : State) (loc : Nat) (data : List Byte) (whole : Bool) : Nat × State :=
  if farLost s loc then (2, s)
  else if isPoisoned s loc && !whole then (1, s)
  else (0, wrote (applyBytes (if whole then markLine s loc false else s) loc data) (lineAt s loc))

/-- A write by the dispatcher, Dusk, Turnip or a node: no table, no poison test; one to a lost line is not applied. -/
def sysBytes (s : State) (loc : Nat) (data : List Byte) : State :=
  if farLost s loc then s else
  wroteLines (applyBytes s loc data) (lineAt s loc) ((loc + data.length + 63) / 64 - loc / 64)
def sysWrite (s : State) (loc n v : Nat) : State := sysBytes s loc (toBytes n v)

/-- R73: a row of HBM4, or of LPDDR-6. -/
def rowOf (loc : Nat) : Nat := if loc < 2 ^ 40 then loc / 1024 * 1024 else loc / 2048 * 2048

/-- R73: a bank reserved by the transfer unit of another tile makes a request wait; only that unit passes its own tile, any
other requester 4096, no tile. DESIGN CHOICE, log entry 22. -/
def bankBusy (s : State) (loc tile : Nat) : Bool :=
  !isSlice loc && s.reserved.any fun r =>
    r.row = rowOf (forwarded s loc) && r.tile ≠ tile && decide (2 * s.stamp < r.last + 2048)

/-! ### Regions (R271 to R274) -/

/-- A field of an RCB in memory. -/
def rcbField (s : State) (rcb off n : Nat) : Nat := readNat s (rcb + off) n
def rcbPager (s : State) (rcb : Nat) : Nat := rcbField s rcb 0x5B 1 % 4
def rcbPrio (s : State) (rcb : Nat) : Nat := rcbField s rcb 0x5A 1 % 8
def rcbBcl (s : State) (rcb : Nat) : Nat := rcbField s rcb 0x58 2
def rcbTag (s : State) (rcb : Nat) : Nat := rcbField s rcb 0x08 8 / 2 ^ 52 % 2 ^ 12
def rcbState (s : State) (rcb : Nat) : Nat := rcbField s rcb 0x70 8 % 8

/-- R364: do an RCB, or the bytes at an address that one of its fields names, lie where requests wait? What the dispatcher, Dusk,
or a cluster reads there for the region waits for the link. DEDUCED, log entry 68. -/
def rcbFar (s : State) (rcb : Nat) (fields : List (Nat × Nat)) : Bool :=
  farHolds s rcb 256 || fields.any fun f => farHolds s (rcbField s rcb f.1 8) f.2
/-- The length of a region's spill ring. -/
def spillBytes (s : State) (rcb : Nat) : Nat := 128 * 2 ^ rcbField s rcb 0x5C 1

/-- The region of a core, and the index of its cluster there. -/
def regionOf (s : State) (core : Nat) : Option (Nat × Nat) := (getCluster s (core / 64)).region
def findRegion (s : State) (rcb : Nat) : Option Region := s.regions.find? (·.rcb = rcb)
def putRegion (s : State) (r : Region) : State :=
  { s with regions := s.regions.map fun x => if x.rcb = r.rcb then r else x }

/-- A supervisor pager core of a mode-1 region (R103). -/
def isPagerCore (s : State) (core : Nat) : Bool :=
  decide (62 ≤ core % 64) && match regionOf s core with
  | some (rcb, _) => rcbPager s rcb = 1
  | none => false

/-- Of a context's loads, those that are served behind an open load that a test picks are to be performed again. -/
def noteBehind (hit : LoadSlot → Bool) : Bool → List LoadSlot → List LoadSlot
  | _, [] => []
  | after, x :: t =>
    let y := if after && x.served then { x with noticed := true } else x
    y :: noteBehind hit (after || (y.opened && hit x)) t

/-- R325: a read of STATUS that shows 4 acquires all that the region wrote; where loads are served out of order, those behind a load
of STATUS that has no value yet are performed again, so that they come behind it. -/
def statusAcquires (s : State) (rcb : Nat) : State :=
  let at1 := forwarded s (rcb + 0x70)
  let f := fun (c : Ctx) => { c with
    loads := noteBehind (fun x => decide (forwarded s x.loc < at1 + 8 ∧ at1 < forwarded s x.loc + x.size)) false c.loads }
  { s with cur := f s.cur, parked := s.parked.map fun c => (c.1, f c.2) }

/-- STATUS of a region (R273). -/
def setStatus (s : State) (rcb st cause : Nat) : State :=
  let s := sysWrite s (rcb + 0x70) 8 (st + 256 * cause)
  if st = 4 then statusAcquires s rcb else s

/-! ### Utilisation and cluster time (R288, R312) -/

/-- R288: count a core's cycles since the last accounting under its phase, as far as time has come or the core has issued; of the two
cycles of a count it may have issued in both. DEDUCED, log entry 48. -/
def accountCore (s : State) (core : Nat) : State :=
  let c := getCore s core
  let upTo := max (2 * s.stamp) c.cycle
  let cl := getCluster s (core / 64)
  let f := c.phase.toNat
  let s := putCore s core { c with issued := 0, phaseAt := upTo }
  putCluster s (core / 64) { cl with
    busy := mapSet 0 cl.busy f (mapGet 0 cl.busy f + c.issued)
    idle := mapSet 0 cl.idle f (mapGet 0 cl.idle f + (upTo - c.phaseAt - c.issued)) }

/-- Add a cluster's counts to its region's table. -/
def flushUtil (s : State) (cl : Nat) : State :=
  match (getCluster s cl).region with
  | none => s
  | some (rcb, k) =>
    let s := (List.range 64).foldl (fun s c => accountCore s (64 * cl + c)) s
    let c := getCluster s cl
    let table := rcbField s rcb 0x30 8
    let add := fun (o : Nat) (s : State) (e : Nat × Nat) =>
      let at1 := table + (256 * k + e.1) * 16 + o
      sysWrite s at1 8 (readNat s at1 8 + e.2)
    let s := c.idle.foldl (add 8) (c.busy.foldl (add 0) s)
    putCluster s cl { c with busy := [], idle := [] }

/-- No chain of RCBs is longer than the 256-byte blocks of the physical address space. -/
def chain : Nat := 2 ^ 44

/-- Add cluster-microseconds to the USED of a region and of every ancestor. -/
def addUsed (s : State) (n : Nat) : Nat → Nat → State
  | 0, _ => s
  | fuel + 1, rcb =>
    if rcb = 0 then s else
    addUsed (sysWrite s (rcb + 0x68) 8 (rcbField s rcb 0x68 8 + n)) n fuel (rcbField s rcb 0 8)

/-- Does the RCB of a region or of an ancestor lie where requests wait (R364)? -/
def chainFar (s : State) : Nat → Nat → Bool
  | 0, _ => false
  | fuel + 1, rcb => rcb ≠ 0 && (farHolds s rcb 256 || chainFar s fuel (rcbField s rcb 0 8))
/-- The same for all that a region's books touch: its RCB and its ancestors', and its utilisation table. -/
def booksFar (s : State) (rcb : Nat) : Bool := rcbFar s rcb [(0x30, 2 ^ 20)] || chainFar s chain rcb

/-- R312: has USED reached a nonzero BCSEC of a region or of an ancestor? -/
def exhausted (s : State) : Nat → Nat → Bool
  | 0, _ => false
  | fuel + 1, rcb =>
    rcb ≠ 0 && ((rcbField s rcb 0x50 8 ≠ 0 && decide (rcbField s rcb 0x50 8 ≤ rcbField s rcb 0x68 8)) ||
      exhausted s fuel (rcbField s rcb 0 8))

/-- R312: every region that is over a budget is not granted again until a resume record has its budget tested. One whose RCBs are out
of reach is judged once they can be read (R364). -/
def judgeBudgets (s : State) : State :=
  { s with regions := s.regions.map fun g => if !chainFar s chain g.rcb && exhausted s chain g.rcb then { g with overBudget := true } else g }

/-- Charge a running region for the whole microseconds since it was last charged (1,000 counts each). -/
def charge (s : State) (g : Region) : State :=
  let us := (s.stamp - g.charged) / 1000
  if us = 0 then s else
  judgeBudgets (putRegion (addUsed s (us * g.clusters.length) chain g.rcb) { g with charged := g.charged + 1000 * us })

/-- Flush counts and charge time before a region leaves its clusters. -/
def closeBooks (s : State) (g : Region) : State :=
  let s := g.clusters.foldl flushUtil s
  match findRegion s g.rcb with
  | some g => charge s g
  | none => s

/-- The contexts and engine members of a cluster. -/
def agentsOf (cl : Nat) : List Nat :=
  (List.range 128).map (cl * 128 + ·) ++
    (List.range 16).flatMap fun t => [1, 2, 3].map fun k => engineBase + 4 * (cl * 16 + t) + k

/-- Stop every context of a cluster. -/
def idleCluster (s : State) (cl : Nat) : State :=
  (agentsOf cl).foldl (fun s a =>
    let c := getCtx s a
    if c.run = .idle then s else putCtx s a { c with run := .idle, wait := .ready, span := 0, board := [], loads := [] }) s

/-- Free a cluster: it belongs to no region and its tiles are not owned (R373). -/
def freeCluster (s : State) (cl : Nat) : State :=
  let s := idleCluster s cl
  let s := putCluster s cl { getCluster s cl with region := none, team := none }
  (List.range 16).foldl (fun s t =>
    let tl := getTile s (cl * 16 + t)
    putTile s (cl * 16 + t) { tl with slown := setBits tl.slown 63 63 0, staged := [], spanq := [] }) s

/-- Take a region off the device: clusters freed, arrays and spilled records dropped (those that still had to be counted are
acknowledged), records in the pending-launch stores discarded when it is faulted. -/
def dropRegion (s : State) (r : Region) (discard : Bool) : State :=
  let s := r.clusters.foldl (fun s c => if (getCluster s c).region.any (·.1 = r.rcb) then freeCluster s c else s) s
  { s with
    replies := s.replies ++ (r.spill.filterMap (·.due)).map fun m => ⟨m.src, m.entry, [], 0, []⟩
    regions := s.regions.filter (·.rcb ≠ r.rcb),
    arrays := s.arrays.filter (·.region ≠ r.rcb),
    clusters := (s.clusters.map fun c => (c.1, { c.2 with node := c.2.node.filter (·.tag ≠ r.rcb) })).filter (·.2 ≠ {}),
    rootInst := s.rootInst.filter (·.tag ≠ r.rcb),
    results := s.results.filter (·.2.2.2 ≠ r.rcb),
    dies := (s.dies.map fun d => (d.1, { d.2 with
      store := if discard then d.2.store.filter (·.rcb ≠ r.rcb) else d.2.store
      root := d.2.root.filter (·.tag ≠ r.rcb) })).filter (·.2 ≠ {}) }

/-- R274: the root of a region's fault domain, climbing while the parent has the same FDOM. -/
def domainRoot (s : State) : Nat → Nat → Nat
  | 0, rcb => rcb
  | fuel + 1, rcb =>
    let p := rcbField s rcb 0 8
    if p = 0 then rcb
    else if rcbField s p 0x5E 2 = rcbField s rcb 0x5E 2 then domainRoot s fuel p else rcb

/-- Has a region begun to run and not yet left its clusters? -/
def Region.onClusters (g : Region) : Bool := g.state = 2 || g.state = 6 || g.state = 7

/-- End a fault domain now. A region that ran closes its books first (R288, R312). -/
def endNow (s : State) (rcb cause : Nat) : State :=
  let root := domainRoot s chain rcb
  (s.regions.filter fun r => domainRoot s chain r.rcb = root).foldl (fun s r =>
    let s := if r.onClusters then closeBooks s r else s
    setStatus (dropRegion s r true) r.rcb 5 cause) s

/-- R364: what the end of a fault domain reads and writes lies where requests wait: the RCBs that tell which regions belong to it, and
their books. -/
def endFar (s : State) (rcb : Nat) : Bool :=
  chainFar s chain rcb || s.regions.any fun r => chainFar s chain r.rcb ||
    (domainRoot s chain r.rcb = domainRoot s chain rcb && r.onClusters && booksFar s r.rcb)

/-- R274: end a fault domain. Where its RCBs are out of reach, the region stops and the end waits (R364). DEDUCED, log entry 68. -/
def endDomain (s : State) (rcb cause : Nat) : State :=
  if endFar s rcb then
    match findRegion s rcb with
    | some g => putRegion { s with ends := s.ends ++ [(rcb, cause)] } { g with state := if g.onClusters then 7 else g.state }
    | none => s
  else endNow s rcb cause

/-- The fault domains whose end waited end now, each once its RCBs can be reached. -/
def endWaiting (s : State) : State :=
  s.ends.foldl (fun s e => if (findRegion s e.1).isSome then endDomain s e.1 e.2 else s) { s with ends := [] }

/-! ### Translation (R88 to R98) -/

/-- R88: the 80-bit address of E under a given HIGH. -/
def widen (high : BitVec 16) (e : Word) : VAddr :=
  if e.toNat / 2 ^ 30 = 2 ^ 34 - 1 then (0xFFFF : BitVec 16) ++ e else high ++ e

def vaHigh (c : Ctx) : BitVec 16 := BitVec.ofNat 16 (bits c.vabase 15 0)
def isSliceVA (va : VAddr) : Bool := va.toNat / 2 ^ 64 = 0xFFFF
/-- R90: bits 29:18 name the tile, bits 17:0 the offset. -/
def sliceOfVA (va : VAddr) : Nat := sliceBase + va.toNat % 2 ^ 30

/-- A trap: cause code, ACCESS, FAULTVA and INFO (R347). -/
structure Trap where
  code : Nat
  access : Nat := 7
  va : VAddr := 0
  info : Nat := 0
  /-- the physical address of the entry at which a walk stopped (R106) -/
  entry : Nat := 0
  /-- the VAs and kinds of the accesses that its instruction had made before, each checked in its turn (R111, R98) -/
  walked : List (VAddr × Nat) := []
  deriving DecidableEq, Repr

/-- A trap that an instruction meets behind an access at a VA. -/
def Trap.after (t : Trap) (va : VAddr) (k : Nat) : Trap := { t with walked := (va, k) :: t.walked }

/-- No trap of R347: the access waits for the link of a far-tier device and is tried again (R364). -/
def linkWait : Trap := { code := 0x100 }
def Trap.waits (t : Trap) : Bool := t.code = 0x100

/-- ILLEGAL_OPERAND (R43). -/
def illegalOperand : Trap := { code := 0x02 }

/-- R95: an entry's bits 15:10, 63:52, 127:96 and 6:5 are reserved; a table entry's 9:7 and 4:2 as well. -/
def reservedEntry (e : Nat) : Bool :=
  nbits e 127 96 ≠ 0 || nbits e 63 52 ≠ 0 || nbits e 15 10 ≠ 0 || nbits e 6 5 ≠ 0 ||
    (e % 4 = 1 && (nbits e 9 7 ≠ 0 || nbits e 4 2 ≠ 0))

/-- A node must lie in a populated HBM4 or LPDDR-6 range. -/
def nodeOk (s : State) (pa : Nat) : Bool := match homeOf s pa with
  | some h => h < 24
  | none => false

/-- A walk's result: a leaf (entry, its address, log of its size, frame) or a fault code with the entry it stopped at. -/
def walk (s : State) (va : Nat) : Nat → Nat → Nat → Except (Nat × Nat) (Nat × Nat × Nat × Nat)
  | 0, _, node => .error (0x0A, node)
  | fuel + 1, lvl, node =>
    if !nodeOk s node then .error (0x0A, node) else
    let idx := if lvl = 5 then nbits va 79 76 else nbits va (12 * lvl + 27) (12 * lvl + 16)
    let at1 := node + 16 * idx
    if isPoisoned s at1 then .error (0x0B, at1) else
    let e1 := readNat s at1 16
    let sec := decide (e1 % 4 = 3)
    if sec && decide (lvl > 1) then .error (0x0A, at1) else
    let idx := if sec then idx - idx % (if lvl = 0 then 32 else 4) else idx
    let at2 := node + 16 * idx
    if isPoisoned s at2 then .error (0x0B, at2) else
    let e := readNat s at2 16
    if sec && (e % 4 ≠ 2 || nbits e 9 8 ≠ (if lvl = 0 then 1 else 2)) then .error (0x0A, at2) else
    if e % 4 = 0 then .error (0x08, at2) else
    if reservedEntry e then .error (0x0A, at2) else
    if e % 4 = 1 then
      (if lvl = 0 then .error (0x0A, at2) else walk s va fuel (lvl - 1) (nbits e 51 16 * 2 ^ 16))
    else
      let sz := nbits e 9 8
      let log := if sz = 0 then 16 else if sz = 1 then 21 else 30
      if !((lvl = 0 && sz = 0) || (lvl = 0 && sz = 1 && idx % 32 = 0) || (lvl = 1 && sz = 2 && idx % 4 = 0))
      then .error (0x0A, at2) else
      if (nbits e 51 16 * 2 ^ 16) % 2 ^ log ≠ 0 then .error (0x0A, at2) else
      .ok (e, at2, log, nbits e 51 16 * 2 ^ 16)

/-- Kinds of access (R97, R106): 0 read, 1 write, 2 atomic, 3 fetch, 4 engine read, 5 engine write. -/
def needsR (k : Nat) : Bool := k = 0 || k = 2 || k = 4
def needsW (k : Nat) : Bool := k = 1 || k = 2 || k = 5
def TlbEntry.permits (e : TlbEntry) (k : Nat) : Bool :=
  if k = 3 then e.x else (!needsR k || e.r) && (!needsW k || e.w)

/-- R364: the access table lies where requests wait. -/
def mtabFar (s : State) : Bool := bits s.dev.mtab 51 12 ≠ 0 && farWaits s (bits s.dev.mtab 51 12 * 4096)

/-- R374: the first valid entry of the MTAB table that contains an address: what a region tag, or the host, may do there. -/
def mtabFind (s : State) (pa : Nat) : Nat → Nat → Option Nat
  | 0, _ => none
  | fuel + 1, i =>
    let a := bits s.dev.mtab 51 12 * 4096 + 16 * i
    let e := readNat s a 16
    if e % 2 = 1 ∧ nbits e 51 16 * 2 ^ 16 ≤ pa ∧ pa < nbits e 115 80 * 2 ^ 16 then some e else mtabFind s pa fuel (i + 1)

/-- R374: may this region tag read, and write, this address? An absent table denies regions. -/
def mtabAllows (s : State) (tag pa : Nat) : Bool × Bool :=
  if bits s.dev.mtab 51 12 = 0 then (false, false) else
  match mtabFind s pa 256 0 with
  | none => (false, false)
  | some e =>
    let mine := decide (nbits e 3 3 = 1) || decide (nbits e 75 64 = tag)
    (mine && decide (nbits e 1 1 = 1), mine && decide (nbits e 2 2 = 1))

/-- R374: the host's own verdict; an absent table lets the host pass. -/
def mtabHost (s : State) (pa : Nat) : Bool × Bool :=
  if bits s.dev.mtab 51 12 = 0 then (true, true) else
  match mtabFind s pa 256 0 with
  | none => (false, false)
  | some e => (decide (nbits e 4 4 = 1) && decide (nbits e 1 1 = 1), decide (nbits e 4 4 = 1) && decide (nbits e 2 2 = 1))

/-- R374: what the table lets a region tag do in the n bytes from a frame on: for a page of 64 KiB, the grain of the table,
one verdict; for a larger one every valid entry that meets it, in order. -/
def mtabRights (s : State) (tag frame n : Nat) : List (Nat × Nat × Bool × Bool) :=
  if n = 2 ^ 16 then [(frame, frame + n, mtabAllows s tag frame)]
  else if bits s.dev.mtab 51 12 = 0 then []
  else (List.range 256).filterMap fun i =>
    let e := readNat s (bits s.dev.mtab 51 12 * 4096 + 16 * i) 16
    let lo := nbits e 51 16 * 2 ^ 16
    let hi := nbits e 115 80 * 2 ^ 16
    let mine := decide (nbits e 3 3 = 1) || decide (nbits e 75 64 = tag)
    if e % 2 = 1 ∧ lo < frame + n ∧ frame < hi then some (lo, hi, mine && decide (nbits e 1 1 = 1), mine && decide (nbits e 2 2 = 1))
    else none

/-- The verdict that a TLB entry holds for an address of its page. -/
def TlbEntry.allows (e : TlbEntry) (pa : Nat) : Bool × Bool :=
  ((e.rights.find? fun x => x.1 ≤ pa ∧ pa < x.2.1).map (·.2.2)).getD (false, false)

/-- The TLB entry of a walked leaf, with the access table's verdict beside it (R374). -/
def mkEntry (s : State) (tag va : Nat) (l : Nat × Nat × Nat × Nat) : TlbEntry :=
  let (e, at2, log, frame) := l
  { tag := tag, va := va / 2 ^ log * 2 ^ log, log := log, frame := frame, r := nbits e 2 2 = 1, w := nbits e 3 3 = 1,
    x := nbits e 4 4 = 1, leaf := at2, movable := nbits e 7 7 = 1, rights := mtabRights s tag frame (2 ^ log) }

def TlbEntry.hits (e : TlbEntry) (tag va : Nat) : Bool := e.tag = tag && e.va = va / 2 ^ e.log * 2 ^ e.log

/-- Do the pages of two leaves of one tag overlap? -/
def TlbEntry.meets (x e : TlbEntry) : Bool :=
  x.tag = e.tag && decide (x.va < e.va + 2 ^ e.log) && decide (e.va < x.va + 2 ^ x.log)

/-- Fill both TLBs with a leaf, replacing every entry that it overlaps (R98); the oldest entry goes when one is full (R96). DESIGN CHOICE, log
entry 18. -/
def fillTlb (s : State) (core : Nat) (e : TlbEntry) : State :=
  let keep := fun (l : List TlbEntry) (n : Nat) => e :: (l.filter fun x => !x.meets e).take (n - 1)
  let c := getCore s core
  let s := putCore s core { c with tlb := keep c.tlb 32 }
  let cl := getCluster s (core / 64)
  putCluster s (core / 64) { cl with tlb := keep cl.tlb 2048 }

/-- R96 to R98: translate for an access of kind k by a context whose TROOT is given, filling the TLBs. A walk reads the access table
too, and waits while that is out of reach (R364). -/
def translate (s : State) (core : Nat) (troot : Word) (va : VAddr) (k : Nat) : Except Trap (TlbEntry × State) :=
  let tag := bits troot 63 52
  let fresh : Bool → Except Trap (TlbEntry × State) := fun _ =>
    match walk s va.toNat 6 5 (bits troot 51 8 * 256) with
    | .error (c, at1) => .error { code := c, access := k, va := va, entry := at1 }
    | .ok l =>
      if mtabFar s then .error linkWait else
      let e := mkEntry s tag va.toNat l
      if e.permits k then .ok (e, fillTlb s core e) else .error { code := 0x09, access := k, va := va, entry := e.leaf }
  match (getCore s core).tlb.find? (·.hits tag va.toNat) with
  | some e => if e.permits k then .ok (e, s) else fresh true
  | none => match (getCluster s (core / 64)).tlb.find? (·.hits tag va.toNat) with
    | some e => if e.permits k then .ok (e, fillTlb s core e) else fresh true
    | none => fresh true

/-! ### Access tables (R372 to R374) and the checks of an access (R111) -/

/-- The master of an agent: its SYS bit and its region tag. -/
def isSys (s : State) (a : Nat) : Bool := bits (getCtx s (asCtx a)).tstatus 1 1 = 1
def tagOf (s : State) (a : Nat) : Nat := bits (getCtx s (asCtx a)).troot 63 52

/-- R373: a region's access to a tile's slice. -/
def sliceAllows (s : State) (a tile : Nat) : Bool :=
  isSys s a || (let o := (getTile s tile).slown; bits o 63 63 = 1 && bits o 11 0 = tagOf s a)

/-- R146, R275: home offsets at and above 0xC000 take no store, atomic, copy write, stream write or drain. -/
def sysArea (loc : Nat) : Bool := isSlice loc && 0xC000 ≤ loc % 2 ^ 16

/-- The populated part of the map (R68, R363). -/
def populated (s : State) (pa : Nat) : Bool := (homeOf s pa).isSome

/-- A checked access: where it lands, its leaf entry, the state with TLBs filled, and the page of its VA, none for a slice (R327).
-/
structure Landing where
  loc : Nat
  leaf : Nat
  st : State
  page : Option VPage

/-- Checks 2 to 4 of R111 for n bytes at va by agent a: translation, range, access tables. A traversal of one page only. -/
def land (s : State) (a : Nat) (va : VAddr) (k : Nat) : Except Trap Landing :=
  if isSliceVA va then
    let loc := sliceOfVA va
    if !sliceAllows s a (sliceTile loc) then .error { code := 0x0D, access := k, va := va }
    else if needsW k && (sysArea loc || withheld s loc) then .error { code := 0x0D, access := k, va := va }
    else .ok ⟨loc, 0, s, none⟩
  else
    match translate s (coreOf a) (getCtx s (asCtx a)).troot va k with
    | .error t => .error t
    | .ok (e, s') =>
      let pa := e.frame + va.toNat % 2 ^ e.log
      if !populated s pa then .error { code := 0x0C, access := k, va := va }
      else if !(isSys s a || ((!needsR k && k ≠ 3 || (e.allows pa).1) && (!needsW k || (e.allows pa).2))) then
        .error { code := 0x0D, access := k, va := va }
      else .ok ⟨pa, e.leaf, s', some ⟨e.va, e.log, e.frame⟩⟩

/-- R123: what an atomic's target accepts; op 0 add, 8 swap, 9 cas pass to the host at scope `.sy`. -/
def atomicPathOk (s : State) (loc op scope : Nat) : Bool :=
  match homeAt s loc with
  | some 24 => false
  | some 25 => scope = 5 && (op = 0 || op = 8 || op = 9)
  | _ => true

/-- All checks of R111 for one access of n bytes at register address e, aligned to `al`. -/
def checkAccess (s : State) (a : Nat) (e : Word) (al k : Nat) : Except Trap Landing :=
  let va := widen (vaHigh (getCtx s (asCtx a))) e
  if e.toNat % al ≠ 0 then .error { code := 0x03, access := k, va := va } else land s a va k

/-! ### Records and messages -/

/-- The 80 bytes of a task record (R276) accepted at a count. -/
def recBytes (r : TaskRec) (stamp : Nat) : List Byte :=
  [r.cls, r.cid, BitVec.ofNat 8 ((if r.pri then 1 else 0) + (if r.cnt then 2 else 0)), 0] ++ toBytes 2 r.src.toNat ++
    [0, 0] ++ toBytes 8 stamp ++ r.carried.toList.flatMap fun w => toBytes 8 w.toNat

/-- A task record read back from its 80 bytes. -/
def parseRec (b : List Byte) : TaskRec :=
  { cls := BitVec.ofNat 8 (at_ b 0 1), cid := BitVec.ofNat 8 (at_ b 1 1), pri := at_ b 2 1 % 2 = 1,
    cnt := at_ b 2 1 / 2 % 2 = 1, src := BitVec.ofNat 16 (at_ b 4 2),
    carried := Vector.ofFn fun k => BitVec.ofNat 64 (at_ b (16 + 8 * k.val) 8) }

/-- Put a message of agent a on the mesh. -/
def sendMsg (s : State) (a : Nat) (e : StoreEntry) : State := { s with net := s.net ++ [{ src := a, entry := e }] }

/-- A record on its way to a core's inbox or counter, from agent a, outside the store buffer. -/
def sendRecord (s : State) (a core : Nat) (r : TaskRec) : State :=
  sendMsg s a { loc := homeLoc core 0xC000, body := .record (BitVec.ofNat 14 core) r }

/-! ### Taking a trap (R348) and returning from one (R349) -/

/-- The engine member's place in its cluster's team. -/
def teamOf (s : State) (a : Nat) : Option Team := (getCluster s (clusterOf a)).team
def putTeam (s : State) (a : Nat) (t : Option Team) : State :=
  putCluster s (clusterOf a) { getCluster s (clusterOf a) with team := t }
def findMember (t : Team) (a : Nat) : Option Member := t.members.find? (·.agent = a)
def putMember (t : Team) (m : Member) : Team :=
  { t with members := t.members.map fun x => if x.agent = m.agent then m else x }

/-- The lead of a team (R304): the lowest-numbered core member that has not ended. -/
def leadOf (t : Team) : Option Nat :=
  t.members.foldl (fun best m =>
    if isEngine m.agent || m.ended then best else match best with
    | none => some m.agent
    | some b => if m.agent < b then some m.agent else best) none

/-- R304: an engine member that traps halts with no effect; the table records the fault, or sets OVER where it holds one. -/
def engineTrap (s : State) (t : Trap) : State :=
  let s := { s with cur := { s.cur with run := .halted, wait := .ready, span := 0, board := [], hostGot := [], codeAt := [] } }
  match teamOf s s.who with
  | none => s
  | some tm =>
    match leadOf tm with
    | none => match regionOf s (coreOf s.who) with
      | some (rcb, _) => endDomain s rcb t.code
      | none => s
    | some lead =>
      -- a lead that waits in `realign` re-executes it, and then raises TEAM_FAULT
      let lc := getCtx s lead
      let s := match lc.wait with
        | .realign _ _ => putCtx s lead { lc with wait := .stalled }
        | _ => s
      if bits tm.err 63 63 = 1 then putTeam s s.who (some { tm with err := setBits tm.err 62 62 1 }) else
      let tm := { tm with
        err := BitVec.ofNat 64 (2 ^ 63 + t.code * 2 ^ 54 + (tileOf s.who % 16) * 2 ^ 50 + kindOf s.who * 2 ^ 48)
        epc := s.cur.pc }
      -- the deferred record that raised it is cleared as the fault is recorded
      let c := myCore s
      let s := if t.code = 0x18 || t.code = 0x19 then
          putMyCore s { c with cpyerr := Vector.ofFn fun k => if k.val = t.info then setBits c.cpyerr[k] 63 62 0 else c.cpyerr[k] }
        else if t.code = 0x1A || t.code = 0x1B then putMyCore s { c with axerr := setBits c.axerr 63 62 0 } else s
      putTeam s s.who (some tm)

/-- R348, the saved state and the new pc of the trapped context. -/
def Ctx.enter (c : Ctx) (t : Trap) (epc : Word) : Ctx :=
  { c with
    epc := epc
    cause := BitVec.ofNat 64 (t.code + t.access * 2 ^ 8 + t.info * 2 ^ 16)
    faultva := BitVec.ofNat 64 t.va.toNat
    faultvah := BitVec.ofNat 64 (t.va.toNat / 2 ^ 64)
    tstatus := setBits c.tstatus 0 0 1
    span := 0
    board := []
    hostGot := []
    codeAt := []
    wait := .ready
    pc := c.tvec }

/-- R348: the context in focus traps at its own pc. With no handler, or inside one, its fault domain ends (R274). DEDUCED,
log entry 23. -/
def enterTrap (s : State) (t : Trap) (epc : Word) : State :=
  if isEngine s.who then engineTrap s t
  else if s.cur.tvec = 0 ∨ bits s.cur.tstatus 0 0 = 1 then
    let cause := if bits s.cur.tstatus 0 0 = 1 then 0x31 else t.code
    let s := { s with cur := { s.cur with run := .idle, wait := .ready, span := 0, board := [] } }
    match regionOf s (coreOf s.who) with
    | some (rcb, _) => endDomain s rcb cause
    | none => s
  else { s with cur := s.cur.enter t epc }

/-- R104: the first valid pager-table entry whose range holds a VA: core, class of faults, class of aborts. -/
def pagerEntry (s : State) (tab va : Nat) : Nat → Nat → Option (Nat × Nat × Nat)
  | 0, _ => none
  | fuel + 1, i =>
    let e := readBytes s (tab + 32 * i) 32
    if at_ e 24 1 % 2 = 1 ∧ at_ e 0 10 ≤ va ∧ va < at_ e 10 10 then
      some (at_ e 20 2 % 2 ^ 14, at_ e 22 1, at_ e 23 1)
    else pagerEntry s tab va fuel (i + 1)

/-- R103, R104: the core and classes that serve a VA for a core's region; none where the fault traps directly (R102). -/
def pagerFor (s : State) (core va : Nat) : Option (Nat × Nat × Nat) :=
  match regionOf s core with
  | none => none
  | some (rcb, _) =>
    if rcbPager s rcb = 1 then
      some (core / 64 * 64 + (if core % 64 / 16 < 2 then 62 else 63), 0, 1)
    else if rcbPager s rcb = 2 then pagerEntry s (rcbField s rcb 0x38 8) va 16 0
    else none

/-- R105: the address of a context's reply word in its region's REPLY area; the engine's follows it by 8. -/
def replyAddr (s : State) (a : Nat) (engine : Bool) : Word :=
  match regionOf s (coreOf a) with
  | some (rcb, _) => BitVec.ofNat 64 (rcbField s rcb 0x40 8 + 16 * asCtx a + (if engine then 8 else 0))
  | none => 0

/-- Where the device finds a reply word: REPLY is widened with VAHIGH and translated through the region's table (R271); one
that the access tables do not let the region write cannot be written (R102). DEDUCED, log entry 17. -/
def replyLoc (s : State) (a : Nat) (engine : Bool) (k : Nat) : Option Nat :=
  match regionOf s (coreOf a) with
  | none => none
  | some (rcb, _) =>
    let va := widen (BitVec.ofNat 16 (rcbField s rcb 0x60 2)) (replyAddr s a engine)
    if isSliceVA va then
      let loc := sliceOfVA va
      if k = 1 && (!sliceAllows s a (sliceTile loc) || sysArea loc || withheld s loc) then none else some loc
    else
      match translate s (coreOf a) (BitVec.ofNat 64 (rcbField s rcb 0x08 8)) va k with
      | .error _ => none
      | .ok (e, _) =>
        let pa := e.frame + va.toNat % 2 ^ e.log
        if populated s pa && (k ≠ 1 || isSys s a || (e.allows pa).2) then some pa else none

/-- R364: the device cannot translate a reply word's address yet. -/
def replyLate (s : State) (a : Nat) (engine : Bool) (k : Nat) : Bool :=
  match regionOf s (coreOf a) with
  | none => false
  | some (rcb, _) =>
    let va := widen (BitVec.ofNat 16 (rcbField s rcb 0x60 2)) (replyAddr s a engine)
    !isSliceVA va && match translate s (coreOf a) (BitVec.ofNat 64 (rcbField s rcb 0x08 8)) va k with
    | .error t => t.waits
    | .ok _ => false

/-- A translation whose outcome its user drops: the TLBs hold what it found, also where the fresh leaf denies the access too (R98).
-/
def touchTlb (s : State) (core : Nat) (troot : Word) (va : VAddr) (k : Nat) : State :=
  if isSliceVA va then s else
  match translate s core troot va k with
  | .ok (_, s') => s'
  | .error t =>
    if t.code ≠ 0x09 then s else
    match walk s va.toNat 6 5 (bits troot 51 8 * 256) with
    | .ok l => fillTlb s core (mkEntry s (bits troot 63 52) va.toNat l)
    | .error _ => s

/-- The translation of a reply word fills the TLBs. -/
def replyTouch (s : State) (a : Nat) (engine : Bool) (k : Nat) : State :=
  match regionOf s (coreOf a) with
  | none => s
  | some (rcb, _) => touchTlb s (coreOf a) (BitVec.ofNat 64 (rcbField s rcb 0x08 8))
      (widen (BitVec.ofNat 16 (rcbField s rcb 0x60 2)) (replyAddr s a engine)) k

/-- R107: does the engine reply word of a context stand for a fault that is not yet answered: of an engine on its behalf, or of an
engine member, whose faults name that word too (R294)? -/
def engAsked (s : State) (a : Nat) : Bool :=
  (getCtx s a).engFault.isSome || [1, 2, 3].any fun k =>
    let m := engineBase + 4 * tileOf a + k
    decide (asCtx m = a) && match (getCtx s m).wait with
      | .pager _ _ _ _ => true
      | _ => false

/-- The request of a fault whose own request has gone. -/
def goneKey : Nat := 2 ^ 120

/-- Requests that go: the words read for them and the answers to their faults go with them, and a fault of theirs stands for none until it is answered (R107). -/
def Ctx.forget (c : Ctx) (p : Nat → Bool) : Ctx :=
  { c with
    engFault := c.engFault.map fun f => if p f.1 then (goneKey, f.2) else f
    engSaid := c.engSaid.filter fun x => !p x.1
    engHeld := c.engHeld.filter fun k => !p k
    engHost := c.engHost.filter fun x => !p x.1
    engWant := c.engWant.filter fun x => !p x.1 }

/-- R106: the fault message's record. -/
def faultRec (s : State) (a : Nat) (t : Trap) (cls : Nat) (engine : Bool) : TaskRec :=
  { cls := BitVec.ofNat 8 cls, pri := true, src := BitVec.ofNat 16 (coreOf a), pager := true,
    carried := #v[BitVec.ofNat 64 t.va.toNat,
      BitVec.ofNat 64 (t.va.toNat / 2 ^ 64 + t.code * 2 ^ 16 + t.access * 2 ^ 24 + (asCtx a % 2) * 2 ^ 27 + coreOf a * 2 ^ 28),
      replyAddr s a engine, BitVec.ofNat 64 t.entry, 0, 0, 0, 0] }

/-- R101: the cause and the VA of a translation fault that goes to a pager stand in the context's registers too; an engine
member has none. -/
def Ctx.note (c : Ctx) (t : Trap) : Ctx :=
  { c with
    cause := BitVec.ofNat 64 (t.code + t.access * 2 ^ 8)
    faultva := BitVec.ofNat 64 t.va.toNat
    faultvah := BitVec.ofNat 64 (t.va.toNat / 2 ^ 64) }

/-- R101, R102, R105: a translation fault goes to the region's pager: the reply word is zeroed, the message sent, span state
cleared (R26), and the context waits; none where it traps directly, as it does when the reply word cannot be written. -/
def toPager (s : State) (t : Trap) : Option State :=
  if (t.code = 0x08 || t.code = 0x09) && !s.cur.pagerTask then
    -- an engine member's faults name the engine reply word of core 3's low context (R294)
    let eng := isEngine s.who
    match pagerFor s (coreOf s.who) t.va.toNat, replyLoc s s.who eng 1 with
    | some (core, cls, _), some l =>
      match serveWrite (replyTouch s s.who eng 1) l (toBytes 8 0) false with
      | (0, s) =>
        let s := sendRecord s (devAgent (coreOf s.who)) core (faultRec s s.who t cls eng)
        let c := if eng then s.cur else s.cur.note t
        some { s with cur := { c with
          span := 0
          spanCode := []
          board := []
          wait := .pager t.code t.access t.va (replyAddr s s.who eng) } }
      | _ => none
    | _, _ => none
  else none

/-- R98: after a walk that an access made, the TLBs hold the fresh leaf, whether that leaf denied the access, a later check of R111
did, a parcel's line was bad, or a later access of the instruction failed. -/
def refreshFor (s : State) (a : Nat) (t : Trap) : State :=
  if t.waits then s else
  let touch := fun (s : State) (va : VAddr) (k : Nat) => touchTlb s (coreOf a) (getCtx s (asCtx a)).troot va k
  let s := t.walked.foldl (fun s x => touch s x.1 x.2) s
  if ([0x09, 0x0C, 0x0D, 0x0E].contains t.code && decide (t.access < 6)) || ([0x10, 0x11].contains t.code && t.access = 3) then
    touch s t.va t.access
  else s
def refreshTlb (s : State) (t : Trap) : State := refreshFor s s.who t

/-- R364: the RCB that names a region's pagers, or its pager table, lies where requests wait. -/
def pagerFar (s : State) (core : Nat) : Bool :=
  (regionOf s core).any fun g => farWaits s g.1 || (rcbPager s g.1 = 2 && farHolds s (rcbField s g.1 0x38 8) 512)
/-- The same for all that a translation fault of an agent needs: its reply word and the translation of that too. -/
def askFar (s : State) (a : Nat) (engine : Bool) : Bool :=
  pagerFar s (coreOf a) || (replyLoc s a engine 1).any (writeWaits s) || replyLate s a engine 1

/-- What a translation fault needs lies where requests wait (R364), or an engine member's fault finds its reply word asked for
(R107). -/
def pagerWaits (s : State) (t : Trap) : Bool :=
  (t.code = 0x08 || t.code = 0x09) && ((isEngine s.who && engAsked s (asCtx s.who)) || askFar s s.who (isEngine s.who))

/-- A fault that has a pager whose reply word cannot be written: the device has translated that word's address (R98, R102). -/
def pagerTouch (s : State) (t : Trap) : State :=
  if (t.code = 0x08 || t.code = 0x09) && !s.cur.pagerTask && (pagerFor s (coreOf s.who) t.va.toNat).isSome then
    replyTouch s s.who (isEngine s.who) 1
  else s

/-- A trap raised by an instruction of the context in focus: to the pager where R102 sends it there, else R348; a fault whose pager
cannot be reached yet is raised again, and an access that waits for a link is tried again (R364). -/
def raiseIn (s : State) (t : Trap) : State :=
  if t.waits || pagerWaits s t then { s with cur := { s.cur with wait := .stalled } } else
  match toPager s t with
  | some s' => s'
  | none => enterTrap (pagerTouch s t) t s.cur.pc

/-- The same for a trap that an access of the context in focus meets: the walk it made leaves its leaf in the TLBs (R98). -/
def raise (s : State) (t : Trap) : State := raiseIn (refreshTlb s t) t

/-- R349: `eret` sets pc := EPC, INTRAP := 0 and clears span state; every producer has completed (R217). -/
def Ctx.leave (c : Ctx) : Ctx :=
  { c with pc := c.epc, tstatus := setBits c.tstatus 0 0 0, span := 0, board := [] }

end Sys2Proof.Machine
end

