-- ==== Sys2Proof/Machine/Operands.lean ====
section
/-! DEFINITION. Operand forms (R29 to R40): immediates, branch targets, effective addresses, blocks of the register grid,
predicate and index operands, and the element views of a vector register (R202). -/

namespace Sys2Proof.Machine

open Sys2Proof

/-- A signed field of n bits as a 64-bit word (R31). -/
def simm {n : Nat} (x : BitVec n) : Word := x.signExtend 64

/-- R31: the target of a parcel offset from the instruction's first parcel. -/
def parcelTarget {n : Nat} (pc : Word) (o : BitVec n) : Word := pc + 2 * simm o

/-- R31: the target of `jr`, bit 0 taken as zero. -/
def jrTarget (a : Word) (i : BitVec 12) : Word := (a + 2 * simm i) &&& ~~~1#64

/-- R32: base plus the signed offset times the access size. -/
def effAddr {n : Nat} (base : Word) (o : BitVec n) (z : Nat) : Word := base + simm o * BitVec.ofNat 64 z

/-- The access size of a size code (R32). -/
def sizeOf2 (z : BitVec 2) : Nat := 2 ^ z.toNat

/-- R119: register k of an h × w block, row by row. -/
def blockReg (corner : BitVec 6) (w k : Nat) : BitVec 6 := corner + BitVec.ofNat 6 (8 * (k / w) + k % w)

/-- Every register of a block, in row order. -/
def blockRegs (corner : BitVec 6) (h w : Nat) : List (BitVec 6) := (List.range (h * w)).map (blockReg corner w)

/-- Element j of z bytes of a vector register, as a number (R202). -/
def elemOf (v : VReg) (z j : Nat) : Nat := v.toNat / 2 ^ (8 * z * j) % 2 ^ (8 * z)

/-- A vector register from its elements of z bytes, lowest first. -/
def ofElems (z : Nat) : List Nat → Nat
  | [] => 0
  | e :: t => e % 2 ^ (8 * z) + 2 ^ (8 * z) * ofElems z t

def vregOf (z : Nat) (l : List Nat) : VReg := BitVec.ofNat 256 (ofElems z l)

/-- All elements of z bytes of a register, lowest first. -/
def elems (z : Nat) (v : VReg) : List Nat := (List.range (32 / z)).map (elemOf v z)

/-- Byte lane i of a register under predicate p keeps the new value where bit i is set, else the old (R203). -/
def mergeLanes (p : BitVec 32) (new old : VReg) : VReg :=
  vregOf 1 ((List.range 32).map fun i => if p.getLsbD i then elemOf new 1 i else elemOf old 1 i)

end Sys2Proof.Machine
end

