-- ==== Sys2Proof/Machine/Fp.lean ====
section
/-! DEFINITION. Number formats and rounding (R234 to R247): decoding to exact values, exact sums and products, and the one
conversion that rounds. Type codes are those of R179 and R205. -/

namespace Sys2Proof.Machine

open Sys2Proof

/-! ### Types (R205, R220, R234, R235) -/

/-- Classes of R220. -/
inductive TyClass where
  | int
  | float
  | complex
  | eight
  | none
  deriving DecidableEq, Repr

def classOf (t : Nat) : TyClass :=
  if t = 2 ∨ t = 3 ∨ (16 ≤ t ∧ t ≤ 21) then .int
  else if t = 9 ∨ t = 10 ∨ t = 11 then .float
  else if 12 ≤ t ∧ t ≤ 15 then .complex
  else if t = 7 ∨ t = 8 then .eight
  else .none

/-- Element size in bytes of the types of R220. -/
def tySize (t : Nat) : Nat :=
  match t with
  | 2 | 3 | 7 | 8 => 1
  | 9 | 10 | 15 | 16 | 19 => 2
  | 11 | 12 | 13 | 17 | 20 => 4
  | 14 | 18 | 21 => 8
  | _ => 1

/-- The signed integer codes; int4 of the axis unit with them. -/
def isSigned (t : Nat) : Bool := t = 0 || t = 2 || (16 ≤ t && t ≤ 18)
def isInt (t : Nat) : Bool := t = 0 || t = 2 || t = 3 || (16 ≤ t && t ≤ 21)
/-- Width in bits of an integer type. -/
def intBits (t : Nat) : Nat := if t = 0 then 4 else 8 * tySize t

/-- The part type of a complex type (R237). -/
def partTy (t : Nat) : Nat := if t = 15 then 2 else t - 3

/-- A floating format: exponent bits, mantissa bits, bias, whether it has infinities, and whether it has NaNs. -/
structure Fmt where
  e : Nat
  m : Nat
  bias : Nat
  inf : Bool
  nan : Bool

def fmtOf (t : Nat) : Fmt :=
  match t with
  | 4 => ⟨2, 1, 1, false, false⟩
  | 5 => ⟨3, 2, 3, false, false⟩
  | 6 => ⟨2, 3, 1, false, false⟩
  | 7 => ⟨4, 3, 7, false, true⟩
  | 8 => ⟨5, 2, 15, true, true⟩
  | 9 => ⟨8, 7, 127, true, true⟩
  | 10 => ⟨5, 10, 15, true, true⟩
  | _ => ⟨8, 23, 127, true, true⟩

/-- Bits of a code of the format. -/
def Fmt.bits (f : Fmt) : Nat := 1 + f.e + f.m
/-- The magnitude code of the largest finite value. -/
def Fmt.maxCode (f : Fmt) : Nat :=
  if f.inf then (2 ^ f.e - 1) * 2 ^ f.m - 1 else if f.nan then 2 ^ (f.e + f.m) - 2 else 2 ^ (f.e + f.m) - 1
/-- The canonical NaN of R235; formats without NaN take +0 (R244). -/
def Fmt.nanCode (f : Fmt) : Nat :=
  if f.inf then (2 ^ f.e - 1) * 2 ^ f.m + 2 ^ (f.m - 1) else if f.nan then 2 ^ (f.e + f.m) - 1 else 0

/-! ### Exact values -/

/-- A decoded value: NaN, an infinity, or ± m · 2^e exactly. -/
inductive Num where
  | nan
  | inf (neg : Bool)
  | fin (neg : Bool) (m : Nat) (e : Int)
  deriving DecidableEq, Repr

/-- R235: the value of a code. -/
def decodeF (f : Fmt) (x : Nat) : Num :=
  let s := decide (x / 2 ^ (f.e + f.m) % 2 = 1)
  let e := x / 2 ^ f.m % 2 ^ f.e
  let m := x % 2 ^ f.m
  if f.inf && e = 2 ^ f.e - 1 then (if m = 0 then .inf s else .nan)
  else if !f.inf && f.nan && e = 2 ^ f.e - 1 && m = 2 ^ f.m - 1 then .nan
  else if e = 0 then .fin s m (1 - (f.bias : Int) - f.m)
  else .fin s (2 ^ f.m + m) ((e : Int) - f.bias - f.m)

/-- The value of an integer. -/
def numOfInt (i : Int) : Num := .fin (decide (i < 0)) i.natAbs 0

/-- The integer that an element of an integer type holds. -/
def intOf (t x : Nat) : Int := if isSigned t then signed (intBits t) x else ((x % 2 ^ intBits t : Nat) : Int)

/-- The value of an element of any real type. -/
def numOf (t x : Nat) : Num := if isInt t then numOfInt (intOf t x) else decodeF (fmtOf t) x

/-- Scale by 2^k. -/
def Num.scale (x : Num) (k : Int) : Num := match x with
  | .fin s m e => .fin s m (e + k)
  | y => y

def Num.neg : Num → Num
  | .nan => .nan
  | .inf s => .inf (!s)
  | .fin s m e => .fin (!s) m e

/-- A finite value as a signed integer at exponent e0 ≤ e. -/
def atExp (s : Bool) (m : Nat) (e e0 : Int) : Int :=
  let v := (m * 2 ^ (e - e0).toNat : Nat)
  if s then -(v : Int) else v

/-- An exact sum: a zero sum is +0 unless both terms are −0 (R390). -/
def Num.add : Num → Num → Num
  | .nan, _ => .nan
  | _, .nan => .nan
  | .inf s, .inf t => if s = t then .inf s else .nan
  | .inf s, _ => .inf s
  | _, .inf t => .inf t
  | .fin s m e, .fin t n f =>
    let g := min e f
    let v := atExp s m e g + atExp t n f g
    if v = 0 then .fin (s && t) 0 0 else .fin (decide (v < 0)) v.natAbs g

/-- An exact product. -/
def Num.mul : Num → Num → Num
  | .nan, _ => .nan
  | _, .nan => .nan
  | .inf s, .inf t => .inf (s != t)
  | .inf s, .fin t n _ => if n = 0 then .nan else .inf (s != t)
  | .fin s m _, .inf t => if m = 0 then .nan else .inf (s != t)
  | .fin s m e, .fin t n f => .fin (s != t) (m * n) (e + f)

def Num.sub (x y : Num) : Num := x.add y.neg

/-- The exact sum of several terms, the first one first. -/
def sumNum : List Num → Num
  | [] => .fin false 0 0
  | x :: t => t.foldl Num.add x

/-- Order of two values that are not NaN: −1, 0 or 1; −0 equals +0. -/
def Num.cmp : Num → Num → Int
  | .nan, _ => 0
  | _, .nan => 0
  | .inf s, .inf t => if s = t then 0 else if s then -1 else 1
  | .inf s, _ => if s then -1 else 1
  | _, .inf t => if t then 1 else -1
  | .fin s m e, .fin t n f =>
    let g := min e f
    (atExp s m e g - atExp t n f g).sign

def Num.isNan : Num → Bool
  | .nan => true
  | _ => false
def Num.isNeg : Num → Bool
  | .nan => false
  | .inf s => s
  | .fin s _ _ => s

/-! ### Rounding (R243 to R247) -/

/-- R247: one draw of a 16-bit generator, which is its new state. -/
def draw (s : Nat) : Nat := if s % 2 = 1 then Nat.xor (s / 2) 0xB400 else s / 2

/-- Does a value t + rem/den with 0 < rem round away from zero? `odd` is the lowest bit of t. Mode 5 is the rounding away
from zero of R242; a `vcvt` comes to it, or to 6 or 7, only by an RM that software wrote into a saved image. DESIGN CHOICE, log entry 40.
-/
def roundsUp (rm : Nat) (neg odd : Bool) (rem den r : Nat) : Bool :=
  match rm with
  | 0 => decide (den < 2 * rem) || (decide (den = 2 * rem) && odd)
  | 1 => false
  | 2 => !neg
  | 3 => neg
  | 4 => decide (r * den ≤ rem * 65536)
  | _ => true

/-- m · 2^k split into its integer part and the remainder over a denominator. -/
def splitAt (m : Nat) (k : Int) : Nat × Nat × Nat :=
  if 0 ≤ k then (m * 2 ^ k.toNat, 0, 1) else (m / 2 ^ (-k).toNat, m % 2 ^ (-k).toNat, 2 ^ (-k).toNat)

/-- Round a finite magnitude to a floating format: the magnitude code, and whether it was inexact. -/
def roundMag (f : Fmt) (rm : Nat) (neg : Bool) (m : Nat) (e : Int) (r : Nat) : Nat × Bool :=
  if m = 0 then (0, false) else
  let top : Int := (Nat.log2 m : Int) + e
  let lowest : Int := 1 - (f.bias : Int)
  let q : Int := max top lowest - f.m
  let (t, rem, den) := splitAt m (e - q)
  let lo := (q + f.m + f.bias - 1).toNat * 2 ^ f.m + t
  let mx := f.maxCode
  let inexact := decide (rem ≠ 0)
  if mx < lo ∨ (lo = mx ∧ inexact) then
    -- R244: beyond the largest finite value
    let up := if !f.inf then false else match rm with
      | 0 => decide (mx < lo) || decide (den ≤ 2 * rem)
      | 1 => false
      | 2 => !neg
      | 3 => neg
      | _ => true
    (if up then mx + 1 else mx, true)
  else (if inexact && roundsUp rm neg (lo % 2 = 1) rem den r then lo + 1 else lo, inexact)

/-- The code of a value in a floating format, and whether it takes a draw in mode 100 (R243). -/
def encodeF (f : Fmt) (rm : Nat) (x : Num) (r : Nat) : Nat × Bool :=
  let sgn := fun (s : Bool) (c : Nat) => (if s then 2 ^ (f.e + f.m) else 0) + c
  match x with
  | .nan => (f.nanCode, false)
  | .inf s => (sgn s (if f.inf then f.maxCode + 1 else f.maxCode), false)
  | .fin s m e => let (c, i) := roundMag f rm s m e r; (sgn s c, i)

/-- Range of an integer type. -/
def intLo (t : Nat) : Int := if isSigned t then -(2 ^ (intBits t - 1)) else 0
def intHi (t : Nat) : Int := if isSigned t then 2 ^ (intBits t - 1) - 1 else 2 ^ intBits t - 1
def clampInt (t : Nat) (v : Int) : Int := max (intLo t) (min (intHi t) v)

/-- The code of a value in an integer type: rounded, then clamped; NaN gives 0 (R246). -/
def encodeI (t rm : Nat) (x : Num) (r : Nat) : Nat × Bool :=
  let code := fun (v : Int) => (v % 2 ^ intBits t).toNat
  match x with
  | .nan => (0, false)
  | .inf s => (code (if s then intLo t else intHi t), false)
  | .fin s m e =>
    let (v, rem, den) := splitAt m e
    let v := if rem ≠ 0 && roundsUp rm s (v % 2 = 1) rem den r then v + 1 else v
    let i : Int := if s then -(v : Int) else v
    (code (clampInt t i), decide (rem ≠ 0) || decide (clampInt t i ≠ i))

/-- The code of a value in any real type under a mode. -/
def encodeNum (t rm : Nat) (x : Num) (r : Nat) : Nat × Bool :=
  if isInt t then encodeI t rm x r else encodeF (fmtOf t) rm x r

/-- Nearest even. -/
def roundNE (t : Nat) (x : Num) : Nat := (encodeNum t 0 x 0).1

/-- R243, R247: convert with a generator: in mode 100 one draw for each finite value that is not representable. -/
def convertNum (t rm : Nat) (x : Num) (g : Nat) : Nat × Nat :=
  if rm = 4 then
    let r := draw g
    match encodeNum t 4 x r with
    | (c, true) => (c, r)
    | (c, false) => (c, g)
  else ((encodeNum t rm x 0).1, g)

/-- R246: convert an element of one real type to another; the same type is unchanged but for a canonical NaN. -/
def convertElem (src dst rm x g : Nat) : Nat × Nat :=
  if src = dst then (if (numOf src x).isNan then (fmtOf src).nanCode else x, g)
  else convertNum dst rm (numOf src x) g

/-- fp32 arithmetic, rounded once to nearest even. -/
def fp32 (x : Nat) : Num := decodeF (fmtOf 11) x
def add32 (x y : Nat) : Nat := roundNE 11 ((fp32 x).add (fp32 y))
def mul32 (x y : Nat) : Nat := roundNE 11 ((fp32 x).mul (fp32 y))

end Sys2Proof.Machine
end

