-- ==== Sys2Proof/Machine/Parcels.lean ====
section
/-! DEFINITION. Parcels as the fetch port reads them (R20, R45, R46): one fetch of an instruction, or of a role prefix with
its whole span, which is then used whole. -/

namespace Sys2Proof.Machine

open Sys2Proof

/-- Why a fetch goes no further: a fetch fault (R45), a home that makes it wait (R73, R364), or a word of host memory that is
still to come (R363). -/
inductive FetchStop where
  | trap (t : Trap)
  | wait
  | host (at1 : Nat) (va : VAddr)
/-- What a stop leaves in the TLBs (R98). -/
def FetchStop.touched (s : State) : FetchStop → State
  | .trap t => refreshTlb s t
  | _ => s
/-- A stop behind a parcel that was fetched (R98). -/
def FetchStop.after (va : VAddr) : FetchStop → FetchStop
  | .trap t => .trap (t.after va 3)
  | x => x

/-- The VA of an address that the focus executes (R88). -/
def codeVa (s : State) (pc : Word) : VAddr := widen (vaHigh (getCtx s (asCtx s.who))) pc

/-- The key of a kept fetch: the region tag and the VA of its first parcel. -/
def fetchKey (s : State) (pc : Word) : Nat := tagOf s s.who * 2 ^ 80 + (codeVa s pc).toNat

/-- Where n parcels from an address on stand for the focus, each checked as R45 asks of a fetch, and the state with the leaves that
the TLBs took (R98); none where one of them cannot be fetched now. -/
def runPlaces (s : State) (pc : Word) : Nat → Option (List Nat × State)
  | 0 => some ([], s)
  | n + 1 => match land s s.who (codeVa s pc) 3 with
    | .error _ => none
    | .ok l => (runPlaces l.st (pc + 2) n).map fun r => (l.loc :: r.1, r.2)

/-- R46: the parcels of the kept fetch that begins at an address. It serves a context that may still fetch each of them, where it was
fetched from (R45, R349, R355). -/
def keptRun (s : State) (pc : Word) : Option (List Nat × State) :=
  if s.sched.keepFetched then
    ((getCluster s (clusterOf s.who)).icache.find? (·.1 = fetchKey s pc)).bind fun x =>
      (runPlaces s pc x.2.length).bind fun r => if r.1 = x.2.map (·.1) then some (x.2.map (·.2), r.2) else none
  else none

/-- Keep a fetch in place of an earlier one at its address; none forgets that one. -/
def keepRun (s : State) (pc : Word) (ps : Option (List Nat)) : State :=
  if s.sched.keepFetched then
    let cl := getCluster s (clusterOf s.who)
    let rest := cl.icache.filter (·.1 ≠ fetchKey s pc)
    putCluster s (clusterOf s.who) { cl with icache := match ps.bind fun l => (runPlaces s pc l.length).map fun r => r.1.zip l with
      | some l => (fetchKey s pc, l) :: rest
      | none => rest }
  else s

/-- The aligned 8 bytes of host memory at a location, where the context has read them for the instruction it tries; 2^64 and the
status of a completion that failed for a parcel. -/
def hostWord (c : Ctx) (loc : Nat) : Option Nat := (c.hostGot.find? (·.1 = loc / 8 * 8)).map (·.2)

/-- The trap of a failed host completion: poison, or an Unsupported Request or Completer Abort (R363). -/
def hostTrap (status access : Nat) (va : VAddr) : Trap :=
  { code := if status = 1 then 0x10 else 0x0C, access := access, va := va }

/-- The 17 parcels from the pc on, as they stand now: the longest fetch, a prefix with its span. One that stands in no home of the
device, or is not translated now, has none. -/
def codeNow (s : State) : List (Nat × Option Nat) :=
  (List.range 17).map fun k =>
    let va := codeVa s (s.cur.pc + BitVec.ofNat 64 (2 * k))
    (va.toNat, match land s s.who va 3 with
      | .ok l => if homeOf l.st l.loc = some 25 then none else some (fromBytes (let at1 := forwarded l.st l.loc; if withheld l.st at1 then [0, 0] else readBytes l.st at1 2))
      | .error _ => none)

/-- A parcel that stands in the device as p, for a fetch that took words of host memory: as it stood when the last of those words
came, so that one fetch is of one version (R46); none where it could not be seen then. -/
def parcelSeen (c : Ctx) (va : VAddr) (p : Nat) : Option Nat := ((c.codeAt.find? (·.1 = va.toNat)).map (·.2)).getD (some p)

/-- One parcel at a VA for the agent in focus, read at its home with X permission, the range, the access tables, poison and
far-tier loss checked (R45); the first of a run, and each that begins a 32-byte block, counts as a request (R82). DESIGN CHOICE,
log entry 62. -/
def fetchParcel (s : State) (first : Bool) (va : VAddr) : Except FetchStop (Nat × State) :=
  match land s s.who va 3 with
  | .error t => .error (if t.waits then .wait else .trap t)
  | .ok l0 =>
    let l := if first || va.toNat % 32 = 0 then { l0 with st := countHot l0.st l0.loc (coreOf s.who) l0.leaf } else l0
    if bankBusy l.st l.loc 4096 || farWaits l.st l.loc then .error .wait
    else if homeOf l.st l.loc = some 25 then
      match hostWord s.cur l.loc with
      | some w =>
        if 2 ^ 64 ≤ w then .error (.trap (hostTrap (w - 2 ^ 64) 3 va)) else .ok (w / 2 ^ (8 * (l.loc % 8)) % 2 ^ 16, l.st)
      | none => .error (.host (l.loc / 8 * 8) va)
    else match serveRead l.st l.loc 2 with
      | (0, bs) => match parcelSeen s.cur va (fromBytes bs) with
        | some p => .ok (p, l.st)
        -- a word of host memory is read again, and this parcel is seen with it
        | none => .error (.host ((s.cur.hostGot.head?.map (·.1)).getD 0) va)
      | (1, _) => .error (.trap { code := 0x10, access := 3, va := va })
      | (_, _) => .error (.trap { code := 0x11, access := 3, va := va })

/-- n parcels from an address of the focus on, read at their homes: those fetched before a stop, and the stop; the TLBs hold the leaf
of a parcel that faulted too (R98). -/
def readOn (s : State) (first : Bool) (pc : Word) : Nat → List Nat × Option FetchStop × State
  | 0 => ([], none, s)
  | n + 1 =>
    let va := codeVa s pc
    match fetchParcel s first va with
    | .error t => ([], some t, t.touched s)
    | .ok (p, s') =>
      let (l, t, s'') := readOn s' false (pc + 2) n
      (p :: l, t.map (·.after va), s'')
def readRun (s : State) (pc : Word) (n : Nat) : List Nat × Option FetchStop × State := readOn s true pc n

/-- n parcels from an address on: from a kept fetch that holds them all, or from their homes. -/
def fetchRun (s : State) (pc : Word) (n : Nat) : List Nat × Option FetchStop × State :=
  match keptRun s pc with
  | some (l, t) => if n ≤ l.length then (l.take n, none, t) else readRun s pc n
  | none => readRun s pc n

/-- The n parcels of the span behind a role prefix at an address: of the one fetch kept with that prefix, where it holds them
(R46). -/
def spanRun (s : State) (pc : Word) (n : Nat) : List Nat × Option FetchStop × State :=
  match keptRun s pc with
  | some (_ :: ps, t) => if n ≤ ps.length then (ps.take n, none, t) else fetchRun s (pc + 2) n
  | _ => fetchRun s (pc + 2) n

/-! ### Hardware-loop levels, as the fetch sees them (R212, R215) -/

def lpAddr (c : Ctx) (k : Nat) : Word := if k = 0 then c.lpaddr0 else c.lpaddr1
def lpCtl (c : Ctx) (k : Nat) : Word := if k = 0 then c.lpctl0 else c.lpctl1
def setCtl (c : Ctx) (k : Nat) (v : Word) : Ctx := if k = 0 then { c with lpctl0 := v } else { c with lpctl1 := v }
def lpActive (c : Ctx) (k : Nat) : Bool := bits (lpCtl c k) 31 31 = 1
/-- The end address of a level: LPADDR + 2 · OFF. -/
def lpEnd (c : Ctx) (k : Nat) : Word := lpAddr c k + 2 * BitVec.ofNat 64 (bits (lpCtl c k) 11 0)

/-- Is a parcel a role prefix (R23), and how many parcels does its span take? -/
def isPrefix (p : Nat) : Bool := decide (bitsOf p 0 2 = 2) && decide (bitsOf p 14 2 = 3)
def spanOf (p : Nat) : Nat := bitsOf p 2 4 + 1

/-- What the last fetch that asked saw at the end address of a level, whichever levels stood there since. -/
def seenEnd (c : Ctx) (k : Nat) : Option Nat := (c.ends.find? fun e => e.1 = k && e.2.1 = lpEnd c k).map (·.2.2)
/-- Note it. -/
def Ctx.noteEnd (c : Ctx) (k ext : Nat) : Ctx := { c with ends := (k, lpEnd c k, ext) :: c.ends.filter fun e => !(e.1 = k && e.2.1 = lpEnd c k) }

/-- Bytes that the span of a role prefix at a level's end address takes beyond that address (R397), read anew: inside that span
the fetch being executed decides; a parcel that cannot be read leaves what was seen before, or none. The parcel's bits alone decide
whether it is a prefix. DESIGN CHOICE, log entry 41. -/
def readEnd (s : State) (k : Nat) : Nat × State :=
  if 0 < s.cur.span ∧ s.cur.spanAt = lpEnd s.cur k then (2 * s.cur.spanCode.length, s) else
  match fetchRun s (lpEnd s.cur k) 1 with
  | (p :: _, _, t) => (if isPrefix p then 2 * spanOf p else 0, t)
  | (_, _, t) => ((seenEnd s.cur k).getD 0, t)
/-- The same, as the fetch of the instruction that completes now saw it. -/
def spanExt (s : State) (k : Nat) : Nat :=
  if lpActive s.cur k then
    if 0 < s.cur.span ∧ s.cur.spanAt = lpEnd s.cur k then 2 * s.cur.spanCode.length
    else (seenEnd s.cur k).getD (readEnd s k).1
  else 0

end Sys2Proof.Machine
end

