-- ==== Sys2Proof/Machine/Flags.lean ====
section
/-! DEFINITION. The state that stands beside the registers and that instructions advance: the scoreboard's written
distances (R216, R217), the two hardware-loop levels (R212 to R214, R397), span state (R26), and the one way an instruction
issues and retires. The JX-7040 has no condition flags. -/

namespace Sys2Proof.Machine

open Sys2Proof

/-! ### Scoreboard -/

/-- Register classes of the scoreboard. -/
abbrev RegUse := Nat × Nat
def useS (r : BitVec 5) : RegUse := (0, r.toNat)
def useV (r : BitVec 6) : RegUse := (1, r.toNat)
def useP (r : BitVec 3) : RegUse := (2, r.toNat)

/-- R217: a use is short when a pending producer's written distance is below its latency + 1. s0 and p0 are never
written, so they are never pending. -/
def shortUse (board : List Pending) (uses : List RegUse) : Bool :=
  board.any fun p => uses.any fun u => decide (u.1 = p.cls ∧ u.2 = p.reg ∧ p.dist < p.lat + 1)

/-- After an instruction with stall count s: every distance grows by 1 + s, its own results join, and those whose distance
suffices leave. -/
def advance (board : List Pending) (st : Nat) (new : List Pending) : List Pending :=
  ((board ++ new).map fun p => { p with dist := p.dist + 1 + st }).filter fun p => p.dist < p.lat + 1

/-- A result of latency L into a scalar register; s0 and a latency of 0 leave nothing pending. -/
def late (cls reg lat : Nat) : List Pending :=
  if lat = 0 ∨ (cls ≠ 1 ∧ reg = 0) then [] else [{ cls := cls, reg := reg, lat := lat, dist := 0 }]

/-! ### Hardware loops -/

/-- Does the instruction at pc complete a level's end instruction: it stands at the end address, or it is the last of the
span whose prefix stands there, which takes `ext` bytes (R213, R397). Span state does not matter: a trap inside the span and
its `eret` clear it (R26). -/
def endsLevel (c : Ctx) (pc : Word) (len k : Nat) (ext : Nat → Nat) : Bool :=
  lpActive c k && (decide (pc = lpEnd c k) || (decide (ext k ≠ 0) && decide (lpEnd c k < pc) &&
    decide (pc + BitVec.ofNat 64 len = lpEnd c k + BitVec.ofNat 64 (2 + ext k))))

/-- REM of a level after one more iteration (R213), modulo 2^32: an active level with REM 0, which a `csrw` can make, loops 2^32 - 1
times more. DESIGN CHOICE, log entry 41. -/
def remNext (c : Ctx) (k : Nat) : Nat := (bits (lpCtl c k) 63 32 + 2 ^ 32 - 1) % 2 ^ 32
/-- Does the level take its back-edge? -/
def loopsBack (c : Ctx) (k : Nat) : Bool := decide (0 < remNext c k)
/-- The address of its body. -/
def bodyStart (c : Ctx) (k : Nat) : Word := lpAddr c k + 4
/-- The level with REM one less, and not active when that is 0. -/
def countDown (c : Ctx) (k : Nat) : Ctx :=
  let v := setBits (lpCtl c k) 63 32 (remNext c k)
  setCtl c k (if loopsBack c k then v else setBits v 31 31 0)

/-- R214: discard a level, and level 1 with level 0. -/
def discard (c : Ctx) (k : Nat) : Ctx :=
  if k = 0 then { c with lpctl0 := setBits c.lpctl0 31 31 0, lpctl1 := setBits c.lpctl1 31 31 0 }
  else { c with lpctl1 := setBits c.lpctl1 31 31 0 }

/-- R214: sequential execution that steps past a level's end discards it. -/
def stepPast (c : Ctx) (pc next : Word) (k : Nat) : Ctx :=
  if lpActive c k && decide (pc < lpEnd c k) && decide (lpEnd c k < next) then discard c k else c

/-- The context after an instruction at pc, len bytes long, completed without a taken branch: level 1 first, then level 0,
then the discards; the new pc is the next instruction or a back-edge, which clears span state (R26). -/
def sequential (c : Ctx) (pc : Word) (len : Nat) (ext : Nat → Nat) : Ctx :=
  let next := pc + BitVec.ofNat 64 len
  let e1 := endsLevel c pc len 1 ext
  let e0 := endsLevel c pc len 0 ext
  let sp := c.span - len / 2
  if e1 && loopsBack c 1 then { countDown c 1 with pc := bodyStart c 1, span := 0 }
  else
    let c1 := if e1 then countDown c 1 else c
    if e0 && loopsBack c1 0 then { countDown c1 0 with pc := bodyStart c1 0, span := 0 }
    else
      let c0 := if e0 then countDown c1 0 else c1
      let c2 := if e1 then c0 else stepPast c0 pc next 1
      { (if e0 then c2 else stepPast c2 pc next 0) with pc := next, span := sp }

/-- The last address of a level's body: its end address, or the last parcel of the span whose prefix stands there (R397);
`ext` is how many bytes that span takes. -/
def bodyEnd (c : Ctx) (k : Nat) (ext : Nat → Nat) : Word := lpEnd c k + BitVec.ofNat 64 (ext k)

/-- R214: a taken branch or jump from a level's body to outside it discards the level. -/
def leaveBody (c : Ctx) (pc target : Word) (ext : Nat → Nat) (k : Nat) : Ctx :=
  let lo := lpAddr c k + 4
  let hi := bodyEnd c k ext
  let inside := fun (x : Word) => decide (lo ≤ x) && decide (x ≤ hi)
  if lpActive c k && inside pc && !inside target then discard c k else c

/-- The context after a taken branch, jump or call; a call discards no level. -/
def jumped (c : Ctx) (pc target : Word) (call : Bool) (ext : Nat → Nat) : Ctx :=
  let c := if call then c else leaveBody (leaveBody c pc target ext 1) pc target ext 0
  { c with pc := target, span := 0 }

/-! ### Issue and retirement -/

/-- What an instruction's own effect comes to. -/
inductive Body where
  /-- it completes: new state (pc not yet advanced) and results that take longer (R216) -/
  | done (s : State) (late : List Pending)
  /-- it completes with the pc at a target: a taken branch or jump, or a call -/
  | jump (s : State) (target : Word) (call : Bool)
  /-- it completes and leaves the pc as the state has it (the context ended its task, or slept) -/
  | keep (s : State)
  /-- it cannot issue yet and is tried again: nothing changes but the wait -/
  | wait (s : State) (w : Wait)
  | trap (t : Trap)

/-- Which agents may execute an instruction (R294): kind 0 core contexts, 1 to 3 the engine kinds. -/
def anyAgent : List Nat := [0, 1, 2, 3]
def coreOnly : List Nat := [0]
def xferToo : List Nat := [0, 1]
def axisToo : List Nat := [0, 2]
def fennelToo : List Nat := [0, 3]

/-- A context whose instruction with stall count st has issued in a cycle and completed: results still to come, and the cycle
before which its next instruction does not issue (R28, R217). -/
def Ctx.issued (c : Ctx) (cycle st : Nat) (new : List Pending) : Ctx :=
  { c with
    board := advance c.board st (new.map fun p => { p with till := cycle + 1 + p.lat })
    wait := .ready
    hostGot := []
    codeAt := []
    busyTill := cycle + 1 + st }

/-- An instruction that reads or writes these registers has waited for their producers: they are pending no more (R217). One that an
event completes leaves them on the board. DESIGN CHOICE, log entry 63. -/
def Ctx.settled (c : Ctx) (uses : List RegUse) : Ctx :=
  { c with board := c.board.filter fun p => !uses.contains (p.cls, p.reg) }
def Body.after (uses : List RegUse) : Body → Body
  | .done s l => .done { s with cur := s.cur.settled uses } l
  | .jump s t call => .jump { s with cur := s.cur.settled uses } t call
  | .keep s => .keep { s with cur := s.cur.settled uses }
  | b => b

/-- R217: what a short operand comes to: with the check, a trap once the earlier loads have taken effect (R345); without it, the
scoreboard holds the instruction until its producers have written. An engine member has an `ISSUECTL` of its own, which stays 0.
DESIGN CHOICE, log entry 63. -/
def shortStop (s : State) (uses : List RegUse) : Option Body :=
  if bits s.cur.issuectl 0 0 = 1 then
    if shortUse s.cur.board uses then some (if s.cur.loads.isEmpty then .trap { code := 0x04 } else .wait s .stalled) else none
  else if shortUse (s.cur.board.filter fun p => cycleNow s < p.till) uses then some (.wait s .stalled)
  else none

/-- Retire an instruction of the focus at its pc. DESIGN CHOICE, log entry 63. -/
def retire (s : State) (len : Nat) (st : BitVec 3) (b : Body) : State :=
  let pc := s.cur.pc
  match b with
  | .done t l => { t with cur := (sequential t.cur pc len (spanExt t)).issued (cycleNow s) st.toNat l }
  | .jump t target call => { t with cur := (jumped t.cur pc target call (spanExt t)).issued (cycleNow s) st.toNat [] }
  | .keep t => t
  | .wait t w => { t with cur := { t.cur with wait := w } }
  | .trap t => raise s t

/-- Issue an instruction of the focus: the kinds of agent that may execute it (ROLE_KIND, R294), the stall-count check of its
operands (STALL_SHORT, R217), then its own effect. DEDUCED, log entry 19. -/
def issue (s : State) (kinds : List Nat) (len : Nat) (st : BitVec 3) (uses : List RegUse) (b : State → Body) :
    Host.Outcome State Fault Refusal :=
  if !kinds.contains (kindOf s.who) then .next (raise s { code := 0x21 })
  else match shortStop s uses with
    | some x => .next (retire s len st x)
    | none => .next (retire s len st ((b s).after uses))

end Sys2Proof.Machine
end

