-- ==== Sys2Proof/Machine/Scalar.lean ====
section
/-! DEFINITION. Register-to-register and immediate instructions of the scalar datapath (R206 to R209). -/

namespace Sys2Proof.Machine

open Sys2Proof

/-! ### Values (R206 to R208) -/

def ofBool (b : Bool) : Word := if b then 1 else 0
def aluAdd (a b : Word) : Word := a + b
def aluSub (a b : Word) : Word := a - b
def aluAnd (a b : Word) : Word := a &&& b
def aluOr (a b : Word) : Word := a ||| b
def aluXor (a b : Word) : Word := a ^^^ b
/-- Shifts use the low six bits of b. -/
def shiftAmount (b : Word) : Nat := b.toNat % 64
def aluSll (a b : Word) : Word := a <<< shiftAmount b
def aluSrl (a b : Word) : Word := a >>> shiftAmount b
def aluSra (a b : Word) : Word := a.sshiftRight (shiftAmount b)
def aluMul (a b : Word) : Word := a * b
/-- Bits 127:64 of the exact signed product. -/
def aluMulh (a b : Word) : Word := BitVec.ofInt 64 (a.toInt * b.toInt / 2 ^ 64)
/-- R207: truncated division; by zero −1; −2^63 by −1 wraps to −2^63. -/
def aluDiv (a b : Word) : Word := if b = 0 then -1 else BitVec.ofInt 64 (a.toInt.tdiv b.toInt)
/-- R207: the remainder takes the sign of a; by zero it is a. -/
def aluRem (a b : Word) : Word := if b = 0 then a else BitVec.ofInt 64 (a.toInt.tmod b.toInt)
def aluMin (a b : Word) : Word := if a.slt b then a else b
def aluMax (a b : Word) : Word := if a.slt b then b else a
def aluMinn (a b : Word) : Word := if a.ult b then a else b
def aluMaxn (a b : Word) : Word := if a.ult b then b else a
def aluCmpEq (a b : Word) : Word := ofBool (decide (a = b))
def aluCmpNe (a b : Word) : Word := ofBool (decide (a ≠ b))
def aluCmpLt (a b : Word) : Word := ofBool (a.slt b)
def aluCmpGe (a b : Word) : Word := ofBool (!a.slt b)
def aluCmpLtn (a b : Word) : Word := ofBool (a.ult b)
def aluCmpGen (a b : Word) : Word := ofBool (!a.ult b)
/-- Leading zero bits, 0 to 64: bits are tried from bit n − 1 down. -/
def leadingZeros (x : Word) : Nat → Nat
  | 0 => 0
  | n + 1 => if x.getLsbD n then 0 else 1 + leadingZeros x n
def aluClz (a : Word) : Word := BitVec.ofNat 64 (leadingZeros a 64)
/-- Positions of the one bits of a mask, ascending. -/
def onePositions (m : Word) : List Nat := (List.range 64).filter fun i => m.getLsbD i
def aluPopc (a : Word) : Word := BitVec.ofNat 64 (onePositions a).length
/-- R208: bit i of a goes to the i-th one bit of the mask. -/
def depositFrom (a : Word) : Nat → List Nat → Nat
  | _, [] => 0
  | i, m :: t => (if a.getLsbD i then 2 ^ m else 0) + depositFrom a (i + 1) t
def aluBdep (a b : Word) : Word := BitVec.ofNat 64 (depositFrom a 0 (onePositions b))
/-- R208: the i-th one bit of the mask names bit i of the result. -/
def extractFrom (a : Word) : Nat → List Nat → Nat
  | _, [] => 0
  | i, m :: t => (if a.getLsbD m then 2 ^ i else 0) + extractFrom a (i + 1) t
def aluBxtr (a b : Word) : Word := BitVec.ofNat 64 (extractFrom a 0 (onePositions b))

/-! ### Shared forms -/

/-- d := f a b, with result latency lat (R216). -/
def alu3 (f : Word → Word → Word) (lat len : Nat) (d a b : BitVec 5) (st : BitVec 3) (s : State) :
    Host.Outcome State Fault Refusal :=
  issue s anyAgent len st [useS a, useS b, useS d] fun s => .done (wr s d (f (rd s a) (rd s b))) (late 0 d.toNat lat)

/-- d := f a. -/
def alu2 (f : Word → Word) (len : Nat) (d a : BitVec 5) (st : BitVec 3) (s : State) : Host.Outcome State Fault Refusal :=
  issue s anyAgent len st [useS a, useS d] fun s => .done (wr s d (f (rd s a))) []

/-! ### Meanings -/

def execAdd (d a b : BitVec 5) (st : BitVec 3) (s : State) := alu3 aluAdd 0 4 d a b st s
def execSub (d a b : BitVec 5) (st : BitVec 3) (s : State) := alu3 aluSub 0 4 d a b st s
def execAndR (d a b : BitVec 5) (st : BitVec 3) (s : State) := alu3 aluAnd 0 4 d a b st s
def execOrR (d a b : BitVec 5) (st : BitVec 3) (s : State) := alu3 aluOr 0 4 d a b st s
def execXorR (d a b : BitVec 5) (st : BitVec 3) (s : State) := alu3 aluXor 0 4 d a b st s
def execSll (d a b : BitVec 5) (st : BitVec 3) (s : State) := alu3 aluSll 0 4 d a b st s
def execSrl (d a b : BitVec 5) (st : BitVec 3) (s : State) := alu3 aluSrl 0 4 d a b st s
def execSra (d a b : BitVec 5) (st : BitVec 3) (s : State) := alu3 aluSra 0 4 d a b st s
def execMul (d a b : BitVec 5) (st : BitVec 3) (s : State) := alu3 aluMul 2 4 d a b st s
def execMulh (d a b : BitVec 5) (st : BitVec 3) (s : State) := alu3 aluMulh 2 4 d a b st s
def execDiv (d a b : BitVec 5) (st : BitVec 3) (s : State) := alu3 aluDiv 15 4 d a b st s
def execRem (d a b : BitVec 5) (st : BitVec 3) (s : State) := alu3 aluRem 15 4 d a b st s
def execMin (d a b : BitVec 5) (st : BitVec 3) (s : State) := alu3 aluMin 0 4 d a b st s
def execMax (d a b : BitVec 5) (st : BitVec 3) (s : State) := alu3 aluMax 0 4 d a b st s
def execMinn (d a b : BitVec 5) (st : BitVec 3) (s : State) := alu3 aluMinn 0 4 d a b st s
def execMaxn (d a b : BitVec 5) (st : BitVec 3) (s : State) := alu3 aluMaxn 0 4 d a b st s
def execCmpEq (d a b : BitVec 5) (st : BitVec 3) (s : State) := alu3 aluCmpEq 0 4 d a b st s
def execCmpNe (d a b : BitVec 5) (st : BitVec 3) (s : State) := alu3 aluCmpNe 0 4 d a b st s
def execCmpLt (d a b : BitVec 5) (st : BitVec 3) (s : State) := alu3 aluCmpLt 0 4 d a b st s
def execCmpGe (d a b : BitVec 5) (st : BitVec 3) (s : State) := alu3 aluCmpGe 0 4 d a b st s
def execCmpLtn (d a b : BitVec 5) (st : BitVec 3) (s : State) := alu3 aluCmpLtn 0 4 d a b st s
def execCmpGen (d a b : BitVec 5) (st : BitVec 3) (s : State) := alu3 aluCmpGen 0 4 d a b st s
def execBdep (d a b : BitVec 5) (st : BitVec 3) (s : State) := alu3 aluBdep 1 4 d a b st s
def execBxtr (d a b : BitVec 5) (st : BitVec 3) (s : State) := alu3 aluBxtr 1 4 d a b st s
def execMov (d a : BitVec 5) (st : BitVec 3) (s : State) := alu2 id 4 d a st s
def execClz (d a : BitVec 5) (st : BitVec 3) (s : State) := alu2 aluClz 4 d a st s
def execPopc (d a : BitVec 5) (st : BitVec 3) (s : State) := alu2 aluPopc 4 d a st s
/-- `sel`: d is read before it is written (R206). -/
def execSel (d a b : BitVec 5) (st : BitVec 3) (s : State) : Host.Outcome State Fault Refusal :=
  issue s anyAgent 4 st [useS a, useS b, useS d] fun s =>
    .done (wr s d (if rd s d ≠ 0 then rd s a else rd s b)) []

/-! Immediate forms (R209). -/
def execAddi (d a : BitVec 5) (i : BitVec 12) (st : BitVec 3) (s : State) := alu2 (fun x => x + simm i) 4 d a st s
def execAndi (d a : BitVec 5) (i : BitVec 10) (st : BitVec 3) (s : State) := alu2 (fun x => x &&& simm i) 4 d a st s
def execOri (d a : BitVec 5) (i : BitVec 10) (st : BitVec 3) (s : State) := alu2 (fun x => x ||| simm i) 4 d a st s
def execXori (d a : BitVec 5) (i : BitVec 10) (st : BitVec 3) (s : State) := alu2 (fun x => x ^^^ simm i) 4 d a st s
def execSlli (d a : BitVec 5) (k : BitVec 6) (st : BitVec 3) (s : State) := alu2 (fun x => x <<< k.toNat) 4 d a st s
def execSrli (d a : BitVec 5) (k : BitVec 6) (st : BitVec 3) (s : State) := alu2 (fun x => x >>> k.toNat) 4 d a st s
def execSrai (d a : BitVec 5) (k : BitVec 6) (st : BitVec 3) (s : State) := alu2 (fun x => x.sshiftRight k.toNat) 4 d a st s
def execLim (d : BitVec 5) (i : BitVec 17) (st : BitVec 3) (s : State) : Host.Outcome State Fault Refusal :=
  issue s anyAgent 4 st [useS d] fun s => .done (wr s d (simm i)) []

/-! Sixteen-bit forms: their expansions, two bytes long, stall count 0 (R22, R58). -/
def execCMov (a d : BitVec 5) (s : State) := alu2 id 2 d a 0 s
def execCAdd (a d : BitVec 5) (s : State) := alu3 aluAdd 0 2 d d a 0 s
def execCSub (a d : BitVec 5) (s : State) := alu3 aluSub 0 2 d d a 0 s
def execCAnd (a d : BitVec 5) (s : State) := alu3 aluAnd 0 2 d d a 0 s
def execCOr (a d : BitVec 5) (s : State) := alu3 aluOr 0 2 d d a 0 s
def execCXor (a d : BitVec 5) (s : State) := alu3 aluXor 0 2 d d a 0 s
def execCAddi (i d : BitVec 5) (s : State) := alu2 (fun x => x + simm i) 2 d d 0 s
def execCLim (i d : BitVec 5) (s : State) : Host.Outcome State Fault Refusal :=
  issue s anyAgent 2 0 [useS d] fun s => .done (wr s d (simm i)) []
def execCSlli (k d : BitVec 5) (s : State) := alu2 (fun x => x <<< k.toNat) 2 d d 0 s
def execCSrli (k d : BitVec 5) (s : State) := alu2 (fun x => x >>> k.toNat) 2 d d 0 s
def execCSrai (k d : BitVec 5) (s : State) := alu2 (fun x => x.sshiftRight k.toNat) 2 d d 0 s
def execCAndi (i d : BitVec 5) (s : State) := alu2 (fun x => x &&& simm i) 2 d d 0 s

end Sys2Proof.Machine
end

