-- ==== Sys2Proof/Machine/Fetch.lean ====
section
/-! DEFINITION. Fetching parcels (R20, R45, R46), the role prefix and its span (R23 to R26), branches, jumps and hardware
loops (R210 to R214), and the two fates of a word that is no instruction (R42, R45). -/

namespace Sys2Proof.Machine

open Sys2Proof

/-! ### Parcels -/

/-- What stands at the pc of the focus. -/
inductive Fetched where
  | instr (i : Instr) (s : State)
  | illegal (s : State)
  | fault (t : Trap)
  /-- a home or the host makes the fetch wait -/
  | wait (w : Wait)

/-- The instruction in a run of parcels (R20). -/
def decodeRun (s : State) : List Nat → Fetched
  | [] => .illegal s
  | p :: t =>
    if isLong p then match t with
      | q :: _ => match decode32 (p + 65536 * q) with
        | .ok i => .instr i s
        | .error _ => .illegal s
      | [] => .illegal s
    else match decode16 p with
      | .ok i => .instr i s
      | .error _ => .illegal s

/-- What a stop of a fetch comes to. -/
def FetchStop.fetched : FetchStop → Fetched
  | .trap t => .fault t
  | .wait => .wait .stalled
  | .host at1 va => .wait (.hostFill at1 3 va)

/-- What it comes to for an instruction that needs the parcels. -/
def FetchStop.body (s : State) : FetchStop → Body
  | .trap t => .trap t
  | .wait => .wait s .stalled
  | .host at1 va => .wait s (.hostFill at1 3 va)

/-- R25: is a run of parcels an invalid span? Nested prefixes and an instruction that ends after the span are. A run cut
short by a fault is judged as far as it was fetched: `whole` says the run is the whole span. -/
def badSpan (whole : Bool) : List Nat → Bool
  | [] => false
  | p :: t =>
    if isLong p then match t with
      | [] => whole
      | _ :: t' => badSpan whole t'
    else isPrefix p || badSpan whole t

/-- Keep a role prefix with its whole span, as one fetch (R46), and the span at its own address where the prefix is valid, for the
members that resume inside it; a span that cannot be fetched, or an invalid one, leaves nothing kept there. -/
def keepPrefix (s : State) (pc : Word) (p : Nat) : State :=
  if s.sched.keepFetched then
    match readRun s (pc + 2) (spanOf p) with
    | (ps, none, t) =>
      keepRun (keepRun t (pc + 2) (if bitsOf p 6 8 = 0 || badSpan true ps then none else some ps)) pc (some (p :: ps))
    | _ => keepRun s (pc + 2) none
  else s

/-- Decode the instruction at an address of the focus: one parcel, and a second where R20 asks for it. Inside a span the parcels are
those that its prefix was validated with (R46). -/
def fetchInstr (s : State) (pc : Word) : Fetched :=
  if 0 < s.cur.span then decodeRun s (s.cur.spanCode.drop (s.cur.spanCode.length - s.cur.span)) else
  match keptRun s pc with
  | some (l, t) => decodeRun t l
  | none =>
    match readRun s pc 1 with
    | (p :: _, _, s1) =>
      if isLong p then
        match readRun s1 (pc + 2) 1 with
        | (q :: _, _, s2) => decodeRun (keepRun s2 pc (some [p, q])) [p, q]
        | (_, some t, _) => (t.after (codeVa s pc)).fetched
        | (_, none, s2) => .illegal s2
      else if isPrefix p then decodeRun (keepPrefix s1 pc p) [p]
      else decodeRun (keepRun s1 pc (some [p])) [p]
    | (_, some t, _) => t.fetched
    | (_, none, s1) => .illegal s1

/-- May an instruction jump? -/
def jumps : Instr → Bool
  | .brEq _ _ _ _ | .brNe _ _ _ _ | .brLt _ _ _ _ | .brGe _ _ _ _ | .brLtn _ _ _ _ | .brGen _ _ _ _ | .cBrEq _ _ | .cBrNe _ _
  | .cBrLt _ _ | .cBrGe _ _ | .jal _ _ _ | .cJmp _ | .jr _ _ _ _ | .cJr _ => true
  | _ => false

/-- R397: must an instruction at an address know whether a prefix stands at the end of a level: it stands behind that end, within the
longest span, or it may jump from the level's body? -/
def needsEnd (c : Ctx) (pc : Word) (i : Instr) (k : Nat) : Bool :=
  lpActive c k && ((decide (lpEnd c k < pc) && decide (pc ≤ lpEnd c k + 32)) || (jumps i && decide (lpAddr c k < pc) && decide (pc ≤ lpEnd c k)))

/-- What keeps the parcel at the end of a level from being read now; one that faults tells of no prefix. -/
def endStop (s : State) (k : Nat) : Option FetchStop :=
  if 0 < s.cur.span ∧ s.cur.spanAt = lpEnd s.cur k then none else
  match fetchRun s (lpEnd s.cur k) 1 with
  | (_, some (.trap _), _) => none
  | (_, t, _) => t

/-- Note what stands at the end of a level. -/
def noteEnd (s : State) (k : Nat) : State :=
  let (x, t) := readEnd s k
  { t with cur := t.cur.noteEnd k x }

/-- Fetch the instruction at an address of the focus, with the end parcel of a level where it counts (R397): that one is waited
for too, and noted until the instruction completes. -/
def fetchAt (s : State) (pc : Word) : Fetched :=
  match fetchInstr s pc with
  | .instr i t =>
    let ks := [1, 0].filter (needsEnd s.cur pc i)
    (ks.findSome? (endStop t)).elim (.instr i (ks.foldl noteEnd t)) FetchStop.fetched
  | x => x

/-- ILLEGAL_INSTRUCTION at the first parcel (R42, R347). -/
def illegalTrap (s : State) : Trap :=
  { code := 0x01, va := codeVa s s.cur.pc }

/-- A fetched word that is no instruction changes nothing and raises ILLEGAL_INSTRUCTION at its first parcel (R42). -/
def execIllegalInstruction (s : State) : Host.Outcome State Fault Refusal := .next (raise s (illegalTrap s))

/-- A parcel of the instruction at the pc that cannot be fetched raises a precise fault there, FAULTVA naming the parcel
(R45); where every parcel can be fetched nothing happens. -/
def execFetchFault (s : State) : Host.Outcome State Fault Refusal :=
  match fetchAt s s.cur.pc with
  | .fault t => .next (raise s t)
  | _ => .next s

/-! ### Role prefixes -/

/-- Does a binding (role, kind, set) hold for an agent (R291, R292)? -/
def bindHolds (b : Nat × Nat × Nat) (a : Nat) : Bool :=
  b.2.1 = kindOf a && (if isEngine a then b.2.2.testBit (tileOf a % 16) else a % 2 = 0 && b.2.2.testBit (coreOf a % 64))

/-- The roles an agent holds under its team's current binding, as a mask. -/
def rolesOf (t : Team) (a : Nat) : Nat :=
  (t.binds.filter (bindHolds · a)).foldl (fun m b => m ||| 2 ^ b.1) 0

/-- The running team that an agent is a member of, if any. -/
def myTeam (s : State) : Option (Team × Member) :=
  match teamOf s s.who with
  | none => none
  | some t => match findMember t s.who with
    | some m => if m.ended || m.late then none else some (t, m)
    | none => none

/-- R24: a context that is no team member is in every mask. -/
def inMask (s : State) (m : BitVec 8) : Bool :=
  match myTeam s with
  | none => true
  | some (t, _) => (rolesOf t s.who &&& m.toNat) ≠ 0

/-- A span that begins at the end of a level is noted with it, for a context that a trap takes out of the span and that resumes
inside it (R26, R397). -/
def noteSpan (c : Ctx) (pc : Word) (span : Nat) : Ctx :=
  ([1, 0].filter fun k => lpActive c k && decide (lpEnd c k = pc)).foldl (fun c k => c.noteEnd k (2 * span)) c

/-- `role` (R23 to R26). The parcels of the one fetch that validates the span are those its instructions execute from. -/
def execRole (n : BitVec 4) (m : BitVec 8) (s : State) : Host.Outcome State Fault Refusal :=
  let span := n.toNat + 1
  issue s anyAgent (2 + 2 * span) 0 [] fun s =>
    let (ps, t, s1) := spanRun s s.cur.pc span
    if m = 0 || badSpan t.isNone ps then .keep (raise s1 (illegalTrap s))
    else if inMask s m then
      match t with
      | some t => t.body s
      | none => .keep { s1 with cur := { noteSpan s1.cur s.cur.pc span with
          pc := s.cur.pc + 2, span := span, spanAt := s.cur.pc, spanCode := ps, wait := .ready } }
    else match t with
      -- a parcel that cannot be fetched is no matter to a context that skips it; one still to come is
      | none | some (.trap _) => .done s1 []
      | some t => t.body s

/-! ### Branches, jumps and calls (R210, R211) -/

/-- A branch that continues at a parcel offset when its condition holds. -/
def branch {n : Nat} (c : Word → Word → Bool) (len : Nat) (a b : BitVec 5) (o : BitVec n) (st : BitVec 3) (s : State) :
    Host.Outcome State Fault Refusal :=
  issue s anyAgent len st [useS a, useS b] fun s =>
    if c (rd s a) (rd s b) then .jump s (parcelTarget s.cur.pc o) false else .done s []

def execBrEq (a b : BitVec 5) (o : BitVec 12) (st : BitVec 3) (s : State) := branch (fun x y => decide (x = y)) 4 a b o st s
def execBrNe (a b : BitVec 5) (o : BitVec 12) (st : BitVec 3) (s : State) := branch (fun x y => decide (x ≠ y)) 4 a b o st s
def execBrLt (a b : BitVec 5) (o : BitVec 12) (st : BitVec 3) (s : State) := branch (fun x y => x.slt y) 4 a b o st s
def execBrGe (a b : BitVec 5) (o : BitVec 12) (st : BitVec 3) (s : State) := branch (fun x y => !x.slt y) 4 a b o st s
def execBrLtn (a b : BitVec 5) (o : BitVec 12) (st : BitVec 3) (s : State) := branch (fun x y => x.ult y) 4 a b o st s
def execBrGen (a b : BitVec 5) (o : BitVec 12) (st : BitVec 3) (s : State) := branch (fun x y => !x.ult y) 4 a b o st s
def execCBrEq (o a : BitVec 5) (s : State) := branch (fun x y => decide (x = y)) 2 a 0 o 0 s
def execCBrNe (o a : BitVec 5) (s : State) := branch (fun x y => decide (x ≠ y)) 2 a 0 o 0 s
def execCBrLt (o a : BitVec 5) (s : State) := branch (fun x y => x.slt y) 2 a 0 o 0 s
def execCBrGe (o a : BitVec 5) (s : State) := branch (fun x y => !x.slt y) 2 a 0 o 0 s

/-- `jal` (R210): the link is the address of the next instruction; with d = s0 it is `jmp`, else a call. -/
def jumpLink (len : Nat) (d : BitVec 5) (st : BitVec 3) (uses : List RegUse) (target : State → Word) (s : State) :
    Host.Outcome State Fault Refusal :=
  issue s anyAgent len st (useS d :: uses) fun s =>
    .jump (wr s d (s.cur.pc + BitVec.ofNat 64 len)) (target s) (decide (d ≠ 0))

def execJal (d : BitVec 5) (o : BitVec 17) (st : BitVec 3) (s : State) :=
  jumpLink 4 d st [] (fun s => parcelTarget s.cur.pc o) s
def execCJmp (o : BitVec 10) (s : State) := jumpLink 2 0 0 [] (fun s => parcelTarget s.cur.pc o) s
/-- `jr` (R210): the target is computed from a as it was before the instruction. -/
def execJr (d a : BitVec 5) (i : BitVec 12) (st : BitVec 3) (s : State) :=
  jumpLink 4 d st [useS a] (fun s => jrTarget (rd s a) i) s
def execCJr (a : BitVec 5) (s : State) := jumpLink 2 0 0 [useS a] (fun s => jrTarget (rd s a) 0) s

/-! ### Hardware loops (R212) -/

/-- The length in bytes of the instruction at an address, from its first parcel; a role prefix counts with its span. DEDUCED,
log entry 41. -/
def lengthAt (p : Nat) : Nat :=
  if isLong p then 4 else if isPrefix p then 2 + 2 * spanOf p else 2

/-- Continue after the instruction at L, which the skip completes for level 0 when L is its end address (R212). Span state
falls by the parcels passed over (R26). -/
def skipTo (s : State) (l : Word) (len : Nat) : State :=
  let c := s.cur
  let next := l + BitVec.ofNat 64 len
  let sp := c.span - (next - c.pc).toNat / 2
  if lpActive c 0 && decide (l = lpEnd c 0) then
    if loopsBack c 0 then { s with cur := { countDown c 0 with pc := bodyStart c 0, span := 0 } }
    else { s with cur := { countDown c 0 with pc := next, span := sp } }
  else { s with cur := { stepPast c c.pc next 0 with pc := next, span := sp } }

/-- The parcel at an address of the focus: of the span that it executes, where the address lies in it (R46), or fetched. -/
def parcelAt (s : State) (l : Word) : List Nat × Option FetchStop × State :=
  let c := s.cur
  let o := (l - (c.spanAt + 2)).toNat / 2
  match (if 0 < c.span then c.spanCode[o]? else none) with
  | some p => ([p], none, s)
  | none => fetchRun s l 1

/-- `loop` (R212). With an offset of 1 the body is empty, and L lies inside the `loop` itself. -/
def execLoop (a : BitVec 5) (o : BitVec 12) (st : BitVec 3) (s : State) : Host.Outcome State Fault Refusal :=
  issue s anyAgent 4 st [useS a] fun s =>
    let c := s.cur
    let n := rd s a
    let l := parcelTarget c.pc o
    let k := if lpActive c 0 then 1 else 0
    if bits n 63 32 ≠ 0 || lpActive c 1 then .trap illegalOperand
    else if k = 1 && decide (lpEnd c 0 < l) then .trap illegalOperand
    else if o = 1 then
      let t := skipTo s l 2
      .keep { t with cur := t.cur.issued (cycleNow s) st.toNat [] }
    else if bits n 31 0 = 0 then
      match parcelAt s l with
      | (p :: _, _, s1) =>
        let t := skipTo s1 l (lengthAt p)
        .keep { t with cur := t.cur.issued (cycleNow s) st.toNat [] }
      | (_, some t, _) => t.body s
      | (_, none, _) => .trap illegalOperand
    else
      let ctl := BitVec.ofNat 64 (bits n 31 0 * 2 ^ 32 + 2 ^ 31 + o.toNat % 2 ^ 12)
      let c := if k = 0 then { c with lpaddr0 := c.pc, lpctl0 := ctl } else { c with lpaddr1 := c.pc, lpctl1 := ctl }
      .keep { s with cur := { c with pc := c.pc + 4, span := c.span - 2 }.issued (cycleNow s) st.toNat [] }

end Sys2Proof.Machine
end

