-- ==== Sys2Proof/Machine/Inbox.lean ====
section
/-! DEFINITION. Where records go: the system record ring of Turnip (R81, R85), the inboxes of a core with the spill ring of its
region (R275, R277), and what a message that waits for room there holds back. -/

namespace Sys2Proof.Machine

open Sys2Proof

/-! ### The system record ring (R81, R85) -/

/-- The slot at TAIL. -/
def recSlot (s : State) : Nat :=
  bits s.dev.mrec 51 6 * 64 + 32 * (bits s.dev.mrecptr 63 32 % 2 ^ bits s.dev.mrec 4 0)

/-- Is there room for one more record? An absent ring counts as full, and one whose next slot is out of reach (R364). -/
def recRoom (s : State) : Bool :=
  decide (bits s.dev.mrec 51 6 ≠ 0) &&
    decide ((bits s.dev.mrecptr 63 32 + 2 ^ 32 - bits s.dev.mrecptr 31 0) % 2 ^ 32 < 2 ^ bits s.dev.mrec 4 0) &&
    !writeWaits s (recSlot s)

/-- Post one record at TAIL. -/
def writeRec (s : State) (r : List Byte) : State :=
  let t := bits s.dev.mrecptr 63 32
  let s := sysBytes s (recSlot s) r
  { s with dev := { s.dev with mrecptr := setBits s.dev.mrecptr 63 32 (t + 1) } }

/-- Post the records that wait, in order, as far as there is room. -/
def flushRecs (s : State) : List (List Byte) → State
  | [] => { s with recs := [] }
  | r :: t => if recRoom s then flushRecs (writeRec s r) t else { s with recs := r :: t }

def postRec (s : State) (r : List Byte) : State := flushRecs s (s.recs ++ [r])

/-! ### Inboxes and the spill ring (R275, R277) -/

def inboxBase (pri : Bool) : Nat := if pri then 0xC000 else 0xCA00
def takenOff (pri : Bool) : Nat := if pri then 0xD400 else 0xD410
def arrivedOff (pri : Bool) : Nat := if pri then 0xD408 else 0xD418
def inboxLoc (core : Nat) (pri : Bool) (n : Nat) : Nat := homeLoc core (inboxBase pri + 80 * (n % 32))
def takenOf (s : State) (core : Nat) (pri : Bool) : Nat := readNat s (homeLoc core (takenOff pri)) 8
def arrivedOf (s : State) (core : Nat) (pri : Bool) : Nat := readNat s (homeLoc core (arrivedOff pri)) 8
def priIx (pri : Bool) : Nat := if pri then 0 else 1

/-- Remember the release of a record's creator, for a queue and a record number. -/
def keepGate (c : Core) (q n : Nat) (r : TaskRec) : Core := match r.gate with
  | some g => { c with gateInfo := c.gateInfo ++ [(q, n, g)] }
  | none => c
/-- A record taken from a queue, with its creator's release, and the core that has given it. -/
def giveGate (c : Core) (q n : Nat) (r : TaskRec) : TaskRec × Core :=
  ({ r with gate := (c.gateInfo.find? fun x => x.1 = q && x.2.1 = n).map (·.2.2) },
   { c with gateInfo := c.gateInfo.filter fun x => !(x.1 = q && x.2.1 = n) })

/-- Write a record into inbox slot n, remembering what its 80 bytes do not hold. -/
def putInbox (s : State) (core : Nat) (pri : Bool) (n : Nat) (bytes : List Byte) (r : TaskRec) : State :=
  let s := sysBytes s (inboxLoc core pri n) bytes
  let c := getCore s core
  let c := match r.mrstat with
    | some v => { c with mrInfo := c.mrInfo ++ [(priIx pri, n, v)] }
    | none => c
  let c := if r.pager then { c with pagerInfo := c.pagerInfo ++ [(priIx pri, n)] } else c
  putCore s core (keepGate c (priIx pri) n r)

/-- The region a record for a core belongs to: the running one, or the saved one whose cluster it was. -/
def recordRegion (s : State) (core : Nat) : Option Region :=
  match regionOf s core with
  | some (rcb, _) => findRegion s rcb
  | none => s.regions.find? fun r => r.state = 3 && r.clusters.contains (core / 64)

/-- The first free spill slot from one on. -/
def freeSlot (used : List Nat) (n : Nat) : Nat → Nat → Option Nat
  | 0, _ => none
  | fuel + 1, k => if used.contains (k % n) then freeSlot used n fuel (k + 1) else some (k % n)

/-- Put a record on a region's spill ring: into the first free slot from the one behind the last that was filled, with 0 for the
high inbox and 1 for the low one in byte 82; none when the ring is full. DESIGN CHOICE, log entry 67. -/
def spillInto (s : State) (g : Region) (core : Nat) (pri : Bool) (r : TaskRec) (due : Option Msg := none) : Option State :=
  let n := 2 ^ rcbField s g.rcb 0x5C 1
  match freeSlot (g.spill.map (·.slot)) n (g.spill.length + 1) g.spillNext with
  | none => none
  | some k =>
    let at1 := rcbField s g.rcb 0x20 8 + 128 * k
    if n ≤ g.spill.length || writeWaits s at1 then none else
    let s := sysBytes s at1 (recBytes r s.stamp ++ toBytes 2 core ++ [BitVec.ofNat 8 (priIx pri)])
    some (putRegion s { g with spill := g.spill ++ [⟨k, core, pri, r, due⟩], spillNext := k + 1 })

/-- The spilled records of an inbox, oldest first; a counted record belongs to no inbox. -/
def Region.spillOf (g : Region) (core : Nat) (pri : Bool) : List Spilled :=
  g.spill.filter fun x => x.core = core && x.pri = pri && !x.task.cnt

/-- R277: accept a record for a region's core into its inbox, or the spill ring behind it; while the region is saved, onto its spill
ring; none when it must wait at the destination. A counted record is on the ring only while its region is saved. -/
def acceptAt (s : State) (g : Region) (core : Nat) (pri : Bool) (r : TaskRec) : Option State :=
  let arr := arrivedOf s core pri
  let bump := fun (s : State) => sysWrite s (homeLoc core (arrivedOff pri)) 8 (arr + 1)
  if !(regionOf s core).any (·.1 = g.rcb) then spillInto s g core pri r
  else if arr - takenOf s core pri < 32 ∧ (g.spillOf core pri).isEmpty then
    some (bump (putInbox s core pri arr (recBytes r s.stamp) r))
  else (spillInto s g core pri r).map bump
def accept (s : State) (core : Nat) (pri : Bool) (r : TaskRec) : Option State :=
  (recordRegion s core).bind fun g => acceptAt s g core pri r

/-- The region that a record is for: the one that the device made it for, or that of its core. -/
def regionFor (s : State) (rcb core : Nat) : Option Region :=
  match (recordRegion s core).filter fun g => rcb = 0 || g.rcb = rcb with
  | some g => some g
  | none => s.regions.find? fun g => g.rcb = rcb && g.state = 3

/-- Does a record that the device made for an inbox of a region's core still wait at its destination? -/
def recordWaits (s : State) (rcb core : Nat) (pri : Bool) : Bool :=
  s.net.any fun m => m.src = devAgent core && m.entry.rcb = rcb && match m.entry.body with
    | .record k r => k.toNat = core && !r.cnt && r.pri = pri
    | _ => false

/-- Accept a record, unless one that came before it still waits (R277). -/
def acceptNext (s : State) (g : Region) (core : Nat) (pri : Bool) (r : TaskRec) : Option State :=
  if recordWaits s g.rcb core pri then none else acceptAt s g core pri r

/-- A record that the device makes for a region's core: accepted, or put on the mesh, where every later record of its inbox stays
behind it, so that none is reordered (R277). -/
def postTo (s : State) (g : Region) (core : Nat) (pri : Bool) (r : TaskRec) : State :=
  let r := { r with pri := pri }
  (acceptNext s g core pri r).getD (sendMsg s (devAgent core)
    { loc := homeLoc core 0xC000, body := .record (BitVec.ofNat 14 core) r, rcb := g.rcb })

/-- The same for the region of a core; one for a core without a region is dropped. -/
def post (s : State) (core : Nat) (pri : Bool) (r : TaskRec) : State :=
  match recordRegion s core with
  | some g => postTo s g core pri r
  | none => s

/-- The core and the priority that a message's record is for. -/
def inboxOf (e : StoreEntry) : Option (Nat × Bool) := match e.body with
  | .record core r => some (core.toNat, r.pri)
  | .remote h _ => some (bits h 13 0, bits h 33 33 = 1)
  | _ => none

/-- Is a message's record counted (R278)? -/
def isCounted (e : StoreEntry) : Bool := match e.body with
  | .record _ r => r.cnt
  | .remote h _ => bits h 32 32 = 1
  | _ => false

/-- R276: does a record go to no inbox, because it is counted as it arrives: its region runs? -/
def countsNow (s : State) (e : StoreEntry) : Bool :=
  isCounted e && (inboxOf e).any fun (core, _) => (regionFor s e.rcb core).any fun g => (regionOf s core).any (·.1 = g.rcb)

/-- R277: does a message's record wait at its destination for room? -/
def heldAt (s : State) (m : Msg) : Bool :=
  !countsNow s m.entry && (inboxOf m.entry).any fun (core, pri) => (regionFor s m.entry.rcb core).any fun g =>
    (acceptAt s g core pri {}).isNone

def isRemote (e : StoreEntry) : Bool := match e.body with
  | .remote _ _ => true
  | _ => false

/-- Does message m stay behind an earlier one of its source although that one waits for room: both are records for one inbox (R277), or
remote sends that name this device, which are accepted in the order of their issue (R369)? -/
def staysBehind (s : State) (m k : Msg) : Bool :=
  k.src = m.src && ((isRemote k.entry && isRemote m.entry) ||
    (!countsNow s m.entry && inboxOf m.entry = inboxOf k.entry && m.entry.rcb = k.entry.rcb))

/-- The messages of the mesh, each with whether it has arrived and waits for room there (R277), or behind one that does. -/
def arrived (s : State) : List (Msg × Bool) :=
  s.net.foldl (fun l m => l ++ [(m, heldAt s m || l.any fun k => k.2 && staysBehind s m k.1)]) []

end Sys2Proof.Machine
end

