-- ==== Sys2Proof/Machine/Memory.lean ====
section
/-! DEFINITION. Loads, stores, atomics, fences, waits and prefetch (R110 to R129), and the events that carry a store from the
buffer to its home and back (R71, R113, R116, R322). -/

namespace Sys2Proof.Machine

open Sys2Proof

/-! ### The store buffer and what is still on its way -/

def isStoreBody : Payload → Bool
  | .store _ _ | .axst _ _ _ _ => true
  | _ => false
def isSendBody : Payload → Bool
  | .record _ _ | .remote _ _ => true
  | _ => false

def isMreq (e : StoreEntry) : Bool := match e.body with
  | .mreqRead _ | .mreqWrite _ _ => true
  | _ => false

/-- An `axst`, whose places are not yet known: the context's raw loads wait until it has left the buffer. -/
def isAxstEntry (e : StoreEntry) : Bool := match e.body with
  | .axst _ _ _ _ => true
  | _ => false

/-- Bytes that a plain store entry covers. -/
def entryBytes (e : StoreEntry) : List Byte := match e.body with
  | .store d _ => d
  | _ => []

/-- The youngest buffered value of one byte. DEDUCED, log entry 60. -/
def bufByte (buf : List StoreEntry) (loc : Nat) : Option Byte :=
  buf.foldl (fun b e =>
    let d := entryBytes e
    if e.loc ≤ loc ∧ loc < e.loc + d.length then d[loc - e.loc]? else b) none

/-- The buffer's entry of a send that has gone to another device (R369). -/
def Remote.entry (r : Remote) : StoreEntry := { body := .remote r.hdr r.regs, seq := r.seq }

/-- Entries of an agent that satisfy p, have left its buffer and are not yet acknowledged. -/
def inFlight (s : State) (a : Nat) (p : StoreEntry → Bool) : Bool :=
  s.net.any (fun m => m.src = a && p m.entry) || s.replies.any (fun r => r.dst = a && p r.entry) ||
    s.remotes.any (fun r => r.ctx = a && p r.entry) ||
    s.regions.any fun g => g.spill.any fun x => x.due.any fun m => m.src = a && p m.entry

/-- Entries of an agent that satisfy p and are not yet acknowledged. -/
def unacked (s : State) (a : Nat) (p : StoreEntry → Bool) : Bool := (getCtx s a).buf.any p || inFlight s a p

/-- Entries of an agent that satisfy p and are under way in this device: a record that waits at its destination for room, or on the
spill ring of a saved region, has arrived (R277), and one for another device has left. -/
def underWay (s : State) (a : Nat) (p : StoreEntry → Bool) : Bool :=
  (arrived s).any (fun m => m.1.src = a && p m.1.entry && !m.2) || s.replies.any fun r => r.dst = a && p r.entry

/-- Entries of an agent that satisfy p and are buffered or under way: a wait for them lasts no longer than the mesh and the homes take
(R289). -/
def pending (s : State) (a : Nat) (p : StoreEntry → Bool) : Bool := (getCtx s a).buf.any p || underWay s a p

/-- R327: do two translations cover a common address and place it differently? -/
def VPage.differs (p q : VPage) : Bool :=
  decide (p.va < q.va + 2 ^ q.log) && decide (q.va < p.va + 2 ^ p.log) && decide (p.frame + q.va ≠ q.frame + p.va)

/-- R327: since an access of an agent to the same page, which has no value and no acknowledgement yet, the translation of the
page has changed. -/
def pageHeld (s : State) (a : Nat) (l : Landing) : Bool :=
  l.page.any fun p => unacked s (asCtx a) (fun e => e.page.any p.differs) ||
    (getCtx s (asCtx a)).loads.any fun x => x.page.any p.differs

def isStore (e : StoreEntry) : Bool := isStoreBody e.body
def isSend (e : StoreEntry) : Bool := isSendBody e.body
def isStoreOrSend (e : StoreEntry) : Bool := isStore e || isSend e

/-- R124: what a release at a scope waits for: up to the die, earlier stores on channels 2 and 3; beyond, every one. -/
def releaseBlocked (s : State) (a : Nat) (scope : BitVec 3) : Bool :=
  if scope.toNat ≤ 3 then unacked s a (fun e => isStore e && e.chan ≠ 0) else unacked s a isStoreOrSend

/-- R124, R122: a full fence also empties the store buffer and waits for its entries to be applied; beyond the die every earlier store
and send has been acknowledged. DEDUCED, log entry 21. -/
def fullBlocked (s : State) (a : Nat) (scope : BitVec 3) : Bool :=
  releaseBlocked s a scope || pending s a isStoreOrSend

/-- What a context's own buffered stores give a load. -/
inductive Own where
  | none
  | part
  | all (b : List Byte)

/-- R113: a load wholly inside buffered bytes takes them, one that overlaps in part waits; both sides by the place in which
the bytes stand now. A load waits for every earlier `axst` of the context to be applied, and while its page is held (R327). -/
def ownBytes (s : State) (a : Nat) (l : Landing) (n : Nat) : Own :=
  let buf := (getCtx s (asCtx a)).buf
  let now := buf.map fun e => { e with loc := forwarded s e.loc }
  let own := (List.range n).map fun k => bufByte now (forwarded s l.loc + k)
  if pageHeld s a l || unacked s (asCtx a) isAxstEntry then .part
  else if own.all (·.isSome) then .all (own.map (·.getD 0))
  else if own.any (·.isSome) then .part
  else .none

/-- The homes that a reply comes from: those of its elements, for an `axst`. -/
def Reply.homes (s : State) (r : Reply) : List (Option Nat) := (if r.spots.isEmpty then [r.entry.loc] else r.spots).map (homeAt s)

/-- Is a reply to a message that satisfies p on its way from the home of an address to a tile, so that the next reply must not pass
it (R136)? -/
def replyBefore (s : State) (tile loc : Nat) (p : StoreEntry → Bool) : Bool :=
  s.replies.any fun r => tileOf r.dst = tile && !isMreq r.entry && p r.entry && (r.homes s).contains (homeAt s loc)

/-- Does a message of an agent that satisfies p stand before the home of an address, or such a reply to the agent's tile? A record that
waits there for room has arrived (R277), and holds nothing back but its inbox (R289). -/
def boundFor (s : State) (a loc : Nat) (p : StoreEntry → Bool) : Bool :=
  (arrived s).any (fun m => m.1.src = a && p m.1.entry && homeAt s m.1.entry.loc = homeAt s loc && !m.2) || replyBefore s (tileOf a) loc p

/-- How a load of n bytes at a checked location comes out. -/
inductive LoadR where
  | val (b : List Byte)
  | stall
  | bad (code : Nat)
  | host

/-- R113, R115, R72: a load takes its own buffered bytes; one whose home still holds an earlier request of the same agent waits
for it; otherwise its home serves it. -/
def loadBytes (s : State) (a : Nat) (l : Landing) (n : Nat) : LoadR :=
  match ownBytes s a l n with
  | .all b => .val b
  | .part => .stall
  | .none =>
    if boundFor s a l.loc (fun _ => true) then .stall
    else if bankBusy s l.loc 4096 || farWaits s l.loc then .stall
    else if homeOf s l.loc = some 25 then .host
    else match serveRead s l.loc n with
      | (0, b) => .val b
      | (1, _) => .bad 0x10
      | (_, _) => .bad 0x11

/-- n bytes of host memory from what the context has read for the instruction it tries (R363), or how far they reach before a
byte whose word is still to come. -/
def hostBytes (c : Ctx) (loc n : Nat) : Except Nat (List Byte) :=
  match (List.range n).find? fun k => (hostWord c (loc + k)).isNone with
  | some k => .error k
  | none => .ok ((List.range n).map fun k => BitVec.ofNat 8 ((hostWord c (loc + k)).getD 0 / 256 ^ ((loc + k) % 8)))

/-- The value a load of n bytes writes: zero- or sign-extended (R117). -/
def extend (sx : Bool) (n v : Nat) : Word := if sx then ofInt (signed (8 * n) v) else BitVec.ofNat 64 v

/-- VA of an access by the focus. -/
def vaOf (s : State) (e : Word) : VAddr := widen (vaHigh (getCtx s (asCtx s.who))) e

/-- R114, R322: the oldest loads of the focus that have their values, and no replay notice, write their registers in order;
one that failed traps at its own place, and those behind it leave nothing. -/
def commitLoads (s : State) : Nat → State
  | 0 => s
  | n + 1 => match s.cur.loads with
    | [] => s
    | x :: t =>
      if x.noticed then s else match x.val with
      | none => s
      | some (0, v) => commitLoads (wr { s with cur := { s.cur with loads := t } } x.d (extend x.sx x.size (v % 256 ^ x.size))) n
      | some (k, _) =>
        raise { s with cur := { s.cur with loads := [], pc := x.pc, lpctl0 := x.lp0, lpctl1 := x.lp1, span := 0, board := [] } }
          { code := if k = 1 then 0x10 else 0x11, access := 0, va := x.va }

/-- A load's slot, taken at its issue. -/
def newSlot (s : State) (l : Landing) (n : Nat) (sx acq : Bool) (d : BitVec 5) (va : VAddr) : LoadSlot :=
  { id := s.cur.loadNext, d := d, size := n, sx := sx, acq := acq, va := va, loc := l.loc, leaf := l.leaf, pc := s.cur.pc,
    lp0 := s.cur.lpctl0, lp1 := s.cur.lpctl1, local1 := false, page := l.page }

/-- The focus holds one more load. -/
def pushSlot (s : State) (x : LoadSlot) : State :=
  { s with cur := { s.cur with loads := s.cur.loads ++ [x], loadNext := s.cur.loadNext + 1 } }

/-- A load of n bytes at address ea into d: its home serves it at once, or, where the schedule defers loads, on its way, and
then loads that follow may be served before it. DESIGN CHOICE, log entry 2. -/
def loadBody (n : Nat) (sx acq : Bool) (d : BitVec 5) (ea : State → Word) (len : Nat) (st : BitVec 3) (s : State) : Body :=
  let va := vaOf s (ea s)
  match checkAccess s s.who (ea s) n 0 with
  | .error t => if s.cur.loads.isEmpty then .trap t else .wait s .stalled
  | .ok l =>
    let s1 := countHot l.st l.loc (coreOf s.who) l.leaf
    let x := newSlot l.st l n sx acq d va
    match ownBytes l.st s.who l n with
    | .all b =>
      if s.cur.loads.isEmpty then .done (wr l.st d (extend sx n (fromBytes b))) []
      else .done (pushSlot l.st { x with served := true, val := some (0, fromBytes b) }) []
    | .part => .wait s .stalled
    | .none =>
      if s.sched.deferLoads && homeOf s l.loc ≠ some 25 then
        if boundFor l.st s.who l.loc (·.chan ≠ 0) then .wait s .stalled
        else .done (pushSlot (sendMsg l.st s.who { loc := l.loc, leaf := l.leaf, body := .load n x.id }) x) []
      else if !s.cur.loads.isEmpty then .wait s .stalled
      else match loadBytes l.st s.who l n with
        | .val b => .done (wr s1 d (extend sx n (fromBytes b))) []
        | .stall => .wait s .stalled
        | .bad c => .keep (raise s1 { code := c, access := 0, va := va })
        | .host => .wait s1 (.host d n sx len st.toNat va l.loc none)

/-- A load instruction (R117). -/
def load (n : Nat) (sx : Bool) (len : Nat) (d b : BitVec 5) (o : Word) (st : BitVec 3) (s : State) :
    Host.Outcome State Fault Refusal :=
  issue s coreOnly len st [useS b, useS d] (loadBody n sx false d (fun s => rd s b + o * BitVec.ofNat 64 n) len st)

def execLdB (d b : BitVec 5) (x : BitVec 1) (o : BitVec 9) (st : BitVec 3) (s : State) := load 1 (x = 1) 4 d b (simm o) st s
def execLdH (d b : BitVec 5) (x : BitVec 1) (o : BitVec 9) (st : BitVec 3) (s : State) := load 2 (x = 1) 4 d b (simm o) st s
def execLdW (d b : BitVec 5) (x : BitVec 1) (o : BitVec 9) (st : BitVec 3) (s : State) := load 4 (x = 1) 4 d b (simm o) st s
def execLdD (d b : BitVec 5) (o : BitVec 9) (st : BitVec 3) (s : State) := load 8 false 4 d b (simm o) st s
def execCLdD (a d : BitVec 5) (s : State) := load 8 false 2 d a 0 0 s

/-- `ld.acq` (R118): a zero-extended load behind which nothing issues before it has its value. -/
def execLdAcq (d b : BitVec 5) (z : BitVec 2) (_c : BitVec 3) (o : BitVec 6) (st : BitVec 3) (s : State) :
    Host.Outcome State Fault Refusal :=
  issue s coreOnly 4 st [useS b, useS d]
    (loadBody (sizeOf2 z) false true d (fun s => rd s b + simm o * BitVec.ofNat 64 (sizeOf2 z)) 4 st)

/-- May an instruction issue while loads of its context have no value yet? Only a plain load whose base register none of them
writes, and none behind an `ld.acq`; every other instruction waits until they have taken effect. -/
def passesLoads (c : Ctx) (i : Instr) : Bool :=
  let free := fun (b : BitVec 5) => c.loads.all fun x => !x.acq && x.d ≠ b
  match i with
  | .ldB _ b _ _ _ | .ldH _ b _ _ _ | .ldW _ b _ _ _ | .ldD _ b _ _ | .ldAcq _ b _ _ _ _ | .cLdD b _ => free b
  | _ => false

/-! ### Stores -/

/-- A memory-order word of a copy: MCH of request word 3 (R157). -/
def w3Mch (w : Word) : Nat := bits w 3 2

/-- R139, R144: the channel and path of a store entering the buffer, from the open port and `STPATH`. -/
def routeOf (s : State) (a loc : Nat) : Nat × Nat :=
  let c := getCtx s a
  if !isSlice loc then (0, 0)
  else match (getCore s (coreOf a)).port with
    | some p => if p.ctx = a ∧ p.tile = sliceTile loc then (3, 0) else pathOf c
    | none => pathOf c
where
  pathOf (c : Ctx) : Nat × Nat :=
    if sliceTile loc = tileOf a then (0, 0)
    else if bits c.stpath 3 2 = 0 then (0, 0) else (2, bits c.stpath 1 0)

/-- Is this target steered by `STPATH`? -/
def steered (a loc : Nat) : Bool := isSlice loc && sliceTile loc ≠ tileOf a

/-- R139: in mode 10, PATH advances as the store instruction's last entry enters the buffer; also for a store to a slice of
another tile that leaves through an open stream port. DESIGN CHOICE, log entry 22. -/
def rotatePath (s : State) (any : Bool) : State :=
  if any && bits s.cur.stpath 3 2 = 2 then
    { s with cur := { s.cur with stpath := setBits s.cur.stpath 1 0 (bits s.cur.stpath 1 0 + 1) } }
  else s

/-- One entry enters the buffer of the focus. DESIGN CHOICE, log entry 22. -/
def pushEntry (s : State) (l : Landing) (body : Payload) (ordered : Bool) : State :=
  let r := routeOf s s.who l.loc
  let e : StoreEntry := { loc := l.loc, body := body, ordered := ordered, chan := r.1, path := r.2, seq := s.cur.seqNext,
                          leaf := l.leaf, tag := tagOf s s.who, page := l.page }
  { s with cur := { s.cur with buf := s.cur.buf ++ [e], seqNext := s.cur.seqNext + 1 } }

/-- R113: 16 entries. -/
def bufFull (s : State) : Bool := 16 ≤ s.cur.buf.length

/-- A scalar store of n bytes of d. -/
def storeBody (n : Nat) (d : BitVec 5) (ea : State → Word) (ordered : Bool) (s : State) : Body :=
  match checkAccess s s.who (ea s) n 1 with
  | .error t => .trap t
  | .ok l =>
    if bufFull s || pageHeld s s.who l then .wait s .stalled else
    .done (rotatePath (pushEntry l.st l (.store (toBytes n (rd s d).toNat) false) ordered) (steered s.who l.loc)) []

def store (n : Nat) (len : Nat) (d b : BitVec 5) (f : BitVec 1) (o : Word) (st : BitVec 3) (s : State) :
    Host.Outcome State Fault Refusal :=
  issue s coreOnly len st [useS b, useS d] (storeBody n d (fun s => rd s b + o * BitVec.ofNat 64 n) (f = 1))

def execStB (d b : BitVec 5) (f : BitVec 1) (o : BitVec 9) (st : BitVec 3) (s : State) := store 1 4 d b f (simm o) st s
def execStH (d b : BitVec 5) (f : BitVec 1) (o : BitVec 9) (st : BitVec 3) (s : State) := store 2 4 d b f (simm o) st s
def execStW (d b : BitVec 5) (f : BitVec 1) (o : BitVec 9) (st : BitVec 3) (s : State) := store 4 4 d b f (simm o) st s
def execStD (d b : BitVec 5) (f : BitVec 1) (o : BitVec 9) (st : BitVec 3) (s : State) := store 8 4 d b f (simm o) st s
def execCStD (a d : BitVec 5) (s : State) := store 8 2 d a 0 0 0 s

/-- R116: STORE_FAIL precedes every other check of the instructions that report failed stores. -/
def storeFailFirst (s : State) (k : State → Host.Outcome State Fault Refusal) : Host.Outcome State Fault Refusal :=
  if bits s.cur.sterr 63 63 = 1 ∧ kindOf s.who = 0 then .next (raise s { code := 0x12 }) else k s

/-- R118, R124, R323: a release at a scope up to the die leaves its mark in the order of stores: what enters the buffer after it
leaves after the stores it covers. A mark before which nothing is left on its way goes. -/
def Ctx.mark (c : Ctx) (live : Nat → Bool) : Ctx := { c with rels := c.rels.filter live ++ [c.seqNext] }
def markRelease (s : State) : State :=
  { s with cur := s.cur.mark fun r => unacked s s.who fun e => isStoreOrSend e && e.seq < r }

/-- `st.rel` (R118): a release at its scope, then a store. -/
def execStRel (d b : BitVec 5) (z : BitVec 2) (c : BitVec 3) (o : BitVec 6) (st : BitVec 3) (s : State) :
    Host.Outcome State Fault Refusal :=
  storeFailFirst s fun s =>
    issue s coreOnly 4 st [useS b, useS d] fun s =>
      match storeBody (sizeOf2 z) d (fun s => effAddr (rd s b) o (sizeOf2 z)) false s with
      | .done t l => if releaseBlocked s s.who c then .wait s .stalled else
        .done { t with cur := { t.cur with rels := (markRelease s).cur.rels } } l
      | r => r

/-! ### Atomics (R121 to R123) -/

/-- The new value of an atomic: op code of R30, width in bits, old value, operand, comparison value. -/
def amoNew (op w old b cmp : Nat) : Nat :=
  let sm := fun (x : Nat) => signed w x
  match op with
  | 0 => (old + b) % 2 ^ w
  | 1 => Nat.land old b
  | 2 => Nat.lor old b
  | 3 => Nat.xor old b
  | 4 => if sm b < sm old then b else old
  | 5 => if sm old < sm b then b else old
  | 6 => if b < old then b else old
  | 7 => if old < b then b else old
  | 8 => b
  | _ => if old = cmp then b else old

/-- The read and the write of an atomic at its home, one indivisible step; any atomic fires the line's monitors (R127). -/
def amoAt (s : State) (loc n op b cmp : Nat) : Nat × Nat × State :=
  match serveRead s loc n with
  | (0, bytes) =>
    let old := fromBytes bytes
    if op = 9 ∧ old ≠ cmp then (0, old, fireMonitors s (lineAt s loc))
    else (0, old, (serveWrite s loc (toBytes n (amoNew op (8 * n) old b cmp)) false).2)
  | (st, _) => (st, 0, s)

/-- An atomic of n bytes. -/
def atomic (op n : Nat) (d a b : BitVec 5) (c : BitVec 3) (st : BitVec 3) (s : State) : Host.Outcome State Fault Refusal :=
  issue s coreOnly 4 st [useS a, useS b, useS d] fun s =>
    match checkAccess s s.who (rd s a) n 2 with
    | .error t => .trap t
    | .ok l =>
      if !atomicPathOk s l.loc op c.toNat then .trap { code := 0x0E, access := 2, va := vaOf s (rd s a) }
      else if fullBlocked s s.who c || pageHeld s s.who l || boundFor s s.who l.loc (fun _ => true) || bankBusy s l.loc 4096 ||
          writeWaits s l.loc then
        .wait s .stalled
      else
        let va := vaOf s (rd s a)
        let s1 := countHot l.st l.loc (coreOf s.who) l.leaf
        let bv := (rd s b).toNat % 2 ^ (8 * n)
        let cmp := (rd s d).toNat % 2 ^ (8 * n)
        if homeOf s l.loc = some 25 then .wait s1 (.host d n false 4 st.toNat va l.loc (some (op, bv, cmp)))
        else match amoAt s1 l.loc n op bv cmp with
          | (0, old, s2) => .done (wr s2 d (BitVec.ofNat 64 old)) []
          | (1, _, _) => .keep (raise s1 { code := 0x10, access := 2, va := va })
          | (_, _, _) => .keep (raise s1 { code := 0x11, access := 2, va := va })

def execAmoAddW (d a b : BitVec 5) (c : BitVec 3) (st : BitVec 3) (s : State) := atomic 0 4 d a b c st s
def execAmoAndW (d a b : BitVec 5) (c : BitVec 3) (st : BitVec 3) (s : State) := atomic 1 4 d a b c st s
def execAmoOrW (d a b : BitVec 5) (c : BitVec 3) (st : BitVec 3) (s : State) := atomic 2 4 d a b c st s
def execAmoXorW (d a b : BitVec 5) (c : BitVec 3) (st : BitVec 3) (s : State) := atomic 3 4 d a b c st s
def execAmoMinW (d a b : BitVec 5) (c : BitVec 3) (st : BitVec 3) (s : State) := atomic 4 4 d a b c st s
def execAmoMaxW (d a b : BitVec 5) (c : BitVec 3) (st : BitVec 3) (s : State) := atomic 5 4 d a b c st s
def execAmoMinnW (d a b : BitVec 5) (c : BitVec 3) (st : BitVec 3) (s : State) := atomic 6 4 d a b c st s
def execAmoMaxnW (d a b : BitVec 5) (c : BitVec 3) (st : BitVec 3) (s : State) := atomic 7 4 d a b c st s
def execAmoSwapW (d a b : BitVec 5) (c : BitVec 3) (st : BitVec 3) (s : State) := atomic 8 4 d a b c st s
def execCasW (d a b : BitVec 5) (c : BitVec 3) (st : BitVec 3) (s : State) := atomic 9 4 d a b c st s
def execAmoAddD (d a b : BitVec 5) (c : BitVec 3) (st : BitVec 3) (s : State) := atomic 0 8 d a b c st s
def execAmoAndD (d a b : BitVec 5) (c : BitVec 3) (st : BitVec 3) (s : State) := atomic 1 8 d a b c st s
def execAmoOrD (d a b : BitVec 5) (c : BitVec 3) (st : BitVec 3) (s : State) := atomic 2 8 d a b c st s
def execAmoXorD (d a b : BitVec 5) (c : BitVec 3) (st : BitVec 3) (s : State) := atomic 3 8 d a b c st s
def execAmoMinD (d a b : BitVec 5) (c : BitVec 3) (st : BitVec 3) (s : State) := atomic 4 8 d a b c st s
def execAmoMaxD (d a b : BitVec 5) (c : BitVec 3) (st : BitVec 3) (s : State) := atomic 5 8 d a b c st s
def execAmoMinnD (d a b : BitVec 5) (c : BitVec 3) (st : BitVec 3) (s : State) := atomic 6 8 d a b c st s
def execAmoMaxnD (d a b : BitVec 5) (c : BitVec 3) (st : BitVec 3) (s : State) := atomic 7 8 d a b c st s
def execAmoSwapD (d a b : BitVec 5) (c : BitVec 3) (st : BitVec 3) (s : State) := atomic 8 8 d a b c st s
def execCasD (d a b : BitVec 5) (c : BitVec 3) (st : BitVec 3) (s : State) := atomic 9 8 d a b c st s

/-! ### Fences (R124 to R126) -/

/-- `fence.acq`: every earlier load has its value when a later instruction issues, so nothing is left to wait for. -/
def execFenceAcq (_c : BitVec 3) (st : BitVec 3) (s : State) : Host.Outcome State Fault Refusal :=
  issue s coreOnly 4 st [] fun s => .done s []
/-- R124: a release at a scope up to the die leaves its mark; beyond, every earlier store has been acknowledged. -/
def released (s : State) (c : BitVec 3) : State := if c.toNat ≤ 3 then markRelease s else s
def execFenceRel (c : BitVec 3) (st : BitVec 3) (s : State) : Host.Outcome State Fault Refusal :=
  storeFailFirst s fun s => issue s coreOnly 4 st [] fun s =>
    if releaseBlocked s s.who c then .wait s .stalled else .done (released s c) []
def execFenceFull (c : BitVec 3) (st : BitVec 3) (s : State) : Host.Outcome State Fault Refusal :=
  storeFailFirst s fun s => issue s coreOnly 4 st [] fun s =>
    if fullBlocked s s.who c then .wait s .stalled else .done s []
/-- `fence.ack` waits for the acknowledgement of every earlier store, then reports a failed one (R125). -/
def execFenceAck (st : BitVec 3) (s : State) : Host.Outcome State Fault Refusal :=
  storeFailFirst s fun s => issue s coreOnly 4 st [] fun s =>
    if unacked s s.who isStore then .wait s .stalled else .done s []

/-! ### Waiting on an address (R127, R128) -/

/-- R127: the conditions on m and b as w-bit values. -/
def waitCond (c : BitVec 3) (w m b : Nat) : Bool :=
  match c.toNat with
  | 0 => m ≠ b
  | 1 => m = b
  | 2 => m < b
  | 3 => b ≤ m
  | 4 => signed w m < signed w b
  | _ => signed w b ≤ signed w m

/-- One read of a `wait`: the condition holds, or the context sleeps behind a monitor, or polls where no monitor is held, on far-tier and host memory (R128). -/
def waitBody (addr b : Word) (c : BitVec 3) (z : BitVec 1) (st : BitVec 3) (s : State) : Body :=
  let n := if z = 1 then 8 else 4
  match checkAccess s s.who addr n 0 with
  | .error t => .trap t
  | .ok l =>
    let s1 := countHot l.st l.loc (coreOf s.who) l.leaf
    match loadBytes l.st s.who l n with
    | .val m =>
      if waitCond c (8 * n) (fromBytes m) (b.toNat % 2 ^ (8 * n)) then .done s1 []
      else if homeAt s l.loc = some 24 || homeAt s l.loc = some 25 then .wait s1 (.poll (2 * s.stamp + 1024) addr b c z st)
      else .wait { s1 with monitors := s1.monitors ++ [(lineAt s1 l.loc, s.who)] }
        (.monitor (lineAt s1 l.loc) false addr b c z st)
    | .stall => .wait s .stalled
    | .bad k => .keep (raise s1 { code := k, access := 0, va := vaOf s addr })
    | .host => .wait s1 (.poll (2 * s.stamp + 1024) addr b c z st)

def execWait (a b : BitVec 5) (c : BitVec 3) (z : BitVec 1) (st : BitVec 3) (s : State) :
    Host.Outcome State Fault Refusal :=
  issue s coreOnly 4 st [useS a, useS b] fun s => waitBody (rd s a) (rd s b) c z st s

/-- WAIT_WAKE: a sleeping `wait` whose monitor fired translates afresh, re-reads and re-arms (R127, R128). -/
def execWaitWake (ctx : Nat) (s : State) : Host.Outcome State Fault Refusal :=
  match (getCtx s ctx).wait with
  | .monitor _ true addr b c z st => .next (withFocus s ctx fun s => retire s 4 st (waitBody addr b c z st s))
  | _ => .next s

/-- WAIT_POLL: a `wait` on far-tier or host memory re-reads every 1,024 cycles (R128). For host memory the completion of the
read comes as HOST_COMPLETION, so the poll renews itself here. -/
def execWaitPoll (ctx : Nat) (s : State) : Host.Outcome State Fault Refusal :=
  match (getCtx s ctx).wait with
  | .poll next addr b c z st =>
    if next ≤ 2 * s.stamp then .next (withFocus s ctx fun s => retire s 4 st (waitBody addr b c z st s)) else .next s
  | _ => .next s

/-! ### Prefetch (R129) -/

/-- The leaf a hint finds: from the TLBs, or a walk that fills them whatever it permits. -/
def hintLeaf (s : State) (core : Nat) (troot : Word) (va : VAddr) : Option (TlbEntry × State) :=
  let tag := bits troot 63 52
  match (getCore s core).tlb.find? (·.hits tag va.toNat) with
  | some e => some (e, s)
  | none => match (getCluster s (core / 64)).tlb.find? (·.hits tag va.toNat) with
    | some e => some (e, fillTlb s core e)
    | none => match walk s va.toNat 6 5 (bits troot 51 8 * 256) with
      | .ok l => let e := mkEntry s tag va.toNat l; some (e, fillTlb s core e)
      | .error _ => none

/-- R364: a hint whose walk has found a leaf waits for the access table beside it. -/
def hintWaits (s : State) (core : Nat) (troot : Word) (va : VAddr) : Bool :=
  let hits := fun (l : List TlbEntry) => l.any (·.hits (bits troot 63 52) va.toNat)
  mtabFar s && !hits (getCore s core).tlb && !hits (getCluster s (core / 64)).tlb && (hintLeaf s core troot va).isSome

/-- `pf` never traps on its operand; kind 1 also sends the page's home a hint, which counts it. DEDUCED, log entry 59. -/
def execPf (a : BitVec 5) (k : BitVec 1) (st : BitVec 3) (s : State) : Host.Outcome State Fault Refusal :=
  issue s coreOnly 4 st [useS a] fun s =>
    let va := vaOf s (rd s a)
    if isSliceVA va then .done s [] else
    if hintWaits s (coreOf s.who) s.cur.troot va then .wait s .stalled else
    match hintLeaf s (coreOf s.who) s.cur.troot va with
    | none => .done s []
    | some (e, s1) =>
      let pa := e.frame + va.toNat % 2 ^ e.log
      .done (if k = 1 then countHot s1 pa (coreOf s.who) e.leaf else s1) []

end Sys2Proof.Machine
end

