-- ==== Sys2Proof/Machine/Mesh.lean ====
section
/-! DEFINITION. The mesh and the homes as events: an entry leaves a store buffer (R113, R141, R322), a home serves a request
(R71, R72, R115), acknowledgements and replies return (R116, R114, R140), and the host window's completions (R363). -/

namespace Sys2Proof.Machine

open Sys2Proof

/-- The destination tile of a store or send to slice space. -/
def destTile (e : StoreEntry) : Option Nat := if isSlice e.loc then some (sliceTile e.loc) else none

/-- R141: a marked entry waits for earlier stores to its tile, channel 0 behind channel 0 excepted; a record that waits there for room
has been delivered (R277, R289). -/
def orderedBlocked (s : State) (a : Nat) (e : StoreEntry) : Bool :=
  e.ordered && isSlice e.loc &&
    underWay s a (fun x => (isStoreOrSend x) && destTile x = destTile e && !(x.chan = 0 && e.chan = 0))

/-- R322: a die-local channel-0 entry waits for the acknowledgement of earlier channel-0 entries to other homes of its die, also of a
send whose record waits for room (R277). -/
def onDie (s : State) (a : Nat) (e : StoreEntry) : Bool := nearAt s a e.loc
def dieLocal (s : State) (a : Nat) (e : StoreEntry) : Bool := e.chan = 0 && onDie s a e
def storeOrderBlocked (s : State) (a : Nat) (e : StoreEntry) : Bool :=
  dieLocal s a e && inFlight s a (fun x => isStoreOrSend x && !isRemote x && dieLocal s a x && homeAt s x.loc ≠ homeAt s e.loc)

/-- R118, R124, R323: an entry behind a release at a scope up to the die waits for the stores that the release covers, but for
those that channel 0 keeps before it on the way to its own home. -/
def releaseOrderBlocked (s : State) (a : Nat) (e : StoreEntry) : Bool :=
  (getCtx s a).rels.any fun r => decide (r ≤ e.seq) &&
    inFlight s a fun x => isStoreOrSend x && decide (x.seq < r) && !isRemote x && onDie s a x &&
      !(x.chan = 0 && e.chan = 0 && homeAt s x.loc = homeAt s e.loc)

/-- R144: port traffic, an `axst` with an element in the port's tile among it, waits for its route, and a store for the copies
that joined the port's stream before it. -/
def routeBlocked (s : State) (a : Nat) (e : StoreEntry) : Bool :=
  e.chan = 3 && ((match (getCore s (coreOf a)).port with
  | some p => !p.routed
  | none => false) ||
  (getCore s (coreOf a)).fifo.any fun x => x.ctx = a && w3Mch x.w3 = 3 && !x.moved && decide (x.order ≤ e.seq))

/-- An `axst` has elements at many homes; it travels alone among its context's stores and `mreq`s. DEDUCED, log entry 27. -/
def axstBlocked (s : State) (a : Nat) (e : StoreEntry) : Bool :=
  inFlight s a isAxstEntry || (isAxstEntry e && inFlight s a fun x => isMreq x || (isStoreOrSend x && !isRemote x))

/-- May the oldest entry of an agent's buffer leave? -/
def mayDrain (s : State) (a : Nat) (e : StoreEntry) : Bool :=
  !orderedBlocked s a e && !storeOrderBlocked s a e && !releaseOrderBlocked s a e && !routeBlocked s a e && !axstBlocked s a e

/-- SENT of the entry's path counts n more (R140). -/
def bumpSent (c : Ctx) (p n : Nat) : Ctx :=
  { c with pathdone := Vector.ofFn fun k =>
      if k.val = p then setBits c.pathdone[k] 63 32 (bits c.pathdone[k] 63 32 + n) else c.pathdone[k] }
def bumpDone (c : Ctx) (p n : Nat) : Ctx :=
  { c with pathdone := Vector.ofFn fun k =>
      if k.val = p then setBits c.pathdone[k] 31 0 (bits c.pathdone[k] 31 0 + n) else c.pathdone[k] }

/-- Two registers of one `vst` that together cover one whole aligned line leave as one write of it (R115). -/
def linePair (e f : StoreEntry) : Option StoreEntry :=
  match e.body, f.body with
  | .store d true, .store d' true =>
    if e.loc % 64 = 0 ∧ f.loc = e.loc + 32 ∧ d.length = 32 ∧ d'.length = 32 ∧ f.seq = e.seq + 1 then
      some { e with body := .store (d ++ d') true }
    else none
  | _, _ => none

/-- An entry goes onto the mesh, or onto a Goldex stream for a remote send. -/
def leaveBuffer (s : State) (a : Nat) (e : StoreEntry) (rest : List StoreEntry) (n : Nat) : State :=
  let c := getCtx s a
  let c := { c with buf := rest }
  let c := if e.chan = 2 then bumpSent c e.path n else c
  let s := putCtx s a c
  match e.body with
  | .remote h r =>
    -- R369: a send that names this device stays in it
    if bits h 52 34 = bits s.dev.gxcfg 18 0 then sendMsg s a { e with loc := homeLoc (bits h 13 0) 0xC000 }
    else { s with remotes := s.remotes ++ [⟨a, h, r, none, s.stamp, e.seq⟩] }
  | _ => sendMsg s a e

/-- STORE_BUFFER_DRAIN. -/
def execStoreBufferDrain (ctx : Nat) (s : State) : Host.Outcome State Fault Refusal :=
  match (getCtx s ctx).buf with
  | [] => .next s
  | e :: rest =>
    if !mayDrain s ctx e then .next s else
    match rest with
    | f :: rest' => match linePair e f with
      | some p => .next (leaveBuffer s ctx p rest' 2)
      | none => .next (leaveBuffer s ctx e rest 1)
    | [] => .next (leaveBuffer s ctx e [] 1)

/-! ### Service -/

/-- R328: a non-posted read of host memory pushes the posted writes of port 0's queue before it. DESIGN CHOICE, log entry 10.
-/
def deliverPosted (s : State) : State :=
  { s.posted.foldl (fun s w => writeBytes s w.1 w.2) s with posted := [] }

/-- R134: traffic within a cluster is delivered in order whatever its channel. -/
def sameCluster (a : Nat) (e : StoreEntry) : Bool := match destTile e with
  | some t => t / 16 = clusterOf a
  | none => false

/-- Bytes that a message reads or writes from its location on. -/
def reach (e : StoreEntry) : Nat := match e.body with
  | .store d _ | .mreqWrite _ d => d.length
  | .load n _ => n
  | .mreqRead _ => 64
  | _ => 0

/-- Do two messages touch a common location, as it stands now? -/
def overlaps (s : State) (x y : StoreEntry) : Bool :=
  decide (forwarded s x.loc < forwarded s y.loc + reach y) && decide (forwarded s y.loc < forwarded s x.loc + reach x)

/-- R321, R327: a channel-0 store or send of a context that went to a home on its die, or whose page has passed there since: it
stays in store order with the context's others although the pages of both move. -/
def ordered0 (s : State) (a : Nat) (e : StoreEntry) : Bool :=
  isStoreOrSend e && e.chan = 0 && decide (a < deviceBase) && (onDie s a e || (homeOf s e.loc).any fun h => homeDie h = dieOf a)

/-- R136, R134, R72, R74, R319: must message m be served after an earlier message k of the same source: to one home in the order of
its channel, to one tile of the cluster in any case, to one location in any case, in store order, and an `mreq` after every store. One
that has arrived and waits for room holds back only what stays behind it (R277, R289). -/
def behind (s : State) (m : Msg) (k : Msg × Bool) : Bool :=
  k.1.src = m.src && ((staysBehind s m k.1 && isRemote m.entry) || (((homeAt s k.1.entry.loc = homeAt s m.entry.loc &&
    (sameCluster m.src m.entry || (k.1.entry.chan = m.entry.chan && m.entry.chan ≠ 2))) || overlaps s m.entry k.1.entry ||
      (ordered0 s m.src k.1.entry && ordered0 s m.src m.entry) || (isMreq m.entry && isStore k.1.entry)) &&
    (staysBehind s m k.1 || !k.2)))

/-- R73: requests to one row of main memory are served in the order in which they came, whoever sent them. -/
def sameRow (s : State) (m k : Msg) : Bool :=
  !isSlice m.entry.loc && !isSlice k.entry.loc && decide (reach m.entry ≠ 0 ∧ reach k.entry ≠ 0) &&
    rowOf (forwarded s k.entry.loc) = rowOf (forwarded s m.entry.loc)

/-- May message i of the mesh be served now? -/
def mayServe (s : State) (i : Nat) (m : Msg) : Bool :=
  !((arrived s).take i).any (fun k => behind s m k || sameRow s m k.1) && !bankBusy s m.entry.loc 4096 &&
    !(match m.entry.body with
      | .load _ _ | .mreqRead _ => farWaits s m.entry.loc
      | _ => writeWaits s m.entry.loc)

def dropMsg (s : State) (i : Nat) : State := { s with net := s.net.eraseIdx i }
def reply (s : State) (m : Msg) (status : Nat) (data : List Byte) (spots : List Nat := []) : State :=
  { s with replies := s.replies ++ [⟨m.src, m.entry, data, status, spots⟩] }

/-- R188: the physical index of a logical index under a map, as positions by logical bit. -/
def physIndex (map : List Nat) (x : Nat) : Nat :=
  (List.range map.length).foldl (fun acc l => if x.testBit l then acc + 2 ^ (map.getD l 0) else acc) 0

/-- The store of these bytes as its home does it: host memory takes it into port 0's queue (R328). -/
def storeAt (s : State) (loc core leaf : Nat) (d : List Byte) (whole : Bool) : Nat × State :=
  if homeOf s loc = some 25 then (0, { s with posted := s.posted ++ [(loc, d)] })
  else serveWrite (countHot s loc core leaf) loc d whole

/-- R322: the home marks a line that it served to a deferred load, from the load's die or another. -/
def markServed (c : Ctx) (slot : Nat) (near : Bool) : Ctx :=
  { c with loads := c.loads.map fun x => if x.id = slot then { x with served := true, local1 := near } else x }

/-- HOME_REQUEST: stores, `axst` elements, loads and `mreq`s; other messages have events of their own. Of an `axst` that failed
the acknowledgement, which comes from the homes of all its elements, names the first element that did. DEDUCED, log entry 27. -/
def serveMsg (place : State → StoreEntry → Nat → Option (Nat × Nat)) (s : State) (m : Msg) : State :=
  let core := coreOf m.src
  match m.entry.body with
  | .store d line =>
    let r := storeAt s m.entry.loc core m.entry.leaf d (line && d.length = 64)
    reply r.2 m r.1 []
  | .axst _ z _ d =>
    let n := if z = 0 then 0 else d.length / z
    let r := (List.range n).foldl (fun (acc : (Nat × Nat × List Nat) × State) i =>
      match place acc.2 m.entry i with
      | some (loc, leaf) =>
        let w := storeAt acc.2 loc core leaf (slice d (z * i) z) false
        (if acc.1.1 = 0 ∧ w.1 ≠ 0 then (w.1, loc, loc :: acc.1.2.2) else (acc.1.1, acc.1.2.1, loc :: acc.1.2.2), w.2)
      | none => acc) ((0, m.entry.loc, []), s)
    reply r.2 { m with entry := { m.entry with loc := r.1.2.1 } } r.1.1 [] r.1.2.2
  | .load n slot =>
    let s := countHot s m.entry.loc core m.entry.leaf
    let r := serveRead s m.entry.loc n
    reply (putCtx s m.src (markServed (getCtx s m.src) slot (onDie s m.src m.entry))) m r.1 r.2
  | .mreqRead _ =>
    let s := countHot s m.entry.loc core m.entry.leaf
    let r := serveRead s m.entry.loc 64
    reply s m r.1 r.2
  | .mreqWrite _ d =>
    let r := serveWrite (countHot s m.entry.loc core m.entry.leaf) m.entry.loc d false
    reply r.2 m r.1 []
  | _ => s

/-- Does HOME_REQUEST serve this message? -/
def isHomeMsg (m : Msg) : Bool := match m.entry.body with
  | .store _ _ | .axst _ _ _ _ | .load _ _ | .mreqRead _ | .mreqWrite _ _ => true
  | _ => false

/-! ### Acknowledgements and replies -/

/-- R116: a failed store is recorded in STERR; a second one sets OVER. -/
def recordFailure (c : Ctx) (e : StoreEntry) (status : Nat) : Ctx :=
  if bits c.sterr 63 63 = 1 then { c with sterr := setBits c.sterr 62 62 1 }
  else
    let pa := if isSlice e.loc then e.loc - sliceBase else e.loc
    { c with sterr := BitVec.ofNat 64 (2 ^ 63 + status * 2 ^ 60 + (if isSlice e.loc then 2 ^ 52 else 0) + pa) }

def dropReply (s : State) (i : Nat) : State := { s with replies := s.replies.eraseIdx i }

/-- R136: do two replies leave one source for one destination, a tile or, for the replies of `mreq`s, a core's inbox? -/
def sameWay (s : State) (r q : Reply) : Bool :=
  (r.homes s).any (q.homes s).contains && isMreq r.entry = isMreq q.entry &&
    (if isMreq r.entry then coreOf r.dst = coreOf q.dst else tileOf r.dst = tileOf q.dst)

/-- R136: the reply at a place of channel 1, once none is before it on its way. -/
def replyAt (s : State) (i : Nat) : Option Reply :=
  (s.replies[i]?).filter fun r => !(s.replies.take i).any (sameWay s r)

/-- STORE_ACK. -/
def execStoreAck (i : Nat) (s : State) : Host.Outcome State Fault Refusal :=
  match replyAt s i with
  | none => .next s
  | some r =>
    match r.entry.body with
    | .store d _ =>
      let c := getCtx s r.dst
      let c := if r.entry.chan = 2 then bumpDone c r.entry.path (if d.length = 64 then 2 else 1) else c
      let c := if r.status = 0 then c else recordFailure c r.entry r.status
      .next (putCtx (dropReply s i) r.dst c)
    | .axst _ _ _ _ =>
      let c := getCtx s r.dst
      let c := if r.status = 0 then c else recordFailure c r.entry r.status
      .next (putCtx (dropReply s i) r.dst c)
    | .record _ _ | .remote _ _ | .barArrive _ _ _ | .barRelease _ _ => .next (dropReply s i)
    | _ => .next s

/-- The reply of a deferred load reaches its slot. -/
def slotReply (c : Ctx) (slot status v : Nat) : Ctx :=
  { c with loads := c.loads.map fun x => if x.id = slot then { x with val := some (status, v) } else x }

/-- LOAD_REPLY: a load's reply reaches its context, where loads take effect in order (R114, R322). -/
def execLoadReply (i : Nat) (s : State) : Host.Outcome State Fault Refusal :=
  match replyAt s i with
  | none => .next s
  | some r => match r.entry.body with
    | .load _ slot =>
      .next (withFocus (dropReply s i) r.dst fun s =>
        commitLoads { s with cur := slotReply s.cur slot r.status (fromBytes r.data) } s.cur.loads.length)
    | _ => .next s

/-- Is this entry the request of a context's load slot? -/
def isSlot (slot : Nat) (e : StoreEntry) : Bool := match e.body with
  | .load _ k => k = slot
  | _ => false

/-- A load whose value is discarded goes to its home again. -/
def resend (s : State) (a : Nat) (x : LoadSlot) : State :=
  let c := getCtx s a
  let c := { c with loads := c.loads.map fun y =>
    if y.id = x.id then { y with served := false, val := none, noticed := false } else y }
  let s := putCtx { s with replies := s.replies.filter fun r => !(r.dst = a && isSlot x.id r.entry) } a c
  sendMsg s a { loc := x.loc, leaf := x.leaf, body := .load x.size x.id }

/-- REPLAY_NOTICE: a write came to a line that its home had marked; the value served is discarded and the load performed
again (R322), once no buffered store of its context covers a byte of it (R113). -/
def execReplayNotice (ctx : Nat) (s : State) : Host.Outcome State Fault Refusal :=
  match (getCtx s ctx).loads.find? (·.noticed) with
  | some x =>
    if (getCtx s ctx).buf.any fun e => overlaps s e { loc := x.loc, body := .load x.size x.id } then .next s else .next (resend s ctx x)
  | none => .next s

/-- The host's part of a PCIe AtomicOp, whose old value the completion carries (R123, R361). -/
def hostAmo (s : State) (at1 n old : Nat) : Option (Nat × Nat × Nat) → State
  | none => s
  | some (op, b, cmp) =>
    if op = 9 ∧ old ≠ cmp then s else writeBytes s at1 (toBytes n (amoNew op (8 * n) old b cmp))

/-- The completion of the oldest read of host memory that an engine makes on a context's behalf. -/
def engCompletion (s : State) (ctx status : Nat) (data : BitVec 512) : State :=
  let c := getCtx s ctx
  match c.engWant with
  | [] => s
  | (key, loc) :: t =>
    putCtx (deliverPosted s) ctx { c with engWant := t, engHost := c.engHost ++ [(key, loc, status, data.toNat % 2 ^ 64)] }

/-- Is a `wait` of a context polling host memory? One whose word its own buffered stores cover reads there (R113). -/
def pollsHost (s : State) (ctx : Nat) (addr : Word) (n : Nat) : Bool :=
  match checkAccess s ctx addr n 0 with
  | .error t => t.waits
  | .ok l => homeOf s l.loc = some 25 && match ownBytes s ctx l n with
    | .none => true
    | _ => false

/-- What the context has of host memory once a completion brings its bytes. A word of data joins the others. A word of code comes
with up to seven words that it had, each read anew at the same instant, the last one asked for in the low bits: the parcels of
one fetch are of one version (R46); a word whose completion failed stays so. -/
def hostFilled (got : List (Nat × Nat)) (at1 access data : Nat) : List (Nat × Nat) :=
  let word := fun k => data / 2 ^ (64 * k) % 2 ^ 64
  if access = 3 then
    let n := got.length - 7
    got.take n ++ (at1, word 0) :: ((got.drop n).zipIdx.map fun x =>
      if 2 ^ 64 ≤ x.1.2 then x.1 else (x.1.1, word (x.2 + 1)))
  else got ++ [(at1, word 0)]

/-- HOST_COMPLETION: status 0 carries data, 1 is a poisoned completion (DATA_POISON), any other an Unsupported Request or
Completer Abort (MEMORY_RANGE). A failed word of code is kept as such, for the fetch to fault on where it counts (R25, R45);
the parcels of the device near the pc are seen at the instant at which a word of code comes (R46). It ends a load or an atomic, gives an instruction a word that it needs, lets a `wait` on host
memory test its condition, or answers an engine (R363, R128). DESIGN CHOICE, log entry 10. -/
def execHostCompletion (ctx : Nat) (status : Nat) (data : BitVec 512) (s : State) : Host.Outcome State Fault Refusal :=
  match (getCtx s ctx).wait with
  | .host d n sx len st va at1 amo =>
    .next (withFocus (deliverPosted s) ctx fun s =>
      let v := data.toNat % 256 ^ n
      if status = 0 then retire s len (BitVec.ofNat 3 st) (.done (wr (hostAmo s at1 n v amo) d (extend sx n v)) [])
      else raiseIn { s with cur := { s.cur with wait := .ready } } (hostTrap status (if amo.isSome then 2 else 0) va))
  | .hostFill at1 access va =>
    .next (withFocus (deliverPosted s) ctx fun s =>
      if status = 0 then { s with cur := { s.cur with
          hostGot := hostFilled s.cur.hostGot at1 access data.toNat
          codeAt := if access = 3 then codeNow s else s.cur.codeAt
          wait := .ready } }
      else if access = 3 then { s with cur := { s.cur with
          hostGot := s.cur.hostGot ++ [(at1, 2 ^ 64 + status)]
          codeAt := if s.cur.codeAt = [] then codeNow s else s.cur.codeAt
          wait := .ready } }
      else raiseIn { s with cur := { s.cur with wait := .ready } } (hostTrap status access va))
  | .poll _ addr b c z st =>
    let n := if z = 1 then 8 else 4
    .next (withFocus s ctx fun s =>
      if !pollsHost s ctx addr n then engCompletion s ctx status data
      else if status ≠ 0 then raiseIn { s with cur := { s.cur with wait := .ready } } (hostTrap status 0 (vaOf s addr))
      else if waitCond c (8 * n) (data.toNat % 2 ^ (8 * n)) (b.toNat % 2 ^ (8 * n)) then retire s 4 st (.done s [])
      else s)
  | _ => .next (engCompletion s ctx status data)

/-- ROW_RESERVATION_TIMEOUT: 2,048 cycles after the holder's last access the reservation ends (R73). -/
def execRowReservationTimeout (i : Nat) (s : State) : Host.Outcome State Fault Refusal :=
  match s.reserved[i]? with
  | some r => if r.last + 2048 ≤ 2 * s.stamp then .next { s with reserved := s.reserved.eraseIdx i } else .next s
  | none => .next s

/-- R377: an event waits for Plebex to post it. DEDUCED, log entry 51. -/
def logEvent (s : State) (source code detail : Nat) : State :=
  { s with events := s.events ++ [⟨s.stamp, source, code, detail⟩] }

/-- The event source of a home (R377). -/
def homeSource (h : Nat) : Nat := if h ≤ 24 then 0x5000 + h else 0x5200

/-- SOFT_ERROR: an uncorrectable error poisons its line and is logged; a corrected one is only logged. A poisoned line of a
Moving page's destination that the motion has written aborts the motion elsewhere (R80, cause 1). A slice is no party of R377's table:
its SOURCE is the first core of its tile; DETAIL is the line's address. DESIGN CHOICE, log entry 51. -/
def softError (s : State) (loc : Nat) (corrected : Bool) : State :=
  let src := match homeOf s loc with
    | some h => if 100 ≤ h then 4 * (h - 100) else homeSource h
    | none => 0x5200
  if corrected then logEvent s src 4 loc else logEvent (setPoison s loc true) src 5 loc

end Sys2Proof.Machine
end

