-- ==== Sys2Proof/Machine/Tasks.lean ====
section
/-! DEFINITION. Records, inboxes, the spill ring and counters (R276 to R278), the choice and start of tasks (R279 to R281),
barriers (R282, R285), the task instructions (R283 to R287), and the waits that end by events. -/

namespace Sys2Proof.Machine

open Sys2Proof

/-! ### Taking a record -/

/-- The oldest record of an inbox and the state with it taken: the oldest spilled record of that inbox moves in. -/
def takeInbox (s : State) (core : Nat) (pri : Bool) : Option (TaskRec × State) :=
  let t := takenOf s core pri
  let a := arrivedOf s core pri
  if a ≤ t then none else
  let r := parseRec (readBytes s (inboxLoc core pri t) 80)
  let c := getCore s core
  let r := { r with
    mrstat := (c.mrInfo.find? fun x => x.1 = priIx pri && x.2.1 = t).map (·.2.2)
    pager := c.pagerInfo.any fun x => x.1 = priIx pri && x.2 = t }
  let c := { c with
    mrInfo := c.mrInfo.filter fun x => !(x.1 = priIx pri && x.2.1 = t)
    pagerInfo := c.pagerInfo.filter fun x => !(x.1 = priIx pri && x.2 = t) }
  let (r, c) := giveGate c (priIx pri) t r
  let s := putCore s core c
  let s := sysWrite s (homeLoc core (takenOff pri)) 8 (t + 1)
  let s := match recordRegion s core with
    | none => s
    | some g => match g.spillOf core pri with
      | [] => s
      | x :: l =>
        let n := a - (l.length + 1)
        let s := putInbox s core pri n (readBytes s (rcbField s g.rcb 0x20 8 + 128 * x.slot) 80) x.task
        putRegion s { g with spill := g.spill.filter (· ≠ x) }
  some (r, s)

/-! ### The deque (R281, R284) -/

def dqTop (s : State) (core : Nat) : Nat := readNat s (homeLoc core 0xD420) 8
def dqBottom (s : State) (core : Nat) : Nat := readNat s (homeLoc core 0xD428) 8
def dqLoc (core n : Nat) : Nat := homeLoc core (0xD800 + 80 * (n % 16))

/-- The owner takes its newest record. -/
def takeDeque (s : State) (core : Nat) : Option (TaskRec × State) :=
  let b := dqBottom s core
  if b ≤ dqTop s core then none else
  let (r, c) := giveGate (getCore s core) 2 (b - 1) (parseRec (readBytes s (dqLoc core (b - 1)) 80))
  some (r, sysWrite (putCore s core c) (homeLoc core 0xD428) 8 (b - 1))

/-- A thief takes the oldest. -/
def stealDeque (s : State) (core : Nat) : Option (TaskRec × State) :=
  let t := dqTop s core
  if dqBottom s core ≤ t then none else
  let (r, c) := giveGate (getCore s core) 2 t (parseRec (readBytes s (dqLoc core t) 80))
  some (r, sysWrite (putCore s core c) (homeLoc core 0xD420) 8 (t + 1))

/-- R281: the cores a steal tries, in order. -/
def stealOrder (core : Nat) : List Nat :=
  let tile := core / 4
  ([1, 2, 3].map fun k => tile * 4 + (core + k) % 4) ++
    [1, 2, 3].flatMap fun k => (List.range 4).map fun c => (tile / 4 * 4 + (tile + k) % 4) * 4 + c

def firstSteal (s : State) (rcb : Nat) : List Nat → Option (TaskRec × State)
  | [] => none
  | c :: t =>
    if isPagerCore s c || (regionOf s c).map (·.1) ≠ some rcb then firstSteal s rcb t else
    match stealDeque s c with
    | some r => some r
    | none => firstSteal s rcb t

/-- R281: the next choice of an idle context, with or without steals. -/
def nextChoice (s : State) (a : Nat) (steals : Bool) : Option (TaskRec × State) :=
  let core := coreOf a
  if isHigh a then takeInbox s core true else
  match takeInbox s core false with
  | some r => some r
  | none => match takeDeque s core with
    | some r => some r
    | none =>
      if steals && !isPagerCore s core then match regionOf s core with
        | some (rcb, _) => firstSteal s rcb (stealOrder core)
        | none => none
      else none

/-- R324: locations that a scope covers, as far as stores on their way may be bound for: slices of the cluster, the die, or
all. The elements of an `axst` may be bound for any. -/
def covered (s : State) (a : Nat) (scope : Nat) (e : StoreEntry) : Bool :=
  isAxstEntry e || if scope ≤ 2 then sameCluster a e else if scope = 3 then onDie s a e else true
/-- Is a store or send that a release at a scope covers not yet acknowledged? Up to the die a record that waits for room has arrived
(R277). -/
def coveredBlocked (s : State) (a : Nat) (scope : Nat) (p : StoreEntry → Bool) : Bool :=
  (if scope ≤ 3 then pending else unacked) s a fun e => isStoreOrSend e && covered s a scope e && p e
/-- R284: the stores that a record's creator released have reached their homes. -/
def gateMet (s : State) (r : TaskRec) : Bool :=
  r.gate.all fun g => !coveredBlocked s g.1 2 fun e => e.seq < g.2

/-- R26: a high-priority arrival clears the span state of the low context. -/
def clearLowSpan (s : State) (a : Nat) : State :=
  if isHigh a && (getCtx s (a + 1)).span ≠ 0 then putCtx s (a + 1) { getCtx s (a + 1) with span := 0 } else s

/-- R279: a record enters a context: s24 to s31 and `MRSTAT`, no span, no loop level, and the handler's address; an entry
of 0, whose bit 0 is ignored, raises TASK_CLASS before the first instruction. -/
def startRecord (s : State) (a : Nat) (r : TaskRec) : State :=
  match regionOf s (coreOf a) with
  | none => s
  | some (rcb, _) =>
    let entry := rcbField s rcb 0x10 8 + 8 * r.cls.toNat
    let h := readNat s entry 8
    withFocus (clearLowSpan s a) a fun s =>
      let c := s.cur
      let regs := Vector.ofFn fun k => if 24 ≤ k.val then r.carried.toList.getD (k.val - 24) 0 else c.regs[k]
      let c := { c with
        regs := regs
        mrstat := r.mrstat.getD c.mrstat
        span := 0
        lpctl0 := setBits c.lpctl0 31 31 0
        lpctl1 := setBits c.lpctl1 31 31 0
        pc := BitVec.ofNat 64 (h / 2 * 2)
        run := .running
        wait := .ready
        pagerTask := r.pager }
      if h / 2 = 0 then enterTrap { s with cur := c } { code := 0x20, va := BitVec.ofNat 80 entry } 0
      else { s with cur := c }

/-- Is a region running on this core? -/
def coreRuns (s : State) (core : Nat) : Bool := match regionOf s core with
  | some (rcb, _) => match findRegion s rcb with
    | some g => g.state = 2
    | none => false
  | none => false

/-- Does its region hold this core, running or with Dusk saving it? Engines still finish what they have accepted (R358). -/
def coreLive (s : State) (core : Nat) : Bool := match regionOf s core with
  | some (rcb, _) => match findRegion s rcb with
    | some g => g.state = 2 || g.state = 6
    | none => false
  | none => false

/-- R364: what the start of a task on a core reads, its region's handler table and spill ring, lies where requests wait. -/
def startFar (s : State) (core : Nat) : Bool :=
  (regionOf s core).any fun g => rcbFar s g.1 [(0x10, 2048), (0x20, spillBytes s g.1)]

/-- An idle context takes its next choice, if there is one. -/
def tryStart (s : State) (a : Nat) : State :=
  if (getCtx s a).run = .idle ∧ !isEngine a ∧ coreRuns s (coreOf a) ∧ !startFar s (coreOf a) then
    match nextChoice s a true with
    | some (r, s') => if gateMet s r then startRecord s' a r else s
    | none => s
  else s

/-- TASK_START. -/
def execTaskStart (ctx : Nat) (s : State) : Host.Outcome State Fault Refusal := .next (tryStart s ctx)

/-! ### Counters and arrivals -/

/-- R278: the counter's address. -/
def counterLoc (core cid : Nat) : Nat := homeLoc core (0xE000 + 16 * (cid % 256))

/-- R278: Fire(CID). -/
def fire (s : State) (core cid : Nat) : State :=
  let at1 := counterLoc core cid
  let flags := readNat s (at1 + 13) 1
  let v := readNat s at1 8
  let s := sysWrite s (at1 + 13) 1 (flags % 2)
  post s core (flags % 2 = 1)
    { cls := BitVec.ofNat 8 (readNat s (at1 + 12) 1), cid := BitVec.ofNat 8 cid, src := BitVec.ofNat 16 core,
      carried := #v[BitVec.ofNat 64 v, BitVec.ofNat 64 cid, 0, 0, 0, 0, 0, 0] }

def countOf (s : State) (core cid : Nat) : Int := signed 32 (readNat s (counterLoc core cid + 8) 4)
def setCount (s : State) (core cid : Nat) (c : Int) : State :=
  sysWrite s (counterLoc core cid + 8) 4 ((c % 2 ^ 32).toNat)
def armed (s : State) (core cid : Nat) : Bool := readNat s (counterLoc core cid + 13) 1 / 2 % 2 = 1

/-- A counted record arrives: COUNT falls by one, saturating, and an armed counter at or below 0 fires. -/
def countRecord (s : State) (core cid : Nat) : State :=
  let c := max (countOf s core cid - 1) (-(2 ^ 31))
  let s := setCount s core cid c
  if armed s core cid ∧ c ≤ 0 then fire s core cid else s

/-- The saved region that a counted record for a core belongs to. -/
def savedFor (s : State) (rcb core : Nat) : Option Region :=
  (regionFor s rcb core).filter fun g => !(regionOf s core).any (·.1 = g.rcb)

/-- R276 to R278: the counted record of message m arrives at a core and is acknowledged; one for a saved region goes to its spill
ring, and is counted and acknowledged at the restore; none while that ring is full. One for a region that has ended is dropped. -/
def countArrival (s : State) (core : Nat) (r : TaskRec) (m : Msg) : Option State :=
  match savedFor s m.entry.rcb core with
  | some g => spillInto s g core r.pri r (some m)
  | none => some (reply (if m.entry.rcb ≠ 0 && (regionFor s m.entry.rcb core).isNone then s else countRecord s core r.cid.toNat) m 0 [])

/-! ### Records that name a device (R369) -/

/-- The record of a remote send, from a core of the sending device (R276). -/
def remoteRec (h : Word) (regs : Vector Word 8) (core : Nat) : TaskRec :=
  { cls := BitVec.ofNat 8 (bits h 23 16), cid := BitVec.ofNat 8 (bits h 31 24), pri := bits h 33 33 = 1, cnt := bits h 32 32 = 1,
    src := BitVec.ofNat 16 (2 ^ 14 + core), carried := regs }

/-- R369, R373: master G passes where the tile is owned and takes remote records. -/
def remoteOpen (s : State) (core : Nat) : Bool :=
  let o := (getTile s (core / 4)).slown
  bits o 63 63 = 1 && bits o 60 60 = 1

/-- A remote record at its destination: the reason of its refusal (0 for none) and the state with it accepted; none when it
must wait there, as a counted one does while its region is saved (R276). -/
def acceptRemote (s : State) (h : Word) (regs : Vector Word 8) (src : Nat) : Option (Nat × State) :=
  let core := bits h 13 0
  if !remoteOpen s core then some (2, s)
  else
    let r := remoteRec h regs src
    if r.cnt then (if (savedFor s 0 core).isSome then none else some (0, countRecord s core r.cid.toNat))
    else match recordRegion s core with
      | none => some (2, s)
      | some g => (acceptNext s g core r.pri r).map (0, ·)

/-- R369, R377: a bounce of a send by context a goes to its core's high inbox and is logged. -/
def bounce (s : State) (a : Nat) (h : Word) (reason : Nat) : State :=
  post (logEvent s (coreOf a) 7 h.toNat) (coreOf a) true
    { cls := BitVec.ofNat 8 (bits s.dev.gxcfg 27 20), src := BitVec.ofNat 16 (2 ^ 14 + coreOf a),
      carried := #v[h, BitVec.ofNat 64 reason, 0, 0, 0, 0, 0, 0] }

/-- A remote send of message m that names this device: accepted or bounced, and acknowledged; none while it waits. -/
def arriveLocal (s : State) (i : Nat) (m : Msg) (h : Word) (regs : Vector Word 8) : Option State :=
  let r := remoteRec h regs (coreOf m.src)
  if r.cnt && remoteOpen s (bits h 13 0) then countArrival (dropMsg s i) (bits h 13 0) r m else
  (acceptRemote (dropMsg s i) h regs (coreOf m.src)).map fun (reason, s) =>
    reply (if reason = 0 then s else bounce s m.src h reason) m 0 []

/-- RECORD_ARRIVAL: message i, a record that is not counted, is accepted and acknowledged; one whose region has ended since
it was sent is acknowledged and dropped. -/
def execRecordArrival (i : Nat) (s : State) : Host.Outcome State Fault Refusal :=
  match s.net[i]? with
  | some m => match m.entry.body with
    | .record core r =>
      if r.cnt || !mayServe s i m then .next s
      else match regionFor s m.entry.rcb core.toNat with
      | none => .next (reply (dropMsg s i) m 0 [])
      | some g =>
        match (if m.src = devAgent core.toNat then acceptAt s g core.toNat r.pri r else acceptNext s g core.toNat r.pri r) with
        | some s' => .next (reply (dropMsg s' i) m 0 [])
        | none => .next s
    | .remote h regs =>
      if bits h 32 32 = 1 || !mayServe s i m then .next s else .next ((arriveLocal s i m h regs).getD s)
    | _ => .next s
  | none => .next s

/-- COUNTER_DECREMENT. -/
def execCounterDecrement (i : Nat) (s : State) : Host.Outcome State Fault Refusal :=
  match s.net[i]? with
  | some m => match m.entry.body with
    | .record core r =>
      if !r.cnt || !mayServe s i m then .next s
      else .next ((countArrival (dropMsg s i) core.toNat r m).getD s)
    | .remote h regs =>
      if bits h 32 32 = 0 || !mayServe s i m then .next s else .next ((arriveLocal s i m h regs).getD s)
    | _ => .next s
  | none => .next s

/-- R74, R75: the record that an `mreq` reply starts. -/
def mreqRec (s : State) (r : Reply) (tag : BitVec 6) (write : Bool) : TaskRec :=
  let rcb := match regionOf s (coreOf r.dst) with
    | some (rcb, _) => rcb
    | none => 0
  let data := if r.status = 0 then r.data else []
  { cls := BitVec.ofNat 8 (readNat s (rcbField s rcb 0x18 8 + tag.toNat) 1), pri := isHigh r.dst,
    src := BitVec.ofNat 16 (coreOf r.dst),
    carried := Vector.ofFn fun k =>
      if write then (if k.val = 0 ∧ r.status = 0 then BitVec.ofNat 64 r.entry.seq else 0) else BitVec.ofNat 64 (at_ data (8 * k.val) 8),
    mrstat := some (BitVec.ofNat 64 (r.status + (if write then 4 else 0) + 8 * tag.toNat)) }

/-- MREQ_REPLY: the record joins the inbox of the issuing context's priority, and starts at once when it is that
context's next choice. -/
def execMreqReply (i : Nat) (s : State) : Host.Outcome State Fault Refusal :=
  match replyAt s i with
  | none => .next s
  | some r =>
    let go := fun (tag : BitVec 6) (write : Bool) =>
      match recordRegion s (coreOf r.dst) with
      | none => dropReply s i
      | some g =>
      if (regionOf s (coreOf r.dst)).any fun g => rcbFar s g.1 [(0x18, 64)] then s else
      match acceptNext s g (coreOf r.dst) (isHigh r.dst) (mreqRec s r tag write) with
      | none => s
      | some s' =>
        let s' := dropReply s' i
        let c := getCtx s' r.dst
        tryStart (putCtx s' r.dst { c with mreqs := c.mreqs - 1 }) r.dst
    match r.entry.body with
    | .mreqRead tag => .next (go tag false)
    | .mreqWrite tag _ => .next (go tag true)
    | _ => .next s

/-! ### Barriers (R282) -/

def getBar (s : State) (core b : Nat) : Barrier := mapGet {} (getCore s core).barriers b
def putBar (s : State) (core b : Nat) (x : Barrier) : State :=
  let c := getCore s core
  putCore s core { c with barriers := mapSet {} c.barriers b x }

/-- Messages of a barrier travel on channel 0 from its core. -/
def sendArrive (s : State) (src core b : Nat) (child : Option (Nat × Nat)) : State :=
  sendMsg s src { loc := homeLoc core 0xD000, body := .barArrive core b child }
def sendRelease (s : State) (src core b : Nat) : State :=
  sendMsg s src { loc := homeLoc core 0xD000, body := .barRelease core b }

/-- The phase flips and every HOLD child that arrived in it is released. -/
def flip (s : State) (core b : Nat) : State :=
  let x := getBar s core b
  let s := putBar s core b { x with ph := !x.ph, kids := [] }
  x.kids.foldl (fun s k => sendRelease s (devAgent core) k.1 k.2) s

/-- Complete(B). -/
def completeBar (s : State) (core b : Nat) : State :=
  let x := getBar s core b
  let s := putBar s core b { x with arr := 0 }
  if x.link && x.hold then
    sendArrive (putBar s core b { x with arr := 0, held := true }) (devAgent core) x.pcore x.pbar (some (core, b))
  else
    let s := flip s core b
    if x.link then sendArrive s (devAgent core) x.pcore x.pbar none else s

/-- Arrive(B). A HOLD child whose arrival comes while the parent is HELD is released with those that came before it, at the parent's
release. DESIGN CHOICE, log entry 71. -/
def arriveBar (s : State) (core b : Nat) (child : Option (Nat × Nat)) : State :=
  let x := getBar s core b
  let kids := match child with
    | some k => x.kids ++ [k]
    | none => x.kids
  let x := { x with arr := (x.arr + 1) % 2 ^ 16, kids := kids }
  let s := putBar s core b x
  if x.arr = x.exp ∧ !x.held then completeBar s core b else s

/-- Release(B). -/
def releaseBar (s : State) (core b : Nat) : State :=
  let x := getBar s core b
  let s := flip (putBar s core b { x with held := false }) core b
  if x.arr = x.exp then completeBar s core b else s

/-- BARRIER_ARRIVAL. -/
def execBarrierArrival (i : Nat) (s : State) : Host.Outcome State Fault Refusal :=
  match s.net[i]? with
  | some m => match m.entry.body with
    | .barArrive core b child =>
      if mayServe s i m then .next (reply (arriveBar (dropMsg s i) core b child) m 0 []) else .next s
    | _ => .next s
  | none => .next s

/-- BARRIER_RELEASE. -/
def execBarrierRelease (i : Nat) (s : State) : Host.Outcome State Fault Refusal :=
  match s.net[i]? with
  | some m => match m.entry.body with
    | .barRelease core b =>
      if mayServe s i m then .next (reply (releaseBar (dropMsg s i) core b) m 0 []) else .next s
    | _ => .next s
  | none => .next s

/-! ### Task instructions (R283, R284) -/

/-- The context in focus starts a team's program: s24 to s31, no span and no loop level, the first instruction (R290, R306);
an entry of 0 raises TASK_CLASS before it. -/
def joinTeam (s : State) (t : Team) : State :=
  let s := clearLowSpan s s.who
  let c := s.cur
  let c := { c with
    regs := Vector.ofFn fun k => if 24 ≤ k.val then t.carried.toList.getD (k.val - 24) 0 else c.regs[k]
    span := 0
    lpctl0 := setBits c.lpctl0 31 31 0
    lpctl1 := setBits c.lpctl1 31 31 0
    pc := t.entry
    run := .running
    wait := .ready
    pagerTask := false }
  if t.entry = 0 then enterTrap { s with cur := c } { code := 0x20, va := BitVec.ofNat 80 t.entryAt } 0 else { s with cur := c }

/-- Become idle; a late team member's context starts the team's program before any record (R290). -/
def endTask (s : State) : State :=
  let s := { s with cur := { s.cur with run := .idle, wait := .ready, span := 0, pagerTask := false } }
  match teamOf s s.who with
  | some t => match findMember t s.who with
    | some m =>
      if m.late then
        joinTeam (putTeam s s.who (some (putMember t { m with late := false }))) t
      else s
    | none => s
  | none => s

/-- `task.end`. -/
def execTaskEnd (st : BitVec 3) (s : State) : Host.Outcome State Fault Refusal :=
  issue s coreOnly 4 st [] fun s =>
    if (myTeam s).isSome then .trap illegalOperand else .keep (endTask { s with cur := s.cur.issued (cycleNow s) st.toNat [] })

/-- A `spawn` ends the sleep of the core's low context, when work wakes it: the record may be stolen before it goes on
(R287). -/
def rouse (s : State) (core : Nat) : State :=
  let c := getCtx s (2 * core + 1)
  match c.wait with
  | .sleep till true false st => putCtx s (2 * core + 1) { c with wait := .sleep till true true st }
  | _ => s

/-- `spawn`: pushed at DQ_BOTTOM, or to the low inbox when the deque holds 16 records. The release at cluster scope holds the
record's task, never the `spawn`, until the context's earlier stores have reached their homes. DEDUCED, log entry 66. -/
def execSpawn (a b : BitVec 5) (st : BitVec 3) (s : State) : Host.Outcome State Fault Refusal :=
  issue s coreOnly 4 st ([useS a] ++ (List.range 8).map fun k => (0, b.toNat + k)) fun s =>
    if bits (rd s a) 63 8 ≠ 0 then .trap illegalOperand
    else
      let core := coreOf s.who
      let r : TaskRec := ⟨BitVec.ofNat 8 (bits (rd s a) 7 0), 0, false, false, BitVec.ofNat 16 core, carried8 s.cur b, none, false,
        some (s.who, s.cur.seqNext)⟩
      let n := dqBottom s core
      if n - dqTop s core < 16 then
        let s := sysWrite (sysBytes s (dqLoc core n) (recBytes r s.stamp)) (homeLoc core 0xD428) 8 (n + 1)
        .done (rouse (putCore s core (keepGate (getCore s core) 2 n r)) core) []
      else .done (post s core false r) []

/-- `yield`: the record starts again in its own context, whose later stores stay behind its earlier ones for the cluster. -/
def execYield (a : BitVec 5) (st : BitVec 3) (s : State) : Host.Outcome State Fault Refusal :=
  issue s coreOnly 4 st ([useS a] ++ (List.range 8).map fun k => (0, 24 + k)) fun s =>
    if (myTeam s).isSome || bits (rd s a) 63 8 ≠ 0 then .trap illegalOperand
    else if (nextChoice s s.who false).isNone then .done s []
    else
      let r : TaskRec := ⟨BitVec.ofNat 8 (bits (rd s a) 7 0), 0, isHigh s.who, false, BitVec.ofNat 16 (coreOf s.who),
        carried8 s.cur 24, none, false, none⟩
      let s := post (released s 2) (coreOf s.who) (isHigh s.who) r
      .keep (endTask { s with cur := s.cur.issued (cycleNow s) st.toNat [] })

/-- `cnt.init`. -/
def execCntInit (a b : BitVec 5) (st : BitVec 3) (s : State) : Host.Outcome State Fault Refusal :=
  issue s coreOnly 4 st [useS a, useS b] fun s =>
    let x := rd s a
    let c := bits x 63 32
    if bits x 31 17 ≠ 0 || c = 0 || decide (2 ^ 31 ≤ c) then .trap illegalOperand
    else
      let core := coreOf s.who
      let cid := bits x 7 0
      let at1 := counterLoc core cid
      let n := min (countOf s core cid + c) (2 ^ 31 - 1)
      let s := sysWrite s at1 8 (rd s b).toNat
      let s := sysWrite s (at1 + 12) 1 (bits x 15 8)
      let s := sysWrite s (at1 + 13) 1 (bits x 16 16 + 2)
      let s := setCount s core cid n
      .done (if n ≤ 0 then fire s core cid else s) []

/-! ### Barrier, phase and sleep instructions (R285 to R287) -/

/-- Is a core in the region of the focus? -/
def inMyRegion (s : State) (core : Nat) : Bool :=
  match regionOf s (coreOf s.who), regionOf s core with
  | some (r, _), some (q, _) => r = q
  | _, _ => false

/-- `bar.init` (R285): what a barrier has counted goes, and so do HOLD children that had arrived, which no later completion releases.
DESIGN CHOICE, log entry 71. -/
def execBarInit (a b : BitVec 5) (st : BitVec 3) (s : State) : Host.Outcome State Fault Refusal :=
  issue s coreOnly 4 st [useS a, useS b] fun s =>
    if bits (rd s a) 63 11 ≠ 0 || rd s b = 0 || bits (rd s b) 63 16 ≠ 0 then .trap illegalOperand
    else
      let core := coreOf s.who
      let n := bits (rd s a) 10 0
      .done (putBar s core n { exp := bits (rd s b) 15 0, ph := (getBar s core n).ph }) []

def execBarArrive (a : BitVec 5) (st : BitVec 3) (s : State) : Host.Outcome State Fault Refusal :=
  issue s coreOnly 4 st [useS a] fun s =>
    let x := rd s a
    if bits x 63 30 ≠ 0 || bits x 15 11 ≠ 0 then .trap illegalOperand
    else if !inMyRegion s (bits x 29 16) then .trap { code := 0x0D }
    else if releaseBlocked s s.who 4 then .wait s .stalled
    else if bits x 29 16 = coreOf s.who then .done (arriveBar s (bits x 29 16) (bits x 10 0) none) []
    else .done (sendArrive s s.who (bits x 29 16) (bits x 10 0) none) []

def execBarWait (a b : BitVec 5) (st : BitVec 3) (s : State) : Host.Outcome State Fault Refusal :=
  issue s coreOnly 4 st [useS a, useS b] fun s =>
    if bits (rd s a) 63 11 ≠ 0 || bits (rd s b) 63 1 ≠ 0 then .trap illegalOperand
    else if (getBar s (coreOf s.who) (bits (rd s a) 10 0)).ph = decide (bits (rd s b) 0 0 = 1) then .wait s .stalled
    else .done s []

/-- DEDUCED, log entry 16. -/
def execBarLink (a b : BitVec 5) (st : BitVec 3) (s : State) : Host.Outcome State Fault Refusal :=
  issue s coreOnly 4 st [useS a, useS b] fun s =>
    let x := rd s b
    if bits (rd s a) 63 11 ≠ 0 || bits x 63 32 ≠ 0 || bits x 15 11 ≠ 0 then .trap illegalOperand
    else if bits x 31 31 = 1 && !inMyRegion s (bits x 29 16) then .trap { code := 0x0D }
    else
      let core := coreOf s.who
      let n := bits (rd s a) 10 0
      let l := bits x 31 31 = 1
      let old := getBar s core n
      let new := if l then { old with link := true, hold := bits x 30 30 = 1, pbar := bits x 10 0, pcore := bits x 29 16 }
        else { old with link := false, hold := false, pbar := 0, pcore := 0 }
      .done (putBar s core n new) []

def execPhase (a : BitVec 5) (st : BitVec 3) (s : State) : Host.Outcome State Fault Refusal :=
  issue s coreOnly 4 st [useS a] fun s =>
    if bits (rd s a) 63 8 ≠ 0 then .trap illegalOperand
    else
      let s := accountCore s (coreOf s.who)
      .done (putMyCore s { myCore s with phase := BitVec.ofNat 8 (bits (rd s a) 7 0) }) []

/-- R287: has a wake event of a sleep happened? -/
def wakes (s : State) (a till : Nat) (work : Bool) : Bool :=
  (decide (till ≠ 0) && decide (till ≤ timeStamp s)) || (work && (nextChoice s a false).isSome)

def execSleep (a : BitVec 5) (w : BitVec 1) (st : BitVec 3) (s : State) : Host.Outcome State Fault Refusal :=
  issue s coreOnly 4 st [useS a] fun s =>
    if rd s a = 0 ∧ w = 0 then .trap illegalOperand
    else if wakes s s.who (rd s a).toNat (w = 1) then .done s []
    else .wait s (.sleep (rd s a).toNat (w = 1) false st)

/-- SLEEP_WAKE: the first wake event completes the `sleep`. -/
def execSleepWake (ctx : Nat) (s : State) : Host.Outcome State Fault Refusal :=
  match (getCtx s ctx).wait with
  | .sleep till work fired st =>
    if fired || wakes s ctx till work then .next (withFocus s ctx fun s => retire s 4 st (.done s [])) else .next s
  | _ => .next s

/-- `pause k` (R354): not ready for the 16 · (k + 1) cycles behind that of its issue. -/
def execPause (k : BitVec 6) (st : BitVec 3) (s : State) : Host.Outcome State Fault Refusal :=
  match issue s coreOnly 4 st [] fun s => .done s [] with
  | .next t =>
    if kindOf s.who = 0 then .next { t with cur := { t.cur with wait := .pause (cycleNow s + 1 + 16 * (k.toNat + 1)) } } else .next t
  | r => r

/-- PAUSE_END: the core has come to the first cycle behind the pause. -/
def execPauseEnd (ctx : Nat) (s : State) : Host.Outcome State Fault Refusal :=
  let c := getCtx s ctx
  match c.wait with
  | .pause till => if till ≤ cycleOf s ctx then .next (putCtx s ctx { c with wait := .ready }) else .next s
  | _ => .next s

/-! ### Pager replies (R105, R107) -/

/-- PAGER_REPLY: a nonzero reply word wakes the faulting context: 1 re-executes, any other value raises the trap with the
recorded cause and address. While the word cannot be read, because its address has lost its translation or R, the context waits on; of
a poisoned line the bytes that stand there are the word. DESIGN CHOICE, log entry 73. -/
def execPagerReply (ctx : Nat) (s : State) : Host.Outcome State Fault Refusal :=
  match (getCtx s ctx).wait with
  | .pager cause access va _ =>
    match replyLoc s ctx (isEngine ctx) 0 with
    | none => .next s
    | some l =>
      let v := readNat s l 8
      if farWaits s l || v = 0 then .next s
      else if v = 1 then .next (putCtx (replyTouch s ctx (isEngine ctx) 0) ctx { getCtx s ctx with wait := .ready })
      else .next (withFocus (replyTouch s ctx (isEngine ctx) 0) ctx fun s => enterTrap s { code := cause, access := access, va := va } s.cur.pc)
  | _ => .next s

/-- ENGINE_FAULT_REPLY: a nonzero engine reply word answers the engine fault held on the context's behalf (R107); the answer stands for
the request that met it. One whose word cannot be read is not answered, as in `execPagerReply`. DESIGN CHOICE, log entry 73. -/
def execEngineFaultReply (ctx : Nat) (s : State) : Host.Outcome State Fault Refusal :=
  let c := getCtx s ctx
  match c.engFault with
  | none => .next s
  | some f =>
    match replyLoc s ctx true 0 with
    | none => .next s
    | some l =>
      let v := readNat s l 8
      if farWaits s l || v = 0 then .next s else
      .next (putCtx (replyTouch s ctx true 0) ctx
        { c with engFault := none, engSaid := if f.1 = goneKey then c.engSaid else c.engSaid ++ [(f.1, decide (v = 1))] })

end Sys2Proof.Machine
end

