-- ==== Sys2Proof/Machine/Motion.lean ====
section
/-! DEFINITION. Page motion (R76 to R87, R399), hotness epochs (R82, R83), the record ring (R85), `mreq` (R74), the walker as
an event (R95), and the service of homes and soft errors (R71, R115), which motion has a share in. -/

namespace Sys2Proof.Machine

open Sys2Proof

/-! ### The records of an abort (R81, R106) -/

/-- R81: a record's 32 bytes. -/
def motionRec (m : Motion) (dst cause kind : Nat) : List Byte :=
  toBytes 8 m.leaf ++ toBytes 8 m.src ++ toBytes 8 dst ++ toBytes 2 m.cursor ++ toBytes 1 cause ++ toBytes 1 kind ++ toBytes 4 0

/-- R106: the task record that carries an abort record to a pager. s28 and s29 hold the address that the `pgmove` named, which need
not be the first of its page. DESIGN CHOICE, log entry 35. -/
def abortTask (r : List Byte) (core cls : Nat) (va : VAddr) : TaskRec :=
  { cls := BitVec.ofNat 8 cls, pri := true, src := BitVec.ofNat 16 core, pager := true,
    carried := #v[BitVec.ofNat 64 (at_ r 0 8), BitVec.ofNat 64 (at_ r 8 8), BitVec.ofNat 64 (at_ r 16 8),
      BitVec.ofNat 64 (at_ r 24 8), BitVec.ofNat 64 va.toNat, BitVec.ofNat 64 (va.toNat / 2 ^ 64), 0, 0] }

/-- R80, R81: post the abort record of a motion: to the pager of a `pgmove`, else, or where the region of that pager's core is gone,
to the system ring (R106). -/
def postAbort (s : State) (m : Motion) (cause : Nat) : State :=
  let r := motionRec m (if cause = 2 then 0 else m.dst) cause 0
  match m.who, m.pager with
  | some (core, va), some (pc, cls, rcb) => match regionFor s rcb pc with
    | some g => postTo s g pc true (abortTask r core cls va)
    | none => postRec s r
  | _, _ => postRec s r

/-- The die and position of an active motion go with its abort. -/
def abortActive (s : State) (die i cause : Nat) : State :=
  let d := getDie s die
  match d.active[i]? with
  | some m => postAbort (putDie s die { d with active := d.active.eraseIdx i }) m cause
  | none => s

/-! ### Motions as events (R77, R78, R80) -/

/-- Take a frame from a free ring, advancing its head. DEDUCED, log entry 33. -/
def takeFrame (s : State) (k z : Nat) : Option (Nat × State) :=
  match freeRing s k z with
  | none => none
  | some (base, cap, h, t) =>
    if h = t then none else
    some (readNat s (base + 8 * (h % cap)) 8, sysWrite s (bits s.dev.mfree 51 6 * 64 + 32 * (2 * k + z) + 12) 4 (h + 1))

/-- R364: does a free ring lie where requests wait? -/
def ringFar (s : State) (k z : Nat) : Bool :=
  writeWaits s (bits s.dev.mfree 51 6 * 64 + 32 * (2 * k + z)) ||
    (freeRing s k z).any fun (base, cap, h, _) => farWaits s (base + 8 * (h % cap))

/-- TURNIP_MOTION_START: the oldest queued motion of a die leaves the queue. A leaf entry that no longer names the page, or
names it no longer movable (R76), has changed, which is cause 5. DEDUCED, log entry 32. -/
def execTurnipMotionStart (die : Nat) (s : State) : Host.Outcome State Fault Refusal :=
  let d := getDie s die
  match d.queue with
  | [] => .next s
  | m :: rest =>
    if 16 ≤ d.active.length || !recRoom s || !s.recs.isEmpty || ringFar s m.loc (sizeCode m.log) then .next s else
    let s1 := putDie s die { d with queue := rest }
    let e := readNat s m.leaf 16
    if e % 4 ≠ 2 || entryFrame e ≠ m.src || leafLog e ≠ m.log || nbits e 7 7 = 0 then .next (postAbort s1 m 5) else
    match takeFrame s1 m.loc (sizeCode m.log) with
    | none => .next (postAbort s1 m 2)
    | some (f, s2) =>
      let d2 := getDie s2 die
      .next (putDie s2 die { d2 with active := d2.active ++ [{ m with old := e, dst := f, cursor := 0 }] })

/-- One copy step of a Moving motion: line c is read at the source and written at the destination, a poisoned one poisoned, and the
write fires the monitors there (R127). -/
def copyLine (s : State) (m : Motion) : State :=
  let a := m.src + 64 * m.cursor
  let b := m.dst + 64 * m.cursor
  wrote (if isPoisoned s a then setPoison s b true else setPoison (writeBytes s b (readBytes s a 64)) b false) (lineOf b)

/-- The page passes to Forwarding: its counts begin anew in its new frame (R87), whose home knows its leaf entry, and the source
home fires every monitor of the page (R128). -/
def passForward (s : State) (m : Motion) : State :=
  fireWhere { s with hot := mapSet {} s.hot m.dst { leaf := m.leaf, log := m.log } } fun l => decide (lineOf m.src ≤ l ∧ l < lineOf (m.src + 2 ^ m.log))

/-- TURNIP_COPY_STEP: one line, and after the last one the compare-and-swap of the leaf entry. A destination line that is
poisoned takes no write, which is cause 1. DEDUCED, log entry 32. -/
def execTurnipCopyStep (die i : Nat) (s : State) : Host.Outcome State Fault Refusal :=
  let d := getDie s die
  match d.active[i]? with
  | none => .next s
  | some m =>
    let a := m.src + 64 * m.cursor
    let b := m.dst + 64 * m.cursor
    if m.forwarding then .next s
    else if farLost s a then .next (abortActive s die i 6)
    else if farLost s b then .next (abortActive s die i 3)
    else if farWaits s a || farWaits s b || writeWaits s m.leaf || bankBusy s a 4096 || bankBusy s b 4096 then .next s
    else if isPoisoned s b then .next (abortActive s die i 1)
    else
      let s1 := copyLine s m
      let m1 := { m with cursor := m.cursor + 1 }
      if m1.cursor < 2 ^ m.log / 64 then .next (putDie s1 die { d with active := d.active.set i m1 })
      else
        let s2 := putDie s1 die { d with active := d.active.set i { m1 with forwarding := true } }
        let e := readNat s1 m.leaf 16
        if e = m.old then .next (passForward (sysWrite s2 m.leaf 16 (e - entryFrame e + m.dst)) m)
        else .next (abortActive (putDie s1 die { d with active := d.active.set i m1 }) die i 5)

/-- Does anything still on its way name an address of this frame? -/
def frameBusy (s : State) (m : Motion) : Bool :=
  let inF := fun (e : StoreEntry) => decide (m.src ≤ e.loc ∧ e.loc < m.src + 2 ^ m.log)
  let inC := fun (c : Ctx) => c.buf.any inF || c.loads.any fun x => decide (m.src ≤ x.loc ∧ x.loc < m.src + 2 ^ m.log)
  s.net.any (fun x => inF x.entry) || inC s.cur || s.parked.any fun c => inC c.2

/-- Drop every TLB entry that a test matches, in every core and cluster (R77, R355). -/
def dropTlb (s : State) (p : TlbEntry → Bool) : State :=
  { s with
    cores := (s.cores.map fun c => (c.1, { c.2 with tlb := c.2.tlb.filter fun e => !p e })).filter fun c => c.2 ≠ {}
    clusters := (s.clusters.map fun c => (c.1, { c.2 with tlb := c.2.tlb.filter fun e => !p e })).filter fun c => c.2 ≠ {} }

/-- SWEEP_COMPLETE: every TLB has dropped the old translation, and no access through it is left; the source frame is
released with a record of kind 1, and its counts end (R82, R87). -/
def execSweepComplete (die i : Nat) (s : State) : Host.Outcome State Fault Refusal :=
  let d := getDie s die
  match d.active[i]? with
  | none => .next s
  | some m =>
    if !m.forwarding || frameBusy s m || !recRoom s || !s.recs.isEmpty then .next s
    else
      let s := putDie s die { d with active := d.active.eraseIdx i }
      let s := dropTlb s fun e => e.leaf = m.leaf && e.frame = m.src
      .next (postRec { s with hot := mapSet {} s.hot m.src {} } (motionRec m m.dst 0 1))

/-! ### Epochs (R82, R83) -/

def epochLen (s : State) : Nat := 2 ^ (bits s.dev.motionctl 36 32 + 10)
/-- Has the count passed a multiple of the epoch length since the last epoch ended? -/
def epochDue (s : State) : Bool := decide (s.lastEpoch / epochLen s < s.stamp / epochLen s)
/-- How many it has passed; sixteen halvings leave no count, so no more than seventeen tell anything. -/
def epochsPassed (s : State) : Nat := min 17 (s.stamp / epochLen s - s.lastEpoch / epochLen s)

def halve (p : Hot) : Hot :=
  { p with total := p.total / 2, ne := p.ne / 2, nw := p.nw / 2, se := p.se / 2, sw := p.sw / 2 }

/-- Queue one page's demotion to the LPDDR-6 beneath its own stack, when the policy asks for it, its home has recorded its leaf entry
(R82; a page that no request with one has reached is not demoted: DESIGN CHOICE, log entry 34) and its Turnip has room: one that holds 256 queued motions takes none more, and the next epoch's end asks again. DESIGN CHOICE, log entry 65. -/
def demote (s : State) (frame : Nat) (p : Hot) : State :=
  let e := readNat s p.leaf 16
  match homeOf s frame with
  | some h =>
    if h < 12 ∧ p.leaf ≠ 0 ∧ p.total < bits s.dev.motionctl 31 16 ∧ e % 4 = 2 ∧ nbits e 7 7 = 1 ∧ p.log ≤ 21 ∧
        entryFrame e = frame ∧ !inMotion s frame then
      (queueMotion s h { leaf := p.leaf, old := e, src := frame, dst := 0, log := p.log, loc := 12 + h }).getD s
    else s
  | none => s

/-- The end of one epoch: demotions by the counts as they stand, then every count halves. DEDUCED, log entry 34. -/
def endOneEpoch (s : State) : State :=
  let s := if bits s.dev.motionctl 37 37 = 1 then s.hot.foldl (fun s h => demote s h.1 h.2) s else s
  { s with hot := (s.hot.map fun h => (h.1, halve h.2)).filter fun h => h.2 ≠ {} }

/-- The ends of n epochs in turn. -/
def endEpochs (s : State) : Nat → State
  | 0 => s
  | n + 1 => endEpochs (endOneEpoch s) n

/-- Every epoch whose end the count has passed ends. -/
def endEpoch (s : State) : State := { endEpochs s (epochsPassed s) with lastEpoch := s.stamp }

/-- EPOCH_END. -/
def execEpochEnd (s : State) : Host.Outcome State Fault Refusal := .next (if epochDue s then endEpoch s else s)

/-! ### `pgmove`, `pghot`, `pgabort` (R86, R87, R399) -/

/-- The page an instruction of R86 names: its leaf entry and address, its size, its frame now, and its home's number. -/
structure PageRef where
  leaf : Nat
  log : Nat
  frame : Nat
  home : Nat
  movable : Bool

/-- What stands at a translated page: the leaf entry as memory holds it; a home of 25 or more is outside the device tiers. -/
def pageRef (s : State) (e : TlbEntry) : PageRef :=
  let w := readNat s e.leaf 16
  let f := if w % 4 = 2 then entryFrame w else e.frame
  let h := match homeOf s f with
    | some h => if h < 25 then h else 25
    | none => 25
  { leaf := e.leaf, log := e.log, frame := f, home := h, movable := nbits w 7 7 = 1 && decide (e.log ≤ 21) && decide (h < 25) }

/-- Run an operation on the page of register a: slice space raises ILLEGAL_OPERAND, translation faults are precise. One that `late`
finds to need what is out of reach waits (R364). -/
def onPage (d a : BitVec 5) (k : Nat) (st : BitVec 3) (f : State → PageRef → VAddr → Nat × State) (s : State)
    (late : State → Nat → Bool := fun _ _ => false) :
    Host.Outcome State Fault Refusal :=
  issue s coreOnly 4 st [useS a, useS d] fun s =>
    let va := vaOf s (rd s a)
    if isSliceVA va then .trap illegalOperand else
    match translate s (coreOf s.who) s.cur.troot va k with
    | .error t => .trap t
    | .ok (e, s1) =>
      let r := f s1 (pageRef s1 e) va
      if late s1 r.1 then .wait s .stalled else .done (wr r.2 d (BitVec.ofNat 64 r.1)) []

/-- The tier of a home: 0 HBM4, 1 LPDDR-6, 2 the far tier, 3 outside. -/
def tierOf (h : Nat) : Nat := if h < 12 then 0 else if h < 24 then 1 else if h = 24 then 2 else 3

/-- R399: the location chosen for stack 31. -/
def chooseStack (s : State) (p : PageRef) (tier : Nat) : Option Nat :=
  let z := sizeCode p.log
  let h := mapGet {} s.hot p.frame
  match tier with
  | 0 => promoteTo s p.home z h
  | 1 =>
    if p.home < 12 then (if ringEmpty s (12 + p.home) z then none else some (12 + p.home))
    else ([0, 1, 2].map (12 + 3 * farQuadDie h + ·)).find? fun k => !s.absent.getLsbD (k - 12) && !ringEmpty s k z
  | _ => if ringEmpty s 24 z then none else some 24

/-- The code of `pgmove`, and the motion queued for code 0. DEDUCED, log entry 35. The motion keeps the operand's own address for its
abort record. DESIGN CHOICE, log entry 35. -/
def pgmoveAt (s : State) (k tier : Nat) (p : PageRef) (va : VAddr) : Nat × State :=
  if !p.movable then (3, s)
  else if tier = 0 && decide (k < 12) && s.cacheMode.getLsbD k then (3, s)
  else if inMotion s p.frame then (4, s)
  else if tierOf p.home = tier && (k = 31 || p.home = 12 * tier + k) then (2, s)
  else match (if k = 31 then chooseStack s p tier else some (12 * tier + k)) with
    | none => (5, s)
    | some loc =>
      let pg := (pagerFor s (coreOf s.who) va.toNat).bind fun r => (recordRegion s r.1).map fun g => (r.1, r.2.2, g.rcb)
      let m : Motion := { leaf := p.leaf, old := 0, src := p.frame, dst := 0, log := p.log, loc := loc,
                          who := some (coreOf s.who, va), pager := pg }
      match queueMotion s p.home m with
      | none => (1, s)
      | some s' => (0, s')

def execPgmove (d a : BitVec 5) (k : BitVec 5) (t : BitVec 2) (st : BitVec 3) (s : State) :
    Host.Outcome State Fault Refusal :=
  onPage d a 1 st (fun s p va => pgmoveAt s k.toNat t.toNat p va) s
    fun s code => (k = 31 && [0, 1, 5].contains code && ringsFar s) || ([0, 1].contains code && pagerFar s (coreOf s.who))

/-- The active motion of a page, by its source frame or, once the leaf is swapped, its destination. -/
def pageMotion (s : State) (p : PageRef) : Option Motion :=
  (motions s).find? fun m => m.src = p.frame || (m.forwarding && m.dst = p.frame)

/-- The value of `pghot`. -/
def pghotAt (s : State) (c : Nat) (p : PageRef) : Nat :=
  let h := if p.home < 25 then mapGet {} s.hot p.frame else {}
  if c % 2 = 0 then h.ne + h.nw * 2 ^ 16 + h.se * 2 ^ 32 + h.sw * 2 ^ 48
  else
    let mo := pageMotion s p
    let state := match mo with
      | none => 0
      | some m => if m.forwarding then 2 else 1
    let cur := match mo with
      | some m => if m.forwarding then 0 else m.cursor
      | none => 0
    let stack := if p.home < 12 then p.home else if p.home < 24 then p.home - 12 else 15
    h.total + state * 2 ^ 16 + tierOf p.home * 2 ^ 18 + stack * 2 ^ 20 + cur * 2 ^ 24 +
      (if p.log = 16 then 0 else if p.log = 21 then 1 else 2) * 2 ^ 39

/-- Codes 2 and 3 clear the page's five counts. -/
def clearHot (s : State) (p : PageRef) : State :=
  let h := mapGet {} s.hot p.frame
  { s with hot := mapSet {} s.hot p.frame { h with total := 0, ne := 0, nw := 0, se := 0, sw := 0 } }

def execPghot (d a : BitVec 5) (c : BitVec 2) (st : BitVec 3) (s : State) : Host.Outcome State Fault Refusal :=
  onPage d a 0 st (fun s p _ => (pghotAt s c.toNat p, if 2 ≤ c.toNat ∧ p.home < 25 then clearHot s p else s)) s

/-- The die and position of a page's Moving motion. -/
def movingIx (s : State) (frame : Nat) : Option (Nat × Nat) :=
  ([0, 1, 2, 3].filterMap fun d =>
    ((getDie s d).active.findIdx? fun m => m.src = frame && !m.forwarding).map fun i => (d, i)).head?

def execPgabort (d a : BitVec 5) (st : BitVec 3) (s : State) : Host.Outcome State Fault Refusal :=
  onPage d a 1 st (fun s p _ => match movingIx s p.frame with
    | some (die, i) => (0, abortActive s die i 4)
    | none => (1, s)) s

/-! ### `mreq` (R74) -/

/-- The shared body: the operand's limits, the stall for eight outstanding, the empty store buffer, translation, the
request on channel 0. The device's main memory has homes 0 to 24. -/
def mreqBody (al k : Nat) (a : BitVec 5) (body : State → Payload) (s : State) : Body :=
  let e := rd s a
  let va := vaOf s e
  if isSliceVA va || e.toNat % al ≠ 0 then .trap illegalOperand
  else if 8 ≤ s.cur.mreqs || !s.cur.buf.isEmpty || inFlight s s.who isAxstEntry then .wait s .stalled
  else match land s s.who va k with
    | .error t => .trap t
    | .ok l =>
      if (homeOf s l.loc).any (24 < ·) then .trap { code := 0x0C, access := k, va := va }
      else if pageHeld s s.who l then .wait s .stalled else
      let t := sendMsg l.st s.who { loc := l.loc, leaf := l.leaf, body := body s, seq := e.toNat, page := l.page }
      .done { t with cur := { t.cur with mreqs := t.cur.mreqs + 1 } } []

def execMreqRead (a : BitVec 5) (t : BitVec 6) (st : BitVec 3) (s : State) : Host.Outcome State Fault Refusal :=
  issue s coreOnly 4 st [useS a] (mreqBody 64 0 a fun _ => .mreqRead t)
def execMreqWrite (d a : BitVec 5) (t : BitVec 6) (st : BitVec 3) (s : State) : Host.Outcome State Fault Refusal :=
  issue s coreOnly 4 st [useS a, useS d] (mreqBody 8 1 a fun s => .mreqWrite t (toBytes 8 (rd s d).toNat))

/-! ### The walker as an event (R95) -/

/-- PAGE_WALK: a walk on behalf of an agent fills its TLBs; a fault it meets is the accessing instruction's to raise. -/
def execPageWalk (ctx : Nat) (va : VAddr) (acc : Nat) (s : State) : Host.Outcome State Fault Refusal :=
  match translate s (coreOf ctx) (getCtx s (asCtx ctx)).troot va acc with
  | .ok (_, s') => .next s'
  | .error _ => .next s

/-- SOFT_ERROR: a poisoned line of a Moving page's destination that the motion has written aborts the motion (R80 cause 1). -/
def execSoftError (loc : Nat) (corrected : Bool) (s : State) : Host.Outcome State Fault Refusal :=
  let s1 := softError s loc corrected
  if corrected then .next s1 else
  match ([0, 1, 2, 3].filterMap fun d =>
      ((getDie s1 d).active.findIdx? fun m =>
        !m.forwarding && decide (m.dst ≤ loc ∧ loc < m.dst + 64 * m.cursor)).map fun i => (d, i)).head? with
  | some (die, i) => .next (abortActive s1 die i 1)
  | none => .next s1

end Sys2Proof.Machine
end

