-- ==== Sys2Proof/Machine/Csr.lean ====
section
/-! DEFINITION. Control registers (R350 to R352): the field maps of the manual as masks, one read and one write for every
register, each register's own checks and side effects; the traps `trap` and `eret`, `tlbinv` and `fence.i` (R354, R355). -/

namespace Sys2Proof.Machine

open Sys2Proof

/-! ### Field maps -/

/-- Does a register number lie in a run of k from lo? -/
def inRun (n lo k : Nat) : Bool := lo ≤ n && n < lo + k

/-- Fields marked read/write. -/
def rwMask (n : Nat) : Nat :=
  if n = 0x040 then 0xFF07FF
  else if n = 0x041 ∨ n = 0x044 then 0xFFFFFFFFFFFFFFFE
  else if n = 0x042 ∨ n = 0x045 then 0xFFFFFFFFFFFFFFFF
  else if n = 0x043 then 0xFFFF
  else if n = 0x046 then 0x5
  else if n = 0x080 then 0x1FFF
  else if n = 0x081 then 0x1
  else if n = 0x083 then 0x3FFFF1F3777
  else if n = 0x084 ∨ n = 0x085 then 0xFFFFFFFFFFFFFFFE
  else if n = 0x086 ∨ n = 0x087 then 0xFFFFFFFF80000FFF
  else if inRun n 0x088 8 then 0xFFFFFFFF
  else if n = 0x090 then 0xFFFF
  else if n = 0x0C8 then 0xFFFF
  else if n = 0x0CA then 0xF
  else 0

/-- Fields marked "write by system software". -/
def sysMask (n : Nat) : Nat :=
  if n = 0x0C1 then 0x3FFFFFFFFF
  else if n = 0x0C2 then 0xFFFFFFFFFFFC0
  else if n = 0x0C3 then 0xFFFFFFFFFFFDF
  else if n = 0x0C5 then 0xFFFFFFFF
  else if n = 0x0C9 then 0xFFFFFFFFFFFFFF00
  else if inRun n 0x0D8 8 then 0x77F3F0000
  else if inRun n 0x100 16 then 0xFFFFFFFFFFF9F
  else if inRun n 0x110 16 then 0xFFFFFFFF
  else if n = 0x131 then 0x1FFFFFFF
  else if n = 0x132 then 0xFFFFFFFF00000
  else if n = 0x133 then 0xF000000000000FFF
  else if n = 0x134 then 0xFFFFFFFFFF000
  else if n = 0x135 then 0xFFFFFFFFFFFDF
  else if n = 0x136 then 0xFFFFFFFF
  else if inRun n 0x140 16 then 0x2000000000000000
  else if n = 0x150 then 0xFFF
  else 0

/-- Fields that no `csrw` writes: marked "read", cleared by any write, or set by the dispatcher. -/
def roMask (n : Nat) : Nat :=
  if n = 0x046 then 0x2
  else if n = 0x0C0 then 0x1FF
  else if n = 0x0C4 then 0xF01FFFFFFFFFFFFF
  else if inRun n 0x0D0 4 then 0xFFFFFFFFFFFFFFFF
  else if inRun n 0x0E0 4 then 0xE000FFFFFFFFFFFF
  else if inRun n 0x0E4 4 ∨ n = 0x0E9 then 0xF800FFFFFFFFFFFF
  else if n = 0x0E8 then 0x1000FFFFFFFFFFFF
  else if n = 0x0F2 then 0xFFFF000000000000
  else 0

/-- R4: a word loaded into a register without a `csrw` leaves its reserved fields zero. -/
def fieldsOf (n : Nat) (v : Word) : Word := v &&& BitVec.ofNat 64 (rwMask n ||| sysMask n ||| roMask n)

/-- Registers with a field that any `csrw` or `csrc` clears: `STERR`, `CPYERR`, `AXERR`, `TEAMERR` for every context, and
`LQHEAD` for system software (R308). -/
def clearsAny (n : Nat) : Bool := n = 0x0C4 || inRun n 0x0E4 4 || n = 0x0E9 || n = 0x0F2
def clearsSys (n : Nat) : Bool := inRun n 0x120 16

/-- The registers that exist once per device: those BAR0 reaches (R363). -/
def deviceWide (n : Nat) : Bool :=
  inRun n 0x0C1 3 || n = 0x0C5 || inRun n 0x100 0x33 || inRun n 0x134 3 || inRun n 0x140 0x13

/-! ### Reading -/

/-- The rank of an agent under a binding: members of the set that stand below it (R291). -/
def rankIn (b : Nat × Nat × Nat) (a : Nat) : Nat :=
  let ix := if isEngine a then tileOf a % 16 else coreOf a % 64
  ((List.range ix).filter fun k => b.2.2.testBit k).length

/-- `TEAMID` (R303). -/
def teamId (s : State) : Nat :=
  match myTeam s with
  | none => 0
  | some (t, _) =>
    2 ^ 63 + kindOf s.who * 2 ^ 61 + rolesOf t s.who * 2 ^ 48 +
      ((t.binds.filter (bindHolds · s.who)).foldl (fun x b => x + rankIn b s.who % 64 * 2 ^ (6 * b.1)) 0)

/-- A register that exists once per device. -/
def devVal (s : State) (n : Nat) : Word :=
  let d := s.dev
  if n = 0x0C1 then d.motionctl else if n = 0x0C2 then d.mfree else if n = 0x0C3 then d.mrec
  else if n = 0x0C5 then d.mrecptr
  else if inRun n 0x100 16 then d.lqbase.toList.getD (n - 0x100) 0
  else if inRun n 0x110 16 then d.lqtail.toList.getD (n - 0x110) 0
  else if inRun n 0x120 16 then d.lqhead.toList.getD (n - 0x120) 0
  else if n = 0x130 then BitVec.ofNat 64 s.stamp
  else if n = 0x131 then d.gxcfg else if n = 0x132 then d.gxrt
  else if n = 0x134 then d.mtab else if n = 0x135 then d.evring else if n = 0x136 then d.evptr
  else if inRun n 0x140 16 then d.gxlink.toList.getD (n - 0x140) 0
  else if n = 0x150 then d.pwrcap else if n = 0x151 then d.pwrstat else if n = 0x152 then d.secst
  else 0

/-- A register of the agent in focus, its core or its tile, or of the device. -/
def csrVal (s : State) (n : Nat) : Word :=
  let c := s.cur
  let k := myCore s
  let t := getTile s (tileOf s.who)
  if n = 0x040 then c.cause else if n = 0x041 then c.epc else if n = 0x042 then c.faultva else if n = 0x043 then c.faultvah
  else if n = 0x044 then c.tvec else if n = 0x045 then c.tscratch else if n = 0x046 then c.tstatus
  else if n = 0x080 then c.vtype else if n = 0x081 then c.issuectl
  else if n = 0x082 then BitVec.ofNat 64 (coreOf s.who + s.who % 2 * 2 ^ 14)
  else if n = 0x083 then c.vaux
  else if n = 0x084 then c.lpaddr0 else if n = 0x085 then c.lpaddr1 else if n = 0x086 then c.lpctl0
  else if n = 0x087 then c.lpctl1
  else if inRun n 0x088 8 then (c.pr (BitVec.ofNat 3 (n - 0x088))).setWidth 64
  else if n = 0x090 then c.vrand
  else if n = 0x0C0 then c.mrstat else if n = 0x0C4 then c.sterr
  else if n = 0x0C8 then c.vabase else if n = 0x0C9 then c.troot else if n = 0x0CA then c.stpath
  else if inRun n 0x0D0 4 then c.pathdone.toList.getD (n - 0x0D0) 0
  else if inRun n 0x0D8 8 then t.slwin.toList.getD (n - 0x0D8) 0
  else if inRun n 0x0E0 4 then k.cpydone.toList.getD (n - 0x0E0) 0
  else if inRun n 0x0E4 4 then k.cpyerr.toList.getD (n - 0x0E4) 0
  else if n = 0x0E8 then k.axdone else if n = 0x0E9 then k.axerr
  else if n = 0x0F0 then BitVec.ofNat 64 (teamId s)
  else if n = 0x0F1 then match myTeam s with
    | some (tm, m) => BitVec.ofNat 64 (m.marks % 2 ^ 32 + tm.d * 2 ^ 32)
    | none => 0
  else if n = 0x0F2 then ((myTeam s).map (·.1.err)).getD 0
  else if n = 0x0F3 then ((myTeam s).map (·.1.epc)).getD 0
  else if n = 0x133 then t.slown
  else devVal s n

/-- R164, R257, R269: the deferred error that a read of `CPYDONE` or `AXDONE` raises. -/
def copyTrap (ch : Nat) (err : Word) : Trap := { code := if bits err 61 59 = 1 then 0x18 else 0x19, info := ch }
def axisTrap (err : Word) : Trap := { code := if bits err 61 59 = 1 then 0x1A else 0x1B }

def readTrap (s : State) (n : Nat) : Option Trap :=
  let k := myCore s
  if inRun n 0x0E0 4 then
    let e := k.cpyerr.toList.getD (n - 0x0E0) 0
    if bits e 63 63 = 1 then some (copyTrap (n - 0x0E0) e) else none
  else if n = 0x0E8 then (if bits k.axerr 63 63 = 1 then some (axisTrap k.axerr) else none)
  else none

/-! ### Writing -/

/-- R352: may an agent with this SYS bit change any field of the register? -/
def mayWrite (sys : Bool) (n : Nat) : Bool :=
  rwMask n ≠ 0 || clearsAny n || (sys && (sysMask n ≠ 0 || clearsSys n))

/-- The register's own checks (R133, R139, R205, R215, R219). -/
def ownCheck (s : State) (n : Nat) (v : Word) : Option Trap :=
  if n = 0x080 then
    (if bits v 4 0 ≤ 21 ∧ bits v 9 5 ≤ 21 ∧ bits v 12 10 ≤ 4 then none else some illegalOperand)
  else if n = 0x083 then (if bits v 6 4 = 7 ∨ bits v 13 12 = 3 then some illegalOperand else none)
  else if n = 0x086 then (if bits s.cur.lpctl1 31 31 = 1 ∧ bits v 31 31 = 0 then some illegalOperand else none)
  else if n = 0x087 then (if bits v 31 31 = 1 ∧ bits s.cur.lpctl0 31 31 = 0 then some illegalOperand else none)
  else if n = 0x0CA then (if bits v 3 2 = 3 then some illegalOperand else none)
  else if inRun n 0x0D8 8 then (if bits v 34 32 = 7 ∨ 64 < bits v 30 24 then some { code := 0x1E } else none)
  else none

/-- How far a ring's TAIL is ahead of its HEAD. -/
def ahead (tail head : Nat) : Nat := (tail + 2 ^ 32 - head) % 2 ^ 32

/-- Writes that the manual ignores (R85, R308, R377, R380). Of the rings of R85 and R377 a write of the counts is ignored, and one of
SIZE is not, whatever it leaves. DESIGN CHOICE, log entry 51. -/
def ignoredWrite (s : State) (n : Nat) (v : Word) : Bool :=
  let d := s.dev
  if n = 0x0C5 then decide (2 ^ bits d.mrec 4 0 < ahead (bits v 63 32) (bits v 31 0))
  else if n = 0x136 then decide (2 ^ bits d.evring 4 0 < ahead (bits v 63 32) (bits v 31 0))
  else if inRun n 0x100 16 then
    decide (20 < bits v 4 0) || decide (2 ^ bits v 4 0 <
      ahead (bits (d.lqtail.toList.getD (n - 0x100) 0) 31 0) (bits (d.lqhead.toList.getD (n - 0x100) 0) 31 0))
  else if inRun n 0x110 16 then
    decide (2 ^ bits (d.lqbase.toList.getD (n - 0x110) 0) 4 0 <
      ahead (bits v 31 0) (bits (d.lqhead.toList.getD (n - 0x110) 0) 31 0))
  else if n = 0x150 then decide (bits v 11 0 < 1200) || decide (3600 < bits v 11 0)
  else false

def setIx {α : Type} {n : Nat} (x : Vector α n) (k : Nat) (v : α) : Vector α n := Vector.ofFn fun j => if j.val = k then v else x[j]

/-- R379: a TAIL write or a Goldex arrival wakes the device from P2 within 20 µs. -/
def wakeP2 (s : State) : State :=
  if s.pstate = 2 ∧ s.wakeAt.isNone then { s with wakeAt := some s.stamp } else s

/-! ### Goldex links going down (R366, R370) -/

/-- The n bytes of a number, and a number field of a flit, least significant first. -/
def numBytes (n v : Nat) : List Nat := (List.range n).map fun k => v / 256 ^ k % 256
def fieldN (l : List Nat) (i n : Nat) : Nat :=
  (List.range n).foldr (fun k acc => l.getD (i + k) 0 % 256 + 256 * acc) 0

/-- The STREAM word. -/
def streamWord (ch src dst hops eseq : Nat) : Nat := ch * 2 ^ 63 + src * 2 ^ 44 + dst * 2 ^ 25 + hops * 2 ^ 16 + eseq

def getLink (s : State) (l : Nat) : GLink := mapGet {} s.links l
def putLink (s : State) (l : Nat) (x : GLink) : State := { s with links := mapSet {} s.links l x }
def linkReg (s : State) (l : Nat) : Word := s.dev.gxlink.toList.getD l 0
def putLinkReg (s : State) (l : Nat) (v : Word) : State :=
  { s with dev := { s.dev with gxlink := setIx s.dev.gxlink l v } }

def devNumber (s : State) : Nat := bits s.dev.gxcfg 18 0

/-- Does a body belong to a stream flit of this device's, by channel, destination and ESEQ? -/
def ownFlit (s : State) (body : List Nat) (ch dst e : Nat) : Bool :=
  fieldN body 0 8 = streamWord ch (devNumber s) dst (nbits (fieldN body 0 8) 19 16) e

/-- A link stops carrying flits; what it had unacknowledged passes to end-to-end recovery, due at once. -/
def dropLink (s : State) (link : Nat) : State :=
  let lost := (getLink s link).replay.map fun f => f.2.1.drop 8
  let s := { s with gtx := s.gtx.map fun g =>
    { g with unacked := g.unacked.map fun u => if lost.any (ownFlit s · g.ch g.dst u.1) then (u.1, u.2.1, 0) else u } }
  putLink s link {}

/-- A link that is up or training goes down (R370, R379), which is logged (R377). -/
def takeLinkDown (s : State) (l : Nat) : State :=
  if bits (linkReg s l) 63 62 = 0 then s
  else logEvent (putLinkReg (dropLink s l) l (setBits (linkReg s l) 63 62 0)) (0x5100 + l) 2 0

/-! ### Device-wide registers -/

/-- Store a whole new value in a device-wide register, with what follows from it. -/
def devPut (s : State) (n : Nat) (v : Word) : State :=
  let d := s.dev
  if n = 0x0C1 then
    let s := if epochDue s then endEpoch s else s
    { s with dev := { s.dev with motionctl := v }, lastEpoch := s.stamp }
  else if n = 0x0C2 then { s with dev := { d with mfree := v } }
  else if n = 0x0C3 then let s := { s with dev := { d with mrec := v } }; flushRecs s s.recs
  else if n = 0x0C5 then let s := { s with dev := { d with mrecptr := v } }; flushRecs s s.recs
  else if inRun n 0x100 16 then { s with dev := { d with lqbase := setIx d.lqbase (n - 0x100) v } }
  else if inRun n 0x110 16 then wakeP2 { s with dev := { d with lqtail := setIx d.lqtail (n - 0x110) v } }
  else if inRun n 0x120 16 then { s with dev := { d with lqhead := setIx d.lqhead (n - 0x120) v } }
  else if n = 0x131 then { s with dev := { d with gxcfg := v } }
  else if n = 0x132 then { s with dev := { d with gxrt := v } }
  else if n = 0x134 then { s with dev := { d with mtab := v } }
  else if n = 0x135 then { s with dev := { d with evring := v } }
  else if n = 0x136 then { s with dev := { d with evptr := v } }
  else if inRun n 0x140 16 then
    -- DISABLE holds the link down (R370)
    let s := putLinkReg s (n - 0x140) v
    if bits v 61 61 = 1 then takeLinkDown s (n - 0x140) else s
  else if n = 0x150 then { s with dev := { d with pwrcap := v } }
  else s

/-- R304: clearing `TEAMERR`.VALID resumes every halted engine member of the team. -/
def resumeEngines (s : State) : State :=
  match teamOf s s.who with
  | none => s
  | some t => t.members.foldl (fun s m =>
      let c := getCtx s m.agent
      if isEngine m.agent && c.run = .halted then putCtx s m.agent { c with run := .running } else s) s

/-- Store a whole new value in a register of the focus. -/
def csrPut (s : State) (n : Nat) (v : Word) : State :=
  let c := s.cur
  let k := myCore s
  let t := getTile s (tileOf s.who)
  let setc := fun (c : Ctx) => { s with cur := c }
  if n = 0x040 then setc { c with cause := v } else if n = 0x041 then setc { c with epc := v }
  else if n = 0x042 then setc { c with faultva := v } else if n = 0x043 then setc { c with faultvah := v }
  else if n = 0x044 then setc { c with tvec := v } else if n = 0x045 then setc { c with tscratch := v }
  else if n = 0x046 then setc { c with tstatus := v }
  else if n = 0x080 then setc { c with vtype := v } else if n = 0x081 then setc { c with issuectl := v }
  else if n = 0x083 then setc { c with vaux := v }
  else if n = 0x084 then setc { c with lpaddr0 := v } else if n = 0x085 then setc { c with lpaddr1 := v }
  else if n = 0x086 then setc { c with lpctl0 := v } else if n = 0x087 then setc { c with lpctl1 := v }
  else if inRun n 0x088 8 then setc (c.pw (BitVec.ofNat 3 (n - 0x088)) (v.setWidth 32))
  -- R248: a write of 0 stores 1
  else if n = 0x090 then setc { c with vrand := if v = 0 then 1 else v }
  else if n = 0x0C4 then setc { c with sterr := v }
  else if n = 0x0C8 then setc { c with vabase := v } else if n = 0x0C9 then setc { c with troot := v }
  else if n = 0x0CA then setc { c with stpath := v }
  else if inRun n 0x0D8 8 then putTile s (tileOf s.who) { t with slwin := setIx t.slwin (n - 0x0D8) v }
  else if inRun n 0x0E4 4 then putMyCore s { k with cpyerr := setIx k.cpyerr (n - 0x0E4) v }
  else if n = 0x0E9 then putMyCore s { k with axerr := v }
  else if n = 0x0F2 then match myTeam s with
    | some (tm, _) =>
      let s1 := putTeam s s.who (some { tm with err := v })
      if bits tm.err 63 63 = 1 ∧ bits v 63 63 = 0 then resumeEngines s1 else s1
    | none => s
  else if n = 0x133 then putTile s (tileOf s.who) { t with slown := v }
  else devPut s n v

/-- The value a write leaves: the fields of a mask take the new value, a cleared record loses VALID and OVER (or ERR).
DEDUCED, log entry 36. -/
def mergeCsr (n : Nat) (old new : Word) (clears : Bool) : Word :=
  let m := BitVec.ofNat 64 (rwMask n ||| sysMask n)
  let v := (old &&& ~~~m) ||| (new &&& m)
  if clears && clearsAny n then setBits v 63 62 0 else if clears && clearsSys n then setBits v 63 63 0 else v

/-- R350: `csrw` (op 1), `csrs` (2) and `csrc` (3). -/
def writeBody (op n : Nat) (r : BitVec 5) (s : State) : Body :=
  let x := csrVal s n
  let new := if op = 1 then rd s r else if op = 2 then x ||| rd s r else x &&& ~~~(rd s r)
  if !mayWrite (isSys s s.who) n then .trap { code := 0x05 } else
  let v := mergeCsr n x new (decide (op ≠ 2))
  match ownCheck s n v with
  | some t => .trap t
  | none => .done (if ignoredWrite s n v then s else csrPut s n v) []

/-- R217: `PRED[k]` is a use of predicate register k beside the scalar register. -/
def csrUses (n : Nat) (r : BitVec 5) : List RegUse :=
  useS r :: if inRun n 0x088 8 then [useP (BitVec.ofNat 3 (n - 0x088))] else []

/-- A write instruction. DESIGN CHOICE, log entry 61. -/
def csrWrite (op n : Nat) (r : BitVec 5) (st : BitVec 3) (s : State) : Host.Outcome State Fault Refusal :=
  issue s coreOnly 4 st (csrUses n r) (writeBody op n r)

/-- A read; engine members may read `TEAMID` and `TEAMMARK` alone (R294). -/
def csrRead (n : Nat) (r : BitVec 5) (st : BitVec 3) (s : State) : Host.Outcome State Fault Refusal :=
  issue s (if n = 0x0F0 ∨ n = 0x0F1 then anyAgent else coreOnly) 4 st (csrUses n r) fun s =>
    match readTrap s n with
    | some t => .trap t
    | none => .done (wr s r (csrVal s n)) []

def execCsrr (r : BitVec 5) (n : BitVec 12) (st : BitVec 3) (s : State) := csrRead n.toNat r st s
def execCsrw (r : BitVec 5) (n : BitVec 12) (st : BitVec 3) (s : State) := csrWrite 1 n.toNat r st s
def execCsrs (r : BitVec 5) (n : BitVec 12) (st : BitVec 3) (s : State) := csrWrite 2 n.toNat r st s
def execCsrc (r : BitVec 5) (n : BitVec 12) (st : BitVec 3) (s : State) := csrWrite 3 n.toNat r st s

/-! The table's rows for single registers are the reads and writes above at that register's number. -/
def execCpydoneRead (ch : BitVec 2) (r : BitVec 5) (st : BitVec 3) (s : State) := csrRead (0x0E0 + ch.toNat) r st s
def execAxdoneRead (r : BitVec 5) (st : BitVec 3) (s : State) := csrRead 0x0E8 r st s
def execPathdoneRead (p : BitVec 2) (r : BitVec 5) (st : BitVec 3) (s : State) := csrRead (0x0D0 + p.toNat) r st s
def execSterrClear (r : BitVec 5) (st : BitVec 3) (s : State) := csrWrite 1 0x0C4 r st s
def execCpyerrClear (ch : BitVec 2) (r : BitVec 5) (st : BitVec 3) (s : State) := csrWrite 1 (0x0E4 + ch.toNat) r st s
def execAxerrClear (r : BitVec 5) (st : BitVec 3) (s : State) := csrWrite 1 0x0E9 r st s
def execTeamerrClear (r : BitVec 5) (st : BitVec 3) (s : State) := csrWrite 1 0x0F2 r st s
def execSlwinWrite (w : BitVec 3) (r : BitVec 5) (st : BitVec 3) (s : State) := csrWrite 1 (0x0D8 + w.toNat) r st s
def execStpathWrite (r : BitVec 5) (st : BitVec 3) (s : State) := csrWrite 1 0x0CA r st s
def execVtypeWrite (r : BitVec 5) (st : BitVec 3) (s : State) := csrWrite 1 0x080 r st s
def execVauxWrite (r : BitVec 5) (st : BitVec 3) (s : State) := csrWrite 1 0x083 r st s
def execLpctlWrite (k : BitVec 1) (r : BitVec 5) (st : BitVec 3) (s : State) := csrWrite 1 (0x086 + k.toNat) r st s
def execVrandWrite (r : BitVec 5) (st : BitVec 3) (s : State) := csrWrite 1 0x090 r st s
def execMotionctlWrite (r : BitVec 5) (st : BitVec 3) (s : State) := csrWrite 1 0x0C1 r st s
def execMrecptrWrite (r : BitVec 5) (st : BitVec 3) (s : State) := csrWrite 1 0x0C5 r st s
def execEvptrWrite (r : BitVec 5) (st : BitVec 3) (s : State) := csrWrite 1 0x136 r st s

/-- A write of a device-wide register by Plebex or by the host through BAR0, which acts as a `csrw` of system software. -/
def devWrite (s : State) (n : Nat) (new : Word) : State :=
  if !deviceWide n || !mayWrite true n then s else
  let v := mergeCsr n (devVal s n) new true
  if ignoredWrite s n v then s else devPut s n v

/-! ### `trap`, `eret`, `tlbinv`, `fence.i` (R349, R354, R355) -/

def execTrap (k : BitVec 6) (st : BitVec 3) (s : State) : Host.Outcome State Fault Refusal :=
  issue s coreOnly 4 st [] fun _ => .trap { code := 0x06, info := k.toNat }

def execEret (st : BitVec 3) (s : State) : Host.Outcome State Fault Refusal :=
  issue s coreOnly 4 st [] fun s => .keep { s with cur := s.cur.leave.issued (cycleNow s) st.toNat [] }

/-- The shared body of `tlbinv`: the kind's checks, every earlier store acknowledged, a send counting as one (R124), but for records
that have arrived and wait for room, since `tlbinv` completes in bounded time (R355); then matching entries dropped. -/
def tlbinvBody (check : State → Option Trap) (p : State → TlbEntry → Bool) (s : State) : Body :=
  match check s with
  | some t => .trap t
  | none => if pending s s.who isStoreOrSend then .wait s .stalled else .done (dropTlb s (p s)) []

def execTlbinvPage (a : BitVec 5) (st : BitVec 3) (s : State) : Host.Outcome State Fault Refusal :=
  issue s coreOnly 4 st [useS a] (tlbinvBody (fun _ => none)
    fun s e => !isSliceVA (vaOf s (rd s a)) && e.hits (tagOf s s.who) (vaOf s (rd s a)).toNat)
def execTlbinvTag (a : BitVec 5) (st : BitVec 3) (s : State) : Host.Outcome State Fault Refusal :=
  issue s coreOnly 4 st [useS a] (tlbinvBody
    (fun s => if bits (rd s a) 63 12 ≠ 0 then some illegalOperand
      else if !isSys s s.who && bits (rd s a) 11 0 ≠ tagOf s s.who then some { code := 0x0D } else none)
    fun s e => e.tag = bits (rd s a) 11 0)
def execTlbinvAll (a : BitVec 5) (st : BitVec 3) (s : State) : Host.Outcome State Fault Refusal :=
  issue s coreOnly 4 st [useS a] (tlbinvBody
    (fun s => if a ≠ 0 then some illegalOperand else if !isSys s s.who then some { code := 0x0D } else none)
    fun _ _ => true)

def execFenceI (st : BitVec 3) (s : State) : Host.Outcome State Fault Refusal :=
  issue s coreOnly 4 st [] fun s =>
    if unacked s s.who isStore then .wait s .stalled else
    .done (putCluster s (clusterOf s.who) { getCluster s (clusterOf s.who) with icache := [] }) []

end Sys2Proof.Machine
end

