-- ==== Sys2Proof/Machine/Team.lean ====
section
/-! DEFINITION. Choreography (R290 to R305): starting a team, binding roles, hand-over, marks and drift, realignment, and the
end of a member and of its team. -/

namespace Sys2Proof.Machine

open Sys2Proof

/-! ### The team table -/

/-- Members that have not ended. -/
def liveOthers (t : Team) (a : Nat) : List Member := t.members.filter fun m => m.agent ≠ a && !m.ended

/-- The first mark that no member has yet passed (R292). -/
def nextMark (t : Team) : Nat := (t.members.filter fun m => !m.ended).foldl (fun n m => max n m.marks) 0 + 1

/-- R304: must the focus raise TEAM_FAULT? It is the lead and an engine member's fault is recorded. -/
def leadFault (t : Team) (a : Nat) : Bool := bits t.err 63 63 = 1 && leadOf t = some a

/-- Run the body of an instruction of this chapter: ILLEGAL_OPERAND outside a team (R296), and TEAM_FAULT in the lead, before the
instruction's own ILLEGAL_OPERAND checks (R304). DESIGN CHOICE, log entry 19. -/
def inTeam (fault : Bool) (f : State → Team → Member → Body) (s : State) : Body :=
  match myTeam s with
  | none => .trap illegalOperand
  | some (t, m) =>
    -- a wait that the fault abandons no longer counts as reached (R304)
    if fault && leadFault t s.who then
      .keep (raise (putTeam s s.who (some (putMember t { m with atMark := false, realign := none }))) { code := 0x23 })
    else f s t m

/-- Start a team on a cluster: its core members by cluster index (R290, R306). A member whose high context is busy joins
late. -/
def startTeam (s : State) (cl : Nat) (entry : Word) (entryAt : Nat) (mask : Nat) (carried : Vector Word 8) : State :=
  let mem := ((List.range 64).filter mask.testBit).map fun k =>
    let a := 2 * (64 * cl + k)
    ({ agent := a, late := (getCtx s a).run ≠ .idle } : Member)
  let t : Team := { entry := entry, entryAt := entryAt, members := mem, carried := carried }
  let s := putCluster s cl { getCluster s cl with team := some t }
  mem.foldl (fun s m =>
    if m.late || (getCluster s cl).team.isNone then s else withFocus s m.agent fun s => joinTeam s t) s

/-! ### `team.bind` (R292) and installation (R293) -/

/-- The stagings with their marks, one of a role (8 for D) made now in place of an earlier one. -/
def stageAt (t : Team) (role : Nat) : List (Nat × Nat) := t.stagedAt.filter (fun x => x.1 ≠ role) ++ [(role, nextMark t)]

/-- Record a staged binding; a later one for the same role replaces it, whichever mark that belonged to. DEDUCED, log entry
37. -/
def stage (t : Team) (b : Nat × Nat × Nat) : Team :=
  { t with staged := t.staged.filter (fun x => x.1 ≠ b.1) ++ [b], stagedAt := stageAt t b.1 }

/-- Does a mark own a staging, of a role or, 8, of D? -/
def ownedBy (t : Team) (n role : Nat) : Bool := t.stagedAt.contains (role, n)
/-- R293: is mark n full? -/
def fullMark (t : Team) (n : Nat) : Bool := t.stagedAt.any (·.2 = n)

def execTeamBind (a b : BitVec 5) (st : BitVec 3) (s : State) : Host.Outcome State Fault Refusal :=
  issue s anyAgent 4 st [useS a, useS b] (inTeam false fun s t _ =>
    let x := rd s a
    let y := (rd s b).toNat
    let kind := bits x 5 4
    if bits x 63 6 ≠ 0 || bits x 3 3 ≠ 0 then .trap illegalOperand
    else if kind ≠ 0 && decide (2 ^ 16 ≤ y) then .trap illegalOperand
    else if kind = 0 && (List.range 64).any (fun k => y.testBit k &&
        !t.members.any (fun m => m.agent = 2 * (64 * clusterOf s.who + k) && !m.ended)) then .trap illegalOperand
    else .done (putTeam s s.who (some (stage t (bits x 2 0, kind, y)))) [])

/-- The engines that a binding names, as agents of a cluster. -/
def boundEngines (cl : Nat) (binds : List (Nat × Nat × Nat)) : List Nat :=
  ((List.range 16).flatMap fun k => [1, 2, 3].map fun kind => (k, kind)).filterMap fun x =>
    if binds.any (fun b => b.2.1 = x.2 && b.2.2.testBit x.1) then some (engineBase + 4 * (16 * cl + x.1) + x.2) else none

/-- A binding as installed: cores that have ended since the staging are no members. -/
def liveSet (t : Team) (cl : Nat) (b : Nat × Nat × Nat) : Nat × Nat × Nat :=
  if b.2.1 = 0 then
    (b.1, 0, (List.range 64).foldl (fun x k =>
      if b.2.2.testBit k && t.members.any (fun m => m.agent = 2 * (64 * cl + k) && !m.ended) then x + 2 ^ k else x) 0)
  else b

/-- R293, in one step: install the bindings and the drift that mark n owns, remove engine members whose roles are unbound, add
newly bound ones at the instruction after the mark. The member in focus is the last to arrive at mark n. DEDUCED, log entry
37. Cores that have ended leave the bindings installed now, and stay in the others; hand buffers to or from a
member that is removed keep what they hold. DESIGN CHOICE, log entry 37. -/
def install (s : State) (t : Team) (n : Nat) : State :=
  let cl := clusterOf s.who
  let now := t.staged.filter fun b => ownedBy t n b.1
  let binds := (t.binds.filter (fun b => !now.any (·.1 = b.1)) ++ now.map (liveSet t cl)).filter (·.2.2 ≠ 0)
  let old := boundEngines cl t.binds
  let new := boundEngines cl binds
  let fresh := new.filter fun a => !old.contains a
  let gone := old.filter fun a => !new.contains a
  let members := t.members.filter (fun m => !gone.contains m.agent && !fresh.contains m.agent) ++
    fresh.map fun a => ({ agent := a, marks := n } : Member)
  let start : Ctx := { run := .running, pc := s.cur.pc + 4 }
  let s := gone.foldl (fun s a => putCtx s a {}) s
  let s := fresh.foldl (fun s a => putCtx s a start) s
  putTeam s s.who (some { t with
    binds := binds
    members := members
    staged := t.staged.filter fun b => !ownedBy t n b.1
    stagedD := if ownedBy t n 8 then none else t.stagedD
    stagedAt := t.stagedAt.filter (·.2 ≠ n)
    d := if ownedBy t n 8 then t.stagedD.getD t.d else t.d })

/-! ### `mark` and `drift.set` (R299, R300) -/

/-- Pass mark n. -/
def passMark (s : State) (n : Nat) : Body :=
  match teamOf s s.who with
  | none => .done s []
  | some t => match findMember t s.who with
    | some m => .done (putTeam s s.who (some (putMember t { m with marks := n, atMark := false }))) []
    | none => .keep s

def execMark (st : BitVec 3) (s : State) : Host.Outcome State Fault Refusal :=
  issue s anyAgent 4 st [] (inTeam true fun s t m =>
    if s.cur.span ≠ 0 then .trap illegalOperand else
    let n := m.marks + 1
    if fullMark t n then
      if (liveOthers t s.who).all (fun o => o.atMark && decide (o.marks + 1 = n)) then passMark (install s t n) n
      else .wait (putTeam s s.who (some (putMember t { m with atMark := true }))) .stalled
    else if (liveOthers t s.who).all (fun o => decide (n ≤ o.marks + t.d)) then passMark s n
    else .wait s .stalled)

def execDriftSet (bound : BitVec 6) (st : BitVec 3) (s : State) : Host.Outcome State Fault Refusal :=
  issue s anyAgent 4 st [] (inTeam false fun s t _ =>
    if s.cur.span ≠ 0 then .trap illegalOperand
    else .done (putTeam s s.who (some { t with stagedD := some bound.toNat, stagedAt := stageAt t 8 })) [])

/-! ### `hand` (R298) -/

/-- An agent's rank in a role, if it holds it. -/
def rankOf (t : Team) (role a : Nat) : Option Nat :=
  (t.binds.find? fun b => b.1 = role && bindHolds b a).map fun b => rankIn b a

/-- The member with a rank in a role. -/
def withRank (t : Team) (role r : Nat) : Option Nat :=
  (t.members.find? fun m => rankOf t role m.agent = some r).map (·.agent)

/-- HSENT of the focus: `TSTATUS` for a core member, the team table for an engine member. -/
def getHsent (s : State) (m : Member) : Bool := if isEngine s.who then m.hsent else bits s.cur.tstatus 2 2 = 1
def setHsent (s : State) (v : Bool) : State :=
  if isEngine s.who then
    match teamOf s s.who with
    | some t => match findMember t s.who with
      | some m => putTeam s s.who (some (putMember t { m with hsent := v }))
      | none => s
    | none => s
  else { s with cur := { s.cur with tstatus := setBits s.cur.tstatus 2 2 (if v then 1 else 0) } }

/-- The buffer of an ordered pair, if full. -/
def bufOf (t : Team) (x y : Nat) : Option HandBuf := t.bufs.find? fun e => e.snd = x && e.rcv = y

/-- The receive of a `hand`, from partner p into b; `sent` says that the member's own send stands. -/
def handReceive (s : State) (p : Nat) (b : BitVec 5) (sent : Bool) : Body :=
  match teamOf s s.who with
  | none => .trap illegalOperand
  | some t =>
    let order : Trap := { code := 0x22 }
    let stop := if sent then Body.keep (raise (setHsent s true) order) else .trap order
    match bufOf t p s.who with
    | none =>
      if (findMember t p).any (·.ended) then stop else .wait (if sent then setHsent s true else s) .stalled
    | some e =>
      if e.pc ≠ s.cur.pc then stop
      else
        let s := putTeam s s.who (some { t with bufs := t.bufs.filter (· ≠ e) })
        .done (setHsent (wr s b e.value) false) []

/-- `hand` (R298). It counts as a consumer of a and of b in every member, whichever role that holds (R217). DESIGN CHOICE, log entry
63. -/
def execHand (a b : BitVec 5) (rcv snd : BitVec 3) (st : BitVec 3) (s : State) : Host.Outcome State Fault Refusal :=
  issue s anyAgent 4 st [useS a, useS b] (inTeam true fun s t m =>
    let rs := rankOf t snd.toNat s.who
    let rr := rankOf t rcv.toNat s.who
    let tgt := rs.bind (withRank t rcv.toNat)
    let frm := rr.bind (withRank t snd.toNat)
    let sent := getHsent s m
    if (rs.isSome && tgt.isNone) || (rr.isSome && frm.isNone) then .trap illegalOperand
    else
      match tgt with
      | some p =>
        if sent then match frm with
          | some q => handReceive s q b true
          | none => .done (setHsent s false) []
        else if (bufOf t s.who p).isSome then .wait s .stalled
        else if pending s (asCtx s.who) isStoreOrSend && !isEngine s.who then .wait s .stalled
        else
          let e : HandBuf := { snd := s.who, rcv := p, value := rd s a, pc := s.cur.pc }
          let s := putTeam s s.who (some { t with bufs := t.bufs ++ [e] })
          match frm with
          | some q => handReceive s q b true
          | none => .done s []
      | none => match frm with
        | some q => handReceive s q b false
        | none => .done (setHsent s false) [])

/-! ### `realign` and `team.end` (R301, R302) -/

/-- Let a member that waits in `realign` go on. -/
def leaveRealign (s : State) (a : Nat) : State :=
  withFocus s a fun s =>
    let s := match teamOf s a with
      | some t => match findMember t a with
        | some m => putTeam s a (some (putMember t { m with realign := none }))
        | none => s
      | none => s
    match s.cur.wait with
    | .realign _ st => retire s 4 st (.done s [])
    | _ => s

/-- Have all live members but those given stopped in `realign` at one address (R301)? One that has left its `realign` by the limit no
longer counts. DESIGN CHOICE, log entry 37. -/
def aligned (t : Team) (pc : Word) (but : Nat) : Bool := (liveOthers t but).all fun o => o.realign = some pc

/-- Release every member whose `realign` every other live member has met. -/
def settleRealign (s : State) (a : Nat) : State :=
  match teamOf s a with
  | none => s
  | some t => (t.members.filter fun m => !m.ended && m.realign.any fun pc => aligned t pc m.agent).foldl
      (fun s m => leaveRealign s m.agent) s

def execRealign (st : BitVec 3) (s : State) : Host.Outcome State Fault Refusal :=
  issue s anyAgent 4 st [] (inTeam true fun s t m =>
    if aligned t s.cur.pc s.who then
      .done ((liveOthers t s.who).foldl (fun s o => leaveRealign s o.agent) s) []
    else .wait (putTeam s s.who (some (putMember t { m with realign := some s.cur.pc }))) (.realign (2 * s.stamp) st))

/-- REALIGN_TIMEOUT: after 4,096 cycles. -/
def execRealignTimeout (ctx : Nat) (s : State) : Host.Outcome State Fault Refusal :=
  match (getCtx s ctx).wait with
  | .realign since _ => if since + 4096 ≤ 2 * s.stamp then .next (leaveRealign s ctx) else .next s
  | _ => .next s

/-- A member leaves: a core member's context becomes idle, an engine member stops; the last one ends the team. -/
def leaveTeam (s : State) (t : Team) (m : Member) : State :=
  let t := putMember t { m with ended := true, atMark := false, realign := none }
  let s := { s with cur := { s.cur with run := .idle, wait := .ready, span := 0 } }
  if t.members.all (·.ended) then putTeam s s.who none
  else settleRealign (putTeam s s.who (some t)) s.who

def execTeamEnd (st : BitVec 3) (s : State) : Host.Outcome State Fault Refusal :=
  issue s anyAgent 4 st [] (inTeam true fun s t m =>
    if !isEngine s.who && unacked s s.who isStoreOrSend then .wait s .stalled else .keep (leaveTeam { s with cur := s.cur.issued (cycleNow s) st.toNat [] } t m))

end Sys2Proof.Machine
end

