-- ==== Sys2Proof/Machine/Vector.lean ====
section
/-! DEFINITION. Vector block instructions (R218 to R233), predicate logic, and block and indexed vector accesses (R119, R120),
with the rules of bound streams in row 7 (R176, R232). -/

namespace Sys2Proof.Machine

open Sys2Proof

/-! ### Streams in row 7 -/

/-- The stream that a register stands for, while it is bound. -/
def streamOf (c : Ctx) (v : BitVec 6) : Option (Fin 8 × Stream) :=
  if h : 56 ≤ v.toNat then
    let n : Fin 8 := ⟨v.toNat - 56, by have := v.isLt; omega⟩
    if c.streams[n].bound then some (n, c.streams[n]) else none
  else none

/-- Elements of a stream's whole pattern. -/
def Stream.total (x : Stream) : Nat := x.counts.foldl (· * ·) 1

def putStream (c : Ctx) (n : Fin 8) (x : Stream) : Ctx := { c with streams := c.streams.set n x }

/-- The registers an instruction accesses: those it reads (block a, then b, then d) and those it writes. -/
structure Access where
  reads : List (BitVec 6)
  writes : List (BitVec 6)

/-- R232: does an access go against a stream's direction? -/
def wrongWay (c : Ctx) (x : Access) : Bool :=
  (x.reads ++ x.writes).any fun v => match streamOf c v with
    | none => false
    | some (_, s) => (x.reads.contains v && x.writes.contains v) || (s.output && x.reads.contains v) ||
        (!s.output && x.writes.contains v)

/-- What stops an access to a bound stream (R176): a trap, or a wait. -/
inductive StreamStop where
  | trap (t : Trap)
  | wait

/-- The stop of one register; an output stream whose FAULT is set raises COPY_FAULT, also past its pattern's end (DEDUCED), and a
pop of a poisoned element records ACCESS 7 (DESIGN CHOICE): log entry 39. -/
def streamStop (c : Ctx) (v : BitVec 6) : Option StreamStop :=
  match streamOf c v with
  | none => none
  | some (n, s) =>
    if s.output && s.fault then some (.trap { code := 0x19, info := 8 + n.val })
    else if s.total ≤ s.taken then some (.trap { code := 0x1D, info := n.val })
    else if s.output then (if 4 ≤ s.buf.length then some .wait else none)
    else match s.buf with
      | [] => some .wait
      | e :: _ =>
        if e.err = 1 then some (.trap { code := 0x10, info := n.val })
        else if e.err = 2 then some (.trap { code := 0x19, info := 8 + n.val }) else none

/-- The first trap of an access, or a wait when no trap stands and some stream is not ready. -/
def streamCheck (c : Ctx) (x : Access) : Option StreamStop :=
  let l := (x.reads ++ x.writes).filterMap (streamStop c)
  match l.find? fun z => match z with
    | .trap _ => true
    | .wait => false with
  | some t => some t
  | none => l.head?

/-- Raise a stream's trap. An output stream's FAULT is reported once: the re-executed instruction completes (R353). DEDUCED,
log entry 39. -/
def raiseStream (s : State) (t : Trap) : State :=
  let c := s.cur
  let c := { c with streams := Vector.ofFn fun k =>
    if t.code = 0x19 ∧ k.val + 8 = t.info then { c.streams[k] with fault := false } else c.streams[k] }
  raise { s with cur := c } t

/-- The value of a register: the head of its input stream, or its contents. -/
def readV (c : Ctx) (v : BitVec 6) : VReg :=
  match streamOf c v with
  | some (_, s) => match s.buf with
    | e :: _ => e.data
    | [] => 0
  | none => c.vr v

/-- Pop every bound input stream once (R232). -/
def popAll (c : Ctx) (reads : List (BitVec 6)) : Ctx :=
  reads.eraseDups.foldl (fun c v => match streamOf c v with
    | some (n, s) => putStream c n { s with buf := s.buf.drop 1, taken := s.taken + 1 }
    | none => c) c

/-- Write a register: push on its output stream, or replace its contents. -/
def writeV (c : Ctx) (v : BitVec 6) (x : VReg) : Ctx :=
  match streamOf c v with
  | some (n, s) => putStream c n { s with buf := s.buf ++ [{ data := x, err := 0 }], taken := s.taken + 1 }
  | none => c.vw v x

/-! ### How a block instruction runs (R218, R221) -/

/-- R233: the result latency of a block of n registers. -/
def blockLat (l0 n : Nat) : Nat := l0 + (n + 7) / 8 - 1

/-- R233: the core's vector datapath, which its two contexts share, still takes in a block. -/
def datapathBusy (s : State) : Bool :=
  decide (cycleNow s < max s.cur.vecTill (getCtx s (s.who + 1 - 2 * (s.who % 2))).vecTill)

/-- Vector registers of an access, and predicates beside them, as the scoreboard sees them. -/
def Access.uses (x : Access) (preds : List RegUse) : List RegUse := (x.reads ++ x.writes).map useV ++ preds

/-- Issue a block instruction of n registers and latency l0 that reads the predicates pr and writes the predicates pw:
ROLE_KIND, then ILLEGAL_OPERAND, STALL_SHORT and the stream traps in that order (R221), a wait for the datapath (R233), then its
effect on the context, all sources read before any destination is written. -/
def vissue (s : State) (st : BitVec 3) (bad : Bool) (x : Access) (pr pw : List RegUse) (n l0 : Nat)
    (f : Ctx → (BitVec 6 → VReg) → List (BitVec 6 × VReg) × (Ctx → Ctx)) : Host.Outcome State Fault Refusal :=
  if kindOf s.who ≠ 0 then .next (raise s { code := 0x21 })
  else if bad || wrongWay s.cur x then .next (raise s illegalOperand)
  else match shortStop s (x.uses (pr ++ pw)) with
  | some b => .next (retire s 4 st b)
  | none => match streamCheck s.cur x with
    | some (.trap t) => .next (raiseStream s t)
    | some .wait => .next (retire s 4 st (.wait s .stalled))
    | none =>
      if datapathBusy s then .next (retire s 4 st (.wait s .stalled)) else
      let r := f s.cur (readV s.cur)
      let c := r.2 (r.1.foldl (fun c w => writeV c w.1 w.2) (popAll s.cur x.reads))
      let lat := blockLat l0 n
      .next (retire s 4 st (.after (x.uses (pr ++ pw)) (.done { s with cur := { c with vecTill := cycleNow s + (n + 7) / 8 } }
        ((x.writes.flatMap fun v => late 1 v.toNat lat) ++ pw.flatMap fun p => late 2 p.2 lat))))

def vET (c : Ctx) : Nat := bits c.vtype 4 0
def vSRC (c : Ctx) : Nat := bits c.vtype 9 5
def vRM (c : Ctx) : Nat := bits c.vtype 12 10

/-- How the d block is used. -/
inductive Role where
  | rw
  | w
  deriving DecidableEq

/-- A VB instruction whose pairs are computed one by one from D and A. -/
def vblock (ok : Nat → Bool) (extra : Ctx → Bool) (role : Role) (l0 : Nat → Nat) (f : Ctx → VReg → VReg → VReg)
    (d a : BitVec 6) (h w : BitVec 3) (st : BitVec 3) (s : State) : Host.Outcome State Fault Refusal :=
  let ds := blockRegs d (h.toNat + 1) (w.toNat + 1)
  let as := blockRegs a (h.toNat + 1) (w.toNat + 1)
  let c := s.cur
  vissue s st (!ok (vET c) || extra c) ⟨as ++ (if role = .rw then ds else []), ds⟩ [] [] ds.length (l0 (vET c))
    fun c get => ((ds.zip as).map fun p => (p.1, f c (get p.1) (get p.2)), id)

def anyTy : Nat → Bool := fun _ => true
def intTy (t : Nat) : Bool := classOf t = .int
def realTy (t : Nat) : Bool := classOf t = .int || classOf t = .float
def cplxTy (t : Nat) : Bool := classOf t = .complex
def bflyTy (t : Nat) : Bool := realTy t || cplxTy t
def permTy (t : Nat) : Bool := bflyTy t || classOf t = .eight
/-- Latencies of R233 that depend on the class. -/
def latIF (t : Nat) : Nat := if classOf t = .float then 3 else 1

/-- Apply an elementwise function of two elements of type t. -/
def zipElems (z : Nat) (f : Nat → Nat → Nat) (x y : VReg) : VReg :=
  vregOf z (((elems z x).zip (elems z y)).map fun p => f p.1 p.2)
def mapElems (z : Nat) (f : Nat → Nat) (x : VReg) : VReg := vregOf z ((elems z x).map f)

/-! ### Element arithmetic (R222 to R224) -/

/-- Wrap an integer to an element. -/
def wrapTo (t : Nat) (v : Int) : Nat := (v % 2 ^ intBits t).toNat

/-- An integer operation or a floating one, by the class of t. -/
def arith (fi : Int → Int → Int) (ff : Num → Num → Num) (t x y : Nat) : Nat :=
  if isInt t then wrapTo t (fi (intOf t x) (intOf t y)) else roundNE t (ff (numOf t x) (numOf t y))

/-- `vmin` and `vmax`: NaN wins, and +0 ranks above −0. -/
def minMax (isMax : Bool) (t x y : Nat) : Nat :=
  let a := numOf t x
  let b := numOf t y
  if a.isNan || b.isNan then (fmtOf t).nanCode
  else
    let c := Num.cmp a b
    let less := decide (c < 0) || (decide (c = 0) && a.isNeg && !b.isNeg)
    if less then (if isMax then y else x) else (if isMax then x else y)

def vabsElem (t x : Nat) : Nat :=
  if isInt t then wrapTo t |intOf t x| else x % 2 ^ (8 * tySize t - 1)
def vnegElem (t x : Nat) : Nat :=
  if isInt t then wrapTo t (-(intOf t x)) else Nat.xor x (2 ^ (8 * tySize t - 1))

def shlElem (t x n : Nat) : Nat := if intBits t ≤ n then 0 else x * 2 ^ n % 2 ^ intBits t
def shrElem (t x n : Nat) : Nat := wrapTo t (intOf t x / 2 ^ (min n (intBits t)))

/-- Real and imaginary parts of a complex element of type t. -/
def partsOf (t x : Nat) : Num × Num :=
  let p := partTy t
  let w := 8 * tySize t / 2
  (numOf p (x % 2 ^ w), numOf p (x / 2 ^ w))

/-- A part of a complex result: wrapped for cint8, else rounded once to nearest even. -/
def putPart (t : Nat) (x : Num) : Nat :=
  if t = 15 then match x with
    | .fin s m e => wrapTo 2 (atExp s m e 0)
    | _ => 0
  else roundNE (partTy t) x

def cplxOf (t : Nat) (re im : Num) : Nat := putPart t re + putPart t im * 2 ^ (8 * tySize t / 2)

/-- The two exact terms of each part of a product, the second factor conjugated or not (R224). -/
def cmulTerms (conj : Bool) (d a : Num × Num) : List Num × List Num :=
  if conj then ([d.1.mul a.1, d.2.mul a.2], [d.2.mul a.1, (d.1.mul a.2).neg])
  else ([d.1.mul a.1, (d.2.mul a.2).neg], [d.1.mul a.2, d.2.mul a.1])

def cmulElem (conj : Bool) (t d a : Nat) : Nat :=
  let r := cmulTerms conj (partsOf t d) (partsOf t a)
  cplxOf t (sumNum r.1) (sumNum r.2)

def cfmaElem (conj : Bool) (t d a b : Nat) : Nat :=
  let r := cmulTerms conj (partsOf t a) (partsOf t b)
  let x := partsOf t d
  cplxOf t (sumNum (x.1 :: r.1)) (sumNum (x.2 :: r.2))

def fmaElem (sub : Bool) (t d a b : Nat) : Nat :=
  if isInt t then
    let p := intOf t a * intOf t b
    wrapTo t (if sub then intOf t d - p else intOf t d + p)
  else
    let p := (numOf t a).mul (numOf t b)
    roundNE t ((numOf t d).add (if sub then p.neg else p))

/-! ### VB0 and VB1 (R221) -/

/-- The elementwise forms over D and A. -/
def vpair (ok : Nat → Bool) (role : Role) (l0 : Nat → Nat) (f : Nat → Nat → Nat → Nat) (d a : BitVec 6) (h w : BitVec 3)
    (st : BitVec 3) (s : State) : Host.Outcome State Fault Refusal :=
  vblock ok (fun _ => false) role l0 (fun c x y => zipElems (tySize (vET c)) (f (vET c)) x y) d a h w st s

/-- The forms that ignore `VTYPE`. -/
def vbits (role : Role) (f : VReg → VReg → VReg) (d a : BitVec 6) (h w : BitVec 3) (st : BitVec 3) (s : State) :
    Host.Outcome State Fault Refusal :=
  vblock anyTy (fun _ => false) role (fun _ => 0) (fun _ x y => f x y) d a h w st s

def execVadd (d a : BitVec 6) (h w : BitVec 3) (st : BitVec 3) (s : State) :=
  vpair realTy .rw latIF (arith (· + ·) Num.add) d a h w st s
def execVsub (d a : BitVec 6) (h w : BitVec 3) (st : BitVec 3) (s : State) :=
  vpair realTy .rw latIF (arith (· - ·) Num.sub) d a h w st s
def execVadds (d a : BitVec 6) (h w : BitVec 3) (st : BitVec 3) (s : State) :=
  vpair intTy .rw latIF (fun t x y => wrapTo t (clampInt t (intOf t x + intOf t y))) d a h w st s
def execVsubs (d a : BitVec 6) (h w : BitVec 3) (st : BitVec 3) (s : State) :=
  vpair intTy .rw latIF (fun t x y => wrapTo t (clampInt t (intOf t x - intOf t y))) d a h w st s
def execVmin (d a : BitVec 6) (h w : BitVec 3) (st : BitVec 3) (s : State) :=
  vpair realTy .rw latIF (minMax false) d a h w st s
def execVmax (d a : BitVec 6) (h w : BitVec 3) (st : BitVec 3) (s : State) :=
  vpair realTy .rw latIF (minMax true) d a h w st s
def execVabs (d a : BitVec 6) (h w : BitVec 3) (st : BitVec 3) (s : State) :=
  vpair realTy .w latIF (fun t _ x => vabsElem t x) d a h w st s
def execVneg (d a : BitVec 6) (h w : BitVec 3) (st : BitVec 3) (s : State) :=
  vpair realTy .w latIF (fun t _ x => vnegElem t x) d a h w st s
def execVand (d a : BitVec 6) (h w : BitVec 3) (st : BitVec 3) (s : State) := vbits .rw (· &&& ·) d a h w st s
def execVor (d a : BitVec 6) (h w : BitVec 3) (st : BitVec 3) (s : State) := vbits .rw (· ||| ·) d a h w st s
def execVxor (d a : BitVec 6) (h w : BitVec 3) (st : BitVec 3) (s : State) := vbits .rw (· ^^^ ·) d a h w st s
def execVshl (d a : BitVec 6) (h w : BitVec 3) (st : BitVec 3) (s : State) := vpair intTy .rw latIF shlElem d a h w st s
def execVshr (d a : BitVec 6) (h w : BitVec 3) (st : BitVec 3) (s : State) := vpair intTy .rw latIF shrElem d a h w st s
def execVmov (d a : BitVec 6) (h w : BitVec 3) (st : BitVec 3) (s : State) := vbits .w (fun _ x => x) d a h w st s
def execVmul (d a : BitVec 6) (h w : BitVec 3) (st : BitVec 3) (s : State) :=
  vpair realTy .rw (fun _ => 3) (arith (· * ·) Num.mul) d a h w st s
def execCmul (d a : BitVec 6) (h w : BitVec 3) (st : BitVec 3) (s : State) :=
  vpair cplxTy .rw (fun _ => 5) (cmulElem false) d a h w st s
def execCmulc (d a : BitVec 6) (h w : BitVec 3) (st : BitVec 3) (s : State) :=
  vpair cplxTy .rw (fun _ => 5) (cmulElem true) d a h w st s

/-! ### Compare and select (R225, R226) -/

/-- The condition CC on two elements of type t. -/
def condCC (cc t x y : Nat) : Bool :=
  let a := numOf t x
  let b := numOf t y
  let un := a.isNan || b.isNan
  let c := Num.cmp a b
  match cc with
  | 0 => !un && decide (c = 0)
  | 1 => un || decide (c ≠ 0)
  | 2 => !un && decide (c < 0)
  | 3 => !un && decide (0 ≤ c)
  | 4 => !un && decide (c ≤ 0)
  | 5 => !un && decide (0 < c)
  | _ => un

/-- The byte lanes of the elements for which a condition holds. -/
def lanesOf (z : Nat) (l : List Bool) : BitVec 32 :=
  BitVec.ofNat 32 (ofElems' z l)
where
  ofElems' (z : Nat) : List Bool → Nat
    | [] => 0
    | b :: t => (if b then 2 ^ z - 1 else 0) + 2 ^ z * ofElems' z t

/-- First predicate of `vcmp` and `vsel`, and the predicates of n pairs. -/
def vPred (c : Ctx) : Nat := bits c.vaux 2 0
def predUses (c : Ctx) (n : Nat) : List RegUse := (List.range n).map fun k => (2, vPred c + k)

def execVcmp (d a : BitVec 6) (h w : BitVec 3) (st : BitVec 3) (s : State) : Host.Outcome State Fault Refusal :=
  let ds := blockRegs d (h.toNat + 1) (w.toNat + 1)
  let as := blockRegs a (h.toNat + 1) (w.toNat + 1)
  let t := vET s.cur
  let n := ds.length
  vissue s st (!realTy t || bits s.cur.vaux 6 4 = 7 || decide (7 < vPred s.cur + n - 1)) ⟨as ++ ds, []⟩ [] (predUses s.cur n) n (latIF t)
    fun c get =>
      let z := tySize t
      let ps := (ds.zip as).map fun p => lanesOf z (((elems z (get p.1)).zip (elems z (get p.2))).map fun q =>
        condCC (bits c.vaux 6 4) t q.1 q.2)
      ([], fun c => (List.range n).foldl (fun c k => c.pw (BitVec.ofNat 3 (vPred c + k)) (ps.getD k 0)) c)

def execVsel (d a : BitVec 6) (h w : BitVec 3) (st : BitVec 3) (s : State) : Host.Outcome State Fault Refusal :=
  let ds := blockRegs d (h.toNat + 1) (w.toNat + 1)
  let as := blockRegs a (h.toNat + 1) (w.toNat + 1)
  let n := ds.length
  vissue s st (decide (7 < vPred s.cur + n - 1)) ⟨as ++ ds, ds⟩ (predUses s.cur n) [] n 0 fun c get =>
    ((List.range n).map fun k =>
      let dk := blockReg d (w.toNat + 1) k
      (dk, mergeLanes (c.pr (BitVec.ofNat 3 (vPred c + k))) (get (blockReg a (w.toNat + 1) k)) (get dk)), id)

/-- The predicate forms: pd := f pd pa. They name no block, so they neither wait for the vector datapath nor take it. DESIGN CHOICE,
log entry 63. -/
def predOp (f : BitVec 32 → BitVec 32 → BitVec 32) (d a : BitVec 3) (st : BitVec 3) (s : State) :
    Host.Outcome State Fault Refusal :=
  issue s coreOnly 4 st [useP d, useP a] fun s => .done { s with cur := s.cur.pw d (f (s.cur.pr d) (s.cur.pr a)) } []

def execPand (d a : BitVec 3) (st : BitVec 3) (s : State) := predOp (· &&& ·) d a st s
def execPor (d a : BitVec 3) (st : BitVec 3) (s : State) := predOp (· ||| ·) d a st s
def execPnot (d a : BitVec 3) (st : BitVec 3) (s : State) := predOp (fun _ x => ~~~x) d a st s

/-! ### Conversion (R227) -/

/-- R220: the pairs of types that `vcvt` takes. -/
def cvtOk (src dst : Nat) : Bool := permTy src && permTy dst && (cplxTy src = cplxTy dst)

/-- One element of either kind, with the generator threaded through: a complex one part by part, the real part first. -/
def cvtElem (src dst rm x g : Nat) : Nat × Nat :=
  if cplxTy src then
    let p := convertElem (partTy src) (partTy dst) rm (x % 2 ^ (4 * tySize src)) g
    let q := convertElem (partTy src) (partTy dst) rm (x / 2 ^ (4 * tySize src)) p.2
    (p.1 + q.1 * 2 ^ (4 * tySize dst), q.2)
  else convertElem src dst rm x g

/-- Convert a list in ascending order. DEDUCED, log entry 40. -/
def cvtAll (src dst rm : Nat) : List Nat → Nat → List Nat × Nat
  | [], g => ([], g)
  | x :: t, g =>
    let r := cvtElem src dst rm x g
    let q := cvtAll src dst rm t r.2
    (r.1 :: q.1, q.2)

/-- Split a list into runs of k, n runs. -/
def runsOf (k : Nat) : Nat → List Nat → List (List Nat)
  | 0, _ => []
  | n + 1, l => l.take k :: runsOf k n (l.drop k)

def execVcvt (d a : BitVec 6) (h w : BitVec 3) (st : BitVec 3) (s : State) : Host.Outcome State Fault Refusal :=
  let src := vSRC s.cur
  let dst := vET s.cur
  let zs := tySize src
  let zd := tySize dst
  let hw := (h.toNat + 1) * (w.toNat + 1)
  let n := hw * 32 / max zs zd
  let as := (blockRegs a (h.toNat + 1) (w.toNat + 1)).take ((n * zs + 31) / 32)
  let ds := (blockRegs d (h.toNat + 1) (w.toNat + 1)).take ((n * zd + 31) / 32)
  vissue s st (!cvtOk src dst) ⟨as, ds⟩ [] [] hw 2 fun c get =>
    let r := cvtAll src dst (vRM c) ((as.flatMap fun v => elems zs (get v)).take n) (bits c.vrand 15 0)
    ((ds.zip (runsOf (32 / zd) ds.length r.1)).map fun p => (p.1, vregOf zd p.2),
      fun c => if vRM c = 4 then { c with vrand := BitVec.ofNat 64 r.2 } else c)

/-! ### Butterflies, permutation, broadcast, reduction (R228 to R230) -/

/-- log₂ of the number of elements of z bytes. -/
def logElems (z : Nat) : Nat := Nat.log2 (32 / z)

/-- m0 · x + m1 · y in type t. -/
def twoTerm (t m0 x m1 y : Nat) : Nat :=
  if cplxTy t then
    let p := cmulTerms false (partsOf t m0) (partsOf t x)
    let q := cmulTerms false (partsOf t m1) (partsOf t y)
    cplxOf t (sumNum (p.1 ++ q.1)) (sumNum (p.2 ++ q.2))
  else if isInt t then wrapTo t (intOf t m0 * intOf t x + intOf t m1 * intOf t y)
  else roundNE t (((numOf t m0).mul (numOf t x)).add ((numOf t m1).mul (numOf t y)))

def bflyReg (t k : Nat) (d m : VReg) : VReg :=
  let z := tySize t
  let e := elemOf m z
  vregOf z ((List.range (32 / z)).map fun i =>
    if i / 2 ^ k % 2 = 0 then twoTerm t (e 0) (elemOf d z i) (e 1) (elemOf d z (i + 2 ^ k))
    else twoTerm t (e 2) (elemOf d z (i - 2 ^ k)) (e 3) (elemOf d z i))

def execVbfly (d a : BitVec 6) (h w : BitVec 3) (st : BitVec 3) (s : State) :=
  vblock bflyTy (fun c => decide (logElems (tySize (vET c)) ≤ bits c.vaux 10 8)) .rw (fun _ => 5)
    (fun c x m => bflyReg (vET c) (bits c.vaux 10 8) x m) d a h w st s

/-- Field j of PMAP. -/
def pmap (c : Ctx) (j : Nat) : Nat := bits c.vaux (26 + 3 * j) (24 + 3 * j)
def permOk (c : Ctx) : Bool :=
  let m := logElems (tySize (vET c))
  (List.range m).all fun p => (List.range m).any fun j => pmap c j = p
def permReg (c : Ctx) (x : VReg) : VReg :=
  let z := tySize (vET c)
  let m := logElems z
  vregOf z ((List.range (32 / z)).map fun i =>
    elemOf x z ((List.range m).foldl (fun acc j => acc + i / 2 ^ j % 2 * 2 ^ pmap c j) 0))

def execVperm (d a : BitVec 6) (h w : BitVec 3) (st : BitVec 3) (s : State) :=
  vblock permTy (fun c => !permOk c) .w (fun _ => 0) (fun c _ x => permReg c x) d a h w st s

def execVbcast (d a : BitVec 6) (h w : BitVec 3) (st : BitVec 3) (s : State) :=
  vblock permTy (fun c => decide (32 / tySize (vET c) ≤ bits c.vaux 20 16)) .w (fun _ => 0)
    (fun c _ x => let z := tySize (vET c); mapElems z (fun _ => elemOf x z (bits c.vaux 20 16)) x) d a h w st s

def redReg (c : Ctx) (x : VReg) : VReg :=
  let t := vET c
  let f := match bits c.vaux 13 12 with
    | 0 => arith (· + ·) Num.add t
    | 1 => minMax false t
    | _ => minMax true t
  match elems (tySize t) x with
  | [] => 0
  | e :: l => vregOf (tySize t) (l.foldl f e :: l.map fun _ => 0)

def execVred (d a : BitVec 6) (h w : BitVec 3) (st : BitVec 3) (s : State) :=
  vblock realTy (fun c => bits c.vaux 13 12 = 3) .w (fun _ => 6) (fun c _ x => redReg c x) d a h w st s

/-! ### VF (R231) -/

def vfused (ok : Nat → Bool) (l0 : Nat) (f : Nat → Nat → Nat → Nat → Nat) (d a b : BitVec 6) (w h : BitVec 2)
    (st : BitVec 3) (s : State) : Host.Outcome State Fault Refusal :=
  let ds := blockRegs d (2 ^ h.toNat) (2 ^ w.toNat)
  let as := blockRegs a (2 ^ h.toNat) (2 ^ w.toNat)
  let t := vET s.cur
  let z := tySize t
  vissue s st (!ok t) ⟨as ++ [b] ++ ds, ds⟩ [] [] ds.length l0 fun _ get =>
    ((ds.zip as).map fun p => (p.1, vregOf z ((List.range (32 / z)).map fun i =>
      f t (elemOf (get p.1) z i) (elemOf (get p.2) z i) (elemOf (get b) z i))), id)

def execVfma (d a b : BitVec 6) (w h : BitVec 2) (st : BitVec 3) (s : State) :=
  vfused realTy 4 (fmaElem false) d a b w h st s
def execVfms (d a b : BitVec 6) (w h : BitVec 2) (st : BitVec 3) (s : State) :=
  vfused realTy 4 (fmaElem true) d a b w h st s
def execCfma (d a b : BitVec 6) (w h : BitVec 2) (st : BitVec 3) (s : State) :=
  vfused cplxTy 5 (cfmaElem false) d a b w h st s
def execCfmac (d a b : BitVec 6) (w h : BitVec 2) (st : BitVec 3) (s : State) :=
  vfused cplxTy 5 (cfmaElem true) d a b w h st s

/-! ### `vld`, `vst`, `vldx`, `vstx` (R119, R120) -/

/-- Where each of several accesses lands, all checked in order (R111). -/
def landAll (s : State) (al k : Nat) : List Word → Except Trap (List (Word × Landing) × State)
  | [] => .ok ([], s)
  | e :: t => match checkAccess s s.who e al k with
    | .error x => .error x
    | .ok l => match landAll l.st al k t with
      | .error x => .error (x.after (vaOf s e) k)
      | .ok (r, s') => .ok ((e, l) :: r, s')

/-- What several loads of n bytes each come to. -/
inductive Loads where
  | vals (l : List (List Byte)) (s : State)
  | stall
  /-- a word of host memory is still to come -/
  | host (at1 : Nat) (va : VAddr)
  /-- the trap, with the requests up to it counted -/
  | bad (t : Trap) (s : State)

/-- What stops a group of loads, for an instruction of the focus that has not issued. -/
def Loads.body (s : State) (go : List (List Byte) → State → Body) : Loads → Body
  | .vals l t => go l t
  | .stall => .wait s .stalled
  | .host at1 va => .wait s (.hostFill at1 0 va)
  | .bad t s1 => .keep (raise s1 t)

/-- Serve loads in order; those of host memory take the words that the context has read for this instruction (R363). -/
def loadAll (s : State) (n : Nat) : List (Word × Landing) → Loads
  | [] => .vals [] s
  | (e, l) :: t =>
    let s1 := countHot s l.loc (coreOf s.who) l.leaf
    match loadBytes s1 s1.who l n with
    | .stall => .stall
    | .bad c => .bad { code := c, access := 0, va := vaOf s e } s1
    | .host => match hostBytes (getCtx s1 (asCtx s1.who)) l.loc n with
      | .error k => .host ((l.loc + k) / 8 * 8) (vaOf s e + BitVec.ofNat 80 k)
      | .ok b => match loadAll s1 n t with
        | .vals r s' => .vals (b :: r) s'
        | x => x
    | .val b => match loadAll s1 n t with
      | .vals r s' => .vals (b :: r) s'
      | x => x

/-- Issue a vector access: STALL_SHORT, stream directions, R111 in order of address, then the stream traps. -/
def vmem (s : State) (st : BitVec 3) (base : BitVec 5) (x : Access) (al k : Nat) (eas : List Word)
    (go : State → List (Word × Landing) → Body) : Host.Outcome State Fault Refusal :=
  if kindOf s.who ≠ 0 then .next (raise s { code := 0x21 })
  else if wrongWay s.cur x then .next (raise s illegalOperand)
  else match shortStop s (x.uses [useS base]) with
  | some b => .next (retire s 4 st b)
  | none => match landAll s al k eas with
    | .error t => .next (raise s t)
    | .ok (ls, s1) => match streamCheck s.cur x with
      | some (.trap t) => .next (raiseStream s1 t)
      | some .wait => .next (retire s 4 st (.wait s .stalled))
      | none => .next (retire s 4 st ((go s1 ls).after (x.uses [useS base])))

/-- The value of 32 bytes as a register. -/
def vregOfBytes (b : List Byte) : VReg := BitVec.ofNat 256 (fromBytes b)

def execVld (c : BitVec 6) (b : BitVec 5) (h w : BitVec 3) (st : BitVec 3) (s : State) : Host.Outcome State Fault Refusal :=
  let rs := blockRegs c (h.toNat + 1) (w.toNat + 1)
  let eas := (List.range rs.length).map fun k => rd s b + BitVec.ofNat 64 (32 * k)
  vmem s st b ⟨[], rs⟩ 32 0 eas fun s1 ls => (loadAll s1 32 ls).body s fun vs s2 =>
    .done { s2 with cur := (rs.zip vs).foldl (fun c p => writeV c p.1 (vregOfBytes p.2)) s2.cur } []

/-- Does register k of a `vst` stand in a pair that covers a whole aligned line (R115)? -/
def pairsLine (ls : List (Word × Landing)) (k : Nat) : Bool :=
  let at1 := fun i => (ls[i]?).map (·.2.loc)
  match at1 k with
  | none => false
  | some l =>
    if l % 64 = 0 then at1 (k + 1) = some (l + 32)
    else match k with
      | 0 => false
      | j + 1 => decide (l % 64 = 32) && at1 j = some (l - 32)

/-- Does a vector store wait: the buffer is full, or a page of it is held (R327)? -/
def storesWait (s : State) (ls : List (Word × Landing)) : Bool := bufFull s || ls.any fun p => pageHeld s s.who p.2

/-- Push the entries of a vector store: it issues once the buffer has room for its first entry, and the others follow it
there (R113; log entry 20). DESIGN CHOICE, log entry 20. -/
def pushAll (s : State) (f : Bool) : List (Landing × List Byte × Bool) → State
  | [] => s
  | (l, d, line) :: t => pushAll (pushEntry s l (.store d line) f) f t

def execVst (c : BitVec 6) (b : BitVec 5) (h w : BitVec 3) (f : BitVec 1) (st : BitVec 3) (s : State) :
    Host.Outcome State Fault Refusal :=
  let rs := blockRegs c (h.toNat + 1) (w.toNat + 1)
  let eas := (List.range rs.length).map fun k => rd s b + BitVec.ofNat 64 (32 * k)
  vmem s st b ⟨rs, []⟩ 32 1 eas fun s1 ls =>
    if storesWait s ls then .wait s .stalled else
    let es := (List.range rs.length).filterMap fun k => (ls[k]?).map fun p =>
      (p.2, toBytes 32 (readV s1.cur (blockReg c (w.toNat + 1) k)).toNat, pairsLine ls k)
    let s2 := pushAll { s1 with cur := popAll s1.cur rs } (f = 1) es
    .done (rotatePath s2 (ls.any fun p => steered s2.who p.2.loc)) []

/-- The lane addresses of `vldx` and `vstx`; none while the stream of the indices holds no element to pop. -/
def laneEas (s : State) (b : BitVec 5) (i : BitVec 6) (z : Nat) : List Word :=
  match streamStop s.cur i with
  | some _ => []
  | none => (elems z (readV s.cur i)).map fun x => rd s b + ofInt (signed (8 * z) x * z)

def execVldx (d : BitVec 6) (b : BitVec 5) (i : BitVec 6) (z : BitVec 2) (st : BitVec 3) (s : State) :
    Host.Outcome State Fault Refusal :=
  let n := sizeOf2 z
  vmem s st b ⟨[i], [d]⟩ n 0 (laneEas s b i n) fun s1 ls => (loadAll s1 n ls).body s fun vs s2 =>
    .done { s2 with cur := writeV (popAll s2.cur [i]) d (vregOf n (vs.map fromBytes)) } []

def execVstx (d : BitVec 6) (b : BitVec 5) (i : BitVec 6) (z : BitVec 2) (f : BitVec 1) (st : BitVec 3) (s : State) :
    Host.Outcome State Fault Refusal :=
  let n := sizeOf2 z
  vmem s st b ⟨[d, i], []⟩ n 1 (laneEas s b i n) fun s1 ls =>
    if storesWait s ls then .wait s .stalled else
    let xs := elems n (readV s1.cur d)
    let es := (List.range ls.length).filterMap fun k => (ls[k]?).map fun p => (p.2, toBytes n (xs.getD k 0), false)
    let s2 := pushAll { s1 with cur := popAll s1.cur [d, i] } (f = 1) es
    .done (rotatePath s2 (ls.any fun p => steered s2.who p.2.loc)) []

end Sys2Proof.Machine
end

