-- ==== Sys2Proof/Machine/Engine.lean ====
section
/-! DEFINITION. The transfer unit (R151 to R178): accesses of an engine on a context's behalf (R107), copies in every mode,
decompression, dictionaries, bound streams, and their instructions. -/

namespace Sys2Proof.Machine

open Sys2Proof

/-! ### Accesses of an engine (R107) -/

/-- An engine's access: it lands, fails for good, or waits (for a pager's reply, a reserved bank or a far link). -/
inductive EngLand where
  | ok (loc leaf : Nat) (s : State)
  | fail (s : State)
  | hold (s : State)

/-- A unit as a requester: its tile, which holds the rows that it reserves (4096 for a unit that holds none), the tile to which the
replies to its requests go, the request it works for, and whether that is in row mode (R73). -/
structure EngUnit where
  tile : Nat
  stands : Nat := tile
  key : Nat := 0
  row : Bool := false

/-- What the pager has answered to a fault of a request that has not gone on since (R107). -/
def Ctx.said (c : Ctx) (key : Nat) : Option Bool := (c.engSaid.find? (·.1 = key)).map (·.2)

/-- A request takes the answer to its fault. -/
def takeReply (s : State) (a key : Nat) : State :=
  let c := getCtx s a
  putCtx s a { c with engSaid := c.engSaid.filter (·.1 ≠ key) }

/-- Is a request held for a pager's reply that has not come (R107)? -/
def heldByPager (s : State) (a key : Nat) : Bool :=
  let c := getCtx s a
  c.engFault.isSome && (c.said key).isNone && c.engHeld.contains key

/-- An access that is held has not been made: its reads so far count for no page and keep no row, and are made anew (R82, R73). -/
def unmade (s0 s : State) : State := { s with hot := s0.hot, dies := s0.dies, reserved := s0.reserved, asks := s0.asks }

/-- A request's access is held for a pager, or is not. -/
def markHeld (s : State) (a key : Nat) (held : Bool) : State :=
  let c := getCtx s a
  if c.engHeld.contains key = held then s
  else putCtx s a { c with engHeld := if held then c.engHeld ++ [key] else c.engHeld.filter (· ≠ key) }

/-- Whether a request may access now. -/
inductive EngTurn where
  | go (s : State)
  | hold
  | fail (s : State)

/-- R107: a request whose fault stands waits for the reply; on reply 1 it goes on, on any other it fails. The answer stands until the
request takes it, and other requests of the context may fault meanwhile. -/
def engTurn (s : State) (a key : Nat) : EngTurn :=
  let c := getCtx s a
  match c.said key with
  | some true => .go (takeReply s a key)
  | some false => .fail (takeReply s a key)
  | none => if c.engFault.any (·.1 = key) then .hold else .go s

/-- A translation fault met by a request on behalf of context a (R107): a message to the pager, one outstanding at a time, or
failure where R102 sends it nowhere. One that R102 sends nowhere waits too while another is outstanding. DESIGN CHOICE, log entry 17.
-/
def engFaulted (s : State) (a key : Nat) (t : Trap) : EngLand :=
  if t.code ≠ 0x08 ∧ t.code ≠ 0x09 then .fail s
  else if engAsked s a || askFar s a true then .hold s
  else match pagerFor s (coreOf a) t.va.toNat, replyLoc s a true 1 with
    | some (core, cls, _), some l =>
      match serveWrite (replyTouch s a true 1) l (toBytes 8 0) false with
      | (0, s) =>
        let s := sendRecord s (devAgent (coreOf a)) core (faultRec s a t cls true)
        let c := getCtx s a
        .hold (putCtx s a { c with engFault := some (key, t.code, t.access, t.va) })
      | (_, _) => .fail (replyTouch s a true 1)
    | some _, none => .fail (replyTouch s a true 1)
    | none, _ => .fail s

/-- R161: may a row of this address be reserved? HBM4, and LPDDR-6 not behind a cache; not a page in Forwarding, by its old
frame or its new one. -/
def rowable (s : State) (loc : Nat) : Bool :=
  !isSlice loc && !(motions s).any (fun m => m.forwarding &&
    (decide (m.src ≤ loc ∧ loc < m.src + 2 ^ m.log) || decide (m.dst ≤ loc ∧ loc < m.dst + 2 ^ m.log))) &&
  match homeOf s loc with
  | some h => h < 12 || (h < 24 && !s.cacheMode.getLsbD (h - 12))
  | none => false

/-- R73: an access of a unit to its row: in row mode it reserves the row, and any access of the holder renews it while it
lasts. -/
def keepRow (s : State) (u : EngUnit) (loc : Nat) : State :=
  let row := rowOf (forwarded s loc)
  if u.row && rowable s loc then
    { s with reserved := s.reserved.filter (fun r => r.row ≠ row) ++ [⟨row, u.tile, 2 * s.stamp, u.key⟩] }
  else if isSlice loc then s
  else { s with reserved := s.reserved.map fun r =>
    if r.row = row ∧ r.tile = u.tile ∧ 2 * s.stamp < r.last + 2048 then { r with last := 2 * s.stamp } else r }

/-- One access of kind 4 (read) or 5 (write) within a line, by a unit on behalf of context a. Its reply passes none that the home
has sent to the unit's tile before (R136). -/
def engLand (s0 : State) (u : EngUnit) (a : Nat) (high : BitVec 16) (e : Word) (k : Nat) : EngLand :=
  let va := widen high e
  match engTurn s0 a u.key with
  | .hold => .hold s0
  | .fail s => .fail (markHeld s a u.key false)
  | .go s1 =>
    let s := markHeld s1 a u.key false
    let done := fun (s : State) (loc leaf : Nat) =>
      if bankBusy s loc u.tile || (if k = 5 then writeWaits s loc else farWaits s loc) || replyBefore s u.stands loc (fun _ => true) then
        EngLand.hold s
      else .ok loc leaf (keepRow s u loc)
    if isSliceVA va then
      let loc := sliceOfVA va
      if !sliceAllows s a (sliceTile loc) || (needsW k && (sysArea loc || withheld s loc)) then .fail s
      else done s loc 0
    else match translate s (coreOf a) (getCtx s a).troot va k with
      | .error t => if t.waits then .hold s else match engFaulted (refreshFor s a t) a u.key t with
        | .hold s1 => .hold (markHeld s1 a u.key true)
        | x => x
      | .ok (t, s1) =>
        let pa := t.frame + va.toNat % 2 ^ t.log
        if !populated s1 pa || !(isSys s1 a || (if k = 5 then (t.allows pa).2 else (t.allows pa).1)) then .fail s1
        else done s1 pa t.leaf

/-- Cut n bytes at e into pieces within lines. -/
def linePieces : Nat → Nat → Nat → List (Nat × Nat)
  | 0, _, _ => []
  | fuel + 1, e, n => if n = 0 then [] else let k := min n (64 - e % 64); (e, k) :: linePieces fuel (e + k) (n - k)

/-- A read: data, and for each byte whether its line is good (0), poisoned (1) or lost (2); a failure; or a wait. -/
inductive EngRead where
  | ok (data : List Byte) (bad : List Nat) (s : State)
  | fail (s : State)
  | hold (s : State)

/-- What bytes that are not all good count as together: the first that is not. -/
def firstBad (l : List Nat) : Nat := (l.find? (· ≠ 0)).getD 0

/-- n bytes of host memory from the words that came for a request, with their worst status, or the first word that is still
to come (R363). -/
def engWords (c : Ctx) (key loc n : Nat) : Except Nat (Nat × List Byte) :=
  let w := fun k => c.engHost.find? fun x => x.1 = key && x.2.1 = (loc + k) / 8 * 8
  match (List.range n).find? fun k => (w k).isNone with
  | some k => .error ((loc + k) / 8 * 8)
  | none => .ok ((List.range n).foldl (fun b k => max b ((w k).elim 0 (·.2.2.1))) 0,
      (List.range n).map fun k => BitVec.ofNat 8 ((w k).elim 0 (·.2.2.2) / 256 ^ ((loc + k) % 8)))

/-- Ask for one word of host memory. -/
def wantWord (s : State) (a key loc : Nat) : State :=
  let c := getCtx s a
  if c.engWant.contains (key, loc) then s else putCtx s a { c with engWant := c.engWant ++ [(key, loc)] }

/-- A request has used the words that it read. -/
def dropWords (s : State) (a key : Nat) : State :=
  let c := getCtx s a
  if c.engHost.any (·.1 = key) || c.engWant.any (·.1 = key) then
    putCtx s a { c with engHost := c.engHost.filter (·.1 ≠ key), engWant := c.engWant.filter (·.1 ≠ key) }
  else s

/-- The place from which the requests of a unit count for their pages, as a core of its cluster (R12, R82). -/
def EngUnit.place (u : EngUnit) : Nat := 4 * u.stands

/-- Read pieces in turn. -/
def engReadPieces (s : State) (u : EngUnit) (a : Nat) (high : BitVec 16) : List (Nat × Nat) → EngRead
  | [] => .ok [] [] s
  | (e, n) :: t => match engLand s u a high (BitVec.ofNat 64 e) 4 with
    | .fail s => .fail s
    | .hold s => .hold s
    | .ok loc leaf s1 =>
      let join := fun (s : State) (d : List Byte) (b : Nat) => match engReadPieces s u a high t with
        | .ok d' b' s2 => EngRead.ok (d ++ d') (List.replicate n b ++ b') s2
        | x => x
      if homeOf s1 loc = some 25 then
        match engWords (getCtx s1 a) u.key loc n with
        | .error w => .hold (wantWord s1 a u.key w)
        | .ok (b, d) => if 2 ≤ b then .fail s1 else join s1 d b
      else
        let s2 := countHot s1 loc u.place leaf
        match serveRead s2 loc n with
        | (0, d) => join s2 d 0
        | (b, _) => join s2 (List.replicate n 0) b

/-- Read n bytes at a register address. -/
def engRead (s : State) (u : EngUnit) (a : Nat) (high : BitVec 16) (e : Word) (n : Nat) : EngRead :=
  engReadPieces s u a high (linePieces n e.toNat n)

/-- Where the pieces of a write land. -/
inductive EngLands where
  | ok (l : List (Nat × Nat × List Byte)) (s : State)
  | fail (s : State)
  | hold (s : State)

def engWritePieces (s : State) (u : EngUnit) (a : Nat) (high : BitVec 16) : List (Nat × Nat) → List Byte → EngLands
  | [], _ => .ok [] s
  | (e, n) :: t, d => match engLand s u a high (BitVec.ofNat 64 e) 5 with
    | .fail s => .fail s
    | .hold s => .hold s
    | .ok loc leaf s1 => match engWritePieces s1 u a high t (d.drop n) with
      | .ok l s2 => .ok ((loc, leaf, d.take n) :: l) s2
      | x => x

def engLands (s : State) (u : EngUnit) (a : Nat) (high : BitVec 16) : List (Word × List Byte) → EngLands
  | [] => .ok [] s
  | (e, d) :: t => match engWritePieces s u a high (linePieces d.length e.toNat d.length) d with
    | .ok l s1 => match engLands s1 u a high t with
      | .ok r s2 => .ok (l ++ r) s2
      | x => x
    | x => x

/-- Write bytes within one line at its home: 0 applied, 1 poisoned, 2 lost. Host memory takes a posted write (R328). -/
def engServe (s : State) (core loc leaf : Nat) (d : List Byte) : Nat × State :=
  if homeOf s loc = some 25 then (0, { s with posted := s.posted ++ [(loc, d)] })
  else serveWrite (countHot s loc core leaf) loc d (d.length = 64)

/-! ### Packets of a copy

Consecutive elements whose destination bytes are consecutive in one line travel as one write, so that a run covering a whole
aligned line replaces it (R115, R169). What is pending is written before the copy waits, so a line that a wait cuts in two takes two
writes. DESIGN CHOICE, log entry 25. -/

structure Packet where
  loc : Nat
  leaf : Nat
  data : List Byte
  bad : Nat

/-- A copy as it runs: the state, the first error so far, whether it must stop, and packets not yet written. -/
structure Mover where
  st : State
  err : Nat := 0
  stop : Bool := false
  pend : List Packet := []

def Mover.note (m : Mover) (e : Nat) : Mover := if m.err = 0 then { m with err := e } else m

/-- Write one packet. A packet fed by a bad source line poisons its destination line (R169). DEDUCED, log entry 43. -/
def writePacket (core : Nat) (m : Mover) (p : Packet) : Mover :=
  if p.bad ≠ 0 then
    let m := m.note (if p.bad = 1 then 1 else 6)
    if farLost m.st p.loc then { m with stop := true }
    else { m with st := poisonWrite (countHot m.st p.loc core p.leaf) p.loc }
  else
    let r := engServe m.st core p.loc p.leaf p.data
    let m := { m with st := r.2 }
    if r.1 = 0 then m else if r.1 = 1 then m.note 1 else { m.note 6 with stop := true }

def flush (core : Nat) (m : Mover) : Mover := { m.pend.foldl (writePacket core) m with pend := [] }

/-- Join a packet to one it continues, in a list of pending packets. -/
def joinPacket (p : Packet) : List Packet → Option (List Packet)
  | [] => none
  | q :: t =>
    if q.loc + q.data.length = p.loc ∧ p.loc % 64 ≠ 0 ∧ q.bad = p.bad then some ({ q with data := q.data ++ p.data } :: t)
    else (joinPacket p t).map (q :: ·)

def Packet.meets (p q : Packet) : Bool := p.loc < q.loc + q.data.length && q.loc < p.loc + p.data.length

def addPacket (core : Nat) (m : Mover) (p : Packet) : Mover :=
  let m := if m.pend.any p.meets || decide (32 ≤ m.pend.length) then flush core m else m
  match joinPacket p m.pend with
  | some l => { m with pend := l }
  | none => { m with pend := m.pend ++ [p] }

/-! ### Accumulation (R159) -/

/-- ACCTYPE as a type code of R205, and whether it saturates. -/
def accTy (t : Nat) : Nat := match t with
  | 0 | 2 => 17
  | 1 | 3 => 18
  | 4 => 11
  | 5 => 9
  | _ => 10
def accSize (t : Nat) : Nat := tySize (accTy t)

/-- One combination of the old element x with the incoming v. -/
def accumulate (op ty x v : Nat) : Nat :=
  let t := accTy ty
  match op with
  | 0 => if ty = 2 ∨ ty = 3 then wrapTo t (clampInt t (intOf t x + intOf t v)) else arith (· + ·) Num.add t x v
  | 1 => minMax false t x v
  | 2 => minMax true t x v
  | 3 => Nat.land x v
  | 4 => Nat.lor x v
  | _ => Nat.xor x v

/-- Accumulate one element at its home, in one indivisible step. Host memory and the far tier are not changed: cause 101, which
is the element's cause also where its source line is bad. DESIGN CHOICE, log entry 43. -/
def accElem (core op ty : Nat) (m : Mover) (p : Packet) : Mover :=
  match homeAt m.st p.loc with
  | some 24 => m.note 5
  | some 25 => m.note 5
  | _ =>
    if p.bad ≠ 0 then writePacket core m p
    else match serveRead m.st p.loc p.data.length with
      | (0, old) =>
        writePacket core m { p with data := toBytes p.data.length (accumulate op ty (fromBytes old) (fromBytes p.data)) }
      | (1, _) => { m.note 1 with st := countHot m.st p.loc core p.leaf }
      | (_, _) => { m.note 6 with st := countHot m.st p.loc core p.leaf, stop := true }

/-! ### Requests and descriptors (R152 to R158) -/

def w3Row (w : Word) : Nat := bits w 36 35
def w3Notify (w : Word) : Bool := bits w 34 34 = 1
def w3Mstride (w : Word) : Nat := bits w 33 22
def w3Mcast (w : Word) : Nat := bits w 21 18
def w3Pad (w : Word) : Bool := bits w 17 17 = 1
def w3AccTy (w : Word) : Nat := bits w 16 14
def w3AccOp (w : Word) : Nat := bits w 13 10
def w3Op (w : Word) : Nat := bits w 9 7
def w3Path (w : Word) : Nat := bits w 6 4
def inlineForm (w : Word) : Bool := bits w 63 63 = 1
def inlineLen (w : Word) : Nat := bits w 39 0

/-- R154: does a request fail its checks? `port` is the tile of the stream port that the pusher holds. -/
def badRequest (high : BitVec 16) (port : Option Nat) (w0 w1 w2 w3 : Word) : Bool :=
  let tile := bits w1 29 18
  let slice1 := isSliceVA (widen high w1)
  let m := w3Mcast w3
  let sz := accSize (w3AccTy w3)
  bits w3 63 37 ≠ 0 || w3Row w3 = 3 || w3Mch w3 = 1 || 5 ≤ w3Path w3 || 3 ≤ w3Op w3 || 6 ≤ w3AccOp w3 || w3AccTy w3 = 7 ||
  (if inlineForm w2 then bits w2 62 40 ≠ 0 else w2.toNat % 64 ≠ 0) ||
  (w3Path w3 ≠ 0 && w3Mch w3 ≠ 2) ||
  (w3Op w3 ≠ 1 && (w3AccOp w3 ≠ 0 || w3AccTy w3 ≠ 0)) ||
  (3 ≤ w3AccOp w3 && 2 ≤ w3AccTy w3) ||
  (w3Notify w3 && inlineForm w2) ||
  (w3Op w3 = 2 && (!inlineForm w2 || m ≠ 0)) ||
  (inlineForm w2 && w3Op w3 = 1 && (inlineLen w2 % sz ≠ 0 || w0.toNat % sz ≠ 0 || w1.toNat % sz ≠ 0)) ||
  (m ≠ 0 && (!slice1 || w3Mstride w3 = 0 || 4096 ≤ tile + m * w3Mstride w3 || w3Mch w3 = 3)) ||
  (w3Mch w3 = 3 && (port.isNone || !slice1 || port ≠ some tile))

/-- A dimension record (R156). -/
structure Dim where
  ext : Nat
  padlo : Nat
  padhi : Nat
  xext : Nat
  ss : Int
  ds : Int

/-- A shape descriptor (R155). -/
structure Desc where
  z : Nat
  ndim : Nat
  mode : Nat
  idim : Nat
  isize : Nat
  layout : Nat
  reserved : Bool
  pad : List Byte
  nAddr : Word
  nVal : Nat
  idx : Word
  plane : Int
  dims : List Dim

def parseDesc (b : List Byte) : Desc :=
  let h := at_ b 0 8
  { z := 2 ^ nbits h 1 0, ndim := nbits h 6 4, mode := nbits h 9 8, idim := nbits h 12 10, isize := 2 ^ nbits h 14 13,
    layout := nbits h 17 16,
    reserved := nbits h 3 2 ≠ 0 || nbits h 7 7 ≠ 0 || nbits h 15 15 ≠ 0 || nbits h 63 18 ≠ 0 || at_ b 48 16 ≠ 0,
    pad := slice b 8 8, nAddr := BitVec.ofNat 64 (at_ b 16 8), nVal := at_ b 24 8, idx := BitVec.ofNat 64 (at_ b 32 8),
    plane := signed 64 (at_ b 40 8),
    dims := (List.range (nbits h 6 4 + 1)).map fun i =>
      let o := 64 + 24 * i
      { ext := at_ b o 4, padlo := at_ b (o + 4) 2, padhi := at_ b (o + 6) 2, xext := at_ b (o + 4) 4,
        ss := signed 64 (at_ b (o + 8) 8), ds := signed 64 (at_ b (o + 16) 8) } }

/-- The product of the extents. -/
def Desc.total (d : Desc) : Nat := d.dims.foldl (fun n x => n * x.ext) 1

/-- R158. -/
def Desc.malformed (d : Desc) (w1 w3 : Word) : Bool :=
  let ix := fun i => decide (d.mode ≠ 0) && decide (i = d.idim)
  let bad := fun i (x : Dim) => x.ext = 0 || (if ix i then x.xext = 0 else decide (x.ext < x.padlo + x.padhi + 1))
  d.reserved || d.mode = 3 || d.layout = 3 ||
  (List.range d.dims.length).any (fun i => (d.dims[i]?).any (bad i)) ||
  decide (2 ^ 40 < d.total) || (d.mode ≠ 0 && decide (d.ndim < d.idim)) || (d.mode = 2 && w3Op w3 ≠ 1) ||
  (w3Op w3 = 1 && (d.z ≠ accSize (w3AccTy w3) || d.layout ≠ 0 || w1.toNat % d.z ≠ 0 ||
    d.dims.any fun x => x.ds % (d.z : Int) ≠ 0))

/-- Coordinate of dimension i of traversal element n. -/
def coords (dims : List Dim) (n : Nat) : List Nat :=
  match dims with
  | [] => []
  | x :: t => n % x.ext :: coords t (n / x.ext)

def clampNat (v : Int) (hi : Nat) : Nat := (max 0 (min v hi)).toNat

/-- R157: source and destination offsets of an element, and whether it lies inside; `j` is the value of its index. -/
def elemOffsets (d : Desc) (pad : Bool) (n : Nat) (j : Int) : Bool × Int × Int :=
  ((d.dims.zip (coords d.dims n)).foldl (fun (acc : Nat × Bool × Int × Int) p =>
    let (i, ins, src, dst) := acc
    let (x, c) := p
    if d.mode = 1 ∧ i = d.idim then (i + 1, ins, src + clampNat j (x.xext - 1) * x.ss, dst + c * x.ds)
    else if d.mode = 2 ∧ i = d.idim then (i + 1, ins, src + c * x.ss, dst + clampNat j (x.xext - 1) * x.ds)
    else
      let sext := x.ext - x.padlo - x.padhi
      let s : Int := (c : Int) - x.padlo
      let out := decide (s < 0) || decide ((sext : Int) ≤ s)
      (i + 1, ins && !(out && pad), src + clampNat s (sext - 1) * x.ss, dst + c * x.ds)) (0, true, 0, 0)).2

/-! ### Moving elements -/

/-- What one element does: the pieces it reads (or the pad bytes), and the addresses it writes with their lengths. -/
structure Elem where
  reads : List (Word × Nat)
  pad : Option (List Byte)
  writes : List (Word × Nat)

/-- Read several pieces one after another. -/
def readsOf (s : State) (u : EngUnit) (a : Nat) (high : BitVec 16) : List (Word × Nat) → EngRead
  | [] => .ok [] [] s
  | (e, n) :: t => match engRead s u a high e n with
    | .ok d b s1 => match readsOf s1 u a high t with
      | .ok d' b' s2 => .ok (d ++ d') (b ++ b') s2
      | x => x
    | x => x

/-- Split data among the writes. -/
def splitData : List (Word × Nat) → List Byte → List (Word × List Byte)
  | [], _ => []
  | (e, n) :: t, d => (e, d.take n) :: splitData t (d.drop n)

/-- R170: every destination of a multicast. -/
def mcast (w3 : Word) (ws : List (Word × List Byte)) : List (Word × List Byte) :=
  (List.range (w3Mcast w3 + 1)).flatMap fun k =>
    ws.map fun p => (p.1 + BitVec.ofNat 64 (k * w3Mstride w3 * 2 ^ 18), p.2)

/-- How an element came out. -/
inductive Moved where
  | ok (m : Mover)
  | hold (m : Mover)
  | stop (m : Mover)

/-- The packets of an element's writes in order, each fed by its own bytes of the element, again and again for each destination
of a multicast. -/
def packetsOf (bad : List Nat) (n : Nat) : Nat → List (Nat × Nat × List Byte) → List Packet
  | _, [] => []
  | o, (loc, leaf, d) :: t => ⟨loc, leaf, d, firstBad ((bad.drop o).take d.length)⟩ :: packetsOf bad n ((o + d.length) % n) t

/-- A copy that waits, unless a write that it still had to make stopped it. -/
def Moved.held (core : Nat) (m : Mover) : Moved := let f := flush core m; if f.stop then .stop f else .hold f

/-- Move one element: all its reads, then where all its writes land, then its packets; `s0` is the state before its first read, of
its index if it has one. An element one of whose writes lands in a lost line is not written at all (R167). DEDUCED, log entry 43. What is gathered for a write is written before a hold. DESIGN CHOICE, log entry 25. -/
def moveElem (u : EngUnit) (a : Nat) (high : BitVec 16) (w3 : Word) (s0 : State) (m : Mover) (e : Elem) : Moved :=
  let core := coreOf a
  let rd := match e.pad with
    | some b => EngRead.ok b [] m.st
    | none => readsOf m.st u a high e.reads
  match rd with
  | .fail s => .stop ({ flush core { m with st := s } with stop := true }.note 2)
  | .hold s => .held core { m with st := unmade s0 s }
  | .ok d bad s => match engLands s u a high (mcast w3 (splitData e.writes d)) with
    | .fail s => .stop ({ flush core { m with st := s } with stop := true }.note 2)
    | .hold s => .held core { m with st := unmade s0 s }
    | .ok l s =>
      let m := { m with st := dropWords s a u.key }
      if w3Op w3 ≠ 1 ∧ l.any (fun x => farLost s x.1) = true then
        let f := flush core m
        .stop { (if firstBad bad = 0 then f else f.note (if firstBad bad = 1 then 1 else 6)).note 6 with stop := true }
      else
      let m := (packetsOf bad d.length 0 l).foldl (fun m p =>
        if w3Op w3 = 1 then (if m.stop then m else accElem core (w3AccOp w3) (w3AccTy w3) m p) else addPacket core m p) m
      if m.stop then .stop (flush core m) else .ok m

/-- k bytes of an inline copy from offset n on: an accumulated element, or (part of) an aligned 8-byte part of the
destination. -/
def inlineElem (c : Copy) (n k : Nat) : Elem :=
  { reads := [(c.w0 + BitVec.ofNat 64 n, k)], pad := none, writes := [(c.w1 + BitVec.ofNat 64 n, k)] }

/-- R166: how many bytes of an inline copy from offset n on move together, which is the element that a failing read leaves
unwritten (R167): one element of an accumulation, or what the copy covers of the aligned 8-byte part of the destination. DESIGN
CHOICE, log entry 43. -/
def inlineStep (c : Copy) (n len : Nat) : Nat :=
  if w3Op c.w3 = 1 then accSize (w3AccTy c.w3) else min (8 - (c.w1 + BitVec.ofNat 64 n).toNat % 8) (len - n)

/-- Element n of a shaped copy, its index value given (R157, R160). -/
def shapeElem (d : Desc) (c : Copy) (n : Nat) (j : Int) : Elem :=
  let (ins, so, do_) := elemOffsets d (w3Pad c.w3) n j
  let src := c.w0 + ofInt so
  let dst := c.w1 + ofInt do_
  let pl := ofInt d.plane
  let pv := d.pad.take d.z
  { reads := if d.layout = 1 then [(src, 2 * d.z)] else if d.layout = 2 then [(src, d.z), (src + pl, d.z)] else [(src, d.z)]
    pad := if ins then none else some (if d.layout = 0 then pv else pv ++ pv)
    writes := if d.layout = 1 then [(dst, d.z), (dst + pl, d.z)] else if d.layout = 2 then [(dst, 2 * d.z)] else [(dst, d.z)] }

/-- How a run of elements came out: the next element, and whether the copy is over. -/
structure RunResult where
  m : Mover
  pos : Nat
  ended : Bool
  notify : Bool

/-- A run that has used up its steps: over when it has come to its end. -/
def ranOut (core : Nat) (m : Mover) (pos : Nat) (atEnd : Bool) : RunResult :=
  let f := flush core m
  ⟨f, pos, atEnd || f.stop, !f.stop⟩

/-- Move bytes from offset pos on. -/
def moveInline (u : EngUnit) (c : Copy) (len : Nat) (m : Mover) (pos : Nat) : Nat → RunResult
  | 0 => ranOut (coreOf c.ctx) m pos (decide (len ≤ pos))
  | left + 1 =>
    if len ≤ pos then ranOut (coreOf c.ctx) m pos true else
    let k := inlineStep c pos len
    match moveElem u c.ctx c.high c.w3 m.st m (inlineElem c pos k) with
    | .ok m => moveInline u c len m (pos + k) left
    | .hold m => ⟨m, pos, false, true⟩
    | .stop m => ⟨m, pos, true, false⟩

/-- The index element of traversal element n, if the mode has one. -/
def idxPiece (d : Desc) (n : Nat) : Option (Word × Nat) :=
  if d.mode = 0 then none else
  some (d.idx + BitVec.ofNat 64 ((coords d.dims n).getD d.idim 0 * d.isize), d.isize)

/-- Move elements from pos on. A poisoned index element stops the copy, and so does one in a lost line; duplicates of mode 10
accumulate in traversal order. DESIGN CHOICE, log entry 25. -/
def moveShape (u : EngUnit) (d : Desc) (c : Copy) (m : Mover) (pos : Nat) : Nat → RunResult
  | 0 => ranOut (coreOf c.ctx) m pos (decide (d.total ≤ pos))
  | left + 1 =>
    let core := coreOf c.ctx
    if d.total ≤ pos then ranOut core m pos true else
    let ix := match idxPiece d pos with
      | none => EngRead.ok [] [] m.st
      | some (e, n) => engRead m.st u c.ctx c.high e n
    match ix with
    | .fail s => ⟨(flush core { m with st := s }).note 2, pos, true, false⟩
    | .hold s => ranOut core { m with st := unmade m.st s } pos false
    | .ok b bad s =>
      if firstBad bad ≠ 0 then ⟨(flush core { m with st := s }).note (if firstBad bad = 1 then 1 else 6), pos, true, false⟩
      else match moveElem u c.ctx c.high c.w3 m.st { m with st := s } (shapeElem d c pos (signed (8 * d.isize) (fromBytes b))) with
        | .ok m => moveShape u d c m (pos + 1) left
        | .hold m => ⟨m, pos, false, true⟩
        | .stop m => ⟨m, pos, true, false⟩

/-! ### Decompression (R162) -/

/-- The bytes of a match k long that repeats the output from D positions back, newest output first: good and bad bytes alike
(R169). -/
def backRef (out : List (Nat × Nat)) (back k : Nat) : List (Nat × Nat) :=
  (List.range k).map fun i => out.getD (back - 1 - i % back) (0, 0)

/-- What one token comes to: the decompression goes on, the copy waits, or it stops with a cause. -/
inductive Token where
  | go (x : Unpack) (s : State)
  | hold (s : State)
  | stop (cause : Nat) (s : State)

/-- Output decoded so far, newest first, and how much. -/
def Unpack.made (x : Unpack) : List (Nat × Nat) := x.todo.reverse ++ x.out
def Unpack.add (x : Unpack) (l : List (Nat × Nat)) : Unpack := { x with todo := x.todo ++ l }

/-- The next piece of source: literal bytes as far as one line holds them, or a token and its operand. A token that would pass
the output's end is malformed whatever follows it. DEDUCED, log entry 42. -/
def nextToken (u : EngUnit) (c : Copy) (len : Nat) (x : Unpack) (s : State) : Token :=
  let n := x.made.length
  let at1 := fun (o : Nat) => c.w0 + BitVec.ofNat 64 o
  let get := fun (s : State) (o k : Nat) => engRead s u c.ctx c.high (at1 o) k
  let rest := fun (bad : List Nat) => List.replicate (len - n) (0, firstBad bad)
  if 0 < x.lit then
    let k := min x.lit (64 - (at1 x.src).toNat % 64)
    match get s x.src k with
    | .fail s => .stop 2 s
    | .hold s' => .hold (unmade s s')
    | .ok d bad s => .go ({ x with src := x.src + k, lit := x.lit - k }.add (d.map fun (b : Byte) => (b.toNat, firstBad bad))) s
  else match get s x.src 1 with
    | .fail s => .stop 2 s
    | .hold s' => .hold (unmade s s')
    | .ok tb bad s1 =>
      let s0 := s
      let s := s1
      if firstBad bad ≠ 0 then .go ({ x with src := x.src + 1 }.add (rest bad)) s else
      let t := fromBytes tb
      let k := if t < 0x80 then t + 1 else (t - (if t < 0xC0 then 0x80 else 0xC0)) + 4
      if len < n + k then .stop 4 s
      else if t < 0x80 then .go { x with src := x.src + 1, lit := k } s
      else match get s (x.src + 1) 2 with
        | .fail s => .stop 2 s
        | .hold s' => .hold (unmade s0 s')
        | .ok d bad s =>
          let f := fromBytes d
          let y := { x with src := x.src + 3 }
          if firstBad bad ≠ 0 then .go (y.add (rest bad)) s
          else if t < 0xC0 then
            (if c.dict.length < f + k then .stop 4 s else .go (y.add ((slice c.dict f k).map fun b => (b.toNat, 0))) s)
          else if f = 0 ∨ n < f then .stop 4 s
          else .go (y.add (backRef x.made f k)) s

/-- Write the first k decoded bytes, which stand in one aligned 8-byte part of the destination, as one. -/
def writePart (u : EngUnit) (c : Copy) (m : Mover) (x : Unpack) (k : Nat) : Moved × Unpack :=
  let p := x.todo.take k
  match engLands m.st u c.ctx c.high [(c.w1 + BitVec.ofNat 64 x.out.length, p.map fun b => BitVec.ofNat 8 b.1)] with
  | .fail s => (.stop ({ flush (coreOf c.ctx) { m with st := s } with stop := true }.note 2), x)
  | .hold s => (.held (coreOf c.ctx) { m with st := unmade m.st s }, x)
  | .ok l s =>
    let m := (packetsOf (p.map (·.2)) k 0 l).foldl (addPacket (coreOf c.ctx)) { m with st := dropWords s c.ctx u.key }
    (if m.stop then .stop (flush (coreOf c.ctx) m) else .ok m, { x with out := p.reverse ++ x.out, todo := x.todo.drop k })

/-- A stream stops with a cause: output decoded before it that fills no aligned part is written as it is (R162, R167). -/
def endStream (u : EngUnit) (c : Copy) (m : Mover) (x : Unpack) (cause : Nat) : RunResult × Unpack :=
  let core := coreOf c.ctx
  if x.todo.isEmpty then (⟨(flush core m).note cause, x.out.length, true, false⟩, x)
  else match writePart u c m x x.todo.length with
    | (.hold m, y) => (⟨m, x.out.length, false, true⟩, y)
    | (.stop m, y) => (⟨m.note cause, y.out.length, true, false⟩, y)
    | (.ok m, y) => (⟨(flush core m).note cause, y.out.length, true, false⟩, y)

/-- Decompress on from x: write each aligned 8-byte part of the destination once it is decoded whole (R166, R329), and decode
more. -/
def decompress (u : EngUnit) (c : Copy) (len : Nat) : Nat → Mover → Unpack → RunResult × Unpack
  | 0, m, x => (ranOut (coreOf c.ctx) m x.out.length (decide (len ≤ x.out.length)), x)
  | fuel + 1, m, x =>
    let n := x.out.length
    let k := inlineStep c n len
    if len ≤ n then (ranOut (coreOf c.ctx) m n true, x)
    else if k ≤ x.todo.length then match writePart u c m x k with
      | (.ok m, y) => decompress u c len fuel m y
      | (.hold m, y) => (⟨m, n, false, true⟩, y)
      | (.stop m, y) => (⟨m, n, true, false⟩, y)
    else match nextToken u c len x m.st with
      | .go y s => decompress u c len fuel { m with st := s } y
      | .hold s => (ranOut (coreOf c.ctx) { m with st := s } n false, x)
      | .stop cause s => endStream u c { m with st := s } x cause

/-! ### A copy's run -/

/-- The request that a copy is, among those of all cores. -/
def copyKey (c : Copy) : Nat := (coreOf c.ctx + 1) * 2 ^ 56 + c.ch * 2 ^ 48 + c.seq
/-- The transfer unit of a tile at work for a copy. -/
def copyUnit (tile : Nat) (c : Copy) : EngUnit := { tile := tile, key := copyKey c, row := decide (w3Row c.w3 ≠ 0) }

/-- R161: the row that an address of the unit's lies in, by its translation, whatever that permits, since the copy makes no access
there: none while what translates it is out of reach (R364), and no row where there is none. -/
def peekRow (s : State) (a : Nat) (high : BitVec 16) (e : Word) : Option (Option Nat) :=
  let va := widen high e
  if isSliceVA va then some none else
  match translate s (coreOf a) (getCtx s a).troot va 4 with
  | .ok (t, _) => some (some (rowOf (forwarded s (t.frame + va.toNat % 2 ^ t.log))))
  | .error t => if t.waits then none else
    some ((hintLeaf s (coreOf a) (getCtx s a).troot va).map fun r => rowOf (forwarded s (r.1.frame + va.toNat % 2 ^ r.1.log)))

/-- R161: after the last access, ROW 01 leaves the last reserved bank, ROW 10 closes it: of the rows that still carry the copy's
reservation, the one that the copy accessed last in row mode. DESIGN CHOICE, log entry 22. -/
def settleRow (s : State) (c : Copy) : State :=
  if w3Row c.w3 = 2 then match (s.reserved.filter (·.key = copyKey c)).getLast? with
    | some r => { s with reserved := s.reserved.filter (· ≠ r) }
    | none => s
  else s

/-- How the notify write came out. -/
inductive Notified where
  | ok (s : State)
  | hold (s : State)
  | fail (s : State)

/-- Write the notify word (R165): at each destination of a multicast whose notify address lies in word 1's tile. A write that
has to wait is made later (R169, R107). -/
def writeNotify (s : State) (u : EngUnit) (c : Copy) (addr : Word) (v : Nat) : Notified :=
  if addr.toNat % 8 ≠ 0 then .fail s else
  let va := widen c.high addr
  let same := isSliceVA va && isSliceVA (widen c.high c.w1) && decide (bits addr 29 18 = bits c.w1 29 18)
  let ws := if same then mcast c.w3 [(addr, toBytes 8 v)] else [(addr, toBytes 8 v)]
  match engLands s u c.ctx c.high ws with
  | .ok l s => l.foldl (fun acc x => match acc with
      | .ok s => match engServe s u.place x.1 x.2.1 x.2.2 with
        | (0, s') => .ok s'
        | (_, s') => .fail s'
      | z => z) (Notified.ok s)
  | .hold s => .hold s
  | .fail s => .fail s

/-- Finish a run: its notify word, its rows, and what is left of it in the FIFO. -/
def finishRun (u : EngUnit) (c : Copy) (r : RunResult) (notify : Option (Word × Nat)) : Copy × State :=
  let c := { c with started := true, pos := r.pos, err := r.m.err }
  let done := fun (c : Copy) (s : State) => ({ c with moved := true }, dropWords (settleRow s c) c.ctx u.key)
  if !r.ended then (c, r.m.st)
  else match (if r.notify then notify else none) with
    | none => done c r.m.st
    | some (addr, v) => match writeNotify r.m.st u c addr v with
      | .ok s' => done c s'
      | .hold s' => (c, unmade r.m.st s')
      | .fail s' => done { c with err := if c.err = 0 then 2 else c.err } s'

/-- Steps of this run, of those that are left. -/
def chunkOf (s : State) (n : Nat) : Nat := if s.sched.copyChunk = 0 then n else min n s.sched.copyChunk

/-- Run a copy as far as it goes now: to its end, to the access that holds it, or as many steps as the schedule gives it. A
descriptor in a lost line stops it. DESIGN CHOICE, log entry 25. -/
def runCopy (s : State) (tile : Nat) (c : Copy) : Copy × State :=
  let u := copyUnit tile c
  let m : Mover := { st := s, err := c.err }
  if inlineForm c.w2 then
    let len := inlineLen c.w2
    if len = 0 then
      -- R161: closing a row that this unit holds
      if w3Row c.w3 ≠ 2 then ({ c with started := true, moved := true }, s) else
      match peekRow s c.ctx c.high c.w0 with
      | none => ({ c with started := true }, s)
      | some row => ({ c with started := true, moved := true },
          { s with reserved := s.reserved.filter fun r => r.tile ≠ tile || some r.row ≠ row })
    else if w3Op c.w3 = 2 then
      let c := if c.started then c else { c with dict := (getTile s tile).dict }
      let r := decompress u c len (chunkOf s (3 * len + 2)) m c.unpack
      finishRun u { c with unpack := r.2 } r.1 none
    else finishRun u c (moveInline u c len m c.pos (chunkOf s (len + 1))) none
  else
    let d := if c.desc.isEmpty then engRead s u c.ctx c.high c.w2 256 else .ok c.desc [] s
    -- it stops before its first element: the row that its descriptor was read from is settled (R161)
    let ends := fun (err : Nat) (s : State) => finishRun u c ⟨{ st := s, err := err }, c.pos, true, false⟩ none
    match d with
    | .fail s => ends 2 s
    | .hold s' => ({ c with started := true }, unmade s s')
    | .ok b bad s1 =>
      if firstBad bad ≠ 0 then ends (if firstBad bad = 1 then 1 else 6) s1 else
      let d := parseDesc b
      if d.malformed c.w1 c.w3 then ends 3 s1 else
      -- the words that came for the descriptor are used; those that come for its elements stay until theirs is moved
      let s1 := if c.desc.isEmpty then dropWords s1 c.ctx u.key else s1
      let r := moveShape u d c { m with st := s1 } c.pos (chunkOf s (d.total + 1))
      finishRun u { c with desc := b } r (if w3Notify c.w3 then some (d.nAddr, d.nVal) else none)

/-! ### `cpy` and its companions (R171 to R173) -/

/-- Has every store, a send counting as one (R124), that a push releases been acknowledged (R166), but for records that have arrived
and wait for room (R277), which hold no copy (R172)? -/
def gateOpen (s : State) (a gate : Nat) : Bool := !pending s a fun e => isStoreOrSend e && e.seq < gate

/-- The gate of a push by the focus: its stores so far. An engine member's own are those it acquired by `hand`, which waits
for them. -/
def gateNow (s : State) : Nat := if isEngine s.who then 0 else s.cur.seqNext

/-- The tile of the stream port that the focus holds, an engine member as core 3's low context (R294). -/
def portTile (s : State) : Option Nat := match (myCore s).port with
  | some p => if p.ctx = asCtx s.who then some p.tile else none
  | none => none

def highOf (s : State) : BitVec 16 := vaHigh (getCtx s (asCtx s.who))

/-- The shared body of `cpy` and `cpy.try`; `full` is what they do with a full FIFO. -/
def copyBody (full : State → Body) (d a : BitVec 5) (s : State) : Body :=
  let w := fun k => rd s (a + BitVec.ofNat 5 k)
  if badRequest (highOf s) (portTile s) (w 0) (w 1) (w 2) (w 3) then .trap illegalOperand
  else
    let c := myCore s
    if 16 ≤ c.fifo.length then full s
    else
      let ch := bits (w 3) 1 0
      let seq := c.cpyNext.toList.getD ch 1
      let e : Copy := { ch := ch, seq := seq, ctx := asCtx s.who, high := highOf s, w0 := w 0, w1 := w 1, w2 := w 2, w3 := w 3,
                        gate := gateNow s, order := (getCtx s (asCtx s.who)).seqNext,
                        turn := c.fifo.foldl (fun n x => max n x.turn) 0 }
      let c := { c with fifo := c.fifo ++ [e], cpyNext := setIx c.cpyNext ch ((seq + 1) % 2 ^ 48) }
      .done (wr (putMyCore s c) d (BitVec.ofNat 64 (ch * 2 ^ 62 + 2 ^ 61 + seq))) []

def copyUses (d a : BitVec 5) : List RegUse := useS d :: (List.range 4).map fun k => (0, a.toNat + k)

def execCpy (d a : BitVec 5) (st : BitVec 3) (s : State) : Host.Outcome State Fault Refusal :=
  issue s xferToo 4 st (copyUses d a) (copyBody (fun s => .wait s .stalled) d a)
def execCpyTry (d a : BitVec 5) (st : BitVec 3) (s : State) : Host.Outcome State Fault Refusal :=
  issue s xferToo 4 st (copyUses d a) (copyBody (fun s => .done (wr s d 1) []) d a)

/-- Is sequence number x at or before y, modulo 2^48? -/
def seqLe (x y : Nat) : Bool := decide ((y + 2 ^ 48 - x) % 2 ^ 48 < 2 ^ 47)

/-- Is x after y: 0 < (x − y) mod 2^48 < 2^47? -/
def seqAfter (x y : Nat) : Bool := let d := (x + 2 ^ 48 - y) % 2 ^ 48; decide (0 < d ∧ d < 2 ^ 47)

/-- R172: the shared test of an identifier; `wait` and `hit` are what an uncovered and a covered one do. -/
def copyTest (a : BitVec 5) (wait hit : State → Body) (s : State) : Body :=
  let i := rd s a
  let ch := bits i 63 62
  let seq := bits i 47 0
  let c := myCore s
  let last := c.cpyNext.toList.getD ch 1 + 2 ^ 48 - 1
  if bits i 61 61 = 0 || bits i 60 48 ≠ 0 then .trap illegalOperand
  else if seqAfter seq (last % 2 ^ 48) then .trap illegalOperand
  else if !seqLe seq (bits (c.cpydone.toList.getD ch 0) 47 0) then wait s
  else
    let e := c.cpyerr.toList.getD ch 0
    if bits e 63 63 = 1 && seqLe (bits e 47 0) seq then .trap (copyTrap ch e) else hit s

def execCpyid (d a : BitVec 5) (st : BitVec 3) (s : State) : Host.Outcome State Fault Refusal :=
  issue s xferToo 4 st [useS d, useS a] (copyTest a (fun s => .done (wr s d 0) []) fun s => .done (wr s d 1) [])
def execCpywait (a : BitVec 5) (st : BitVec 3) (s : State) : Host.Outcome State Fault Refusal :=
  issue s xferToo 4 st [useS a] (copyTest a (fun s => .wait s .stalled) fun s => .done s [])

/-- `dict.ld` (R173, R109). Its faults report ACCESS 0, and the fill takes the bytes of a poisoned line as they stand. DEDUCED,
log entry 42. So it does those of a staging area that an axis unit withholds (R264). DESIGN CHOICE, log entry 42. -/
def execDictLd (a : BitVec 5) (k : BitVec 7) (st : BitVec 3) (s : State) : Host.Outcome State Fault Refusal :=
  issue s xferToo 4 st [useS a] fun s =>
    let e := rd s a
    let va := widen (highOf s) e
    let loc := sliceOfVA va
    let tile := tileOf s.who
    if !isSliceVA va || sliceTile loc ≠ tile || decide (2 ^ 18 < sliceOff loc + 1024 * k.toNat) then .trap illegalOperand
    else if e.toNat % 64 ≠ 0 then .trap { code := 0x03, access := 0, va := va }
    else if !sliceAllows s s.who tile then .trap { code := 0x0D, access := 0, va := va }
    else
      let t := getTile s tile
      if t.dictNext.isSome then .wait s .stalled
      else .done (putTile s tile { t with dictNext := some (readBytes s loc (1024 * k.toNat)) }) []

/-- DICT_FILL_COMPLETE. -/
def execDictFillComplete (tile : Nat) (s : State) : Host.Outcome State Fault Refusal :=
  let t := getTile s tile
  match t.dictNext with
  | some d => .next (putTile s tile { t with dict := d, dictNext := none })
  | none => .next s

/-! ### COPY_START and COPY_COMPLETE -/

/-- Does a store that joined the port's stream before a copy still stand before it (R144)? -/
def portBehind (s : State) (c : Copy) : Bool :=
  let p := fun (e : StoreEntry) => e.chan = 3 && decide (e.seq < c.order)
  (getCtx s c.ctx).buf.any p || s.net.any fun m => m.src = c.ctx && p m.entry

/-- May copy i of a core's FIFO run now: it has not moved; its gate is open; no earlier copy of its channel is still to
move; its port is routed and its turn has come in the port's stream; a decompression waits for a pending dictionary fill (R166,
R151, R144, R162). -/
def copyReady (s : State) (core i : Nat) (c : Copy) : Bool :=
  let k := getCore s core
  let before := k.fifo.take i
  !c.moved && gateOpen s c.ctx c.gate && !before.any (fun x => x.ch = c.ch && !x.moved) &&
    (w3Mch c.w3 ≠ 3 || (k.port.all (·.routed) && !portBehind s c &&
      !before.any fun x => w3Mch x.w3 = 3 && x.ctx = c.ctx && !x.moved)) &&
    (w3Op c.w3 ≠ 2 || c.started || (getTile s (core / 4)).dictNext.isNone)

/-- The copy of a core's FIFO that runs next: of those that may run the one whose turn it is, so that one that is held does
not keep the others from running (R151). -/
def nextCopy (s : State) (core : Nat) : Option Nat :=
  let f := (getCore s core).fifo
  let turn := fun i => (f[i]?).elim 0 (·.turn)
  ((List.range f.length).filter fun i => (f[i]?).any (copyReady s core i)).foldl (fun best i => match best with
    | some j => if turn i < turn j then some i else some j
    | none => some i) none

/-- R151: the cores of a tile in round-robin order. -/
def rrCores (tile rr : Nat) : List Nat := (List.range 4).map fun k => 4 * tile + (rr + k) % 4

/-- COPY_START: the transfer unit of the core's tile serves the core whose turn it is, and runs its copy. -/
def execCopyStart (core : Nat) (s : State) : Host.Outcome State Fault Refusal :=
  let tile := core / 4
  let t := getTile s tile
  let running := ((rrCores tile 0).map fun k => ((getCore s k).fifo.filter fun c => c.started && !c.moved).length).foldl (· + ·) 0
  if (rrCores tile t.rrCopy).find? (fun k => (nextCopy s k).isSome) ≠ some core then .next s else
  match nextCopy s core with
  | none => .next s
  | some i => match (getCore s core).fifo[i]? with
    | none => .next s
    | some c =>
      if !c.started && 16 ≤ running then .next s else
      let s := putTile s tile { t with rrCopy := (core + 1) % 4 }
      let r := runCopy s tile c
      let k := getCore r.2 core
      let turn := k.fifo.foldl (fun n x => max n x.turn) 0 + 1
      .next (putCore r.2 core { k with fifo := k.fifo.set i { r.1 with turn := turn } })

/-- Advance a completed sequence over the numbers that completed early: ch is the channel. -/
def advanceSeq (early : List (Nat × Nat)) (ch : Nat) : Nat → Nat → Nat × List (Nat × Nat)
  | 0, done => (done, early)
  | fuel + 1, done =>
    let n := (done + 1) % 2 ^ 48
    if early.contains (ch, n) then
      let r := advanceSeq early ch fuel n
      (r.1, r.2.filter (· ≠ (ch, n)))
    else (done, early)

/-- R167: record an error. -/
def recordErr (old : Word) (cause seq : Nat) : Word :=
  if cause = 0 then old
  else if bits old 63 63 = 1 then setBits old 62 62 1
  else BitVec.ofNat 64 (2 ^ 63 + cause * 2 ^ 59 + seq)

/-- COPY_COMPLETE: the oldest copy of the core that has moved everything frees its entry. -/
def execCopyComplete (core : Nat) (s : State) : Host.Outcome State Fault Refusal :=
  let k := getCore s core
  match k.fifo.find? (·.moved) with
  | none => .next s
  | some c =>
    let d := k.cpydone.toList.getD c.ch 0
    let r := advanceSeq ((c.ch, c.seq) :: k.cpyEarly) c.ch (k.cpyEarly.length + 1) (bits d 47 0)
    .next (putCore s core { k with
      fifo := k.fifo.erase c
      cpydone := setIx k.cpydone c.ch (setBits d 47 0 r.1)
      cpyEarly := r.2
      cpyerr := setIx k.cpyerr c.ch (recordErr (k.cpyerr.toList.getD c.ch 0) c.err c.seq) })

/-! ### Streams (R174 to R177) -/

/-- A stream descriptor's fields, and whether it breaks R174. -/
def parseStream (b : List Byte) : Stream × Bool :=
  let counts := (List.range 4).map fun k => at_ b (16 + 12 * k) 4
  let strides := (List.range 4).map fun k => signed 64 (at_ b (20 + 12 * k) 8)
  let x : Stream := { bound := true, output := at_ b 8 1 % 2 = 1, base := BitVec.ofNat 64 (at_ b 0 8), counts := counts,
                      strides := strides }
  (x, at_ b 0 8 % 32 ≠ 0 || at_ b 8 1 / 2 ≠ 0 || at_ b 9 7 ≠ 0 || counts.any (· = 0) ||
    strides.any (fun d => d % 32 ≠ 0) || decide (2 ^ 48 - 1 < x.total))

def execSbind (d a : BitVec 5) (n : BitVec 3) (st : BitVec 3) (s : State) : Host.Outcome State Fault Refusal :=
  issue s coreOnly 4 st [useS d, useS a, (1, 56 + n.toNat)] fun s =>
    let k : Fin 8 := n.toFin
    if s.cur.streams[k].bound then .done (wr s d 1) [] else
    match checkAccess s s.who (rd s a) 64 0 with
    | .error t => .trap t
    | .ok l => (loadAll l.st 64 [(rd s a, l)]).body s fun vs s1 =>
      let r := parseStream (vs.headD [])
      if r.2 then .keep (raise s1 illegalOperand) else
      let x := { r.1 with high := highOf s, gate := s.cur.seqNext, desc := rd s a }
      .done (wr { s1 with cur := putStream s1.cur k x } d 0) []

/-- The address of element n of a stream's pattern (R174), loop 0 fastest. -/
def streamAddr (x : Stream) (n : Nat) : Word :=
  let o := ((x.counts.zip x.strides).foldl (fun (acc : Nat × Int) p =>
    (acc.1 / p.1, acc.2 + (acc.1 % p.1 : Nat) * p.2)) (n, 0)).2
  x.base + ofInt o

/-- The transfer unit of a context's tile at work for an element of its stream n. -/
def streamUnit (ctx n elem : Nat) : EngUnit := { tile := tileOf ctx, key := n + 8 * elem }

/-- A stream that is unbound asks for nothing more. -/
def forgetStream (s : State) (n : Nat) : State :=
  putCtx s s.who (s.cur.forget fun key => decide (key < 2 ^ 56) && key % 8 = n)

def execSfree (d : BitVec 5) (n : BitVec 3) (st : BitVec 3) (s : State) : Host.Outcome State Fault Refusal :=
  issue s coreOnly 4 st [useS d, (1, 56 + n.toNat)] fun s =>
    let k : Fin 8 := n.toFin
    let x := s.cur.streams[k]
    if !x.bound then .done (wr s d 1) []
    else if x.output && !x.buf.isEmpty then .wait s .stalled
    else if x.output && x.fault then .keep (raiseStream s { code := 0x19, info := 8 + k.val })
    else
      let s := forgetStream s k.val
      let c := putStream s.cur k {}
      .done (wr { s with cur := c.vw (BitVec.ofNat 6 (56 + k.val)) 0 } d 0) []

/-- Of a stream that is not bound every field reads 0. DESIGN CHOICE, log entry 74. -/
def execSstat (d : BitVec 5) (n : BitVec 3) (st : BitVec 3) (s : State) : Host.Outcome State Fault Refusal :=
  issue s coreOnly 4 st [useS d] fun s =>
    let x := s.cur.streams[(n.toFin : Fin 8)]
    let v := if !x.bound then 0 else
      2 ^ 63 + (if x.output then 2 ^ 62 else 0) + (if x.fault || x.buf.any (·.err ≠ 0) then 2 ^ 61 else 0) +
        x.buf.length * 2 ^ 56 + (x.total - x.taken)
    .done (wr s d (BitVec.ofNat 64 v)) []

/-- STREAM_FETCH: an input stream fetches its next element, at most four ahead, once the stores that the bind released are
acknowledged. -/
def execStreamFetch (ctx n : Nat) (s : State) : Host.Outcome State Fault Refusal :=
  if h : n < 8 then
    let k : Fin 8 := ⟨n, h⟩
    let x := (getCtx s ctx).streams[k]
    if !x.bound || x.output || x.total ≤ x.moved || 4 ≤ x.buf.length || !gateOpen s ctx x.gate then .next s else
    let put := fun (s : State) (e : StreamElem) =>
      let c := getCtx s ctx
      let x := c.streams[k]
      putCtx s ctx (putStream c k { x with buf := x.buf ++ [e], moved := x.moved + 1 })
    let u := streamUnit ctx n x.moved
    match engRead s u ctx x.high (streamAddr x x.moved) 32 with
    | .hold s' => .next (unmade s s')
    | .fail s => .next (put (dropWords s ctx u.key) { err := 2 })
    | .ok d bad s => .next (put (dropWords s ctx u.key) { data := vregOfBytes d, err := firstBad bad })
  else .next s

/-- STREAM_WRITE: an output stream writes its next pushed element; a failure sets FAULT. -/
def execStreamWrite (ctx n : Nat) (s : State) : Host.Outcome State Fault Refusal :=
  if h : n < 8 then
    let k : Fin 8 := ⟨n, h⟩
    let x := (getCtx s ctx).streams[k]
    match x.buf with
    | [] => .next s
    | e :: _ =>
      if !x.bound || !x.output || !gateOpen s ctx x.gate then .next s else
      let put := fun (s : State) (bad : Bool) =>
        let c := getCtx s ctx
        let x := c.streams[k]
        putCtx s ctx (putStream c k { x with buf := x.buf.drop 1, moved := x.moved + 1, fault := x.fault || bad })
      let u := streamUnit ctx n x.moved
      match engLands s u ctx x.high [(streamAddr x x.moved, toBytes 32 e.data.toNat)] with
      | .hold s' => .next (unmade s s')
      | .fail s => .next (put s true)
      | .ok l s =>
        let r := l.foldl (fun (acc : Bool × State) p =>
          let w := engServe acc.2 u.place p.1 p.2.1 p.2.2
          (acc.1 || decide (w.1 ≠ 0), w.2)) (false, s)
        .next (put r.2 r.1)
  else .next s

end Sys2Proof.Machine
end

