-- ==== Sys2Proof/Machine/Messages.lean ====
section
/-! DEFINITION. Messages (R142, R143), stream ports (R144, R145) and the combining tree (R146 to R150, R371). -/

namespace Sys2Proof.Machine

open Sys2Proof

/-! ### `send` -/

/-- Sends of a context that are not yet acknowledged (R142), a counted one on the spill ring of a saved region among them (R276). -/
def outstandingSends (s : State) (a : Nat) : Nat :=
  ((getCtx s a).buf.filter isSend).length + (s.net.filter fun m => m.src = a && isSend m.entry).length +
    (s.replies.filter fun r => r.dst = a && isSend r.entry).length + (s.remotes.filter (·.ctx = a)).length +
    (s.regions.flatMap fun g => g.spill.filter fun x => x.due.any fun m => m.src = a && isSend m.entry).length

/-- The record that a header and eight registers name. -/
def headerRec (s : State) (h : Word) (regs : Vector Word 8) : TaskRec :=
  { cls := BitVec.ofNat 8 (bits h 23 16), cid := BitVec.ofNat 8 (bits h 31 24), pri := bits h 33 33 = 1, cnt := bits h 32 32 = 1,
    src := BitVec.ofNat 16 (coreOf s.who), carried := regs }

/-- A send enters the store buffer on channel 0; a remote one leaves at the issuing core's tile. DEDUCED, log entry 15. -/
def pushSend (s : State) (h : Word) (d : BitVec 5) (ordered : Bool) : State :=
  let regs := carried8 s.cur d
  let remote := bits h 53 53 = 1
  let e : StoreEntry := { loc := homeLoc (if remote then coreOf s.who else bits h 13 0) 0xC000
                          body := if remote then .remote h regs else .record (BitVec.ofNat 14 (bits h 13 0)) (headerRec s h regs)
                          ordered := ordered
                          seq := s.cur.seqNext
                          tag := tagOf s s.who }
  { s with cur := { s.cur with buf := s.cur.buf ++ [e], seqNext := s.cur.seqNext + 1 } }

def execSend (d a : BitVec 5) (o : BitVec 1) (st : BitVec 3) (s : State) : Host.Outcome State Fault Refusal :=
  issue s coreOnly 4 st (useS a :: (List.range 8).map fun k => (0, d.toNat + k)) fun s =>
    let h := rd s a
    if bits h 63 54 ≠ 0 || bits h 15 14 ≠ 0 then .trap illegalOperand
    else if bits h 53 53 = 0 && !sliceAllows s s.who (bits h 13 0 / 4) then .trap { code := 0x0D }
    else if decide (16 ≤ outstandingSends s s.who) || bufFull s then .wait s .stalled
    else .done (pushSend s h d (o = 1)) []

/-! ### Stream ports -/

/-- The directed links of the route from one cluster to another, X first then Y (R144): horizontal ones as (0, x, y, step up
or down), vertical ones as (1, x, y, step). -/
def routeLinks (src dst : Nat) : List (Nat × Nat × Nat × Bool) :=
  let x0 := meshX src
  let y0 := meshY src
  let x1 := meshX dst
  let y1 := meshY dst
  ((List.range 16).filterMap fun x =>
    if x0 ≤ x ∧ x < x1 then some (0, x, y0, true) else if x1 ≤ x ∧ x < x0 then some (0, x, y0, false) else none) ++
  ((List.range 16).filterMap fun y =>
    if y0 ≤ y ∧ y < y1 then some (1, x1, y, true) else if y1 ≤ y ∧ y < y0 then some (1, x1, y, false) else none)

/-- Has the route of another core's port taken this link? -/
def linkTaken (s : State) (core : Nat) (l : Nat × Nat × Nat × Bool) : Bool :=
  s.cores.any fun c => c.1 ≠ core && match c.2.port with
    | some q => ((routeLinks (c.1 / 64) (q.tile / 16)).take q.held).contains l
    | none => false

def execPortOpen (d a : BitVec 5) (st : BitVec 3) (s : State) : Host.Outcome State Fault Refusal :=
  issue s coreOnly 4 st [useS d, useS a] fun s =>
    let va := vaOf s (rd s a)
    let tile := sliceTile (sliceOfVA va)
    if !isSliceVA va || tile / 16 = clusterOf s.who then .trap illegalOperand
    else if !sliceAllows s s.who tile then .trap { code := 0x0D }
    else match (myCore s).port with
      | some p => .done (wr s d (if p.ctx = s.who then 2 else 1)) []
      | none => .done (wr (putMyCore s { myCore s with port := some { ctx := s.who, tile := tile, routed := false } }) d 0) []

/-- PORT_ROUTE_OPEN: the open flit takes the next link of its way, which it holds from then on, unless another route holds that
one; behind the last link the route is complete (R137). DEDUCED, log entry 38. -/
def execPortRouteOpen (core : Nat) (s : State) : Host.Outcome State Fault Refusal :=
  let c := getCore s core
  match c.port with
  | none => .next s
  | some p =>
    let links := routeLinks (core / 64) (p.tile / 16)
    if p.routed || (links[p.held]?).any (linkTaken s core) then .next s
    else .next (putCore s core { c with
      port := some { p with
        held := p.held + 1
        routed := decide (links.length ≤ p.held + 1)
        reopening := p.reopening && decide (p.held + 1 < links.length) } })

/-- `port.close`: the marker follows all earlier port traffic, so it issues once that traffic has left. DEDUCED, log entry
38. -/
def execPortClose (d : BitVec 5) (st : BitVec 3) (s : State) : Host.Outcome State Fault Refusal :=
  issue s coreOnly 4 st [useS d] fun s =>
    let c := myCore s
    match c.port with
    | some p =>
      if p.ctx ≠ s.who then .done (wr s d 1) []
      else if s.cur.buf.any (fun e => e.chan = 3) || c.fifo.any (fun x => x.ctx = s.who && w3Mch x.w3 = 3 && !x.moved)
      then .wait s .stalled
      else .done (wr (putMyCore s { c with port := none }) d 0) []
    | none => .done (wr s d 1) []

/-! ### The combining tree -/

def treeLoc (a off : Nat) : Nat := homeLoc (coreOf a) ((if isHigh a then 0xF000 else 0xF800) + off)
def hScope (h : Nat) : Nat := nbits h 23 22
def hType (h : Nat) : Nat := nbits h 21 20
def hOp (h : Nat) : Nat := nbits h 19 16

/-- R147: does a header or a value break the rules? -/
def badCollective (h v : Nat) : Bool :=
  nbits h 63 63 ≠ 0 || nbits h 61 38 ≠ 0 || hScope h = 3 || decide (5 < hOp h) || (2 ≤ hType h && decide (1 < hOp h)) ||
    (hType h = 2 && nbits v 63 32 ≠ 0) || (hType h = 3 && nbits v 63 16 ≠ 0)

/-- The region of a context, as its RCB. -/
def regionTag (s : State) (a : Nat) : Nat := match regionOf s (coreOf a) with
  | some (rcb, _) => rcb
  | none => 0

/-- Does the node hold two unfinished instances of this ID, neither of this number? (R371) -/
def nodeFull (node : List TreeInst) (tag h : Nat) : Bool :=
  let mine := node.filter fun x => x.tag = tag && nbits x.hdr 7 0 = nbits h 7 0
  decide (2 ≤ mine.length) && mine.all fun x => nbits x.hdr 15 8 ≠ nbits h 15 8

/-- `tree.inj` (R148): its push waits for the earlier stores, and sends, that its scope covers (R124). DEDUCED, log entry 21. -/
def execTreeInj (d a : BitVec 5) (st : BitVec 3) (s : State) : Host.Outcome State Fault Refusal :=
  issue s coreOnly 4 st [useS d, useS a] fun s =>
    let h := (rd s d).toNat
    let v := (rd s a).toNat
    let tail := readNat s (treeLoc s.who 0x208) 8
    if badCollective h v then .trap illegalOperand
    else if decide (16 ≤ tail - readNat s (treeLoc s.who 0x200) 8) ||
        nodeFull (getCluster s (clusterOf s.who)).node (regionTag s s.who) h ||
        coveredBlocked s s.who (hScope h + 2) (fun _ => true) then .wait s .stalled
    else
      let s := sysWrite (sysWrite s (treeLoc s.who (16 * (tail % 16))) 8 v) (treeLoc s.who (16 * (tail % 16) + 8)) 8 h
      .done (sysWrite s (treeLoc s.who 0x208) 8 (tail + 1)) []

def execTreeExt (d a : BitVec 5) (st : BitVec 3) (s : State) : Host.Outcome State Fault Refusal :=
  issue s coreOnly 4 st [useS d, useS a] fun s =>
    let head := readNat s (treeLoc s.who 0x210) 8
    if head = readNat s (treeLoc s.who 0x218) 8 then .done (wr (wr s d 0) a 0) []
    else
      let at1 := 0x100 + 16 * (head % 16)
      let v := readNat s (treeLoc s.who at1) 8
      let h := readNat s (treeLoc s.who (at1 + 8)) 8
      let s := sysWrite s (treeLoc s.who 0x210) 8 (head + 1)
      .done (wr (wr s d (BitVec.ofNat 64 v)) a (BitVec.ofNat 64 h)) []

/-- R150: combine two values under a header's OP and TYPE. -/
def treeCombine (h x v : Nat) : Nat :=
  let ty := match hType h with
    | 2 => 11
    | 3 => 9
    | _ => 18
  match hOp h with
  | 0 => if hType h = 1 then wrapTo 18 (clampInt 18 (intOf 18 x + intOf 18 v)) else arith (· + ·) Num.add ty x v
  | 1 => minMax true ty x v
  | 2 => minMax false ty x v
  | 3 => Nat.land x v
  | 4 => Nat.lor x v
  | _ => Nat.xor x v

/-- Contributions that an instance needs at level 0 (a cluster node), 1 (a die root) or 2 (the device root). -/
def treeNeed (lvl h : Nat) : Nat :=
  (match lvl with
   | 0 => nbits h 29 24
   | 1 => nbits h 35 30
   | _ => nbits h 37 36) + 1

/-- Add a contribution to a node's list; one that disagrees with its instance ends it with ERR. DEDUCED, log entry 44. The value of a
collective of one contribution is that contribution as it was injected. DESIGN CHOICE, log entry 44. -/
def treeAdd (l : List TreeInst) (tag h v : Nat) (bad : Bool) (who : List Nat) : List TreeInst :=
  if l.any fun x => x.tag = tag && nbits x.hdr 15 0 = nbits h 15 0 then
    l.map fun x =>
      if x.tag = tag && nbits x.hdr 15 0 = nbits h 15 0 then
        { x with count := x.count + 1, value := treeCombine x.hdr x.value v,
                 bad := x.bad || bad || decide (nbits x.hdr 37 16 ≠ nbits h 37 16), who := x.who ++ who }
      else x
  else l ++ [⟨tag, h, 1, v, bad, who⟩]

/-- The first instance that may finish: complete or ended, the oldest of its collective, and with room above for its partial
(R371). -/
def treeDone (lvl : Nat) (room : TreeInst → Bool) : List TreeInst → List TreeInst → Option (TreeInst × List TreeInst)
  | _, [] => none
  | before, x :: t =>
    if (x.bad || decide (treeNeed lvl x.hdr ≤ x.count)) && room x &&
        !before.any (fun y => y.tag = x.tag && nbits y.hdr 7 0 = nbits x.hdr 7 0) then some (x, before ++ t)
    else treeDone lvl room (before ++ [x]) t

/-- Results of a finished instance, on their way to every contributor: one for each contribution, so that a context which gave two gets
two (R150); ERR is 1 for a disagreement alone, whatever an injected header held there. DESIGN CHOICE, log entry 44. -/
def treeResults (s : State) (x : TreeInst) : State :=
  let h := x.hdr % 2 ^ 62 + 2 ^ 63 + (if x.bad then 2 ^ 62 else 0)
  { s with results := s.results ++ x.who.map fun a => (a, if x.bad then 0 else x.value, h, x.tag) }

/-- The device root finishes what it can. -/
def settleRoot (s : State) : Nat → State
  | 0 => s
  | n + 1 => match treeDone 2 (fun _ => true) [] s.rootInst with
    | none => s
    | some (x, l) => settleRoot (treeResults { s with rootInst := l } x) n
/-- A die root finishes what it can, and sends its partials up while the device root has room for them. -/
def settleDie (s : State) (die : Nat) : Nat → State
  | 0 => s
  | n + 1 => match treeDone 1 (fun x => hScope x.hdr = 1 || !nodeFull s.rootInst x.tag x.hdr) [] (getDie s die).root with
    | none => s
    | some (x, l) =>
      let s := putDie s die { getDie s die with root := l }
      settleDie (if hScope x.hdr = 1 then treeResults s x
        else { s with rootInst := treeAdd s.rootInst x.tag x.hdr x.value x.bad x.who }) die n
/-- A cluster node likewise. -/
def settleNode (s : State) (cl : Nat) : Nat → State
  | 0 => s
  | n + 1 =>
    let d := getDie s (cl / 64)
    match treeDone 0 (fun x => hScope x.hdr = 0 || !nodeFull d.root x.tag x.hdr) [] (getCluster s cl).node with
    | none => s
    | some (x, l) =>
      let s := putCluster s cl { getCluster s cl with node := l }
      settleNode (if hScope x.hdr = 0 then treeResults s x
        else putDie s (cl / 64) { d with root := treeAdd d.root x.tag x.hdr x.value x.bad x.who }) cl n

/-- Every node in turn, the cluster nodes first. -/
def settlePass (s : State) : State :=
  let s := (s.clusters.map (·.1)).foldl (fun s c => settleNode s c 4) s
  settleRoot ([0, 1, 2, 3].foldl (fun s d => settleDie s d 4) s) 4
/-- Unfinished instances in all nodes; each that moves goes up at most twice. -/
def treeSize (s : State) : Nat :=
  (s.clusters.map fun c => c.2.node.length).sum + (s.dies.map fun d => d.2.root.length).sum + s.rootInst.length
def settle (s : State) : Nat → State
  | 0 => s
  | n + 1 => settle (settlePass s) n

/-- TREE_CONTRIBUTION: the cluster node takes the oldest entry of a context's injection queue. -/
def execTreeContribution (ctx : Nat) (s : State) : Host.Outcome State Fault Refusal :=
  let head := readNat s (treeLoc ctx 0x200) 8
  if isEngine ctx || readNat s (treeLoc ctx 0x208) 8 ≤ head then .next s else
  let v := readNat s (treeLoc ctx (16 * (head % 16))) 8
  let h := readNat s (treeLoc ctx (16 * (head % 16) + 8)) 8
  let cl := clusterOf ctx
  let c := getCluster s cl
  if nodeFull c.node (regionTag s ctx) h then .next s else
  let s := sysWrite s (treeLoc ctx 0x200) 8 (head + 1)
  let c := getCluster s cl
  let s := putCluster s cl { c with node := treeAdd c.node (regionTag s ctx) h v false [ctx] }
  .next (settle s (3 * treeSize s))

/-- TREE_RESULT: result i is delivered into its contributor's extraction queue, when there is room and its region runs. -/
def execTreeResult (i : Nat) (s : State) : Host.Outcome State Fault Refusal :=
  match s.results[i]? with
  | none => .next s
  | some (ctx, v, h, tag) =>
    let tail := readNat s (treeLoc ctx 0x218) 8
    if regionTag s ctx ≠ tag || decide (16 ≤ tail - readNat s (treeLoc ctx 0x210) 8) then .next s else
    let s := { s with results := s.results.eraseIdx i }
    let at1 := 0x100 + 16 * (tail % 16)
    let s := sysWrite (sysWrite s (treeLoc ctx at1) 8 v) (treeLoc ctx (at1 + 8)) 8 h
    .next (sysWrite s (treeLoc ctx 0x218) 8 (tail + 1))

end Sys2Proof.Machine
end

