-- ==== Sys2Proof/Machine/Fennel.lean ====
section
/-! DEFINITION. Axis arrays (R179 to R199): descriptors and handles, the map and the victim rule, waves as line-set exchanges,
the place of an element, the map instructions, `axld` and `axst`, and the service of a home request (R71). -/

namespace Sys2Proof.Machine

open Sys2Proof

/-! ### Descriptors and handles (R179 to R182, R195) -/

/-- R179: the formats an axis array takes. -/
def axisFmt (f : Nat) : Bool := f = 2 || f = 3 || decide (7 ≤ f ∧ f ≤ 15)

/-- The used runs of a descriptor: lowest bit and length. -/
def descRuns (d : List Byte) : List (Nat × Nat) :=
  (List.range 8).filterMap fun i =>
    let w := at_ d (24 + 2 * i) 2
    if nbits w 9 8 = 0 then none else some (nbits w 5 0, nbits w 9 8 + 1)

/-- Every logical bit that the runs cover, with repeats. -/
def runBits (l : List (Nat × Nat)) : List Nat := l.flatMap fun r => (List.range r.2).map (r.1 + ·)

def AxArray.z (a : AxArray) : Nat := tySize a.fmt
/-- Positions that select the element within a 64-byte line. -/
def AxArray.lam (a : AxArray) : Nat := Nat.log2 (64 / a.z)
/-- P of R181. -/
def AxArray.pages (a : AxArray) : Nat := a.n - a.b - a.t

/-- The array that a descriptor names, in a slot, for a region of these clusters (map identity, stamps 0). -/
def parseAxis (d : List Byte) (slot rcb : Nat) (clusters : List Nat) : AxArray :=
  let n := nbits (at_ d 9 1) 5 0
  let t := nbits (at_ d 11 1) 3 0
  let first := nbits (at_ d 12 2) 11 0
  { slot := slot, region := rcb, first := first, fmt := nbits (at_ d 8 1) 3 0, n := n, b := nbits (at_ d 10 1) 4 0, t := t,
    mbase := BitVec.ofNat 64 (at_ d 0 8), soff := nbits (at_ d 16 4) 17 0, runs := descRuns d, map := List.range n,
    prev := List.range n, stamps := List.replicate n 0,
    tiles := (List.range (2 ^ t)).map fun q => clusters.getD ((first + q) / 16) 0 * 16 + (first + q) % 16 }

/-- R180, R181: is a descriptor refused? -/
def badAxis (d : List Byte) (a : AxArray) (clusters : Nat) : Bool :=
  let size := 2 ^ a.b * a.z
  let used := runBits a.runs
  at_ d 8 1 / 16 ≠ 0 || at_ d 9 1 / 64 ≠ 0 || at_ d 10 1 / 32 ≠ 0 || at_ d 11 1 / 16 ≠ 0 || at_ d 12 2 / 2 ^ 12 ≠ 0 ||
  at_ d 14 2 ≠ 0 || at_ d 16 4 / 2 ^ 18 ≠ 0 || at_ d 20 4 ≠ 0 || at_ d 40 24 ≠ 0 ||
  (List.range 8).any (fun i => nbits (at_ d (24 + 2 * i) 2) 7 6 ≠ 0 || nbits (at_ d (24 + 2 * i) 2) 15 10 ≠ 0) ||
  !axisFmt a.fmt || a.n = 0 || decide (44 < a.n) || decide (12 < a.t) || a.soff % 64 ≠ 0 ||
  decide (a.n < a.b + a.t) || decide (size < 64) || decide (65536 < size) || decide (16 * clusters < a.first + 2 ^ a.t) ||
  a.runs.any (fun r => a.n < r.1 + r.2) || decide (used.eraseDups.length ≠ used.length) ||
  (if a.pages = 0 then a.mbase ≠ 0 || decide (2 ^ 18 < a.soff + size)
   else a.mbase = 0 || a.mbase.toNat % size ≠ 0 || decide (2 ^ 18 < a.soff + 2 * size))

/-- The 19 bits of a handle that name an array in its region. -/
def AxArray.name (a : AxArray) : Nat := a.t * 2 ^ 15 + a.first * 8 + a.slot
/-- The handle (R182). -/
def AxArray.handle (a : AxArray) : Word := BitVec.ofNat 64 (2 ^ 63 + a.name)
/-- One number for an array of the device. -/
def AxArray.id (a : AxArray) : Nat := a.region * 2 ^ 19 + a.name

def findArr (s : State) (id : Nat) : Option AxArray := s.arrays.find? (·.id = id)
def putArr (s : State) (a : AxArray) : State := { s with arrays := s.arrays.map fun x => if x.id = a.id then a else x }

/-- R195: the array of a handle, for a context of its region. -/
def arrayOf (s : State) (h : Word) : Option AxArray :=
  if bits h 63 63 = 1 ∧ bits h 62 19 = 0 then
    (regionOf s (coreOf s.who)).bind fun r => findArr s (r.1 * 2 ^ 19 + bits h 18 0)
  else none

/-! ### Positions (R183) -/

/-- Where a physical index lies: a slice, or a register address in main memory. -/
inductive Spot where
  | slice (loc : Nat)
  | main (e : Word)

def AxArray.spot (a : AxArray) (x : Nat) : Spot :=
  if a.pages = 0 then .slice (sliceLoc (a.tiles.getD (x / 2 ^ a.b) 0) (a.soff + x % 2 ^ a.b * a.z))
  else .main (a.mbase + BitVec.ofNat 64 (x * a.z))

/-- The register address of a slice location (R90). -/
def sliceAddr (loc : Nat) : Word := BitVec.ofNat 64 ((2 ^ 34 - 1) * 2 ^ 30 + (loc - sliceBase))

/-- The address that an accessor uses for a spot. -/
def Spot.addr : Spot → Word
  | .slice loc => sliceAddr loc
  | .main e => e

/-! ### The wave's permutation, groups and line sets (R186) -/

def swapBits (x v u : Nat) : Nat := if x.testBit v = x.testBit u then x else Nat.xor (Nat.xor x (2 ^ v)) (2 ^ u)

/-- Where the wave carries the element at a physical index, and where it comes from. -/
def AxArray.carry (a : AxArray) (x : Nat) : Nat := a.swaps.foldl (fun x p => swapBits x p.1 p.2) x

/-- All values of some bits of a number. -/
def withBits (x : Nat) (l : List Nat) : List Nat :=
  l.foldr (fun u r => r.flatMap fun y => let c := if y.testBit u then y - 2 ^ u else y; [c, c + 2 ^ u]) [x]

/-- Numbers in rising order, without repeats. -/
def sortNat (l : List Nat) : List Nat := l.eraseDups.foldr (insertBy fun x y => decide (x ≤ y)) []

/-- The lines (by the physical index of their first element) of the line set that holds one. -/
def AxArray.lineSet (a : AxArray) (x : Nat) : List Nat :=
  let l := x / 2 ^ a.lam * 2 ^ a.lam
  let low := fun (p : Nat × Nat) => decide (min p.1 p.2 < a.lam)
  let free := (a.swaps.filter low).filterMap fun p => if max p.1 p.2 < a.lam then none else some (max p.1 p.2)
  let other := (a.swaps.filter fun p => !low p).foldl (fun x p => swapBits x p.1 p.2) l
  sortNat ((withBits l free) ++ (withBits other free))

/-- The outer positions of the wave, as block-number bits. -/
def AxArray.wBits (a : AxArray) : List Nat :=
  sortNat ((a.swaps.flatMap fun p => [p.1, p.2]).filterMap fun p => if a.b ≤ p then some (p - a.b) else none)

/-- A block number with the wave's bits clear: its group's number. -/
def AxArray.groupOf (a : AxArray) (k : Nat) : Nat := a.wBits.foldl (fun k u => if k.testBit u then k - 2 ^ u else k) k

/-- The line sets of a group in order, each by its lowest line. -/
def AxArray.lineSets (a : AxArray) (g : Nat) : List Nat :=
  let blocks := sortNat (withBits g a.wBits)
  (List.range (2 ^ a.b / 2 ^ a.lam)).flatMap fun o => blocks.filterMap fun k =>
    let x := k * 2 ^ a.b + o * 2 ^ a.lam
    if (a.lineSet x).head? = some x then some x else none

/-- Has the line set that holds a physical index been exchanged? -/
def AxArray.exchanged (a : AxArray) (x : Nat) : Bool :=
  let g := a.groupOf (x / 2 ^ a.b)
  match (a.lineSets g).findIdx? fun y => (a.lineSet x).head? = some y with
  | some i => decide (i < mapGet 0 a.cursors g)
  | none => false

/-- R188. -/
def AxArray.place (a : AxArray) (x : Nat) : Nat :=
  let new := physIndex a.map x
  if a.wave = 0 || a.exchanged new then new else physIndex a.prev x

/-- Block-number bits that the wave leaves alone, above the tile bits. -/
def AxArray.freeBits (a : AxArray) : List Nat :=
  ((List.range (a.n - a.b)).filter fun k => a.t ≤ k && !a.wBits.contains k)

/-- The d-th group of owner q, if q owns groups. -/
def AxArray.groupNo (a : AxArray) (q d : Nat) : Nat :=
  ((List.range a.freeBits.length).foldl (fun x i => if d.testBit i then x + 2 ^ (a.freeBits.getD i 0) else x) q)
def AxArray.owns (a : AxArray) (q : Nat) : Bool := a.wBits.all fun w => a.t ≤ w || !q.testBit w

/-- Groups of owner q whose progress bit is set. -/
def AxArray.doneGroups (a : AxArray) (q : Nat) : Nat :=
  (a.cursors.filter fun c => c.1 % 2 ^ a.t = q && decide ((a.lineSets c.1).length ≤ c.2)).length

/-- Has owner q exchanged everything it owns? -/
def AxArray.ownerDone (a : AxArray) (q : Nat) : Bool := !a.owns q || decide (2 ^ a.freeBits.length ≤ a.doneGroups q)

/-- The tile that owns the groups of tile q's blocks. -/
def AxArray.ownerOf (a : AxArray) (q : Nat) : Nat := a.wBits.foldl (fun k u => if u < a.t ∧ k.testBit u then k - 2 ^ u else k) q

/-- A wave whose groups are all exchanged is over. -/
def AxArray.settle (a : AxArray) : AxArray :=
  if a.wave = 2 ∧ (List.range (2 ^ a.t)).all a.ownerDone then { a with wave := 0, prev := a.map, swaps := [], cursors := [] } else a

/-! ### The victim rule (R185) -/

/-- A named bit that belongs to a digit names the digit. -/
def AxArray.digit (a : AxArray) (l : Nat) : List Nat :=
  match a.runs.find? fun r => decide (r.1 ≤ l ∧ l < r.1 + r.2) with
  | some r => (List.range r.2).map (r.1 + ·)
  | none => [l]

/-- The logical bit at a position. -/
def bitAt (map : List Nat) (v : Nat) : Nat := map.findIdx (· = v)

/-- One step of the rule: l's victim, with the least stamp, ties to the lowest position. -/
def AxArray.victim (a : AxArray) (named : List Nat) (map : List Nat) (chosen : List (Nat × Nat)) : Option Nat :=
  ((List.range a.b).filter fun v => !named.contains (bitAt map v) && !chosen.any (·.1 = v)).foldl (fun best v =>
    let st := fun v => a.stamps.getD (bitAt map v) 0
    match best with
    | none => some v
    | some w => if st v < st w then some v else some w) none

/-- NeedInBlock(L): the array after it, and whether it started a wave. -/
def AxArray.need (a : AxArray) (named : List Nat) (who : Nat) (high : BitVec 16) : AxArray × Bool :=
  let named := sortNat named
  let r := named.foldl (fun (acc : List Nat × List (Nat × Nat)) l =>
    let p := acc.1.getD l 0
    if p < a.b then acc else
    match a.victim named acc.1 acc.2 with
    | none => acc
    | some v => ((acc.1.set (bitAt acc.1 v) p).set l v, acc.2 ++ [(v, p)])) (a.map, [])
  let a' := { a with
    clock := a.clock + 1
    stamps := (List.range a.stamps.length).map fun l => if named.contains l then a.clock + 1 else a.stamps.getD l 0 }
  if r.2.isEmpty then (a', false)
  else ({ a' with map := r.1, prev := a.map, version := a.version + 1, wave := 2, swaps := r.2, cursors := [], who := who, high := high }, true)

/-- Would NeedInBlock move anything? -/
def AxArray.moves (a : AxArray) (named : List Nat) : Bool := named.any fun l => a.b ≤ a.map.getD l 0

/-- Start a pending wave on behalf of the focus. -/
def startWave (s : State) (a : AxArray) : State :=
  if a.wave = 1 then putArr s { a with wave := 2, who := asCtx s.who, high := highOf s } else s

/-! ### Exchange steps (R186, R187, R192) -/

/-- Read every line of a line set: data and badness by line, a failure, or a wait. -/
inductive LineReads where
  | ok (l : List (Nat × List Byte)) (bad : Bool) (s : State)
  | fail (s : State)
  | hold (s : State)

/-- The Fennel agent of a tile at work on an array. -/
def fennelUnit (a : AxArray) (tile : Nat) : EngUnit := { tile := 4096, stands := tile, key := 2 ^ 90 + a.id * 4096 + tile }

/-- A line of an array that lies in a slice is checked on behalf of the context that started the wave (R192). -/
def readLines (u : EngUnit) (a : AxArray) (s : State) : List Nat → LineReads
  | [] => .ok [] false s
  | x :: t =>
    let next := fun (d : List Byte) (bad : Bool) (s : State) => match readLines u a s t with
      | .ok l b s => .ok ((x, d) :: l) (b || bad) s
      | r => r
    match a.spot x with
    | .slice loc =>
      if sliceAllows s a.who (sliceTile loc) then next (readBytes s loc 64) (isPoisoned s loc) s else .fail s
    | .main e => match engRead s u a.who a.high e 64 with
      | .fail s => .fail s
      | .hold s => .hold s
      | .ok d bad s => if firstBad bad = 2 then .hold s else next d (firstBad bad = 1) s

/-- Where the lines land for writing. In a slice an exchange is checked against the tables alone: system areas (R275) and withheld
staging areas (R264) take it, since neither rule names exchanges. DESIGN CHOICE, log entry 28. -/
def landLines (u : EngUnit) (a : AxArray) (s : State) : List Nat → EngLands
  | [] => .ok [] s
  | x :: t =>
    let next := fun (loc leaf : Nat) (s : State) => match landLines u a s t with
      | .ok l s => .ok ((loc, leaf, []) :: l) s
      | r => r
    match a.spot x with
    | .slice loc => if sliceAllows s a.who (sliceTile loc) then next loc 0 s else .fail s
    | .main e => match engLand s u a.who a.high e 5 with
      | .fail s => .fail s
      | .hold s => .hold s
      | .ok loc leaf s => next loc leaf s

/-- The new contents of a line: each element from where the wave carries it. -/
def AxArray.newLine (a : AxArray) (old : List (Nat × List Byte)) (x : Nat) : List Byte :=
  (List.range (64 / a.z)).flatMap fun e =>
    let y := a.carry (x + e)
    let base := y / 2 ^ a.lam * 2 ^ a.lam
    slice (((old.find? (·.1 = base)).map (·.2)).getD []) ((y - base) * a.z) a.z

/-- The wave of an array stops on a fault, and no agent of its tiles asks for anything more on its behalf: a fault that another one
holds is answered for none (R107). -/
def stopWave (s : State) (a : AxArray) : State :=
  let keys := fun k => a.tiles.any fun t => (fennelUnit a t).key = k
  putArr (putCtx s a.who ((getCtx s a.who).forget keys)) { a with wave := 3, fault := true }

/-- Exchange the next line set of group g for owner q. DEDUCED, log entry 28. -/
def exchangeSet (s : State) (a : AxArray) (q g : Nat) : State :=
  let c := mapGet 0 a.cursors g
  let u := fennelUnit a (a.tiles.getD q 0)
  match (a.lineSets g)[c]? with
  | none => s
  | some x =>
    let lines := a.lineSet x
    match readLines u a s lines with
    | .hold s' => unmade s s'
    | .fail s => stopWave s a
    | .ok old bad s1 => match landLines u a s1 lines with
      | .hold s' => unmade s s'
      | .fail s => stopWave s a
      | .ok ls s =>
        let s := (lines.zip ls).foldl (fun s p =>
          let s := (engServe s u.place p.2.1 p.2.2.1 (a.newLine old p.1)).2
          if bad then poisonWrite s p.2.1 else s) (dropWords s a.who u.key)
        putArr s { a with cursors := mapSet 0 a.cursors g (c + 1), poison := a.poison || bad }.settle

/-- FENNEL_EXCHANGE_STEP: the Fennel agent of a tile exchanges the next line set it owns of the array in a slot, while the
region runs (R193). -/
def execFennelExchangeStep (tile slot : Nat) (s : State) : Host.Outcome State Fault Refusal :=
  match s.arrays.find? fun a => a.slot = slot && a.wave = 2 && a.tiles.contains tile && coreRuns s (4 * tile) with
  | none => .next s
  | some a =>
    let q := a.tiles.findIdx (· = tile)
    if a.ownerDone q then .next s else .next (exchangeSet s a q (a.groupNo q (a.doneGroups q)))

/-! ### Images read at issue -/

/-- Check the pieces of an image, each within one line: the first at the image's alignment, all of them for access (R111). -/
def landImage (s : State) (al : Nat) : List (Nat × Nat) → Except Trap (List (Nat × Word × Landing) × State)
  | [] => .ok ([], s)
  | (e, n) :: t => match checkAccess s s.who (BitVec.ofNat 64 e) al 0 with
    | .error x => .error x
    | .ok l => match landImage l.st 1 t with
      | .error x => .error (x.after (vaOf s (BitVec.ofNat 64 e)) 0)
      | .ok (r, s') => .ok ((n, BitVec.ofNat 64 e, l) :: r, s')

/-- Read the checked pieces of an image as one run of bytes. -/
def readImage (s : State) : List (Nat × Word × Landing) → Loads
  | [] => .vals [[]] s
  | (n, p) :: t => match loadAll s n [p] with
    | .vals vs s1 => match readImage s1 t with
      | .vals r s2 => .vals [vs.headD [] ++ r.headD []] s2
      | x => x
    | x => x

/-- Check and read an image of n bytes; `limit` is judged, on where its first byte lies, between the access checks and the
read. A trap that either raises leaves what the accesses before it left in the TLBs and in the counts (R98, R82). -/
def withImage (ea : Word) (n al : Nat) (limit : Landing → Option Trap) (s : State) (f : List Byte → State → Body) : Body :=
  match landImage s al (linePieces n ea.toNat n) with
  | .error t => .trap t
  | .ok (ls, s1) => match ls.head?.bind fun p => limit p.2.2 with
    | some t => .keep (raise s1 t)
    | none => (readImage s1 ls).body s fun vs s2 => match f (vs.headD []) s2 with
      | .trap t => .keep (raise s2 t)
      | b => b

/-! ### `axdef` (R182) -/

/-- Add an array, or report its slot as taken. -/
def defineArray (d b : BitVec 5) (img : List Byte) (s : State) : Body :=
  match (regionOf s (coreOf s.who)).bind fun r => findRegion s r.1 with
  | none => .trap illegalOperand
  | some g =>
    let a := parseAxis img (bits (rd s b) 2 0) g.rcb g.clusters
    if bits (rd s b) 63 3 ≠ 0 || badAxis img a g.clusters.length then .trap illegalOperand
    else if s.arrays.any fun x => x.slot = a.slot && x.tiles.any a.tiles.contains then .done (wr s d 1) []
    else if pending s s.who isStoreOrSend then .wait s .stalled
    else .done (wr { s with arrays := s.arrays ++ [a] } d a.handle) []

def execAxdef (d a b : BitVec 5) (st : BitVec 3) (s : State) : Host.Outcome State Fault Refusal :=
  issue s fennelToo 4 st [useS d, useS a, useS b] fun s =>
    withImage (rd s a) 64 64 (fun _ => none) s (defineArray d b)

/-- Does any `axst` to an array stand in a buffer or on the mesh? -/
def axstPending (s : State) (id : Nat) : Bool :=
  let p := fun (e : StoreEntry) => match e.body with
    | .axst i _ _ _ => i = id
    | _ => false
  s.cur.buf.any p || s.parked.any (fun c => c.2.buf.any p) || s.net.any (fun m => p m.entry)

/-- The release form waits for the wave, and for the stores of the context that it releases at device scope; also for every
`axst` to the array and for the applies that are queued on it. DEDUCED, log entry 27. -/
def execAxdefRelease (d b : BitVec 5) (st : BitVec 3) (s : State) : Host.Outcome State Fault Refusal :=
  issue s fennelToo 4 st [useS d, useS b] fun s =>
    match arrayOf s (rd s b) with
    | none => .trap illegalOperand
    | some a =>
      if a.wave = 1 ∨ a.wave = 2 then .wait (startWave s a) .stalled
      else if pending s s.who isStoreOrSend || axstPending s a.id || !a.applies.isEmpty then .wait s .stalled
      else .done (wr { s with arrays := s.arrays.filter (·.id ≠ a.id) } d 0) []

/-! ### The map instructions (R196 to R198) -/

/-- The array of a handle: ILLEGAL_OPERAND without one, REMAP_FAULT when its wave has stopped (R192). -/
def withArray (h : BitVec 5) (s : State) (f : AxArray → Body) : Body :=
  match arrayOf s (rd s h) with
  | none => .trap illegalOperand
  | some a => if a.fault then .trap { code := 0x1C } else f a

/-- Wait for a wave, starting a pending one. -/
def afterWave (a : AxArray) (s : State) (b : Body) : Body :=
  if a.wave = 1 ∨ a.wave = 2 then .wait (startWave s a) .stalled else b

/-- R196: is a list a permutation of 0 to n − 1? -/
def isPerm (n : Nat) (l : List Nat) : Bool := l.length = n && (List.range n).all l.contains

/-- Install a map that describes where software has put the data. -/
def installMap (d : BitVec 5) (a : AxArray) (img : List Byte) (s : State) : Body :=
  let m := (img.take a.n).map (·.toNat)
  if !isPerm a.n m || (img.drop a.n).any (· ≠ 0) then .trap illegalOperand
  else afterWave a s (.done (wr (putArr s { a with
    map := m
    prev := m
    stamps := List.replicate a.n 0
    clock := 0
    version := a.version + 1 }) d (BitVec.ofNat 64 (a.version + 1))) [])

def execMapSet (d a b : BitVec 5) (st : BitVec 3) (s : State) : Host.Outcome State Fault Refusal :=
  issue s fennelToo 4 st [useS d, useS a, useS b] fun s =>
    withArray a s fun x => withImage (rd s b) 64 64 (fun _ => none) s (installMap d x)

def execMapSwap (d a b : BitVec 5) (st : BitVec 3) (s : State) : Host.Outcome State Fault Refusal :=
  issue s fennelToo 4 st [useS d, useS a, useS b] fun s =>
    withArray a s fun x =>
      let v := rd s b
      let l1 := bits v 5 0
      let l2 := bits v 13 8
      if bits v 63 14 ≠ 0 || bits v 7 6 ≠ 0 || decide (x.n ≤ l1) || decide (x.n ≤ l2) then .trap illegalOperand
      else if l1 = l2 then .done (wr s d (BitVec.ofNat 64 x.version)) []
      else
        let p := x.map.getD l1 0
        let q := x.map.getD l2 0
        afterWave x s (.done (wr (putArr s { x with
          prev := x.map
          map := (x.map.set l1 q).set l2 p
          version := x.version + 1
          wave := 1
          swaps := [(min p q, max p q)]
          cursors := [] }) d (BitVec.ofNat 64 (x.version + 1))) [])

def execMapRd (d a b : BitVec 5) (st : BitVec 3) (s : State) : Host.Outcome State Fault Refusal :=
  issue s fennelToo 4 st [useS d, useS a, useS b] fun s =>
    match arrayOf s (rd s a) with
    | none => .trap illegalOperand
    | some x =>
      let n := (rd s b).toNat
      if n < x.n then
        let p := x.map.getD n 0
        .done (wr s d (BitVec.ofNat 64 (p + (if p < x.b then 0 else if p < x.b + x.t then 1 else 2) * 2 ^ 6))) []
      else if n = 64 then
        .done (wr s d (BitVec.ofNat 64 (x.wave * 2 ^ 62 + (if x.fault then 2 ^ 61 else 0) + (if x.poison then 2 ^ 60 else 0) +
          x.version % 2 ^ 32))) []
      else .trap illegalOperand

/-- The valid selectors of R197 in order, byte 0 up; none where a reserved bit is set, a bit repeats or is n or more. -/
def selectors (n : Nat) (w : Word) : Option (List Nat) :=
  let by_ := (List.range 4).map fun k => bits w (8 * k + 7) (8 * k)
  let l := (by_.filter fun x => 128 ≤ x).map (· % 64)
  if by_.any (fun x => x / 64 % 2 = 1) || decide (l.eraseDups.length ≠ l.length) || l.any (n ≤ ·) then none else some l

/-- Run NeedInBlock for the focus, waiting for a wave when it would move something. -/
def needThen (x : AxArray) (named : List Nat) (s : State) (f : Bool → AxArray → State → Body) : Body :=
  if x.moves named && decide (x.wave = 1 ∨ x.wave = 2) then .wait (startWave s x) .stalled
  else
    let r := x.need named (asCtx s.who) (highOf s)
    f r.2 r.1 (putArr s r.1)

def execRemap (d a b : BitVec 5) (st : BitVec 3) (s : State) : Host.Outcome State Fault Refusal :=
  issue s fennelToo 4 st [useS d, useS a, useS b] fun s =>
    withArray a s fun x =>
      match selectors x.n (rd s b) with
      | none => .trap illegalOperand
      | some l =>
        let named := sortNat (l.flatMap x.digit)
        if bits (rd s b) 63 32 ≠ 0 || decide (x.b < named.length) then .trap illegalOperand
        else if l.isEmpty then .done (wr (startWave s x) d (if x.wave = 1 then 1 else 0)) []
        else needThen x named s fun started _ s => .done (wr s d (if started then 1 else 0)) []

def execRmwait (a : BitVec 5) (st : BitVec 3) (s : State) : Host.Outcome State Fault Refusal :=
  issue s fennelToo 4 st [useS a] fun s => withArray a s fun x => afterWave x s (.done s [])

/-! ### `axld` and `axst` (R199) -/

/-- The addresses of the elements of a register, where they are now placed. -/
def AxArray.addrs (a : AxArray) (idx : Nat) : List Word :=
  (List.range (32 / a.z)).map fun i => (a.spot (a.place (idx + i))).addr

/-- The shared front of the two: the stream's direction, STALL_SHORT, the handle and the index, R111 element by element, then
the stream traps. -/
def axmem (s : State) (st : BitVec 3) (a b : BitVec 5) (x : Access) (k : Nat)
    (go : AxArray → Nat → State → List (Word × Landing) → Body) : Host.Outcome State Fault Refusal :=
  if kindOf s.who ≠ 0 then .next (raise s { code := 0x21 })
  else if wrongWay s.cur x then .next (raise s illegalOperand)
  else match shortStop s (x.uses [useS a, useS b]) with
  | some r => .next (retire s 4 st r)
  | none => match arrayOf s (rd s a) with
    | none => .next (raise s illegalOperand)
    | some r =>
      let idx := (rd s b).toNat
      if 2 ^ r.n ≤ idx ∨ idx % (32 / r.z) ≠ 0 then .next (raise s illegalOperand) else
      match landAll s r.z k (r.addrs idx) with
      | .error t => .next (raise s t)
      | .ok (ls, s1) => match streamCheck s.cur x with
        | some (.trap t) => .next (raiseStream s1 t)
        | some .wait => .next (retire s 4 st (.wait s .stalled))
        | none => .next (retire s 4 st ((go r idx s1 ls).after (x.uses [useS a, useS b])))

def isAxst (id : Nat) (e : StoreEntry) : Bool := match e.body with
  | .axst i _ _ _ => i = id
  | _ => false

def execAxld (d : BitVec 6) (a b : BitVec 5) (st : BitVec 3) (s : State) : Host.Outcome State Fault Refusal :=
  axmem s st a b ⟨[], [d]⟩ 0 fun r _ s1 ls =>
    if unacked s s.who (isAxst r.id) then .wait s .stalled else
    (loadAll s1 r.z ls).body s fun vs s2 => .done { s2 with cur := writeV s2.cur d (vregOf r.z (vs.map fromBytes)) } []

/-- One store-buffer entry, in the port's stream when an element goes to the port's tile (R144) and else on channel 0; its elements are placed when it is served (R199), and of those that fail the first
is the one that `STERR` names. DEDUCED, log entry 27. -/
def execAxst (d : BitVec 6) (a b : BitVec 5) (st : BitVec 3) (s : State) : Host.Outcome State Fault Refusal :=
  axmem s st a b ⟨[d], []⟩ 1 fun r idx s1 ls =>
    if bufFull s1 then .wait s .stalled else
    let e : StoreEntry := { loc := (ls.head?.map (·.2.loc)).getD 0
                            chan := if ls.any fun p => (routeOf s1 s1.who p.2.loc).1 = 3 then 3 else 0
                            body := .axst r.id r.z idx (toBytes 32 (readV s1.cur d).toNat)
                            seq := s1.cur.seqNext
                            leaf := (ls.head?.map (·.2.leaf)).getD 0
                            tag := tagOf s1 s1.who
                            high := highOf s1
                            troot := s1.cur.troot }
    let c := popAll s1.cur [d]
    .done { s1 with cur := { c with buf := c.buf ++ [e], seqNext := c.seqNext + 1 } } []

/-! ### HOME_REQUEST -/

/-- Where the owner places element i of an `axst` register of an agent, and the leaf entry that translates it. DEDUCED, log
entry 27. -/
def placeFor (src : Nat) (s : State) (e : StoreEntry) (i : Nat) : Option (Nat × Nat) :=
  match e.body with
  | .axst id _ idx _ => match findArr s id with
    | none => none
    | some a => match a.spot (a.place (idx + i)) with
      | .slice loc => some (loc, 0)
      | .main x =>
        let va := widen e.high x
        if isSliceVA va then some (sliceOfVA va, 0) else
        match hintLeaf s (coreOf src) e.troot va with
        | some (t, _) => let pa := t.frame + va.toNat % 2 ^ t.log; if populated s pa then some (pa, t.leaf) else none
        | none => none
  | _ => none

/-- Does an element of an `axst` stand in a reserved row or behind a far-tier link in its retrain window (R73, R364)? -/
def axstWaits (s : State) (m : Msg) : Bool := match m.entry.body with
  | .axst _ z _ d => (List.range (if z = 0 then 0 else d.length / z)).any fun k =>
    (placeFor m.src s m.entry k).any fun p => bankBusy s p.1 4096 || writeWaits s p.1
  | _ => false

/-- HOME_REQUEST: message i is served at its home. -/
def execHomeRequest (i : Nat) (s : State) : Host.Outcome State Fault Refusal :=
  match s.net[i]? with
  | some m => if isHomeMsg m && mayServe s i m && !axstWaits s m then .next (serveMsg (placeFor m.src) (dropMsg s i) m) else .next s
  | none => .next s

end Sys2Proof.Machine
end

