-- ==== Sys2Proof/Machine/AxisUnit.lean ====
section
/-! DEFINITION. The axis unit (R252 to R270): format contexts, matrices, requests and tickets, and what `axap`, `axmm` and
`axdrain` do (R242, R245, R249). -/

namespace Sys2Proof.Machine

open Sys2Proof

/-! ### Formats of the axis unit (R179, R236, R239) -/

def isCplx (f : Nat) : Bool := decide (12 ≤ f ∧ f ≤ 15)
/-- Bits of one element as it is packed. -/
def fmtBits (f : Nat) : Nat := if f = 0 ∨ f = 1 ∨ f = 4 then 4 else if f = 5 ∨ f = 6 then 6 else 8 * tySize f
/-- Bytes of a block of 32 elements in an operand (R265). -/
def blockBytes (f : Nat) : Nat := if f = 1 then 18 else 4 * fmtBits f
/-- R239: may a format carry block scales in a scale array? -/
def scalable (f : Nat) : Bool := [0, 2, 4, 5, 6, 7, 8].contains f
/-- Words of the bank that an element takes. -/
def wordsOf (f : Nat) : Nat := if isCplx f then 2 else 1

/-- The elements of a packed run of bytes (R236). -/
def unpack (f n : Nat) (b : List Byte) : List Nat :=
  let v := fromBytes b
  (List.range n).map fun i => v / 2 ^ (fmtBits f * i) % 2 ^ fmtBits f

/-- A packed run of elements. -/
def pack (f : Nat) (l : List Nat) : List Byte :=
  toBytes ((l.length * fmtBits f + 7) / 8) (l.foldr (fun x r => x % 2 ^ fmtBits f + 2 ^ fmtBits f * r) 0)

/-- The slots that markers of an ox4 block give up, and the markers with their order (R238). -/
def ox4Marks (codes : List Nat) : List Nat × List (Nat × Nat) :=
  (List.range 32).foldl (fun (acc : List Nat × List (Nat × Nat)) i =>
    if acc.1.contains i || codes.getD i 0 ≠ 8 then acc
    else
      let k := acc.2.length + 1
      (if k ≤ 2 then acc.1 ++ [Nat.xor i 1] else acc.1, acc.2 ++ [(i, k)])) ([], [])

/-- An ox4 block decoded with S = 1. -/
def ox4Decode (b : List Byte) : List Num :=
  let codes := unpack 1 32 (b.take 16)
  let r := ox4Marks codes
  (List.range 32).map fun i =>
    if r.1.contains i then .fin false 0 0
    else match r.2.find? (·.1 = i) with
      | some (_, k) =>
        if k ≤ 2 then decodeF (fmtOf 7) (codes.getD (Nat.xor i 1) 0 * 16 + at_ b 17 1 / 16 ^ (k - 1) % 16) else .fin false 0 0
      | none => numOfInt (signed 4 (codes.getD i 0))

/-- R245: a result below the smallest subnormal of a narrow float format rounds stochastically, any other under the mode. -/
def axConvert (dst rm : Nat) (x : Num) (g : Nat) : Nat × Nat :=
  let f := fmtOf dst
  let small : Num := .fin false 1 (1 - (f.bias : Int) - f.m)
  let tiny := match x with
    | .fin _ m e => decide (m ≠ 0) && decide ((Num.fin false m e).cmp small < 0)
    | _ => false
  convertNum dst (if decide (4 ≤ dst ∧ dst ≤ 8) && tiny then 4 else rm) x g

/-! ### Format contexts (R253, R254) -/

/-- The context that an image holds, with ts and the accumulator type. -/
def parseFmt (b : List Byte) : FmtCtx :=
  let mode := at_ b 3 1
  let c : FmtCtx := { afmt := at_ b 0 1 % 16, bfmt := at_ b 1 1 % 16, ofmt := at_ b 2 1 % 16, rm := mode % 8,
                      asc := mode.testBit 3, bsc := mode.testBit 4, osc := mode.testBit 5,
                      ats := BitVec.ofNat 32 (at_ b 4 4), bts := BitVec.ofNat 32 (at_ b 8 4),
                      seed := BitVec.ofNat 16 (at_ b 12 2), aspitch := at_ b 14 2, bspitch := at_ b 16 2,
                      ascale := BitVec.ofNat 64 (at_ b 24 8), bscale := BitVec.ofNat 64 (at_ b 32 8),
                      oscale := BitVec.ofNat 64 (at_ b 40 8) }
  let i4 := fun (f : Nat) => f = 0 || f = 2 || f = 3
  { c with
    ts := BitVec.ofNat 32 (mul32 c.ats.toNat c.bts.toNat)
    accInt := (i4 c.afmt && i4 c.bfmt && !c.asc && !c.bsc) || (c.afmt = 15 && c.bfmt = 15) }

/-- A register address as a slice location, if it is one. -/
def sliceAt (high : BitVec 16) (e : Word) : Option Nat :=
  if isSliceVA (widen high e) then some (sliceOfVA (widen high e)) else none

/-- R253: is an image refused? -/
def badFmt (high : BitVec 16) (tile : Nat) (b : List Byte) (c : FmtCtx) : Bool :=
  let mine := fun (e : Word) => (sliceAt high e).any fun l => sliceTile l = tile
  at_ b 0 1 / 16 ≠ 0 || at_ b 1 1 / 16 ≠ 0 || at_ b 2 1 / 16 ≠ 0 || at_ b 3 1 / 64 ≠ 0 || at_ b 18 6 ≠ 0 || at_ b 48 16 ≠ 0 ||
  decide (4 < c.rm) || c.ofmt = 1 || (c.asc && !scalable c.afmt) || (c.bsc && !scalable c.bfmt) ||
  (c.osc && !scalable c.ofmt) || (c.asc && !mine c.ascale) || (c.bsc && !mine c.bscale)

/-- Does a checked image lie wholly in the slice of the focus's tile? -/
def inOwnSlice (s : State) (n : Nat) (l : Landing) : Option Trap :=
  if isSlice l.loc && decide (sliceTile l.loc = tileOf s.who) && decide (sliceOff l.loc + n ≤ 2 ^ 18) then none
  else some illegalOperand

def execAxctx (a : BitVec 5) (st : BitVec 3) (s : State) : Host.Outcome State Fault Refusal :=
  issue s axisToo 4 st [useS a] fun s =>
    withImage (rd s a) 64 64 (inOwnSlice s 64) s fun b s1 =>
      let c := parseFmt b
      if badFmt (highOf s1) (tileOf s1.who) b c then .trap illegalOperand
      else if !(myCore s1).axq.isEmpty then .wait s .stalled
      else .done (putMyCore s1 { myCore s1 with fmt := { c with high := highOf s1 } }) []

/-! ### `axmat` (R261) -/

def execAxmat (a b : BitVec 5) (st : BitVec 3) (s : State) : Host.Outcome State Fault Refusal :=
  issue s axisToo 4 st [useS a, useS b] fun s =>
    let x := rd s b
    let k := 2 ^ (bits x 5 4 + 1)
    let cplx := bits x 8 8 = 1
    let n := k * k * (if cplx then 8 else 4)
    let limit := fun (l : Landing) =>
      if bits x 63 9 ≠ 0 || bits x 7 6 ≠ 0 || bits x 3 3 ≠ 0 then some illegalOperand else inOwnSlice s n l
    withImage (rd s a) n 16 limit s fun img s1 =>
      let t := getTile s1 (tileOf s1.who)
      let m : Matrix := { k := k, cplx := cplx
                          entries := (List.range (n / 4)).map fun i => BitVec.ofNat 32 (at_ img (4 * i) 4) }
      .done (putTile s1 (tileOf s1.who) { t with slots := setIx t.slots (bits x 2 0) (some m) }) []

/-! ### Accepting a request (R255) -/

/-- The ticket of a sequence number. -/
def ticket (seq : Nat) : Nat := 2 ^ 60 + seq

/-- Queue a request of the focus; it takes the next sequence number. -/
def acceptReq (s : State) (r : AxReq) : State :=
  let c := myCore s
  let r := { r with seq := c.axNext, ctx := asCtx s.who, high := highOf s, gate := gateNow s, fmt := c.fmt }
  putMyCore s { c with axq := c.axq ++ [r], axNext := (c.axNext + 1) % 2 ^ 48 }

def queueFull (s : State) : Bool := 8 ≤ (myCore s).axq.length

/-! ### `axap` (R262) -/

/-- The named bits in matrix order, each digit and bit named once; none where the operand breaks R262. -/
def namedBits (a : AxArray) (x : Word) : Option (List Nat) :=
  match selectors a.n x with
  | none => none
  | some l =>
    let n := l.flatMap a.digit
    if n.eraseDups.length ≠ n.length then none else some n

/-- R262's limits on DEST, ACCOFF and ZERO. -/
def badDest (s : State) (a : AxArray) (x : Word) : Bool :=
  if bits x 35 35 = 1 then
    a.pages ≠ 0 || a.t ≠ 0 || a.tiles ≠ [tileOf s.who] || (myCore s).fmt.accInt ||
      decide (4096 < bits x 47 36 + wordsOf a.fmt * 2 ^ a.b)
  else bits x 48 36 ≠ 0

/-- `axap` (R262). DEDUCED, log entry 29. The bound of R185 on the named bits is tested with the other limits, before REMAP_FAULT.
DESIGN CHOICE, log entry 29. -/
def execAxap (d a b : BitVec 5) (st : BitVec 3) (s : State) : Host.Outcome State Fault Refusal :=
  issue s axisToo 4 st [useS d, useS a, useS b] fun s =>
    let x := rd s b
    match arrayOf s (rd s a) with
    | none => .trap illegalOperand
    | some arr =>
      match namedBits arr x, (getTile s (tileOf s.who)).slots.toList.getD (bits x 34 32) none with
      | some named, some m =>
        let n := named.length
        if bits x 63 49 ≠ 0 || n = 0 || decide (4 < n) || m.k ≠ 2 ^ n || (m.cplx && !isCplx arr.fmt) || badDest s arr x ||
            decide (arr.b < n) then .trap illegalOperand
        else if arr.fault then .trap { code := 0x1C }
        else if queueFull s then .wait s .stalled
        else needThen arr named s fun _ arr s =>
          let core := coreOf s.who
          let s1 := putArr s { arr with applies := arr.applies ++ [core] }
          let seq := (myCore s1).axNext
          let s2 := acceptReq s1 { op := 0, b := x, mat := some m, bits := named, arr := arr.id, rows := arr.map
                                   left := arr.tiles }
          .done (wr s2 d (BitVec.ofNat 64 (ticket seq))) []
      | _, _ => .trap illegalOperand

/-! ### `axmm` (R265) -/

/-- The fields of a matrix-product descriptor. -/
structure MmDesc where
  a : Word
  b : Word
  apitch : Nat
  bpitch : Nat
  arows : Nat
  n : Nat
  nb : Nat
  m : Nat
  zero : Bool
  off : Nat
  reserved : Bool

def parseMm (b : List Byte) : MmDesc :=
  let ctl := at_ b 29 1
  { a := BitVec.ofNat 64 (at_ b 0 8), b := BitVec.ofNat 64 (at_ b 8 8), apitch := at_ b 16 4, bpitch := at_ b 20 4,
    arows := at_ b 24 2, n := at_ b 26 2, nb := at_ b 28 1, m := ctl % 16 + 1, zero := ctl.testBit 4,
    off := at_ b 30 2 % 2 ^ 12, reserved := ctl / 32 ≠ 0 || at_ b 30 2 / 2 ^ 12 ≠ 0 || at_ b 32 32 ≠ 0 }

/-- R265: is a product refused, its operands lying at these slice locations? Scale addresses stand as the context's image was
accepted. -/
def badMm (c : FmtCtx) (q : MmDesc) (la lb : Nat) : Bool :=
  let ra := q.nb * blockBytes c.afmt
  let rb := q.nb * blockBytes c.bfmt
  let past := fun (sc : Bool) (e : Word) (rows pitch : Nat) =>
    sc && (sliceAt c.high e).any fun l => 2 ^ 18 < sliceOff l + (rows - 1) * pitch + q.nb
  q.reserved || q.arows = 0 || decide (32767 < q.arows) || q.n = 0 || decide (256 < q.n) || q.nb = 0 ||
  la % 16 ≠ 0 || lb % 16 ≠ 0 || q.apitch % 16 ≠ 0 || q.bpitch % 16 ≠ 0 || decide (q.apitch < ra) || decide (q.bpitch < rb) ||
  isCplx c.afmt ≠ isCplx c.bfmt ||
  decide (2 ^ 18 < sliceOff la + (q.arows - 1) * q.apitch + ra) || decide (2 ^ 18 < sliceOff lb + (q.n - 1) * q.bpitch + rb) ||
  past c.asc c.ascale q.arows c.aspitch || past c.bsc c.bscale q.n c.bspitch ||
  decide (4096 < q.off + wordsOf c.afmt * q.m * q.n)

/-- R266: the clamped row index of each lane. -/
def mmRows (v : VReg) (m arows : Nat) : List Nat :=
  (List.range m).map fun k => clampNat (signed 16 (elemOf v 2 k)) (arows - 1)

/-- `axmm` reads a vector register, so it is a core's instruction; a bound register of row 7 gives its stream's element. One whose
stream goes the other way (R232) traps before the checks of R259. DEDUCED, log entry 19. -/
def execAxmm (d : BitVec 6) (a : BitVec 5) (st : BitVec 3) (s : State) : Host.Outcome State Fault Refusal :=
  if kindOf s.who ≠ 0 then .next (raise s { code := 0x21 })
  else if wrongWay s.cur ⟨[d], []⟩ then .next (raise s illegalOperand)
  else match shortStop s [useS a, useV d] with
  | some b => .next (retire s 4 st b)
  | none =>
    let b := withImage (rd s a) 64 64 (inOwnSlice s 64) s fun img s1 =>
      let q := parseMm img
      let c := (myCore s1).fmt
      match sliceAt (highOf s1) q.a, sliceAt (highOf s1) q.b with
      | some la, some lb =>
        if !sliceAllows s1 s1.who (sliceTile la) || !sliceAllows s1 s1.who (sliceTile lb) then .trap { code := 0x0D }
        else if badMm c q la lb then .trap illegalOperand
        else match streamCheck s1.cur ⟨[d], []⟩ with
          | some (.trap t) => .keep (raiseStream s1 t)
          | some .wait => .wait s .stalled
          | none =>
            if queueFull s1 then .wait s .stalled else
            let rows := mmRows (readV s1.cur d) q.m q.arows
            .done (acceptReq { s1 with cur := popAll s1.cur [d] } { op := 1, a := rd s a, desc := img, rows := rows }) []
      | _, _ => .trap illegalOperand
    .next (retire s 4 st (b.after [useS a, useV d]))

/-! ### `axdrain` (R267) -/

/-- Bytes that a drain writes. -/
def drainBytes (c : FmtCtx) (count : Nat) : Nat := (count * fmtBits c.ofmt + 7) / 8

/-- The access check of R267 for OSCALE, a slice address or a translated one: what the tables deny at issue. An address that
has no translation, or lies outside the map, is the drain's own failure. DEDUCED, log entry 31. -/
def scaleDenied (s : State) (va : VAddr) : Option Trap :=
  match land s s.who va 5 with
  | .error t => if t.waits || t.code = 0x0D && !(isSliceVA va && sliceAllows s s.who (sliceTile (sliceOfVA va))) then some t else none
  | .ok _ => none

/-- The access checks of R267 for a destination: its first failure. -/
def drainDenied (s : State) (c : FmtCtx) (a x : Word) : Option Trap :=
  let n := drainBytes c (bits x 24 12)
  let high := highOf s
  let dest := if bits x 26 26 = 1 then
      (if sliceAllows s s.who (bits a 13 0 / 4) then none else some { code := 0x0D })
    else match sliceAt high a with
      | none => none
      | some l =>
        if sliceAllows s s.who (sliceTile l) && (n = 0 || decide (sliceOff l % 2 ^ 16 + n ≤ 0xC000)) then none
        else some { code := 0x0D, access := 5, va := widen high a }
  match dest with
  | some t => some t
  | none => if c.osc then scaleDenied s (widen high c.oscale) else none

/-- The translation that the check of OSCALE made is in the TLBs (R98). -/
def drainTouch (s : State) (c : FmtCtx) : State :=
  if c.osc then touchTlb s (coreOf s.who) (getCtx s (asCtx s.who)).troot (widen (highOf s) c.oscale) 5 else s

/-- R267's limits. A home offset of the core-home form that is not 64-byte aligned is one of them (ILLEGAL_OPERAND). DESIGN CHOICE, log
entry 31. -/
def badDrain (c : FmtCtx) (a x : Word) : Bool :=
  let count := bits x 24 12
  let off := bits a 31 16
  decide (4096 < bits x 11 0 + wordsOf c.ofmt * count) || count = 0 || decide (4096 < count) || bits x 63 36 ≠ 0 ||
  ((decide (fmtBits c.ofmt < 8) || c.osc) && count % 32 ≠ 0) ||
  (if bits x 26 26 = 1 then
    c.osc || bits a 63 32 ≠ 0 || bits a 15 14 ≠ 0 || off % 64 ≠ 0 || decide (0xC000 < off + drainBytes c count)
   else bits x 35 27 ≠ 0)

def execAxdrain (d a b : BitVec 5) (st : BitVec 3) (s : State) : Host.Outcome State Fault Refusal :=
  issue s axisToo 4 st [useS d, useS a, useS b] fun s =>
    let c := (myCore s).fmt
    let va := widen (highOf s) (rd s a)
    if bits (rd s b) 26 26 = 0 && (rd s a).toNat % 16 ≠ 0 then .trap { code := 0x03, access := 5, va := va }
    else match drainDenied s c (rd s a) (rd s b) with
      | some t => .trap t
      | none =>
        let s1 := drainTouch s c
        if badDrain c (rd s a) (rd s b) then .keep (raise s1 illegalOperand)
        else if queueFull s then .wait s .stalled
        else
          let seq := (myCore s).axNext
          .done (wr (acceptReq s1 { op := 2, a := rd s a, b := rd s b }) d (BitVec.ofNat 64 (ticket seq))) []

/-! ### `axstat` and `axwait` (R257, R269) -/

def axisTest (a : BitVec 5) (wait hit : State → Body) (s : State) : Body :=
  let i := rd s a
  let seq := bits i 47 0
  let c := myCore s
  let last := (c.axNext + 2 ^ 48 - 1) % 2 ^ 48
  if bits i 63 61 ≠ 0 || bits i 60 60 = 0 || bits i 59 48 ≠ 0 then .trap illegalOperand
  else if seqAfter seq last then .trap illegalOperand
  else if !seqLe seq (bits c.axdone 47 0) then wait s
  else if bits c.axerr 63 63 = 1 && seqLe (bits c.axerr 47 0) seq then .trap (axisTrap c.axerr) else hit s

def execAxstat (d a : BitVec 5) (st : BitVec 3) (s : State) : Host.Outcome State Fault Refusal :=
  issue s axisToo 4 st [useS d, useS a] (axisTest a (fun s => .done (wr s d 0) []) fun s => .done (wr s d 1) [])
def execAxwait (a : BitVec 5) (st : BitVec 3) (s : State) : Host.Outcome State Fault Refusal :=
  issue s axisToo 4 st [useS a] (axisTest a (fun s => .wait s .stalled) fun s => .done s [])

/-! ### Performing an apply -/

/-- One element's codes: a number of its format, and whether it came from a poisoned line (1) or a lost one (2). -/
inductive ElemReads where
  | ok (l : List (Nat × Nat)) (s : State)
  /-- an access that failed, behind elements of which this is the first badness -/
  | fail (bad : Nat) (s : State)
  | hold (s : State)

/-- The axis unit of a tile at work for a request. -/
def axisUnit (tile : Nat) (r : AxReq) : EngUnit := { tile := 4096, stands := tile, key := 2 ^ 100 + coreOf r.ctx * 4096 + tile }

/-- Read the elements at several logical indices. An element of a poisoned line counts as 0, and its set's results take their draws as
any others do (R247, R258). DESIGN CHOICE, log entry 31. Staging counts one request for each element read and, where a block is written back,
one for each element written (R82, R262). DESIGN CHOICE, log entry 34. -/
def readElems (u : EngUnit) (r : AxReq) (a : AxArray) (s : State) : List Nat → ElemReads
  | [] => .ok [] s
  | x :: t =>
    let next := fun (v bad : Nat) (s : State) => match readElems u r a s t with
      | .ok l s => .ok ((v, bad) :: l) s
      | .fail b s => .fail (if bad = 0 then b else bad) s
      | .hold s => .hold s
    match a.spot (a.place x) with
    | .slice loc => if isPoisoned s loc then next 0 1 s else next (readNat s loc a.z) 0 s
    | .main e => match engRead s u r.ctx r.high e a.z with
      | .fail s => .fail 0 s
      | .hold s => .hold s
      | .ok d bad s => next (fromBytes d) (firstBad bad) s

/-- The matrix entry (r, c) as real and imaginary parts. -/
def Matrix.at (m : Matrix) (r c : Nat) : Num × Num :=
  let e := fun i => fp32 (m.entries.getD i 0).toNat
  if m.cplx then (e (2 * (m.k * r + c)), e (2 * (m.k * r + c) + 1)) else (e (m.k * r + c), .fin false 0 0)

/-- Parts of an element of an array's format. -/
def elemParts (f x : Nat) : Num × Num := if isCplx f then partsOf f x else (numOf f x, .fin false 0 0)

/-- Row r of the matrix against the values: fp32 patterns of the parts, each the exact sum rounded once. -/
def rowSum (m : Matrix) (f r : Nat) (vs : List Nat) : Nat × Nat :=
  let ps := (List.range m.k).map fun c => (m.at r c, elemParts f (vs.getD c 0))
  let re := if m.cplx then ps.flatMap fun p => [p.1.1.mul p.2.1, (p.1.2.mul p.2.2).neg] else ps.map fun p => p.1.1.mul p.2.1
  let im := if m.cplx then ps.flatMap fun p => [p.1.1.mul p.2.2, p.1.2.mul p.2.1] else ps.map fun p => p.1.1.mul p.2.2
  (roundNE 11 (sumNum re), roundNE 11 (sumNum im))

/-- A result: logical index, parts, badness. -/
structure ApRes where
  x : Nat
  re : Nat
  im : Nat
  bad : Nat

/-- Insert by logical index. -/
def insertRes (v : ApRes) : List ApRes → List ApRes
  | [] => [v]
  | w :: t => if v.x ≤ w.x then v :: w :: t else w :: insertRes v t

/-- The logical index of a physical one. -/
def logIndex (map : List Nat) (x : Nat) : Nat :=
  (List.range map.length).foldl (fun acc l => if x.testBit (map.getD l 0) then acc + 2 ^ l else acc) 0

/-- First logical indices of the sets whose x(0) lies in tile q under the request's map. -/
def apSets (r : AxReq) (a : AxArray) (q : Nat) : List Nat :=
  (List.range (2 ^ a.pages)).flatMap fun p => (List.range (2 ^ a.b)).filterMap fun o =>
    let x := p * 2 ^ (a.b + a.t) + q * 2 ^ a.b + o
    if r.bits.any fun l => x.testBit (r.rows.getD l 0) then none else some (logIndex r.rows x)

/-- x(r) of a set. -/
def member (r : AxReq) (x0 i : Nat) : Nat :=
  (List.range r.bits.length).foldl (fun x j => if i.testBit j then x + 2 ^ (r.bits.getD j 0) else x) x0

/-- The results of every set, in rising logical index, and the first badness in the order of the reads; all is read before any
write. -/
inductive ApAll where
  | ok (l : List ApRes) (bad : Nat) (s : State)
  | fail (bad : Nat) (s : State)
  | hold (s : State)

def apResults (u : EngUnit) (r : AxReq) (m : Matrix) (a : AxArray) (s : State) : List Nat → ApAll
  | [] => .ok [] 0 s
  | x0 :: t =>
    let xs := (List.range m.k).map (member r x0)
    match readElems u r a s xs with
    | .fail b s => .fail b s
    | .hold s => .hold s
    | .ok vs s =>
      let first := firstBad (vs.map (·.2))
      match apResults u r m a s t with
      | .fail b s => .fail (if first = 0 then b else first) s
      | .hold s => .hold s
      | .ok l b s =>
        let bad := vs.foldl (fun b v => max b v.2) 0
        .ok ((List.range m.k).foldl (fun l i =>
          let q := rowSum m a.fmt i (vs.map (·.1))
          insertRes ⟨xs.getD i 0, q.1, q.2, bad⟩ l) l) (if first = 0 then b else first) s

/-- The code an apply writes for a result, and the generator after it (R245, R246). -/
def apCode (c : FmtCtx) (f : Nat) (v : ApRes) (g : Nat) : Nat × Nat :=
  let pt := if isCplx f then partTy f else f
  let r1 := axConvert pt c.rm (fp32 (mul32 v.re c.ts.toNat)) g
  if isCplx f then
    let r2 := axConvert pt c.rm (fp32 (mul32 v.im c.ts.toNat)) r1.2
    (r1.1 + r2.1 * 2 ^ (4 * tySize f), r2.2)
  else r1

/-- Codes in order, and the generator after them. -/
def apCodes (c : FmtCtx) (f : Nat) : List ApRes → Nat → List Nat × Nat
  | [], g => ([], g)
  | v :: t, g =>
    let r := apCode c f v g
    let q := apCodes c f t r.2
    (r.1 :: q.1, q.2)

/-- The generator's seed (R247). -/
def seedOf (c : FmtCtx) : Nat := if c.seed = 0 then 1 else c.seed.toNat

/-- Where the results land. -/
def landElems (u : EngUnit) (r : AxReq) (a : AxArray) (s : State) : List Nat → EngLands
  | [] => .ok [] s
  | x :: t =>
    let next := fun (loc leaf : Nat) (s : State) => match landElems u r a s t with
      | .ok l s => .ok ((loc, leaf, []) :: l) s
      | z => z
    match a.spot (a.place x) with
    | .slice loc => next loc 0 s
    | .main e => match engLand s u r.ctx r.high e 5 with
      | .fail s => .fail s
      | .hold s => .hold s
      | .ok loc leaf s => next loc leaf s

/-- First error kept. -/
def firstErr (old new : Nat) : Nat := if old = 0 then new else old
/-- The cause of R257 for a badness. -/
def causeOf (bad : Nat) : Nat := if bad = 0 then 0 else if bad = 1 then 1 else 6

/-- Write results back (DEST = 0). A result fed by a poisoned operand leaves its line poisoned (R258). -/
def apStore (core z : Nat) (s : State) : List (ApRes × Nat × (Nat × Nat × List Byte)) → Nat × State
  | [] => (0, s)
  | (v, code, loc, leaf, _) :: t =>
    let w := engServe s core loc leaf (toBytes z code)
    let s := if v.bad ≠ 0 then poisonWrite w.2 loc else w.2
    let e := if v.bad ≠ 0 then causeOf v.bad else causeOf w.1
    let r := apStore core z s t
    (firstErr e r.1, r.2)

/-- Add a bank word, with the poison of its operands. -/
def bankPut (c : Core) (i : Nat) (zero bad : Bool) (f : Nat → Nat) : Core :=
  let old := if zero then 0 else (mapGet 0 c.bank i).toNat
  { c with
    bank := mapSet 0 c.bank i (BitVec.ofNat 32 (f old))
    bankPoison := if bad then insertLine i c.bankPoison else if zero then c.bankPoison.filter (· ≠ i) else c.bankPoison }

/-- Gather results in the bank (DEST = 1). -/
def apBank (c : Core) (r : AxReq) (f : Nat) (l : List ApRes) : Core :=
  let off := bits r.b 47 36
  let zero := bits r.b 48 48 = 1
  let put := fun (c : Core) (i q bad : Nat) => bankPut c i zero (bad ≠ 0) fun old => if zero then q else add32 old q
  l.foldl (fun c v =>
    if isCplx f then put (put c (off + 2 * v.x) v.re v.bad) (off + 2 * v.x + 1) v.im v.bad else put c (off + v.x) v.re v.bad) c

/-- Replace the request at the head of a core's queue. -/
def putHead (s : State) (core : Nat) (r : AxReq) : State :=
  let c := getCore s core
  match c.axq with
  | [] => s
  | _ :: t => putCore s core { c with axq := r :: t }

/-- A unit seeds its generator as it takes up an apply (R247), and keeps its state as draws leave it. -/
def putGen (s : State) (u gen : Nat) : State := putTile s u { getTile s u with gen := BitVec.ofNat 16 gen }

/-- A unit has finished its share of an apply, its generator at this state. -/
def unitDone (s0 : State) (u core : Nat) (r : AxReq) (gen err : Nat) : State :=
  let s := dropWords s0 r.ctx (axisUnit u r).key
  let t := getTile s u
  let s := putTile s u { t with spanq := t.spanq.erase core, staged := t.staged.filter (·.1 ≠ core), gen := BitVec.ofNat 16 gen }
  let left := r.left.erase u
  putHead s core { r with left := left, done := left.isEmpty, err := firstErr r.err err }

/-- The staging area of a P > 0 array keeps the last block staged (R264), whose reads have counted before (R82). DEDUCED, log entry
30. -/
def leaveStaged (s : State) (u : Nat) (r : AxReq) (a : AxArray) (q : Nat) : State :=
  if a.pages = 0 then s else
  let x := (2 ^ a.pages - 1) * 2 ^ (a.b + a.t) + q * 2 ^ a.b
  match engRead s (axisUnit u r) r.ctx r.high (a.mbase + BitVec.ofNat 64 (x * a.z)) (2 ^ a.b * a.z) with
  | .ok d _ s' => sysBytes (unmade s s') (sliceLoc u a.soff) d
  | _ => s

/-- One unit's work of an apply (R262): withhold the staging area first, then every set of its tile in one step; the error that it
records is the first one met (R258). DESIGN CHOICE, log entry 26. -/
def runUnit (s : State) (u core : Nat) (r : AxReq) (m : Matrix) (a : AxArray) : State :=
  let q := a.tiles.findIdx (· = u)
  let t := getTile s u
  let seed := seedOf r.fmt
  if a.pages ≠ 0 && !t.staged.any (·.1 = core) then
    putGen (putTile s u { t with staged := t.staged ++ [(core, a.soff, 2 * 2 ^ a.b * a.z)] }) u seed else
  let s0 := s
  match apResults (axisUnit u r) r m a s (apSets r a q) with
  | .hold s => putGen (unmade s0 s) u seed
  | .fail b s => unitDone s u core r seed (firstErr (causeOf b) 2)
  | .ok l bad s =>
    if l.any (·.bad = 2) then unitDone s u core r seed (causeOf bad)
    else if bits r.b 35 35 = 1 then
      unitDone (putCore s core (apBank (getCore s core) r a.fmt l)) u core r seed (causeOf bad)
    else match landElems (axisUnit u r) r a s (l.map (·.x)) with
      | .hold s => putGen (unmade s0 s) u seed
      | .fail s => unitDone s u core r seed (firstErr (causeOf bad) 2)
      | .ok ls s =>
        let codes := apCodes r.fmt a.fmt l seed
        let w := apStore (axisUnit u r).place a.z s (l.zip (codes.1.zip ls))
        unitDone (leaveStaged w.2 u r a q) u core r codes.2 (firstErr (causeOf bad) w.1)

/-! ### Performing a product (R249, R266) -/

/-- A block of an operand: 32 values (real and imaginary parts), its scale byte, and whether a line was poisoned. -/
structure Block where
  vals : List (Num × Num)
  scale : Nat
  bad : Bool

/-- Any poisoned line among n bytes. -/
def anyPoison (s : State) (loc n : Nat) : Bool := (List.range n).any fun k => isPoisoned s (loc + k)

/-- Block j of a row or column at a slice location; sc is the location of its scale byte. An axis unit reads a withheld staging
area as it stands. DESIGN CHOICE, log entry 30. -/
def readBlock (s : State) (f loc j : Nat) (sc : Option Nat) : Block :=
  let n := blockBytes f
  let b := readBytes s (loc + j * n) n
  let vals := if f = 1 then (ox4Decode b).map fun v => (v, .fin false 0 0) else (unpack f 32 b).map (elemParts f)
  match sc with
  | some l => ⟨vals, readNat s (l + j) 1, anyPoison s (loc + j * n) n || isPoisoned s (l + j)⟩
  | none => ⟨vals, if f = 1 then at_ b 16 1 else 127, anyPoison s (loc + j * n) n⟩

/-- The exact sum of the products of two blocks, part by part. -/
def blockDot (cplx : Bool) (x y : Block) : Num × Num :=
  let ps := x.vals.zip y.vals
  if cplx then
    (sumNum (ps.flatMap fun p => [p.1.1.mul p.2.1, (p.1.2.mul p.2.2).neg]),
     sumNum (ps.flatMap fun p => [p.1.1.mul p.2.2, p.1.2.mul p.2.1]))
  else (sumNum (ps.map fun p => p.1.1.mul p.2.1), .fin false 0 0)

/-- q of R249 for one part. -/
def blockQ (p : Num) (sa sb : Nat) : Nat :=
  roundNE 11 (if sa = 255 ∨ sb = 255 then .nan else p.scale ((sa : Int) - 127 + ((sb : Int) - 127)))

/-- The integer a sum of integer products is. -/
def numInt : Num → Int
  | .fin s m e => atExp s m e 0
  | _ => 0

/-- One product of a row and a column added to its bank words. -/
def macWords (c : Core) (f : FmtCtx) (i : Nat) (zero : Bool) (xs ys : List Block) : Core :=
  let cplx := isCplx f.afmt
  let bs := xs.zip ys
  let bad := bs.any fun p => p.1.bad || p.2.bad
  let part := fun (sel : Num × Num → Num) (old : Nat) =>
    if f.accInt then ((signed 32 old + (bs.map fun (p : Block × Block) => numInt (sel (blockDot cplx p.1 p.2))).sum) % 2 ^ 32).toNat
    else bs.foldl (fun acc p => add32 acc (blockQ (sel (blockDot cplx p.1 p.2)) p.1.scale p.2.scale)) old
  let c := bankPut c i zero bad (part (·.1))
  if cplx then bankPut c (i + 1) zero bad (part (·.2)) else c

/-- Perform an accepted `axmm`: the bank after it, and its error. -/
def runMm (s : State) (core : Nat) (r : AxReq) : State :=
  let q := parseMm r.desc
  let f := r.fmt
  let c := getCore s core
  let la := (sliceAt r.high q.a).getD 0
  let lb := (sliceAt r.high q.b).getD 0
  let sa := fun (row : Nat) => if f.asc then (sliceAt f.high f.ascale).map (· + row * f.aspitch) else none
  let sb := fun (col : Nat) => if f.bsc then (sliceAt f.high f.bscale).map (· + col * f.bspitch) else none
  let rows := r.rows.map fun i => (List.range q.nb).map fun j => readBlock s f.afmt (la + i * q.apitch) j (sa i)
  let cols := (List.range q.n).map fun n => (List.range q.nb).map fun j => readBlock s f.bfmt (lb + n * q.bpitch) j (sb n)
  let c1 := (List.range rows.length).foldl (fun c m => (List.range q.n).foldl (fun c n =>
    macWords c f (q.off + wordsOf f.afmt * (m * q.n + n)) q.zero (rows.getD m []) (cols.getD n [])) c) c
  let bad := (rows ++ cols).any fun x => x.any (·.bad)
  putHead (putCore s core c1) core { r with started := true, done := true, err := if bad then 1 else 0 }

/-! ### Performing a drain (R242, R249, R268) -/

/-- The value drained from a word (R249). -/
def drainVal (c : FmtCtx) (intOut : Bool) (w : Nat) : Num :=
  if c.accInt then
    (if intOut then numOfInt (signed 32 w) else fp32 (roundNE 11 ((numOfInt (signed 32 w)).mul (fp32 c.ts.toNat))))
  else fp32 (mul32 w c.ts.toNat)

/-- The largest finite value of a format, and its exponent (R242). -/
def maxFin (f : Nat) : Num := if isInt f then numOfInt (intHi f) else decodeF (fmtOf f) (fmtOf f).maxCode
def floorLog : Num → Int
  | .fin _ m e => (Nat.log2 m : Int) + e
  | _ => 0

/-- The magnitude of a value, an infinity counting as the largest finite one. -/
def magOf (f : Nat) : Num → Num
  | .fin _ m e => .fin false m e
  | .inf _ => maxFin f
  | .nan => .fin false 0 0

/-- R242: the scale byte of a block of results. -/
def scaleByte (f : Nat) (xs : List Num) : Nat :=
  if xs.any (·.isNan) then 255 else
  let mx := xs.foldl (fun b x => if b.cmp (magOf f x) < 0 then magOf f x else b) (.fin false 0 0)
  match mx with
  | .fin _ 0 _ => 127
  | _ =>
    let e := (max 0 (min (floorLog mx - floorLog (maxFin f) + 127) 254)).toNat
    if e < 254 ∧ 0 < (mx.scale (127 - (e : Int))).cmp (maxFin f) then e + 1 else e

/-- Convert values in order. -/
def convertAll (f rm : Nat) : List Num → Nat → List Nat × Nat
  | [], g => ([], g)
  | x :: t, g =>
    let r := axConvert f rm x g
    let q := convertAll f rm t r.2
    (r.1 :: q.1, q.2)

/-- Blocks of 32 results with their scale bytes, and the generator after them. -/
def convertBlocks (f rm : Nat) : Nat → List Num → Nat → List Nat × List Nat × Nat
  | 0, _, g => ([], [], g)
  | n + 1, xs, g =>
    let b := xs.take 32
    let e := scaleByte f b
    let r := if e = 255 then (b.map fun _ => 0, g) else convertAll f rm (b.map fun x => x.scale (127 - (e : Int))) g
    let q := convertBlocks f rm n (xs.drop 32) r.2
    (r.1 ++ q.1, e :: q.2.1, q.2.2)

/-- Pairs of part codes joined to complex elements. -/
def joinParts (w : Nat) : List Nat → List Nat
  | a :: b :: t => (a + b * 2 ^ w) :: joinParts w t
  | _ => []

/-- What a drain writes: packed elements, and scale bytes; and the generator after it. -/
def drainData (c : Core) (r : AxReq) : List Byte × List Byte × Nat :=
  let f := r.fmt.ofmt
  let pt := if isCplx f then partTy f else f
  let n := wordsOf f * bits r.b 24 12
  let vals := (List.range n).map fun i => drainVal r.fmt (isInt pt) (mapGet 0 c.bank (bits r.b 11 0 + i)).toNat
  if r.fmt.osc then
    let q := convertBlocks f r.fmt.rm (n / 32) vals (seedOf r.fmt)
    (pack f q.1, q.2.1.map (BitVec.ofNat 8), q.2.2)
  else
    let q := convertAll pt r.fmt.rm vals (seedOf r.fmt)
    (pack f (if isCplx f then joinParts (8 * tySize pt) q.1 else q.1), [], q.2)

/-- Does a poisoned bank word feed any of n bytes from byte i on? -/
def drainBad (c : Core) (r : AxReq) (i n : Nat) : Bool :=
  let f := r.fmt.ofmt
  let w := wordsOf f
  let lo := 8 * i / fmtBits f
  let hi := (8 * (i + n) + fmtBits f - 1) / fmtBits f
  c.bankPoison.any fun p => decide (bits r.b 11 0 + w * lo ≤ p ∧ p < bits r.b 11 0 + w * hi ∧ p < bits r.b 11 0 + w * bits r.b 24 12)

/-- The address a drain writes to. -/
def drainAddr (r : AxReq) : Word :=
  if bits r.b 26 26 = 1 then sliceAddr (homeLoc (bits r.a 13 0) (bits r.a 31 16)) else r.a

/-- The writes of a drain in order: address, data, badness. A poisoned bank word poisons the lines of the elements that it feeds, and
no line of scale bytes. DESIGN CHOICE, log entry 31. -/
def drainWrites (c : Core) (r : AxReq) : List (Word × List Byte × Bool) :=
  let d := drainData c r
  let e := drainAddr r
  ((linePieces d.1.length e.toNat d.1.length).map fun p =>
    (BitVec.ofNat 64 p.1, slice d.1 (p.1 - e.toNat) p.2, drainBad c r (p.1 - e.toNat) p.2)) ++
  (linePieces d.2.1.length r.fmt.oscale.toNat d.2.1.length).map fun p =>
    (BitVec.ofNat 64 p.1, slice d.2.1 (p.1 - r.fmt.oscale.toNat) p.2, false)

/-- Write from position pos on: the position reached, the error, whether it is over, and whether it stopped. -/
def drainRun (u : EngUnit) (r : AxReq) (s : State) (err : Nat) : List (Word × List Byte × Bool) → Nat → Nat × Nat × Bool × Bool × State
  | [], pos => (pos, err, true, false, s)
  | (e, d, bad) :: t, pos =>
    match engLand s u r.ctx r.high e 5 with
    | .hold s => (pos, err, false, false, s)
    | .fail s => (pos, firstErr err 2, true, true, s)
    | .ok loc leaf s =>
      let w := engServe s u.place loc leaf d
      let s := if bad ∧ w.1 ≠ 2 then poisonWrite w.2 loc else w.2
      let e := if bad then 1 else causeOf w.1
      if w.1 = 2 then (pos, firstErr err 6, true, true, s) else drainRun u r s (firstErr err e) t (pos + 1)

/-- The agent that sends a unit's wake-ups. -/
def unitAgent (tile : Nat) : Nat := engineBase + 4 * tile + 2

/-- The wake-up record of a core-home drain. -/
def wakeUp (s : State) (u : Nat) (r : AxReq) : State :=
  let f := r.fmt
  sendRecord s (unitAgent u) (bits r.a 13 0)
    { cls := BitVec.ofNat 8 (bits r.b 35 28), pri := bits r.b 27 27 = 1, src := BitVec.ofNat 16 (4 * u),
      carried := #v[drainAddr r, BitVec.ofNat 64 (drainBytes f (bits r.b 24 12)),
        BitVec.ofNat 64 (coreOf r.ctx + r.ctx % 2 * 2 ^ 14), BitVec.ofNat 64 (ticket r.seq), 0, 0, 0, 0] }

/-- Clear the drained words and their poison. -/
def clearBank (c : Core) (r : AxReq) : Core :=
  let lo := bits r.b 11 0
  let hi := lo + wordsOf r.fmt.ofmt * bits r.b 24 12
  { c with bank := c.bank.filter fun e => !decide (lo ≤ e.1 ∧ e.1 < hi)
           bankPoison := c.bankPoison.filter fun p => !decide (lo ≤ p ∧ p < hi) }

/-- Perform an accepted `axdrain` as far as it goes now. Its values are converted as it starts, so its draws are all made then, and a
drain that is held leaves the generator as they left it. DESIGN CHOICE, log entry 26. -/
def runDrain (s : State) (u core : Nat) (r : AxReq) : State :=
  let s := putGen s u (drainData (getCore s core) r).2.2
  let w := drainRun (axisUnit u r) r s r.err ((drainWrites (getCore s core) r).drop r.pos) r.pos
  let r1 := { r with started := true, pos := w.1, err := w.2.1, done := w.2.2.1 }
  let s := w.2.2.2.2
  if !r1.done then putHead s core r1 else
  let s := if bits r.b 25 25 = 1 then putCore s core (clearBank (getCore s core) r) else s
  let s := if bits r.b 26 26 = 1 && !w.2.2.2.1 then wakeUp s u r else s
  putHead s core r1

/-! ### The unit's turns (R256, R263) and completion (R255, R257) -/

/-- May the request at the head of a core's queue be taken up now? -/
def coreTurn (s : State) (core : Nat) : Bool :=
  match (getCore s core).axq with
  | [] => false
  | r :: _ => !r.done && gateOpen s r.ctx r.gate && coreLive s core &&
      (r.op ≠ 0 || (!r.started && (findArr s r.arr).any fun a => a.applies.head? = some core))

/-- The apply of a core that this unit may work on now, with its array: while a wave runs, its own groups once they are exchanged.
An apply that was accepted before a wave stopped on a fault runs on, each element where R188 places it. DESIGN CHOICE, log
entry 29. -/
def spanWork (s : State) (u core : Nat) : Option (AxReq × Matrix × AxArray) :=
  match (getCore s core).axq with
  | [] => none
  | r :: _ => match r.mat, findArr s r.arr with
    | some m, some a =>
      if r.op = 0 && r.started && r.left.contains u && coreLive s core &&
          (a.wave ≠ 2 || a.ownerDone (a.ownerOf (a.tiles.findIdx (· = u)))) then some (r, m, a) else none
    | _, _ => none

def nextSpan (s : State) (u : Nat) : Option (Nat × AxReq × Matrix × AxArray) :=
  (getTile s u).spanq.findSome? fun c => (spanWork s u c).map fun w => (c, w)

/-- Take up the request at the head of a core's queue. -/
def startReq (s : State) (u core : Nat) (r : AxReq) : State :=
  if r.op = 1 then runMm s core r
  else if r.op = 2 then runDrain s u core r
  else r.left.foldl (fun s t => putTile s t { getTile s t with spanq := (getTile s t).spanq ++ [core] })
    (putHead s core { r with started := true })

/-- AXIS_REQUEST_START: one request of the unit's, round robin among the four cores and the span queue. -/
def execAxisRequestStart (tile : Nat) (s : State) : Host.Outcome State Fault Refusal :=
  let t := getTile s tile
  let turn := ((List.range 5).map fun k => (t.rrAx + k) % 5).find? fun k =>
    if k < 4 then coreTurn s (4 * tile + k) else (nextSpan s tile).isSome
  match turn with
  | none => .next s
  | some k =>
    let s := putTile s tile { t with rrAx := (k + 1) % 5 }
    if k < 4 then match (getCore s (4 * tile + k)).axq with
      | r :: _ => .next (startReq s tile (4 * tile + k) r)
      | [] => .next s
    else match nextSpan s tile with
      | some (c, r, m, a) => .next (runUnit s tile c r m a)
      | none => .next s

/-- Is the wake-up of a drain of this unit still unacknowledged? -/
def wakePending (s : State) (tile : Nat) : Bool := unacked s (unitAgent tile) isSend

/-- AXIS_REQUEST_COMPLETE: the first finished request of the tile's cores leaves its queue. -/
def execAxisRequestComplete (tile : Nat) (s : State) : Host.Outcome State Fault Refusal :=
  match (rrCores tile 0).find? fun k => ((getCore s k).axq.head?).any fun r =>
      r.done && !(r.op = 2 && bits r.b 26 26 = 1 && wakePending s tile) with
  | none => .next s
  | some k =>
    let c := getCore s k
    match c.axq with
    | [] => .next s
    | r :: t =>
      let s1 := putCore s k { c with axq := t, axdone := setBits c.axdone 47 0 r.seq, axerr := recordErr c.axerr r.err r.seq }
      .next (match findArr s1 r.arr with
        | some a => if r.op = 0 then putArr s1 { a with applies := a.applies.erase k } else s1
        | none => s1)

end Sys2Proof.Machine
end

