-- ==== Sys2Proof/Machine/Sched.lean ====
section
/-! DEFINITION. Launch records and the dispatcher (R306 to R315), the resolution and the grant of a region (R272, R310, R398),
its end (R274, R313), budgets (R312), utilisation (R288), and the issue choice within a core (R316, R317). -/

namespace Sys2Proof.Machine

open Sys2Proof

/-! ### Launch records (R306, R307) -/

def parseLaunch (b : List Byte) (src : BitVec 16) (queue : Option Nat) : Launch :=
  { rcb := at_ b 0 8, kind := at_ b 8 1 % 4, pri := (at_ b 8 1).testBit 2, cls := BitVec.ofNat 8 (at_ b 9 1), clk := at_ b 10 1,
    core := at_ b 11 1 % 64, carried := Vector.ofFn fun k => BitVec.ofNat 64 (at_ b (16 + 8 * k.val) 8), src := src,
    queue := queue }

/-- Malformed whatever its region: a reserved bit or KIND 11. -/
def badLaunch (b : List Byte) : Bool :=
  at_ b 8 1 % 4 = 3 || at_ b 8 1 / 8 ≠ 0 || at_ b 11 1 / 64 ≠ 0 || at_ b 12 4 ≠ 0

/-- The PAGER that a region has, or will have once it is resolved (R272). -/
def launchPager (s : State) (rcb : Nat) : Nat :=
  let p := rcbField s rcb 0 8
  if (findRegion s rcb).isSome || p = 0 || (rcbField s rcb 0x62 2).testBit 3 then rcbPager s rcb else rcbPager s p

/-- R306: a team of more than 62 core members in a mode-1 region. -/
def tooMany (s : State) (l : Launch) : Bool := l.kind = 1 && launchPager s l.rcb = 1 && decide (62 ≤ l.core)

/-- The tests that need the resolved RCB (R307, and R306's MEMBERS). DEDUCED, log entry 45. -/
def failsTests (s : State) (l : Launch) : Bool :=
  decide (rcbBcl s l.rcb ≤ l.clk) || (l.kind = 0 && rcbPager s l.rcb = 1 && decide (62 ≤ l.core)) || tooMany s l

/-- Report a discarded record (R307). -/
def reportDiscard (s : State) (die : Nat) (l : Launch) : State :=
  match l.queue with
  | some q => { s with dev := { s.dev with lqhead := setIx s.dev.lqhead q (setBits (s.dev.lqhead.toList.getD q 0) 63 63 1) } }
  | none => logEvent s (0x5204 + die) 8 (l.rcb + l.clk * 2 ^ 64 + l.core * 2 ^ 72)

/-! ### Resolving an RCB (R272) -/

/-- The field groups of OVR: offset and length of each field. -/
def ovrGroups : List (List (Nat × Nat)) :=
  [[(0x5A, 1)], [(0x48, 16), (0x58, 2)], [(0x5E, 2)], [(0x5B, 1), (0x38, 8), (0x40, 8)], [(0x08, 8)], [(0x80, 64)],
   [(0x60, 2)], [(0x10, 16)]]

/-- Copy every group whose OVR bit is clear from the parent's RCB; a root keeps its own. -/
def resolveRcb (s : State) (rcb : Nat) : State :=
  let p := rcbField s rcb 0 8
  if p = 0 then s else
  let ovr := rcbField s rcb 0x62 2
  ((List.range 8).filter fun k => !ovr.testBit k).foldl (fun s k =>
    (ovrGroups.getD k []).foldl (fun s f => sysBytes s (rcb + f.1) (readBytes s (p + f.1) f.2)) s) s

/-- A slice-image entry that R310 refuses. -/
def badImageEntry (s : State) (bcl at1 : Nat) : Bool :=
  let tile := readNat s (at1 + 8) 2
  let off := readNat s (at1 + 12) 4
  let len := readNat s (at1 + 16) 8
  readNat s (at1 + 10) 2 ≠ 0 || decide (16 * bcl ≤ tile) || decide (2 ^ 18 < off + len) ||
    (len ≠ 0 && decide (0xC000 < off % 2 ^ 16 + len))

/-- R272: does a resolved RCB fail its launch? Reserved bits are those of its bytes and of the registers that it holds. DEDUCED,
log entry 49. -/
def badRcb (s : State) (rcb : Nat) : Bool :=
  let f := rcbField s rcb
  let img := f 0x78 8
  rcb % 256 ≠ 0 || f 0 8 % 256 ≠ 0 || f 0x10 8 % 64 ≠ 0 || f 0x20 8 % 2 ^ 16 ≠ 0 || f 0x28 8 % 2 ^ 16 ≠ 0 ||
  f 0x30 8 % 4096 ≠ 0 || f 0x40 8 % 2 ^ 16 ≠ 0 || img % 8 ≠ 0 ||
  f 0x08 1 ≠ 0 || f 0x70 8 / 2 ^ 16 ≠ 0 || f 0x70 1 / 8 ≠ 0 ||
  f 0x5A 1 / 8 ≠ 0 || decide (3 ≤ f 0x5B 1) || f 0x5D 1 ≠ 0 || f 0x62 2 / 256 ≠ 0 || f 0x64 4 ≠ 0 || f 0xC0 64 ≠ 0 ||
  decide (f 0x5C 1 < 6) || decide (20 < f 0x5C 1) || f 0x58 2 = 0 || decide (256 < f 0x58 2) ||
  (List.range 8).any (fun k => let w := BitVec.ofNat 64 (f (0x80 + 8 * k) 8);
    bits w 34 32 = 7 || decide (64 < bits w 30 24) || fieldsOf (0x0D8 + k) w ≠ w) ||
  (img ≠ 0 && (List.range (readNat s img 8)).any fun i => badImageEntry s (f 0x58 2) (img + 8 + 24 * i))

/-! ### Budgets (R272, R312) -/

/-- BUDGET_EXHAUSTED: a running region is charged; once it is over a budget, Dusk saves it and it is not granted again. -/
def execBudgetExhausted (rcb : Nat) (s : State) : Host.Outcome State Fault Refusal :=
  match findRegion s rcb with
  | none => .next s
  | some g => .next (if g.state = 2 && !chainFar s chain rcb then judgeBudgets (charge s g) else s)

/-! ### Handling the records of a store (R309) -/

/-- Deliver a task record to its core as a record of R276. -/
def deliverTask (s : State) (g : Region) (l : Launch) : State :=
  post s (64 * g.clusters.getD l.clk 0 + l.core) l.pri
    { cls := l.cls, src := if l.queue.isSome then 0x8000 else l.src, carried := l.carried }

/-- R364: the RCB of a launch, an ancestor's or its image table lies where requests wait. -/
def launchFar (s : State) (rcb : Nat) : Bool := rcbFar s rcb [(0, 256), (0x78, 8)] || chainFar s chain rcb

/-- What becomes of one record: the state, and the record where it stays in the store. The tests of R307, and the test of the budget
(R312) for a new region and a resume record, are made when it is taken; `free` says that no earlier record of its region waits. -/
def handleLaunch (s : State) (die : Nat) (l : Launch) (free : Bool) : State × Option Launch :=
  if launchFar s l.rcb then (s, some l) else
  match findRegion s l.rcb with
  | some g =>
    if failsTests s l then (reportDiscard s die l, none)
    else if free && g.state = 2 then
      (if l.kind = 0 then (deliverTask s g l, none) else if l.kind = 2 then (s, none) else (s, some l))
    else if l.kind = 2 && (g.state = 1 || g.state = 3) && !l.tested then
      (putRegion s { g with overBudget := exhausted s chain l.rcb }, some { l with tested := true })
    else (s, some l)
  | none =>
    if rcbState s l.rcb = 5 then (s, none) else
    let s1 := resolveRcb s l.rcb
    if badRcb s1 l.rcb then (setStatus s1 l.rcb 5 0x30, none)
    else if failsTests s1 l then (reportDiscard s die l, none)
    else
      let g : Region := { rcb := l.rcb, die := die, readyAt := s.tick, overBudget := exhausted s1 chain l.rcb }
      (setStatus { s1 with regions := s1.regions ++ [g] } l.rcb 1 0, some l)

/-- Go through a store in order; the records of one region leave it in order, so one that stays holds back those behind it. -/
def pumpList (s : State) (die : Nat) (held : List Nat) : List Launch → State × List Launch
  | [] => (s, [])
  | l :: t => match handleLaunch s die l (!held.contains l.rcb) with
    | (s1, some l1) =>
      let r := pumpList s1 die (l.rcb :: held) t
      (r.1, l1 :: r.2)
    | (s1, none) => pumpList s1 die held t

def pump (s : State) (die : Nat) : State :=
  let r := pumpList s die [] (getDie s die).store
  putDie r.1 die { getDie r.1 die with store := r.2 }
def pumpAll (s : State) : State := [0, 1, 2, 3].foldl pump s

/-- R309: 1,024 records. -/
def storeFull (s : State) (die : Nat) : Bool := 1024 ≤ (getDie s die).store.length
def enterLaunch (s : State) (die : Nat) (l : Launch) : State :=
  putDie s die { getDie s die with store := (getDie s die).store ++ [l] }

/-- A host queue with a record to take (R308). -/
def queueReady (s : State) (q : Nat) : Bool :=
  ahead (bits (s.dev.lqtail.toList.getD q 0) 31 0) (bits (s.dev.lqhead.toList.getD q 0) 31 0) ≠ 0

/-- DISPATCHER_TAKE_RECORD: the dispatcher of queue q's die takes its next record, when it is that queue's turn, and handles
what its store holds. -/
def execDispatcherTakeRecord (q : Nat) (s : State) : Host.Outcome State Fault Refusal :=
  let die := q % 4
  let d := getDie s die
  let turn := ((List.range 4).map fun k => (d.rrQueue + k) % 4).find? fun k => queueReady s (die + 4 * k)
  if 16 ≤ q ∨ 2 ≤ s.pstate ∨ s.recovering then .next s
  else if turn ≠ some (q / 4) || storeFull s die then .next (pump s die)
  else
    let base := s.dev.lqbase.toList.getD q 0
    let h := s.dev.lqhead.toList.getD q 0
    let at1 := bits base 51 7 * 128 + 128 * (bits h 31 0 % 2 ^ bits base 4 0)
    let b := readBytes s at1 80
    let l := parseLaunch b 0x8000 (some q)
    if farWaits s at1 || (!badLaunch b && launchFar s l.rcb) then .next (pump s die) else
    let s := { s with dev := { s.dev with lqhead := setIx s.dev.lqhead q (setBits h 31 0 (bits h 31 0 + 1)) } }
    let s := putDie s die { d with rrQueue := (q / 4 + 1) % 4 }
    .next (if badLaunch b || tooMany s l then reportDiscard s die l else pump (enterLaunch s die l) die)

/-! ### `launch` (R314, R315) -/

/-- Earlier stores that a launch releases: those to the target tile, or to cluster k, and every `axst`, whose elements may be bound
for it. -/
def launchBlocked (s : State) (l : Launch) : Bool :=
  match findRegion s l.rcb with
  | none => false
  | some g => match g.clusters[l.clk]? with
    | none => false
    | some cl => unacked s s.who fun e => isAxstEntry e || (isStore e && (destTile e).any fun t =>
        if l.kind = 0 then t = 16 * cl + l.core / 4 else t / 16 = cl)

/-- The shared body; `full` is what a full store does, `ok` what acceptance writes. -/
def launchBody (a : BitVec 5) (full ok : State → Body) (s : State) : Body :=
  withImage (rd s a) 80 16 (fun _ => none) s fun b s1 =>
    let l := parseLaunch b (BitVec.ofNat 16 (coreOf s1.who)) none
    let own := regionTag s1 s1.who
    let die := dieOf s1.who
    if badLaunch b then .trap illegalOperand
    else if launchFar s1 l.rcb then .wait s .stalled
    else if tooMany s1 l then .trap illegalOperand
    else if l.rcb ≠ own && rcbField s1 l.rcb 0 8 ≠ own then .trap { code := 0x0D }
    else if launchBlocked s1 l then .wait s .stalled
    else if storeFull s1 die then full s1
    else ok (pump (enterLaunch s1 die l) die)

def execLaunch (a : BitVec 5) (st : BitVec 3) (s : State) : Host.Outcome State Fault Refusal :=
  issue s coreOnly 4 st [useS a] (launchBody a (fun s => .wait s .stalled) fun s => .done s [])
def execLaunchTry (d a : BitVec 5) (st : BitVec 3) (s : State) : Host.Outcome State Fault Refusal :=
  issue s coreOnly 4 st [useS d, useS a] (launchBody a (fun s => .done (wr s d 1) []) fun s => .done (wr s d 0) [])

/-! ### TEAM_START (R290, R306) -/

/-- The first record of each region in a store. -/
def firstOfRegion (l : List Launch) (rcb : Nat) : Option Launch := l.find? (·.rcb = rcb)

/-- Core members of a team record: the first MEMBERS cores, 62 and 63 left out in a mode-1 region. -/
def teamMask (l : Launch) : Nat := 2 ^ (l.core + 1) - 1

/-- TEAM_START: a team record at the head of its region's records starts its team on the cluster of a core that runs none. -/
def execTeamStart (core : Nat) (s : State) : Host.Outcome State Fault Refusal :=
  let cl := core / 64
  match (getCluster s cl).region, (getCluster s cl).team with
  | some (rcb, k), none =>
    if !coreRuns s core || startFar s core then .next s else
    match [0, 1, 2, 3].findSome? fun d => ((firstOfRegion (getDie s d).store rcb).filter fun l => l.kind = 1 && l.clk = k).map
        fun l => (d, l) with
    | none => .next s
    | some (d, l) =>
      let s := putDie s d { getDie s d with store := (getDie s d).store.erase l }
      let at1 := rcbField s rcb 0x10 8 + 8 * l.cls.toNat
      let entry := BitVec.ofNat 64 (readNat s at1 8 / 2 * 2)
      .next (pump (startTeam s cl entry at1 (teamMask l) l.carried) d)
  | _, _ => .next s

/-! ### Choosing a region to grant (R310, R311) -/

/-- Clusters that no region holds, a die's own first. -/
def freeClusters (s : State) (die : Nat) : List Nat :=
  ((List.range 64).map (64 * die + ·) ++ (List.range 256).filter (· / 64 ≠ die)).filter fun c => (getCluster s c).region.isNone

/-- Does a message carry a record that waits for room on the spill ring of a saved region (R277)? -/
def waitsSaved (s : State) (m : Msg) : Bool :=
  heldAt s m && (inboxOf m.entry).any fun x => (regionFor s m.entry.rcb x.1).any (·.state = 3)

/-- What waits for room on a saved region's ring is a record of that region, whichever region takes its clusters meanwhile. -/
def claimWaiting (s : State) : State :=
  { s with net := s.net.map fun m => if !waitsSaved s m then m else
      { m with entry := { m.entry with rcb := (((inboxOf m.entry).bind fun x => regionFor s m.entry.rcb x.1).map (·.rcb)).getD 0 } } }

/-- Nothing of an earlier region is still on its way from or to a cluster. A record that waits for room on a saved region's ring has
arrived, and keeps no region off. -/
def clusterQuiet (s : State) (cl : Nat) : Bool :=
  s.net.all (fun m => waitsSaved s m || (clusterOf m.src ≠ cl && (destTile m.entry).all (· / 16 ≠ cl))) &&
  s.replies.all (fun r => clusterOf r.dst ≠ cl) && (clusterOf s.who ≠ cl || s.cur.buf.isEmpty) &&
  s.parked.all (fun c => clusterOf c.1 ≠ cl || c.2.buf.isEmpty) && s.remotes.all fun r => clusterOf r.ctx ≠ cl

/-- A region that waits for a grant. -/
def Region.waits (g : Region) : Bool := (g.state = 1 || g.state = 3) && !g.overBudget

/-- May a grant take its clusters now? -/
def fits (s : State) (g : Region) : Bool :=
  if g.state = 1 then decide (rcbBcl s g.rcb ≤ (freeClusters s g.die).length)
  else g.clusters.all fun c => (getCluster s c).region.isNone

/-- R364: a PRIO that the dispatcher compares lies where requests wait. -/
def priosFar (s : State) : Bool := s.regions.any fun g => farWaits s g.rcb

/-- Grant order: higher PRIO first, then the order of becoming ready. -/
def grantBefore (s : State) (g h : Region) : Bool :=
  decide (rcbPrio s h.rcb < rcbPrio s g.rcb) || (rcbPrio s h.rcb = rcbPrio s g.rcb && decide (g.readyAt ≤ h.readyAt))
def insertRegion (before : Region → Region → Bool) (g : Region) : List Region → List Region
  | [] => [g]
  | h :: t => if before g h then g :: h :: t else h :: insertRegion before g t

/-- Every region that waits for a grant, in grant order. -/
def waiting (s : State) : List Region := (s.regions.filter (·.waits)).foldr (insertRegion (grantBefore s)) []

/-- Victims in order: lowest PRIO first, and within one PRIO the most recently granted first. -/
def victimBefore (s : State) (g h : Region) : Bool :=
  decide (rcbPrio s g.rcb < rcbPrio s h.rcb) || (rcbPrio s g.rcb = rcbPrio s h.rcb && decide (h.grantAt ≤ g.grantAt))

def takeVictims : Nat → List Region → List Region
  | _, [] => []
  | need, g :: t => if need = 0 then [] else g :: takeVictims (need - g.clusters.length) t

/-- R311: the running regions that Dusk saves for a ready region that does not fit. -/
def victims (s : State) (g : Region) : List Nat :=
  let p := rcbPrio s g.rcb
  let running := s.regions.filter (·.onClusters)
  if fits s g then []
  else if g.state = 1 then
    let below := running.filter fun h => rcbPrio s h.rcb < p
    let free := (freeClusters s g.die).length
    if free + (below.map fun h => h.clusters.length).sum < rcbBcl s g.rcb then []
    else (takeVictims (rcbBcl s g.rcb - free) (below.foldr (insertRegion (victimBefore s)) [])).map (·.rcb)
  else
    let holders := running.filter fun h => h.clusters.any g.clusters.contains
    if holders.all fun h => rcbPrio s h.rcb < p then holders.map (·.rcb) else []

/-- Is a grant held back by another waiting region: one passed over 16 times, whose turn among its PRIO comes first, or one
for which Dusk is making room? -/
def heldBack (s : State) (g : Region) : Bool :=
  (waiting s).any fun c => c.rcb ≠ g.rcb && (
    (decide (16 ≤ c.age) && (decide (rcbPrio s g.rcb < rcbPrio s c.rcb) ||
      (rcbPrio s g.rcb = rcbPrio s c.rcb && (decide (g.age < 16) || decide (c.readyAt < g.readyAt))))) ||
    (decide (rcbPrio s g.rcb < rcbPrio s c.rcb) && !(victims s c).isEmpty))

/-- The region a dispatcher grants now, if any: in the order of R310 among the ready regions of its own die. DESIGN CHOICE, log entry
46. -/
def grantChoice (s : State) (die : Nat) : Option Region :=
  ((waiting s).filter (·.die = die)).find? fun g => fits s g && !heldBack s g

/-- Each region that a grant passes over, because it does not fit, is older by one. DEDUCED, log entry 46. -/
def agePassed (s : State) (g : Region) : State :=
  (((waiting s).takeWhile (·.rcb ≠ g.rcb)).filter fun h => !fits s h).foldl (fun s h => putRegion s { h with age := h.age + 1 }) s

/-! ### The grant (R310, R351, R373, R398) -/

/-- A tile at grant from a launch: its windows, and its owner. DEDUCED, log entry 47. -/
def freshTile (s : State) (rcb : Nat) : Tile :=
  { slwin := Vector.ofFn fun k => fieldsOf (0x0D8 + k.val) (BitVec.ofNat 64 (rcbField s rcb (0x80 + 8 * k.val) 8))
    slown := BitVec.ofNat 64 (2 ^ 63 + 2 ^ 60 + rcbTag s rcb) }

/-- A context at grant from a launch. -/
def freshCtx (s : State) (rcb core : Nat) : Ctx :=
  { troot := fieldsOf 0x0C9 (BitVec.ofNat 64 (rcbField s rcb 0x08 8))
    vabase := BitVec.ofNat 64 (rcbField s rcb 0x60 2)
    tstatus := if rcbPager s rcb = 1 ∧ 62 ≤ core % 64 then 2 else 0 }

/-- Zero a tile's slice, its poison with it: every one of its lines is written (R127). -/
def zeroSlice (s : State) (tile : Nat) : State :=
  let lo := sliceLoc tile 0
  wroteWhere { s with mem := s.mem.filter fun c => !decide (lo ≤ c.1 ∧ c.1 < lo + 2 ^ 18)
                      poison := s.poison.filter fun p => !decide (lo / 64 ≤ p ∧ p < lo / 64 + 4096) }
    fun l => decide (lo / 64 ≤ l ∧ l < lo / 64 + 4096)

/-- Give a cluster to a region as its k-th: what it has fetched for an earlier region goes, and so do the leaves that its TLBs hold
under the region's tag, which an ended region may have had (R59, R61). The windows of the region stand before its slice image is
written, which therefore lies at its offsets under them. DESIGN CHOICE, log entry 47. -/
def openCluster (s : State) (rcb cl k : Nat) : State :=
  let others := fun (l : List TlbEntry) => l.filter (·.tag ≠ rcbTag s rcb)
  let c := getCluster s cl
  let s := putCluster s cl { c with region := some (rcb, k), team := none, busy := [], idle := [], icache := [], tlb := others c.tlb }
  let s := (List.range 16).foldl (fun s t =>
    let i := 16 * cl + t
    putTile (zeroSlice s i) i (freshTile s rcb)) s
  let s := (List.range 64).foldl (fun s c =>
    let i := 64 * cl + c
    putCore s i { tlb := others (getCore s i).tlb, phaseAt := 2 * s.stamp }) s
  (agentsOf cl).foldl (fun s a => putCtx s a (if isEngine a then {} else freshCtx s rcb (coreOf a))) s

/-- Copy the blocks of a region's slice image. Of a line that is poisoned or lost the stored bytes are copied, and no poison is left
in the slice. DESIGN CHOICE, log entry 47. -/
def loadImage (s : State) (rcb : Nat) (clusters : List Nat) : State :=
  let img := rcbField s rcb 0x78 8
  if img = 0 then s else
  (List.range (readNat s img 8)).foldl (fun s i =>
    let e := img + 8 + 24 * i
    let t := readNat s (e + 8) 2
    writeBytes s (sliceLoc (16 * clusters.getD (t / 16) 0 + t % 16) (readNat s (e + 12) 4))
      (readBytes s (readNat s e 8) (readNat s (e + 16) 8))) s

/-- A region begins to run on clusters (state 2, STATUS 2). -/
def beginRun (s : State) (g : Region) (clusters : List Nat) : State :=
  let g := { g with clusters := clusters, age := 0, state := 2, grantAt := s.grants + 1, charged := s.stamp }
  setStatus (putRegion { s with grants := s.grants + 1 } g) g.rcb 2 0

/-- The grant of a ready region from a launch. -/
def grantLaunch (s : State) (g : Region) : State :=
  let cls := (freeClusters s g.die).take (rcbBcl s g.rcb)
  let s := agePassed (claimWaiting s) g
  let s := (cls.zip (List.range cls.length)).foldl (fun s p => openCluster s g.rcb p.1 p.2) s
  pumpAll (beginRun (loadImage s g.rcb cls) g cls)

/-- R364: the image of a ready region's slices lies where requests wait. -/
def imageFar (s : State) (rcb : Nat) : Bool :=
  launchFar s rcb || (let img := rcbField s rcb 0x78 8
    img ≠ 0 && (List.range (readNat s img 8)).any fun i =>
      let e := img + 8 + 24 * i
      farWaits s e || farHolds s (readNat s e 8) (readNat s (e + 16) 8))

/-- REGION_GRANT: a die's dispatcher grants the ready region whose turn it is, once its clusters are quiet. -/
def execRegionGrant (die : Nat) (s : State) : Host.Outcome State Fault Refusal :=
  match grantChoice s die with
  | none => .next s
  | some g =>
    if g.state ≠ 1 || 2 ≤ s.pstate || s.recovering || priosFar s || imageFar s g.rcb ||
        !((freeClusters s g.die).take (rcbBcl s g.rcb)).all (clusterQuiet s) then .next s
    else .next (grantLaunch s g)

/-! ### Utilisation (R288) -/

/-- UTIL_FLUSH. -/
def execUtilFlush (cluster : Nat) (s : State) : Host.Outcome State Fault Refusal :=
  .next (if (getCluster s cluster).region.any fun g => rcbFar s g.1 [(0x30, 2 ^ 20)] then s else flushUtil s cluster)

/-! ### The end of a region (R274, R313) -/

/-- Is any work of a core outstanding: inboxes, deque, copies, axis requests? -/
def coreBusy (s : State) (core : Nat) : Bool :=
  let c := getCore s core
  takenOf s core true ≠ arrivedOf s core true || takenOf s core false ≠ arrivedOf s core false ||
    dqTop s core ≠ dqBottom s core || !c.fifo.isEmpty || !c.axq.isEmpty

/-- Has a bound stream something to move? -/
def Stream.moving (x : Stream) : Bool :=
  x.bound && (if x.output then !x.buf.isEmpty else decide (x.moved < x.total) && decide (x.buf.length < 4))

/-- Is any work of a context or engine member outstanding? An engine that waits for a pager or the host on its behalf is, and a bound
stream while it has a transfer to make. DESIGN CHOICE, log entry 69. -/
def agentBusy (s : State) (a : Nat) : Bool :=
  let c := getCtx s a
  c.run ≠ .idle || !c.buf.isEmpty || c.mreqs ≠ 0 || c.engFault.isSome || !c.engWant.isEmpty || c.streams.toList.any Stream.moving

/-- Is anything that an agent of a cluster sent still unacknowledged? What the device made and waits at its destination is not
counted: it goes to the spill ring of a saved region once there is room (R277). -/
def clusterSends (s : State) (cl : Nat) : Bool :=
  s.net.any (fun m => clusterOf m.src = cl && !(decide (deviceBase ≤ m.src) && heldAt s m)) || s.replies.any (fun r => clusterOf r.dst = cl) ||
    s.remotes.any (fun r => clusterOf r.ctx = cl) || s.regions.any fun g => g.spill.any fun x => x.due.any fun m => clusterOf m.src = cl

/-- R274: nothing of the region is left; records that still wait for it in a store keep it. A wave that has stopped on a fault is no
outstanding work, and neither is a bound stream with no transfer to make (`agentBusy`). DESIGN CHOICE, log entry 69. -/
def regionIdle (s : State) (g : Region) : Bool :=
  g.spill.isEmpty && s.arrays.all (fun a => a.region ≠ g.rcb || a.wave ≠ 2) &&
  s.dies.all (fun d => d.2.store.all (·.rcb ≠ g.rcb)) &&
  g.clusters.all fun cl => !clusterSends s cl && (agentsOf cl).all (fun a => !agentBusy s a) &&
    (List.range 64).all fun c => !coreBusy s (64 * cl + c)

/-- REGION_DONE: clusters freed, arrays dropped, STATE 4. -/
def execRegionDone (rcb : Nat) (s : State) : Host.Outcome State Fault Refusal :=
  match findRegion s rcb with
  | none => .next s
  | some g =>
    if g.state ≠ 2 || !regionIdle s g || booksFar s rcb then .next s
    else .next (pumpAll (setStatus (dropRegion (closeBooks s g) g false) rcb 4 0))

/-! ### Issue within a core (R316, R317) -/

/-- R145: does a context wait, after a restore, for the route of its port to be open again? -/
def reopens (s : State) (a : Nat) : Bool := (getCore s (coreOf a)).port.any fun p => p.ctx = a && p.reopening

/-- Ready to issue: running, waiting for nothing, with room made by the store buffer (R113), its region running, and its port, where a
restore opens it again, routed (R145). -/
def ready (s : State) (a : Nat) : Bool :=
  let c := getCtx s a
  c.run = .running && c.wait = .ready && decide (c.buf.length ≤ 16) && coreRuns s (coreOf a) && !reopens s a
/-- Ready, not held by a stall count, and with a cycle of this count left to issue in. -/
def fresh (s : State) (a : Nat) : Bool :=
  ready s a && decide ((getCtx s a).busyTill ≤ cycleOf s a ∧ cycleOf s a ≤ 2 * s.stamp + 1)
/-- R317: does the low context of a core take precedence in a cycle? -/
def Core.lowFirst (c : Core) (cycle : Nat) : Bool := c.lowTill.any (cycle < ·)

/-- The context that a core issues from: high first, low first while it has precedence; a stall count lets the other go. -/
def issuer (s : State) (core : Nat) : Option Nat :=
  let h := 2 * core
  let l := 2 * core + 1
  if (getCore s core).lowFirst (cycleOf s l) && fresh s l then some l
  else if fresh s h then some h
  else if fresh s l then some l
  else none

/-- Has the focus issued? An instruction that is to be tried again has not, nor has the prefix of a span that its context
executes, which is one fetch with the span (R24, R46). -/
def hasIssued (t : State) (i : Instr) : Bool :=
  (match t.cur.wait with
  | .stalled | .hostFill _ _ _ => false
  | _ => true) && match i with
  | .role _ _ => t.cur.span = 0
  | _ => true

/-- R317: an issue of the high context while the low is ready counts, one of the low context starts the count again; at 65,536
the low context takes precedence for the next 1,024 cycles, in which nothing counts. -/
def Core.counted (c : Core) (high lowReady : Bool) (cycle : Nat) : Core :=
  if c.lowFirst cycle then c else
  let old := if c.lowTill.isSome then 0 else c.starve
  let n := if high then (if lowReady then min (old + 1) 65536 else old) else 0
  { c with starve := n, lowTill := if n = 65536 then some (cycle + 1 + 1024) else none }

/-- R316, R317, R288: an issue of the focus takes its core's cycle, and counts. -/
def countIssue (lowReady : Bool) (s : State) : State :=
  if isEngine s.who then s else
  let c := (myCore s).counted (isHigh s.who) lowReady (cycleNow s)
  putMyCore s { c with issued := c.issued + 1, cycle := cycleNow s + 1 }

/-- ISSUE_CHOICE: the focus moves to the context that a core issues from. -/
def execIssueChoice (core : Nat) (s : State) : Host.Outcome State Fault Refusal :=
  match issuer s core with
  | some a => .next (focus s a)
  | none => .next s

/-- LOW_PRECEDENCE_START. -/
def execLowPrecedenceStart (core : Nat) (s : State) : Host.Outcome State Fault Refusal :=
  let c := getCore s core
  if 65536 ≤ c.starve ∧ c.lowTill.isNone then .next (putCore s core { c with lowTill := some (2 * s.stamp + 1024) }) else .next s

/-- LOW_PRECEDENCE_END. -/
def execLowPrecedenceEnd (core : Nat) (s : State) : Host.Outcome State Fault Refusal :=
  let c := getCore s core
  match c.lowTill with
  | some t => if t ≤ 2 * s.stamp then .next (putCore s core { c with lowTill := none, starve := 0 }) else .next s
  | none => .next s

end Sys2Proof.Machine
end

