-- ==== Sys2Proof/Machine/Area.lean ====
section
/-! DEFINITION. The context area of a saved region (R359): what each record holds and how it is read back. The layout within a
block for which R359 gives no fields is the model's own. DESIGN CHOICE, log entry 13. -/

namespace Sys2Proof.Machine

open Sys2Proof

/-! ### Contexts and teams at rest (R358, R305) -/

/-- A context as it is saved: an instruction that waits counts as not issued; a reply-word wait stays; a pause ends; span state
is cleared (R26), and what fetches saw at the ends of loop levels stays (R397); prefetched input is fetched again. -/
def Ctx.atRest (c : Ctx) : Ctx :=
  { c with
    wait := (match c.wait with
      | .pager a b v w => .pager a b v w
      | _ => .ready)
    board := []
    busyTill := 0
    vecTill := 0
    span := 0
    spanCode := []
    hostGot := []
    codeAt := []
    engHost := []
    streams := Vector.ofFn fun k =>
      let x := c.streams[k]
      if x.bound && !x.output then { x with buf := [], moved := x.taken } else x }

/-- A team as it is saved: members that waited at a mark or in `realign` reach it again. -/
def Team.atRest (t : Team) : Team :=
  { t with members := t.members.map fun m => { m with atMark := false, realign := none } }

/-! ### The context area (R359) -/

/-- An image as bytes by their address in the area, and its poisoned lines. -/
abbrev AreaImage := Memory × List Nat

/-- The cells and the poisoned lines of an area of n bytes. -/
def areaOf (s : State) (lo n : Nat) : AreaImage :=
  (s.mem.filter fun c => decide (lo ≤ c.1 ∧ c.1 < lo + n), s.poison.filter fun p => decide (lo ≤ 64 * p ∧ 64 * p < lo + n))

/-- The state on which an image is composed: the area holds nothing, and no motion moves its bytes. -/
def clearArea (s : State) (lo n : Nat) : State :=
  { s with mem := s.mem.filter fun c => !decide (lo ≤ c.1 ∧ c.1 < lo + n)
           poison := s.poison.filter fun p => !decide (lo ≤ 64 * p ∧ 64 * p < lo + n)
           dies := [] }

/-- R357: the unit of an image, with one dirty bit, that holds an offset of the area: a register or a barrier of 8 bytes, a predicate
or a bank word of 4, a vector register of 32, else a line of 64. DESIGN CHOICE, log entry 13. -/
def unitSize (off : Nat) : Nat :=
  let r := (off - 0x10000) % 0x1000000
  if r < 0x400000 then 64
  else if r < 0x480000 then
    let o := r % 0x1000
    if o < 0x100 then 8 else if o < 0x120 then 4 else if o < 0x480 then 8 else if o < 0x800 then 64 else 32
  else if r < 0x580000 then 8
  else if r < 0x780000 then
    let o := r % 0x8000
    if o < 0x4000 then 4 else if 0x4280 ≤ o ∧ o < 0x4400 then 8 else 64
  else if 0x904000 ≤ r then 8 else 64

/-- The frames of Forwarding pages stand at their destination: the address by which software names a key of memory. -/
def namedAt (s : State) (k : Nat) : Nat :=
  match (motions s).find? fun m => m.forwarding && decide (m.dst ≤ k ∧ k < m.dst + 2 ^ m.log) with
  | some m => m.src + (k - m.dst)
  | none => k

/-- Where an image differs from a base, each address once, rounded down to the start of its unit. -/
def changedUnits (unit : Nat → Nat) (lo : Nat) (old : Nat → Byte) (oldPoison : Nat → Bool) (new : AreaImage) (near : List Nat) :
    List (Nat × Nat) :=
  ((new.1.map (fun (c : Host.Cell) => c.1) ++ new.2.map (64 * ·) ++ near).filterMap fun a =>
    let n := unit (a - lo)
    if mapGet 0 new.1 a ≠ old a ∨ (n = 64 ∧ new.2.contains (a / 64) ≠ oldPoison (a / 64)) then some (a / n * n, n) else none).dedup

/-- One unit of an image goes to the area, where its line stands now and where a Moving page has its copy (R78). -/
def writeUnit (new : AreaImage) (s : State) (u : Nat × Nat) : State :=
  applyBytes (if u.2 = 64 then markLine s u.1 (new.2.contains (u.1 / 64)) else s) u.1
    ((List.range u.2).map fun k => mapGet 0 new.1 (u.1 + k))

/-- Does a line stand where software names an address that a test picks, or take what is written there while its page is Moving
(R78)? -/
def writtenAt (s : State) (p : Nat → Bool) (line : Nat) : Bool :=
  p (namedAt s (64 * line)) || (motions s).any fun m =>
    let at1 := m.src + (64 * line - m.dst)
    decide (m.dst ≤ 64 * line) && mirrorOf s at1 = some (64 * line) && p at1

/-- Write an image to its area: the whole of it, or, against what the last restore loaded, the units that have changed since;
the others stay as they are, with the edits that software made there (R357). The write fires the monitors of its lines, of a Moving
page's destination too (R127). -/
def writeArea (s : State) (whole : Bool) (base new : AreaImage) (lo n : Nat) : State :=
  let inside := fun a => decide (lo ≤ a ∧ a < lo + n)
  if whole then
    let near := (s.mem.map (fun (c : Host.Cell) => namedAt s c.1) ++ s.poison.map fun p => namedAt s (64 * p)).filter inside
    let units := changedUnits (fun _ => 64) lo (readByte s) (fun p => isPoisoned s (64 * p)) new near
    wroteWhere (units.foldl (writeUnit new) s) (writtenAt s inside)
  else
    let units := changedUnits unitSize lo (mapGet 0 base.1) base.2.contains new (base.1.map (fun (c : Host.Cell) => c.1) ++ base.2.map (64 * ·))
    wroteWhere (units.foldl (writeUnit new) s) (writtenAt s fun a => units.any fun u => u.1 / 64 = a / 64)

/-- Offset of granted cluster k's record in the area, and the area's size. -/
def recordAt (area k : Nat) : Nat := area + 0x10000 + k * 0x1000000
def areaSize (n : Nat) : Nat := 0x10000 + n * 0x1000000

/-- Copy a tile's slice, in slice order, to main memory, its poison with it. -/
def sliceOut (s : State) (tile dst : Nat) : State :=
  let base := sliceLoc tile 0
  let win := (getTile s tile).slwin.toList
  let s1 := (s.mem.filter fun c => decide (base ≤ c.1 ∧ c.1 < base + 2 ^ 18)).foldl (fun s c =>
    { s with mem := mapSet 0 s.mem (dst + swizzle win (c.1 - base)) c.2 }) s
  (s.poison.filter fun p => decide (base / 64 ≤ p ∧ p < base / 64 + 4096)).foldl (fun s p =>
    { s with poison := insertLine (dst / 64 + (p - base / 64)) s.poison }) s1

/-- And back. -/
def sliceIn (s : State) (tile src : Nat) : State :=
  let base := sliceLoc tile 0
  let win := (getTile s tile).slwin.toList
  let s0 := zeroSlice s tile
  let s1 := ((s.mem.map fun c => (namedAt s c.1, c.2)).filter fun c => decide (src ≤ c.1 ∧ c.1 < src + 2 ^ 18)).foldl (fun s c =>
    { s with mem := mapSet 0 s.mem (base + swizzle win (c.1 - src)) c.2 }) s0
  ((s.poison.map fun p => namedAt s (64 * p) / 64).filter fun p => decide (src / 64 ≤ p ∧ p < src / 64 + 4096)).foldl (fun s p =>
    { s with poison := insertLine (base / 64 + (p - src / 64)) s.poison }) s1

/-- The control registers of a context record, in ascending number. -/
def recordCsrs : List Nat :=
  [0x040, 0x041, 0x042, 0x043, 0x044, 0x045, 0x046, 0x080, 0x081, 0x083, 0x084, 0x085, 0x086, 0x087, 0x090, 0x0C0, 0x0C4, 0x0C8,
   0x0C9, 0x0CA, 0x0D0, 0x0D1, 0x0D2, 0x0D3]
def Ctx.csrs (c : Ctx) : List Word :=
  [c.cause, c.epc, c.faultva, c.faultvah, c.tvec, c.tscratch, c.tstatus, c.vtype, c.issuectl, c.vaux, c.lpaddr0, c.lpaddr1,
   c.lpctl0, c.lpctl1, c.vrand, c.mrstat, c.sterr, c.vabase, c.troot, c.stpath] ++ c.pathdone.toList
/-- The registers as a record gives them, reserved fields zero (R4). -/
def Ctx.setCsrs (c : Ctx) (w : List Word) : Ctx :=
  let g := fun k => fieldsOf (recordCsrs.getD k 0) (w.getD k 0)
  { c with
    cause := g 0
    epc := g 1
    faultva := g 2
    faultvah := g 3
    tvec := g 4
    tscratch := g 5
    tstatus := g 6
    vtype := g 7
    issuectl := g 8
    vaux := g 9
    lpaddr0 := g 10
    lpaddr1 := g 11
    lpctl0 := g 12
    lpctl1 := g 13
    vrand := if g 14 = 0 then 1 else g 14
    mrstat := g 15
    sterr := g 16
    vabase := g 17
    troot := g 18
    stpath := g 19
    pathdone := Vector.ofFn fun k => g (20 + k.val) }

/-- A stream record: the descriptor (R174), the position, BOUND, DIR and FAULT, and the HIGH of its bind. -/
def streamOut (x : Stream) : List Byte :=
  if !x.bound then List.replicate 96 0 else
  toBytes 8 x.base.toNat ++ toBytes 8 (if x.output then 1 else 0) ++
    (x.counts.zip x.strides).flatMap (fun p => toBytes 4 p.1 ++ toBytes 8 (p.2 % 2 ^ 64).toNat) ++ toBytes 8 x.taken ++
    toBytes 8 (1 + (if x.output then 2 else 0) + (if x.fault then 4 else 0)) ++ toBytes 2 x.high.toNat ++ toBytes 14 0
def streamIn (old : Stream) (b : List Byte) : Stream :=
  let f := at_ b 72 1
  if f % 2 = 0 then {} else
  { old with
    bound := true
    output := f.testBit 1
    fault := f.testBit 2
    base := BitVec.ofNat 64 (at_ b 0 8)
    counts := (List.range 4).map fun k => at_ b (16 + 12 * k) 4
    strides := (List.range 4).map fun k => signed 64 (at_ b (20 + 12 * k) 8)
    taken := at_ b 64 8
    moved := at_ b 64 8 - old.buf.length
    high := BitVec.ofNat 16 (at_ b 80 2) }

/-- RESUME of a context record, and the reply word it waits on. -/
def Ctx.resume (c : Ctx) : Nat × Word := match c.run, c.wait with
  | .running, .pager _ _ _ w => (2, w)
  | .running, _ => (1, 0)
  | _, _ => (0, 0)

/-- PORT of a context record. -/
def portWord (s : State) (a : Nat) : Nat := match (getCore s (coreOf a)).port with
  | some p => if p.ctx = a then 2 ^ 63 + p.tile else 0
  | none => 0

/-- A port as the records of its core's two contexts give it: it is closed at the save, and its route is opened again before its
context issues (R145). -/
def portIn (core high low : Nat) : Option Port :=
  if high.testBit 63 then some { ctx := 2 * core, tile := high % 2 ^ 12, routed := false, reopening := true }
  else if low.testBit 63 then some { ctx := 2 * core + 1, tile := low % 2 ^ 12, routed := false, reopening := true }
  else none

/-- Write the context record of agent a at its place. -/
def ctxOut (s : State) (a at1 : Nat) : State :=
  let c := (getCtx s a).atRest
  let s := writeBytes s at1 (c.regs.toList.flatMap fun w => toBytes 8 w.toNat)
  let s := writeBytes s (at1 + 0x100) (c.preds.toList.flatMap fun w => toBytes 4 w.toNat)
  let s := writeBytes s (at1 + 0x200) (c.csrs.flatMap fun w => toBytes 8 w.toNat)
  let s := writeNat s (at1 + 0x400) 8 c.pc.toNat
  let s := writeNat s (at1 + 0x408) 8 c.resume.1
  let s := writeNat s (at1 + 0x410) 8 c.resume.2.toNat
  let s := writeNat s (at1 + 0x418) 8 (portWord s a)
  let s := writeBytes s (at1 + 0x480) (c.streams.toList.flatMap streamOut)
  writeBytes s (at1 + 0x800) (c.vregs.toList.flatMap fun v => toBytes 32 v.toNat)

/-- A wait on a reply word as a restored context takes it up: with the cause and the VA that its registers record (R101, R105). -/
def Ctx.replyWait (c : Ctx) (reply : Word) : Wait :=
  .pager (bits c.cause 7 0) (bits c.cause 10 8) (BitVec.ofNat 16 c.faultvah.toNat ++ c.faultva) reply

/-- A context as its record gives it, over what the record's layout leaves open. -/
def ctxIn (s : State) (c : Ctx) (at1 : Nat) : Ctx :=
  let word := fun o => BitVec.ofNat 64 (readNat s (at1 + o) 8)
  let c := c.setCsrs ((List.range 24).map fun k => word (0x200 + 8 * k))
  let resume := readNat s (at1 + 0x408) 8 % 4
  { c with
    regs := Vector.ofFn fun k => word (8 * k.val)
    preds := Vector.ofFn fun k => BitVec.ofNat 32 (readNat s (at1 + 0x100 + 4 * k.val) 4)
    vregs := Vector.ofFn fun k => BitVec.ofNat 256 (readNat s (at1 + 0x800 + 32 * k.val) 32)
    streams := Vector.ofFn fun k => streamIn c.streams[k] (readBytes s (at1 + 0x480 + 96 * k.val) 96)
    pc := BitVec.ofNat 64 (readNat s (at1 + 0x400) 8 / 2 * 2)
    run := if resume = 0 then .idle else .running
    wait := if resume = 2 then c.replyWait (word 0x410) else .ready }

/-- A barrier's 8 bytes. -/
def barWord (b : Barrier) : Nat :=
  b.exp + b.arr * 2 ^ 16 + (if b.ph then 2 ^ 32 else 0) + (if b.held then 2 ^ 33 else 0) + (if b.link then 2 ^ 34 else 0) +
    (if b.hold then 2 ^ 35 else 0) + b.pbar * 2 ^ 36 + b.pcore * 2 ^ 47
def barOf (old : Barrier) (w : Nat) : Barrier :=
  { old with
    exp := nbits w 15 0
    arr := nbits w 31 16
    ph := w.testBit 32
    held := w.testBit 33
    link := w.testBit 34
    hold := w.testBit 35
    pbar := nbits w 46 36
    pcore := nbits w 60 47 }

/-- A request of an axis queue. -/
def axReqOut (r : AxReq) : List Byte :=
  toBytes 1 (1 + 2 * r.op + (if r.started then 8 else 0) + (if r.done then 16 else 0)) ++ toBytes 1 r.err ++ toBytes 2 r.ctx ++
    toBytes 4 r.high.toNat ++ toBytes 8 r.seq ++ toBytes 8 r.a.toNat ++ toBytes 8 r.b.toNat ++ toBytes 8 r.pos ++
    toBytes 8 (r.arr % 2 ^ 19) ++ toBytes 16 0 ++ slice r.desc 0 64
def axReqIn (old : AxReq) (b : List Byte) : AxReq :=
  let f := at_ b 0 1
  let op := f / 2 % 4
  { old with
    op := op
    started := f.testBit 3
    done := f.testBit 4
    err := at_ b 1 1
    ctx := at_ b 2 2
    high := BitVec.ofNat 16 (at_ b 4 2)
    seq := at_ b 8 6
    a := BitVec.ofNat 64 (at_ b 16 8)
    b := BitVec.ofNat 64 (at_ b 24 8)
    pos := at_ b 32 8
    arr := old.arr / 2 ^ 19 * 2 ^ 19 + at_ b 40 3
    desc := if op = 1 then slice b 64 64 else [] }

/-- A copy that is saved at its position, or stands behind one. -/
def copyOut (c : Copy) : List Byte :=
  toBytes 1 (1 + (if c.started then 2 else 0) + (if c.notify then 4 else 0) + (if c.desc.isEmpty then 0 else 8)) ++
    toBytes 1 c.err ++ toBytes 2 c.ctx ++ toBytes 2 c.high.toNat ++ toBytes 2 c.ch ++ toBytes 8 c.seq ++
    [c.w0, c.w1, c.w2, c.w3].flatMap (fun w => toBytes 8 w.toNat) ++ toBytes 8 c.pos ++ toBytes 200 0 ++ slice c.desc 0 256
def copyIn (old : Copy) (b : List Byte) : Copy :=
  let f := at_ b 0 1
  let w := fun k => BitVec.ofNat 64 (at_ b (16 + 8 * k) 8)
  { old with
    started := f.testBit 1
    notify := f.testBit 2
    err := at_ b 1 1
    ctx := at_ b 2 2
    high := BitVec.ofNat 16 (at_ b 4 2)
    ch := at_ b 6 1
    seq := at_ b 8 6
    w0 := w 0
    w1 := w 1
    w2 := w 2
    w3 := w 3
    pos := at_ b 48 8
    desc := if f.testBit 3 then slice b 256 256 else [] }

/-- The records of a run of n whose first bit is set, each over what its layout leaves open. -/
def recordsIn {α : Type} (s : State) (at1 size n : Nat) (get : Nat → List Byte → α) : List α :=
  (List.range n).filterMap fun i =>
    let b := readBytes s (at1 + size * i) size
    if at_ b 0 1 % 2 = 0 then none else some (get i b)

/-- Write a core's barriers and engine record: bank, poison bits, format context and ts, then the engine registers in order. -/
def coreOut (s : State) (core bars eng : Nat) : State :=
  let c := getCore s core
  let s := c.barriers.foldl (fun s b => writeNat s (bars + 8 * b.1) 8 (barWord b.2)) s
  let s := c.bank.foldl (fun s w => writeNat s (eng + 4 * w.1) 4 w.2.toNat) s
  let s := writeNat s (eng + 0x4000) 512 (c.bankPoison.foldl (fun n p => n + 2 ^ p) 0)
  let f := c.fmt
  let s := writeBytes s (eng + 0x4200) (toBytes 1 f.afmt ++ toBytes 1 f.bfmt ++ toBytes 1 f.ofmt ++
    toBytes 1 (f.rm + (if f.asc then 8 else 0) + (if f.bsc then 16 else 0) + (if f.osc then 32 else 0)) ++
    toBytes 4 f.ats.toNat ++ toBytes 4 f.bts.toNat ++ toBytes 2 f.seed.toNat ++ toBytes 2 f.aspitch ++ toBytes 2 f.bspitch ++
    toBytes 6 0 ++ toBytes 8 f.ascale.toNat ++ toBytes 8 f.bscale.toNat ++ toBytes 8 f.oscale.toNat ++ toBytes 16 0 ++
    toBytes 4 f.ts.toNat ++ toBytes 2 f.high.toNat)
  let s := writeBytes s (eng + 0x4280) ((c.cpydone.toList ++ c.cpyerr.toList).flatMap (fun w => toBytes 8 w.toNat) ++
    c.cpyNext.toList.flatMap (toBytes 8))
  let s := writeBytes s (eng + 0x4300) (toBytes 8 c.axdone.toNat ++ toBytes 8 c.axerr.toNat ++ toBytes 8 c.axNext ++
    toBytes 1 c.phase.toNat)
  let s := writeBytes s (eng + 0x4400) (c.axq.flatMap axReqOut)
  writeBytes s (eng + 0x4800) (c.fifo.flatMap copyOut)

/-- A core as its records give it; precedence of the low context goes on (R317). -/
def coreIn (s : State) (c : Core) (bars eng : Nat) (port : Option Port) (lowTill : Option Nat) : Core :=
  let word := fun n o => fieldsOf n (BitVec.ofNat 64 (readNat s (eng + o) 8))
  let poison := readNat s (eng + 0x4000) 512
  { c with
    barriers := (List.range 2048).foldl (fun m b =>
      mapSet {} m b (barOf (mapGet {} c.barriers b) (readNat s (bars + 8 * b) 8))) c.barriers
    bank := (List.range 4096).foldl (fun m i => mapSet 0 m i (BitVec.ofNat 32 (readNat s (eng + 4 * i) 4))) []
    bankPoison := (List.range 4096).filter poison.testBit
    fmt := { parseFmt (readBytes s (eng + 0x4200) 64) with
      ts := BitVec.ofNat 32 (readNat s (eng + 0x4240) 4), high := BitVec.ofNat 16 (readNat s (eng + 0x4244) 2) }
    cpydone := Vector.ofFn fun k => word 0x0E0 (0x4280 + 8 * k.val)
    cpyerr := Vector.ofFn fun k => word 0x0E4 (0x42A0 + 8 * k.val)
    cpyNext := Vector.ofFn fun k => readNat s (eng + 0x42C0 + 8 * k.val) 6
    axdone := word 0x0E8 0x4300
    axerr := word 0x0E9 0x4308
    axNext := readNat s (eng + 0x4310) 6
    phase := BitVec.ofNat 8 (readNat s (eng + 0x4318) 1)
    starve := 0
    lowTill := lowTill
    axq := recordsIn s (eng + 0x4400) 128 8 fun i => axReqIn (c.axq.getD i {})
    fifo := recordsIn s (eng + 0x4800) 512 16 fun i => copyIn (c.fifo.getD i {})
    port := port }

/-! ### Tile records -/

/-- A matrix slot's header byte: log₂ k, and 8 for a complex one; 0 for an empty slot. -/
def slotHead : Option Matrix → Nat
  | none => 0
  | some m => Nat.log2 m.k + (if m.cplx then 8 else 0)

/-- An array's descriptor (R180). -/
def AxArray.desc (a : AxArray) : List Byte :=
  toBytes 8 a.mbase.toNat ++ [a.fmt, a.n, a.b, a.t].flatMap (toBytes 1) ++ toBytes 2 a.first ++ toBytes 2 0 ++ toBytes 8 a.soff ++
    (List.range 8).flatMap (fun i => match a.runs[i]? with
      | some r => toBytes 2 (r.1 + (r.2 - 1) * 2 ^ 8)
      | none => toBytes 2 0) ++ toBytes 24 0

/-- An array slot in the record of its q-th tile: descriptor, maps, stamps, clock, VERSION, the wave with S, its flags, and how
many groups this owner has finished and its cursor in the next (R193). -/
def arrayOut (a : AxArray) (q : Nat) : List Byte :=
  let d := a.doneGroups q
  a.desc ++ toBytes 1 (1 + 2 * a.wave + (if a.fault then 8 else 0) + (if a.poison then 16 else 0)) ++ toBytes 1 a.swaps.length ++
    toBytes 2 a.who ++ toBytes 4 a.high.toNat ++ toBytes 8 a.clock ++ toBytes 8 a.version ++ toBytes 8 d ++
    toBytes 8 (mapGet 0 a.cursors (a.groupNo q d)) ++ toBytes 24 0 ++
    (List.range 64).flatMap (fun l => toBytes 1 (a.map.getD l 0)) ++ (List.range 64).flatMap (fun l => toBytes 1 (a.prev.getD l 0)) ++
    (List.range 64).flatMap (fun l => toBytes 8 (a.stamps.getD l 0)) ++ a.swaps.flatMap fun p => toBytes 1 p.1 ++ toBytes 1 p.2

/-- How far the owners of a wave have come, as their tiles' records give it. -/
def cursorsIn (a : AxArray) (b : Nat → List Byte) : SMap Nat :=
  (List.range (2 ^ a.t)).foldl (fun m q =>
    let d := at_ (b q) 88 8
    mapSet 0 ((List.range d).foldl (fun m i => mapSet 0 m (a.groupNo q i) (a.lineSets (a.groupNo q i)).length) m) (a.groupNo q d)
      (at_ (b q) 96 8)) []

/-- An array as the slots of its tiles give it; none where its first tile's is free. -/
def arrayIn (old : AxArray) (b : Nat → List Byte) : Option AxArray :=
  let r := b 0
  let f := at_ r 64 1
  if f % 2 = 0 then none else
  let p := parseAxis (slice r 0 64) old.slot old.region []
  let a := { old with
    fmt := p.fmt
    n := p.n
    b := p.b
    t := p.t
    mbase := p.mbase
    soff := p.soff
    runs := p.runs
    wave := f / 2 % 4
    fault := f.testBit 3
    poison := f.testBit 4
    who := at_ r 66 2
    high := BitVec.ofNat 16 (at_ r 68 2)
    clock := at_ r 72 8
    version := at_ r 80 8
    map := (List.range p.n).map fun l => at_ r (128 + l) 1
    prev := (List.range p.n).map fun l => at_ r (192 + l) 1
    stamps := (List.range p.n).map fun l => at_ r (256 + 8 * l) 8
    swaps := (List.range (at_ r 65 1)).map fun i => (at_ r (768 + 2 * i) 1, at_ r (769 + 2 * i) 1) }
  some { a with cursors := if 2 ≤ a.wave then cursorsIn a b else [] }

/-- Write a tile's record: slots, dictionaries with their lengths, array slots, span queue and generator. -/
def tileOut (s : State) (i at1 : Nat) : State :=
  let t := getTile s i
  let s := (List.range 8).foldl (fun s k => match t.slots.toList.getD k none with
    | some m => writeBytes s (at1 + 0x800 * k) (m.entries.flatMap fun e => toBytes 4 e.toNat)
    | none => s) s
  let s := writeBytes (writeBytes s (at1 + 0x4000) t.dict) (at1 + 0x8000) (t.dictNext.getD [])
  let s := writeBytes s (at1 + 0xC000) (toBytes 8 t.dict.length ++
    toBytes 8 (t.dictNext.elim 0 fun d => 2 ^ 63 + d.length) ++ t.slots.toList.flatMap fun m => toBytes 1 (slotHead m))
  let s := (s.arrays.filter (·.tiles.contains i)).foldl (fun s a =>
    writeBytes s (at1 + 0xD000 + 0x400 * a.slot) (arrayOut a (a.tiles.findIdx (· = i)))) s
  writeBytes s (at1 + 0xF000) (toBytes 2 t.gen.toNat ++ toBytes 2 t.spanq.length ++ t.spanq.flatMap (toBytes 2))

/-- A tile as its record gives it; a generator's state is never 0 (R247). -/
def tileIn (s : State) (t : Tile) (at1 : Nat) : Tile :=
  let next := readNat s (at1 + 0xC008) 8
  { t with
    slots := Vector.ofFn fun k =>
      let h := readNat s (at1 + 0xC010 + k.val) 1
      if h = 0 then none else
      let dim := 2 ^ (h % 8)
      some { k := dim, cplx := h.testBit 3
             entries := (List.range (dim * dim * (if h.testBit 3 then 2 else 1))).map fun e =>
               BitVec.ofNat 32 (readNat s (at1 + 0x800 * k.val + 4 * e) 4) }
    dict := readBytes s (at1 + 0x4000) (readNat s (at1 + 0xC000) 8)
    dictNext := if next.testBit 63 then some (readBytes s (at1 + 0x8000) (next % 2 ^ 63)) else none
    gen := BitVec.ofNat 16 (max 1 (readNat s (at1 + 0xF000) 2))
    spanq := (List.range (readNat s (at1 + 0xF002) 2)).map fun i => readNat s (at1 + 0xF004 + 2 * i) 2 }

/-! ### The team table, its hand buffers, and engine members -/

/-- A binding: role, kind and set. -/
def bindOut (b : Nat × Nat × Nat) : List Byte := toBytes 1 b.1 ++ toBytes 7 b.2.1 ++ toBytes 8 b.2.2
def bindsIn (s : State) (at1 n : Nat) : List (Nat × Nat × Nat) :=
  (List.range n).map fun i =>
    (readNat s (at1 + 16 * i) 1 % 8, readNat s (at1 + 16 * i + 1) 1 % 4, readNat s (at1 + 16 * i + 8) 8)

/-- Write a cluster's team table at its place and the hand buffers behind it; without a team they stay zero. -/
def teamOut (s : State) (team : Option Team) (at1 : Nat) : State :=
  match team with
  | none => s
  | some t =>
    let s := writeBytes s at1 (toBytes 1 1 ++ toBytes 1 t.members.length ++ toBytes 1 t.binds.length ++ toBytes 1 t.staged.length ++
      toBytes 1 t.d ++ toBytes 1 (t.stagedD.elim 0xFF id) ++ toBytes 2 t.bufs.length ++ toBytes 8 t.entry.toNat ++
      toBytes 8 t.err.toNat ++ toBytes 8 t.epc.toNat ++ t.carried.toList.flatMap (fun w => toBytes 8 w.toNat) ++
      toBytes 8 t.entryAt ++ toBytes 8 t.stagedAt.length)
    let s := writeBytes s (at1 + 0x400) (t.members.flatMap fun m => toBytes 2 m.agent ++
      toBytes 6 ((if m.ended then 1 else 0) + (if m.hsent then 2 else 0) + (if m.late then 4 else 0)) ++ toBytes 8 m.marks)
    let s := writeBytes s (at1 + 0x1800) (t.binds.flatMap bindOut)
    let s := writeBytes s (at1 + 0x1C00) (t.staged.flatMap bindOut)
    let s := writeBytes s (at1 + 0x2000) (t.stagedAt.flatMap fun p => toBytes 8 p.1 ++ toBytes 8 p.2)
    writeBytes s (at1 + 0x4000) (t.bufs.flatMap fun b =>
      toBytes 8 b.snd ++ toBytes 8 b.rcv ++ toBytes 8 b.value.toNat ++ toBytes 8 b.pc.toNat)

/-- A team as its table gives it. -/
def teamIn (s : State) (at1 : Nat) : Option Team :=
  let n := fun o k => readNat s (at1 + o) k
  let word := fun o => BitVec.ofNat 64 (n o 8)
  if n 0 1 % 2 = 0 then none else some
  { entry := BitVec.ofNat 64 (n 8 8 / 2 * 2)
    err := fieldsOf 0x0F2 (word 16)
    epc := word 24
    carried := Vector.ofFn fun k => word (32 + 8 * k.val)
    entryAt := n 96 8
    members := (List.range (n 1 1)).map fun i =>
      let f := n (0x402 + 16 * i) 1
      { agent := n (0x400 + 16 * i) 2, ended := f.testBit 0, hsent := f.testBit 1, late := f.testBit 2,
        marks := n (0x408 + 16 * i) 8 }
    binds := bindsIn s (at1 + 0x1800) (n 2 1)
    staged := bindsIn s (at1 + 0x1C00) (n 3 1)
    d := n 4 1 % 16
    stagedD := if n 5 1 = 0xFF then none else some (n 5 1 % 16)
    stagedAt := (List.range (n 104 8)).map fun i => (n (0x2000 + 16 * i) 8, n (0x2008 + 16 * i) 8)
    bufs := (List.range (n 6 2)).map fun i =>
      { snd := n (0x4000 + 32 * i) 8, rcv := n (0x4008 + 32 * i) 8, value := word (0x4010 + 32 * i), pc := word (0x4018 + 32 * i) } }

/-- How an engine member stands: 0 idle, 1 at its pc, 2 in its reply-word wait, 3 halted (R304). -/
def Ctx.engineState (c : Ctx) : Nat := if c.run = .halted then 3 else c.resume.1

/-- An engine member's record: registers, loop levels, pc, and how it stands. A reply-word wait that software wrote into it has no
recorded cause; it counts as one for an absent page. DESIGN CHOICE, log entry 13. -/
def memberOut (s : State) (a at1 : Nat) : State :=
  let c := (getCtx s a).atRest
  writeBytes s at1 ((c.regs.toList ++ [c.lpaddr0, c.lpaddr1, c.lpctl0, c.lpctl1, c.pc]).flatMap (fun w => toBytes 8 w.toNat) ++
    toBytes 8 c.engineState ++ toBytes 8 c.resume.2.toNat ++ toBytes 8 c.issuectl.toNat)
def memberIn (s : State) (c : Ctx) (at1 : Nat) : Ctx :=
  let word := fun n o => fieldsOf n (BitVec.ofNat 64 (readNat s (at1 + o) 8))
  let f := readNat s (at1 + 0x128) 8 % 4
  { c with
    regs := Vector.ofFn fun k => BitVec.ofNat 64 (readNat s (at1 + 8 * k.val) 8)
    lpaddr0 := word 0x084 0x100
    lpaddr1 := word 0x085 0x108
    lpctl0 := word 0x086 0x110
    lpctl1 := word 0x087 0x118
    pc := BitVec.ofNat 64 (readNat s (at1 + 0x120) 8 / 2 * 2)
    issuectl := word 0x081 0x138
    run := if f = 0 then .idle else if f = 3 then .halted else .running
    wait := if f ≠ 2 then .ready else
      let reply := BitVec.ofNat 64 (readNat s (at1 + 0x130) 8)
      match c.wait with
      | .pager a b v _ => .pager a b v reply
      | _ => .pager 0x08 0 0 reply }

/-- The place of an engine member's record, from the cluster's record on. -/
def memberAt (a : Nat) : Nat := 0x904000 + 512 * (3 * (tileOf a % 16) + (kindOf a - 1))

end Sys2Proof.Machine
end

