-- ==== Sys2Proof/Machine/Dusk.lean ====
section
/-! DEFINITION. Dusk (R356 to R360): a save stops a region, lets its work in flight settle, and writes its context area; a
restore reads the area back into the same clusters. -/

namespace Sys2Proof.Machine

open Sys2Proof

/-! ### When a save has settled (R356, R358) -/

/-- Which copies of a FIFO a save leaves: those held for a pager, those behind one of their channel (R107), and those behind one
in the stream of a port (R144). -/
def stuckCopies (s : State) (tile : Nat) : List Copy → List Copy
  | [] => []
  | l => l.foldl (fun (acc : List Copy) c =>
      if (c.started && heldByPager s c.ctx (copyUnit tile c).key) ||
          acc.any (fun x => x.ch = c.ch || (w3Mch x.w3 = 3 && w3Mch c.w3 = 3 && x.ctx = c.ctx))
      then acc ++ [c] else acc) []

/-- R178: every copy has completed but those. -/
def copiesSettled (s : State) (core : Nat) : Bool :=
  let f := (getCore s core).fifo
  f.all (fun c => !c.moved) && decide ((stuckCopies s (core / 4) f).length = f.length)

/-- Has a unit nothing more to do for an apply: its groups are in a wave that has paused, or its staging is held for a pager? -/
def shareSettled (s : State) (core u : Nat) (r : AxReq) : Bool :=
  (spanWork s u core).isNone || heldByPager s r.ctx (axisUnit u r).key

/-- R270: an axis queue has settled when it is empty, or its head is an apply that can go no further or a drain held for a pager;
what stands behind that head keeps its order and is saved with it (R255). DEDUCED, log entry 50. -/
def axisSettled (s : State) (core : Nat) : Bool :=
  match (getCore s core).axq with
  | [] => true
  | r :: _ => !r.done && (if r.op = 0 then !coreTurn s core && r.left.all fun u => shareSettled s core u r
                          else r.op = 2 && heldByPager s r.ctx (axisUnit (core / 4) r).key)

/-- A context has settled: its buffer is empty, nothing it asked for is unanswered, and its pushed elements are written but for
one that is held for a pager and those behind it (R108, R178). -/
def agentSettled (s : State) (a : Nat) : Bool :=
  let c := getCtx s a
  let pending := match c.wait with
    | .host _ _ _ _ _ _ _ _ | .hostFill _ _ _ => true
    | _ => false
  c.buf.isEmpty && c.loads.isEmpty && c.mreqs = 0 && !pending && c.engWant.isEmpty &&
    (List.range 8).all fun n => (c.streams.toList[n]?).all fun x => !x.output || x.buf.isEmpty || heldByPager s a (streamUnit a n x.moved).key

def regionSettled (s : State) (g : Region) : Bool :=
  g.clusters.all fun cl => !clusterSends s cl && (agentsOf cl).all (agentSettled s) &&
    (List.range 64).all fun c => copiesSettled s (64 * cl + c) && axisSettled s (64 * cl + c)

/-! ### DUSK_SAVE (R356, R357) -/

/-- Does the dispatcher want this region saved: over its budget, or a victim of a waiting region? DEDUCED, log entry 50. -/
def wantsSave (s : State) (g : Region) : Bool :=
  g.state = 6 || (g.state = 2 && (g.overBudget || !priosFar s && (waiting s).any fun w => (victims s w).contains g.rcb))

/-- Write the record of one granted cluster. -/
def clusterOut (s : State) (area cl k : Nat) : State :=
  let r := recordAt area k
  let s := (List.range 16).foldl (fun s t => sliceOut s (16 * cl + t) (r + 0x40000 * t)) s
  let s := (List.range 128).foldl (fun s x => ctxOut s (128 * cl + x) (r + 0x400000 + 0x1000 * x)) s
  let s := (List.range 64).foldl (fun s c => coreOut s (64 * cl + c) (r + 0x480000 + 0x4000 * c) (r + 0x580000 + 0x8000 * c)) s
  let s := (List.range 16).foldl (fun s t => tileOut s (16 * cl + t) (r + 0x780000 + 0x10000 * t)) s
  let s := teamOut s ((getCluster s cl).team.map (·.atRest)) (r + 0x880000)
  ((agentsOf cl).filter isEngine).foldl (fun s a => memberOut s a (r + memberAt a)) s

/-- What the image holds beside the fields of its records, as data. -/
def imageOf (s : State) (g : Region) : Image :=
  { ctxs := g.clusters.flatMap fun cl => (agentsOf cl).map fun a => (a, (getCtx s a).atRest)
    cores := g.clusters.flatMap fun cl => (List.range 64).map fun c => (64 * cl + c, getCore s (64 * cl + c))
    tiles := g.clusters.flatMap fun cl => (List.range 16).map fun t => (16 * cl + t, getTile s (16 * cl + t))
    arrays := s.arrays.filter (·.region = g.rcb) }

/-- The whole image of a region. -/
def fullImage (s : State) (g : Region) (area : Nat) : AreaImage :=
  let n := areaSize g.clusters.length
  areaOf ((g.clusters.zip (List.range g.clusters.length)).foldl (fun s p => clusterOut s area p.1 p.2) (clearArea s area n)) area n

/-- Write the context area and take the region off its clusters. The first save of a region writes the whole area; a later one
what has changed since the restore (R357). DESIGN CHOICE, log entry 13. SAVES is the count of saves since the grant from a launch
(R359). -/
def saveImage (s : State) (g : Region) : State :=
  let s := closeBooks s g
  let area := rcbField s g.rcb 0x28 8
  let img := imageOf s g
  let s := writeArea s (g.saves = 0) g.base (fullImage s g area) area (areaSize g.clusters.length)
  let s := sysWrite (sysWrite (sysWrite s area 8 (g.saves + 1)) (area + 8) 8 s.stamp) (area + 16) 8 1
  let s := g.clusters.foldl freeCluster s
  let s := { s with arrays := s.arrays.filter (·.region ≠ g.rcb)
                    monitors := s.monitors.filter fun m => !g.clusters.contains (clusterOf m.2) }
  let s := g.clusters.foldl (fun s cl => (List.range 64).foldl (fun s c =>
    let k := getCore s (64 * cl + c)
    putCore s (64 * cl + c) { tlb := k.tlb, lowTill := k.lowTill }) s) s
  match findRegion s g.rcb with
  | some g => setStatus (putRegion s { g with state := 3, readyAt := s.tick, image := some img, saves := g.saves + 1 }) g.rcb 3 0
  | none => s

/-- R364: what a save or a restore touches lies where requests wait: the context area, the books and the spill ring. -/
def areaFar (s : State) (g : Region) : Bool :=
  booksFar s g.rcb || rcbFar s g.rcb [(0x28, areaSize g.clusters.length), (0x20, spillBytes s g.rcb)]

/-- DUSK_SAVE: the region's contexts stop; once its work in flight has settled, its image is written. -/
def execDuskSave (rcb : Nat) (s : State) : Host.Outcome State Fault Refusal :=
  match findRegion s rcb with
  | none => .next s
  | some g =>
    if !wantsSave s g then .next s
    else
      let s1 := putRegion s { g with state := 6 }
      .next (if regionSettled s1 g && !areaFar s1 g then saveImage s1 { g with state := 6 } else s1)

/-! ### DUSK_RESTORE (R360) -/

/-- The record in the area of the q-th tile of an array. -/
def arraySlotAt (g : Region) (area : Nat) (a : AxArray) (q : Nat) : Nat :=
  let tile := a.tiles.getD q 0
  recordAt area (g.clusters.findIdx (· = tile / 16)) + 0x780000 + 0x10000 * (tile % 16) + 0xD000 + 0x400 * a.slot

/-- The arrays of a region as its tiles' records give them. -/
def arraysIn (s : State) (g : Region) (img : Image) (area : Nat) : List AxArray :=
  img.arrays.filterMap fun a => arrayIn a fun q => readBytes s (arraySlotAt g area a q) 0x400

/-- `SLOWN` at a restore: the dispatcher writes VALID, TAG and GXIN and leaves HOSTR and HOSTW (R373). -/
def ownedAgain (s : State) (rcb : Nat) (v : Word) : Word := setBits (setBits (setBits v 63 63 1) 60 60 1) 11 0 (rcbTag s rcb)

/-- Reload one granted cluster. -/
def clusterIn (s : State) (g : Region) (img : Image) (area cl k : Nat) : State :=
  let r := recordAt area k
  let fresh := freshTile s g.rcb
  let s := putCluster s cl { getCluster s cl with
    region := some (g.rcb, k)
    icache := []
    team := teamIn s (r + 0x880000) }
  let s := (List.range 16).foldl (fun s t =>
    let i := 16 * cl + t
    let old : Tile := ((img.tiles.find? (·.1 = i)).map (·.2)).getD {}
    let old := tileIn s old (r + 0x780000 + 0x10000 * t)
    sliceIn (putTile s i { old with slwin := fresh.slwin, slown := ownedAgain s g.rcb (getTile s i).slown }) i (r + 0x40000 * t)) s
  let s := (List.range 64).foldl (fun s c =>
    let i := 64 * cl + c
    let old : Core := ((img.cores.find? (·.1 = i)).map (·.2)).getD {}
    let ctx := r + 0x400000 + 0x2000 * c
    let port := portIn i (readNat s (ctx + 0x418) 8) (readNat s (ctx + 0x1418) 8)
    let new := coreIn s { old with tlb := (getCore s i).tlb } (r + 0x480000 + 0x4000 * c) (r + 0x580000 + 0x8000 * c) port
      (getCore s i).lowTill
    putCore s i { new with phaseAt := max (2 * s.stamp) new.cycle, issued := 0 }) s
  (agentsOf cl).foldl (fun s a =>
    let old : Ctx := ((img.ctxs.find? (·.1 = a)).map (·.2)).getD {}
    if isEngine a then putCtx s a (memberIn s old (r + memberAt a)) else
    let c := ctxIn s old (r + 0x400000 + 0x1000 * (a - 128 * cl))
    putCtx s a { c with tstatus := setBits c.tstatus 1 1 (if rcbPager s g.rcb = 1 ∧ 62 ≤ coreOf a % 64 then 1 else 0) }) s

/-- Move one inbox's spilled records in: first count those that came while the region was saved, then fill the inbox. -/
def refill (s : State) (rcb core : Nat) (pri : Bool) : State :=
  match findRegion s rcb with
  | none => s
  | some g =>
    let mine := g.spillOf core pri
    if mine.isEmpty then s else
    let taken := takenOf s core pri
    let counted := arrivedOf s core pri - taken - 32
    let arrived := arrivedOf s core pri + (mine.length - counted)
    let s := sysWrite s (homeLoc core (arrivedOff pri)) 8 arrived
    let first := arrived - mine.length
    let room := 32 - (first - taken)
    (mine.take room).foldl (fun (acc : State × Nat) x =>
      let s := putInbox acc.1 core pri acc.2 (readBytes acc.1 (rcbField acc.1 rcb 0x20 8 + 128 * x.slot) 80) x.task
      match findRegion s rcb with
      | some g => (putRegion s { g with spill := g.spill.filter (· ≠ x) }, acc.2 + 1)
      | none => (s, acc.2 + 1)) (s, first) |>.1

/-- Count the counted records that came for a core while its region was saved, in order, and acknowledge each (R276 to R278). -/
def recount (s : State) (rcb core : Nat) : State :=
  match findRegion s rcb with
  | none => s
  | some g =>
    (g.spill.filter fun x => x.core = core && x.task.cnt).foldl (fun s x =>
        let s := countRecord s core x.task.cid.toNat
        x.due.elim s fun m => reply s m 0 [])
      (putRegion s { g with spill := g.spill.filter fun x => !(x.core = core && x.task.cnt) })

/-- DUSK_RESTORE: the saved region whose turn it is returns to its own clusters, once they are free and quiet; a record that waits for
room on its spill ring comes in behind those that are there (R277). -/
def execDuskRestore (rcb : Nat) (s : State) : Host.Outcome State Fault Refusal :=
  match findRegion s rcb with
  | none => .next s
  | some g =>
    if g.state ≠ 3 || 2 ≤ s.pstate || priosFar s || areaFar s g ||
        (grantChoice s g.die).map (·.rcb) ≠ some rcb || !g.clusters.all (clusterQuiet s) then
      .next s
    else
      let area := rcbField s rcb 0x28 8
      let img := g.image.getD {}
      let s := agePassed (claimWaiting s) g
      let s := (g.clusters.zip (List.range g.clusters.length)).foldl (fun s p => clusterIn s g img area p.1 p.2) s
      let s := { s with arrays := s.arrays ++ arraysIn s g img area }
      let base := fullImage s g area
      let s := beginRun s { g with image := none, base := base } g.clusters
      let cores := g.clusters.flatMap fun cl => (List.range 64).map (64 * cl + ·)
      .next (pumpAll (cores.foldl (fun s c => recount (refill (refill s rcb c true) rcb c false) rcb c) s))

end Sys2Proof.Machine
end

