-- ==== Sys2Proof/Machine/Edges.lean ====
section
/-! DEFINITION. The edges of the device: event records (R377), Noon and the power states (R379 to R381), Dawn and the Plebex
mailbox (R378, R382 to R384), the host's accesses (R361 to R363), the far tier's links (R364), and the Goldex links with
their link-level replay, end-to-end streams, routing and time (R365 to R370, R376). -/

namespace Sys2Proof.Machine

open Sys2Proof

/-! ### Event records (R377) -/

/-- The event that Plebex posts next: the lowest (STAMP, SOURCE). -/
def firstEvent : List Event → Option Event
  | [] => none
  | e :: t => match firstEvent t with
    | none => some e
    | some f => if f.stampv < e.stampv ∨ (f.stampv = e.stampv ∧ f.source < e.source) then some f else some e

/-- The 32 bytes of an event record. -/
def eventBytes (e : Event) : List Byte :=
  toBytes 8 e.stampv ++ toBytes 2 e.source ++ toBytes 1 e.code ++ toBytes 5 0 ++ toBytes 16 e.detail

/-- The slot at TAIL. -/
def evSlot (s : State) : Nat :=
  bits s.dev.evring 51 6 * 64 + 32 * (bits s.dev.evptr 63 32 % 2 ^ bits s.dev.evring 4 0)

/-- Is there room in the event ring? An absent ring counts as full, and one whose next slot is out of reach (R364). -/
def evRoom (s : State) : Bool :=
  decide (bits s.dev.evring 51 6 ≠ 0) &&
    decide (ahead (bits s.dev.evptr 63 32) (bits s.dev.evptr 31 0) < 2 ^ bits s.dev.evring 4 0) && !writeWaits s (evSlot s)

/-- EVENT_POST: the oldest event, held for 64 counts, goes to the ring at TAIL. -/
def execEventPost (s : State) : Host.Outcome State Fault Refusal :=
  match firstEvent s.events with
  | none => .next s
  | some e =>
    if s.stamp < e.stampv + 64 ∨ !evRoom s then .next s else
    let t := bits s.dev.evptr 63 32
    let s := sysBytes s (evSlot s) (eventBytes e)
    .next { s with events := s.events.erase e
                   dev := { s.dev with evptr := setBits s.dev.evptr 63 32 (t + 1) } }

/-! ### Power states (R379) and Noon (R380, R381) -/

/-- Enter a power state; `PWRSTAT`.PSTATE shows it. -/
def setPstate (s : State) (p : Nat) : State :=
  { s with pstate := p, wakeAt := none, dev := { s.dev with pwrstat := setBits s.dev.pwrstat 3 0 p } }

/-- Nominal shares of R18 in watts: axis units, cores, SRAM, mesh, HBM4 interface, LPDDR-6 and links, leakage. -/
def shares : List Nat := [950, 500, 300, 300, 750, 200, 400]

/-- The units from which issue cycles are withheld, in order, until a need is met; no unit falls below 1/16 of its rate. -/
def throttled : List (Nat × Nat) → Nat → Nat
  | [], _ => 0
  | (bit, w) :: t, need => if need = 0 then 0 else 2 ^ bit + throttled t (need - w * 15 / 16)

/-- R381: the draw that Noon cannot withhold: leakage, scalar issue and all else but 15/16 of what the axis units, the vector
datapaths, the transfer units and the mesh ask for. -/
def floorDraw (w : Nat → Nat) : Nat :=
  let total := ((List.range 7).map w).sum
  max (total - (w 0 * 15 / 16 + min (w 7) (w 1) * 15 / 16 + w 8 * 15 / 16 + w 3 * 15 / 16)) (w 6 + (w 1 - w 7))

/-- The watts that Noon keeps free for every sample to come: the floor of the nominal division of R18, which holds whatever the
consumers ask for now, or the limit where that is less. DESIGN CHOICE, log entry 14. -/
def reserve (limit : Nat) : Nat := min limit (floorDraw fun k => shares.getD k 0)

/-- The room for one sample in every window that still takes k more samples of r, or of those before it: b is what the samples
already in it leave. -/
def windowRoom (r : Nat) : Nat → Nat → List Nat → Nat
  | 0, b, _ => b
  | _, b, [] => b
  | k + 1, b, x :: t => min b (windowRoom r k (b + r - x) t)

/-- R18, R381: what Noon lets the module draw in a microsecond, so that with the samples before it, and with the reserve in those
behind it, no mean over 1 ms passes the limit, nor one over 10 µs 1.2 times the limit; it is never less than the floor of what is
asked for, up to the reserve. DESIGN CHOICE, log entry 14. -/
def drawBound (draws : List Nat) (limit floor : Nat) : Nat :=
  let past := draws.take 999
  let r := reserve limit
  max (min floor r) (min ((past.length + 1) * limit - past.sum)
    (min (windowRoom r 999 (1000 * limit - 999 * r) past) (windowRoom r 9 (12 * limit - 9 * r) past)))

/-- NOON_SAMPLE: what R18's seven consumers ask for in this microsecond, then the vector datapaths and the transfer units; what is
drawn is what Noon lets through, and P1 lasts while that is less. Samples stand a microsecond apart. LIMIT is CAP lowered by the
thermal tables; P1 withholds issue cycles from at least the axis units. DESIGN CHOICE, log entry 14. DETAIL of its event is LIMIT.
DESIGN CHOICE, log entry 51. -/
def execNoonSample (watts : List Nat) (s : State) : Host.Outcome State Fault Refusal :=
  let w := fun k => watts.getD k 0
  let total := (watts.take 7).sum
  if s.stamp < s.sampleAt then .next s else
  let limit := min (bits s.dev.pwrcap 11 0) (Config.thermalLimit s.tick)
  let s := if bits s.dev.pwrstat 31 16 = limit then s else logEvent s 0x5201 6 limit
  let drawn := min total (drawBound s.draws limit (floorDraw w))
  let draws := (drawn :: s.draws).take 1000
  let above := (List.range 7).any fun k => decide (shares.getD k 0 < w k)
  let capped := decide (limit < total) || decide (drawn < total) || (above && decide (limit ≤ total + Config.nearMargin))
  let mask := if capped then throttled [(0, w 0), (1, w 7), (2, w 8), (3, w 3)] (max 1 (total - min limit drawn)) else 0
  let p := if 2 ≤ s.pstate then s.pstate else if capped then 1 else 0
  let v := setBits (setBits (setBits s.dev.pwrstat 47 32 (draws.sum / draws.length)) 31 16 limit) 7 4 mask
  .next { s with draws := draws, pstate := p, sampleAt := s.stamp + 1000, dev := { s.dev with pwrstat := setBits v 3 0 p } }

/-- R379: no region granted, every launch queue empty. -/
def deviceIdle (s : State) : Bool :=
  s.regions.all (fun g => !g.onClusters) &&
    (List.range 16).all fun q =>
      bits (s.dev.lqbase.toList.getD q 0) 51 7 = 0 ||
        bits (s.dev.lqtail.toList.getD q 0) 31 0 = bits (s.dev.lqhead.toList.getD q 0) 31 0

/-- ENTER_P2: idle for 1 ms. -/
def execEnterP2 (s : State) : Host.Outcome State Fault Refusal :=
  if s.pstate < 2 ∧ !s.recovering ∧ deviceIdle s ∧ s.idleSince + 1000000 ≤ s.stamp then .next (setPstate s 2) else .next s

/-! ### Goldex links (R365, R366, R370) -/

/-- One bit of CRC-32 (IEEE 802.3, reflected). -/
def crcBit (c : Nat) : Nat := if c % 2 = 1 then Nat.xor (c / 2) 0xEDB88320 else c / 2
def crcByte (c b : Nat) : Nat := (List.range 8).foldl (fun c _ => crcBit c) (Nat.xor c (b % 256))
def crc32 (l : List Nat) : Nat := Nat.xor (l.foldl crcByte 0xFFFFFFFF) 0xFFFFFFFF

/-- Bytes 251:8 of a flit that carries one record in slot 0, and of one that acknowledges a stream. -/
def recordBody (src dst eseq core : Nat) (h : Word) (regs : Vector Word 8) : List Nat :=
  numBytes 8 (streamWord 0 src dst 0 eseq) ++ numBytes 8 (2 ^ 63 + bits h 62 0) ++ numBytes 2 core ++ numBytes 6 0 ++
    regs.toList.flatMap (fun w => numBytes 8 w.toNat) ++ numBytes 156 0
def ackBody (src dst eseq : Nat) (refused : Option (Nat × Nat × Nat)) : List Nat :=
  numBytes 8 (streamWord 1 src dst 0 eseq) ++
    (match refused with
     | some (e, mask, why) => numBytes 2 e ++ [mask, why]
     | none => numBytes 4 0) ++ numBytes 232 0

/-- A whole flit. -/
def flitOf (lseq lack kind credit : Nat) (body : List Nat) : List Nat :=
  let l := numBytes 2 lseq ++ numBytes 2 lack ++ [kind, 0] ++ numBytes 2 credit ++ body
  l ++ numBytes 4 (crc32 l)

/-- The link is trained, not held down, and the device is not retained or off. -/
def linkTrained (s : State) (l : Nat) : Bool :=
  bits (linkReg s l) 63 62 = 2 && bits (linkReg s l) 61 61 = 0 && decide (s.pstate < 3) && !s.recovering
/-- R369: it carries payload as well. -/
def linkUp (s : State) (l : Nat) : Bool := linkTrained s l && bits s.dev.gxcfg 19 19 = 1

/-- R368: the links that `GXRT`'s entry for a device allows, as a mask. -/
def routeAt (s : State) (dst : Nat) : Nat := bits s.dev.gxrt 51 20 * 2 ^ 20 + 2 * dst
def routeMask (s : State) (dst : Nat) : Nat := readNat s (routeAt s dst) 2
/-- Is some allowed link up? While the entry cannot be read (R364) it does not say that none is. DEDUCED, log entry 68. -/
def reachable (s : State) (dst : Nat) : Bool :=
  farWaits s (routeAt s dst) || (List.range 16).any fun l => (routeMask s dst).testBit l && linkUp s l

/-- R368: the least-occupied allowed link that is up and has room in its replay buffer; of several the lowest-numbered. DESIGN CHOICE,
log entry 56. -/
def bestLink (s : State) (dst : Nat) : Option Nat :=
  if farWaits s (routeAt s dst) then none else
  ((List.range 16).filter fun l =>
      (routeMask s dst).testBit l && linkUp s l && decide ((getLink s l).replay.length < 512)).foldl (fun best l =>
    match best with
    | none => some l
    | some b => if (getLink s l).replay.length < (getLink s b).replay.length then some l else some b) none

/-- A flit leaves on a link: it stays in the replay buffer until the peer has it. DESIGN CHOICE, log entry 56. -/
def putOnLink (s : State) (l kind : Nat) (body : List Nat) : State :=
  let x := getLink s l
  putLink s l { x with
    txSeq := (x.txSeq + 1) % 2 ^ 16
    freed := 0
    replay := x.replay ++ [(x.txSeq, flitOf x.txSeq ((x.rxNext + 65535) % 2 ^ 16) kind (x.freed % 2 ^ 16) body, s.stamp)] }

/-- Send a payload flit toward a device; none when no allowed link takes it. -/
def sendFlit (s : State) (dst : Nat) (body : List Nat) : Option State :=
  (bestLink s dst).map fun l => putOnLink s l 1 body

/-! ### Streams (R367, R369) -/

def getTx (s : State) (dst ch : Nat) : GTx := (s.gtx.find? fun g => g.dst = dst && g.ch = ch).getD ⟨dst, ch, 0, []⟩
def putTx (s : State) (g : GTx) : State := { s with gtx := g :: s.gtx.filter fun x => !(x.dst = g.dst && x.ch = g.ch) }
def getRx (s : State) (src ch : Nat) : GRx := (s.grx.find? fun g => g.src = src && g.ch = ch).getD ⟨src, ch, 0, []⟩
def putRx (s : State) (g : GRx) : State := { s with grx := g :: s.grx.filter fun x => !(x.src = g.src && x.ch = g.ch) }
def remoteDev (r : Remote) : Nat := bits r.hdr 52 34

/-- Sends that wait for a device enter its stream in order, up to 64 unacknowledged flits. -/
def pumpStream (s : State) (dst : Nat) : Nat → State
  | 0 => s
  | n + 1 =>
    match s.remotes.findIdx? fun r => r.eseq.isNone && remoteDev r = dst with
    | none => s
    | some i => match s.remotes[i]? with
      | none => s
      | some r =>
        let g := getTx s dst 0
        if 64 ≤ g.unacked.length then s else
        let body := recordBody (devNumber s) dst g.next (coreOf r.ctx) r.hdr r.regs
        match sendFlit s dst body with
        | none => s
        | some s =>
          let s := putTx s { g with next := (g.next + 1) % 2 ^ 16, unacked := g.unacked ++ [(g.next, body, s.stamp)] }
          pumpStream { s with remotes := s.remotes.set i { r with eseq := some g.next } } dst n

/-- A record of a slot: valid bit, header, core, registers. -/
def slotRec (body : List Nat) (k : Nat) : Option (Word × Nat × Vector Word 8) :=
  let o := 8 + 96 * k
  let h := fieldN body o 8
  if h < 2 ^ 63 then none
  else some (BitVec.ofNat 64 (h % 2 ^ 63), fieldN body (o + 8) 2 % 2 ^ 14,
    Vector.ofFn fun j => BitVec.ofNat 64 (fieldN body (o + 16 + 8 * j.val) 8))

/-- Accept one slot, collecting the mask of refused slots. -/
def acceptSlot (body : List Nat) (k : Nat) (acc : Option (Nat × State)) : Option (Nat × State) :=
  match acc with
  | none => none
  | some (mask, s) => match slotRec body k with
    | none => some (mask, s)
    | some (h, core, regs) => (acceptRemote s h regs core).map fun (why, s) => (if why = 0 then mask else mask + 2 ^ k, s)

/-- Is ESEQ x among the 64 up to e? -/
def within64 (e x : Nat) : Bool := decide ((e + 2 ^ 16 - x) % 2 ^ 16 < 64)

/-- Send a flit of a stream that keeps it; one that no link takes now is due at once. -/
def sendKept (s : State) (g : GTx) (e : Nat) (body : List Nat) : State :=
  let r := sendFlit s g.dst body
  putTx (r.getD s) { g with unacked := g.unacked ++ [(e, body, if r.isSome then max 1 s.stamp else 0)] }

/-- Acknowledge a stream up to ESEQ e, naming that flit where its slots were refused. Each flit has an acknowledgement of its own
ESEQ, so that channel 1 is a stream in ESEQ order too; the last 64 are kept, as many as the peer may still miss. DEDUCED, log entry
57. -/
def sendAck (s : State) (src e : Nat) (refused : Option (Nat × Nat × Nat)) : State :=
  let g := getTx s src 1
  sendKept s { g with next := (e + 1) % 2 ^ 16, unacked := g.unacked.filter fun x => within64 e x.1 } e
    (ackBody (devNumber s) src e refused)

/-- A duplicate's acknowledgement is sent again. -/
def againAck (s : State) (src e : Nat) : State :=
  let g := getTx s src 1
  putTx s { g with unacked := g.unacked.map fun (u : Nat × List Nat × Nat) => if u.1 = e then (u.1, u.2.1, 0) else u }

/-- The flit that stood next has been passed on. -/
def GRx.advance (g : GRx) : GRx := { g with held := g.held.filter (·.1 ≠ g.next), next := (g.next + 1) % 2 ^ 16 }
/-- A flit in its stream's window, once. -/
def GRx.hold (g : GRx) (e : Nat) (body : List Nat) : GRx :=
  if g.held.any (·.1 = e) then g else { g with held := g.held ++ [(e, body)] }
/-- How far an ESEQ lies ahead of the next one: below 64 within the window, from 2^15 on a duplicate. -/
def GRx.dist (g : GRx) (e : Nat) : Nat := (e + 2 ^ 16 - g.next) % 2 ^ 16

/-- Pass on the flits that stand next in a stream's window; in P2 they are held. -/
def passOn (s : State) (src : Nat) : Nat → State
  | 0 => s
  | n + 1 =>
    let g := getRx s src 0
    match g.held.find? (·.1 = g.next) with
    | none => s
    | some (_, body) =>
      if 2 ≤ s.pstate then s else
      match acceptSlot body 1 (acceptSlot body 0 (some (0, s))) with
      | none => s
      | some (mask, s) =>
        let no := if mask = 0 then none else some (g.next, mask, 2)
        passOn (sendAck (putRx s g.advance) src g.next no) src n

/-- A record flit for this device: held in the window in ESEQ order, a duplicate discarded and acknowledged again. -/
def receiveRecord (s : State) (src e : Nat) (body : List Nat) : State :=
  let g := getRx s src 0
  if 2 ^ 15 ≤ g.dist e then againAck s src e
  else if 64 ≤ g.dist e then s
  else passOn (putRx s (g.hold e body)) src 64

/-- An acknowledgement: refused records bounce, flits up to ESEQ leave their stream, and their sends are complete. -/
def passAck (s : State) (dst e : Nat) (body : List Nat) : State :=
  let r := fieldN body 8 2
  let bad := fun (x : Remote) => remoteDev x = dst && x.eseq = some r && decide (fieldN body 11 1 ≠ 0) && (fieldN body 10 1).testBit 0
  let upto := fun (x : Nat) => decide ((e + 2 ^ 16 - x) % 2 ^ 16 < 2 ^ 15)
  let s1 := { s with remotes := s.remotes.filter fun x => !bad x && !(remoteDev x = dst && x.eseq.any upto) }
  let s := (s.remotes.filter bad).foldl (fun s x => bounce s x.ctx x.hdr (fieldN body 11 1)) s1
  let g := getTx s dst 0
  putTx s { g with unacked := g.unacked.filter fun x => !upto x.1 }

/-- Pass on the acknowledgements that stand next in their stream's window. -/
def passAcks (s : State) (src : Nat) : Nat → State
  | 0 => s
  | n + 1 =>
    let g := getRx s src 1
    match g.held.find? (·.1 = g.next) with
    | none => s
    | some (e, body) => passAcks (passAck (putRx s g.advance) src e body) src n

/-- An acknowledgement flit for this device: held in ESEQ order, a duplicate discarded. -/
def receiveAck (s : State) (src e : Nat) (body : List Nat) : State :=
  let g := getRx s src 1
  if 64 ≤ g.dist e then s else pumpStream (passAcks (putRx s (g.hold e body)) src 64) src 64

/-- Send a flit on; it waits while its route cannot be read (R364). -/
def passFlit (s : State) (dst : Nat) (body : List Nat) : State :=
  if farWaits s (routeAt s dst) then { s with passing := s.passing ++ [(dst, body)] } else (sendFlit s dst body).getD s

/-- R368: a payload flit for another device goes on with HOPS raised, or is discarded and logged. -/
def forwardFlit (s : State) (link dst : Nat) (body : List Nat) : State :=
  let w := fieldN body 0 8
  if nbits w 19 16 = 15 then logEvent s (0x5100 + link) 0 w
  else passFlit s dst (numBytes 8 (w + 2 ^ 16) ++ body.drop 8)

/-- A payload flit's stream: from another device's records, or acknowledgements of this one's. -/
def receivePayload (s : State) (link : Nat) (body : List Nat) : State :=
  let w := fieldN body 0 8
  let dst := nbits w 43 25
  let src := nbits w 62 44
  if bits s.dev.gxcfg 19 19 = 0 then s
  else if dst ≠ devNumber s then forwardFlit s link dst body
  else if nbits w 63 63 = 0 then receiveRecord (wakeP2 s) src (nbits w 15 0) body
  else receiveAck (wakeP2 s) src (nbits w 15 0) body

/-- The peer has every flit up to LACK; the same LACK twice with flits unacknowledged shows a gap. -/
def takeAck (x : GLink) (lack : Nat) : GLink :=
  let left := x.replay.filter fun f => !decide ((lack + 2 ^ 16 - f.1) % 2 ^ 16 < 2 ^ 15)
  { x with
    replay := left
    failed := if left.length < x.replay.length then 0 else x.failed
    tried := x.tried && left.length = x.replay.length
    gap := x.lastAck = lack && !left.isEmpty
    lastAck := lack }

/-- A time flit's body: the count in slot 0. -/
def timeBody (s : State) (count : Nat) : List Nat :=
  numBytes 8 (streamWord 0 (devNumber s) 0 0 0) ++ numBytes 8 count ++ numBytes 228 0

/-- Send a time flit on every trained link but one. -/
def sendTime (s : State) (count but : Nat) : State :=
  ((List.range 16).filter fun l => l ≠ but && linkTrained s l && decide ((getLink s l).replay.length < 512)).foldl
    (fun s l => putOnLink s l 2 (timeBody s count)) s

/-- R376: note the master's lead, to be slewed away, and relay the flit; the master itself takes none. A device stays within 4
counts of its master (R12), so no more than 4 is ever to be slewed. DEDUCED, log entry 58. -/
def takeTime (s : State) (link : Nat) (count : Word) : State :=
  if bits s.dev.gxcfg 28 28 = 1 then s
  else { sendTime s count.toNat link with slew := max (-4) (min 4 (signed 64 (count - BitVec.ofNat 64 s.stamp).toNat)) }

/-- A flit that came in its link's order is taken: its receive buffer is freed. -/
def takeFlit (s : State) (link : Nat) (x : GLink) : State :=
  putLink s link { x with rxNext := (x.rxNext + 1) % 2 ^ 16, freed := x.freed + 1 }

/-- GOLDEX_FLIT_RECEIVE: a flit with a bad CRC, or out of its link's order, is discarded. -/
def execGoldexFlitReceive (link : Nat) (flit : List Nat) (s : State) : Host.Outcome State Fault Refusal :=
  if 16 ≤ link ∨ flit.length ≠ 256 ∨ !linkTrained s link then .next s
  else if crc32 (flit.take 252) ≠ fieldN flit 252 4 then .next s
  else
    let x := takeAck (getLink s link) (fieldN flit 2 2)
    let kind := fieldN flit 4 1
    let s1 := putLink s link x
    if kind = 0 ∨ fieldN flit 0 2 ≠ x.rxNext then .next s1
    else
      let s2 := takeFlit s link x
      let body := (flit.drop 8).take 244
      .next (if kind = 1 then receivePayload s2 link body
        else if kind = 2 then takeTime s2 link (BitVec.ofNat 64 (fieldN body 8 8)) else s2)

/-- LINK_REPLAY_TIMEOUT: flits unacknowledged for 2 µs, or past a gap, are resent from LACK + 1 (R366). A replay has failed when
they are due again and the peer has taken none of them; after the eighth the link retrains. -/
def execLinkReplayTimeout (link : Nat) (s : State) : Host.Outcome State Fault Refusal :=
  let x := getLink s link
  match x.replay with
  | [] => .next s
  | (_, _, t) :: _ =>
    if linkTrained s link ∧ (t + 2000 ≤ s.stamp ∨ x.gap) ∧ x.failed < 8 then
      let failed := if x.tried then x.failed + 1 else x.failed
      if 8 ≤ failed then .next (putLink s link { x with failed := failed }) else
      let s := putLink s link { x with
        replay := x.replay.map fun f => (f.1, f.2.1, s.stamp)
        failed := failed
        tried := true
        gap := false }
      .next (putLinkReg s link (setBits (linkReg s link) 31 0 (bits (linkReg s link) 31 0 + x.replay.length)))
    else .next s

/-- RETRAIN_START: after eight failed replays, loss of lock, or from down. -/
def execRetrainStart (link : Nat) (s : State) : Host.Outcome State Fault Refusal :=
  if 16 ≤ link ∨ bits (linkReg s link) 63 62 = 1 ∨ bits (linkReg s link) 61 61 = 1 ∨ 3 ≤ s.pstate ∨ s.recovering then .next s
  else
    let r := linkReg s link
    let n := min (bits r 47 32 + 1) 0xFFFF
    let s := putLink (dropLink s link) link { trainAt := some s.stamp }
    .next (logEvent (putLinkReg s link (setBits (setBits r 63 62 1) 47 32 n)) (0x5100 + link) 1 0)

/-- A link in training is up, or down; DETAIL of its event is 0 (R377). DESIGN CHOICE, log entry 51. -/
def endRetrain (s : State) (link : Nat) (up : Bool) : State :=
  logEvent (putLinkReg (putLink s link {}) link (setBits (linkReg s link) 63 62 (if up then 2 else 0))) (0x5100 + link)
    (if up then 3 else 2) 0

/-- RETRAIN_END: the link is up, or down. -/
def execRetrainEnd (link : Nat) (up : Bool) (s : State) : Host.Outcome State Fault Refusal :=
  if 16 ≤ link ∨ bits (linkReg s link) 63 62 ≠ 1 then .next s else .next (endRetrain s link up)

/-- R17, R366: a training ends within 20 µs; a link that is not up by then is down. -/
def endTraining (s : State) : State :=
  (s.links.filter fun l => l.2.trainAt.any fun t => decide (t + 20000 ≤ s.stamp)).foldl (fun s l => endRetrain s l.1 false) s

/-- Resend one kept flit of a stream when it is due: after 100 µs without an acknowledgement, or lost to a retrain. -/
def resendOne (dst ch : Nat) (acc : State × List (Nat × List Nat × Nat)) (u : Nat × List Nat × Nat) :
    State × List (Nat × List Nat × Nat) :=
  if u.2.2 = 0 ∨ (ch = 0 ∧ u.2.2 + 100000 ≤ acc.1.stamp) then
    match sendFlit acc.1 dst u.2.1 with
    | some s => (s, acc.2 ++ [(u.1, u.2.1, max 1 s.stamp)])
    | none => (acc.1, acc.2 ++ [u])
  else (acc.1, acc.2 ++ [u])

/-- Resend what is due of a stream. -/
def resendDue (s : State) (dst ch : Nat) : State :=
  let g := getTx s dst ch
  let r := g.unacked.foldl (resendOne dst ch) (s, [])
  if g.unacked.isEmpty then s else putTx r.1 { g with unacked := r.2 }

/-- END_TO_END_RESEND for device i: due flits are resent, waiting sends enter the stream, and flits of i that wait in this
device's window are tried again. -/
def execEndToEndResend (i : Nat) (s : State) : Host.Outcome State Fault Refusal :=
  .next (passOn (pumpStream (resendDue (resendDue s i 0) i 1) i 64) i 64)

/-- A bounced record's slot leaves its kept flit, so that the stream goes on without it. -/
def clearSlot (body : List Nat) : List Nat := body.set 15 (body.getD 15 0 % 128)

/-- Sends whose device an allowed link reaches wait from now on (R369). -/
def keepReachable (s : State) : State :=
  { s with remotes := s.remotes.map fun r => if reachable s (remoteDev r) then { r with since := s.stamp } else r }

/-- BOUNCE_TIMEOUT for remote send i: no allowed link up for 1 ms bounces it (reason 1); while one is up, the time starts again
with every step. DEDUCED, log entry 57. -/
def execBounceTimeout (i : Nat) (s : State) : Host.Outcome State Fault Refusal :=
  match s.remotes[i]? with
  | none => .next s
  | some r =>
    let dst := remoteDev r
    if reachable s dst then .next s
    else if s.stamp < r.since + 1000000 then .next s
    else
      let s := match r.eseq with
        | none => s
        | some e =>
          let g := getTx s dst 0
          putTx s { g with unacked := g.unacked.map fun (u : Nat × List Nat × Nat) => if u.1 = e then (u.1, clearSlot u.2.1, u.2.2) else u }
      .next (bounce { s with remotes := s.remotes.eraseIdx i } r.ctx r.hdr 1)

/-! ### Time (R376) -/

/-- TIME_FLIT_SEND: the master, once per microsecond. -/
def execTimeFlitSend (s : State) : Host.Outcome State Fault Refusal :=
  if bits s.dev.gxcfg 28 28 = 1 ∧ s.timeSent + 1000 ≤ s.stamp ∧ s.pstate < 3 then
    .next { sendTime s s.stamp 16 with timeSent := s.stamp }
  else .next s

/-- TIME_FLIT_RECEIVE: an intact time flit that stands next in its link's order. DEDUCED, log entry 58. -/
def execTimeFlitReceive (link : Nat) (count : BitVec 64) (s : State) : Host.Outcome State Fault Refusal :=
  if 16 ≤ link ∨ !linkTrained s link then .next s
  else .next (takeTime (takeFlit s link (getLink s link)) link count)

/-- Time passes: n count periods, each advancing the count by 0 to 2 so that it nears the master's (R376). DEDUCED, log entry
58. -/
def passTime (s : State) (n : Nat) : State :=
  let a := max (-(n : Int)) (min (n : Int) s.slew)
  { s with stamp := (s.stamp + n + a).toNat, slew := s.slew - a }

/-! ### Waking (R379) -/

/-- P2_WAKE: back to P0; records that arrived meanwhile are accepted. -/
def execP2Wake (s : State) : Host.Outcome State Fault Refusal :=
  if s.pstate = 2 ∧ s.wakeAt.isSome then
    let s := { setPstate s 0 with idleSince := s.stamp }
    .next (s.grx.foldl (fun s g => passOn s g.src 64) s)
  else .next s

/-- Cells and poisoned lines of a range of addresses go: every one of its lines is written (R127). -/
def zeroRange (s : State) (inside : Nat → Bool) : State :=
  wroteWhere { s with mem := s.mem.filter fun c => !inside c.1
                      poison := s.poison.filter fun p => !inside (64 * p) }
    fun l => inside (64 * l)

/-- P3_EXIT: 5 ms after the command every slice is zero and the device runs. DEDUCED, log entry 52. -/
def execP3Exit (s : State) : Host.Outcome State Fault Refusal :=
  match s.wakeAt with
  | some t =>
    if s.pstate = 3 ∧ t + 5000000 ≤ s.stamp then .next { zeroRange (setPstate s 0) isSlice with idleSince := s.stamp }
    else .next s
  | none => .next s

/-! ### Dawn (R382, R383) -/

/-- What outlives a reset: the fabric and devices outside, the flash, the counts of time and of the run, the draws of the last
millisecond, the agenda. DEDUCED, log entry 54. -/
def darkState (s : State) : State :=
  { State.reset with
    stamp := s.stamp
    tick := s.tick
    slew := s.slew
    far := s.far
    posted := s.posted
    mem := s.mem.filter fun c => decide (2 ^ 44 ≤ c.1 ∧ c.1 < 2 ^ 52)
    poison := s.poison.filter fun p => decide (2 ^ 44 ≤ 64 * p ∧ 64 * p < 2 ^ 52)
    image := s.image
    nonce := s.nonce
    idleSince := s.stamp
    lastEpoch := s.stamp
    timeSent := s.stamp
    draws := s.draws
    sampleAt := s.sampleAt
    sched := s.sched
    agenda := s.agenda
    isReady := false }

/-- Steps 3 to 6 of R382, from a dark device whose image has passed: memory is zero already, and no other register stands. -/
def startUp (d : State) (absent : BitVec 12) (links : BitVec 16) : State :=
  let dev := { d.dev with
    gxcfg := BitVec.ofNat 64 (Config.configuredDevice d.image).toNat
    gxlink := Vector.ofFn fun l => if links.getLsbD l.val then 0x8000000000000000 else 0 }
  let d := { d with
    dev := dev
    absent := absent
    cacheMode := Config.configuredCache d.image
    booted := d.image
    identity := Config.identityKey (Config.measurement d.image)
    recovering := false
    isReady := true }
  let d := ((List.range 12).filter absent.getLsbD).foldl (fun s k => logEvent s (0x5000 + k) 5 0) d
  ((List.range 16).filter fun l => !links.getLsbD l).foldl (fun s l => logEvent s (0x5100 + l) 2 0) d

/-- Step 2 of R382: the image in flash starts the device, or Plebex logs the failure and waits for a new one (R383). -/
def checkImage (d : State) (absent : BitVec 12) (links : BitVec 16) : State :=
  if Config.imageVerifies d.image then startUp d absent links else logEvent { d with recovering := true } 0x5200 0 0

/-- DAWN: `absent` are stacks that do not train, `links` the Goldex links that do. Where Plebex does not start, the device stays
dark, without a link for the host, as it is when off. DEDUCED, log entry 54. -/
def execDawn (absent : BitVec 12) (links : BitVec 16) (s : State) : Host.Outcome State Fault Refusal :=
  if !Config.plebexStarts s.tick then .next (setPstate (darkState s) 4)
  else .next (checkImage (darkState s) absent links)

/-- MAILBOX_IMAGE: an image that passes the checks goes to flash, for the next Dawn; in recovery step 2 is repeated on it, and the
device goes on to the steps behind it. -/
def execMailboxImage (image : List Byte) (s : State) : Host.Outcome State Fault Refusal :=
  if s.pstate = 4 then .next s
  else if Config.imageVerifies image then
    let s1 := { s with image := image }
    .next (if s.recovering then checkImage s1 (Config.untrainedStacks s.tick) (Config.trainedLinks s.tick) else s1)
  else if s.recovering then .next (logEvent s 0x5200 0 0) else .next s

/-- R384: what a report contains: the measurement, the image version, `SECST`, `GXCFG`.DEV, the nonce and `TIME`, in fields of 8
bytes but for the first and the nonce. DESIGN CHOICE, log entry 12. -/
def reportBody (s : State) (nonce : List Byte) : List Byte :=
  Config.measurement s.booted ++ toBytes 8 (Config.imageVersion s.booted) ++ toBytes 8 s.dev.secst.toNat ++ toBytes 8 (devNumber s) ++
    nonce ++ toBytes 8 (timeStamp s)

/-- MAILBOX_ATTEST: a 32-byte nonce is answered by the report, signed with the identity key (R384). -/
def execMailboxAttest (nonce : List Byte) (s : State) : Host.Outcome State Fault Refusal :=
  if s.pstate = 4 ∨ s.recovering ∨ nonce.length ≠ 32 then .next s
  else .next { s with mailbox := reportBody s nonce ++ Config.signature s.identity (reportBody s nonce) }

/-- MAILBOX_DEBUG_TOKEN: from locked, a token bound to Plebex's nonce enters owner-debug, or vendor-debug with every slice
and all device memory zeroed (R378). DEDUCED, log entry 53. -/
def execMailboxDebugToken (token : List Byte) (s : State) : Host.Outcome State Fault Refusal :=
  if s.pstate = 4 ∨ s.recovering ∨ bits s.dev.secst 1 0 ≠ 0 then .next s
  else
    let g := Config.tokenGrants token s.nonce
    let s := { s with nonce := Config.freshNonce s.tick }
    if g = 1 then .next { s with dev := { s.dev with secst := 1 } }
    else if g = 2 then
      let s := zeroRange s fun a => isSlice a || decide (a < 2 ^ 44)
      .next { s with dev := { s.dev with secst := 2 } }
    else .next s

/-- MAILBOX_POWER_COMMAND: 3 or 4 enters P3 or P4 when no region is ready or running; 0 in P3 starts the way back (R379). -/
def execMailboxPowerCommand (p : BitVec 4) (s : State) : Host.Outcome State Fault Refusal :=
  let quiet := s.regions.all fun g => g.state ≠ 1 && !g.onClusters
  if s.recovering ∨ s.pstate = 4 then .next s
  else if (p = 3 ∧ s.pstate ≠ 3 ∨ p = 4) ∧ quiet then
    .next (setPstate ((List.range 16).foldl takeLinkDown s) p.toNat)
  else if p = 0 ∧ s.pstate = 3 ∧ s.wakeAt.isNone then .next { s with wakeAt := some s.stamp }
  else .next s

/-- MAILBOX_DUSK_SAVE: in a debug state, while regions run, Dusk saves the region (R379, R356). -/
def execMailboxDuskSave (rcb : Nat) (s : State) : Host.Outcome State Fault Refusal :=
  match findRegion s rcb with
  | none => .next s
  | some g =>
    if bits s.dev.secst 1 0 ≠ 0 ∧ s.pstate < 3 ∧ g.state = 2 then .next (putRegion s { g with state := 6 }) else .next s

/-! ### Host accesses (R361 to R363) -/

/-- R379: in a debug state the host also reads and writes context areas and the event ring. -/
def debugReach (s : State) (pa : Nat) : Bool :=
  bits s.dev.secst 1 0 ≠ 0 &&
    (s.regions.any (fun g =>
        let a := rcbField s g.rcb 0x28 8
        decide (a ≤ pa ∧ pa < a + areaSize (max g.clusters.length (rcbBcl s g.rcb)))) ||
      (let b := bits s.dev.evring 51 6 * 64
       decide (b ≠ 0 ∧ b ≤ pa ∧ pa < b + 32 * 2 ^ bits s.dev.evring 4 0)))

/-- What the host may do at a logical address: read, write (R373, R374). -/
def hostMay (s : State) (loc : Nat) : Bool × Bool :=
  if isSlice loc then
    let o := (getTile s (sliceTile loc)).slown
    (bits o 62 62 = 1, bits o 61 61 = 1 && !sysArea loc && !withheld s loc)
  else match homeOf s loc with
    | some h => if h < 24 then (if debugReach s loc then (true, true) else mtabHost s loc) else (false, false)
    | none => (false, false)

def hostDone (s : State) (status : Nat) (data : List Byte) : State := { s with hostOut := (status, data) }

/-- R82: an access of the host that its tables let through counts once for the page of each of its lines, from port 0's place on the
mesh, that of cluster 0 (R361); it carries no leaf entry. DEDUCED, log entry 34. -/
def hostCount (s : State) (may : Nat → Bool) (ps : List (Nat × Nat)) : State :=
  if ps.all (may ·.1) then ps.foldl (fun s p => countHot s p.1 0 0) s else s

/-- Read n bytes for the host, line by line: 0 with data, 1 denied, 2 poisoned. A line of a lost far-tier device, through a page in Forwarding, reads as
a poisoned one (R364). DESIGN CHOICE, log entry 55. -/
def hostRead (s : State) : List (Nat × Nat) → Nat × List Byte
  | [] => (0, [])
  | (loc, n) :: t =>
    if !(hostMay s loc).1 then (1, []) else
    match serveRead s loc n with
    | (0, b) => match hostRead s t with
      | (0, b') => (0, b ++ b')
      | r => r
    | (_, _) => (2, [])

/-- Write bytes for the host; a whole aligned line replaces poison, as the whole-line writes that R115 names do, and a line of a lost
far-tier device takes nothing (R364), of which the host hears nothing. DESIGN CHOICE, log entry 55. -/
def hostWrite (s : State) : List (Nat × Nat) → List Byte → State
  | [], _ => s
  | (loc, n) :: t, d => hostWrite (serveWrite s loc (d.take n) (n = 64)).2 t (d.drop n)

/-- R361: an AtomicOp of the host at 4 or 8 bytes: 0 FetchAdd, 1 Swap, 2 CAS (compare value first). -/
def atomicNew (op n old : Nat) (d : List Byte) : Nat :=
  let x := at_ d 0 n
  if op = 0 then (old + x) % 256 ^ n else if op = 1 then x else if old = x then at_ d n n else old

def hostAtomic (s : State) (op loc : Nat) (d : List Byte) : State :=
  let n := if op = 2 then d.length / 2 else d.length
  if (n ≠ 4 ∧ n ≠ 8) ∨ loc % n ≠ 0 ∨ !(hostMay s loc).1 ∨ !(hostMay s loc).2 then hostDone s 1 [] else
  let s := countHot s loc 0 0
  match serveRead s loc n with
  | (0, b) => hostDone (serveWrite s loc (toBytes n (atomicNew op n (fromBytes b) d)) false).2 0 b
  | (_, _) => hostDone s 2 []

/-- BAR0: the device-wide control registers, `SLOWN` of every tile, the mailbox (R363). Offsets from 0x8000 up that the table names
nowhere read zero and ignore writes, as those below 0x8000 do. DESIGN CHOICE, log entry 55. -/
def bar0Reg (a : Nat) : Option Nat :=
  if a < 0x8000 ∧ a % 8 = 0 ∧ deviceWide (a / 8) then some (a / 8) else none
def bar0Tile (a : Nat) : Option Nat :=
  if 0x80000 ≤ a ∧ a < 0x88000 ∧ a % 8 = 0 then some ((a - 0x80000) / 8) else none
def inMailbox (a n : Nat) : Bool := decide (0x100000 ≤ a ∧ a + n ≤ 0x101000)

def bar0Read (s : State) (a n : Nat) : List Byte :=
  if inMailbox a n then slice s.mailbox (a - 0x100000) n
  else if n ≠ 8 then toBytes n 0
  else match bar0Reg a, bar0Tile a with
    | some r, _ => toBytes 8 (devVal s r).toNat
    | none, some t => toBytes 8 (getTile s t).slown.toNat
    | none, none => toBytes 8 0

def bar0Write (s : State) (a : Nat) (d : List Byte) : State :=
  let v := BitVec.ofNat 64 (at_ d 0 8)
  if inMailbox a d.length then
    let o := a - 0x100000
    { s with mailbox := slice s.mailbox 0 o ++ d ++ s.mailbox.drop (o + d.length) }
  else if d.length ≠ 8 then s
  else match bar0Reg a, bar0Tile a with
    | some r, _ => devWrite s r v
    | none, some t =>
      let x := getTile s t
      putTile s t { x with slown := mergeCsr 0x133 x.slown v true }
    | none, none => s

/-- R364: whether the host may reach a place lies in a table or an RCB that is out of reach. -/
def verdictFar (s : State) (loc : Nat) : Bool :=
  !isSlice loc && (homeOf s loc).any (· < 24) &&
    ((bits s.dev.secst 1 0 ≠ 0 && s.regions.any fun g => farWaits s g.rcb) || (!debugReach s loc && mtabFar s))

/-- An access of the host waits for a reserved bank (R73), and while a link is down for the line, where the host may reach it, or for
what the verdict is read from (R364). -/
def hostHeld (s : State) (write : Bool) (loc : Nat) : Bool :=
  bankBusy s loc 4096 || verdictFar s loc ||
    (if write then (hostMay s loc).2 && writeWaits s loc else (hostMay s loc).1 && farWaits s loc)

/-- An access of the host as the device serves it; none where it waits. In P2 it is served at once, and the device stays there: R379
names what wakes it, and an access of the host to memory is not among it. DESIGN CHOICE, log entry 55. -/
def hostServe (s : State) (k addr : Nat) (data : List Byte) : Option State :=
  -- a CAS carries two operands and reaches as far as one (R361)
  let n := if k = 10 ∨ k = 13 then data.length / 2 else data.length
  let bar2 := k = 2 ∨ k = 3 ∨ (8 ≤ k ∧ k ≤ 10)
  let loc := if bar2 then sliceBase + addr else addr
  let fits := if bar2 then addr + n ≤ 2 ^ 30 else addr + n ≤ 2 ^ 42
  if k < 2 then
    if 2 ^ 24 < addr + n ∨ ((s.recovering ∨ s.pstate = 3) ∧ !inMailbox addr n) then some (hostDone s 1 [])
    else if k = 0 then some (hostDone s 0 (bar0Read s addr n)) else some (hostDone (bar0Write s addr data) 0 [])
  else if s.recovering ∨ s.pstate = 3 ∨ !decide fits ∨ 13 < k then some (hostDone s 1 [])
  else
    let ps := linePieces (n / 64 + 2) loc n
    if ps.any fun p => hostHeld s (decide (k ≠ 2 ∧ k ≠ 4)) p.1 then none
    else if k = 2 ∨ k = 4 then
      let r := hostRead s ps
      some (hostDone (hostCount s (fun l => (hostMay s l).1) ps) r.1 r.2)
    else if k = 3 ∨ k = 5 then
      if ps.all fun p => (hostMay s p.1).2 then
        some (hostDone (hostWrite (hostCount s (fun l => (hostMay s l).2) ps) ps data) 0 [])
      else some (hostDone s 1 [])
    else some (hostAtomic s (if k ≤ 10 then k - 8 else k - 11) loc data)

/-- Serve the host's accesses in order, up to one that waits (R328). -/
def pumpHost (s : State) : Nat → State
  | 0 => s
  | n + 1 => match s.hostWaits with
    | [] => s
    | (k, addr, data) :: t => match hostServe { s with hostWaits := t } k addr data with
      | some s' => pumpHost s' n
      | none => s

/-- HOST_ACCESS: kind 0 and 1 read and write BAR0, 2 and 3 BAR2, 4 and 5 the CXL.mem range, 6 and 7 the host's own memory
through its own caches; 8 to 10 FetchAdd, Swap and CAS at BAR2, 11 to 13 at the CXL.mem range. A read returns as many bytes
as `data` has; `hostOut` holds what the host gets. An access to a reserved bank waits, and those after it wait behind it.
DESIGN CHOICE, log entry 55. -/
def execHostAccess (kind : BitVec 4) (addr : Nat) (data : List Byte) (s : State) : Host.Outcome State Fault Refusal :=
  let s := deliverPosted s
  let k := kind.toNat
  let n := data.length
  if k = 6 ∨ k = 7 then
    if 2 ^ 48 < addr + n then .next (hostDone s 1 [])
    else if k = 6 then .next (hostDone s 0 (readBytes s (2 ^ 51 + addr) n))
    else .next (hostDone (writeBytes s (2 ^ 51 + addr) data) 0 [])
  else if s.pstate = 4 then .next s
  else .next (pumpHost { s with hostWaits := s.hostWaits ++ [(k, addr, data)] } (s.hostWaits.length + 1))

/-- A host write of a device-wide register goes through BAR0, behind the host's earlier accesses (R328, R363). -/
def hostRegWrite (n : Nat) (v : BitVec 64) (s : State) : Host.Outcome State Fault Refusal :=
  execHostAccess 1 (8 * n) (toBytes 8 v.toNat) s

/-- LQBASE_WRITE, LQTAIL_WRITE, LQHEAD_WRITE, PWRCAP_WRITE by the host; a queue number above 15 names no register. -/
def execLqbaseWrite (q : Nat) (v : BitVec 64) (s : State) : Host.Outcome State Fault Refusal :=
  if q < 16 then hostRegWrite (0x100 + q) v s else .next s
def execLqtailWrite (q : Nat) (v : BitVec 64) (s : State) : Host.Outcome State Fault Refusal :=
  if q < 16 then hostRegWrite (0x110 + q) v s else .next s
def execLqheadWrite (q : Nat) (v : BitVec 64) (s : State) : Host.Outcome State Fault Refusal :=
  if q < 16 then hostRegWrite (0x120 + q) v s else .next s
def execPwrcapWrite (v : BitVec 64) (s : State) : Host.Outcome State Fault Refusal := hostRegWrite 0x150 v s

/-- What waits at port 0 is tried again. -/
def retryHost (s : State) : Host.Outcome State Fault Refusal := .next (pumpHost s s.hostWaits.length)

/-! ### The far tier's links (R364) -/

def putFar (s : State) (dev : Nat) (f : FarDev → FarDev) : State :=
  { s with far := s.far.map fun x => if x.dev = dev then f x else x }

/-- FAR_LINK_DOWN: requests wait. DETAIL of the event is the device's number (R377). DESIGN CHOICE, log entry 51. -/
def execFarLinkDown (dev : Nat) (s : State) : Host.Outcome State Fault Refusal :=
  if s.far.any fun x => x.dev = dev && x.down.isNone then
    .next (logEvent (putFar s dev fun x => { x with down := some s.stamp }) 0x5203 2 dev)
  else .next s

/-- What waited for the link of a far-tier device and is no event of its own goes on: flits, promotions, the ends of fault domains,
and the records of the system ring (R85). -/
def farAgain (s : State) : State :=
  let s := s.passing.foldl (fun s x => passFlit s x.1 x.2) { s with passing := [] }
  let s := endWaiting (askAgain s)
  flushRecs s s.recs

/-- FAR_LOST_TIMEOUT: after more than 2 ms the lines are lost. -/
def execFarLostTimeout (dev : Nat) (s : State) : Host.Outcome State Fault Refusal :=
  .next (if s.far.any fun x => x.dev = dev && !x.lost && x.down.any fun t => decide (t + 2000000 < s.stamp)
    then farAgain (putFar s dev fun x => { x with lost := true }) else s)

/-- FAR_LINK_UP: the lines are reachable again. -/
def execFarLinkUp (dev : Nat) (s : State) : Host.Outcome State Fault Refusal :=
  if s.far.any fun x => x.dev = dev && x.down.isSome then
    .next (farAgain (logEvent (putFar s dev fun x => { x with down := none, lost := false }) 0x5203 3 dev))
  else .next s

end Sys2Proof.Machine
end

