-- ==== Sys2Proof/Machine/Dispatch.lean ====
section
/-! DEFINITION. The one dispatch: every constructor of Instr to its meaning. -/

namespace Sys2Proof.Machine

open Sys2Proof

def exec (i : Instr) (s : State) : Host.Outcome State Fault Refusal :=
  match i with
  | .add d a b st => Sys2Proof.Machine.execAdd d a b st s
  | .sub d a b st => Sys2Proof.Machine.execSub d a b st s
  | .andR d a b st => Sys2Proof.Machine.execAndR d a b st s
  | .orR d a b st => Sys2Proof.Machine.execOrR d a b st s
  | .xorR d a b st => Sys2Proof.Machine.execXorR d a b st s
  | .sll d a b st => Sys2Proof.Machine.execSll d a b st s
  | .srl d a b st => Sys2Proof.Machine.execSrl d a b st s
  | .sra d a b st => Sys2Proof.Machine.execSra d a b st s
  | .mul d a b st => Sys2Proof.Machine.execMul d a b st s
  | .mulh d a b st => Sys2Proof.Machine.execMulh d a b st s
  | .div d a b st => Sys2Proof.Machine.execDiv d a b st s
  | .rem d a b st => Sys2Proof.Machine.execRem d a b st s
  | .min d a b st => Sys2Proof.Machine.execMin d a b st s
  | .max d a b st => Sys2Proof.Machine.execMax d a b st s
  | .minn d a b st => Sys2Proof.Machine.execMinn d a b st s
  | .maxn d a b st => Sys2Proof.Machine.execMaxn d a b st s
  | .mov d a st => Sys2Proof.Machine.execMov d a st s
  | .cmpEq d a b st => Sys2Proof.Machine.execCmpEq d a b st s
  | .cmpNe d a b st => Sys2Proof.Machine.execCmpNe d a b st s
  | .cmpLt d a b st => Sys2Proof.Machine.execCmpLt d a b st s
  | .cmpGe d a b st => Sys2Proof.Machine.execCmpGe d a b st s
  | .cmpLtn d a b st => Sys2Proof.Machine.execCmpLtn d a b st s
  | .cmpGen d a b st => Sys2Proof.Machine.execCmpGen d a b st s
  | .sel d a b st => Sys2Proof.Machine.execSel d a b st s
  | .clz d a st => Sys2Proof.Machine.execClz d a st s
  | .popc d a st => Sys2Proof.Machine.execPopc d a st s
  | .bdep d a b st => Sys2Proof.Machine.execBdep d a b st s
  | .bxtr d a b st => Sys2Proof.Machine.execBxtr d a b st s
  | .addi d a k0 st => Sys2Proof.Machine.execAddi d a k0 st s
  | .andi d a k0 st => Sys2Proof.Machine.execAndi d a k0 st s
  | .ori d a k0 st => Sys2Proof.Machine.execOri d a k0 st s
  | .xori d a k0 st => Sys2Proof.Machine.execXori d a k0 st s
  | .slli d a k st => Sys2Proof.Machine.execSlli d a k st s
  | .srli d a k st => Sys2Proof.Machine.execSrli d a k st s
  | .srai d a k st => Sys2Proof.Machine.execSrai d a k st s
  | .lim d k0 st => Sys2Proof.Machine.execLim d k0 st s
  | .jal d o st => Sys2Proof.Machine.execJal d o st s
  | .jr d a k0 st => Sys2Proof.Machine.execJr d a k0 st s
  | .brEq a b o st => Sys2Proof.Machine.execBrEq a b o st s
  | .brNe a b o st => Sys2Proof.Machine.execBrNe a b o st s
  | .brLt a b o st => Sys2Proof.Machine.execBrLt a b o st s
  | .brGe a b o st => Sys2Proof.Machine.execBrGe a b o st s
  | .brLtn a b o st => Sys2Proof.Machine.execBrLtn a b o st s
  | .brGen a b o st => Sys2Proof.Machine.execBrGen a b o st s
  | .loop a o st => Sys2Proof.Machine.execLoop a o st s
  | .ldB d b x o st => Sys2Proof.Machine.execLdB d b x o st s
  | .ldH d b x o st => Sys2Proof.Machine.execLdH d b x o st s
  | .ldW d b x o st => Sys2Proof.Machine.execLdW d b x o st s
  | .ldD d b o st => Sys2Proof.Machine.execLdD d b o st s
  | .stB d b f o st => Sys2Proof.Machine.execStB d b f o st s
  | .stH d b f o st => Sys2Proof.Machine.execStH d b f o st s
  | .stW d b f o st => Sys2Proof.Machine.execStW d b f o st s
  | .stD d b f o st => Sys2Proof.Machine.execStD d b f o st s
  | .ldAcq d b z c o st => Sys2Proof.Machine.execLdAcq d b z c o st s
  | .stRel d b z c o st => Sys2Proof.Machine.execStRel d b z c o st s
  | .amoAddW d a b c st => Sys2Proof.Machine.execAmoAddW d a b c st s
  | .amoAndW d a b c st => Sys2Proof.Machine.execAmoAndW d a b c st s
  | .amoOrW d a b c st => Sys2Proof.Machine.execAmoOrW d a b c st s
  | .amoXorW d a b c st => Sys2Proof.Machine.execAmoXorW d a b c st s
  | .amoMinW d a b c st => Sys2Proof.Machine.execAmoMinW d a b c st s
  | .amoMaxW d a b c st => Sys2Proof.Machine.execAmoMaxW d a b c st s
  | .amoMinnW d a b c st => Sys2Proof.Machine.execAmoMinnW d a b c st s
  | .amoMaxnW d a b c st => Sys2Proof.Machine.execAmoMaxnW d a b c st s
  | .amoSwapW d a b c st => Sys2Proof.Machine.execAmoSwapW d a b c st s
  | .casW d a b c st => Sys2Proof.Machine.execCasW d a b c st s
  | .amoAddD d a b c st => Sys2Proof.Machine.execAmoAddD d a b c st s
  | .amoAndD d a b c st => Sys2Proof.Machine.execAmoAndD d a b c st s
  | .amoOrD d a b c st => Sys2Proof.Machine.execAmoOrD d a b c st s
  | .amoXorD d a b c st => Sys2Proof.Machine.execAmoXorD d a b c st s
  | .amoMinD d a b c st => Sys2Proof.Machine.execAmoMinD d a b c st s
  | .amoMaxD d a b c st => Sys2Proof.Machine.execAmoMaxD d a b c st s
  | .amoMinnD d a b c st => Sys2Proof.Machine.execAmoMinnD d a b c st s
  | .amoMaxnD d a b c st => Sys2Proof.Machine.execAmoMaxnD d a b c st s
  | .amoSwapD d a b c st => Sys2Proof.Machine.execAmoSwapD d a b c st s
  | .casD d a b c st => Sys2Proof.Machine.execCasD d a b c st s
  | .vld c b h w st => Sys2Proof.Machine.execVld c b h w st s
  | .vst c b h w f st => Sys2Proof.Machine.execVst c b h w f st s
  | .vldx d b k0 z st => Sys2Proof.Machine.execVldx d b k0 z st s
  | .vstx d b k0 z f st => Sys2Proof.Machine.execVstx d b k0 z f st s
  | .vadd d a h w st => Sys2Proof.Machine.execVadd d a h w st s
  | .vsub d a h w st => Sys2Proof.Machine.execVsub d a h w st s
  | .vadds d a h w st => Sys2Proof.Machine.execVadds d a h w st s
  | .vsubs d a h w st => Sys2Proof.Machine.execVsubs d a h w st s
  | .vmin d a h w st => Sys2Proof.Machine.execVmin d a h w st s
  | .vmax d a h w st => Sys2Proof.Machine.execVmax d a h w st s
  | .vabs d a h w st => Sys2Proof.Machine.execVabs d a h w st s
  | .vneg d a h w st => Sys2Proof.Machine.execVneg d a h w st s
  | .vand d a h w st => Sys2Proof.Machine.execVand d a h w st s
  | .vor d a h w st => Sys2Proof.Machine.execVor d a h w st s
  | .vxor d a h w st => Sys2Proof.Machine.execVxor d a h w st s
  | .vshl d a h w st => Sys2Proof.Machine.execVshl d a h w st s
  | .vshr d a h w st => Sys2Proof.Machine.execVshr d a h w st s
  | .vcmp d a h w st => Sys2Proof.Machine.execVcmp d a h w st s
  | .vsel d a h w st => Sys2Proof.Machine.execVsel d a h w st s
  | .vmov d a h w st => Sys2Proof.Machine.execVmov d a h w st s
  | .vmul d a h w st => Sys2Proof.Machine.execVmul d a h w st s
  | .cmul d a h w st => Sys2Proof.Machine.execCmul d a h w st s
  | .cmulc d a h w st => Sys2Proof.Machine.execCmulc d a h w st s
  | .vcvt d a h w st => Sys2Proof.Machine.execVcvt d a h w st s
  | .vbfly d a h w st => Sys2Proof.Machine.execVbfly d a h w st s
  | .vperm d a h w st => Sys2Proof.Machine.execVperm d a h w st s
  | .vbcast d a h w st => Sys2Proof.Machine.execVbcast d a h w st s
  | .vred d a h w st => Sys2Proof.Machine.execVred d a h w st s
  | .pand d a st => Sys2Proof.Machine.execPand d a st s
  | .por d a st => Sys2Proof.Machine.execPor d a st s
  | .pnot d a st => Sys2Proof.Machine.execPnot d a st s
  | .vfma d a b w h st => Sys2Proof.Machine.execVfma d a b w h st s
  | .vfms d a b w h st => Sys2Proof.Machine.execVfms d a b w h st s
  | .cfma d a b w h st => Sys2Proof.Machine.execCfma d a b w h st s
  | .cfmac d a b w h st => Sys2Proof.Machine.execCfmac d a b w h st s
  | .csrr r n st => Sys2Proof.Machine.execCsrr r n st s
  | .csrw r n st => Sys2Proof.Machine.execCsrw r n st s
  | .csrs r n st => Sys2Proof.Machine.execCsrs r n st s
  | .csrc r n st => Sys2Proof.Machine.execCsrc r n st s
  | .fenceFull c st => Sys2Proof.Machine.execFenceFull c st s
  | .fenceAcq c st => Sys2Proof.Machine.execFenceAcq c st s
  | .fenceRel c st => Sys2Proof.Machine.execFenceRel c st s
  | .fenceAck st => Sys2Proof.Machine.execFenceAck st s
  | .wait a b c z st => Sys2Proof.Machine.execWait a b c z st s
  | .pf a k st => Sys2Proof.Machine.execPf a k st s
  | .trap k st => Sys2Proof.Machine.execTrap k st s
  | .eret st => Sys2Proof.Machine.execEret st s
  | .tlbinvPage a st => Sys2Proof.Machine.execTlbinvPage a st s
  | .tlbinvTag a st => Sys2Proof.Machine.execTlbinvTag a st s
  | .tlbinvAll a st => Sys2Proof.Machine.execTlbinvAll a st s
  | .fenceI st => Sys2Proof.Machine.execFenceI st s
  | .pause k st => Sys2Proof.Machine.execPause k st s
  | .taskEnd st => Sys2Proof.Machine.execTaskEnd st s
  | .spawn a b st => Sys2Proof.Machine.execSpawn a b st s
  | .yield a st => Sys2Proof.Machine.execYield a st s
  | .cntInit a b st => Sys2Proof.Machine.execCntInit a b st s
  | .barInit a b st => Sys2Proof.Machine.execBarInit a b st s
  | .barArrive a st => Sys2Proof.Machine.execBarArrive a st s
  | .barWait a b st => Sys2Proof.Machine.execBarWait a b st s
  | .barLink a b st => Sys2Proof.Machine.execBarLink a b st s
  | .phase a st => Sys2Proof.Machine.execPhase a st s
  | .sleep a w st => Sys2Proof.Machine.execSleep a w st s
  | .teamBind a b st => Sys2Proof.Machine.execTeamBind a b st s
  | .hand a b rcv snd st => Sys2Proof.Machine.execHand a b rcv snd st s
  | .mark st => Sys2Proof.Machine.execMark st s
  | .driftSet bound st => Sys2Proof.Machine.execDriftSet bound st s
  | .realign st => Sys2Proof.Machine.execRealign st s
  | .teamEnd st => Sys2Proof.Machine.execTeamEnd st s
  | .mreqRead a t st => Sys2Proof.Machine.execMreqRead a t st s
  | .mreqWrite d a t st => Sys2Proof.Machine.execMreqWrite d a t st s
  | .pgmove d a k t st => Sys2Proof.Machine.execPgmove d a k t st s
  | .pghot d a c st => Sys2Proof.Machine.execPghot d a c st s
  | .pgabort d a st => Sys2Proof.Machine.execPgabort d a st s
  | .send d a o st => Sys2Proof.Machine.execSend d a o st s
  | .portOpen d a st => Sys2Proof.Machine.execPortOpen d a st s
  | .portClose d st => Sys2Proof.Machine.execPortClose d st s
  | .treeInj d a st => Sys2Proof.Machine.execTreeInj d a st s
  | .treeExt d a st => Sys2Proof.Machine.execTreeExt d a st s
  | .cpy d a st => Sys2Proof.Machine.execCpy d a st s
  | .cpyTry d a st => Sys2Proof.Machine.execCpyTry d a st s
  | .cpyid d a st => Sys2Proof.Machine.execCpyid d a st s
  | .cpywait a st => Sys2Proof.Machine.execCpywait a st s
  | .sbind d a n st => Sys2Proof.Machine.execSbind d a n st s
  | .sfree d n st => Sys2Proof.Machine.execSfree d n st s
  | .sstat d n st => Sys2Proof.Machine.execSstat d n st s
  | .dictLd a k st => Sys2Proof.Machine.execDictLd a k st s
  | .launch a st => Sys2Proof.Machine.execLaunch a st s
  | .launchTry d a st => Sys2Proof.Machine.execLaunchTry d a st s
  | .axdef d a b st => Sys2Proof.Machine.execAxdef d a b st s
  | .axdefRelease d b st => Sys2Proof.Machine.execAxdefRelease d b st s
  | .mapSet d a b st => Sys2Proof.Machine.execMapSet d a b st s
  | .mapSwap d a b st => Sys2Proof.Machine.execMapSwap d a b st s
  | .mapRd d a b st => Sys2Proof.Machine.execMapRd d a b st s
  | .remap d a b st => Sys2Proof.Machine.execRemap d a b st s
  | .rmwait a st => Sys2Proof.Machine.execRmwait a st s
  | .axld d a b st => Sys2Proof.Machine.execAxld d a b st s
  | .axst d a b st => Sys2Proof.Machine.execAxst d a b st s
  | .axctx a st => Sys2Proof.Machine.execAxctx a st s
  | .axmat a b st => Sys2Proof.Machine.execAxmat a b st s
  | .axap d a b st => Sys2Proof.Machine.execAxap d a b st s
  | .axmm d a st => Sys2Proof.Machine.execAxmm d a st s
  | .axdrain d a b st => Sys2Proof.Machine.execAxdrain d a b st s
  | .axstat d a st => Sys2Proof.Machine.execAxstat d a st s
  | .axwait a st => Sys2Proof.Machine.execAxwait a st s
  | .cMov a d => Sys2Proof.Machine.execCMov a d s
  | .cAdd a d => Sys2Proof.Machine.execCAdd a d s
  | .cSub a d => Sys2Proof.Machine.execCSub a d s
  | .cAnd a d => Sys2Proof.Machine.execCAnd a d s
  | .cOr a d => Sys2Proof.Machine.execCOr a d s
  | .cXor a d => Sys2Proof.Machine.execCXor a d s
  | .cLdD a d => Sys2Proof.Machine.execCLdD a d s
  | .cStD a d => Sys2Proof.Machine.execCStD a d s
  | .cJr a => Sys2Proof.Machine.execCJr a s
  | .cAddi k0 d => Sys2Proof.Machine.execCAddi k0 d s
  | .cLim k0 d => Sys2Proof.Machine.execCLim k0 d s
  | .cSlli k d => Sys2Proof.Machine.execCSlli k d s
  | .cSrli k d => Sys2Proof.Machine.execCSrli k d s
  | .cSrai k d => Sys2Proof.Machine.execCSrai k d s
  | .cAndi k0 d => Sys2Proof.Machine.execCAndi k0 d s
  | .cBrEq o a => Sys2Proof.Machine.execCBrEq o a s
  | .cBrNe o a => Sys2Proof.Machine.execCBrNe o a s
  | .cBrLt o a => Sys2Proof.Machine.execCBrLt o a s
  | .cBrGe o a => Sys2Proof.Machine.execCBrGe o a s
  | .cJmp o => Sys2Proof.Machine.execCJmp o s
  | .role n m => Sys2Proof.Machine.execRole n m s
  | .cpydoneRead ch r st => Sys2Proof.Machine.execCpydoneRead ch r st s
  | .axdoneRead r st => Sys2Proof.Machine.execAxdoneRead r st s
  | .pathdoneRead p r st => Sys2Proof.Machine.execPathdoneRead p r st s
  | .sterrClear r st => Sys2Proof.Machine.execSterrClear r st s
  | .cpyerrClear ch r st => Sys2Proof.Machine.execCpyerrClear ch r st s
  | .axerrClear r st => Sys2Proof.Machine.execAxerrClear r st s
  | .teamerrClear r st => Sys2Proof.Machine.execTeamerrClear r st s
  | .slwinWrite w r st => Sys2Proof.Machine.execSlwinWrite w r st s
  | .stpathWrite r st => Sys2Proof.Machine.execStpathWrite r st s
  | .vtypeWrite r st => Sys2Proof.Machine.execVtypeWrite r st s
  | .vauxWrite r st => Sys2Proof.Machine.execVauxWrite r st s
  | .lpctlWrite k r st => Sys2Proof.Machine.execLpctlWrite k r st s
  | .vrandWrite r st => Sys2Proof.Machine.execVrandWrite r st s
  | .motionctlWrite r st => Sys2Proof.Machine.execMotionctlWrite r st s
  | .mrecptrWrite r st => Sys2Proof.Machine.execMrecptrWrite r st s
  | .evptrWrite r st => Sys2Proof.Machine.execEvptrWrite r st s
  | .lqbaseWrite q v => Sys2Proof.Machine.execLqbaseWrite q v s
  | .lqtailWrite q v => Sys2Proof.Machine.execLqtailWrite q v s
  | .lqheadWrite q v => Sys2Proof.Machine.execLqheadWrite q v s
  | .pwrcapWrite v => Sys2Proof.Machine.execPwrcapWrite v s
  | .storeBufferDrain ctx => Sys2Proof.Machine.execStoreBufferDrain ctx s
  | .homeRequest k0 => Sys2Proof.Machine.execHomeRequest k0 s
  | .storeAck k0 => Sys2Proof.Machine.execStoreAck k0 s
  | .loadReply k0 => Sys2Proof.Machine.execLoadReply k0 s
  | .replayNotice ctx => Sys2Proof.Machine.execReplayNotice ctx s
  | .waitWake ctx => Sys2Proof.Machine.execWaitWake ctx s
  | .waitPoll ctx => Sys2Proof.Machine.execWaitPoll ctx s
  | .mreqReply k0 => Sys2Proof.Machine.execMreqReply k0 s
  | .rowReservationTimeout k0 => Sys2Proof.Machine.execRowReservationTimeout k0 s
  | .pageWalk ctx va acc => Sys2Proof.Machine.execPageWalk ctx va acc s
  | .pagerReply ctx => Sys2Proof.Machine.execPagerReply ctx s
  | .engineFaultReply ctx => Sys2Proof.Machine.execEngineFaultReply ctx s
  | .turnipMotionStart die => Sys2Proof.Machine.execTurnipMotionStart die s
  | .turnipCopyStep die k0 => Sys2Proof.Machine.execTurnipCopyStep die k0 s
  | .sweepComplete die k0 => Sys2Proof.Machine.execSweepComplete die k0 s
  | .epochEnd => Sys2Proof.Machine.execEpochEnd s
  | .copyStart core => Sys2Proof.Machine.execCopyStart core s
  | .copyComplete core => Sys2Proof.Machine.execCopyComplete core s
  | .dictFillComplete tile => Sys2Proof.Machine.execDictFillComplete tile s
  | .streamFetch ctx n => Sys2Proof.Machine.execStreamFetch ctx n s
  | .streamWrite ctx n => Sys2Proof.Machine.execStreamWrite ctx n s
  | .portRouteOpen core => Sys2Proof.Machine.execPortRouteOpen core s
  | .recordArrival k0 => Sys2Proof.Machine.execRecordArrival k0 s
  | .counterDecrement k0 => Sys2Proof.Machine.execCounterDecrement k0 s
  | .barrierArrival k0 => Sys2Proof.Machine.execBarrierArrival k0 s
  | .barrierRelease k0 => Sys2Proof.Machine.execBarrierRelease k0 s
  | .treeContribution ctx => Sys2Proof.Machine.execTreeContribution ctx s
  | .treeResult k0 => Sys2Proof.Machine.execTreeResult k0 s
  | .taskStart ctx => Sys2Proof.Machine.execTaskStart ctx s
  | .teamStart core => Sys2Proof.Machine.execTeamStart core s
  | .axisRequestStart tile => Sys2Proof.Machine.execAxisRequestStart tile s
  | .axisRequestComplete tile => Sys2Proof.Machine.execAxisRequestComplete tile s
  | .fennelExchangeStep tile slot => Sys2Proof.Machine.execFennelExchangeStep tile slot s
  | .issueChoice core => Sys2Proof.Machine.execIssueChoice core s
  | .lowPrecedenceStart core => Sys2Proof.Machine.execLowPrecedenceStart core s
  | .lowPrecedenceEnd core => Sys2Proof.Machine.execLowPrecedenceEnd core s
  | .pauseEnd ctx => Sys2Proof.Machine.execPauseEnd ctx s
  | .sleepWake ctx => Sys2Proof.Machine.execSleepWake ctx s
  | .realignTimeout ctx => Sys2Proof.Machine.execRealignTimeout ctx s
  | .dispatcherTakeRecord q => Sys2Proof.Machine.execDispatcherTakeRecord q s
  | .regionGrant die => Sys2Proof.Machine.execRegionGrant die s
  | .duskSave rcb => Sys2Proof.Machine.execDuskSave rcb s
  | .duskRestore rcb => Sys2Proof.Machine.execDuskRestore rcb s
  | .budgetExhausted rcb => Sys2Proof.Machine.execBudgetExhausted rcb s
  | .regionDone rcb => Sys2Proof.Machine.execRegionDone rcb s
  | .utilFlush cluster => Sys2Proof.Machine.execUtilFlush cluster s
  | .eventPost => Sys2Proof.Machine.execEventPost s
  | .softError loc corrected => Sys2Proof.Machine.execSoftError loc corrected s
  | .noonSample watts => Sys2Proof.Machine.execNoonSample watts s
  | .enterP2 => Sys2Proof.Machine.execEnterP2 s
  | .p2Wake => Sys2Proof.Machine.execP2Wake s
  | .p3Exit => Sys2Proof.Machine.execP3Exit s
  | .dawn absent links => Sys2Proof.Machine.execDawn absent links s
  | .mailboxImage image => Sys2Proof.Machine.execMailboxImage image s
  | .mailboxAttest nonce => Sys2Proof.Machine.execMailboxAttest nonce s
  | .mailboxDebugToken token => Sys2Proof.Machine.execMailboxDebugToken token s
  | .mailboxPowerCommand state => Sys2Proof.Machine.execMailboxPowerCommand state s
  | .mailboxDuskSave rcb => Sys2Proof.Machine.execMailboxDuskSave rcb s
  | .hostAccess kind addr data => Sys2Proof.Machine.execHostAccess kind addr data s
  | .hostCompletion ctx status data => Sys2Proof.Machine.execHostCompletion ctx status data s
  | .farLinkDown dev => Sys2Proof.Machine.execFarLinkDown dev s
  | .farLostTimeout dev => Sys2Proof.Machine.execFarLostTimeout dev s
  | .farLinkUp dev => Sys2Proof.Machine.execFarLinkUp dev s
  | .goldexFlitReceive link flit => Sys2Proof.Machine.execGoldexFlitReceive link flit s
  | .linkReplayTimeout link => Sys2Proof.Machine.execLinkReplayTimeout link s
  | .retrainStart link => Sys2Proof.Machine.execRetrainStart link s
  | .retrainEnd link up => Sys2Proof.Machine.execRetrainEnd link up s
  | .endToEndResend k0 => Sys2Proof.Machine.execEndToEndResend k0 s
  | .bounceTimeout k0 => Sys2Proof.Machine.execBounceTimeout k0 s
  | .timeFlitSend => Sys2Proof.Machine.execTimeFlitSend s
  | .timeFlitReceive link count => Sys2Proof.Machine.execTimeFlitReceive link count s
  | .illegalInstruction => Sys2Proof.Machine.execIllegalInstruction s
  | .fetchFault => Sys2Proof.Machine.execFetchFault s

end Sys2Proof.Machine
end

