-- ==== Sys2Proof/Machine/Run.lean ====
section
/-! DEFINITION. How the device runs: one step issues the instruction of the focus, or lets one event of the device happen, or
takes the next event of the outside world from the agenda; then time passes. The choice among what may happen is the
model's schedule: plain data of the state (`who`, `tick`, `agenda`), never a fact of the hardware. -/

namespace Sys2Proof.Machine

open Sys2Proof

/-! ### Events -/

/-- Is this row of the table an event of the device or of the outside world, which an agenda may hold? DESIGN CHOICE, log
entry 24. -/
def Instr.isEvent : Instr → Bool
  | .storeBufferDrain _ | .homeRequest _ | .storeAck _ | .loadReply _ | .replayNotice _ | .waitWake _ | .waitPoll _
  | .mreqReply _ | .rowReservationTimeout _ | .pageWalk _ _ _ | .pagerReply _ | .engineFaultReply _
  | .turnipMotionStart _ | .turnipCopyStep _ _ | .sweepComplete _ _ | .epochEnd | .copyStart _ | .copyComplete _
  | .dictFillComplete _ | .streamFetch _ _ | .streamWrite _ _ | .portRouteOpen _ | .recordArrival _
  | .counterDecrement _ | .barrierArrival _ | .barrierRelease _ | .treeContribution _ | .treeResult _ | .taskStart _
  | .teamStart _ | .axisRequestStart _ | .axisRequestComplete _ | .fennelExchangeStep _ _ | .issueChoice _
  | .lowPrecedenceStart _ | .lowPrecedenceEnd _ | .pauseEnd _ | .sleepWake _ | .realignTimeout _
  | .dispatcherTakeRecord _ | .regionGrant _ | .duskSave _ | .duskRestore _ | .budgetExhausted _ | .regionDone _
  | .utilFlush _ | .eventPost | .softError _ _ | .noonSample _ | .enterP2 | .p2Wake | .p3Exit | .dawn _ _
  | .mailboxImage _ | .mailboxAttest _ | .mailboxDebugToken _ | .mailboxPowerCommand _ | .mailboxDuskSave _
  | .hostAccess _ _ _ | .hostCompletion _ _ _ | .farLinkDown _ | .farLostTimeout _ | .farLinkUp _
  | .goldexFlitReceive _ _ | .linkReplayTimeout _ | .retrainStart _ | .retrainEnd _ _ | .endToEndResend _
  | .bounceTimeout _ | .timeFlitSend | .timeFlitReceive _ _ | .lqbaseWrite _ _ | .lqtailWrite _ _ | .lqheadWrite _ _
  | .pwrcapWrite _ => true
  | _ => false

/-- A state carried through an outcome. -/
def after (f : State → State) : Host.Outcome State Fault Refusal → Host.Outcome State Fault Refusal
  | .next s => .next (f s)
  | .fault r => .fault r
  | .refused r => .refused r

/-! ### What may happen next in the device itself -/

/-- The meaning of an event, its operands given. -/
abbrev Happening := State → Host.Outcome State Fault Refusal

/-- The focus moves to an engine member that may issue. -/
def engineTurn (a : Nat) (s : State) : Host.Outcome State Fault Refusal :=
  .next (if isEngine a && fresh s a then focus s a else s)

/-- Events of one context or engine member. -/
def ctxEvents (a : Nat) : List Happening :=
  [execStoreBufferDrain a, execReplayNotice a, execWaitWake a, execWaitPoll a, execPagerReply a, execEngineFaultReply a, execPauseEnd a, execSleepWake a,
    execRealignTimeout a, engineTurn a] ++
    (List.range 8).flatMap fun n => [execStreamFetch a n, execStreamWrite a n]

/-- Events of one core. -/
def coreEvents (k : Nat) : List Happening :=
  [execIssueChoice k, execCopyStart k, execCopyComplete k, execPortRouteOpen k, execLowPrecedenceStart k, execLowPrecedenceEnd k]

/-- Events of one tile. -/
def tileEvents (t : Nat) : List Happening := [execAxisRequestStart t, execAxisRequestComplete t, execDictFillComplete t]

/-- Events of one granted cluster, its team's start among them: any core of it stands for the cluster. -/
def clusterEvents (cl : Nat) : List Happening :=
  [execTeamStart (64 * cl), execUtilFlush cl] ++
    (List.range 128).flatMap fun x => [execTaskStart (128 * cl + x), execTreeContribution (128 * cl + x)]

def netEvents (i : Nat) : List Happening :=
  [execHomeRequest i, execRecordArrival i, execCounterDecrement i, execBarrierArrival i, execBarrierRelease i]
def replyEvents (i : Nat) : List Happening := [execStoreAck i, execLoadReply i, execMreqReply i]
def dieEvents (s : State) (d : Nat) : List Happening :=
  [execTurnipMotionStart d, execRegionGrant d] ++
    (List.range (getDie s d).active.length).flatMap fun i => [execTurnipCopyStep d i, execSweepComplete d i]
def regionEvents (g : Region) : List Happening :=
  [execDuskSave g.rcb, execDuskRestore g.rcb, execBudgetExhausted g.rcb, execRegionDone g.rcb]

/-- Tiles whose axis unit or transfer unit has something to do. -/
def busyTiles (s : State) : List Nat :=
  (s.tiles.map (·.1) ++ (s.cores.filter fun c => !c.2.axq.isEmpty).flatMap fun c =>
    c.1 / 4 :: (c.2.axq.flatMap fun r => r.left)).dedup

/-- Every event of the device that may have an effect. Events of the outside world (a host access, a flit, an error, a
power reading, Dawn) are not among them: the agenda brings them. -/
def ownEvents (s : State) : List Happening :=
  (s.who :: s.parked.map (·.1)).flatMap ctxEvents ++
  (coreOf s.who :: s.cores.map (·.1) ++ s.parked.map (fun c => coreOf c.1)).dedup.flatMap coreEvents ++
  (busyTiles s).flatMap tileEvents ++
  (s.arrays.flatMap fun a => a.tiles.map fun t => execFennelExchangeStep t a.slot) ++
  (s.regions.flatMap fun g => g.clusters.flatMap clusterEvents) ++
  (List.range s.net.length).flatMap netEvents ++
  (List.range s.replies.length).flatMap replyEvents ++
  (List.range s.results.length).map execTreeResult ++
  (List.range s.reserved.length).map execRowReservationTimeout ++
  [0, 1, 2, 3].flatMap (dieEvents s) ++
  (List.range 16).map execDispatcherTakeRecord ++
  s.regions.flatMap regionEvents ++
  s.far.map (fun f => execFarLostTimeout f.dev) ++
  (s.links.flatMap fun l => execLinkReplayTimeout l.1 :: if 8 ≤ l.2.failed then [execRetrainStart l.1] else []) ++
  (s.gtx.map (·.dst) ++ s.grx.map (·.src) ++ s.remotes.map remoteDev).dedup.map execEndToEndResend ++
  ((List.range s.remotes.length).filter fun i => (s.remotes[i]?).any fun r => !reachable s (remoteDev r)).map execBounceTimeout ++
  [retryHost, execEpochEnd, execEventPost, execEnterP2, execP2Wake, execP3Exit, execTimeFlitSend]

/-- The first event of a list that changes the state happens; with none, nothing does. -/
def firstEffect (s : State) : List Happening → Host.Outcome State Fault Refusal
  | [] => .next s
  | e :: t => match e s with
    | .next s' => if s' = s then firstEffect s t else .next s'
    | r => r

/-- One event of the device, the list turned by the count of steps so that each has its turn. DESIGN CHOICE, log entry 1. -/
def ownEvent (s : State) : Host.Outcome State Fault Refusal :=
  let l := ownEvents s
  let k := s.tick / 2 % (l.length + 1)
  firstEffect s (l.drop k ++ l.take k)

/-! ### The instruction of the focus -/

/-- An instruction that could not issue is tried again. -/
def retryCtx (c : Ctx) : Ctx := if c.wait = .stalled then { c with wait := .ready } else c

/-- Would what stands at the pc of the focus issue now? A role prefix issues with what follows it (R46). -/
def wouldIssue : Nat → State → Bool
  | 0, _ => false
  | n + 1, s => match fetchAt s s.cur.pc with
    | .instr i t => (s.cur.loads.isEmpty || passesLoads s.cur i) &&
      match exec i t, i with
      | .next u, .role _ _ => hasIssued u i || (u.cur.wait = .ready && wouldIssue n u)
      | .next u, _ => hasIssued u i
      | _, _ => true
    | .illegal _ | .fault _ => s.cur.loads.isEmpty
    | .wait _ => false

/-- R316: is a context ready, one whose instruction could not issue earlier among them? It is while nothing holds that instruction:
no wait of R289, no short operand, no busy datapath. -/
def issuable (s : State) (a : Nat) : Bool :=
  let t := focus s a
  let t := { t with cur := retryCtx t.cur }
  ready t a && wouldIssue 2 t

/-- R316, R317: the core's other context comes before the focus in this cycle, and its instruction, which could not issue, now
can. -/
def overtaken (s : State) : Bool :=
  let a := if isHigh s.who then s.who + 1 else s.who - 1
  !isEngine s.who && (getCtx s a).wait = .stalled && (getCore s (coreOf s.who)).lowFirst (cycleOf s a) == isHigh s.who &&
    decide ((getCtx s a).busyTill ≤ cycleOf s a ∧ cycleOf s a ≤ 2 * s.stamp + 1) && issuable s a

/-- May the agent in focus issue now? A core issues from one context at a time (R316); an engine member from its own; neither
before a stall count has elapsed (R28). -/
def mayIssue (s : State) : Bool :=
  if isEngine s.who then fresh s s.who else issuer s (coreOf s.who) = some s.who && !overtaken s

/-- The focus waits before what stands at its pc. -/
def holdFocus (s : State) (w : Wait) : Host.Outcome State Fault Refusal := .next { s with cur := { s.cur with wait := w } }

/-- Run what stands at the pc of the focus (R20, R42, R45), and count the issue (R288, R317). While loads of the context have
no value yet, only what may pass them issues. -/
def issueFocus (s : State) : Host.Outcome State Fault Refusal :=
  let low := issuable s (s.who + 1)
  let free := s.cur.loads.isEmpty
  match fetchAt s s.cur.pc with
  | .instr i t =>
    if free || passesLoads s.cur i then after (fun u => if hasIssued u i then countIssue low u else u) (exec i t)
    else holdFocus t .stalled
  | .illegal t => if free then execIllegalInstruction t else holdFocus t .stalled
  | .fault _ => if free then execFetchFault s else holdFocus s .stalled
  | .wait w => holdFocus s (if free then w else .stalled)

/-! ### Time -/

/-- What could not issue is tried again. -/
def retryAll (s : State) : State :=
  { s with cur := retryCtx s.cur, parked := (s.parked.map fun c => (c.1, retryCtx c.2)).filter (·.2 ≠ {}) }

/-- Counts that pass in a step: time does not stand still for more than three of them. DESIGN CHOICE, log entry 1. -/
def elapse (s : State) : Nat := if s.tick % 4 = 3 then max 1 (Config.freeElapse s.tick) else Config.freeElapse s.tick

/-- The end of a step: every fourth step stalled instructions become ready again; some counts pass, and an epoch whose end they pass
ends with them (R82), and sends that a link reaches begin to wait anew (R369). -/
def clock (s : State) : State :=
  let s := if s.tick % 4 = 3 then retryAll s else s
  let s := if deviceIdle s then s else { s with idleSince := s.stamp }
  let s := keepReachable (endTraining (passTime s (elapse s)))
  let e := if epochDue s then endEpoch s else s
  { s with tick := s.tick + 1, hot := e.hot, dies := e.dies, lastEpoch := e.lastEpoch }

/-! ### Placing an instruction for the next step -/

/-- The address at which `withFetchWord` places code: the start of the focus's own tile's slice. -/
def placePc (s : State) : Word := BitVec.ofNat 64 (0xFFFFFFFFC0000000 + tileOf s.who * 2 ^ 18)

/-- The focus runs, alone on its core, in a region that holds its cluster. -/
def runnable (s : State) : State :=
  let core := coreOf s.who
  let tag := tagOf s s.who
  let rcb := match regionOf s core with
    | some (rcb, _) => rcb
    | none => 0
  let s := { s with cur := { s.cur with run := .running
                                        wait := .ready
                                        busyTill := 0
                                        loads := []
                                        span := 0
                                        buf := s.cur.buf.take 16 } }
  let t := getTile s (tileOf s.who)
  let s := putTile s (tileOf s.who) { t with slown := setBits (setBits t.slown 63 63 1) 11 0 tag
                                             staged := [] }
  let s := if (regionOf s core).isSome then s
    else putCluster s (core / 64) { getCluster s (core / 64) with region := some (rcb, 0) }
  let s := if (findRegion s rcb).isSome then { s with regions := s.regions.map fun g => if g.rcb = rcb then { g with state := 2 } else g }
    else { s with regions := { rcb := rcb, clusters := [core / 64], state := 2 } :: s.regions }
  if isEngine s.who then s
  else
    let c := getCore s core
    putCore s core { c with lowTill := if isHigh s.who then none else some (2 * s.stamp + 1)
                            cycle := 0 }

/-- Bytes at the pc of the focus, in a slice its region owns. DESIGN CHOICE, log entry 9. -/
def placeCode (s0 : State) (bytes : List Byte) : State :=
  let s := runnable s0
  let s := { s with cur := { s.cur with pc := placePc s }
                    sched := { s.sched with keepFetched := false }
                    agenda := []
                    tick := s.tick / 2 * 2 }
  let loc := sliceLoc (tileOf s.who) 0
  writeBytes (setPoison s loc false) loc bytes

end Sys2Proof.Machine
end

