-- ==== Sys2Proof/Machine/Step.lean ====
section
/-! DEFINITION. One step of the machine, and the placing of one instruction for it. -/

namespace Sys2Proof.Machine

open Sys2Proof

/-- One step: the head of the agenda, if it is an event; else, in even steps, the instruction of the focus, if it may issue;
else one event of the device. Then time passes. -/
def step (s : State) : Host.Outcome State Fault Refusal :=
  match s.agenda with
  | e :: rest => if Instr.isEvent e then after clock (exec e { s with agenda := rest }) else .fault .notAnEvent
  | [] => after clock (if s.tick % 2 = 0 && mayIssue s then issueFocus s else ownEvent s)

/-- The state with the low nbits of w, and zeros after them up to four bytes, as the instruction that the next step fetches:
in the slice of the focus's tile, which then holds a running program. -/
def State.withFetchWord (s : State) (nbits w : Nat) : State :=
  placeCode s ((List.range 4).map fun k => BitVec.ofNat 8 (w % 2 ^ nbits / 256 ^ k))

end Sys2Proof.Machine
end

