-- ==== Sys2Proof/Laws/PerInstr.lean ====
section
/-! SUPPORT. Decoding what the encoder writes, constructor by constructor (R49 to R67). -/

namespace Sys2Proof.Laws.RoundTrip

open Sys2Proof

/-- A well-formed instruction that has an encoding comes back from its own bytes, with their number. -/
def Statement (i : Instr) : Prop :=
  i.wf = true → encode i ≠ [] → decodeBytes (encode i) = .ok (i, (encode i).length)

theorem checked_ok {i : Instr} (h : i.wf = true) : checked (.ok i) = .ok i := by
  have : i.check = none := by simpa [Instr.wf] using h
  simp [checked, this]

theorem fld_eq {n w lo : Nat} {x : BitVec n} (h : w / 2 ^ lo % 2 ^ n = x.toNat) : fld w lo n = x := by
  apply BitVec.eq_of_toNat_eq
  simp [fld, bitsOf, h]

theorem zero_ok {w lo n : Nat} {i : Instr} (h : bitsOf w lo n = 0) : needZero w lo n i = .ok i := by
  simp [needZero, h]

/-- A 32-bit instruction. -/
theorem of32 {i : Instr} {w : Nat} (he : encodeWord i = some (32, w)) (hw : w < 2 ^ 32) (hl : w % 4 = 3)
    (hd : i.wf = true → decodeRaw32 w = .ok i) : Statement i := by
  intro h _
  have e : encode i = [BitVec.ofNat 8 w, BitVec.ofNat 8 (w / 256), BitVec.ofNat 8 (w / 65536), BitVec.ofNat 8 (w / 16777216)] := by
    simp [encode, he, List.range_succ]
  have l1 : le16 (BitVec.ofNat 8 w) (BitVec.ofNat 8 (w / 256)) = w % 65536 := by
    simp only [le16, BitVec.toNat_ofNat]; omega
  have l2 : le16 (BitVec.ofNat 8 (w / 65536)) (BitVec.ofNat 8 (w / 16777216)) = w / 65536 := by
    simp only [le16, BitVec.toNat_ofNat]; omega
  have lg : isLong (w % 65536) = true := by
    unfold isLong bitsOf; rw [decide_eq_true_eq]; omega
  have s : w % 65536 + 65536 * (w / 65536) = w := by omega
  rw [e]
  simp only [decodeBytes, l1, l2, lg, s, decode32, hd h, checked_ok h]
  rfl

/-- A 16-bit instruction. -/
theorem of16 {i : Instr} {w : Nat} (he : encodeWord i = some (16, w)) (hw : w < 2 ^ 16) (hl : w % 4 ≠ 3)
    (hd : i.wf = true → decodeRaw16 w = .ok i) : Statement i := by
  intro h _
  have e : encode i = [BitVec.ofNat 8 w, BitVec.ofNat 8 (w / 256)] := by
    simp [encode, he, List.range_succ]
  have l1 : le16 (BitVec.ofNat 8 w) (BitVec.ofNat 8 (w / 256)) = w := by
    simp only [le16, BitVec.toNat_ofNat]; omega
  have lg : isLong w = false := by
    unfold isLong bitsOf; rw [decide_eq_false_iff_not]; omega
  rw [e]
  simp only [decodeBytes, l1, lg, decode16, hd h, checked_ok h]
  rfl

/-- A row without an encoding of its own. -/
theorem ofNone {i : Instr} (he : encodeWord i = none) : Statement i := by
  intro _ h
  exact absurd (by simp [encode, he]) h


theorem bits_sub {w p n g lo m v : Nat} (h : w / 2 ^ p % 2 ^ n = g) (h1 : p ≤ lo) (h2 : lo + m ≤ p + n)
    (e : g / 2 ^ (lo - p) % 2 ^ m = v) : bitsOf w lo m = v := by
  subst h e
  obtain ⟨d, rfl⟩ : ∃ d, lo = p + d := ⟨lo - p, by omega⟩
  obtain ⟨k, rfl⟩ : ∃ k, n = d + m + k := ⟨n - d - m, by omega⟩
  have a : w / 2 ^ p % 2 ^ (d + m + k) / 2 ^ d = w / 2 ^ p / 2 ^ d % 2 ^ (m + k) := by
    rw [show d + m + k = d + (m + k) by omega, Nat.pow_add 2 d, Nat.mod_mul_right_div_self]
  have b : w / 2 ^ p / 2 ^ d % 2 ^ (m + k) % 2 ^ m = w / 2 ^ p / 2 ^ d % 2 ^ m :=
    Nat.mod_mod_of_dvd _ (Nat.pow_dvd_pow 2 (by omega))
  rw [show p + d - p = d by omega, a, b, bitsOf, Nat.pow_add, Nat.div_div_eq_div_mul]

theorem shape0 {w : Nat} (g0 g1 : Nat) (f10 : BitVec 5) (f15 : BitVec 5) (f20 : BitVec 5) (f7 : BitVec 3)
    (hw : g0 * 2 ^ 0 + g1 * 2 ^ 25 + f10.toNat * 2 ^ 10 + f15.toNat * 2 ^ 15 + f20.toNat * 2 ^ 20 + f7.toNat * 2 ^ 7 = w) (k0 : g0 < 2 ^ 7) (k1 : g1 < 2 ^ 7) :
    w < 2 ^ 32 ∧
    w / 2 ^ 0 % 2 ^ 7 = g0 ∧
    w / 2 ^ 25 % 2 ^ 7 = g1 ∧
    fld w 10 5 = f10 ∧
    fld w 15 5 = f15 ∧
    fld w 20 5 = f20 ∧
    fld w 7 3 = f7 := by
  have h0 := f10.isLt; have h1 := f15.isLt; have h2 := f20.isLt; have h3 := f7.isLt
  exact ⟨by omega, by omega, by omega, fld_eq (by omega), fld_eq (by omega), fld_eq (by omega), fld_eq (by omega)⟩
theorem shape1 {w : Nat} (g0 g1 : Nat) (f10 : BitVec 5) (f15 : BitVec 5) (f7 : BitVec 3)
    (hw : g0 * 2 ^ 0 + g1 * 2 ^ 20 + f10.toNat * 2 ^ 10 + f15.toNat * 2 ^ 15 + f7.toNat * 2 ^ 7 = w) (k0 : g0 < 2 ^ 7) (k1 : g1 < 2 ^ 12) :
    w < 2 ^ 32 ∧
    w / 2 ^ 0 % 2 ^ 7 = g0 ∧
    w / 2 ^ 20 % 2 ^ 12 = g1 ∧
    fld w 10 5 = f10 ∧
    fld w 15 5 = f15 ∧
    fld w 7 3 = f7 := by
  have h0 := f10.isLt; have h1 := f15.isLt; have h2 := f7.isLt
  exact ⟨by omega, by omega, by omega, fld_eq (by omega), fld_eq (by omega), fld_eq (by omega)⟩
theorem shape2 {w : Nat} (g0 : Nat) (f10 : BitVec 5) (f15 : BitVec 5) (f20 : BitVec 12) (f7 : BitVec 3)
    (hw : g0 * 2 ^ 0 + f10.toNat * 2 ^ 10 + f15.toNat * 2 ^ 15 + f20.toNat * 2 ^ 20 + f7.toNat * 2 ^ 7 = w) (k0 : g0 < 2 ^ 7) :
    w < 2 ^ 32 ∧
    w / 2 ^ 0 % 2 ^ 7 = g0 ∧
    fld w 10 5 = f10 ∧
    fld w 15 5 = f15 ∧
    fld w 20 12 = f20 ∧
    fld w 7 3 = f7 := by
  have h0 := f10.isLt; have h1 := f15.isLt; have h2 := f20.isLt; have h3 := f7.isLt
  exact ⟨by omega, by omega, fld_eq (by omega), fld_eq (by omega), fld_eq (by omega), fld_eq (by omega)⟩
theorem shape3 {w : Nat} (g0 g1 : Nat) (f10 : BitVec 5) (f15 : BitVec 5) (f20 : BitVec 10) (f7 : BitVec 3)
    (hw : g0 * 2 ^ 0 + g1 * 2 ^ 30 + f10.toNat * 2 ^ 10 + f15.toNat * 2 ^ 15 + f20.toNat * 2 ^ 20 + f7.toNat * 2 ^ 7 = w) (k0 : g0 < 2 ^ 7) (k1 : g1 < 2 ^ 2) :
    w < 2 ^ 32 ∧
    w / 2 ^ 0 % 2 ^ 7 = g0 ∧
    w / 2 ^ 30 % 2 ^ 2 = g1 ∧
    fld w 10 5 = f10 ∧
    fld w 15 5 = f15 ∧
    fld w 20 10 = f20 ∧
    fld w 7 3 = f7 := by
  have h0 := f10.isLt; have h1 := f15.isLt; have h2 := f20.isLt; have h3 := f7.isLt
  exact ⟨by omega, by omega, by omega, fld_eq (by omega), fld_eq (by omega), fld_eq (by omega), fld_eq (by omega)⟩
theorem shape4 {w : Nat} (g0 g1 : Nat) (f10 : BitVec 5) (f15 : BitVec 5) (f20 : BitVec 6) (f7 : BitVec 3)
    (hw : g0 * 2 ^ 0 + g1 * 2 ^ 26 + f10.toNat * 2 ^ 10 + f15.toNat * 2 ^ 15 + f20.toNat * 2 ^ 20 + f7.toNat * 2 ^ 7 = w) (k0 : g0 < 2 ^ 7) (k1 : g1 < 2 ^ 6) :
    w < 2 ^ 32 ∧
    w / 2 ^ 0 % 2 ^ 7 = g0 ∧
    w / 2 ^ 26 % 2 ^ 6 = g1 ∧
    fld w 10 5 = f10 ∧
    fld w 15 5 = f15 ∧
    fld w 20 6 = f20 ∧
    fld w 7 3 = f7 := by
  have h0 := f10.isLt; have h1 := f15.isLt; have h2 := f20.isLt; have h3 := f7.isLt
  exact ⟨by omega, by omega, by omega, fld_eq (by omega), fld_eq (by omega), fld_eq (by omega), fld_eq (by omega)⟩
theorem shape5 {w : Nat} (g0 : Nat) (f10 : BitVec 5) (f15 : BitVec 17) (f7 : BitVec 3)
    (hw : g0 * 2 ^ 0 + f10.toNat * 2 ^ 10 + f15.toNat * 2 ^ 15 + f7.toNat * 2 ^ 7 = w) (k0 : g0 < 2 ^ 7) :
    w < 2 ^ 32 ∧
    w / 2 ^ 0 % 2 ^ 7 = g0 ∧
    fld w 10 5 = f10 ∧
    fld w 15 17 = f15 ∧
    fld w 7 3 = f7 := by
  have h0 := f10.isLt; have h1 := f15.isLt; have h2 := f7.isLt
  exact ⟨by omega, by omega, fld_eq (by omega), fld_eq (by omega), fld_eq (by omega)⟩
theorem shape6 {w : Nat} (g0 g1 : Nat) (f10 : BitVec 5) (f20 : BitVec 12) (f7 : BitVec 3)
    (hw : g0 * 2 ^ 0 + g1 * 2 ^ 15 + f10.toNat * 2 ^ 10 + f20.toNat * 2 ^ 20 + f7.toNat * 2 ^ 7 = w) (k0 : g0 < 2 ^ 7) (k1 : g1 < 2 ^ 5) :
    w < 2 ^ 32 ∧
    w / 2 ^ 0 % 2 ^ 7 = g0 ∧
    w / 2 ^ 15 % 2 ^ 5 = g1 ∧
    fld w 10 5 = f10 ∧
    fld w 20 12 = f20 ∧
    fld w 7 3 = f7 := by
  have h0 := f10.isLt; have h1 := f20.isLt; have h2 := f7.isLt
  exact ⟨by omega, by omega, by omega, fld_eq (by omega), fld_eq (by omega), fld_eq (by omega)⟩
theorem shape7 {w : Nat} (g0 g1 : Nat) (f10 : BitVec 5) (f15 : BitVec 5) (f20 : BitVec 1) (f23 : BitVec 9) (f7 : BitVec 3)
    (hw : g0 * 2 ^ 0 + g1 * 2 ^ 21 + f10.toNat * 2 ^ 10 + f15.toNat * 2 ^ 15 + f20.toNat * 2 ^ 20 + f23.toNat * 2 ^ 23 + f7.toNat * 2 ^ 7 = w) (k0 : g0 < 2 ^ 7) (k1 : g1 < 2 ^ 2) :
    w < 2 ^ 32 ∧
    w / 2 ^ 0 % 2 ^ 7 = g0 ∧
    w / 2 ^ 21 % 2 ^ 2 = g1 ∧
    fld w 10 5 = f10 ∧
    fld w 15 5 = f15 ∧
    fld w 20 1 = f20 ∧
    fld w 23 9 = f23 ∧
    fld w 7 3 = f7 := by
  have h0 := f10.isLt; have h1 := f15.isLt; have h2 := f20.isLt; have h3 := f23.isLt; have h4 := f7.isLt
  exact ⟨by omega, by omega, by omega, fld_eq (by omega), fld_eq (by omega), fld_eq (by omega), fld_eq (by omega), fld_eq (by omega)⟩
theorem shape8 {w : Nat} (g0 g1 : Nat) (f10 : BitVec 5) (f15 : BitVec 5) (f23 : BitVec 9) (f7 : BitVec 3)
    (hw : g0 * 2 ^ 0 + g1 * 2 ^ 20 + f10.toNat * 2 ^ 10 + f15.toNat * 2 ^ 15 + f23.toNat * 2 ^ 23 + f7.toNat * 2 ^ 7 = w) (k0 : g0 < 2 ^ 7) (k1 : g1 < 2 ^ 3) :
    w < 2 ^ 32 ∧
    w / 2 ^ 0 % 2 ^ 7 = g0 ∧
    w / 2 ^ 20 % 2 ^ 3 = g1 ∧
    fld w 10 5 = f10 ∧
    fld w 15 5 = f15 ∧
    fld w 23 9 = f23 ∧
    fld w 7 3 = f7 := by
  have h0 := f10.isLt; have h1 := f15.isLt; have h2 := f23.isLt; have h3 := f7.isLt
  exact ⟨by omega, by omega, by omega, fld_eq (by omega), fld_eq (by omega), fld_eq (by omega), fld_eq (by omega)⟩
theorem shape9 {w : Nat} (g0 g1 : Nat) (f10 : BitVec 5) (f15 : BitVec 5) (f21 : BitVec 2) (f23 : BitVec 3) (f26 : BitVec 6) (f7 : BitVec 3)
    (hw : g0 * 2 ^ 0 + g1 * 2 ^ 20 + f10.toNat * 2 ^ 10 + f15.toNat * 2 ^ 15 + f21.toNat * 2 ^ 21 + f23.toNat * 2 ^ 23 + f26.toNat * 2 ^ 26 + f7.toNat * 2 ^ 7 = w) (k0 : g0 < 2 ^ 7) (k1 : g1 < 2 ^ 1) :
    w < 2 ^ 32 ∧
    w / 2 ^ 0 % 2 ^ 7 = g0 ∧
    w / 2 ^ 20 % 2 ^ 1 = g1 ∧
    fld w 10 5 = f10 ∧
    fld w 15 5 = f15 ∧
    fld w 21 2 = f21 ∧
    fld w 23 3 = f23 ∧
    fld w 26 6 = f26 ∧
    fld w 7 3 = f7 := by
  have h0 := f10.isLt; have h1 := f15.isLt; have h2 := f21.isLt; have h3 := f23.isLt; have h4 := f26.isLt; have h5 := f7.isLt
  exact ⟨by omega, by omega, by omega, fld_eq (by omega), fld_eq (by omega), fld_eq (by omega), fld_eq (by omega), fld_eq (by omega), fld_eq (by omega)⟩
theorem shape10 {w : Nat} (g0 g1 : Nat) (f10 : BitVec 5) (f15 : BitVec 5) (f20 : BitVec 5) (f25 : BitVec 3) (f7 : BitVec 3)
    (hw : g0 * 2 ^ 0 + g1 * 2 ^ 28 + f10.toNat * 2 ^ 10 + f15.toNat * 2 ^ 15 + f20.toNat * 2 ^ 20 + f25.toNat * 2 ^ 25 + f7.toNat * 2 ^ 7 = w) (k0 : g0 < 2 ^ 7) (k1 : g1 < 2 ^ 4) :
    w < 2 ^ 32 ∧
    w / 2 ^ 0 % 2 ^ 7 = g0 ∧
    w / 2 ^ 28 % 2 ^ 4 = g1 ∧
    fld w 10 5 = f10 ∧
    fld w 15 5 = f15 ∧
    fld w 20 5 = f20 ∧
    fld w 25 3 = f25 ∧
    fld w 7 3 = f7 := by
  have h0 := f10.isLt; have h1 := f15.isLt; have h2 := f20.isLt; have h3 := f25.isLt; have h4 := f7.isLt
  exact ⟨by omega, by omega, by omega, fld_eq (by omega), fld_eq (by omega), fld_eq (by omega), fld_eq (by omega), fld_eq (by omega)⟩
theorem shape11 {w : Nat} (g0 g1 : Nat) (f10 : BitVec 6) (f16 : BitVec 5) (f21 : BitVec 3) (f24 : BitVec 3) (f7 : BitVec 3)
    (hw : g0 * 2 ^ 0 + g1 * 2 ^ 27 + f10.toNat * 2 ^ 10 + f16.toNat * 2 ^ 16 + f21.toNat * 2 ^ 21 + f24.toNat * 2 ^ 24 + f7.toNat * 2 ^ 7 = w) (k0 : g0 < 2 ^ 7) (k1 : g1 < 2 ^ 5) :
    w < 2 ^ 32 ∧
    w / 2 ^ 0 % 2 ^ 7 = g0 ∧
    w / 2 ^ 27 % 2 ^ 5 = g1 ∧
    fld w 10 6 = f10 ∧
    fld w 16 5 = f16 ∧
    fld w 21 3 = f21 ∧
    fld w 24 3 = f24 ∧
    fld w 7 3 = f7 := by
  have h0 := f10.isLt; have h1 := f16.isLt; have h2 := f21.isLt; have h3 := f24.isLt; have h4 := f7.isLt
  exact ⟨by omega, by omega, by omega, fld_eq (by omega), fld_eq (by omega), fld_eq (by omega), fld_eq (by omega), fld_eq (by omega)⟩
theorem shape12 {w : Nat} (g0 g1 : Nat) (f10 : BitVec 6) (f16 : BitVec 5) (f21 : BitVec 3) (f24 : BitVec 3) (f27 : BitVec 1) (f7 : BitVec 3)
    (hw : g0 * 2 ^ 0 + g1 * 2 ^ 28 + f10.toNat * 2 ^ 10 + f16.toNat * 2 ^ 16 + f21.toNat * 2 ^ 21 + f24.toNat * 2 ^ 24 + f27.toNat * 2 ^ 27 + f7.toNat * 2 ^ 7 = w) (k0 : g0 < 2 ^ 7) (k1 : g1 < 2 ^ 4) :
    w < 2 ^ 32 ∧
    w / 2 ^ 0 % 2 ^ 7 = g0 ∧
    w / 2 ^ 28 % 2 ^ 4 = g1 ∧
    fld w 10 6 = f10 ∧
    fld w 16 5 = f16 ∧
    fld w 21 3 = f21 ∧
    fld w 24 3 = f24 ∧
    fld w 27 1 = f27 ∧
    fld w 7 3 = f7 := by
  have h0 := f10.isLt; have h1 := f16.isLt; have h2 := f21.isLt; have h3 := f24.isLt; have h4 := f27.isLt; have h5 := f7.isLt
  exact ⟨by omega, by omega, by omega, fld_eq (by omega), fld_eq (by omega), fld_eq (by omega), fld_eq (by omega), fld_eq (by omega), fld_eq (by omega)⟩
theorem shape13 {w : Nat} (g0 g1 : Nat) (f10 : BitVec 6) (f16 : BitVec 5) (f21 : BitVec 6) (f27 : BitVec 2) (f7 : BitVec 3)
    (hw : g0 * 2 ^ 0 + g1 * 2 ^ 29 + f10.toNat * 2 ^ 10 + f16.toNat * 2 ^ 16 + f21.toNat * 2 ^ 21 + f27.toNat * 2 ^ 27 + f7.toNat * 2 ^ 7 = w) (k0 : g0 < 2 ^ 7) (k1 : g1 < 2 ^ 3) :
    w < 2 ^ 32 ∧
    w / 2 ^ 0 % 2 ^ 7 = g0 ∧
    w / 2 ^ 29 % 2 ^ 3 = g1 ∧
    fld w 10 6 = f10 ∧
    fld w 16 5 = f16 ∧
    fld w 21 6 = f21 ∧
    fld w 27 2 = f27 ∧
    fld w 7 3 = f7 := by
  have h0 := f10.isLt; have h1 := f16.isLt; have h2 := f21.isLt; have h3 := f27.isLt; have h4 := f7.isLt
  exact ⟨by omega, by omega, by omega, fld_eq (by omega), fld_eq (by omega), fld_eq (by omega), fld_eq (by omega), fld_eq (by omega)⟩
theorem shape14 {w : Nat} (g0 g1 : Nat) (f10 : BitVec 6) (f16 : BitVec 5) (f21 : BitVec 6) (f27 : BitVec 2) (f29 : BitVec 1) (f7 : BitVec 3)
    (hw : g0 * 2 ^ 0 + g1 * 2 ^ 30 + f10.toNat * 2 ^ 10 + f16.toNat * 2 ^ 16 + f21.toNat * 2 ^ 21 + f27.toNat * 2 ^ 27 + f29.toNat * 2 ^ 29 + f7.toNat * 2 ^ 7 = w) (k0 : g0 < 2 ^ 7) (k1 : g1 < 2 ^ 2) :
    w < 2 ^ 32 ∧
    w / 2 ^ 0 % 2 ^ 7 = g0 ∧
    w / 2 ^ 30 % 2 ^ 2 = g1 ∧
    fld w 10 6 = f10 ∧
    fld w 16 5 = f16 ∧
    fld w 21 6 = f21 ∧
    fld w 27 2 = f27 ∧
    fld w 29 1 = f29 ∧
    fld w 7 3 = f7 := by
  have h0 := f10.isLt; have h1 := f16.isLt; have h2 := f21.isLt; have h3 := f27.isLt; have h4 := f29.isLt; have h5 := f7.isLt
  exact ⟨by omega, by omega, by omega, fld_eq (by omega), fld_eq (by omega), fld_eq (by omega), fld_eq (by omega), fld_eq (by omega), fld_eq (by omega)⟩
theorem shape15 {w : Nat} (g0 g1 : Nat) (f10 : BitVec 6) (f16 : BitVec 6) (f22 : BitVec 3) (f25 : BitVec 3) (f7 : BitVec 3)
    (hw : g0 * 2 ^ 0 + g1 * 2 ^ 28 + f10.toNat * 2 ^ 10 + f16.toNat * 2 ^ 16 + f22.toNat * 2 ^ 22 + f25.toNat * 2 ^ 25 + f7.toNat * 2 ^ 7 = w) (k0 : g0 < 2 ^ 7) (k1 : g1 < 2 ^ 4) :
    w < 2 ^ 32 ∧
    w / 2 ^ 0 % 2 ^ 7 = g0 ∧
    w / 2 ^ 28 % 2 ^ 4 = g1 ∧
    fld w 10 6 = f10 ∧
    fld w 16 6 = f16 ∧
    fld w 22 3 = f22 ∧
    fld w 25 3 = f25 ∧
    fld w 7 3 = f7 := by
  have h0 := f10.isLt; have h1 := f16.isLt; have h2 := f22.isLt; have h3 := f25.isLt; have h4 := f7.isLt
  exact ⟨by omega, by omega, by omega, fld_eq (by omega), fld_eq (by omega), fld_eq (by omega), fld_eq (by omega), fld_eq (by omega)⟩
theorem shape16 {w : Nat} (g0 g1 g2 : Nat) (f10 : BitVec 3) (f16 : BitVec 3) (f7 : BitVec 3)
    (hw : g0 * 2 ^ 0 + g1 * 2 ^ 13 + g2 * 2 ^ 19 + f10.toNat * 2 ^ 10 + f16.toNat * 2 ^ 16 + f7.toNat * 2 ^ 7 = w) (k0 : g0 < 2 ^ 7) (k1 : g1 < 2 ^ 3) (k2 : g2 < 2 ^ 13) :
    w < 2 ^ 32 ∧
    w / 2 ^ 0 % 2 ^ 7 = g0 ∧
    w / 2 ^ 13 % 2 ^ 3 = g1 ∧
    w / 2 ^ 19 % 2 ^ 13 = g2 ∧
    fld w 10 3 = f10 ∧
    fld w 16 3 = f16 ∧
    fld w 7 3 = f7 := by
  have h0 := f10.isLt; have h1 := f16.isLt; have h2 := f7.isLt
  exact ⟨by omega, by omega, by omega, by omega, fld_eq (by omega), fld_eq (by omega), fld_eq (by omega)⟩
theorem shape17 {w : Nat} (g0 : Nat) (f10 : BitVec 6) (f16 : BitVec 6) (f22 : BitVec 6) (f28 : BitVec 2) (f30 : BitVec 2) (f7 : BitVec 3)
    (hw : g0 * 2 ^ 0 + f10.toNat * 2 ^ 10 + f16.toNat * 2 ^ 16 + f22.toNat * 2 ^ 22 + f28.toNat * 2 ^ 28 + f30.toNat * 2 ^ 30 + f7.toNat * 2 ^ 7 = w) (k0 : g0 < 2 ^ 7) :
    w < 2 ^ 32 ∧
    w / 2 ^ 0 % 2 ^ 7 = g0 ∧
    fld w 10 6 = f10 ∧
    fld w 16 6 = f16 ∧
    fld w 22 6 = f22 ∧
    fld w 28 2 = f28 ∧
    fld w 30 2 = f30 ∧
    fld w 7 3 = f7 := by
  have h0 := f10.isLt; have h1 := f16.isLt; have h2 := f22.isLt; have h3 := f28.isLt; have h4 := f30.isLt; have h5 := f7.isLt
  exact ⟨by omega, by omega, fld_eq (by omega), fld_eq (by omega), fld_eq (by omega), fld_eq (by omega), fld_eq (by omega), fld_eq (by omega)⟩
theorem shape18 {w : Nat} (g0 g1 g2 : Nat) (f12 : BitVec 5) (f20 : BitVec 12) (f7 : BitVec 3)
    (hw : g0 * 2 ^ 0 + g1 * 2 ^ 10 + g2 * 2 ^ 17 + f12.toNat * 2 ^ 12 + f20.toNat * 2 ^ 20 + f7.toNat * 2 ^ 7 = w) (k0 : g0 < 2 ^ 7) (k1 : g1 < 2 ^ 2) (k2 : g2 < 2 ^ 3) :
    w < 2 ^ 32 ∧
    w / 2 ^ 0 % 2 ^ 7 = g0 ∧
    w / 2 ^ 10 % 2 ^ 2 = g1 ∧
    w / 2 ^ 17 % 2 ^ 3 = g2 ∧
    fld w 12 5 = f12 ∧
    fld w 20 12 = f20 ∧
    fld w 7 3 = f7 := by
  have h0 := f12.isLt; have h1 := f20.isLt; have h2 := f7.isLt
  exact ⟨by omega, by omega, by omega, by omega, fld_eq (by omega), fld_eq (by omega), fld_eq (by omega)⟩
theorem shape19 {w : Nat} (g0 g1 g2 : Nat) (f26 : BitVec 3) (f7 : BitVec 3)
    (hw : g0 * 2 ^ 0 + g1 * 2 ^ 10 + g2 * 2 ^ 29 + f26.toNat * 2 ^ 26 + f7.toNat * 2 ^ 7 = w) (k0 : g0 < 2 ^ 7) (k1 : g1 < 2 ^ 16) (k2 : g2 < 2 ^ 3) :
    w < 2 ^ 32 ∧
    w / 2 ^ 0 % 2 ^ 7 = g0 ∧
    w / 2 ^ 10 % 2 ^ 16 = g1 ∧
    w / 2 ^ 29 % 2 ^ 3 = g2 ∧
    fld w 26 3 = f26 ∧
    fld w 7 3 = f7 := by
  have h0 := f26.isLt; have h1 := f7.isLt
  exact ⟨by omega, by omega, by omega, by omega, fld_eq (by omega), fld_eq (by omega)⟩
theorem shape20 {w : Nat} (g0 g1 : Nat) (f7 : BitVec 3)
    (hw : g0 * 2 ^ 0 + g1 * 2 ^ 10 + f7.toNat * 2 ^ 7 = w) (k0 : g0 < 2 ^ 7) (k1 : g1 < 2 ^ 22) :
    w < 2 ^ 32 ∧
    w / 2 ^ 0 % 2 ^ 7 = g0 ∧
    w / 2 ^ 10 % 2 ^ 22 = g1 ∧
    fld w 7 3 = f7 := by
  have h0 := f7.isLt
  exact ⟨by omega, by omega, by omega, fld_eq (by omega)⟩
theorem shape21 {w : Nat} (g0 g1 g2 : Nat) (f16 : BitVec 5) (f21 : BitVec 5) (f26 : BitVec 3) (f29 : BitVec 1) (f7 : BitVec 3)
    (hw : g0 * 2 ^ 0 + g1 * 2 ^ 10 + g2 * 2 ^ 30 + f16.toNat * 2 ^ 16 + f21.toNat * 2 ^ 21 + f26.toNat * 2 ^ 26 + f29.toNat * 2 ^ 29 + f7.toNat * 2 ^ 7 = w) (k0 : g0 < 2 ^ 7) (k1 : g1 < 2 ^ 6) (k2 : g2 < 2 ^ 2) :
    w < 2 ^ 32 ∧
    w / 2 ^ 0 % 2 ^ 7 = g0 ∧
    w / 2 ^ 10 % 2 ^ 6 = g1 ∧
    w / 2 ^ 30 % 2 ^ 2 = g2 ∧
    fld w 16 5 = f16 ∧
    fld w 21 5 = f21 ∧
    fld w 26 3 = f26 ∧
    fld w 29 1 = f29 ∧
    fld w 7 3 = f7 := by
  have h0 := f16.isLt; have h1 := f21.isLt; have h2 := f26.isLt; have h3 := f29.isLt; have h4 := f7.isLt
  exact ⟨by omega, by omega, by omega, by omega, fld_eq (by omega), fld_eq (by omega), fld_eq (by omega), fld_eq (by omega), fld_eq (by omega)⟩
theorem shape22 {w : Nat} (g0 g1 g2 g3 : Nat) (f16 : BitVec 5) (f26 : BitVec 1) (f7 : BitVec 3)
    (hw : g0 * 2 ^ 0 + g1 * 2 ^ 10 + g2 * 2 ^ 21 + g3 * 2 ^ 27 + f16.toNat * 2 ^ 16 + f26.toNat * 2 ^ 26 + f7.toNat * 2 ^ 7 = w) (k0 : g0 < 2 ^ 7) (k1 : g1 < 2 ^ 6) (k2 : g2 < 2 ^ 5) (k3 : g3 < 2 ^ 5) :
    w < 2 ^ 32 ∧
    w / 2 ^ 0 % 2 ^ 7 = g0 ∧
    w / 2 ^ 10 % 2 ^ 6 = g1 ∧
    w / 2 ^ 21 % 2 ^ 5 = g2 ∧
    w / 2 ^ 27 % 2 ^ 5 = g3 ∧
    fld w 16 5 = f16 ∧
    fld w 26 1 = f26 ∧
    fld w 7 3 = f7 := by
  have h0 := f16.isLt; have h1 := f26.isLt; have h2 := f7.isLt
  exact ⟨by omega, by omega, by omega, by omega, by omega, fld_eq (by omega), fld_eq (by omega), fld_eq (by omega)⟩
theorem shape23 {w : Nat} (g0 g1 : Nat) (f26 : BitVec 6) (f7 : BitVec 3)
    (hw : g0 * 2 ^ 0 + g1 * 2 ^ 10 + f26.toNat * 2 ^ 26 + f7.toNat * 2 ^ 7 = w) (k0 : g0 < 2 ^ 7) (k1 : g1 < 2 ^ 16) :
    w < 2 ^ 32 ∧
    w / 2 ^ 0 % 2 ^ 7 = g0 ∧
    w / 2 ^ 10 % 2 ^ 16 = g1 ∧
    fld w 26 6 = f26 ∧
    fld w 7 3 = f7 := by
  have h0 := f26.isLt; have h1 := f7.isLt
  exact ⟨by omega, by omega, by omega, fld_eq (by omega), fld_eq (by omega)⟩
theorem shape24 {w : Nat} (g0 g1 g2 : Nat) (f16 : BitVec 5) (f7 : BitVec 3)
    (hw : g0 * 2 ^ 0 + g1 * 2 ^ 10 + g2 * 2 ^ 21 + f16.toNat * 2 ^ 16 + f7.toNat * 2 ^ 7 = w) (k0 : g0 < 2 ^ 7) (k1 : g1 < 2 ^ 6) (k2 : g2 < 2 ^ 11) :
    w < 2 ^ 32 ∧
    w / 2 ^ 0 % 2 ^ 7 = g0 ∧
    w / 2 ^ 10 % 2 ^ 6 = g1 ∧
    w / 2 ^ 21 % 2 ^ 11 = g2 ∧
    fld w 16 5 = f16 ∧
    fld w 7 3 = f7 := by
  have h0 := f16.isLt; have h1 := f7.isLt
  exact ⟨by omega, by omega, by omega, by omega, fld_eq (by omega), fld_eq (by omega)⟩
theorem shape25 {w : Nat} (g0 g1 g2 : Nat) (f16 : BitVec 5) (f21 : BitVec 5) (f7 : BitVec 3)
    (hw : g0 * 2 ^ 0 + g1 * 2 ^ 10 + g2 * 2 ^ 26 + f16.toNat * 2 ^ 16 + f21.toNat * 2 ^ 21 + f7.toNat * 2 ^ 7 = w) (k0 : g0 < 2 ^ 7) (k1 : g1 < 2 ^ 6) (k2 : g2 < 2 ^ 6) :
    w < 2 ^ 32 ∧
    w / 2 ^ 0 % 2 ^ 7 = g0 ∧
    w / 2 ^ 10 % 2 ^ 6 = g1 ∧
    w / 2 ^ 26 % 2 ^ 6 = g2 ∧
    fld w 16 5 = f16 ∧
    fld w 21 5 = f21 ∧
    fld w 7 3 = f7 := by
  have h0 := f16.isLt; have h1 := f21.isLt; have h2 := f7.isLt
  exact ⟨by omega, by omega, by omega, by omega, fld_eq (by omega), fld_eq (by omega), fld_eq (by omega)⟩
theorem shape26 {w : Nat} (g0 g1 : Nat) (f16 : BitVec 5) (f21 : BitVec 5) (f26 : BitVec 3) (f29 : BitVec 3) (f7 : BitVec 3)
    (hw : g0 * 2 ^ 0 + g1 * 2 ^ 10 + f16.toNat * 2 ^ 16 + f21.toNat * 2 ^ 21 + f26.toNat * 2 ^ 26 + f29.toNat * 2 ^ 29 + f7.toNat * 2 ^ 7 = w) (k0 : g0 < 2 ^ 7) (k1 : g1 < 2 ^ 6) :
    w < 2 ^ 32 ∧
    w / 2 ^ 0 % 2 ^ 7 = g0 ∧
    w / 2 ^ 10 % 2 ^ 6 = g1 ∧
    fld w 16 5 = f16 ∧
    fld w 21 5 = f21 ∧
    fld w 26 3 = f26 ∧
    fld w 29 3 = f29 ∧
    fld w 7 3 = f7 := by
  have h0 := f16.isLt; have h1 := f21.isLt; have h2 := f26.isLt; have h3 := f29.isLt; have h4 := f7.isLt
  exact ⟨by omega, by omega, by omega, fld_eq (by omega), fld_eq (by omega), fld_eq (by omega), fld_eq (by omega), fld_eq (by omega)⟩
theorem shape27 {w : Nat} (g0 g1 g2 g3 : Nat) (f15 : BitVec 5) (f25 : BitVec 6) (f7 : BitVec 3)
    (hw : g0 * 2 ^ 0 + g1 * 2 ^ 10 + g2 * 2 ^ 20 + g3 * 2 ^ 31 + f15.toNat * 2 ^ 15 + f25.toNat * 2 ^ 25 + f7.toNat * 2 ^ 7 = w) (k0 : g0 < 2 ^ 7) (k1 : g1 < 2 ^ 5) (k2 : g2 < 2 ^ 5) (k3 : g3 < 2 ^ 1) :
    w < 2 ^ 32 ∧
    w / 2 ^ 0 % 2 ^ 7 = g0 ∧
    w / 2 ^ 10 % 2 ^ 5 = g1 ∧
    w / 2 ^ 20 % 2 ^ 5 = g2 ∧
    w / 2 ^ 31 % 2 ^ 1 = g3 ∧
    fld w 15 5 = f15 ∧
    fld w 25 6 = f25 ∧
    fld w 7 3 = f7 := by
  have h0 := f15.isLt; have h1 := f25.isLt; have h2 := f7.isLt
  exact ⟨by omega, by omega, by omega, by omega, by omega, fld_eq (by omega), fld_eq (by omega), fld_eq (by omega)⟩
theorem shape28 {w : Nat} (g0 g1 g2 : Nat) (f10 : BitVec 5) (f15 : BitVec 5) (f25 : BitVec 6) (f7 : BitVec 3)
    (hw : g0 * 2 ^ 0 + g1 * 2 ^ 20 + g2 * 2 ^ 31 + f10.toNat * 2 ^ 10 + f15.toNat * 2 ^ 15 + f25.toNat * 2 ^ 25 + f7.toNat * 2 ^ 7 = w) (k0 : g0 < 2 ^ 7) (k1 : g1 < 2 ^ 5) (k2 : g2 < 2 ^ 1) :
    w < 2 ^ 32 ∧
    w / 2 ^ 0 % 2 ^ 7 = g0 ∧
    w / 2 ^ 20 % 2 ^ 5 = g1 ∧
    w / 2 ^ 31 % 2 ^ 1 = g2 ∧
    fld w 10 5 = f10 ∧
    fld w 15 5 = f15 ∧
    fld w 25 6 = f25 ∧
    fld w 7 3 = f7 := by
  have h0 := f10.isLt; have h1 := f15.isLt; have h2 := f25.isLt; have h3 := f7.isLt
  exact ⟨by omega, by omega, by omega, by omega, fld_eq (by omega), fld_eq (by omega), fld_eq (by omega), fld_eq (by omega)⟩
theorem shape29 {w : Nat} (g0 g1 : Nat) (f10 : BitVec 5) (f15 : BitVec 5) (f25 : BitVec 5) (f30 : BitVec 2) (f7 : BitVec 3)
    (hw : g0 * 2 ^ 0 + g1 * 2 ^ 20 + f10.toNat * 2 ^ 10 + f15.toNat * 2 ^ 15 + f25.toNat * 2 ^ 25 + f30.toNat * 2 ^ 30 + f7.toNat * 2 ^ 7 = w) (k0 : g0 < 2 ^ 7) (k1 : g1 < 2 ^ 5) :
    w < 2 ^ 32 ∧
    w / 2 ^ 0 % 2 ^ 7 = g0 ∧
    w / 2 ^ 20 % 2 ^ 5 = g1 ∧
    fld w 10 5 = f10 ∧
    fld w 15 5 = f15 ∧
    fld w 25 5 = f25 ∧
    fld w 30 2 = f30 ∧
    fld w 7 3 = f7 := by
  have h0 := f10.isLt; have h1 := f15.isLt; have h2 := f25.isLt; have h3 := f30.isLt; have h4 := f7.isLt
  exact ⟨by omega, by omega, by omega, fld_eq (by omega), fld_eq (by omega), fld_eq (by omega), fld_eq (by omega), fld_eq (by omega)⟩
theorem shape30 {w : Nat} (g0 g1 g2 : Nat) (f10 : BitVec 5) (f15 : BitVec 5) (f25 : BitVec 2) (f7 : BitVec 3)
    (hw : g0 * 2 ^ 0 + g1 * 2 ^ 20 + g2 * 2 ^ 27 + f10.toNat * 2 ^ 10 + f15.toNat * 2 ^ 15 + f25.toNat * 2 ^ 25 + f7.toNat * 2 ^ 7 = w) (k0 : g0 < 2 ^ 7) (k1 : g1 < 2 ^ 5) (k2 : g2 < 2 ^ 5) :
    w < 2 ^ 32 ∧
    w / 2 ^ 0 % 2 ^ 7 = g0 ∧
    w / 2 ^ 20 % 2 ^ 5 = g1 ∧
    w / 2 ^ 27 % 2 ^ 5 = g2 ∧
    fld w 10 5 = f10 ∧
    fld w 15 5 = f15 ∧
    fld w 25 2 = f25 ∧
    fld w 7 3 = f7 := by
  have h0 := f10.isLt; have h1 := f15.isLt; have h2 := f25.isLt; have h3 := f7.isLt
  exact ⟨by omega, by omega, by omega, by omega, fld_eq (by omega), fld_eq (by omega), fld_eq (by omega), fld_eq (by omega)⟩
theorem shape31 {w : Nat} (g0 g1 g2 : Nat) (f10 : BitVec 5) (f15 : BitVec 5) (f25 : BitVec 1) (f7 : BitVec 3)
    (hw : g0 * 2 ^ 0 + g1 * 2 ^ 20 + g2 * 2 ^ 26 + f10.toNat * 2 ^ 10 + f15.toNat * 2 ^ 15 + f25.toNat * 2 ^ 25 + f7.toNat * 2 ^ 7 = w) (k0 : g0 < 2 ^ 7) (k1 : g1 < 2 ^ 5) (k2 : g2 < 2 ^ 6) :
    w < 2 ^ 32 ∧
    w / 2 ^ 0 % 2 ^ 7 = g0 ∧
    w / 2 ^ 20 % 2 ^ 5 = g1 ∧
    w / 2 ^ 26 % 2 ^ 6 = g2 ∧
    fld w 10 5 = f10 ∧
    fld w 15 5 = f15 ∧
    fld w 25 1 = f25 ∧
    fld w 7 3 = f7 := by
  have h0 := f10.isLt; have h1 := f15.isLt; have h2 := f25.isLt; have h3 := f7.isLt
  exact ⟨by omega, by omega, by omega, by omega, fld_eq (by omega), fld_eq (by omega), fld_eq (by omega), fld_eq (by omega)⟩
theorem shape32 {w : Nat} (g0 g1 : Nat) (f10 : BitVec 5) (f7 : BitVec 3)
    (hw : g0 * 2 ^ 0 + g1 * 2 ^ 15 + f10.toNat * 2 ^ 10 + f7.toNat * 2 ^ 7 = w) (k0 : g0 < 2 ^ 7) (k1 : g1 < 2 ^ 17) :
    w < 2 ^ 32 ∧
    w / 2 ^ 0 % 2 ^ 7 = g0 ∧
    w / 2 ^ 15 % 2 ^ 17 = g1 ∧
    fld w 10 5 = f10 ∧
    fld w 7 3 = f7 := by
  have h0 := f10.isLt; have h1 := f7.isLt
  exact ⟨by omega, by omega, by omega, fld_eq (by omega), fld_eq (by omega)⟩
theorem shape33 {w : Nat} (g0 g1 g2 : Nat) (f15 : BitVec 5) (f7 : BitVec 3)
    (hw : g0 * 2 ^ 0 + g1 * 2 ^ 10 + g2 * 2 ^ 20 + f15.toNat * 2 ^ 15 + f7.toNat * 2 ^ 7 = w) (k0 : g0 < 2 ^ 7) (k1 : g1 < 2 ^ 5) (k2 : g2 < 2 ^ 12) :
    w < 2 ^ 32 ∧
    w / 2 ^ 0 % 2 ^ 7 = g0 ∧
    w / 2 ^ 10 % 2 ^ 5 = g1 ∧
    w / 2 ^ 20 % 2 ^ 12 = g2 ∧
    fld w 15 5 = f15 ∧
    fld w 7 3 = f7 := by
  have h0 := f15.isLt; have h1 := f7.isLt
  exact ⟨by omega, by omega, by omega, by omega, fld_eq (by omega), fld_eq (by omega)⟩
theorem shape34 {w : Nat} (g0 g1 g2 : Nat) (f10 : BitVec 5) (f15 : BitVec 5) (f25 : BitVec 3) (f7 : BitVec 3)
    (hw : g0 * 2 ^ 0 + g1 * 2 ^ 20 + g2 * 2 ^ 28 + f10.toNat * 2 ^ 10 + f15.toNat * 2 ^ 15 + f25.toNat * 2 ^ 25 + f7.toNat * 2 ^ 7 = w) (k0 : g0 < 2 ^ 7) (k1 : g1 < 2 ^ 5) (k2 : g2 < 2 ^ 4) :
    w < 2 ^ 32 ∧
    w / 2 ^ 0 % 2 ^ 7 = g0 ∧
    w / 2 ^ 20 % 2 ^ 5 = g1 ∧
    w / 2 ^ 28 % 2 ^ 4 = g2 ∧
    fld w 10 5 = f10 ∧
    fld w 15 5 = f15 ∧
    fld w 25 3 = f25 ∧
    fld w 7 3 = f7 := by
  have h0 := f10.isLt; have h1 := f15.isLt; have h2 := f25.isLt; have h3 := f7.isLt
  exact ⟨by omega, by omega, by omega, by omega, fld_eq (by omega), fld_eq (by omega), fld_eq (by omega), fld_eq (by omega)⟩
theorem shape35 {w : Nat} (g0 g1 g2 : Nat) (f10 : BitVec 5) (f25 : BitVec 3) (f7 : BitVec 3)
    (hw : g0 * 2 ^ 0 + g1 * 2 ^ 15 + g2 * 2 ^ 28 + f10.toNat * 2 ^ 10 + f25.toNat * 2 ^ 25 + f7.toNat * 2 ^ 7 = w) (k0 : g0 < 2 ^ 7) (k1 : g1 < 2 ^ 10) (k2 : g2 < 2 ^ 4) :
    w < 2 ^ 32 ∧
    w / 2 ^ 0 % 2 ^ 7 = g0 ∧
    w / 2 ^ 15 % 2 ^ 10 = g1 ∧
    w / 2 ^ 28 % 2 ^ 4 = g2 ∧
    fld w 10 5 = f10 ∧
    fld w 25 3 = f25 ∧
    fld w 7 3 = f7 := by
  have h0 := f10.isLt; have h1 := f25.isLt; have h2 := f7.isLt
  exact ⟨by omega, by omega, by omega, by omega, fld_eq (by omega), fld_eq (by omega), fld_eq (by omega)⟩
theorem shape36 {w : Nat} (g0 g1 g2 : Nat) (f15 : BitVec 5) (f25 : BitVec 7) (f7 : BitVec 3)
    (hw : g0 * 2 ^ 0 + g1 * 2 ^ 10 + g2 * 2 ^ 20 + f15.toNat * 2 ^ 15 + f25.toNat * 2 ^ 25 + f7.toNat * 2 ^ 7 = w) (k0 : g0 < 2 ^ 7) (k1 : g1 < 2 ^ 5) (k2 : g2 < 2 ^ 5) :
    w < 2 ^ 32 ∧
    w / 2 ^ 0 % 2 ^ 7 = g0 ∧
    w / 2 ^ 10 % 2 ^ 5 = g1 ∧
    w / 2 ^ 20 % 2 ^ 5 = g2 ∧
    fld w 15 5 = f15 ∧
    fld w 25 7 = f25 ∧
    fld w 7 3 = f7 := by
  have h0 := f15.isLt; have h1 := f25.isLt; have h2 := f7.isLt
  exact ⟨by omega, by omega, by omega, by omega, fld_eq (by omega), fld_eq (by omega), fld_eq (by omega)⟩
theorem shape37 {w : Nat} (g0 g1 g2 : Nat) (f10 : BitVec 5) (f16 : BitVec 5) (f21 : BitVec 5) (f7 : BitVec 3)
    (hw : g0 * 2 ^ 0 + g1 * 2 ^ 15 + g2 * 2 ^ 26 + f10.toNat * 2 ^ 10 + f16.toNat * 2 ^ 16 + f21.toNat * 2 ^ 21 + f7.toNat * 2 ^ 7 = w) (k0 : g0 < 2 ^ 7) (k1 : g1 < 2 ^ 1) (k2 : g2 < 2 ^ 6) :
    w < 2 ^ 32 ∧
    w / 2 ^ 0 % 2 ^ 7 = g0 ∧
    w / 2 ^ 15 % 2 ^ 1 = g1 ∧
    w / 2 ^ 26 % 2 ^ 6 = g2 ∧
    fld w 10 5 = f10 ∧
    fld w 16 5 = f16 ∧
    fld w 21 5 = f21 ∧
    fld w 7 3 = f7 := by
  have h0 := f10.isLt; have h1 := f16.isLt; have h2 := f21.isLt; have h3 := f7.isLt
  exact ⟨by omega, by omega, by omega, by omega, fld_eq (by omega), fld_eq (by omega), fld_eq (by omega), fld_eq (by omega)⟩
theorem shape38 {w : Nat} (g0 g1 g2 : Nat) (f10 : BitVec 5) (f21 : BitVec 5) (f7 : BitVec 3)
    (hw : g0 * 2 ^ 0 + g1 * 2 ^ 15 + g2 * 2 ^ 26 + f10.toNat * 2 ^ 10 + f21.toNat * 2 ^ 21 + f7.toNat * 2 ^ 7 = w) (k0 : g0 < 2 ^ 7) (k1 : g1 < 2 ^ 6) (k2 : g2 < 2 ^ 6) :
    w < 2 ^ 32 ∧
    w / 2 ^ 0 % 2 ^ 7 = g0 ∧
    w / 2 ^ 15 % 2 ^ 6 = g1 ∧
    w / 2 ^ 26 % 2 ^ 6 = g2 ∧
    fld w 10 5 = f10 ∧
    fld w 21 5 = f21 ∧
    fld w 7 3 = f7 := by
  have h0 := f10.isLt; have h1 := f21.isLt; have h2 := f7.isLt
  exact ⟨by omega, by omega, by omega, by omega, fld_eq (by omega), fld_eq (by omega), fld_eq (by omega)⟩
theorem shape39 {w : Nat} (g0 g1 : Nat) (f10 : BitVec 6) (f16 : BitVec 5) (f21 : BitVec 5) (f7 : BitVec 3)
    (hw : g0 * 2 ^ 0 + g1 * 2 ^ 26 + f10.toNat * 2 ^ 10 + f16.toNat * 2 ^ 16 + f21.toNat * 2 ^ 21 + f7.toNat * 2 ^ 7 = w) (k0 : g0 < 2 ^ 7) (k1 : g1 < 2 ^ 6) :
    w < 2 ^ 32 ∧
    w / 2 ^ 0 % 2 ^ 7 = g0 ∧
    w / 2 ^ 26 % 2 ^ 6 = g1 ∧
    fld w 10 6 = f10 ∧
    fld w 16 5 = f16 ∧
    fld w 21 5 = f21 ∧
    fld w 7 3 = f7 := by
  have h0 := f10.isLt; have h1 := f16.isLt; have h2 := f21.isLt; have h3 := f7.isLt
  exact ⟨by omega, by omega, by omega, fld_eq (by omega), fld_eq (by omega), fld_eq (by omega), fld_eq (by omega)⟩
theorem shape40 {w : Nat} (g0 g1 : Nat) (f10 : BitVec 6) (f16 : BitVec 5) (f7 : BitVec 3)
    (hw : g0 * 2 ^ 0 + g1 * 2 ^ 21 + f10.toNat * 2 ^ 10 + f16.toNat * 2 ^ 16 + f7.toNat * 2 ^ 7 = w) (k0 : g0 < 2 ^ 7) (k1 : g1 < 2 ^ 11) :
    w < 2 ^ 32 ∧
    w / 2 ^ 0 % 2 ^ 7 = g0 ∧
    w / 2 ^ 21 % 2 ^ 11 = g1 ∧
    fld w 10 6 = f10 ∧
    fld w 16 5 = f16 ∧
    fld w 7 3 = f7 := by
  have h0 := f10.isLt; have h1 := f16.isLt; have h2 := f7.isLt
  exact ⟨by omega, by omega, by omega, fld_eq (by omega), fld_eq (by omega), fld_eq (by omega)⟩
theorem shape41 {w : Nat} (g0 g1 g2 : Nat) (f10 : BitVec 5) (f16 : BitVec 5) (f7 : BitVec 3)
    (hw : g0 * 2 ^ 0 + g1 * 2 ^ 15 + g2 * 2 ^ 21 + f10.toNat * 2 ^ 10 + f16.toNat * 2 ^ 16 + f7.toNat * 2 ^ 7 = w) (k0 : g0 < 2 ^ 7) (k1 : g1 < 2 ^ 1) (k2 : g2 < 2 ^ 11) :
    w < 2 ^ 32 ∧
    w / 2 ^ 0 % 2 ^ 7 = g0 ∧
    w / 2 ^ 15 % 2 ^ 1 = g1 ∧
    w / 2 ^ 21 % 2 ^ 11 = g2 ∧
    fld w 10 5 = f10 ∧
    fld w 16 5 = f16 ∧
    fld w 7 3 = f7 := by
  have h0 := f10.isLt; have h1 := f16.isLt; have h2 := f7.isLt
  exact ⟨by omega, by omega, by omega, by omega, fld_eq (by omega), fld_eq (by omega), fld_eq (by omega)⟩
theorem shape42 {w : Nat} (g0 g1 : Nat) (f2 : BitVec 5) (f7 : BitVec 5)
    (hw : g0 * 2 ^ 0 + g1 * 2 ^ 12 + f2.toNat * 2 ^ 2 + f7.toNat * 2 ^ 7 = w) (k0 : g0 < 2 ^ 2) (k1 : g1 < 2 ^ 4) :
    w < 2 ^ 16 ∧
    w / 2 ^ 0 % 2 ^ 2 = g0 ∧
    w / 2 ^ 12 % 2 ^ 4 = g1 ∧
    fld w 2 5 = f2 ∧
    fld w 7 5 = f7 := by
  have h0 := f2.isLt; have h1 := f7.isLt
  exact ⟨by omega, by omega, by omega, fld_eq (by omega), fld_eq (by omega)⟩
theorem shape43 {w : Nat} (g0 g1 : Nat) (f2 : BitVec 5)
    (hw : g0 * 2 ^ 0 + g1 * 2 ^ 7 + f2.toNat * 2 ^ 2 = w) (k0 : g0 < 2 ^ 2) (k1 : g1 < 2 ^ 9) :
    w < 2 ^ 16 ∧
    w / 2 ^ 0 % 2 ^ 2 = g0 ∧
    w / 2 ^ 7 % 2 ^ 9 = g1 ∧
    fld w 2 5 = f2 := by
  have h0 := f2.isLt
  exact ⟨by omega, by omega, by omega, fld_eq (by omega)⟩
theorem shape44 {w : Nat} (g0 g1 : Nat) (f2 : BitVec 10)
    (hw : g0 * 2 ^ 0 + g1 * 2 ^ 12 + f2.toNat * 2 ^ 2 = w) (k0 : g0 < 2 ^ 2) (k1 : g1 < 2 ^ 4) :
    w < 2 ^ 16 ∧
    w / 2 ^ 0 % 2 ^ 2 = g0 ∧
    w / 2 ^ 12 % 2 ^ 4 = g1 ∧
    fld w 2 10 = f2 := by
  have h0 := f2.isLt
  exact ⟨by omega, by omega, by omega, fld_eq (by omega)⟩
theorem shape45 {w : Nat} (g0 g1 : Nat) (f2 : BitVec 4) (f6 : BitVec 8)
    (hw : g0 * 2 ^ 0 + g1 * 2 ^ 14 + f2.toNat * 2 ^ 2 + f6.toNat * 2 ^ 6 = w) (k0 : g0 < 2 ^ 2) (k1 : g1 < 2 ^ 2) :
    w < 2 ^ 16 ∧
    w / 2 ^ 0 % 2 ^ 2 = g0 ∧
    w / 2 ^ 14 % 2 ^ 2 = g1 ∧
    fld w 2 4 = f2 ∧
    fld w 6 8 = f6 := by
  have h0 := f2.isLt; have h1 := f6.isLt
  exact ⟨by omega, by omega, by omega, fld_eq (by omega), fld_eq (by omega)⟩
theorem add (d : BitVec 5) (a : BitVec 5) (b : BitVec 5) (st : BitVec 3) : Statement (.add d a b st) := by
  obtain ⟨hw, q0, q1, f0, f1, f2, f3⟩ := shape0 (w := 0x3 + d.toNat * 2 ^ 10 + a.toNat * 2 ^ 15 + b.toNat * 2 ^ 20 + st.toNat * 2 ^ 7) 0x3 0x0 d a b st
    (by omega) (by decide) (by decide)
  refine of32 rfl hw (by omega) fun wf_ => ?_
  generalize 0x3 + d.toNat * 2 ^ 10 + a.toNat * 2 ^ 15 + b.toNat * 2 ^ 20 + st.toNat * 2 ^ 7 = w at *
  have e0 := bits_sub (lo := 2) (m := 5) (v := 0) q0 (by decide) (by decide) (by decide)
  have e1 := bits_sub (lo := 25) (m := 7) (v := 0) q1 (by decide) (by decide) (by decide)
  simp [decodeRaw32, decodeOp, e0, e1, f0, f1, f2, f3]
theorem sub (d : BitVec 5) (a : BitVec 5) (b : BitVec 5) (st : BitVec 3) : Statement (.sub d a b st) := by
  obtain ⟨hw, q0, q1, f0, f1, f2, f3⟩ := shape0 (w := 0x2000003 + d.toNat * 2 ^ 10 + a.toNat * 2 ^ 15 + b.toNat * 2 ^ 20 + st.toNat * 2 ^ 7) 0x3 0x1 d a b st
    (by omega) (by decide) (by decide)
  refine of32 rfl hw (by omega) fun wf_ => ?_
  generalize 0x2000003 + d.toNat * 2 ^ 10 + a.toNat * 2 ^ 15 + b.toNat * 2 ^ 20 + st.toNat * 2 ^ 7 = w at *
  have e0 := bits_sub (lo := 2) (m := 5) (v := 0) q0 (by decide) (by decide) (by decide)
  have e1 := bits_sub (lo := 25) (m := 7) (v := 1) q1 (by decide) (by decide) (by decide)
  simp [decodeRaw32, decodeOp, e0, e1, f0, f1, f2, f3]
theorem andR (d : BitVec 5) (a : BitVec 5) (b : BitVec 5) (st : BitVec 3) : Statement (.andR d a b st) := by
  obtain ⟨hw, q0, q1, f0, f1, f2, f3⟩ := shape0 (w := 0x4000003 + d.toNat * 2 ^ 10 + a.toNat * 2 ^ 15 + b.toNat * 2 ^ 20 + st.toNat * 2 ^ 7) 0x3 0x2 d a b st
    (by omega) (by decide) (by decide)
  refine of32 rfl hw (by omega) fun wf_ => ?_
  generalize 0x4000003 + d.toNat * 2 ^ 10 + a.toNat * 2 ^ 15 + b.toNat * 2 ^ 20 + st.toNat * 2 ^ 7 = w at *
  have e0 := bits_sub (lo := 2) (m := 5) (v := 0) q0 (by decide) (by decide) (by decide)
  have e1 := bits_sub (lo := 25) (m := 7) (v := 2) q1 (by decide) (by decide) (by decide)
  simp [decodeRaw32, decodeOp, e0, e1, f0, f1, f2, f3]
theorem orR (d : BitVec 5) (a : BitVec 5) (b : BitVec 5) (st : BitVec 3) : Statement (.orR d a b st) := by
  obtain ⟨hw, q0, q1, f0, f1, f2, f3⟩ := shape0 (w := 0x6000003 + d.toNat * 2 ^ 10 + a.toNat * 2 ^ 15 + b.toNat * 2 ^ 20 + st.toNat * 2 ^ 7) 0x3 0x3 d a b st
    (by omega) (by decide) (by decide)
  refine of32 rfl hw (by omega) fun wf_ => ?_
  generalize 0x6000003 + d.toNat * 2 ^ 10 + a.toNat * 2 ^ 15 + b.toNat * 2 ^ 20 + st.toNat * 2 ^ 7 = w at *
  have e0 := bits_sub (lo := 2) (m := 5) (v := 0) q0 (by decide) (by decide) (by decide)
  have e1 := bits_sub (lo := 25) (m := 7) (v := 3) q1 (by decide) (by decide) (by decide)
  simp [decodeRaw32, decodeOp, e0, e1, f0, f1, f2, f3]
theorem xorR (d : BitVec 5) (a : BitVec 5) (b : BitVec 5) (st : BitVec 3) : Statement (.xorR d a b st) := by
  obtain ⟨hw, q0, q1, f0, f1, f2, f3⟩ := shape0 (w := 0x8000003 + d.toNat * 2 ^ 10 + a.toNat * 2 ^ 15 + b.toNat * 2 ^ 20 + st.toNat * 2 ^ 7) 0x3 0x4 d a b st
    (by omega) (by decide) (by decide)
  refine of32 rfl hw (by omega) fun wf_ => ?_
  generalize 0x8000003 + d.toNat * 2 ^ 10 + a.toNat * 2 ^ 15 + b.toNat * 2 ^ 20 + st.toNat * 2 ^ 7 = w at *
  have e0 := bits_sub (lo := 2) (m := 5) (v := 0) q0 (by decide) (by decide) (by decide)
  have e1 := bits_sub (lo := 25) (m := 7) (v := 4) q1 (by decide) (by decide) (by decide)
  simp [decodeRaw32, decodeOp, e0, e1, f0, f1, f2, f3]
theorem sll (d : BitVec 5) (a : BitVec 5) (b : BitVec 5) (st : BitVec 3) : Statement (.sll d a b st) := by
  obtain ⟨hw, q0, q1, f0, f1, f2, f3⟩ := shape0 (w := 0xA000003 + d.toNat * 2 ^ 10 + a.toNat * 2 ^ 15 + b.toNat * 2 ^ 20 + st.toNat * 2 ^ 7) 0x3 0x5 d a b st
    (by omega) (by decide) (by decide)
  refine of32 rfl hw (by omega) fun wf_ => ?_
  generalize 0xA000003 + d.toNat * 2 ^ 10 + a.toNat * 2 ^ 15 + b.toNat * 2 ^ 20 + st.toNat * 2 ^ 7 = w at *
  have e0 := bits_sub (lo := 2) (m := 5) (v := 0) q0 (by decide) (by decide) (by decide)
  have e1 := bits_sub (lo := 25) (m := 7) (v := 5) q1 (by decide) (by decide) (by decide)
  simp [decodeRaw32, decodeOp, e0, e1, f0, f1, f2, f3]
theorem srl (d : BitVec 5) (a : BitVec 5) (b : BitVec 5) (st : BitVec 3) : Statement (.srl d a b st) := by
  obtain ⟨hw, q0, q1, f0, f1, f2, f3⟩ := shape0 (w := 0xC000003 + d.toNat * 2 ^ 10 + a.toNat * 2 ^ 15 + b.toNat * 2 ^ 20 + st.toNat * 2 ^ 7) 0x3 0x6 d a b st
    (by omega) (by decide) (by decide)
  refine of32 rfl hw (by omega) fun wf_ => ?_
  generalize 0xC000003 + d.toNat * 2 ^ 10 + a.toNat * 2 ^ 15 + b.toNat * 2 ^ 20 + st.toNat * 2 ^ 7 = w at *
  have e0 := bits_sub (lo := 2) (m := 5) (v := 0) q0 (by decide) (by decide) (by decide)
  have e1 := bits_sub (lo := 25) (m := 7) (v := 6) q1 (by decide) (by decide) (by decide)
  simp [decodeRaw32, decodeOp, e0, e1, f0, f1, f2, f3]
theorem sra (d : BitVec 5) (a : BitVec 5) (b : BitVec 5) (st : BitVec 3) : Statement (.sra d a b st) := by
  obtain ⟨hw, q0, q1, f0, f1, f2, f3⟩ := shape0 (w := 0xE000003 + d.toNat * 2 ^ 10 + a.toNat * 2 ^ 15 + b.toNat * 2 ^ 20 + st.toNat * 2 ^ 7) 0x3 0x7 d a b st
    (by omega) (by decide) (by decide)
  refine of32 rfl hw (by omega) fun wf_ => ?_
  generalize 0xE000003 + d.toNat * 2 ^ 10 + a.toNat * 2 ^ 15 + b.toNat * 2 ^ 20 + st.toNat * 2 ^ 7 = w at *
  have e0 := bits_sub (lo := 2) (m := 5) (v := 0) q0 (by decide) (by decide) (by decide)
  have e1 := bits_sub (lo := 25) (m := 7) (v := 7) q1 (by decide) (by decide) (by decide)
  simp [decodeRaw32, decodeOp, e0, e1, f0, f1, f2, f3]
theorem mul (d : BitVec 5) (a : BitVec 5) (b : BitVec 5) (st : BitVec 3) : Statement (.mul d a b st) := by
  obtain ⟨hw, q0, q1, f0, f1, f2, f3⟩ := shape0 (w := 0x10000003 + d.toNat * 2 ^ 10 + a.toNat * 2 ^ 15 + b.toNat * 2 ^ 20 + st.toNat * 2 ^ 7) 0x3 0x8 d a b st
    (by omega) (by decide) (by decide)
  refine of32 rfl hw (by omega) fun wf_ => ?_
  generalize 0x10000003 + d.toNat * 2 ^ 10 + a.toNat * 2 ^ 15 + b.toNat * 2 ^ 20 + st.toNat * 2 ^ 7 = w at *
  have e0 := bits_sub (lo := 2) (m := 5) (v := 0) q0 (by decide) (by decide) (by decide)
  have e1 := bits_sub (lo := 25) (m := 7) (v := 8) q1 (by decide) (by decide) (by decide)
  simp [decodeRaw32, decodeOp, e0, e1, f0, f1, f2, f3]
theorem mulh (d : BitVec 5) (a : BitVec 5) (b : BitVec 5) (st : BitVec 3) : Statement (.mulh d a b st) := by
  obtain ⟨hw, q0, q1, f0, f1, f2, f3⟩ := shape0 (w := 0x12000003 + d.toNat * 2 ^ 10 + a.toNat * 2 ^ 15 + b.toNat * 2 ^ 20 + st.toNat * 2 ^ 7) 0x3 0x9 d a b st
    (by omega) (by decide) (by decide)
  refine of32 rfl hw (by omega) fun wf_ => ?_
  generalize 0x12000003 + d.toNat * 2 ^ 10 + a.toNat * 2 ^ 15 + b.toNat * 2 ^ 20 + st.toNat * 2 ^ 7 = w at *
  have e0 := bits_sub (lo := 2) (m := 5) (v := 0) q0 (by decide) (by decide) (by decide)
  have e1 := bits_sub (lo := 25) (m := 7) (v := 9) q1 (by decide) (by decide) (by decide)
  simp [decodeRaw32, decodeOp, e0, e1, f0, f1, f2, f3]
theorem div (d : BitVec 5) (a : BitVec 5) (b : BitVec 5) (st : BitVec 3) : Statement (.div d a b st) := by
  obtain ⟨hw, q0, q1, f0, f1, f2, f3⟩ := shape0 (w := 0x14000003 + d.toNat * 2 ^ 10 + a.toNat * 2 ^ 15 + b.toNat * 2 ^ 20 + st.toNat * 2 ^ 7) 0x3 0xA d a b st
    (by omega) (by decide) (by decide)
  refine of32 rfl hw (by omega) fun wf_ => ?_
  generalize 0x14000003 + d.toNat * 2 ^ 10 + a.toNat * 2 ^ 15 + b.toNat * 2 ^ 20 + st.toNat * 2 ^ 7 = w at *
  have e0 := bits_sub (lo := 2) (m := 5) (v := 0) q0 (by decide) (by decide) (by decide)
  have e1 := bits_sub (lo := 25) (m := 7) (v := 10) q1 (by decide) (by decide) (by decide)
  simp [decodeRaw32, decodeOp, e0, e1, f0, f1, f2, f3]
theorem rem (d : BitVec 5) (a : BitVec 5) (b : BitVec 5) (st : BitVec 3) : Statement (.rem d a b st) := by
  obtain ⟨hw, q0, q1, f0, f1, f2, f3⟩ := shape0 (w := 0x16000003 + d.toNat * 2 ^ 10 + a.toNat * 2 ^ 15 + b.toNat * 2 ^ 20 + st.toNat * 2 ^ 7) 0x3 0xB d a b st
    (by omega) (by decide) (by decide)
  refine of32 rfl hw (by omega) fun wf_ => ?_
  generalize 0x16000003 + d.toNat * 2 ^ 10 + a.toNat * 2 ^ 15 + b.toNat * 2 ^ 20 + st.toNat * 2 ^ 7 = w at *
  have e0 := bits_sub (lo := 2) (m := 5) (v := 0) q0 (by decide) (by decide) (by decide)
  have e1 := bits_sub (lo := 25) (m := 7) (v := 11) q1 (by decide) (by decide) (by decide)
  simp [decodeRaw32, decodeOp, e0, e1, f0, f1, f2, f3]
theorem min (d : BitVec 5) (a : BitVec 5) (b : BitVec 5) (st : BitVec 3) : Statement (.min d a b st) := by
  obtain ⟨hw, q0, q1, f0, f1, f2, f3⟩ := shape0 (w := 0x18000003 + d.toNat * 2 ^ 10 + a.toNat * 2 ^ 15 + b.toNat * 2 ^ 20 + st.toNat * 2 ^ 7) 0x3 0xC d a b st
    (by omega) (by decide) (by decide)
  refine of32 rfl hw (by omega) fun wf_ => ?_
  generalize 0x18000003 + d.toNat * 2 ^ 10 + a.toNat * 2 ^ 15 + b.toNat * 2 ^ 20 + st.toNat * 2 ^ 7 = w at *
  have e0 := bits_sub (lo := 2) (m := 5) (v := 0) q0 (by decide) (by decide) (by decide)
  have e1 := bits_sub (lo := 25) (m := 7) (v := 12) q1 (by decide) (by decide) (by decide)
  simp [decodeRaw32, decodeOp, e0, e1, f0, f1, f2, f3]
theorem max (d : BitVec 5) (a : BitVec 5) (b : BitVec 5) (st : BitVec 3) : Statement (.max d a b st) := by
  obtain ⟨hw, q0, q1, f0, f1, f2, f3⟩ := shape0 (w := 0x1A000003 + d.toNat * 2 ^ 10 + a.toNat * 2 ^ 15 + b.toNat * 2 ^ 20 + st.toNat * 2 ^ 7) 0x3 0xD d a b st
    (by omega) (by decide) (by decide)
  refine of32 rfl hw (by omega) fun wf_ => ?_
  generalize 0x1A000003 + d.toNat * 2 ^ 10 + a.toNat * 2 ^ 15 + b.toNat * 2 ^ 20 + st.toNat * 2 ^ 7 = w at *
  have e0 := bits_sub (lo := 2) (m := 5) (v := 0) q0 (by decide) (by decide) (by decide)
  have e1 := bits_sub (lo := 25) (m := 7) (v := 13) q1 (by decide) (by decide) (by decide)
  simp [decodeRaw32, decodeOp, e0, e1, f0, f1, f2, f3]
theorem minn (d : BitVec 5) (a : BitVec 5) (b : BitVec 5) (st : BitVec 3) : Statement (.minn d a b st) := by
  obtain ⟨hw, q0, q1, f0, f1, f2, f3⟩ := shape0 (w := 0x1C000003 + d.toNat * 2 ^ 10 + a.toNat * 2 ^ 15 + b.toNat * 2 ^ 20 + st.toNat * 2 ^ 7) 0x3 0xE d a b st
    (by omega) (by decide) (by decide)
  refine of32 rfl hw (by omega) fun wf_ => ?_
  generalize 0x1C000003 + d.toNat * 2 ^ 10 + a.toNat * 2 ^ 15 + b.toNat * 2 ^ 20 + st.toNat * 2 ^ 7 = w at *
  have e0 := bits_sub (lo := 2) (m := 5) (v := 0) q0 (by decide) (by decide) (by decide)
  have e1 := bits_sub (lo := 25) (m := 7) (v := 14) q1 (by decide) (by decide) (by decide)
  simp [decodeRaw32, decodeOp, e0, e1, f0, f1, f2, f3]
theorem maxn (d : BitVec 5) (a : BitVec 5) (b : BitVec 5) (st : BitVec 3) : Statement (.maxn d a b st) := by
  obtain ⟨hw, q0, q1, f0, f1, f2, f3⟩ := shape0 (w := 0x1E000003 + d.toNat * 2 ^ 10 + a.toNat * 2 ^ 15 + b.toNat * 2 ^ 20 + st.toNat * 2 ^ 7) 0x3 0xF d a b st
    (by omega) (by decide) (by decide)
  refine of32 rfl hw (by omega) fun wf_ => ?_
  generalize 0x1E000003 + d.toNat * 2 ^ 10 + a.toNat * 2 ^ 15 + b.toNat * 2 ^ 20 + st.toNat * 2 ^ 7 = w at *
  have e0 := bits_sub (lo := 2) (m := 5) (v := 0) q0 (by decide) (by decide) (by decide)
  have e1 := bits_sub (lo := 25) (m := 7) (v := 15) q1 (by decide) (by decide) (by decide)
  simp [decodeRaw32, decodeOp, e0, e1, f0, f1, f2, f3]
theorem mov (d : BitVec 5) (a : BitVec 5) (st : BitVec 3) : Statement (.mov d a st) := by
  obtain ⟨hw, q0, q1, f0, f1, f2⟩ := shape1 (w := 0x20000003 + d.toNat * 2 ^ 10 + a.toNat * 2 ^ 15 + st.toNat * 2 ^ 7) 0x3 0x200 d a st
    (by omega) (by decide) (by decide)
  refine of32 rfl hw (by omega) fun wf_ => ?_
  generalize 0x20000003 + d.toNat * 2 ^ 10 + a.toNat * 2 ^ 15 + st.toNat * 2 ^ 7 = w at *
  have e0 := bits_sub (lo := 2) (m := 5) (v := 0) q0 (by decide) (by decide) (by decide)
  have e1 := bits_sub (lo := 20) (m := 5) (v := 0) q1 (by decide) (by decide) (by decide)
  have e2 := bits_sub (lo := 25) (m := 7) (v := 16) q1 (by decide) (by decide) (by decide)
  simp [decodeRaw32, decodeOp, needZero, e0, e1, e2, f0, f1, f2]
theorem cmpEq (d : BitVec 5) (a : BitVec 5) (b : BitVec 5) (st : BitVec 3) : Statement (.cmpEq d a b st) := by
  obtain ⟨hw, q0, q1, f0, f1, f2, f3⟩ := shape0 (w := 0x22000003 + d.toNat * 2 ^ 10 + a.toNat * 2 ^ 15 + b.toNat * 2 ^ 20 + st.toNat * 2 ^ 7) 0x3 0x11 d a b st
    (by omega) (by decide) (by decide)
  refine of32 rfl hw (by omega) fun wf_ => ?_
  generalize 0x22000003 + d.toNat * 2 ^ 10 + a.toNat * 2 ^ 15 + b.toNat * 2 ^ 20 + st.toNat * 2 ^ 7 = w at *
  have e0 := bits_sub (lo := 2) (m := 5) (v := 0) q0 (by decide) (by decide) (by decide)
  have e1 := bits_sub (lo := 25) (m := 7) (v := 17) q1 (by decide) (by decide) (by decide)
  simp [decodeRaw32, decodeOp, e0, e1, f0, f1, f2, f3]
theorem cmpNe (d : BitVec 5) (a : BitVec 5) (b : BitVec 5) (st : BitVec 3) : Statement (.cmpNe d a b st) := by
  obtain ⟨hw, q0, q1, f0, f1, f2, f3⟩ := shape0 (w := 0x24000003 + d.toNat * 2 ^ 10 + a.toNat * 2 ^ 15 + b.toNat * 2 ^ 20 + st.toNat * 2 ^ 7) 0x3 0x12 d a b st
    (by omega) (by decide) (by decide)
  refine of32 rfl hw (by omega) fun wf_ => ?_
  generalize 0x24000003 + d.toNat * 2 ^ 10 + a.toNat * 2 ^ 15 + b.toNat * 2 ^ 20 + st.toNat * 2 ^ 7 = w at *
  have e0 := bits_sub (lo := 2) (m := 5) (v := 0) q0 (by decide) (by decide) (by decide)
  have e1 := bits_sub (lo := 25) (m := 7) (v := 18) q1 (by decide) (by decide) (by decide)
  simp [decodeRaw32, decodeOp, e0, e1, f0, f1, f2, f3]
theorem cmpLt (d : BitVec 5) (a : BitVec 5) (b : BitVec 5) (st : BitVec 3) : Statement (.cmpLt d a b st) := by
  obtain ⟨hw, q0, q1, f0, f1, f2, f3⟩ := shape0 (w := 0x26000003 + d.toNat * 2 ^ 10 + a.toNat * 2 ^ 15 + b.toNat * 2 ^ 20 + st.toNat * 2 ^ 7) 0x3 0x13 d a b st
    (by omega) (by decide) (by decide)
  refine of32 rfl hw (by omega) fun wf_ => ?_
  generalize 0x26000003 + d.toNat * 2 ^ 10 + a.toNat * 2 ^ 15 + b.toNat * 2 ^ 20 + st.toNat * 2 ^ 7 = w at *
  have e0 := bits_sub (lo := 2) (m := 5) (v := 0) q0 (by decide) (by decide) (by decide)
  have e1 := bits_sub (lo := 25) (m := 7) (v := 19) q1 (by decide) (by decide) (by decide)
  simp [decodeRaw32, decodeOp, e0, e1, f0, f1, f2, f3]
theorem cmpGe (d : BitVec 5) (a : BitVec 5) (b : BitVec 5) (st : BitVec 3) : Statement (.cmpGe d a b st) := by
  obtain ⟨hw, q0, q1, f0, f1, f2, f3⟩ := shape0 (w := 0x28000003 + d.toNat * 2 ^ 10 + a.toNat * 2 ^ 15 + b.toNat * 2 ^ 20 + st.toNat * 2 ^ 7) 0x3 0x14 d a b st
    (by omega) (by decide) (by decide)
  refine of32 rfl hw (by omega) fun wf_ => ?_
  generalize 0x28000003 + d.toNat * 2 ^ 10 + a.toNat * 2 ^ 15 + b.toNat * 2 ^ 20 + st.toNat * 2 ^ 7 = w at *
  have e0 := bits_sub (lo := 2) (m := 5) (v := 0) q0 (by decide) (by decide) (by decide)
  have e1 := bits_sub (lo := 25) (m := 7) (v := 20) q1 (by decide) (by decide) (by decide)
  simp [decodeRaw32, decodeOp, e0, e1, f0, f1, f2, f3]
theorem cmpLtn (d : BitVec 5) (a : BitVec 5) (b : BitVec 5) (st : BitVec 3) : Statement (.cmpLtn d a b st) := by
  obtain ⟨hw, q0, q1, f0, f1, f2, f3⟩ := shape0 (w := 0x2A000003 + d.toNat * 2 ^ 10 + a.toNat * 2 ^ 15 + b.toNat * 2 ^ 20 + st.toNat * 2 ^ 7) 0x3 0x15 d a b st
    (by omega) (by decide) (by decide)
  refine of32 rfl hw (by omega) fun wf_ => ?_
  generalize 0x2A000003 + d.toNat * 2 ^ 10 + a.toNat * 2 ^ 15 + b.toNat * 2 ^ 20 + st.toNat * 2 ^ 7 = w at *
  have e0 := bits_sub (lo := 2) (m := 5) (v := 0) q0 (by decide) (by decide) (by decide)
  have e1 := bits_sub (lo := 25) (m := 7) (v := 21) q1 (by decide) (by decide) (by decide)
  simp [decodeRaw32, decodeOp, e0, e1, f0, f1, f2, f3]
theorem cmpGen (d : BitVec 5) (a : BitVec 5) (b : BitVec 5) (st : BitVec 3) : Statement (.cmpGen d a b st) := by
  obtain ⟨hw, q0, q1, f0, f1, f2, f3⟩ := shape0 (w := 0x2C000003 + d.toNat * 2 ^ 10 + a.toNat * 2 ^ 15 + b.toNat * 2 ^ 20 + st.toNat * 2 ^ 7) 0x3 0x16 d a b st
    (by omega) (by decide) (by decide)
  refine of32 rfl hw (by omega) fun wf_ => ?_
  generalize 0x2C000003 + d.toNat * 2 ^ 10 + a.toNat * 2 ^ 15 + b.toNat * 2 ^ 20 + st.toNat * 2 ^ 7 = w at *
  have e0 := bits_sub (lo := 2) (m := 5) (v := 0) q0 (by decide) (by decide) (by decide)
  have e1 := bits_sub (lo := 25) (m := 7) (v := 22) q1 (by decide) (by decide) (by decide)
  simp [decodeRaw32, decodeOp, e0, e1, f0, f1, f2, f3]
theorem sel (d : BitVec 5) (a : BitVec 5) (b : BitVec 5) (st : BitVec 3) : Statement (.sel d a b st) := by
  obtain ⟨hw, q0, q1, f0, f1, f2, f3⟩ := shape0 (w := 0x2E000003 + d.toNat * 2 ^ 10 + a.toNat * 2 ^ 15 + b.toNat * 2 ^ 20 + st.toNat * 2 ^ 7) 0x3 0x17 d a b st
    (by omega) (by decide) (by decide)
  refine of32 rfl hw (by omega) fun wf_ => ?_
  generalize 0x2E000003 + d.toNat * 2 ^ 10 + a.toNat * 2 ^ 15 + b.toNat * 2 ^ 20 + st.toNat * 2 ^ 7 = w at *
  have e0 := bits_sub (lo := 2) (m := 5) (v := 0) q0 (by decide) (by decide) (by decide)
  have e1 := bits_sub (lo := 25) (m := 7) (v := 23) q1 (by decide) (by decide) (by decide)
  simp [decodeRaw32, decodeOp, e0, e1, f0, f1, f2, f3]
theorem clz (d : BitVec 5) (a : BitVec 5) (st : BitVec 3) : Statement (.clz d a st) := by
  obtain ⟨hw, q0, q1, f0, f1, f2⟩ := shape1 (w := 0x30000003 + d.toNat * 2 ^ 10 + a.toNat * 2 ^ 15 + st.toNat * 2 ^ 7) 0x3 0x300 d a st
    (by omega) (by decide) (by decide)
  refine of32 rfl hw (by omega) fun wf_ => ?_
  generalize 0x30000003 + d.toNat * 2 ^ 10 + a.toNat * 2 ^ 15 + st.toNat * 2 ^ 7 = w at *
  have e0 := bits_sub (lo := 2) (m := 5) (v := 0) q0 (by decide) (by decide) (by decide)
  have e1 := bits_sub (lo := 20) (m := 5) (v := 0) q1 (by decide) (by decide) (by decide)
  have e2 := bits_sub (lo := 25) (m := 7) (v := 24) q1 (by decide) (by decide) (by decide)
  simp [decodeRaw32, decodeOp, needZero, e0, e1, e2, f0, f1, f2]
theorem popc (d : BitVec 5) (a : BitVec 5) (st : BitVec 3) : Statement (.popc d a st) := by
  obtain ⟨hw, q0, q1, f0, f1, f2⟩ := shape1 (w := 0x32000003 + d.toNat * 2 ^ 10 + a.toNat * 2 ^ 15 + st.toNat * 2 ^ 7) 0x3 0x320 d a st
    (by omega) (by decide) (by decide)
  refine of32 rfl hw (by omega) fun wf_ => ?_
  generalize 0x32000003 + d.toNat * 2 ^ 10 + a.toNat * 2 ^ 15 + st.toNat * 2 ^ 7 = w at *
  have e0 := bits_sub (lo := 2) (m := 5) (v := 0) q0 (by decide) (by decide) (by decide)
  have e1 := bits_sub (lo := 20) (m := 5) (v := 0) q1 (by decide) (by decide) (by decide)
  have e2 := bits_sub (lo := 25) (m := 7) (v := 25) q1 (by decide) (by decide) (by decide)
  simp [decodeRaw32, decodeOp, needZero, e0, e1, e2, f0, f1, f2]
theorem bdep (d : BitVec 5) (a : BitVec 5) (b : BitVec 5) (st : BitVec 3) : Statement (.bdep d a b st) := by
  obtain ⟨hw, q0, q1, f0, f1, f2, f3⟩ := shape0 (w := 0x34000003 + d.toNat * 2 ^ 10 + a.toNat * 2 ^ 15 + b.toNat * 2 ^ 20 + st.toNat * 2 ^ 7) 0x3 0x1A d a b st
    (by omega) (by decide) (by decide)
  refine of32 rfl hw (by omega) fun wf_ => ?_
  generalize 0x34000003 + d.toNat * 2 ^ 10 + a.toNat * 2 ^ 15 + b.toNat * 2 ^ 20 + st.toNat * 2 ^ 7 = w at *
  have e0 := bits_sub (lo := 2) (m := 5) (v := 0) q0 (by decide) (by decide) (by decide)
  have e1 := bits_sub (lo := 25) (m := 7) (v := 26) q1 (by decide) (by decide) (by decide)
  simp [decodeRaw32, decodeOp, e0, e1, f0, f1, f2, f3]
theorem bxtr (d : BitVec 5) (a : BitVec 5) (b : BitVec 5) (st : BitVec 3) : Statement (.bxtr d a b st) := by
  obtain ⟨hw, q0, q1, f0, f1, f2, f3⟩ := shape0 (w := 0x36000003 + d.toNat * 2 ^ 10 + a.toNat * 2 ^ 15 + b.toNat * 2 ^ 20 + st.toNat * 2 ^ 7) 0x3 0x1B d a b st
    (by omega) (by decide) (by decide)
  refine of32 rfl hw (by omega) fun wf_ => ?_
  generalize 0x36000003 + d.toNat * 2 ^ 10 + a.toNat * 2 ^ 15 + b.toNat * 2 ^ 20 + st.toNat * 2 ^ 7 = w at *
  have e0 := bits_sub (lo := 2) (m := 5) (v := 0) q0 (by decide) (by decide) (by decide)
  have e1 := bits_sub (lo := 25) (m := 7) (v := 27) q1 (by decide) (by decide) (by decide)
  simp [decodeRaw32, decodeOp, e0, e1, f0, f1, f2, f3]
theorem addi (d : BitVec 5) (a : BitVec 5) (i : BitVec 12) (st : BitVec 3) : Statement (.addi d a i st) := by
  obtain ⟨hw, q0, f0, f1, f2, f3⟩ := shape2 (w := 0x7 + d.toNat * 2 ^ 10 + a.toNat * 2 ^ 15 + i.toNat * 2 ^ 20 + st.toNat * 2 ^ 7) 0x7 d a i st
    (by omega) (by decide)
  refine of32 rfl hw (by omega) fun wf_ => ?_
  generalize 0x7 + d.toNat * 2 ^ 10 + a.toNat * 2 ^ 15 + i.toNat * 2 ^ 20 + st.toNat * 2 ^ 7 = w at *
  have e0 := bits_sub (lo := 2) (m := 5) (v := 1) q0 (by decide) (by decide) (by decide)
  simp [decodeRaw32, e0, f0, f1, f2, f3]
theorem andi (d : BitVec 5) (a : BitVec 5) (i : BitVec 10) (st : BitVec 3) : Statement (.andi d a i st) := by
  obtain ⟨hw, q0, q1, f0, f1, f2, f3⟩ := shape3 (w := 0xB + d.toNat * 2 ^ 10 + a.toNat * 2 ^ 15 + i.toNat * 2 ^ 20 + st.toNat * 2 ^ 7) 0xB 0x0 d a i st
    (by omega) (by decide) (by decide)
  refine of32 rfl hw (by omega) fun wf_ => ?_
  generalize 0xB + d.toNat * 2 ^ 10 + a.toNat * 2 ^ 15 + i.toNat * 2 ^ 20 + st.toNat * 2 ^ 7 = w at *
  have e0 := bits_sub (lo := 2) (m := 5) (v := 2) q0 (by decide) (by decide) (by decide)
  have e1 := bits_sub (lo := 30) (m := 2) (v := 0) q1 (by decide) (by decide) (by decide)
  simp [decodeRaw32, decodeLogi, e0, e1, f0, f1, f2, f3]
theorem ori (d : BitVec 5) (a : BitVec 5) (i : BitVec 10) (st : BitVec 3) : Statement (.ori d a i st) := by
  obtain ⟨hw, q0, q1, f0, f1, f2, f3⟩ := shape3 (w := 0x4000000B + d.toNat * 2 ^ 10 + a.toNat * 2 ^ 15 + i.toNat * 2 ^ 20 + st.toNat * 2 ^ 7) 0xB 0x1 d a i st
    (by omega) (by decide) (by decide)
  refine of32 rfl hw (by omega) fun wf_ => ?_
  generalize 0x4000000B + d.toNat * 2 ^ 10 + a.toNat * 2 ^ 15 + i.toNat * 2 ^ 20 + st.toNat * 2 ^ 7 = w at *
  have e0 := bits_sub (lo := 2) (m := 5) (v := 2) q0 (by decide) (by decide) (by decide)
  have e1 := bits_sub (lo := 30) (m := 2) (v := 1) q1 (by decide) (by decide) (by decide)
  simp [decodeRaw32, decodeLogi, e0, e1, f0, f1, f2, f3]
theorem xori (d : BitVec 5) (a : BitVec 5) (i : BitVec 10) (st : BitVec 3) : Statement (.xori d a i st) := by
  obtain ⟨hw, q0, q1, f0, f1, f2, f3⟩ := shape3 (w := 0x8000000B + d.toNat * 2 ^ 10 + a.toNat * 2 ^ 15 + i.toNat * 2 ^ 20 + st.toNat * 2 ^ 7) 0xB 0x2 d a i st
    (by omega) (by decide) (by decide)
  refine of32 rfl hw (by omega) fun wf_ => ?_
  generalize 0x8000000B + d.toNat * 2 ^ 10 + a.toNat * 2 ^ 15 + i.toNat * 2 ^ 20 + st.toNat * 2 ^ 7 = w at *
  have e0 := bits_sub (lo := 2) (m := 5) (v := 2) q0 (by decide) (by decide) (by decide)
  have e1 := bits_sub (lo := 30) (m := 2) (v := 2) q1 (by decide) (by decide) (by decide)
  simp [decodeRaw32, decodeLogi, e0, e1, f0, f1, f2, f3]
theorem slli (d : BitVec 5) (a : BitVec 5) (k : BitVec 6) (st : BitVec 3) : Statement (.slli d a k st) := by
  obtain ⟨hw, q0, q1, f0, f1, f2, f3⟩ := shape4 (w := 0xC000000B + d.toNat * 2 ^ 10 + a.toNat * 2 ^ 15 + k.toNat * 2 ^ 20 + st.toNat * 2 ^ 7) 0xB 0x30 d a k st
    (by omega) (by decide) (by decide)
  refine of32 rfl hw (by omega) fun wf_ => ?_
  generalize 0xC000000B + d.toNat * 2 ^ 10 + a.toNat * 2 ^ 15 + k.toNat * 2 ^ 20 + st.toNat * 2 ^ 7 = w at *
  have e0 := bits_sub (lo := 2) (m := 5) (v := 2) q0 (by decide) (by decide) (by decide)
  have e1 := bits_sub (lo := 26) (m := 2) (v := 0) q1 (by decide) (by decide) (by decide)
  have e2 := bits_sub (lo := 28) (m := 2) (v := 0) q1 (by decide) (by decide) (by decide)
  have e3 := bits_sub (lo := 30) (m := 2) (v := 3) q1 (by decide) (by decide) (by decide)
  simp [decodeRaw32, decodeLogi, needZero, e0, e1, e2, e3, f0, f1, f2, f3]
theorem srli (d : BitVec 5) (a : BitVec 5) (k : BitVec 6) (st : BitVec 3) : Statement (.srli d a k st) := by
  obtain ⟨hw, q0, q1, f0, f1, f2, f3⟩ := shape4 (w := 0xD000000B + d.toNat * 2 ^ 10 + a.toNat * 2 ^ 15 + k.toNat * 2 ^ 20 + st.toNat * 2 ^ 7) 0xB 0x34 d a k st
    (by omega) (by decide) (by decide)
  refine of32 rfl hw (by omega) fun wf_ => ?_
  generalize 0xD000000B + d.toNat * 2 ^ 10 + a.toNat * 2 ^ 15 + k.toNat * 2 ^ 20 + st.toNat * 2 ^ 7 = w at *
  have e0 := bits_sub (lo := 2) (m := 5) (v := 2) q0 (by decide) (by decide) (by decide)
  have e1 := bits_sub (lo := 26) (m := 2) (v := 0) q1 (by decide) (by decide) (by decide)
  have e2 := bits_sub (lo := 28) (m := 2) (v := 1) q1 (by decide) (by decide) (by decide)
  have e3 := bits_sub (lo := 30) (m := 2) (v := 3) q1 (by decide) (by decide) (by decide)
  simp [decodeRaw32, decodeLogi, needZero, e0, e1, e2, e3, f0, f1, f2, f3]
theorem srai (d : BitVec 5) (a : BitVec 5) (k : BitVec 6) (st : BitVec 3) : Statement (.srai d a k st) := by
  obtain ⟨hw, q0, q1, f0, f1, f2, f3⟩ := shape4 (w := 0xE000000B + d.toNat * 2 ^ 10 + a.toNat * 2 ^ 15 + k.toNat * 2 ^ 20 + st.toNat * 2 ^ 7) 0xB 0x38 d a k st
    (by omega) (by decide) (by decide)
  refine of32 rfl hw (by omega) fun wf_ => ?_
  generalize 0xE000000B + d.toNat * 2 ^ 10 + a.toNat * 2 ^ 15 + k.toNat * 2 ^ 20 + st.toNat * 2 ^ 7 = w at *
  have e0 := bits_sub (lo := 2) (m := 5) (v := 2) q0 (by decide) (by decide) (by decide)
  have e1 := bits_sub (lo := 26) (m := 2) (v := 0) q1 (by decide) (by decide) (by decide)
  have e2 := bits_sub (lo := 28) (m := 2) (v := 2) q1 (by decide) (by decide) (by decide)
  have e3 := bits_sub (lo := 30) (m := 2) (v := 3) q1 (by decide) (by decide) (by decide)
  simp [decodeRaw32, decodeLogi, needZero, e0, e1, e2, e3, f0, f1, f2, f3]
theorem lim (d : BitVec 5) (i : BitVec 17) (st : BitVec 3) : Statement (.lim d i st) := by
  obtain ⟨hw, q0, f0, f1, f2⟩ := shape5 (w := 0xF + d.toNat * 2 ^ 10 + i.toNat * 2 ^ 15 + st.toNat * 2 ^ 7) 0xF d i st
    (by omega) (by decide)
  refine of32 rfl hw (by omega) fun wf_ => ?_
  generalize 0xF + d.toNat * 2 ^ 10 + i.toNat * 2 ^ 15 + st.toNat * 2 ^ 7 = w at *
  have e0 := bits_sub (lo := 2) (m := 5) (v := 3) q0 (by decide) (by decide) (by decide)
  simp [decodeRaw32, e0, f0, f1, f2]
theorem jal (d : BitVec 5) (o : BitVec 17) (st : BitVec 3) : Statement (.jal d o st) := by
  obtain ⟨hw, q0, f0, f1, f2⟩ := shape5 (w := 0x13 + d.toNat * 2 ^ 10 + o.toNat * 2 ^ 15 + st.toNat * 2 ^ 7) 0x13 d o st
    (by omega) (by decide)
  refine of32 rfl hw (by omega) fun wf_ => ?_
  generalize 0x13 + d.toNat * 2 ^ 10 + o.toNat * 2 ^ 15 + st.toNat * 2 ^ 7 = w at *
  have e0 := bits_sub (lo := 2) (m := 5) (v := 4) q0 (by decide) (by decide) (by decide)
  simp [decodeRaw32, e0, f0, f1, f2]
theorem jr (d : BitVec 5) (a : BitVec 5) (i : BitVec 12) (st : BitVec 3) : Statement (.jr d a i st) := by
  obtain ⟨hw, q0, f0, f1, f2, f3⟩ := shape2 (w := 0x17 + d.toNat * 2 ^ 10 + a.toNat * 2 ^ 15 + i.toNat * 2 ^ 20 + st.toNat * 2 ^ 7) 0x17 d a i st
    (by omega) (by decide)
  refine of32 rfl hw (by omega) fun wf_ => ?_
  generalize 0x17 + d.toNat * 2 ^ 10 + a.toNat * 2 ^ 15 + i.toNat * 2 ^ 20 + st.toNat * 2 ^ 7 = w at *
  have e0 := bits_sub (lo := 2) (m := 5) (v := 5) q0 (by decide) (by decide) (by decide)
  simp [decodeRaw32, e0, f0, f1, f2, f3]
theorem brEq (a : BitVec 5) (b : BitVec 5) (o : BitVec 12) (st : BitVec 3) : Statement (.brEq a b o st) := by
  obtain ⟨hw, q0, f0, f1, f2, f3⟩ := shape2 (w := 0x1B + a.toNat * 2 ^ 10 + b.toNat * 2 ^ 15 + o.toNat * 2 ^ 20 + st.toNat * 2 ^ 7) 0x1B a b o st
    (by omega) (by decide)
  refine of32 rfl hw (by omega) fun wf_ => ?_
  generalize 0x1B + a.toNat * 2 ^ 10 + b.toNat * 2 ^ 15 + o.toNat * 2 ^ 20 + st.toNat * 2 ^ 7 = w at *
  have e0 := bits_sub (lo := 2) (m := 5) (v := 6) q0 (by decide) (by decide) (by decide)
  simp [decodeRaw32, e0, f0, f1, f2, f3]
theorem brNe (a : BitVec 5) (b : BitVec 5) (o : BitVec 12) (st : BitVec 3) : Statement (.brNe a b o st) := by
  obtain ⟨hw, q0, f0, f1, f2, f3⟩ := shape2 (w := 0x1F + a.toNat * 2 ^ 10 + b.toNat * 2 ^ 15 + o.toNat * 2 ^ 20 + st.toNat * 2 ^ 7) 0x1F a b o st
    (by omega) (by decide)
  refine of32 rfl hw (by omega) fun wf_ => ?_
  generalize 0x1F + a.toNat * 2 ^ 10 + b.toNat * 2 ^ 15 + o.toNat * 2 ^ 20 + st.toNat * 2 ^ 7 = w at *
  have e0 := bits_sub (lo := 2) (m := 5) (v := 7) q0 (by decide) (by decide) (by decide)
  simp [decodeRaw32, e0, f0, f1, f2, f3]
theorem brLt (a : BitVec 5) (b : BitVec 5) (o : BitVec 12) (st : BitVec 3) : Statement (.brLt a b o st) := by
  obtain ⟨hw, q0, f0, f1, f2, f3⟩ := shape2 (w := 0x23 + a.toNat * 2 ^ 10 + b.toNat * 2 ^ 15 + o.toNat * 2 ^ 20 + st.toNat * 2 ^ 7) 0x23 a b o st
    (by omega) (by decide)
  refine of32 rfl hw (by omega) fun wf_ => ?_
  generalize 0x23 + a.toNat * 2 ^ 10 + b.toNat * 2 ^ 15 + o.toNat * 2 ^ 20 + st.toNat * 2 ^ 7 = w at *
  have e0 := bits_sub (lo := 2) (m := 5) (v := 8) q0 (by decide) (by decide) (by decide)
  simp [decodeRaw32, e0, f0, f1, f2, f3]
theorem brGe (a : BitVec 5) (b : BitVec 5) (o : BitVec 12) (st : BitVec 3) : Statement (.brGe a b o st) := by
  obtain ⟨hw, q0, f0, f1, f2, f3⟩ := shape2 (w := 0x27 + a.toNat * 2 ^ 10 + b.toNat * 2 ^ 15 + o.toNat * 2 ^ 20 + st.toNat * 2 ^ 7) 0x27 a b o st
    (by omega) (by decide)
  refine of32 rfl hw (by omega) fun wf_ => ?_
  generalize 0x27 + a.toNat * 2 ^ 10 + b.toNat * 2 ^ 15 + o.toNat * 2 ^ 20 + st.toNat * 2 ^ 7 = w at *
  have e0 := bits_sub (lo := 2) (m := 5) (v := 9) q0 (by decide) (by decide) (by decide)
  simp [decodeRaw32, e0, f0, f1, f2, f3]
theorem brLtn (a : BitVec 5) (b : BitVec 5) (o : BitVec 12) (st : BitVec 3) : Statement (.brLtn a b o st) := by
  obtain ⟨hw, q0, f0, f1, f2, f3⟩ := shape2 (w := 0x2B + a.toNat * 2 ^ 10 + b.toNat * 2 ^ 15 + o.toNat * 2 ^ 20 + st.toNat * 2 ^ 7) 0x2B a b o st
    (by omega) (by decide)
  refine of32 rfl hw (by omega) fun wf_ => ?_
  generalize 0x2B + a.toNat * 2 ^ 10 + b.toNat * 2 ^ 15 + o.toNat * 2 ^ 20 + st.toNat * 2 ^ 7 = w at *
  have e0 := bits_sub (lo := 2) (m := 5) (v := 10) q0 (by decide) (by decide) (by decide)
  simp [decodeRaw32, e0, f0, f1, f2, f3]
theorem brGen (a : BitVec 5) (b : BitVec 5) (o : BitVec 12) (st : BitVec 3) : Statement (.brGen a b o st) := by
  obtain ⟨hw, q0, f0, f1, f2, f3⟩ := shape2 (w := 0x2F + a.toNat * 2 ^ 10 + b.toNat * 2 ^ 15 + o.toNat * 2 ^ 20 + st.toNat * 2 ^ 7) 0x2F a b o st
    (by omega) (by decide)
  refine of32 rfl hw (by omega) fun wf_ => ?_
  generalize 0x2F + a.toNat * 2 ^ 10 + b.toNat * 2 ^ 15 + o.toNat * 2 ^ 20 + st.toNat * 2 ^ 7 = w at *
  have e0 := bits_sub (lo := 2) (m := 5) (v := 11) q0 (by decide) (by decide) (by decide)
  simp [decodeRaw32, e0, f0, f1, f2, f3]
theorem loop (a : BitVec 5) (o : BitVec 12) (st : BitVec 3) : Statement (.loop a o st) := by
  obtain ⟨hw, q0, q1, f0, f1, f2⟩ := shape6 (w := 0x33 + a.toNat * 2 ^ 10 + o.toNat * 2 ^ 20 + st.toNat * 2 ^ 7) 0x33 0x0 a o st
    (by omega) (by decide) (by decide)
  refine of32 rfl hw (by omega) fun wf_ => ?_
  generalize 0x33 + a.toNat * 2 ^ 10 + o.toNat * 2 ^ 20 + st.toNat * 2 ^ 7 = w at *
  have e0 := bits_sub (lo := 2) (m := 5) (v := 12) q0 (by decide) (by decide) (by decide)
  have e1 := bits_sub (lo := 15) (m := 5) (v := 0) q1 (by decide) (by decide) (by decide)
  simp [decodeRaw32, needZero, e0, e1, f0, f1, f2]
theorem ldB (d : BitVec 5) (b : BitVec 5) (x : BitVec 1) (o : BitVec 9) (st : BitVec 3) : Statement (.ldB d b x o st) := by
  obtain ⟨hw, q0, q1, f0, f1, f2, f3, f4⟩ := shape7 (w := 0x37 + d.toNat * 2 ^ 10 + b.toNat * 2 ^ 15 + x.toNat * 2 ^ 20 + o.toNat * 2 ^ 23 + st.toNat * 2 ^ 7) 0x37 0x0 d b x o st
    (by omega) (by decide) (by decide)
  refine of32 rfl hw (by omega) fun wf_ => ?_
  generalize 0x37 + d.toNat * 2 ^ 10 + b.toNat * 2 ^ 15 + x.toNat * 2 ^ 20 + o.toNat * 2 ^ 23 + st.toNat * 2 ^ 7 = w at *
  have e0 := bits_sub (lo := 2) (m := 5) (v := 13) q0 (by decide) (by decide) (by decide)
  have e1 := bits_sub (lo := 21) (m := 2) (v := 0) q1 (by decide) (by decide) (by decide)
  simp [decodeRaw32, decodeLd, e0, e1, f0, f1, f2, f3, f4]
theorem ldH (d : BitVec 5) (b : BitVec 5) (x : BitVec 1) (o : BitVec 9) (st : BitVec 3) : Statement (.ldH d b x o st) := by
  obtain ⟨hw, q0, q1, f0, f1, f2, f3, f4⟩ := shape7 (w := 0x200037 + d.toNat * 2 ^ 10 + b.toNat * 2 ^ 15 + x.toNat * 2 ^ 20 + o.toNat * 2 ^ 23 + st.toNat * 2 ^ 7) 0x37 0x1 d b x o st
    (by omega) (by decide) (by decide)
  refine of32 rfl hw (by omega) fun wf_ => ?_
  generalize 0x200037 + d.toNat * 2 ^ 10 + b.toNat * 2 ^ 15 + x.toNat * 2 ^ 20 + o.toNat * 2 ^ 23 + st.toNat * 2 ^ 7 = w at *
  have e0 := bits_sub (lo := 2) (m := 5) (v := 13) q0 (by decide) (by decide) (by decide)
  have e1 := bits_sub (lo := 21) (m := 2) (v := 1) q1 (by decide) (by decide) (by decide)
  simp [decodeRaw32, decodeLd, e0, e1, f0, f1, f2, f3, f4]
theorem ldW (d : BitVec 5) (b : BitVec 5) (x : BitVec 1) (o : BitVec 9) (st : BitVec 3) : Statement (.ldW d b x o st) := by
  obtain ⟨hw, q0, q1, f0, f1, f2, f3, f4⟩ := shape7 (w := 0x400037 + d.toNat * 2 ^ 10 + b.toNat * 2 ^ 15 + x.toNat * 2 ^ 20 + o.toNat * 2 ^ 23 + st.toNat * 2 ^ 7) 0x37 0x2 d b x o st
    (by omega) (by decide) (by decide)
  refine of32 rfl hw (by omega) fun wf_ => ?_
  generalize 0x400037 + d.toNat * 2 ^ 10 + b.toNat * 2 ^ 15 + x.toNat * 2 ^ 20 + o.toNat * 2 ^ 23 + st.toNat * 2 ^ 7 = w at *
  have e0 := bits_sub (lo := 2) (m := 5) (v := 13) q0 (by decide) (by decide) (by decide)
  have e1 := bits_sub (lo := 21) (m := 2) (v := 2) q1 (by decide) (by decide) (by decide)
  simp [decodeRaw32, decodeLd, e0, e1, f0, f1, f2, f3, f4]
theorem ldD (d : BitVec 5) (b : BitVec 5) (o : BitVec 9) (st : BitVec 3) : Statement (.ldD d b o st) := by
  obtain ⟨hw, q0, q1, f0, f1, f2, f3⟩ := shape8 (w := 0x600037 + d.toNat * 2 ^ 10 + b.toNat * 2 ^ 15 + o.toNat * 2 ^ 23 + st.toNat * 2 ^ 7) 0x37 0x6 d b o st
    (by omega) (by decide) (by decide)
  refine of32 rfl hw (by omega) fun wf_ => ?_
  generalize 0x600037 + d.toNat * 2 ^ 10 + b.toNat * 2 ^ 15 + o.toNat * 2 ^ 23 + st.toNat * 2 ^ 7 = w at *
  have e0 := bits_sub (lo := 2) (m := 5) (v := 13) q0 (by decide) (by decide) (by decide)
  have e1 := bits_sub (lo := 20) (m := 1) (v := 0) q1 (by decide) (by decide) (by decide)
  have e2 := bits_sub (lo := 21) (m := 2) (v := 3) q1 (by decide) (by decide) (by decide)
  simp [decodeRaw32, decodeLd, needZero, e0, e1, e2, f0, f1, f2, f3]
theorem stB (d : BitVec 5) (b : BitVec 5) (f : BitVec 1) (o : BitVec 9) (st : BitVec 3) : Statement (.stB d b f o st) := by
  obtain ⟨hw, q0, q1, f0, f1, f2, f3, f4⟩ := shape7 (w := 0x3B + d.toNat * 2 ^ 10 + b.toNat * 2 ^ 15 + f.toNat * 2 ^ 20 + o.toNat * 2 ^ 23 + st.toNat * 2 ^ 7) 0x3B 0x0 d b f o st
    (by omega) (by decide) (by decide)
  refine of32 rfl hw (by omega) fun wf_ => ?_
  generalize 0x3B + d.toNat * 2 ^ 10 + b.toNat * 2 ^ 15 + f.toNat * 2 ^ 20 + o.toNat * 2 ^ 23 + st.toNat * 2 ^ 7 = w at *
  have e0 := bits_sub (lo := 2) (m := 5) (v := 14) q0 (by decide) (by decide) (by decide)
  have e1 := bits_sub (lo := 21) (m := 2) (v := 0) q1 (by decide) (by decide) (by decide)
  simp [decodeRaw32, decodeSt, e0, e1, f0, f1, f2, f3, f4]
theorem stH (d : BitVec 5) (b : BitVec 5) (f : BitVec 1) (o : BitVec 9) (st : BitVec 3) : Statement (.stH d b f o st) := by
  obtain ⟨hw, q0, q1, f0, f1, f2, f3, f4⟩ := shape7 (w := 0x20003B + d.toNat * 2 ^ 10 + b.toNat * 2 ^ 15 + f.toNat * 2 ^ 20 + o.toNat * 2 ^ 23 + st.toNat * 2 ^ 7) 0x3B 0x1 d b f o st
    (by omega) (by decide) (by decide)
  refine of32 rfl hw (by omega) fun wf_ => ?_
  generalize 0x20003B + d.toNat * 2 ^ 10 + b.toNat * 2 ^ 15 + f.toNat * 2 ^ 20 + o.toNat * 2 ^ 23 + st.toNat * 2 ^ 7 = w at *
  have e0 := bits_sub (lo := 2) (m := 5) (v := 14) q0 (by decide) (by decide) (by decide)
  have e1 := bits_sub (lo := 21) (m := 2) (v := 1) q1 (by decide) (by decide) (by decide)
  simp [decodeRaw32, decodeSt, e0, e1, f0, f1, f2, f3, f4]
theorem stW (d : BitVec 5) (b : BitVec 5) (f : BitVec 1) (o : BitVec 9) (st : BitVec 3) : Statement (.stW d b f o st) := by
  obtain ⟨hw, q0, q1, f0, f1, f2, f3, f4⟩ := shape7 (w := 0x40003B + d.toNat * 2 ^ 10 + b.toNat * 2 ^ 15 + f.toNat * 2 ^ 20 + o.toNat * 2 ^ 23 + st.toNat * 2 ^ 7) 0x3B 0x2 d b f o st
    (by omega) (by decide) (by decide)
  refine of32 rfl hw (by omega) fun wf_ => ?_
  generalize 0x40003B + d.toNat * 2 ^ 10 + b.toNat * 2 ^ 15 + f.toNat * 2 ^ 20 + o.toNat * 2 ^ 23 + st.toNat * 2 ^ 7 = w at *
  have e0 := bits_sub (lo := 2) (m := 5) (v := 14) q0 (by decide) (by decide) (by decide)
  have e1 := bits_sub (lo := 21) (m := 2) (v := 2) q1 (by decide) (by decide) (by decide)
  simp [decodeRaw32, decodeSt, e0, e1, f0, f1, f2, f3, f4]
theorem stD (d : BitVec 5) (b : BitVec 5) (f : BitVec 1) (o : BitVec 9) (st : BitVec 3) : Statement (.stD d b f o st) := by
  obtain ⟨hw, q0, q1, f0, f1, f2, f3, f4⟩ := shape7 (w := 0x60003B + d.toNat * 2 ^ 10 + b.toNat * 2 ^ 15 + f.toNat * 2 ^ 20 + o.toNat * 2 ^ 23 + st.toNat * 2 ^ 7) 0x3B 0x3 d b f o st
    (by omega) (by decide) (by decide)
  refine of32 rfl hw (by omega) fun wf_ => ?_
  generalize 0x60003B + d.toNat * 2 ^ 10 + b.toNat * 2 ^ 15 + f.toNat * 2 ^ 20 + o.toNat * 2 ^ 23 + st.toNat * 2 ^ 7 = w at *
  have e0 := bits_sub (lo := 2) (m := 5) (v := 14) q0 (by decide) (by decide) (by decide)
  have e1 := bits_sub (lo := 21) (m := 2) (v := 3) q1 (by decide) (by decide) (by decide)
  simp [decodeRaw32, decodeSt, e0, e1, f0, f1, f2, f3, f4]
theorem ldAcq (d : BitVec 5) (b : BitVec 5) (z : BitVec 2) (c : BitVec 3) (o : BitVec 6) (st : BitVec 3) : Statement (.ldAcq d b z c o st) := by
  obtain ⟨hw, q0, q1, f0, f1, f2, f3, f4, f5⟩ := shape9 (w := 0x3F + d.toNat * 2 ^ 10 + b.toNat * 2 ^ 15 + z.toNat * 2 ^ 21 + c.toNat * 2 ^ 23 + o.toNat * 2 ^ 26 + st.toNat * 2 ^ 7) 0x3F 0x0 d b z c o st
    (by omega) (by decide) (by decide)
  refine of32 rfl hw (by omega) fun wf_ => ?_
  generalize 0x3F + d.toNat * 2 ^ 10 + b.toNat * 2 ^ 15 + z.toNat * 2 ^ 21 + c.toNat * 2 ^ 23 + o.toNat * 2 ^ 26 + st.toNat * 2 ^ 7 = w at *
  have e0 := bits_sub (lo := 2) (m := 5) (v := 15) q0 (by decide) (by decide) (by decide)
  have e1 := bits_sub (lo := 20) (m := 1) (v := 0) q1 (by decide) (by decide) (by decide)
  simp [decodeRaw32, decodeOrd, e0, e1, f0, f1, f2, f3, f4, f5]
theorem stRel (d : BitVec 5) (b : BitVec 5) (z : BitVec 2) (c : BitVec 3) (o : BitVec 6) (st : BitVec 3) : Statement (.stRel d b z c o st) := by
  obtain ⟨hw, q0, q1, f0, f1, f2, f3, f4, f5⟩ := shape9 (w := 0x10003F + d.toNat * 2 ^ 10 + b.toNat * 2 ^ 15 + z.toNat * 2 ^ 21 + c.toNat * 2 ^ 23 + o.toNat * 2 ^ 26 + st.toNat * 2 ^ 7) 0x3F 0x1 d b z c o st
    (by omega) (by decide) (by decide)
  refine of32 rfl hw (by omega) fun wf_ => ?_
  generalize 0x10003F + d.toNat * 2 ^ 10 + b.toNat * 2 ^ 15 + z.toNat * 2 ^ 21 + c.toNat * 2 ^ 23 + o.toNat * 2 ^ 26 + st.toNat * 2 ^ 7 = w at *
  have e0 := bits_sub (lo := 2) (m := 5) (v := 15) q0 (by decide) (by decide) (by decide)
  have e1 := bits_sub (lo := 20) (m := 1) (v := 1) q1 (by decide) (by decide) (by decide)
  simp [decodeRaw32, decodeOrd, e0, e1, f0, f1, f2, f3, f4, f5]
theorem amoAddW (d : BitVec 5) (a : BitVec 5) (b : BitVec 5) (c : BitVec 3) (st : BitVec 3) : Statement (.amoAddW d a b c st) := by
  obtain ⟨hw, q0, q1, f0, f1, f2, f3, f4⟩ := shape10 (w := 0x43 + d.toNat * 2 ^ 10 + a.toNat * 2 ^ 15 + b.toNat * 2 ^ 20 + c.toNat * 2 ^ 25 + st.toNat * 2 ^ 7) 0x43 0x0 d a b c st
    (by omega) (by decide) (by decide)
  refine of32 rfl hw (by omega) fun wf_ => ?_
  generalize 0x43 + d.toNat * 2 ^ 10 + a.toNat * 2 ^ 15 + b.toNat * 2 ^ 20 + c.toNat * 2 ^ 25 + st.toNat * 2 ^ 7 = w at *
  have e0 := bits_sub (lo := 2) (m := 5) (v := 16) q0 (by decide) (by decide) (by decide)
  have e1 := bits_sub (lo := 28) (m := 4) (v := 0) q1 (by decide) (by decide) (by decide)
  simp [decodeRaw32, decodeAmoW, e0, e1, f0, f1, f2, f3, f4]
theorem amoAndW (d : BitVec 5) (a : BitVec 5) (b : BitVec 5) (c : BitVec 3) (st : BitVec 3) : Statement (.amoAndW d a b c st) := by
  obtain ⟨hw, q0, q1, f0, f1, f2, f3, f4⟩ := shape10 (w := 0x10000043 + d.toNat * 2 ^ 10 + a.toNat * 2 ^ 15 + b.toNat * 2 ^ 20 + c.toNat * 2 ^ 25 + st.toNat * 2 ^ 7) 0x43 0x1 d a b c st
    (by omega) (by decide) (by decide)
  refine of32 rfl hw (by omega) fun wf_ => ?_
  generalize 0x10000043 + d.toNat * 2 ^ 10 + a.toNat * 2 ^ 15 + b.toNat * 2 ^ 20 + c.toNat * 2 ^ 25 + st.toNat * 2 ^ 7 = w at *
  have e0 := bits_sub (lo := 2) (m := 5) (v := 16) q0 (by decide) (by decide) (by decide)
  have e1 := bits_sub (lo := 28) (m := 4) (v := 1) q1 (by decide) (by decide) (by decide)
  simp [decodeRaw32, decodeAmoW, e0, e1, f0, f1, f2, f3, f4]
theorem amoOrW (d : BitVec 5) (a : BitVec 5) (b : BitVec 5) (c : BitVec 3) (st : BitVec 3) : Statement (.amoOrW d a b c st) := by
  obtain ⟨hw, q0, q1, f0, f1, f2, f3, f4⟩ := shape10 (w := 0x20000043 + d.toNat * 2 ^ 10 + a.toNat * 2 ^ 15 + b.toNat * 2 ^ 20 + c.toNat * 2 ^ 25 + st.toNat * 2 ^ 7) 0x43 0x2 d a b c st
    (by omega) (by decide) (by decide)
  refine of32 rfl hw (by omega) fun wf_ => ?_
  generalize 0x20000043 + d.toNat * 2 ^ 10 + a.toNat * 2 ^ 15 + b.toNat * 2 ^ 20 + c.toNat * 2 ^ 25 + st.toNat * 2 ^ 7 = w at *
  have e0 := bits_sub (lo := 2) (m := 5) (v := 16) q0 (by decide) (by decide) (by decide)
  have e1 := bits_sub (lo := 28) (m := 4) (v := 2) q1 (by decide) (by decide) (by decide)
  simp [decodeRaw32, decodeAmoW, e0, e1, f0, f1, f2, f3, f4]
theorem amoXorW (d : BitVec 5) (a : BitVec 5) (b : BitVec 5) (c : BitVec 3) (st : BitVec 3) : Statement (.amoXorW d a b c st) := by
  obtain ⟨hw, q0, q1, f0, f1, f2, f3, f4⟩ := shape10 (w := 0x30000043 + d.toNat * 2 ^ 10 + a.toNat * 2 ^ 15 + b.toNat * 2 ^ 20 + c.toNat * 2 ^ 25 + st.toNat * 2 ^ 7) 0x43 0x3 d a b c st
    (by omega) (by decide) (by decide)
  refine of32 rfl hw (by omega) fun wf_ => ?_
  generalize 0x30000043 + d.toNat * 2 ^ 10 + a.toNat * 2 ^ 15 + b.toNat * 2 ^ 20 + c.toNat * 2 ^ 25 + st.toNat * 2 ^ 7 = w at *
  have e0 := bits_sub (lo := 2) (m := 5) (v := 16) q0 (by decide) (by decide) (by decide)
  have e1 := bits_sub (lo := 28) (m := 4) (v := 3) q1 (by decide) (by decide) (by decide)
  simp [decodeRaw32, decodeAmoW, e0, e1, f0, f1, f2, f3, f4]
theorem amoMinW (d : BitVec 5) (a : BitVec 5) (b : BitVec 5) (c : BitVec 3) (st : BitVec 3) : Statement (.amoMinW d a b c st) := by
  obtain ⟨hw, q0, q1, f0, f1, f2, f3, f4⟩ := shape10 (w := 0x40000043 + d.toNat * 2 ^ 10 + a.toNat * 2 ^ 15 + b.toNat * 2 ^ 20 + c.toNat * 2 ^ 25 + st.toNat * 2 ^ 7) 0x43 0x4 d a b c st
    (by omega) (by decide) (by decide)
  refine of32 rfl hw (by omega) fun wf_ => ?_
  generalize 0x40000043 + d.toNat * 2 ^ 10 + a.toNat * 2 ^ 15 + b.toNat * 2 ^ 20 + c.toNat * 2 ^ 25 + st.toNat * 2 ^ 7 = w at *
  have e0 := bits_sub (lo := 2) (m := 5) (v := 16) q0 (by decide) (by decide) (by decide)
  have e1 := bits_sub (lo := 28) (m := 4) (v := 4) q1 (by decide) (by decide) (by decide)
  simp [decodeRaw32, decodeAmoW, e0, e1, f0, f1, f2, f3, f4]
theorem amoMaxW (d : BitVec 5) (a : BitVec 5) (b : BitVec 5) (c : BitVec 3) (st : BitVec 3) : Statement (.amoMaxW d a b c st) := by
  obtain ⟨hw, q0, q1, f0, f1, f2, f3, f4⟩ := shape10 (w := 0x50000043 + d.toNat * 2 ^ 10 + a.toNat * 2 ^ 15 + b.toNat * 2 ^ 20 + c.toNat * 2 ^ 25 + st.toNat * 2 ^ 7) 0x43 0x5 d a b c st
    (by omega) (by decide) (by decide)
  refine of32 rfl hw (by omega) fun wf_ => ?_
  generalize 0x50000043 + d.toNat * 2 ^ 10 + a.toNat * 2 ^ 15 + b.toNat * 2 ^ 20 + c.toNat * 2 ^ 25 + st.toNat * 2 ^ 7 = w at *
  have e0 := bits_sub (lo := 2) (m := 5) (v := 16) q0 (by decide) (by decide) (by decide)
  have e1 := bits_sub (lo := 28) (m := 4) (v := 5) q1 (by decide) (by decide) (by decide)
  simp [decodeRaw32, decodeAmoW, e0, e1, f0, f1, f2, f3, f4]
theorem amoMinnW (d : BitVec 5) (a : BitVec 5) (b : BitVec 5) (c : BitVec 3) (st : BitVec 3) : Statement (.amoMinnW d a b c st) := by
  obtain ⟨hw, q0, q1, f0, f1, f2, f3, f4⟩ := shape10 (w := 0x60000043 + d.toNat * 2 ^ 10 + a.toNat * 2 ^ 15 + b.toNat * 2 ^ 20 + c.toNat * 2 ^ 25 + st.toNat * 2 ^ 7) 0x43 0x6 d a b c st
    (by omega) (by decide) (by decide)
  refine of32 rfl hw (by omega) fun wf_ => ?_
  generalize 0x60000043 + d.toNat * 2 ^ 10 + a.toNat * 2 ^ 15 + b.toNat * 2 ^ 20 + c.toNat * 2 ^ 25 + st.toNat * 2 ^ 7 = w at *
  have e0 := bits_sub (lo := 2) (m := 5) (v := 16) q0 (by decide) (by decide) (by decide)
  have e1 := bits_sub (lo := 28) (m := 4) (v := 6) q1 (by decide) (by decide) (by decide)
  simp [decodeRaw32, decodeAmoW, e0, e1, f0, f1, f2, f3, f4]
theorem amoMaxnW (d : BitVec 5) (a : BitVec 5) (b : BitVec 5) (c : BitVec 3) (st : BitVec 3) : Statement (.amoMaxnW d a b c st) := by
  obtain ⟨hw, q0, q1, f0, f1, f2, f3, f4⟩ := shape10 (w := 0x70000043 + d.toNat * 2 ^ 10 + a.toNat * 2 ^ 15 + b.toNat * 2 ^ 20 + c.toNat * 2 ^ 25 + st.toNat * 2 ^ 7) 0x43 0x7 d a b c st
    (by omega) (by decide) (by decide)
  refine of32 rfl hw (by omega) fun wf_ => ?_
  generalize 0x70000043 + d.toNat * 2 ^ 10 + a.toNat * 2 ^ 15 + b.toNat * 2 ^ 20 + c.toNat * 2 ^ 25 + st.toNat * 2 ^ 7 = w at *
  have e0 := bits_sub (lo := 2) (m := 5) (v := 16) q0 (by decide) (by decide) (by decide)
  have e1 := bits_sub (lo := 28) (m := 4) (v := 7) q1 (by decide) (by decide) (by decide)
  simp [decodeRaw32, decodeAmoW, e0, e1, f0, f1, f2, f3, f4]
theorem amoSwapW (d : BitVec 5) (a : BitVec 5) (b : BitVec 5) (c : BitVec 3) (st : BitVec 3) : Statement (.amoSwapW d a b c st) := by
  obtain ⟨hw, q0, q1, f0, f1, f2, f3, f4⟩ := shape10 (w := 0x80000043 + d.toNat * 2 ^ 10 + a.toNat * 2 ^ 15 + b.toNat * 2 ^ 20 + c.toNat * 2 ^ 25 + st.toNat * 2 ^ 7) 0x43 0x8 d a b c st
    (by omega) (by decide) (by decide)
  refine of32 rfl hw (by omega) fun wf_ => ?_
  generalize 0x80000043 + d.toNat * 2 ^ 10 + a.toNat * 2 ^ 15 + b.toNat * 2 ^ 20 + c.toNat * 2 ^ 25 + st.toNat * 2 ^ 7 = w at *
  have e0 := bits_sub (lo := 2) (m := 5) (v := 16) q0 (by decide) (by decide) (by decide)
  have e1 := bits_sub (lo := 28) (m := 4) (v := 8) q1 (by decide) (by decide) (by decide)
  simp [decodeRaw32, decodeAmoW, e0, e1, f0, f1, f2, f3, f4]
theorem casW (d : BitVec 5) (a : BitVec 5) (b : BitVec 5) (c : BitVec 3) (st : BitVec 3) : Statement (.casW d a b c st) := by
  obtain ⟨hw, q0, q1, f0, f1, f2, f3, f4⟩ := shape10 (w := 0x90000043 + d.toNat * 2 ^ 10 + a.toNat * 2 ^ 15 + b.toNat * 2 ^ 20 + c.toNat * 2 ^ 25 + st.toNat * 2 ^ 7) 0x43 0x9 d a b c st
    (by omega) (by decide) (by decide)
  refine of32 rfl hw (by omega) fun wf_ => ?_
  generalize 0x90000043 + d.toNat * 2 ^ 10 + a.toNat * 2 ^ 15 + b.toNat * 2 ^ 20 + c.toNat * 2 ^ 25 + st.toNat * 2 ^ 7 = w at *
  have e0 := bits_sub (lo := 2) (m := 5) (v := 16) q0 (by decide) (by decide) (by decide)
  have e1 := bits_sub (lo := 28) (m := 4) (v := 9) q1 (by decide) (by decide) (by decide)
  simp [decodeRaw32, decodeAmoW, e0, e1, f0, f1, f2, f3, f4]
theorem amoAddD (d : BitVec 5) (a : BitVec 5) (b : BitVec 5) (c : BitVec 3) (st : BitVec 3) : Statement (.amoAddD d a b c st) := by
  obtain ⟨hw, q0, q1, f0, f1, f2, f3, f4⟩ := shape10 (w := 0x47 + d.toNat * 2 ^ 10 + a.toNat * 2 ^ 15 + b.toNat * 2 ^ 20 + c.toNat * 2 ^ 25 + st.toNat * 2 ^ 7) 0x47 0x0 d a b c st
    (by omega) (by decide) (by decide)
  refine of32 rfl hw (by omega) fun wf_ => ?_
  generalize 0x47 + d.toNat * 2 ^ 10 + a.toNat * 2 ^ 15 + b.toNat * 2 ^ 20 + c.toNat * 2 ^ 25 + st.toNat * 2 ^ 7 = w at *
  have e0 := bits_sub (lo := 2) (m := 5) (v := 17) q0 (by decide) (by decide) (by decide)
  have e1 := bits_sub (lo := 28) (m := 4) (v := 0) q1 (by decide) (by decide) (by decide)
  simp [decodeRaw32, decodeAmoD, e0, e1, f0, f1, f2, f3, f4]
theorem amoAndD (d : BitVec 5) (a : BitVec 5) (b : BitVec 5) (c : BitVec 3) (st : BitVec 3) : Statement (.amoAndD d a b c st) := by
  obtain ⟨hw, q0, q1, f0, f1, f2, f3, f4⟩ := shape10 (w := 0x10000047 + d.toNat * 2 ^ 10 + a.toNat * 2 ^ 15 + b.toNat * 2 ^ 20 + c.toNat * 2 ^ 25 + st.toNat * 2 ^ 7) 0x47 0x1 d a b c st
    (by omega) (by decide) (by decide)
  refine of32 rfl hw (by omega) fun wf_ => ?_
  generalize 0x10000047 + d.toNat * 2 ^ 10 + a.toNat * 2 ^ 15 + b.toNat * 2 ^ 20 + c.toNat * 2 ^ 25 + st.toNat * 2 ^ 7 = w at *
  have e0 := bits_sub (lo := 2) (m := 5) (v := 17) q0 (by decide) (by decide) (by decide)
  have e1 := bits_sub (lo := 28) (m := 4) (v := 1) q1 (by decide) (by decide) (by decide)
  simp [decodeRaw32, decodeAmoD, e0, e1, f0, f1, f2, f3, f4]
theorem amoOrD (d : BitVec 5) (a : BitVec 5) (b : BitVec 5) (c : BitVec 3) (st : BitVec 3) : Statement (.amoOrD d a b c st) := by
  obtain ⟨hw, q0, q1, f0, f1, f2, f3, f4⟩ := shape10 (w := 0x20000047 + d.toNat * 2 ^ 10 + a.toNat * 2 ^ 15 + b.toNat * 2 ^ 20 + c.toNat * 2 ^ 25 + st.toNat * 2 ^ 7) 0x47 0x2 d a b c st
    (by omega) (by decide) (by decide)
  refine of32 rfl hw (by omega) fun wf_ => ?_
  generalize 0x20000047 + d.toNat * 2 ^ 10 + a.toNat * 2 ^ 15 + b.toNat * 2 ^ 20 + c.toNat * 2 ^ 25 + st.toNat * 2 ^ 7 = w at *
  have e0 := bits_sub (lo := 2) (m := 5) (v := 17) q0 (by decide) (by decide) (by decide)
  have e1 := bits_sub (lo := 28) (m := 4) (v := 2) q1 (by decide) (by decide) (by decide)
  simp [decodeRaw32, decodeAmoD, e0, e1, f0, f1, f2, f3, f4]
theorem amoXorD (d : BitVec 5) (a : BitVec 5) (b : BitVec 5) (c : BitVec 3) (st : BitVec 3) : Statement (.amoXorD d a b c st) := by
  obtain ⟨hw, q0, q1, f0, f1, f2, f3, f4⟩ := shape10 (w := 0x30000047 + d.toNat * 2 ^ 10 + a.toNat * 2 ^ 15 + b.toNat * 2 ^ 20 + c.toNat * 2 ^ 25 + st.toNat * 2 ^ 7) 0x47 0x3 d a b c st
    (by omega) (by decide) (by decide)
  refine of32 rfl hw (by omega) fun wf_ => ?_
  generalize 0x30000047 + d.toNat * 2 ^ 10 + a.toNat * 2 ^ 15 + b.toNat * 2 ^ 20 + c.toNat * 2 ^ 25 + st.toNat * 2 ^ 7 = w at *
  have e0 := bits_sub (lo := 2) (m := 5) (v := 17) q0 (by decide) (by decide) (by decide)
  have e1 := bits_sub (lo := 28) (m := 4) (v := 3) q1 (by decide) (by decide) (by decide)
  simp [decodeRaw32, decodeAmoD, e0, e1, f0, f1, f2, f3, f4]
theorem amoMinD (d : BitVec 5) (a : BitVec 5) (b : BitVec 5) (c : BitVec 3) (st : BitVec 3) : Statement (.amoMinD d a b c st) := by
  obtain ⟨hw, q0, q1, f0, f1, f2, f3, f4⟩ := shape10 (w := 0x40000047 + d.toNat * 2 ^ 10 + a.toNat * 2 ^ 15 + b.toNat * 2 ^ 20 + c.toNat * 2 ^ 25 + st.toNat * 2 ^ 7) 0x47 0x4 d a b c st
    (by omega) (by decide) (by decide)
  refine of32 rfl hw (by omega) fun wf_ => ?_
  generalize 0x40000047 + d.toNat * 2 ^ 10 + a.toNat * 2 ^ 15 + b.toNat * 2 ^ 20 + c.toNat * 2 ^ 25 + st.toNat * 2 ^ 7 = w at *
  have e0 := bits_sub (lo := 2) (m := 5) (v := 17) q0 (by decide) (by decide) (by decide)
  have e1 := bits_sub (lo := 28) (m := 4) (v := 4) q1 (by decide) (by decide) (by decide)
  simp [decodeRaw32, decodeAmoD, e0, e1, f0, f1, f2, f3, f4]
theorem amoMaxD (d : BitVec 5) (a : BitVec 5) (b : BitVec 5) (c : BitVec 3) (st : BitVec 3) : Statement (.amoMaxD d a b c st) := by
  obtain ⟨hw, q0, q1, f0, f1, f2, f3, f4⟩ := shape10 (w := 0x50000047 + d.toNat * 2 ^ 10 + a.toNat * 2 ^ 15 + b.toNat * 2 ^ 20 + c.toNat * 2 ^ 25 + st.toNat * 2 ^ 7) 0x47 0x5 d a b c st
    (by omega) (by decide) (by decide)
  refine of32 rfl hw (by omega) fun wf_ => ?_
  generalize 0x50000047 + d.toNat * 2 ^ 10 + a.toNat * 2 ^ 15 + b.toNat * 2 ^ 20 + c.toNat * 2 ^ 25 + st.toNat * 2 ^ 7 = w at *
  have e0 := bits_sub (lo := 2) (m := 5) (v := 17) q0 (by decide) (by decide) (by decide)
  have e1 := bits_sub (lo := 28) (m := 4) (v := 5) q1 (by decide) (by decide) (by decide)
  simp [decodeRaw32, decodeAmoD, e0, e1, f0, f1, f2, f3, f4]
theorem amoMinnD (d : BitVec 5) (a : BitVec 5) (b : BitVec 5) (c : BitVec 3) (st : BitVec 3) : Statement (.amoMinnD d a b c st) := by
  obtain ⟨hw, q0, q1, f0, f1, f2, f3, f4⟩ := shape10 (w := 0x60000047 + d.toNat * 2 ^ 10 + a.toNat * 2 ^ 15 + b.toNat * 2 ^ 20 + c.toNat * 2 ^ 25 + st.toNat * 2 ^ 7) 0x47 0x6 d a b c st
    (by omega) (by decide) (by decide)
  refine of32 rfl hw (by omega) fun wf_ => ?_
  generalize 0x60000047 + d.toNat * 2 ^ 10 + a.toNat * 2 ^ 15 + b.toNat * 2 ^ 20 + c.toNat * 2 ^ 25 + st.toNat * 2 ^ 7 = w at *
  have e0 := bits_sub (lo := 2) (m := 5) (v := 17) q0 (by decide) (by decide) (by decide)
  have e1 := bits_sub (lo := 28) (m := 4) (v := 6) q1 (by decide) (by decide) (by decide)
  simp [decodeRaw32, decodeAmoD, e0, e1, f0, f1, f2, f3, f4]
theorem amoMaxnD (d : BitVec 5) (a : BitVec 5) (b : BitVec 5) (c : BitVec 3) (st : BitVec 3) : Statement (.amoMaxnD d a b c st) := by
  obtain ⟨hw, q0, q1, f0, f1, f2, f3, f4⟩ := shape10 (w := 0x70000047 + d.toNat * 2 ^ 10 + a.toNat * 2 ^ 15 + b.toNat * 2 ^ 20 + c.toNat * 2 ^ 25 + st.toNat * 2 ^ 7) 0x47 0x7 d a b c st
    (by omega) (by decide) (by decide)
  refine of32 rfl hw (by omega) fun wf_ => ?_
  generalize 0x70000047 + d.toNat * 2 ^ 10 + a.toNat * 2 ^ 15 + b.toNat * 2 ^ 20 + c.toNat * 2 ^ 25 + st.toNat * 2 ^ 7 = w at *
  have e0 := bits_sub (lo := 2) (m := 5) (v := 17) q0 (by decide) (by decide) (by decide)
  have e1 := bits_sub (lo := 28) (m := 4) (v := 7) q1 (by decide) (by decide) (by decide)
  simp [decodeRaw32, decodeAmoD, e0, e1, f0, f1, f2, f3, f4]
theorem amoSwapD (d : BitVec 5) (a : BitVec 5) (b : BitVec 5) (c : BitVec 3) (st : BitVec 3) : Statement (.amoSwapD d a b c st) := by
  obtain ⟨hw, q0, q1, f0, f1, f2, f3, f4⟩ := shape10 (w := 0x80000047 + d.toNat * 2 ^ 10 + a.toNat * 2 ^ 15 + b.toNat * 2 ^ 20 + c.toNat * 2 ^ 25 + st.toNat * 2 ^ 7) 0x47 0x8 d a b c st
    (by omega) (by decide) (by decide)
  refine of32 rfl hw (by omega) fun wf_ => ?_
  generalize 0x80000047 + d.toNat * 2 ^ 10 + a.toNat * 2 ^ 15 + b.toNat * 2 ^ 20 + c.toNat * 2 ^ 25 + st.toNat * 2 ^ 7 = w at *
  have e0 := bits_sub (lo := 2) (m := 5) (v := 17) q0 (by decide) (by decide) (by decide)
  have e1 := bits_sub (lo := 28) (m := 4) (v := 8) q1 (by decide) (by decide) (by decide)
  simp [decodeRaw32, decodeAmoD, e0, e1, f0, f1, f2, f3, f4]
theorem casD (d : BitVec 5) (a : BitVec 5) (b : BitVec 5) (c : BitVec 3) (st : BitVec 3) : Statement (.casD d a b c st) := by
  obtain ⟨hw, q0, q1, f0, f1, f2, f3, f4⟩ := shape10 (w := 0x90000047 + d.toNat * 2 ^ 10 + a.toNat * 2 ^ 15 + b.toNat * 2 ^ 20 + c.toNat * 2 ^ 25 + st.toNat * 2 ^ 7) 0x47 0x9 d a b c st
    (by omega) (by decide) (by decide)
  refine of32 rfl hw (by omega) fun wf_ => ?_
  generalize 0x90000047 + d.toNat * 2 ^ 10 + a.toNat * 2 ^ 15 + b.toNat * 2 ^ 20 + c.toNat * 2 ^ 25 + st.toNat * 2 ^ 7 = w at *
  have e0 := bits_sub (lo := 2) (m := 5) (v := 17) q0 (by decide) (by decide) (by decide)
  have e1 := bits_sub (lo := 28) (m := 4) (v := 9) q1 (by decide) (by decide) (by decide)
  simp [decodeRaw32, decodeAmoD, e0, e1, f0, f1, f2, f3, f4]
theorem vld (c : BitVec 6) (b : BitVec 5) (h : BitVec 3) (w : BitVec 3) (st : BitVec 3) : Statement (.vld c b h w st) := by
  obtain ⟨hw, q0, q1, f0, f1, f2, f3, f4⟩ := shape11 (w := 0x4B + c.toNat * 2 ^ 10 + b.toNat * 2 ^ 16 + h.toNat * 2 ^ 21 + w.toNat * 2 ^ 24 + st.toNat * 2 ^ 7) 0x4B 0x0 c b h w st
    (by omega) (by decide) (by decide)
  refine of32 rfl hw (by omega) fun wf_ => ?_
  generalize 0x4B + c.toNat * 2 ^ 10 + b.toNat * 2 ^ 16 + h.toNat * 2 ^ 21 + w.toNat * 2 ^ 24 + st.toNat * 2 ^ 7 = w at *
  have e0 := bits_sub (lo := 2) (m := 5) (v := 18) q0 (by decide) (by decide) (by decide)
  have e1 := bits_sub (lo := 27) (m := 3) (v := 0) q1 (by decide) (by decide) (by decide)
  have e2 := bits_sub (lo := 30) (m := 2) (v := 0) q1 (by decide) (by decide) (by decide)
  simp [decodeRaw32, decodeVm, needZero, e0, e1, e2, f0, f1, f2, f3, f4]
theorem vst (c : BitVec 6) (b : BitVec 5) (h : BitVec 3) (w : BitVec 3) (f : BitVec 1) (st : BitVec 3) : Statement (.vst c b h w f st) := by
  obtain ⟨hw, q0, q1, f0, f1, f2, f3, f4, f5⟩ := shape12 (w := 0x4000004B + c.toNat * 2 ^ 10 + b.toNat * 2 ^ 16 + h.toNat * 2 ^ 21 + w.toNat * 2 ^ 24 + f.toNat * 2 ^ 27 + st.toNat * 2 ^ 7) 0x4B 0x4 c b h w f st
    (by omega) (by decide) (by decide)
  refine of32 rfl hw (by omega) fun wf_ => ?_
  generalize 0x4000004B + c.toNat * 2 ^ 10 + b.toNat * 2 ^ 16 + h.toNat * 2 ^ 21 + w.toNat * 2 ^ 24 + f.toNat * 2 ^ 27 + st.toNat * 2 ^ 7 = w at *
  have e0 := bits_sub (lo := 2) (m := 5) (v := 18) q0 (by decide) (by decide) (by decide)
  have e1 := bits_sub (lo := 28) (m := 2) (v := 0) q1 (by decide) (by decide) (by decide)
  have e2 := bits_sub (lo := 30) (m := 2) (v := 1) q1 (by decide) (by decide) (by decide)
  simp [decodeRaw32, decodeVm, needZero, e0, e1, e2, f0, f1, f2, f3, f4, f5]
theorem vldx (d : BitVec 6) (b : BitVec 5) (i : BitVec 6) (z : BitVec 2) (st : BitVec 3) : Statement (.vldx d b i z st) := by
  obtain ⟨hw, q0, q1, f0, f1, f2, f3, f4⟩ := shape13 (w := 0x8000004B + d.toNat * 2 ^ 10 + b.toNat * 2 ^ 16 + i.toNat * 2 ^ 21 + z.toNat * 2 ^ 27 + st.toNat * 2 ^ 7) 0x4B 0x4 d b i z st
    (by omega) (by decide) (by decide)
  refine of32 rfl hw (by omega) fun wf_ => ?_
  generalize 0x8000004B + d.toNat * 2 ^ 10 + b.toNat * 2 ^ 16 + i.toNat * 2 ^ 21 + z.toNat * 2 ^ 27 + st.toNat * 2 ^ 7 = w at *
  have e0 := bits_sub (lo := 2) (m := 5) (v := 18) q0 (by decide) (by decide) (by decide)
  have e1 := bits_sub (lo := 29) (m := 1) (v := 0) q1 (by decide) (by decide) (by decide)
  have e2 := bits_sub (lo := 30) (m := 2) (v := 2) q1 (by decide) (by decide) (by decide)
  simp [decodeRaw32, decodeVm, needZero, e0, e1, e2, f0, f1, f2, f3, f4]
theorem vstx (d : BitVec 6) (b : BitVec 5) (i : BitVec 6) (z : BitVec 2) (f : BitVec 1) (st : BitVec 3) : Statement (.vstx d b i z f st) := by
  obtain ⟨hw, q0, q1, f0, f1, f2, f3, f4, f5⟩ := shape14 (w := 0xC000004B + d.toNat * 2 ^ 10 + b.toNat * 2 ^ 16 + i.toNat * 2 ^ 21 + z.toNat * 2 ^ 27 + f.toNat * 2 ^ 29 + st.toNat * 2 ^ 7) 0x4B 0x3 d b i z f st
    (by omega) (by decide) (by decide)
  refine of32 rfl hw (by omega) fun wf_ => ?_
  generalize 0xC000004B + d.toNat * 2 ^ 10 + b.toNat * 2 ^ 16 + i.toNat * 2 ^ 21 + z.toNat * 2 ^ 27 + f.toNat * 2 ^ 29 + st.toNat * 2 ^ 7 = w at *
  have e0 := bits_sub (lo := 2) (m := 5) (v := 18) q0 (by decide) (by decide) (by decide)
  have e1 := bits_sub (lo := 30) (m := 2) (v := 3) q1 (by decide) (by decide) (by decide)
  simp [decodeRaw32, decodeVm, e0, e1, f0, f1, f2, f3, f4, f5]
theorem vadd (d : BitVec 6) (a : BitVec 6) (h : BitVec 3) (w : BitVec 3) (st : BitVec 3) : Statement (.vadd d a h w st) := by
  obtain ⟨hw, q0, q1, f0, f1, f2, f3, f4⟩ := shape15 (w := 0x4F + d.toNat * 2 ^ 10 + a.toNat * 2 ^ 16 + h.toNat * 2 ^ 22 + w.toNat * 2 ^ 25 + st.toNat * 2 ^ 7) 0x4F 0x0 d a h w st
    (by omega) (by decide) (by decide)
  refine of32 rfl hw (by omega) fun wf_ => ?_
  generalize 0x4F + d.toNat * 2 ^ 10 + a.toNat * 2 ^ 16 + h.toNat * 2 ^ 22 + w.toNat * 2 ^ 25 + st.toNat * 2 ^ 7 = w at *
  have e0 := bits_sub (lo := 2) (m := 5) (v := 19) q0 (by decide) (by decide) (by decide)
  have e1 := bits_sub (lo := 28) (m := 4) (v := 0) q1 (by decide) (by decide) (by decide)
  simp [decodeRaw32, decodeVb0, e0, e1, f0, f1, f2, f3, f4]
theorem vsub (d : BitVec 6) (a : BitVec 6) (h : BitVec 3) (w : BitVec 3) (st : BitVec 3) : Statement (.vsub d a h w st) := by
  obtain ⟨hw, q0, q1, f0, f1, f2, f3, f4⟩ := shape15 (w := 0x1000004F + d.toNat * 2 ^ 10 + a.toNat * 2 ^ 16 + h.toNat * 2 ^ 22 + w.toNat * 2 ^ 25 + st.toNat * 2 ^ 7) 0x4F 0x1 d a h w st
    (by omega) (by decide) (by decide)
  refine of32 rfl hw (by omega) fun wf_ => ?_
  generalize 0x1000004F + d.toNat * 2 ^ 10 + a.toNat * 2 ^ 16 + h.toNat * 2 ^ 22 + w.toNat * 2 ^ 25 + st.toNat * 2 ^ 7 = w at *
  have e0 := bits_sub (lo := 2) (m := 5) (v := 19) q0 (by decide) (by decide) (by decide)
  have e1 := bits_sub (lo := 28) (m := 4) (v := 1) q1 (by decide) (by decide) (by decide)
  simp [decodeRaw32, decodeVb0, e0, e1, f0, f1, f2, f3, f4]
theorem vadds (d : BitVec 6) (a : BitVec 6) (h : BitVec 3) (w : BitVec 3) (st : BitVec 3) : Statement (.vadds d a h w st) := by
  obtain ⟨hw, q0, q1, f0, f1, f2, f3, f4⟩ := shape15 (w := 0x2000004F + d.toNat * 2 ^ 10 + a.toNat * 2 ^ 16 + h.toNat * 2 ^ 22 + w.toNat * 2 ^ 25 + st.toNat * 2 ^ 7) 0x4F 0x2 d a h w st
    (by omega) (by decide) (by decide)
  refine of32 rfl hw (by omega) fun wf_ => ?_
  generalize 0x2000004F + d.toNat * 2 ^ 10 + a.toNat * 2 ^ 16 + h.toNat * 2 ^ 22 + w.toNat * 2 ^ 25 + st.toNat * 2 ^ 7 = w at *
  have e0 := bits_sub (lo := 2) (m := 5) (v := 19) q0 (by decide) (by decide) (by decide)
  have e1 := bits_sub (lo := 28) (m := 4) (v := 2) q1 (by decide) (by decide) (by decide)
  simp [decodeRaw32, decodeVb0, e0, e1, f0, f1, f2, f3, f4]
theorem vsubs (d : BitVec 6) (a : BitVec 6) (h : BitVec 3) (w : BitVec 3) (st : BitVec 3) : Statement (.vsubs d a h w st) := by
  obtain ⟨hw, q0, q1, f0, f1, f2, f3, f4⟩ := shape15 (w := 0x3000004F + d.toNat * 2 ^ 10 + a.toNat * 2 ^ 16 + h.toNat * 2 ^ 22 + w.toNat * 2 ^ 25 + st.toNat * 2 ^ 7) 0x4F 0x3 d a h w st
    (by omega) (by decide) (by decide)
  refine of32 rfl hw (by omega) fun wf_ => ?_
  generalize 0x3000004F + d.toNat * 2 ^ 10 + a.toNat * 2 ^ 16 + h.toNat * 2 ^ 22 + w.toNat * 2 ^ 25 + st.toNat * 2 ^ 7 = w at *
  have e0 := bits_sub (lo := 2) (m := 5) (v := 19) q0 (by decide) (by decide) (by decide)
  have e1 := bits_sub (lo := 28) (m := 4) (v := 3) q1 (by decide) (by decide) (by decide)
  simp [decodeRaw32, decodeVb0, e0, e1, f0, f1, f2, f3, f4]
theorem vmin (d : BitVec 6) (a : BitVec 6) (h : BitVec 3) (w : BitVec 3) (st : BitVec 3) : Statement (.vmin d a h w st) := by
  obtain ⟨hw, q0, q1, f0, f1, f2, f3, f4⟩ := shape15 (w := 0x4000004F + d.toNat * 2 ^ 10 + a.toNat * 2 ^ 16 + h.toNat * 2 ^ 22 + w.toNat * 2 ^ 25 + st.toNat * 2 ^ 7) 0x4F 0x4 d a h w st
    (by omega) (by decide) (by decide)
  refine of32 rfl hw (by omega) fun wf_ => ?_
  generalize 0x4000004F + d.toNat * 2 ^ 10 + a.toNat * 2 ^ 16 + h.toNat * 2 ^ 22 + w.toNat * 2 ^ 25 + st.toNat * 2 ^ 7 = w at *
  have e0 := bits_sub (lo := 2) (m := 5) (v := 19) q0 (by decide) (by decide) (by decide)
  have e1 := bits_sub (lo := 28) (m := 4) (v := 4) q1 (by decide) (by decide) (by decide)
  simp [decodeRaw32, decodeVb0, e0, e1, f0, f1, f2, f3, f4]
theorem vmax (d : BitVec 6) (a : BitVec 6) (h : BitVec 3) (w : BitVec 3) (st : BitVec 3) : Statement (.vmax d a h w st) := by
  obtain ⟨hw, q0, q1, f0, f1, f2, f3, f4⟩ := shape15 (w := 0x5000004F + d.toNat * 2 ^ 10 + a.toNat * 2 ^ 16 + h.toNat * 2 ^ 22 + w.toNat * 2 ^ 25 + st.toNat * 2 ^ 7) 0x4F 0x5 d a h w st
    (by omega) (by decide) (by decide)
  refine of32 rfl hw (by omega) fun wf_ => ?_
  generalize 0x5000004F + d.toNat * 2 ^ 10 + a.toNat * 2 ^ 16 + h.toNat * 2 ^ 22 + w.toNat * 2 ^ 25 + st.toNat * 2 ^ 7 = w at *
  have e0 := bits_sub (lo := 2) (m := 5) (v := 19) q0 (by decide) (by decide) (by decide)
  have e1 := bits_sub (lo := 28) (m := 4) (v := 5) q1 (by decide) (by decide) (by decide)
  simp [decodeRaw32, decodeVb0, e0, e1, f0, f1, f2, f3, f4]
theorem vabs (d : BitVec 6) (a : BitVec 6) (h : BitVec 3) (w : BitVec 3) (st : BitVec 3) : Statement (.vabs d a h w st) := by
  obtain ⟨hw, q0, q1, f0, f1, f2, f3, f4⟩ := shape15 (w := 0x6000004F + d.toNat * 2 ^ 10 + a.toNat * 2 ^ 16 + h.toNat * 2 ^ 22 + w.toNat * 2 ^ 25 + st.toNat * 2 ^ 7) 0x4F 0x6 d a h w st
    (by omega) (by decide) (by decide)
  refine of32 rfl hw (by omega) fun wf_ => ?_
  generalize 0x6000004F + d.toNat * 2 ^ 10 + a.toNat * 2 ^ 16 + h.toNat * 2 ^ 22 + w.toNat * 2 ^ 25 + st.toNat * 2 ^ 7 = w at *
  have e0 := bits_sub (lo := 2) (m := 5) (v := 19) q0 (by decide) (by decide) (by decide)
  have e1 := bits_sub (lo := 28) (m := 4) (v := 6) q1 (by decide) (by decide) (by decide)
  simp [decodeRaw32, decodeVb0, e0, e1, f0, f1, f2, f3, f4]
theorem vneg (d : BitVec 6) (a : BitVec 6) (h : BitVec 3) (w : BitVec 3) (st : BitVec 3) : Statement (.vneg d a h w st) := by
  obtain ⟨hw, q0, q1, f0, f1, f2, f3, f4⟩ := shape15 (w := 0x7000004F + d.toNat * 2 ^ 10 + a.toNat * 2 ^ 16 + h.toNat * 2 ^ 22 + w.toNat * 2 ^ 25 + st.toNat * 2 ^ 7) 0x4F 0x7 d a h w st
    (by omega) (by decide) (by decide)
  refine of32 rfl hw (by omega) fun wf_ => ?_
  generalize 0x7000004F + d.toNat * 2 ^ 10 + a.toNat * 2 ^ 16 + h.toNat * 2 ^ 22 + w.toNat * 2 ^ 25 + st.toNat * 2 ^ 7 = w at *
  have e0 := bits_sub (lo := 2) (m := 5) (v := 19) q0 (by decide) (by decide) (by decide)
  have e1 := bits_sub (lo := 28) (m := 4) (v := 7) q1 (by decide) (by decide) (by decide)
  simp [decodeRaw32, decodeVb0, e0, e1, f0, f1, f2, f3, f4]
theorem vand (d : BitVec 6) (a : BitVec 6) (h : BitVec 3) (w : BitVec 3) (st : BitVec 3) : Statement (.vand d a h w st) := by
  obtain ⟨hw, q0, q1, f0, f1, f2, f3, f4⟩ := shape15 (w := 0x8000004F + d.toNat * 2 ^ 10 + a.toNat * 2 ^ 16 + h.toNat * 2 ^ 22 + w.toNat * 2 ^ 25 + st.toNat * 2 ^ 7) 0x4F 0x8 d a h w st
    (by omega) (by decide) (by decide)
  refine of32 rfl hw (by omega) fun wf_ => ?_
  generalize 0x8000004F + d.toNat * 2 ^ 10 + a.toNat * 2 ^ 16 + h.toNat * 2 ^ 22 + w.toNat * 2 ^ 25 + st.toNat * 2 ^ 7 = w at *
  have e0 := bits_sub (lo := 2) (m := 5) (v := 19) q0 (by decide) (by decide) (by decide)
  have e1 := bits_sub (lo := 28) (m := 4) (v := 8) q1 (by decide) (by decide) (by decide)
  simp [decodeRaw32, decodeVb0, e0, e1, f0, f1, f2, f3, f4]
theorem vor (d : BitVec 6) (a : BitVec 6) (h : BitVec 3) (w : BitVec 3) (st : BitVec 3) : Statement (.vor d a h w st) := by
  obtain ⟨hw, q0, q1, f0, f1, f2, f3, f4⟩ := shape15 (w := 0x9000004F + d.toNat * 2 ^ 10 + a.toNat * 2 ^ 16 + h.toNat * 2 ^ 22 + w.toNat * 2 ^ 25 + st.toNat * 2 ^ 7) 0x4F 0x9 d a h w st
    (by omega) (by decide) (by decide)
  refine of32 rfl hw (by omega) fun wf_ => ?_
  generalize 0x9000004F + d.toNat * 2 ^ 10 + a.toNat * 2 ^ 16 + h.toNat * 2 ^ 22 + w.toNat * 2 ^ 25 + st.toNat * 2 ^ 7 = w at *
  have e0 := bits_sub (lo := 2) (m := 5) (v := 19) q0 (by decide) (by decide) (by decide)
  have e1 := bits_sub (lo := 28) (m := 4) (v := 9) q1 (by decide) (by decide) (by decide)
  simp [decodeRaw32, decodeVb0, e0, e1, f0, f1, f2, f3, f4]
theorem vxor (d : BitVec 6) (a : BitVec 6) (h : BitVec 3) (w : BitVec 3) (st : BitVec 3) : Statement (.vxor d a h w st) := by
  obtain ⟨hw, q0, q1, f0, f1, f2, f3, f4⟩ := shape15 (w := 0xA000004F + d.toNat * 2 ^ 10 + a.toNat * 2 ^ 16 + h.toNat * 2 ^ 22 + w.toNat * 2 ^ 25 + st.toNat * 2 ^ 7) 0x4F 0xA d a h w st
    (by omega) (by decide) (by decide)
  refine of32 rfl hw (by omega) fun wf_ => ?_
  generalize 0xA000004F + d.toNat * 2 ^ 10 + a.toNat * 2 ^ 16 + h.toNat * 2 ^ 22 + w.toNat * 2 ^ 25 + st.toNat * 2 ^ 7 = w at *
  have e0 := bits_sub (lo := 2) (m := 5) (v := 19) q0 (by decide) (by decide) (by decide)
  have e1 := bits_sub (lo := 28) (m := 4) (v := 10) q1 (by decide) (by decide) (by decide)
  simp [decodeRaw32, decodeVb0, e0, e1, f0, f1, f2, f3, f4]
theorem vshl (d : BitVec 6) (a : BitVec 6) (h : BitVec 3) (w : BitVec 3) (st : BitVec 3) : Statement (.vshl d a h w st) := by
  obtain ⟨hw, q0, q1, f0, f1, f2, f3, f4⟩ := shape15 (w := 0xB000004F + d.toNat * 2 ^ 10 + a.toNat * 2 ^ 16 + h.toNat * 2 ^ 22 + w.toNat * 2 ^ 25 + st.toNat * 2 ^ 7) 0x4F 0xB d a h w st
    (by omega) (by decide) (by decide)
  refine of32 rfl hw (by omega) fun wf_ => ?_
  generalize 0xB000004F + d.toNat * 2 ^ 10 + a.toNat * 2 ^ 16 + h.toNat * 2 ^ 22 + w.toNat * 2 ^ 25 + st.toNat * 2 ^ 7 = w at *
  have e0 := bits_sub (lo := 2) (m := 5) (v := 19) q0 (by decide) (by decide) (by decide)
  have e1 := bits_sub (lo := 28) (m := 4) (v := 11) q1 (by decide) (by decide) (by decide)
  simp [decodeRaw32, decodeVb0, e0, e1, f0, f1, f2, f3, f4]
theorem vshr (d : BitVec 6) (a : BitVec 6) (h : BitVec 3) (w : BitVec 3) (st : BitVec 3) : Statement (.vshr d a h w st) := by
  obtain ⟨hw, q0, q1, f0, f1, f2, f3, f4⟩ := shape15 (w := 0xC000004F + d.toNat * 2 ^ 10 + a.toNat * 2 ^ 16 + h.toNat * 2 ^ 22 + w.toNat * 2 ^ 25 + st.toNat * 2 ^ 7) 0x4F 0xC d a h w st
    (by omega) (by decide) (by decide)
  refine of32 rfl hw (by omega) fun wf_ => ?_
  generalize 0xC000004F + d.toNat * 2 ^ 10 + a.toNat * 2 ^ 16 + h.toNat * 2 ^ 22 + w.toNat * 2 ^ 25 + st.toNat * 2 ^ 7 = w at *
  have e0 := bits_sub (lo := 2) (m := 5) (v := 19) q0 (by decide) (by decide) (by decide)
  have e1 := bits_sub (lo := 28) (m := 4) (v := 12) q1 (by decide) (by decide) (by decide)
  simp [decodeRaw32, decodeVb0, e0, e1, f0, f1, f2, f3, f4]
theorem vcmp (d : BitVec 6) (a : BitVec 6) (h : BitVec 3) (w : BitVec 3) (st : BitVec 3) : Statement (.vcmp d a h w st) := by
  obtain ⟨hw, q0, q1, f0, f1, f2, f3, f4⟩ := shape15 (w := 0xD000004F + d.toNat * 2 ^ 10 + a.toNat * 2 ^ 16 + h.toNat * 2 ^ 22 + w.toNat * 2 ^ 25 + st.toNat * 2 ^ 7) 0x4F 0xD d a h w st
    (by omega) (by decide) (by decide)
  refine of32 rfl hw (by omega) fun wf_ => ?_
  generalize 0xD000004F + d.toNat * 2 ^ 10 + a.toNat * 2 ^ 16 + h.toNat * 2 ^ 22 + w.toNat * 2 ^ 25 + st.toNat * 2 ^ 7 = w at *
  have e0 := bits_sub (lo := 2) (m := 5) (v := 19) q0 (by decide) (by decide) (by decide)
  have e1 := bits_sub (lo := 28) (m := 4) (v := 13) q1 (by decide) (by decide) (by decide)
  simp [decodeRaw32, decodeVb0, e0, e1, f0, f1, f2, f3, f4]
theorem vsel (d : BitVec 6) (a : BitVec 6) (h : BitVec 3) (w : BitVec 3) (st : BitVec 3) : Statement (.vsel d a h w st) := by
  obtain ⟨hw, q0, q1, f0, f1, f2, f3, f4⟩ := shape15 (w := 0xE000004F + d.toNat * 2 ^ 10 + a.toNat * 2 ^ 16 + h.toNat * 2 ^ 22 + w.toNat * 2 ^ 25 + st.toNat * 2 ^ 7) 0x4F 0xE d a h w st
    (by omega) (by decide) (by decide)
  refine of32 rfl hw (by omega) fun wf_ => ?_
  generalize 0xE000004F + d.toNat * 2 ^ 10 + a.toNat * 2 ^ 16 + h.toNat * 2 ^ 22 + w.toNat * 2 ^ 25 + st.toNat * 2 ^ 7 = w at *
  have e0 := bits_sub (lo := 2) (m := 5) (v := 19) q0 (by decide) (by decide) (by decide)
  have e1 := bits_sub (lo := 28) (m := 4) (v := 14) q1 (by decide) (by decide) (by decide)
  simp [decodeRaw32, decodeVb0, e0, e1, f0, f1, f2, f3, f4]
theorem vmov (d : BitVec 6) (a : BitVec 6) (h : BitVec 3) (w : BitVec 3) (st : BitVec 3) : Statement (.vmov d a h w st) := by
  obtain ⟨hw, q0, q1, f0, f1, f2, f3, f4⟩ := shape15 (w := 0xF000004F + d.toNat * 2 ^ 10 + a.toNat * 2 ^ 16 + h.toNat * 2 ^ 22 + w.toNat * 2 ^ 25 + st.toNat * 2 ^ 7) 0x4F 0xF d a h w st
    (by omega) (by decide) (by decide)
  refine of32 rfl hw (by omega) fun wf_ => ?_
  generalize 0xF000004F + d.toNat * 2 ^ 10 + a.toNat * 2 ^ 16 + h.toNat * 2 ^ 22 + w.toNat * 2 ^ 25 + st.toNat * 2 ^ 7 = w at *
  have e0 := bits_sub (lo := 2) (m := 5) (v := 19) q0 (by decide) (by decide) (by decide)
  have e1 := bits_sub (lo := 28) (m := 4) (v := 15) q1 (by decide) (by decide) (by decide)
  simp [decodeRaw32, decodeVb0, e0, e1, f0, f1, f2, f3, f4]
theorem vmul (d : BitVec 6) (a : BitVec 6) (h : BitVec 3) (w : BitVec 3) (st : BitVec 3) : Statement (.vmul d a h w st) := by
  obtain ⟨hw, q0, q1, f0, f1, f2, f3, f4⟩ := shape15 (w := 0x53 + d.toNat * 2 ^ 10 + a.toNat * 2 ^ 16 + h.toNat * 2 ^ 22 + w.toNat * 2 ^ 25 + st.toNat * 2 ^ 7) 0x53 0x0 d a h w st
    (by omega) (by decide) (by decide)
  refine of32 rfl hw (by omega) fun wf_ => ?_
  generalize 0x53 + d.toNat * 2 ^ 10 + a.toNat * 2 ^ 16 + h.toNat * 2 ^ 22 + w.toNat * 2 ^ 25 + st.toNat * 2 ^ 7 = w at *
  have e0 := bits_sub (lo := 2) (m := 5) (v := 20) q0 (by decide) (by decide) (by decide)
  have e1 := bits_sub (lo := 28) (m := 4) (v := 0) q1 (by decide) (by decide) (by decide)
  simp [decodeRaw32, decodeVb1, e0, e1, f0, f1, f2, f3, f4]
theorem cmul (d : BitVec 6) (a : BitVec 6) (h : BitVec 3) (w : BitVec 3) (st : BitVec 3) : Statement (.cmul d a h w st) := by
  obtain ⟨hw, q0, q1, f0, f1, f2, f3, f4⟩ := shape15 (w := 0x10000053 + d.toNat * 2 ^ 10 + a.toNat * 2 ^ 16 + h.toNat * 2 ^ 22 + w.toNat * 2 ^ 25 + st.toNat * 2 ^ 7) 0x53 0x1 d a h w st
    (by omega) (by decide) (by decide)
  refine of32 rfl hw (by omega) fun wf_ => ?_
  generalize 0x10000053 + d.toNat * 2 ^ 10 + a.toNat * 2 ^ 16 + h.toNat * 2 ^ 22 + w.toNat * 2 ^ 25 + st.toNat * 2 ^ 7 = w at *
  have e0 := bits_sub (lo := 2) (m := 5) (v := 20) q0 (by decide) (by decide) (by decide)
  have e1 := bits_sub (lo := 28) (m := 4) (v := 1) q1 (by decide) (by decide) (by decide)
  simp [decodeRaw32, decodeVb1, e0, e1, f0, f1, f2, f3, f4]
theorem cmulc (d : BitVec 6) (a : BitVec 6) (h : BitVec 3) (w : BitVec 3) (st : BitVec 3) : Statement (.cmulc d a h w st) := by
  obtain ⟨hw, q0, q1, f0, f1, f2, f3, f4⟩ := shape15 (w := 0x20000053 + d.toNat * 2 ^ 10 + a.toNat * 2 ^ 16 + h.toNat * 2 ^ 22 + w.toNat * 2 ^ 25 + st.toNat * 2 ^ 7) 0x53 0x2 d a h w st
    (by omega) (by decide) (by decide)
  refine of32 rfl hw (by omega) fun wf_ => ?_
  generalize 0x20000053 + d.toNat * 2 ^ 10 + a.toNat * 2 ^ 16 + h.toNat * 2 ^ 22 + w.toNat * 2 ^ 25 + st.toNat * 2 ^ 7 = w at *
  have e0 := bits_sub (lo := 2) (m := 5) (v := 20) q0 (by decide) (by decide) (by decide)
  have e1 := bits_sub (lo := 28) (m := 4) (v := 2) q1 (by decide) (by decide) (by decide)
  simp [decodeRaw32, decodeVb1, e0, e1, f0, f1, f2, f3, f4]
theorem vcvt (d : BitVec 6) (a : BitVec 6) (h : BitVec 3) (w : BitVec 3) (st : BitVec 3) : Statement (.vcvt d a h w st) := by
  obtain ⟨hw, q0, q1, f0, f1, f2, f3, f4⟩ := shape15 (w := 0x30000053 + d.toNat * 2 ^ 10 + a.toNat * 2 ^ 16 + h.toNat * 2 ^ 22 + w.toNat * 2 ^ 25 + st.toNat * 2 ^ 7) 0x53 0x3 d a h w st
    (by omega) (by decide) (by decide)
  refine of32 rfl hw (by omega) fun wf_ => ?_
  generalize 0x30000053 + d.toNat * 2 ^ 10 + a.toNat * 2 ^ 16 + h.toNat * 2 ^ 22 + w.toNat * 2 ^ 25 + st.toNat * 2 ^ 7 = w at *
  have e0 := bits_sub (lo := 2) (m := 5) (v := 20) q0 (by decide) (by decide) (by decide)
  have e1 := bits_sub (lo := 28) (m := 4) (v := 3) q1 (by decide) (by decide) (by decide)
  simp [decodeRaw32, decodeVb1, e0, e1, f0, f1, f2, f3, f4]
theorem vbfly (d : BitVec 6) (a : BitVec 6) (h : BitVec 3) (w : BitVec 3) (st : BitVec 3) : Statement (.vbfly d a h w st) := by
  obtain ⟨hw, q0, q1, f0, f1, f2, f3, f4⟩ := shape15 (w := 0x40000053 + d.toNat * 2 ^ 10 + a.toNat * 2 ^ 16 + h.toNat * 2 ^ 22 + w.toNat * 2 ^ 25 + st.toNat * 2 ^ 7) 0x53 0x4 d a h w st
    (by omega) (by decide) (by decide)
  refine of32 rfl hw (by omega) fun wf_ => ?_
  generalize 0x40000053 + d.toNat * 2 ^ 10 + a.toNat * 2 ^ 16 + h.toNat * 2 ^ 22 + w.toNat * 2 ^ 25 + st.toNat * 2 ^ 7 = w at *
  have e0 := bits_sub (lo := 2) (m := 5) (v := 20) q0 (by decide) (by decide) (by decide)
  have e1 := bits_sub (lo := 28) (m := 4) (v := 4) q1 (by decide) (by decide) (by decide)
  simp [decodeRaw32, decodeVb1, e0, e1, f0, f1, f2, f3, f4]
theorem vperm (d : BitVec 6) (a : BitVec 6) (h : BitVec 3) (w : BitVec 3) (st : BitVec 3) : Statement (.vperm d a h w st) := by
  obtain ⟨hw, q0, q1, f0, f1, f2, f3, f4⟩ := shape15 (w := 0x50000053 + d.toNat * 2 ^ 10 + a.toNat * 2 ^ 16 + h.toNat * 2 ^ 22 + w.toNat * 2 ^ 25 + st.toNat * 2 ^ 7) 0x53 0x5 d a h w st
    (by omega) (by decide) (by decide)
  refine of32 rfl hw (by omega) fun wf_ => ?_
  generalize 0x50000053 + d.toNat * 2 ^ 10 + a.toNat * 2 ^ 16 + h.toNat * 2 ^ 22 + w.toNat * 2 ^ 25 + st.toNat * 2 ^ 7 = w at *
  have e0 := bits_sub (lo := 2) (m := 5) (v := 20) q0 (by decide) (by decide) (by decide)
  have e1 := bits_sub (lo := 28) (m := 4) (v := 5) q1 (by decide) (by decide) (by decide)
  simp [decodeRaw32, decodeVb1, e0, e1, f0, f1, f2, f3, f4]
theorem vbcast (d : BitVec 6) (a : BitVec 6) (h : BitVec 3) (w : BitVec 3) (st : BitVec 3) : Statement (.vbcast d a h w st) := by
  obtain ⟨hw, q0, q1, f0, f1, f2, f3, f4⟩ := shape15 (w := 0x60000053 + d.toNat * 2 ^ 10 + a.toNat * 2 ^ 16 + h.toNat * 2 ^ 22 + w.toNat * 2 ^ 25 + st.toNat * 2 ^ 7) 0x53 0x6 d a h w st
    (by omega) (by decide) (by decide)
  refine of32 rfl hw (by omega) fun wf_ => ?_
  generalize 0x60000053 + d.toNat * 2 ^ 10 + a.toNat * 2 ^ 16 + h.toNat * 2 ^ 22 + w.toNat * 2 ^ 25 + st.toNat * 2 ^ 7 = w at *
  have e0 := bits_sub (lo := 2) (m := 5) (v := 20) q0 (by decide) (by decide) (by decide)
  have e1 := bits_sub (lo := 28) (m := 4) (v := 6) q1 (by decide) (by decide) (by decide)
  simp [decodeRaw32, decodeVb1, e0, e1, f0, f1, f2, f3, f4]
theorem vred (d : BitVec 6) (a : BitVec 6) (h : BitVec 3) (w : BitVec 3) (st : BitVec 3) : Statement (.vred d a h w st) := by
  obtain ⟨hw, q0, q1, f0, f1, f2, f3, f4⟩ := shape15 (w := 0x70000053 + d.toNat * 2 ^ 10 + a.toNat * 2 ^ 16 + h.toNat * 2 ^ 22 + w.toNat * 2 ^ 25 + st.toNat * 2 ^ 7) 0x53 0x7 d a h w st
    (by omega) (by decide) (by decide)
  refine of32 rfl hw (by omega) fun wf_ => ?_
  generalize 0x70000053 + d.toNat * 2 ^ 10 + a.toNat * 2 ^ 16 + h.toNat * 2 ^ 22 + w.toNat * 2 ^ 25 + st.toNat * 2 ^ 7 = w at *
  have e0 := bits_sub (lo := 2) (m := 5) (v := 20) q0 (by decide) (by decide) (by decide)
  have e1 := bits_sub (lo := 28) (m := 4) (v := 7) q1 (by decide) (by decide) (by decide)
  simp [decodeRaw32, decodeVb1, e0, e1, f0, f1, f2, f3, f4]
theorem pand (d : BitVec 3) (a : BitVec 3) (st : BitVec 3) : Statement (.pand d a st) := by
  obtain ⟨hw, q0, q1, q2, f0, f1, f2⟩ := shape16 (w := 0x80000053 + d.toNat * 2 ^ 10 + a.toNat * 2 ^ 16 + st.toNat * 2 ^ 7) 0x53 0x0 0x1000 d a st
    (by omega) (by decide) (by decide) (by decide)
  refine of32 rfl hw (by omega) fun wf_ => ?_
  generalize 0x80000053 + d.toNat * 2 ^ 10 + a.toNat * 2 ^ 16 + st.toNat * 2 ^ 7 = w at *
  have e0 := bits_sub (lo := 2) (m := 5) (v := 20) q0 (by decide) (by decide) (by decide)
  have e1 := bits_sub (lo := 13) (m := 3) (v := 0) q1 (by decide) (by decide) (by decide)
  have e2 := bits_sub (lo := 19) (m := 9) (v := 0) q2 (by decide) (by decide) (by decide)
  have e3 := bits_sub (lo := 28) (m := 4) (v := 8) q2 (by decide) (by decide) (by decide)
  simp [decodeRaw32, decodeVb1, e0, e1, e2, e3, f0, f1, f2]
theorem por (d : BitVec 3) (a : BitVec 3) (st : BitVec 3) : Statement (.por d a st) := by
  obtain ⟨hw, q0, q1, q2, f0, f1, f2⟩ := shape16 (w := 0x90000053 + d.toNat * 2 ^ 10 + a.toNat * 2 ^ 16 + st.toNat * 2 ^ 7) 0x53 0x0 0x1200 d a st
    (by omega) (by decide) (by decide) (by decide)
  refine of32 rfl hw (by omega) fun wf_ => ?_
  generalize 0x90000053 + d.toNat * 2 ^ 10 + a.toNat * 2 ^ 16 + st.toNat * 2 ^ 7 = w at *
  have e0 := bits_sub (lo := 2) (m := 5) (v := 20) q0 (by decide) (by decide) (by decide)
  have e1 := bits_sub (lo := 13) (m := 3) (v := 0) q1 (by decide) (by decide) (by decide)
  have e2 := bits_sub (lo := 19) (m := 9) (v := 0) q2 (by decide) (by decide) (by decide)
  have e3 := bits_sub (lo := 28) (m := 4) (v := 9) q2 (by decide) (by decide) (by decide)
  simp [decodeRaw32, decodeVb1, e0, e1, e2, e3, f0, f1, f2]
theorem pnot (d : BitVec 3) (a : BitVec 3) (st : BitVec 3) : Statement (.pnot d a st) := by
  obtain ⟨hw, q0, q1, q2, f0, f1, f2⟩ := shape16 (w := 0xA0000053 + d.toNat * 2 ^ 10 + a.toNat * 2 ^ 16 + st.toNat * 2 ^ 7) 0x53 0x0 0x1400 d a st
    (by omega) (by decide) (by decide) (by decide)
  refine of32 rfl hw (by omega) fun wf_ => ?_
  generalize 0xA0000053 + d.toNat * 2 ^ 10 + a.toNat * 2 ^ 16 + st.toNat * 2 ^ 7 = w at *
  have e0 := bits_sub (lo := 2) (m := 5) (v := 20) q0 (by decide) (by decide) (by decide)
  have e1 := bits_sub (lo := 13) (m := 3) (v := 0) q1 (by decide) (by decide) (by decide)
  have e2 := bits_sub (lo := 19) (m := 9) (v := 0) q2 (by decide) (by decide) (by decide)
  have e3 := bits_sub (lo := 28) (m := 4) (v := 10) q2 (by decide) (by decide) (by decide)
  simp [decodeRaw32, decodeVb1, e0, e1, e2, e3, f0, f1, f2]
theorem vfma (d : BitVec 6) (a : BitVec 6) (b : BitVec 6) (w : BitVec 2) (h : BitVec 2) (st : BitVec 3) : Statement (.vfma d a b w h st) := by
  obtain ⟨hw, q0, f0, f1, f2, f3, f4, f5⟩ := shape17 (w := 0x57 + d.toNat * 2 ^ 10 + a.toNat * 2 ^ 16 + b.toNat * 2 ^ 22 + w.toNat * 2 ^ 28 + h.toNat * 2 ^ 30 + st.toNat * 2 ^ 7) 0x57 d a b w h st
    (by omega) (by decide)
  refine of32 rfl hw (by omega) fun wf_ => ?_
  generalize 0x57 + d.toNat * 2 ^ 10 + a.toNat * 2 ^ 16 + b.toNat * 2 ^ 22 + w.toNat * 2 ^ 28 + h.toNat * 2 ^ 30 + st.toNat * 2 ^ 7 = w at *
  have e0 := bits_sub (lo := 2) (m := 5) (v := 21) q0 (by decide) (by decide) (by decide)
  simp [decodeRaw32, e0, f0, f1, f2, f3, f4, f5]
theorem vfms (d : BitVec 6) (a : BitVec 6) (b : BitVec 6) (w : BitVec 2) (h : BitVec 2) (st : BitVec 3) : Statement (.vfms d a b w h st) := by
  obtain ⟨hw, q0, f0, f1, f2, f3, f4, f5⟩ := shape17 (w := 0x5B + d.toNat * 2 ^ 10 + a.toNat * 2 ^ 16 + b.toNat * 2 ^ 22 + w.toNat * 2 ^ 28 + h.toNat * 2 ^ 30 + st.toNat * 2 ^ 7) 0x5B d a b w h st
    (by omega) (by decide)
  refine of32 rfl hw (by omega) fun wf_ => ?_
  generalize 0x5B + d.toNat * 2 ^ 10 + a.toNat * 2 ^ 16 + b.toNat * 2 ^ 22 + w.toNat * 2 ^ 28 + h.toNat * 2 ^ 30 + st.toNat * 2 ^ 7 = w at *
  have e0 := bits_sub (lo := 2) (m := 5) (v := 22) q0 (by decide) (by decide) (by decide)
  simp [decodeRaw32, e0, f0, f1, f2, f3, f4, f5]
theorem cfma (d : BitVec 6) (a : BitVec 6) (b : BitVec 6) (w : BitVec 2) (h : BitVec 2) (st : BitVec 3) : Statement (.cfma d a b w h st) := by
  obtain ⟨hw, q0, f0, f1, f2, f3, f4, f5⟩ := shape17 (w := 0x5F + d.toNat * 2 ^ 10 + a.toNat * 2 ^ 16 + b.toNat * 2 ^ 22 + w.toNat * 2 ^ 28 + h.toNat * 2 ^ 30 + st.toNat * 2 ^ 7) 0x5F d a b w h st
    (by omega) (by decide)
  refine of32 rfl hw (by omega) fun wf_ => ?_
  generalize 0x5F + d.toNat * 2 ^ 10 + a.toNat * 2 ^ 16 + b.toNat * 2 ^ 22 + w.toNat * 2 ^ 28 + h.toNat * 2 ^ 30 + st.toNat * 2 ^ 7 = w at *
  have e0 := bits_sub (lo := 2) (m := 5) (v := 23) q0 (by decide) (by decide) (by decide)
  simp [decodeRaw32, e0, f0, f1, f2, f3, f4, f5]
theorem cfmac (d : BitVec 6) (a : BitVec 6) (b : BitVec 6) (w : BitVec 2) (h : BitVec 2) (st : BitVec 3) : Statement (.cfmac d a b w h st) := by
  obtain ⟨hw, q0, f0, f1, f2, f3, f4, f5⟩ := shape17 (w := 0x63 + d.toNat * 2 ^ 10 + a.toNat * 2 ^ 16 + b.toNat * 2 ^ 22 + w.toNat * 2 ^ 28 + h.toNat * 2 ^ 30 + st.toNat * 2 ^ 7) 0x63 d a b w h st
    (by omega) (by decide)
  refine of32 rfl hw (by omega) fun wf_ => ?_
  generalize 0x63 + d.toNat * 2 ^ 10 + a.toNat * 2 ^ 16 + b.toNat * 2 ^ 22 + w.toNat * 2 ^ 28 + h.toNat * 2 ^ 30 + st.toNat * 2 ^ 7 = w at *
  have e0 := bits_sub (lo := 2) (m := 5) (v := 24) q0 (by decide) (by decide) (by decide)
  simp [decodeRaw32, e0, f0, f1, f2, f3, f4, f5]
theorem csrr (r : BitVec 5) (n : BitVec 12) (st : BitVec 3) : Statement (.csrr r n st) := by
  obtain ⟨hw, q0, q1, q2, f0, f1, f2⟩ := shape18 (w := 0x67 + r.toNat * 2 ^ 12 + n.toNat * 2 ^ 20 + st.toNat * 2 ^ 7) 0x67 0x0 0x0 r n st
    (by omega) (by decide) (by decide) (by decide)
  refine of32 rfl hw (by omega) fun wf_ => ?_
  generalize 0x67 + r.toNat * 2 ^ 12 + n.toNat * 2 ^ 20 + st.toNat * 2 ^ 7 = w at *
  have e0 := bits_sub (lo := 2) (m := 5) (v := 25) q0 (by decide) (by decide) (by decide)
  have e1 := bits_sub (lo := 10) (m := 2) (v := 0) q1 (by decide) (by decide) (by decide)
  have e2 := bits_sub (lo := 17) (m := 3) (v := 0) q2 (by decide) (by decide) (by decide)
  simp [decodeRaw32, decodeCsr, needZero, e0, e1, e2, f0, f1, f2]
theorem csrw (r : BitVec 5) (n : BitVec 12) (st : BitVec 3) : Statement (.csrw r n st) := by
  obtain ⟨hw, q0, q1, q2, f0, f1, f2⟩ := shape18 (w := 0x467 + r.toNat * 2 ^ 12 + n.toNat * 2 ^ 20 + st.toNat * 2 ^ 7) 0x67 0x1 0x0 r n st
    (by omega) (by decide) (by decide) (by decide)
  refine of32 rfl hw (by omega) fun wf_ => ?_
  generalize 0x467 + r.toNat * 2 ^ 12 + n.toNat * 2 ^ 20 + st.toNat * 2 ^ 7 = w at *
  have e0 := bits_sub (lo := 2) (m := 5) (v := 25) q0 (by decide) (by decide) (by decide)
  have e1 := bits_sub (lo := 10) (m := 2) (v := 1) q1 (by decide) (by decide) (by decide)
  have e2 := bits_sub (lo := 17) (m := 3) (v := 0) q2 (by decide) (by decide) (by decide)
  simp [decodeRaw32, decodeCsr, needZero, e0, e1, e2, f0, f1, f2]
theorem csrs (r : BitVec 5) (n : BitVec 12) (st : BitVec 3) : Statement (.csrs r n st) := by
  obtain ⟨hw, q0, q1, q2, f0, f1, f2⟩ := shape18 (w := 0x867 + r.toNat * 2 ^ 12 + n.toNat * 2 ^ 20 + st.toNat * 2 ^ 7) 0x67 0x2 0x0 r n st
    (by omega) (by decide) (by decide) (by decide)
  refine of32 rfl hw (by omega) fun wf_ => ?_
  generalize 0x867 + r.toNat * 2 ^ 12 + n.toNat * 2 ^ 20 + st.toNat * 2 ^ 7 = w at *
  have e0 := bits_sub (lo := 2) (m := 5) (v := 25) q0 (by decide) (by decide) (by decide)
  have e1 := bits_sub (lo := 10) (m := 2) (v := 2) q1 (by decide) (by decide) (by decide)
  have e2 := bits_sub (lo := 17) (m := 3) (v := 0) q2 (by decide) (by decide) (by decide)
  simp [decodeRaw32, decodeCsr, needZero, e0, e1, e2, f0, f1, f2]
theorem csrc (r : BitVec 5) (n : BitVec 12) (st : BitVec 3) : Statement (.csrc r n st) := by
  obtain ⟨hw, q0, q1, q2, f0, f1, f2⟩ := shape18 (w := 0xC67 + r.toNat * 2 ^ 12 + n.toNat * 2 ^ 20 + st.toNat * 2 ^ 7) 0x67 0x3 0x0 r n st
    (by omega) (by decide) (by decide) (by decide)
  refine of32 rfl hw (by omega) fun wf_ => ?_
  generalize 0xC67 + r.toNat * 2 ^ 12 + n.toNat * 2 ^ 20 + st.toNat * 2 ^ 7 = w at *
  have e0 := bits_sub (lo := 2) (m := 5) (v := 25) q0 (by decide) (by decide) (by decide)
  have e1 := bits_sub (lo := 10) (m := 2) (v := 3) q1 (by decide) (by decide) (by decide)
  have e2 := bits_sub (lo := 17) (m := 3) (v := 0) q2 (by decide) (by decide) (by decide)
  simp [decodeRaw32, decodeCsr, needZero, e0, e1, e2, f0, f1, f2]
theorem fenceFull (c : BitVec 3) (st : BitVec 3) : Statement (.fenceFull c st) := by
  obtain ⟨hw, q0, q1, q2, f0, f1⟩ := shape19 (w := 0x6B + c.toNat * 2 ^ 26 + st.toNat * 2 ^ 7) 0x6B 0x0 0x0 c st
    (by omega) (by decide) (by decide) (by decide)
  refine of32 rfl hw (by omega) fun wf_ => ?_
  generalize 0x6B + c.toNat * 2 ^ 26 + st.toNat * 2 ^ 7 = w at *
  have e0 := bits_sub (lo := 2) (m := 5) (v := 26) q0 (by decide) (by decide) (by decide)
  have e1 := bits_sub (lo := 10) (m := 6) (v := 0) q1 (by decide) (by decide) (by decide)
  have e2 := bits_sub (lo := 16) (m := 10) (v := 0) q1 (by decide) (by decide) (by decide)
  have e3 := bits_sub (lo := 29) (m := 3) (v := 0) q2 (by decide) (by decide) (by decide)
  simp [decodeRaw32, decodeSys, decodeFence, needZero, e0, e1, e2, e3, f0, f1]
theorem fenceAcq (c : BitVec 3) (st : BitVec 3) : Statement (.fenceAcq c st) := by
  obtain ⟨hw, q0, q1, q2, f0, f1⟩ := shape19 (w := 0x2000006B + c.toNat * 2 ^ 26 + st.toNat * 2 ^ 7) 0x6B 0x0 0x1 c st
    (by omega) (by decide) (by decide) (by decide)
  refine of32 rfl hw (by omega) fun wf_ => ?_
  generalize 0x2000006B + c.toNat * 2 ^ 26 + st.toNat * 2 ^ 7 = w at *
  have e0 := bits_sub (lo := 2) (m := 5) (v := 26) q0 (by decide) (by decide) (by decide)
  have e1 := bits_sub (lo := 10) (m := 6) (v := 0) q1 (by decide) (by decide) (by decide)
  have e2 := bits_sub (lo := 16) (m := 10) (v := 0) q1 (by decide) (by decide) (by decide)
  have e3 := bits_sub (lo := 29) (m := 3) (v := 1) q2 (by decide) (by decide) (by decide)
  simp [decodeRaw32, decodeSys, decodeFence, needZero, e0, e1, e2, e3, f0, f1]
theorem fenceRel (c : BitVec 3) (st : BitVec 3) : Statement (.fenceRel c st) := by
  obtain ⟨hw, q0, q1, q2, f0, f1⟩ := shape19 (w := 0x4000006B + c.toNat * 2 ^ 26 + st.toNat * 2 ^ 7) 0x6B 0x0 0x2 c st
    (by omega) (by decide) (by decide) (by decide)
  refine of32 rfl hw (by omega) fun wf_ => ?_
  generalize 0x4000006B + c.toNat * 2 ^ 26 + st.toNat * 2 ^ 7 = w at *
  have e0 := bits_sub (lo := 2) (m := 5) (v := 26) q0 (by decide) (by decide) (by decide)
  have e1 := bits_sub (lo := 10) (m := 6) (v := 0) q1 (by decide) (by decide) (by decide)
  have e2 := bits_sub (lo := 16) (m := 10) (v := 0) q1 (by decide) (by decide) (by decide)
  have e3 := bits_sub (lo := 29) (m := 3) (v := 2) q2 (by decide) (by decide) (by decide)
  simp [decodeRaw32, decodeSys, decodeFence, needZero, e0, e1, e2, e3, f0, f1]
theorem fenceAck (st : BitVec 3) : Statement (.fenceAck st) := by
  obtain ⟨hw, q0, q1, f0⟩ := shape20 (w := 0x46B + st.toNat * 2 ^ 7) 0x6B 0x1 st
    (by omega) (by decide) (by decide)
  refine of32 rfl hw (by omega) fun wf_ => ?_
  generalize 0x46B + st.toNat * 2 ^ 7 = w at *
  have e0 := bits_sub (lo := 2) (m := 5) (v := 26) q0 (by decide) (by decide) (by decide)
  have e1 := bits_sub (lo := 10) (m := 6) (v := 1) q1 (by decide) (by decide) (by decide)
  have e2 := bits_sub (lo := 16) (m := 16) (v := 0) q1 (by decide) (by decide) (by decide)
  have e3 := bits_sub (lo := 26) (m := 2) (v := 0) q1 (by decide) (by decide) (by decide)
  have e4 := bits_sub (lo := 29) (m := 3) (v := 0) q1 (by decide) (by decide) (by decide)
  simp [decodeRaw32, decodeSys, needZero, e0, e1, e2, f0]
theorem wait (a : BitVec 5) (b : BitVec 5) (c : BitVec 3) (z : BitVec 1) (st : BitVec 3) : Statement (.wait a b c z st) := by
  obtain ⟨hw, q0, q1, q2, f0, f1, f2, f3, f4⟩ := shape21 (w := 0x86B + a.toNat * 2 ^ 16 + b.toNat * 2 ^ 21 + c.toNat * 2 ^ 26 + z.toNat * 2 ^ 29 + st.toNat * 2 ^ 7) 0x6B 0x2 0x0 a b c z st
    (by omega) (by decide) (by decide) (by decide)
  refine of32 rfl hw (by omega) fun wf_ => ?_
  generalize 0x86B + a.toNat * 2 ^ 16 + b.toNat * 2 ^ 21 + c.toNat * 2 ^ 26 + z.toNat * 2 ^ 29 + st.toNat * 2 ^ 7 = w at *
  have e0 := bits_sub (lo := 2) (m := 5) (v := 26) q0 (by decide) (by decide) (by decide)
  have e1 := bits_sub (lo := 10) (m := 6) (v := 2) q1 (by decide) (by decide) (by decide)
  have e2 := bits_sub (lo := 30) (m := 2) (v := 0) q2 (by decide) (by decide) (by decide)
  simp [decodeRaw32, decodeSys, needZero, e0, e1, e2, f0, f1, f2, f3, f4]
theorem pf (a : BitVec 5) (k : BitVec 1) (st : BitVec 3) : Statement (.pf a k st) := by
  obtain ⟨hw, q0, q1, q2, q3, f0, f1, f2⟩ := shape22 (w := 0xC6B + a.toNat * 2 ^ 16 + k.toNat * 2 ^ 26 + st.toNat * 2 ^ 7) 0x6B 0x3 0x0 0x0 a k st
    (by omega) (by decide) (by decide) (by decide) (by decide)
  refine of32 rfl hw (by omega) fun wf_ => ?_
  generalize 0xC6B + a.toNat * 2 ^ 16 + k.toNat * 2 ^ 26 + st.toNat * 2 ^ 7 = w at *
  have e0 := bits_sub (lo := 2) (m := 5) (v := 26) q0 (by decide) (by decide) (by decide)
  have e1 := bits_sub (lo := 10) (m := 6) (v := 3) q1 (by decide) (by decide) (by decide)
  have e2 := bits_sub (lo := 21) (m := 5) (v := 0) q2 (by decide) (by decide) (by decide)
  have e3 := bits_sub (lo := 27) (m := 5) (v := 0) q3 (by decide) (by decide) (by decide)
  have e4 := bits_sub (lo := 29) (m := 3) (v := 0) q3 (by decide) (by decide) (by decide)
  simp [decodeRaw32, decodeSys, e0, e1, e2, e3, f0, f1, f2]
theorem trap (k : BitVec 6) (st : BitVec 3) : Statement (.trap k st) := by
  obtain ⟨hw, q0, q1, f0, f1⟩ := shape23 (w := 0x106B + k.toNat * 2 ^ 26 + st.toNat * 2 ^ 7) 0x6B 0x4 k st
    (by omega) (by decide) (by decide)
  refine of32 rfl hw (by omega) fun wf_ => ?_
  generalize 0x106B + k.toNat * 2 ^ 26 + st.toNat * 2 ^ 7 = w at *
  have e0 := bits_sub (lo := 2) (m := 5) (v := 26) q0 (by decide) (by decide) (by decide)
  have e1 := bits_sub (lo := 10) (m := 6) (v := 4) q1 (by decide) (by decide) (by decide)
  have e2 := bits_sub (lo := 16) (m := 10) (v := 0) q1 (by decide) (by decide) (by decide)
  simp [decodeRaw32, decodeSys, needZero, e0, e1, e2, f0, f1]
theorem eret (st : BitVec 3) : Statement (.eret st) := by
  obtain ⟨hw, q0, q1, f0⟩ := shape20 (w := 0x146B + st.toNat * 2 ^ 7) 0x6B 0x5 st
    (by omega) (by decide) (by decide)
  refine of32 rfl hw (by omega) fun wf_ => ?_
  generalize 0x146B + st.toNat * 2 ^ 7 = w at *
  have e0 := bits_sub (lo := 2) (m := 5) (v := 26) q0 (by decide) (by decide) (by decide)
  have e1 := bits_sub (lo := 10) (m := 6) (v := 5) q1 (by decide) (by decide) (by decide)
  have e2 := bits_sub (lo := 16) (m := 16) (v := 0) q1 (by decide) (by decide) (by decide)
  have e3 := bits_sub (lo := 26) (m := 2) (v := 0) q1 (by decide) (by decide) (by decide)
  have e4 := bits_sub (lo := 29) (m := 3) (v := 0) q1 (by decide) (by decide) (by decide)
  simp [decodeRaw32, decodeSys, needZero, e0, e1, e2, f0]
theorem tlbinvPage (a : BitVec 5) (st : BitVec 3) : Statement (.tlbinvPage a st) := by
  obtain ⟨hw, q0, q1, q2, f0, f1⟩ := shape24 (w := 0x186B + a.toNat * 2 ^ 16 + st.toNat * 2 ^ 7) 0x6B 0x6 0x0 a st
    (by omega) (by decide) (by decide) (by decide)
  refine of32 rfl hw (by omega) fun wf_ => ?_
  generalize 0x186B + a.toNat * 2 ^ 16 + st.toNat * 2 ^ 7 = w at *
  have e0 := bits_sub (lo := 2) (m := 5) (v := 26) q0 (by decide) (by decide) (by decide)
  have e1 := bits_sub (lo := 10) (m := 6) (v := 6) q1 (by decide) (by decide) (by decide)
  have e2 := bits_sub (lo := 21) (m := 5) (v := 0) q2 (by decide) (by decide) (by decide)
  have e3 := bits_sub (lo := 26) (m := 2) (v := 0) q2 (by decide) (by decide) (by decide)
  have e4 := bits_sub (lo := 28) (m := 4) (v := 0) q2 (by decide) (by decide) (by decide)
  have e5 := bits_sub (lo := 29) (m := 3) (v := 0) q2 (by decide) (by decide) (by decide)
  simp [decodeRaw32, decodeSys, decodeTlbinv, e0, e1, e2, e3, e4, f0, f1]
theorem tlbinvTag (a : BitVec 5) (st : BitVec 3) : Statement (.tlbinvTag a st) := by
  obtain ⟨hw, q0, q1, q2, f0, f1⟩ := shape24 (w := 0x400186B + a.toNat * 2 ^ 16 + st.toNat * 2 ^ 7) 0x6B 0x6 0x20 a st
    (by omega) (by decide) (by decide) (by decide)
  refine of32 rfl hw (by omega) fun wf_ => ?_
  generalize 0x400186B + a.toNat * 2 ^ 16 + st.toNat * 2 ^ 7 = w at *
  have e0 := bits_sub (lo := 2) (m := 5) (v := 26) q0 (by decide) (by decide) (by decide)
  have e1 := bits_sub (lo := 10) (m := 6) (v := 6) q1 (by decide) (by decide) (by decide)
  have e2 := bits_sub (lo := 21) (m := 5) (v := 0) q2 (by decide) (by decide) (by decide)
  have e3 := bits_sub (lo := 26) (m := 2) (v := 1) q2 (by decide) (by decide) (by decide)
  have e4 := bits_sub (lo := 28) (m := 4) (v := 0) q2 (by decide) (by decide) (by decide)
  have e5 := bits_sub (lo := 29) (m := 3) (v := 0) q2 (by decide) (by decide) (by decide)
  simp [decodeRaw32, decodeSys, decodeTlbinv, e0, e1, e2, e3, e4, f0, f1]
theorem tlbinvAll (a : BitVec 5) (st : BitVec 3) : Statement (.tlbinvAll a st) := by
  obtain ⟨hw, q0, q1, q2, f0, f1⟩ := shape24 (w := 0x800186B + a.toNat * 2 ^ 16 + st.toNat * 2 ^ 7) 0x6B 0x6 0x40 a st
    (by omega) (by decide) (by decide) (by decide)
  refine of32 rfl hw (by omega) fun wf_ => ?_
  generalize 0x800186B + a.toNat * 2 ^ 16 + st.toNat * 2 ^ 7 = w at *
  have e0 := bits_sub (lo := 2) (m := 5) (v := 26) q0 (by decide) (by decide) (by decide)
  have e1 := bits_sub (lo := 10) (m := 6) (v := 6) q1 (by decide) (by decide) (by decide)
  have e2 := bits_sub (lo := 21) (m := 5) (v := 0) q2 (by decide) (by decide) (by decide)
  have e3 := bits_sub (lo := 26) (m := 2) (v := 2) q2 (by decide) (by decide) (by decide)
  have e4 := bits_sub (lo := 28) (m := 4) (v := 0) q2 (by decide) (by decide) (by decide)
  have e5 := bits_sub (lo := 29) (m := 3) (v := 0) q2 (by decide) (by decide) (by decide)
  simp [decodeRaw32, decodeSys, decodeTlbinv, e0, e1, e2, e3, e4, f0, f1]
theorem fenceI (st : BitVec 3) : Statement (.fenceI st) := by
  obtain ⟨hw, q0, q1, f0⟩ := shape20 (w := 0x1C6B + st.toNat * 2 ^ 7) 0x6B 0x7 st
    (by omega) (by decide) (by decide)
  refine of32 rfl hw (by omega) fun wf_ => ?_
  generalize 0x1C6B + st.toNat * 2 ^ 7 = w at *
  have e0 := bits_sub (lo := 2) (m := 5) (v := 26) q0 (by decide) (by decide) (by decide)
  have e1 := bits_sub (lo := 10) (m := 6) (v := 7) q1 (by decide) (by decide) (by decide)
  have e2 := bits_sub (lo := 16) (m := 16) (v := 0) q1 (by decide) (by decide) (by decide)
  have e3 := bits_sub (lo := 26) (m := 2) (v := 0) q1 (by decide) (by decide) (by decide)
  have e4 := bits_sub (lo := 29) (m := 3) (v := 0) q1 (by decide) (by decide) (by decide)
  simp [decodeRaw32, decodeSys, needZero, e0, e1, e2, f0]
theorem pause (k : BitVec 6) (st : BitVec 3) : Statement (.pause k st) := by
  obtain ⟨hw, q0, q1, f0, f1⟩ := shape23 (w := 0x206B + k.toNat * 2 ^ 26 + st.toNat * 2 ^ 7) 0x6B 0x8 k st
    (by omega) (by decide) (by decide)
  refine of32 rfl hw (by omega) fun wf_ => ?_
  generalize 0x206B + k.toNat * 2 ^ 26 + st.toNat * 2 ^ 7 = w at *
  have e0 := bits_sub (lo := 2) (m := 5) (v := 26) q0 (by decide) (by decide) (by decide)
  have e1 := bits_sub (lo := 10) (m := 6) (v := 8) q1 (by decide) (by decide) (by decide)
  have e2 := bits_sub (lo := 16) (m := 10) (v := 0) q1 (by decide) (by decide) (by decide)
  simp [decodeRaw32, decodeSys, needZero, e0, e1, e2, f0, f1]
theorem taskEnd (st : BitVec 3) : Statement (.taskEnd st) := by
  obtain ⟨hw, q0, q1, f0⟩ := shape20 (w := 0x246B + st.toNat * 2 ^ 7) 0x6B 0x9 st
    (by omega) (by decide) (by decide)
  refine of32 rfl hw (by omega) fun wf_ => ?_
  generalize 0x246B + st.toNat * 2 ^ 7 = w at *
  have e0 := bits_sub (lo := 2) (m := 5) (v := 26) q0 (by decide) (by decide) (by decide)
  have e1 := bits_sub (lo := 10) (m := 6) (v := 9) q1 (by decide) (by decide) (by decide)
  have e2 := bits_sub (lo := 16) (m := 16) (v := 0) q1 (by decide) (by decide) (by decide)
  have e3 := bits_sub (lo := 26) (m := 2) (v := 0) q1 (by decide) (by decide) (by decide)
  have e4 := bits_sub (lo := 29) (m := 3) (v := 0) q1 (by decide) (by decide) (by decide)
  simp [decodeRaw32, decodeSys, needZero, e0, e1, e2, f0]
theorem spawn (a : BitVec 5) (b : BitVec 5) (st : BitVec 3) : Statement (.spawn a b st) := by
  obtain ⟨hw, q0, q1, q2, f0, f1, f2⟩ := shape25 (w := 0x286B + a.toNat * 2 ^ 16 + b.toNat * 2 ^ 21 + st.toNat * 2 ^ 7) 0x6B 0xA 0x0 a b st
    (by omega) (by decide) (by decide) (by decide)
  refine of32 rfl hw (by omega) fun wf_ => ?_
  generalize 0x286B + a.toNat * 2 ^ 16 + b.toNat * 2 ^ 21 + st.toNat * 2 ^ 7 = w at *
  have e0 := bits_sub (lo := 2) (m := 5) (v := 26) q0 (by decide) (by decide) (by decide)
  have e1 := bits_sub (lo := 10) (m := 6) (v := 10) q1 (by decide) (by decide) (by decide)
  have e2 := bits_sub (lo := 26) (m := 2) (v := 0) q2 (by decide) (by decide) (by decide)
  have e3 := bits_sub (lo := 26) (m := 6) (v := 0) q2 (by decide) (by decide) (by decide)
  have e4 := bits_sub (lo := 29) (m := 3) (v := 0) q2 (by decide) (by decide) (by decide)
  simp [decodeRaw32, decodeSys, needZero, e0, e1, e3, f0, f1, f2]
theorem yield (a : BitVec 5) (st : BitVec 3) : Statement (.yield a st) := by
  obtain ⟨hw, q0, q1, q2, f0, f1⟩ := shape24 (w := 0x2C6B + a.toNat * 2 ^ 16 + st.toNat * 2 ^ 7) 0x6B 0xB 0x0 a st
    (by omega) (by decide) (by decide) (by decide)
  refine of32 rfl hw (by omega) fun wf_ => ?_
  generalize 0x2C6B + a.toNat * 2 ^ 16 + st.toNat * 2 ^ 7 = w at *
  have e0 := bits_sub (lo := 2) (m := 5) (v := 26) q0 (by decide) (by decide) (by decide)
  have e1 := bits_sub (lo := 10) (m := 6) (v := 11) q1 (by decide) (by decide) (by decide)
  have e2 := bits_sub (lo := 21) (m := 11) (v := 0) q2 (by decide) (by decide) (by decide)
  have e3 := bits_sub (lo := 26) (m := 2) (v := 0) q2 (by decide) (by decide) (by decide)
  have e4 := bits_sub (lo := 29) (m := 3) (v := 0) q2 (by decide) (by decide) (by decide)
  simp [decodeRaw32, decodeSys, needZero, e0, e1, e2, f0, f1]
theorem cntInit (a : BitVec 5) (b : BitVec 5) (st : BitVec 3) : Statement (.cntInit a b st) := by
  obtain ⟨hw, q0, q1, q2, f0, f1, f2⟩ := shape25 (w := 0x306B + a.toNat * 2 ^ 16 + b.toNat * 2 ^ 21 + st.toNat * 2 ^ 7) 0x6B 0xC 0x0 a b st
    (by omega) (by decide) (by decide) (by decide)
  refine of32 rfl hw (by omega) fun wf_ => ?_
  generalize 0x306B + a.toNat * 2 ^ 16 + b.toNat * 2 ^ 21 + st.toNat * 2 ^ 7 = w at *
  have e0 := bits_sub (lo := 2) (m := 5) (v := 26) q0 (by decide) (by decide) (by decide)
  have e1 := bits_sub (lo := 10) (m := 6) (v := 12) q1 (by decide) (by decide) (by decide)
  have e2 := bits_sub (lo := 26) (m := 2) (v := 0) q2 (by decide) (by decide) (by decide)
  have e3 := bits_sub (lo := 26) (m := 6) (v := 0) q2 (by decide) (by decide) (by decide)
  have e4 := bits_sub (lo := 29) (m := 3) (v := 0) q2 (by decide) (by decide) (by decide)
  simp [decodeRaw32, decodeSys, needZero, e0, e1, e3, f0, f1, f2]
theorem barInit (a : BitVec 5) (b : BitVec 5) (st : BitVec 3) : Statement (.barInit a b st) := by
  obtain ⟨hw, q0, q1, q2, f0, f1, f2⟩ := shape25 (w := 0x346B + a.toNat * 2 ^ 16 + b.toNat * 2 ^ 21 + st.toNat * 2 ^ 7) 0x6B 0xD 0x0 a b st
    (by omega) (by decide) (by decide) (by decide)
  refine of32 rfl hw (by omega) fun wf_ => ?_
  generalize 0x346B + a.toNat * 2 ^ 16 + b.toNat * 2 ^ 21 + st.toNat * 2 ^ 7 = w at *
  have e0 := bits_sub (lo := 2) (m := 5) (v := 26) q0 (by decide) (by decide) (by decide)
  have e1 := bits_sub (lo := 10) (m := 6) (v := 13) q1 (by decide) (by decide) (by decide)
  have e2 := bits_sub (lo := 26) (m := 2) (v := 0) q2 (by decide) (by decide) (by decide)
  have e3 := bits_sub (lo := 26) (m := 6) (v := 0) q2 (by decide) (by decide) (by decide)
  have e4 := bits_sub (lo := 29) (m := 3) (v := 0) q2 (by decide) (by decide) (by decide)
  simp [decodeRaw32, decodeSys, needZero, e0, e1, e3, f0, f1, f2]
theorem barArrive (a : BitVec 5) (st : BitVec 3) : Statement (.barArrive a st) := by
  obtain ⟨hw, q0, q1, q2, f0, f1⟩ := shape24 (w := 0x386B + a.toNat * 2 ^ 16 + st.toNat * 2 ^ 7) 0x6B 0xE 0x0 a st
    (by omega) (by decide) (by decide) (by decide)
  refine of32 rfl hw (by omega) fun wf_ => ?_
  generalize 0x386B + a.toNat * 2 ^ 16 + st.toNat * 2 ^ 7 = w at *
  have e0 := bits_sub (lo := 2) (m := 5) (v := 26) q0 (by decide) (by decide) (by decide)
  have e1 := bits_sub (lo := 10) (m := 6) (v := 14) q1 (by decide) (by decide) (by decide)
  have e2 := bits_sub (lo := 21) (m := 11) (v := 0) q2 (by decide) (by decide) (by decide)
  have e3 := bits_sub (lo := 26) (m := 2) (v := 0) q2 (by decide) (by decide) (by decide)
  have e4 := bits_sub (lo := 29) (m := 3) (v := 0) q2 (by decide) (by decide) (by decide)
  simp [decodeRaw32, decodeSys, needZero, e0, e1, e2, f0, f1]
theorem barWait (a : BitVec 5) (b : BitVec 5) (st : BitVec 3) : Statement (.barWait a b st) := by
  obtain ⟨hw, q0, q1, q2, f0, f1, f2⟩ := shape25 (w := 0x3C6B + a.toNat * 2 ^ 16 + b.toNat * 2 ^ 21 + st.toNat * 2 ^ 7) 0x6B 0xF 0x0 a b st
    (by omega) (by decide) (by decide) (by decide)
  refine of32 rfl hw (by omega) fun wf_ => ?_
  generalize 0x3C6B + a.toNat * 2 ^ 16 + b.toNat * 2 ^ 21 + st.toNat * 2 ^ 7 = w at *
  have e0 := bits_sub (lo := 2) (m := 5) (v := 26) q0 (by decide) (by decide) (by decide)
  have e1 := bits_sub (lo := 10) (m := 6) (v := 15) q1 (by decide) (by decide) (by decide)
  have e2 := bits_sub (lo := 26) (m := 2) (v := 0) q2 (by decide) (by decide) (by decide)
  have e3 := bits_sub (lo := 26) (m := 6) (v := 0) q2 (by decide) (by decide) (by decide)
  have e4 := bits_sub (lo := 29) (m := 3) (v := 0) q2 (by decide) (by decide) (by decide)
  simp [decodeRaw32, decodeSys, needZero, e0, e1, e3, f0, f1, f2]
theorem barLink (a : BitVec 5) (b : BitVec 5) (st : BitVec 3) : Statement (.barLink a b st) := by
  obtain ⟨hw, q0, q1, q2, f0, f1, f2⟩ := shape25 (w := 0x406B + a.toNat * 2 ^ 16 + b.toNat * 2 ^ 21 + st.toNat * 2 ^ 7) 0x6B 0x10 0x0 a b st
    (by omega) (by decide) (by decide) (by decide)
  refine of32 rfl hw (by omega) fun wf_ => ?_
  generalize 0x406B + a.toNat * 2 ^ 16 + b.toNat * 2 ^ 21 + st.toNat * 2 ^ 7 = w at *
  have e0 := bits_sub (lo := 2) (m := 5) (v := 26) q0 (by decide) (by decide) (by decide)
  have e1 := bits_sub (lo := 10) (m := 6) (v := 16) q1 (by decide) (by decide) (by decide)
  have e2 := bits_sub (lo := 26) (m := 2) (v := 0) q2 (by decide) (by decide) (by decide)
  have e3 := bits_sub (lo := 26) (m := 6) (v := 0) q2 (by decide) (by decide) (by decide)
  have e4 := bits_sub (lo := 29) (m := 3) (v := 0) q2 (by decide) (by decide) (by decide)
  simp [decodeRaw32, decodeSys, needZero, e0, e1, e3, f0, f1, f2]
theorem phase (a : BitVec 5) (st : BitVec 3) : Statement (.phase a st) := by
  obtain ⟨hw, q0, q1, q2, f0, f1⟩ := shape24 (w := 0x446B + a.toNat * 2 ^ 16 + st.toNat * 2 ^ 7) 0x6B 0x11 0x0 a st
    (by omega) (by decide) (by decide) (by decide)
  refine of32 rfl hw (by omega) fun wf_ => ?_
  generalize 0x446B + a.toNat * 2 ^ 16 + st.toNat * 2 ^ 7 = w at *
  have e0 := bits_sub (lo := 2) (m := 5) (v := 26) q0 (by decide) (by decide) (by decide)
  have e1 := bits_sub (lo := 10) (m := 6) (v := 17) q1 (by decide) (by decide) (by decide)
  have e2 := bits_sub (lo := 21) (m := 11) (v := 0) q2 (by decide) (by decide) (by decide)
  have e3 := bits_sub (lo := 26) (m := 2) (v := 0) q2 (by decide) (by decide) (by decide)
  have e4 := bits_sub (lo := 29) (m := 3) (v := 0) q2 (by decide) (by decide) (by decide)
  simp [decodeRaw32, decodeSys, needZero, e0, e1, e2, f0, f1]
theorem sleep (a : BitVec 5) (w : BitVec 1) (st : BitVec 3) : Statement (.sleep a w st) := by
  obtain ⟨hw, q0, q1, q2, q3, f0, f1, f2⟩ := shape22 (w := 0x486B + a.toNat * 2 ^ 16 + w.toNat * 2 ^ 26 + st.toNat * 2 ^ 7) 0x6B 0x12 0x0 0x0 a w st
    (by omega) (by decide) (by decide) (by decide) (by decide)
  refine of32 rfl hw (by omega) fun wf_ => ?_
  generalize 0x486B + a.toNat * 2 ^ 16 + w.toNat * 2 ^ 26 + st.toNat * 2 ^ 7 = w at *
  have e0 := bits_sub (lo := 2) (m := 5) (v := 26) q0 (by decide) (by decide) (by decide)
  have e1 := bits_sub (lo := 10) (m := 6) (v := 18) q1 (by decide) (by decide) (by decide)
  have e2 := bits_sub (lo := 21) (m := 5) (v := 0) q2 (by decide) (by decide) (by decide)
  have e3 := bits_sub (lo := 27) (m := 5) (v := 0) q3 (by decide) (by decide) (by decide)
  have e4 := bits_sub (lo := 29) (m := 3) (v := 0) q3 (by decide) (by decide) (by decide)
  simp [decodeRaw32, decodeSys, e0, e1, e2, e3, f0, f1, f2]
theorem teamBind (a : BitVec 5) (b : BitVec 5) (st : BitVec 3) : Statement (.teamBind a b st) := by
  obtain ⟨hw, q0, q1, q2, f0, f1, f2⟩ := shape25 (w := 0x4C6B + a.toNat * 2 ^ 16 + b.toNat * 2 ^ 21 + st.toNat * 2 ^ 7) 0x6B 0x13 0x0 a b st
    (by omega) (by decide) (by decide) (by decide)
  refine of32 rfl hw (by omega) fun wf_ => ?_
  generalize 0x4C6B + a.toNat * 2 ^ 16 + b.toNat * 2 ^ 21 + st.toNat * 2 ^ 7 = w at *
  have e0 := bits_sub (lo := 2) (m := 5) (v := 26) q0 (by decide) (by decide) (by decide)
  have e1 := bits_sub (lo := 10) (m := 6) (v := 19) q1 (by decide) (by decide) (by decide)
  have e2 := bits_sub (lo := 26) (m := 2) (v := 0) q2 (by decide) (by decide) (by decide)
  have e3 := bits_sub (lo := 26) (m := 6) (v := 0) q2 (by decide) (by decide) (by decide)
  have e4 := bits_sub (lo := 29) (m := 3) (v := 0) q2 (by decide) (by decide) (by decide)
  simp [decodeRaw32, decodeSys, needZero, e0, e1, e3, f0, f1, f2]
theorem hand (a : BitVec 5) (b : BitVec 5) (rcv : BitVec 3) (snd : BitVec 3) (st : BitVec 3) : Statement (.hand a b rcv snd st) := by
  obtain ⟨hw, q0, q1, f0, f1, f2, f3, f4⟩ := shape26 (w := 0x506B + a.toNat * 2 ^ 16 + b.toNat * 2 ^ 21 + rcv.toNat * 2 ^ 26 + snd.toNat * 2 ^ 29 + st.toNat * 2 ^ 7) 0x6B 0x14 a b rcv snd st
    (by omega) (by decide) (by decide)
  refine of32 rfl hw (by omega) fun wf_ => ?_
  generalize 0x506B + a.toNat * 2 ^ 16 + b.toNat * 2 ^ 21 + rcv.toNat * 2 ^ 26 + snd.toNat * 2 ^ 29 + st.toNat * 2 ^ 7 = w at *
  have e0 := bits_sub (lo := 2) (m := 5) (v := 26) q0 (by decide) (by decide) (by decide)
  have e1 := bits_sub (lo := 10) (m := 6) (v := 20) q1 (by decide) (by decide) (by decide)
  simp [decodeRaw32, decodeSys, e0, e1, f0, f1, f2, f3, f4]
theorem mark (st : BitVec 3) : Statement (.mark st) := by
  obtain ⟨hw, q0, q1, f0⟩ := shape20 (w := 0x546B + st.toNat * 2 ^ 7) 0x6B 0x15 st
    (by omega) (by decide) (by decide)
  refine of32 rfl hw (by omega) fun wf_ => ?_
  generalize 0x546B + st.toNat * 2 ^ 7 = w at *
  have e0 := bits_sub (lo := 2) (m := 5) (v := 26) q0 (by decide) (by decide) (by decide)
  have e1 := bits_sub (lo := 10) (m := 6) (v := 21) q1 (by decide) (by decide) (by decide)
  have e2 := bits_sub (lo := 16) (m := 16) (v := 0) q1 (by decide) (by decide) (by decide)
  have e3 := bits_sub (lo := 26) (m := 2) (v := 0) q1 (by decide) (by decide) (by decide)
  have e4 := bits_sub (lo := 29) (m := 3) (v := 0) q1 (by decide) (by decide) (by decide)
  simp [decodeRaw32, decodeSys, needZero, e0, e1, e2, f0]
theorem driftSet (bound : BitVec 6) (st : BitVec 3) : Statement (.driftSet bound st) := by
  obtain ⟨hw, q0, q1, f0, f1⟩ := shape23 (w := 0x586B + bound.toNat * 2 ^ 26 + st.toNat * 2 ^ 7) 0x6B 0x16 bound st
    (by omega) (by decide) (by decide)
  refine of32 rfl hw (by omega) fun wf_ => ?_
  generalize 0x586B + bound.toNat * 2 ^ 26 + st.toNat * 2 ^ 7 = w at *
  have e0 := bits_sub (lo := 2) (m := 5) (v := 26) q0 (by decide) (by decide) (by decide)
  have e1 := bits_sub (lo := 10) (m := 6) (v := 22) q1 (by decide) (by decide) (by decide)
  have e2 := bits_sub (lo := 16) (m := 10) (v := 0) q1 (by decide) (by decide) (by decide)
  simp [decodeRaw32, decodeSys, needZero, e0, e1, e2, f0, f1]
theorem realign (st : BitVec 3) : Statement (.realign st) := by
  obtain ⟨hw, q0, q1, f0⟩ := shape20 (w := 0x5C6B + st.toNat * 2 ^ 7) 0x6B 0x17 st
    (by omega) (by decide) (by decide)
  refine of32 rfl hw (by omega) fun wf_ => ?_
  generalize 0x5C6B + st.toNat * 2 ^ 7 = w at *
  have e0 := bits_sub (lo := 2) (m := 5) (v := 26) q0 (by decide) (by decide) (by decide)
  have e1 := bits_sub (lo := 10) (m := 6) (v := 23) q1 (by decide) (by decide) (by decide)
  have e2 := bits_sub (lo := 16) (m := 16) (v := 0) q1 (by decide) (by decide) (by decide)
  have e3 := bits_sub (lo := 26) (m := 2) (v := 0) q1 (by decide) (by decide) (by decide)
  have e4 := bits_sub (lo := 29) (m := 3) (v := 0) q1 (by decide) (by decide) (by decide)
  simp [decodeRaw32, decodeSys, needZero, e0, e1, e2, f0]
theorem teamEnd (st : BitVec 3) : Statement (.teamEnd st) := by
  obtain ⟨hw, q0, q1, f0⟩ := shape20 (w := 0x606B + st.toNat * 2 ^ 7) 0x6B 0x18 st
    (by omega) (by decide) (by decide)
  refine of32 rfl hw (by omega) fun wf_ => ?_
  generalize 0x606B + st.toNat * 2 ^ 7 = w at *
  have e0 := bits_sub (lo := 2) (m := 5) (v := 26) q0 (by decide) (by decide) (by decide)
  have e1 := bits_sub (lo := 10) (m := 6) (v := 24) q1 (by decide) (by decide) (by decide)
  have e2 := bits_sub (lo := 16) (m := 16) (v := 0) q1 (by decide) (by decide) (by decide)
  have e3 := bits_sub (lo := 26) (m := 2) (v := 0) q1 (by decide) (by decide) (by decide)
  have e4 := bits_sub (lo := 29) (m := 3) (v := 0) q1 (by decide) (by decide) (by decide)
  simp [decodeRaw32, decodeSys, needZero, e0, e1, e2, f0]
theorem mreqRead (a : BitVec 5) (t : BitVec 6) (st : BitVec 3) : Statement (.mreqRead a t st) := by
  obtain ⟨hw, q0, q1, q2, q3, f0, f1, f2⟩ := shape27 (w := 0x6F + a.toNat * 2 ^ 15 + t.toNat * 2 ^ 25 + st.toNat * 2 ^ 7) 0x6F 0x0 0x0 0x0 a t st
    (by omega) (by decide) (by decide) (by decide) (by decide)
  refine of32 rfl hw (by omega) fun wf_ => ?_
  generalize 0x6F + a.toNat * 2 ^ 15 + t.toNat * 2 ^ 25 + st.toNat * 2 ^ 7 = w at *
  have e0 := bits_sub (lo := 2) (m := 5) (v := 27) q0 (by decide) (by decide) (by decide)
  have e1 := bits_sub (lo := 10) (m := 5) (v := 0) q1 (by decide) (by decide) (by decide)
  have e2 := bits_sub (lo := 20) (m := 5) (v := 0) q2 (by decide) (by decide) (by decide)
  have e3 := bits_sub (lo := 31) (m := 1) (v := 0) q3 (by decide) (by decide) (by decide)
  simp [decodeRaw32, decodeEng, decodeMreq, needZero, e0, e1, e2, e3, f0, f1, f2]
theorem mreqWrite (d : BitVec 5) (a : BitVec 5) (t : BitVec 6) (st : BitVec 3) : Statement (.mreqWrite d a t st) := by
  obtain ⟨hw, q0, q1, q2, f0, f1, f2, f3⟩ := shape28 (w := 0x8000006F + d.toNat * 2 ^ 10 + a.toNat * 2 ^ 15 + t.toNat * 2 ^ 25 + st.toNat * 2 ^ 7) 0x6F 0x0 0x1 d a t st
    (by omega) (by decide) (by decide) (by decide)
  refine of32 rfl hw (by omega) fun wf_ => ?_
  generalize 0x8000006F + d.toNat * 2 ^ 10 + a.toNat * 2 ^ 15 + t.toNat * 2 ^ 25 + st.toNat * 2 ^ 7 = w at *
  have e0 := bits_sub (lo := 2) (m := 5) (v := 27) q0 (by decide) (by decide) (by decide)
  have e1 := bits_sub (lo := 20) (m := 5) (v := 0) q1 (by decide) (by decide) (by decide)
  have e2 := bits_sub (lo := 31) (m := 1) (v := 1) q2 (by decide) (by decide) (by decide)
  simp [decodeRaw32, decodeEng, decodeMreq, e0, e1, e2, f0, f1, f2, f3]
theorem pgmove (d : BitVec 5) (a : BitVec 5) (k : BitVec 5) (t : BitVec 2) (st : BitVec 3) : Statement (.pgmove d a k t st) := by
  obtain ⟨hw, q0, q1, f0, f1, f2, f3, f4⟩ := shape29 (w := 0x10006F + d.toNat * 2 ^ 10 + a.toNat * 2 ^ 15 + k.toNat * 2 ^ 25 + t.toNat * 2 ^ 30 + st.toNat * 2 ^ 7) 0x6F 0x1 d a k t st
    (by omega) (by decide) (by decide)
  refine of32 rfl hw (by omega) fun wf_ => ?_
  generalize 0x10006F + d.toNat * 2 ^ 10 + a.toNat * 2 ^ 15 + k.toNat * 2 ^ 25 + t.toNat * 2 ^ 30 + st.toNat * 2 ^ 7 = w at *
  have e0 := bits_sub (lo := 2) (m := 5) (v := 27) q0 (by decide) (by decide) (by decide)
  have e1 := bits_sub (lo := 20) (m := 5) (v := 1) q1 (by decide) (by decide) (by decide)
  simp [decodeRaw32, decodeEng, e0, e1, f0, f1, f2, f3, f4]
theorem pghot (d : BitVec 5) (a : BitVec 5) (c : BitVec 2) (st : BitVec 3) : Statement (.pghot d a c st) := by
  obtain ⟨hw, q0, q1, q2, f0, f1, f2, f3⟩ := shape30 (w := 0x20006F + d.toNat * 2 ^ 10 + a.toNat * 2 ^ 15 + c.toNat * 2 ^ 25 + st.toNat * 2 ^ 7) 0x6F 0x2 0x0 d a c st
    (by omega) (by decide) (by decide) (by decide)
  refine of32 rfl hw (by omega) fun wf_ => ?_
  generalize 0x20006F + d.toNat * 2 ^ 10 + a.toNat * 2 ^ 15 + c.toNat * 2 ^ 25 + st.toNat * 2 ^ 7 = w at *
  have e0 := bits_sub (lo := 2) (m := 5) (v := 27) q0 (by decide) (by decide) (by decide)
  have e1 := bits_sub (lo := 20) (m := 5) (v := 2) q1 (by decide) (by decide) (by decide)
  have e2 := bits_sub (lo := 27) (m := 5) (v := 0) q2 (by decide) (by decide) (by decide)
  simp [decodeRaw32, decodeEng, needZero, e0, e1, e2, f0, f1, f2, f3]
theorem pgabort (d : BitVec 5) (a : BitVec 5) (st : BitVec 3) : Statement (.pgabort d a st) := by
  obtain ⟨hw, q0, q1, f0, f1, f2⟩ := shape1 (w := 0x30006F + d.toNat * 2 ^ 10 + a.toNat * 2 ^ 15 + st.toNat * 2 ^ 7) 0x6F 0x3 d a st
    (by omega) (by decide) (by decide)
  refine of32 rfl hw (by omega) fun wf_ => ?_
  generalize 0x30006F + d.toNat * 2 ^ 10 + a.toNat * 2 ^ 15 + st.toNat * 2 ^ 7 = w at *
  have e0 := bits_sub (lo := 2) (m := 5) (v := 27) q0 (by decide) (by decide) (by decide)
  have e1 := bits_sub (lo := 20) (m := 5) (v := 3) q1 (by decide) (by decide) (by decide)
  have e2 := bits_sub (lo := 25) (m := 7) (v := 0) q1 (by decide) (by decide) (by decide)
  simp [decodeRaw32, decodeEng, needZero, e0, e1, e2, f0, f1, f2]
theorem send (d : BitVec 5) (a : BitVec 5) (o : BitVec 1) (st : BitVec 3) : Statement (.send d a o st) := by
  obtain ⟨hw, q0, q1, q2, f0, f1, f2, f3⟩ := shape31 (w := 0x40006F + d.toNat * 2 ^ 10 + a.toNat * 2 ^ 15 + o.toNat * 2 ^ 25 + st.toNat * 2 ^ 7) 0x6F 0x4 0x0 d a o st
    (by omega) (by decide) (by decide) (by decide)
  refine of32 rfl hw (by omega) fun wf_ => ?_
  generalize 0x40006F + d.toNat * 2 ^ 10 + a.toNat * 2 ^ 15 + o.toNat * 2 ^ 25 + st.toNat * 2 ^ 7 = w at *
  have e0 := bits_sub (lo := 2) (m := 5) (v := 27) q0 (by decide) (by decide) (by decide)
  have e1 := bits_sub (lo := 20) (m := 5) (v := 4) q1 (by decide) (by decide) (by decide)
  have e2 := bits_sub (lo := 26) (m := 6) (v := 0) q2 (by decide) (by decide) (by decide)
  simp [decodeRaw32, decodeEng, needZero, e0, e1, e2, f0, f1, f2, f3]
theorem portOpen (d : BitVec 5) (a : BitVec 5) (st : BitVec 3) : Statement (.portOpen d a st) := by
  obtain ⟨hw, q0, q1, f0, f1, f2⟩ := shape1 (w := 0x50006F + d.toNat * 2 ^ 10 + a.toNat * 2 ^ 15 + st.toNat * 2 ^ 7) 0x6F 0x5 d a st
    (by omega) (by decide) (by decide)
  refine of32 rfl hw (by omega) fun wf_ => ?_
  generalize 0x50006F + d.toNat * 2 ^ 10 + a.toNat * 2 ^ 15 + st.toNat * 2 ^ 7 = w at *
  have e0 := bits_sub (lo := 2) (m := 5) (v := 27) q0 (by decide) (by decide) (by decide)
  have e1 := bits_sub (lo := 20) (m := 5) (v := 5) q1 (by decide) (by decide) (by decide)
  have e2 := bits_sub (lo := 25) (m := 7) (v := 0) q1 (by decide) (by decide) (by decide)
  simp [decodeRaw32, decodeEng, needZero, e0, e1, e2, f0, f1, f2]
theorem portClose (d : BitVec 5) (st : BitVec 3) : Statement (.portClose d st) := by
  obtain ⟨hw, q0, q1, f0, f1⟩ := shape32 (w := 0x60006F + d.toNat * 2 ^ 10 + st.toNat * 2 ^ 7) 0x6F 0xC0 d st
    (by omega) (by decide) (by decide)
  refine of32 rfl hw (by omega) fun wf_ => ?_
  generalize 0x60006F + d.toNat * 2 ^ 10 + st.toNat * 2 ^ 7 = w at *
  have e0 := bits_sub (lo := 2) (m := 5) (v := 27) q0 (by decide) (by decide) (by decide)
  have e1 := bits_sub (lo := 15) (m := 5) (v := 0) q1 (by decide) (by decide) (by decide)
  have e2 := bits_sub (lo := 20) (m := 5) (v := 6) q1 (by decide) (by decide) (by decide)
  have e3 := bits_sub (lo := 25) (m := 7) (v := 0) q1 (by decide) (by decide) (by decide)
  simp [decodeRaw32, decodeEng, e0, e1, e2, e3, f0, f1]
theorem treeInj (d : BitVec 5) (a : BitVec 5) (st : BitVec 3) : Statement (.treeInj d a st) := by
  obtain ⟨hw, q0, q1, f0, f1, f2⟩ := shape1 (w := 0x70006F + d.toNat * 2 ^ 10 + a.toNat * 2 ^ 15 + st.toNat * 2 ^ 7) 0x6F 0x7 d a st
    (by omega) (by decide) (by decide)
  refine of32 rfl hw (by omega) fun wf_ => ?_
  generalize 0x70006F + d.toNat * 2 ^ 10 + a.toNat * 2 ^ 15 + st.toNat * 2 ^ 7 = w at *
  have e0 := bits_sub (lo := 2) (m := 5) (v := 27) q0 (by decide) (by decide) (by decide)
  have e1 := bits_sub (lo := 20) (m := 5) (v := 7) q1 (by decide) (by decide) (by decide)
  have e2 := bits_sub (lo := 25) (m := 7) (v := 0) q1 (by decide) (by decide) (by decide)
  simp [decodeRaw32, decodeEng, needZero, e0, e1, e2, f0, f1, f2]
theorem treeExt (d : BitVec 5) (a : BitVec 5) (st : BitVec 3) : Statement (.treeExt d a st) := by
  obtain ⟨hw, q0, q1, f0, f1, f2⟩ := shape1 (w := 0x80006F + d.toNat * 2 ^ 10 + a.toNat * 2 ^ 15 + st.toNat * 2 ^ 7) 0x6F 0x8 d a st
    (by omega) (by decide) (by decide)
  refine of32 rfl hw (by omega) fun wf_ => ?_
  generalize 0x80006F + d.toNat * 2 ^ 10 + a.toNat * 2 ^ 15 + st.toNat * 2 ^ 7 = w at *
  have e0 := bits_sub (lo := 2) (m := 5) (v := 27) q0 (by decide) (by decide) (by decide)
  have e1 := bits_sub (lo := 20) (m := 5) (v := 8) q1 (by decide) (by decide) (by decide)
  have e2 := bits_sub (lo := 25) (m := 7) (v := 0) q1 (by decide) (by decide) (by decide)
  simp [decodeRaw32, decodeEng, needZero, e0, e1, e2, f0, f1, f2]
theorem cpy (d : BitVec 5) (a : BitVec 5) (st : BitVec 3) : Statement (.cpy d a st) := by
  obtain ⟨hw, q0, q1, f0, f1, f2⟩ := shape1 (w := 0x90006F + d.toNat * 2 ^ 10 + a.toNat * 2 ^ 15 + st.toNat * 2 ^ 7) 0x6F 0x9 d a st
    (by omega) (by decide) (by decide)
  refine of32 rfl hw (by omega) fun wf_ => ?_
  generalize 0x90006F + d.toNat * 2 ^ 10 + a.toNat * 2 ^ 15 + st.toNat * 2 ^ 7 = w at *
  have e0 := bits_sub (lo := 2) (m := 5) (v := 27) q0 (by decide) (by decide) (by decide)
  have e1 := bits_sub (lo := 20) (m := 5) (v := 9) q1 (by decide) (by decide) (by decide)
  have e2 := bits_sub (lo := 25) (m := 7) (v := 0) q1 (by decide) (by decide) (by decide)
  simp [decodeRaw32, decodeEng, needZero, e0, e1, e2, f0, f1, f2]
theorem cpyTry (d : BitVec 5) (a : BitVec 5) (st : BitVec 3) : Statement (.cpyTry d a st) := by
  obtain ⟨hw, q0, q1, f0, f1, f2⟩ := shape1 (w := 0xA0006F + d.toNat * 2 ^ 10 + a.toNat * 2 ^ 15 + st.toNat * 2 ^ 7) 0x6F 0xA d a st
    (by omega) (by decide) (by decide)
  refine of32 rfl hw (by omega) fun wf_ => ?_
  generalize 0xA0006F + d.toNat * 2 ^ 10 + a.toNat * 2 ^ 15 + st.toNat * 2 ^ 7 = w at *
  have e0 := bits_sub (lo := 2) (m := 5) (v := 27) q0 (by decide) (by decide) (by decide)
  have e1 := bits_sub (lo := 20) (m := 5) (v := 10) q1 (by decide) (by decide) (by decide)
  have e2 := bits_sub (lo := 25) (m := 7) (v := 0) q1 (by decide) (by decide) (by decide)
  simp [decodeRaw32, decodeEng, needZero, e0, e1, e2, f0, f1, f2]
theorem cpyid (d : BitVec 5) (a : BitVec 5) (st : BitVec 3) : Statement (.cpyid d a st) := by
  obtain ⟨hw, q0, q1, f0, f1, f2⟩ := shape1 (w := 0xB0006F + d.toNat * 2 ^ 10 + a.toNat * 2 ^ 15 + st.toNat * 2 ^ 7) 0x6F 0xB d a st
    (by omega) (by decide) (by decide)
  refine of32 rfl hw (by omega) fun wf_ => ?_
  generalize 0xB0006F + d.toNat * 2 ^ 10 + a.toNat * 2 ^ 15 + st.toNat * 2 ^ 7 = w at *
  have e0 := bits_sub (lo := 2) (m := 5) (v := 27) q0 (by decide) (by decide) (by decide)
  have e1 := bits_sub (lo := 20) (m := 5) (v := 11) q1 (by decide) (by decide) (by decide)
  have e2 := bits_sub (lo := 25) (m := 7) (v := 0) q1 (by decide) (by decide) (by decide)
  simp [decodeRaw32, decodeEng, needZero, e0, e1, e2, f0, f1, f2]
theorem cpywait (a : BitVec 5) (st : BitVec 3) : Statement (.cpywait a st) := by
  obtain ⟨hw, q0, q1, q2, f0, f1⟩ := shape33 (w := 0xC0006F + a.toNat * 2 ^ 15 + st.toNat * 2 ^ 7) 0x6F 0x0 0xC a st
    (by omega) (by decide) (by decide) (by decide)
  refine of32 rfl hw (by omega) fun wf_ => ?_
  generalize 0xC0006F + a.toNat * 2 ^ 15 + st.toNat * 2 ^ 7 = w at *
  have e0 := bits_sub (lo := 2) (m := 5) (v := 27) q0 (by decide) (by decide) (by decide)
  have e1 := bits_sub (lo := 10) (m := 5) (v := 0) q1 (by decide) (by decide) (by decide)
  have e2 := bits_sub (lo := 20) (m := 5) (v := 12) q2 (by decide) (by decide) (by decide)
  have e3 := bits_sub (lo := 25) (m := 7) (v := 0) q2 (by decide) (by decide) (by decide)
  simp [decodeRaw32, decodeEng, e0, e1, e2, e3, f0, f1]
theorem sbind (d : BitVec 5) (a : BitVec 5) (n : BitVec 3) (st : BitVec 3) : Statement (.sbind d a n st) := by
  obtain ⟨hw, q0, q1, q2, f0, f1, f2, f3⟩ := shape34 (w := 0xD0006F + d.toNat * 2 ^ 10 + a.toNat * 2 ^ 15 + n.toNat * 2 ^ 25 + st.toNat * 2 ^ 7) 0x6F 0xD 0x0 d a n st
    (by omega) (by decide) (by decide) (by decide)
  refine of32 rfl hw (by omega) fun wf_ => ?_
  generalize 0xD0006F + d.toNat * 2 ^ 10 + a.toNat * 2 ^ 15 + n.toNat * 2 ^ 25 + st.toNat * 2 ^ 7 = w at *
  have e0 := bits_sub (lo := 2) (m := 5) (v := 27) q0 (by decide) (by decide) (by decide)
  have e1 := bits_sub (lo := 20) (m := 5) (v := 13) q1 (by decide) (by decide) (by decide)
  have e2 := bits_sub (lo := 28) (m := 4) (v := 0) q2 (by decide) (by decide) (by decide)
  simp [decodeRaw32, decodeEng, needZero, e0, e1, e2, f0, f1, f2, f3]
theorem sfree (d : BitVec 5) (n : BitVec 3) (st : BitVec 3) : Statement (.sfree d n st) := by
  obtain ⟨hw, q0, q1, q2, f0, f1, f2⟩ := shape35 (w := 0xE0006F + d.toNat * 2 ^ 10 + n.toNat * 2 ^ 25 + st.toNat * 2 ^ 7) 0x6F 0x1C0 0x0 d n st
    (by omega) (by decide) (by decide) (by decide)
  refine of32 rfl hw (by omega) fun wf_ => ?_
  generalize 0xE0006F + d.toNat * 2 ^ 10 + n.toNat * 2 ^ 25 + st.toNat * 2 ^ 7 = w at *
  have e0 := bits_sub (lo := 2) (m := 5) (v := 27) q0 (by decide) (by decide) (by decide)
  have e1 := bits_sub (lo := 15) (m := 5) (v := 0) q1 (by decide) (by decide) (by decide)
  have e2 := bits_sub (lo := 20) (m := 5) (v := 14) q1 (by decide) (by decide) (by decide)
  have e3 := bits_sub (lo := 28) (m := 4) (v := 0) q2 (by decide) (by decide) (by decide)
  simp [decodeRaw32, decodeEng, e0, e1, e2, e3, f0, f1, f2]
theorem sstat (d : BitVec 5) (n : BitVec 3) (st : BitVec 3) : Statement (.sstat d n st) := by
  obtain ⟨hw, q0, q1, q2, f0, f1, f2⟩ := shape35 (w := 0xF0006F + d.toNat * 2 ^ 10 + n.toNat * 2 ^ 25 + st.toNat * 2 ^ 7) 0x6F 0x1E0 0x0 d n st
    (by omega) (by decide) (by decide) (by decide)
  refine of32 rfl hw (by omega) fun wf_ => ?_
  generalize 0xF0006F + d.toNat * 2 ^ 10 + n.toNat * 2 ^ 25 + st.toNat * 2 ^ 7 = w at *
  have e0 := bits_sub (lo := 2) (m := 5) (v := 27) q0 (by decide) (by decide) (by decide)
  have e1 := bits_sub (lo := 15) (m := 5) (v := 0) q1 (by decide) (by decide) (by decide)
  have e2 := bits_sub (lo := 20) (m := 5) (v := 15) q1 (by decide) (by decide) (by decide)
  have e3 := bits_sub (lo := 28) (m := 4) (v := 0) q2 (by decide) (by decide) (by decide)
  simp [decodeRaw32, decodeEng, e0, e1, e2, e3, f0, f1, f2]
theorem dictLd (a : BitVec 5) (k : BitVec 7) (st : BitVec 3) : Statement (.dictLd a k st) := by
  obtain ⟨hw, q0, q1, q2, f0, f1, f2⟩ := shape36 (w := 0x100006F + a.toNat * 2 ^ 15 + k.toNat * 2 ^ 25 + st.toNat * 2 ^ 7) 0x6F 0x0 0x10 a k st
    (by omega) (by decide) (by decide) (by decide)
  refine of32 rfl hw (by omega) fun wf_ => ?_
  generalize 0x100006F + a.toNat * 2 ^ 15 + k.toNat * 2 ^ 25 + st.toNat * 2 ^ 7 = w at *
  have e0 := bits_sub (lo := 2) (m := 5) (v := 27) q0 (by decide) (by decide) (by decide)
  have e1 := bits_sub (lo := 10) (m := 5) (v := 0) q1 (by decide) (by decide) (by decide)
  have e2 := bits_sub (lo := 20) (m := 5) (v := 16) q2 (by decide) (by decide) (by decide)
  simp [decodeRaw32, decodeEng, needZero, e0, e1, e2, f0, f1, f2]
theorem launch (a : BitVec 5) (st : BitVec 3) : Statement (.launch a st) := by
  obtain ⟨hw, q0, q1, q2, f0, f1⟩ := shape33 (w := 0x110006F + a.toNat * 2 ^ 15 + st.toNat * 2 ^ 7) 0x6F 0x0 0x11 a st
    (by omega) (by decide) (by decide) (by decide)
  refine of32 rfl hw (by omega) fun wf_ => ?_
  generalize 0x110006F + a.toNat * 2 ^ 15 + st.toNat * 2 ^ 7 = w at *
  have e0 := bits_sub (lo := 2) (m := 5) (v := 27) q0 (by decide) (by decide) (by decide)
  have e1 := bits_sub (lo := 10) (m := 5) (v := 0) q1 (by decide) (by decide) (by decide)
  have e2 := bits_sub (lo := 20) (m := 5) (v := 17) q2 (by decide) (by decide) (by decide)
  have e3 := bits_sub (lo := 25) (m := 7) (v := 0) q2 (by decide) (by decide) (by decide)
  simp [decodeRaw32, decodeEng, e0, e1, e2, e3, f0, f1]
theorem launchTry (d : BitVec 5) (a : BitVec 5) (st : BitVec 3) : Statement (.launchTry d a st) := by
  obtain ⟨hw, q0, q1, f0, f1, f2⟩ := shape1 (w := 0x120006F + d.toNat * 2 ^ 10 + a.toNat * 2 ^ 15 + st.toNat * 2 ^ 7) 0x6F 0x12 d a st
    (by omega) (by decide) (by decide)
  refine of32 rfl hw (by omega) fun wf_ => ?_
  generalize 0x120006F + d.toNat * 2 ^ 10 + a.toNat * 2 ^ 15 + st.toNat * 2 ^ 7 = w at *
  have e0 := bits_sub (lo := 2) (m := 5) (v := 27) q0 (by decide) (by decide) (by decide)
  have e1 := bits_sub (lo := 20) (m := 5) (v := 18) q1 (by decide) (by decide) (by decide)
  have e2 := bits_sub (lo := 25) (m := 7) (v := 0) q1 (by decide) (by decide) (by decide)
  simp [decodeRaw32, decodeEng, needZero, e0, e1, e2, f0, f1, f2]
theorem axdef (d : BitVec 5) (a : BitVec 5) (b : BitVec 5) (st : BitVec 3) : Statement (.axdef d a b st) := by
  obtain ⟨hw, q0, q1, q2, f0, f1, f2, f3⟩ := shape37 (w := 0x73 + d.toNat * 2 ^ 10 + a.toNat * 2 ^ 16 + b.toNat * 2 ^ 21 + st.toNat * 2 ^ 7) 0x73 0x0 0x0 d a b st
    (by omega) (by decide) (by decide) (by decide)
  refine of32 rfl hw (by omega) fun wf_ => ?_
  generalize 0x73 + d.toNat * 2 ^ 10 + a.toNat * 2 ^ 16 + b.toNat * 2 ^ 21 + st.toNat * 2 ^ 7 = w at *
  have e0 := bits_sub (lo := 2) (m := 5) (v := 28) q0 (by decide) (by decide) (by decide)
  have e1 := bits_sub (lo := 15) (m := 1) (v := 0) q1 (by decide) (by decide) (by decide)
  have e2 := bits_sub (lo := 26) (m := 6) (v := 0) q2 (by decide) (by decide) (by decide)
  have hz : ¬ bitsOf w 16 5 = 0 := by
    have z : ¬ a = 0 := fun z => by simp [Instr.wf, Instr.check, z] at wf_
    intro y; exact z (by rw [← f1]; simp [fld, y])
  simp [decodeRaw32, decodeAx, decodeAxdef, needZero, e0, e1, e2, hz, f0, f1, f2, f3]
theorem axdefRelease (d : BitVec 5) (b : BitVec 5) (st : BitVec 3) : Statement (.axdefRelease d b st) := by
  obtain ⟨hw, q0, q1, q2, f0, f1, f2⟩ := shape38 (w := 0x73 + d.toNat * 2 ^ 10 + b.toNat * 2 ^ 21 + st.toNat * 2 ^ 7) 0x73 0x0 0x0 d b st
    (by omega) (by decide) (by decide) (by decide)
  refine of32 rfl hw (by omega) fun wf_ => ?_
  generalize 0x73 + d.toNat * 2 ^ 10 + b.toNat * 2 ^ 21 + st.toNat * 2 ^ 7 = w at *
  have e0 := bits_sub (lo := 2) (m := 5) (v := 28) q0 (by decide) (by decide) (by decide)
  have e1 := bits_sub (lo := 15) (m := 1) (v := 0) q1 (by decide) (by decide) (by decide)
  have e2 := bits_sub (lo := 16) (m := 5) (v := 0) q1 (by decide) (by decide) (by decide)
  have e3 := bits_sub (lo := 26) (m := 6) (v := 0) q2 (by decide) (by decide) (by decide)
  simp [decodeRaw32, decodeAx, decodeAxdef, needZero, e0, e1, e2, e3, f0, f1, f2]
theorem mapSet (d : BitVec 5) (a : BitVec 5) (b : BitVec 5) (st : BitVec 3) : Statement (.mapSet d a b st) := by
  obtain ⟨hw, q0, q1, q2, f0, f1, f2, f3⟩ := shape37 (w := 0x4000073 + d.toNat * 2 ^ 10 + a.toNat * 2 ^ 16 + b.toNat * 2 ^ 21 + st.toNat * 2 ^ 7) 0x73 0x0 0x1 d a b st
    (by omega) (by decide) (by decide) (by decide)
  refine of32 rfl hw (by omega) fun wf_ => ?_
  generalize 0x4000073 + d.toNat * 2 ^ 10 + a.toNat * 2 ^ 16 + b.toNat * 2 ^ 21 + st.toNat * 2 ^ 7 = w at *
  have e0 := bits_sub (lo := 2) (m := 5) (v := 28) q0 (by decide) (by decide) (by decide)
  have e1 := bits_sub (lo := 15) (m := 1) (v := 0) q1 (by decide) (by decide) (by decide)
  have e2 := bits_sub (lo := 26) (m := 6) (v := 1) q2 (by decide) (by decide) (by decide)
  simp [decodeRaw32, decodeAx, needZero, e0, e1, e2, f0, f1, f2, f3]
theorem mapSwap (d : BitVec 5) (a : BitVec 5) (b : BitVec 5) (st : BitVec 3) : Statement (.mapSwap d a b st) := by
  obtain ⟨hw, q0, q1, q2, f0, f1, f2, f3⟩ := shape37 (w := 0x8000073 + d.toNat * 2 ^ 10 + a.toNat * 2 ^ 16 + b.toNat * 2 ^ 21 + st.toNat * 2 ^ 7) 0x73 0x0 0x2 d a b st
    (by omega) (by decide) (by decide) (by decide)
  refine of32 rfl hw (by omega) fun wf_ => ?_
  generalize 0x8000073 + d.toNat * 2 ^ 10 + a.toNat * 2 ^ 16 + b.toNat * 2 ^ 21 + st.toNat * 2 ^ 7 = w at *
  have e0 := bits_sub (lo := 2) (m := 5) (v := 28) q0 (by decide) (by decide) (by decide)
  have e1 := bits_sub (lo := 15) (m := 1) (v := 0) q1 (by decide) (by decide) (by decide)
  have e2 := bits_sub (lo := 26) (m := 6) (v := 2) q2 (by decide) (by decide) (by decide)
  simp [decodeRaw32, decodeAx, needZero, e0, e1, e2, f0, f1, f2, f3]
theorem mapRd (d : BitVec 5) (a : BitVec 5) (b : BitVec 5) (st : BitVec 3) : Statement (.mapRd d a b st) := by
  obtain ⟨hw, q0, q1, q2, f0, f1, f2, f3⟩ := shape37 (w := 0xC000073 + d.toNat * 2 ^ 10 + a.toNat * 2 ^ 16 + b.toNat * 2 ^ 21 + st.toNat * 2 ^ 7) 0x73 0x0 0x3 d a b st
    (by omega) (by decide) (by decide) (by decide)
  refine of32 rfl hw (by omega) fun wf_ => ?_
  generalize 0xC000073 + d.toNat * 2 ^ 10 + a.toNat * 2 ^ 16 + b.toNat * 2 ^ 21 + st.toNat * 2 ^ 7 = w at *
  have e0 := bits_sub (lo := 2) (m := 5) (v := 28) q0 (by decide) (by decide) (by decide)
  have e1 := bits_sub (lo := 15) (m := 1) (v := 0) q1 (by decide) (by decide) (by decide)
  have e2 := bits_sub (lo := 26) (m := 6) (v := 3) q2 (by decide) (by decide) (by decide)
  simp [decodeRaw32, decodeAx, needZero, e0, e1, e2, f0, f1, f2, f3]
theorem remap (d : BitVec 5) (a : BitVec 5) (b : BitVec 5) (st : BitVec 3) : Statement (.remap d a b st) := by
  obtain ⟨hw, q0, q1, q2, f0, f1, f2, f3⟩ := shape37 (w := 0x10000073 + d.toNat * 2 ^ 10 + a.toNat * 2 ^ 16 + b.toNat * 2 ^ 21 + st.toNat * 2 ^ 7) 0x73 0x0 0x4 d a b st
    (by omega) (by decide) (by decide) (by decide)
  refine of32 rfl hw (by omega) fun wf_ => ?_
  generalize 0x10000073 + d.toNat * 2 ^ 10 + a.toNat * 2 ^ 16 + b.toNat * 2 ^ 21 + st.toNat * 2 ^ 7 = w at *
  have e0 := bits_sub (lo := 2) (m := 5) (v := 28) q0 (by decide) (by decide) (by decide)
  have e1 := bits_sub (lo := 15) (m := 1) (v := 0) q1 (by decide) (by decide) (by decide)
  have e2 := bits_sub (lo := 26) (m := 6) (v := 4) q2 (by decide) (by decide) (by decide)
  simp [decodeRaw32, decodeAx, needZero, e0, e1, e2, f0, f1, f2, f3]
theorem rmwait (a : BitVec 5) (st : BitVec 3) : Statement (.rmwait a st) := by
  obtain ⟨hw, q0, q1, q2, f0, f1⟩ := shape24 (w := 0x14000073 + a.toNat * 2 ^ 16 + st.toNat * 2 ^ 7) 0x73 0x0 0xA0 a st
    (by omega) (by decide) (by decide) (by decide)
  refine of32 rfl hw (by omega) fun wf_ => ?_
  generalize 0x14000073 + a.toNat * 2 ^ 16 + st.toNat * 2 ^ 7 = w at *
  have e0 := bits_sub (lo := 2) (m := 5) (v := 28) q0 (by decide) (by decide) (by decide)
  have e1 := bits_sub (lo := 10) (m := 6) (v := 0) q1 (by decide) (by decide) (by decide)
  have e2 := bits_sub (lo := 21) (m := 5) (v := 0) q2 (by decide) (by decide) (by decide)
  have e3 := bits_sub (lo := 26) (m := 6) (v := 5) q2 (by decide) (by decide) (by decide)
  simp [decodeRaw32, decodeAx, e0, e1, e2, e3, f0, f1]
theorem axld (d : BitVec 6) (a : BitVec 5) (b : BitVec 5) (st : BitVec 3) : Statement (.axld d a b st) := by
  obtain ⟨hw, q0, q1, f0, f1, f2, f3⟩ := shape39 (w := 0x18000073 + d.toNat * 2 ^ 10 + a.toNat * 2 ^ 16 + b.toNat * 2 ^ 21 + st.toNat * 2 ^ 7) 0x73 0x6 d a b st
    (by omega) (by decide) (by decide)
  refine of32 rfl hw (by omega) fun wf_ => ?_
  generalize 0x18000073 + d.toNat * 2 ^ 10 + a.toNat * 2 ^ 16 + b.toNat * 2 ^ 21 + st.toNat * 2 ^ 7 = w at *
  have e0 := bits_sub (lo := 2) (m := 5) (v := 28) q0 (by decide) (by decide) (by decide)
  have e1 := bits_sub (lo := 26) (m := 6) (v := 6) q1 (by decide) (by decide) (by decide)
  simp [decodeRaw32, decodeAx, e0, e1, f0, f1, f2, f3]
theorem axst (d : BitVec 6) (a : BitVec 5) (b : BitVec 5) (st : BitVec 3) : Statement (.axst d a b st) := by
  obtain ⟨hw, q0, q1, f0, f1, f2, f3⟩ := shape39 (w := 0x1C000073 + d.toNat * 2 ^ 10 + a.toNat * 2 ^ 16 + b.toNat * 2 ^ 21 + st.toNat * 2 ^ 7) 0x73 0x7 d a b st
    (by omega) (by decide) (by decide)
  refine of32 rfl hw (by omega) fun wf_ => ?_
  generalize 0x1C000073 + d.toNat * 2 ^ 10 + a.toNat * 2 ^ 16 + b.toNat * 2 ^ 21 + st.toNat * 2 ^ 7 = w at *
  have e0 := bits_sub (lo := 2) (m := 5) (v := 28) q0 (by decide) (by decide) (by decide)
  have e1 := bits_sub (lo := 26) (m := 6) (v := 7) q1 (by decide) (by decide) (by decide)
  simp [decodeRaw32, decodeAx, e0, e1, f0, f1, f2, f3]
theorem axctx (a : BitVec 5) (st : BitVec 3) : Statement (.axctx a st) := by
  obtain ⟨hw, q0, q1, q2, f0, f1⟩ := shape24 (w := 0x20000073 + a.toNat * 2 ^ 16 + st.toNat * 2 ^ 7) 0x73 0x0 0x100 a st
    (by omega) (by decide) (by decide) (by decide)
  refine of32 rfl hw (by omega) fun wf_ => ?_
  generalize 0x20000073 + a.toNat * 2 ^ 16 + st.toNat * 2 ^ 7 = w at *
  have e0 := bits_sub (lo := 2) (m := 5) (v := 28) q0 (by decide) (by decide) (by decide)
  have e1 := bits_sub (lo := 10) (m := 6) (v := 0) q1 (by decide) (by decide) (by decide)
  have e2 := bits_sub (lo := 21) (m := 5) (v := 0) q2 (by decide) (by decide) (by decide)
  have e3 := bits_sub (lo := 26) (m := 6) (v := 8) q2 (by decide) (by decide) (by decide)
  simp [decodeRaw32, decodeAx, e0, e1, e2, e3, f0, f1]
theorem axmat (a : BitVec 5) (b : BitVec 5) (st : BitVec 3) : Statement (.axmat a b st) := by
  obtain ⟨hw, q0, q1, q2, f0, f1, f2⟩ := shape25 (w := 0x24000073 + a.toNat * 2 ^ 16 + b.toNat * 2 ^ 21 + st.toNat * 2 ^ 7) 0x73 0x0 0x9 a b st
    (by omega) (by decide) (by decide) (by decide)
  refine of32 rfl hw (by omega) fun wf_ => ?_
  generalize 0x24000073 + a.toNat * 2 ^ 16 + b.toNat * 2 ^ 21 + st.toNat * 2 ^ 7 = w at *
  have e0 := bits_sub (lo := 2) (m := 5) (v := 28) q0 (by decide) (by decide) (by decide)
  have e1 := bits_sub (lo := 10) (m := 6) (v := 0) q1 (by decide) (by decide) (by decide)
  have e2 := bits_sub (lo := 26) (m := 6) (v := 9) q2 (by decide) (by decide) (by decide)
  simp [decodeRaw32, decodeAx, needZero, e0, e1, e2, f0, f1, f2]
theorem axap (d : BitVec 5) (a : BitVec 5) (b : BitVec 5) (st : BitVec 3) : Statement (.axap d a b st) := by
  obtain ⟨hw, q0, q1, q2, f0, f1, f2, f3⟩ := shape37 (w := 0x28000073 + d.toNat * 2 ^ 10 + a.toNat * 2 ^ 16 + b.toNat * 2 ^ 21 + st.toNat * 2 ^ 7) 0x73 0x0 0xA d a b st
    (by omega) (by decide) (by decide) (by decide)
  refine of32 rfl hw (by omega) fun wf_ => ?_
  generalize 0x28000073 + d.toNat * 2 ^ 10 + a.toNat * 2 ^ 16 + b.toNat * 2 ^ 21 + st.toNat * 2 ^ 7 = w at *
  have e0 := bits_sub (lo := 2) (m := 5) (v := 28) q0 (by decide) (by decide) (by decide)
  have e1 := bits_sub (lo := 15) (m := 1) (v := 0) q1 (by decide) (by decide) (by decide)
  have e2 := bits_sub (lo := 26) (m := 6) (v := 10) q2 (by decide) (by decide) (by decide)
  simp [decodeRaw32, decodeAx, needZero, e0, e1, e2, f0, f1, f2, f3]
theorem axmm (d : BitVec 6) (a : BitVec 5) (st : BitVec 3) : Statement (.axmm d a st) := by
  obtain ⟨hw, q0, q1, f0, f1, f2⟩ := shape40 (w := 0x2C000073 + d.toNat * 2 ^ 10 + a.toNat * 2 ^ 16 + st.toNat * 2 ^ 7) 0x73 0x160 d a st
    (by omega) (by decide) (by decide)
  refine of32 rfl hw (by omega) fun wf_ => ?_
  generalize 0x2C000073 + d.toNat * 2 ^ 10 + a.toNat * 2 ^ 16 + st.toNat * 2 ^ 7 = w at *
  have e0 := bits_sub (lo := 2) (m := 5) (v := 28) q0 (by decide) (by decide) (by decide)
  have e1 := bits_sub (lo := 21) (m := 5) (v := 0) q1 (by decide) (by decide) (by decide)
  have e2 := bits_sub (lo := 26) (m := 6) (v := 11) q1 (by decide) (by decide) (by decide)
  simp [decodeRaw32, decodeAx, needZero, e0, e1, e2, f0, f1, f2]
theorem axdrain (d : BitVec 5) (a : BitVec 5) (b : BitVec 5) (st : BitVec 3) : Statement (.axdrain d a b st) := by
  obtain ⟨hw, q0, q1, q2, f0, f1, f2, f3⟩ := shape37 (w := 0x30000073 + d.toNat * 2 ^ 10 + a.toNat * 2 ^ 16 + b.toNat * 2 ^ 21 + st.toNat * 2 ^ 7) 0x73 0x0 0xC d a b st
    (by omega) (by decide) (by decide) (by decide)
  refine of32 rfl hw (by omega) fun wf_ => ?_
  generalize 0x30000073 + d.toNat * 2 ^ 10 + a.toNat * 2 ^ 16 + b.toNat * 2 ^ 21 + st.toNat * 2 ^ 7 = w at *
  have e0 := bits_sub (lo := 2) (m := 5) (v := 28) q0 (by decide) (by decide) (by decide)
  have e1 := bits_sub (lo := 15) (m := 1) (v := 0) q1 (by decide) (by decide) (by decide)
  have e2 := bits_sub (lo := 26) (m := 6) (v := 12) q2 (by decide) (by decide) (by decide)
  simp [decodeRaw32, decodeAx, needZero, e0, e1, e2, f0, f1, f2, f3]
theorem axstat (d : BitVec 5) (a : BitVec 5) (st : BitVec 3) : Statement (.axstat d a st) := by
  obtain ⟨hw, q0, q1, q2, f0, f1, f2⟩ := shape41 (w := 0x34000073 + d.toNat * 2 ^ 10 + a.toNat * 2 ^ 16 + st.toNat * 2 ^ 7) 0x73 0x0 0x1A0 d a st
    (by omega) (by decide) (by decide) (by decide)
  refine of32 rfl hw (by omega) fun wf_ => ?_
  generalize 0x34000073 + d.toNat * 2 ^ 10 + a.toNat * 2 ^ 16 + st.toNat * 2 ^ 7 = w at *
  have e0 := bits_sub (lo := 2) (m := 5) (v := 28) q0 (by decide) (by decide) (by decide)
  have e1 := bits_sub (lo := 15) (m := 1) (v := 0) q1 (by decide) (by decide) (by decide)
  have e2 := bits_sub (lo := 21) (m := 5) (v := 0) q2 (by decide) (by decide) (by decide)
  have e3 := bits_sub (lo := 26) (m := 6) (v := 13) q2 (by decide) (by decide) (by decide)
  simp [decodeRaw32, decodeAx, e0, e1, e2, e3, f0, f1, f2]
theorem axwait (a : BitVec 5) (st : BitVec 3) : Statement (.axwait a st) := by
  obtain ⟨hw, q0, q1, q2, f0, f1⟩ := shape24 (w := 0x38000073 + a.toNat * 2 ^ 16 + st.toNat * 2 ^ 7) 0x73 0x0 0x1C0 a st
    (by omega) (by decide) (by decide) (by decide)
  refine of32 rfl hw (by omega) fun wf_ => ?_
  generalize 0x38000073 + a.toNat * 2 ^ 16 + st.toNat * 2 ^ 7 = w at *
  have e0 := bits_sub (lo := 2) (m := 5) (v := 28) q0 (by decide) (by decide) (by decide)
  have e1 := bits_sub (lo := 10) (m := 6) (v := 0) q1 (by decide) (by decide) (by decide)
  have e2 := bits_sub (lo := 21) (m := 5) (v := 0) q2 (by decide) (by decide) (by decide)
  have e3 := bits_sub (lo := 26) (m := 6) (v := 14) q2 (by decide) (by decide) (by decide)
  simp [decodeRaw32, decodeAx, e0, e1, e2, e3, f0, f1]
theorem cMov (a : BitVec 5) (d : BitVec 5) : Statement (.cMov a d) := by
  obtain ⟨hw, q0, q1, f0, f1⟩ := shape42 (w := 0x1000 + a.toNat * 2 ^ 2 + d.toNat * 2 ^ 7) 0x0 0x1 a d
    (by omega) (by decide) (by decide)
  refine of16 rfl hw (by omega) fun wf_ => ?_
  generalize 0x1000 + a.toNat * 2 ^ 2 + d.toNat * 2 ^ 7 = w at *
  have e0 := bits_sub (lo := 0) (m := 2) (v := 0) q0 (by decide) (by decide) (by decide)
  have e1 := bits_sub (lo := 12) (m := 4) (v := 1) q1 (by decide) (by decide) (by decide)
  simp [decodeRaw16, e0, e1, f0, f1]
theorem cAdd (a : BitVec 5) (d : BitVec 5) : Statement (.cAdd a d) := by
  obtain ⟨hw, q0, q1, f0, f1⟩ := shape42 (w := 0x2000 + a.toNat * 2 ^ 2 + d.toNat * 2 ^ 7) 0x0 0x2 a d
    (by omega) (by decide) (by decide)
  refine of16 rfl hw (by omega) fun wf_ => ?_
  generalize 0x2000 + a.toNat * 2 ^ 2 + d.toNat * 2 ^ 7 = w at *
  have e0 := bits_sub (lo := 0) (m := 2) (v := 0) q0 (by decide) (by decide) (by decide)
  have e1 := bits_sub (lo := 12) (m := 4) (v := 2) q1 (by decide) (by decide) (by decide)
  simp [decodeRaw16, e0, e1, f0, f1]
theorem cSub (a : BitVec 5) (d : BitVec 5) : Statement (.cSub a d) := by
  obtain ⟨hw, q0, q1, f0, f1⟩ := shape42 (w := 0x3000 + a.toNat * 2 ^ 2 + d.toNat * 2 ^ 7) 0x0 0x3 a d
    (by omega) (by decide) (by decide)
  refine of16 rfl hw (by omega) fun wf_ => ?_
  generalize 0x3000 + a.toNat * 2 ^ 2 + d.toNat * 2 ^ 7 = w at *
  have e0 := bits_sub (lo := 0) (m := 2) (v := 0) q0 (by decide) (by decide) (by decide)
  have e1 := bits_sub (lo := 12) (m := 4) (v := 3) q1 (by decide) (by decide) (by decide)
  simp [decodeRaw16, e0, e1, f0, f1]
theorem cAnd (a : BitVec 5) (d : BitVec 5) : Statement (.cAnd a d) := by
  obtain ⟨hw, q0, q1, f0, f1⟩ := shape42 (w := 0x4000 + a.toNat * 2 ^ 2 + d.toNat * 2 ^ 7) 0x0 0x4 a d
    (by omega) (by decide) (by decide)
  refine of16 rfl hw (by omega) fun wf_ => ?_
  generalize 0x4000 + a.toNat * 2 ^ 2 + d.toNat * 2 ^ 7 = w at *
  have e0 := bits_sub (lo := 0) (m := 2) (v := 0) q0 (by decide) (by decide) (by decide)
  have e1 := bits_sub (lo := 12) (m := 4) (v := 4) q1 (by decide) (by decide) (by decide)
  simp [decodeRaw16, e0, e1, f0, f1]
theorem cOr (a : BitVec 5) (d : BitVec 5) : Statement (.cOr a d) := by
  obtain ⟨hw, q0, q1, f0, f1⟩ := shape42 (w := 0x5000 + a.toNat * 2 ^ 2 + d.toNat * 2 ^ 7) 0x0 0x5 a d
    (by omega) (by decide) (by decide)
  refine of16 rfl hw (by omega) fun wf_ => ?_
  generalize 0x5000 + a.toNat * 2 ^ 2 + d.toNat * 2 ^ 7 = w at *
  have e0 := bits_sub (lo := 0) (m := 2) (v := 0) q0 (by decide) (by decide) (by decide)
  have e1 := bits_sub (lo := 12) (m := 4) (v := 5) q1 (by decide) (by decide) (by decide)
  simp [decodeRaw16, e0, e1, f0, f1]
theorem cXor (a : BitVec 5) (d : BitVec 5) : Statement (.cXor a d) := by
  obtain ⟨hw, q0, q1, f0, f1⟩ := shape42 (w := 0x6000 + a.toNat * 2 ^ 2 + d.toNat * 2 ^ 7) 0x0 0x6 a d
    (by omega) (by decide) (by decide)
  refine of16 rfl hw (by omega) fun wf_ => ?_
  generalize 0x6000 + a.toNat * 2 ^ 2 + d.toNat * 2 ^ 7 = w at *
  have e0 := bits_sub (lo := 0) (m := 2) (v := 0) q0 (by decide) (by decide) (by decide)
  have e1 := bits_sub (lo := 12) (m := 4) (v := 6) q1 (by decide) (by decide) (by decide)
  simp [decodeRaw16, e0, e1, f0, f1]
theorem cLdD (a : BitVec 5) (d : BitVec 5) : Statement (.cLdD a d) := by
  obtain ⟨hw, q0, q1, f0, f1⟩ := shape42 (w := 0x7000 + a.toNat * 2 ^ 2 + d.toNat * 2 ^ 7) 0x0 0x7 a d
    (by omega) (by decide) (by decide)
  refine of16 rfl hw (by omega) fun wf_ => ?_
  generalize 0x7000 + a.toNat * 2 ^ 2 + d.toNat * 2 ^ 7 = w at *
  have e0 := bits_sub (lo := 0) (m := 2) (v := 0) q0 (by decide) (by decide) (by decide)
  have e1 := bits_sub (lo := 12) (m := 4) (v := 7) q1 (by decide) (by decide) (by decide)
  simp [decodeRaw16, e0, e1, f0, f1]
theorem cStD (a : BitVec 5) (d : BitVec 5) : Statement (.cStD a d) := by
  obtain ⟨hw, q0, q1, f0, f1⟩ := shape42 (w := 0x8000 + a.toNat * 2 ^ 2 + d.toNat * 2 ^ 7) 0x0 0x8 a d
    (by omega) (by decide) (by decide)
  refine of16 rfl hw (by omega) fun wf_ => ?_
  generalize 0x8000 + a.toNat * 2 ^ 2 + d.toNat * 2 ^ 7 = w at *
  have e0 := bits_sub (lo := 0) (m := 2) (v := 0) q0 (by decide) (by decide) (by decide)
  have e1 := bits_sub (lo := 12) (m := 4) (v := 8) q1 (by decide) (by decide) (by decide)
  simp [decodeRaw16, e0, e1, f0, f1]
theorem cJr (a : BitVec 5) : Statement (.cJr a) := by
  obtain ⟨hw, q0, q1, f0⟩ := shape43 (w := 0x9000 + a.toNat * 2 ^ 2) 0x0 0x120 a
    (by omega) (by decide) (by decide)
  refine of16 rfl hw (by omega) fun wf_ => ?_
  generalize 0x9000 + a.toNat * 2 ^ 2 = w at *
  have e0 := bits_sub (lo := 0) (m := 2) (v := 0) q0 (by decide) (by decide) (by decide)
  have e1 := bits_sub (lo := 12) (m := 4) (v := 9) q1 (by decide) (by decide) (by decide)
  have e2 := bits_sub (lo := 7) (m := 5) (v := 0) q1 (by decide) (by decide) (by decide)
  simp [decodeRaw16, needZero, e0, e1, e2, f0]
theorem cAddi (i : BitVec 5) (d : BitVec 5) : Statement (.cAddi i d) := by
  obtain ⟨hw, q0, q1, f0, f1⟩ := shape42 (w := 0x1 + i.toNat * 2 ^ 2 + d.toNat * 2 ^ 7) 0x1 0x0 i d
    (by omega) (by decide) (by decide)
  refine of16 rfl hw (by omega) fun wf_ => ?_
  generalize 0x1 + i.toNat * 2 ^ 2 + d.toNat * 2 ^ 7 = w at *
  have e0 := bits_sub (lo := 0) (m := 2) (v := 1) q0 (by decide) (by decide) (by decide)
  have e1 := bits_sub (lo := 12) (m := 4) (v := 0) q1 (by decide) (by decide) (by decide)
  simp [decodeRaw16, e0, e1, f0, f1]
theorem cLim (i : BitVec 5) (d : BitVec 5) : Statement (.cLim i d) := by
  obtain ⟨hw, q0, q1, f0, f1⟩ := shape42 (w := 0x1001 + i.toNat * 2 ^ 2 + d.toNat * 2 ^ 7) 0x1 0x1 i d
    (by omega) (by decide) (by decide)
  refine of16 rfl hw (by omega) fun wf_ => ?_
  generalize 0x1001 + i.toNat * 2 ^ 2 + d.toNat * 2 ^ 7 = w at *
  have e0 := bits_sub (lo := 0) (m := 2) (v := 1) q0 (by decide) (by decide) (by decide)
  have e1 := bits_sub (lo := 12) (m := 4) (v := 1) q1 (by decide) (by decide) (by decide)
  simp [decodeRaw16, e0, e1, f0, f1]
theorem cSlli (k : BitVec 5) (d : BitVec 5) : Statement (.cSlli k d) := by
  obtain ⟨hw, q0, q1, f0, f1⟩ := shape42 (w := 0x2001 + k.toNat * 2 ^ 2 + d.toNat * 2 ^ 7) 0x1 0x2 k d
    (by omega) (by decide) (by decide)
  refine of16 rfl hw (by omega) fun wf_ => ?_
  generalize 0x2001 + k.toNat * 2 ^ 2 + d.toNat * 2 ^ 7 = w at *
  have e0 := bits_sub (lo := 0) (m := 2) (v := 1) q0 (by decide) (by decide) (by decide)
  have e1 := bits_sub (lo := 12) (m := 4) (v := 2) q1 (by decide) (by decide) (by decide)
  simp [decodeRaw16, e0, e1, f0, f1]
theorem cSrli (k : BitVec 5) (d : BitVec 5) : Statement (.cSrli k d) := by
  obtain ⟨hw, q0, q1, f0, f1⟩ := shape42 (w := 0x3001 + k.toNat * 2 ^ 2 + d.toNat * 2 ^ 7) 0x1 0x3 k d
    (by omega) (by decide) (by decide)
  refine of16 rfl hw (by omega) fun wf_ => ?_
  generalize 0x3001 + k.toNat * 2 ^ 2 + d.toNat * 2 ^ 7 = w at *
  have e0 := bits_sub (lo := 0) (m := 2) (v := 1) q0 (by decide) (by decide) (by decide)
  have e1 := bits_sub (lo := 12) (m := 4) (v := 3) q1 (by decide) (by decide) (by decide)
  simp [decodeRaw16, e0, e1, f0, f1]
theorem cSrai (k : BitVec 5) (d : BitVec 5) : Statement (.cSrai k d) := by
  obtain ⟨hw, q0, q1, f0, f1⟩ := shape42 (w := 0x4001 + k.toNat * 2 ^ 2 + d.toNat * 2 ^ 7) 0x1 0x4 k d
    (by omega) (by decide) (by decide)
  refine of16 rfl hw (by omega) fun wf_ => ?_
  generalize 0x4001 + k.toNat * 2 ^ 2 + d.toNat * 2 ^ 7 = w at *
  have e0 := bits_sub (lo := 0) (m := 2) (v := 1) q0 (by decide) (by decide) (by decide)
  have e1 := bits_sub (lo := 12) (m := 4) (v := 4) q1 (by decide) (by decide) (by decide)
  simp [decodeRaw16, e0, e1, f0, f1]
theorem cAndi (i : BitVec 5) (d : BitVec 5) : Statement (.cAndi i d) := by
  obtain ⟨hw, q0, q1, f0, f1⟩ := shape42 (w := 0x5001 + i.toNat * 2 ^ 2 + d.toNat * 2 ^ 7) 0x1 0x5 i d
    (by omega) (by decide) (by decide)
  refine of16 rfl hw (by omega) fun wf_ => ?_
  generalize 0x5001 + i.toNat * 2 ^ 2 + d.toNat * 2 ^ 7 = w at *
  have e0 := bits_sub (lo := 0) (m := 2) (v := 1) q0 (by decide) (by decide) (by decide)
  have e1 := bits_sub (lo := 12) (m := 4) (v := 5) q1 (by decide) (by decide) (by decide)
  simp [decodeRaw16, e0, e1, f0, f1]
theorem cBrEq (o : BitVec 5) (a : BitVec 5) : Statement (.cBrEq o a) := by
  obtain ⟨hw, q0, q1, f0, f1⟩ := shape42 (w := 0x2 + o.toNat * 2 ^ 2 + a.toNat * 2 ^ 7) 0x2 0x0 o a
    (by omega) (by decide) (by decide)
  refine of16 rfl hw (by omega) fun wf_ => ?_
  generalize 0x2 + o.toNat * 2 ^ 2 + a.toNat * 2 ^ 7 = w at *
  have e0 := bits_sub (lo := 0) (m := 2) (v := 2) q0 (by decide) (by decide) (by decide)
  have e1 := bits_sub (lo := 12) (m := 4) (v := 0) q1 (by decide) (by decide) (by decide)
  simp [decodeRaw16, e0, e1, f0, f1]
theorem cBrNe (o : BitVec 5) (a : BitVec 5) : Statement (.cBrNe o a) := by
  obtain ⟨hw, q0, q1, f0, f1⟩ := shape42 (w := 0x1002 + o.toNat * 2 ^ 2 + a.toNat * 2 ^ 7) 0x2 0x1 o a
    (by omega) (by decide) (by decide)
  refine of16 rfl hw (by omega) fun wf_ => ?_
  generalize 0x1002 + o.toNat * 2 ^ 2 + a.toNat * 2 ^ 7 = w at *
  have e0 := bits_sub (lo := 0) (m := 2) (v := 2) q0 (by decide) (by decide) (by decide)
  have e1 := bits_sub (lo := 12) (m := 4) (v := 1) q1 (by decide) (by decide) (by decide)
  simp [decodeRaw16, e0, e1, f0, f1]
theorem cBrLt (o : BitVec 5) (a : BitVec 5) : Statement (.cBrLt o a) := by
  obtain ⟨hw, q0, q1, f0, f1⟩ := shape42 (w := 0x2002 + o.toNat * 2 ^ 2 + a.toNat * 2 ^ 7) 0x2 0x2 o a
    (by omega) (by decide) (by decide)
  refine of16 rfl hw (by omega) fun wf_ => ?_
  generalize 0x2002 + o.toNat * 2 ^ 2 + a.toNat * 2 ^ 7 = w at *
  have e0 := bits_sub (lo := 0) (m := 2) (v := 2) q0 (by decide) (by decide) (by decide)
  have e1 := bits_sub (lo := 12) (m := 4) (v := 2) q1 (by decide) (by decide) (by decide)
  simp [decodeRaw16, e0, e1, f0, f1]
theorem cBrGe (o : BitVec 5) (a : BitVec 5) : Statement (.cBrGe o a) := by
  obtain ⟨hw, q0, q1, f0, f1⟩ := shape42 (w := 0x3002 + o.toNat * 2 ^ 2 + a.toNat * 2 ^ 7) 0x2 0x3 o a
    (by omega) (by decide) (by decide)
  refine of16 rfl hw (by omega) fun wf_ => ?_
  generalize 0x3002 + o.toNat * 2 ^ 2 + a.toNat * 2 ^ 7 = w at *
  have e0 := bits_sub (lo := 0) (m := 2) (v := 2) q0 (by decide) (by decide) (by decide)
  have e1 := bits_sub (lo := 12) (m := 4) (v := 3) q1 (by decide) (by decide) (by decide)
  simp [decodeRaw16, e0, e1, f0, f1]
theorem cJmp (o : BitVec 10) : Statement (.cJmp o) := by
  obtain ⟨hw, q0, q1, f0⟩ := shape44 (w := 0x4002 + o.toNat * 2 ^ 2) 0x2 0x4 o
    (by omega) (by decide) (by decide)
  refine of16 rfl hw (by omega) fun wf_ => ?_
  generalize 0x4002 + o.toNat * 2 ^ 2 = w at *
  have e0 := bits_sub (lo := 0) (m := 2) (v := 2) q0 (by decide) (by decide) (by decide)
  have e1 := bits_sub (lo := 12) (m := 4) (v := 4) q1 (by decide) (by decide) (by decide)
  simp [decodeRaw16, e0, e1, f0]
theorem role (n : BitVec 4) (m : BitVec 8) : Statement (.role n m) := by
  have h0 := n.isLt; have h1 := m.isLt
  refine of16 (w := 0xC002 + n.toNat * 2 ^ 2 + m.toNat * 2 ^ 6) rfl (by omega) (by omega) fun _ => ?_
  generalize hw : 0xC002 + n.toNat * 2 ^ 2 + m.toNat * 2 ^ 6 = w
  have e1 : bitsOf w 0 2 = 2 := by unfold bitsOf; omega
  have e2 : bitsOf w 12 4 = 12 ∨ bitsOf w 12 4 = 13 ∨ bitsOf w 12 4 = 14 ∨ bitsOf w 12 4 = 15 := by unfold bitsOf; omega
  have f1 : fld w 2 4 = n := fld_eq (by omega)
  have f2 : fld w 6 8 = m := fld_eq (by omega)
  rcases e2 with e2 | e2 | e2 | e2 <;> simp only [decodeRaw16, e1, e2, f1, f2]
theorem cpydoneRead (ch : BitVec 2) (r : BitVec 5) (st : BitVec 3) : Statement (.cpydoneRead ch r st) := ofNone rfl
theorem axdoneRead (r : BitVec 5) (st : BitVec 3) : Statement (.axdoneRead r st) := ofNone rfl
theorem pathdoneRead (p : BitVec 2) (r : BitVec 5) (st : BitVec 3) : Statement (.pathdoneRead p r st) := ofNone rfl
theorem sterrClear (r : BitVec 5) (st : BitVec 3) : Statement (.sterrClear r st) := ofNone rfl
theorem cpyerrClear (ch : BitVec 2) (r : BitVec 5) (st : BitVec 3) : Statement (.cpyerrClear ch r st) := ofNone rfl
theorem axerrClear (r : BitVec 5) (st : BitVec 3) : Statement (.axerrClear r st) := ofNone rfl
theorem teamerrClear (r : BitVec 5) (st : BitVec 3) : Statement (.teamerrClear r st) := ofNone rfl
theorem slwinWrite (w : BitVec 3) (r : BitVec 5) (st : BitVec 3) : Statement (.slwinWrite w r st) := ofNone rfl
theorem stpathWrite (r : BitVec 5) (st : BitVec 3) : Statement (.stpathWrite r st) := ofNone rfl
theorem vtypeWrite (r : BitVec 5) (st : BitVec 3) : Statement (.vtypeWrite r st) := ofNone rfl
theorem vauxWrite (r : BitVec 5) (st : BitVec 3) : Statement (.vauxWrite r st) := ofNone rfl
theorem lpctlWrite (k : BitVec 1) (r : BitVec 5) (st : BitVec 3) : Statement (.lpctlWrite k r st) := ofNone rfl
theorem vrandWrite (r : BitVec 5) (st : BitVec 3) : Statement (.vrandWrite r st) := ofNone rfl
theorem motionctlWrite (r : BitVec 5) (st : BitVec 3) : Statement (.motionctlWrite r st) := ofNone rfl
theorem mrecptrWrite (r : BitVec 5) (st : BitVec 3) : Statement (.mrecptrWrite r st) := ofNone rfl
theorem evptrWrite (r : BitVec 5) (st : BitVec 3) : Statement (.evptrWrite r st) := ofNone rfl
theorem lqbaseWrite (q : Nat) (v : BitVec 64) : Statement (.lqbaseWrite q v) := ofNone rfl
theorem lqtailWrite (q : Nat) (v : BitVec 64) : Statement (.lqtailWrite q v) := ofNone rfl
theorem lqheadWrite (q : Nat) (v : BitVec 64) : Statement (.lqheadWrite q v) := ofNone rfl
theorem pwrcapWrite (v : BitVec 64) : Statement (.pwrcapWrite v) := ofNone rfl
theorem storeBufferDrain (ctx : Nat) : Statement (.storeBufferDrain ctx) := ofNone rfl
theorem homeRequest (i : Nat) : Statement (.homeRequest i) := ofNone rfl
theorem storeAck (i : Nat) : Statement (.storeAck i) := ofNone rfl
theorem loadReply (i : Nat) : Statement (.loadReply i) := ofNone rfl
theorem replayNotice (ctx : Nat) : Statement (.replayNotice ctx) := ofNone rfl
theorem waitWake (ctx : Nat) : Statement (.waitWake ctx) := ofNone rfl
theorem waitPoll (ctx : Nat) : Statement (.waitPoll ctx) := ofNone rfl
theorem mreqReply (i : Nat) : Statement (.mreqReply i) := ofNone rfl
theorem rowReservationTimeout (i : Nat) : Statement (.rowReservationTimeout i) := ofNone rfl
theorem pageWalk (ctx : Nat) (va : BitVec 80) (acc : Nat) : Statement (.pageWalk ctx va acc) := ofNone rfl
theorem pagerReply (ctx : Nat) : Statement (.pagerReply ctx) := ofNone rfl
theorem engineFaultReply (ctx : Nat) : Statement (.engineFaultReply ctx) := ofNone rfl
theorem turnipMotionStart (die : Nat) : Statement (.turnipMotionStart die) := ofNone rfl
theorem turnipCopyStep (die : Nat) (i : Nat) : Statement (.turnipCopyStep die i) := ofNone rfl
theorem sweepComplete (die : Nat) (i : Nat) : Statement (.sweepComplete die i) := ofNone rfl
theorem epochEnd : Statement (.epochEnd) := ofNone rfl
theorem copyStart (core : Nat) : Statement (.copyStart core) := ofNone rfl
theorem copyComplete (core : Nat) : Statement (.copyComplete core) := ofNone rfl
theorem dictFillComplete (tile : Nat) : Statement (.dictFillComplete tile) := ofNone rfl
theorem streamFetch (ctx : Nat) (n : Nat) : Statement (.streamFetch ctx n) := ofNone rfl
theorem streamWrite (ctx : Nat) (n : Nat) : Statement (.streamWrite ctx n) := ofNone rfl
theorem portRouteOpen (core : Nat) : Statement (.portRouteOpen core) := ofNone rfl
theorem recordArrival (i : Nat) : Statement (.recordArrival i) := ofNone rfl
theorem counterDecrement (i : Nat) : Statement (.counterDecrement i) := ofNone rfl
theorem barrierArrival (i : Nat) : Statement (.barrierArrival i) := ofNone rfl
theorem barrierRelease (i : Nat) : Statement (.barrierRelease i) := ofNone rfl
theorem treeContribution (ctx : Nat) : Statement (.treeContribution ctx) := ofNone rfl
theorem treeResult (i : Nat) : Statement (.treeResult i) := ofNone rfl
theorem taskStart (ctx : Nat) : Statement (.taskStart ctx) := ofNone rfl
theorem teamStart (core : Nat) : Statement (.teamStart core) := ofNone rfl
theorem axisRequestStart (tile : Nat) : Statement (.axisRequestStart tile) := ofNone rfl
theorem axisRequestComplete (tile : Nat) : Statement (.axisRequestComplete tile) := ofNone rfl
theorem fennelExchangeStep (tile : Nat) (slot : Nat) : Statement (.fennelExchangeStep tile slot) := ofNone rfl
theorem issueChoice (core : Nat) : Statement (.issueChoice core) := ofNone rfl
theorem lowPrecedenceStart (core : Nat) : Statement (.lowPrecedenceStart core) := ofNone rfl
theorem lowPrecedenceEnd (core : Nat) : Statement (.lowPrecedenceEnd core) := ofNone rfl
theorem pauseEnd (ctx : Nat) : Statement (.pauseEnd ctx) := ofNone rfl
theorem sleepWake (ctx : Nat) : Statement (.sleepWake ctx) := ofNone rfl
theorem realignTimeout (ctx : Nat) : Statement (.realignTimeout ctx) := ofNone rfl
theorem dispatcherTakeRecord (q : Nat) : Statement (.dispatcherTakeRecord q) := ofNone rfl
theorem regionGrant (die : Nat) : Statement (.regionGrant die) := ofNone rfl
theorem duskSave (rcb : Nat) : Statement (.duskSave rcb) := ofNone rfl
theorem duskRestore (rcb : Nat) : Statement (.duskRestore rcb) := ofNone rfl
theorem budgetExhausted (rcb : Nat) : Statement (.budgetExhausted rcb) := ofNone rfl
theorem regionDone (rcb : Nat) : Statement (.regionDone rcb) := ofNone rfl
theorem utilFlush (cluster : Nat) : Statement (.utilFlush cluster) := ofNone rfl
theorem eventPost : Statement (.eventPost) := ofNone rfl
theorem softError (loc : Nat) (corrected : Bool) : Statement (.softError loc corrected) := ofNone rfl
theorem noonSample (watts : List Nat) : Statement (.noonSample watts) := ofNone rfl
theorem enterP2 : Statement (.enterP2) := ofNone rfl
theorem p2Wake : Statement (.p2Wake) := ofNone rfl
theorem p3Exit : Statement (.p3Exit) := ofNone rfl
theorem dawn (absent : BitVec 12) (links : BitVec 16) : Statement (.dawn absent links) := ofNone rfl
theorem mailboxImage (image : List (BitVec 8)) : Statement (.mailboxImage image) := ofNone rfl
theorem mailboxAttest (nonce : List (BitVec 8)) : Statement (.mailboxAttest nonce) := ofNone rfl
theorem mailboxDebugToken (token : List (BitVec 8)) : Statement (.mailboxDebugToken token) := ofNone rfl
theorem mailboxPowerCommand (state : BitVec 4) : Statement (.mailboxPowerCommand state) := ofNone rfl
theorem mailboxDuskSave (rcb : Nat) : Statement (.mailboxDuskSave rcb) := ofNone rfl
theorem hostAccess (kind : BitVec 4) (addr : Nat) (data : List (BitVec 8)) : Statement (.hostAccess kind addr data) :=
  ofNone rfl
theorem hostCompletion (ctx : Nat) (status : Nat) (data : BitVec 512) : Statement (.hostCompletion ctx status data) :=
  ofNone rfl
theorem farLinkDown (dev : Nat) : Statement (.farLinkDown dev) := ofNone rfl
theorem farLostTimeout (dev : Nat) : Statement (.farLostTimeout dev) := ofNone rfl
theorem farLinkUp (dev : Nat) : Statement (.farLinkUp dev) := ofNone rfl
theorem goldexFlitReceive (link : Nat) (flit : List Nat) : Statement (.goldexFlitReceive link flit) := ofNone rfl
theorem linkReplayTimeout (link : Nat) : Statement (.linkReplayTimeout link) := ofNone rfl
theorem retrainStart (link : Nat) : Statement (.retrainStart link) := ofNone rfl
theorem retrainEnd (link : Nat) (up : Bool) : Statement (.retrainEnd link up) := ofNone rfl
theorem endToEndResend (i : Nat) : Statement (.endToEndResend i) := ofNone rfl
theorem bounceTimeout (i : Nat) : Statement (.bounceTimeout i) := ofNone rfl
theorem timeFlitSend : Statement (.timeFlitSend) := ofNone rfl
theorem timeFlitReceive (link : Nat) (count : BitVec 64) : Statement (.timeFlitReceive link count) := ofNone rfl
theorem illegalInstruction : Statement (.illegalInstruction) := ofNone rfl
theorem fetchFault : Statement (.fetchFault) := ofNone rfl

end Sys2Proof.Laws.RoundTrip
end

