-- ==== Sys2Proof/Safety.lean ====
section
/-! DEFINITION. The terms in which claims are stated: when an instruction may run, what it leaves unchanged, what taking an
exception leaves, and what a good state is. -/

namespace Sys2Proof.Machine

open Sys2Proof

/-- No operand of the focus can be short (R217): with the check, every distance suffices; without it, every producer has written. -/
def Quiet (s : State) : Prop :=
  ∀ p ∈ s.cur.board, if bits s.cur.issuectl 0 0 = 1 then p.lat < p.dist else p.till ≤ cycleNow s

/-- The focus is of one of these kinds (R294) and no operand is short (R217). -/
def Calm (kinds : List Nat) (s : State) : Prop := kinds.contains (kindOf s.who) = true ∧ Quiet s

/-- A core context whose vector access x can go on now: no stream against its direction, none short, none to wait or trap for,
and the core's vector datapath is free (R176, R217, R232, R233). -/
def VectorReady (s : State) (x : Access) : Prop :=
  kindOf s.who = 0 ∧ wrongWay s.cur x = false ∧ Quiet s ∧ streamCheck s.cur x = none ∧ datapathBusy s = false

/-- No hardware-loop level is active. -/
def NoLoop (c : Ctx) : Prop := lpActive c 0 = false ∧ lpActive c 1 = false

/-- A context without its place: pc, span state, loop levels, scoreboard, wait, the host words read for the instruction being
tried, and the cycles from which it may issue and the vector datapath is free. -/
def Ctx.still (c : Ctx) : Ctx :=
  { c with
    pc := 0
    span := 0
    lpctl0 := 0
    lpctl1 := 0
    board := []
    wait := .ready
    hostGot := []
    codeAt := []
    busyTill := 0
    vecTill := 0 }

/-- Two contexts differ in nothing but their place. -/
def SameButPlace (c d : Ctx) : Prop := c.still = d.still

/-- A state without the context in focus. -/
def State.rest (s : State) : State := { s with cur := {} }

/-- Two states differ in nothing but the context in focus. -/
def SameRest (u t : State) : Prop := u.rest = t.rest

/-- Instruction i of len bytes completes at s with the effect u: nothing differs from u but the place of the context, and
with no active loop level execution continues at the next instruction. -/
def Completes (i : Instr) (s u : State) (len : Nat) : Prop :=
  ∃ t, exec i s = .next t ∧ SameRest u t ∧ SameButPlace u.cur t.cur ∧ t.cur.wait = .ready ∧
    (NoLoop u.cur → t.cur.pc = s.cur.pc + BitVec.ofNat 64 len ∧ t.cur.lpctl0 = u.cur.lpctl0 ∧ t.cur.lpctl1 = u.cur.lpctl1)

/-- It completes with the effect u and execution continues at a target. -/
def Jumps (i : Instr) (s u : State) (target : Word) : Prop :=
  ∃ t, exec i s = .next t ∧ SameRest u t ∧ SameButPlace u.cur t.cur ∧ t.cur.wait = .ready ∧ t.cur.pc = target ∧
    t.cur.span = 0 ∧ (NoLoop u.cur → t.cur.lpctl0 = u.cur.lpctl0 ∧ t.cur.lpctl1 = u.cur.lpctl1)

/-- The bytes behind each active level's end address that the span of a prefix there takes are known: the context executes that
span, or the fetch of its instruction has seen what stands there (R397). -/
def EndsSeen (c : Ctx) (ext : Nat → Nat) : Prop :=
  ∀ k < 2, lpActive c k = true →
    (0 < c.span ∧ c.spanAt = lpEnd c k ∧ ext k = 2 * c.spanCode.length) ∨
    (¬(0 < c.span ∧ c.spanAt = lpEnd c k) ∧ seenEnd c k = some (ext k))

/-- An address lies in the body of a level, from LPADDR + 4 to its end with the span of a prefix that stands there (R214, R397). -/
def InBody (c : Ctx) (ext : Nat → Nat) (k : Nat) (x : Word) : Prop :=
  lpAddr c k + 4 ≤ x ∧ x ≤ lpEnd c k + BitVec.ofNat 64 (ext k)

/-- The levels that are left are discarded, level 1 with level 0; of another level nothing changes (R214). -/
def Discards (c d : Ctx) (left : Nat → Prop) : Prop :=
  (left 0 → d.lpctl0 = setBits c.lpctl0 31 31 0 ∧ d.lpctl1 = setBits c.lpctl1 31 31 0) ∧
  (¬left 0 → d.lpctl0 = c.lpctl0 ∧ (left 1 → d.lpctl1 = setBits c.lpctl1 31 31 0) ∧ (¬left 1 → d.lpctl1 = c.lpctl1))

/-- A taken branch or jump of instruction i discards the levels from whose body it goes to a target outside (R214). -/
def JumpDiscards (i : Instr) (s : State) (target : Word) : Prop :=
  ∀ ext t, EndsSeen s.cur ext → exec i s = .next t →
    Discards s.cur t.cur fun k => lpActive s.cur k = true ∧ InBody s.cur ext k s.cur.pc ∧ ¬InBody s.cur ext k target

/-- A call of instruction i discards no level. -/
def CallKeeps (i : Instr) (s : State) : Prop :=
  ∀ t, exec i s = .next t → t.cur.lpctl0 = s.cur.lpctl0 ∧ t.cur.lpctl1 = s.cur.lpctl1

/-- R294: is an instruction withheld from an engine member of a kind (1 the transfer unit, 2 the axis unit, 3 the Fennel agent)? What
every kind may execute, what one may, the events of the device, which no agent executes, and every other instruction. -/
def roleWithheld (i : Instr) (kind : Nat) : Bool :=
  match i with
  | .add _ _ _ _ | .sub _ _ _ _ | .andR _ _ _ _ | .orR _ _ _ _ | .xorR _ _ _ _ | .sll _ _ _ _ | .srl _ _ _ _ | .sra _ _ _ _
  | .mul _ _ _ _ | .mulh _ _ _ _ | .div _ _ _ _ | .rem _ _ _ _ | .min _ _ _ _ | .max _ _ _ _ | .minn _ _ _ _ | .maxn _ _ _ _
  | .mov _ _ _ | .cmpEq _ _ _ _ | .cmpNe _ _ _ _ | .cmpLt _ _ _ _ | .cmpGe _ _ _ _ | .cmpLtn _ _ _ _ | .cmpGen _ _ _ _
  | .sel _ _ _ _ | .clz _ _ _ | .popc _ _ _ | .bdep _ _ _ _ | .bxtr _ _ _ _ | .addi _ _ _ _ | .andi _ _ _ _ | .ori _ _ _ _
  | .xori _ _ _ _ | .slli _ _ _ _ | .srli _ _ _ _ | .srai _ _ _ _ | .lim _ _ _ | .jal _ _ _ | .jr _ _ _ _ | .brEq _ _ _ _
  | .brNe _ _ _ _ | .brLt _ _ _ _ | .brGe _ _ _ _ | .brLtn _ _ _ _ | .brGen _ _ _ _ | .loop _ _ _ | .cMov _ _ | .cAdd _ _
  | .cSub _ _ | .cAnd _ _ | .cOr _ _ | .cXor _ _ | .cJr _ | .cAddi _ _ | .cLim _ _ | .cSlli _ _ | .cSrli _ _ | .cSrai _ _
  | .cAndi _ _ | .cBrEq _ _ | .cBrNe _ _ | .cBrLt _ _ | .cBrGe _ _ | .cJmp _ | .role _ _ | .teamBind _ _ _ | .hand _ _ _ _ _
  | .mark _ | .driftSet _ _ | .realign _ | .teamEnd _ => false
  | .csrr _ n _ => decide (n ≠ 0x0F0 ∧ n ≠ 0x0F1)
  | .cpy _ _ _ | .cpyTry _ _ _ | .cpyid _ _ _ | .cpywait _ _ | .dictLd _ _ _ => decide (kind ≠ 1)
  | .axctx _ _ | .axmat _ _ _ | .axap _ _ _ _ | .axdrain _ _ _ _ | .axstat _ _ _ | .axwait _ _ => decide (kind ≠ 2)
  | .axdef _ _ _ _ | .axdefRelease _ _ _ | .mapSet _ _ _ _ | .mapSwap _ _ _ _ | .mapRd _ _ _ _ | .remap _ _ _ _ | .rmwait _ _ => decide (kind ≠ 3)
  | .lqbaseWrite _ _ | .lqtailWrite _ _ | .lqheadWrite _ _ | .pwrcapWrite _ | .storeBufferDrain _ | .homeRequest _ | .storeAck _
  | .loadReply _ | .replayNotice _ | .waitWake _ | .waitPoll _ | .mreqReply _ | .rowReservationTimeout _ | .pageWalk _ _ _
  | .pagerReply _ | .engineFaultReply _ | .turnipMotionStart _ | .turnipCopyStep _ _ | .sweepComplete _ _ | .epochEnd
  | .copyStart _ | .copyComplete _ | .dictFillComplete _ | .streamFetch _ _ | .streamWrite _ _ | .portRouteOpen _
  | .recordArrival _ | .counterDecrement _ | .barrierArrival _ | .barrierRelease _ | .treeContribution _ | .treeResult _
  | .taskStart _ | .teamStart _ | .axisRequestStart _ | .axisRequestComplete _ | .fennelExchangeStep _ _ | .issueChoice _
  | .lowPrecedenceStart _ | .lowPrecedenceEnd _ | .pauseEnd _ | .sleepWake _ | .realignTimeout _ | .dispatcherTakeRecord _
  | .regionGrant _ | .duskSave _ | .duskRestore _ | .budgetExhausted _ | .regionDone _ | .utilFlush _ | .eventPost | .softError _ _
  | .noonSample _ | .enterP2 | .p2Wake | .p3Exit | .dawn _ _ | .mailboxImage _ | .mailboxAttest _ | .mailboxDebugToken _
  | .mailboxPowerCommand _ | .mailboxDuskSave _ | .hostAccess _ _ _ | .hostCompletion _ _ _ | .farLinkDown _ | .farLostTimeout _
  | .farLinkUp _ | .goldexFlitReceive _ _ | .linkReplayTimeout _ | .retrainStart _ | .retrainEnd _ _ | .endToEndResend _
  | .bounceTimeout _ | .timeFlitSend | .timeFlitReceive _ _ | .illegalInstruction | .fetchFault => false
  | _ => true

/-- A producer of one of these registers (0 scalar, 1 vector, 2 predicate, and its number) is too near (R217); with checking off, its
result does not stand yet. -/
def Short (s : State) (uses : List (Nat × Nat)) : Prop :=
  ∃ p ∈ s.cur.board, (p.cls, p.reg) ∈ uses ∧ p.dist < p.lat + 1 ∧ (bits s.cur.issuectl 0 0 = 0 → cycleNow s < p.till)

/-- The home of a load of n bytes answers it with a status (1 poisoned, 2 lost): none of its bytes stands in the store buffer, and no
earlier request, no reserved bank and no link keeps it waiting (R72, R73, R113, R364). -/
def HomeAnswers (s : State) (l : Landing) (n status : Nat) : Prop :=
  ownBytes s s.who l n = .none ∧ boundFor s s.who l.loc (fun _ => true) = false ∧ bankBusy s l.loc 4096 = false ∧
    farWaits s l.loc = false ∧ homeOf s l.loc ≠ some 25 ∧ (serveRead s l.loc n).1 = status

/-- It cannot issue yet: nothing changes but the context's wait. -/
def Stalls (i : Instr) (s : State) : Prop :=
  exec i s = .next { s with cur := { s.cur with wait := .stalled } }

/-- The focus is a core context with a trap handler, outside any handler (R348). -/
def HasHandler (s : State) : Prop :=
  isEngine s.who = false ∧ s.cur.tvec ≠ 0 ∧ bits s.cur.tstatus 0 0 = 0

/-- R347, R348: the context of a trap with this cause, ACCESS, INFO and FAULTVA: EPC, CAUSE, FAULTVA and FAULTVAH saved, INTRAP
set, span state cleared, the pc at TVEC. -/
def trapCtx (c : Ctx) (code access info : Nat) (va : VAddr) : Ctx :=
  { c with
    epc := c.pc
    cause := BitVec.ofNat 64 (code + access * 2 ^ 8 + info * 2 ^ 16)
    faultva := BitVec.ofNat 64 va.toNat
    faultvah := BitVec.ofNat 64 (va.toNat / 2 ^ 64)
    tstatus := setBits c.tstatus 0 0 1
    span := 0
    board := []
    hostGot := []
    codeAt := []
    wait := .ready
    pc := c.tvec }

/-- Instruction i takes the trap, and has no other effect. -/
def Traps (i : Instr) (s : State) (code access info : Nat) (va : VAddr) : Prop :=
  exec i s = .next { s with cur := trapCtx s.cur code access info va }

/-- It takes the trap after accesses that leave the state u. -/
def TrapsFrom (i : Instr) (s u : State) (code access info : Nat) (va : VAddr) : Prop :=
  exec i s = .next { u with cur := trapCtx u.cur code access info va }

/-- R101, R102, R111: what a check of an access that fails with t comes to, once its pager's table and reply word can be reached; one
that cannot be made yet is tried again (R364). A translation fault of a region with a pager zeroes the context's reply word, sends the record of R106 and waits for the
reply; every other one, and one whose pager is missing or whose reply word cannot be written, traps. -/
def Faults (i : Instr) (s : State) (t : Trap) : Prop :=
  let u := refreshTlb s t
  let pager := pagerFor u (coreOf s.who) t.va.toNat
  let word := replyLoc u s.who false 1
  (t.waits = true → Stalls i s) ∧ (t.waits = false → pagerWaits u t = false →
    ((t.code ≠ 0x08 ∧ t.code ≠ 0x09 ∨ s.cur.pagerTask = true ∨ pager = none ∨ word = none) →
      exec i s = .next { pagerTouch u t with cur := trapCtx s.cur t.code t.access t.info t.va }) ∧
    ((t.code = 0x08 ∨ t.code = 0x09) → s.cur.pagerTask = false → ∀ core cls ab l v, pager = some (core, cls, ab) → word = some l →
      serveWrite (replyTouch u s.who false 1) l (toBytes 8 0) false = (0, v) → ∃ w, exec i s = .next w ∧
        w.cur.wait = .pager t.code t.access t.va (replyAddr v s.who false) ∧ w.cur.regs = s.cur.regs ∧ w.cur.pc = s.cur.pc ∧
        w.cur.cause = BitVec.ofNat 64 (t.code + t.access * 2 ^ 8) ∧ w.cur.faultva = BitVec.ofNat 64 t.va.toNat ∧
        w.cur.tstatus = s.cur.tstatus ∧ w.mem = v.mem ∧ w.net = s.net ++ [{ src := devAgent (coreOf s.who), entry := {
          loc := homeLoc core 0xC000, body := .record (BitVec.ofNat 14 core) (faultRec v s.who t cls false) } }]))

/-- What withImage reads at an address: the n bytes `img` of an image, aligned as it must be, every line of it checked (R111),
whose first byte lies where `limit` allows; s1 is the state after the reads. -/
def ImageAt (s : State) (ea : Word) (n al : Nat) (limit : Landing → Option Trap) (img : List Byte) (s1 : State) : Prop :=
  ∃ ls s0, landImage s al (linePieces n ea.toNat n) = .ok (ls, s0) ∧ (∀ p ∈ ls.head?, limit p.2.2 = none) ∧
    readImage s0 ls = .vals [img] s1

/-- The exact value of a finite number; of the others it says nothing. -/
def Num.val : Num → ℚ
  | .fin s m e => (if s then -1 else 1) * m * 2 ^ e
  | _ => 0

/-- Neither NaN nor an infinity. -/
def Num.isFin : Num → Bool
  | .fin _ _ _ => true
  | _ => false

/-- A floating format as the manual's table writes it: its type code, exponent bits, mantissa bits and bias. -/
structure FloatRow where
  t : Nat
  E : Nat
  M : Nat
  bias : Nat
  deriving DecidableEq, Repr

/-- The floating formats of R235. -/
def floatRows : List FloatRow :=
  [⟨4, 2, 1, 1⟩, ⟨5, 3, 2, 3⟩, ⟨6, 2, 3, 1⟩, ⟨7, 4, 3, 7⟩, ⟨8, 5, 2, 15⟩, ⟨9, 8, 7, 127⟩, ⟨10, 5, 10, 15⟩, ⟨11, 8, 23, 127⟩]

/-- A code's magnitude, without its sign bit. -/
def FloatRow.mag (f : FloatRow) (x : Nat) : Nat := x % 2 ^ (f.E + f.M)
/-- Its sign bit. -/
def FloatRow.neg (f : FloatRow) (x : Nat) : Bool := decide (x / 2 ^ (f.E + f.M) % 2 = 1)
/-- A NaN: with infinities, all exponent bits and some mantissa bit; in e4m3, all bits but the sign. -/
abbrev FloatRow.nan (f : FloatRow) (x : Nat) : Prop :=
  8 ≤ f.t ∧ (2 ^ f.E - 1) * 2 ^ f.M < f.mag x ∨ f.t = 7 ∧ f.mag x = 127
/-- An infinity. -/
abbrev FloatRow.inf (f : FloatRow) (x : Nat) : Prop := 8 ≤ f.t ∧ f.mag x = (2 ^ f.E - 1) * 2 ^ f.M
/-- A code of the format with a finite value. -/
abbrev FloatRow.fin (f : FloatRow) (x : Nat) : Prop := x < 2 ^ (1 + f.E + f.M) ∧ ¬f.nan x ∧ ¬f.inf x
/-- The magnitude code of the largest finite value. -/
def FloatRow.top (f : FloatRow) : Nat :=
  if 8 ≤ f.t then (2 ^ f.E - 1) * 2 ^ f.M - 1 else if f.t = 7 then 126 else 2 ^ (f.E + f.M) - 1
/-- The canonical NaN of R235, and +0 where the format has none (R244). -/
def FloatRow.canonical (f : FloatRow) : Nat :=
  if 8 ≤ f.t then (2 ^ f.E - 1) * 2 ^ f.M + 2 ^ (f.M - 1) else if f.t = 7 then 127 else 0
/-- The value of a code (R235). -/
def FloatRow.val (f : FloatRow) (x : Nat) : ℚ :=
  let e := x / 2 ^ f.M % 2 ^ f.E
  let m : ℚ := (x % 2 ^ f.M : ℕ)
  (if f.neg x then -1 else 1) *
    (if e = 0 then m / 2 ^ f.M * 2 ^ (1 - (f.bias : ℤ)) else (1 + m / 2 ^ f.M) * 2 ^ ((e : ℤ) - f.bias))
/-- Codes that are no NaN in their order: +0 above −0. -/
def FloatRow.rank (f : FloatRow) (x : Nat) : ℤ := if f.neg x then -(f.mag x : ℤ) - 1 else f.mag x

/-- Memory is in canonical form, so that equal memories are equal data. -/
def State.MemWf (s : State) : Prop := Memory.wf s.mem = true

/-- Every register of a context as the manual numbers it, reserved state left aside: s0 and p0 are hard-wired. -/
def HardWired (c : Ctx) : Prop := c.rd 0 = 0 ∧ c.pr 0 = 0xFFFFFFFF

end Sys2Proof.Machine
end

