-- ==== Sys2Proof/Certificates/Slice0/Obligations.lean ====
section
/-! DEFINITION. The statements for the provers. -/

open Sys2Proof Sys2Proof.Machine

/-! ### The scalar datapath -/

/-- R206, R207, R44: register forms of OP. With d = s0 nothing is written (`wr`). -/
def Obligations.RegisterForms : Prop :=
  ∀ (s : State) (d a b : BitVec 5) (st : BitVec 3), Calm [0, 1, 2, 3] s →
    let x := rd s a
    let y := rd s b
    let k := y.toNat % 64
    let bit := fun (p : Prop) [Decidable p] => (if p then 1 else 0 : Word)
    ∀ p ∈ [(Instr.add d a b st, x + y), (.sub d a b st, x - y), (.andR d a b st, x &&& y), (.orR d a b st, x ||| y),
        (.xorR d a b st, x ^^^ y), (.sll d a b st, x <<< k), (.srl d a b st, x >>> k), (.sra d a b st, x.sshiftRight k),
        (.mul d a b st, BitVec.ofInt 64 (x.toInt * y.toInt)), (.mulh d a b st, BitVec.ofInt 64 (x.toInt * y.toInt / 2 ^ 64)),
        (.div d a b st, if y = 0 then BitVec.allOnes 64 else BitVec.ofInt 64 (x.toInt.tdiv y.toInt)),
        (.rem d a b st, if y = 0 then x else BitVec.ofInt 64 (x.toInt.tmod y.toInt)),
        (.min d a b st, if x.toInt < y.toInt then x else y), (.max d a b st, if x.toInt < y.toInt then y else x),
        (.minn d a b st, if x.toNat < y.toNat then x else y), (.maxn d a b st, if x.toNat < y.toNat then y else x),
        (.cmpEq d a b st, bit (x = y)), (.cmpNe d a b st, bit (x ≠ y)), (.cmpLt d a b st, bit (x.toInt < y.toInt)),
        (.cmpGe d a b st, bit (y.toInt ≤ x.toInt)), (.cmpLtn d a b st, bit (x.toNat < y.toNat)),
        (.cmpGen d a b st, bit (y.toNat ≤ x.toNat)), (.sel d a b st, if rd s d ≠ 0 then x else y), (.mov d a st, x)],
      Completes p.1 s (wr s d p.2) 4

/-- R206, R208: counts, deposit and extract, each bit of the result said by itself. -/
def Obligations.BitForms : Prop :=
  ∀ (s : State) (d a b : BitVec 5) (st : BitVec 3), Calm [0, 1, 2, 3] s →
    let x := rd s a
    let m := rd s b
    (∃ v : Word, Completes (.clz d a st) s (wr s d v) 4 ∧ v.toNat = 64 - x.toNat.size) ∧
    (∃ v : Word, Completes (.popc d a st) s (wr s d v) 4 ∧ v.toNat = ((List.range 64).filter fun i => x.getLsbD i).length) ∧
    (∃ v : Word, Completes (.bdep d a b st) s (wr s d v) 4 ∧ ∀ i < 64, v.getLsbD i =
      (m.getLsbD i && x.getLsbD ((List.range i).filter fun j => m.getLsbD j).length)) ∧
    (∃ v : Word, Completes (.bxtr d a b st) s (wr s d v) 4 ∧
      (∀ i < 64, m.getLsbD i = true → v.getLsbD ((List.range i).filter fun j => m.getLsbD j).length = x.getLsbD i) ∧
      ∀ k, ((List.range 64).filter fun j => m.getLsbD j).length ≤ k → v.getLsbD k = false)

/-- R209, R22, R58: immediates are signed but for shift amounts; the 16-bit forms do what their 32-bit expansions do, in two bytes. -/
def Obligations.ImmediateAndShortForms : Prop :=
  (∀ (s : State) (d a : BitVec 5) (i : BitVec 12) (j : BitVec 10) (k : BitVec 6) (l : BitVec 17) (st : BitVec 3),
    Calm [0, 1, 2, 3] s →
    let x := rd s a
    ∀ p ∈ [(Instr.addi d a i st, x + i.signExtend 64), (.andi d a j st, x &&& j.signExtend 64),
        (.ori d a j st, x ||| j.signExtend 64), (.xori d a j st, x ^^^ j.signExtend 64), (.slli d a k st, x <<< k.toNat),
        (.srli d a k st, x >>> k.toNat), (.srai d a k st, x.sshiftRight k.toNat), (.lim d l st, l.signExtend 64)],
      Completes p.1 s (wr s d p.2) 4) ∧
  ∀ (s : State) (d a i : BitVec 5), Calm [0, 1, 2, 3] s →
    let x := rd s a
    let y := rd s d
    ∀ p ∈ [(Instr.cMov a d, x), (.cAdd a d, y + x), (.cSub a d, y - x), (.cAnd a d, y &&& x), (.cOr a d, y ||| x),
        (.cXor a d, y ^^^ x), (.cAddi i d, y + i.signExtend 64), (.cLim i d, i.signExtend 64), (.cSlli i d, y <<< i.toNat),
        (.cSrli i d, y >>> i.toNat), (.cSrai i d, y.sshiftRight i.toNat), (.cAndi i d, y &&& i.signExtend 64)],
      Completes p.1 s (wr s d p.2) 2

/-- R211, R31, R22, R214: a branch continues at its target when its condition holds, else after itself; it writes no register. A
taken one from the body of a loop level to outside it discards the level, and level 1 with level 0. -/
def Obligations.Branches : Prop :=
  ∀ (s : State) (a b : BitVec 5) (o : BitVec 12) (q : BitVec 5) (st : BitVec 3), Calm [0, 1, 2, 3] s →
    let x := rd s a
    let y := rd s b
    (∀ p ∈ [(Instr.brEq a b o st, decide (x = y)), (.brNe a b o st, decide (x ≠ y)),
        (.brLt a b o st, decide (x.toInt < y.toInt)), (.brGe a b o st, decide (y.toInt ≤ x.toInt)),
        (.brLtn a b o st, decide (x.toNat < y.toNat)), (.brGen a b o st, decide (y.toNat ≤ x.toNat))],
      if p.2 then Jumps p.1 s s (s.cur.pc + 2 * o.signExtend 64) ∧ JumpDiscards p.1 s (s.cur.pc + 2 * o.signExtend 64)
      else Completes p.1 s s 4) ∧
    (∀ p ∈ [(Instr.cBrEq q a, decide (x = 0)), (.cBrNe q a, decide (x ≠ 0)), (.cBrLt q a, decide (x.toInt < 0)),
        (.cBrGe q a, decide (0 ≤ x.toInt))],
      if p.2 then Jumps p.1 s s (s.cur.pc + 2 * q.signExtend 64) ∧ JumpDiscards p.1 s (s.cur.pc + 2 * q.signExtend 64)
      else Completes p.1 s s 2)

/-- R210, R214: jumps; d takes the address of the next instruction, and with d = s0 there is no link. `jr` clears bit 0. A jump from
the body of a loop level to outside it discards the level, and level 1 with level 0; a call, which has a link, discards none. -/
def Obligations.JumpForms : Prop :=
  ∀ (s : State) (d a : BitVec 5) (o : BitVec 17) (i : BitVec 12) (q : BitVec 10) (st : BitVec 3), Calm [0, 1, 2, 3] s →
    Jumps (.jal d o st) s (wr s d (s.cur.pc + 4)) (s.cur.pc + 2 * o.signExtend 64) ∧
    Jumps (.jr d a i st) s (wr s d (s.cur.pc + 4)) ((rd s a + 2 * i.signExtend 64) &&& ~~~1#64) ∧
    Jumps (.cJmp q) s s (s.cur.pc + 2 * q.signExtend 64) ∧
    Jumps (.cJr a) s s (rd s a &&& ~~~1#64) ∧
    JumpDiscards (.jal 0 o st) s (s.cur.pc + 2 * o.signExtend 64) ∧
    JumpDiscards (.jr 0 a i st) s ((rd s a + 2 * i.signExtend 64) &&& ~~~1#64) ∧
    JumpDiscards (.cJmp q) s (s.cur.pc + 2 * q.signExtend 64) ∧
    JumpDiscards (.cJr a) s (rd s a &&& ~~~1#64) ∧
    (d ≠ 0 → CallKeeps (.jal d o st) s ∧ CallKeeps (.jr d a i st) s)

/-- R212: `loop` opens level 0, or level 1 inside it; it does nothing with an empty body, skips the body for a count of 0,
and traps when both levels are active, when the count is above 32 bits, or when level 1 would end after level 0. A fault of the fetch at
the end address of a skipped body is taken at the `loop`, which has no effect. That a skip goes on behind the span of a role prefix is log
entry 41, and that a fetch which a home or the host holds up is waited for, log entries 10 and 68. -/
def Obligations.LoopForms : Prop :=
  ∀ (s : State) (a : BitVec 5) (o : BitVec 12) (st : BitVec 3), Calm [0, 1, 2, 3] s →
    let n := (rd s a).toNat
    let l := s.cur.pc + 2 * o.signExtend 64
    let ctl := BitVec.ofNat 64 (n * 2 ^ 32 + 2 ^ 31 + o.toNat)
    let bad := 2 ^ 32 ≤ n ∨ lpActive s.cur 1 = true ∨ (lpActive s.cur 0 = true ∧ lpEnd s.cur 0 < l)
    (bad → HasHandler s → Traps (.loop a o st) s 0x02 7 0 0) ∧
    (¬bad → o = 1 → Completes (.loop a o st) s s 4) ∧
    (¬bad → o ≠ 1 → 0 < n → ∃ t, exec (.loop a o st) s = .next t ∧ SameRest s t ∧ t.cur.pc = s.cur.pc + 4 ∧
      t.cur.wait = .ready ∧
      if lpActive s.cur 0 then
        SameButPlace { s.cur with lpaddr1 := s.cur.pc } t.cur ∧ t.cur.lpctl1 = ctl ∧ t.cur.lpctl0 = s.cur.lpctl0
      else SameButPlace { s.cur with lpaddr0 := s.cur.pc } t.cur ∧ t.cur.lpctl0 = ctl ∧ t.cur.lpctl1 = s.cur.lpctl1) ∧
    (¬bad → o ≠ 1 → n = 0 → ∀ p ps f s1, parcelAt s l = (p :: ps, f, s1) → s1.cur = s.cur →
      ∃ t, exec (.loop a o st) s = .next t ∧ SameRest s1 t ∧ SameButPlace s.cur t.cur ∧ t.cur.wait = .ready ∧
        t.cur.pc = if lpActive s.cur 0 = true ∧ l = lpEnd s.cur 0 ∧ bits s.cur.lpctl0 63 32 ≠ 1 then s.cur.lpaddr0 + 4
          else l + BitVec.ofNat 64 (lengthAt p)) ∧
    (¬bad → o ≠ 1 → n = 0 → ∀ f s1, parcelAt s l = ([], some f, s1) →
      (∀ t, f = .trap t → HasHandler s → Faults (.loop a o st) s t) ∧ (f = .wait → Stalls (.loop a o st) s) ∧
      ∀ at1 va, f = .host at1 va → exec (.loop a o st) s = .next { s with cur := { s.cur with wait := .hostFill at1 3 va } })

/-- R213, R397: an instruction that completes at the end address of a level, or as the last of the span whose prefix stands there (in
the span's execution, or as its fetch has seen it after a trap has taken the context out of the span and back, R26),
goes back to the body while REMAIN is above 1, which falls by one, and falls out of the level at 1: for level 0 alone, for level 1
inside level 0, and for two levels that end there, level 1 first. One that steps from below the end address of a level to above it
discards the level, and level 1 with level 0 (R214). Arithmetic of both lengths, a compare, a branch that is not taken and a prefix
whose span is skipped are such instructions. -/
def Obligations.LoopBackEdge : Prop :=
  ∀ (s : State) (d a b : BitVec 5) (i : BitVec 12) (l : BitVec 17) (j : BitVec 5) (st : BitVec 3), Calm [0, 1, 2, 3] s →
    let c := s.cur
    let r0 := bits c.lpctl0 63 32
    let r1 := bits c.lpctl1 63 32
    let ends := fun (x : Instr) (u : State) (len : Nat) =>
      let next := c.pc + BitVec.ofNat 64 len
      let ext := fun (k : Nat) => if 0 < c.span ∧ c.spanAt = lpEnd c k then 2 * c.spanCode.length else (seenEnd c k).getD 0
      let at1 := fun (k : Nat) => lpActive c k = true ∧ (c.pc = lpEnd c k ∨ ext k ≠ 0 ∧ lpEnd c k < c.pc ∧
        next = lpEnd c k + BitVec.ofNat 64 (2 + ext k))
      let within := lpActive c 0 = false ∨ c.pc < lpEnd c 0 ∧ next ≤ lpEnd c 0
      ((∀ k < 2, lpActive c k = true → c.pc < lpEnd c k) → ∃ t, exec x s = .next t ∧ SameRest u t ∧ SameButPlace u.cur t.cur ∧
        t.cur.wait = .ready ∧ t.cur.pc = next ∧
        Discards c t.cur fun k => lpActive c k = true ∧ c.pc < lpEnd c k ∧ lpEnd c k < next) ∧
      ((at1 0 ∨ at1 1 ∧ within) → (lpActive c 1 = false ∨ at1 1) →
      ∃ t, exec x s = .next t ∧ SameRest u t ∧ SameButPlace u.cur t.cur ∧ t.cur.wait = .ready ∧
        (lpActive c 1 = false → 1 < r0 → t.cur.pc = c.lpaddr0 + 4 ∧ t.cur.span = 0 ∧ lpActive t.cur 0 = true ∧
          bits t.cur.lpctl0 63 32 = r0 - 1) ∧
        (lpActive c 1 = false → r0 = 1 → t.cur.pc = next ∧ lpActive t.cur 0 = false) ∧
        (at1 1 → 1 < r1 → t.cur.pc = c.lpaddr1 + 4 ∧ t.cur.span = 0 ∧ lpActive t.cur 1 = true ∧
          bits t.cur.lpctl1 63 32 = r1 - 1 ∧ t.cur.lpctl0 = c.lpctl0) ∧
        (at1 1 → within → r1 = 1 → t.cur.pc = next ∧ lpActive t.cur 1 = false ∧ t.cur.lpctl0 = c.lpctl0) ∧
        (at1 1 → at1 0 → r1 = 1 → 1 < r0 → t.cur.pc = c.lpaddr0 + 4 ∧ t.cur.span = 0 ∧ lpActive t.cur 1 = false ∧
          lpActive t.cur 0 = true ∧ bits t.cur.lpctl0 63 32 = r0 - 1) ∧
        (at1 1 → at1 0 → r1 = 1 → r0 = 1 → t.cur.pc = next ∧ lpActive t.cur 1 = false ∧ lpActive t.cur 0 = false))
    let x := rd s a
    let y := rd s b
    (∀ p ∈ [(Instr.add d a b st, wr s d (x + y), 4), (.addi d a i st, wr s d (x + i.signExtend 64), 4),
        (.mul d a b st, wr s d (BitVec.ofInt 64 (x.toInt * y.toInt)), 4), (.lim d l st, wr s d (l.signExtend 64), 4),
        (.cmpEq d a b st, wr s d (if x = y then 1 else 0), 4), (.cMov a d, wr s d x, 2), (.cLim j d, wr s d (j.signExtend 64), 2)] ++
        (if x = y then [] else [(Instr.brEq a b i st, s, 4)]), ends p.1 p.2.1 p.2.2) ∧
    ∀ n m ps s1, spanRun s c.pc (n.toNat + 1) = (ps, none, s1) → s1.cur = c → m ≠ 0 → badSpan true ps = false →
      inMask s m = false → ends (.role n m) s1 (2 + 2 * (n.toNat + 1))

/-- R24 to R26: a member of a prefix's mask executes its span, any other agent skips it; a mask of 0 and an invalid span trap.
Where a parcel of the span cannot be fetched, the run before it is judged first; then a member of the mask takes the fetch fault and
any other agent skips the span (R25); a failed completion for a word of host memory is such a fault. A span that a home or the host holds up is waited for, as every fetch is (log entries 10 and 68). -/
def Obligations.RolePrefix : Prop :=
  ∀ (s : State) (n : BitVec 4) (m : BitVec 8), Calm [0, 1, 2, 3] s →
    let run := spanRun s s.cur.pc (n.toNat + 1)
    let illegal := fun (s1 : State) => TrapsFrom (.role n m) s s1 0x01 7 0 (widen (vaHigh s.cur) s.cur.pc)
    let skips := fun (s1 : State) => Completes (.role n m) s s1 (2 + 2 * (n.toNat + 1))
    (∀ ps s1, run = (ps, none, s1) →
      (m ≠ 0 → badSpan true ps = false → inMask s m = false → skips s1) ∧
      (m ≠ 0 → badSpan true ps = false → inMask s m = true → ∃ t, exec (.role n m) s = .next t ∧ SameRest s1 t ∧
        t.cur = { noteSpan s1.cur s.cur.pc (n.toNat + 1) with
          pc := s.cur.pc + 2, span := n.toNat + 1, spanAt := s.cur.pc, spanCode := ps, wait := .ready }) ∧
      ((m = 0 ∨ badSpan true ps = true) → HasHandler s → illegal s1)) ∧
    (∀ ps f s1, run = (ps, some f, s1) → (m = 0 ∨ badSpan false ps = true) → HasHandler s → illegal s1) ∧
    (∀ ps t s1, run = (ps, some (.trap t), s1) → m ≠ 0 → badSpan false ps = false →
      (inMask s m = true → HasHandler s → Faults (.role n m) s t) ∧ (inMask s m = false → skips s1)) ∧
    (∀ ps s1, run = (ps, some .wait, s1) → m ≠ 0 → badSpan false ps = false → Stalls (.role n m) s) ∧
    ∀ ps at1 va s1, run = (ps, some (.host at1 va), s1) → m ≠ 0 → badSpan false ps = false →
      exec (.role n m) s = .next { s with cur := { s.cur with wait := .hostFill at1 3 va } }

/-! ### Memory -/

/-- R117, R118: a load writes the bytes of its address, zero- or sign-extended, and changes no byte of memory; bytes that all
stand in the context's own store buffer come from there (R113); one of a poisoned line traps DATA_POISON and one of a lost line
FAR_LOST (R115), its request counted at its page's home and no register written. That a load with none pending before it is served in its own
step, unless the schedule defers it, is the model's choice (log entry 2); a deferred one issues and takes a slot. -/
def Obligations.LoadForms : Prop :=
  ∀ (s : State) (d b : BitVec 5) (x : BitVec 1) (o : BitVec 9) (q : BitVec 6) (z : BitVec 2) (c : BitVec 3) (st : BitVec 3),
    Calm [0] s → s.cur.loads = [] →
    let ea := fun (n : Nat) => rd s b + o.signExtend 64 * BitVec.ofNat 64 n
    ∀ p ∈ [(Instr.ldB d b x o st, 1, x = 1, ea 1, 4), (.ldH d b x o st, 2, x = 1, ea 2, 4), (.ldW d b x o st, 4, x = 1, ea 4, 4),
        (.ldD d b o st, 8, False, ea 8, 4), (.cLdD b d, 8, False, rd s b, 2),
        (.ldAcq d b z c q st, 2 ^ z.toNat, False, rd s b + q.signExtend 64 * BitVec.ofNat 64 (2 ^ z.toNat), 4)],
      ∀ l, checkAccess s s.who p.2.2.2.1 p.2.1 0 = .ok l →
        (∀ bytes, loadBytes l.st s.who l p.2.1 = .val bytes →
          (s.sched.deferLoads = false ∨ ownBytes l.st s.who l p.2.1 = .all bytes) →
          ∃ v u, Completes p.1 s (wr u d v) p.2.2.2.2 ∧ (∀ k, readByte u k = readByte s k) ∧ u.cur = s.cur ∧
            (¬p.2.2.1 → v = BitVec.ofNat 64 (fromBytes bytes)) ∧
            (p.2.2.1 → v = (BitVec.ofNat (8 * p.2.1) (fromBytes bytes)).signExtend 64)) ∧
        (s.sched.deferLoads = false → HasHandler s →
          let s1 := countHot l.st l.loc (coreOf s.who) l.leaf
          (HomeAnswers l.st l p.2.1 1 → TrapsFrom p.1 s s1 0x10 0 0 (vaOf s p.2.2.2.1)) ∧
          (HomeAnswers l.st l p.2.1 2 → TrapsFrom p.1 s s1 0x11 0 0 (vaOf s p.2.2.2.1))) ∧
        (ownBytes l.st s.who l p.2.1 = .none → s.sched.deferLoads = true → homeOf s l.loc ≠ some 25 →
          boundFor l.st s.who l.loc (·.chan ≠ 0) = false →
          ∃ u x, Completes p.1 s u p.2.2.2.2 ∧ u.cur.loads = [x] ∧ x.d = d ∧ x.size = p.2.1 ∧ (x.sx = true ↔ p.2.2.1) ∧
            x.loc = l.loc ∧ x.val = none ∧ u.cur.regs = s.cur.regs ∧ u.mem = s.mem)

/-- R111, R101, R102, R117 to R123: the checks of every load, store and atomic, in order, ACCESS 0 for loads, 1 for stores, 2 for
atomics: MISALIGNED for an address that is no multiple of the size; for a slice, ACCESS_DENIED where the region does not own it
or it takes no store; elsewhere the translation's fault, which goes to the pager where there is one, MEMORY_RANGE,
ACCESS_DENIED by the table; ATOMIC_PATH. A vector access stops at the first of its addresses that fails. -/
def Obligations.MisalignedForms : Prop :=
  ∀ (s : State) (d a b : BitVec 5) (v i : BitVec 6) (x f : BitVec 1) (o : BitVec 9) (q : BitVec 6) (z : BitVec 2)
      (c h w st : BitVec 3), HasHandler s → s.cur.loads = [] →
    let ea := fun (n : Nat) => rd s b + o.signExtend 64 * BitVec.ofNat 64 n
    let m := 2 ^ z.toNat
    let er := rd s b + q.signExtend 64 * BitVec.ofNat 64 m
    let amo4 := fun (i : Instr) => (i, 4, 2, rd s a)
    let amo8 := fun (i : Instr) => (i, 8, 2, rd s a)
    let rs := blockRegs v (h.toNat + 1) (w.toNat + 1)
    let eas := (List.range rs.length).map fun k => rd s b + BitVec.ofNat 64 (32 * k)
    let lanes := (elems m (readV s.cur i)).map fun x => rd s b + BitVec.ofInt 64 (signed (8 * m) x * m)
    let va := fun (e : Word) => widen (vaHigh s.cur) e
    let amos := [(amo4 (.amoAddW d a b c st), 0), (amo4 (.amoAndW d a b c st), 1), (amo4 (.amoOrW d a b c st), 2),
      (amo4 (.amoXorW d a b c st), 3), (amo4 (.amoMinW d a b c st), 4), (amo4 (.amoMaxW d a b c st), 5),
      (amo4 (.amoMinnW d a b c st), 6), (amo4 (.amoMaxnW d a b c st), 7), (amo4 (.amoSwapW d a b c st), 8),
      (amo4 (.casW d a b c st), 9), (amo8 (.amoAddD d a b c st), 0), (amo8 (.amoAndD d a b c st), 1),
      (amo8 (.amoOrD d a b c st), 2), (amo8 (.amoXorD d a b c st), 3), (amo8 (.amoMinD d a b c st), 4),
      (amo8 (.amoMaxD d a b c st), 5), (amo8 (.amoMinnD d a b c st), 6), (amo8 (.amoMaxnD d a b c st), 7),
      (amo8 (.amoSwapD d a b c st), 8), (amo8 (.casD d a b c st), 9)]
    (Calm [0] s → ∀ p ∈ [(Instr.ldB d b x o st, 1, 0, ea 1), (.ldH d b x o st, 2, 0, ea 2), (.ldW d b x o st, 4, 0, ea 4),
        (.ldD d b o st, 8, 0, ea 8), (.cLdD b d, 8, 0, rd s b), (.ldAcq d b z c q st, m, 0, er), (.stB d b f o st, 1, 1, ea 1),
        (.stH d b f o st, 2, 1, ea 2), (.stW d b f o st, 4, 1, ea 4), (.stD d b f o st, 8, 1, ea 8), (.cStD b d, 8, 1, rd s b)] ++
        amos.map (·.1) ++ (if bits s.cur.sterr 63 63 = 0 then [(.stRel d b z c q st, m, 1, er)] else []),
      let n := p.2.1
      let k := p.2.2.1
      let y := va p.2.2.2
      let loc := sliceOfVA y
      let fails := fun (code : Nat) => Faults p.1 s { code := code, access := k, va := y }
      (p.2.2.2.toNat % n ≠ 0 → fails 0x03) ∧
      (p.2.2.2.toNat % n = 0 → isSliceVA y = true → (sliceAllows s s.who (sliceTile loc) = false ∨
        k ≠ 0 ∧ (sysArea loc = true ∨ withheld s loc = true)) → fails 0x0D) ∧
      (p.2.2.2.toNat % n = 0 → isSliceVA y = false →
        (∀ t, translate s (coreOf s.who) s.cur.troot y k = .error t →
          (t.waits = false → t.access = k ∧ t.va = y) ∧ Faults p.1 s t) ∧
        ∀ e s1, translate s (coreOf s.who) s.cur.troot y k = .ok (e, s1) →
          let pa := e.frame + y.toNat % 2 ^ e.log
          (homeOf s pa = none → fails 0x0C) ∧
          (homeOf s pa ≠ none → isSys s s.who = false → (k ≠ 1 ∧ (e.allows pa).1 = false ∨ k ≠ 0 ∧ (e.allows pa).2 = false) →
            fails 0x0D))) ∧
    (Calm [0] s → ∀ p ∈ amos, ∀ l, checkAccess s s.who (rd s a) p.1.2.1 2 = .ok l →
      (homeAt s l.loc = some 24 ∨ homeAt s l.loc = some 25 ∧ ¬(c = 5 ∧ (p.2 = 0 ∨ p.2 = 8 ∨ p.2 = 9))) →
      Faults p.1.1 s { code := 0x0E, access := 2, va := va (rd s a) }) ∧
    ∀ p ∈ [(Instr.vld v b h w st, 32, 0, eas, (⟨[], rs⟩ : Access)), (.vst v b h w f st, 32, 1, eas, ⟨rs, []⟩),
        (.vldx v b i z st, m, 0, lanes, ⟨[i], [v]⟩), (.vstx v b i z f st, m, 1, lanes, ⟨[v, i], []⟩)],
      VectorReady s p.2.2.2.2 → ∀ j e ls s1, p.2.2.2.1[j]? = some e → landAll s p.2.1 p.2.2.1 (p.2.2.2.1.take j) = .ok (ls, s1) →
        let behind := fun (t : Trap) (j : Nat) => { t with walked := (p.2.2.2.1.take j).map fun e => (va e, p.2.2.1) }
        (e.toNat % p.2.1 ≠ 0 → Faults p.1 s (behind { code := 0x03, access := p.2.2.1, va := va e } j)) ∧
        ∀ t, e.toNat % p.2.1 = 0 → land s1 s.who (va e) p.2.2.1 = .error t → Faults p.1 s (behind t j)

/-- R113, R117, R141: a store enters the store buffer with its address, its low bytes and its ordered flag; memory is
unchanged until the entry is served; with the buffer full, or while an earlier access to its page is under way by another
translation (R327), the store waits. The route of an entry is chosen when it enters
(log entry 22). -/
def Obligations.StoreForms : Prop :=
  ∀ (s : State) (d b : BitVec 5) (f : BitVec 1) (o : BitVec 9) (st : BitVec 3), Calm [0] s →
    let ea := fun (n : Nat) => rd s b + o.signExtend 64 * BitVec.ofNat 64 n
    ∀ p ∈ [(Instr.stB d b f o st, 1, decide (f = 1), ea 1, 4), (.stH d b f o st, 2, decide (f = 1), ea 2, 4),
        (.stW d b f o st, 4, decide (f = 1), ea 4, 4), (.stD d b f o st, 8, decide (f = 1), ea 8, 4),
        (.cStD b d, 8, false, rd s b, 2)],
      ∀ l, checkAccess s s.who p.2.2.2.1 p.2.1 1 = .ok l →
        ((16 ≤ s.cur.buf.length ∨ pageHeld s s.who l = true) → Stalls p.1 s) ∧
        (s.cur.buf.length < 16 → pageHeld s s.who l = false → ∃ u e, Completes p.1 s u p.2.2.2.2 ∧ u.cur.buf = s.cur.buf ++ [e] ∧ e.loc = l.loc ∧
          e.body = .store (toBytes p.2.1 (rd s d).toNat) false ∧ e.ordered = p.2.2.1 ∧ e.seq = s.cur.seqNext ∧
          u.cur.regs = s.cur.regs ∧ u.cur.vregs = s.cur.vregs ∧ ∀ k, readByte u k = readByte s k)

/-- R118, R116: `st.rel` raises STORE_FAIL first, waits while its release is not satisfied, and then stores. What the release
waits for is log entry 21. -/
def Obligations.StoreRelease : Prop :=
  ∀ (s : State) (d b : BitVec 5) (z : BitVec 2) (c : BitVec 3) (o : BitVec 6) (st : BitVec 3), Calm [0] s →
    let n := 2 ^ z.toNat
    let i := Instr.stRel d b z c o st
    (bits s.cur.sterr 63 63 = 1 → HasHandler s → Traps i s 0x12 7 0 0) ∧
    (bits s.cur.sterr 63 63 = 0 → ∀ l, checkAccess s s.who (rd s b + o.signExtend 64 * BitVec.ofNat 64 n) n 1 = .ok l →
      s.cur.buf.length < 16 → pageHeld s s.who l = false →
      (releaseBlocked s s.who c = true → Stalls i s) ∧
      (releaseBlocked s s.who c = false → ∃ u e, Completes i s u 4 ∧ u.cur.buf = s.cur.buf ++ [e] ∧ e.loc = l.loc ∧
        e.body = .store (toBytes n (rd s d).toNat) false ∧ s.cur.seqNext ∈ u.cur.rels ∧ u.cur.regs = s.cur.regs ∧
        ∀ k, readByte u k = readByte s k))

/-- R71, R74, R115, R121, R264: what a home does with a request. A store, or the write of an `mreq`, puts its bytes at its address and no
other byte, and is acknowledged; a poisoned line takes none but a store of a whole line, which ends the poison, and a lost line takes
none. A load and the read of an `mreq` return the bytes and change none, status 1 of a poisoned line, and zeros of a withheld staging area. An
atomic, one step of its
instruction, returns the old value and leaves the new one. Two addresses name one byte only where one of them is in a page that is in
Forwarding (R77). What a line both poisoned and lost answers is log entry 70. -/
def Obligations.StoreAtHome : Prop :=
  ∀ (s : State) (loc : Nat), (∀ k < 64, motionAt s (loc + k) = none) → s.MemWf →
    let put := fun (t : State) (d : List Byte) =>
      (∀ k, k < d.length → readByte t (loc + k) = d.getD k 0) ∧
      (∀ q, (∀ k < d.length, physKey s q ≠ physKey s (loc + k)) → readByte t q = readByte s q) ∧
      ∀ q, motionAt s q = none → ¬(loc ≤ q ∧ q < loc + d.length) → readByte t q = readByte s q
    (∀ n, (withheld s loc = true → serveRead s loc n = (0, List.replicate n 0)) ∧
      (withheld s loc = false → (isPoisoned s loc = true → serveRead s loc n = (1, [])) ∧
        (isPoisoned s loc = false → farLost s loc = true → serveRead s loc n = (2, [])) ∧
        (isPoisoned s loc = false → farLost s loc = false → serveRead s loc n = (0, readBytes s loc n)))) ∧
    (∀ i m, s.net[i]? = some m → m.entry.loc = loc → mayServe s i m = true → homeOf s loc ≠ some 25 →
      let served := fun (f : State → Reply → Prop) => ∃ t r, exec (.homeRequest i) s = .next t ∧ t.net = s.net.eraseIdx i ∧
        t.replies = s.replies ++ [r] ∧ r.dst = m.src ∧ r.entry = m.entry ∧ f t r
      (∀ d line, (m.entry.body = .store d line ∨ line = false ∧ ∃ tag, m.entry.body = .mreqWrite tag d) →
        loc % 64 + d.length ≤ 64 → served fun t r =>
          (farLost s loc = true → r.status = 2 ∧ t.mem = s.mem) ∧
          (farLost s loc = false → isPoisoned s loc = true → ¬(line = true ∧ d.length = 64) → r.status = 1 ∧ t.mem = s.mem) ∧
          (farLost s loc = false → (isPoisoned s loc = false ∨ line = true ∧ d.length = 64) →
            r.status = 0 ∧ isPoisoned t loc = false ∧ put t d)) ∧
      (∀ n slot, (m.entry.body = .load n slot ∨ n = 64 ∧ ∃ tag, m.entry.body = .mreqRead tag) → served fun t r =>
        t.mem = s.mem ∧ t.poison = s.poison ∧ (withheld s loc = true → r.status = 0 ∧ r.data = List.replicate n 0) ∧
        (withheld s loc = false → (isPoisoned s loc = true → r.status = 1) ∧
          (isPoisoned s loc = false → farLost s loc = true → r.status = 2) ∧
          (isPoisoned s loc = false → farLost s loc = false → r.status = 0 ∧ r.data = readBytes s loc n)) ∧
        (m.entry.body = .load n slot → ∀ x ∈ (getCtx t m.src).loads, x.id = slot → x.served = true))) ∧
    ∀ n b cmp, (n = 4 ∨ n = 8) → loc % n = 0 → b < 256 ^ n → withheld s loc = false →
      let old := fromBytes (readBytes s loc n)
      (isPoisoned s loc = true → ∀ op, amoAt s loc n op b cmp = (1, 0, s)) ∧
      (isPoisoned s loc = false → farLost s loc = true → ∀ op, amoAt s loc n op b cmp = (2, 0, s)) ∧
      (isPoisoned s loc = false → farLost s loc = false →
        ∀ p ∈ [(0, (old + b) % 256 ^ n), (1, old &&& b), (2, old ||| b), (3, old ^^^ b), (6, min old b), (7, max old b), (8, b),
            (9, if old = cmp then b else old)],
          ∃ t, amoAt s loc n p.1 b cmp = (0, old, t) ∧ put t (toBytes n p.2))

/-- R121, R122, R115: an atomic returns the old value, zero-extended, and leaves the new one, in one step; on a poisoned line it traps
DATA_POISON and on a lost one FAR_LOST, and changes nothing there. What a full scope waits
for is log entry 21. -/
def Obligations.AtomicForms : Prop :=
  ∀ (s : State) (d a b : BitVec 5) (c st : BitVec 3), Calm [0] s →
    ∀ (old : Nat),
      let y := fun (n : Nat) => (rd s b).toNat % 256 ^ n
      let e := fun (n : Nat) => (rd s d).toNat % 256 ^ n
      let mn := fun (n : Nat) => if (BitVec.ofNat (8 * n) (y n)).slt (BitVec.ofNat (8 * n) old) then y n else old
      let mx := fun (n : Nat) => if (BitVec.ofNat (8 * n) old).slt (BitVec.ofNat (8 * n) (y n)) then y n else old
      ∀ p ∈ [(Instr.amoAddW d a b c st, 4, (old + y 4) % 256 ^ 4, 0), (.amoAndW d a b c st, 4, Nat.land old (y 4), 1),
          (.amoOrW d a b c st, 4, Nat.lor old (y 4), 2), (.amoXorW d a b c st, 4, Nat.xor old (y 4), 3),
          (.amoMinW d a b c st, 4, mn 4, 4), (.amoMaxW d a b c st, 4, mx 4, 5), (.amoMinnW d a b c st, 4, min old (y 4), 6),
          (.amoMaxnW d a b c st, 4, max old (y 4), 7), (.amoSwapW d a b c st, 4, y 4, 8),
          (.casW d a b c st, 4, if old = e 4 then y 4 else old, 9),
          (.amoAddD d a b c st, 8, (old + y 8) % 256 ^ 8, 0), (.amoAndD d a b c st, 8, Nat.land old (y 8), 1),
          (.amoOrD d a b c st, 8, Nat.lor old (y 8), 2), (.amoXorD d a b c st, 8, Nat.xor old (y 8), 3),
          (.amoMinD d a b c st, 8, mn 8, 4), (.amoMaxD d a b c st, 8, mx 8, 5), (.amoMinnD d a b c st, 8, min old (y 8), 6),
          (.amoMaxnD d a b c st, 8, max old (y 8), 7), (.amoSwapD d a b c st, 8, y 8, 8),
          (.casD d a b c st, 8, if old = e 8 then y 8 else old, 9)],
        ∀ l s1, checkAccess s s.who (rd s a) p.2.1 2 = .ok l → atomicPathOk s l.loc p.2.2.2 c.toNat = true →
          fullBlocked s s.who c = false → pageHeld s s.who l = false → boundFor s s.who l.loc (fun _ => true) = false → bankBusy s l.loc 4096 = false →
          writeWaits s l.loc = false → homeOf s l.loc ≠ some 25 → s1 = countHot l.st l.loc (coreOf s.who) l.leaf →
          (serveRead s1 l.loc p.2.1 = (0, toBytes p.2.1 old) → old < 256 ^ p.2.1 →
            ∃ u, Completes p.1 s (wr u d (BitVec.ofNat 64 old)) 4 ∧
              (p.2.2.2 ≠ 9 ∨ old = e p.2.1 → u = (serveWrite s1 l.loc (toBytes p.2.1 p.2.2.1) false).2) ∧
              (p.2.2.2 = 9 ∧ old ≠ e p.2.1 → ∀ k, readByte u k = readByte s k)) ∧
          (HasHandler s → ((serveRead s1 l.loc p.2.1).1 = 1 → TrapsFrom p.1 s s1 0x10 2 0 (vaOf s (rd s a))) ∧
            ((serveRead s1 l.loc p.2.1).1 = 2 → TrapsFrom p.1 s s1 0x11 2 0 (vaOf s (rd s a))))

/-! ### Vector blocks -/

/-- R218 to R224, R228 to R230: each pair of block registers takes its result, every source read before any write; a type
that the instruction does not take traps ILLEGAL_OPERAND. Signs of zero are log entry 40. -/
def Obligations.VectorBlocks : Prop :=
  ∀ (s : State) (d a : BitVec 6) (h w st : BitVec 3),
    let t := bits s.cur.vtype 4 0
    let z := tySize t
    let ds := blockRegs d (h.toNat + 1) (w.toNat + 1)
    let as := blockRegs a (h.toNat + 1) (w.toNat + 1)
    let el := fun (f : Nat → Nat → Nat) => zipElems z f
    let add := arith (· + ·) Machine.Num.add t
    ∀ p ∈ [(Instr.vadd d a h w st, realTy t, true, el add),
        (.vsub d a h w st, realTy t, true, el (arith (· - ·) Machine.Num.sub t)),
        (.vadds d a h w st, intTy t, true, el fun x y => wrapTo t (clampInt t (intOf t x + intOf t y))),
        (.vsubs d a h w st, intTy t, true, el fun x y => wrapTo t (clampInt t (intOf t x - intOf t y))),
        (.vmin d a h w st, realTy t, true, el (minMax false t)), (.vmax d a h w st, realTy t, true, el (minMax true t)),
        (.vabs d a h w st, realTy t, false, el fun _ x => vabsElem t x),
        (.vneg d a h w st, realTy t, false, el fun _ x => vnegElem t x),
        (.vand d a h w st, true, true, fun x y => x &&& y), (.vor d a h w st, true, true, fun x y => x ||| y),
        (.vxor d a h w st, true, true, fun x y => x ^^^ y), (.vmov d a h w st, true, false, fun _ y => y),
        (.vshl d a h w st, intTy t, true, el (shlElem t)), (.vshr d a h w st, intTy t, true, el (shrElem t)),
        (.vmul d a h w st, realTy t, true, el (arith (· * ·) Machine.Num.mul t)),
        (.cmul d a h w st, cplxTy t, true, el (cmulElem false t)), (.cmulc d a h w st, cplxTy t, true, el (cmulElem true t)),
        (.vbfly d a h w st, bflyTy t && decide (bits s.cur.vaux 10 8 < logElems z), true, bflyReg t (bits s.cur.vaux 10 8)),
        (.vperm d a h w st, permTy t && permOk s.cur, false, fun _ y => permReg s.cur y),
        (.vbcast d a h w st, permTy t && decide (bits s.cur.vaux 20 16 < 32 / z), false,
          fun _ y => mapElems z (fun _ => elemOf y z (bits s.cur.vaux 20 16)) y),
        (.vred d a h w st, realTy t && decide (bits s.cur.vaux 13 12 ≠ 3), false, fun _ y => redReg s.cur y)],
      let x : Access := ⟨as ++ (if p.2.2.1 then ds else []), ds⟩
      (p.2.1 = true → VectorReady s x → Completes p.1 s { s with
        cur := (ds.zip as).foldl (fun c q => writeV c q.1 (p.2.2.2 (readV s.cur q.1) (readV s.cur q.2))) (popAll s.cur x.reads) } 4) ∧
      (p.2.1 = false → kindOf s.who = 0 → HasHandler s → Traps p.1 s 0x02 7 0 0)

/-- R222, R225, R227 to R231: what the element functions of the vector instructions give for integers, lane by lane, in integer
arithmetic: sums, differences, products, d ± a · b and the butterfly wrap; `vadds` and `vsubs` clamp to the type's range; minimum and
maximum, magnitude and negation, and the shifts by an amount read unsigned; the conditions of `vcmp`; a conversion clamps, and draws in
mode 100 where it does (log entry 40). `vsel` merges byte lanes, `vbcast` spreads one element, `vperm` moves elements by their index
bits, and `vred` leaves one sum, minimum or maximum of all elements in element 0 and zero in the others. -/
def Obligations.IntegerLanes : Prop :=
  ∀ (t : Nat) (x y w : VReg) (j : Nat), intTy t = true → j < 32 / tySize t →
    let z := tySize t
    let e := fun (v : VReg) => elemOf v z j
    let signed := fun (t : Nat) => t = 2 ∨ t = 16 ∨ t = 17 ∨ t = 18
    let int := fun (n : Nat) => if signed t then (BitVec.ofNat (8 * z) n).toInt else (n : Int)
    let held := fun (t : Nat) (n : Int) =>
      if signed t then max (-(2 : Int) ^ (8 * tySize t - 1)) (min (2 ^ (8 * tySize t - 1) - 1) n) else max 0 (min (2 ^ (8 * tySize t) - 1) n)
    let clamp := fun (n : Int) => held t n % 2 ^ (8 * z)
    let fused := fun (sub : Bool) => e (vregOf z ((List.range (32 / z)).map fun i =>
      fmaElem sub t (elemOf w z i) (elemOf x z i) (elemOf y z i)))
    e (zipElems z (arith (· + ·) Machine.Num.add t) x y) = (e x + e y) % 256 ^ z ∧
    e (zipElems z (arith (· - ·) Machine.Num.sub t) x y) = (e x + 256 ^ z - e y) % 256 ^ z ∧
    e (zipElems z (arith (· * ·) Machine.Num.mul t) x y) = e x * e y % 256 ^ z ∧
    (e (zipElems z (fun p q => wrapTo t (clampInt t (intOf t p + intOf t q))) x y) : Int) = clamp (int (e x) + int (e y)) ∧
    (e (zipElems z (fun p q => wrapTo t (clampInt t (intOf t p - intOf t q))) x y) : Int) = clamp (int (e x) - int (e y)) ∧
    e (zipElems z (minMax false t) x y) = (if int (e x) ≤ int (e y) then e x else e y) ∧
    e (zipElems z (minMax true t) x y) = (if int (e x) ≤ int (e y) then e y else e x) ∧
    (e (zipElems z (fun _ q => vabsElem t q) x y) : Int) = |int (e y)| % 2 ^ (8 * z) ∧
    (e (zipElems z (fun _ q => vnegElem t q) x y) : Int) = -int (e y) % 2 ^ (8 * z) ∧
    e (zipElems z (shlElem t) x y) = e x * 2 ^ e y % 256 ^ z ∧
    (e (zipElems z (shrElem t) x y) : Int) = int (e x) / 2 ^ e y % 2 ^ (8 * z) ∧
    fused false = (e w + e x * e y) % 256 ^ z ∧ (fused true : Int) = (e w - e x * e y : Int) % 2 ^ (8 * z) ∧
    (∀ p ∈ [(0, decide (int (e x) = int (e y))), (1, decide (int (e x) ≠ int (e y))), (2, decide (int (e x) < int (e y))),
        (3, decide (int (e y) ≤ int (e x))), (4, decide (int (e x) ≤ int (e y))), (5, decide (int (e y) < int (e x))), (6, false)],
      condCC p.1 t (e x) (e y) = p.2) ∧
    (∀ k, 2 ^ (k + 1) ≤ 32 / z → e (bflyReg t k x y) =
      (if j / 2 ^ k % 2 = 0 then elemOf y z 0 * e x + elemOf y z 1 * elemOf x z (j + 2 ^ k)
        else elemOf y z 2 * elemOf x z (j - 2 ^ k) + elemOf y z 3 * e x) % 256 ^ z) ∧
    (∀ rm g u, convertElem t t rm (e x) g = (e x, g) ∧ (intTy u = true → u ≠ t →
      ((convertElem t u rm (e x) g).1 : Int) = held u (int (e x)) % 2 ^ (8 * tySize u) ∧
      (convertElem t u rm (e x) g).2 = if rm = 4 ∧ held u (int (e x)) ≠ int (e x) then draw g else g)) ∧
    (∀ (p : BitVec 32), ∀ k < 32, elemOf (mergeLanes p x y) 1 k = if p.getLsbD k then elemOf x 1 k else elemOf y 1 k) ∧
    (∀ l, e (mapElems z (fun _ => elemOf y z l) y) = elemOf y z l) ∧
    ∀ c : Ctx, bits c.vtype 4 0 = t →
      (∀ m, 2 ^ m = 32 / z → e (permReg c y) =
        elemOf y z ((List.range m).map fun k => j / 2 ^ k % 2 * 2 ^ (c.vaux.toNat / 2 ^ (24 + 3 * k) % 8)).sum) ∧
      (0 < j → bits c.vaux 13 12 ≠ 3 → e (redReg c y) = 0) ∧
      (j = 0 → bits c.vaux 13 12 = 0 → e (redReg c y) = ((List.range (32 / z)).map (elemOf y z)).sum % 256 ^ z) ∧
      (j = 0 → bits c.vaux 13 12 = 1 → ∃ k < 32 / z, e (redReg c y) = elemOf y z k ∧
        ∀ l < 32 / z, int (elemOf y z k) ≤ int (elemOf y z l)) ∧
      (j = 0 → bits c.vaux 13 12 = 2 → ∃ k < 32 / z, e (redReg c y) = elemOf y z k ∧
        ∀ l < 32 / z, int (elemOf y z l) ≤ int (elemOf y z k))

/-- R223 to R225, R228, R230, R231, R235, R246: what the element functions give for floating types, lane by lane. Every code of every
format decodes to the value of R235. A sum, difference, product, d ± a · b and each output of the butterfly is the nearest-even code
(`Rounding`) of a number with the exact value, and the canonical NaN where an operand is one or the operation is invalid; infinities
add and multiply as infinities. `vred` adds in ascending order, each sum rounded. Minimum and maximum rank +0 above −0; magnitude and
negation touch the sign bit alone; the conditions of `vcmp` take −0 as +0. Of complex types each part is such a number, of cint8 the
integer modulo 2^8, and a NaN part makes both parts of a product NaN. A format converted to itself changes only its NaNs. The signs of
zero results are log entry 40. -/
def Obligations.FloatLanes : Prop :=
  (∀ f ∈ floatRows, ∀ c, c < 2 ^ (1 + f.E + f.M) → ((numOf f.t c).isNan = true ↔ f.nan c) ∧
    (∀ s, numOf f.t c = .inf s ↔ f.inf c ∧ s = f.neg c) ∧
    (f.fin c → (numOf f.t c).isFin = true ∧ (numOf f.t c).val = f.val c ∧ (numOf f.t c).isNeg = f.neg c) ∧
    ∀ rm g, (f.nan c → convertElem f.t f.t rm c g = (f.canonical, g)) ∧ (¬f.nan c → convertElem f.t f.t rm c g = (c, g))) ∧
  (∀ f ∈ floatRows, 9 ≤ f.t → ∀ (x y w : VReg), ∀ j < 32 / tySize f.t,
    let t := f.t
    let z := tySize t
    let e := fun (v : VReg) => elemOf v z j
    let infinity := fun (s : Bool) => (if s then 2 ^ (f.E + f.M) else 0) + f.top + 1
    let is := fun (c : Nat) (q : ℚ) => ∃ n : Machine.Num, n.isFin = true ∧ n.val = q ∧ c = roundNE t n
    let sum := e (zipElems z (arith (· + ·) Machine.Num.add t) x y)
    let diff := e (zipElems z (arith (· - ·) Machine.Num.sub t) x y)
    let prod := e (zipElems z (arith (· * ·) Machine.Num.mul t) x y)
    let fused := fun (sub : Bool) => e (vregOf z ((List.range (32 / z)).map fun i =>
      fmaElem sub t (elemOf w z i) (elemOf x z i) (elemOf y z i)))
    let fin := fun (v : VReg) => f.fin (e v)
    let level := fun (c : Nat) => if f.neg c then -(f.mag c : ℤ) else f.mag c
    let nans := f.nan (e x) ∨ f.nan (e y)
    (fin x → fin y → is sum (f.val (e x) + f.val (e y)) ∧ is diff (f.val (e x) - f.val (e y)) ∧ is prod (f.val (e x) * f.val (e y)) ∧
      (fin w → is (fused false) (f.val (e w) + f.val (e x) * f.val (e y)) ∧
        is (fused true) (f.val (e w) - f.val (e x) * f.val (e y)))) ∧
    ((nans ∨ f.inf (e x) ∧ f.inf (e y) ∧ f.neg (e x) ≠ f.neg (e y)) → sum = f.canonical) ∧
    ((nans ∨ f.inf (e x) ∧ f.inf (e y) ∧ f.neg (e x) = f.neg (e y)) → diff = f.canonical) ∧
    ((nans ∨ f.inf (e x) ∧ f.mag (e y) = 0 ∨ f.mag (e x) = 0 ∧ f.inf (e y)) → prod = f.canonical ∧ ∀ s, fused s = f.canonical) ∧
    (f.nan (e w) → ∀ s, fused s = f.canonical) ∧
    (f.inf (e x) → (fin y → sum = e x ∧ diff = e x) ∧ (f.inf (e y) → (f.neg (e x) = f.neg (e y) → sum = e x) ∧
      (f.neg (e x) ≠ f.neg (e y) → diff = e x))) ∧
    (fin x → f.inf (e y) → sum = e y ∧ diff = infinity (!f.neg (e y))) ∧
    ((f.inf (e x) ∨ f.inf (e y)) → ¬nans → f.mag (e x) ≠ 0 → f.mag (e y) ≠ 0 → prod = infinity (f.neg (e x) != f.neg (e y)) ∧
      ∀ s, let p := (f.neg (e x) != f.neg (e y)) != s
        (fin w → fused s = infinity p) ∧ (f.inf (e w) → fused s = if f.neg (e w) = p then e w else f.canonical)) ∧
    (f.inf (e w) → fin x → fin y → ∀ s, fused s = e w) ∧
    (∀ isMax, e (zipElems z (minMax isMax t) x y) = if f.nan (e x) ∨ f.nan (e y) then f.canonical
      else if (f.rank (e x) ≤ f.rank (e y) ↔ isMax = false) then e x else e y) ∧
    e (zipElems z (fun _ q => vabsElem t q) x y) = f.mag (e y) ∧
    e (zipElems z (fun _ q => vnegElem t q) x y) = (e y + 2 ^ (f.E + f.M)) % 2 ^ (1 + f.E + f.M) ∧
    (∀ p ∈ [(0, decide (level (e x) = level (e y)), false), (1, decide (level (e x) ≠ level (e y)), true),
        (2, decide (level (e x) < level (e y)), false), (3, decide (level (e y) ≤ level (e x)), false),
        (4, decide (level (e x) ≤ level (e y)), false), (5, decide (level (e y) < level (e x)), false), (6, false, true)],
      (nans → condCC p.1 t (e x) (e y) = p.2.2) ∧ (¬nans → condCC p.1 t (e x) (e y) = p.2.1)) ∧
    (∀ k, 2 ^ (k + 1) ≤ 32 / z → (∀ i < 4, f.fin (elemOf y z i)) →
      (j / 2 ^ k % 2 = 0 → fin x → f.fin (elemOf x z (j + 2 ^ k)) → is (e (bflyReg t k x y))
        (f.val (elemOf y z 0) * f.val (e x) + f.val (elemOf y z 1) * f.val (elemOf x z (j + 2 ^ k)))) ∧
      (j / 2 ^ k % 2 = 1 → fin x → f.fin (elemOf x z (j - 2 ^ k)) → is (e (bflyReg t k x y))
        (f.val (elemOf y z 2) * f.val (elemOf x z (j - 2 ^ k)) + f.val (elemOf y z 3) * f.val (e x)))) ∧
    ∀ c : Ctx, bits c.vtype 4 0 = t → bits c.vaux 13 12 = 0 →
      e (redReg c y) = if j = 0 then (List.range (32 / z - 1)).foldl (fun acc k =>
        arith (· + ·) Machine.Num.add t acc (elemOf y z (k + 1))) (elemOf y z 0) else 0) ∧
  ∀ p ∈ [(12, 16), (13, 16), (14, 32), (15, 8)], ∀ (d a b : Nat), d < 2 ^ (2 * p.2) → a < 2 ^ (2 * p.2) → b < 2 ^ (2 * p.2) →
    let t := p.1
    let n := 2 ^ p.2
    ∀ f ∈ floatRows, (t = 15 ∨ f.t = t - 3) →
    let fin := fun (c : Nat) => t = 15 ∨ f.fin (c % n) ∧ f.fin (c / n)
    let re := fun (c : Nat) => if t = 15 then ((BitVec.ofNat 8 c).toInt : ℚ) else f.val (c % n)
    let im := fun (c : Nat) => if t = 15 then ((BitVec.ofNat 8 (c / n)).toInt : ℚ) else f.val (c / n)
    let is := fun (c : Nat) (q : ℚ) => if t = 15 then ∃ k : ℤ, (k : ℚ) = q ∧ (c : ℤ) = k % 256
      else ∃ m : Machine.Num, m.isFin = true ∧ m.val = q ∧ c = roundNE f.t m
    let both := fun (c : Nat) (q r : ℚ) => is (c % n) q ∧ is (c / n) r
    let bad := fun (c : Nat) => t ≠ 15 ∧ (f.nan (c % n) ∨ f.nan (c / n))
    let nan := f.canonical + n * f.canonical
    (fin d → fin a → both (cmulElem false t d a) (re d * re a - im d * im a) (re d * im a + im d * re a) ∧
      both (cmulElem true t d a) (re d * re a + im d * im a) (im d * re a - re d * im a) ∧
      (fin b → both (cfmaElem false t d a b) (re d + (re a * re b - im a * im b)) (im d + (re a * im b + im a * re b)) ∧
        both (cfmaElem true t d a b) (re d + (re a * re b + im a * im b)) (im d + (im a * re b - re a * im b)) ∧
        ∀ c, c < 2 ^ (2 * p.2) → fin c → both (twoTerm t d a b c)
          (re d * re a - im d * im a + (re b * re c - im b * im c)) (re d * im a + im d * re a + (re b * im c + im b * re c)))) ∧
    ((bad d ∨ bad a) → ∀ s, cmulElem s t d a = nan ∧ cfmaElem s t b d a = nan)

/-- R243, R244, R246: the one conversion of an exact value to a format, in every mode. A floating result keeps the sign of the value.
Nearest even gives a nearest finite code, on a tie the even one, and an infinity from half an ulp beyond the largest on, where the format
has infinities; toward zero the largest magnitude that is not above; toward +∞ and −∞ the nearest on that side; stochastic rounding
weighs the draw r against the place between the two neighbours, and takes a draw exactly for values without a code. An integer result is
the integer of the mode, clamped; and NaN and infinities have their codes. -/
def Obligations.Rounding : Prop :=
  (∀ f ∈ floatRows, ∀ (neg : Bool) (m : Nat) (x : Int) (r : Nat),
    let q := (Machine.Num.fin neg m x).val
    let sign := if neg then 2 ^ (f.E + f.M) else 0
    let largest := f.val f.top
    let beyond := largest + (largest - f.val (f.top - 1)) / 2
    let out := if f.t < 8 then f.top else f.top + 1
    let code := fun (rm : Nat) => (encodeF (fmtOf f.t) rm (.fin neg m x) r).1
    let low := code 1
    (∀ rm < 5, f.neg (code rm) = neg) ∧
    ((|q| < beyond ∨ f.t < 8) → f.fin (code 0) ∧ ∀ c, f.fin c → |f.val (code 0) - q| ≤ |f.val c - q| ∧
      (f.val c ≠ f.val (code 0) → |f.val (code 0) - q| = |f.val c - q| → code 0 % 2 = 0)) ∧
    (8 ≤ f.t → beyond ≤ |q| → code 0 = sign + f.top + 1) ∧
    (f.fin low ∧ |f.val low| ≤ |q| ∧ ∀ c, f.fin c → |f.val c| ≤ |q| → |f.val c| ≤ |f.val low|) ∧
    (q ≤ largest → f.fin (code 2) ∧ q ≤ f.val (code 2) ∧ ∀ c, f.fin c → q ≤ f.val c → f.val (code 2) ≤ f.val c) ∧
    (largest < q → code 2 = out) ∧
    (-largest ≤ q → f.fin (code 3) ∧ f.val (code 3) ≤ q ∧ ∀ c, f.fin c → f.val c ≤ q → f.val c ≤ f.val (code 3)) ∧
    (q < -largest → code 3 = sign + out) ∧
    (largest < |q| → code 4 = sign + out) ∧
    (|q| ≤ largest → code 4 = if f.val low ≠ q ∧ (r : ℚ) * (|f.val (low + 1)| - |f.val low|) ≤ (|q| - |f.val low|) * 65536 then low + 1
      else low) ∧
    ((encodeF (fmtOf f.t) 4 (.fin neg m x) r).2 = false ↔ ∃ c, f.fin c ∧ f.val c = q)) ∧
  (∀ f ∈ floatRows, ∀ rm r, (encodeF (fmtOf f.t) rm .nan r).1 = f.canonical ∧
    ∀ neg, (encodeF (fmtOf f.t) rm (.inf neg) r).1 = (if neg then 2 ^ (f.E + f.M) else 0) + if f.t < 8 then f.top else f.top + 1) ∧
  ∀ p ∈ [(0, true, 4), (2, true, 8), (3, false, 8), (16, true, 16), (17, true, 32), (18, true, 64), (19, false, 16), (20, false, 32),
      (21, false, 64)], ∀ (neg : Bool) (m : Nat) (x : Int) (r : Nat),
    let w := p.2.2
    let q := (Machine.Num.fin neg m x).val
    let low := if p.2.1 then -(2 : ℤ) ^ (w - 1) else 0
    let high := if p.2.1 then (2 : ℤ) ^ (w - 1) - 1 else 2 ^ w - 1
    let held := fun (k : ℤ) => max low (min high k) % 2 ^ w
    let code := fun (rm : Nat) => ((encodeI p.1 rm (.fin neg m x) r).1 : ℤ)
    let a := ⌊|q|⌋
    (∃ k : ℤ, |(k : ℚ) - q| ≤ 1 / 2 ∧ (|(k : ℚ) - q| = 1 / 2 → k % 2 = 0) ∧ code 0 = held k) ∧
    code 1 = held (if neg then -a else a) ∧ code 2 = held ⌈q⌉ ∧ code 3 = held ⌊q⌋ ∧
    (let k := if (a : ℚ) ≠ |q| ∧ (r : ℚ) ≤ (|q| - a) * 65536 then a + 1 else a
     code 4 = held (if neg then -k else k)) ∧
    ((encodeI p.1 4 (.fin neg m x) r).2 = false ↔ ∃ k : ℤ, low ≤ k ∧ k ≤ high ∧ (k : ℚ) = q) ∧
    ∀ rm, (encodeI p.1 rm .nan r).1 = 0 ∧ ∀ s, ((encodeI p.1 rm (.inf s) r).1 : ℤ) = held (if s then low else high)

/-- R225, R219: `vcmp` sets bit i of its predicate where the condition holds for the element that byte lane i belongs to; CC 111 is
refused. -/
def Obligations.VectorCompare : Prop :=
  ∀ (s : State) (d a : BitVec 6) (h w st : BitVec 3),
    let t := bits s.cur.vtype 4 0
    let z := tySize t
    let p0 := bits s.cur.vaux 2 0
    let n := (h.toNat + 1) * (w.toNat + 1)
    let ds := blockRegs d (h.toNat + 1) (w.toNat + 1)
    let as := blockRegs a (h.toNat + 1) (w.toNat + 1)
    (realTy t = true → bits s.cur.vaux 6 4 ≠ 7 → p0 + n ≤ 8 → VectorReady s ⟨as ++ ds, []⟩ → ∃ u, Completes (.vcmp d a h w st) s u 4 ∧
      u.cur.vregs = s.cur.vregs ∧ u.cur.regs = s.cur.regs ∧
      ∀ k < n, p0 + k ≠ 0 → ∀ i < 32, (u.cur.pr (BitVec.ofNat 3 (p0 + k))).getLsbD i =
        condCC (bits s.cur.vaux 6 4) t (elemOf (readV s.cur (blockReg d (w.toNat + 1) k)) z (i / z))
          (elemOf (readV s.cur (blockReg a (w.toNat + 1) k)) z (i / z))) ∧
    ((realTy t = false ∨ bits s.cur.vaux 6 4 = 7 ∨ 8 < p0 + n) → kindOf s.who = 0 → HasHandler s → Traps (.vcmp d a h w st) s 0x02 7 0 0)

/-- R225, R227, R220: `vsel` merges by predicate lanes; `vcvt` converts every element, in ascending order, and advances `VRAND` in
mode 100 only (that each element takes a draw is the model's choice, log entry 40). A `vsel` that would read a predicate above p7, and a
`vcvt` of types that it does not take or of a complex and a real one, trap ILLEGAL_OPERAND. -/
def Obligations.VectorSelectConvert : Prop :=
  ∀ (s : State) (d a : BitVec 6) (h w st : BitVec 3),
    let p0 := bits s.cur.vaux 2 0
    let n := (h.toNat + 1) * (w.toNat + 1)
    let ds := blockRegs d (h.toNat + 1) (w.toNat + 1)
    let as := blockRegs a (h.toNat + 1) (w.toNat + 1)
    let src := bits s.cur.vtype 9 5
    let dst := bits s.cur.vtype 4 0
    let rm := bits s.cur.vtype 12 10
    let cnt := n * 32 / max (tySize src) (tySize dst)
    let as' := as.take ((cnt * tySize src + 31) / 32)
    let ds' := ds.take ((cnt * tySize dst + 31) / 32)
    let r := cvtAll src dst rm ((as'.flatMap fun v => elems (tySize src) (readV s.cur v)).take cnt) (bits s.cur.vrand 15 0)
    (p0 + n ≤ 8 → VectorReady s ⟨as ++ ds, ds⟩ → ∃ u, Completes (.vsel d a h w st) s u 4 ∧
      u.cur = ((List.range n).map fun k => (blockReg d (w.toNat + 1) k, blockReg a (w.toNat + 1) k, k)).foldl (fun c q =>
        writeV c q.1 (mergeLanes (s.cur.pr (BitVec.ofNat 3 (p0 + q.2.2))) (readV s.cur q.2.1) (readV s.cur q.1)))
        (popAll s.cur (as ++ ds))) ∧
    (cvtOk src dst = true → VectorReady s ⟨as', ds'⟩ → ∃ u, Completes (.vcvt d a h w st) s u 4 ∧
      u.cur.regs = s.cur.regs ∧ u.cur.preds = s.cur.preds ∧
      u.cur.vrand = (if rm = 4 then BitVec.ofNat 64 r.2 else s.cur.vrand) ∧
      u.cur.vregs = ((ds'.zip (runsOf (32 / tySize dst) ds'.length r.1)).foldl (fun c q => writeV c q.1 (vregOf (tySize dst) q.2))
        (popAll s.cur as')).vregs) ∧
    (kindOf s.who = 0 → HasHandler s → (8 < p0 + n → Traps (.vsel d a h w st) s 0x02 7 0 0) ∧
      (¬((permTy src = true ∧ permTy dst = true) ∧ (cplxTy src = true ↔ cplxTy dst = true)) → Traps (.vcvt d a h w st) s 0x02 7 0 0))

/-- R231: fused forms: d + a · b, with one register b for the whole block. -/
def Obligations.VectorFused : Prop :=
  ∀ (s : State) (d a b : BitVec 6) (w h : BitVec 2) (st : BitVec 3),
    let t := bits s.cur.vtype 4 0
    let z := tySize t
    let ds := blockRegs d (2 ^ h.toNat) (2 ^ w.toNat)
    let as := blockRegs a (2 ^ h.toNat) (2 ^ w.toNat)
    let x : Access := ⟨as ++ [b] ++ ds, ds⟩
    ∀ p ∈ [(Instr.vfma d a b w h st, realTy t, fmaElem false t), (.vfms d a b w h st, realTy t, fmaElem true t),
        (.cfma d a b w h st, cplxTy t, cfmaElem false t), (.cfmac d a b w h st, cplxTy t, cfmaElem true t)],
      (p.2.1 = true → VectorReady s x → Completes p.1 s { s with
        cur := (ds.zip as).foldl (fun c q => writeV c q.1 (vregOf z ((List.range (32 / z)).map fun i =>
          p.2.2 (elemOf (readV s.cur q.1) z i) (elemOf (readV s.cur q.2) z i) (elemOf (readV s.cur b) z i))))
          (popAll s.cur x.reads) } 4) ∧
      (p.2.1 = false → kindOf s.who = 0 → HasHandler s → Traps p.1 s 0x02 7 0 0)

/-- R226, R201, R203: predicate logic. A write to p0, or to s0, is discarded, and every step keeps s0 of every context reading 0 and p0
reading all ones. That predicate logic completes while the vector datapath is busy (R233), since it names no block, is the model's
choice (log entry 63). -/
def Obligations.PredicateForms : Prop :=
  (∀ (s : State) (d a st : BitVec 3), Calm [0] s →
    ∀ p ∈ [(Instr.pand d a st, s.cur.pr d &&& s.cur.pr a), (.por d a st, s.cur.pr d ||| s.cur.pr a), (.pnot d a st, ~~~s.cur.pr a)],
      Completes p.1 s { s with cur := s.cur.pw d p.2 } 4 ∧ (d = 0 → Completes p.1 s s 4)) ∧
  (∀ (c : Ctx) (x : Word) (m : BitVec 32), c.wr 0 x = c ∧ c.pw 0 m = c) ∧
  ∀ (s t : State), step s = .next t → ∀ k, HardWired (getCtx t k)

/-- R119: `vld` and `vst` move a block 32 bytes a register from the base upwards; `vldx` and `vstx` use one address per lane.
A load stops at the first of its addresses whose line is poisoned (DATA_POISON) or lost (FAR_LOST) and writes no register (R115).
A store enters the buffer, which has room for it, and leaves memory unchanged; with the buffer full, or while an earlier access to
one of its pages is under way by another translation (R327), it waits. That all entries of a store enter in one step is the
model's choice (log entry 20). -/
def Obligations.VectorMemory : Prop :=
  ∀ (s : State) (c d i : BitVec 6) (b : BitVec 5) (h w st : BitVec 3) (f : BitVec 1) (z : BitVec 2),
    let rs := blockRegs c (h.toNat + 1) (w.toNat + 1)
    let eas := (List.range rs.length).map fun k => rd s b + BitVec.ofNat 64 (32 * k)
    let n := 2 ^ z.toNat
    let lanes := (elems n (readV s.cur i)).map fun x => rd s b + BitVec.ofInt 64 (signed (8 * n) x * n)
    (∀ ls s1 vs s2, VectorReady s ⟨[], rs⟩ → landAll s 32 0 eas = .ok (ls, s1) → loadAll s1 32 ls = .vals vs s2 →
      Completes (.vld c b h w st) s { s2 with
        cur := (rs.zip vs).foldl (fun x q => writeV x q.1 (BitVec.ofNat 256 (fromBytes q.2))) s2.cur } 4) ∧
    (HasHandler s → ∀ p ∈ [(Instr.vld c b h w st, 32, eas, (⟨[], rs⟩ : Access)), (.vldx d b i z st, n, lanes, ⟨[i], [d]⟩)],
      VectorReady s p.2.2.2 → ∀ ls s1 j e l vs s2, landAll s p.2.1 0 p.2.2.1 = .ok (ls, s1) → ls[j]? = some (e, l) →
        loadAll s1 p.2.1 (ls.take j) = .vals vs s2 →
        let s3 := countHot s2 l.loc (coreOf s.who) l.leaf
        (HomeAnswers s3 l p.2.1 1 → TrapsFrom p.1 s s3 0x10 0 0 (vaOf s e)) ∧
        (HomeAnswers s3 l p.2.1 2 → TrapsFrom p.1 s s3 0x11 0 0 (vaOf s e))) ∧
    (∀ ls s1, VectorReady s ⟨rs, []⟩ → landAll s 32 1 eas = .ok (ls, s1) → s.cur.buf.length < 16 →
      (∀ p ∈ ls, pageHeld s s.who p.2 = false) → ∃ u, Completes (.vst c b h w f st) s u 4 ∧ u.cur.regs = s.cur.regs ∧ u.cur.vregs = s.cur.vregs ∧
        (∀ k, readByte u k = readByte s k) ∧ ∃ es, u.cur.buf = s.cur.buf ++ es ∧ es.map (·.loc) = ls.map (·.2.loc) ∧
        es.map (fun e => entryBytes e) = rs.map fun r => toBytes 32 (readV s.cur r).toNat) ∧
    (∀ ls s1, VectorReady s ⟨rs, []⟩ → landAll s 32 1 eas = .ok (ls, s1) →
      (16 ≤ s.cur.buf.length ∨ ∃ p ∈ ls, pageHeld s s.who p.2 = true) → Stalls (.vst c b h w f st) s) ∧
    (∀ ls s1, VectorReady s ⟨[d, i], []⟩ → landAll s n 1 lanes = .ok (ls, s1) →
      (16 ≤ s.cur.buf.length ∨ ∃ p ∈ ls, pageHeld s s.who p.2 = true) → Stalls (.vstx d b i z f st) s) ∧
    (∀ ls s1 vs s2, VectorReady s ⟨[i], [d]⟩ → landAll s n 0 lanes = .ok (ls, s1) → loadAll s1 n ls = .vals vs s2 →
      Completes (.vldx d b i z st) s { s2 with cur := writeV (popAll s2.cur [i]) d (vregOf n (vs.map fromBytes)) } 4) ∧
    (∀ ls s1, VectorReady s ⟨[d, i], []⟩ → landAll s n 1 lanes = .ok (ls, s1) → s.cur.buf.length < 16 →
      (∀ p ∈ ls, pageHeld s s.who p.2 = false) → ∃ u, Completes (.vstx d b i z f st) s u 4 ∧ u.cur.regs = s.cur.regs ∧ u.cur.vregs = s.cur.vregs ∧
        (∀ k, readByte u k = readByte s k) ∧ ∃ es, u.cur.buf = s.cur.buf ++ es ∧ es.map (·.loc) = ls.map (·.2.loc) ∧
        es.map (fun e => entryBytes e) = (elems n (readV s.cur d)).map fun x => toBytes n x)

/-! ### Control registers, traps, fences and waits -/

/-- R350, R351: a read writes the register's value to r; for the registers named these are the values by number. R164, R168, R257,
R269, R140: reads of `CPYDONE`, `AXDONE` and `PATHDONE`; with an error recorded the first two raise it, COPY_POISON or AXIS_POISON for
cause 001 and COPY_FAULT or AXIS_FAULT for another. That a recorded error traps whatever its SEQ is log entry 36. -/
def Obligations.CsrReads : Prop :=
  (∀ (s : State) (r : BitVec 5) (n : BitVec 12) (st : BitVec 3),
    (Calm (if n = 0x0F0 ∨ n = 0x0F1 then [0, 1, 2, 3] else [0]) s → readTrap s n.toNat = none →
      Completes (.csrr r n st) s (wr s r (csrVal s n.toNat)) 4) ∧
    ∀ p ∈ [(0x040, s.cur.cause), (0x041, s.cur.epc), (0x042, s.cur.faultva), (0x043, s.cur.faultvah), (0x044, s.cur.tvec),
        (0x045, s.cur.tscratch), (0x046, s.cur.tstatus), (0x080, s.cur.vtype), (0x081, s.cur.issuectl),
        (0x082, BitVec.ofNat 64 (coreOf s.who + s.who % 2 * 2 ^ 14)), (0x083, s.cur.vaux), (0x084, s.cur.lpaddr0),
        (0x085, s.cur.lpaddr1), (0x086, s.cur.lpctl0), (0x087, s.cur.lpctl1), (0x088, 0xFFFFFFFF), (0x090, s.cur.vrand),
        (0x0C0, s.cur.mrstat), (0x0C1, s.dev.motionctl), (0x0C2, s.dev.mfree), (0x0C3, s.dev.mrec), (0x0C4, s.cur.sterr),
        (0x0C5, s.dev.mrecptr), (0x0C8, s.cur.vabase), (0x0C9, s.cur.troot), (0x0CA, s.cur.stpath), (0x0D1, s.cur.pathdone[1]),
        (0x0DF, (getTile s (tileOf s.who)).slwin[7]), (0x0E2, (myCore s).cpydone[2]), (0x0E7, (myCore s).cpyerr[3]),
        (0x0E8, (myCore s).axdone), (0x0E9, (myCore s).axerr), (0x10F, s.dev.lqbase[15]), (0x110, s.dev.lqtail[0]),
        (0x12F, s.dev.lqhead[15]), (0x130, BitVec.ofNat 64 s.stamp), (0x131, s.dev.gxcfg), (0x132, s.dev.gxrt),
        (0x133, (getTile s (tileOf s.who)).slown), (0x134, s.dev.mtab), (0x135, s.dev.evring), (0x136, s.dev.evptr),
        (0x14F, s.dev.gxlink[15]), (0x150, s.dev.pwrcap), (0x151, s.dev.pwrstat), (0x152, s.dev.secst)],
      csrVal s p.1 = p.2) ∧
  ∀ (s : State) (ch p : BitVec 2) (r : BitVec 5) (st : BitVec 3), Calm [0] s →
    let e := (myCore s).cpyerr[ch.toNat]
    let x := (myCore s).axerr
    (bits e 63 63 = 0 → Completes (.cpydoneRead ch r st) s (wr s r (myCore s).cpydone[ch.toNat]) 4) ∧
    (bits e 63 63 = 1 → HasHandler s →
      Traps (.cpydoneRead ch r st) s (if bits e 61 59 = 1 then 0x18 else 0x19) 7 ch.toNat 0) ∧
    (bits x 63 63 = 0 → Completes (.axdoneRead r st) s (wr s r (myCore s).axdone) 4) ∧
    (bits x 63 63 = 1 → HasHandler s → Traps (.axdoneRead r st) s (if bits x 61 59 = 1 then 0x1A else 0x1B) 7 0 0) ∧
    Completes (.pathdoneRead p r st) s (wr s r s.cur.pathdone[p.toNat]) 4

/-- R350, R352: a write that may change a field of its register, and that the register's own check allows, merges the new
value under the register's masks; one that may change none traps CSR_ACCESS. The table's rows for single registers are such
writes. What some registers then hold is said bit by bit: reserved and read-only bits keep their value. What a clear leaves
beside VALID, and that the rows for single registers are forms of `csrw`, are log entries 36 and 61. -/
def Obligations.CsrWrites : Prop :=
  ∀ (s : State) (r : BitVec 5) (m : BitVec 12) (ch : BitVec 2) (w : BitVec 3) (l : BitVec 1) (st : BitVec 3), Calm [0] s →
    (∀ p ∈ [(Instr.csrw r m st, 1, m.toNat), (.csrs r m st, 2, m.toNat), (.csrc r m st, 3, m.toNat), (.sterrClear r st, 1, 0x0C4),
        (.cpyerrClear ch r st, 1, 0x0E4 + ch.toNat), (.axerrClear r st, 1, 0x0E9), (.teamerrClear r st, 1, 0x0F2),
        (.slwinWrite w r st, 1, 0x0D8 + w.toNat), (.stpathWrite r st, 1, 0x0CA), (.vtypeWrite r st, 1, 0x080),
        (.vauxWrite r st, 1, 0x083), (.lpctlWrite l r st, 1, 0x086 + l.toNat), (.vrandWrite r st, 1, 0x090),
        (.motionctlWrite r st, 1, 0x0C1), (.mrecptrWrite r st, 1, 0x0C5), (.evptrWrite r st, 1, 0x136)],
      let n := p.2.2
      let x := csrVal s n
      let new := if p.2.1 = 1 then rd s r else if p.2.1 = 2 then x ||| rd s r else x &&& ~~~(rd s r)
      let v := mergeCsr n x new (decide (p.2.1 ≠ 2))
      (mayWrite (isSys s s.who) n = true → ownCheck s n v = none →
        Completes p.1 s (if ignoredWrite s n v then s else csrPut s n v) 4) ∧
      (mayWrite (isSys s s.who) n = false → HasHandler s → Traps p.1 s 0x05 7 0 0) ∧
      (mayWrite (isSys s s.who) n = true → ∀ t, ownCheck s n v = some t → HasHandler s → Traps p.1 s t.code 7 0 0)) ∧
    let keep := fun (mask old : Word) => (old &&& ~~~mask) ||| (rd s r &&& mask)
    ∀ p ∈ [(0x041#12, fun (c : Ctx) => c.epc, 0xFFFFFFFFFFFFFFFE#64), (0x042, fun c => c.faultva, 0xFFFFFFFFFFFFFFFF),
        (0x043, fun c => c.faultvah, 0xFFFF), (0x044, fun c => c.tvec, 0xFFFFFFFFFFFFFFFE),
        (0x045, fun c => c.tscratch, 0xFFFFFFFFFFFFFFFF), (0x046, fun c => c.tstatus, 5), (0x081, fun c => c.issuectl, 1),
        (0x0C8, fun c => c.vabase, 0xFFFF)],
      ∃ u, Completes (.csrw r p.1 st) s u 4 ∧ p.2.1 u.cur = keep p.2.2 (p.2.1 s.cur) ∧ u.cur.regs = s.cur.regs ∧ u.mem = s.mem

/-- R308, R328, R363, R377, R379, R380: writes of the launch-queue registers and of `PWRCAP` from the host's side, with nothing of
the host's waiting before them; one that the manual ignores changes no register, nor does one in P3, P4 or recovery. That these
rows are writes from the host's side, and what the host gets in `hostOut`, are log entries 61 and 55. -/
def Obligations.HostRegisterWrites : Prop :=
  ∀ (s : State) (q : Nat) (v : Word), (h : q < 16) → s.posted = [] → s.hostWaits = [] →
    (∀ i ∈ [Instr.lqbaseWrite q v, .lqtailWrite q v, .lqheadWrite q v, .pwrcapWrite v],
      (s.pstate = 4 → exec i s = .next s) ∧
      (s.pstate ≠ 4 → (s.pstate = 3 ∨ s.recovering = true) → exec i s = .next { s with hostOut := (1, []) })) ∧
    (s.pstate ≠ 3 → s.pstate ≠ 4 → s.recovering = false →
    let same := { s with hostOut := (0, []) }
    (∃ t, exec (.lqbaseWrite q v) s = .next t ∧
      ((bits v 4 0 ≤ 20 ∧ (bits s.dev.lqtail[q] 31 0 + 2 ^ 32 - bits s.dev.lqhead[q] 31 0) % 2 ^ 32 ≤ 2 ^ bits v 4 0) →
        t = { same with dev := { s.dev with lqbase := s.dev.lqbase.set q ((s.dev.lqbase[q] &&& ~~~0xFFFFFFFFFFF9F#64) ||| (v &&& 0xFFFFFFFFFFF9F#64)) } }) ∧
      (20 < bits v 4 0 → t = same)) ∧
    (∃ t, exec (.lqtailWrite q v) s = .next t ∧
      ((bits v 31 0 + 2 ^ 32 - bits s.dev.lqhead[q] 31 0) % 2 ^ 32 ≤ 2 ^ bits s.dev.lqbase[q] 4 0 →
        bits t.dev.lqtail[q] 31 0 = bits v 31 0) ∧
      ((bits v 31 0 + 2 ^ 32 - bits s.dev.lqhead[q] 31 0) % 2 ^ 32 > 2 ^ bits s.dev.lqbase[q] 4 0 → t = same)) ∧
    (∃ t, exec (.lqheadWrite q v) s = .next t ∧ bits t.dev.lqhead[q] 63 63 = 0 ∧
      bits t.dev.lqhead[q] 31 0 = bits s.dev.lqhead[q] 31 0) ∧
    (∃ t, exec (.pwrcapWrite v) s = .next t ∧
      (1200 ≤ bits v 11 0 ∧ bits v 11 0 ≤ 3600 → bits t.dev.pwrcap 11 0 = bits v 11 0) ∧
      (bits v 11 0 < 1200 ∨ 3600 < bits v 11 0 → t = same)))

/-- R347, R348, R349: `trap` saves the pc, the cause with INFO k and sets INTRAP; `eret` returns to EPC and clears INTRAP. A trap
inside a handler, or without one, enters no handler: it ends the fault domain of its region with DOUBLE_TRAP or its own cause. -/
def Obligations.TrapAndReturn : Prop :=
  ∀ (s : State) (k : BitVec 6) (st : BitVec 3), Calm [0] s →
    (HasHandler s → exec (.trap k st) s = .next { s with cur := { s.cur with
      epc := s.cur.pc
      cause := BitVec.ofNat 64 (0x06 + 7 * 2 ^ 8 + k.toNat * 2 ^ 16)
      faultva := 0
      faultvah := 0
      tstatus := setBits s.cur.tstatus 0 0 1
      span := 0
      board := []
      hostGot := []
      codeAt := []
      wait := .ready
      pc := s.cur.tvec } }) ∧
    exec (.eret st) s = .next { s with cur := { s.cur with
      pc := s.cur.epc
      tstatus := setBits s.cur.tstatus 0 0 0
      span := 0
      board := []
      hostGot := []
      codeAt := []
      busyTill := cycleNow s + 1 + st.toNat
      wait := .ready } } ∧
    ((s.cur.tvec = 0 ∨ bits s.cur.tstatus 0 0 = 1) → isEngine s.who = false → ∀ rcb n, regionOf s (coreOf s.who) = some (rcb, n) →
      exec (.trap k st) s = .next (endDomain { s with cur := { s.cur with
        run := .idle
        wait := .ready
        span := 0
        board := [] } } rcb (if bits s.cur.tstatus 0 0 = 1 then 0x31 else 0x06)))

/-- R217, R345: with checking on, a consumer that reads or writes a register whose producer is too near traps STALL_SHORT before any
effect; while an earlier load has not taken effect it waits for that; with checking off it waits for the producer. Said of one
instruction or more of every kind that uses scalar registers, as an operand, a result, a base, a condition, a count or a run of
registers; of the blocks, fused forms and memory forms of vector registers; and of those that use predicates. That `hand` is a consumer
of both its registers in every member, whatever roles the member holds, is the model's choice (log entry 63), and so is the place of
this check among others (log entry 19). -/
def Obligations.StallShort : Prop :=
  ∀ (s : State) (d a b : BitVec 5) (u v y : BitVec 6) (p q n : BitVec 3) (x f : BitVec 1) (z w2 h2 : BitVec 2) (i : BitVec 12)
      (o : BitVec 9) (g : BitVec 17) (c h w st : BitVec 3), kindOf s.who = 0 → HasHandler s →
    let S := fun (r : BitVec 5) => ((0 : Nat), r.toNat)
    let V := fun (l : List (BitVec 6)) => l.map fun r => ((1 : Nat), r.toNat)
    let run := fun (r : BitVec 5) (k : Nat) => (List.range k).map fun j => ((0 : Nat), r.toNat + j)
    let us := blockRegs u (h.toNat + 1) (w.toNat + 1)
    let vs := blockRegs v (h.toNat + 1) (w.toNat + 1)
    let us2 := blockRegs u (2 ^ h2.toNat) (2 ^ w2.toNat)
    let vs2 := blockRegs v (2 ^ h2.toNat) (2 ^ w2.toNat)
    let t := bits s.cur.vtype 4 0
    let p0 := bits s.cur.vaux 2 0
    let m := (h.toNat + 1) * (w.toNat + 1)
    let ps := (List.range m).map fun k => ((2 : Nat), p0 + k)
    let flows := fun (rs ws : List (BitVec 6)) => wrongWay s.cur ⟨rs, ws⟩ = false
    ∀ r ∈ [(Instr.add d a b st, True, [S d, S a, S b]), (.mul d a b st, True, [S d, S a, S b]), (.sel d a b st, True, [S d, S a, S b]),
        (.mov d a st, True, [S d, S a]), (.addi d a i st, True, [S d, S a]), (.lim d g st, True, [S d]), (.cAdd a d, True, [S d, S a]),
        (.jal d g st, True, [S d]), (.jr d a i st, True, [S d, S a]), (.brEq a b i st, True, [S a, S b]),
        (.brLtn a b i st, True, [S a, S b]), (.loop a i st, True, [S a]),
        (.ldB d b x o st, True, [S d, S b]), (.ldD d b o st, True, [S d, S b]), (.cLdD b d, True, [S d, S b]),
        (.ldAcq d b z c u st, True, [S d, S b]), (.stB d b f o st, True, [S d, S b]), (.stD d b f o st, True, [S d, S b]),
        (.stRel d b z c u st, bits s.cur.sterr 63 63 = 0, [S d, S b]),
        (.amoAddD d a b c st, True, [S d, S a, S b]), (.casW d a b c st, True, [S d, S a, S b]),
        (.csrr d i st, True, [S d]), (.csrw d i st, True, [S d]), (.csrr d (0x088 + q.zeroExtend 12) st, True, [S d, (2, q.toNat)]),
        (.csrw d (0x088 + q.zeroExtend 12) st, True, [S d, (2, q.toNat)]),
        (.wait a b c f st, True, [S a, S b]), (.pf a f st, True, [S a]), (.tlbinvPage a st, True, [S a]),
        (.spawn a b st, True, S a :: run b 8), (.yield a st, True, S a :: run 24 8), (.cntInit a b st, True, [S a, S b]),
        (.barWait a b st, True, [S a, S b]), (.sleep a f st, True, [S a]), (.teamBind a b st, True, [S a, S b]),
        (.hand a b c n st, True, [S a, S b]), (.mreqRead a u st, True, [S a]), (.mreqWrite d a u st, True, [S d, S a]),
        (.pgmove d a b z st, True, [S d, S a]), (.send d a f st, True, S a :: run d 8), (.treeInj d a st, True, [S d, S a]),
        (.cpy d a st, True, S d :: run a 4), (.cpywait a st, True, [S a]), (.sbind d a n st, True, [S d, S a, (1, 56 + n.toNat)]),
        (.launch a st, True, [S a]), (.axdef d a b st, True, [S d, S a, S b]), (.axap d a b st, True, [S d, S a, S b]),
        (.axwait a st, True, [S a]),
        (.vadd u v h w st, realTy t = true ∧ flows (vs ++ us) us, V (vs ++ us)),
        (.vmov u v h w st, flows vs us, V (vs ++ us)),
        (.vfma u v y w2 h2 st, realTy t = true ∧ flows (vs2 ++ [y] ++ us2) us2, V (vs2 ++ [y] ++ us2)),
        (.vcmp u v h w st, realTy t = true ∧ bits s.cur.vaux 6 4 ≠ 7 ∧ p0 + m ≤ 8 ∧ flows (vs ++ us) [], V (vs ++ us) ++ ps),
        (.vsel u v h w st, p0 + m ≤ 8 ∧ flows (vs ++ us) us, V (vs ++ us) ++ ps),
        (.vld u b h w st, flows [] us, S b :: V us), (.vst u b h w f st, flows us [], S b :: V us),
        (.vldx u b v z st, flows [v] [u], S b :: V [v, u]), (.vstx u b v z f st, flows [u, v] [], S b :: V [u, v]),
        (.pand p q st, True, [(2, p.toNat), (2, q.toNat)]), (.pnot p q st, True, [(2, p.toNat), (2, q.toNat)])],
      r.2.1 → Short s r.2.2 →
        (bits s.cur.issuectl 0 0 = 1 → s.cur.loads = [] → Traps r.1 s 0x04 7 0 0) ∧
        (bits s.cur.issuectl 0 0 = 0 ∨ s.cur.loads ≠ [] → Stalls r.1 s)

/-- R28, R216, R217, R233: what an instruction that issues leaves for later ones. Each of its results that takes L extra cycles stands
as pending with the latency L of the table, its written distance 1 plus the stall count; the distance of every earlier one grows by the
same, those whose distance reaches L + 1 are pending no more, and so are those of the registers that the instruction itself uses, for
which it has waited. The next instruction issues no earlier than the stall count says, and a block holds the vector datapath a cycle for
each 8 of its registers. A 16-bit form and a skipped span count 1, and a prefix whose span is executed counts 0. That `pand`, `por` and
`pnot` do not take the datapath is the model's choice (log entry 63). -/
def Obligations.Scoreboard : Prop :=
  ∀ (s : State) (d a b : BitVec 5) (u v y : BitVec 6) (p q : BitVec 3) (i : BitVec 12) (g : BitVec 17) (w2 h2 : BitVec 2)
      (h w st : BitVec 3), kindOf s.who = 0 →
    let S := fun (r : BitVec 5) => ((0 : Nat), r.toNat)
    let V := fun (l : List (BitVec 6)) => l.map fun r => ((1 : Nat), r.toNat)
    let n := (h.toNat + 1) * (w.toNat + 1)
    let us := blockRegs u (h.toNat + 1) (w.toNat + 1)
    let vs := blockRegs v (h.toNat + 1) (w.toNat + 1)
    let n2 := 2 ^ h2.toNat * 2 ^ w2.toNat
    let us2 := blockRegs u (2 ^ h2.toNat) (2 ^ w2.toNat)
    let vs2 := blockRegs v (2 ^ h2.toNat) (2 ^ w2.toNat)
    let t := bits s.cur.vtype 4 0
    let p0 := bits s.cur.vaux 2 0
    let ps := fun (n : Nat) => (List.range n).map fun j => ((2 : Nat), p0 + j)
    let IF := if classOf t = .float then 3 else 1
    let src := bits s.cur.vtype 9 5
    let cnt := n * 32 / max (tySize src) (tySize t)
    let vc := vs.take ((cnt * tySize src + 31) / 32)
    let uc := us.take ((cnt * tySize t + 31) / 32)
    let leaves := fun (x : Instr) (uses results : List (Nat × Nat)) (lat st vec : Nat) => ¬Short s uses → ∃ t, exec x s = .next t ∧
      t.cur.busyTill = cycleNow s + 1 + st ∧ t.cur.vecTill = vec ∧ ∀ e : Pending, e ∈ t.cur.board ↔ e.dist ≤ e.lat ∧
        ((∃ o ∈ s.cur.board, (o.cls, o.reg) ∉ uses ∧ e = { o with dist := o.dist + 1 + st }) ∨
          (e.cls, e.reg) ∈ results ∧ (e.cls = 1 ∨ e.reg ≠ 0) ∧ 0 < lat ∧
            e = ⟨e.cls, e.reg, lat, 1 + st, cycleNow s + 1 + lat⟩)
    (∀ r ∈ [(Instr.add d a b st, [S d, S a, S b], 0), (.cmpLt d a b st, [S d, S a, S b], 0), (.sel d a b st, [S d, S a, S b], 0),
        (.mov d a st, [S d, S a], 0), (.clz d a st, [S d, S a], 0), (.addi d a i st, [S d, S a], 0), (.lim d g st, [S d], 0),
        (.bdep d a b st, [S d, S a, S b], 1), (.bxtr d a b st, [S d, S a, S b], 1), (.mul d a b st, [S d, S a, S b], 2),
        (.mulh d a b st, [S d, S a, S b], 2), (.div d a b st, [S d, S a, S b], 15), (.rem d a b st, [S d, S a, S b], 15),
        (.jal d g st, [S d], 0), (.jr d a i st, [S d, S a], 0), (.brEq a b i st, [S a, S b], 0)],
      leaves r.1 r.2.1 [S d] r.2.2 st.toNat s.cur.vecTill) ∧
    leaves (.cAdd a d) [S d, S a] [] 0 0 s.cur.vecTill ∧
    (∀ r ∈ [Instr.pand p q st, .por p q st, .pnot p q st], leaves r [(2, p.toNat), (2, q.toNat)] [] 0 st.toNat s.cur.vecTill) ∧
    (∀ r ∈ [(Instr.vmov u v h w st, True, (⟨vs, us⟩ : Access), [], V us, n, 0), (.vand u v h w st, True, ⟨vs ++ us, us⟩, [], V us, n, 0),
        (.vsel u v h w st, p0 + n ≤ 8, ⟨vs ++ us, us⟩, ps n, V us, n, 0),
        (.vperm u v h w st, permTy t = true ∧ permOk s.cur = true, ⟨vs, us⟩, [], V us, n, 0),
        (.vbcast u v h w st, permTy t = true ∧ bits s.cur.vaux 20 16 < 32 / tySize t, ⟨vs, us⟩, [], V us, n, 0),
        (.vadd u v h w st, realTy t = true, ⟨vs ++ us, us⟩, [], V us, n, IF), (.vmax u v h w st, realTy t = true, ⟨vs ++ us, us⟩, [], V us, n, IF),
        (.vneg u v h w st, realTy t = true, ⟨vs, us⟩, [], V us, n, IF), (.vshl u v h w st, intTy t = true, ⟨vs ++ us, us⟩, [], V us, n, 1),
        (.vcmp u v h w st, realTy t = true ∧ bits s.cur.vaux 6 4 ≠ 7 ∧ p0 + n ≤ 8, ⟨vs ++ us, []⟩, ps n, ps n, n, IF),
        (.vcvt u v h w st, cvtOk src t = true, ⟨vc, uc⟩, [], V uc, n, 2), (.vmul u v h w st, realTy t = true, ⟨vs ++ us, us⟩, [], V us, n, 3),
        (.vfma u v y w2 h2 st, realTy t = true, ⟨vs2 ++ [y] ++ us2, us2⟩, [], V us2, n2, 4),
        (.cmul u v h w st, cplxTy t = true, ⟨vs ++ us, us⟩, [], V us, n, 5),
        (.cfma u v y w2 h2 st, cplxTy t = true, ⟨vs2 ++ [y] ++ us2, us2⟩, [], V us2, n2, 5),
        (.vbfly u v h w st, bflyTy t = true ∧ bits s.cur.vaux 10 8 < logElems (tySize t), ⟨vs ++ us, us⟩, [], V us, n, 5),
        (.vred u v h w st, realTy t = true ∧ bits s.cur.vaux 13 12 ≠ 3, ⟨vs, us⟩, [], V us, n, 6)],
      let x := r.2.2.1
      let m := r.2.2.2.2.2.1
      r.2.1 → wrongWay s.cur x = false → streamCheck s.cur x = none → datapathBusy s = false →
        leaves r.1 (V (x.reads ++ x.writes) ++ r.2.2.2.1) r.2.2.2.2.1 (r.2.2.2.2.2.2 + (m + 7) / 8 - 1) st.toNat
          (cycleNow s + (m + 7) / 8)) ∧
    ∀ (k : BitVec 4) (m : BitVec 8) run s1, spanRun s s.cur.pc (k.toNat + 1) = (run, none, s1) → s1.cur = s.cur → m ≠ 0 →
      badSpan true run = false →
      (inMask s m = false → leaves (.role k m) [] [] 0 0 s.cur.vecTill) ∧
      (inMask s m = true → ∃ t, exec (.role k m) s = .next t ∧ t.cur.board = s.cur.board ∧ t.cur.busyTill = s.cur.busyTill)

/-- R294, R304: an engine member that issues any instruction that its kind may not execute (`roleWithheld`: every kind is refused
loads, stores, atomics, vector and predicate instructions, waits, tasks and all else of a core alone, and each kind the requests of
the other two) halts at it with ROLE_KIND, and executes nothing of it: the first fault of its team is recorded in `TEAMERR` and `TEAMEPC`, a later one sets OVER;
with no core member left the fault domain ends. That this check precedes every other is log entry 19. -/
def Obligations.RoleKind : Prop :=
  ∀ (s : State) (i : Instr), isEngine s.who = true → kindOf s.who ≠ 0 → roleWithheld i (kindOf s.who) = true →
      (∃ t, exec i s = .next t ∧ (teamOf s s.who = none →
        SameRest s t ∧ t.cur.run = .halted ∧ t.cur.regs = s.cur.regs ∧ t.cur.pc = s.cur.pc)) ∧
      ∀ tm, teamOf s s.who = some tm →
        (leadOf tm ≠ none → ∃ t u, exec i s = .next t ∧ t.cur.run = .halted ∧ t.cur.regs = s.cur.regs ∧ t.cur.pc = s.cur.pc ∧
          t.mem = s.mem ∧ t.net = s.net ∧ t.cores = s.cores ∧ teamOf t s.who = some u ∧ u.members = tm.members ∧ u.binds = tm.binds ∧
          (bits tm.err 63 63 = 0 → u.epc = s.cur.pc ∧ bits u.err 63 63 = 1 ∧ bits u.err 62 62 = 0 ∧ bits u.err 61 54 = 0x21 ∧
            bits u.err 53 50 = tileOf s.who % 16 ∧ bits u.err 49 48 = kindOf s.who) ∧
          (bits tm.err 63 63 = 1 → u.epc = tm.epc ∧ u.err = setBits tm.err 62 62 1)) ∧
        (leadOf tm = none → ∀ rcb n, regionOf s (coreOf s.who) = some (rcb, n) → exec i s = .next (endDomain { s with
          cur := { s.cur with run := .halted, wait := .ready, span := 0, board := [], hostGot := [], codeAt := [] } } rcb 0x21))

/-- R124 to R126, R116, R354: fences complete once what they wait for is acknowledged, and report a failed store first; a
`fence.rel` up to the die leaves its place in the order of the context's stores (`released`). What they wait for is log entry
21. -/
def Obligations.FenceForms : Prop :=
  ∀ (s : State) (c st : BitVec 3), Calm [0] s →
    let failed := bits s.cur.sterr 63 63 = 1
    Completes (.fenceAcq c st) s s 4 ∧
    (∀ p ∈ [(Instr.fenceFull c st, fullBlocked s s.who c, s), (.fenceRel c st, releaseBlocked s s.who c, released s c),
        (.fenceAck st, unacked s s.who isStore, s)],
      (failed → HasHandler s → Traps p.1 s 0x12 7 0 0) ∧ (¬failed → p.2.1 = false → Completes p.1 s p.2.2 4) ∧
      (¬failed → p.2.1 = true → Stalls p.1 s)) ∧
    (unacked s s.who isStore = false →
      Completes (.fenceI st) s (putCluster s (clusterOf s.who) { getCluster s (clusterOf s.who) with icache := [] }) 4)

/-- R355: with the context's stores and sends acknowledged, `tlbinv` drops what its kind names; kind 2, and the tag of another region,
are for system software; kind 1 with bits 63:12 not zero, and kind 2 with another register than s0, are ILLEGAL_OPERAND. That it waits
for sends too, but for records that have arrived and wait for room, is log entry 21. -/
def Obligations.TlbInvalidate : Prop :=
  ∀ (s : State) (a : BitVec 5) (st : BitVec 3), Calm [0] s →
    let x := rd s a
    let va := widen (vaHigh s.cur) x
    let sys := bits s.cur.tstatus 1 1 = 1
    let mine := sys ∨ bits x 11 0 = bits s.cur.troot 63 52
    let waits := pending s s.who isStoreOrSend = true
    (¬waits → Completes (.tlbinvPage a st) s
      (dropTlb s fun e => !isSliceVA va && e.hits (bits s.cur.troot 63 52) va.toNat) 4) ∧
    (waits → Stalls (.tlbinvPage a st) s) ∧
    (bits x 63 12 = 0 → mine → (¬waits → Completes (.tlbinvTag a st) s (dropTlb s fun e => e.tag = bits x 11 0) 4) ∧
      (waits → Stalls (.tlbinvTag a st) s)) ∧
    (bits x 63 12 = 0 → ¬mine → HasHandler s → Traps (.tlbinvTag a st) s 0x0D 7 0 0) ∧
    (bits x 63 12 ≠ 0 → HasHandler s → Traps (.tlbinvTag a st) s 0x02 7 0 0) ∧
    (sys → (¬waits → Completes (.tlbinvAll 0 st) s (dropTlb s fun _ => true) 4) ∧ (waits → Stalls (.tlbinvAll 0 st) s)) ∧
    (¬sys → HasHandler s → Traps (.tlbinvAll 0 st) s 0x0D 7 0 0) ∧
    (a ≠ 0 → HasHandler s → Traps (.tlbinvAll a st) s 0x02 7 0 0)

/-- R127 to R129: `wait` completes when its condition holds for what its address holds; when it does not, it sleeps behind a
monitor of its line, or, on far-tier or host memory, reads again after 1,024 cycles; on a poisoned line it traps DATA_POISON and on a
lost one FAR_LOST (R115). `pf` completes whatever its operand: kind 1
counts one request at the page's home, and no register and no byte of memory changes. What a `pf` translates by is log entry
59, and that it waits while the access table beside its leaf cannot be reached is log entry 68. That a `wait` on host memory polls
without testing its condition at once, because host data comes by the event HOST_COMPLETION, is log entry 10. R287, R354: `pause` makes
its context not ready for the 16 · (k + 1) cycles behind its own; `sleep` waits for its deadline or for work. -/
def Obligations.WaitForms : Prop :=
  (∀ (s : State) (a b : BitVec 5) (c : BitVec 3) (z k : BitVec 1) (st : BitVec 3), Calm [0] s →
    let n := if z = 1 then 8 else 4
    (∀ l m, checkAccess s s.who (rd s a) n 0 = .ok l → loadBytes l.st s.who l n = .val m →
      let s1 := countHot l.st l.loc (coreOf s.who) l.leaf
      let holds := waitCond c (8 * n) (fromBytes m) ((rd s b).toNat % 2 ^ (8 * n))
      (holds = true → Completes (.wait a b c z st) s s1 4) ∧
      (holds = false → homeAt s l.loc ≠ some 24 → homeAt s l.loc ≠ some 25 → exec (.wait a b c z st) s = .next { s1 with
        monitors := s1.monitors ++ [(lineAt s1 l.loc, s.who)]
        cur := { s1.cur with wait := .monitor (lineAt s1 l.loc) false (rd s a) (rd s b) c z st } }) ∧
      (holds = false → (homeAt s l.loc = some 24 ∨ homeAt s l.loc = some 25) → exec (.wait a b c z st) s = .next { s1 with
        cur := { s1.cur with wait := .poll (2 * s.stamp + 1024) (rd s a) (rd s b) c z st } })) ∧
    (HasHandler s → ∀ l, checkAccess s s.who (rd s a) n 0 = .ok l →
      let s1 := countHot l.st l.loc (coreOf s.who) l.leaf
      (HomeAnswers l.st l n 1 → TrapsFrom (.wait a b c z st) s s1 0x10 0 0 (vaOf s (rd s a))) ∧
      (HomeAnswers l.st l n 2 → TrapsFrom (.wait a b c z st) s s1 0x11 0 0 (vaOf s (rd s a)))) ∧
    (∀ l, checkAccess s s.who (rd s a) n 0 = .ok l → loadBytes l.st s.who l n = .host →
      let s1 := countHot l.st l.loc (coreOf s.who) l.leaf
      exec (.wait a b c z st) s = .next { s1 with
        cur := { s1.cur with wait := .poll (2 * s.stamp + 1024) (rd s a) (rd s b) c z st } }) ∧
    (isSliceVA (vaOf s (rd s a)) = true → Completes (.pf a k st) s s 4) ∧
    (isSliceVA (vaOf s (rd s a)) = false →
      (hintLeaf s (coreOf s.who) s.cur.troot (vaOf s (rd s a)) = none → Completes (.pf a k st) s s 4) ∧
      (hintWaits s (coreOf s.who) s.cur.troot (vaOf s (rd s a)) = true → Stalls (.pf a k st) s) ∧
      ∀ e s1, hintWaits s (coreOf s.who) s.cur.troot (vaOf s (rd s a)) = false →
        hintLeaf s (coreOf s.who) s.cur.troot (vaOf s (rd s a)) = some (e, s1) →
        (k = 0 → Completes (.pf a k st) s s1 4) ∧
        (k = 1 → Completes (.pf a k st) s
          (countHot s1 (e.frame + (vaOf s (rd s a)).toNat % 2 ^ e.log) (coreOf s.who) e.leaf) 4)) ∧
    ((isSliceVA (vaOf s (rd s a)) = true ∨ hintWaits s (coreOf s.who) s.cur.troot (vaOf s (rd s a)) = false) →
      ∃ u, Completes (.pf a k st) s u 4 ∧ u.cur = s.cur ∧ ∀ q, readByte u q = readByte s q)) ∧
  ∀ (s : State) (a : BitVec 5) (w : BitVec 1) (k : BitVec 6) (st : BitVec 3), Calm [0] s →
    (∃ t, exec (.pause k st) s = .next t ∧ SameRest s t ∧ SameButPlace s.cur t.cur ∧
      t.cur.wait = .pause (cycleNow s + 1 + 16 * (k.toNat + 1)) ∧ (NoLoop s.cur → t.cur.pc = s.cur.pc + 4)) ∧
    (rd s a = 0 → w = 0 → HasHandler s → Traps (.sleep a w st) s 0x02 7 0 0) ∧
    (¬(rd s a = 0 ∧ w = 0) → wakes s s.who (rd s a).toNat (w = 1) = true → Completes (.sleep a w st) s s 4) ∧
    (¬(rd s a = 0 ∧ w = 0) → wakes s s.who (rd s a).toNat (w = 1) = false →
      exec (.sleep a w st) s = .next { s with cur := { s.cur with wait := .sleep (rd s a).toNat (w = 1) false st } })

/-! ### Tasks, barriers and teams -/

/-- R278, R283, R284, R286: `task.end` leaves the context idle; `spawn` pushes a record at DQ_BOTTOM of the core's deque, or,
with 16 there, posts it to the low inbox, and never waits; `yield` ends the task behind a record when there is other work;
`cnt.init` arms a counter and fires it when its count is not above 0; `phase` sets the core's phase. Operands with bits that must be zero
are ILLEGAL_OPERAND, and so is a count of `cnt.init` of 0 or of 2^31 and more. What holds the record of a `spawn`, and the stores after a `yield`, is log entry 66. -/
def Obligations.TaskForms : Prop :=
  ∀ (s : State) (a b : BitVec 5) (st : BitVec 3), Calm [0] s →
    let core := coreOf s.who
    let x := rd s a
    let cls := BitVec.ofNat 8 (bits x 7 0)
    let n := dqBottom s core
    let rs : TaskRec := { cls := cls, src := BitVec.ofNat 16 core, carried := carried8 s.cur b, gate := some (s.who, s.cur.seqNext) }
    let ry : TaskRec := { cls := cls, pri := isHigh s.who, src := BitVec.ofNat 16 core, carried := carried8 s.cur 24 }
    let cid := bits x 7 0
    let at1 := homeLoc core (0xE000 + 16 * cid)
    let k := min (countOf s core cid + bits x 63 32) (2 ^ 31 - 1)
    let u := setCount (sysWrite (sysWrite (sysWrite s at1 8 (rd s b).toNat) (at1 + 12) 1 (bits x 15 8)) (at1 + 13) 1
      (bits x 16 16 + 2)) core cid k
    (teamOf s s.who = none → exec (.taskEnd st) s = .next { s with cur := { s.cur.issued (cycleNow s) st.toNat [] with
      run := .idle, wait := .ready, span := 0, pagerTask := false } }) ∧
    ((myTeam s).isSome = true → HasHandler s → Traps (.taskEnd st) s 0x02 7 0 0) ∧
    (bits x 63 8 = 0 → Completes (.spawn a b st) s (if n - dqTop s core < 16 then
        let v := sysWrite (sysBytes s (homeLoc core (0xD800 + 80 * (n % 16))) (recBytes rs s.stamp)) (homeLoc core 0xD428) 8 (n + 1)
        rouse (putCore v core (keepGate (getCore v core) 2 n rs)) core
      else post s core false rs) 4) ∧
    (bits x 63 8 = 0 → myTeam s = none → nextChoice s s.who false = none → Completes (.yield a st) s s 4) ∧
    (bits x 63 8 = 0 → myTeam s = none → (nextChoice s s.who false).isSome = true →
      let v := post (markRelease s) core (isHigh s.who) ry
      let t := endTask { v with cur := v.cur.issued (cycleNow v) st.toNat [] }
      exec (.yield a st) s = .next { t with cur := t.cur.settled (useS a :: (List.range 8).map fun k => (0, 24 + k)) }) ∧
    (bits x 31 17 = 0 → 0 < bits x 63 32 → bits x 63 32 < 2 ^ 31 →
      Completes (.cntInit a b st) s (if k ≤ 0 then fire u core cid else u) 4) ∧
    ((bits x 31 17 ≠ 0 ∨ bits x 63 32 = 0 ∨ 2 ^ 31 ≤ bits x 63 32) → HasHandler s → Traps (.cntInit a b st) s 0x02 7 0 0) ∧
    (bits x 63 8 = 0 → Completes (.phase a st) s
      (putMyCore (accountCore s core) { myCore (accountCore s core) with phase := cls }) 4) ∧
    (bits x 63 8 ≠ 0 → HasHandler s → Traps (.spawn a b st) s 0x02 7 0 0 ∧ Traps (.yield a st) s 0x02 7 0 0 ∧
      Traps (.phase a st) s 0x02 7 0 0)

/-- R282, R285, R347: `bar.init` sets EXP and clears all but the phase; `bar.arrive` arrives at once at a barrier of its own core
and by a message elsewhere; `bar.wait` completes once the phase differs from b; `bar.link` sets or clears the parent. Operands with
bits that must be zero, or a count of zero, are ILLEGAL_OPERAND. That `bar.init` also forgets the HOLD children that had arrived is the
model's choice (log entry 71). What the release of `bar.arrive` waits for is log entry 21. `bar.link` with VALID 0 checks no parent (log entry 16); that a core outside the region is denied with ACCESS 7 and FAULTVA 0 is log
entry 15. -/
def Obligations.BarrierForms : Prop :=
  ∀ (s : State) (a b : BitVec 5) (st : BitVec 3), Calm [0] s →
    let core := coreOf s.who
    let x := rd s a
    let y := rd s b
    let n := bits x 10 0
    (bits x 63 11 = 0 → y ≠ 0 → bits y 63 16 = 0 →
      Completes (.barInit a b st) s (putBar s core n { exp := y.toNat, ph := (getBar s core n).ph }) 4) ∧
    (bits x 63 30 = 0 → bits x 15 11 = 0 → inMyRegion s (bits x 29 16) = true → releaseBlocked s s.who 4 = false →
      Completes (.barArrive a st) s (if bits x 29 16 = core then arriveBar s core n none
        else sendMsg s s.who { loc := homeLoc (bits x 29 16) 0xD000, body := .barArrive (bits x 29 16) n none }) 4) ∧
    (bits x 63 30 = 0 → bits x 15 11 = 0 → inMyRegion s (bits x 29 16) = false → HasHandler s →
      Traps (.barArrive a st) s 0x0D 7 0 0) ∧
    (bits x 63 11 = 0 → bits y 63 1 = 0 →
      ((getBar s core n).ph ≠ decide (y = 1) → Completes (.barWait a b st) s s 4) ∧
      ((getBar s core n).ph = decide (y = 1) → Stalls (.barWait a b st) s)) ∧
    (HasHandler s →
      ((bits x 63 11 ≠ 0 ∨ y = 0 ∨ bits y 63 16 ≠ 0) → Traps (.barInit a b st) s 0x02 7 0 0) ∧
      ((bits x 63 30 ≠ 0 ∨ bits x 15 11 ≠ 0) → Traps (.barArrive a st) s 0x02 7 0 0) ∧
      ((bits x 63 11 ≠ 0 ∨ bits y 63 1 ≠ 0) → Traps (.barWait a b st) s 0x02 7 0 0) ∧
      ((bits x 63 11 ≠ 0 ∨ bits y 63 32 ≠ 0 ∨ bits y 15 11 ≠ 0) → Traps (.barLink a b st) s 0x02 7 0 0) ∧
      (bits x 63 11 = 0 → bits y 63 32 = 0 → bits y 15 11 = 0 → bits y 31 31 = 1 → inMyRegion s (bits y 29 16) = false →
        Traps (.barLink a b st) s 0x0D 7 0 0)) ∧
    (bits x 63 30 = 0 → bits x 15 11 = 0 → inMyRegion s (bits x 29 16) = true → releaseBlocked s s.who 4 = true →
      Stalls (.barArrive a st) s) ∧
    (bits x 63 11 = 0 → bits y 63 32 = 0 → bits y 15 11 = 0 →
      (bits y 31 31 = 0 → Completes (.barLink a b st) s
        (putBar s core n { getBar s core n with link := false, hold := false, pbar := 0, pcore := 0 }) 4) ∧
      (bits y 31 31 = 1 → inMyRegion s (bits y 29 16) = true → Completes (.barLink a b st) s
        (putBar s core n { getBar s core n with
          link := true, hold := bits y 30 30 = 1, pbar := bits y 10 0, pcore := bits y 29 16 }) 4))

/-- R292, R293, R296, R298 to R302, R304: the team instructions of a member with no fault to report, a `hand` of one that holds both
roles and its HAND_ORDER among them; TEAM_FAULT in a lead with a fault to report; ILLEGAL_OPERAND outside a team, and of a `team.bind` whose operands R292 refuses. Details of
marks and of HSENT are log entry 37. That a core member's `hand` waits for every earlier store and send of its context that is still
under way, and `team.end` for every one not acknowledged, is the model's reading of a release at cluster scope (log entry 21). That
TEAM_FAULT comes before the ILLEGAL_OPERAND of a `mark` inside a span or of a `hand` without a partner is the model's choice (log
entry 19). -/
def Obligations.TeamForms : Prop :=
  (∀ (s : State) (a b : BitVec 5) (rcv snd : BitVec 3) (d : BitVec 6) (st : BitVec 3),
    Calm [0] s → HasHandler s → myTeam s = none →
    ∀ i ∈ [Instr.teamBind a b st, .hand a b rcv snd st, .mark st, .driftSet d st, .realign st, .teamEnd st],
      Traps i s 0x02 7 0 0) ∧
  (∀ (s : State) (t : Team) (m : Member) (a b : BitVec 5) (rcv snd : BitVec 3) (st : BitVec 3),
    Calm [0] s → HasHandler s → myTeam s = some (t, m) → leadFault t s.who = true →
    let u := putTeam s s.who (some (putMember t { m with atMark := false, realign := none }))
    ∀ i ∈ [Instr.hand a b rcv snd st, .mark st, .realign st, .teamEnd st],
      exec i s = .next { u with cur := trapCtx s.cur 0x23 7 0 0 }) ∧
  (∀ (s : State) (t : Team) (m : Member) (a b : BitVec 5) (rcv snd : BitVec 3) (st : BitVec 3),
    Calm [0, 1, 2, 3] s → myTeam s = some (t, m) → leadFault t s.who = false →
    let rs := rankOf t snd.toNat s.who
    let rr := rankOf t rcv.toNat s.who
    let sent := getHsent s m
    let t1 := if sent then t else { t with bufs := t.bufs ++ [{ snd := s.who, rcv := (rs.bind (withRank t rcv.toNat)).getD 0,
                                                                value := rd s a, pc := s.cur.pc }] }
    let u := if sent then s else putTeam s s.who (some t1)
    let ready := sent = true ∨ ((rs.bind (withRank t rcv.toNat)).bind (bufOf t s.who) = none ∧
      (isEngine s.who = true ∨ pending s (asCtx s.who) isStoreOrSend = false))
    ((rs ≠ none ∧ rs.bind (withRank t rcv.toNat) = none ∨ rr ≠ none ∧ rr.bind (withRank t snd.toNat) = none) → HasHandler s →
      Traps (.hand a b rcv snd st) s 0x02 7 0 0) ∧
    (rr = none → rs.bind (withRank t rcv.toNat) ≠ none → sent = true → Completes (.hand a b rcv snd st) s (setHsent s false) 4) ∧
    (rs = none → ∀ q, rr.bind (withRank t snd.toNat) = some q →
      (bufOf t q s.who = none → (findMember t q).any (·.ended) = false → Stalls (.hand a b rcv snd st) s) ∧
      ((bufOf t q s.who = none ∧ (findMember t q).any (·.ended) = true ∨ ∃ e, bufOf t q s.who = some e ∧ e.pc ≠ s.cur.pc) →
        HasHandler s → Traps (.hand a b rcv snd st) s 0x22 7 0 0)) ∧
    (∀ p, rs.bind (withRank t rcv.toNat) = some p → (rr = none ∨ rr.bind (withRank t snd.toNat) ≠ none) → sent = false →
      ((bufOf t s.who p).isSome = true ∨ isEngine s.who = false ∧ pending s (asCtx s.who) isStoreOrSend = true) →
      Stalls (.hand a b rcv snd st) s) ∧
    (∀ p q, rs.bind (withRank t rcv.toNat) = some p → rr.bind (withRank t snd.toNat) = some q → ready →
      (∀ e, bufOf t1 q s.who = some e → e.pc = s.cur.pc → Completes (.hand a b rcv snd st) s
        (setHsent (wr (putTeam u s.who (some { t1 with bufs := t1.bufs.filter (· ≠ e) })) b e.value) false) 4) ∧
      (bufOf t1 q s.who = none → (findMember t1 q).any (·.ended) = false → exec (.hand a b rcv snd st) s = .next
        (let v := setHsent u true
         { v with cur := { v.cur with wait := .stalled } })) ∧
      ((bufOf t1 q s.who = none ∧ (findMember t1 q).any (·.ended) = true ∨ ∃ e, bufOf t1 q s.who = some e ∧ e.pc ≠ s.cur.pc) →
        HasHandler s → exec (.hand a b rcv snd st) s = .next
          { u with cur := trapCtx { s.cur with tstatus := setBits s.cur.tstatus 2 2 1 } 0x22 7 0 0 }))) ∧
  ∀ (s : State) (t : Team) (m : Member) (a b : BitVec 5) (rcv snd : BitVec 3) (d : BitVec 6) (st : BitVec 3),
    Calm [0, 1, 2, 3] s → myTeam s = some (t, m) → leadFault t s.who = false →
    let x := rd s a
    let y := (rd s b).toNat
    let kind := bits x 5 4
    let put := fun (v : Team) => putTeam s s.who (some v)
    let others := t.members.filter fun o => o.agent ≠ s.who && !o.ended
    let n := m.marks + 1
    let rs := rankOf t snd.toNat s.who
    let rr := rankOf t rcv.toNat s.who
    (bits x 63 6 = 0 → bits x 3 3 = 0 → (kind ≠ 0 → y < 2 ^ 16) →
      (kind = 0 → ∀ k < 64, y.testBit k = true → ∃ o ∈ t.members, o.agent = 2 * (64 * clusterOf s.who + k) ∧ o.ended = false) →
      Completes (.teamBind a b st) s (put { t with
        staged := t.staged.filter (fun q => q.1 ≠ bits x 2 0) ++ [(bits x 2 0, kind, y)]
        stagedAt := stageAt t (bits x 2 0) }) 4) ∧
    ((bits x 63 6 ≠ 0 ∨ bits x 3 3 ≠ 0 ∨ kind ≠ 0 ∧ 2 ^ 16 ≤ y ∨ kind = 0 ∧ ∃ k < 64, y.testBit k = true ∧
        ∀ o ∈ t.members, o.agent = 2 * (64 * clusterOf s.who + k) → o.ended = true) → HasHandler s →
      Traps (.teamBind a b st) s 0x02 7 0 0) ∧
    (s.cur.span = 0 → Completes (.driftSet d st) s
      (put { t with stagedD := some d.toNat, stagedAt := stageAt t 8 }) 4) ∧
    (s.cur.span = 0 → fullMark t n = false →
      ((∀ o ∈ others, n ≤ o.marks + t.d) → Completes (.mark st) s (put (putMember t { m with marks := n, atMark := false })) 4) ∧
      ((∃ o ∈ others, o.marks + t.d < n) → Stalls (.mark st) s)) ∧
    (s.cur.span = 0 → fullMark t n = true → (∀ o ∈ others, o.atMark = true ∧ o.marks + 1 = n) →
      exec (.mark st) s = .next (retire s 4 st (passMark (install s t n) n))) ∧
    (s.cur.span = 0 → fullMark t n = true → (∃ o ∈ others, ¬(o.atMark = true ∧ o.marks + 1 = n)) →
      exec (.mark st) s = .next (let u := put (putMember t { m with atMark := true })
        { u with cur := { u.cur with wait := .stalled } })) ∧
    (s.cur.span ≠ 0 → HasHandler s → Traps (.mark st) s 0x02 7 0 0 ∧ Traps (.driftSet d st) s 0x02 7 0 0) ∧
    (rs = none → rr = none → Completes (.hand a b rcv snd st) s (setHsent s false) 4) ∧
    (rr = none → ∀ r p, rs = some r → withRank t rcv.toNat r = some p → getHsent s m = false → bufOf t s.who p = none →
      (isEngine s.who = true ∨ pending s (asCtx s.who) isStoreOrSend = false) → Completes (.hand a b rcv snd st) s
        (put { t with bufs := t.bufs ++ [{ snd := s.who, rcv := p, value := x, pc := s.cur.pc }] }) 4) ∧
    (rs = none → ∀ r q e, rr = some r → withRank t snd.toNat r = some q → bufOf t q s.who = some e → e.pc = s.cur.pc →
      Completes (.hand a b rcv snd st) s
        (setHsent (wr (put { t with bufs := t.bufs.filter (· ≠ e) }) b e.value) false) 4) ∧
    ((∀ o ∈ others, o.realign = some s.cur.pc) →
      Completes (.realign st) s (others.foldl (fun s o => leaveRealign s o.agent) s) 4) ∧
    ((∃ o ∈ others, o.realign ≠ some s.cur.pc) → exec (.realign st) s =
      .next (let u := put (putMember t { m with realign := some s.cur.pc })
        { u with cur := { u.cur with wait := .realign (2 * s.stamp) st } })) ∧
    ((isEngine s.who = true ∨ unacked s s.who isStoreOrSend = false) →
      (others = [] → exec (.teamEnd st) s = .next (putTeam { s with cur := { s.cur.issued (cycleNow s) st.toNat [] with
        run := .idle, wait := .ready, span := 0 } } s.who none)) ∧
      exec (.teamEnd st) s = .next (leaveTeam { s with cur := s.cur.issued (cycleNow s) st.toNat [] } t m))

/-! ### Main-memory requests, pages and messages -/

/-- R74, R86, R87, R399: `mreq` sends its request and counts it, once fewer than eight are outstanding and the store buffer is empty, and
of an address that is misaligned or in slice space is ILLEGAL_OPERAND; `pgmove` writes a code and queues a motion for code 0;
`pghot` reads a page's four counts, or its size, cursor, tier, stack, state and total, and for codes 2 and 3 clears the counts; `pgabort` aborts a Moving page, which posts the record of R81. The
order of the codes is log entry 35, and that a `pgmove` whose answer needs a free ring or a pager's table behind a link in its retrain
window waits (R364) is log entry 68. -/
def Obligations.PageForms : Prop :=
  ∀ (s : State) (d a k : BitVec 5) (t c : BitVec 2) (g : BitVec 6) (st : BitVec 3), Calm [0] s →
    let x := rd s a
    let va := vaOf s x
    (∀ p ∈ [(Instr.mreqRead a g st, 64), (.mreqWrite d a g st, 8)],
      ((isSliceVA va = true ∨ x.toNat % p.2 ≠ 0) → HasHandler s → Traps p.1 s 0x02 7 0 0) ∧
      (isSliceVA va = false → x.toNat % p.2 = 0 →
        (8 ≤ s.cur.mreqs ∨ s.cur.buf ≠ [] ∨ inFlight s s.who isAxstEntry = true) → Stalls p.1 s)) ∧
    (isSliceVA va = false →
    (s.cur.mreqs < 8 → s.cur.buf = [] → inFlight s s.who isAxstEntry = false →
      (∀ l, x.toNat % 64 = 0 → land s s.who va 0 = .ok l → (homeOf s l.loc).all (· ≤ 24) = true → pageHeld s s.who l = false →
        let u := sendMsg l.st s.who { loc := l.loc, leaf := l.leaf, body := .mreqRead g, seq := x.toNat, page := l.page }
        Completes (.mreqRead a g st) s { u with cur := { u.cur with mreqs := u.cur.mreqs + 1 } } 4) ∧
      (∀ l, x.toNat % 8 = 0 → land s s.who va 1 = .ok l → (homeOf s l.loc).all (· ≤ 24) = true → pageHeld s s.who l = false →
        let u := sendMsg l.st s.who { loc := l.loc, leaf := l.leaf, body := .mreqWrite g (toBytes 8 (rd s d).toNat), seq := x.toNat,
                                      page := l.page }
        Completes (.mreqWrite d a g st) s { u with cur := { u.cur with mreqs := u.cur.mreqs + 1 } } 4)) ∧
    (∀ e s1, translate s (coreOf s.who) s.cur.troot va 1 = .ok (e, s1) →
      let p := pageRef s1 e
      let there := tierOf p.home = t.toNat ∧ (k = 31 ∨ p.home = 12 * t.toNat + k.toNat)
      let stop := t = 0 ∧ k.toNat < 12 ∧ s1.cacheMode.getLsbD k.toNat = true
      let i := Instr.pgmove d a k t st
      (p.movable = false ∨ stop → Completes i s (wr s1 d 3) 4) ∧
      (p.movable = true → ¬stop → inMotion s1 p.frame = true → Completes i s (wr s1 d 4) 4) ∧
      (p.movable = true → ¬stop → inMotion s1 p.frame = false → there → Completes i s (wr s1 d 2) 4) ∧
      (p.movable = true → ¬stop → inMotion s1 p.frame = false → ¬there → k = 31 → chooseStack s1 p t.toNat = none →
        (ringsFar s1 = false → Completes i s (wr s1 d 5) 4) ∧ (ringsFar s1 = true → Stalls i s)) ∧
      (p.movable = true → ¬stop → inMotion s1 p.frame = false → ¬there → ∀ loc,
        (if k = 31 then chooseStack s1 p t.toNat else some (12 * t.toNat + k.toNat)) = some loc →
        let late := k = 31 ∧ ringsFar s1 = true ∨ pagerFar s1 (coreOf s.who) = true
        (late → Stalls i s) ∧
        (¬late → ∃ m, m.leaf = p.leaf ∧ m.src = p.frame ∧ m.log = p.log ∧ m.loc = loc ∧ m.cursor = 0 ∧ m.who = some (coreOf s.who, va) ∧
          (queueMotion s1 p.home m = none → Completes i s (wr s1 d 1) 4) ∧
          (∀ s2, queueMotion s1 p.home m = some s2 → Completes i s (wr s2 d 0) 4))) ∧
      (movingIx s1 p.frame = none → Completes (.pgabort d a st) s (wr s1 d 1) 4) ∧
      (∀ die j, movingIx s1 p.frame = some (die, j) → Completes (.pgabort d a st) s (wr (abortActive s1 die j 4) d 0) 4)) ∧
    (∀ e s1, translate s (coreOf s.who) s.cur.troot va 0 = .ok (e, s1) →
      let p := pageRef s1 e
      let h := if p.home < 25 then mapGet {} s1.hot p.frame else {}
      let u := if 2 ≤ c.toNat ∧ p.home < 25 then clearHot s1 p else s1
      let moving := fun (n : Nat) => (∃ m, pageMotion s1 p = some m ∧ m.forwarding = false ∧ m.cursor = n)
      ∃ v : Nat, Completes (.pghot d a c st) s (wr u d (BitVec.ofNat 64 v)) 4 ∧
        (c.toNat % 2 = 0 → v = h.ne + h.nw * 2 ^ 16 + h.se * 2 ^ 32 + h.sw * 2 ^ 48) ∧
        (c.toNat % 2 = 1 → h.total < 2 ^ 16 → (∀ n, moving n → n < 2 ^ 15) →
          v % 2 ^ 16 = h.total ∧
          (pageMotion s1 p = none → v / 2 ^ 16 % 4 = 0) ∧ (∀ n, moving n → v / 2 ^ 16 % 4 = 1 ∧ v / 2 ^ 24 % 2 ^ 15 = n) ∧
          (∀ m, pageMotion s1 p = some m → m.forwarding = true → v / 2 ^ 16 % 4 = 2) ∧ ((∀ n, ¬moving n) → v / 2 ^ 24 % 2 ^ 15 = 0) ∧
          v / 2 ^ 18 % 4 = (if p.home < 12 then 0 else if p.home < 24 then 1 else if p.home = 24 then 2 else 3) ∧
          v / 2 ^ 20 % 16 = (if p.home < 12 then p.home else if p.home < 24 then p.home - 12 else 15) ∧
          (p.log = 16 → v / 2 ^ 39 = 0) ∧ (p.log = 21 → v / 2 ^ 39 = 1) ∧ (p.log = 30 → v / 2 ^ 39 = 2))))

/-- R142 to R145: `send` puts its record, or with REMOTE = 1 its header and registers, into the store buffer; `port.open` and
`port.close` answer by who holds the core's port. When `port.close` completes is log entry 38, that a remote send stands at the
issuing core's tile is log entry 57, and that a denied CORE traps with ACCESS 7 is log entry 15. -/
def Obligations.SendForms : Prop :=
  ∀ (s : State) (d a : BitVec 5) (o : BitVec 1) (st : BitVec 3), Calm [0] s →
    let h := rd s a
    let va := vaOf s h
    let tile := sliceTile (sliceOfVA va)
    let remote := bits h 53 53 = 1
    let e : StoreEntry := {
      loc := homeLoc (if remote then coreOf s.who else bits h 13 0) 0xC000
      body := if remote then .remote h (carried8 s.cur d) else .record (BitVec.ofNat 14 (bits h 13 0)) {
        cls := BitVec.ofNat 8 (bits h 23 16)
        cid := BitVec.ofNat 8 (bits h 31 24)
        pri := bits h 33 33 = 1
        cnt := bits h 32 32 = 1
        src := BitVec.ofNat 16 (coreOf s.who)
        carried := carried8 s.cur d }
      ordered := o = 1
      seq := s.cur.seqNext
      tag := tagOf s s.who }
    (bits h 63 54 = 0 → bits h 15 14 = 0 → (¬remote → sliceAllows s s.who (bits h 13 0 / 4) = true) →
      (outstandingSends s s.who < 16 → s.cur.buf.length < 16 → Completes (.send d a o st) s { s with cur := { s.cur with
        buf := s.cur.buf ++ [e], seqNext := s.cur.seqNext + 1 } } 4) ∧
      (16 ≤ outstandingSends s s.who → Stalls (.send d a o st) s)) ∧
    (bits h 63 54 = 0 → bits h 15 14 = 0 → ¬remote → sliceAllows s s.who (bits h 13 0 / 4) = false → HasHandler s →
      Traps (.send d a o st) s 0x0D 7 0 0) ∧
    ((bits h 63 54 ≠ 0 ∨ bits h 15 14 ≠ 0) → HasHandler s → Traps (.send d a o st) s 0x02 7 0 0) ∧
    (isSliceVA va = true → tile / 16 ≠ clusterOf s.who → sliceAllows s s.who tile = true →
      ((myCore s).port = none →
        Completes (.portOpen d a st) s (wr (putMyCore s { myCore s with port := some { ctx := s.who, tile := tile, routed := false } }) d 0) 4) ∧
      (∀ p, (myCore s).port = some p → Completes (.portOpen d a st) s (wr s d (if p.ctx = s.who then 2 else 1)) 4)) ∧
    ((∀ p, (myCore s).port = some p → p.ctx ≠ s.who) → Completes (.portClose d st) s (wr s d 1) 4) ∧
    (∀ p, (myCore s).port = some p → p.ctx = s.who → (∀ q ∈ s.cur.buf, q.chan ≠ 3) →
      (∀ q ∈ (myCore s).fifo, q.ctx = s.who → w3Mch q.w3 = 3 → q.moved = true) →
      Completes (.portClose d st) s (wr (putMyCore s { myCore s with port := none }) d 0) 4)

/-- R146 to R149: an injection writes value and header at the tail of the queue in its home; an extraction takes the oldest
result, and of an empty queue reads 0. What an injection releases is log entry 21; that its header may carry ERR is log
entry 44. -/
def Obligations.TreeForms : Prop :=
  ∀ (s : State) (d a : BitVec 5) (st : BitVec 3), Calm [0] s →
    let h := (rd s d).toNat
    let v := (rd s a).toNat
    let q := fun (o : Nat) => homeLoc (coreOf s.who) ((if isHigh s.who then 0xF000 else 0xF800) + o)
    let tail := readNat s (q 0x208) 8
    let head := readNat s (q 0x210) 8
    let slot := 0x100 + 16 * (head % 16)
    (badCollective h v = false → coveredBlocked s s.who (hScope h + 2) (fun _ => true) = false →
      nodeFull (getCluster s (clusterOf s.who)).node (regionTag s s.who) h = false →
      (tail - readNat s (q 0x200) 8 < 16 → Completes (.treeInj d a st) s
        (sysWrite (sysWrite (sysWrite s (q (16 * (tail % 16))) 8 v) (q (16 * (tail % 16) + 8)) 8 h) (q 0x208) 8 (tail + 1)) 4) ∧
      (16 ≤ tail - readNat s (q 0x200) 8 → Stalls (.treeInj d a st) s)) ∧
    (badCollective h v = true → HasHandler s → Traps (.treeInj d a st) s 0x02 7 0 0) ∧
    (head = readNat s (q 0x218) 8 → Completes (.treeExt d a st) s (wr (wr s d 0) a 0) 4) ∧
    (head ≠ readNat s (q 0x218) 8 → Completes (.treeExt d a st) s
      (wr (wr (sysWrite s (q 0x210) 8 (head + 1)) d (BitVec.ofNat 64 (readNat s (q slot) 8))) a
        (BitVec.ofNat 64 (readNat s (q (slot + 8)) 8))) 4)

/-! ### The transfer unit and streams -/

/-- R151, R154, R171 to R173: `cpy` and `cpy.try` push a copy and return its identifier; with 16 in the FIFO `cpy` waits and
`cpy.try` writes 1. `cpyid` and `cpywait` test an identifier against `CPYDONE` and raise a recorded error, and
one that is no identifier handed out is ILLEGAL_OPERAND; `dict.ld` reads
its kilobytes at issue. When a copy moves its data is log entry 25; that `dict.ld` takes its bytes at issue is log entry 2, and those
of a poisoned line as they stand log entry 42. -/
def Obligations.CopyForms : Prop :=
  ∀ (s : State) (d a : BitVec 5) (k : BitVec 7) (st : BitVec 3), Calm [0, 1] s →
    let w := fun (k : Nat) => rd s (a + BitVec.ofNat 5 k)
    let c := myCore s
    let ch := bits (w 3) 1 0
    let seq := c.cpyNext.toList.getD ch 1
    let new : Copy := { ch := ch, seq := seq, ctx := asCtx s.who, high := highOf s, w0 := w 0, w1 := w 1, w2 := w 2, w3 := w 3,
                        gate := if isEngine s.who then 0 else s.cur.seqNext, order := (getCtx s (asCtx s.who)).seqNext
                        turn := c.fifo.foldl (fun n x => max n x.turn) 0 }
    let bad := badRequest (highOf s) (portTile s) (w 0) (w 1) (w 2) (w 3)
    let x := rd s a
    let xc := bits x 63 62
    let xs := bits x 47 0
    let good := bits x 61 61 = 1 ∧ bits x 60 48 = 0 ∧ seqAfter xs ((c.cpyNext.toList.getD xc 1 + 2 ^ 48 - 1) % 2 ^ 48) = false
    let covered := seqLe xs (bits (c.cpydone.toList.getD xc 0) 47 0) = true
    let err := c.cpyerr.toList.getD xc 0
    let failed := bits err 63 63 = 1 ∧ seqLe (bits err 47 0) xs = true
    let loc := sliceOfVA (widen (highOf s) x)
    let tile := tileOf s.who
    (bad = false → c.fifo.length < 16 → ∀ i ∈ [Instr.cpy d a st, .cpyTry d a st], Completes i s
      (wr (putMyCore s { c with fifo := c.fifo ++ [new], cpyNext := setIx c.cpyNext ch ((seq + 1) % 2 ^ 48) }) d
        (BitVec.ofNat 64 (ch * 2 ^ 62 + 2 ^ 61 + seq))) 4) ∧
    (bad = false → 16 ≤ c.fifo.length → Stalls (.cpy d a st) s ∧ Completes (.cpyTry d a st) s (wr s d 1) 4) ∧
    (bad = true → HasHandler s → Traps (.cpy d a st) s 0x02 7 0 0 ∧ Traps (.cpyTry d a st) s 0x02 7 0 0) ∧
    (good → ¬covered → Completes (.cpyid d a st) s (wr s d 0) 4 ∧ Stalls (.cpywait a st) s) ∧
    (good → covered → ¬failed → Completes (.cpyid d a st) s (wr s d 1) 4 ∧ Completes (.cpywait a st) s s 4) ∧
    (good → covered → failed → HasHandler s →
      ∀ i ∈ [Instr.cpyid d a st, .cpywait a st], Traps i s (if bits err 61 59 = 1 then 0x18 else 0x19) 7 xc 0) ∧
    (¬good → HasHandler s → Traps (.cpyid d a st) s 0x02 7 0 0 ∧ Traps (.cpywait a st) s 0x02 7 0 0) ∧
    (isSliceVA (widen (highOf s) x) = true → sliceTile loc = tile → sliceOff loc + 1024 * k.toNat ≤ 2 ^ 18 → x.toNat % 64 = 0 →
      sliceAllows s s.who tile = true → (getTile s tile).dictNext = none → Completes (.dictLd a k st) s
        (putTile s tile { getTile s tile with dictNext := some (readBytes s loc (1024 * k.toNat)) }) 4)

/-- R174 to R177: `sbind` binds a free stream register to the pattern of its descriptor and writes 0, or 1 when it is bound;
`sfree` frees it and zeroes the register; `sstat` reads its state, and of a stream that is not bound zero in every field, which is the
model's choice beyond BOUND (log entry 74). Stream faults are log entry 39. -/
def Obligations.StreamForms : Prop :=
  ∀ (s : State) (d a : BitVec 5) (n : BitVec 3) (st : BitVec 3), Calm [0] s →
    let k : Fin 8 := n.toFin
    let x := s.cur.streams[k]
    (x.bound = true → Completes (.sbind d a n st) s (wr s d 1) 4) ∧
    (x.bound = false → ∀ l bytes s1, checkAccess s s.who (rd s a) 64 0 = .ok l →
      loadAll l.st 64 [(rd s a, l)] = .vals [bytes] s1 →
      let p := parseStream bytes
      (p.2 = false → Completes (.sbind d a n st) s (wr { s1 with cur := putStream s1.cur k { p.1 with
        high := highOf s, gate := s.cur.seqNext, desc := rd s a } } d 0) 4) ∧
      (p.2 = true → HasHandler s → TrapsFrom (.sbind d a n st) s s1 0x02 7 0 0)) ∧
    (x.bound = false → Completes (.sfree d n st) s (wr s d 1) 4) ∧
    (x.bound = true → ¬(x.output = true ∧ x.buf ≠ []) → ¬(x.output = true ∧ x.fault = true) →
      let u := forgetStream s k.val
      Completes (.sfree d n st) s (wr { u with
        cur := (putStream u.cur k {}).vw (BitVec.ofNat 6 (56 + k.val)) 0 } d 0) 4) ∧
    (x.bound = true → x.output = true → x.buf ≠ [] → Stalls (.sfree d n st) s) ∧
    (x.bound = false → Completes (.sstat d n st) s (wr s d 0) 4) ∧
    (x.bound = true → Completes (.sstat d n st) s (wr s d (BitVec.ofNat 64 (2 ^ 63 + (if x.output then 2 ^ 62 else 0) +
      (if x.fault || x.buf.any (·.err ≠ 0) then 2 ^ 61 else 0) + x.buf.length * 2 ^ 56 + (x.total - x.taken)))) 4)

/-! ### Launches -/

/-- R314, R315: a launch record that its context may post enters the store of its die's dispatcher; with the store full
`launch` waits and `launch.try` writes 1. Denied launches are log entry 45; that a launch waits while its RCB lies behind a link in
its retrain window (R364) is log entry 68. -/
def Obligations.LaunchForms : Prop :=
  ∀ (s : State) (d a : BitVec 5) (st : BitVec 3), Calm [0] s →
    ∀ bytes s1, ImageAt s (rd s a) 80 16 (fun _ => none) bytes s1 →
      let r := parseLaunch bytes (BitVec.ofNat 16 (coreOf s1.who)) none
      let die := dieOf s1.who
      let own := regionTag s1 s1.who
      let late := tooMany s1 r = true
      let far := launchFar s1 r.rcb = true
      let posted := pump (enterLaunch s1 die r) die
      (badLaunch bytes = false → far → ∀ i ∈ [Instr.launch a st, .launchTry d a st], Stalls i s) ∧
      (badLaunch bytes = false → ¬far → ¬late → (r.rcb = own ∨ rcbField s1 r.rcb 0 8 = own) → launchBlocked s1 r = false →
        (storeFull s1 die = false →
          Completes (.launch a st) s posted 4 ∧ Completes (.launchTry d a st) s (wr posted d 0) 4) ∧
        (storeFull s1 die = true →
          exec (.launch a st) s = .next { s1 with cur := { s1.cur with wait := .stalled } } ∧
          Completes (.launchTry d a st) s (wr s1 d 1) 4)) ∧
      ((badLaunch bytes = true ∨ ¬far ∧ late) → HasHandler s → ∀ i ∈ [Instr.launch a st, .launchTry d a st], TrapsFrom i s s1 0x02 7 0 0) ∧
      (badLaunch bytes = false → ¬far → ¬late → r.rcb ≠ own → rcbField s1 r.rcb 0 8 ≠ own → HasHandler s →
        ∀ i ∈ [Instr.launch a st, .launchTry d a st], TrapsFrom i s s1 0x0D 7 0 0)

/-! ### Axis arrays and the axis unit -/

/-- R182, R192, R196 to R198: `axdef` defines an array or reports its slot as taken and a release removes it; `map.set`,
`map.swap` and `remap` change its map, `map.rd` reads it, `rmwait` waits for its wave. The order of checks and what a release
waits for are log entries 27 and 28. -/
def Obligations.AxisArrays : Prop :=
  ∀ (s : State) (d a b : BitVec 5) (st : BitVec 3), Calm [0, 3] s →
    let x := rd s a
    let y := rd s b
    (∀ img s1 g, ImageAt s x 64 64 (fun _ => none) img s1 →
      (regionOf s1 (coreOf s1.who)).bind (fun r => findRegion s1 r.1) = some g → bits (rd s1 b) 63 3 = 0 →
      let new := parseAxis img (bits (rd s1 b) 2 0) g.rcb g.clusters
      badAxis img new g.clusters.length = false →
      ((∃ z ∈ s1.arrays, z.slot = new.slot ∧ ∃ q ∈ z.tiles, q ∈ new.tiles) → Completes (.axdef d a b st) s (wr s1 d 1) 4) ∧
      ((∀ z ∈ s1.arrays, z.slot = new.slot → ∀ q ∈ z.tiles, q ∉ new.tiles) → pending s1 s1.who isStoreOrSend = false →
        Completes (.axdef d a b st) s (wr { s1 with arrays := s1.arrays ++ [new] } d
          (BitVec.ofNat 64 (2 ^ 63 + new.t * 2 ^ 15 + new.first * 8 + new.slot))) 4)) ∧
    (∀ r, arrayOf s y = some r → r.wave ≠ 1 → r.wave ≠ 2 → pending s s.who isStoreOrSend = false →
      axstPending s r.id = false → r.applies = [] →
      Completes (.axdefRelease d b st) s (wr { s with arrays := s.arrays.filter (·.id ≠ r.id) } d 0) 4) ∧
    (∀ r, arrayOf s x = some r → r.fault = false →
      let free := r.wave ≠ 1 ∧ r.wave ≠ 2
      let version := BitVec.ofNat 64 (r.version + 1)
      let l1 := bits y 5 0
      let l2 := bits y 13 8
      let p := r.map.getD l1 0
      let q := r.map.getD l2 0
      (∀ img s1, ImageAt s y 64 64 (fun _ => none) img s1 →
        isPerm r.n ((img.take r.n).map (·.toNat)) = true → (∀ z ∈ img.drop r.n, z = 0) → free →
        Completes (.mapSet d a b st) s (wr (putArr s1 { r with
          map := (img.take r.n).map (·.toNat)
          prev := (img.take r.n).map (·.toNat)
          stamps := List.replicate r.n 0
          clock := 0
          version := r.version + 1 }) d version) 4) ∧
      (bits y 63 14 = 0 → bits y 7 6 = 0 → l1 < r.n → l2 < r.n →
        (l1 = l2 → Completes (.mapSwap d a b st) s (wr s d (BitVec.ofNat 64 r.version)) 4) ∧
        (l1 ≠ l2 → free → Completes (.mapSwap d a b st) s (wr (putArr s { r with
          prev := r.map
          map := (r.map.set l1 q).set l2 p
          version := r.version + 1
          wave := 1
          swaps := [(min p q, max p q)]
          cursors := [] }) d version) 4)) ∧
      (free → Completes (.rmwait a st) s s 4) ∧
      (bits y 63 32 = 0 → ∀ l, selectors r.n y = some l →
        let named := sortNat (l.flatMap r.digit)
        let z := r.need named (asCtx s.who) (highOf s)
        named.length ≤ r.b →
        (l = [] → r.wave ≠ 1 → Completes (.remap d a b st) s (wr s d 0) 4) ∧
        (l ≠ [] → free → Completes (.remap d a b st) s (wr (putArr s z.1) d (if z.2 then 1 else 0)) 4))) ∧
    (∀ r, arrayOf s x = some r →
      (y.toNat < r.n → Completes (.mapRd d a b st) s (wr s d (BitVec.ofNat 64 (r.map.getD y.toNat 0 +
        (if r.map.getD y.toNat 0 < r.b then 0 else if r.map.getD y.toNat 0 < r.b + r.t then 1 else 2) * 2 ^ 6))) 4) ∧
      (r.n ≤ 64 → y = 64 → Completes (.mapRd d a b st) s (wr s d (BitVec.ofNat 64 (r.wave * 2 ^ 62 +
        (if r.fault then 2 ^ 61 else 0) + (if r.poison then 2 ^ 60 else 0) + r.version % 2 ^ 32))) 4)) ∧
    (∀ r, arrayOf s x = some r → r.fault = true → HasHandler s → Traps (.mapSwap d a b st) s 0x1C 7 0 0 ∧
      Traps (.remap d a b st) s 0x1C 7 0 0 ∧ Traps (.rmwait a st) s 0x1C 7 0 0) ∧
    (arrayOf s x = none → HasHandler s → Traps (.mapRd d a b st) s 0x02 7 0 0 ∧ Traps (.remap d a b st) s 0x02 7 0 0)

/-- R199: `axld` reads the elements of a register from where they are placed; `axst` puts one entry with the elements into
the store buffer, placed when it is served by the translation that stands now, and leaves memory unchanged; it joins the stream of
the core's port when an element stands in the port's tile (R144). How an `axst` is served is log entry 27. -/
def Obligations.AxisElements : Prop :=
  ∀ (s : State) (d : BitVec 6) (a b : BitVec 5) (st : BitVec 3) (r : AxArray),
    arrayOf s (rd s a) = some r →
    let idx := (rd s b).toNat
    let eas := (List.range (32 / r.z)).map fun i => (r.spot (r.place (idx + i))).addr
    idx < 2 ^ r.n → idx % (32 / r.z) = 0 →
    (∀ ls s1 vs s2, VectorReady s ⟨[], [d]⟩ → landAll s r.z 0 eas = .ok (ls, s1) → unacked s s.who (isAxst r.id) = false →
      loadAll s1 r.z ls = .vals vs s2 →
      Completes (.axld d a b st) s { s2 with cur := writeV s2.cur d (vregOf r.z (vs.map fromBytes)) } 4) ∧
    (∀ ls s1, VectorReady s ⟨[d], []⟩ → landAll s r.z 1 eas = .ok (ls, s1) → s1.cur.buf.length < 16 →
      ∃ u e, Completes (.axst d a b st) s u 4 ∧ e.body = .axst r.id r.z idx (toBytes 32 (readV s1.cur d).toNat) ∧
        e.high = highOf s1 ∧ e.troot = s1.cur.troot ∧
        e.chan = (if ∃ q ∈ ls, (routeOf s1 s1.who q.2.loc).1 = 3 then 3 else 0) ∧
        u.cur.regs = s1.cur.regs ∧ u.cur.vregs = s1.cur.vregs ∧ u.mem = s1.mem ∧ u.cur.buf = s1.cur.buf ++ [e])

/-- R252 to R257, R261, R262, R265, R267, R269: `axctx` and `axmat` load their images; `axap`, `axmm` and `axdrain` queue a
request and the first and third return its ticket; `axstat` and `axwait` test one, raise a recorded error, and refuse one that is no ticket handed out. What a request
holds from its acceptance is log entry 29. -/
def Obligations.AxisUnitForms : Prop :=
  ∀ (s : State) (d a b : BitVec 5) (v : BitVec 6) (st : BitVec 3), Calm [0, 2] s →
    let x := rd s a
    let y := rd s b
    let c := myCore s
    let tile := tileOf s.who
    let ticketOf := fun (q : State) => BitVec.ofNat 64 (2 ^ 60 + (myCore q).axNext)
    let k := 2 ^ (bits y 5 4 + 1)
    let bytes := k * k * (if bits y 8 8 = 1 then 8 else 4)
    let q := bits x 47 0
    let good := bits x 63 61 = 0 ∧ bits x 60 60 = 1 ∧ bits x 59 48 = 0 ∧ seqAfter q ((c.axNext + 2 ^ 48 - 1) % 2 ^ 48) = false
    let covered := seqLe q (bits c.axdone 47 0) = true
    let failed := bits c.axerr 63 63 = 1 ∧ seqLe (bits c.axerr 47 0) q = true
    (∀ img s1, ImageAt s x 64 64 (inOwnSlice s 64) img s1 →
      badFmt (highOf s1) (tileOf s1.who) img (parseFmt img) = false → (myCore s1).axq = [] →
      Completes (.axctx a st) s (putMyCore s1 { myCore s1 with fmt := { parseFmt img with high := highOf s1 } }) 4) ∧
    (∀ img s1, bits y 63 9 = 0 → bits y 7 6 = 0 → bits y 3 3 = 0 → ImageAt s x bytes 16 (inOwnSlice s bytes) img s1 →
      let t := getTile s1 (tileOf s1.who)
      Completes (.axmat a b st) s (putTile s1 (tileOf s1.who) { t with slots := setIx t.slots (bits y 2 0) (some {
        k := k
        cplx := bits y 8 8 = 1
        entries := (List.range (bytes / 4)).map fun i => BitVec.ofNat 32 (at_ img (4 * i) 4) }) }) 4) ∧
    (∀ r named m, arrayOf s x = some r → namedBits r y = some named → named ≠ [] → named.length ≤ min 4 r.b →
      (getTile s tile).slots.toList.getD (bits y 34 32) none = some m → bits y 63 49 = 0 → m.k = 2 ^ named.length →
      (m.cplx = true → isCplx r.fmt = true) → badDest s r y = false → r.fault = false → c.axq.length < 8 →
      r.wave ≠ 1 → r.wave ≠ 2 →
      ∃ s1 req, Completes (.axap d a b st) s (wr (acceptReq s1 req) d (ticketOf s1)) 4 ∧ req.op = 0 ∧ req.b = y ∧
        req.mat = some m ∧ req.bits = named ∧ req.left = r.tiles ∧ s1.mem = s.mem ∧ s1.cores = s.cores) ∧
    (∀ img s1 la lb, kindOf s.who = 0 → wrongWay s.cur ⟨[v], []⟩ = false → streamCheck s1.cur ⟨[v], []⟩ = none →
      ImageAt s x 64 64 (inOwnSlice s 64) img s1 →
      let p := parseMm img
      sliceAt (highOf s1) p.a = some la → sliceAt (highOf s1) p.b = some lb → sliceAllows s1 s1.who (sliceTile la) = true →
      sliceAllows s1 s1.who (sliceTile lb) = true → badMm (myCore s1).fmt p la lb = false →
      (myCore s1).axq.length < 8 →
      Completes (.axmm v a st) s (acceptReq { s1 with cur := popAll s1.cur [v] } {
        op := 1
        a := x
        desc := img
        rows := mmRows (readV s1.cur v) p.m p.arows }) 4) ∧
    ((bits y 26 26 = 1 ∨ x.toNat % 16 = 0) → drainDenied s c.fmt x y = none → badDrain c.fmt x y = false → c.axq.length < 8 →
      Completes (.axdrain d a b st) s (wr (acceptReq (drainTouch s c.fmt) { op := 2, a := x, b := y }) d (ticketOf s)) 4) ∧
    (good → ¬covered → Completes (.axstat d a st) s (wr s d 0) 4 ∧ Stalls (.axwait a st) s) ∧
    (good → covered → ¬failed → Completes (.axstat d a st) s (wr s d 1) 4 ∧ Completes (.axwait a st) s s 4) ∧
    (good → covered → failed → HasHandler s →
      ∀ i ∈ [Instr.axstat d a st, .axwait a st], Traps i s (if bits c.axerr 61 59 = 1 then 0x1A else 0x1B) 7 0 0) ∧
    (¬good → HasHandler s → Traps (.axstat d a st) s 0x02 7 0 0 ∧ Traps (.axwait a st) s 0x02 7 0 0)

/-! ### Events: stores, loads and waits -/

/-- R113, R115, R116, R140, R322, R363: an entry leaves its buffer for the mesh, the two registers of a `vst` that cover a line
as one; an acknowledgement counts in `PATHDONE` and records a failure in `STERR`; a load's reply or a host completion finishes
the load, lets later ones go first, or traps it; a replay asks for it again, once no buffered store of its context covers it. That an event whose condition fails changes nothing,
and that host data comes from outside, the words of one fetch read at one instant, are the model's choices (log entries 24 and 10), as
is when loads are deferred (2), that the two entries of a `vst`'s line leave as one message (22), and that a remote send's bounce
time starts as it leaves (57). Replies of one home to one tile keep their order (R136). -/
def Obligations.BufferEvents : Prop :=
  ∀ (s : State) (ctx i status : Nat) (data : BitVec 512),
    let c := getCtx s ctx
    (∀ e rest, c.buf = e :: rest → mayDrain s ctx e = true →
      let gone := fun (l : List StoreEntry) (n : Nat) =>
        putCtx s ctx (if e.chan = 2 then bumpSent { c with buf := l } e.path n else { c with buf := l })
      ((∀ f ∈ rest.head?, linePair e f = none) → (∀ h r, e.body ≠ .remote h r) →
        exec (.storeBufferDrain ctx) s = .next (sendMsg (gone rest 1) ctx e)) ∧
      (∀ f rest' p, rest = f :: rest' → linePair e f = some p →
        exec (.storeBufferDrain ctx) s = .next (sendMsg (gone rest' 2) ctx p)) ∧
      (∀ h r, e.body = .remote h r → bits h 52 34 ≠ bits s.dev.gxcfg 18 0 → exec (.storeBufferDrain ctx) s =
        .next { gone rest 1 with remotes := s.remotes ++ [⟨ctx, h, r, none, s.stamp, e.seq⟩] })) ∧
    (∀ e rest, c.buf = e :: rest → mayDrain s ctx e = false → exec (.storeBufferDrain ctx) s = .next s) ∧
    (∀ r, s.replies[i]? = some r → (∃ q ∈ s.replies.take i, sameWay s r q = true) → exec (.storeAck i) s = .next s ∧
      exec (.loadReply i) s = .next s ∧ exec (.mreqReply i) s = .next s) ∧
    (∀ r, replyAt s i = some r →
      let k := getCtx s r.dst
      let u := dropReply s i
      (∀ d line, r.entry.body = .store d line → r.status = 0 → exec (.storeAck i) s = .next (putCtx u r.dst
        (if r.entry.chan = 2 then bumpDone k r.entry.path (if d.length = 64 then 2 else 1) else k))) ∧
      (∀ d line, r.entry.body = .store d line → r.entry.chan ≠ 2 → r.status ≠ 0 →
        (bits k.sterr 63 63 = 0 → isSlice r.entry.loc = false → exec (.storeAck i) s = .next (putCtx u r.dst { k with
          sterr := BitVec.ofNat 64 (2 ^ 63 + r.status * 2 ^ 60 + r.entry.loc) })) ∧
        (bits k.sterr 63 63 = 1 → exec (.storeAck i) s = .next (putCtx u r.dst { k with sterr := setBits k.sterr 62 62 1 }))) ∧
      (∀ arr z idx d, r.entry.body = .axst arr z idx d → r.status = 0 → exec (.storeAck i) s = .next (putCtx u r.dst k)) ∧
      (isSend r.entry = true → exec (.storeAck i) s = .next u)) ∧
    (∀ r n slot, replyAt s i = some r → r.entry.body = .load n slot →
      let k := getCtx s r.dst
      let u := dropReply s i
      (∀ x, k.loads = [x] → x.id = slot → x.noticed = false →
        (r.status = 0 → exec (.loadReply i) s = .next (withFocus u r.dst fun v =>
          wr { v with cur := { v.cur with loads := [] } } x.d (extend x.sx x.size (fromBytes r.data % 256 ^ x.size)))) ∧
        (r.status ≠ 0 → isEngine r.dst = false → k.tvec ≠ 0 → bits k.tstatus 0 0 = 0 →
          exec (.loadReply i) s = .next (withFocus u r.dst fun v => { v with
            cur := trapCtx { v.cur with loads := [], pc := x.pc, lpctl0 := x.lp0, lpctl1 := x.lp1 }
              (if r.status = 1 then 0x10 else 0x11) 0 0 x.va }))) ∧
      (∀ x rest, k.loads = x :: rest → x.id ≠ slot → x.val = none → exec (.loadReply i) s = .next (withFocus u r.dst fun v =>
        { v with cur := slotReply v.cur slot r.status (fromBytes r.data) }))) ∧
    (∀ x, c.loads.find? (·.noticed) = some x →
      let own := c.buf.any fun e => overlaps s e { loc := x.loc, body := .load x.size x.id }
      (own = true → exec (.replayNotice ctx) s = .next s) ∧
      (own = false → exec (.replayNotice ctx) s = .next (sendMsg
        (putCtx { s with replies := s.replies.filter fun r => !(r.dst = ctx && isSlot x.id r.entry) } ctx { c with
          loads := c.loads.map fun y => if y.id = x.id then { y with served := false, val := none, noticed := false } else y }) ctx
        { loc := x.loc, leaf := x.leaf, body := .load x.size x.id }))) ∧
    ((∀ x ∈ c.loads, x.noticed = false) → exec (.replayNotice ctx) s = .next s) ∧
    (∀ d n sx len st va at1 amo, c.wait = .host d n sx len st va at1 amo →
      let v := data.toNat % 256 ^ n
      let ends := fun (w : State) => retire w len (BitVec.ofNat 3 st) (.done (wr w d (extend sx n v)) [])
      (amo = none → exec (.hostCompletion ctx 0 data) s = .next (withFocus (deliverPosted s) ctx ends)) ∧
      (∀ op b cmp, amo = some (op, b, cmp) → op ≠ 9 → exec (.hostCompletion ctx 0 data) s =
        .next (withFocus (deliverPosted s) ctx fun w => retire w len (BitVec.ofNat 3 st)
          (.done (wr (writeBytes w at1 (toBytes n (amoNew op (8 * n) v b cmp))) d (extend sx n v)) []))) ∧
      (status ≠ 0 → isEngine ctx = false → c.tvec ≠ 0 → bits c.tstatus 0 0 = 0 → exec (.hostCompletion ctx status data) s =
        .next (withFocus (deliverPosted s) ctx fun w => { w with
          cur := trapCtx w.cur (if status = 1 then 0x10 else 0x0C) (if amo.isSome then 2 else 0) 0 va }))) ∧
    (∀ at1 acc va, c.wait = .hostFill at1 acc va →
      let word := fun k => data.toNat / 2 ^ (64 * k) % 2 ^ 64
      (acc ≠ 3 → exec (.hostCompletion ctx 0 data) s = .next (withFocus (deliverPosted s) ctx fun w => { w with
        cur := { w.cur with hostGot := w.cur.hostGot ++ [(at1, word 0)], wait := .ready } })) ∧
      (acc = 3 → c.hostGot.length ≤ 7 → exec (.hostCompletion ctx 0 data) s = .next (withFocus (deliverPosted s) ctx fun w => { w with
        cur := { w.cur with
          codeAt := codeNow w
          hostGot := (at1, word 0) :: (c.hostGot.zipIdx.map fun x => if 2 ^ 64 ≤ x.1.2 then x.1 else (x.1.1, word (x.2 + 1)))
          wait := .ready } })) ∧
      (acc = 3 → status ≠ 0 → exec (.hostCompletion ctx status data) s = .next (withFocus (deliverPosted s) ctx fun w => { w with
        cur := { w.cur with
          hostGot := w.cur.hostGot ++ [(at1, 2 ^ 64 + status)]
          codeAt := if w.cur.codeAt = [] then codeNow w else w.cur.codeAt
          wait := .ready } })) ∧
      (acc ≠ 3 → status ≠ 0 → isEngine ctx = false → c.tvec ≠ 0 → bits c.tstatus 0 0 = 0 →
        exec (.hostCompletion ctx status data) s = .next (withFocus (deliverPosted s) ctx fun w => { w with
          cur := trapCtx w.cur (if status = 1 then 0x10 else 0x0C) acc 0 va })))

/-- R105, R107, R127, R128, R287, R301: events that end a wait, each only once its condition holds; a reply word is read by its
translation, which fills the TLBs, and the engine reply word answers the request whose fault is held, so that the next one may be held.
An event whose condition fails changes nothing (log entry 24); what a word behind a poisoned line says is log entry 73. -/
def Obligations.WakeEvents : Prop :=
  ∀ (s : State) (ctx : Nat),
    let c := getCtx s ctx
    (∀ t, c.wait = .pause t → (t ≤ cycleOf s ctx → exec (.pauseEnd ctx) s = .next (putCtx s ctx { c with wait := .ready })) ∧
      (cycleOf s ctx < t → exec (.pauseEnd ctx) s = .next s)) ∧
    (∀ t w fired st, c.wait = .sleep t w fired st →
      ((fired = true ∨ wakes s ctx t w = true) →
        exec (.sleepWake ctx) s = .next (withFocus s ctx fun s => retire s 4 st (.done s []))) ∧
      (fired = false → wakes s ctx t w = false → exec (.sleepWake ctx) s = .next s)) ∧
    (∀ t st, c.wait = .realign t st → (t + 4096 ≤ 2 * s.stamp → exec (.realignTimeout ctx) s = .next (leaveRealign s ctx)) ∧
      (2 * s.stamp < t + 4096 → exec (.realignTimeout ctx) s = .next s)) ∧
    (∀ line addr b k z st, c.wait = .monitor line true addr b k z st →
      exec (.waitWake ctx) s = .next (withFocus s ctx fun s => retire s 4 st (waitBody addr b k z st s))) ∧
    (∀ line addr b k z st, c.wait = .monitor line false addr b k z st → exec (.waitWake ctx) s = .next s) ∧
    (∀ t addr b k z st, c.wait = .poll t addr b k z st → t ≤ 2 * s.stamp →
      exec (.waitPoll ctx) s = .next (withFocus s ctx fun s => retire s 4 st (waitBody addr b k z st s))) ∧
    (∀ code k va w l, c.wait = .pager code k va w → replyLoc s ctx (isEngine ctx) 0 = some l → farWaits s l = false →
      (readNat s l 8 = 0 → exec (.pagerReply ctx) s = .next s) ∧
      let u := replyTouch s ctx (isEngine ctx) 0
      (readNat s l 8 = 1 → exec (.pagerReply ctx) s = .next (putCtx u ctx { c with wait := .ready })) ∧
      (1 < readNat s l 8 → ctx = s.who → HasHandler s →
        exec (.pagerReply ctx) s = .next { u with cur := trapCtx s.cur code k 0 va })) ∧
    (∀ f l, c.engFault = some f → replyLoc s ctx true 0 = some l → farWaits s l = false →
      (readNat s l 8 = 0 → exec (.engineFaultReply ctx) s = .next s) ∧
      let u := replyTouch s ctx true 0
      (f.1 ≠ goneKey → readNat s l 8 ≠ 0 → exec (.engineFaultReply ctx) s =
        .next (putCtx u ctx { c with engFault := none, engSaid := c.engSaid ++ [(f.1, decide (readNat s l 8 = 1))] })) ∧
      (f.1 = goneKey → readNat s l 8 ≠ 0 → exec (.engineFaultReply ctx) s = .next (putCtx u ctx { c with engFault := none })))

/-! ### Events: records, barriers and the tree -/

/-- R75, R277 to R282, R146 to R150: what a record, an `mreq` reply, a barrier message or a contribution does when it
arrives, and the start of an idle context's next task; a record waits behind those of its inbox that the device made before it, and a
counted one for a saved region goes to its spill ring, to be counted and acknowledged at the restore. That a counted record whose region
is gone is acknowledged uncounted is the model's reading (log entry 50).
Disagreeing contributions are log entry 44, that a record whose creator's stores have not reached their homes starts no task is log
entry 66, and that an event whose condition fails changes nothing is log entry 24. -/
def Obligations.MessageEvents : Prop :=
  ∀ (s : State) (ctx i : Nat) (m : Msg),
    (s.net[i]? = some m → mayServe s i m = true →
      (∀ core r, m.entry.body = .record core r →
        (r.cnt = false → ∀ g, regionFor s m.entry.rcb core.toNat = some g →
          let first := m.src = devAgent core.toNat ∨ recordWaits s g.rcb core.toNat r.pri = false
          (∀ u, first → acceptAt s g core.toNat r.pri r = some u →
            exec (.recordArrival i) s = .next (reply (dropMsg u i) m 0 [])) ∧
          (¬first ∨ acceptAt s g core.toNat r.pri r = none → exec (.recordArrival i) s = .next s)) ∧
        (r.cnt = false → regionFor s m.entry.rcb core.toNat = none →
          exec (.recordArrival i) s = .next (reply (dropMsg s i) m 0 [])) ∧
        (r.cnt = true → savedFor (dropMsg s i) m.entry.rcb core.toNat = none →
          ((m.entry.rcb = 0 ∨ regionFor (dropMsg s i) m.entry.rcb core.toNat ≠ none) →
            exec (.counterDecrement i) s = .next (reply (countRecord (dropMsg s i) core.toNat r.cid.toNat) m 0 [])) ∧
          (m.entry.rcb ≠ 0 → regionFor (dropMsg s i) m.entry.rcb core.toNat = none →
            exec (.counterDecrement i) s = .next (reply (dropMsg s i) m 0 []))) ∧
        (r.cnt = true → ∀ g, savedFor (dropMsg s i) m.entry.rcb core.toNat = some g →
          (∀ u, spillInto (dropMsg s i) g core.toNat r.pri r (some m) = some u → exec (.counterDecrement i) s = .next u) ∧
          (spillInto (dropMsg s i) g core.toNat r.pri r (some m) = none → exec (.counterDecrement i) s = .next s))) ∧
      (∀ core b kid, m.entry.body = .barArrive core b kid →
        exec (.barrierArrival i) s = .next (reply (arriveBar (dropMsg s i) core b kid) m 0 [])) ∧
      (∀ core b, m.entry.body = .barRelease core b →
        exec (.barrierRelease i) s = .next (reply (releaseBar (dropMsg s i) core b) m 0 []))) ∧
    (∀ r tag, replyAt s i = some r → r.entry.body = .mreqRead tag →
      ∀ g u, recordRegion s (coreOf r.dst) = some g → (∀ x ∈ regionOf s (coreOf r.dst), rcbFar s x.1 [(0x18, 64)] = false) →
        recordWaits s g.rcb (coreOf r.dst) (isHigh r.dst) = false →
        acceptAt s g (coreOf r.dst) (isHigh r.dst) (mreqRec s r tag false) = some u →
        let v := dropReply u i
        let c := getCtx v r.dst
        exec (.mreqReply i) s = .next (tryStart (putCtx v r.dst { c with mreqs := c.mreqs - 1 }) r.dst)) ∧
    ((getCtx s ctx).run = .idle → isEngine ctx = false → coreRuns s (coreOf ctx) = true → startFar s (coreOf ctx) = false →
      (nextChoice s ctx true = none → exec (.taskStart ctx) s = .next s) ∧
      ∀ r u, nextChoice s ctx true = some (r, u) →
        (gateMet s r = true → exec (.taskStart ctx) s = .next (startRecord u ctx r)) ∧
        (gateMet s r = false → exec (.taskStart ctx) s = .next s)) ∧
    ((getCtx s ctx).run ≠ .idle → exec (.taskStart ctx) s = .next s) ∧
    (isEngine ctx = false →
      let q := fun (o : Nat) => treeLoc ctx o
      let head := readNat s (q 0x200) 8
      let v := readNat s (q (16 * (head % 16))) 8
      let h := readNat s (q (16 * (head % 16) + 8)) 8
      let cl := clusterOf ctx
      head < readNat s (q 0x208) 8 → nodeFull (getCluster s cl).node (regionTag s ctx) h = false →
      let u := sysWrite s (q 0x200) 8 (head + 1)
      let w := putCluster u cl { getCluster u cl with node := treeAdd (getCluster u cl).node (regionTag u ctx) h v false [ctx] }
      exec (.treeContribution ctx) s = .next (settle w (3 * treeSize w))) ∧
    (∀ c v h tag, s.results[i]? = some (c, v, h, tag) → regionTag s c = tag →
      let u := { s with results := s.results.eraseIdx i }
      let tail := readNat s (treeLoc c 0x218) 8
      tail - readNat s (treeLoc c 0x210) 8 < 16 →
      exec (.treeResult i) s = .next (sysWrite (sysWrite (sysWrite u (treeLoc c (0x100 + 16 * (tail % 16))) 8 v)
        (treeLoc c (0x100 + 16 * (tail % 16) + 8)) 8 h) (treeLoc c 0x218) 8 (tail + 1)))

/-! ### Events: engines -/

/-- R151, R163, R164, R166, R173, R174, R144: the transfer unit's turns, completions, dictionaries, streams and ports. That
a copy moves in steps, in turn with the others of its FIFO, is the model's choice (log entry 25), as is what a route's opening does
when a link is taken (38). After a restore the route is open again before the context issues. -/
def Obligations.TransferEvents : Prop :=
  ∀ (s : State) (core tile ctx : Nat) (n : Fin 8),
    let k := getCore s core
    let x := (getCtx s ctx).streams[n]
    (∀ i c, (rrCores (core / 4) (getTile s (core / 4)).rrCopy).find? (fun j => (nextCopy s j).isSome) = some core →
      nextCopy s core = some i → k.fifo[i]? = some c →
      (c.started = true ∨
        (((rrCores (core / 4) 0).map fun j => ((getCore s j).fifo.filter fun x => x.started && !x.moved).length).foldl (· + ·) 0) < 16) →
      let u := putTile s (core / 4) { getTile s (core / 4) with rrCopy := (core + 1) % 4 }
      let r := runCopy u (core / 4) c
      let f := (getCore r.2 core).fifo
      exec (.copyStart core) s = .next (putCore r.2 core { getCore r.2 core with
        fifo := f.set i { r.1 with turn := f.foldl (fun n x => max n x.turn) 0 + 1 } })) ∧
    (∀ c, k.fifo = [c] → c.moved = true → c.ch < 4 → k.cpyEarly = [] → bits (k.cpydone.toList.getD c.ch 0) 47 0 + 1 = c.seq →
      c.seq < 2 ^ 48 →
      exec (.copyComplete core) s = .next (putCore s core { k with
        fifo := []
        cpydone := setIx k.cpydone c.ch (setBits (k.cpydone.toList.getD c.ch 0) 47 0 c.seq)
        cpyerr := setIx k.cpyerr c.ch (recordErr (k.cpyerr.toList.getD c.ch 0) c.err c.seq) })) ∧
    (∀ d, (getTile s tile).dictNext = some d →
      exec (.dictFillComplete tile) s = .next (putTile s tile { getTile s tile with dict := d, dictNext := none })) ∧
    (∀ p, k.port = some p → p.routed = false →
      let links := routeLinks (core / 64) (p.tile / 16)
      ((∀ l ∈ links[p.held]?, linkTaken s core l = false) → exec (.portRouteOpen core) s = .next (putCore s core { k with
        port := some { p with
          held := p.held + 1
          routed := decide (links.length ≤ p.held + 1)
          reopening := p.reopening && decide (p.held + 1 < links.length) } })) ∧
      ((∃ l ∈ links[p.held]?, linkTaken s core l = true) → exec (.portRouteOpen core) s = .next s)) ∧
    (∀ p, k.port = some p → p.reopening = true → coreOf p.ctx = core → issuer s core ≠ some p.ctx) ∧
    (x.bound = true → x.output = false → x.moved < x.total → x.buf.length < 4 → gateOpen s ctx x.gate = true →
      ∀ d bad u, engRead s (streamUnit ctx n.val x.moved) ctx x.high (streamAddr x x.moved) 32 = .ok d bad u →
        let v := dropWords u ctx (streamUnit ctx n.val x.moved).key
        let c := getCtx v ctx
        let y := c.streams[n]
        exec (.streamFetch ctx n.val) s = .next (putCtx v ctx (putStream c n { y with
          buf := y.buf ++ [{ data := vregOfBytes d, err := firstBad bad }], moved := y.moved + 1 }))) ∧
    (∀ e rest, x.buf = e :: rest → x.bound = true → x.output = true → gateOpen s ctx x.gate = true →
      let lands := engLands s (streamUnit ctx n.val x.moved) ctx x.high [(streamAddr x x.moved, toBytes 32 e.data.toNat)]
      let next := fun (u : State) (bad : Bool) =>
        let c := getCtx u ctx
        let y := c.streams[n]
        putCtx u ctx (putStream c n { y with buf := y.buf.drop 1, moved := y.moved + 1, fault := y.fault || bad })
      (∀ loc leaf d u, lands = .ok [(loc, leaf, d)] u →
        let w := engServe u (streamUnit ctx n.val x.moved).place loc leaf d
        exec (.streamWrite ctx n.val) s = .next (next w.2 (decide (w.1 ≠ 0)))) ∧
      (∀ u, lands = .fail u → exec (.streamWrite ctx n.val) s = .next (next u true)))

/-- R186, R187, R193, R255 to R257, R263: the Fennel agent of a tile exchanges the next line set it owns; the axis unit takes
up the request whose turn it is, and a finished request leaves its queue with `AXDONE` and `AXERR` brought up to it. That one
step exchanges a set, and does a whole share, is the model's choice (log entries 26 and 28). -/
def Obligations.AxisEvents : Prop :=
  ∀ (s : State) (tile slot : Nat),
    let t := getTile s tile
    let turn := ((List.range 5).map fun k => (t.rrAx + k) % 5).find? fun k =>
      if k < 4 then coreTurn s (4 * tile + k) else (nextSpan s tile).isSome
    (∀ a, s.arrays = [a] → a.slot = slot → a.wave = 2 → tile ∈ a.tiles → coreRuns s (4 * tile) = true →
      let q := a.tiles.findIdx (· = tile)
      (a.ownerDone q = false → exec (.fennelExchangeStep tile slot) s = .next (exchangeSet s a q (a.groupNo q (a.doneGroups q)))) ∧
      (a.ownerDone q = true → exec (.fennelExchangeStep tile slot) s = .next s)) ∧
    (turn = none → exec (.axisRequestStart tile) s = .next s) ∧
    (∀ k r rest, k < 4 → turn = some k → (getCore s (4 * tile + k)).axq = r :: rest →
      exec (.axisRequestStart tile) s = .next (startReq (putTile s tile { t with rrAx := (k + 1) % 5 }) tile (4 * tile + k) r)) ∧
    (∀ k r rest, (rrCores tile 0).find? (fun k => ((getCore s k).axq.head?).any fun r =>
        r.done && !(r.op = 2 && bits r.b 26 26 = 1 && wakePending s tile)) = some k → (getCore s k).axq = r :: rest → r.op ≠ 0 →
      exec (.axisRequestComplete tile) s = .next (putCore s k { getCore s k with
        axq := rest
        axdone := setBits (getCore s k).axdone 47 0 r.seq
        axerr := recordErr (getCore s k).axerr r.err r.seq }))

/-! ### Events: memory -/

/-- R73, R77 to R83, R95, R115: motions start and abort, copy a line a step, and end with a sweep; epochs halve the counts; a
reservation runs out; a walk fills the TLBs; an uncorrectable error poisons its line. The moments at which a motion reads and
changes its leaf, and the fate of a frame, are log entries 32 to 34. -/
def Obligations.MotionEvents : Prop :=
  ∀ (s : State) (die i loc ctx acc : Nat) (va : VAddr),
    let d := getDie s die
    (∀ m rest, d.queue = m :: rest → d.active.length < 16 → recRoom s = true → s.recs = [] →
      ringFar s m.loc (sizeCode m.log) = false →
      let e := readNat s m.leaf 16
      let u := putDie s die { d with queue := rest }
      let same := e % 4 = 2 ∧ entryFrame e = m.src ∧ leafLog e = m.log ∧ nbits e 7 7 = 1
      (¬same → exec (.turnipMotionStart die) s = .next (postAbort u m 5)) ∧
      (same → takeFrame u m.loc (sizeCode m.log) = none → exec (.turnipMotionStart die) s = .next (postAbort u m 2)) ∧
      (same → ∀ f v, takeFrame u m.loc (sizeCode m.log) = some (f, v) → exec (.turnipMotionStart die) s =
        .next (putDie v die { getDie v die with active := (getDie v die).active ++ [{ m with old := e, dst := f, cursor := 0 }] }))) ∧
    (∀ m, d.active[i]? = some m → m.forwarding = false →
      let p := m.src + 64 * m.cursor
      let q := m.dst + 64 * m.cursor
      farLost s p = false → farLost s q = false → farWaits s p = false → farWaits s q = false → writeWaits s m.leaf = false →
      (∀ r ∈ s.reserved, r.row ≠ rowOf (forwarded s p) ∧ r.row ≠ rowOf (forwarded s q)) → isPoisoned s q = false →
      m.cursor + 1 < 2 ^ m.log / 64 →
      exec (.turnipCopyStep die i) s = .next (putDie (copyLine s m) die { d with
        active := d.active.set i { m with cursor := m.cursor + 1 } })) ∧
    (∀ m, d.active[i]? = some m → m.forwarding = true → frameBusy s m = false → recRoom s = true → s.recs = [] →
      let u := dropTlb (putDie s die { d with active := d.active.eraseIdx i }) fun e => e.leaf = m.leaf && e.frame = m.src
      exec (.sweepComplete die i) s = .next (postRec { u with hot := mapSet {} u.hot m.src {} } (motionRec m m.dst 0 1))) ∧
    (epochDue s = false → exec .epochEnd s = .next s) ∧
    (s.stamp / epochLen s = s.lastEpoch / epochLen s + 1 → bits s.dev.motionctl 37 37 = 0 → exec .epochEnd s = .next { s with
      hot := (s.hot.map fun h => (h.1, halve h.2)).filter fun h => h.2 ≠ {}
      lastEpoch := s.stamp }) ∧
    (∀ r, s.reserved[i]? = some r → r.last + 2048 ≤ 2 * s.stamp →
      exec (.rowReservationTimeout i) s = .next { s with reserved := s.reserved.eraseIdx i }) ∧
    (∀ e u, translate s (coreOf ctx) (getCtx s (asCtx ctx)).troot va acc = .ok (e, u) → exec (.pageWalk ctx va acc) s = .next u) ∧
    (∃ u, exec (.softError loc false) s = .next u ∧ ((∀ k < 4, (getDie s k).active = []) → isPoisoned u loc = true ∧ u.mem = s.mem)) ∧
    (∃ u, exec (.softError loc true) s = .next u ∧ u.poison = s.poison ∧ u.mem = s.mem)

/-! ### Events: scheduling -/

/-- R273, R274, R288, R290, R306 to R317, R356, R360: the dispatcher takes a queue's record, a region is granted, charged,
saved, restored and done, its counts are flushed, its teams start, and a core chooses the context that it issues from.
Readings of these rules are log entries 45 to 50; the state 6 of a region that is being saved is the model's own (50). What a
save writes and a restore reads beside the manual's fields is log entry 13, that the mailbox's save is an event is log entry 12, and
that what these events read waits for a link in its retrain window (R364) is log entry 68. -/
def Obligations.SchedulerEvents : Prop :=
  ∀ (s : State) (q die rcb core : Nat),
    let c := getCore s core
    let cl := core / 64
    (q < 16 → s.pstate < 2 → s.recovering = false →
      let d := getDie s (q % 4)
      let base := s.dev.lqbase.toList.getD q 0
      let h := s.dev.lqhead.toList.getD q 0
      let u := putDie { s with dev := { s.dev with lqhead := setIx s.dev.lqhead q (setBits h 31 0 (bits h 31 0 + 1)) } } (q % 4)
        { d with rrQueue := (q / 4 + 1) % 4 }
      let at1 := bits base 51 7 * 128 + 128 * (bits h 31 0 % 2 ^ bits base 4 0)
      let b := readBytes s at1 80
      let l := parseLaunch b 0x8000 (some q)
      ((List.range 4).map fun k => (d.rrQueue + k) % 4).find? (fun k => queueReady s (q % 4 + 4 * k)) = some (q / 4) →
      storeFull s (q % 4) = false → farWaits s at1 = false → (badLaunch b = true ∨ launchFar s l.rcb = false) →
      exec (.dispatcherTakeRecord q) s =
        .next (if badLaunch b || tooMany u l then reportDiscard u (q % 4) l else pump (enterLaunch u (q % 4) l) (q % 4))) ∧
    (∀ g, grantChoice s die = some g → g.state = 1 → s.pstate < 2 → s.recovering = false → priosFar s = false → imageFar s g.rcb = false →
      (∀ k ∈ (freeClusters s g.die).take (rcbBcl s g.rcb), clusterQuiet s k = true) →
      exec (.regionGrant die) s = .next (grantLaunch s g)) ∧
    (grantChoice s die = none → exec (.regionGrant die) s = .next s) ∧
    (∀ g, findRegion s rcb = some g →
      (g.state = 2 → regionIdle s g = true → booksFar s rcb = false → exec (.regionDone rcb) s =
        .next (pumpAll (setStatus (dropRegion (closeBooks s g) g false) rcb 4 0))) ∧
      (g.state = 2 → regionIdle s g = false → exec (.regionDone rcb) s = .next s) ∧
      (g.state = 2 → chainFar s chain rcb = false →
        let u := judgeBudgets (charge s g)
        exec (.budgetExhausted rcb) s = .next u ∧ u.mem = (charge s g).mem ∧
          (chainFar (charge s g) chain rcb = false → exhausted (charge s g) chain rcb = true → ∃ g1, findRegion u rcb = some g1 ∧ g1.overBudget = true)) ∧
      (wantsSave s g = true → exec (.duskSave rcb) s =
        .next (let u := putRegion s { g with state := 6 }
          if regionSettled u g && !areaFar u g then saveImage u { g with state := 6 } else u)) ∧
      (wantsSave s g = false → exec (.duskSave rcb) s = .next s) ∧
      (g.state = 3 → s.pstate < 2 → priosFar s = false → areaFar s g = false → (grantChoice s g.die).map (·.rcb) = some rcb → (∀ k ∈ g.clusters, clusterQuiet s k = true) →
        let img := g.image.getD {}
        let area := rcbField s rcb 0x28 8
        let u := (g.clusters.zip (List.range g.clusters.length)).foldl (fun v p => clusterIn v g img area p.1 p.2) (agePassed (claimWaiting s) g)
        let w := { u with arrays := u.arrays ++ arraysIn u g img area }
        let v := beginRun w { g with
          image := none
          base := fullImage w g area } g.clusters
        exec (.duskRestore rcb) s = .next (pumpAll ((g.clusters.flatMap fun k => (List.range 64).map (64 * k + ·)).foldl
          (fun s c => recount (refill (refill s rcb c true) rcb c false) rcb c) v))) ∧
      (bits s.dev.secst 1 0 ≠ 0 → s.pstate < 3 → g.state = 2 →
        exec (.mailboxDuskSave rcb) s = .next (putRegion s { g with state := 6 })) ∧
      (bits s.dev.secst 1 0 = 0 → exec (.mailboxDuskSave rcb) s = .next s)) ∧
    ((∀ x ∈ (getCluster s cl).region, rcbFar s x.1 [(0x30, 2 ^ 20)] = false) → exec (.utilFlush cl) s = .next (flushUtil s cl)) ∧
    (∀ k d l, (getCluster s cl).region = some (rcb, k) → (getCluster s cl).team = none → coreRuns s core = true →
      startFar s core = false →
      [0, 1, 2, 3].findSome? (fun d => ((firstOfRegion (getDie s d).store rcb).filter fun l => l.kind = 1 && l.clk = k).map
        fun l => (d, l)) = some (d, l) →
      let u := putDie s d { getDie s d with store := (getDie s d).store.erase l }
      let at1 := rcbField u rcb 0x10 8 + 8 * l.cls.toNat
      exec (.teamStart core) s = .next (pump (startTeam u cl (BitVec.ofNat 64 (readNat u at1 8 / 2 * 2)) at1
        (2 ^ (l.core + 1) - 1) l.carried) d)) ∧
    (∀ a, issuer s core = some a → exec (.issueChoice core) s = .next (focus s a)) ∧
    (issuer s core = none → exec (.issueChoice core) s = .next s) ∧
    (∀ n, c.lowTill = none → c.starve = 65535 → (c.counted true true n).lowTill = some (n + 1 + 1024)) ∧
    (65536 ≤ c.starve → c.lowTill = none →
      exec (.lowPrecedenceStart core) s = .next (putCore s core { c with lowTill := some (2 * s.stamp + 1024) })) ∧
    (∀ t, c.lowTill = some t → t ≤ 2 * s.stamp →
      exec (.lowPrecedenceEnd core) s = .next (putCore s core { c with lowTill := none, starve := 0 }))

/-! ### Events: the device's edges -/

/-- R377 to R384: event records, Noon's sample, the power states, Dawn and the mailbox. LIMIT follows `PWRCAP` and the firmware's
thermal tables, a token's or an image's verdict, its measurement and a signature are the firmware's, and whether Plebex starts is
open: they are free values (log entries 5 and 6); the commands of
the mailbox are events, and the layout of a report, what Noon lets through and details of power states and of Dawn are the model's
reading (log entries 12, 14 and 51 to 54). -/
def Obligations.DeviceEvents : Prop :=
  ∀ (s : State) (watts : List Nat) (absent : BitVec 12) (links : BitVec 16) (bytes : List Byte) (p : BitVec 4),
    (firstEvent s.events = none → exec .eventPost s = .next s) ∧
    (∀ e, firstEvent s.events = some e → e.stampv + 64 ≤ s.stamp → evRoom s = true →
      let t := bits s.dev.evptr 63 32
      let at1 := bits s.dev.evring 51 6 * 64 + 32 * (t % 2 ^ bits s.dev.evring 4 0)
      let u := sysBytes s at1 (eventBytes e)
      exec .eventPost s = .next { u with
        events := u.events.erase e
        dev := { u.dev with evptr := setBits u.dev.evptr 63 32 (t + 1) } }) ∧
    (s.stamp < s.sampleAt → exec (.noonSample watts) s = .next s) ∧
    (s.sampleAt ≤ s.stamp →
     let limit := min (bits s.dev.pwrcap 11 0) (Config.thermalLimit s.tick)
     let past := s.draws.take 999
     let floor := floorDraw fun k => watts.getD k 0
     let r := reserve limit
     let drawn := min (watts.take 7).sum (drawBound s.draws limit floor)
     ∃ t, exec (.noonSample watts) s = .next t ∧ t.mem = s.mem ∧ bits t.dev.pwrstat 31 16 = limit ∧ t.sampleAt = s.stamp + 1000 ∧
      t.draws = drawn :: past ∧ min floor r ≤ drawn ∧
      (past.sum + r ≤ (past.length + 1) * limit → t.draws.sum ≤ t.draws.length * limit) ∧
      ((∀ j ≤ 999, (s.draws.take j).sum + (1000 - j) * r ≤ 1000 * limit) →
        ∀ j ≤ 1000, (t.draws.take j).sum + (1000 - j) * r ≤ 1000 * limit) ∧
      ((∀ j ≤ 9, (s.draws.take j).sum + (10 - j) * r ≤ 12 * limit) →
        ∀ j ≤ 10, (t.draws.take j).sum + (10 - j) * r ≤ 12 * limit) ∧
      (2 ≤ s.pstate → t.pstate = s.pstate) ∧
      (s.pstate < 2 → limit < (watts.take 7).sum ∨ drawn < (watts.take 7).sum → t.pstate = 1)) ∧
    (s.pstate < 2 → s.recovering = false → deviceIdle s = true → s.idleSince + 1000000 ≤ s.stamp →
      exec .enterP2 s = .next (setPstate s 2)) ∧
    ((deviceIdle s = false ∨ s.stamp < s.idleSince + 1000000) → exec .enterP2 s = .next s) ∧
    (s.pstate = 2 → s.wakeAt ≠ none → s.grx = [] → exec .p2Wake s = .next { setPstate s 0 with idleSince := s.stamp }) ∧
    (∀ t, s.wakeAt = some t → s.pstate = 3 → t + 5000000 ≤ s.stamp →
      ∃ u, exec .p3Exit s = .next u ∧ u.pstate = 0 ∧ u.mem = s.mem.filter fun c => !isSlice c.1) ∧
    (Config.plebexStarts s.tick = false →
      ∃ u, exec (.dawn absent links) s = .next u ∧ u.pstate = 4 ∧ u.isReady = false ∧ u.regions = [] ∧ u.net = []) ∧
    (Config.plebexStarts s.tick = true → Config.imageVerifies s.image = false →
      ∃ u, exec (.dawn absent links) s = .next u ∧ u.recovering = true ∧ u.isReady = false ∧ u.regions = [] ∧ u.net = []) ∧
    (Config.plebexStarts s.tick = true → Config.imageVerifies s.image = true → ∃ u, exec (.dawn absent links) s = .next u ∧ u.recovering = false ∧ u.isReady = true ∧
      u.absent = absent ∧ u.regions = [] ∧ u.draws = s.draws ∧ u.sampleAt = s.sampleAt ∧ u.pstate = 0 ∧ u.dev.secst = 0 ∧ u.dev.lqbase = State.reset.dev.lqbase ∧
      (∀ c ∈ u.mem, 2 ^ 44 ≤ c.1 ∧ c.1 < 2 ^ 52)) ∧
    (s.pstate ≠ 4 → Config.imageVerifies bytes = true → s.recovering = false →
      exec (.mailboxImage bytes) s = .next { s with image := bytes }) ∧
    (s.pstate ≠ 4 → Config.imageVerifies bytes = true → s.recovering = true → ∃ u, exec (.mailboxImage bytes) s = .next u ∧
      u.image = bytes ∧ u.booted = bytes ∧ u.recovering = false ∧ u.isReady = true ∧ u.mem = s.mem) ∧
    (s.pstate ≠ 4 → Config.imageVerifies bytes = false → s.recovering = true →
      exec (.mailboxImage bytes) s = .next (logEvent s 0x5200 0 0)) ∧
    (s.pstate ≠ 4 → Config.imageVerifies bytes = false → s.recovering = false → exec (.mailboxImage bytes) s = .next s) ∧
    (s.pstate ≠ 4 → s.recovering = false → bytes.length = 32 →
      let report := Config.measurement s.booted ++ toBytes 8 (Config.imageVersion s.booted) ++ toBytes 8 s.dev.secst.toNat ++
        toBytes 8 (bits s.dev.gxcfg 18 0) ++ bytes ++ toBytes 8 (s.stamp % 2 ^ 64)
      exec (.mailboxAttest bytes) s = .next { s with mailbox := report ++ Config.signature s.identity report }) ∧
    (s.pstate ≠ 4 → s.recovering = false → bits s.dev.secst 1 0 = 0 →
      ∃ u, exec (.mailboxDebugToken bytes) s = .next u ∧
        (Config.tokenGrants bytes s.nonce = 1 → u.dev.secst = 1 ∧ u.mem = s.mem) ∧
        (Config.tokenGrants bytes s.nonce = 2 → u.dev.secst = 2 ∧ ∀ c ∈ u.mem, 2 ^ 44 ≤ c.1 ∧ c.1 < 2 ^ 52) ∧
        (Config.tokenGrants bytes s.nonce ≠ 1 → Config.tokenGrants bytes s.nonce ≠ 2 → u.dev = s.dev ∧ u.mem = s.mem)) ∧
    (bits s.dev.secst 1 0 ≠ 0 → exec (.mailboxDebugToken bytes) s = .next s) ∧
    (s.recovering = false → s.pstate ≠ 4 → (p = 3 ∧ s.pstate ≠ 3 ∨ p = 4) →
      (∀ g ∈ s.regions, g.state ≠ 1 ∧ g.state ≠ 2 ∧ g.state ≠ 6 ∧ g.state ≠ 7) →
      ∃ u, exec (.mailboxPowerCommand p) s = .next u ∧ u.pstate = p.toNat ∧ u.mem = s.mem ∧ u.regions = s.regions) ∧
    (s.pstate = 3 → p = 0 → s.recovering = false → s.wakeAt = none →
      exec (.mailboxPowerCommand p) s = .next { s with wakeAt := some s.stamp })

/-- R361 to R363, R328: what the host reads and writes: BAR0, a slice or main memory where the tables let it, its own memory; its
AtomicOps FetchAdd, Swap and CAS at a slice or main memory, a CAS reaching as far as one of its two operands. One that its tables
let through counts a request for the page of each of its lines, from the place of port 0 on the mesh (R82, log entry 34).
An access to a reserved bank waits (R73), and one whose lines or tables lie behind a link in its retrain window (R364, log entry 68). The kinds
of an access, `hostOut` and `hostWaits` are the model's own (log entry 55). -/
def Obligations.HostAccesses : Prop :=
  ∀ (s : State) (k : BitVec 4) (addr : Nat) (data : List Byte),
    let n := data.length
    let cas := k = 10 ∨ k = 13
    let m := if cas then n / 2 else n
    let bar2 := k = 2 ∨ k = 3 ∨ k = 8 ∨ k = 9 ∨ k = 10
    let loc := if bar2 then 2 ^ 52 + addr else addr
    let fits := addr + m ≤ (if bar2 then 2 ^ 30 else 2 ^ 42)
    let rmw := k = 8 ∨ k = 9 ∨ k = 10 ∨ k = 11 ∨ k = 12 ∨ k = 13
    let good := (m = 4 ∨ m = 8) ∧ loc % m = 0 ∧ (hostMay s loc).1 = true ∧ (hostMay s loc).2 = true
    let ps := linePieces (m / 64 + 2) loc m
    let free := ∀ q ∈ ps, bankBusy s q.1 4096 = false ∧ verdictFar s q.1 = false ∧
      (if k = 2 ∨ k = 4 then (hostMay s q.1).1 = true → farWaits s q.1 = false else (hostMay s q.1).2 = true → writeWaits s q.1 = false)
    s.posted = [] → s.hostWaits = [] → s.pstate ≠ 4 → s.pstate ≠ 3 → s.recovering = false →
    (addr + n ≤ 2 ^ 24 → exec (.hostAccess 0 addr data) s = .next (hostDone s 0 (bar0Read s addr n)) ∧
      exec (.hostAccess 1 addr data) s = .next (hostDone (bar0Write s addr data) 0 [])) ∧
    ((k = 2 ∨ k = 4) → fits → free →
      exec (.hostAccess k addr data) s = .next (hostDone (if ps.all (fun q => (hostMay s q.1).1) then ps.foldl (fun u q => countHot u q.1 0 0) s else s)
        (hostRead s ps).1 (hostRead s ps).2)) ∧
    ((k = 3 ∨ k = 5) → fits → free →
      ((∀ q ∈ ps, (hostMay s q.1).2 = true) → exec (.hostAccess k addr data) s =
        .next (hostDone (hostWrite (ps.foldl (fun u q => countHot u q.1 0 0) s) ps data) 0 [])) ∧
      ((∃ q ∈ ps, (hostMay s q.1).2 = false) → exec (.hostAccess k addr data) s = .next (hostDone s 1 []))) ∧
    (rmw → fits → free →
      (¬good → exec (.hostAccess k addr data) s = .next (hostDone s 1 [])) ∧
      let c := countHot s loc 0 0
      (good → (serveRead c loc m).1 ≠ 0 → exec (.hostAccess k addr data) s = .next (hostDone c 2 [])) ∧
      (good → ∀ old, serveRead c loc m = (0, toBytes m old) → old < 256 ^ m →
        let x := at_ data 0 m
        let new := if cas then (if old = x then at_ data m m else old) else if k = 8 ∨ k = 11 then (old + x) % 256 ^ m else x
        exec (.hostAccess k addr data) s = .next (hostDone (serveWrite c loc (toBytes m new) false).2 0 (toBytes m old)))) ∧
    ((k = 2 ∨ k = 3 ∨ k = 4 ∨ k = 5 ∨ rmw) → fits → ¬free →
      exec (.hostAccess k addr data) s = .next { s with hostWaits := [(k.toNat, addr, data)] }) ∧
    (addr + n ≤ 2 ^ 48 → exec (.hostAccess 6 addr data) s = .next (hostDone s 0 (readBytes s (2 ^ 51 + addr) n)) ∧
      exec (.hostAccess 7 addr data) s = .next (hostDone (writeBytes s (2 ^ 51 + addr) data) 0 [])) ∧
    ((k = 2 ∨ k = 3 ∨ k = 4 ∨ k = 5 ∨ rmw) → ¬fits → exec (.hostAccess k addr data) s = .next (hostDone s 1 [])) ∧
    (2 ^ 24 < addr + n → exec (.hostAccess 0 addr data) s = .next (hostDone s 1 []) ∧
      exec (.hostAccess 1 addr data) s = .next (hostDone s 1 []))

/-- R85, R364 to R370, R376: links to the far tier and to other devices: loss and return, with which what waited for the link goes on
(log entry 68), flits, replay, retraining, streams, bounces, time. Details of the protocol are the model's choice (log entries 56 to
58), as is what DETAIL holds in the event records of links: the device number for a link of the far tier, 0 for a link to another
device (log entry 51). -/
def Obligations.LinkEvents : Prop :=
  ∀ (s : State) (dev l i : Nat) (flit : List Nat) (count : BitVec 64),
    let x := getLink s l
    ((∃ f ∈ s.far, f.dev = dev ∧ f.down = none) → exec (.farLinkDown dev) s =
      .next (logEvent (putFar s dev fun f => { f with down := some s.stamp }) 0x5203 2 dev)) ∧
    ((∃ f ∈ s.far, f.dev = dev ∧ f.down ≠ none) →
      let u := logEvent (putFar s dev fun f => { f with down := none, lost := false }) 0x5203 3 dev
      exec (.farLinkUp dev) s = .next (farAgain u) ∧
      (s.passing = [] → s.asks = [] → s.ends = [] → (s.recs = [] → farAgain u = u) ∧
        ∀ r, s.recs = [r] → recRoom u = true → farAgain u = { writeRec u r with recs := [] })) ∧
    (∀ f t, s.far = [f] → f.dev = dev → f.down = some t →
      (f.lost = false → t + 2000000 < s.stamp →
        exec (.farLostTimeout dev) s = .next (farAgain { s with far := [{ f with lost := true }] })) ∧
      ((f.lost = true ∨ s.stamp ≤ t + 2000000) → exec (.farLostTimeout dev) s = .next s)) ∧
    (l < 16 → flit.length = 256 → linkTrained s l = true → crc32 (flit.take 252) ≠ fieldN flit 252 4 →
      exec (.goldexFlitReceive l flit) s = .next s) ∧
    (l < 16 → flit.length = 256 → linkTrained s l = true → crc32 (flit.take 252) = fieldN flit 252 4 → fieldN flit 4 1 = 1 →
      let y := takeAck x (fieldN flit 2 2)
      (fieldN flit 0 2 ≠ y.rxNext → exec (.goldexFlitReceive l flit) s = .next (putLink s l y)) ∧
      (fieldN flit 0 2 = y.rxNext → exec (.goldexFlitReceive l flit) s = .next (receivePayload
        (putLink s l { y with rxNext := (y.rxNext + 1) % 2 ^ 16, freed := y.freed + 1 }) l ((flit.drop 8).take 244)))) ∧
    (l < 16 → flit.length = 256 → linkTrained s l = true → crc32 (flit.take 252) = fieldN flit 252 4 → fieldN flit 4 1 = 2 →
      let y := takeAck x (fieldN flit 2 2)
      (fieldN flit 0 2 ≠ y.rxNext → exec (.goldexFlitReceive l flit) s = .next (putLink s l y)) ∧
      (fieldN flit 0 2 = y.rxNext → exec (.goldexFlitReceive l flit) s = .next (takeTime
        (putLink s l { y with rxNext := (y.rxNext + 1) % 2 ^ 16, freed := y.freed + 1 }) l
        (BitVec.ofNat 64 (fieldN ((flit.drop 8).take 244) 8 8))))) ∧
    (∀ f rest, x.replay = f :: rest → linkTrained s l = true → f.2.2 + 2000 ≤ s.stamp → x.failed < 8 →
      let failed := if x.tried then x.failed + 1 else x.failed
      (failed < 8 → exec (.linkReplayTimeout l) s = .next (
        let u := putLink s l { x with
          replay := x.replay.map fun f => (f.1, f.2.1, s.stamp)
          failed := failed
          tried := true
          gap := false }
        putLinkReg u l (setBits (linkReg u l) 31 0 (bits (linkReg u l) 31 0 + x.replay.length)))) ∧
      (8 ≤ failed → exec (.linkReplayTimeout l) s = .next (putLink s l { x with failed := failed }))) ∧
    (l < 16 → bits (linkReg s l) 63 62 ≠ 1 → bits (linkReg s l) 61 61 = 0 → s.pstate < 3 → s.recovering = false →
      exec (.retrainStart l) s = .next (logEvent (putLinkReg (putLink (dropLink s l) l { trainAt := some s.stamp }) l
        (setBits (setBits (linkReg s l) 63 62 1) 47 32 (min (bits (linkReg s l) 47 32 + 1) 0xFFFF))) (0x5100 + l) 1 0)) ∧
    (l < 16 → bits (linkReg s l) 63 62 = 1 → ∀ up, exec (.retrainEnd l up) s =
      .next (logEvent (putLinkReg (putLink s l {}) l (setBits (linkReg s l) 63 62 (if up then 2 else 0))) (0x5100 + l) (if up then 3 else 2) 0)) ∧
    ((getTx s i 0).unacked = [] → (getTx s i 1).unacked = [] →
      exec (.endToEndResend i) s = .next (passOn (pumpStream s i 64) i 64)) ∧
    (∀ e body t u, (getTx s i 0).unacked = [(e, body, t)] → (getTx s i 1).unacked = [] → (t = 0 ∨ t + 100000 ≤ s.stamp) →
      sendFlit s i body = some u → exec (.endToEndResend i) s = .next (
        let v := putTx u { getTx s i 0 with unacked := [(e, body, max 1 u.stamp)] }
        passOn (pumpStream v i 64) i 64)) ∧
    (∀ r, s.remotes[i]? = some r →
      (reachable s (remoteDev r) = true → exec (.bounceTimeout i) s = .next s ∧
        ∀ q ∈ (keepReachable s).remotes[i]?, q.since = s.stamp) ∧
      (reachable s (remoteDev r) = false → s.stamp < r.since + 1000000 → exec (.bounceTimeout i) s = .next s) ∧
      (reachable s (remoteDev r) = false → r.since + 1000000 ≤ s.stamp → r.eseq = none →
        exec (.bounceTimeout i) s = .next (bounce { s with remotes := s.remotes.eraseIdx i } r.ctx r.hdr 1))) ∧
    (bits s.dev.gxcfg 28 28 = 1 → s.timeSent + 1000 ≤ s.stamp → s.pstate < 3 →
      exec .timeFlitSend s = .next { sendTime s s.stamp 16 with timeSent := s.stamp }) ∧
    (bits s.dev.gxcfg 28 28 = 0 → l < 16 → linkTrained s l = true →
      let v := putLink s l { x with rxNext := (x.rxNext + 1) % 2 ^ 16, freed := x.freed + 1 }
      exec (.timeFlitReceive l count) s = .next { sendTime v count.toNat l with slew := max (-4) (min 4 (signed 64 (count - BitVec.ofNat 64 s.stamp).toNat)) })

/-! ### The machine as a whole -/

/-- R20, R42, R45, R46: a step runs what stands at the pc of the focus: the instruction that its parcels decode to,
ILLEGAL_INSTRUCTION for a word that is none, or a precise fetch fault; inside a span the parcels are those of its prefix's
fetch. A kept fetch serves where each of its parcels may still be fetched. Where an instruction may end a level by the span behind it (R397), the parcel at the level's end is read too. An issue counts
(R288, R317); then time passes. Which agent is in focus, and that even steps issue, is the model's
schedule (log entries 1 and 62); what may issue while loads have no value is log entry 2. -/
def Obligations.StepRunsDecoded : Prop :=
  ∀ (s : State),
    let pc := s.cur.pc
    let low := issuable s (s.who + 1)
    (s.agenda = [] → s.tick % 2 = 0 → mayIssue s = true →
      (∀ i t, fetchAt s pc = .instr i t → (s.cur.loads = [] ∨ passesLoads s.cur i = true) →
        step s = after clock (after (fun u => if hasIssued u i then countIssue low u else u) (exec i t))) ∧
      (∀ i t, fetchAt s pc = .instr i t → s.cur.loads ≠ [] → passesLoads s.cur i = false →
        step s = .next (clock { t with cur := { t.cur with wait := .stalled } })) ∧
      (s.cur.loads = [] →
        (∀ t, fetchAt s pc = .illegal t → step s = after clock (exec .illegalInstruction t)) ∧
        (∀ t, fetchAt s pc = .fault t → step s = after clock (exec .fetchFault s)) ∧
        (∀ w, fetchAt s pc = .wait w → step s = .next (clock { s with cur := { s.cur with wait := w } })))) ∧
    (s.cur.span = 0 → s.sched.keepFetched = false →
      (∀ p v i, readRun s pc 1 = ([p], none, v) → v.sched.keepFetched = false → isLong p = false → decode16 p = .ok i →
        fetchInstr s pc = .instr i v) ∧
      (∀ p q v w i, readRun s pc 1 = ([p], none, v) → isLong p = true → readRun v (pc + 2) 1 = ([q], none, w) →
        w.sched.keepFetched = false → decode32 (p + 65536 * q) = .ok i → fetchInstr s pc = .instr i w)) ∧
    (∀ l t, keptRun s pc = some (l, t) → (s.cur.span = 0 → fetchInstr s pc = decodeRun t l) ∧
      ∃ places, runPlaces s pc l.length = some (places, t)) ∧
    (0 < s.cur.span → fetchInstr s pc = decodeRun s (s.cur.spanCode.drop (s.cur.spanCode.length - s.cur.span))) ∧
    (NoLoop s.cur → fetchAt s pc = fetchInstr s pc) ∧
    (∀ i t, fetchInstr s pc = .instr i t →
      ((∀ k < 2, needsEnd s.cur pc i k = true → endStop t k = none) →
        fetchAt s pc = .instr i (([1, 0].filter (needsEnd s.cur pc i)).foldl noteEnd t)) ∧
      (∀ w, needsEnd s.cur pc i 1 = true → endStop t 1 = some w → fetchAt s pc = w.fetched) ∧
      ∀ w, needsEnd s.cur pc i 1 = false → needsEnd s.cur pc i 0 = true → endStop t 0 = some w → fetchAt s pc = w.fetched) ∧
    (let va := widen (vaHigh (getCtx s (asCtx s.who))) pc
     ∀ b0 b1, s.cur.codeAt = [] → isSliceVA va = true → sliceAllows s s.who (sliceTile (sliceOfVA va)) = true → farWaits s (sliceOfVA va) = false →
      serveRead s (sliceOfVA va) 2 = (0, [b0, b1]) → readRun s pc 1 = ([b0.toNat + 256 * b1.toNat], none, s)) ∧
    (HasHandler s → exec .illegalInstruction s = .next { s with cur := trapCtx s.cur 0x01 7 0 (widen (vaHigh s.cur) pc) }) ∧
    ∀ t, HasHandler s → fetchAt s pc = .fault t → Faults .fetchFault s t

/-- R58 to R67: words that the manual's encoding tables write out, and the instructions they stand for. -/
def Obligations.DecodeWords : Prop :=
  decode32 0x00731403 = .ok (.add 5 6 7 0) ∧ decode32 0xFFD31507 = .ok (.addi 5 6 0xFFD 2) ∧
  decode32 0x3F03140B = .ok (.andi 5 6 0x3F0 0) ∧ decode32 0xFFFF940F = .ok (.lim 5 0x1FFFF 0) ∧
  decode32 0x00140413 = .ok (.jal 1 40 0) ∧ decode32 0xFFA0141F = .ok (.brNe 5 0 0xFFA 0) ∧
  decode32 0xFF519437 = .ok (.ldW 5 3 1 0x1FE 0) ∧ decode32 0x0172243B = .ok (.stD 9 4 1 2 0) ∧
  decode32 0x0641943F = .ok (.ldAcq 5 3 2 4 1 0) ∧ decode32 0x08731447 = .ok (.amoAddD 5 6 7 4 0) ∧
  decode32 0x0703404B = .ok (.vld 16 3 0 7 0) ∧ decode32 0x0660204F = .ok (.vadd 8 32 1 3 0) ∧
  decode32 0x60E02057 = .ok (.vfma 8 32 3 2 1 0) ∧ decode32 0x04205067 = .ok (.csrr 5 0x042 0) ∧
  decode32 0x5000006B = .ok (.fenceRel 4 0) ∧ decode32 0x0094146F = .ok (.cpy 5 8 0) ∧
  decode32 0x18E62073 = .ok (.axld 8 6 7 0)

/-- R49 to R67: decoding what the encoder writes for a well-formed instruction gives the instruction back, every operand at every
value that the encoding admits. -/
def Obligations.RoundTrip : Prop := ∀ (i : Instr), Sys2Proof.Laws.RoundTrip.Statement i

/-- Every step keeps memory in its canonical form, so that equal memories are equal data (log entry 3). -/
def Obligations.MemoryCanonical : Prop := ∀ (s t : State), s.MemWf → step s = .next t → t.MemWf

/-- R350, R382: what reset leaves, and the canonical form of memory. Two clauses are the model's choice and no rule of the manual:
`s.stamp = 0`, the count of `TIME` at reset (log entry 7), and `s.mem = []` as far as it makes bytes of host and far-tier memory read
zero (log entry 3). That reset is the end of a successful Dawn is log entry 7, and that the registers named here hold their values before any
grant too, log entry 8. -/
def Obligations.ResetState : Prop :=
  let s := State.reset
  let k : Core := getCore s 5
  s.MemWf ∧ s.mem = [] ∧ s.regions = [] ∧ s.cur.run = .idle ∧ s.cur.vtype = 0x231 ∧ s.cur.vaux = 0x2C688000000 ∧
    s.cur.vrand = 1 ∧ s.cur.tstatus = 0 ∧ s.cur.sterr = 0 ∧ s.cur.issuectl = 0 ∧ k.cpydone[0] = 0x2000000000000000 ∧
    k.cpydone[3] = 0xE000000000000000 ∧ k.axdone = 0x1000000000000000 ∧ k.cpyerr[0] = 0 ∧ s.dev.motionctl = 0 ∧
    s.dev.secst = 0 ∧ s.dev.mtab = 0 ∧ s.stamp = 0 ∧ s.cur.rd 0 = 0 ∧ s.cur.pr 0 = 0xFFFFFFFF
end

