-- ==== Sys2Proof/Laws/Issue.lean ====
section
/-! SUPPORT. What issuing, retiring and trapping can do, said once. -/

namespace Sys2Proof.Laws

open Sys2Proof Sys2Proof.Machine

/-! ### The place of a context -/

theorem samePlace_trans {a b c : Ctx} (h : SameButPlace a b) (k : SameButPlace b c) : SameButPlace a c := Eq.trans h k

theorem at_place (c : Ctx) (p : Word) (n : Nat) : SameButPlace c { c with pc := p, span := n } := by
  unfold SameButPlace Ctx.still; dsimp only

theorem setCtl_place (c : Ctx) (k : Nat) (v : Word) : SameButPlace c (setCtl c k v) := by
  unfold SameButPlace setCtl Ctx.still; split <;> dsimp only

theorem countDown_place (c : Ctx) (k : Nat) : SameButPlace c (countDown c k) := setCtl_place c k _

theorem discard_place (c : Ctx) (k : Nat) : SameButPlace c (Machine.discard c k) := by
  unfold SameButPlace Machine.discard Ctx.still; split <;> dsimp only

theorem stepPast_place (c : Ctx) (p n : Word) (k : Nat) : SameButPlace c (stepPast c p n k) := by
  unfold stepPast; split
  · exact discard_place c k
  · rfl

theorem sequential_place (c : Ctx) (p : Word) (n : Nat) (e : Nat → Nat) : SameButPlace c (sequential c p n e) := by
  have h1 : SameButPlace c (if endsLevel c p n 1 e then countDown c 1 else c) := by
    split
    · exact countDown_place c 1
    · rfl
  unfold sequential
  dsimp only
  split
  · exact samePlace_trans (countDown_place c 1) (at_place _ _ _)
  · generalize (if endsLevel c p n 1 e then countDown c 1 else c) = c1 at h1 ⊢
    split
    · exact samePlace_trans h1 (samePlace_trans (countDown_place c1 0) (at_place _ _ _))
    · refine samePlace_trans h1 (samePlace_trans ?_ (at_place _ _ _))
      have h0 : SameButPlace c1 (if endsLevel c p n 0 e then countDown c1 0 else c1) := by
        split
        · exact countDown_place c1 0
        · rfl
      generalize (if endsLevel c p n 0 e then countDown c1 0 else c1) = c0 at h0 ⊢
      have h2 : SameButPlace c0 (if endsLevel c p n 1 e then c0 else stepPast c0 p (p + BitVec.ofNat 64 n) 1) := by
        split
        · rfl
        · exact stepPast_place _ _ _ _
      generalize (if endsLevel c p n 1 e then c0 else stepPast c0 p (p + BitVec.ofNat 64 n) 1) = c2 at h2 ⊢
      split
      · exact samePlace_trans h0 h2
      · exact samePlace_trans h0 (samePlace_trans h2 (stepPast_place _ _ _ _))

theorem leaveBody_place (c : Ctx) (p t : Word) (e : Nat → Nat) (k : Nat) : SameButPlace c (leaveBody c p t e k) := by
  unfold leaveBody; dsimp only; split
  · exact discard_place c k
  · rfl

theorem jumped_place (c : Ctx) (p t : Word) (b : Bool) (e : Nat → Nat) : SameButPlace c (jumped c p t b e) := by
  unfold jumped
  dsimp only
  split
  · exact at_place c t 0
  · refine samePlace_trans (samePlace_trans (leaveBody_place c p t e 1) (leaveBody_place _ _ _ _ _)) (at_place _ _ _)

theorem sequential_noLoop {c : Ctx} (h : NoLoop c) (p : Word) (n : Nat) (e : Nat → Nat) :
    sequential c p n e = { c with pc := p + BitVec.ofNat 64 n, span := c.span - n / 2 } := by
  obtain ⟨h0, h1⟩ := h
  simp [sequential, endsLevel, stepPast, h0, h1]

theorem jumped_noLoop {c : Ctx} (h : NoLoop c) (p t : Word) (b : Bool) (e : Nat → Nat) :
    jumped c p t b e = { c with pc := t, span := 0 } := by
  obtain ⟨h0, h1⟩ := h
  simp [jumped, leaveBody, h0, h1]

theorem jumped_pc (c : Ctx) (p t : Word) (b : Bool) (e : Nat → Nat) : (jumped c p t b e).pc = t ∧ (jumped c p t b e).span = 0 :=
  ⟨rfl, rfl⟩

/-! ### Issue -/

/-- With nothing pending no operand is short. -/
theorem quiet_empty {s : State} (h : s.cur.board = []) : Quiet s := by intro p hp; rw [h] at hp; cases hp

theorem shortUse_false {b : List Pending} (h : ∀ p ∈ b, p.lat < p.dist) (u : List RegUse) : shortUse b u = false := by
  unfold shortUse
  rw [List.any_eq_false]
  intro p hp
  have := h p hp
  simp only [List.any_eq_true, decide_eq_true_eq, not_exists, not_and]
  intro _ _ _ _
  omega

/-- A quiet focus stops for no short operand. -/
theorem shortStop_quiet {s : State} (h : Quiet s) (uses : List RegUse) : shortStop s uses = none := by
  unfold shortStop
  split
  · rename_i k
    rw [shortUse_false fun p hp => by have := h p hp; rwa [if_pos k] at this]
    rfl
  · rename_i k
    have e : (s.cur.board.filter fun p => cycleNow s < p.till) = [] := by
      rw [List.filter_eq_nil_iff]
      intro p hp
      have := h p hp
      rw [if_neg k] at this
      simp only [decide_eq_true_eq]
      omega
    rw [e]
    rfl

/-- An instruction of a calm focus retires with its own effect. -/
theorem issue_calm {kinds : List Nat} {s : State} (h : Calm kinds s) (len : Nat) (st : BitVec 3) (uses : List RegUse)
    (b : State → Body) : issue s kinds len st uses b = .next (retire s len st ((b s).after uses)) := by
  obtain ⟨hk, hc⟩ := h
  unfold issue
  rw [hk, shortStop_quiet hc]
  rfl

/-- What stands on the scoreboard after an issue: the old and the new results, each further off, but those whose distance suffices
(R217). -/
theorem mem_advance {b new : List Pending} {st : Nat} {p : Pending} :
    p ∈ advance b st new ↔ p.dist ≤ p.lat ∧ ∃ q, (q ∈ b ∨ q ∈ new) ∧ p = { q with dist := q.dist + 1 + st } := by
  simp only [advance, List.mem_filter, List.mem_map, List.mem_append, decide_eq_true_eq, Nat.lt_succ_iff]
  constructor
  · rintro ⟨⟨q, h, rfl⟩, k⟩; exact ⟨k, q, h, rfl⟩
  · rintro ⟨k, q, h, rfl⟩; exact ⟨⟨q, h, rfl⟩, k⟩

theorem mem_late {cls reg lat : Nat} {p : Pending} :
    p ∈ late cls reg lat ↔ 0 < lat ∧ (cls = 1 ∨ reg ≠ 0) ∧ p = { cls := cls, reg := reg, lat := lat, dist := 0 } := by
  unfold late; split
  · rename_i h; simp only [List.not_mem_nil, false_iff]; omega
  · rename_i h; simp only [List.mem_singleton]; exact ⟨fun e => ⟨by omega, by omega, e⟩, fun e => e.2.2⟩

/-- No register of an instruction is short: it is not stopped for one (R217). -/
theorem shortStop_free {s : State} {uses : List RegUse} (h : ¬Short s uses) : shortStop s uses = none := by
  have no : ∀ p ∈ s.cur.board, (p.cls, p.reg) ∈ uses → p.dist < p.lat + 1 → bits s.cur.issuectl 0 0 = 0 ∧ p.till ≤ cycleNow s := by
    intro p hp hu hd
    refine Classical.by_contradiction fun k => h ⟨p, hp, hu, hd, fun z => ?_⟩
    exact Nat.lt_of_not_le fun t => k ⟨z, t⟩
  have off : ∀ b : List Pending, (∀ p ∈ b, p ∈ s.cur.board ∧ ((p.cls, p.reg) ∈ uses → p.dist < p.lat + 1 → False)) → shortUse b uses = false := by
    intro b hb
    simp only [shortUse, List.any_eq_false]
    intro p hp
    rw [Bool.not_eq_true, List.any_eq_false]
    rintro ⟨c, r⟩ hu
    simp only [decide_eq_true_eq, not_and]
    rintro rfl rfl hd
    exact (hb p hp).2 hu hd
  unfold shortStop
  split
  · rename_i one
    rw [if_neg]
    rw [off s.cur.board fun p hp => ⟨hp, fun hu hd => by have := (no p hp hu hd).1; omega⟩]; exact Bool.false_ne_true
  · rw [if_neg]
    rw [off _ fun p hp => ⟨(List.mem_filter.1 hp).1, fun hu hd => ?_⟩]
    · exact Bool.false_ne_true
    · have l := of_decide_eq_true (List.mem_filter.1 hp).2
      exact absurd (no p (List.mem_filter.1 hp).1 hu hd).2 (Nat.not_le_of_lt l)

theorem settled_place (c : Ctx) (uses : List RegUse) : SameButPlace c (c.settled uses) := by
  unfold SameButPlace Ctx.settled Ctx.still; dsimp only

/-- One that is done completes. -/
theorem completes_of_done {i : Instr} {s u : State} {l : List Pending} {len : Nat} {st : BitVec 3} {uses : List RegUse}
    (h : exec i s = .next (retire s len st (Body.after uses (.done u l)))) : Completes i s u len := by
  refine ⟨_, h, rfl, samePlace_trans (settled_place u.cur uses) (sequential_place _ s.cur.pc len _), rfl, ?_⟩
  intro hn
  dsimp only [retire, Body.after]
  rw [sequential_noLoop (c := u.cur.settled uses) hn]
  exact ⟨rfl, rfl, rfl⟩

/-- One that jumps completes at its target. -/
theorem jumps_of_jump {i : Instr} {s u : State} {t : Word} {b : Bool} {len : Nat} {st : BitVec 3} {uses : List RegUse}
    (h : exec i s = .next (retire s len st (Body.after uses (.jump u t b)))) : Jumps i s u t := by
  refine ⟨_, h, rfl, samePlace_trans (settled_place u.cur uses) (jumped_place _ s.cur.pc t b _), rfl, rfl, rfl, ?_⟩
  intro hn
  dsimp only [retire, Body.after]
  rw [jumped_noLoop (c := u.cur.settled uses) hn]
  exact ⟨rfl, rfl⟩

/-- One that cannot issue changes nothing but the wait. -/
theorem stalls_of_wait {i : Instr} {s : State} {len : Nat} {st : BitVec 3} {uses : List RegUse}
    (h : exec i s = .next (retire s len st (Body.after uses (.wait s .stalled)))) : Stalls i s := h

/-! ### Traps -/

/-- A trap that no access raised, of an instruction that made none before, leaves the TLBs alone. -/
theorem refreshTlb_other (s : State) {t : Trap} (h : 6 ≤ t.access) (w : t.walked = []) : refreshTlb s t = s := by
  unfold refreshTlb refreshFor
  split
  · rfl
  · rw [w, if_neg (by simp; omega)]; rfl

/-- A translation that is not used further changes the TLBs alone. -/
theorem translate_cur {s u : State} {core : Nat} {r : Word} {va : VAddr} {k : Nat} {e : TlbEntry}
    (h : Machine.translate s core r va k = .ok (e, u)) : u.who = s.who ∧ u.cur = s.cur := by
  unfold Machine.translate at h
  dsimp only at h
  repeat' split at h
  all_goals cases h
  all_goals exact ⟨rfl, rfl⟩

theorem touchTlb_cur (s : State) (core : Nat) (r : Word) (va : VAddr) (k : Nat) :
    (touchTlb s core r va k).who = s.who ∧ (touchTlb s core r va k).cur = s.cur := by
  unfold touchTlb
  split
  · exact ⟨rfl, rfl⟩
  · split
    case h_1 h => exact translate_cur h
    case h_2 =>
      split
      · exact ⟨rfl, rfl⟩
      · split <;> exact ⟨rfl, rfl⟩

theorem pagerTouch_cur (s : State) (t : Trap) : (pagerTouch s t).who = s.who ∧ (pagerTouch s t).cur = s.cur := by
  unfold pagerTouch replyTouch
  split
  · split
    · exact ⟨rfl, rfl⟩
    · exact touchTlb_cur _ _ _ _ _
  · exact ⟨rfl, rfl⟩

/-- With a handler, a trap that no pager takes saves the context and goes to TVEC. -/
theorem raise_handler {s : State} (h : HasHandler s) (t : Trap) (hr : refreshTlb s t = s)
    (hp : t.code ≠ 0x08 ∧ t.code ≠ 0x09 ∧ t.code ≠ 0x100) :
    raise s t = { s with cur := trapCtx s.cur t.code t.access t.info t.va } := by
  obtain ⟨he, ht, hi⟩ := h
  have h1 : toPager s t = none := by simp [toPager, hp.1, hp.2.1]
  have h4 : pagerTouch s t = s := by simp [pagerTouch, hp.1, hp.2.1]
  have h2 : ¬(s.cur.tvec = 0 ∨ bits s.cur.tstatus 0 0 = 1) := by rw [hi]; exact fun h => h.elim ht (by decide)
  have h3 : (t.waits || pagerWaits s t) = false := by simp [pagerWaits, Trap.waits, hp.1, hp.2.1, hp.2.2]
  rw [raise, hr, raiseIn, if_neg (by rw [h3]; decide), h1]
  dsimp only
  rw [h4, enterTrap, he, if_neg (by decide), if_neg h2]
  rfl

theorem traps_of_trap {i : Instr} {s : State} {len : Nat} {st : BitVec 3} {t : Trap} {uses : List RegUse} (hh : HasHandler s)
    (hr : refreshTlb s t = s) (hp : t.code ≠ 0x08 ∧ t.code ≠ 0x09 ∧ t.code ≠ 0x100) (h : exec i s = .next (retire s len st (Body.after uses (.trap t)))) :
    Traps i s t.code t.access t.info t.va := by
  unfold Traps
  rw [h, ← raise_handler hh t hr hp]
  rfl

/-! ### Instructions that a kind of agent may not execute (R294) -/

theorem issue_withheld (s : State) {kinds : List Nat} (h : kinds.contains (kindOf s.who) = false) (len : Nat) (st : BitVec 3)
    (uses : List RegUse) (b : State → Body) : issue s kinds len st uses b = .next (raise s { code := 0x21 }) := by
  unfold issue; rw [h]; rfl

theorem vissue_withheld {s : State} (h : kindOf s.who ≠ 0) (st : BitVec 3) (bad : Bool) (x : Access) (pr pw : List RegUse) (n l0 : Nat)
    (f : Ctx → (BitVec 6 → VReg) → List (BitVec 6 × VReg) × (Ctx → Ctx)) :
    vissue s st bad x pr pw n l0 f = .next (raise s { code := 0x21 }) := if_pos h

theorem vmem_withheld {s : State} (h : kindOf s.who ≠ 0) (st : BitVec 3) (base : BitVec 5) (x : Access) (al k : Nat) (eas : List Word)
    (go : State → List (Word × Landing) → Body) : vmem s st base x al k eas go = .next (raise s { code := 0x21 }) := if_pos h

theorem storeFailFirst_engine {s : State} (h : kindOf s.who ≠ 0) (k : State → Host.Outcome State Fault Refusal) :
    storeFailFirst s k = k s := if_neg fun x => h x.2

/-! ### Writing a register -/

@[simp] theorem wr_pc (s : State) (r : BitVec 5) (v : Word) : (wr s r v).cur.pc = s.cur.pc := by
  unfold wr Ctx.wr; split <;> rfl

end Sys2Proof.Laws
end

