-- ==== Sys2Proof/Laws/Memory.lean ====
section
/-! SUPPORT. Sparse maps and memory: the canonical form, read after write, and what each memory operation leaves alone. -/

namespace Sys2Proof.Laws

open Sys2Proof Sys2Proof.Machine

/-! ### Sparse maps -/

section Maps
variable {α : Type} [DecidableEq α] {d : α}

theorem mapWf_mono {m : SMap α} {a b : Nat} (h : mapWfFrom d b m = true) (le : a ≤ b) : mapWfFrom d a m = true := by
  cases m with
  | nil => rfl
  | cons p t =>
    obtain ⟨j, w⟩ := p
    simp only [mapWfFrom, Bool.and_eq_true, decide_eq_true_eq] at h ⊢
    exact ⟨⟨by omega, h.1.2⟩, h.2⟩

theorem mapSet_wfFrom {m : SMap α} {lo k : Nat} {v : α} (h : mapWfFrom d lo m = true) (le : lo ≤ k) :
    mapWfFrom d lo (mapSet d m k v) = true := by
  induction m generalizing lo with
  | nil => unfold mapSet; split <;> simp_all [mapWfFrom]
  | cons p t ih =>
    obtain ⟨j, w⟩ := p
    simp only [mapWfFrom, Bool.and_eq_true, decide_eq_true_eq] at h
    obtain ⟨⟨h1, h2⟩, h3⟩ := h
    unfold mapSet
    split
    · split
      · simp [mapWfFrom, h1, h2, h3]
      · simp only [mapWfFrom, Bool.and_eq_true, decide_eq_true_eq]
        exact ⟨⟨le, by assumption⟩, ⟨by omega, h2⟩, h3⟩
    · split
      · subst k
        split
        · exact mapWf_mono h3 (by omega)
        · simp only [mapWfFrom, Bool.and_eq_true, decide_eq_true_eq]
          exact ⟨⟨le, by assumption⟩, h3⟩
      · simp only [mapWfFrom, Bool.and_eq_true, decide_eq_true_eq]
        exact ⟨⟨h1, h2⟩, ih h3 (by omega)⟩

/-- A write keeps the canonical form. -/
theorem mapSet_wf {m : SMap α} (k : Nat) (v : α) (h : mapWfFrom d 0 m = true) : mapWfFrom d 0 (mapSet d m k v) = true :=
  mapSet_wfFrom h (Nat.zero_le k)

theorem mapGet_below {m : SMap α} {lo k : Nat} (h : mapWfFrom d lo m = true) (lt : k < lo) : mapGet d m k = d := by
  cases m with
  | nil => rfl
  | cons p t =>
    obtain ⟨j, w⟩ := p
    simp only [mapWfFrom, Bool.and_eq_true, decide_eq_true_eq] at h
    rw [mapGet, if_neg (by omega), if_pos (by omega)]

/-- Read after write. -/
theorem mapGet_mapSet {m : SMap α} {lo k j : Nat} {v : α} (h : mapWfFrom d lo m = true) :
    mapGet d (mapSet d m k v) j = if j = k then v else mapGet d m j := by
  induction m generalizing lo with
  | nil =>
    unfold mapSet
    split
    · subst v; simp [mapGet]
    · unfold mapGet; split
      · rfl
      · simp [mapGet]
  | cons p t ih =>
    obtain ⟨i, w⟩ := p
    simp only [mapWfFrom, Bool.and_eq_true, decide_eq_true_eq] at h
    obtain ⟨⟨h1, h2⟩, h3⟩ := h
    unfold mapSet
    split
    · rename_i lt
      split
      · subst v
        by_cases e : j = k
        · subst e; rw [if_pos rfl, mapGet, if_neg (by omega), if_pos lt]
        · rw [if_neg e]
      · by_cases e : j = k
        · rw [if_pos e, mapGet, if_pos e]
        · rw [if_neg e, mapGet, if_neg e]
          split
          · rw [mapGet, if_neg (by omega), if_pos (by omega)]
          · rfl
    · split
      · subst k
        by_cases e : j = i
        · subst e
          rw [if_pos rfl]
          split
          · subst v; exact mapGet_below h3 (by omega)
          · rw [mapGet, if_pos rfl]
        · rw [if_neg e, mapGet, if_neg e]
          split
          · split
            · exact mapGet_below h3 (by omega)
            · rfl
          · rw [mapGet, if_neg e]
      · rw [mapGet, mapGet]
        by_cases e : j = i
        · rw [if_pos e, if_pos e, if_neg (by omega)]
        · rw [if_neg e, if_neg e, ih h3]
          by_cases e2 : j = k
          · subst e2; rw [if_pos rfl, if_neg (by omega), if_pos rfl]
          · rw [if_neg e2, if_neg e2]

/-- Maps in canonical form that read alike are equal. -/
theorem mapWf_ext {m n : SMap α} {lo : Nat} (h : mapWfFrom d lo m = true) (k : mapWfFrom d lo n = true)
    (e : ∀ i, mapGet d m i = mapGet d n i) : m = n := by
  induction m generalizing n lo with
  | nil =>
    cases n with
    | nil => rfl
    | cons p t =>
      obtain ⟨j, w⟩ := p
      simp only [mapWfFrom, Bool.and_eq_true, decide_eq_true_eq] at k
      have := e j
      simp only [mapGet, if_true] at this
      exact absurd this.symm k.1.2
  | cons p t ih =>
    obtain ⟨i, v⟩ := p
    simp only [mapWfFrom, Bool.and_eq_true, decide_eq_true_eq] at h
    obtain ⟨⟨h1, h2⟩, h3⟩ := h
    cases n with
    | nil =>
      have := e i
      simp only [mapGet, if_true] at this
      exact absurd this h2
    | cons q u =>
      obtain ⟨j, w⟩ := q
      simp only [mapWfFrom, Bool.and_eq_true, decide_eq_true_eq] at k
      obtain ⟨⟨k1, k2⟩, k3⟩ := k
      have ei := e i
      have ej := e j
      rw [mapGet, if_pos rfl, mapGet] at ei
      rw [mapGet, mapGet, if_pos rfl] at ej
      have : i = j := by
        rcases Nat.lt_trichotomy i j with lt | eq | gt
        · rw [if_neg (by omega), if_pos lt] at ei; exact absurd ei h2
        · exact eq
        · rw [if_neg (by omega), if_pos gt] at ej; exact absurd ej.symm k2
      subst this
      rw [if_pos rfl] at ei
      subst ei
      rw [ih h3 k3 fun x => ?_]
      have ex := e x
      rw [mapGet, mapGet] at ex
      by_cases a : x = i
      · subst a; rw [mapGet_below h3 (by omega), mapGet_below k3 (by omega)]
      · rw [if_neg a, if_neg a] at ex
        by_cases b : x < i
        · rw [mapGet_below h3 (by omega), mapGet_below k3 (by omega)]
        · rw [if_neg b, if_neg b] at ex; exact ex

/-- What is left of a map in canonical form is in canonical form. -/
theorem mapWf_filter {m : SMap α} {lo : Nat} (p : Nat × α → Bool) (h : mapWfFrom d lo m = true) :
    mapWfFrom d lo (m.filter p) = true := by
  induction m generalizing lo with
  | nil => rfl
  | cons q t ih =>
    obtain ⟨j, w⟩ := q
    simp only [mapWfFrom, Bool.and_eq_true, decide_eq_true_eq] at h
    obtain ⟨⟨h1, h2⟩, h3⟩ := h
    rw [List.filter_cons]
    split
    · simp only [mapWfFrom, Bool.and_eq_true, decide_eq_true_eq]; exact ⟨⟨h1, h2⟩, ih h3⟩
    · exact mapWf_mono (ih h3) (by omega)

end Maps

/-! ### Where a byte stands -/

theorem xor_lt16 {a b : Nat} (h : a < 16) (k : b < 16) : Nat.xor a b < 16 := Nat.xor_lt_two_pow (n := 4) h k

theorem xor_cancel {a b c : Nat} (h : Nat.xor a c = Nat.xor b c) : a = b := by
  have : Nat.xor (Nat.xor a c) c = Nat.xor (Nat.xor b c) c := by rw [h]
  change a ^^^ c ^^^ c = b ^^^ c ^^^ c at this
  simpa [Nat.xor_assoc] using this

theorem windowOf_block (win : List Word) {a b : Nat} (h : a / 256 = b / 256) : windowOf win a = windowOf win b := by
  induction win with
  | nil => rfl
  | cons w t ih =>
    rw [windowOf, windowOf, ih]
    have : (bits w 21 16 * 4096 ≤ a ∧ a < bits w 30 24 * 4096) ↔ (bits w 21 16 * 4096 ≤ b ∧ b < bits w 30 24 * 4096) := by omega
    simp only [this]

/-- The place of a byte under a tile's windows stays in its block of 256 bytes. -/
theorem swizzle_block (win : List Word) (o : Nat) : swizzle win o / 256 = o / 256 := by
  unfold swizzle
  cases windowOf win o with
  | none => rfl
  | some w =>
    dsimp only
    split
    · have := xor_lt16 (a := o / 16 % 16) (b := o / (16 * (16 * 2 ^ bits w 34 32)) % 16) (by omega) (by omega)
      omega
    · rfl

theorem swizzle_inj (win : List Word) {a b : Nat} (h : swizzle win a = swizzle win b) : a = b := by
  have hb : a / 256 = b / 256 := by rw [← swizzle_block win a, ← swizzle_block win b, h]
  unfold swizzle at h
  rw [windowOf_block win hb] at h
  cases e : windowOf win b with
  | none => rwa [e] at h
  | some w =>
    rw [e] at h
    dsimp only at h
    split at h
    · have key : a / (16 * (16 * 2 ^ bits w 34 32)) = b / (16 * (16 * 2 ^ bits w 34 32)) := by
        have e : 16 * (16 * 2 ^ bits w 34 32) = 256 * 2 ^ bits w 34 32 := by omega
        rw [e, ← Nat.div_div_eq_div_mul, ← Nat.div_div_eq_div_mul, hb]
      rw [key] at h
      have x1 := xor_lt16 (a := a / 16 % 16) (b := b / (16 * (16 * 2 ^ bits w 34 32)) % 16) (by omega) (by omega)
      have x2 := xor_lt16 (a := b / 16 % 16) (b := b / (16 * (16 * 2 ^ bits w 34 32)) % 16) (by omega) (by omega)
      have := xor_cancel (a := a / 16 % 16) (b := b / 16 % 16) (c := b / (16 * (16 * 2 ^ bits w 34 32)) % 16) (by omega)
      omega
    · exact h

theorem physKey_slice (s : State) {a : Nat} (h : isSlice a = true) :
    physKey s a = sliceBase + sliceTile a * 2 ^ 18 + swizzle (getTile s (sliceTile a)).slwin.toList (sliceOff a) := by
  unfold physKey; rw [if_pos h]

/-- Only the mesh changes as waiting records are claimed. -/
theorem claimWaiting_mem (s : State) : (claimWaiting s).mem = s.mem ∧ (claimWaiting s).replies = s.replies := ⟨rfl, rfl⟩

theorem physKey_mem (s : State) {a : Nat} (h : isSlice a = false) : physKey s a = forwarded s a := by
  unfold physKey; rw [if_neg (by rw [h]; decide)]

theorem forwarded_still {s : State} {a : Nat} (h : motionAt s a = none) : forwarded s a = a := by
  unfold forwarded; rw [h]

/-- Two logical addresses that are in no page in motion never share a byte. -/
theorem physKey_inj (s : State) {a b : Nat} (ma : motionAt s a = none) (mb : motionAt s b = none)
    (h : physKey s a = physKey s b) : a = b := by
  have low : ∀ t o, swizzle (getTile s t).slwin.toList (sliceOff o) < 2 ^ 18 := by
    intro t o
    have := swizzle_block (getTile s t).slwin.toList (sliceOff o)
    have lt : sliceOff o < 2 ^ 18 := Nat.mod_lt _ (by decide)
    omega
  cases ha : isSlice a <;> cases hb : isSlice b
  · rwa [physKey_mem s ha, physKey_mem s hb, forwarded_still ma, forwarded_still mb] at h
  · rw [physKey_mem s ha, physKey_slice s hb, forwarded_still ma] at h
    simp only [isSlice, decide_eq_false_iff_not] at ha
    omega
  · rw [physKey_mem s hb, physKey_slice s ha, forwarded_still mb] at h
    simp only [isSlice, decide_eq_false_iff_not] at hb
    omega
  · rw [physKey_slice s ha, physKey_slice s hb] at h
    have l1 := low (sliceTile a) a
    have l2 := low (sliceTile b) b
    have t : sliceTile a = sliceTile b := by omega
    rw [t] at h
    have o := swizzle_inj (getTile s (sliceTile b)).slwin.toList (a := sliceOff a) (b := sliceOff b) (by omega)
    simp only [isSlice, decide_eq_true_eq] at ha hb
    simp only [sliceTile, sliceOff] at t o
    omega

/-! ### Bytes -/

@[simp] theorem physKey_writeByte (s : State) (a : Nat) (v : Byte) (k : Nat) : physKey (writeByte s a v) k = physKey s k := rfl

@[simp] theorem physKey_writeBytes (s : State) (a : Nat) (d : List Byte) (k : Nat) :
    physKey (writeBytes s a d) k = physKey s k := by
  induction d generalizing s a with
  | nil => rfl
  | cons b t ih => rw [writeBytes, ih]; rfl

theorem writeByte_wf {s : State} (h : s.MemWf) (a : Nat) (v : Byte) : (writeByte s a v).MemWf :=
  mapSet_wf (d := (0 : Byte)) (physKey s a) v h

/-- Read after write of one byte: what matters is whether the two addresses name one byte. -/
theorem readByte_writeByte {s : State} (h : s.MemWf) (a : Nat) (v : Byte) (k : Nat) :
    readByte (writeByte s a v) k = if physKey s k = physKey s a then v else readByte s k := by
  have hm : mapWfFrom (0 : Byte) 0 s.mem = true := h
  change mapGet 0 (mapSet 0 s.mem (physKey s a) v) (physKey s k) = _
  rw [mapGet_mapSet hm]; rfl

/-- `writeBytes` changes memory and nothing else. -/
theorem writeBytes_only (s : State) (a : Nat) (d : List Byte) : writeBytes s a d = { s with mem := (writeBytes s a d).mem } := by
  induction d generalizing s a with
  | nil => rfl
  | cons b t ih => rw [writeBytes, ih]; rfl

theorem writeBytes_wf {s : State} (h : s.MemWf) (a : Nat) (d : List Byte) : (writeBytes s a d).MemWf := by
  induction d generalizing s a with
  | nil => exact h
  | cons b t ih => exact ih (writeByte_wf h a b) (a + 1)

/-- A write of several bytes leaves every other byte alone. -/
theorem readByte_writeBytes_other {s : State} (h : s.MemWf) (a : Nat) (d : List Byte) (k : Nat)
    (o : ∀ n, n < d.length → physKey s k ≠ physKey s (a + n)) : readByte (writeBytes s a d) k = readByte s k := by
  induction d generalizing s a with
  | nil => rfl
  | cons b t ih =>
    rw [writeBytes, ih (writeByte_wf h a b) (a + 1), readByte_writeByte h, if_neg (by simpa using o 0 (by simp))]
    intro n l
    rw [physKey_writeByte, physKey_writeByte, Nat.add_assoc, Nat.add_comm 1 n]
    exact o (n + 1) (by simpa using l)

/-- What stands in memory after a write of several bytes, where its addresses name different bytes. -/
theorem readByte_writeBytes_at {s : State} (h : s.MemWf) (a : Nat) (d : List Byte)
    (o : ∀ m n, m < d.length → n < d.length → physKey s (a + m) = physKey s (a + n) → m = n) (k : Nat) (l : k < d.length) :
    readByte (writeBytes s a d) (a + k) = d.getD k 0 := by
  induction d generalizing s a k with
  | nil => exact absurd l (by simp)
  | cons b t ih =>
    rw [writeBytes]
    cases k with
    | zero =>
      rw [readByte_writeBytes_other (writeByte_wf h a b), Nat.add_zero, readByte_writeByte h, if_pos rfl]; rfl
      intro n l e
      rw [physKey_writeByte, physKey_writeByte, Nat.add_assoc, Nat.add_comm 1 n] at e
      exact absurd (o 0 (n + 1) (by simp) (by simpa using l) e) (by omega)
    | succ k =>
      have key : ∀ m, physKey (writeByte s a b) (a + 1 + m) = physKey s (a + (m + 1)) := by
        intro m; rw [physKey_writeByte, Nat.add_assoc, Nat.add_comm 1 m]
      rw [show a + (k + 1) = a + 1 + k by omega, ih (writeByte_wf h a b) (a + 1) _ k (by simpa using l)]
      · simp
      · intro m n lm ln e
        rw [key, key] at e
        have := o (m + 1) (n + 1) (by simpa using lm) (by simpa using ln) e
        omega

theorem writeNat_wf {s : State} (h : s.MemWf) (a n v : Nat) : (writeNat s a n v).MemWf := writeBytes_wf h a _

/-! ### What keeps the canonical form -/

/-- Only `mem` matters. -/
theorem memWf_of_mem {s t : State} (h : s.MemWf) (e : t.mem = s.mem) : t.MemWf := by
  unfold State.MemWf at h ⊢; rw [e]; exact h

theorem putCtx_mem (s : State) (a : Nat) (c : Ctx) : (putCtx s a c).mem = s.mem := by
  unfold putCtx; split <;> rfl

theorem focus_mem (s : State) (a : Nat) : (focus s a).mem = s.mem := by
  unfold focus; split <;> rfl

theorem foldl_mem {β : Type} (f : State → β → State) (h : ∀ s x, (f s x).mem = s.mem) (l : List β) (s : State) :
    (l.foldl f s).mem = s.mem := by
  induction l generalizing s with
  | nil => rfl
  | cons x t ih => rw [List.foldl_cons, ih, h]

theorem foldl_wf {β : Type} (f : State → β → State) (h : ∀ s x, s.MemWf → (f s x).MemWf) (l : List β) (s : State)
    (k : s.MemWf) : (l.foldl f s).MemWf := by
  induction l generalizing s with
  | nil => exact k
  | cons x t ih => exact ih _ (h s x k)

theorem fireWhere_mem (s : State) (p : Nat → Bool) : (fireWhere s p).mem = s.mem := by
  unfold fireWhere
  rw [foldl_mem]
  intro s x
  dsimp only
  split
  · exact putCtx_mem _ _ _
  · rfl

theorem fireMonitors_mem (s : State) (line : Nat) : (fireMonitors s line).mem = s.mem := fireWhere_mem s _

theorem wroteAt_mem (s : State) (line : Nat) : (wroteAt s line).mem = s.mem := fireMonitors_mem s line

@[simp] theorem wrote_mem (s : State) (line : Nat) : (wrote s line).mem = s.mem := by
  unfold wrote; split <;> simp only [wroteAt_mem]

theorem wroteLines_mem (s : State) (line k : Nat) : (wroteLines s line k).mem = s.mem := by
  induction k generalizing s line with
  | zero => rfl
  | succ k ih => rw [wroteLines, ih, wrote_mem]

theorem setPoison_mem (s : State) (a : Nat) (p : Bool) : (setPoison s a p).mem = s.mem := by
  unfold setPoison; split <;> rfl

theorem markLine_mem (s : State) (a : Nat) (p : Bool) : (markLine s a p).mem = s.mem := by
  unfold markLine; split <;> simp only [setPoison_mem]

theorem poisonWrite_mem (s : State) (a : Nat) : (poisonWrite s a).mem = s.mem := (wrote_mem _ _).trans (markLine_mem _ _ _)

theorem applyByte_wf {s : State} (h : s.MemWf) (a : Nat) (v : Byte) : (applyByte s a v).MemWf := by
  unfold applyByte; split
  · exact writeByte_wf (writeByte_wf h _ _) _ _
  · exact writeByte_wf h _ _

theorem applyBytes_wf {s : State} (h : s.MemWf) (a : Nat) (d : List Byte) : (applyBytes s a d).MemWf := by
  induction d generalizing s a with
  | nil => exact h
  | cons b t ih => exact ih (applyByte_wf h a b) (a + 1)

/-- Where no written byte is in a page in motion, a write lands at its addresses alone. -/
theorem applyBytes_still {s : State} (a : Nat) (d : List Byte) (h : ∀ k, k < d.length → motionAt s (a + k) = none) :
    applyBytes s a d = writeBytes s a d := by
  induction d generalizing s a with
  | nil => rfl
  | cons b t ih =>
    have h0 : mirrorOf s a = none := by unfold mirrorOf; rw [show motionAt s a = none from h 0 (by simp)]
    rw [applyBytes, writeBytes, applyByte, h0]
    exact ih (a + 1) fun k l => by
      have := h (k + 1) (by simpa using l)
      rwa [show a + (k + 1) = a + 1 + k by omega] at this

theorem serveWrite_wf {s : State} (h : s.MemWf) (a : Nat) (d : List Byte) (w : Bool) : (serveWrite s a d w).2.MemWf := by
  unfold serveWrite
  split
  · exact h
  split
  · exact h
  refine memWf_of_mem ?_ (wrote_mem _ _)
  refine applyBytes_wf ?_ a d
  split
  · exact memWf_of_mem h (markLine_mem _ _ _)
  · exact h

theorem sysBytes_wf {s : State} (h : s.MemWf) (a : Nat) (d : List Byte) : (sysBytes s a d).MemWf := by
  unfold sysBytes
  split
  · exact h
  · exact memWf_of_mem (applyBytes_wf h a d) (wroteLines_mem _ _ _)

theorem sysWrite_wf {s : State} (h : s.MemWf) (a n v : Nat) : (sysWrite s a n v).MemWf := sysBytes_wf h a _

/-- Memory after reset is in canonical form. -/
theorem reset_memWf : State.reset.MemWf := rfl

end Sys2Proof.Laws
end

