-- ==== Sys2Proof/Laws/Access.lean ====
section
/-! SUPPORT. What issue, a trap, an access check, a home, a load and a store can do, said once each. -/

namespace Sys2Proof.Laws

open Sys2Proof Sys2Proof.Machine

/-! ### Issue and traps -/

/-- Everything that a short operand can do: nothing, STALL_SHORT with the check once no load is outstanding, or a wait. -/
theorem shortStop_cases (s : State) (uses : List RegUse) :
    shortStop s uses = none ∨
    (bits s.cur.issuectl 0 0 = 1 ∧ shortUse s.cur.board uses = true ∧ s.cur.loads = [] ∧
      shortStop s uses = some (.trap { code := 0x04 })) ∨
    ((bits s.cur.issuectl 0 0 = 1 → s.cur.loads ≠ []) ∧ shortStop s uses = some (.wait s .stalled)) := by
  unfold shortStop
  by_cases c : bits s.cur.issuectl 0 0 = 1
  · rw [if_pos c]
    cases u : shortUse s.cur.board uses
    · left; rfl
    · cases l : s.cur.loads with
      | nil => right; left; exact ⟨c, rfl, rfl, rfl⟩
      | cons x t => right; right; exact ⟨fun _ => List.cons_ne_nil x t, rfl⟩
  · rw [if_neg c]
    cases shortUse (s.cur.board.filter fun p => cycleNow s < p.till) uses
    · left; rfl
    · right; right; exact ⟨fun h => absurd h c, rfl⟩

/-- Everything that issuing can do: ROLE_KIND, STALL_SHORT, a wait for a short operand, or the instruction's own effect. -/
theorem issue_cases (s : State) (kinds : List Nat) (len : Nat) (st : BitVec 3) (uses : List RegUse) (b : State → Body) :
    (kinds.contains (kindOf s.who) = false ∧ issue s kinds len st uses b = .next (raise s { code := 0x21 })) ∨
    (kinds.contains (kindOf s.who) = true ∧ bits s.cur.issuectl 0 0 = 1 ∧ shortUse s.cur.board uses = true ∧
      issue s kinds len st uses b = .next (raise s { code := 0x04 })) ∨
    (kinds.contains (kindOf s.who) = true ∧
      issue s kinds len st uses b = .next { s with cur := { s.cur with wait := .stalled } }) ∨
    (kinds.contains (kindOf s.who) = true ∧ issue s kinds len st uses b = .next (retire s len st ((b s).after uses))) := by
  unfold issue
  cases h : kinds.contains (kindOf s.who)
  · left; exact ⟨rfl, rfl⟩
  · right
    rcases shortStop_cases s uses with k | ⟨c, u, -, k⟩ | ⟨-, k⟩ <;> rw [k]
    · right; right; exact ⟨rfl, rfl⟩
    · left; exact ⟨rfl, c, u, rfl⟩
    · right; left; exact ⟨rfl, rfl⟩

/-- An instruction always issues into a next state. -/
theorem issue_next (s : State) (kinds : List Nat) (len : Nat) (st : BitVec 3) (uses : List RegUse) (b : State → Body) :
    ∃ t, issue s kinds len st uses b = .next t := by
  rcases issue_cases s kinds len st uses b with ⟨-, h⟩ | ⟨-, -, -, h⟩ | ⟨-, h⟩ | ⟨-, h⟩ <;> exact ⟨_, h⟩

/-- Everything that a trap of the focus can do, `raise s t` being `raiseIn` of the state whose TLBs hold the walked leaf (R98): a
wait for a link, of the access itself or of its pager's table or reply word (R364), the pager, the team's record, the end of the domain, or the handler. -/
theorem raiseIn_cases (s : State) (t : Trap) :
    ((t.waits || pagerWaits s t) = true ∧ raiseIn s t = { s with cur := { s.cur with wait := .stalled } }) ∨
    toPager s t = some (raiseIn s t) ∨ toPager s t = none ∧
      ((isEngine s.who = true ∧ raiseIn s t = engineTrap (pagerTouch s t) t) ∨
        (isEngine s.who = false ∧ (s.cur.tvec = 0 ∨ bits s.cur.tstatus 0 0 = 1)) ∨
        (HasHandler s ∧ raiseIn s t = { pagerTouch s t with cur := s.cur.enter t s.cur.pc })) := by
  unfold raiseIn
  cases w : t.waits || pagerWaits s t
  case true => left; exact ⟨rfl, rfl⟩
  right
  rw [if_neg (by decide)]
  cases h : toPager s t with
  | some u => left; rfl
  | none =>
    right
    refine ⟨rfl, ?_⟩
    dsimp only
    unfold enterTrap
    rw [(pagerTouch_cur s t).1, (pagerTouch_cur s t).2]
    cases e : isEngine s.who
    · by_cases k : s.cur.tvec = 0 ∨ bits s.cur.tstatus 0 0 = 1
      · right; left; exact ⟨rfl, k⟩
      · right; right
        rw [if_neg (by decide), if_neg k]
        refine ⟨⟨e, fun x => k (.inl x), ?_⟩, rfl⟩
        have lt : bits s.cur.tstatus 0 0 < 2 := Nat.mod_lt _ (by decide)
        have ne : bits s.cur.tstatus 0 0 ≠ 1 := fun x => k (.inr x)
        omega
    · left; exact ⟨rfl, rfl⟩

/-! ### Access checks (R111) -/

theorem land_slice {s : State} {a k : Nat} {va : VAddr} (h : isSliceVA va = true)
    (o : sliceAllows s a (sliceTile (sliceOfVA va)) = true)
    (w : (needsW k && (sysArea (sliceOfVA va) || withheld s (sliceOfVA va))) = false) :
    land s a va k = .ok ⟨sliceOfVA va, 0, s, none⟩ := by
  unfold land
  rw [if_pos h]
  dsimp only
  rw [o, w]
  rfl

theorem land_denied {s : State} {a k : Nat} {va : VAddr} (h : isSliceVA va = true)
    (o : sliceAllows s a (sliceTile (sliceOfVA va)) = false) :
    land s a va k = .error { code := 0x0D, access := k, va := va } := by
  unfold land
  rw [if_pos h]
  dsimp only
  rw [o]
  rfl

theorem checkAccess_misaligned {s : State} {a al k : Nat} {e : Word} (h : e.toNat % al ≠ 0) :
    checkAccess s a e al k = .error { code := 0x03, access := k, va := widen (vaHigh (getCtx s (asCtx a))) e } := by
  unfold checkAccess; dsimp only; rw [if_pos h]

theorem checkAccess_aligned {s : State} {a al k : Nat} {e : Word} (h : e.toNat % al = 0) :
    checkAccess s a e al k = land s a (widen (vaHigh (getCtx s (asCtx a))) e) k := by
  unfold checkAccess; dsimp only; rw [if_neg (by omega)]

/-! ### A home -/

/-- Everything that a read at a home can answer: zeros of a withheld staging area, or what its line is. -/
theorem serveRead_cases (s : State) (a n : Nat) :
    (withheld s (forwarded s a) = true ∧ serveRead s a n = (0, List.replicate n 0)) ∨
    (withheld s (forwarded s a) = false ∧ isPoisoned s (forwarded s a) = true ∧ serveRead s a n = (1, [])) ∨
    (withheld s (forwarded s a) = false ∧ isPoisoned s (forwarded s a) = false ∧ farLost s (forwarded s a) = true ∧
      serveRead s a n = (2, [])) ∨
    (withheld s (forwarded s a) = false ∧ isPoisoned s (forwarded s a) = false ∧ farLost s (forwarded s a) = false ∧
      serveRead s a n = (0, readBytes s (forwarded s a) n)) := by
  unfold serveRead
  dsimp only
  cases w : withheld s (forwarded s a)
  · cases p : isPoisoned s (forwarded s a)
    · cases f : farLost s (forwarded s a)
      · exact .inr (.inr (.inr ⟨rfl, rfl, rfl, rfl⟩))
      · exact .inr (.inr (.inl ⟨rfl, rfl, rfl, rfl⟩))
    · exact .inr (.inl ⟨rfl, rfl, rfl⟩)
  · exact .inl ⟨rfl, rfl⟩

/-- Everything that a write at a home can answer: its device is lost, its line is poisoned, or it lands and what waits on the
line is told. -/
theorem serveWrite_cases (s : State) (a : Nat) (d : List Byte) (w : Bool) :
    (farLost s a = true ∧ serveWrite s a d w = (2, s)) ∨
    (farLost s a = false ∧ isPoisoned s a = true ∧ w = false ∧ serveWrite s a d w = (1, s)) ∨
    (farLost s a = false ∧ (isPoisoned s a = false ∨ w = true) ∧
      serveWrite s a d w = (0, wrote (applyBytes (if w then markLine s a false else s) a d) (lineAt s a))) := by
  unfold serveWrite
  cases f : farLost s a
  · cases p : isPoisoned s a <;> cases w
    · right; right; exact ⟨rfl, .inl rfl, rfl⟩
    · right; right; exact ⟨rfl, .inr rfl, rfl⟩
    · right; left; exact ⟨rfl, rfl, rfl, rfl⟩
    · right; right; exact ⟨rfl, .inr rfl, rfl⟩
  · left; exact ⟨rfl, rfl⟩

/-! ### Loads and stores -/

theorem loadBody_val {n len : Nat} {sx acq : Bool} {d : BitVec 5} {ea : State → Word} {st : BitVec 3} {s : State} {l : Landing}
    {b : List Byte} (h : checkAccess s s.who (ea s) n 0 = .ok l) (e : s.cur.loads = [])
    (own : ownBytes l.st s.who l n = .none) (f : s.sched.deferLoads = false) (v : loadBytes l.st s.who l n = .val b) :
    loadBody n sx acq d ea len st s =
      .done (wr (countHot l.st l.loc (coreOf s.who) l.leaf) d (extend sx n (fromBytes b))) [] := by
  unfold loadBody
  rw [h]
  dsimp only
  rw [own, f, e, v]
  rfl

/-- A load whose bytes all stand in the context's own store buffer takes them from there (R113). -/
theorem loadBody_own {n len : Nat} {sx acq : Bool} {d : BitVec 5} {ea : State → Word} {st : BitVec 3} {s : State} {l : Landing}
    {b : List Byte} (h : checkAccess s s.who (ea s) n 0 = .ok l) (e : s.cur.loads = [])
    (own : ownBytes l.st s.who l n = .all b) :
    loadBody n sx acq d ea len st s = .done (wr l.st d (extend sx n (fromBytes b))) [] := by
  unfold loadBody
  rw [h]
  dsimp only
  rw [own, e]
  rfl

theorem loadBody_trap {n len : Nat} {sx acq : Bool} {d : BitVec 5} {ea : State → Word} {st : BitVec 3} {s : State} {t : Trap}
    (h : checkAccess s s.who (ea s) n 0 = .error t) (e : s.cur.loads = []) : loadBody n sx acq d ea len st s = .trap t := by
  unfold loadBody; rw [h, e]; rfl

theorem storeBody_cases {n : Nat} {d : BitVec 5} {ea : State → Word} {o : Bool} {s : State} :
    (∃ t, checkAccess s s.who (ea s) n 1 = .error t ∧ storeBody n d ea o s = .trap t) ∨
    (∃ l, checkAccess s s.who (ea s) n 1 = .ok l ∧ (16 ≤ s.cur.buf.length ∨ pageHeld s s.who l = true) ∧
      storeBody n d ea o s = .wait s .stalled) ∨
    (∃ l, checkAccess s s.who (ea s) n 1 = .ok l ∧ s.cur.buf.length < 16 ∧ pageHeld s s.who l = false ∧ storeBody n d ea o s =
      .done (rotatePath (pushEntry l.st l (.store (toBytes n (rd s d).toNat) false) o) (steered s.who l.loc)) []) := by
  unfold storeBody
  cases h : checkAccess s s.who (ea s) n 1 with
  | error t => left; exact ⟨t, rfl, rfl⟩
  | ok l =>
    right
    dsimp only
    by_cases k : 16 ≤ s.cur.buf.length
    · left; refine ⟨l, rfl, .inl k, ?_⟩; unfold bufFull; rw [decide_eq_true k]; rfl
    · cases p : pageHeld s s.who l
      · right; refine ⟨l, rfl, by omega, p, ?_⟩; unfold bufFull; rw [decide_eq_false k]; rfl
      · left; refine ⟨l, rfl, .inr p, ?_⟩; rw [Bool.or_true]; rfl

end Sys2Proof.Laws
end

