-- ==== Sys2Proof/Laws/Fetch.lean ====
section
/-! SUPPORT. What a fetch can do, said once: it leaves the focus, its context and memory as they are. -/

namespace Sys2Proof.Laws

open Sys2Proof Sys2Proof.Machine

/-- Two states with one focus, one context in it and one memory. -/
def SameSeat (s t : State) : Prop := t.who = s.who ∧ t.cur = s.cur ∧ t.mem = s.mem

theorem sameSeat_refl (s : State) : SameSeat s s := ⟨rfl, rfl, rfl⟩
theorem sameSeat_trans {s t u : State} (h : SameSeat s t) (k : SameSeat t u) : SameSeat s u :=
  ⟨k.1.trans h.1, k.2.1.trans h.2.1, k.2.2.trans h.2.2⟩

theorem sameSeat_ite {b : Prop} [Decidable b] {s t u : State} (h : SameSeat s t) (k : SameSeat s u) :
    SameSeat s (if b then t else u) := by split <;> assumption

theorem translate_seat {s u : State} {core : Nat} {r : Word} {va : VAddr} {k : Nat} {e : TlbEntry}
    (h : Machine.translate s core r va k = .ok (e, u)) : SameSeat s u := by
  unfold Machine.translate at h
  dsimp only at h
  repeat' split at h
  all_goals cases h
  all_goals exact ⟨rfl, rfl, rfl⟩

theorem touchTlb_seat (s : State) (core : Nat) (r : Word) (va : VAddr) (k : Nat) : SameSeat s (touchTlb s core r va k) := by
  unfold touchTlb
  split
  · exact sameSeat_refl s
  · split
    case h_1 h => exact translate_seat h
    case h_2 =>
      split
      · exact sameSeat_refl s
      · split <;> exact ⟨rfl, rfl, rfl⟩

theorem refreshTlb_seat (s : State) (t : Trap) : SameSeat s (refreshTlb s t) := by
  unfold refreshTlb refreshFor
  split
  · exact sameSeat_refl s
  · dsimp only
    have fixed : ∀ (l : List (VAddr × Nat)) (u : State), SameSeat s u → SameSeat s (l.foldl (fun u x =>
        touchTlb u (coreOf s.who) (getCtx u (asCtx s.who)).troot x.1 x.2) u) := by
      intro l
      induction l with
      | nil => exact fun _ h => h
      | cons x l ih => exact fun u h => ih _ (sameSeat_trans h (touchTlb_seat _ _ _ _ _))
    split
    · exact sameSeat_trans (fixed _ s (sameSeat_refl s)) (touchTlb_seat _ _ _ _ _)
    · exact fixed _ s (sameSeat_refl s)

theorem land_seat {s : State} {a : Nat} {va : VAddr} {k : Nat} {l : Landing} (h : land s a va k = .ok l) : SameSeat s l.st := by
  unfold land at h
  dsimp only at h
  split at h
  · split at h
    · cases h
    · split at h <;> cases h
      exact sameSeat_refl s
  · split at h
    · cases h
    · rename_i e u t
      split at h
      · cases h
      · split at h <;> cases h
        exact translate_seat t

theorem queueMotion_seat {s u : State} {h : Nat} {m : Motion} (q : queueMotion s h m = some u) : SameSeat s u := by
  unfold queueMotion at q
  dsimp only at q
  split at q <;> cases q
  exact ⟨rfl, rfl, rfl⟩

theorem promote_seat (s : State) (frame h : Nat) (p : Hot) : SameSeat s (promote s frame h p) := by
  unfold promote promotePage
  dsimp only
  split
  · split
    · split
      · exact ⟨rfl, rfl, rfl⟩
      · split
        · rename_i k _
          cases q : queueMotion s h { leaf := p.leaf, old := readNat s p.leaf 16, src := frame, dst := 0, log := p.log, loc := k } with
          | none => exact sameSeat_refl s
          | some u => exact queueMotion_seat q
        · exact sameSeat_refl s
    · exact sameSeat_refl s
  · exact sameSeat_refl s

theorem countHot_seat (s : State) (loc core leaf : Nat) : SameSeat s (countHot s loc core leaf) := by
  unfold countHot
  dsimp only
  split
  · exact sameSeat_refl s
  · split
    · exact sameSeat_refl s
    · split
      · exact sameSeat_refl s
      · refine sameSeat_ite (sameSeat_trans ?_ (promote_seat _ _ _ _)) ?_ <;> exact ⟨rfl, rfl, rfl⟩

/-- The counts of the host's accesses change no context and no byte (R82). -/
theorem hostCount_seat (s : State) (may : Nat → Bool) (ps : List (Nat × Nat)) : SameSeat s (hostCount s may ps) := by
  have fold : ∀ (ps : List (Nat × Nat)) (u : State), SameSeat s u → SameSeat s (ps.foldl (fun u p => countHot u p.1 0 0) u) := by
    intro ps
    induction ps with
    | nil => exact fun _ h => h
    | cons p t ih => exact fun u h => ih _ (sameSeat_trans h (countHot_seat u p.1 0 0))
  unfold hostCount
  exact sameSeat_ite (fold ps s (sameSeat_refl s)) (sameSeat_refl s)

theorem fetchParcel_seat {s u : State} {first : Bool} {va : VAddr} {p : Nat} (h : fetchParcel s first va = .ok (p, u)) : SameSeat s u := by
  unfold fetchParcel at h
  split at h
  · cases h
  · rename_i l0 hl
    dsimp only at h
    have counted := sameSeat_trans (land_seat hl) (countHot_seat l0.st l0.loc (coreOf s.who) l0.leaf)
    repeat' split at h
    all_goals cases h
    all_goals first | exact counted | exact land_seat hl

theorem readOn_seat (n : Nat) : ∀ (s : State) (first : Bool) (pc : Word), SameSeat s (readOn s first pc n).2.2 := by
  induction n with
  | zero => exact fun s _ _ => sameSeat_refl s
  | succ n ih =>
    intro s first pc
    unfold readOn
    dsimp only
    split
    · rename_i t _
      cases t with
      | trap t => exact refreshTlb_seat s t
      | wait => exact sameSeat_refl s
      | host _ _ => exact sameSeat_refl s
    · rename_i h
      exact sameSeat_trans (fetchParcel_seat h) (ih _ false (pc + 2))

theorem runPlaces_seat (n : Nat) : ∀ (s u : State) (pc : Word) (l : List Nat), runPlaces s pc n = some (l, u) → SameSeat s u := by
  induction n with
  | zero => intro s u pc l h; cases h; exact sameSeat_refl s
  | succ n ih =>
    intro s u pc l h
    unfold runPlaces at h
    split at h
    · cases h
    · rename_i x hx
      cases r : runPlaces x.st (pc + 2) n with
      | none => rw [r] at h; cases h
      | some q =>
        rw [r] at h
        cases h
        exact sameSeat_trans (land_seat hx) (ih _ _ _ _ r)

theorem keptRun_places {s u : State} {pc : Word} {l : List Nat} (h : keptRun s pc = some (l, u)) :
    ∃ places, runPlaces s pc l.length = some (places, u) := by
  unfold keptRun at h
  split at h
  · cases f : (getCluster s (clusterOf s.who)).icache.find? (·.1 = fetchKey s pc) with
    | none => rw [f] at h; cases h
    | some x =>
      rw [f] at h
      cases r : runPlaces s pc x.2.length with
      | none => simp [r] at h
      | some q =>
        simp [r] at h
        obtain ⟨_, rfl, rfl⟩ := h
        exact ⟨q.1, by simp [r]⟩
  · cases h

theorem fetchRun_seat (s : State) (pc : Word) (n : Nat) : SameSeat s (fetchRun s pc n).2.2 := by
  unfold fetchRun
  split
  · rename_i h
    split
    · obtain ⟨_, k⟩ := keptRun_places h
      exact runPlaces_seat _ _ _ _ _ k
    · exact readOn_seat n s true pc
  · exact readOn_seat n s true pc

theorem spanRun_seat (s : State) (pc : Word) (n : Nat) : SameSeat s (spanRun s pc n).2.2 := by
  unfold spanRun
  split
  · rename_i h
    split
    · obtain ⟨_, k⟩ := keptRun_places h
      exact runPlaces_seat _ _ _ _ _ k
    · exact fetchRun_seat s (pc + 2) n
  · exact fetchRun_seat s (pc + 2) n

end Sys2Proof.Laws
end

