-- ==== Sys2Proof/Laws/Scalar.lean ====
section
/-! SUPPORT. The shared forms of the scalar datapath. -/

namespace Sys2Proof.Laws

open Sys2Proof Sys2Proof.Machine

theorem alu3_completes {i : Instr} {s : State} {f : Word → Word → Word} {lat len : Nat} {d a b : BitVec 5} {st : BitVec 3}
    (h : Calm anyAgent s) (e : exec i s = alu3 f lat len d a b st s) : Completes i s (wr s d (f (rd s a) (rd s b))) len :=
  completes_of_done (e.trans (issue_calm h len st _ _))

theorem alu2_completes {i : Instr} {s : State} {f : Word → Word} {len : Nat} {d a : BitVec 5} {st : BitVec 3}
    (h : Calm anyAgent s) (e : exec i s = alu2 f len d a st s) : Completes i s (wr s d (f (rd s a))) len :=
  completes_of_done (e.trans (issue_calm h len st _ _))

theorem branch_taken {i : Instr} {s : State} {n len : Nat} {c : Word → Word → Bool} {a b : BitVec 5} {o : BitVec n}
    {st : BitVec 3} (h : Calm anyAgent s) (e : exec i s = branch c len a b o st s) (t : c (rd s a) (rd s b) = true) :
    Jumps i s s (parcelTarget s.cur.pc o) := by
  refine jumps_of_jump (b := false) (len := len) (st := st) (uses := [useS a, useS b]) (e.trans ((issue_calm h len st _ _).trans ?_))
  rw [t]; rfl

theorem branch_not {i : Instr} {s : State} {n len : Nat} {c : Word → Word → Bool} {a b : BitVec 5} {o : BitVec n}
    {st : BitVec 3} (h : Calm anyAgent s) (e : exec i s = branch c len a b o st s) (t : c (rd s a) (rd s b) = false) :
    Completes i s s len := by
  refine completes_of_done (l := []) (st := st) (uses := [useS a, useS b]) (e.trans ((issue_calm h len st _ _).trans ?_))
  rw [t]; rfl

theorem jumpLink_jumps {i : Instr} {s : State} {len : Nat} {d : BitVec 5} {st : BitVec 3} {uses : List RegUse}
    {target : State → Word} (h : Calm anyAgent s) (e : exec i s = jumpLink len d st uses target s) :
    Jumps i s (wr s d (s.cur.pc + BitVec.ofNat 64 len)) (target s) :=
  jumps_of_jump (e.trans (issue_calm h len st _ _))

/-- A write to s0 is discarded (R44, R201). -/
@[simp] theorem wr_zero (s : State) (v : Word) : wr s 0 v = s := rfl

@[simp] theorem rd_zero (s : State) : rd s 0 = 0 := rfl

end Sys2Proof.Laws
end

