-- ==== Sys2Proof/Laws/State.lean ====
section
/-! SUPPORT. What each update of the state leaves alone, field by field. -/

namespace Sys2Proof.Laws

open Sys2Proof Sys2Proof.Machine

/-! ### A general register of a context -/

@[simp] theorem ctxWr_vregs (c : Ctx) (r : BitVec 5) (v : Word) : (c.wr r v).vregs = c.vregs := by unfold Ctx.wr; split <;> rfl
@[simp] theorem ctxWr_preds (c : Ctx) (r : BitVec 5) (v : Word) : (c.wr r v).preds = c.preds := by unfold Ctx.wr; split <;> rfl
@[simp] theorem ctxWr_pc (c : Ctx) (r : BitVec 5) (v : Word) : (c.wr r v).pc = c.pc := by unfold Ctx.wr; split <;> rfl
@[simp] theorem ctxWr_cause (c : Ctx) (r : BitVec 5) (v : Word) : (c.wr r v).cause = c.cause := by unfold Ctx.wr; split <;> rfl
@[simp] theorem ctxWr_epc (c : Ctx) (r : BitVec 5) (v : Word) : (c.wr r v).epc = c.epc := by unfold Ctx.wr; split <;> rfl
@[simp] theorem ctxWr_faultva (c : Ctx) (r : BitVec 5) (v : Word) : (c.wr r v).faultva = c.faultva :=
  by unfold Ctx.wr; split <;> rfl
@[simp] theorem ctxWr_faultvah (c : Ctx) (r : BitVec 5) (v : Word) : (c.wr r v).faultvah = c.faultvah :=
  by unfold Ctx.wr; split <;> rfl
@[simp] theorem ctxWr_tvec (c : Ctx) (r : BitVec 5) (v : Word) : (c.wr r v).tvec = c.tvec := by unfold Ctx.wr; split <;> rfl
@[simp] theorem ctxWr_tscratch (c : Ctx) (r : BitVec 5) (v : Word) : (c.wr r v).tscratch = c.tscratch :=
  by unfold Ctx.wr; split <;> rfl
@[simp] theorem ctxWr_tstatus (c : Ctx) (r : BitVec 5) (v : Word) : (c.wr r v).tstatus = c.tstatus :=
  by unfold Ctx.wr; split <;> rfl
@[simp] theorem ctxWr_vtype (c : Ctx) (r : BitVec 5) (v : Word) : (c.wr r v).vtype = c.vtype := by unfold Ctx.wr; split <;> rfl
@[simp] theorem ctxWr_issuectl (c : Ctx) (r : BitVec 5) (v : Word) : (c.wr r v).issuectl = c.issuectl :=
  by unfold Ctx.wr; split <;> rfl
@[simp] theorem ctxWr_vaux (c : Ctx) (r : BitVec 5) (v : Word) : (c.wr r v).vaux = c.vaux := by unfold Ctx.wr; split <;> rfl
@[simp] theorem ctxWr_lpaddr0 (c : Ctx) (r : BitVec 5) (v : Word) : (c.wr r v).lpaddr0 = c.lpaddr0 :=
  by unfold Ctx.wr; split <;> rfl
@[simp] theorem ctxWr_lpaddr1 (c : Ctx) (r : BitVec 5) (v : Word) : (c.wr r v).lpaddr1 = c.lpaddr1 :=
  by unfold Ctx.wr; split <;> rfl
@[simp] theorem ctxWr_lpctl0 (c : Ctx) (r : BitVec 5) (v : Word) : (c.wr r v).lpctl0 = c.lpctl0 := by unfold Ctx.wr; split <;> rfl
@[simp] theorem ctxWr_lpctl1 (c : Ctx) (r : BitVec 5) (v : Word) : (c.wr r v).lpctl1 = c.lpctl1 := by unfold Ctx.wr; split <;> rfl
@[simp] theorem ctxWr_vrand (c : Ctx) (r : BitVec 5) (v : Word) : (c.wr r v).vrand = c.vrand := by unfold Ctx.wr; split <;> rfl
@[simp] theorem ctxWr_mrstat (c : Ctx) (r : BitVec 5) (v : Word) : (c.wr r v).mrstat = c.mrstat := by unfold Ctx.wr; split <;> rfl
@[simp] theorem ctxWr_sterr (c : Ctx) (r : BitVec 5) (v : Word) : (c.wr r v).sterr = c.sterr := by unfold Ctx.wr; split <;> rfl
@[simp] theorem ctxWr_vabase (c : Ctx) (r : BitVec 5) (v : Word) : (c.wr r v).vabase = c.vabase := by unfold Ctx.wr; split <;> rfl
@[simp] theorem ctxWr_troot (c : Ctx) (r : BitVec 5) (v : Word) : (c.wr r v).troot = c.troot := by unfold Ctx.wr; split <;> rfl
@[simp] theorem ctxWr_stpath (c : Ctx) (r : BitVec 5) (v : Word) : (c.wr r v).stpath = c.stpath := by unfold Ctx.wr; split <;> rfl
@[simp] theorem ctxWr_pathdone (c : Ctx) (r : BitVec 5) (v : Word) : (c.wr r v).pathdone = c.pathdone :=
  by unfold Ctx.wr; split <;> rfl
@[simp] theorem ctxWr_span (c : Ctx) (r : BitVec 5) (v : Word) : (c.wr r v).span = c.span := by unfold Ctx.wr; split <;> rfl
@[simp] theorem ctxWr_spanAt (c : Ctx) (r : BitVec 5) (v : Word) : (c.wr r v).spanAt = c.spanAt := by unfold Ctx.wr; split <;> rfl
@[simp] theorem ctxWr_spanCode (c : Ctx) (r : BitVec 5) (v : Word) : (c.wr r v).spanCode = c.spanCode :=
  by unfold Ctx.wr; split <;> rfl
@[simp] theorem ctxWr_ends (c : Ctx) (r : BitVec 5) (v : Word) : (c.wr r v).ends = c.ends := by unfold Ctx.wr; split <;> rfl
@[simp] theorem ctxWr_loads (c : Ctx) (r : BitVec 5) (v : Word) : (c.wr r v).loads = c.loads := by unfold Ctx.wr; split <;> rfl
@[simp] theorem ctxWr_loadNext (c : Ctx) (r : BitVec 5) (v : Word) : (c.wr r v).loadNext = c.loadNext :=
  by unfold Ctx.wr; split <;> rfl
@[simp] theorem ctxWr_hostGot (c : Ctx) (r : BitVec 5) (v : Word) : (c.wr r v).hostGot = c.hostGot :=
  by unfold Ctx.wr; split <;> rfl
@[simp] theorem ctxWr_codeAt (c : Ctx) (r : BitVec 5) (v : Word) : (c.wr r v).codeAt = c.codeAt := by unfold Ctx.wr; split <;> rfl
@[simp] theorem ctxWr_board (c : Ctx) (r : BitVec 5) (v : Word) : (c.wr r v).board = c.board := by unfold Ctx.wr; split <;> rfl
@[simp] theorem ctxWr_buf (c : Ctx) (r : BitVec 5) (v : Word) : (c.wr r v).buf = c.buf := by unfold Ctx.wr; split <;> rfl
@[simp] theorem ctxWr_seqNext (c : Ctx) (r : BitVec 5) (v : Word) : (c.wr r v).seqNext = c.seqNext :=
  by unfold Ctx.wr; split <;> rfl
@[simp] theorem ctxWr_rels (c : Ctx) (r : BitVec 5) (v : Word) : (c.wr r v).rels = c.rels := by unfold Ctx.wr; split <;> rfl
@[simp] theorem ctxWr_run (c : Ctx) (r : BitVec 5) (v : Word) : (c.wr r v).run = c.run := by unfold Ctx.wr; split <;> rfl
@[simp] theorem ctxWr_wait (c : Ctx) (r : BitVec 5) (v : Word) : (c.wr r v).wait = c.wait := by unfold Ctx.wr; split <;> rfl
@[simp] theorem ctxWr_mreqs (c : Ctx) (r : BitVec 5) (v : Word) : (c.wr r v).mreqs = c.mreqs := by unfold Ctx.wr; split <;> rfl
@[simp] theorem ctxWr_pagerTask (c : Ctx) (r : BitVec 5) (v : Word) : (c.wr r v).pagerTask = c.pagerTask :=
  by unfold Ctx.wr; split <;> rfl
@[simp] theorem ctxWr_streams (c : Ctx) (r : BitVec 5) (v : Word) : (c.wr r v).streams = c.streams :=
  by unfold Ctx.wr; split <;> rfl
@[simp] theorem ctxWr_engFault (c : Ctx) (r : BitVec 5) (v : Word) : (c.wr r v).engFault = c.engFault :=
  by unfold Ctx.wr; split <;> rfl
@[simp] theorem ctxWr_engSaid (c : Ctx) (r : BitVec 5) (v : Word) : (c.wr r v).engSaid = c.engSaid :=
  by unfold Ctx.wr; split <;> rfl
@[simp] theorem ctxWr_engWant (c : Ctx) (r : BitVec 5) (v : Word) : (c.wr r v).engWant = c.engWant :=
  by unfold Ctx.wr; split <;> rfl
@[simp] theorem ctxWr_engHeld (c : Ctx) (r : BitVec 5) (v : Word) : (c.wr r v).engHeld = c.engHeld :=
  by unfold Ctx.wr; split <;> rfl
@[simp] theorem ctxWr_engHost (c : Ctx) (r : BitVec 5) (v : Word) : (c.wr r v).engHost = c.engHost :=
  by unfold Ctx.wr; split <;> rfl
@[simp] theorem ctxWr_busyTill (c : Ctx) (r : BitVec 5) (v : Word) : (c.wr r v).busyTill = c.busyTill :=
  by unfold Ctx.wr; split <;> rfl
@[simp] theorem ctxWr_vecTill (c : Ctx) (r : BitVec 5) (v : Word) : (c.wr r v).vecTill = c.vecTill :=
  by unfold Ctx.wr; split <;> rfl

/-! ### A predicate register -/

@[simp] theorem ctxPw_regs (c : Ctx) (p : BitVec 3) (v : BitVec 32) : (c.pw p v).regs = c.regs := by unfold Ctx.pw; split <;> rfl
@[simp] theorem ctxPw_vregs (c : Ctx) (p : BitVec 3) (v : BitVec 32) : (c.pw p v).vregs = c.vregs := by unfold Ctx.pw; split <;> rfl
@[simp] theorem ctxPw_pc (c : Ctx) (p : BitVec 3) (v : BitVec 32) : (c.pw p v).pc = c.pc := by unfold Ctx.pw; split <;> rfl
@[simp] theorem ctxPw_cause (c : Ctx) (p : BitVec 3) (v : BitVec 32) : (c.pw p v).cause = c.cause := by unfold Ctx.pw; split <;> rfl
@[simp] theorem ctxPw_epc (c : Ctx) (p : BitVec 3) (v : BitVec 32) : (c.pw p v).epc = c.epc := by unfold Ctx.pw; split <;> rfl
@[simp] theorem ctxPw_faultva (c : Ctx) (p : BitVec 3) (v : BitVec 32) : (c.pw p v).faultva = c.faultva :=
  by unfold Ctx.pw; split <;> rfl
@[simp] theorem ctxPw_faultvah (c : Ctx) (p : BitVec 3) (v : BitVec 32) : (c.pw p v).faultvah = c.faultvah :=
  by unfold Ctx.pw; split <;> rfl
@[simp] theorem ctxPw_tvec (c : Ctx) (p : BitVec 3) (v : BitVec 32) : (c.pw p v).tvec = c.tvec := by unfold Ctx.pw; split <;> rfl
@[simp] theorem ctxPw_tscratch (c : Ctx) (p : BitVec 3) (v : BitVec 32) : (c.pw p v).tscratch = c.tscratch :=
  by unfold Ctx.pw; split <;> rfl
@[simp] theorem ctxPw_tstatus (c : Ctx) (p : BitVec 3) (v : BitVec 32) : (c.pw p v).tstatus = c.tstatus :=
  by unfold Ctx.pw; split <;> rfl
@[simp] theorem ctxPw_vtype (c : Ctx) (p : BitVec 3) (v : BitVec 32) : (c.pw p v).vtype = c.vtype := by unfold Ctx.pw; split <;> rfl
@[simp] theorem ctxPw_issuectl (c : Ctx) (p : BitVec 3) (v : BitVec 32) : (c.pw p v).issuectl = c.issuectl :=
  by unfold Ctx.pw; split <;> rfl
@[simp] theorem ctxPw_vaux (c : Ctx) (p : BitVec 3) (v : BitVec 32) : (c.pw p v).vaux = c.vaux := by unfold Ctx.pw; split <;> rfl
@[simp] theorem ctxPw_lpaddr0 (c : Ctx) (p : BitVec 3) (v : BitVec 32) : (c.pw p v).lpaddr0 = c.lpaddr0 :=
  by unfold Ctx.pw; split <;> rfl
@[simp] theorem ctxPw_lpaddr1 (c : Ctx) (p : BitVec 3) (v : BitVec 32) : (c.pw p v).lpaddr1 = c.lpaddr1 :=
  by unfold Ctx.pw; split <;> rfl
@[simp] theorem ctxPw_lpctl0 (c : Ctx) (p : BitVec 3) (v : BitVec 32) : (c.pw p v).lpctl0 = c.lpctl0 :=
  by unfold Ctx.pw; split <;> rfl
@[simp] theorem ctxPw_lpctl1 (c : Ctx) (p : BitVec 3) (v : BitVec 32) : (c.pw p v).lpctl1 = c.lpctl1 :=
  by unfold Ctx.pw; split <;> rfl
@[simp] theorem ctxPw_vrand (c : Ctx) (p : BitVec 3) (v : BitVec 32) : (c.pw p v).vrand = c.vrand := by unfold Ctx.pw; split <;> rfl
@[simp] theorem ctxPw_mrstat (c : Ctx) (p : BitVec 3) (v : BitVec 32) : (c.pw p v).mrstat = c.mrstat :=
  by unfold Ctx.pw; split <;> rfl
@[simp] theorem ctxPw_sterr (c : Ctx) (p : BitVec 3) (v : BitVec 32) : (c.pw p v).sterr = c.sterr := by unfold Ctx.pw; split <;> rfl
@[simp] theorem ctxPw_vabase (c : Ctx) (p : BitVec 3) (v : BitVec 32) : (c.pw p v).vabase = c.vabase :=
  by unfold Ctx.pw; split <;> rfl
@[simp] theorem ctxPw_troot (c : Ctx) (p : BitVec 3) (v : BitVec 32) : (c.pw p v).troot = c.troot := by unfold Ctx.pw; split <;> rfl
@[simp] theorem ctxPw_stpath (c : Ctx) (p : BitVec 3) (v : BitVec 32) : (c.pw p v).stpath = c.stpath :=
  by unfold Ctx.pw; split <;> rfl
@[simp] theorem ctxPw_pathdone (c : Ctx) (p : BitVec 3) (v : BitVec 32) : (c.pw p v).pathdone = c.pathdone :=
  by unfold Ctx.pw; split <;> rfl
@[simp] theorem ctxPw_span (c : Ctx) (p : BitVec 3) (v : BitVec 32) : (c.pw p v).span = c.span := by unfold Ctx.pw; split <;> rfl
@[simp] theorem ctxPw_spanAt (c : Ctx) (p : BitVec 3) (v : BitVec 32) : (c.pw p v).spanAt = c.spanAt :=
  by unfold Ctx.pw; split <;> rfl
@[simp] theorem ctxPw_spanCode (c : Ctx) (p : BitVec 3) (v : BitVec 32) : (c.pw p v).spanCode = c.spanCode :=
  by unfold Ctx.pw; split <;> rfl
@[simp] theorem ctxPw_ends (c : Ctx) (p : BitVec 3) (v : BitVec 32) : (c.pw p v).ends = c.ends := by unfold Ctx.pw; split <;> rfl
@[simp] theorem ctxPw_loads (c : Ctx) (p : BitVec 3) (v : BitVec 32) : (c.pw p v).loads = c.loads := by unfold Ctx.pw; split <;> rfl
@[simp] theorem ctxPw_loadNext (c : Ctx) (p : BitVec 3) (v : BitVec 32) : (c.pw p v).loadNext = c.loadNext :=
  by unfold Ctx.pw; split <;> rfl
@[simp] theorem ctxPw_hostGot (c : Ctx) (p : BitVec 3) (v : BitVec 32) : (c.pw p v).hostGot = c.hostGot :=
  by unfold Ctx.pw; split <;> rfl
@[simp] theorem ctxPw_codeAt (c : Ctx) (p : BitVec 3) (v : BitVec 32) : (c.pw p v).codeAt = c.codeAt :=
  by unfold Ctx.pw; split <;> rfl
@[simp] theorem ctxPw_board (c : Ctx) (p : BitVec 3) (v : BitVec 32) : (c.pw p v).board = c.board := by unfold Ctx.pw; split <;> rfl
@[simp] theorem ctxPw_buf (c : Ctx) (p : BitVec 3) (v : BitVec 32) : (c.pw p v).buf = c.buf := by unfold Ctx.pw; split <;> rfl
@[simp] theorem ctxPw_seqNext (c : Ctx) (p : BitVec 3) (v : BitVec 32) : (c.pw p v).seqNext = c.seqNext :=
  by unfold Ctx.pw; split <;> rfl
@[simp] theorem ctxPw_rels (c : Ctx) (p : BitVec 3) (v : BitVec 32) : (c.pw p v).rels = c.rels := by unfold Ctx.pw; split <;> rfl
@[simp] theorem ctxPw_run (c : Ctx) (p : BitVec 3) (v : BitVec 32) : (c.pw p v).run = c.run := by unfold Ctx.pw; split <;> rfl
@[simp] theorem ctxPw_wait (c : Ctx) (p : BitVec 3) (v : BitVec 32) : (c.pw p v).wait = c.wait := by unfold Ctx.pw; split <;> rfl
@[simp] theorem ctxPw_mreqs (c : Ctx) (p : BitVec 3) (v : BitVec 32) : (c.pw p v).mreqs = c.mreqs := by unfold Ctx.pw; split <;> rfl
@[simp] theorem ctxPw_pagerTask (c : Ctx) (p : BitVec 3) (v : BitVec 32) : (c.pw p v).pagerTask = c.pagerTask :=
  by unfold Ctx.pw; split <;> rfl
@[simp] theorem ctxPw_streams (c : Ctx) (p : BitVec 3) (v : BitVec 32) : (c.pw p v).streams = c.streams :=
  by unfold Ctx.pw; split <;> rfl
@[simp] theorem ctxPw_engFault (c : Ctx) (p : BitVec 3) (v : BitVec 32) : (c.pw p v).engFault = c.engFault :=
  by unfold Ctx.pw; split <;> rfl
@[simp] theorem ctxPw_engSaid (c : Ctx) (p : BitVec 3) (v : BitVec 32) : (c.pw p v).engSaid = c.engSaid :=
  by unfold Ctx.pw; split <;> rfl
@[simp] theorem ctxPw_engWant (c : Ctx) (p : BitVec 3) (v : BitVec 32) : (c.pw p v).engWant = c.engWant :=
  by unfold Ctx.pw; split <;> rfl
@[simp] theorem ctxPw_engHeld (c : Ctx) (p : BitVec 3) (v : BitVec 32) : (c.pw p v).engHeld = c.engHeld :=
  by unfold Ctx.pw; split <;> rfl
@[simp] theorem ctxPw_engHost (c : Ctx) (p : BitVec 3) (v : BitVec 32) : (c.pw p v).engHost = c.engHost :=
  by unfold Ctx.pw; split <;> rfl
@[simp] theorem ctxPw_busyTill (c : Ctx) (p : BitVec 3) (v : BitVec 32) : (c.pw p v).busyTill = c.busyTill :=
  by unfold Ctx.pw; split <;> rfl
@[simp] theorem ctxPw_vecTill (c : Ctx) (p : BitVec 3) (v : BitVec 32) : (c.pw p v).vecTill = c.vecTill :=
  by unfold Ctx.pw; split <;> rfl

/-! ### A vector register -/

@[simp] theorem ctxVw_regs (c : Ctx) (r : BitVec 6) (v : VReg) : (c.vw r v).regs = c.regs := rfl
@[simp] theorem ctxVw_preds (c : Ctx) (r : BitVec 6) (v : VReg) : (c.vw r v).preds = c.preds := rfl
@[simp] theorem ctxVw_pc (c : Ctx) (r : BitVec 6) (v : VReg) : (c.vw r v).pc = c.pc := rfl
@[simp] theorem ctxVw_cause (c : Ctx) (r : BitVec 6) (v : VReg) : (c.vw r v).cause = c.cause := rfl
@[simp] theorem ctxVw_epc (c : Ctx) (r : BitVec 6) (v : VReg) : (c.vw r v).epc = c.epc := rfl
@[simp] theorem ctxVw_faultva (c : Ctx) (r : BitVec 6) (v : VReg) : (c.vw r v).faultva = c.faultva := rfl
@[simp] theorem ctxVw_faultvah (c : Ctx) (r : BitVec 6) (v : VReg) : (c.vw r v).faultvah = c.faultvah := rfl
@[simp] theorem ctxVw_tvec (c : Ctx) (r : BitVec 6) (v : VReg) : (c.vw r v).tvec = c.tvec := rfl
@[simp] theorem ctxVw_tscratch (c : Ctx) (r : BitVec 6) (v : VReg) : (c.vw r v).tscratch = c.tscratch := rfl
@[simp] theorem ctxVw_tstatus (c : Ctx) (r : BitVec 6) (v : VReg) : (c.vw r v).tstatus = c.tstatus := rfl
@[simp] theorem ctxVw_vtype (c : Ctx) (r : BitVec 6) (v : VReg) : (c.vw r v).vtype = c.vtype := rfl
@[simp] theorem ctxVw_issuectl (c : Ctx) (r : BitVec 6) (v : VReg) : (c.vw r v).issuectl = c.issuectl := rfl
@[simp] theorem ctxVw_vaux (c : Ctx) (r : BitVec 6) (v : VReg) : (c.vw r v).vaux = c.vaux := rfl
@[simp] theorem ctxVw_lpaddr0 (c : Ctx) (r : BitVec 6) (v : VReg) : (c.vw r v).lpaddr0 = c.lpaddr0 := rfl
@[simp] theorem ctxVw_lpaddr1 (c : Ctx) (r : BitVec 6) (v : VReg) : (c.vw r v).lpaddr1 = c.lpaddr1 := rfl
@[simp] theorem ctxVw_lpctl0 (c : Ctx) (r : BitVec 6) (v : VReg) : (c.vw r v).lpctl0 = c.lpctl0 := rfl
@[simp] theorem ctxVw_lpctl1 (c : Ctx) (r : BitVec 6) (v : VReg) : (c.vw r v).lpctl1 = c.lpctl1 := rfl
@[simp] theorem ctxVw_vrand (c : Ctx) (r : BitVec 6) (v : VReg) : (c.vw r v).vrand = c.vrand := rfl
@[simp] theorem ctxVw_mrstat (c : Ctx) (r : BitVec 6) (v : VReg) : (c.vw r v).mrstat = c.mrstat := rfl
@[simp] theorem ctxVw_sterr (c : Ctx) (r : BitVec 6) (v : VReg) : (c.vw r v).sterr = c.sterr := rfl
@[simp] theorem ctxVw_vabase (c : Ctx) (r : BitVec 6) (v : VReg) : (c.vw r v).vabase = c.vabase := rfl
@[simp] theorem ctxVw_troot (c : Ctx) (r : BitVec 6) (v : VReg) : (c.vw r v).troot = c.troot := rfl
@[simp] theorem ctxVw_stpath (c : Ctx) (r : BitVec 6) (v : VReg) : (c.vw r v).stpath = c.stpath := rfl
@[simp] theorem ctxVw_pathdone (c : Ctx) (r : BitVec 6) (v : VReg) : (c.vw r v).pathdone = c.pathdone := rfl
@[simp] theorem ctxVw_span (c : Ctx) (r : BitVec 6) (v : VReg) : (c.vw r v).span = c.span := rfl
@[simp] theorem ctxVw_spanAt (c : Ctx) (r : BitVec 6) (v : VReg) : (c.vw r v).spanAt = c.spanAt := rfl
@[simp] theorem ctxVw_spanCode (c : Ctx) (r : BitVec 6) (v : VReg) : (c.vw r v).spanCode = c.spanCode := rfl
@[simp] theorem ctxVw_ends (c : Ctx) (r : BitVec 6) (v : VReg) : (c.vw r v).ends = c.ends := rfl
@[simp] theorem ctxVw_loads (c : Ctx) (r : BitVec 6) (v : VReg) : (c.vw r v).loads = c.loads := rfl
@[simp] theorem ctxVw_loadNext (c : Ctx) (r : BitVec 6) (v : VReg) : (c.vw r v).loadNext = c.loadNext := rfl
@[simp] theorem ctxVw_hostGot (c : Ctx) (r : BitVec 6) (v : VReg) : (c.vw r v).hostGot = c.hostGot := rfl
@[simp] theorem ctxVw_codeAt (c : Ctx) (r : BitVec 6) (v : VReg) : (c.vw r v).codeAt = c.codeAt := rfl
@[simp] theorem ctxVw_board (c : Ctx) (r : BitVec 6) (v : VReg) : (c.vw r v).board = c.board := rfl
@[simp] theorem ctxVw_buf (c : Ctx) (r : BitVec 6) (v : VReg) : (c.vw r v).buf = c.buf := rfl
@[simp] theorem ctxVw_seqNext (c : Ctx) (r : BitVec 6) (v : VReg) : (c.vw r v).seqNext = c.seqNext := rfl
@[simp] theorem ctxVw_rels (c : Ctx) (r : BitVec 6) (v : VReg) : (c.vw r v).rels = c.rels := rfl
@[simp] theorem ctxVw_run (c : Ctx) (r : BitVec 6) (v : VReg) : (c.vw r v).run = c.run := rfl
@[simp] theorem ctxVw_wait (c : Ctx) (r : BitVec 6) (v : VReg) : (c.vw r v).wait = c.wait := rfl
@[simp] theorem ctxVw_mreqs (c : Ctx) (r : BitVec 6) (v : VReg) : (c.vw r v).mreqs = c.mreqs := rfl
@[simp] theorem ctxVw_pagerTask (c : Ctx) (r : BitVec 6) (v : VReg) : (c.vw r v).pagerTask = c.pagerTask := rfl
@[simp] theorem ctxVw_streams (c : Ctx) (r : BitVec 6) (v : VReg) : (c.vw r v).streams = c.streams := rfl
@[simp] theorem ctxVw_engFault (c : Ctx) (r : BitVec 6) (v : VReg) : (c.vw r v).engFault = c.engFault := rfl
@[simp] theorem ctxVw_engSaid (c : Ctx) (r : BitVec 6) (v : VReg) : (c.vw r v).engSaid = c.engSaid := rfl
@[simp] theorem ctxVw_engWant (c : Ctx) (r : BitVec 6) (v : VReg) : (c.vw r v).engWant = c.engWant := rfl
@[simp] theorem ctxVw_engHeld (c : Ctx) (r : BitVec 6) (v : VReg) : (c.vw r v).engHeld = c.engHeld := rfl
@[simp] theorem ctxVw_engHost (c : Ctx) (r : BitVec 6) (v : VReg) : (c.vw r v).engHost = c.engHost := rfl
@[simp] theorem ctxVw_busyTill (c : Ctx) (r : BitVec 6) (v : VReg) : (c.vw r v).busyTill = c.busyTill := rfl
@[simp] theorem ctxVw_vecTill (c : Ctx) (r : BitVec 6) (v : VReg) : (c.vw r v).vecTill = c.vecTill := rfl

/-! ### A register of the focus -/

@[simp] theorem wr_who (s : State) (r : BitVec 5) (v : Word) : (wr s r v).who = s.who := rfl
@[simp] theorem wr_parked (s : State) (r : BitVec 5) (v : Word) : (wr s r v).parked = s.parked := rfl
@[simp] theorem wr_mem (s : State) (r : BitVec 5) (v : Word) : (wr s r v).mem = s.mem := rfl
@[simp] theorem wr_poison (s : State) (r : BitVec 5) (v : Word) : (wr s r v).poison = s.poison := rfl
@[simp] theorem wr_cores (s : State) (r : BitVec 5) (v : Word) : (wr s r v).cores = s.cores := rfl
@[simp] theorem wr_tiles (s : State) (r : BitVec 5) (v : Word) : (wr s r v).tiles = s.tiles := rfl
@[simp] theorem wr_clusters (s : State) (r : BitVec 5) (v : Word) : (wr s r v).clusters = s.clusters := rfl
@[simp] theorem wr_dies (s : State) (r : BitVec 5) (v : Word) : (wr s r v).dies = s.dies := rfl
@[simp] theorem wr_regions (s : State) (r : BitVec 5) (v : Word) : (wr s r v).regions = s.regions := rfl
@[simp] theorem wr_arrays (s : State) (r : BitVec 5) (v : Word) : (wr s r v).arrays = s.arrays := rfl
@[simp] theorem wr_dev (s : State) (r : BitVec 5) (v : Word) : (wr s r v).dev = s.dev := rfl
@[simp] theorem wr_stamp (s : State) (r : BitVec 5) (v : Word) : (wr s r v).stamp = s.stamp := rfl
@[simp] theorem wr_tick (s : State) (r : BitVec 5) (v : Word) : (wr s r v).tick = s.tick := rfl
@[simp] theorem wr_slew (s : State) (r : BitVec 5) (v : Word) : (wr s r v).slew = s.slew := rfl
@[simp] theorem wr_net (s : State) (r : BitVec 5) (v : Word) : (wr s r v).net = s.net := rfl
@[simp] theorem wr_replies (s : State) (r : BitVec 5) (v : Word) : (wr s r v).replies = s.replies := rfl
@[simp] theorem wr_hot (s : State) (r : BitVec 5) (v : Word) : (wr s r v).hot = s.hot := rfl
@[simp] theorem wr_reserved (s : State) (r : BitVec 5) (v : Word) : (wr s r v).reserved = s.reserved := rfl
@[simp] theorem wr_monitors (s : State) (r : BitVec 5) (v : Word) : (wr s r v).monitors = s.monitors := rfl
@[simp] theorem wr_absent (s : State) (r : BitVec 5) (v : Word) : (wr s r v).absent = s.absent := rfl
@[simp] theorem wr_cacheMode (s : State) (r : BitVec 5) (v : Word) : (wr s r v).cacheMode = s.cacheMode := rfl
@[simp] theorem wr_far (s : State) (r : BitVec 5) (v : Word) : (wr s r v).far = s.far := rfl
@[simp] theorem wr_ends (s : State) (r : BitVec 5) (v : Word) : (wr s r v).ends = s.ends := rfl
@[simp] theorem wr_asks (s : State) (r : BitVec 5) (v : Word) : (wr s r v).asks = s.asks := rfl
@[simp] theorem wr_passing (s : State) (r : BitVec 5) (v : Word) : (wr s r v).passing = s.passing := rfl
@[simp] theorem wr_posted (s : State) (r : BitVec 5) (v : Word) : (wr s r v).posted = s.posted := rfl
@[simp] theorem wr_recs (s : State) (r : BitVec 5) (v : Word) : (wr s r v).recs = s.recs := rfl
@[simp] theorem wr_rootInst (s : State) (r : BitVec 5) (v : Word) : (wr s r v).rootInst = s.rootInst := rfl
@[simp] theorem wr_results (s : State) (r : BitVec 5) (v : Word) : (wr s r v).results = s.results := rfl
@[simp] theorem wr_events (s : State) (r : BitVec 5) (v : Word) : (wr s r v).events = s.events := rfl
@[simp] theorem wr_links (s : State) (r : BitVec 5) (v : Word) : (wr s r v).links = s.links := rfl
@[simp] theorem wr_gtx (s : State) (r : BitVec 5) (v : Word) : (wr s r v).gtx = s.gtx := rfl
@[simp] theorem wr_grx (s : State) (r : BitVec 5) (v : Word) : (wr s r v).grx = s.grx := rfl
@[simp] theorem wr_remotes (s : State) (r : BitVec 5) (v : Word) : (wr s r v).remotes = s.remotes := rfl
@[simp] theorem wr_lastEpoch (s : State) (r : BitVec 5) (v : Word) : (wr s r v).lastEpoch = s.lastEpoch := rfl
@[simp] theorem wr_pstate (s : State) (r : BitVec 5) (v : Word) : (wr s r v).pstate = s.pstate := rfl
@[simp] theorem wr_draws (s : State) (r : BitVec 5) (v : Word) : (wr s r v).draws = s.draws := rfl
@[simp] theorem wr_idleSince (s : State) (r : BitVec 5) (v : Word) : (wr s r v).idleSince = s.idleSince := rfl
@[simp] theorem wr_wakeAt (s : State) (r : BitVec 5) (v : Word) : (wr s r v).wakeAt = s.wakeAt := rfl
@[simp] theorem wr_mailbox (s : State) (r : BitVec 5) (v : Word) : (wr s r v).mailbox = s.mailbox := rfl
@[simp] theorem wr_nonce (s : State) (r : BitVec 5) (v : Word) : (wr s r v).nonce = s.nonce := rfl
@[simp] theorem wr_image (s : State) (r : BitVec 5) (v : Word) : (wr s r v).image = s.image := rfl
@[simp] theorem wr_booted (s : State) (r : BitVec 5) (v : Word) : (wr s r v).booted = s.booted := rfl
@[simp] theorem wr_recovering (s : State) (r : BitVec 5) (v : Word) : (wr s r v).recovering = s.recovering := rfl
@[simp] theorem wr_isReady (s : State) (r : BitVec 5) (v : Word) : (wr s r v).isReady = s.isReady := rfl
@[simp] theorem wr_hostOut (s : State) (r : BitVec 5) (v : Word) : (wr s r v).hostOut = s.hostOut := rfl
@[simp] theorem wr_hostWaits (s : State) (r : BitVec 5) (v : Word) : (wr s r v).hostWaits = s.hostWaits := rfl
@[simp] theorem wr_timeSent (s : State) (r : BitVec 5) (v : Word) : (wr s r v).timeSent = s.timeSent := rfl
@[simp] theorem wr_sampleAt (s : State) (r : BitVec 5) (v : Word) : (wr s r v).sampleAt = s.sampleAt := rfl
@[simp] theorem wr_identity (s : State) (r : BitVec 5) (v : Word) : (wr s r v).identity = s.identity := rfl
@[simp] theorem wr_grants (s : State) (r : BitVec 5) (v : Word) : (wr s r v).grants = s.grants := rfl
@[simp] theorem wr_sched (s : State) (r : BitVec 5) (v : Word) : (wr s r v).sched = s.sched := rfl
@[simp] theorem wr_agenda (s : State) (r : BitVec 5) (v : Word) : (wr s r v).agenda = s.agenda := rfl

/-! ### A context -/

@[simp] theorem putCtx_who (s : State) (a : Nat) (c : Ctx) : (putCtx s a c).who = s.who := by unfold putCtx; split <;> rfl
@[simp] theorem putCtx_poison (s : State) (a : Nat) (c : Ctx) : (putCtx s a c).poison = s.poison := by unfold putCtx; split <;> rfl
@[simp] theorem putCtx_cores (s : State) (a : Nat) (c : Ctx) : (putCtx s a c).cores = s.cores := by unfold putCtx; split <;> rfl
@[simp] theorem putCtx_tiles (s : State) (a : Nat) (c : Ctx) : (putCtx s a c).tiles = s.tiles := by unfold putCtx; split <;> rfl
@[simp] theorem putCtx_clusters (s : State) (a : Nat) (c : Ctx) : (putCtx s a c).clusters = s.clusters :=
  by unfold putCtx; split <;> rfl
@[simp] theorem putCtx_dies (s : State) (a : Nat) (c : Ctx) : (putCtx s a c).dies = s.dies := by unfold putCtx; split <;> rfl
@[simp] theorem putCtx_regions (s : State) (a : Nat) (c : Ctx) : (putCtx s a c).regions = s.regions :=
  by unfold putCtx; split <;> rfl
@[simp] theorem putCtx_arrays (s : State) (a : Nat) (c : Ctx) : (putCtx s a c).arrays = s.arrays := by unfold putCtx; split <;> rfl
@[simp] theorem putCtx_dev (s : State) (a : Nat) (c : Ctx) : (putCtx s a c).dev = s.dev := by unfold putCtx; split <;> rfl
@[simp] theorem putCtx_stamp (s : State) (a : Nat) (c : Ctx) : (putCtx s a c).stamp = s.stamp := by unfold putCtx; split <;> rfl
@[simp] theorem putCtx_tick (s : State) (a : Nat) (c : Ctx) : (putCtx s a c).tick = s.tick := by unfold putCtx; split <;> rfl
@[simp] theorem putCtx_slew (s : State) (a : Nat) (c : Ctx) : (putCtx s a c).slew = s.slew := by unfold putCtx; split <;> rfl
@[simp] theorem putCtx_net (s : State) (a : Nat) (c : Ctx) : (putCtx s a c).net = s.net := by unfold putCtx; split <;> rfl
@[simp] theorem putCtx_replies (s : State) (a : Nat) (c : Ctx) : (putCtx s a c).replies = s.replies :=
  by unfold putCtx; split <;> rfl
@[simp] theorem putCtx_hot (s : State) (a : Nat) (c : Ctx) : (putCtx s a c).hot = s.hot := by unfold putCtx; split <;> rfl
@[simp] theorem putCtx_reserved (s : State) (a : Nat) (c : Ctx) : (putCtx s a c).reserved = s.reserved :=
  by unfold putCtx; split <;> rfl
@[simp] theorem putCtx_monitors (s : State) (a : Nat) (c : Ctx) : (putCtx s a c).monitors = s.monitors :=
  by unfold putCtx; split <;> rfl
@[simp] theorem putCtx_absent (s : State) (a : Nat) (c : Ctx) : (putCtx s a c).absent = s.absent := by unfold putCtx; split <;> rfl
@[simp] theorem putCtx_cacheMode (s : State) (a : Nat) (c : Ctx) : (putCtx s a c).cacheMode = s.cacheMode :=
  by unfold putCtx; split <;> rfl
@[simp] theorem putCtx_far (s : State) (a : Nat) (c : Ctx) : (putCtx s a c).far = s.far := by unfold putCtx; split <;> rfl
@[simp] theorem putCtx_ends (s : State) (a : Nat) (c : Ctx) : (putCtx s a c).ends = s.ends := by unfold putCtx; split <;> rfl
@[simp] theorem putCtx_asks (s : State) (a : Nat) (c : Ctx) : (putCtx s a c).asks = s.asks := by unfold putCtx; split <;> rfl
@[simp] theorem putCtx_passing (s : State) (a : Nat) (c : Ctx) : (putCtx s a c).passing = s.passing :=
  by unfold putCtx; split <;> rfl
@[simp] theorem putCtx_posted (s : State) (a : Nat) (c : Ctx) : (putCtx s a c).posted = s.posted := by unfold putCtx; split <;> rfl
@[simp] theorem putCtx_recs (s : State) (a : Nat) (c : Ctx) : (putCtx s a c).recs = s.recs := by unfold putCtx; split <;> rfl
@[simp] theorem putCtx_rootInst (s : State) (a : Nat) (c : Ctx) : (putCtx s a c).rootInst = s.rootInst :=
  by unfold putCtx; split <;> rfl
@[simp] theorem putCtx_results (s : State) (a : Nat) (c : Ctx) : (putCtx s a c).results = s.results :=
  by unfold putCtx; split <;> rfl
@[simp] theorem putCtx_events (s : State) (a : Nat) (c : Ctx) : (putCtx s a c).events = s.events := by unfold putCtx; split <;> rfl
@[simp] theorem putCtx_links (s : State) (a : Nat) (c : Ctx) : (putCtx s a c).links = s.links := by unfold putCtx; split <;> rfl
@[simp] theorem putCtx_gtx (s : State) (a : Nat) (c : Ctx) : (putCtx s a c).gtx = s.gtx := by unfold putCtx; split <;> rfl
@[simp] theorem putCtx_grx (s : State) (a : Nat) (c : Ctx) : (putCtx s a c).grx = s.grx := by unfold putCtx; split <;> rfl
@[simp] theorem putCtx_remotes (s : State) (a : Nat) (c : Ctx) : (putCtx s a c).remotes = s.remotes :=
  by unfold putCtx; split <;> rfl
@[simp] theorem putCtx_lastEpoch (s : State) (a : Nat) (c : Ctx) : (putCtx s a c).lastEpoch = s.lastEpoch :=
  by unfold putCtx; split <;> rfl
@[simp] theorem putCtx_pstate (s : State) (a : Nat) (c : Ctx) : (putCtx s a c).pstate = s.pstate := by unfold putCtx; split <;> rfl
@[simp] theorem putCtx_draws (s : State) (a : Nat) (c : Ctx) : (putCtx s a c).draws = s.draws := by unfold putCtx; split <;> rfl
@[simp] theorem putCtx_idleSince (s : State) (a : Nat) (c : Ctx) : (putCtx s a c).idleSince = s.idleSince :=
  by unfold putCtx; split <;> rfl
@[simp] theorem putCtx_wakeAt (s : State) (a : Nat) (c : Ctx) : (putCtx s a c).wakeAt = s.wakeAt := by unfold putCtx; split <;> rfl
@[simp] theorem putCtx_mailbox (s : State) (a : Nat) (c : Ctx) : (putCtx s a c).mailbox = s.mailbox :=
  by unfold putCtx; split <;> rfl
@[simp] theorem putCtx_nonce (s : State) (a : Nat) (c : Ctx) : (putCtx s a c).nonce = s.nonce := by unfold putCtx; split <;> rfl
@[simp] theorem putCtx_image (s : State) (a : Nat) (c : Ctx) : (putCtx s a c).image = s.image := by unfold putCtx; split <;> rfl
@[simp] theorem putCtx_booted (s : State) (a : Nat) (c : Ctx) : (putCtx s a c).booted = s.booted := by unfold putCtx; split <;> rfl
@[simp] theorem putCtx_recovering (s : State) (a : Nat) (c : Ctx) : (putCtx s a c).recovering = s.recovering :=
  by unfold putCtx; split <;> rfl
@[simp] theorem putCtx_isReady (s : State) (a : Nat) (c : Ctx) : (putCtx s a c).isReady = s.isReady :=
  by unfold putCtx; split <;> rfl
@[simp] theorem putCtx_hostOut (s : State) (a : Nat) (c : Ctx) : (putCtx s a c).hostOut = s.hostOut :=
  by unfold putCtx; split <;> rfl
@[simp] theorem putCtx_hostWaits (s : State) (a : Nat) (c : Ctx) : (putCtx s a c).hostWaits = s.hostWaits :=
  by unfold putCtx; split <;> rfl
@[simp] theorem putCtx_timeSent (s : State) (a : Nat) (c : Ctx) : (putCtx s a c).timeSent = s.timeSent :=
  by unfold putCtx; split <;> rfl
@[simp] theorem putCtx_sampleAt (s : State) (a : Nat) (c : Ctx) : (putCtx s a c).sampleAt = s.sampleAt :=
  by unfold putCtx; split <;> rfl
@[simp] theorem putCtx_identity (s : State) (a : Nat) (c : Ctx) : (putCtx s a c).identity = s.identity :=
  by unfold putCtx; split <;> rfl
@[simp] theorem putCtx_grants (s : State) (a : Nat) (c : Ctx) : (putCtx s a c).grants = s.grants := by unfold putCtx; split <;> rfl
@[simp] theorem putCtx_sched (s : State) (a : Nat) (c : Ctx) : (putCtx s a c).sched = s.sched := by unfold putCtx; split <;> rfl
@[simp] theorem putCtx_agenda (s : State) (a : Nat) (c : Ctx) : (putCtx s a c).agenda = s.agenda := by unfold putCtx; split <;> rfl

/-! ### A core -/

@[simp] theorem putCore_who (s : State) (k : Nat) (c : Core) : (putCore s k c).who = s.who := rfl
@[simp] theorem putCore_cur (s : State) (k : Nat) (c : Core) : (putCore s k c).cur = s.cur := rfl
@[simp] theorem putCore_parked (s : State) (k : Nat) (c : Core) : (putCore s k c).parked = s.parked := rfl
@[simp] theorem putCore_mem (s : State) (k : Nat) (c : Core) : (putCore s k c).mem = s.mem := rfl
@[simp] theorem putCore_poison (s : State) (k : Nat) (c : Core) : (putCore s k c).poison = s.poison := rfl
@[simp] theorem putCore_tiles (s : State) (k : Nat) (c : Core) : (putCore s k c).tiles = s.tiles := rfl
@[simp] theorem putCore_clusters (s : State) (k : Nat) (c : Core) : (putCore s k c).clusters = s.clusters := rfl
@[simp] theorem putCore_dies (s : State) (k : Nat) (c : Core) : (putCore s k c).dies = s.dies := rfl
@[simp] theorem putCore_regions (s : State) (k : Nat) (c : Core) : (putCore s k c).regions = s.regions := rfl
@[simp] theorem putCore_arrays (s : State) (k : Nat) (c : Core) : (putCore s k c).arrays = s.arrays := rfl
@[simp] theorem putCore_dev (s : State) (k : Nat) (c : Core) : (putCore s k c).dev = s.dev := rfl
@[simp] theorem putCore_stamp (s : State) (k : Nat) (c : Core) : (putCore s k c).stamp = s.stamp := rfl
@[simp] theorem putCore_tick (s : State) (k : Nat) (c : Core) : (putCore s k c).tick = s.tick := rfl
@[simp] theorem putCore_slew (s : State) (k : Nat) (c : Core) : (putCore s k c).slew = s.slew := rfl
@[simp] theorem putCore_net (s : State) (k : Nat) (c : Core) : (putCore s k c).net = s.net := rfl
@[simp] theorem putCore_replies (s : State) (k : Nat) (c : Core) : (putCore s k c).replies = s.replies := rfl
@[simp] theorem putCore_hot (s : State) (k : Nat) (c : Core) : (putCore s k c).hot = s.hot := rfl
@[simp] theorem putCore_reserved (s : State) (k : Nat) (c : Core) : (putCore s k c).reserved = s.reserved := rfl
@[simp] theorem putCore_monitors (s : State) (k : Nat) (c : Core) : (putCore s k c).monitors = s.monitors := rfl
@[simp] theorem putCore_absent (s : State) (k : Nat) (c : Core) : (putCore s k c).absent = s.absent := rfl
@[simp] theorem putCore_cacheMode (s : State) (k : Nat) (c : Core) : (putCore s k c).cacheMode = s.cacheMode := rfl
@[simp] theorem putCore_far (s : State) (k : Nat) (c : Core) : (putCore s k c).far = s.far := rfl
@[simp] theorem putCore_ends (s : State) (k : Nat) (c : Core) : (putCore s k c).ends = s.ends := rfl
@[simp] theorem putCore_asks (s : State) (k : Nat) (c : Core) : (putCore s k c).asks = s.asks := rfl
@[simp] theorem putCore_passing (s : State) (k : Nat) (c : Core) : (putCore s k c).passing = s.passing := rfl
@[simp] theorem putCore_posted (s : State) (k : Nat) (c : Core) : (putCore s k c).posted = s.posted := rfl
@[simp] theorem putCore_recs (s : State) (k : Nat) (c : Core) : (putCore s k c).recs = s.recs := rfl
@[simp] theorem putCore_rootInst (s : State) (k : Nat) (c : Core) : (putCore s k c).rootInst = s.rootInst := rfl
@[simp] theorem putCore_results (s : State) (k : Nat) (c : Core) : (putCore s k c).results = s.results := rfl
@[simp] theorem putCore_events (s : State) (k : Nat) (c : Core) : (putCore s k c).events = s.events := rfl
@[simp] theorem putCore_links (s : State) (k : Nat) (c : Core) : (putCore s k c).links = s.links := rfl
@[simp] theorem putCore_gtx (s : State) (k : Nat) (c : Core) : (putCore s k c).gtx = s.gtx := rfl
@[simp] theorem putCore_grx (s : State) (k : Nat) (c : Core) : (putCore s k c).grx = s.grx := rfl
@[simp] theorem putCore_remotes (s : State) (k : Nat) (c : Core) : (putCore s k c).remotes = s.remotes := rfl
@[simp] theorem putCore_lastEpoch (s : State) (k : Nat) (c : Core) : (putCore s k c).lastEpoch = s.lastEpoch := rfl
@[simp] theorem putCore_pstate (s : State) (k : Nat) (c : Core) : (putCore s k c).pstate = s.pstate := rfl
@[simp] theorem putCore_draws (s : State) (k : Nat) (c : Core) : (putCore s k c).draws = s.draws := rfl
@[simp] theorem putCore_idleSince (s : State) (k : Nat) (c : Core) : (putCore s k c).idleSince = s.idleSince := rfl
@[simp] theorem putCore_wakeAt (s : State) (k : Nat) (c : Core) : (putCore s k c).wakeAt = s.wakeAt := rfl
@[simp] theorem putCore_mailbox (s : State) (k : Nat) (c : Core) : (putCore s k c).mailbox = s.mailbox := rfl
@[simp] theorem putCore_nonce (s : State) (k : Nat) (c : Core) : (putCore s k c).nonce = s.nonce := rfl
@[simp] theorem putCore_image (s : State) (k : Nat) (c : Core) : (putCore s k c).image = s.image := rfl
@[simp] theorem putCore_booted (s : State) (k : Nat) (c : Core) : (putCore s k c).booted = s.booted := rfl
@[simp] theorem putCore_recovering (s : State) (k : Nat) (c : Core) : (putCore s k c).recovering = s.recovering := rfl
@[simp] theorem putCore_isReady (s : State) (k : Nat) (c : Core) : (putCore s k c).isReady = s.isReady := rfl
@[simp] theorem putCore_hostOut (s : State) (k : Nat) (c : Core) : (putCore s k c).hostOut = s.hostOut := rfl
@[simp] theorem putCore_hostWaits (s : State) (k : Nat) (c : Core) : (putCore s k c).hostWaits = s.hostWaits := rfl
@[simp] theorem putCore_timeSent (s : State) (k : Nat) (c : Core) : (putCore s k c).timeSent = s.timeSent := rfl
@[simp] theorem putCore_sampleAt (s : State) (k : Nat) (c : Core) : (putCore s k c).sampleAt = s.sampleAt := rfl
@[simp] theorem putCore_identity (s : State) (k : Nat) (c : Core) : (putCore s k c).identity = s.identity := rfl
@[simp] theorem putCore_grants (s : State) (k : Nat) (c : Core) : (putCore s k c).grants = s.grants := rfl
@[simp] theorem putCore_sched (s : State) (k : Nat) (c : Core) : (putCore s k c).sched = s.sched := rfl
@[simp] theorem putCore_agenda (s : State) (k : Nat) (c : Core) : (putCore s k c).agenda = s.agenda := rfl

/-! ### The core of the focus -/

@[simp] theorem putMyCore_who (s : State) (c : Core) : (putMyCore s c).who = s.who := rfl
@[simp] theorem putMyCore_cur (s : State) (c : Core) : (putMyCore s c).cur = s.cur := rfl
@[simp] theorem putMyCore_parked (s : State) (c : Core) : (putMyCore s c).parked = s.parked := rfl
@[simp] theorem putMyCore_mem (s : State) (c : Core) : (putMyCore s c).mem = s.mem := rfl
@[simp] theorem putMyCore_poison (s : State) (c : Core) : (putMyCore s c).poison = s.poison := rfl
@[simp] theorem putMyCore_tiles (s : State) (c : Core) : (putMyCore s c).tiles = s.tiles := rfl
@[simp] theorem putMyCore_clusters (s : State) (c : Core) : (putMyCore s c).clusters = s.clusters := rfl
@[simp] theorem putMyCore_dies (s : State) (c : Core) : (putMyCore s c).dies = s.dies := rfl
@[simp] theorem putMyCore_regions (s : State) (c : Core) : (putMyCore s c).regions = s.regions := rfl
@[simp] theorem putMyCore_arrays (s : State) (c : Core) : (putMyCore s c).arrays = s.arrays := rfl
@[simp] theorem putMyCore_dev (s : State) (c : Core) : (putMyCore s c).dev = s.dev := rfl
@[simp] theorem putMyCore_stamp (s : State) (c : Core) : (putMyCore s c).stamp = s.stamp := rfl
@[simp] theorem putMyCore_tick (s : State) (c : Core) : (putMyCore s c).tick = s.tick := rfl
@[simp] theorem putMyCore_slew (s : State) (c : Core) : (putMyCore s c).slew = s.slew := rfl
@[simp] theorem putMyCore_net (s : State) (c : Core) : (putMyCore s c).net = s.net := rfl
@[simp] theorem putMyCore_replies (s : State) (c : Core) : (putMyCore s c).replies = s.replies := rfl
@[simp] theorem putMyCore_hot (s : State) (c : Core) : (putMyCore s c).hot = s.hot := rfl
@[simp] theorem putMyCore_reserved (s : State) (c : Core) : (putMyCore s c).reserved = s.reserved := rfl
@[simp] theorem putMyCore_monitors (s : State) (c : Core) : (putMyCore s c).monitors = s.monitors := rfl
@[simp] theorem putMyCore_absent (s : State) (c : Core) : (putMyCore s c).absent = s.absent := rfl
@[simp] theorem putMyCore_cacheMode (s : State) (c : Core) : (putMyCore s c).cacheMode = s.cacheMode := rfl
@[simp] theorem putMyCore_far (s : State) (c : Core) : (putMyCore s c).far = s.far := rfl
@[simp] theorem putMyCore_ends (s : State) (c : Core) : (putMyCore s c).ends = s.ends := rfl
@[simp] theorem putMyCore_asks (s : State) (c : Core) : (putMyCore s c).asks = s.asks := rfl
@[simp] theorem putMyCore_passing (s : State) (c : Core) : (putMyCore s c).passing = s.passing := rfl
@[simp] theorem putMyCore_posted (s : State) (c : Core) : (putMyCore s c).posted = s.posted := rfl
@[simp] theorem putMyCore_recs (s : State) (c : Core) : (putMyCore s c).recs = s.recs := rfl
@[simp] theorem putMyCore_rootInst (s : State) (c : Core) : (putMyCore s c).rootInst = s.rootInst := rfl
@[simp] theorem putMyCore_results (s : State) (c : Core) : (putMyCore s c).results = s.results := rfl
@[simp] theorem putMyCore_events (s : State) (c : Core) : (putMyCore s c).events = s.events := rfl
@[simp] theorem putMyCore_links (s : State) (c : Core) : (putMyCore s c).links = s.links := rfl
@[simp] theorem putMyCore_gtx (s : State) (c : Core) : (putMyCore s c).gtx = s.gtx := rfl
@[simp] theorem putMyCore_grx (s : State) (c : Core) : (putMyCore s c).grx = s.grx := rfl
@[simp] theorem putMyCore_remotes (s : State) (c : Core) : (putMyCore s c).remotes = s.remotes := rfl
@[simp] theorem putMyCore_lastEpoch (s : State) (c : Core) : (putMyCore s c).lastEpoch = s.lastEpoch := rfl
@[simp] theorem putMyCore_pstate (s : State) (c : Core) : (putMyCore s c).pstate = s.pstate := rfl
@[simp] theorem putMyCore_draws (s : State) (c : Core) : (putMyCore s c).draws = s.draws := rfl
@[simp] theorem putMyCore_idleSince (s : State) (c : Core) : (putMyCore s c).idleSince = s.idleSince := rfl
@[simp] theorem putMyCore_wakeAt (s : State) (c : Core) : (putMyCore s c).wakeAt = s.wakeAt := rfl
@[simp] theorem putMyCore_mailbox (s : State) (c : Core) : (putMyCore s c).mailbox = s.mailbox := rfl
@[simp] theorem putMyCore_nonce (s : State) (c : Core) : (putMyCore s c).nonce = s.nonce := rfl
@[simp] theorem putMyCore_image (s : State) (c : Core) : (putMyCore s c).image = s.image := rfl
@[simp] theorem putMyCore_booted (s : State) (c : Core) : (putMyCore s c).booted = s.booted := rfl
@[simp] theorem putMyCore_recovering (s : State) (c : Core) : (putMyCore s c).recovering = s.recovering := rfl
@[simp] theorem putMyCore_isReady (s : State) (c : Core) : (putMyCore s c).isReady = s.isReady := rfl
@[simp] theorem putMyCore_hostOut (s : State) (c : Core) : (putMyCore s c).hostOut = s.hostOut := rfl
@[simp] theorem putMyCore_hostWaits (s : State) (c : Core) : (putMyCore s c).hostWaits = s.hostWaits := rfl
@[simp] theorem putMyCore_timeSent (s : State) (c : Core) : (putMyCore s c).timeSent = s.timeSent := rfl
@[simp] theorem putMyCore_sampleAt (s : State) (c : Core) : (putMyCore s c).sampleAt = s.sampleAt := rfl
@[simp] theorem putMyCore_identity (s : State) (c : Core) : (putMyCore s c).identity = s.identity := rfl
@[simp] theorem putMyCore_grants (s : State) (c : Core) : (putMyCore s c).grants = s.grants := rfl
@[simp] theorem putMyCore_sched (s : State) (c : Core) : (putMyCore s c).sched = s.sched := rfl
@[simp] theorem putMyCore_agenda (s : State) (c : Core) : (putMyCore s c).agenda = s.agenda := rfl

/-! ### A tile -/

@[simp] theorem putTile_who (s : State) (k : Nat) (c : Tile) : (putTile s k c).who = s.who := rfl
@[simp] theorem putTile_cur (s : State) (k : Nat) (c : Tile) : (putTile s k c).cur = s.cur := rfl
@[simp] theorem putTile_parked (s : State) (k : Nat) (c : Tile) : (putTile s k c).parked = s.parked := rfl
@[simp] theorem putTile_mem (s : State) (k : Nat) (c : Tile) : (putTile s k c).mem = s.mem := rfl
@[simp] theorem putTile_poison (s : State) (k : Nat) (c : Tile) : (putTile s k c).poison = s.poison := rfl
@[simp] theorem putTile_cores (s : State) (k : Nat) (c : Tile) : (putTile s k c).cores = s.cores := rfl
@[simp] theorem putTile_clusters (s : State) (k : Nat) (c : Tile) : (putTile s k c).clusters = s.clusters := rfl
@[simp] theorem putTile_dies (s : State) (k : Nat) (c : Tile) : (putTile s k c).dies = s.dies := rfl
@[simp] theorem putTile_regions (s : State) (k : Nat) (c : Tile) : (putTile s k c).regions = s.regions := rfl
@[simp] theorem putTile_arrays (s : State) (k : Nat) (c : Tile) : (putTile s k c).arrays = s.arrays := rfl
@[simp] theorem putTile_dev (s : State) (k : Nat) (c : Tile) : (putTile s k c).dev = s.dev := rfl
@[simp] theorem putTile_stamp (s : State) (k : Nat) (c : Tile) : (putTile s k c).stamp = s.stamp := rfl
@[simp] theorem putTile_tick (s : State) (k : Nat) (c : Tile) : (putTile s k c).tick = s.tick := rfl
@[simp] theorem putTile_slew (s : State) (k : Nat) (c : Tile) : (putTile s k c).slew = s.slew := rfl
@[simp] theorem putTile_net (s : State) (k : Nat) (c : Tile) : (putTile s k c).net = s.net := rfl
@[simp] theorem putTile_replies (s : State) (k : Nat) (c : Tile) : (putTile s k c).replies = s.replies := rfl
@[simp] theorem putTile_hot (s : State) (k : Nat) (c : Tile) : (putTile s k c).hot = s.hot := rfl
@[simp] theorem putTile_reserved (s : State) (k : Nat) (c : Tile) : (putTile s k c).reserved = s.reserved := rfl
@[simp] theorem putTile_monitors (s : State) (k : Nat) (c : Tile) : (putTile s k c).monitors = s.monitors := rfl
@[simp] theorem putTile_absent (s : State) (k : Nat) (c : Tile) : (putTile s k c).absent = s.absent := rfl
@[simp] theorem putTile_cacheMode (s : State) (k : Nat) (c : Tile) : (putTile s k c).cacheMode = s.cacheMode := rfl
@[simp] theorem putTile_far (s : State) (k : Nat) (c : Tile) : (putTile s k c).far = s.far := rfl
@[simp] theorem putTile_ends (s : State) (k : Nat) (c : Tile) : (putTile s k c).ends = s.ends := rfl
@[simp] theorem putTile_asks (s : State) (k : Nat) (c : Tile) : (putTile s k c).asks = s.asks := rfl
@[simp] theorem putTile_passing (s : State) (k : Nat) (c : Tile) : (putTile s k c).passing = s.passing := rfl
@[simp] theorem putTile_posted (s : State) (k : Nat) (c : Tile) : (putTile s k c).posted = s.posted := rfl
@[simp] theorem putTile_recs (s : State) (k : Nat) (c : Tile) : (putTile s k c).recs = s.recs := rfl
@[simp] theorem putTile_rootInst (s : State) (k : Nat) (c : Tile) : (putTile s k c).rootInst = s.rootInst := rfl
@[simp] theorem putTile_results (s : State) (k : Nat) (c : Tile) : (putTile s k c).results = s.results := rfl
@[simp] theorem putTile_events (s : State) (k : Nat) (c : Tile) : (putTile s k c).events = s.events := rfl
@[simp] theorem putTile_links (s : State) (k : Nat) (c : Tile) : (putTile s k c).links = s.links := rfl
@[simp] theorem putTile_gtx (s : State) (k : Nat) (c : Tile) : (putTile s k c).gtx = s.gtx := rfl
@[simp] theorem putTile_grx (s : State) (k : Nat) (c : Tile) : (putTile s k c).grx = s.grx := rfl
@[simp] theorem putTile_remotes (s : State) (k : Nat) (c : Tile) : (putTile s k c).remotes = s.remotes := rfl
@[simp] theorem putTile_lastEpoch (s : State) (k : Nat) (c : Tile) : (putTile s k c).lastEpoch = s.lastEpoch := rfl
@[simp] theorem putTile_pstate (s : State) (k : Nat) (c : Tile) : (putTile s k c).pstate = s.pstate := rfl
@[simp] theorem putTile_draws (s : State) (k : Nat) (c : Tile) : (putTile s k c).draws = s.draws := rfl
@[simp] theorem putTile_idleSince (s : State) (k : Nat) (c : Tile) : (putTile s k c).idleSince = s.idleSince := rfl
@[simp] theorem putTile_wakeAt (s : State) (k : Nat) (c : Tile) : (putTile s k c).wakeAt = s.wakeAt := rfl
@[simp] theorem putTile_mailbox (s : State) (k : Nat) (c : Tile) : (putTile s k c).mailbox = s.mailbox := rfl
@[simp] theorem putTile_nonce (s : State) (k : Nat) (c : Tile) : (putTile s k c).nonce = s.nonce := rfl
@[simp] theorem putTile_image (s : State) (k : Nat) (c : Tile) : (putTile s k c).image = s.image := rfl
@[simp] theorem putTile_booted (s : State) (k : Nat) (c : Tile) : (putTile s k c).booted = s.booted := rfl
@[simp] theorem putTile_recovering (s : State) (k : Nat) (c : Tile) : (putTile s k c).recovering = s.recovering := rfl
@[simp] theorem putTile_isReady (s : State) (k : Nat) (c : Tile) : (putTile s k c).isReady = s.isReady := rfl
@[simp] theorem putTile_hostOut (s : State) (k : Nat) (c : Tile) : (putTile s k c).hostOut = s.hostOut := rfl
@[simp] theorem putTile_hostWaits (s : State) (k : Nat) (c : Tile) : (putTile s k c).hostWaits = s.hostWaits := rfl
@[simp] theorem putTile_timeSent (s : State) (k : Nat) (c : Tile) : (putTile s k c).timeSent = s.timeSent := rfl
@[simp] theorem putTile_sampleAt (s : State) (k : Nat) (c : Tile) : (putTile s k c).sampleAt = s.sampleAt := rfl
@[simp] theorem putTile_identity (s : State) (k : Nat) (c : Tile) : (putTile s k c).identity = s.identity := rfl
@[simp] theorem putTile_grants (s : State) (k : Nat) (c : Tile) : (putTile s k c).grants = s.grants := rfl
@[simp] theorem putTile_sched (s : State) (k : Nat) (c : Tile) : (putTile s k c).sched = s.sched := rfl
@[simp] theorem putTile_agenda (s : State) (k : Nat) (c : Tile) : (putTile s k c).agenda = s.agenda := rfl

/-! ### A cluster -/

@[simp] theorem putCluster_who (s : State) (k : Nat) (c : Cluster) : (putCluster s k c).who = s.who := rfl
@[simp] theorem putCluster_cur (s : State) (k : Nat) (c : Cluster) : (putCluster s k c).cur = s.cur := rfl
@[simp] theorem putCluster_parked (s : State) (k : Nat) (c : Cluster) : (putCluster s k c).parked = s.parked := rfl
@[simp] theorem putCluster_mem (s : State) (k : Nat) (c : Cluster) : (putCluster s k c).mem = s.mem := rfl
@[simp] theorem putCluster_poison (s : State) (k : Nat) (c : Cluster) : (putCluster s k c).poison = s.poison := rfl
@[simp] theorem putCluster_cores (s : State) (k : Nat) (c : Cluster) : (putCluster s k c).cores = s.cores := rfl
@[simp] theorem putCluster_tiles (s : State) (k : Nat) (c : Cluster) : (putCluster s k c).tiles = s.tiles := rfl
@[simp] theorem putCluster_dies (s : State) (k : Nat) (c : Cluster) : (putCluster s k c).dies = s.dies := rfl
@[simp] theorem putCluster_regions (s : State) (k : Nat) (c : Cluster) : (putCluster s k c).regions = s.regions := rfl
@[simp] theorem putCluster_arrays (s : State) (k : Nat) (c : Cluster) : (putCluster s k c).arrays = s.arrays := rfl
@[simp] theorem putCluster_dev (s : State) (k : Nat) (c : Cluster) : (putCluster s k c).dev = s.dev := rfl
@[simp] theorem putCluster_stamp (s : State) (k : Nat) (c : Cluster) : (putCluster s k c).stamp = s.stamp := rfl
@[simp] theorem putCluster_tick (s : State) (k : Nat) (c : Cluster) : (putCluster s k c).tick = s.tick := rfl
@[simp] theorem putCluster_slew (s : State) (k : Nat) (c : Cluster) : (putCluster s k c).slew = s.slew := rfl
@[simp] theorem putCluster_net (s : State) (k : Nat) (c : Cluster) : (putCluster s k c).net = s.net := rfl
@[simp] theorem putCluster_replies (s : State) (k : Nat) (c : Cluster) : (putCluster s k c).replies = s.replies := rfl
@[simp] theorem putCluster_hot (s : State) (k : Nat) (c : Cluster) : (putCluster s k c).hot = s.hot := rfl
@[simp] theorem putCluster_reserved (s : State) (k : Nat) (c : Cluster) : (putCluster s k c).reserved = s.reserved := rfl
@[simp] theorem putCluster_monitors (s : State) (k : Nat) (c : Cluster) : (putCluster s k c).monitors = s.monitors := rfl
@[simp] theorem putCluster_absent (s : State) (k : Nat) (c : Cluster) : (putCluster s k c).absent = s.absent := rfl
@[simp] theorem putCluster_cacheMode (s : State) (k : Nat) (c : Cluster) : (putCluster s k c).cacheMode = s.cacheMode := rfl
@[simp] theorem putCluster_far (s : State) (k : Nat) (c : Cluster) : (putCluster s k c).far = s.far := rfl
@[simp] theorem putCluster_ends (s : State) (k : Nat) (c : Cluster) : (putCluster s k c).ends = s.ends := rfl
@[simp] theorem putCluster_asks (s : State) (k : Nat) (c : Cluster) : (putCluster s k c).asks = s.asks := rfl
@[simp] theorem putCluster_passing (s : State) (k : Nat) (c : Cluster) : (putCluster s k c).passing = s.passing := rfl
@[simp] theorem putCluster_posted (s : State) (k : Nat) (c : Cluster) : (putCluster s k c).posted = s.posted := rfl
@[simp] theorem putCluster_recs (s : State) (k : Nat) (c : Cluster) : (putCluster s k c).recs = s.recs := rfl
@[simp] theorem putCluster_rootInst (s : State) (k : Nat) (c : Cluster) : (putCluster s k c).rootInst = s.rootInst := rfl
@[simp] theorem putCluster_results (s : State) (k : Nat) (c : Cluster) : (putCluster s k c).results = s.results := rfl
@[simp] theorem putCluster_events (s : State) (k : Nat) (c : Cluster) : (putCluster s k c).events = s.events := rfl
@[simp] theorem putCluster_links (s : State) (k : Nat) (c : Cluster) : (putCluster s k c).links = s.links := rfl
@[simp] theorem putCluster_gtx (s : State) (k : Nat) (c : Cluster) : (putCluster s k c).gtx = s.gtx := rfl
@[simp] theorem putCluster_grx (s : State) (k : Nat) (c : Cluster) : (putCluster s k c).grx = s.grx := rfl
@[simp] theorem putCluster_remotes (s : State) (k : Nat) (c : Cluster) : (putCluster s k c).remotes = s.remotes := rfl
@[simp] theorem putCluster_lastEpoch (s : State) (k : Nat) (c : Cluster) : (putCluster s k c).lastEpoch = s.lastEpoch := rfl
@[simp] theorem putCluster_pstate (s : State) (k : Nat) (c : Cluster) : (putCluster s k c).pstate = s.pstate := rfl
@[simp] theorem putCluster_draws (s : State) (k : Nat) (c : Cluster) : (putCluster s k c).draws = s.draws := rfl
@[simp] theorem putCluster_idleSince (s : State) (k : Nat) (c : Cluster) : (putCluster s k c).idleSince = s.idleSince := rfl
@[simp] theorem putCluster_wakeAt (s : State) (k : Nat) (c : Cluster) : (putCluster s k c).wakeAt = s.wakeAt := rfl
@[simp] theorem putCluster_mailbox (s : State) (k : Nat) (c : Cluster) : (putCluster s k c).mailbox = s.mailbox := rfl
@[simp] theorem putCluster_nonce (s : State) (k : Nat) (c : Cluster) : (putCluster s k c).nonce = s.nonce := rfl
@[simp] theorem putCluster_image (s : State) (k : Nat) (c : Cluster) : (putCluster s k c).image = s.image := rfl
@[simp] theorem putCluster_booted (s : State) (k : Nat) (c : Cluster) : (putCluster s k c).booted = s.booted := rfl
@[simp] theorem putCluster_recovering (s : State) (k : Nat) (c : Cluster) : (putCluster s k c).recovering = s.recovering := rfl
@[simp] theorem putCluster_isReady (s : State) (k : Nat) (c : Cluster) : (putCluster s k c).isReady = s.isReady := rfl
@[simp] theorem putCluster_hostOut (s : State) (k : Nat) (c : Cluster) : (putCluster s k c).hostOut = s.hostOut := rfl
@[simp] theorem putCluster_hostWaits (s : State) (k : Nat) (c : Cluster) : (putCluster s k c).hostWaits = s.hostWaits := rfl
@[simp] theorem putCluster_timeSent (s : State) (k : Nat) (c : Cluster) : (putCluster s k c).timeSent = s.timeSent := rfl
@[simp] theorem putCluster_sampleAt (s : State) (k : Nat) (c : Cluster) : (putCluster s k c).sampleAt = s.sampleAt := rfl
@[simp] theorem putCluster_identity (s : State) (k : Nat) (c : Cluster) : (putCluster s k c).identity = s.identity := rfl
@[simp] theorem putCluster_grants (s : State) (k : Nat) (c : Cluster) : (putCluster s k c).grants = s.grants := rfl
@[simp] theorem putCluster_sched (s : State) (k : Nat) (c : Cluster) : (putCluster s k c).sched = s.sched := rfl
@[simp] theorem putCluster_agenda (s : State) (k : Nat) (c : Cluster) : (putCluster s k c).agenda = s.agenda := rfl

/-! ### A die -/

@[simp] theorem putDie_who (s : State) (k : Nat) (c : Die) : (putDie s k c).who = s.who := rfl
@[simp] theorem putDie_cur (s : State) (k : Nat) (c : Die) : (putDie s k c).cur = s.cur := rfl
@[simp] theorem putDie_parked (s : State) (k : Nat) (c : Die) : (putDie s k c).parked = s.parked := rfl
@[simp] theorem putDie_mem (s : State) (k : Nat) (c : Die) : (putDie s k c).mem = s.mem := rfl
@[simp] theorem putDie_poison (s : State) (k : Nat) (c : Die) : (putDie s k c).poison = s.poison := rfl
@[simp] theorem putDie_cores (s : State) (k : Nat) (c : Die) : (putDie s k c).cores = s.cores := rfl
@[simp] theorem putDie_tiles (s : State) (k : Nat) (c : Die) : (putDie s k c).tiles = s.tiles := rfl
@[simp] theorem putDie_clusters (s : State) (k : Nat) (c : Die) : (putDie s k c).clusters = s.clusters := rfl
@[simp] theorem putDie_regions (s : State) (k : Nat) (c : Die) : (putDie s k c).regions = s.regions := rfl
@[simp] theorem putDie_arrays (s : State) (k : Nat) (c : Die) : (putDie s k c).arrays = s.arrays := rfl
@[simp] theorem putDie_dev (s : State) (k : Nat) (c : Die) : (putDie s k c).dev = s.dev := rfl
@[simp] theorem putDie_stamp (s : State) (k : Nat) (c : Die) : (putDie s k c).stamp = s.stamp := rfl
@[simp] theorem putDie_tick (s : State) (k : Nat) (c : Die) : (putDie s k c).tick = s.tick := rfl
@[simp] theorem putDie_slew (s : State) (k : Nat) (c : Die) : (putDie s k c).slew = s.slew := rfl
@[simp] theorem putDie_net (s : State) (k : Nat) (c : Die) : (putDie s k c).net = s.net := rfl
@[simp] theorem putDie_replies (s : State) (k : Nat) (c : Die) : (putDie s k c).replies = s.replies := rfl
@[simp] theorem putDie_hot (s : State) (k : Nat) (c : Die) : (putDie s k c).hot = s.hot := rfl
@[simp] theorem putDie_reserved (s : State) (k : Nat) (c : Die) : (putDie s k c).reserved = s.reserved := rfl
@[simp] theorem putDie_monitors (s : State) (k : Nat) (c : Die) : (putDie s k c).monitors = s.monitors := rfl
@[simp] theorem putDie_absent (s : State) (k : Nat) (c : Die) : (putDie s k c).absent = s.absent := rfl
@[simp] theorem putDie_cacheMode (s : State) (k : Nat) (c : Die) : (putDie s k c).cacheMode = s.cacheMode := rfl
@[simp] theorem putDie_far (s : State) (k : Nat) (c : Die) : (putDie s k c).far = s.far := rfl
@[simp] theorem putDie_ends (s : State) (k : Nat) (c : Die) : (putDie s k c).ends = s.ends := rfl
@[simp] theorem putDie_asks (s : State) (k : Nat) (c : Die) : (putDie s k c).asks = s.asks := rfl
@[simp] theorem putDie_passing (s : State) (k : Nat) (c : Die) : (putDie s k c).passing = s.passing := rfl
@[simp] theorem putDie_posted (s : State) (k : Nat) (c : Die) : (putDie s k c).posted = s.posted := rfl
@[simp] theorem putDie_recs (s : State) (k : Nat) (c : Die) : (putDie s k c).recs = s.recs := rfl
@[simp] theorem putDie_rootInst (s : State) (k : Nat) (c : Die) : (putDie s k c).rootInst = s.rootInst := rfl
@[simp] theorem putDie_results (s : State) (k : Nat) (c : Die) : (putDie s k c).results = s.results := rfl
@[simp] theorem putDie_events (s : State) (k : Nat) (c : Die) : (putDie s k c).events = s.events := rfl
@[simp] theorem putDie_links (s : State) (k : Nat) (c : Die) : (putDie s k c).links = s.links := rfl
@[simp] theorem putDie_gtx (s : State) (k : Nat) (c : Die) : (putDie s k c).gtx = s.gtx := rfl
@[simp] theorem putDie_grx (s : State) (k : Nat) (c : Die) : (putDie s k c).grx = s.grx := rfl
@[simp] theorem putDie_remotes (s : State) (k : Nat) (c : Die) : (putDie s k c).remotes = s.remotes := rfl
@[simp] theorem putDie_lastEpoch (s : State) (k : Nat) (c : Die) : (putDie s k c).lastEpoch = s.lastEpoch := rfl
@[simp] theorem putDie_pstate (s : State) (k : Nat) (c : Die) : (putDie s k c).pstate = s.pstate := rfl
@[simp] theorem putDie_draws (s : State) (k : Nat) (c : Die) : (putDie s k c).draws = s.draws := rfl
@[simp] theorem putDie_idleSince (s : State) (k : Nat) (c : Die) : (putDie s k c).idleSince = s.idleSince := rfl
@[simp] theorem putDie_wakeAt (s : State) (k : Nat) (c : Die) : (putDie s k c).wakeAt = s.wakeAt := rfl
@[simp] theorem putDie_mailbox (s : State) (k : Nat) (c : Die) : (putDie s k c).mailbox = s.mailbox := rfl
@[simp] theorem putDie_nonce (s : State) (k : Nat) (c : Die) : (putDie s k c).nonce = s.nonce := rfl
@[simp] theorem putDie_image (s : State) (k : Nat) (c : Die) : (putDie s k c).image = s.image := rfl
@[simp] theorem putDie_booted (s : State) (k : Nat) (c : Die) : (putDie s k c).booted = s.booted := rfl
@[simp] theorem putDie_recovering (s : State) (k : Nat) (c : Die) : (putDie s k c).recovering = s.recovering := rfl
@[simp] theorem putDie_isReady (s : State) (k : Nat) (c : Die) : (putDie s k c).isReady = s.isReady := rfl
@[simp] theorem putDie_hostOut (s : State) (k : Nat) (c : Die) : (putDie s k c).hostOut = s.hostOut := rfl
@[simp] theorem putDie_hostWaits (s : State) (k : Nat) (c : Die) : (putDie s k c).hostWaits = s.hostWaits := rfl
@[simp] theorem putDie_timeSent (s : State) (k : Nat) (c : Die) : (putDie s k c).timeSent = s.timeSent := rfl
@[simp] theorem putDie_sampleAt (s : State) (k : Nat) (c : Die) : (putDie s k c).sampleAt = s.sampleAt := rfl
@[simp] theorem putDie_identity (s : State) (k : Nat) (c : Die) : (putDie s k c).identity = s.identity := rfl
@[simp] theorem putDie_grants (s : State) (k : Nat) (c : Die) : (putDie s k c).grants = s.grants := rfl
@[simp] theorem putDie_sched (s : State) (k : Nat) (c : Die) : (putDie s k c).sched = s.sched := rfl
@[simp] theorem putDie_agenda (s : State) (k : Nat) (c : Die) : (putDie s k c).agenda = s.agenda := rfl

/-! ### A region -/

@[simp] theorem putRegion_who (s : State) (r : Region) : (putRegion s r).who = s.who := rfl
@[simp] theorem putRegion_cur (s : State) (r : Region) : (putRegion s r).cur = s.cur := rfl
@[simp] theorem putRegion_parked (s : State) (r : Region) : (putRegion s r).parked = s.parked := rfl
@[simp] theorem putRegion_mem (s : State) (r : Region) : (putRegion s r).mem = s.mem := rfl
@[simp] theorem putRegion_poison (s : State) (r : Region) : (putRegion s r).poison = s.poison := rfl
@[simp] theorem putRegion_cores (s : State) (r : Region) : (putRegion s r).cores = s.cores := rfl
@[simp] theorem putRegion_tiles (s : State) (r : Region) : (putRegion s r).tiles = s.tiles := rfl
@[simp] theorem putRegion_clusters (s : State) (r : Region) : (putRegion s r).clusters = s.clusters := rfl
@[simp] theorem putRegion_dies (s : State) (r : Region) : (putRegion s r).dies = s.dies := rfl
@[simp] theorem putRegion_arrays (s : State) (r : Region) : (putRegion s r).arrays = s.arrays := rfl
@[simp] theorem putRegion_dev (s : State) (r : Region) : (putRegion s r).dev = s.dev := rfl
@[simp] theorem putRegion_stamp (s : State) (r : Region) : (putRegion s r).stamp = s.stamp := rfl
@[simp] theorem putRegion_tick (s : State) (r : Region) : (putRegion s r).tick = s.tick := rfl
@[simp] theorem putRegion_slew (s : State) (r : Region) : (putRegion s r).slew = s.slew := rfl
@[simp] theorem putRegion_net (s : State) (r : Region) : (putRegion s r).net = s.net := rfl
@[simp] theorem putRegion_replies (s : State) (r : Region) : (putRegion s r).replies = s.replies := rfl
@[simp] theorem putRegion_hot (s : State) (r : Region) : (putRegion s r).hot = s.hot := rfl
@[simp] theorem putRegion_reserved (s : State) (r : Region) : (putRegion s r).reserved = s.reserved := rfl
@[simp] theorem putRegion_monitors (s : State) (r : Region) : (putRegion s r).monitors = s.monitors := rfl
@[simp] theorem putRegion_absent (s : State) (r : Region) : (putRegion s r).absent = s.absent := rfl
@[simp] theorem putRegion_cacheMode (s : State) (r : Region) : (putRegion s r).cacheMode = s.cacheMode := rfl
@[simp] theorem putRegion_far (s : State) (r : Region) : (putRegion s r).far = s.far := rfl
@[simp] theorem putRegion_ends (s : State) (r : Region) : (putRegion s r).ends = s.ends := rfl
@[simp] theorem putRegion_asks (s : State) (r : Region) : (putRegion s r).asks = s.asks := rfl
@[simp] theorem putRegion_passing (s : State) (r : Region) : (putRegion s r).passing = s.passing := rfl
@[simp] theorem putRegion_posted (s : State) (r : Region) : (putRegion s r).posted = s.posted := rfl
@[simp] theorem putRegion_recs (s : State) (r : Region) : (putRegion s r).recs = s.recs := rfl
@[simp] theorem putRegion_rootInst (s : State) (r : Region) : (putRegion s r).rootInst = s.rootInst := rfl
@[simp] theorem putRegion_results (s : State) (r : Region) : (putRegion s r).results = s.results := rfl
@[simp] theorem putRegion_events (s : State) (r : Region) : (putRegion s r).events = s.events := rfl
@[simp] theorem putRegion_links (s : State) (r : Region) : (putRegion s r).links = s.links := rfl
@[simp] theorem putRegion_gtx (s : State) (r : Region) : (putRegion s r).gtx = s.gtx := rfl
@[simp] theorem putRegion_grx (s : State) (r : Region) : (putRegion s r).grx = s.grx := rfl
@[simp] theorem putRegion_remotes (s : State) (r : Region) : (putRegion s r).remotes = s.remotes := rfl
@[simp] theorem putRegion_lastEpoch (s : State) (r : Region) : (putRegion s r).lastEpoch = s.lastEpoch := rfl
@[simp] theorem putRegion_pstate (s : State) (r : Region) : (putRegion s r).pstate = s.pstate := rfl
@[simp] theorem putRegion_draws (s : State) (r : Region) : (putRegion s r).draws = s.draws := rfl
@[simp] theorem putRegion_idleSince (s : State) (r : Region) : (putRegion s r).idleSince = s.idleSince := rfl
@[simp] theorem putRegion_wakeAt (s : State) (r : Region) : (putRegion s r).wakeAt = s.wakeAt := rfl
@[simp] theorem putRegion_mailbox (s : State) (r : Region) : (putRegion s r).mailbox = s.mailbox := rfl
@[simp] theorem putRegion_nonce (s : State) (r : Region) : (putRegion s r).nonce = s.nonce := rfl
@[simp] theorem putRegion_image (s : State) (r : Region) : (putRegion s r).image = s.image := rfl
@[simp] theorem putRegion_booted (s : State) (r : Region) : (putRegion s r).booted = s.booted := rfl
@[simp] theorem putRegion_recovering (s : State) (r : Region) : (putRegion s r).recovering = s.recovering := rfl
@[simp] theorem putRegion_isReady (s : State) (r : Region) : (putRegion s r).isReady = s.isReady := rfl
@[simp] theorem putRegion_hostOut (s : State) (r : Region) : (putRegion s r).hostOut = s.hostOut := rfl
@[simp] theorem putRegion_hostWaits (s : State) (r : Region) : (putRegion s r).hostWaits = s.hostWaits := rfl
@[simp] theorem putRegion_timeSent (s : State) (r : Region) : (putRegion s r).timeSent = s.timeSent := rfl
@[simp] theorem putRegion_sampleAt (s : State) (r : Region) : (putRegion s r).sampleAt = s.sampleAt := rfl
@[simp] theorem putRegion_identity (s : State) (r : Region) : (putRegion s r).identity = s.identity := rfl
@[simp] theorem putRegion_grants (s : State) (r : Region) : (putRegion s r).grants = s.grants := rfl
@[simp] theorem putRegion_sched (s : State) (r : Region) : (putRegion s r).sched = s.sched := rfl
@[simp] theorem putRegion_agenda (s : State) (r : Region) : (putRegion s r).agenda = s.agenda := rfl

/-! ### A byte -/

@[simp] theorem writeByte_who (s : State) (a : Nat) (v : Byte) : (writeByte s a v).who = s.who := rfl
@[simp] theorem writeByte_cur (s : State) (a : Nat) (v : Byte) : (writeByte s a v).cur = s.cur := rfl
@[simp] theorem writeByte_parked (s : State) (a : Nat) (v : Byte) : (writeByte s a v).parked = s.parked := rfl
@[simp] theorem writeByte_poison (s : State) (a : Nat) (v : Byte) : (writeByte s a v).poison = s.poison := rfl
@[simp] theorem writeByte_cores (s : State) (a : Nat) (v : Byte) : (writeByte s a v).cores = s.cores := rfl
@[simp] theorem writeByte_tiles (s : State) (a : Nat) (v : Byte) : (writeByte s a v).tiles = s.tiles := rfl
@[simp] theorem writeByte_clusters (s : State) (a : Nat) (v : Byte) : (writeByte s a v).clusters = s.clusters := rfl
@[simp] theorem writeByte_dies (s : State) (a : Nat) (v : Byte) : (writeByte s a v).dies = s.dies := rfl
@[simp] theorem writeByte_regions (s : State) (a : Nat) (v : Byte) : (writeByte s a v).regions = s.regions := rfl
@[simp] theorem writeByte_arrays (s : State) (a : Nat) (v : Byte) : (writeByte s a v).arrays = s.arrays := rfl
@[simp] theorem writeByte_dev (s : State) (a : Nat) (v : Byte) : (writeByte s a v).dev = s.dev := rfl
@[simp] theorem writeByte_stamp (s : State) (a : Nat) (v : Byte) : (writeByte s a v).stamp = s.stamp := rfl
@[simp] theorem writeByte_tick (s : State) (a : Nat) (v : Byte) : (writeByte s a v).tick = s.tick := rfl
@[simp] theorem writeByte_slew (s : State) (a : Nat) (v : Byte) : (writeByte s a v).slew = s.slew := rfl
@[simp] theorem writeByte_net (s : State) (a : Nat) (v : Byte) : (writeByte s a v).net = s.net := rfl
@[simp] theorem writeByte_replies (s : State) (a : Nat) (v : Byte) : (writeByte s a v).replies = s.replies := rfl
@[simp] theorem writeByte_hot (s : State) (a : Nat) (v : Byte) : (writeByte s a v).hot = s.hot := rfl
@[simp] theorem writeByte_reserved (s : State) (a : Nat) (v : Byte) : (writeByte s a v).reserved = s.reserved := rfl
@[simp] theorem writeByte_monitors (s : State) (a : Nat) (v : Byte) : (writeByte s a v).monitors = s.monitors := rfl
@[simp] theorem writeByte_absent (s : State) (a : Nat) (v : Byte) : (writeByte s a v).absent = s.absent := rfl
@[simp] theorem writeByte_cacheMode (s : State) (a : Nat) (v : Byte) : (writeByte s a v).cacheMode = s.cacheMode := rfl
@[simp] theorem writeByte_far (s : State) (a : Nat) (v : Byte) : (writeByte s a v).far = s.far := rfl
@[simp] theorem writeByte_ends (s : State) (a : Nat) (v : Byte) : (writeByte s a v).ends = s.ends := rfl
@[simp] theorem writeByte_asks (s : State) (a : Nat) (v : Byte) : (writeByte s a v).asks = s.asks := rfl
@[simp] theorem writeByte_passing (s : State) (a : Nat) (v : Byte) : (writeByte s a v).passing = s.passing := rfl
@[simp] theorem writeByte_posted (s : State) (a : Nat) (v : Byte) : (writeByte s a v).posted = s.posted := rfl
@[simp] theorem writeByte_recs (s : State) (a : Nat) (v : Byte) : (writeByte s a v).recs = s.recs := rfl
@[simp] theorem writeByte_rootInst (s : State) (a : Nat) (v : Byte) : (writeByte s a v).rootInst = s.rootInst := rfl
@[simp] theorem writeByte_results (s : State) (a : Nat) (v : Byte) : (writeByte s a v).results = s.results := rfl
@[simp] theorem writeByte_events (s : State) (a : Nat) (v : Byte) : (writeByte s a v).events = s.events := rfl
@[simp] theorem writeByte_links (s : State) (a : Nat) (v : Byte) : (writeByte s a v).links = s.links := rfl
@[simp] theorem writeByte_gtx (s : State) (a : Nat) (v : Byte) : (writeByte s a v).gtx = s.gtx := rfl
@[simp] theorem writeByte_grx (s : State) (a : Nat) (v : Byte) : (writeByte s a v).grx = s.grx := rfl
@[simp] theorem writeByte_remotes (s : State) (a : Nat) (v : Byte) : (writeByte s a v).remotes = s.remotes := rfl
@[simp] theorem writeByte_lastEpoch (s : State) (a : Nat) (v : Byte) : (writeByte s a v).lastEpoch = s.lastEpoch := rfl
@[simp] theorem writeByte_pstate (s : State) (a : Nat) (v : Byte) : (writeByte s a v).pstate = s.pstate := rfl
@[simp] theorem writeByte_draws (s : State) (a : Nat) (v : Byte) : (writeByte s a v).draws = s.draws := rfl
@[simp] theorem writeByte_idleSince (s : State) (a : Nat) (v : Byte) : (writeByte s a v).idleSince = s.idleSince := rfl
@[simp] theorem writeByte_wakeAt (s : State) (a : Nat) (v : Byte) : (writeByte s a v).wakeAt = s.wakeAt := rfl
@[simp] theorem writeByte_mailbox (s : State) (a : Nat) (v : Byte) : (writeByte s a v).mailbox = s.mailbox := rfl
@[simp] theorem writeByte_nonce (s : State) (a : Nat) (v : Byte) : (writeByte s a v).nonce = s.nonce := rfl
@[simp] theorem writeByte_image (s : State) (a : Nat) (v : Byte) : (writeByte s a v).image = s.image := rfl
@[simp] theorem writeByte_booted (s : State) (a : Nat) (v : Byte) : (writeByte s a v).booted = s.booted := rfl
@[simp] theorem writeByte_recovering (s : State) (a : Nat) (v : Byte) : (writeByte s a v).recovering = s.recovering := rfl
@[simp] theorem writeByte_isReady (s : State) (a : Nat) (v : Byte) : (writeByte s a v).isReady = s.isReady := rfl
@[simp] theorem writeByte_hostOut (s : State) (a : Nat) (v : Byte) : (writeByte s a v).hostOut = s.hostOut := rfl
@[simp] theorem writeByte_hostWaits (s : State) (a : Nat) (v : Byte) : (writeByte s a v).hostWaits = s.hostWaits := rfl
@[simp] theorem writeByte_timeSent (s : State) (a : Nat) (v : Byte) : (writeByte s a v).timeSent = s.timeSent := rfl
@[simp] theorem writeByte_sampleAt (s : State) (a : Nat) (v : Byte) : (writeByte s a v).sampleAt = s.sampleAt := rfl
@[simp] theorem writeByte_identity (s : State) (a : Nat) (v : Byte) : (writeByte s a v).identity = s.identity := rfl
@[simp] theorem writeByte_grants (s : State) (a : Nat) (v : Byte) : (writeByte s a v).grants = s.grants := rfl
@[simp] theorem writeByte_sched (s : State) (a : Nat) (v : Byte) : (writeByte s a v).sched = s.sched := rfl
@[simp] theorem writeByte_agenda (s : State) (a : Nat) (v : Byte) : (writeByte s a v).agenda = s.agenda := rfl

/-! ### A message -/

@[simp] theorem sendMsg_who (s : State) (a : Nat) (e : StoreEntry) : (sendMsg s a e).who = s.who := rfl
@[simp] theorem sendMsg_cur (s : State) (a : Nat) (e : StoreEntry) : (sendMsg s a e).cur = s.cur := rfl
@[simp] theorem sendMsg_parked (s : State) (a : Nat) (e : StoreEntry) : (sendMsg s a e).parked = s.parked := rfl
@[simp] theorem sendMsg_mem (s : State) (a : Nat) (e : StoreEntry) : (sendMsg s a e).mem = s.mem := rfl
@[simp] theorem sendMsg_poison (s : State) (a : Nat) (e : StoreEntry) : (sendMsg s a e).poison = s.poison := rfl
@[simp] theorem sendMsg_cores (s : State) (a : Nat) (e : StoreEntry) : (sendMsg s a e).cores = s.cores := rfl
@[simp] theorem sendMsg_tiles (s : State) (a : Nat) (e : StoreEntry) : (sendMsg s a e).tiles = s.tiles := rfl
@[simp] theorem sendMsg_clusters (s : State) (a : Nat) (e : StoreEntry) : (sendMsg s a e).clusters = s.clusters := rfl
@[simp] theorem sendMsg_dies (s : State) (a : Nat) (e : StoreEntry) : (sendMsg s a e).dies = s.dies := rfl
@[simp] theorem sendMsg_regions (s : State) (a : Nat) (e : StoreEntry) : (sendMsg s a e).regions = s.regions := rfl
@[simp] theorem sendMsg_arrays (s : State) (a : Nat) (e : StoreEntry) : (sendMsg s a e).arrays = s.arrays := rfl
@[simp] theorem sendMsg_dev (s : State) (a : Nat) (e : StoreEntry) : (sendMsg s a e).dev = s.dev := rfl
@[simp] theorem sendMsg_stamp (s : State) (a : Nat) (e : StoreEntry) : (sendMsg s a e).stamp = s.stamp := rfl
@[simp] theorem sendMsg_tick (s : State) (a : Nat) (e : StoreEntry) : (sendMsg s a e).tick = s.tick := rfl
@[simp] theorem sendMsg_slew (s : State) (a : Nat) (e : StoreEntry) : (sendMsg s a e).slew = s.slew := rfl
@[simp] theorem sendMsg_replies (s : State) (a : Nat) (e : StoreEntry) : (sendMsg s a e).replies = s.replies := rfl
@[simp] theorem sendMsg_hot (s : State) (a : Nat) (e : StoreEntry) : (sendMsg s a e).hot = s.hot := rfl
@[simp] theorem sendMsg_reserved (s : State) (a : Nat) (e : StoreEntry) : (sendMsg s a e).reserved = s.reserved := rfl
@[simp] theorem sendMsg_monitors (s : State) (a : Nat) (e : StoreEntry) : (sendMsg s a e).monitors = s.monitors := rfl
@[simp] theorem sendMsg_absent (s : State) (a : Nat) (e : StoreEntry) : (sendMsg s a e).absent = s.absent := rfl
@[simp] theorem sendMsg_cacheMode (s : State) (a : Nat) (e : StoreEntry) : (sendMsg s a e).cacheMode = s.cacheMode := rfl
@[simp] theorem sendMsg_far (s : State) (a : Nat) (e : StoreEntry) : (sendMsg s a e).far = s.far := rfl
@[simp] theorem sendMsg_ends (s : State) (a : Nat) (e : StoreEntry) : (sendMsg s a e).ends = s.ends := rfl
@[simp] theorem sendMsg_asks (s : State) (a : Nat) (e : StoreEntry) : (sendMsg s a e).asks = s.asks := rfl
@[simp] theorem sendMsg_passing (s : State) (a : Nat) (e : StoreEntry) : (sendMsg s a e).passing = s.passing := rfl
@[simp] theorem sendMsg_posted (s : State) (a : Nat) (e : StoreEntry) : (sendMsg s a e).posted = s.posted := rfl
@[simp] theorem sendMsg_recs (s : State) (a : Nat) (e : StoreEntry) : (sendMsg s a e).recs = s.recs := rfl
@[simp] theorem sendMsg_rootInst (s : State) (a : Nat) (e : StoreEntry) : (sendMsg s a e).rootInst = s.rootInst := rfl
@[simp] theorem sendMsg_results (s : State) (a : Nat) (e : StoreEntry) : (sendMsg s a e).results = s.results := rfl
@[simp] theorem sendMsg_events (s : State) (a : Nat) (e : StoreEntry) : (sendMsg s a e).events = s.events := rfl
@[simp] theorem sendMsg_links (s : State) (a : Nat) (e : StoreEntry) : (sendMsg s a e).links = s.links := rfl
@[simp] theorem sendMsg_gtx (s : State) (a : Nat) (e : StoreEntry) : (sendMsg s a e).gtx = s.gtx := rfl
@[simp] theorem sendMsg_grx (s : State) (a : Nat) (e : StoreEntry) : (sendMsg s a e).grx = s.grx := rfl
@[simp] theorem sendMsg_remotes (s : State) (a : Nat) (e : StoreEntry) : (sendMsg s a e).remotes = s.remotes := rfl
@[simp] theorem sendMsg_lastEpoch (s : State) (a : Nat) (e : StoreEntry) : (sendMsg s a e).lastEpoch = s.lastEpoch := rfl
@[simp] theorem sendMsg_pstate (s : State) (a : Nat) (e : StoreEntry) : (sendMsg s a e).pstate = s.pstate := rfl
@[simp] theorem sendMsg_draws (s : State) (a : Nat) (e : StoreEntry) : (sendMsg s a e).draws = s.draws := rfl
@[simp] theorem sendMsg_idleSince (s : State) (a : Nat) (e : StoreEntry) : (sendMsg s a e).idleSince = s.idleSince := rfl
@[simp] theorem sendMsg_wakeAt (s : State) (a : Nat) (e : StoreEntry) : (sendMsg s a e).wakeAt = s.wakeAt := rfl
@[simp] theorem sendMsg_mailbox (s : State) (a : Nat) (e : StoreEntry) : (sendMsg s a e).mailbox = s.mailbox := rfl
@[simp] theorem sendMsg_nonce (s : State) (a : Nat) (e : StoreEntry) : (sendMsg s a e).nonce = s.nonce := rfl
@[simp] theorem sendMsg_image (s : State) (a : Nat) (e : StoreEntry) : (sendMsg s a e).image = s.image := rfl
@[simp] theorem sendMsg_booted (s : State) (a : Nat) (e : StoreEntry) : (sendMsg s a e).booted = s.booted := rfl
@[simp] theorem sendMsg_recovering (s : State) (a : Nat) (e : StoreEntry) : (sendMsg s a e).recovering = s.recovering := rfl
@[simp] theorem sendMsg_isReady (s : State) (a : Nat) (e : StoreEntry) : (sendMsg s a e).isReady = s.isReady := rfl
@[simp] theorem sendMsg_hostOut (s : State) (a : Nat) (e : StoreEntry) : (sendMsg s a e).hostOut = s.hostOut := rfl
@[simp] theorem sendMsg_hostWaits (s : State) (a : Nat) (e : StoreEntry) : (sendMsg s a e).hostWaits = s.hostWaits := rfl
@[simp] theorem sendMsg_timeSent (s : State) (a : Nat) (e : StoreEntry) : (sendMsg s a e).timeSent = s.timeSent := rfl
@[simp] theorem sendMsg_sampleAt (s : State) (a : Nat) (e : StoreEntry) : (sendMsg s a e).sampleAt = s.sampleAt := rfl
@[simp] theorem sendMsg_identity (s : State) (a : Nat) (e : StoreEntry) : (sendMsg s a e).identity = s.identity := rfl
@[simp] theorem sendMsg_grants (s : State) (a : Nat) (e : StoreEntry) : (sendMsg s a e).grants = s.grants := rfl
@[simp] theorem sendMsg_sched (s : State) (a : Nat) (e : StoreEntry) : (sendMsg s a e).sched = s.sched := rfl
@[simp] theorem sendMsg_agenda (s : State) (a : Nat) (e : StoreEntry) : (sendMsg s a e).agenda = s.agenda := rfl

/-! ### Bytes -/

@[simp] theorem writeBytes_who (s : State) (a : Nat) (d : List Byte) : (writeBytes s a d).who = s.who := by rw [writeBytes_only]
@[simp] theorem writeBytes_cur (s : State) (a : Nat) (d : List Byte) : (writeBytes s a d).cur = s.cur := by rw [writeBytes_only]
@[simp] theorem writeBytes_parked (s : State) (a : Nat) (d : List Byte) : (writeBytes s a d).parked = s.parked :=
  by rw [writeBytes_only]
@[simp] theorem writeBytes_poison (s : State) (a : Nat) (d : List Byte) : (writeBytes s a d).poison = s.poison :=
  by rw [writeBytes_only]
@[simp] theorem writeBytes_cores (s : State) (a : Nat) (d : List Byte) : (writeBytes s a d).cores = s.cores :=
  by rw [writeBytes_only]
@[simp] theorem writeBytes_tiles (s : State) (a : Nat) (d : List Byte) : (writeBytes s a d).tiles = s.tiles :=
  by rw [writeBytes_only]
@[simp] theorem writeBytes_clusters (s : State) (a : Nat) (d : List Byte) : (writeBytes s a d).clusters = s.clusters :=
  by rw [writeBytes_only]
@[simp] theorem writeBytes_dies (s : State) (a : Nat) (d : List Byte) : (writeBytes s a d).dies = s.dies := by rw [writeBytes_only]
@[simp] theorem writeBytes_regions (s : State) (a : Nat) (d : List Byte) : (writeBytes s a d).regions = s.regions :=
  by rw [writeBytes_only]
@[simp] theorem writeBytes_arrays (s : State) (a : Nat) (d : List Byte) : (writeBytes s a d).arrays = s.arrays :=
  by rw [writeBytes_only]
@[simp] theorem writeBytes_dev (s : State) (a : Nat) (d : List Byte) : (writeBytes s a d).dev = s.dev := by rw [writeBytes_only]
@[simp] theorem writeBytes_stamp (s : State) (a : Nat) (d : List Byte) : (writeBytes s a d).stamp = s.stamp :=
  by rw [writeBytes_only]
@[simp] theorem writeBytes_tick (s : State) (a : Nat) (d : List Byte) : (writeBytes s a d).tick = s.tick := by rw [writeBytes_only]
@[simp] theorem writeBytes_slew (s : State) (a : Nat) (d : List Byte) : (writeBytes s a d).slew = s.slew := by rw [writeBytes_only]
@[simp] theorem writeBytes_net (s : State) (a : Nat) (d : List Byte) : (writeBytes s a d).net = s.net := by rw [writeBytes_only]
@[simp] theorem writeBytes_replies (s : State) (a : Nat) (d : List Byte) : (writeBytes s a d).replies = s.replies :=
  by rw [writeBytes_only]
@[simp] theorem writeBytes_hot (s : State) (a : Nat) (d : List Byte) : (writeBytes s a d).hot = s.hot := by rw [writeBytes_only]
@[simp] theorem writeBytes_reserved (s : State) (a : Nat) (d : List Byte) : (writeBytes s a d).reserved = s.reserved :=
  by rw [writeBytes_only]
@[simp] theorem writeBytes_monitors (s : State) (a : Nat) (d : List Byte) : (writeBytes s a d).monitors = s.monitors :=
  by rw [writeBytes_only]
@[simp] theorem writeBytes_absent (s : State) (a : Nat) (d : List Byte) : (writeBytes s a d).absent = s.absent :=
  by rw [writeBytes_only]
@[simp] theorem writeBytes_cacheMode (s : State) (a : Nat) (d : List Byte) : (writeBytes s a d).cacheMode = s.cacheMode :=
  by rw [writeBytes_only]
@[simp] theorem writeBytes_far (s : State) (a : Nat) (d : List Byte) : (writeBytes s a d).far = s.far := by rw [writeBytes_only]
@[simp] theorem writeBytes_ends (s : State) (a : Nat) (d : List Byte) : (writeBytes s a d).ends = s.ends := by rw [writeBytes_only]
@[simp] theorem writeBytes_asks (s : State) (a : Nat) (d : List Byte) : (writeBytes s a d).asks = s.asks := by rw [writeBytes_only]
@[simp] theorem writeBytes_passing (s : State) (a : Nat) (d : List Byte) : (writeBytes s a d).passing = s.passing :=
  by rw [writeBytes_only]
@[simp] theorem writeBytes_posted (s : State) (a : Nat) (d : List Byte) : (writeBytes s a d).posted = s.posted :=
  by rw [writeBytes_only]
@[simp] theorem writeBytes_recs (s : State) (a : Nat) (d : List Byte) : (writeBytes s a d).recs = s.recs := by rw [writeBytes_only]
@[simp] theorem writeBytes_rootInst (s : State) (a : Nat) (d : List Byte) : (writeBytes s a d).rootInst = s.rootInst :=
  by rw [writeBytes_only]
@[simp] theorem writeBytes_results (s : State) (a : Nat) (d : List Byte) : (writeBytes s a d).results = s.results :=
  by rw [writeBytes_only]
@[simp] theorem writeBytes_events (s : State) (a : Nat) (d : List Byte) : (writeBytes s a d).events = s.events :=
  by rw [writeBytes_only]
@[simp] theorem writeBytes_links (s : State) (a : Nat) (d : List Byte) : (writeBytes s a d).links = s.links :=
  by rw [writeBytes_only]
@[simp] theorem writeBytes_gtx (s : State) (a : Nat) (d : List Byte) : (writeBytes s a d).gtx = s.gtx := by rw [writeBytes_only]
@[simp] theorem writeBytes_grx (s : State) (a : Nat) (d : List Byte) : (writeBytes s a d).grx = s.grx := by rw [writeBytes_only]
@[simp] theorem writeBytes_remotes (s : State) (a : Nat) (d : List Byte) : (writeBytes s a d).remotes = s.remotes :=
  by rw [writeBytes_only]
@[simp] theorem writeBytes_lastEpoch (s : State) (a : Nat) (d : List Byte) : (writeBytes s a d).lastEpoch = s.lastEpoch :=
  by rw [writeBytes_only]
@[simp] theorem writeBytes_pstate (s : State) (a : Nat) (d : List Byte) : (writeBytes s a d).pstate = s.pstate :=
  by rw [writeBytes_only]
@[simp] theorem writeBytes_draws (s : State) (a : Nat) (d : List Byte) : (writeBytes s a d).draws = s.draws :=
  by rw [writeBytes_only]
@[simp] theorem writeBytes_idleSince (s : State) (a : Nat) (d : List Byte) : (writeBytes s a d).idleSince = s.idleSince :=
  by rw [writeBytes_only]
@[simp] theorem writeBytes_wakeAt (s : State) (a : Nat) (d : List Byte) : (writeBytes s a d).wakeAt = s.wakeAt :=
  by rw [writeBytes_only]
@[simp] theorem writeBytes_mailbox (s : State) (a : Nat) (d : List Byte) : (writeBytes s a d).mailbox = s.mailbox :=
  by rw [writeBytes_only]
@[simp] theorem writeBytes_nonce (s : State) (a : Nat) (d : List Byte) : (writeBytes s a d).nonce = s.nonce :=
  by rw [writeBytes_only]
@[simp] theorem writeBytes_image (s : State) (a : Nat) (d : List Byte) : (writeBytes s a d).image = s.image :=
  by rw [writeBytes_only]
@[simp] theorem writeBytes_booted (s : State) (a : Nat) (d : List Byte) : (writeBytes s a d).booted = s.booted :=
  by rw [writeBytes_only]
@[simp] theorem writeBytes_recovering (s : State) (a : Nat) (d : List Byte) : (writeBytes s a d).recovering = s.recovering :=
  by rw [writeBytes_only]
@[simp] theorem writeBytes_isReady (s : State) (a : Nat) (d : List Byte) : (writeBytes s a d).isReady = s.isReady :=
  by rw [writeBytes_only]
@[simp] theorem writeBytes_hostOut (s : State) (a : Nat) (d : List Byte) : (writeBytes s a d).hostOut = s.hostOut :=
  by rw [writeBytes_only]
@[simp] theorem writeBytes_hostWaits (s : State) (a : Nat) (d : List Byte) : (writeBytes s a d).hostWaits = s.hostWaits :=
  by rw [writeBytes_only]
@[simp] theorem writeBytes_timeSent (s : State) (a : Nat) (d : List Byte) : (writeBytes s a d).timeSent = s.timeSent :=
  by rw [writeBytes_only]
@[simp] theorem writeBytes_sampleAt (s : State) (a : Nat) (d : List Byte) : (writeBytes s a d).sampleAt = s.sampleAt :=
  by rw [writeBytes_only]
@[simp] theorem writeBytes_identity (s : State) (a : Nat) (d : List Byte) : (writeBytes s a d).identity = s.identity :=
  by rw [writeBytes_only]
@[simp] theorem writeBytes_grants (s : State) (a : Nat) (d : List Byte) : (writeBytes s a d).grants = s.grants :=
  by rw [writeBytes_only]
@[simp] theorem writeBytes_sched (s : State) (a : Nat) (d : List Byte) : (writeBytes s a d).sched = s.sched :=
  by rw [writeBytes_only]
@[simp] theorem writeBytes_agenda (s : State) (a : Nat) (d : List Byte) : (writeBytes s a d).agenda = s.agenda :=
  by rw [writeBytes_only]

/-! ### Reading back -/

@[simp] theorem ctxWr_rd (c : Ctx) (r q : BitVec 5) (v : Word) :
    (c.wr r v).rd q = if q = r ∧ r ≠ 0 then v else c.rd q := by
  unfold Ctx.rd Ctx.wr
  by_cases z : r = 0
  · simp [z]
  · rw [if_neg z]
    by_cases e : q = r
    · subst e; rw [if_neg z, if_pos ⟨rfl, z⟩]; simp
    · have : r.toNat ≠ q.toNat := fun x => e (BitVec.eq_of_toNat_eq x.symm)
      have k : ¬(q = r ∧ r ≠ 0) := fun x => e x.1
      rw [if_neg k]; simp [this]

@[simp] theorem ctxPw_pr (c : Ctx) (p q : BitVec 3) (v : BitVec 32) :
    (c.pw p v).pr q = if q = p ∧ p ≠ 0 then v else c.pr q := by
  unfold Ctx.pr Ctx.pw
  by_cases z : p = 0
  · simp [z]
  · rw [if_neg z]
    by_cases e : q = p
    · subst e; rw [if_neg z, if_pos ⟨rfl, z⟩]; simp
    · have : p.toNat ≠ q.toNat := fun x => e (BitVec.eq_of_toNat_eq x.symm)
      have k : ¬(q = p ∧ p ≠ 0) := fun x => e x.1
      rw [if_neg k]; simp [this]

@[simp] theorem ctxVw_vr (c : Ctx) (r q : BitVec 6) (v : VReg) : (c.vw r v).vr q = if q = r then v else c.vr q := by
  unfold Ctx.vr Ctx.vw
  by_cases e : q = r
  · subst e; simp
  · have : r.toNat ≠ q.toNat := fun x => e (BitVec.eq_of_toNat_eq x.symm)
    simp [e, this]

@[simp] theorem getCtx_putCtx (s : State) (a : Nat) (c : Ctx) (h : mapWfFrom {} 0 s.parked = true) :
    getCtx (putCtx s a c) a = c := by
  unfold getCtx putCtx
  by_cases e : a = s.who
  · simp [e]
  · rw [if_neg e]; exact (if_neg e).trans ((mapGet_mapSet h).trans (if_pos rfl))

@[simp] theorem getCore_putCore (s : State) (k j : Nat) (c : Core) (h : mapWfFrom {} 0 s.cores = true) :
    getCore (putCore s k c) j = if j = k then c else getCore s j := mapGet_mapSet h

@[simp] theorem getTile_putTile (s : State) (k j : Nat) (c : Tile) (h : mapWfFrom {} 0 s.tiles = true) :
    getTile (putTile s k c) j = if j = k then c else getTile s j := mapGet_mapSet h

@[simp] theorem getCluster_putCluster (s : State) (k j : Nat) (c : Cluster) (h : mapWfFrom {} 0 s.clusters = true) :
    getCluster (putCluster s k c) j = if j = k then c else getCluster s j := mapGet_mapSet h

@[simp] theorem getDie_putDie (s : State) (k j : Nat) (c : Die) (h : mapWfFrom {} 0 s.dies = true) :
    getDie (putDie s k c) j = if j = k then c else getDie s j := mapGet_mapSet h

end Sys2Proof.Laws
end

