-- ==== Sys2Proof/Tests/Slice0.lean ====
section
/-! SUPPORT. Small tests: what WellFormed refuses, words written out from the manual's encodings, single steps, and for every
statement a state and operands that meet its hypotheses. -/

namespace Sys2Proof.Tests

open Sys2Proof Sys2Proof.Machine

set_option maxRecDepth 8000

/-! ### States to test on -/

/-- Core 0's high context runs in a region (RCB at 4096) that holds cluster 0 and owns tile 0; its handler is at 0x200. -/
def m0 : State := { State.reset with
  cur := {
    tvec := 0x200
    run := .running
    pc := 0xFFFFFFFFC0000000 }
  tiles := [(0, { slown := 0x8000000000000000 })]
  clusters := [(0, { region := some (4096, 0) })]
  regions := [{
    rcb := 4096
    clusters := [0]
    state := 2 }] }

/-- The same with some registers set. -/
def m (l : List (BitVec 5 × Word)) : State := l.foldl (fun s p => wr s p.1 p.2) m0

/-- The same with a changed context. -/
def mc (f : Ctx → Ctx) : State := { m0 with cur := f m0.cur }

/-- The transfer unit's member of tile 0's team is in focus. -/
def me : State := { m0 with who := 32769 }

/-- The address of a byte of tile 0's slice. -/
def sl (o : Nat) : Word := BitVec.ofNat 64 (0xFFFFFFFFC0000000 + o)

/-- Does a check fail, with a trap that satisfies p? -/
def fails {α : Type} (x : Except Trap α) (p : Trap → Bool) : Bool := match x with
  | .ok _ => false
  | .error t => p t

/-- The region has a pager at cluster 0's core 62 (mode 1), and its REPLY area is the start of tile 0's slice. -/
def mPager : State := writeNat (writeNat m0 (4096 + 0x5B) 1 1) (4096 + 0x40) 8 (sl 0).toNat

/-- The page at 0x10000 in core 0's TLB, its frame anywhere, with what the access tables let the region do there. -/
def mRights (f : Nat) (l : List (Nat × Nat × Bool × Bool)) : State := { m0 with
  cores := [(0, { tlb := [{
    tag := 0
    va := 0x10000
    log := 16
    frame := f
    r := true
    w := true
    x := true
    leaf := 0x10000
    movable := true
    rights := l }] })]
  far := [⟨1, 2 ^ 44, 2 ^ 40, none, false⟩] }
def mFrame (f : Nat) : State := mRights f [(f, f + 0x10000, true, true)]

/-- The link of the far-tier device is down since count 0, or its lines are lost. -/
def mFar (s : State) (lost : Bool := false) : State := { s with far := [⟨1, 2 ^ 44, 2 ^ 40, some 0, lost⟩] }

/-- A load of four bytes without a value, in slot i. -/
def slot0 (i : Nat) : LoadSlot := {
  id := i
  d := 5
  size := 4
  sx := true
  acq := false
  va := 0x40
  loc := 0x40
  leaf := 0
  pc := sl 0
  lp0 := 0
  lp1 := 0
  local1 := true }

/-- Does a check pass, with an answer that satisfies p? -/
def passes {α : Type} (x : Except Trap α) (p : α → Bool) : Bool := match x with
  | .ok a => p a
  | .error _ => false

def isVal : LoadR → Bool
  | .val _ => true
  | _ => false

/-- A next state that satisfies p. -/
def nextIs (x : Host.Outcome State Fault Refusal) (p : State → Bool) : Bool := match x with
  | .next t => p t
  | _ => false

theorem m0_calm : Calm [0] m0 ∧ Calm [0, 1] m0 ∧ Calm [0, 2] m0 ∧ Calm [0, 3] m0 ∧ Calm [0, 1, 2, 3] m0 ∧ HasHandler m0 ∧
    NoLoop m0.cur := by
  unfold Calm Quiet HasHandler NoLoop; decide

/-! ### WellFormed: one ill-formed term for each check (R42) -/

theorem test_wf_scope : (Instr.fenceFull 6 0).check = some .scope := by decide
theorem test_wf_loop : (Instr.loop 1 0 0).check = some .loopOffset := by decide
theorem test_wf_block : (Instr.vadd 57 0 1 0 0).check = some .block := by decide
theorem test_wf_cpy : (Instr.cpy 5 6 0).check = some .copyBase := by decide
theorem test_wf_send : (Instr.send 9 1 0 0).check = some .sendBase := by decide
theorem test_wf_spawn : (Instr.spawn 1 0 0).check = some .spawnBase := by decide
theorem test_wf_wait : (Instr.wait 1 2 6 1 0).check = some .waitCondition := by decide
theorem test_wf_pgmove : (Instr.pgmove 1 2 12 0 0).check = some .moveTarget := by decide
theorem test_wf_dict : (Instr.dictLd 1 17 0).check = some .dictLength := by decide
theorem test_wf_drift : (Instr.driftSet 16 0).check = some .driftBound := by decide
theorem test_wf_csr : (Instr.csrr 1 0x047 0).check = some .csrNumber := by decide
theorem test_wf_role : (Instr.role 0 0).check = some .roleMask := by decide
theorem test_wf_axdef : (Instr.axdef 1 0 2 0).check = some .releaseForm := by decide
theorem test_wf_good : (Instr.vadd 54 0 1 1 0).wf = true := by decide

/-! ### Decoding (R41, R58, R63 to R67): one word of each encoded row, its fields placed as the encoding tables say -/

theorem test_decode_op :
    decode32 0x0086CB03 = .ok (.add 18 13 8 6) ∧ decode32 0x0286CB03 = .ok (.sub 18 13 8 6) ∧
    decode32 0x0486CB03 = .ok (.andR 18 13 8 6) ∧ decode32 0x0686CB03 = .ok (.orR 18 13 8 6) ∧
    decode32 0x0886CB03 = .ok (.xorR 18 13 8 6) ∧ decode32 0x0A86CB03 = .ok (.sll 18 13 8 6) ∧
    decode32 0x0C86CB03 = .ok (.srl 18 13 8 6) ∧ decode32 0x0E86CB03 = .ok (.sra 18 13 8 6) ∧
    decode32 0x1086CB03 = .ok (.mul 18 13 8 6) ∧ decode32 0x1286CB03 = .ok (.mulh 18 13 8 6) ∧
    decode32 0x1486CB03 = .ok (.div 18 13 8 6) ∧ decode32 0x1686CB03 = .ok (.rem 18 13 8 6) ∧
    decode32 0x1886CB03 = .ok (.min 18 13 8 6) ∧ decode32 0x1A86CB03 = .ok (.max 18 13 8 6) ∧
    decode32 0x1C86CB03 = .ok (.minn 18 13 8 6) ∧ decode32 0x1E86CB03 = .ok (.maxn 18 13 8 6) ∧
    decode32 0x20043683 = .ok (.mov 13 8 5) ∧ decode32 0x2286CB03 = .ok (.cmpEq 18 13 8 6) ∧
    decode32 0x2486CB03 = .ok (.cmpNe 18 13 8 6) ∧ decode32 0x2686CB03 = .ok (.cmpLt 18 13 8 6) ∧
    decode32 0x2886CB03 = .ok (.cmpGe 18 13 8 6) ∧ decode32 0x2A86CB03 = .ok (.cmpLtn 18 13 8 6) ∧
    decode32 0x2C86CB03 = .ok (.cmpGen 18 13 8 6) ∧ decode32 0x2E86CB03 = .ok (.sel 18 13 8 6) := by
  decide

theorem test_decode_op_2 :
    decode32 0x30043683 = .ok (.clz 13 8 5) ∧ decode32 0x32043683 = .ok (.popc 13 8 5) ∧
    decode32 0x3486CB03 = .ok (.bdep 18 13 8 6) ∧ decode32 0x3686CB03 = .ok (.bxtr 18 13 8 6) := by
  decide

theorem test_decode_immediates :
    decode32 0x3B26CB07 = .ok (.addi 18 13 0x3b2 6) ∧ decode32 0x0ED6CB0B = .ok (.andi 18 13 0xed 6) ∧
    decode32 0x4ED6CB0B = .ok (.ori 18 13 0xed 6) ∧ decode32 0x8ED6CB0B = .ok (.xori 18 13 0xed 6) ∧
    decode32 0xC0F6CB0B = .ok (.slli 18 13 15 6) ∧ decode32 0xD0F6CB0B = .ok (.srli 18 13 15 6) ∧
    decode32 0xE0F6CB0B = .ok (.srai 18 13 15 6) ∧ decode32 0x3B14368F = .ok (.lim 13 0x7628 5) ∧
    decode32 0x3B143693 = .ok (.jal 13 0x7628 5) ∧ decode32 0x3B26CB17 = .ok (.jr 18 13 0x3b2 6) := by
  decide

theorem test_decode_branches :
    decode32 0x3B26CB1B = .ok (.brEq 18 13 0x3b2 6) ∧ decode32 0x3B26CB1F = .ok (.brNe 18 13 0x3b2 6) ∧
    decode32 0x3B26CB23 = .ok (.brLt 18 13 0x3b2 6) ∧ decode32 0x3B26CB27 = .ok (.brGe 18 13 0x3b2 6) ∧
    decode32 0x3B26CB2B = .ok (.brLtn 18 13 0x3b2 6) ∧ decode32 0x3B26CB2F = .ok (.brGen 18 13 0x3b2 6) ∧
    decode32 0x025036B3 = .ok (.loop 13 37 5) := by
  decide

theorem test_decode_memory :
    decode32 0x3B995FB7 = .ok (.ldB 23 18 1 0x77 7) ∧ decode32 0x3BB95FB7 = .ok (.ldH 23 18 1 0x77 7) ∧
    decode32 0x3BD95FB7 = .ok (.ldW 23 18 1 0x77 7) ∧ decode32 0x3BE6CB37 = .ok (.ldD 18 13 0x77 6) ∧
    decode32 0x3B995FBB = .ok (.stB 23 18 1 0x77 7) ∧ decode32 0x3BB95FBB = .ok (.stH 23 18 1 0x77 7) ∧
    decode32 0x3BD95FBB = .ok (.stW 23 18 1 0x77 7) ∧ decode32 0x3BF95FBB = .ok (.stD 23 18 1 0x77 7) ∧
    decode32 0x3E6BF0BF = .ok (.ldAcq 28 23 3 4 15 1) ∧ decode32 0x3E7BF0BF = .ok (.stRel 28 23 3 4 15 1) := by
  decide

theorem test_decode_amow :
    decode32 0x08D95FC3 = .ok (.amoAddW 23 18 13 4 7) ∧ decode32 0x18D95FC3 = .ok (.amoAndW 23 18 13 4 7) ∧
    decode32 0x28D95FC3 = .ok (.amoOrW 23 18 13 4 7) ∧ decode32 0x38D95FC3 = .ok (.amoXorW 23 18 13 4 7) ∧
    decode32 0x48D95FC3 = .ok (.amoMinW 23 18 13 4 7) ∧ decode32 0x58D95FC3 = .ok (.amoMaxW 23 18 13 4 7) ∧
    decode32 0x68D95FC3 = .ok (.amoMinnW 23 18 13 4 7) ∧ decode32 0x78D95FC3 = .ok (.amoMaxnW 23 18 13 4 7) ∧
    decode32 0x88D95FC3 = .ok (.amoSwapW 23 18 13 4 7) ∧ decode32 0x98D95FC3 = .ok (.casW 23 18 13 4 7) := by
  decide

theorem test_decode_amod :
    decode32 0x08D95FC7 = .ok (.amoAddD 23 18 13 4 7) ∧ decode32 0x18D95FC7 = .ok (.amoAndD 23 18 13 4 7) ∧
    decode32 0x28D95FC7 = .ok (.amoOrD 23 18 13 4 7) ∧ decode32 0x38D95FC7 = .ok (.amoXorD 23 18 13 4 7) ∧
    decode32 0x48D95FC7 = .ok (.amoMinD 23 18 13 4 7) ∧ decode32 0x58D95FC7 = .ok (.amoMaxD 23 18 13 4 7) ∧
    decode32 0x68D95FC7 = .ok (.amoMinnD 23 18 13 4 7) ∧ decode32 0x78D95FC7 = .ok (.amoMaxnD 23 18 13 4 7) ∧
    decode32 0x88D95FC7 = .ok (.amoSwapD 23 18 13 4 7) ∧ decode32 0x98D95FC7 = .ok (.casD 23 18 13 4 7) := by
  decide

theorem test_decode_vm :
    decode32 0x02324BCB = .ok (.vld 18 18 1 2 7) ∧ decode32 0x4A3748CB = .ok (.vst 18 23 1 2 1 1) ∧
    decode32 0x8B3227CB = .ok (.vldx 9 18 25 1 7) ∧ decode32 0xF47724CB = .ok (.vstx 9 23 35 2 1 1) := by
  decide

theorem test_decode_vb0 :
    decode32 0x046227CF = .ok (.vadd 9 34 1 2 7) ∧ decode32 0x146227CF = .ok (.vsub 9 34 1 2 7) ∧
    decode32 0x246227CF = .ok (.vadds 9 34 1 2 7) ∧ decode32 0x346227CF = .ok (.vsubs 9 34 1 2 7) ∧
    decode32 0x446227CF = .ok (.vmin 9 34 1 2 7) ∧ decode32 0x546227CF = .ok (.vmax 9 34 1 2 7) ∧
    decode32 0x646227CF = .ok (.vabs 9 34 1 2 7) ∧ decode32 0x746227CF = .ok (.vneg 9 34 1 2 7) ∧
    decode32 0x846227CF = .ok (.vand 9 34 1 2 7) ∧ decode32 0x946227CF = .ok (.vor 9 34 1 2 7) ∧
    decode32 0xA46227CF = .ok (.vxor 9 34 1 2 7) ∧ decode32 0xB46227CF = .ok (.vshl 9 34 1 2 7) ∧
    decode32 0xC46227CF = .ok (.vshr 9 34 1 2 7) ∧ decode32 0xD46227CF = .ok (.vcmp 9 34 1 2 7) ∧
    decode32 0xE46227CF = .ok (.vsel 9 34 1 2 7) ∧ decode32 0xF46227CF = .ok (.vmov 9 34 1 2 7) := by
  decide

theorem test_decode_vb1 :
    decode32 0x046227D3 = .ok (.vmul 9 34 1 2 7) ∧ decode32 0x146227D3 = .ok (.cmul 9 34 1 2 7) ∧
    decode32 0x246227D3 = .ok (.cmulc 9 34 1 2 7) ∧ decode32 0x346227D3 = .ok (.vcvt 9 34 1 2 7) ∧
    decode32 0x446227D3 = .ok (.vbfly 9 34 1 2 7) ∧ decode32 0x546227D3 = .ok (.vperm 9 34 1 2 7) ∧
    decode32 0x646227D3 = .ok (.vbcast 9 34 1 2 7) ∧ decode32 0x746227D3 = .ok (.vred 9 34 1 2 7) ∧
    decode32 0x800212D3 = .ok (.pand 4 2 5) ∧ decode32 0x900212D3 = .ok (.por 4 2 5) ∧
    decode32 0xA00212D3 = .ok (.pnot 4 2 5) := by
  decide

theorem test_decode_fused :
    decode32 0x58E224D7 = .ok (.vfma 9 34 35 1 1 1) ∧ decode32 0x58E224DB = .ok (.vfms 9 34 35 1 1 1) ∧
    decode32 0x58E224DF = .ok (.cfma 9 34 35 1 1 1) ∧ decode32 0x58E224E3 = .ok (.cfmac 9 34 35 1 1 1) := by
  decide

theorem test_decode_csr :
    decode32 0x0C90D2E7 = .ok (.csrr 13 0xc9 5) ∧ decode32 0x0CA0D6E7 = .ok (.csrw 13 0xca 5) ∧
    decode32 0x0400DAE7 = .ok (.csrs 13 64 5) ∧ decode32 0x1360DEE7 = .ok (.csrc 13 0x136 5) := by
  decide

theorem test_decode_sys :
    decode32 0x1000026B = .ok (.fenceFull 4 4) ∧ decode32 0x3000026B = .ok (.fenceAcq 4 4) ∧
    decode32 0x5000026B = .ok (.fenceRel 4 4) ∧ decode32 0x0000056B = .ok (.fenceAck 2) ∧
    decode32 0x32570BEB = .ok (.wait 23 18 4 1 7) ∧ decode32 0x040D0EEB = .ok (.pf 13 1 5) ∧
    decode32 0x3C00126B = .ok (.trap 15 4) ∧ decode32 0x0000156B = .ok (.eret 2) ∧
    decode32 0x00081A6B = .ok (.tlbinvPage 8 4) ∧ decode32 0x04081A6B = .ok (.tlbinvTag 8 4) ∧
    decode32 0x08081A6B = .ok (.tlbinvAll 8 4) ∧ decode32 0x00001D6B = .ok (.fenceI 2) ∧
    decode32 0x3C00226B = .ok (.pause 15 4) ∧ decode32 0x0000256B = .ok (.taskEnd 2) ∧
    decode32 0x020D2AEB = .ok (.spawn 13 16 5) ∧ decode32 0x00082E6B = .ok (.yield 8 4) ∧
    decode32 0x010D32EB = .ok (.cntInit 13 8 5) ∧ decode32 0x010D36EB = .ok (.barInit 13 8 5) ∧
    decode32 0x00083A6B = .ok (.barArrive 8 4) ∧ decode32 0x010D3EEB = .ok (.barWait 13 8 5) ∧
    decode32 0x010D42EB = .ok (.barLink 13 8 5) ∧ decode32 0x0008466B = .ok (.phase 8 4) ∧
    decode32 0x040D4AEB = .ok (.sleep 13 1 5) ∧ decode32 0x010D4EEB = .ok (.teamBind 13 8 5) := by
  decide

theorem test_decode_sys_2 :
    decode32 0x525753EB = .ok (.hand 23 18 4 2 7) ∧ decode32 0x0000556B = .ok (.mark 2) ∧
    decode32 0x24005A6B = .ok (.driftSet 9 4) ∧ decode32 0x00005D6B = .ok (.realign 2) ∧
    decode32 0x0000616B = .ok (.teamEnd 2) := by
  decide

theorem test_decode_eng :
    decode32 0x1E0682EF = .ok (.mreqRead 13 15 5) ∧ decode32 0x9E06CB6F = .ok (.mreqWrite 18 13 15 6) ∧
    decode32 0x4E195FEF = .ok (.pgmove 23 18 7 1 7) ∧ decode32 0x0226CB6F = .ok (.pghot 18 13 1 6) ∧
    decode32 0x003436EF = .ok (.pgabort 13 8 5) ∧ decode32 0x0246A36F = .ok (.send 8 13 1 6) ∧
    decode32 0x005436EF = .ok (.portOpen 13 8 5) ∧ decode32 0x0060226F = .ok (.portClose 8 4) ∧
    decode32 0x007436EF = .ok (.treeInj 13 8 5) ∧ decode32 0x008436EF = .ok (.treeExt 13 8 5) ∧
    decode32 0x009636EF = .ok (.cpy 13 12 5) ∧ decode32 0x00A636EF = .ok (.cpyTry 13 12 5) ∧
    decode32 0x00B436EF = .ok (.cpyid 13 8 5) ∧ decode32 0x00C4026F = .ok (.cpywait 8 4) ∧
    decode32 0x04D6CB6F = .ok (.sbind 18 13 2 6) ∧ decode32 0x04E036EF = .ok (.sfree 13 2 5) ∧
    decode32 0x04F036EF = .ok (.sstat 13 2 5) ∧ decode32 0x130682EF = .ok (.dictLd 13 9 5) ∧
    decode32 0x0114026F = .ok (.launch 8 4) ∧ decode32 0x012436EF = .ok (.launchTry 13 8 5) := by
  decide

theorem test_decode_ax :
    decode32 0x010D4B73 = .ok (.axdef 18 13 8 6) ∧ decode32 0x010036F3 = .ok (.axdefRelease 13 8 5) ∧
    decode32 0x050D4B73 = .ok (.mapSet 18 13 8 6) ∧ decode32 0x090D4B73 = .ok (.mapSwap 18 13 8 6) ∧
    decode32 0x0D0D4B73 = .ok (.mapRd 18 13 8 6) ∧ decode32 0x110D4B73 = .ok (.remap 18 13 8 6) ∧
    decode32 0x14080273 = .ok (.rmwait 8 4) ∧ decode32 0x190D8F73 = .ok (.axld 35 13 8 6) ∧
    decode32 0x1D0D8F73 = .ok (.axst 35 13 8 6) ∧ decode32 0x20080273 = .ok (.axctx 8 4) ∧
    decode32 0x250D02F3 = .ok (.axmat 13 8 5) ∧ decode32 0x290D4B73 = .ok (.axap 18 13 8 6) ∧
    decode32 0x2C0866F3 = .ok (.axmm 25 8 5) ∧ decode32 0x310D4B73 = .ok (.axdrain 18 13 8 6) ∧
    decode32 0x340836F3 = .ok (.axstat 13 8 5) ∧ decode32 0x38080273 = .ok (.axwait 8 4) := by
  decide

theorem test_decode_cr :
    decode16 0x1434 = .ok (.cMov 13 8) ∧ decode16 0x2434 = .ok (.cAdd 13 8) ∧ decode16 0x3434 = .ok (.cSub 13 8) ∧
    decode16 0x4434 = .ok (.cAnd 13 8) ∧ decode16 0x5434 = .ok (.cOr 13 8) ∧ decode16 0x6434 = .ok (.cXor 13 8) ∧
    decode16 0x7434 = .ok (.cLdD 13 8) ∧ decode16 0x8434 = .ok (.cStD 13 8) ∧ decode16 0x9020 = .ok (.cJr 8) := by
  decide

theorem test_decode_ci :
    decode16 0x0435 = .ok (.cAddi 13 8) ∧ decode16 0x1435 = .ok (.cLim 13 8) ∧ decode16 0x2435 = .ok (.cSlli 13 8) ∧
    decode16 0x3435 = .ok (.cSrli 13 8) ∧ decode16 0x4435 = .ok (.cSrai 13 8) ∧ decode16 0x5435 = .ok (.cAndi 13 8) := by
  decide

theorem test_decode_cb :
    decode16 0x0436 = .ok (.cBrEq 13 8) ∧ decode16 0x1436 = .ok (.cBrNe 13 8) ∧ decode16 0x2436 = .ok (.cBrLt 13 8) ∧
    decode16 0x3436 = .ok (.cBrGe 13 8) ∧ decode16 0x43B6 = .ok (.cJmp 0xed) ∧ decode16 0xCF1E = .ok (.role 7 60) := by
  decide

/-- What R42 makes no instruction: op 0000 of quadrant 0, a reserved field, unassigned codes and majors, ill-formed fields. -/
theorem test_refused_words :
    decode16 0x0000 = .error .unassigned16 ∧ decode16 0x9084 = .error .reservedBits ∧ decode16 0xC002 = .error (.illFormed .roleMask) ∧
    decode32 0x38000003 = .error .unassignedFunction ∧ decode32 0x00000077 = .error .unassignedMajor ∧
    decode32 0x32100003 = .error .reservedBits ∧ decode32 0x1800006B = .error (.illFormed .scope) ∧
    decode32 0x00000033 = .error (.illFormed .loopOffset) ∧ decode32 0x6C00006B = .error .unassignedFunction ∧
    decode32 0x0131006F = .error .unassignedFunction := by
  decide

/-! ### A state and operands that meet the hypotheses of each statement, clause by clause -/

/-- RegisterForms, BitForms, ImmediateAndShortForms, Branches, JumpForms and PredicateForms assume a calm focus only; so
does each of their clauses but the last of PredicateForms, whose step `witness_MemoryCanonical` shows. An engine member is one too. -/
theorem witness_calm : Calm [0, 1, 2, 3] m0 ∧ Calm [0, 1, 2, 3] me ∧ Calm [0] (mc fun c => { c with issuectl := 1 }) := by
  unfold Calm Quiet; decide

/-- A fetch that stops: with a trap, at a home that makes it wait, or for the host. -/
def stopKind : Option FetchStop → Nat
  | none => 0
  | some (.trap _) => 1
  | some .wait => 2
  | some (.host _ _) => 3

/-- LoopForms: a count of 2 ^ 32 is too large, one of 2 ^ 32 − 1 is not; a body that is empty, one that runs, one that is skipped. -/
theorem witness_LoopForms :
    (2 ^ 32 ≤ (rd (m [(1, 0x100000000)]) 1).toNat ∧ HasHandler (m [(1, 0x100000000)])) ∧
    (¬(2 ^ 32 ≤ (rd (m [(1, 0xFFFFFFFF)]) 1).toNat ∨ lpActive m0.cur 1 = true ∨ lpActive m0.cur 0 = true) ∧ (1 : BitVec 12) = 1) ∧
    ((8 : BitVec 12) ≠ 1 ∧ 0 < (rd (m [(1, 1)]) 1).toNat) ∧
    ((rd m0 0).toNat = 0 ∧ (parcelAt m0 (m0.cur.pc + 16)).1 = [0] ∧ (parcelAt m0 (m0.cur.pc + 16)).2.2.cur = m0.cur) ∧
    ∀ p ∈ [(m0, sl 0x40000, 1), (mFar (mFrame (2 ^ 44)), (0x10000 : Word), 2), (mFrame (2 ^ 51), 0x10000, 3)],
      (parcelAt p.1 p.2.1).1 = [] ∧ stopKind (parcelAt p.1 p.2.1).2.1 = p.2.2 := by
  unfold HasHandler; decide

/-- A level 0 whose end address is the pc. -/
def mLoop (n : Nat) : State := mc fun c => { c with
  lpaddr0 := sl 0
  pc := sl 16
  lpctl0 := BitVec.ofNat 64 (n * 2 ^ 32 + 2 ^ 31 + 8) }

/-- Level 1 ends at the pc as well, with REMAIN n; level 0 ends o bytes behind it. -/
def mLoops (n k : Nat) (o : Nat := 0) : State := { mLoop k with
  cur := { (mLoop k).cur with
    lpaddr1 := sl 4
    lpctl0 := BitVec.ofNat 64 (k * 2 ^ 32 + 2 ^ 31 + 8 + o / 2)
    lpctl1 := BitVec.ofNat 64 (n * 2 ^ 32 + 2 ^ 31 + 6) } }

/-- An instruction at sl 14 or sl 16 in the two parcels of a span whose prefix stands at the end address, sl 12, of level 0. -/
def mSpanEnd (pc : Word) : State := { mLoop 2 with
  cur := { (mLoop 2).cur with
    lpctl0 := 0x280000006
    pc := pc
    span := 2
    spanAt := sl 12
    spanCode := [0x1000, 0x1000] } }

/-- Branches and JumpForms: in the body of level 0, whose end has been seen to be no prefix, and in a span at that end; targets in the
body and outside. LoopBackEdge: an instruction of 4 bytes that steps over that end. -/
theorem witness_levels_left :
    (let c := { (mLoop 2).cur with pc := sl 14 }.noteEnd 0 0
     EndsSeen c (fun _ => 0) ∧ lpActive c 0 = true ∧ InBody c (fun _ => 0) 0 c.pc ∧ InBody c (fun _ => 0) 0 (sl 16) ∧
      ¬InBody c (fun _ => 0) 0 (sl 18) ∧ ¬InBody c (fun _ => 0) 0 (sl 0)) ∧
    (let c := (mSpanEnd (sl 14)).cur
     EndsSeen c (fun _ => 4) ∧ InBody c (fun _ => 4) 0 (sl 16) ∧ ¬InBody c (fun _ => 4) 0 (sl 18)) ∧
    (let c := { (mLoop 2).cur with pc := sl 14 }
     (∀ k < 2, lpActive c k = true → c.pc < lpEnd c k) ∧ lpEnd c 0 < c.pc + 4 ∧ ¬lpEnd c 0 < c.pc + 2) ∧
    (let c := { (mSpanEnd (sl 14)).cur with span := 0 }.noteEnd 0 4
     seenEnd c 0 = some 4 ∧ lpEnd c 0 < c.pc ∧ c.pc + 4 = lpEnd c 0 + BitVec.ofNat 64 (2 + 4)) := by
  unfold EndsSeen InBody
  refine ⟨⟨fun k hk => ?_, by decide, by decide, by decide, by decide, by decide⟩, ⟨fun k hk => ?_, by decide, by decide⟩,
    ⟨fun k hk => ?_, by decide, by decide⟩, by decide⟩ <;>
    (match k, hk with
     | 0, _ => decide
     | 1, _ => decide)

/-- A branch out of both bodies: levels 0 and 1 are discarded; a call keeps them; and a trap inside a span keeps what was seen of its
prefix, so that the span's last instruction ends the level though span state is gone. -/
theorem test_levels_left :
    nextIs (exec (.brEq 0 0 100 0) { mLoops 2 2 with cur := ((mLoops 2 2).cur.noteEnd 0 0).noteEnd 1 0 })
      (fun t => !lpActive t.cur 0 && !lpActive t.cur 1) = true ∧
    nextIs (exec (.jal 1 100 0) (mLoops 2 2)) (fun t => lpActive t.cur 0 && lpActive t.cur 1) = true ∧
    nextIs (exec (.add 5 6 7 0) { mSpanEnd (sl 14) with cur := { (mSpanEnd (sl 14)).cur with span := 0 }.noteEnd 0 4 })
      (fun t => decide (t.cur.pc = sl 4)) = true := by
  decide

/-- Two levels that end `o` bytes apart, or with one instruction, or behind a span; a branch that is not taken, and a prefix that is
skipped. -/
theorem witness_LoopBackEdge :
    (∀ n ∈ [1, 2], Calm [0, 1, 2, 3] (mLoop n) ∧ lpActive (mLoop n).cur 0 = true ∧ lpActive (mLoop n).cur 1 = false ∧
      (mLoop n).cur.pc = lpEnd (mLoop n).cur 0 ∧ bits (mLoop n).cur.lpctl0 63 32 = n) ∧
    (∀ n ∈ [1, 2], ∀ k ∈ [1, 2], ∀ o ∈ [0, 4], let c := (mLoops n k o).cur
      Calm [0, 1, 2, 3] (mLoops n k o) ∧ lpActive c 0 = true ∧ lpActive c 1 = true ∧ c.pc = lpEnd c 1 ∧ bits c.lpctl1 63 32 = n ∧
      bits c.lpctl0 63 32 = k ∧ (o = 0 ↔ c.pc = lpEnd c 0) ∧ (o = 4 ↔ c.pc < lpEnd c 0 ∧ c.pc + 4 ≤ lpEnd c 0)) ∧
    (∀ p ∈ [(sl 14, 4), (sl 16, 2)], let c := (mSpanEnd p.1).cur
      Calm [0, 1, 2, 3] (mSpanEnd p.1) ∧ lpActive c 0 = true ∧ lpActive c 1 = false ∧ 0 < c.span ∧ c.spanAt = lpEnd c 0 ∧
      c.spanCode ≠ [] ∧ lpEnd c 0 < c.pc ∧ c.pc + p.2 = lpEnd c 0 + BitVec.ofNat 64 (2 + 2 * c.spanCode.length)) ∧
    rd (m [(1, 1)]) 1 ≠ rd (m [(1, 1)]) 2 ∧
    (let s := { mLoop 2 with clusters := [(0, { region := some (4096, 0), team := some {
       members := [{ agent := 0 }]
       binds := [(1, 0, 1)] } })] }
     (spanRun s s.cur.pc 1).1 = [0] ∧ (spanRun s s.cur.pc 1).2.1.isNone ∧ (spanRun s s.cur.pc 1).2.2.cur = s.cur ∧
      badSpan true [0] = false ∧ inMask s 4 = false) := by
  unfold Calm Quiet
  refine ⟨by decide, by decide, ?_, by decide, by decide⟩
  intro p hp
  simp only [List.mem_cons, List.not_mem_nil, or_false] at hp
  rcases hp with rfl | rfl <;> and_intros <;> decide

/-- A team of core 0 and the transfer member, core 0 holding role 1. -/
def team0 : Team := {
  members := [{ agent := 0 }, { agent := 32769 }]
  binds := [(1, 0, 1)] }
def mt (t : Team) : State := { m0 with clusters := [(0, { region := some (4096, 0), team := some t })] }

/-- Code in tile 0's slice: `c.mov s0, s0` twice, and a role prefix inside a span. -/
def mCode (l : List Byte) (s : State) : State := writeBytes s (sliceLoc 0 0) l

/-- The last parcel of the slice, and the two before it. -/
def mLast (o : Nat) : State := { writeBytes (mt team0) (sliceLoc 0 0x3FFFE) [0x02, 0xC0] with cur := { m0.cur with pc := sl o } }

/-- RolePrefix, where the span cannot be fetched: it begins behind the slice, or a nested prefix stands before that place; code of a
far-tier page behind a link that is down, and code of host memory. -/
theorem witness_RolePrefix_faults :
    (let r := spanRun (mLast 0x3FFFE) (sl 0x3FFFE) 1
     r.1 = [] ∧ stopKind r.2.1 = 1 ∧ badSpan false [] = false ∧ inMask (mLast 0x3FFFE) 2 = true ∧ inMask (mLast 0x3FFFE) 4 = false ∧
      HasHandler (mLast 0x3FFFE)) ∧
    (let r := spanRun (mLast 0x3FFFC) (sl 0x3FFFC) 2
     r.1 = [0xC002] ∧ stopKind r.2.1 = 1 ∧ badSpan false [0xC002] = true) ∧
    stopKind (spanRun (mFar (mFrame (2 ^ 44))) 0x10000 1).2.1 = 2 ∧ stopKind (spanRun (mFrame (2 ^ 51)) 0x10000 1).2.1 = 3 ∧
    (let s := mFrame (2 ^ 51)
     stopKind (spanRun { s with cur := { s.cur with hostGot := [(2 ^ 51, 2 ^ 64 + 1)] } } 0x10000 1).2.1 = 1) ∧
    Calm [0, 1, 2, 3] (mLast 0x3FFFE) ∧ Calm [0, 1, 2, 3] (mFar (mFrame (2 ^ 44))) := by
  unfold HasHandler Calm Quiet; decide

/-- RolePrefix: a span of one parcel that the focus executes, one that it skips, and one that is invalid. -/
theorem witness_RolePrefix :
    ((spanRun (mCode [0, 0, 0, 0x10] (mt team0)) (sl 0) 1).1 = [0x1000] ∧
      (spanRun (mCode [0, 0, 0, 0x10] (mt team0)) (sl 0) 1).2.1.isNone ∧ badSpan true [0x1000] = false ∧
      inMask (mt team0) 2 = true ∧ inMask (mt team0) 4 = false) ∧
    ((spanRun (mCode [0, 0, 0x02, 0xC0] m0) (sl 0) 1).1 = [0xC002] ∧
      (spanRun (mCode [0, 0, 0x02, 0xC0] m0) (sl 0) 1).2.1.isNone ∧ badSpan true [0xC002] = true ∧ HasHandler m0) := by
  unfold HasHandler; decide

/-- Where no byte of a load stands in the buffer, and where all do. -/
def ownIs (s : State) (l : Landing) (n : Nat) : Option (List Byte) := match ownBytes s 0 l n with
  | .all b => some b
  | .part => none
  | .none => some []

/-- The home of a load at an address answers it with this status (`HomeAnswers`). -/
def answers (s : State) (e : Word) (n status : Nat) : Bool := passes (checkAccess s 0 e n 0) fun l =>
  decide (ownIs l.st l n = some []) && !boundFor l.st 0 l.loc (fun _ => true) && !bankBusy l.st l.loc 4096 && !farWaits l.st l.loc &&
    decide (homeOf l.st l.loc ≠ some 25) && decide ((serveRead l.st l.loc n).1 = status)

/-- A poisoned line of the slice, and a page of the far tier that is lost. -/
def mPoisoned : State := { m0 with poison := [sliceLoc 0 64 / 64] }
def mLost : State := mFar (mFrame (2 ^ 44)) true

/-- LoadForms and WaitForms: lines that their home answers as poisoned and as lost. -/
theorem witness_home_answers :
    (Calm [0] mPoisoned ∧ HasHandler mPoisoned ∧ mPoisoned.cur.loads = [] ∧ mPoisoned.sched.deferLoads = false) ∧
    (Calm [0] mLost ∧ HasHandler mLost ∧ mLost.cur.loads = [] ∧ mLost.sched.deferLoads = false) ∧
    ∀ n ∈ [1, 2, 4, 8], answers mPoisoned (sl 64) n 1 = true ∧ answers mLost 0x10000 n 2 = true := by
  unfold Calm Quiet HasHandler; decide

/-- A load of the poisoned line traps DATA_POISON with ACCESS 0; its register keeps its value. -/
theorem test_load_poison : nextIs (exec (.ldW 5 3 1 0 0) (wr (wr mPoisoned 3 (sl 64)) 5 7)) fun t =>
    decide (t.cur.cause = 0x10 ∧ t.cur.faultva = sl 64 ∧ rd t 5 = 7 ∧ t.cur.pc = t.cur.tvec) := by
  decide

/-- LoadForms: an aligned byte, half-word, word and double word in the slice, served at once; one that the focus has in its
own buffer; and one that the schedule defers. -/
theorem witness_LoadForms :
    Calm [0] m0 ∧ m0.cur.loads = [] ∧ m0.sched.deferLoads = false ∧
    (∀ n ∈ [1, 2, 4, 8], passes (checkAccess m0 0 (sl (2 ^ 18 - n)) n 0) fun l => isVal (loadBytes l.st 0 l n)) ∧
    (let s := { mc fun c => { c with buf := [{ loc := sliceLoc 0 64, body := .store [1, 2] false }] } with
       sched := { deferLoads := true } }
     Calm [0] s ∧ s.cur.loads = [] ∧ passes (checkAccess s 0 (sl 64) 2 0) fun l =>
      decide (l.loc = sliceLoc 0 64 ∧ ownIs s l 2 = some [1, 2]) && isVal (loadBytes l.st 0 l 2)) ∧
    (let s := { m0 with sched := { deferLoads := true } }
     Calm [0] s ∧ s.cur.loads = [] ∧ passes (checkAccess s 0 (sl 64) 8 0) fun l => decide (ownIs l.st l 8 = some []) &&
      decide (homeOf s l.loc ≠ some 25) && !boundFor l.st 0 l.loc (·.chan ≠ 0)) := by
  unfold Calm Quiet; decide

/-- A deferred load takes a slot and goes to its home; the register waits. -/
theorem test_deferred_load :
    nextIs (exec (.ldW 5 3 1 0 0) { m [(3, sl 64), (5, 7)] with sched := { deferLoads := true } }) fun t =>
      decide (t.net.map (·.entry) = [{ loc := sliceLoc 0 64, body := .load 4 0 }] ∧
        t.cur.loads.map (fun x => (x.d, x.size, x.sx, x.loc)) = [(5, 4, true, sliceLoc 0 64)] ∧ rd t 5 = 7) := by
  decide

/-- Does an address of this home pass the checks for n bytes, access k? -/
def homeIs (s : State) (e : Word) (n k : Nat) (p : Option Nat → Bool) : Bool :=
  passes (checkAccess s 0 e n k) fun l => p (homeAt s l.loc)

/-- MisalignedForms, check by check: an address that is no multiple of the size; a slice the region does not own, and a store to a
system area of its own; an address without a translation, one whose page lies nowhere, one that the table denies to reads or to
writes only; an atomic on the far tier and on host memory; and a region without a pager and one with. -/
theorem witness_MisalignedForms :
    (Calm [0] m0 ∧ HasHandler m0 ∧ m0.cur.loads = [] ∧ bits m0.cur.sterr 63 63 = 0) ∧
    ((sl 1).toNat % 2 ≠ 0 ∧ (sl 2).toNat % 4 ≠ 0 ∧ (sl 4).toNat % 8 ≠ 0) ∧
    ((sl 0x40000).toNat % 8 = 0 ∧ isSliceVA (vaOf m0 (sl 0x40000)) = true ∧
      sliceAllows m0 0 (sliceTile (sliceOfVA (vaOf m0 (sl 0x40000)))) = false) ∧
    ((sl 0xC000).toNat % 8 = 0 ∧ isSliceVA (vaOf m0 (sl 0xC000)) = true ∧ sysArea (sliceOfVA (vaOf m0 (sl 0xC000))) = true) ∧
    isSliceVA (vaOf m0 0x10000) = false ∧
    (∀ k ∈ [0, 1, 2], fails (translate m0 0 m0.cur.troot (vaOf m0 0x10000) k) fun t => decide (t.code = 8 ∧ t.access = k)) ∧
    (passes (translate (mFrame (2 ^ 43)) 0 0 (vaOf m0 0x10000) 0) fun r => (homeOf (mFrame (2 ^ 43)) r.1.frame).isNone) ∧
    (∀ q ∈ [(false, true), (true, false)],
      passes (translate (mRights 0x20000 [(0x20000, 0x30000, q)]) 0 0 (vaOf m0 0x10000) (if q.1 then 1 else 0)) fun r =>
        decide ((homeOf m0 r.1.frame).isSome ∧ r.1.allows r.1.frame = q)) ∧ isSys m0 m0.who = false ∧
    homeIs (mFrame (2 ^ 44)) 0x10000 8 2 (fun h => h = some 24) = true ∧ homeIs (mFrame (2 ^ 51)) 0x10000 4 2 (fun h => h = some 25) = true := by
  unfold Calm Quiet HasHandler; decide

/-- A fault of the access in m0 traps; in mPager it goes to the pager, unless the context is a pager's own. -/
theorem witness_Faults :
    let t : Trap := { code := 0x08, access := 1, va := vaOf m0 0x10000 }
    (pagerWaits (refreshTlb m0 t) t = false ∧ (pagerFor (refreshTlb m0 t) 0 0x10000).isNone) ∧
    (pagerWaits (refreshTlb mPager t) t = false ∧ mPager.cur.pagerTask = false ∧ HasHandler mPager ∧
      pagerFor (refreshTlb mPager t) 0 0x10000 = some (62, 0, 1) ∧
      replyLoc (refreshTlb mPager t) 0 false 1 = some (sliceLoc 0 0) ∧
      (serveWrite (refreshTlb mPager t) (sliceLoc 0 0) (toBytes 8 0) false).1 = 0) := by
  unfold HasHandler; decide

/-- The fault of a store in mPager: the record goes to core 62 and the context waits. -/
theorem test_fault_to_pager : nextIs (exec (.stD 5 3 0 0 0) (wr mPager 3 0x10000)) fun t =>
    decide (t.cur.wait = .pager 8 1 (vaOf m0 0x10000) (sl 0) ∧ t.net.map (·.entry.loc) = [homeLoc 62 0xC000] ∧ t.cur.pc = sl 0) := by
  decide

/-- A full store buffer. -/
def mFull : State := mc fun c => { c with buf := List.replicate 16 { loc := sliceLoc 0 0, body := .store [0] false } }

theorem witness_StoreForms :
    (∀ n ∈ [1, 2, 4, 8], passes (checkAccess m0 0 (sl 64) n 1) fun l => decide (m0.cur.buf.length < 16) && !pageHeld m0 0 l) ∧
    (let s := { mFrame 0x20000 with cur := { m0.cur with buf := [{ loc := 0x30000, body := .store [1] false, page := some ⟨0x10000, 16, 0x40000⟩ }] } }
     passes (checkAccess s 0 0x10000 8 1) fun l => pageHeld s 0 l) ∧
    (∀ n ∈ [1, 2, 4, 8], passes (checkAccess mFull 0 (sl 64) n 1) fun _ => 16 ≤ mFull.cur.buf.length) ∧ Calm [0] mFull := by
  unfold Calm Quiet; decide

/-- A failed store is recorded. -/
def mFail : State := mc fun c => { c with sterr := 0x9000000000000000 }

/-- A store to tile 0's slice that has not left its buffer. -/
def mHeld : State := mc fun c => { c with buf := [{ loc := sliceLoc 0 0, body := .store [1] false }] }

theorem witness_StoreRelease :
    (bits mFail.cur.sterr 63 63 = 1 ∧ HasHandler mFail ∧ Calm [0] mFail) ∧
    (bits m0.cur.sterr 63 63 = 0 ∧ (passes (checkAccess m0 0 (sl 64) 8 1) fun l => !pageHeld m0 0 l) = true ∧ m0.cur.buf.length < 16 ∧
      releaseBlocked m0 0 4 = false) ∧
    (bits mHeld.cur.sterr 63 63 = 0 ∧ (passes (checkAccess mHeld 0 (sl 64) 8 1) fun l => !pageHeld mHeld 0 l) = true ∧
      mHeld.cur.buf.length < 16 ∧ releaseBlocked mHeld 0 4 = true) := by
  unfold Calm Quiet HasHandler; decide

/-- A request on its way to a home, these lines poisoned. -/
def mReq (loc : Nat) (b : Payload) (p : List Nat) : State := { m0 with
  net := [{ src := 0, entry := { loc := loc, body := b } }]
  poison := p }

/-- Offsets 64 to 127 of tile 0's slice are a withheld staging area. -/
def mStaged (s : State) : State := { s with tiles := [(0, { staged := [(0, 64, 64)] })] }

/-- A store of the last bytes of a line and of a whole line, a load of eight bytes, and both `mreq`s, the line clean or poisoned; a
lost line of the far tier, poisoned or not. -/
theorem witness_StoreAtHome :
    (∀ p ∈ [(sliceLoc 0 125, .store [1, 2, 3] false), (sliceLoc 0 64, .store (List.replicate 64 1) true), (sliceLoc 0 120, .load 8 7),
        (0x20040, .mreqRead 5), (0x20078, .mreqWrite 5 (List.replicate 8 1))], ∀ q ∈ [[], [p.1 / 64]],
      let s := mReq p.1 p.2 q
      mayServe s 0 { src := 0, entry := { loc := p.1, body := p.2 } } = true ∧ homeOf s p.1 ≠ some 25 ∧
      (∀ k < 64, (motionAt s (p.1 + k)).isNone) ∧ farLost s p.1 = false ∧ withheld s p.1 = false ∧ Memory.wf s.mem = true ∧
      isPoisoned s p.1 = (q ≠ [])) ∧
    (sliceLoc 0 125 % 64 + 3 ≤ 64 ∧ sliceLoc 0 64 % 64 + 64 ≤ 64 ∧ 0x20078 % 64 + 8 ≤ 64 ∧ (List.replicate 64 (1 : Byte)).length = 64) ∧
    (∀ q ∈ [[], [2 ^ 44 / 64]], ∀ b ∈ [Payload.store [1] false, .load 1 7],
      let s := mFar (mReq (2 ^ 44) b q) true
      mayServe s 0 { src := 0, entry := { loc := 2 ^ 44, body := b } } = true ∧ farLost s (2 ^ 44) = true ∧
      isPoisoned s (2 ^ 44) = (q ≠ [])) ∧
    (∀ n ∈ [4, 8], sliceLoc 0 (64 - n) % n = 0 ∧ 256 ^ n - 1 < 256 ^ n ∧ withheld m0 (sliceLoc 0 (64 - n)) = false) ∧
    (let s := mStaged (mReq (sliceLoc 0 120) (.load 8 7) [])
     withheld s (sliceLoc 0 120) = true ∧ withheld s (sliceLoc 0 127) = true ∧ withheld s (sliceLoc 0 128) = false ∧
      mayServe s 0 { src := 0, entry := { loc := sliceLoc 0 120, body := .load 8 7 } } = true) := by
  decide

/-- R264: a load from a withheld staging area returns zero, also where its line is poisoned. -/
theorem test_withheld_load : nextIs (exec (.homeRequest 0)
    (mStaged (writeNat (mReq (sliceLoc 0 120) (.load 2 7) [sliceLoc 0 64 / 64]) (sliceLoc 0 120) 2 0xFFFF))) fun t =>
      decide (t.replies.map (fun r => (r.status, r.data)) = [(0, [0, 0])]) := by
  decide

/-- A whole line ends the poison of its line; a store of three bytes leaves the line and its poison. -/
theorem test_whole_line :
    (nextIs (exec (.homeRequest 0) (mReq (sliceLoc 0 64) (.store (List.replicate 64 1) true) [sliceLoc 0 64 / 64])) fun t =>
      decide (t.poison = [] ∧ readByte t (sliceLoc 0 127) = 1 ∧ t.replies.map (·.status) = [0])) ∧
    (nextIs (exec (.homeRequest 0) (mReq (sliceLoc 0 64) (.store [1, 2, 3] false) [sliceLoc 0 64 / 64])) fun t =>
      decide (t.poison = [sliceLoc 0 64 / 64] ∧ t.mem = [] ∧ t.replies.map (·.status) = [1])) := by
  decide

/-- AtomicForms: an atomic on the slice, and a compare-and-swap that finds, or does not find, the value. -/
theorem witness_AtomicForms :
    Calm [0] m0 ∧ ∀ n ∈ [4, 8], ∀ op ∈ List.range 10, passes (checkAccess m0 0 (sl 64) n 2) fun l =>
      atomicPathOk m0 l.loc op 5 && !fullBlocked m0 0 5 && !pageHeld m0 0 l && !boundFor m0 0 l.loc (fun _ => true) && !bankBusy m0 l.loc 4096 &&
      !writeWaits m0 l.loc && decide (homeOf m0 l.loc ≠ some 25) &&
      decide (serveRead (countHot l.st l.loc 0 l.leaf) l.loc n = (0, toBytes n 0)) := by
  unfold Calm Quiet; decide

/-- Where atomics find a poisoned line. -/
theorem witness_AtomicForms_poison :
    Calm [0] mPoisoned ∧ HasHandler mPoisoned ∧ ∀ n ∈ [4, 8], ∀ op ∈ List.range 10, passes (checkAccess mPoisoned 0 (sl 64) n 2) fun l =>
      atomicPathOk mPoisoned l.loc op 5 && !fullBlocked mPoisoned 0 5 && !pageHeld mPoisoned 0 l && !boundFor mPoisoned 0 l.loc (fun _ => true) &&
      !bankBusy mPoisoned l.loc 4096 && !writeWaits mPoisoned l.loc && decide (homeOf mPoisoned l.loc ≠ some 25) &&
      decide ((serveRead (countHot l.st l.loc 0 l.leaf) l.loc n).1 = 1) := by
  unfold Calm Quiet HasHandler; decide

/-- VTYPE with element type t, source type u and rounding rm; VAUX with its low bits. -/
def mv (t u rm aux : Nat) : State := mc fun c => { c with
  vtype := BitVec.ofNat 64 (t + 32 * u + 1024 * rm)
  vaux := c.vaux ||| BitVec.ofNat 64 aux }

theorem ready_free (s : State) (x : Access) (h : kindOf s.who = 0) (w : wrongWay s.cur x = false) (b : s.cur.board = [])
    (c : (streamCheck s.cur x).isNone = true) (f : datapathBusy s = false := by decide) : VectorReady s x :=
  ⟨h, w, by simp [Quiet, b], by simpa using c, f⟩

/-- VectorBlocks: for each kind of element type that the instructions ask for (fp32, complex fp32, int32), a focus whose vector
access can go on, and a type that they refuse. The largest block is the whole grid. -/
theorem witness_VectorBlocks :
    (∀ t ∈ [11, 14, 17], VectorReady (mv t 0 0 0) ⟨blockRegs 0 7 7 ++ blockRegs 0 7 7, blockRegs 0 7 7⟩) ∧
    realTy 11 = true ∧ intTy 17 = true ∧ cplxTy 14 = true ∧
    (realTy 11 && decide (bits (mv 11 0 0 0x2000).cur.vaux 13 12 ≠ 3)) = true ∧
    (realTy 11 && decide (bits (mv 11 0 0 0x3000).cur.vaux 13 12 ≠ 3)) = false ∧ bits (mv 17 0 0 0).cur.vtype 4 0 = 17 ∧
    (bflyTy 14 && decide (bits (mv 14 0 0 0).cur.vaux 10 8 < logElems (tySize 14))) = true ∧
    (permTy 17 && permOk (mv 17 0 0 0).cur) = true ∧
    (permTy 17 && decide (bits (mv 17 0 0 0).cur.vaux 20 16 < 32 / tySize 17)) = true ∧
    (bits (mv 0 0 0 0).cur.vtype 4 0 = 0 ∧ realTy 0 = false ∧ intTy 0 = false ∧ cplxTy 0 = false ∧ bflyTy 0 = false ∧
      permTy 0 = false ∧ kindOf (mv 0 0 0 0).who = 0 ∧ HasHandler (mv 0 0 0 0)) := by
  refine ⟨fun t h => ready_free _ _ rfl ?_ rfl ?_ rfl, by unfold HasHandler; decide⟩
  all_goals (simp only [List.mem_cons, List.not_mem_nil, or_false] at h; rcases h with rfl | rfl | rfl <;> decide)

theorem witness_IntegerLanes : (intTy 2 = true ∧ 31 < 32 / tySize 2 ∧ intTy 18 = true ∧ 3 < 32 / tySize 18) ∧
    (∀ r ∈ [0, 1, 2], bits (mv 21 0 0 (r * 0x1000)).cur.vtype 4 0 = 21 ∧ bits (mv 21 0 0 (r * 0x1000)).cur.vaux 13 12 = r) ∧
    intTy 21 = true ∧ 2 ^ 2 = 32 / tySize 21 ∧ 2 ^ (4 + 1) ≤ 32 / tySize 2 ∧ (16 : Nat) ≠ 21 := by
  decide

/-- FloatLanes and Rounding: in bf16, finite codes, both infinities, a NaN, and zeros of both signs; of the eight formats each is one of
the table. -/
theorem witness_FloatLanes :
    (let f : FloatRow := ⟨9, 8, 7, 127⟩
     f ∈ floatRows ∧ 9 ≤ f.t ∧ 15 < 32 / tySize f.t ∧ f.fin 0x3F80 ∧ f.fin 0x7F7F ∧ f.inf 0x7F80 ∧ f.inf 0xFF80 ∧ f.nan 0x7F81 ∧ f.nan 0xFFFF ∧
      f.neg 0xFF80 = true ∧ f.neg 0x7F80 = false ∧ f.mag 0x8000 = 0 ∧ f.mag 0x0001 ≠ 0 ∧ 0xFFFF < 2 ^ (1 + f.E + f.M) ∧ 2 ^ (3 + 1) ≤ 32 / tySize f.t) ∧
    (let f : FloatRow := ⟨7, 4, 3, 7⟩
     f ∈ floatRows ∧ f.fin 0x7E ∧ f.nan 0xFF ∧ ¬f.inf 0x7F ∧ f.t < 8) ∧
    (∀ p ∈ [(12, 16), (13, 16), (14, 32), (15, 8)], 2 ^ (2 * p.2) - 1 < 2 ^ (2 * p.2) ∧
      (floatRows.any fun f => p.1 = 15 || f.t = p.1 - 3) = true) ∧
    bits (mv 9 0 0 0).cur.vtype 4 0 = 9 ∧ bits (mv 9 0 0 0).cur.vaux 13 12 = 0 := by
  decide

/-- Rounding: e5m2, whose largest value is 57,344 and whose bound for an infinity is 61,440; 57,344 and a half above it on each side. -/
theorem witness_Rounding :
    (⟨8, 5, 2, 15⟩ : FloatRow) ∈ floatRows ∧ (⟨8, 5, 2, 15⟩ : FloatRow).top = 0x7B ∧ (⟨8, 5, 2, 15⟩ : FloatRow).val 0x7B = 57344 ∧
    (⟨8, 5, 2, 15⟩ : FloatRow).val 0x7B - (⟨8, 5, 2, 15⟩ : FloatRow).val 0x7A = 8192 ∧ (Machine.Num.fin false 61439 0).val = 61439 ∧
    (Machine.Num.fin true 61440 0).val = -61440 := by
  refine ⟨by decide, by decide, ?_, ?_, ?_, ?_⟩ <;> norm_num [FloatRow.val, FloatRow.neg, Num.val]

/-- R244, R243: the manual's values in e5m2: 61,439 rounds to 57,344 and 61,440 to infinity; 1.125, a tie, goes to the even 1. -/
theorem test_round_e5m2 : roundNE 8 (.fin false 61439 0) = 0x7B ∧ roundNE 8 (.fin true 61440 0) = 0xFC ∧ roundNE 8 (.fin false 9 (-3)) = 0x3C ∧
    roundNE 8 (.fin false 11 (-3)) = 0x3E := by
  decide

/-- R223, R231: bf16: 1 + 2^−8, a tie, is 1; 1 − 1 · 1.0078125 is −2^−7; infinity less infinity is the canonical NaN. -/
theorem test_bf16_lanes :
    elemOf (zipElems 2 (arith (· + ·) Machine.Num.add 9) 0x3F80 0x3B80) 2 0 = 0x3F80 ∧ fmaElem true 9 0x3F80 0x3F80 0x3F81 = 0xBC00 ∧
    elemOf (zipElems 2 (arith (· - ·) Machine.Num.sub 9) 0x7F80 0x7F80) 2 0 = 0x7FC0 := by
  decide

/-- int8: 0x80 and 0x7F. Their saturated difference, −128 − 127, is −128; the least is 0x80; |−128| is 0x80; −128 shifted right by
9 is −1. -/
theorem test_int8_lanes :
    elemOf (zipElems 1 (fun p q => wrapTo 2 (clampInt 2 (intOf 2 p - intOf 2 q))) 0x80 0x7F) 1 0 = 0x80 ∧
    elemOf (zipElems 1 (minMax false 2) 0x80 0x7F) 1 0 = 0x80 ∧ elemOf (zipElems 1 (fun _ q => vabsElem 2 q) 0 0x80) 1 0 = 0x80 ∧
    elemOf (zipElems 1 (shrElem 2) 0x80 0x09) 1 0 = 0xFF := by
  decide

/-- Eight predicates from p0 on are the most a block may use: p7 takes one register, and two are too many. -/
theorem witness_VectorCompare :
    (VectorReady (mv 11 0 0 7) ⟨[8, 16], []⟩ ∧ realTy 11 = true ∧ bits (mv 11 0 0 7).cur.vaux 2 0 + 1 ≤ 8 ∧
      0 < 1 ∧ bits (mv 11 0 0 7).cur.vaux 2 0 + 0 ≠ 0) ∧
    (bits (mv 11 0 0 7).cur.vaux 6 4 ≠ 7 ∧ bits (mv 11 0 0 0x70).cur.vaux 6 4 = 7 ∧ HasHandler (mv 11 0 0 0x70)) ∧
    (8 < bits (mv 11 0 0 7).cur.vaux 2 0 + 2 ∧ kindOf (mv 11 0 0 7).who = 0 ∧ HasHandler (mv 11 0 0 7)) ∧
    realTy (bits (mv 14 0 0 0).cur.vtype 4 0) = false := by
  refine ⟨⟨ready_free _ _ rfl (by decide) rfl (by decide), by decide⟩, by unfold HasHandler; decide⟩

theorem witness_VectorSelectConvert :
    (bits (mv 11 17 4 7).cur.vaux 2 0 + 1 ≤ 8 ∧ 8 < bits (mv 11 17 4 7).cur.vaux 2 0 + 2 ∧ kindOf (mv 11 17 4 7).who = 0 ∧
      VectorReady (mv 11 17 4 7) ⟨[16, 8], [8]⟩) ∧
    (HasHandler (mv 11 17 4 7) ∧ permTy 6 = false ∧ permTy 7 = true ∧ cplxTy 15 = true ∧ cplxTy 11 = false) ∧
    (cvtOk 17 11 = true ∧ bits (mv 11 17 4 0).cur.vtype 9 5 = 17 ∧ bits (mv 11 17 4 0).cur.vtype 4 0 = 11 ∧
      VectorReady (mv 11 17 4 0) ⟨[16], [8]⟩) :=
  ⟨⟨by decide, by decide, rfl, ready_free _ _ rfl (by decide) rfl (by decide)⟩, by unfold HasHandler; decide, by decide, by decide, by decide,
    ready_free _ _ rfl (by decide) rfl (by decide)⟩

theorem witness_VectorFused :
    (realTy 11 = true ∧ VectorReady (mv 11 0 0 0) ⟨[16] ++ [24] ++ [8], [8]⟩) ∧
    (cplxTy 14 = true ∧ VectorReady (mv 14 0 0 0) ⟨[16] ++ [24] ++ [8], [8]⟩) ∧
    (realTy 14 = false ∧ cplxTy 11 = false ∧ HasHandler (mv 11 0 0 0)) :=
  ⟨⟨by decide, ready_free _ _ rfl (by decide) rfl (by decide)⟩, ⟨by decide, ready_free _ _ rfl (by decide) rfl (by decide)⟩,
    by unfold HasHandler; decide⟩

def isVals : Loads → Bool
  | .vals _ _ => true
  | _ => false

/-- MisalignedForms for `vld`, `vst` and lanes: the first address misaligned, and a second one that no check passes. -/
theorem witness_MisalignedForms_vector :
    VectorReady m0 ⟨[], [8, 9]⟩ ∧ VectorReady m0 ⟨[8, 9], []⟩ ∧ VectorReady m0 ⟨[16], [8]⟩ ∧ VectorReady m0 ⟨[8, 16], []⟩ ∧
    (∀ k ∈ [0, 1], (sl 1).toNat % 32 ≠ 0 ∧ (passes (landAll m0 32 k []) fun _ => true) = true ∧ (sl 0x40000).toNat % 32 = 0 ∧
      (passes (landAll m0 32 k [sl 0x3FFE0 - 0x34000]) fun p => fails (land p.2 0 (vaOf m0 (sl 0x40000)) k) fun _ => true) = true) :=
  ⟨ready_free _ _ rfl (by decide) rfl (by decide), ready_free _ _ rfl (by decide) rfl (by decide),
    ready_free _ _ rfl (by decide) rfl (by decide), ready_free _ _ rfl (by decide) rfl (by decide), by decide⟩

/-- VectorMemory: the first and the last 32 bytes of the slice (of a home's plain part, for a store), and lanes of one, two, four and eight bytes. -/
theorem witness_VectorMemory :
    m0.cur.buf.length < 16 ∧ 16 ≤ mFull.cur.buf.length ∧ VectorReady mFull ⟨[8, 9], []⟩ ∧ VectorReady mFull ⟨[8, 16], []⟩ ∧
    (passes (landAll mFull 32 1 [sl 0, sl 32]) fun _ => true) ∧ (passes (landAll mFull 8 1 (List.replicate 4 (sl 64))) fun _ => true) ∧
    VectorReady m0 ⟨[], [8, 9]⟩ ∧ VectorReady m0 ⟨[8, 9], []⟩ ∧ VectorReady m0 ⟨[16], [8]⟩ ∧ VectorReady m0 ⟨[8, 16], []⟩ ∧
    (passes (landAll m0 32 0 [sl 0, sl (2 ^ 18 - 32)]) fun p => isVals (loadAll p.2 32 p.1)) ∧
    (passes (landAll m0 32 1 [sl 0, sl (0xC000 - 32)]) fun p => p.1.all fun q => !pageHeld m0 0 q.2) ∧
    ∀ n ∈ [1, 2, 4, 8], (passes (landAll m0 n 0 (List.replicate (32 / n) (sl 64))) fun p => isVals (loadAll p.2 n p.1)) ∧
      (passes (landAll m0 n 1 (List.replicate (32 / n) (sl 64))) fun p => p.1.all fun q => !pageHeld m0 0 q.2) :=
  ⟨by decide, by decide, ready_free _ _ rfl (by decide) rfl (by decide), ready_free _ _ rfl (by decide) rfl (by decide),
    by decide, by decide, ready_free _ _ rfl (by decide) rfl (by decide), ready_free _ _ rfl (by decide) rfl (by decide),
    ready_free _ _ rfl (by decide) rfl (by decide), ready_free _ _ rfl (by decide) rfl (by decide), by decide, by decide, by decide⟩

/-- VectorMemory: the second register's line, and the third lane's, is poisoned or lost. -/
theorem witness_VectorMemory_bad :
    HasHandler mPoisoned ∧ HasHandler mLost ∧ VectorReady mPoisoned ⟨[], [8, 9]⟩ ∧ VectorReady mPoisoned ⟨[16], [8]⟩ ∧
    VectorReady mLost ⟨[], [8, 9]⟩ ∧
    (passes (landAll mPoisoned 32 0 [sl 32, sl 64]) fun p => isVals (loadAll p.2 32 (p.1.take 1)) && (p.1[1]?).any fun q =>
      decide (ownIs p.2 q.2 32 = some [] ∧ (serveRead p.2 q.2.loc 32).1 = 1)) ∧
    (passes (landAll mPoisoned 8 0 [sl 0, sl 8, sl 64, sl 0]) fun p => isVals (loadAll p.2 8 (p.1.take 2)) && (p.1[2]?).any fun q =>
      decide (ownIs p.2 q.2 8 = some [] ∧ (serveRead p.2 q.2.loc 8).1 = 1)) ∧
    (passes (landAll mLost 32 0 [0x10000, 0x10020]) fun p => (p.1[0]?).any fun q =>
      decide (ownIs p.2 q.2 32 = some [] ∧ farWaits p.2 q.2.loc = false ∧ (serveRead p.2 q.2.loc 32).1 = 2)) :=
  ⟨by unfold HasHandler; decide, by unfold HasHandler; decide, ready_free _ _ rfl (by decide) rfl (by decide),
    ready_free _ _ rfl (by decide) rfl (by decide), ready_free _ _ rfl (by decide) rfl (by decide), by decide, by decide, by decide⟩

/-- A core with a copy failure on channel 1 (cause 001) and an axis failure of another cause. -/
def mErr : State := { m0 with cores := [(0, {
  cpyerr := #v[0, 0x8800000000000001, 0, 0]
  axerr := 0x9000000000000001 })] }

theorem witness_CsrReads :
    (Calm [0, 1, 2, 3] me ∧ (readTrap me 0x0F0).isNone) ∧ (Calm [0] m0 ∧ (readTrap m0 0x0E8).isNone) := by
  unfold Calm Quiet; decide

theorem witness_CsrReads_done :
    (Calm [0] mErr ∧ HasHandler mErr ∧ bits (myCore mErr).cpyerr[1] 63 63 = 1 ∧ bits (myCore mErr).cpyerr[1] 61 59 = 1 ∧
      bits (myCore mErr).axerr 63 63 = 1) ∧
    (bits (myCore m0).cpyerr[3] 63 63 = 0 ∧ bits (myCore m0).axerr 63 63 = 0) := by
  unfold Calm Quiet HasHandler; decide

/-- CsrWrites: a register that any context may write, one for system software only, and a value that the register refuses
(element type 22) beside the last that it takes (21). -/
theorem witness_CsrWrites :
    Calm [0] m0 ∧ HasHandler m0 ∧ mayWrite false 0x045 = true ∧ mayWrite false 0x082 = false ∧ mayWrite true 0x0C9 = true ∧
    mayWrite false 0x0C9 = false ∧ (ownCheck m0 0x080 21).isNone ∧ (ownCheck m0 0x080 22).isSome ∧
    ∀ n ∈ [0x0C4, 0x0E4, 0x0E7, 0x0E9, 0x0F2, 0x0D8, 0x0DF, 0x0CA, 0x080, 0x083, 0x086, 0x087, 0x090, 0x0C1, 0x0C5, 0x136],
      mayWrite true n = true ∧ (ownCheck m0 n (mergeCsr n (csrVal m0 n) (csrVal m0 n) true)).isNone := by
  unfold Calm Quiet HasHandler; decide

/-- HostRegisterWrites: the last queue, its size at 20 and 21, a tail at and beyond its ring, caps at their bounds. -/
theorem witness_HostRegisterWrites :
    (m0.posted = [] ∧ m0.hostWaits = [] ∧ m0.pstate ≠ 3 ∧ m0.pstate ≠ 4 ∧ m0.recovering = false) ∧
    ({ m0 with pstate := 4 } : State).pstate = 4 ∧ ({ m0 with pstate := 3 } : State).pstate = 3 ∧
    ({ m0 with recovering := true } : State).recovering = true ∧ 15 < 16 ∧ bits (20 : Word) 4 0 ≤ 20 ∧ 20 < bits (21 : Word) 4 0 ∧
    (bits (1 : Word) 31 0 + 2 ^ 32 - bits m0.dev.lqhead[15] 31 0) % 2 ^ 32 ≤ 2 ^ bits m0.dev.lqbase[15] 4 0 ∧
    (bits (2 : Word) 31 0 + 2 ^ 32 - bits m0.dev.lqhead[15] 31 0) % 2 ^ 32 > 2 ^ bits m0.dev.lqbase[15] 4 0 ∧
    1200 ≤ bits (1200 : Word) 11 0 ∧ bits (3600 : Word) 11 0 ≤ 3600 ∧ bits (1199 : Word) 11 0 < 1200 ∧
    3600 < bits (3601 : Word) 11 0 := by
  decide

/-- A trap with TVEC = 0, and one inside a handler. -/
def mBare (tv st : Word) : State := mc fun c => { c with
  tvec := tv
  tstatus := st }

theorem witness_TrapAndReturn :
    (Calm [0] m0 ∧ HasHandler m0) ∧
    (Calm [0] (mBare 0 0) ∧ (mBare 0 0).cur.tvec = 0 ∧ isEngine (mBare 0 0).who = false ∧
      (regionOf (mBare 0 0) (coreOf (mBare 0 0).who)).isSome = true) ∧
    (Calm [0] (mBare 0x200 1) ∧ bits (mBare 0x200 1).cur.tstatus 0 0 = 1 ∧ isEngine (mBare 0x200 1).who = false ∧
      (regionOf (mBare 0x200 1) (coreOf (mBare 0x200 1).who)).isSome = true) := by
  unfold Calm Quiet HasHandler; decide

/-- A load of latency 3 into s5, two slots ago. -/
def mShort : State := mc fun c => { c with
  issuectl := 1
  board := [{ cls := 0, reg := 5, lat := 3, dist := 3 }] }

/-- The same with checking off, one cycle before the result stands. -/
def mShortOff : State := mc fun c => { c with board := [{ cls := 0, reg := 5, lat := 3, dist := 3, till := 1 }] }

theorem witness_StallShort :
    (kindOf mShort.who = 0 ∧ HasHandler mShort ∧ bits mShort.cur.issuectl 0 0 = 1 ∧ mShort.cur.loads = [] ∧
      ∃ p ∈ mShort.cur.board, p.cls = 0 ∧ p.reg = (5 : BitVec 5).toNat ∧ p.dist < p.lat + 1) ∧
    ({ mShort with cur := { mShort.cur with loads := [slot0 0] } } : State).cur.loads ≠ [] ∧
    (kindOf mShortOff.who = 0 ∧ HasHandler mShortOff ∧ bits mShortOff.cur.issuectl 0 0 = 0 ∧
      ∃ p ∈ mShortOff.cur.board, p.cls = 0 ∧ p.reg = (5 : BitVec 5).toNat ∧ p.dist < p.lat + 1 ∧ cycleNow mShortOff < p.till) := by
  unfold HasHandler; decide

/-- A register of class u.1 and number u.2 whose producer is too near, for the type int32. -/
def mShortAt (chk : Word) (u : Nat × Nat) : State := mc fun c => { c with
  issuectl := chk
  vtype := 17
  board := [{ cls := u.1, reg := u.2, lat := 3, dist := 3, till := 1 }] }

/-- StallShort: a scalar, a vector and a predicate register short, with checking on and off. -/
theorem short_at (chk : Word) (u : Nat × Nat) : Short (mShortAt chk u) [u] :=
  ⟨{ cls := u.1, reg := u.2, lat := 3, dist := 3, till := 1 }, List.mem_singleton.2 rfl, List.mem_singleton.2 rfl, by show 3 < 3 + 1; decide,
    fun _ => by show cycleNow m0 < 1; decide⟩

theorem witness_StallShort_uses : Short (mShortAt 1 (0, 31)) [(0, 31)] ∧ Short (mShortAt 1 (1, 63)) [(1, 63)] ∧
    Short (mShortAt 0 (2, 7)) [(2, 7)] ∧ (kindOf (mShortAt 1 (1, 63)).who = 0 ∧ (mShortAt 1 (1, 63)).cur.loads = []) ∧
    (HasHandler (mShortAt 1 (1, 63)) ∧ bits (mShortAt 1 (1, 63)).cur.sterr 63 63 = 0) ∧
    (bits (mShortAt 1 (1, 63)).cur.issuectl 0 0 = 1 ∧ bits (mShortAt 0 (2, 7)).cur.issuectl 0 0 = 0) :=
  ⟨short_at 1 _, short_at 1 _, short_at 0 _, by decide, by unfold HasHandler; decide, by decide⟩

/-- The conditions of its vector forms, whose registers no stream takes, and of its predicates: eight from p0. -/
theorem witness_StallShort_vector :
    realTy (bits (mShortAt 1 (1, 63)).cur.vtype 4 0) = true ∧ bits (mShortAt 1 (1, 63)).cur.vaux 6 4 ≠ 7 ∧
    bits (mShortAt 1 (1, 63)).cur.vaux 2 0 + 8 ≤ 8 ∧ wrongWay (mShortAt 1 (1, 63)).cur ⟨blockRegs 54 2 2, blockRegs 54 2 2⟩ = false := by
  decide

/-- Scoreboard: a focus in which no register is short, with an old result pending for a register that the instruction does not use; for
vectors, no stream and a free datapath; a span that it skips and one that it executes. -/
theorem witness_Scoreboard :
    kindOf mShort.who = 0 ∧ mShort.cur.board ≠ [] ∧ ¬Short mShort [(0, 6), (0, 7), (0, 8)] ∧ ¬Short mShort (([8, 16] : List (BitVec 6)).map fun r => (1, r.toNat)) ∧
    (wrongWay mShort.cur ⟨[16, 8], [8]⟩ = false ∧ (streamCheck mShort.cur ⟨[16, 8], [8]⟩).isNone ∧ datapathBusy mShort = false) ∧
    (realTy (bits (mv 11 17 4 7).cur.vtype 4 0) = true ∧ cvtOk 17 11 = true ∧ cplxTy (bits (mv 14 0 0 0).cur.vtype 4 0) = true) ∧
    ((spanRun (mCode [0, 0, 0, 0x10] (mt team0)) (sl 0) 1).2.1.isNone ∧ badSpan true [0x1000] = false ∧ inMask (mt team0) 2 = true ∧
      inMask (mt team0) 4 = false ∧ (spanRun (mCode [0, 0, 0, 0x10] (mt team0)) (sl 0) 1).2.2.cur = (mCode [0, 0, 0, 0x10] (mt team0)).cur) := by
  unfold Short; decide

/-- R216, R217: `mul s5, s6, s7 !2` leaves nothing pending; without the stall count its result, of latency 2, is pending at distance 1. -/
theorem test_mul_pends :
    (nextIs (exec (.mul 5 6 7 0) m0) fun t => decide (t.cur.board = [⟨0, 5, 2, 1, 3⟩] ∧ t.cur.busyTill = 1)) ∧
    (nextIs (exec (.mul 5 6 7 2) m0) fun t => decide (t.cur.board = [] ∧ t.cur.busyTill = 3)) := by
  decide

/-- A short result of a branch's operand, with checking on. -/
theorem test_short_branch : nextIs (exec (.brEq 5 6 8 0) (mShortAt 1 (0, 6))) fun t => decide (t.cur.cause = 0x0704) := by
  decide

/-- An engine member of no team, its core in no region. -/
def meAlone : State := { me with clusters := [] }

/-- The same member in a team, whose lead is core 0 or which has no core member left. -/
def meTeam (t : Team) : State := { mt t with who := 32769 }
def team0err : Team := { team0 with err := 0x8840000000000000 }
def teamLast : Team := { team0 with members := [{ agent := 0, ended := true }, { agent := 32769 }] }

theorem witness_RoleKind :
    (isEngine meAlone.who = true ∧ kindOf meAlone.who ≠ 0 ∧ teamOf meAlone meAlone.who = none) ∧
    (teamOf (meTeam team0) 32769 = some team0 ∧ leadOf team0 = some 0 ∧ bits team0.err 63 63 = 0) ∧
    (teamOf (meTeam team0err) 32769 = some team0err ∧ leadOf team0err = some 0 ∧ bits team0err.err 63 63 = 1) ∧
    (teamOf (meTeam teamLast) 32769 = some teamLast ∧ leadOf teamLast = none ∧
      regionOf (meTeam teamLast) (coreOf 32769) = some (4096, 0)) ∧
    (∀ k ∈ [1, 2, 3], roleWithheld (.vadd 0 0 0 0 0) k = true ∧ roleWithheld (.amoAddD 0 0 0 0 0) k = true ∧
      roleWithheld (.wait 0 0 0 0 0) k = true ∧ roleWithheld (.spawn 0 0 0) k = true ∧ roleWithheld (.csrr 0 0x0F2 0) k = true) ∧
    roleWithheld (.cpy 0 0 0) 2 = true ∧ roleWithheld (.axap 0 0 0 0) 1 = true ∧ roleWithheld (.remap 0 0 0 0) 2 = true ∧
    roleWithheld (.cpywait 0 0) 3 = true := by
  decide

/-- A transfer unit's member issues an apply. -/
theorem test_role_kind_axis : nextIs (exec (.axap 5 3 4 0) (meTeam team0)) fun t => decide (t.cur.run = .halted ∧
    (teamOf t 32769).map (·.err) = some 0x8841000000000000) := by
  decide

/-- An engine member's load halts it at the load: ROLE_KIND, its tile's place and its kind stand in `TEAMERR`. -/
theorem test_role_kind : nextIs (exec (.ldD 5 3 0 0) (meTeam team0)) fun t => decide (t.cur.run = .halted ∧
    (teamOf t 32769).map (·.err) = some 0x8841000000000000) := by
  decide

/-- A store of the focus in its buffer. -/
def mBuf : State := mc fun c => { c with buf := [{ loc := sliceLoc 0 0, body := .store [1] false, chan := 2 }] }

theorem witness_FenceForms :
    (Calm [0] mFail ∧ bits mFail.cur.sterr 63 63 = 1 ∧ HasHandler mFail) ∧
    (Calm [0] m0 ∧ bits m0.cur.sterr 63 63 ≠ 1 ∧ (∀ c ∈ [3, 4, 5], fullBlocked m0 0 c = false) ∧ releaseBlocked m0 0 3 = false ∧
      unacked m0 0 isStore = false) ∧
    (Calm [0] mBuf ∧ bits mBuf.cur.sterr 63 63 ≠ 1 ∧ (∀ c ∈ [3, 4, 5], fullBlocked mBuf 0 c = true) ∧ releaseBlocked mBuf 0 3 = true ∧
      releaseBlocked mBuf 0 4 = true ∧ unacked mBuf 0 isStore = true) := by
  unfold Calm Quiet HasHandler; decide

/-- System software. -/
def mSys : State := mc fun c => { c with tstatus := 2 }

theorem witness_TlbInvalidate :
    Calm [0] m0 ∧ pending m0 0 isStoreOrSend = false ∧ HasHandler m0 ∧
    (bits (0 : Word) 63 12 = 0 ∧ bits (0 : Word) 11 0 = bits m0.cur.troot 63 52) ∧
    (bits (0xFFF : Word) 63 12 = 0 ∧ bits m0.cur.tstatus 1 1 = 0 ∧ bits (0xFFF : Word) 11 0 ≠ bits m0.cur.troot 63 52) ∧
    (bits mSys.cur.tstatus 1 1 = 1 ∧ pending mSys 0 isStoreOrSend = false ∧ Calm [0] mSys) ∧
    (bits (0x1000 : Word) 63 12 ≠ 0 ∧ (1 : BitVec 5) ≠ 0) ∧
    (let s := { mBuf with cur := { mBuf.cur with tstatus := 2 } }
     pending s 0 isStoreOrSend = true ∧ bits s.cur.tstatus 1 1 = 1 ∧ Calm [0] s) := by
  unfold Calm Quiet HasHandler; decide

/-- How a `wait` reads n bytes at an address: its value, 1 more of host memory, with the home. -/
def waitRead (s : State) (e : Word) (n : Nat) (p : Option (List Byte) → Option Nat → Bool) : Bool :=
  passes (checkAccess s 0 e n 0) fun l => match loadBytes l.st 0 l n with
    | .val b => p (some b) (homeAt s l.loc)
    | .host => p none (homeAt s l.loc)
    | _ => false

/-- The table at 0x20000 names itself at every level, and the page at 0x10000 is frame 0x30000; the access table lies in the far tier. -/
def mWalk : State :=
  let s := writeNat (writeNat (mc fun c => { c with troot := 0x20000 }) 0x20000 16 0x20001) 0x20010 16 0x3001E
  mFar { s with dev := { s.dev with mtab := 0x100000000000 } }

/-- WaitForms: a hint that a walk answers waits for the access table behind a link that is down. -/
theorem witness_WaitForms_far : hintWaits mWalk 0 mWalk.cur.troot (vaOf mWalk 0x10000) = true ∧ Calm [0] mWalk := by
  unfold Calm Quiet; decide

/-- A store of the focus to host memory, in its buffer. -/
def mBufHost : State :=
  let s := mFrame (2 ^ 51)
  { s with cur := { s.cur with buf := [{ loc := 2 ^ 51, body := .store (List.replicate 8 0) false }] } }

/-- WaitForms: the word is 0 and condition 1 (equal) holds against 0 and not against 1; in the slice, in the far tier, in
host memory, its own buffered store there or not. A hint in the slice, one with no translation, and one with. -/
theorem witness_WaitForms :
    Calm [0] m0 ∧ Calm [0] (mFrame (2 ^ 44)) ∧
    (∀ n ∈ [4, 8], waitRead m0 (sl 64) n (fun b h => decide (b = some (List.replicate n 0) ∧ h ≠ some 24)) = true ∧
      waitRead (mFrame (2 ^ 44)) 0x10000 n (fun b h => decide (b = some (List.replicate n 0) ∧ h = some 24)) = true ∧
      waitRead (mFrame (2 ^ 51)) 0x10000 n (fun b _ => b.isNone) = true ∧
      waitRead mBufHost 0x10000 n (fun b h => decide (b = some (List.replicate n 0) ∧ h = some 25)) = true ∧
      waitCond 1 (8 * n) 0 0 = true ∧ waitCond 1 (8 * n) 0 1 = false) ∧
    isSliceVA (vaOf m0 (sl 64)) = true ∧ isSliceVA (vaOf m0 0x10000) = false ∧
    (hintLeaf m0 0 m0.cur.troot (vaOf m0 0x10000)).isNone ∧
    hintWaits (mFrame 0x20000) 0 0 (vaOf (mFrame 0x20000) 0x10000) = false ∧
    (hintLeaf (mFrame 0x20000) 0 0 (vaOf (mFrame 0x20000) 0x10000)).any (fun r => decide (r.1.frame = 0x20000)) = true := by
  unfold Calm Quiet; decide

/-- R128: a `wait` on host memory that its own buffered store answers holds no monitor, and reads again 1,024 cycles later. -/
theorem test_wait_own_host : nextIs (exec (.wait 3 0 0 1 0) (wr mBufHost 3 0x10000)) fun t =>
    decide (t.monitors = [] ∧ t.cur.wait = .poll 1024 0x10000 0 0 1 0) := by
  decide

theorem test_wait_sleeps : nextIs (exec (.wait 3 0 0 1 0) (m [(3, sl 64)])) fun t =>
    decide (t.monitors = [(sliceLoc 0 64 / 64, 0)] ∧ t.cur.wait = .monitor (sliceLoc 0 64 / 64) false (sl 64) 0 0 1 0 ∧
      t.cur.pc = m0.cur.pc) := by
  decide

theorem test_pf_counts : nextIs (exec (.pf 3 1 0) (wr (mFrame 0x20000) 3 0x10040)) fun t =>
    decide ((mapGet {} t.hot 0x20000).total = 1 ∧ t.cur.pc = sl 4) := by
  decide

theorem witness_WaitForms_pause :
    Calm [0] m0 ∧ NoLoop m0.cur ∧ HasHandler m0 ∧ rd m0 0 = 0 ∧
    (rd (m [(1, 1)]) 1 ≠ 0 ∧ wakes (m [(1, 1)]) 0 1 false = false ∧ wakes { m [(1, 1)] with stamp := 1 } 0 1 false = true) := by
  unfold Calm Quiet NoLoop HasHandler; decide

/-- R354: `pause` with k = 0, issued in cycle 0: its context is not ready for the 16 cycles from 1 to 16. -/
theorem test_pause : nextIs (exec (.pause 0 0) m0) fun t => decide (t.cur.wait = .pause 17) := by
  decide

/-- A record waits in core 0's high inbox, or 16 in its deque. -/
def mInbox : State := (accept m0 0 true { cls := 3 }).getD m0
def mDeque : State := writeNat m0 (homeLoc 0 0xD428) 8 16

theorem witness_TaskForms :
    Calm [0] m0 ∧ HasHandler m0 ∧ teamOf m0 m0.who = none ∧ (myTeam (mt team0)).isSome ∧ Calm [0] (mt team0) ∧
    HasHandler (mt team0) ∧ bits (0xFF : Word) 63 8 = 0 ∧ bits (0x100 : Word) 63 8 ≠ 0 ∧
    dqBottom m0 0 - dqTop m0 0 < 16 ∧ ¬(dqBottom mDeque 0 - dqTop mDeque 0 < 16) ∧
    (myTeam m0).isNone ∧ (nextChoice m0 0 false).isNone ∧ (myTeam mInbox).isNone ∧ (nextChoice mInbox 0 false).isSome ∧ Calm [0] mInbox ∧
    (bits (0x7FFFFFFF0001FFFF : Word) 31 17 = 0 ∧ 0 < bits (0x100000000 : Word) 63 32 ∧
      bits (0x7FFFFFFF0001FFFF : Word) 63 32 < 2 ^ 31) ∧
    (bits (0x100020000 : Word) 31 17 ≠ 0 ∧ bits (0x1FFFF : Word) 63 32 = 0 ∧ 2 ^ 31 ≤ bits (0x8000000000000000 : Word) 63 32) := by
  unfold Calm Quiet HasHandler; decide

/-- BarrierForms: barrier 2047, a barrier of the core's own region and one of core 64, outside it. -/
theorem witness_BarrierForms :
    Calm [0] m0 ∧ HasHandler m0 ∧ bits (0x7FF : Word) 63 11 = 0 ∧ (1 : Word) ≠ 0 ∧ bits (0xFFFF : Word) 63 16 = 0 ∧
    (bits (0x3F07FF : Word) 63 30 = 0 ∧ bits (0x3F07FF : Word) 15 11 = 0 ∧ inMyRegion m0 (bits (0x3F07FF : Word) 29 16) = true ∧
      releaseBlocked m0 0 4 = false) ∧
    (bits (0x4007FF : Word) 63 30 = 0 ∧ inMyRegion m0 (bits (0x4007FF : Word) 29 16) = false) ∧
    (bits (1 : Word) 63 1 = 0 ∧ (getBar m0 0 2047).ph ≠ true ∧ (getBar m0 0 2047).ph = false) ∧
    (bits (0x800007FF : Word) 63 32 = 0 ∧ bits (0x800007FF : Word) 15 11 = 0 ∧ bits (0x800007FF : Word) 31 31 = 1 ∧
      inMyRegion m0 (bits (0x800007FF : Word) 29 16) = true ∧ bits (0x7FF : Word) 31 31 = 0) ∧
    (bits (0x800 : Word) 63 11 ≠ 0 ∧ bits (0x10000 : Word) 63 16 ≠ 0 ∧ bits (0x40000000 : Word) 63 30 ≠ 0 ∧ bits (0x800 : Word) 15 11 ≠ 0 ∧
      bits (2 : Word) 63 1 ≠ 0 ∧ bits (0x100000000 : Word) 63 32 ≠ 0) ∧
    (bits (0x80400000 : Word) 63 32 = 0 ∧ bits (0x80400000 : Word) 15 11 = 0 ∧ bits (0x80400000 : Word) 31 31 = 1 ∧
      inMyRegion m0 (bits (0x80400000 : Word) 29 16) = false) ∧
    (inMyRegion mHeld (bits (0x3F07FF : Word) 29 16) = true ∧ releaseBlocked mHeld 0 4 = true ∧ Calm [0] mHeld) := by
  unfold Calm Quiet HasHandler; decide

/-- A team of cores 0 and 1 that share role 1, and what else the clauses ask for. -/
def team2 : Team := {
  members := [{ agent := 0 }, { agent := 2 }]
  binds := [(1, 0, 1), (2, 0, 2)] }
def solo : Team := { members := [{ agent := 0 }] }

def team2late : Team := { team2 with members := [{ agent := 0, marks := 4 }, { agent := 2 }] }
def team2full : Team := { team2 with stagedAt := [(1, 1)] }
def team2due : Team := { team2full with members := [{ agent := 0 }, { agent := 2, atMark := true }] }
def hand0 : HandBuf := { snd := 2, rcv := 0, value := 7, pc := sl 0 }
def team2hand : Team := { team2 with bufs := [hand0] }
def team2re : Team := { team2 with members := [{ agent := 0 }, { agent := 2, realign := some (sl 0) }] }
def mSpan : State := { mt team2 with cur := { m0.cur with span := 2 } }

theorem witness_TeamForms :
    (Calm [0] m0 ∧ HasHandler m0 ∧ (myTeam m0).isNone) ∧
    (myTeam (mt team2) = some (team2, { agent := 0 }) ∧ Calm [0, 1, 2, 3] (mt team2) ∧ leadFault team2 0 = false) ∧
    (bits (0x17 : Word) 63 6 = 0 ∧ bits (0x17 : Word) 3 3 = 0 ∧ 0xFFFF < 2 ^ 16 ∧
      ∀ k ∈ List.range 64, (3 : Nat).testBit k = true → (team2.members.any fun o => o.agent = 2 * k && !o.ended) = true) ∧
    (bits (0x40 : Word) 63 6 ≠ 0 ∧ bits (0x8 : Word) 3 3 ≠ 0 ∧ bits (0x10 : Word) 5 4 ≠ 0 ∧ HasHandler (mt team2) ∧ (4 : Nat).testBit 2 = true ∧
      ∀ o ∈ team2.members, o.agent = 2 * (64 * clusterOf 0 + 2) → o.ended = true) ∧
    ((mt team2).cur.span = 0 ∧ fullMark team2 1 = false ∧ ∀ o ∈ [({ agent := 2 } : Member)], 1 ≤ o.marks + team2.d) ∧
    (myTeam (mt team2late) = some (team2late, { agent := 0, marks := 4 }) ∧ fullMark team2late 5 = false ∧
      0 + team2late.d < 5) ∧
    (myTeam (mt team2full) = some (team2full, { agent := 0 }) ∧ fullMark team2full 1 = true ∧
      ({ agent := 2 } : Member).atMark = false) ∧
    (myTeam (mt team2due) = some (team2due, { agent := 0 }) ∧ fullMark team2due 1 = true ∧
      ∀ o ∈ team2due.members.drop 1, o.atMark = true ∧ o.marks + 1 = 1) ∧
    (mSpan.cur.span ≠ 0 ∧ HasHandler mSpan ∧ (myTeam mSpan).isSome) := by
  unfold Calm Quiet HasHandler; decide

/-- A team of cores 0 to 2 in which core 1 sends as role 1 (to core 2) and receives as role 2 (from core 0), and core 1 in it. -/
def team3 : Team := {
  members := [{ agent := 0 }, { agent := 2 }, { agent := 4 }]
  binds := [(1, 0, 3), (2, 0, 6)] }
def mt3 (t : Team) (st : Word) : State := { mt t with
  who := 2
  cur := { m0.cur with tstatus := st } }
def hand3 (pc : Word) : HandBuf := { snd := 0, rcv := 2, value := 7, pc := pc }
def team3with (l : List HandBuf) : Team := { team3 with bufs := l }
def team3over : Team := { team3 with members := [{ agent := 0, ended := true }, { agent := 2 }, { agent := 4 }] }
def team2err : Team := { team2 with err := 0x8840000000000000 }

/-- The team stands in cluster 0's table, its fault is not core 1's to report, and core 1 sends to core 2 and receives from
core 0. -/
def holdsBoth (t : Team) (st : Word) : Bool :=
  let s := mt3 t st
  (myTeam s).any (fun q => q.2.agent = 2) && !leadFault t 2 && (rankOf t 1 2).bind (withRank t 2) = some 4 &&
    (rankOf t 2 2).bind (withRank t 1) = some 0 && getHsent s { agent := 2 } = decide (st = 4) && (bufOf t 2 4).isNone &&
    !pending s 2 isStoreOrSend

/-- What the clauses on a member that holds both roles, HAND_ORDER and TEAM_FAULT ask for. -/
theorem witness_TeamForms_both : holdsBoth team3 0 = true ∧ holdsBoth team3 4 = true ∧
    holdsBoth (team3with [hand3 (sl 0)]) 0 = true ∧ holdsBoth (team3with [hand3 (sl 0)]) 4 = true ∧
    holdsBoth (team3with [hand3 (sl 4)]) 0 = true ∧ holdsBoth (team3with [hand3 (sl 4)]) 4 = true ∧
    holdsBoth team3over 0 = true ∧ holdsBoth team3over 4 = true := by
  decide

theorem witness_TeamForms_order :
    Calm [0, 1, 2, 3] (mt3 team3 0) ∧ HasHandler (mt3 team3 0) ∧ Calm [0, 1, 2, 3] (mt3 team3 4) ∧ HasHandler (mt3 team3 4) ∧
    (bufOf team3 0 2 = none ∧ (findMember team3 0).any (·.ended) = false) ∧ (findMember team3over 0).any (·.ended) = true ∧
    bufOf (team3with [hand3 (sl 0)]) 0 2 = some (hand3 (sl 0)) ∧ bufOf (team3with [hand3 (sl 4)]) 0 2 = some (hand3 (sl 4)) ∧
    (mt3 team3 0).cur.pc = sl 0 ∧ sl 4 ≠ sl 0 := by
  unfold Calm Quiet HasHandler; decide

/-- A role without a partner; core 2, which only receives, from a partner that has sent nothing, has ended, or sent at another
`hand`; core 0, which only sends; a buffer that is full; and a lead with a fault to report. -/
theorem witness_TeamForms_faults :
    (let t : Team := { team3 with binds := [(1, 0, 3), (2, 0, 1)] }
     rankOf t 1 2 ≠ none ∧ (rankOf t 1 2).bind (withRank t 2) = none) ∧
    (rankOf team3 1 4 = none ∧ (rankOf team3 2 4).bind (withRank team3 1) = some 2 ∧ bufOf team3 2 4 = none ∧
      (findMember team3 2).any (·.ended) = false) ∧
    (rankOf team3 2 0 = none ∧ (rankOf team3 1 0).bind (withRank team3 2) = some 2) ∧
    bufOf (team3with [{ snd := 2, rcv := 4, value := 0, pc := 0 }]) 2 4 = some { snd := 2, rcv := 4, value := 0, pc := 0 } ∧
    (let t : Team := { team3 with members := [{ agent := 0 }, { agent := 2, ended := true }, { agent := 4 }] }
     (findMember t 2).any (·.ended) = true ∧ bufOf t 2 4 = none ∧ rankOf t 1 4 = none ∧ (rankOf t 2 4).bind (withRank t 1) = some 2) ∧
    leadFault team2err 0 = true ∧ (myTeam (mt team2err)).isSome = true := by
  decide

theorem witness_TeamForms_lead : Calm [0] (mt team2err) ∧ HasHandler (mt team2err) := by
  unfold Calm Quiet HasHandler; decide

/-- The member's partner left its value, at this `hand`: both halves complete in one step. -/
theorem test_hand_both : nextIs (exec (.hand 5 6 2 1 0) (wr (mt3 (team3with [hand3 (sl 0)]) 0) 5 9)) fun t =>
    decide (rd t 6 = 7 ∧ (teamOf t 2).map (·.bufs) = some [{ snd := 2, rcv := 4, value := 9, pc := sl 0 }] ∧ t.cur.pc = sl 4) := by
  decide

theorem witness_TeamForms_hand :
    (rankOf team2 3 0 = none ∧ rankOf team2 4 0 = none) ∧
    (rankOf team2 1 0 = some 0 ∧ withRank team2 2 0 = some 2 ∧ rankOf team2 2 0 = none ∧
      getHsent (mt team2) { agent := 0 } = false ∧ bufOf team2 0 2 = none ∧
      pending (mt team2) (asCtx 0) isStoreOrSend = false) ∧
    (myTeam (mt team2hand) = some (team2hand, { agent := 0 }) ∧ rankOf team2hand 3 0 = none ∧ rankOf team2hand 1 0 = some 0 ∧
      withRank team2hand 2 0 = some 2 ∧ bufOf team2hand 2 0 = some hand0 ∧ hand0.pc = (mt team2hand).cur.pc) ∧
    (myTeam (mt team2re) = some (team2re, { agent := 0 }) ∧ (mt team2re).cur.pc = sl 0) ∧
    (myTeam (mt solo) = some (solo, { agent := 0 }) ∧ unacked (mt solo) 0 isStoreOrSend = false ∧
      (solo.members.filter fun o => o.agent ≠ 0 && !o.ended) = []) := by
  decide

/-- A page of 64 KiB at virtual address 0x10000, in stack 0 (frame 0x20000), its leaf entry at 0x10000 and in core 0's TLB. -/
def mPage (e : Nat) (d : Die) : State := writeNat { m0 with
  cores := [(0, { tlb := [{
    tag := 0
    va := 0x10000
    log := 16
    frame := 0x20000
    r := true
    w := true
    x := true
    leaf := 0x10000
    movable := true
    rights := [(0x20000, 0x30000, true, true)] }] })]
  dies := [(0, d)] } 0x10000 16 e

def moving : Motion := { leaf := 0x10000, old := 0x2009E, src := 0x20000, dst := 0x1000000, log := 16, loc := 3 }

/-- Does the write translation of the page at 0x10000 satisfy p? -/
def onPage0 (s : State) (p : State → PageRef → Bool) : Bool :=
  passes (translate s 0 s.cur.troot 0x10000 1) fun r => p r.2 (pageRef r.2 r.1)

/-- Stack 12 (tier 1) has a free frame of 64 KiB. -/
def mFree12 (s : State) : State := writeNat { s with dev := { s.dev with mfree := 0x100000 } } (0x100000 + 32 * 24 + 16) 4 1

/-- PageForms: an `mreq` with eight outstanding, with a store in the buffer, or to an address that is misaligned or in a slice. -/
theorem witness_PageForms_mreq :
    Calm [0] (mc fun c => { c with mreqs := 8 }) ∧ 8 ≤ (mc fun c => { c with mreqs := 8 }).cur.mreqs ∧ Calm [0] mHeld ∧ mHeld.cur.buf ≠ [] ∧
    HasHandler m0 ∧ isSliceVA (vaOf m0 (sl 0)) = true ∧ isSliceVA (vaOf m0 0x10000) = false ∧ (0x10000 : Word).toNat % 64 = 0 ∧
    (0x10020 : Word).toNat % 64 ≠ 0 ∧ (0x10004 : Word).toNat % 8 ≠ 0 := by
  unfold Calm Quiet HasHandler; decide

/-- PageForms: a page that may not move; one that is in motion; one already there, by its stack or with stack 31; no free frame, and
a stack chosen; a stack in cache mode; a full queue and one with room (stack 11); a page that is Moving, and one that is not;
requests with room for the eighth. -/
theorem witness_PageForms :
    (let s := mPage 0x2009E {}
     Calm [0] s ∧ isSliceVA (vaOf (wr s 1 0x10000) (rd (wr s 1 0x10000) 1)) = false ∧ s.cur.mreqs < 8 ∧ s.cur.buf = [] ∧
      inFlight s 0 isAxstEntry = false ∧ (∀ k ∈ [0, 1], passes (land s 0 0x10000 k) fun l => (homeOf s l.loc).all (· ≤ 24) &&
        !pageHeld s 0 l) ∧ (0x10000 : Word).toNat % 64 = 0) ∧
    (onPage0 (mFree12 (mPage 0x2009E {})) fun s p => p.movable && decide (tierOf p.home ≠ 1) && !inMotion s p.frame &&
      decide (chooseStack s p 1 = some 12) && (queueMotion s p.home { moving with loc := 12 }).isSome) ∧
    (onPage0 (mFree12 (mPage 0x2009E {})) fun s _ => !ringsFar s && !pagerFar s 0) ∧
    (onPage0 (let s := mPage 0x2009E {}; mFar { s with dev := { s.dev with mfree := 0x100000000000 } }) fun s p => ringsFar s &&
      p.movable && !inMotion s p.frame && (chooseStack s p 1).isNone) ∧
    (onPage0 (mFar { mFree12 (mPage 0x2009E {}) with clusters := [(0, { region := some (2 ^ 44, 0) })] }) fun s p => pagerFar s 0 &&
      decide (chooseStack s p 1 = some 12)) ∧
    (onPage0 { mPage 0x2009E {} with cacheMode := 8 } fun s p => p.movable && s.cacheMode.getLsbD 3) ∧
    (onPage0 (mPage 0x2001E {}) fun _ p => !p.movable) ∧
    (onPage0 (mPage 0x2009E { queue := [moving] }) fun s p => p.movable && inMotion s p.frame) ∧
    (onPage0 (mPage 0x2009E {}) fun s p => p.movable && !inMotion s p.frame && decide (tierOf p.home = 0 ∧ p.home = 12 * 0 + 0)) ∧
    (onPage0 (mPage 0x2009E {}) fun s p => p.movable && decide (tierOf p.home ≠ 1) && (chooseStack s p 1).isNone) ∧
    (onPage0 (mPage 0x2009E {}) fun s p => p.movable && decide (p.home ≠ 11) && (queueMotion s p.home moving).isSome &&
      !s.cacheMode.getLsbD 11) ∧
    (onPage0 (mPage 0x2009E { queue := List.replicate 256 { moving with src := 0 } }) fun s p => p.movable &&
      !inMotion s p.frame && (queueMotion s p.home moving).isNone) ∧
    (onPage0 (mPage 0x2009E {}) fun s p => (movingIx s p.frame).isNone) ∧
    (onPage0 (mPage 0x2009E { active := [moving] }) fun s p => decide (movingIx s p.frame = some (0, 0))) ∧
    (passes (translate (mPage 0x2009E {}) 0 0 0x10000 0) fun r => let p := pageRef r.2 r.1
      decide (p.home < 25 ∧ p.log = 16 ∧ (mapGet {} r.2.hot p.frame).total < 2 ^ 16) && (pageMotion r.2 p).isNone) ∧
    (∀ f ∈ [false, true], passes (translate (mPage 0x2009E { active := [{ moving with cursor := 1023, forwarding := f }] }) 0 0 0x10000 0)
      fun r => (pageMotion r.2 (pageRef r.2 r.1)).any fun m => decide (m.forwarding = f ∧ m.cursor < 2 ^ 15)) := by
  unfold Calm Quiet; decide

/-- Headers: a record for core 3, REMOTE = 1, and one with a reserved bit set. -/
theorem witness_SendForms :
    Calm [0] m0 ∧ HasHandler m0 ∧ outstandingSends m0 0 < 16 ∧ m0.cur.buf.length < 16 ∧
    (bits (3 : Word) 63 54 = 0 ∧ bits (3 : Word) 15 14 = 0 ∧ bits (3 : Word) 53 53 ≠ 1 ∧ sliceAllows m0 0 (bits (3 : Word) 13 0 / 4) = true) ∧
    (bits (0x20000000000000 : Word) 63 54 = 0 ∧ bits (0x20000000000000 : Word) 53 53 = 1) ∧
    (bits (4 : Word) 53 53 ≠ 1 ∧ sliceAllows m0 0 (bits (4 : Word) 13 0 / 4) = false) ∧
    (bits (0x4000 : Word) 15 14 ≠ 0) ∧
    (let s := mc fun c => { c with buf := List.replicate 16 { loc := homeLoc 3 0xC000, body := .record 3 {} } }
     16 ≤ outstandingSends s 0 ∧ Calm [0] s) := by
  unfold Calm Quiet HasHandler; decide

/-- A port of core 0 to tile 16, in another cluster, held by the context c. -/
def mPort (c : Nat) : State := { m0 with
  cores := [(0, { port := some { ctx := c, tile := 16, routed := false } })]
  tiles := [(0, { slown := 0x8000000000000000 }), (16, { slown := 0x8000000000000000 })] }

theorem witness_SendForms_ports :
    (let va := vaOf (mPort 1) (sl 0x400000)
     isSliceVA va = true ∧ sliceTile (sliceOfVA va) / 16 ≠ clusterOf 0 ∧ sliceAllows (mPort 1) 0 (sliceTile (sliceOfVA va)) = true ∧
      (myCore { mPort 1 with cores := [] }).port = none ∧ (myCore (mPort 1)).port = some { ctx := 1, tile := 16, routed := false } ∧ (1 : Nat) ≠ 0) ∧
    ((myCore (mPort 0)).port = some { ctx := 0, tile := 16, routed := false } ∧ (∀ q ∈ (mPort 0).cur.buf, q.chan ≠ 3) ∧
      (∀ q ∈ (myCore (mPort 0)).fifo, q.ctx = 0 → w3Mch q.w3 = 3 → q.moved = true)) := by
  decide

/-- TreeForms: an empty queue of injections and a full one, no result and one. -/
theorem witness_TreeForms :
    Calm [0] m0 ∧ HasHandler m0 ∧ badCollective 0x400001 5 = false ∧ badCollective 0xC00001 5 = true ∧
    coveredBlocked m0 0 (hScope 0x400001 + 2) (fun _ => true) = false ∧
    nodeFull (getCluster m0 0).node (regionTag m0 0) 0x400001 = false ∧
    readNat m0 (homeLoc 0 0xF208) 8 - readNat m0 (homeLoc 0 0xF200) 8 < 16 ∧
    (let s := writeNat m0 (homeLoc 0 0xF208) 8 16
     16 ≤ readNat s (homeLoc 0 0xF208) 8 - readNat s (homeLoc 0 0xF200) 8) ∧
    readNat m0 (homeLoc 0 0xF210) 8 = readNat m0 (homeLoc 0 0xF218) 8 ∧
    (let s := writeNat m0 (homeLoc 0 0xF218) 8 1
     readNat s (homeLoc 0 0xF210) 8 ≠ readNat s (homeLoc 0 0xF218) 8) := by
  unfold Calm Quiet HasHandler; decide

/-! ### Engines, launches, axis arrays -/

/-- Copies 1 to 3 of channel 1 are pushed, 1 has completed; the recorded failure, if any, is of copy 1. -/
def mCopy (f : List Copy) (e : Word) : State := { m0 with cores := [(0, {
  cpydone := #v[0x2000000000000000, 0x6000000000000001, 0xA000000000000000, 0xE000000000000000]
  cpyNext := #v[1, 4, 1, 1]
  cpyerr := #v[0, e, 0, 0]
  fifo := f })] }

/-- The ticket n of channel 1. -/
def ticket (n : Nat) : Word := BitVec.ofNat 64 (2 ^ 62 + 2 ^ 61 + n)

theorem witness_CopyForms :
    Calm [0, 1] m0 ∧ HasHandler m0 ∧ badRequest (highOf m0) (portTile m0) (sl 0) (sl 64) 0x8000000000000040 0 = false ∧
    badRequest (highOf m0) (portTile m0) (sl 0) (sl 64) 0x8000000000000040 4 = true ∧ (myCore m0).fifo.length < 16 ∧
    (myCore (mCopy (List.replicate 15 {}) 0)).fifo.length < 16 ∧ 16 ≤ (myCore (mCopy (List.replicate 16 {}) 0)).fifo.length ∧
    (∀ n ∈ [1, 2, 3], bits (ticket n) 63 62 = 1 ∧ bits (ticket n) 61 61 = 1 ∧ bits (ticket n) 60 48 = 0 ∧
      seqAfter (bits (ticket n) 47 0) ((4 + 2 ^ 48 - 1) % 2 ^ 48) = false) ∧
    (seqLe 1 1 = true ∧ seqLe 2 1 = false ∧
      bits ((myCore (mCopy [] 0)).cpydone.toList.getD 1 0) 47 0 = 1 ∧ (myCore (mCopy [] 0)).cpyNext.toList.getD 1 1 = 4) ∧
    (bits ((myCore (mCopy [] 0)).cpyerr.toList.getD 1 0) 63 63 = 0) ∧
    (seqAfter (bits (ticket 4) 47 0) ((4 + 2 ^ 48 - 1) % 2 ^ 48) = true ∧ bits (3 : Word) 61 61 = 0 ∧ bits (0x6001000000000001 : Word) 60 48 ≠ 0) ∧
    (bits ((myCore (mCopy [] 0x8800000000000001)).cpyerr.toList.getD 1 0) 63 63 = 1 ∧
      bits ((myCore (mCopy [] 0x8800000000000001)).cpyerr.toList.getD 1 0) 61 59 = 1 ∧
      seqLe (bits ((myCore (mCopy [] 0x8800000000000001)).cpyerr.toList.getD 1 0) 47 0) 1 = true) ∧
    (isSliceVA (widen (highOf m0) (sl 0)) = true ∧ sliceTile (sliceOfVA (widen (highOf m0) (sl 0))) = tileOf 0 ∧
      sliceOff (sliceOfVA (widen (highOf m0) (sl 0))) + 1024 * 16 ≤ 2 ^ 18 ∧ (sl 0).toNat % 64 = 0 ∧ sliceAllows m0 0 (tileOf 0) = true ∧
      (getTile m0 0).dictNext.isNone) := by
  unfold Calm Quiet HasHandler; decide

/-- A focus with one stream bound to register 3. -/
def mStream (x : Stream) : State := mc fun c => { c with streams := c.streams.set 3 x }

/-- StreamForms: a descriptor of one element (counts of 1) is taken; one whose counts are zero is refused. -/
theorem witness_StreamForms :
    Calm [0] m0 ∧ HasHandler m0 ∧ (m0.cur.streams[3]).bound = false ∧
    (let s := writeNat (writeNat (writeNat (writeNat m0 (sliceLoc 0 0x50) 4 1) (sliceLoc 0 0x5C) 4 1) (sliceLoc 0 0x68) 4 1)
        (sliceLoc 0 0x74) 4 1
     passes (checkAccess s 0 (sl 64) 64 0) fun l => match loadAll l.st 64 [(sl 64, l)] with
      | .vals [b] _ => !(parseStream b).2
      | _ => false) ∧
    (passes (checkAccess m0 0 (sl 64) 64 0) fun l => match loadAll l.st 64 [(sl 64, l)] with
      | .vals [b] _ => (parseStream b).2
      | _ => false) ∧
    ((mStream { bound := true }).cur.streams[3].bound = true ∧ (mStream { bound := true }).cur.streams[3].output = false) ∧
    ((mStream { bound := true, output := true, buf := [{}] }).cur.streams[3].output = true ∧
      (mStream { bound := true, output := true, buf := [{}] }).cur.streams[3].buf ≠ []) := by
  unfold Calm Quiet HasHandler; decide

/-- The image of n bytes at offset o of the slice, aligned and read as a descriptor of 64 bytes, or another image, is. -/
def imageAt (s : State) (o n : Nat) (p : List Byte → State → Bool) : Bool :=
  passes (landImage s (if n = 64 then 64 else 16) (linePieces n (sl o).toNat n)) fun r => match readImage r.2 r.1 with
    | .vals [b] s1 => p b s1
    | _ => false

/-- LaunchForms: a record for the own region; one with KIND 11; one for another region; a full store. -/
theorem witness_LaunchForms :
    Calm [0] m0 ∧ HasHandler m0 ∧
    (let s := writeNat m0 (sliceLoc 0 64) 8 4096
     imageAt s 64 80 fun b s1 => let r := parseLaunch b 0 none
      !badLaunch b && !tooMany s1 r && decide (r.rcb = regionTag s1 s1.who) && !launchBlocked s1 r && !storeFull s1 0) ∧
    (let s := writeNat (writeNat m0 (sliceLoc 0 64) 8 4096) (sliceLoc 0 72) 1 3
     imageAt s 64 80 fun b _ => badLaunch b) ∧
    (imageAt m0 64 80 fun b s1 => let r := parseLaunch b 0 none
      !badLaunch b && !tooMany s1 r && decide (r.rcb ≠ regionTag s1 s1.who ∧ rcbField s1 r.rcb 0 8 ≠ regionTag s1 s1.who)) ∧
    storeFull { m0 with dies := [(0, { store := List.replicate 1024 {} })] } 0 = true ∧
    (let s := { writeNat m0 (sliceLoc 0 64) 8 (2 ^ 44) with far := [⟨1, 2 ^ 44, 2 ^ 40, some 0, false⟩] }
     imageAt s 64 80 fun b s1 => !badLaunch b && launchFar s1 (parseLaunch b 0 none).rcb) := by
  unfold Calm Quiet HasHandler; decide

/-- An array of 2 ^ 10 fp32 elements in tile 0's slice, from offset 0x1000 on. -/
def ax0 : AxArray := {
  slot := 1
  region := 4096
  tiles := [0]
  fmt := 11
  n := 10
  b := 10
  soff := 0x1000
  map := List.range 10
  prev := List.range 10
  stamps := List.replicate 10 0 }
def mAx (a : AxArray) : State := { m0 with arrays := [a] }
def ax0H : Word := 0x8000000000000001

/-- A descriptor of the same array, in another slot, stands at offset 64. -/
def mDef : State := writeNat (writeNat (mAx ax0) (sliceLoc 0 72) 4 0x000A0A0B) (sliceLoc 0 80) 4 0x2000

theorem witness_AxisArrays :
    Calm [0, 3] (mAx ax0) ∧ HasHandler (mAx ax0) ∧ arrayOf (mAx ax0) ax0H = some ax0 ∧ ax0.fault = false ∧ ax0.wave ≠ 1 ∧ ax0.wave ≠ 2 ∧
    axstPending (mAx ax0) ax0.id = false ∧ pending (mAx ax0) 0 isStoreOrSend = false ∧ ax0.applies = [] ∧ (arrayOf m0 ax0H).isNone ∧
    arrayOf (mAx { ax0 with fault := true }) ax0H = some { ax0 with fault := true } ∧
    (imageAt mDef 64 64 fun b s1 => let new := parseAxis b 2 4096 [0]
      !badAxis b new 1 && s1.arrays.all (fun z => decide (z.slot ≠ new.slot)) && !pending s1 0 isStoreOrSend) ∧
    (imageAt mDef 64 64 fun b s1 => let new := parseAxis b 1 4096 [0]
      !badAxis b new 1 && s1.arrays.any fun z => decide (z.slot = new.slot) && z.tiles.any new.tiles.contains) := by
  unfold Calm Quiet HasHandler; decide

theorem witness_AxisArrays_maps :
    (imageAt (writeBytes (mAx ax0) (sliceLoc 0 64) ((List.range 10).map fun k => BitVec.ofNat 8 (9 - k))) 64 64 fun b _ =>
      isPerm 10 ((b.take 10).map (·.toNat)) && (b.drop 10).all fun z => decide (z = 0)) ∧
    (bits (0x0903 : Word) 63 14 = 0 ∧ bits (0x0903 : Word) 7 6 = 0 ∧ bits (0x0903 : Word) 5 0 < 10 ∧ bits (0x0903 : Word) 13 8 < 10 ∧
      bits (0x0903 : Word) 5 0 ≠ bits (0x0903 : Word) 13 8 ∧ bits (0x0909 : Word) 5 0 = bits (0x0909 : Word) 13 8) ∧
    (bits (0x83 : Word) 63 32 = 0 ∧ selectors 10 0x83 = some [3] ∧ ([3].flatMap ax0.digit).length ≤ 10 ∧ selectors 10 0 = some []) ∧
    ((9 : Word).toNat < 10 ∧ (10 : Nat) ≤ 64) := by
  decide

/-- AxisElements: the last eight elements of the array, as a load and as a store. -/
theorem witness_AxisElements :
    arrayOf (mAx ax0) ax0H = some ax0 ∧ (1016 : Nat) < 2 ^ ax0.n ∧ 1016 % (32 / ax0.z) = 0 ∧ VectorReady (mAx ax0) ⟨[], [8]⟩ ∧
    VectorReady (mAx ax0) ⟨[8], []⟩ ∧ unacked (mAx ax0) 0 (isAxst ax0.id) = false ∧ (mAx ax0).cur.buf.length < 16 ∧
    (passes (landAll (mAx ax0) 4 0 ((List.range 8).map fun i => (ax0.spot (ax0.place (1016 + i))).addr)) fun p =>
      isVals (loadAll p.2 4 p.1)) ∧
    (passes (landAll (mAx ax0) 4 1 ((List.range 8).map fun i => (ax0.spot (ax0.place (1016 + i))).addr)) fun _ => true) := by
  refine ⟨by decide, by decide, by decide, ready_free _ _ rfl (by decide) rfl (by decide),
    ready_free _ _ rfl (by decide) rfl (by decide), by decide, by decide, by decide, by decide⟩

/-- Tickets 1 to 3 of the axis unit are out, 1 has completed, and its failure, if any, is of it; slot 0 holds a 2 × 2 matrix. -/
def mUnit (e : Word) : State := { mAx ax0 with
  tiles := [(0, {
    slown := 0x8000000000000000
    slots := #v[some { k := 2, cplx := false, entries := [0, 0, 0, 0] }, none, none, none, none, none, none, none] })]
  cores := [(0, {
    axdone := 0x1000000000000001
    axNext := 4
    axerr := e })] }

theorem witness_AxisUnitForms :
    Calm [0, 2] (mUnit 0) ∧ HasHandler (mUnit 0) ∧
    (imageAt m0 64 64 fun b s1 => !badFmt (highOf s1) 0 b (parseFmt b) && (myCore s1).axq.isEmpty) ∧
    (passes (checkAccess m0 0 (sl 64) 64 0) fun l => (inOwnSlice m0 64 l).isNone) ∧
    (bits (0x107 : Word) 63 9 = 0 ∧ bits (0x107 : Word) 7 6 = 0 ∧ bits (0x107 : Word) 3 3 = 0 ∧
      (passes (checkAccess m0 0 (sl 0) 16 0) fun l => (inOwnSlice m0 (2 * 2 * 8) l).isNone) ∧ imageAt m0 0 32 fun _ _ => true) ∧
    (arrayOf (mUnit 0) ax0H = some ax0 ∧ namedBits ax0 0x83 = some [3] ∧ [3].length ≤ min 4 ax0.b ∧
      (getTile (mUnit 0) 0).slots.toList.getD (bits (0x83 : Word) 34 32) none = some { k := 2, cplx := false, entries := [0, 0, 0, 0] } ∧
      bits (0x83 : Word) 63 49 = 0 ∧ badDest (mUnit 0) ax0 0x83 = false ∧ (myCore (mUnit 0)).axq.length < 8) ∧
    (∀ n ∈ [1, 2, 3], bits (BitVec.ofNat 64 (2 ^ 60 + n)) 63 61 = 0 ∧ bits (BitVec.ofNat 64 (2 ^ 60 + n)) 60 60 = 1 ∧
      bits (BitVec.ofNat 64 (2 ^ 60 + n)) 59 48 = 0 ∧ seqAfter n ((4 + 2 ^ 48 - 1) % 2 ^ 48) = false) ∧
    (seqLe 1 (bits (myCore (mUnit 0)).axdone 47 0) = true ∧ seqLe 2 (bits (myCore (mUnit 0)).axdone 47 0) = false ∧
      bits (myCore (mUnit 0)).axerr 63 63 = 0) ∧
    (seqAfter 4 ((4 + 2 ^ 48 - 1) % 2 ^ 48) = true ∧ bits (3 : Word) 60 60 = 0 ∧ bits (0x3000000000000001 : Word) 63 61 ≠ 0 ∧
      bits (0x1001000000000001 : Word) 59 48 ≠ 0) ∧
    (bits (myCore (mUnit 0x8800000000000001)).axerr 63 63 = 1 ∧ bits (myCore (mUnit 0x8800000000000001)).axerr 61 59 = 1 ∧
      seqLe (bits (myCore (mUnit 0x8800000000000001)).axerr 47 0) 1 = true) ∧
    ((sl 0).toNat % 16 = 0 ∧ (drainDenied m0 (myCore m0).fmt (sl 0) 0x20000).isNone ∧ badDrain (myCore m0).fmt (sl 0) 0x20000 = false) := by
  unfold Calm Quiet HasHandler; decide

/-- An `axmm` descriptor at offset 64: one row of one block each, pitches of 64 bytes. -/
def mMm : State := writeBytes m0 (sliceLoc 0 64) (toBytes 8 (sl 0x400).toNat ++ toBytes 8 (sl 0x800).toNat ++ toBytes 4 64 ++
  toBytes 4 64 ++ toBytes 2 1 ++ toBytes 2 1 ++ toBytes 1 1)

theorem witness_AxisUnitForms_mm :
    kindOf mMm.who = 0 ∧ wrongWay mMm.cur ⟨[8], []⟩ = false ∧ (streamCheck mMm.cur ⟨[8], []⟩).isNone ∧
    (imageAt mMm 64 64 fun b s1 => let p := parseMm b
      match sliceAt (highOf s1) p.a, sliceAt (highOf s1) p.b with
      | some la, some lb => sliceAllows s1 0 (sliceTile la) && sliceAllows s1 0 (sliceTile lb) &&
        !badMm (myCore s1).fmt p la lb
      | _, _ => false) := by
  decide

/-! ### Events -/

/-- An answer that waits at context 0. -/
def mReply (b : Payload) (status : Nat) (c : Ctx) : State := { m0 with
  cur := c
  replies := [{ dst := 0, entry := { loc := 0x40, body := b }, status := status, data := [1, 2, 3, 4] }] }
def isReply (s : State) (p : Reply → Bool) : Bool := s.replies[0]?.any p

/-- Core 0's high context with these loads. -/
def cLoads (l : List LoadSlot) : Ctx := { m0.cur with loads := l }

theorem witness_BufferEvents_drain :
    (let e : StoreEntry := { loc := sliceLoc 0 0, body := .store [1] false, chan := 2 }
     let s := mc fun c => { c with buf := [e] }
     (getCtx s 0).buf = [e] ∧ mayDrain s 0 e = true) ∧
    (let e : StoreEntry := { loc := sliceLoc 0 0, body := .store (List.replicate 32 1) true }
     let f : StoreEntry := { e with loc := sliceLoc 0 32, seq := 1 }
     let s := mc fun c => { c with buf := [e, f] }
     mayDrain s 0 e = true ∧ linePair e f = some { e with body := .store (List.replicate 64 1) true }) ∧
    (let e : StoreEntry := { loc := homeLoc 0 0xC000, body := .remote 0x20000400000000 (Vector.replicate 8 0) }
     mayDrain (mc fun c => { c with buf := [e] }) 0 e = true ∧ bits (0x20000400000000 : Word) 52 34 ≠ bits m0.dev.gxcfg 18 0) ∧
    (let e : StoreEntry := { loc := sliceLoc 0 0, body := .store [1] false, ordered := true }
     let s := { mc fun c => { c with buf := [{ e with chan := 2 }] } with net := [{ src := 0, entry := e }] }
     mayDrain s 0 { e with chan := 2 } = false) := by
  decide

theorem witness_BufferEvents_acks :
    (isReply (mReply (.store [1] false) 0 m0.cur) fun r => decide (r.status = 0 ∧ r.entry.chan = 0)) ∧
    (isReply (mReply (.store [1] false) 1 m0.cur) fun r => decide (r.status ≠ 0 ∧ r.entry.chan ≠ 2 ∧ isSlice r.entry.loc = false)) ∧
    bits m0.cur.sterr 63 63 = 0 ∧ bits mFail.cur.sterr 63 63 = 1 ∧
    (let s := mReply (.store [1] false) 0 m0.cur
     let r : Reply := { dst := 0, entry := { loc := 0x48, body := .store [1] false } }
     let u := { s with replies := s.replies ++ [r] }
     (replyAt s 0).isSome ∧ u.replies[1]? = some r ∧ (u.replies.take 1).any (sameWay u r) = true ∧ (replyAt u 1).isNone) ∧
    (isReply (mReply (.axst 0 4 0 []) 0 m0.cur) fun r => decide (r.status = 0)) ∧
    (isReply (mReply (.record 0 {}) 0 m0.cur) fun r => isSend r.entry) := by
  decide

theorem witness_BufferEvents_loads :
    (∀ st ∈ [0, 1], let s := mReply (.load 4 7) st (cLoads [slot0 7])
     isReply s (fun r => decide (r.status = st ∧ r.entry.body = .load 4 7)) ∧ (getCtx s 0).loads = [slot0 7] ∧
      (slot0 7).noticed = false ∧ isEngine 0 = false ∧ (getCtx s 0).tvec ≠ 0 ∧ bits (getCtx s 0).tstatus 0 0 = 0) ∧
    (let s := mReply (.load 4 8) 0 (cLoads [slot0 7, slot0 8])
     (getCtx s 0).loads = [slot0 7, slot0 8] ∧ (slot0 7).id ≠ 8 ∧ (slot0 7).val = none) ∧
    ((cLoads [slot0 7, { slot0 8 with noticed := true }]).loads.find? (·.noticed) = some { slot0 8 with noticed := true } ∧
      overlaps m0 { loc := 0x43, body := .store [1] false } { loc := 0x40, body := .load 4 8 } = true ∧
      overlaps m0 { loc := 0x44, body := .store [1] false } { loc := 0x40, body := .load 4 8 } = false) ∧
    (∀ x ∈ (cLoads [slot0 7]).loads, x.noticed = false) ∧
    (∀ a ∈ [none, some (0, 1, 0)], let s := mReply (.load 4 0) 0 { m0.cur with wait := .host 5 4 true 4 0 0x40 (2 ^ 51) a }
     (getCtx s 0).wait = .host 5 4 true 4 0 0x40 (2 ^ 51) a ∧ (getCtx s 0).tvec ≠ 0 ∧ bits (getCtx s 0).tstatus 0 0 = 0) ∧
    (mc fun c => { c with wait := .hostFill (2 ^ 51) 0 0 }).cur.wait = .hostFill (2 ^ 51) 0 0 ∧
    (let s := mc fun c => { c with wait := .hostFill (2 ^ 51 + 56) 3 0, hostGot := (List.range 7).map fun k => (2 ^ 51 + 8 * k, k) }
     s.cur.wait = .hostFill (2 ^ 51 + 56) 3 0 ∧ s.cur.hostGot.length = 7) := by
  decide

/-- Two deferred loads: the reply to the second keeps its value; that to the first writes both registers, sign-extended. -/
theorem test_loads_in_order :
    (nextIs (exec (.loadReply 0) (mReply (.load 4 8) 0 (cLoads [slot0 7, slot0 8]))) fun t =>
      decide (rd t 5 = 0 ∧ t.cur.loads = [slot0 7, { slot0 8 with val := some (0, 0x04030201) }])) ∧
    (nextIs (exec (.loadReply 0) (mReply (.load 4 7) 0 (cLoads [slot0 7, { slot0 8 with d := 6, val := some (0, 0x80000000) }])))
      fun t => decide (rd t 5 = 0x04030201 ∧ rd t 6 = 0xFFFFFFFF80000000 ∧ t.cur.loads = [])) := by
  decide

set_option exponentiation.threshold 600 in
/-- A FetchAdd of four bytes on host memory: the old value in s5, zero-extended, and the sum in host memory. -/
theorem test_host_atomic :
    nextIs (exec (.hostCompletion 0 0 0x1FFFFFFFF) { m0 with
      cur := { m0.cur with wait := .host 5 4 false 4 0 0x40 (2 ^ 51) (some (0, 2, 0)) } }) fun t =>
      decide (rd t 5 = 0xFFFFFFFF ∧ readBytes t (2 ^ 51) 4 = [1, 0, 0, 0] ∧ t.cur.pc = sl 4) := by
  decide

set_option exponentiation.threshold 600 in
/-- Code in host memory: its second word comes, and with it, of the same instant, the first once more. -/
theorem test_host_fetch : nextIs (exec (.hostCompletion 0 0 (0x55 + 2 ^ 64 * 0x66)) (mc fun c => { c with
    wait := .hostFill (2 ^ 51 + 8) 3 0, hostGot := [(2 ^ 51, 0x77)] })) fun t =>
      decide (t.cur.hostGot = [(2 ^ 51 + 8, 0x55), (2 ^ 51, 0x66)] ∧ t.cur.wait = .ready) := by
  decide

set_option exponentiation.threshold 600 in
/-- The parcel at the pc, in the slice, is taken as it stood when the word of host memory came, and so by the fetch that goes on. -/
theorem test_host_fetch_mixed : nextIs (exec (.hostCompletion 0 0 0x55) (mCode [0x00, 0x10] (mc fun c => { c with
    wait := .hostFill (2 ^ 51) 3 0 }))) (fun t =>
      decide (t.cur.codeAt.length = 17 ∧ t.cur.codeAt[0]? = some ((vaOf t (sl 0)).toNat, some 0x1000) ∧
        (readRun (mCode [0x55, 0x55] t) (sl 0) 1).1 = [0x1000])) := by
  decide

/-- A reply word of context 0 that holds v: the region's REPLY area lies at offset 0 of the slice. -/
def mWait (w : Wait) (v : Nat) : State :=
  writeNat (writeNat { mc (fun c => { c with wait := w }) with stamp := 4096 } (4096 + 0x40) 8 (sl 0).toNat) (sliceLoc 0 0) 8 v

theorem witness_WakeEvents :
    ((mWait (.pause 8192) 0).cur.wait = .pause 8192 ∧ 8192 ≤ cycleOf (mWait (.pause 8192) 0) 0 ∧ cycleOf (mWait (.pause 8193) 0) 0 < 8193) ∧
    (wakes (mWait (.sleep 4096 false false 0) 0) 0 4096 false = true ∧ wakes (mWait (.sleep 4097 false false 0) 0) 0 4097 false = false ∧
      (mWait (.sleep 0 true true 0) 0).cur.wait = .sleep 0 true true 0) ∧
    ((mWait (.realign 4096 0) 0).cur.wait = .realign 4096 0 ∧ 4096 + 4096 ≤ 2 * (mWait (.realign 4096 0) 0).stamp ∧
      2 * (mWait (.realign 4097 0) 0).stamp < 4097 + 4096) ∧
    (∀ b ∈ [true, false], (mWait (.monitor 1 b 64 0 1 1 0) 0).cur.wait = .monitor 1 b 64 0 1 1 0) ∧
    ((mWait (.poll 8192 64 0 1 1 0) 0).cur.wait = .poll 8192 64 0 1 1 0 ∧ 8192 ≤ 2 * (mWait (.poll 8192 64 0 1 1 0) 0).stamp) ∧
    (∀ v ∈ [0, 1, 2], (mWait (.pager 8 0 0 0) v).cur.wait = .pager 8 0 0 0 ∧
      replyLoc (mWait (.pager 8 0 0 0) v) 0 (isEngine 0) 0 = some (sliceLoc 0 0) ∧
      readNat (mWait (.pager 8 0 0 0) v) (sliceLoc 0 0) 8 = v) ∧ HasHandler (mWait (.pager 8 0 0 0) 2) ∧
    (∀ v ∈ [0, 1], ∀ k ∈ [5, goneKey], let s := writeNat (mWait .ready 0) (sliceLoc 0 8) 8 v
      let u := { s with cur := { s.cur with engFault := some (k, 8, 0, 0) } }
      u.cur.engFault = some (k, 8, 0, 0) ∧ 5 ≠ goneKey ∧ replyLoc u 0 true 0 = some (sliceLoc 0 8) ∧ farWaits u (sliceLoc 0 8) = false ∧
      readNat u (sliceLoc 0 8) 8 = v) := by
  unfold HasHandler; decide

/-- One message on its way to core 0. -/
def mNet (b : Payload) : State := { m0 with net := [{ src := 0, entry := { loc := sliceLoc 0 0xC000, body := b } }] }
/-- 32 records stand in core 0's low inbox, and one of core 1 fills the spill ring. -/
def mCrowd : State := writeNat { m0 with
  regions := [{
    rcb := 4096
    clusters := [0]
    state := 2
    spill := [{ slot := 0, core := 1, pri := false, task := {} }] }] } (homeLoc 0 0xD418) 8 32
/-- The region is saved, with this on its spill ring. -/
def mSaved (l : List Spilled) : State := { m0 with
  clusters := []
  regions := [{
    rcb := 4096
    clusters := [0]
    state := 3
    spill := l }] }
/-- Core 0's high context is idle. -/
def mIdle (s : State) : State := { s with cur := { s.cur with run := .idle } }

/-- R289: a send that waits for room at its destination holds back no full fence or atomic up to the die; `fence.rel.dv` and a
full fence beyond the die wait for it. -/
theorem test_full_send_waits :
    let s := { mCrowd with net := (mNet (.record 0 {})).net.map fun x => { x with entry := { x.entry with rcb := 4096 } } }
    (∀ x ∈ s.net, heldAt s x = true) ∧ unacked s 0 isSend = true ∧ (∀ c ∈ [0, 1, 2, 3], fullBlocked s 0 c = false) ∧
    (∀ c ∈ [4, 5], fullBlocked s 0 c = true) := by
  decide

/-- R276, R289: a counted send is served although an earlier send to the same core waits for room. R322: a store to another home of the
die waits for that send, which has not been acknowledged. -/
theorem test_behind_full_send :
    let held : Msg := { src := 0, entry := { loc := homeLoc 0 0xC000, body := .record 0 {}, rcb := 4096 } }
    let counted : Msg := { src := 0, entry := { loc := homeLoc 0 0xC000, body := .record 0 { cnt := true }, rcb := 4096 } }
    let s := { mCrowd with net := [held, counted] }
    arrived s = [(held, true), (counted, false)] ∧ mayServe s 1 counted = true ∧
    storeOrderBlocked s 0 { loc := homeLoc 4 0, body := .store [1] false } = true ∧
    storeOrderBlocked { s with net := [] } 0 { loc := homeLoc 4 0, body := .store [1] false } = false := by
  decide

/-- R74: an `mreq` is served after every earlier store of its context, also of one at another home. -/
theorem test_mreq_order :
    let st : Msg := { src := 0, entry := { loc := sliceLoc 0 0, body := .store [1] false, chan := 2 } }
    let rq : Msg := { src := 0, entry := { loc := 0x20000, body := .mreqRead 5 } }
    mayServe { m0 with net := [st, rq] } 0 st = true ∧ mayServe { m0 with net := [st, rq] } 1 rq = false ∧
    mayServe { m0 with net := [rq] } 0 rq = true ∧ mayServe { m0 with net := [{ st with src := 1 }, rq] } 1 rq = true := by
  decide

/-- R98: a fresh 2 MiB leaf replaces the 64 KiB entries that it overlaps, not only the one for its address. -/
theorem test_fill_replaces :
    let e : Nat → Nat → TlbEntry := fun va log => {
      tag := 0, va := va, log := log, frame := va, r := true, w := true, x := true, leaf := 0, movable := true, rights := [] }
    let s := fillTlb (fillTlb (fillTlb m0 0 (e 0x210000 16)) 0 (e 0x410000 16)) 0 (e 0x200000 21)
    (getCore s 0).tlb.map (·.va) = [0x200000, 0x410000] ∧ (getCluster s 0).tlb.map (·.va) = [0x200000, 0x410000] := by
  decide

/-- R107, R108: the answer to one request's fault stands until that request takes it; meanwhile another may fault. -/
theorem test_answers_stand :
    let s := { writeNat (mWait .ready 0) (sliceLoc 0 8) 8 1 with cur := { m0.cur with engFault := some (5, 8, 0, 0) } }
    nextIs (exec (.engineFaultReply 0) s) fun t => decide (t.cur.engSaid = [(5, true)] ∧ t.cur.engFault = none) &&
      (match engTurn t 0 13 with
        | .go _ => true
        | _ => false) && (match engTurn t 0 5 with
        | .go u => u.cur.engSaid.isEmpty
        | _ => false) := by
  decide

theorem witness_MessageEvents :
    (∀ b ∈ [Payload.record 0 {}, .record 0 { cnt := true }, .barArrive 0 2047 none, .barRelease 0 0],
      mayServe (mNet b) 0 { src := 0, entry := { loc := sliceLoc 0 0xC000, body := b } } = true) ∧
    (((regionFor m0 0 0).any fun g => (acceptAt m0 g 0 false {}).isSome) ∧ (regionFor m0 0 64).isNone ∧ recordWaits m0 4096 0 false = false) ∧
    ((regionFor mCrowd 0 0).any fun g => (acceptAt mCrowd g 0 false {}).isNone) ∧
    ((savedFor m0 0 0).isNone ∧ (savedFor m0 0 64).isNone ∧ (regionFor m0 64 0).isNone ∧ (savedFor m0 64 0).isNone) ∧
    (savedFor (mSaved []) 0 0).any (fun g => (spillInto (mSaved []) g 0 false { cnt := true }).isSome) ∧
    (let s := mSaved [{ slot := 0, core := 1, pri := false, task := {} }]
     (savedFor s 0 0).any fun g => (spillInto s g 0 false { cnt := true }).isNone) ∧
    (let s := { m0 with net := [{ src := devAgent 0, entry := { loc := sliceLoc 0 0xC000, body := .record 0 {}, rcb := 4096 } },
       { src := 0, entry := { loc := sliceLoc 0 0xC000, body := .record 0 {} } }] }
     recordWaits s 4096 0 false = true ∧ recordWaits s 4096 0 true = false ∧ (0 : Nat) ≠ devAgent 0 ∧ startFar s 0 = false ∧
      ((regionFor s 4096 0).any fun g => (acceptAt s g 0 false {}).isSome) ∧
      mayServe s 0 { src := devAgent 0, entry := { loc := sliceLoc 0 0xC000, body := .record 0 {}, rcb := 4096 } } = true ∧
      mayServe s 1 { src := 0, entry := { loc := sliceLoc 0 0xC000, body := .record 0 {} } } = true) ∧
    (let s := { m0 with replies := [{ dst := 0, entry := { loc := 0x40, body := .mreqRead 5 }, status := 0, data := [] }] }
     (recordRegion s 0).isSome ∧ recordWaits s 4096 0 true = false ∧ rcbFar s 4096 [(0x18, 64)] = false ∧
      (replyAt s 0).any fun r => (recordRegion s 0).any fun g => (acceptAt s g 0 true (mreqRec s r 5 false)).isSome) ∧
    ((getCtx (mIdle m0) 0).run = .idle ∧ isEngine 0 = false ∧ coreRuns (mIdle m0) 0 = true ∧ (nextChoice (mIdle m0) 0 true).isNone ∧
      (nextChoice (mIdle mInbox) 0 true).any (fun r => gateMet (mIdle mInbox) r.1) = true ∧ (getCtx m0 0).run ≠ .idle) ∧
    (gateMet mHeld { gate := some (0, 1) } = false ∧ gateMet mHeld { gate := some (0, 0) } = true) ∧
    (let s := writeNat m0 (treeLoc 0 0x208) 8 1
     readNat s (treeLoc 0 0x200) 8 < readNat s (treeLoc 0 0x208) 8 ∧
      nodeFull (getCluster s 0).node (regionTag s 0) (readNat s (treeLoc 0 8) 8) = false) ∧
    (let s := { m0 with results := [(0, 7, 0x400001, 4096)] }
     s.results[0]? = some (0, 7, 0x400001, 4096) ∧ regionTag s 0 = 4096 ∧ readNat s (treeLoc 0 0x218) 8 - readNat s (treeLoc 0 0x210) 8 < 16) := by
  decide

theorem witness_TransferEvents :
    (let s := mCopy [{ seq := 1, ch := 1, started := true, w2 := 0x8000000000000040 }] 0
     ((rrCores (0 / 4) (getTile s 0).rrCopy).find? fun j => (nextCopy s j).isSome) = some 0 ∧ nextCopy s 0 = some 0 ∧
      (getCore s 0).fifo[0]?.any (·.started)) ∧
    (let c : Copy := { seq := 2, ch := 1, moved := true }
     let k := getCore (mCopy [c] 0) 0
     k.fifo = [c] ∧ c.ch < 4 ∧ k.cpyEarly = [] ∧ bits (k.cpydone.toList.getD c.ch 0) 47 0 + 1 = c.seq ∧ c.seq < 2 ^ 48) ∧
    (getTile { m0 with tiles := [(0, { dictNext := some [1] })] } 0).dictNext = some [1] ∧
    ((getCore (mPort 0) 0).port = some { ctx := 0, tile := 16, routed := false } ∧
      (∀ l ∈ (routeLinks 0 1)[0]?, linkTaken (mPort 0) 0 l = false) ∧ ∃ l ∈ (routeLinks 0 1)[0]?, linkTaken { mPort 0 with
        cores := [(1, { port := some { ctx := 2, tile := 16, held := 1, routed := true } })] } 0 l = true) ∧
    (let x : Stream := { bound := true, base := sl 0, counts := [1, 1, 1, 1], strides := [0, 0, 0, 0] }
     let s := mStream x
     x.moved < x.total ∧ x.buf.length < 4 ∧ gateOpen s 0 x.gate = true ∧ (match engRead s (streamUnit 0 3 x.moved) 0 x.high (streamAddr x x.moved) 32 with
      | .ok _ _ _ => true
      | _ => false) = true) ∧
    (∀ o ∈ [0, 0xC000], let x : Stream := {
        bound := true
        output := true
        base := sl o
        counts := [1, 1, 1, 1]
        strides := [0, 0, 0, 0]
        buf := [{}] }
     let s := mStream x
     gateOpen s 0 x.gate = true ∧ (match engLands s (streamUnit 0 3 x.moved) 0 x.high [(streamAddr x x.moved, toBytes 32 0)] with
      | .fail _ => o ≠ 0
      | .ok l _ => decide (o = 0 ∧ l.length = 1)
      | _ => false) = true) := by
  decide

/-- R145: after a restore the port's context issues only once the port's route is open again. -/
theorem test_port_reopens :
    let p : Port := { ctx := 0, tile := 16, routed := false, reopening := true }
    let s := { mPort 0 with cores := [(0, { port := some p })] }
    issuer m0 0 = some 0 ∧ issuer s 0 = none ∧
    nextIs (exec (.portRouteOpen 0) s) fun t => decide ((getCore t 0).port = some { p with held := 1, routed := true, reopening := false } ∧
      issuer t 0 = some 0) := by
  decide

/-- Twice as many elements, in two tiles, in a wave that exchanges positions 0 and 10: tile 0 owns its one group. -/
def ax1 : AxArray := { ax0 with
  n := 11
  t := 1
  tiles := [0, 1]
  map := List.range 11
  swaps := [(0, 10)]
  wave := 2 }

theorem witness_AxisEvents :
    (∀ q ∈ [0, 1], (mAx ax1).arrays = [ax1] ∧ q ∈ ax1.tiles ∧ coreRuns (mAx ax1) (4 * q) = true ∧ ax1.tiles.findIdx (· = q) = q) ∧
    ax1.ownerDone 0 = false ∧ ax1.ownerDone 1 = true ∧
    (coreTurn m0 0 = false ∧ (nextSpan m0 0).isNone) ∧
    (let s := { m0 with cores := [(0, { axq := [{ op := 1, seq := 1 }] })] }
     coreTurn s 0 = true ∧ (getCore s 0).axq = [{ op := 1, seq := 1 }]) ∧
    (let r : AxReq := { op := 1, seq := 1, done := true }
     let s := { m0 with cores := [(0, { axq := [r] })] }
     (rrCores 0 0).find? (fun k => ((getCore s k).axq.head?).any fun r =>
        r.done && !(r.op = 2 && bits r.b 26 26 = 1 && wakePending s 0)) = some 0 ∧ r.op ≠ 0) := by
  decide

/-- Stack 3's ring of 64 KiB frames holds the frame 0x1000000; 4 records of room in the motion ring. -/
def mTurnip (d : Die) : State :=
  let s := mPage 0x2009E d
  let s := { s with dev := { s.dev with
    mfree := 0x100000
    mrec := 0x200002 } }
  writeNat (writeNat (writeNat (writeNat s (0x100000 + 192) 8 0x110000) (0x100000 + 200) 4 4) (0x100000 + 208) 4 1) 0x110000 8 0x1000000

theorem witness_MotionEvents :
    (∀ e ∈ [0x2009E, 0x1009E, 0x2001E], let s := writeNat (mTurnip { queue := [moving] }) 0x10000 16 e
      (getDie s 0).queue = [moving] ∧ (getDie s 0).active.length < 16 ∧ recRoom s = true ∧ s.recs = [] ∧ ringFar s 3 0 = false ∧ moving.leaf = 0x10000 ∧
      (e = 0x2009E ↔ (readNat s 0x10000 16 % 4 = 2 ∧ entryFrame (readNat s 0x10000 16) = moving.src ∧
        leafLog (readNat s 0x10000 16) = moving.log ∧ nbits (readNat s 0x10000 16) 7 7 = 1))) ∧
    ((takeFrame (mTurnip {}) 3 0).isSome ∧ (takeFrame (mTurnip {}) 4 0).isNone) ∧
    (∀ s ∈ [mTurnip { active := [moving] }], farLost s moving.src = false ∧ farLost s moving.dst = false ∧
      farWaits s moving.src = false ∧ farWaits s moving.dst = false ∧ s.reserved = [] ∧ isPoisoned s moving.dst = false ∧
      moving.cursor + 1 < 2 ^ moving.log / 64 ∧ (getDie s 0).active[0]? = some moving ∧ moving.forwarding = false) ∧
    (∀ s ∈ [mTurnip { active := [{ moving with forwarding := true }] }], frameBusy s { moving with forwarding := true } = false ∧
      recRoom s = true ∧ s.recs = []) ∧
    (epochDue m0 = false ∧ epochLen m0 / epochLen m0 = m0.lastEpoch / epochLen m0 + 1 ∧ bits m0.dev.motionctl 37 37 = 0) ∧
    ((0 : Nat) + 2048 ≤ 2 * ({ m0 with stamp := 1024 } : State).stamp) ∧
    (passes (translate (mPage 0x2009E {}) 0 0 0x10000 0) fun _ => true) ∧ (∀ k < 4, (getDie m0 k).active = []) := by
  decide

/-- A region in one of its states, its RCB's BCL 1, and what else the dispatcher looks at. -/
def mReg (st : Nat) (d : Die) : State := writeNat { mc (fun c => { c with run := .idle }) with
  regions := [{
    rcb := 4096
    clusters := if st = 1 ∨ st = 3 then [] else [0]
    state := st }]
  clusters := if st = 1 ∨ st = 3 then [] else [(0, { region := some (4096, 0) })]
  dies := [(0, d)] } (4096 + 0x58) 2 1

theorem witness_SchedulerEvents :
    (let s := { m0 with dev := { m0.dev with lqtail := m0.dev.lqtail.set 12 1 } }
     s.pstate < 2 ∧ ((List.range 4).map fun k => ((getDie s 0).rrQueue + k) % 4).find? (fun k => queueReady s (12 % 4 + 4 * k)) =
      some (12 / 4) ∧ storeFull s 0 = false ∧ s.recovering = false ∧ farWaits s 0 = false ∧ launchFar s (parseLaunch (readBytes s 0 80) 0x8000 (some 12)).rcb = false) ∧
    (grantChoice (mReg 1 {}) 0 = some { rcb := 4096, state := 1 } ∧ imageFar (mReg 1 {}) 4096 = false ∧ priosFar (mReg 1 {}) = false ∧ priosFar (mReg 3 {}) = false ∧
      ∀ k ∈ (freeClusters (mReg 1 {}) 0).take (rcbBcl (mReg 1 {}) 4096), clusterQuiet (mReg 1 {}) k = true) ∧
    (grantChoice m0 0).isNone ∧
    ((findRegion (mReg 2 {}) 4096).any fun g => g.state = 2 && regionIdle (mReg 2 {}) g && !booksFar (mReg 2 {}) 4096) ∧
    ((findRegion m0 4096).any fun g => g.state = 2 && !regionIdle m0 g && !wantsSave m0 g && !chainFar m0 chain 4096 && (findRegion (charge m0 g) 4096).isSome) ∧
    (let s := writeNat (writeNat m0 (4096 + 0x50) 8 5) (4096 + 0x68) 8 5
     (findRegion s 4096).any fun g => exhausted (charge s g) chain 4096 && !chainFar (charge s g) chain 4096) ∧
    ((findRegion (mReg 6 {}) 4096).any fun g => wantsSave (mReg 6 {}) g) ∧
    (findRegion (mReg 3 {}) 4096 = some { rcb := 4096, state := 3 } ∧ (grantChoice (mReg 3 {}) 0).map (·.rcb) = some 4096 ∧
      areaFar (mReg 3 {}) { rcb := 4096, state := 3 } = false) ∧
    bits m0.dev.secst 1 0 = 0 ∧ bits ({ m0.dev with secst := 1 } : DevRegs).secst 1 0 ≠ 0 ∧
    (let s := mReg 2 { store := [{ rcb := 4096, kind := 1 }] }
     (getCluster s 0).region = some (4096, 0) ∧ (getCluster s 0).team.isNone ∧ coreRuns s 0 = true ∧ startFar s 0 = false ∧
      ((firstOfRegion (getDie s 0).store 4096).filter fun l => l.kind = 1 && l.clk = 0) = some { rcb := 4096, kind := 1 }) ∧
    ((issuer m0 0).isSome ∧ (issuer m0 1).isNone) ∧ (65536 : Nat) ≤ ({ starve := 65536 } : Core).starve ∧ rcbFar m0 4096 [(0x30, 2 ^ 20)] = false ∧
    (({ starve := 65535 } : Core).lowTill.isNone ∧ ({ starve := 65535 } : Core).starve = 65535) ∧
    (∀ t ∈ [0], ({ lowTill := some 0 } : Core).lowTill = some t ∧ t ≤ 2 * m0.stamp) := by
  decide

/-- An event, and a ring with room for 4. -/
def mEvent (t : Nat) : State := { m0 with
  stamp := t
  events := [⟨0, 0x5000, 1, 0⟩]
  dev := { m0.dev with evring := 0x100002 } }
/-- No region, for a millisecond. -/
def mQuiet (t : Nat) : State := { m0 with
  regions := []
  stamp := t }

/-- DeviceEvents. The firmware's verdicts and limits are free values: each of the two verdicts is one a machine may have, and
4000 W is above every limit. -/
theorem witness_DeviceEvents :
    ((firstEvent m0.events).isNone ∧ firstEvent (mEvent 64).events = some ⟨0, 0x5000, 1, 0⟩ ∧ 0 + 64 ≤ (mEvent 64).stamp ∧
      evRoom (mEvent 64) = true) ∧
    (m0.pstate < 2 ∧ m0.sampleAt ≤ m0.stamp ∧ min (bits m0.dev.pwrcap 11 0) (Config.thermalLimit m0.tick) < ([4000].take 7 : List Nat).sum ∧
      m0.stamp < ({ m0 with sampleAt := 1 } : State).sampleAt ∧ m0.draws = [] ∧ (∀ l, (10 : Nat) * reserve l ≤ 12 * l) ∧
      (∀ l, (1000 : Nat) * reserve l ≤ 1000 * l)) ∧
    ((mQuiet 1000000).pstate < 2 ∧ (mQuiet 1000000).recovering = false ∧ deviceIdle (mQuiet 1000000) = true ∧
      (mQuiet 1000000).idleSince + 1000000 ≤ (mQuiet 1000000).stamp ∧ (mQuiet 999999).stamp < (mQuiet 999999).idleSince + 1000000) ∧
    (let s := { m0 with pstate := 2, wakeAt := some 0 }
     s.pstate = 2 ∧ s.wakeAt ≠ none ∧ s.grx = []) ∧
    (let s := { m0 with pstate := 3, wakeAt := some 0, stamp := 5000000 }
     s.wakeAt = some 0 ∧ s.pstate = 3 ∧ 0 + 5000000 ≤ s.stamp) ∧
    (∀ b : List Byte, Config.imageVerifies b = true ∨ Config.imageVerifies b = false) ∧
    (Config.plebexStarts m0.tick = true ∨ Config.plebexStarts m0.tick = false) ∧ ({ m0 with recovering := true } : State).recovering = true ∧
    (m0.pstate ≠ 4 ∧ m0.recovering = false ∧ (List.replicate 32 (0 : Byte)).length = 32 ∧ bits m0.dev.secst 1 0 = 0) ∧
    bits ({ m0.dev with secst := 2 } : DevRegs).secst 1 0 ≠ 0 ∧
    (((3 : BitVec 4) = 3 ∧ (mQuiet 0).pstate ≠ 3) ∧ ∀ g ∈ (mQuiet 0).regions, g.state ≠ 1 ∧ g.state ≠ 2 ∧ g.state ≠ 6 ∧ g.state ≠ 7) ∧
    (let s := { m0 with pstate := 3 }
     s.pstate = 3 ∧ s.recovering = false ∧ s.wakeAt = none) := by
  refine ⟨by decide, ⟨by decide, by decide, Nat.lt_of_le_of_lt (Nat.min_le_left _ _) (by decide), by decide, by decide,
      fun l => by have := Nat.min_le_left l (floorDraw fun k => shares.getD k 0); unfold reserve; omega,
      fun l => by have := Nat.min_le_left l (floorDraw fun k => shares.getD k 0); unfold reserve; omega⟩, by decide, by decide, by decide,
    fun b => by cases Config.imageVerifies b <;> simp, by cases Config.plebexStarts m0.tick <;> simp, by decide, by decide, by decide, by decide, by decide⟩

/-- The host may write tile 0's slice (HOSTW). -/
def mHost : State := { m0 with tiles := [(0, { slown := 0xE000000000000000 })] }

/-- HostAccesses: the last bytes of BAR0, of BAR2's 1 GiB and of the host's memory; a write that the tables let through and one
to a system area that they do not. -/
theorem witness_HostAccesses :
    (mHost.posted = [] ∧ mHost.pstate ≠ 4 ∧ mHost.pstate ≠ 3 ∧ mHost.recovering = false) ∧ 2 ^ 24 - 8 + 8 ≤ 2 ^ 24 ∧
    (2 ^ 30 - 4 + 4 ≤ 2 ^ 30 ∧ ∀ q ∈ linePieces 2 (2 ^ 52 + 64) 8, bankBusy mHost q.1 4096 = false ∧ (hostMay mHost q.1).2 = true) ∧
    (∃ q ∈ linePieces 2 (2 ^ 52 + 0xC000) 8, bankBusy mHost q.1 4096 = false ∧ (hostMay mHost q.1).2 = false) ∧
    (∃ q ∈ linePieces 2 0x10000 8, verdictFar (mFar { mHost with dev := { mHost.dev with mtab := 0x100000000000 } }) q.1 = true) ∧
    (∀ q ∈ linePieces 2 (2 ^ 52 + 64) 8, writeWaits mHost q.1 = false ∧ farWaits mHost q.1 = false) ∧
    (∀ q ∈ linePieces 2 (2 ^ 52 + 64) 8, verdictFar mHost q.1 = false) ∧ (∀ q ∈ linePieces 2 (2 ^ 30) 8, verdictFar mHost q.1 = false) ∧
    (∃ q ∈ linePieces 2 0x10000 8, bankBusy { mHost with reserved := [{ row := 0x10000, tile := 7, last := 0 }] }
      q.1 4096 = true) ∧
    2 ^ 48 - 8 + 8 ≤ 2 ^ 48 ∧ 2 ^ 30 < 2 ^ 30 - 4 + 5 ∧ 2 ^ 42 - 8 + 8 ≤ 2 ^ 42 ∧
    (∀ q ∈ linePieces 2 (2 ^ 30) 8, bankBusy mHost q.1 4096 = false ∧ (hostMay mHost q.1).2 = true) := by
  decide

/-- AtomicOps of the host on four and on eight bytes of a slice that it may read and write; one that is misaligned, one where it may
not, and one on a poisoned line. -/
theorem witness_HostAccesses_atomics :
    (∀ n ∈ [4, 8], (2 ^ 52 + 64) % n = 0 ∧ hostMay mHost (2 ^ 52 + 64) = (true, true) ∧ serveRead mHost (2 ^ 52 + 64) n = (0, toBytes n 0) ∧
      (∀ q ∈ linePieces 2 (2 ^ 52 + 64) n, bankBusy mHost q.1 4096 = false)) ∧
    (2 ^ 52 + 66) % 4 ≠ 0 ∧ (hostMay m0 (2 ^ 52 + 64)).1 = false ∧
    (serveRead { mHost with poison := [(2 ^ 52 + 64) / 64] } (2 ^ 52 + 64) 4).1 ≠ 0 := by
  decide

/-- A CAS of eight bytes reaches no further than its operand: at the last eight of the host's range. -/
theorem witness_HostAccesses_cas : 2 ^ 42 - 8 + 16 / 2 ≤ 2 ^ 42 ∧ ¬ 2 ^ 42 - 8 + 16 ≤ 2 ^ 42 ∧ (2 ^ 42 - 8) % 8 = 0 ∧
    linePieces 2 (2 ^ 42 - 8) 8 = [(2 ^ 42 - 8, 8)] := by
  decide

/-- R82, R361: an access of the host that covers two lines counts twice for their page, from north-west of stack 0. -/
theorem test_host_counts :
    let h := mapGet {} (hostCount m0 (fun _ => true) [(0x20000, 64), (0x20040, 8)]).hot 0x20000
    h.total = 2 ∧ h.nw = 2 ∧ (hostCount m0 (fun _ => false) [(0x20000, 64)]).hot = [] := by
  decide

/-- A Swap of four bytes: the old value to the host, the new one in the slice. -/
theorem test_host_swap : nextIs (exec (.hostAccess 9 64 [1, 2, 3, 4]) (writeNat mHost (sliceLoc 0 64) 4 7)) fun t =>
    decide (t.hostOut = (0, [7, 0, 0, 0]) ∧ readBytes t (sliceLoc 0 64) 4 = [1, 2, 3, 4]) := by
  decide

/-- Link 15 trained (STATE 10), with one flit that waits for its acknowledgement. -/
def mLink (st : Nat) : State := { m0 with
  dev := { m0.dev with gxlink := m0.dev.gxlink.set 15 (BitVec.ofNat 64 (st * 2 ^ 62)) }
  links := [(15, { replay := [(0, [], 0)] })]
  stamp := 2000 }
/-- A flit of a kind, numbered n, without its CRC: 1 messages, 2 the time. -/
def flit0 (n : Nat) (kind : Nat := 1) : List Nat := [n, 0, 0, 0, kind] ++ List.replicate 247 0

set_option maxRecDepth 100000 in
theorem witness_LinkEvents :
    (let s := { m0 with far := [⟨1, 2 ^ 44, 2 ^ 40, none, false⟩] }
     ∃ f ∈ s.far, f.dev = 1 ∧ f.down = none) ∧
    (let s := { m0 with far := [⟨1, 2 ^ 44, 2 ^ 40, some 0, false⟩] }
     s.far = [⟨1, 2 ^ 44, 2 ^ 40, some 0, false⟩] ∧ (∃ f ∈ s.far, f.dev = 1 ∧ f.down ≠ none) ∧ s.passing = [] ∧ s.asks = [] ∧
      s.ends = [] ∧ s.recs = [] ∧ 0 + 2000000 < ({ s with stamp := 2000001 } : State).stamp ∧
      ({ s with stamp := 2000000 } : State).stamp ≤ 0 + 2000000) ∧
    (mFar m0 true).far = [⟨1, 2 ^ 44, 2 ^ 40, some 0, true⟩] ∧
    (let s := mFar { mTurnip {} with recs := [List.replicate 32 1] }
     s.recs = [List.replicate 32 1] ∧ recRoom (logEvent (putFar s 1 fun f => { f with down := none, lost := false }) 0x5203 3 1) = true) ∧
    (15 < 16 ∧ linkTrained (mLink 2) 15 = true ∧ (getLink (mLink 2) 15).replay = [(0, [], 0)] ∧ 0 + 2000 ≤ (mLink 2).stamp ∧
      (getLink (mLink 2) 15).failed < 8) ∧
    (∀ n ∈ [0, 1], ∀ k ∈ [1, 2], let f := flit0 n k ++ numBytes 4 (crc32 (flit0 n k))
      f.length = 256 ∧ crc32 (f.take 252) = fieldN f 252 4 ∧ fieldN f 4 1 = k ∧
      (n = 0 ↔ fieldN f 0 2 = (takeAck (getLink (mLink 2) 15) (fieldN f 2 2)).rxNext)) ∧
    (let f := flit0 0 ++ [0, 0, 0, 0]
     f.length = 256 ∧ crc32 (f.take 252) ≠ fieldN f 252 4) ∧
    (bits (linkReg (mLink 2) 15) 63 62 ≠ 1 ∧ bits (linkReg (mLink 2) 15) 61 61 = 0 ∧ (mLink 2).pstate < 3 ∧ (mLink 2).recovering = false) ∧
    bits (linkReg (mLink 1) 15) 63 62 = 1 ∧ (getTx m0 3 0).unacked = [] ∧ (getTx m0 3 1).unacked = [] ∧
    (let x := getLink { mLink 2 with links := [(15, { replay := [(0, [], 0)], failed := 7, tried := true })] } 15
     x.failed < 8 ∧ 8 ≤ if x.tried then x.failed + 1 else x.failed) := by
  decide

theorem witness_LinkEvents_remotes :
    (let r : Remote := ⟨0, 0, Vector.replicate 8 0, none, 0, 0⟩
     let s := { m0 with remotes := [r], stamp := 1000000 }
     s.remotes[0]? = some r ∧ reachable s (remoteDev r) = false ∧ r.since + 1000000 ≤ s.stamp ∧ r.eseq = none ∧
      ({ s with stamp := 999999 } : State).stamp < r.since + 1000000) ∧
    (let s := writeNat { mLink 2 with dev := { (mLink 2).dev with gxcfg := 0x80000, gxrt := 0x100000 } } (0x100000) 2 0x8000
     reachable s 0 = true) ∧
    (let s := writeNat { mLink 2 with
       dev := { (mLink 2).dev with gxcfg := 0x80000, gxrt := 0x100000 }
       gtx := [⟨3, 0, 1, [(0, List.replicate 244 0, 0)]⟩] } (0x100000 + 6) 2 0x8000
     (getTx s 3 0).unacked = [(0, List.replicate 244 0, 0)] ∧ (getTx s 3 1).unacked = [] ∧ (sendFlit s 3 (List.replicate 244 0)).isSome) ∧
    (let s := { m0 with dev := { m0.dev with gxcfg := 0x10000000 }, stamp := 1000 }
     bits s.dev.gxcfg 28 28 = 1 ∧ s.timeSent + 1000 ≤ s.stamp ∧ s.pstate < 3) ∧ bits (mLink 2).dev.gxcfg 28 28 = 0 := by
  decide

/-! ### The machine as a whole -/

/-- `add s5, s6, s7` at the pc, then `c.mov s0, s0`, then a word that is no instruction; and a pc that cannot be fetched from. -/
def mRun (o : Nat) : State :=
  { mCode [0x03, 0x14, 0x73, 0x00, 0x00, 0x10, 0x00, 0x00] m0 with cur := { m0.cur with pc := sl o } }

theorem witness_StepRunsDecoded :
    ((mRun 0).agenda = [] ∧ (mRun 0).tick % 2 = 0 ∧ mayIssue (mRun 0) = true) ∧
    ((fetchRun (mRun 0) (sl 0) 1).1 = [0x1403] ∧ (fetchRun (mRun 0) (sl 0) 1).2.1.isNone ∧ isLong 0x1403 = true ∧
      (fetchRun (mRun 0) (sl 2) 1).1 = [0x0073] ∧ (fetchRun (mRun 0) (sl 2) 1).2.1.isNone ∧
      decode32 (0x1403 + 65536 * 0x0073) = .ok (.add 5 6 7 0)) ∧
    ((fetchRun (mRun 4) (sl 4) 1).1 = [0x1000] ∧ (fetchRun (mRun 4) (sl 4) 1).2.1.isNone ∧ isLong 0x1000 = false ∧
      decode16 0x1000 = .ok (.cMov 0 0)) ∧
    NoLoop (mRun 0).cur ∧
    (match fetchAt (mRun 6) (sl 6) with
      | .illegal _ => true
      | _ => false) = true ∧
    (match fetchAt { m0 with cur := { m0.cur with pc := sl 0x400000 } } (sl 0x400000) with
      | .fault t => t.code ≠ 0x08 && t.code ≠ 0x09
      | _ => false) = true ∧
    ((mRun 0).sched.keepFetched = false ∧ isSliceVA (widen (vaHigh (mRun 0).cur) (sl 0)) = true ∧
      (mRun 0).cur.codeAt = [] ∧ serveRead (mRun 0) (sliceOfVA (widen (vaHigh (mRun 0).cur) (sl 0))) 2 = (0, [0x03, 0x14]) ∧ HasHandler (mRun 0)) := by
  unfold HasHandler NoLoop; decide

/-- A fetch of `c.mov s0, s0` at 0x10000 that was kept, its page in the TLB or with X taken away. -/
def mKept (x : Bool) : State :=
  let s := mFrame 0x20000
  { s with
    sched := { s.sched with keepFetched := true }
    clusters := [(0, { region := some (4096, 0), icache := [(0x10000, [(0x20000, 0x1000)])] })]
    cores := s.cores.map fun p => (p.1, { p.2 with tlb := p.2.tlb.map fun t => { t with x := x } })
    cur := { s.cur with pc := 0x10000 } }

/-- StepRunsDecoded: a kept fetch serves while its parcel may be fetched where it was (R45, R349), and no longer (R46). -/
theorem witness_StepRunsDecoded_kept :
    (keptRun (mKept true) 0x10000).map (·.1) = some [0x1000] ∧ (mKept true).cur.span = 0 ∧
    (keptRun (mKept false) 0x10000).isNone ∧ (match fetchInstr (mKept false) 0x10000 with
      | .fault t => decide (t.access = 3)
      | _ => false) = true := by
  decide

/-- R397, R26: what a fetch saw at the end of a level stands while the level ends elsewhere, and over a Dusk save. -/
theorem test_ends_kept :
    let c := { m0.cur with lpaddr0 := sl 0, lpctl0 := 0x180000008 }
    let d := (({ c.noteEnd 0 6 with lpaddr0 := sl 64 }).noteEnd 0 0).atRest
    seenEnd d 0 = some 0 ∧ seenEnd { d with lpaddr0 := sl 0 } 0 = some 6 := by
  decide

/-- Level k ends at 0x1FFE0, in a page of the far tier behind a link that is down; the instruction stands at pc, in stack 0. -/
def mFarEnd (k : Nat) (pc : Word) : State :=
  let page : Nat → Nat → TlbEntry := fun va frame => {
    tag := 0, va := va, log := 16, frame := frame, r := true, w := true, x := true,
    leaf := 0x10000, movable := true, rights := [(frame, frame + 0x10000, true, true)] }
  let c := m0.cur
  let c := { c with pc := pc }
  writeNat (mFar { m0 with
    cores := [(0, { tlb := [page 0x10000 (2 ^ 44), page 0x20000 0x20000] })]
    cur := if k = 0 then { c with lpaddr0 := 0x1FFD0, lpctl0 := 0x180000008 } else { c with lpaddr1 := 0x1FFD0, lpctl1 := 0x180000008 } })
    0x20000 8 0x1000100010001000

/-- StepRunsDecoded: the parcel at a level's end is needed up to 32 bytes behind it, and is waited for. -/
theorem witness_StepRunsDecoded_end : ∀ k ∈ [0, 1],
    (match fetchInstr (mFarEnd k 0x20000) 0x20000 with
      | .instr i t => decide (i = .cMov 0 0 ∧ needsEnd (mFarEnd k 0x20000).cur 0x20000 i k = true ∧ stopKind (endStop t k) = 2)
      | _ => false) = true ∧
    needsEnd (mFarEnd k 0x20002).cur 0x20002 (.cMov 0 0) k = false := by
  decide

/-- RoundTrip: a 32-bit and a 16-bit instruction that are well formed and have an encoding. -/
theorem witness_RoundTrip : (Instr.add 5 6 7 0).wf = true ∧ encode (Instr.add 5 6 7 0) ≠ [] ∧ (Instr.cMov 5 6).wf = true ∧
    encode (Instr.cMov 5 6) ≠ [] := by
  decide

theorem witness_MemoryCanonical : (mRun 0).MemWf ∧ nextIs (step (mRun 0)) (fun _ => true) = true := by
  unfold State.MemWf; decide

end Sys2Proof.Tests
end

/-! SUPPORT. Proofs: register forms and bit forms of the scalar datapath (R206 to R208). -/

namespace Sys2Proof.Proofs

open Sys2Proof Sys2Proof.Machine Sys2Proof.Laws

/-! ### The results of the register forms (R206, R207) -/

theorem aluMul_eq (x y : Word) : aluMul x y = BitVec.ofInt 64 (x.toInt * y.toInt) := by
  rw [BitVec.ofInt_mul, BitVec.ofInt_toInt, BitVec.ofInt_toInt]; rfl

theorem aluDiv_eq (x y : Word) :
    aluDiv x y = if y = 0 then BitVec.allOnes 64 else BitVec.ofInt 64 (x.toInt.tdiv y.toInt) := by
  unfold aluDiv
  exact if_congr Iff.rfl BitVec.neg_one_eq_allOnes rfl

theorem aluMin_eq (x y : Word) : aluMin x y = if x.toInt < y.toInt then x else y := by
  simp only [aluMin, BitVec.slt_iff_toInt_lt]

theorem aluMax_eq (x y : Word) : aluMax x y = if x.toInt < y.toInt then y else x := by
  simp only [aluMax, BitVec.slt_iff_toInt_lt]

theorem aluMinn_eq (x y : Word) : aluMinn x y = if x.toNat < y.toNat then x else y := by
  simp only [aluMinn, BitVec.ult_iff_toNat_lt]

theorem aluMaxn_eq (x y : Word) : aluMaxn x y = if x.toNat < y.toNat then y else x := by
  simp only [aluMaxn, BitVec.ult_iff_toNat_lt]

/-- A comparison gives 1 where the proposition that it decides holds. -/
theorem ofBool_eq_ite {b : Bool} {p : Prop} [Decidable p] (h : b = true ↔ p) : ofBool b = if p then 1 else 0 := by
  unfold ofBool
  exact if_congr h rfl rfl

theorem not_slt_iff_toInt_le (x y : Word) : (!x.slt y) = true ↔ y.toInt ≤ x.toInt := by
  rw [Bool.not_eq_true', ← Bool.not_eq_true, BitVec.slt_iff_toInt_lt, Int.not_lt]

theorem not_ult_iff_toNat_le (x y : Word) : (!x.ult y) = true ↔ y.toNat ≤ x.toNat := by
  rw [Bool.not_eq_true', ← Bool.not_eq_true, BitVec.ult_iff_toNat_lt, Nat.not_lt]

/-! ### Completion with a result that is known by an equation -/

theorem alu3_completes_with {i : Instr} {s : State} {f : Word → Word → Word} {lat len : Nat} {d a b : BitVec 5} {st : BitVec 3}
    {v : Word} (h : Calm anyAgent s) (e : exec i s = alu3 f lat len d a b st s) (hv : f (rd s a) (rd s b) = v) :
    Completes i s (wr s d v) len :=
  hv ▸ alu3_completes h e

theorem sel_completes {s : State} {d a b : BitVec 5} {st : BitVec 3} (h : Calm anyAgent s) :
    Completes (.sel d a b st) s (wr s d (if rd s d ≠ 0 then rd s a else rd s b)) 4 :=
  have e : exec (.sel d a b st) s = execSel d a b st s := rfl
  completes_of_done (e.trans (issue_calm h 4 st _ _))

/-- Settles O1: each form is `alu3` or `alu2` of its function, or is `sel`; its result is the one of the equations above. -/
theorem registerForms : Obligations.RegisterForms := by
  unfold Obligations.RegisterForms
  intro s d a b st h
  simp only [List.forall_mem_cons, List.not_mem_nil, false_implies, implies_true, and_true]
  refine ⟨?add, ?sub, ?and, ?or, ?xor, ?sll, ?srl, ?sra, ?mul, ?mulh, ?div, ?rem, ?min, ?max, ?minn, ?maxn,
    ?cmpEq, ?cmpNe, ?cmpLt, ?cmpGe, ?cmpLtn, ?cmpGen, ?sel, ?mov⟩
  case add => exact alu3_completes_with (f := aluAdd) h rfl rfl
  case sub => exact alu3_completes_with (f := aluSub) h rfl rfl
  case and => exact alu3_completes_with (f := aluAnd) h rfl rfl
  case or => exact alu3_completes_with (f := aluOr) h rfl rfl
  case xor => exact alu3_completes_with (f := aluXor) h rfl rfl
  case sll => exact alu3_completes_with (f := aluSll) h rfl rfl
  case srl => exact alu3_completes_with (f := aluSrl) h rfl rfl
  case sra => exact alu3_completes_with (f := aluSra) h rfl rfl
  case mul => exact alu3_completes_with h rfl (aluMul_eq _ _)
  case mulh => exact alu3_completes_with (f := aluMulh) h rfl rfl
  case div => exact alu3_completes_with h rfl (aluDiv_eq _ _)
  case rem => exact alu3_completes_with (f := aluRem) h rfl rfl
  case min => exact alu3_completes_with h rfl (aluMin_eq _ _)
  case max => exact alu3_completes_with h rfl (aluMax_eq _ _)
  case minn => exact alu3_completes_with h rfl (aluMinn_eq _ _)
  case maxn => exact alu3_completes_with h rfl (aluMaxn_eq _ _)
  case cmpEq => exact alu3_completes_with (f := aluCmpEq) h rfl (ofBool_eq_ite decide_eq_true_iff)
  case cmpNe => exact alu3_completes_with (f := aluCmpNe) h rfl (ofBool_eq_ite decide_eq_true_iff)
  case cmpLt => exact alu3_completes_with (f := aluCmpLt) h rfl (ofBool_eq_ite BitVec.slt_iff_toInt_lt)
  case cmpGe => exact alu3_completes_with (f := aluCmpGe) h rfl (ofBool_eq_ite (not_slt_iff_toInt_le _ _))
  case cmpLtn => exact alu3_completes_with (f := aluCmpLtn) h rfl (ofBool_eq_ite BitVec.ult_iff_toNat_lt)
  case cmpGen => exact alu3_completes_with (f := aluCmpGen) h rfl (ofBool_eq_ite (not_ult_iff_toNat_le _ _))
  case sel => exact sel_completes h
  case mov => exact alu2_completes (f := id) h rfl

/-! ### Counts (R208) -/

/-- The leading zeros of a word of n bits and the size of its number make n. -/
theorem leadingZeros_add_size (x : Word) : ∀ n, x.toNat < 2 ^ n → leadingZeros x n + x.toNat.size = n
  | 0, h => by
    have hx : x.toNat = 0 := by omega
    rw [hx, Nat.size_zero]; rfl
  | n + 1, h => by
    unfold leadingZeros
    by_cases hn : x.toNat < 2 ^ n
    · have hb : x.getLsbD n = false := Nat.testBit_lt_two_pow hn
      have ih := leadingZeros_add_size x n hn
      rw [hb, if_neg Bool.false_ne_true]; omega
    · have hb : x.getLsbD n = true := Nat.testBit_of_two_pow_le_and_two_pow_add_one_gt (Nat.not_lt.1 hn) h
      have lo : n < x.toNat.size := Nat.lt_size.2 (Nat.not_lt.1 hn)
      have hi : x.toNat.size ≤ n + 1 := Nat.size_le.2 h
      rw [hb, if_pos rfl]; omega

theorem toNat_aluClz (x : Word) : (aluClz x).toNat = 64 - x.toNat.size := by
  have h := leadingZeros_add_size x 64 x.isLt
  rw [aluClz, BitVec.toNat_ofNat, Nat.mod_eq_of_lt (by omega)]
  omega

theorem length_onePositions_le (m : Word) : (onePositions m).length ≤ 64 :=
  (List.length_filter_le _ _).trans_eq List.length_range

theorem toNat_aluPopc (x : Word) : (aluPopc x).toNat = (onePositions x).length := by
  have h := length_onePositions_le x
  rw [aluPopc, BitVec.toNat_ofNat, Nat.mod_eq_of_lt (by omega)]

/-! ### The one bits of a mask -/

theorem mem_onePositions {m : Word} {i : Nat} : i ∈ onePositions m ↔ i < 64 ∧ m.getLsbD i = true := by
  rw [onePositions, List.mem_filter, List.mem_range]

theorem nodup_onePositions (m : Word) : (onePositions m).Nodup := List.nodup_range.filter _

/-- A one bit stands in its mask behind the one bits below it. -/
theorem idxOf_onePositions {m : Word} {i : Nat} (hi : i < 64) (hm : m.getLsbD i = true) :
    (onePositions m).idxOf i = ((List.range i).filter fun j => m.getLsbD j).length := by
  obtain ⟨n, hn⟩ : ∃ n, 64 = i + 1 + n := ⟨63 - i, by omega⟩
  have below : i ∉ (List.range i).filter fun j => m.getLsbD j := by simp
  have cut : List.range 64 = List.range i ++ ([i] ++ (List.range n).map (i + 1 + ·)) := by
    rw [hn, List.range_add, List.range_succ, List.append_assoc]
  rw [onePositions, cut, List.filter_append, List.idxOf_append_of_notMem below]
  simp [hm]

theorem getElem?_onePositions {m : Word} {i : Nat} (hi : i < 64) (hm : m.getLsbD i = true) :
    (onePositions m)[((List.range i).filter fun j => m.getLsbD j).length]? = some i := by
  rw [← idxOf_onePositions hi hm]
  exact List.getElem?_idxOf (mem_onePositions.2 ⟨hi, hm⟩)

/-! ### Deposit and extract (R208) -/

/-- To add a power of two whose bit is clear is to set that bit. -/
theorem getLsbD_ofNat_ite_add {w p n : Nat} (b : Bool) (h : (BitVec.ofNat w n).getLsbD p = false) (k : Nat) :
    (BitVec.ofNat w ((if b then 2 ^ p else 0) + n)).getLsbD k =
      ((b && decide (k < w ∧ k = p)) || (BitVec.ofNat w n).getLsbD k) := by
  cases b with
  | false => simp
  | true =>
    have disjoint : BitVec.twoPow w p &&& BitVec.ofNat w n = 0#w := by
      ext j hj
      by_cases e : p = j
      · subst e; simpa [hj] using h
      · simp [Ne.symm e]
    have pow : BitVec.ofNat w (2 ^ p) = BitVec.twoPow w p :=
      BitVec.eq_of_toNat_eq (by rw [BitVec.toNat_ofNat, BitVec.toNat_twoPow])
    rw [if_pos rfl, BitVec.ofNat_add, pow, BitVec.add_eq_or_of_and_eq_zero _ _ disjoint,
      BitVec.getLsbD_or, BitVec.getLsbD_twoPow]
    by_cases e : k = p
    · subst e; simp
    · simp [e, Ne.symm e]

/-- A position of the mask holds the bit of a that its place in the list names; no other position is set. -/
theorem getLsbD_depositFrom (a : Word) (k : Nat) : ∀ (l : List Nat) (i : Nat), l.Nodup →
    (BitVec.ofNat 64 (depositFrom a i l)).getLsbD k = (decide (k < 64 ∧ k ∈ l) && a.getLsbD (i + l.idxOf k))
  | [], i, _ => by simp [depositFrom]
  | m :: t, i, h => by
    obtain ⟨hm, ht⟩ := List.nodup_cons.1 h
    have clear : (BitVec.ofNat 64 (depositFrom a (i + 1) t)).getLsbD m = false := by
      simp [getLsbD_depositFrom a m t (i + 1) ht, hm]
    rw [depositFrom, getLsbD_ofNat_ite_add _ clear, getLsbD_depositFrom a k t (i + 1) ht]
    by_cases e : k = m
    · subst e
      simp [hm, Bool.and_comm]
    · rw [List.idxOf_cons_ne t (Ne.symm e)]
      simp [e, Nat.add_right_comm, Nat.add_assoc]

/-- The bits from i up are those of a at the positions of the list, in its order. -/
theorem getLsbD_extractFrom (a : Word) (k : Nat) : ∀ (l : List Nat) (i : Nat),
    (BitVec.ofNat 64 (extractFrom a i l)).getLsbD k = (decide (k < 64 ∧ i ≤ k) && l[k - i]?.any a.getLsbD)
  | [], i => by simp [extractFrom]
  | m :: t, i => by
    have clear : (BitVec.ofNat 64 (extractFrom a (i + 1) t)).getLsbD i = false := by
      simp [getLsbD_extractFrom a i t (i + 1)]
    rw [extractFrom, getLsbD_ofNat_ite_add _ clear, getLsbD_extractFrom a k t (i + 1)]
    rcases Nat.lt_trichotomy k i with lt | rfl | gt
    · simp [show ¬i ≤ k by omega, show ¬i + 1 ≤ k by omega, show k ≠ i by omega]
    · simp [Bool.and_comm]
    · obtain ⟨n, rfl⟩ := Nat.exists_eq_add_of_lt gt
      simp [show i + n + 1 - i = n + 1 by omega, show i + n + 1 - (i + 1) = n by omega,
        show i ≤ i + n + 1 by omega, show i + n + 1 ≠ i by omega]

theorem getLsbD_aluBdep (x m : Word) {i : Nat} (hi : i < 64) : (aluBdep x m).getLsbD i =
    (m.getLsbD i && x.getLsbD ((List.range i).filter fun j => m.getLsbD j).length) := by
  rw [aluBdep, getLsbD_depositFrom x i _ 0 (nodup_onePositions m), Nat.zero_add]
  simp only [mem_onePositions]
  cases hm : m.getLsbD i with
  | false => simp
  | true => simp [hi, idxOf_onePositions hi hm]

theorem getLsbD_aluBxtr_of_mask {x m : Word} {i : Nat} (hi : i < 64) (hm : m.getLsbD i = true) :
    (aluBxtr x m).getLsbD ((List.range i).filter fun j => m.getLsbD j).length = x.getLsbD i := by
  have hk : ((List.range i).filter fun j => m.getLsbD j).length ≤ i :=
    (List.length_filter_le _ _).trans_eq List.length_range
  rw [aluBxtr, getLsbD_extractFrom, Nat.sub_zero, getElem?_onePositions hi hm]
  simp [show ((List.range i).filter fun j => m.getLsbD j).length < 64 by omega]

theorem getLsbD_aluBxtr_of_length_le {x m : Word} {k : Nat} (hk : (onePositions m).length ≤ k) :
    (aluBxtr x m).getLsbD k = false := by
  rw [aluBxtr, getLsbD_extractFrom, Nat.sub_zero, List.getElem?_eq_none hk, Option.any_none, Bool.and_false]

/-- Settles O2: the forms complete as `alu2` and `alu3` do, and each bit of their results is the one of the lemmas above. -/
theorem bitForms : Obligations.BitForms := by
  unfold Obligations.BitForms
  intro s d a b st h
  refine ⟨⟨_, ?clz, toNat_aluClz _⟩, ⟨_, ?popc, toNat_aluPopc _⟩, ⟨_, ?bdep, fun i hi => getLsbD_aluBdep _ _ hi⟩,
    ⟨_, ?bxtr, fun i hi hm => getLsbD_aluBxtr_of_mask hi hm, fun k hk => getLsbD_aluBxtr_of_length_le hk⟩⟩
  case clz | popc => exact alu2_completes h rfl
  case bdep | bxtr => exact alu3_completes h rfl

end Sys2Proof.Proofs

/-! SUPPORT. Proofs: `trap` and `eret` (R347 to R349). -/

namespace Sys2Proof.Proofs

open Sys2Proof Sys2Proof.Machine Sys2Proof.Laws

/-! ### A trap that no pager takes (R102, R348) -/

/-- A trap of a code that neither a pager nor a wait takes is entered at once. -/
theorem raise_eq_enterTrap {s : State} {t : Trap} (hr : refreshTlb s t = s)
    (hp : t.code ≠ 0x08 ∧ t.code ≠ 0x09 ∧ t.code ≠ 0x100) : raise s t = enterTrap s t s.cur.pc := by
  obtain ⟨h8, h9, hw⟩ := hp
  have waits : (t.waits || pagerWaits s t) = false := by simp [Trap.waits, pagerWaits, h8, h9, hw]
  have pager : toPager s t = none := by simp [toPager, h8, h9]
  have touch : pagerTouch s t = s := by simp [pagerTouch, h8, h9]
  rw [raise, hr, raiseIn, if_neg (ne_true_of_eq_false waits), pager]
  dsimp only
  rw [touch]

/-- Inside a handler, or without one, the trap of a core context ends the fault domain of its region (R348). -/
theorem enterTrap_noHandler {s : State} {t : Trap} {epc : Word} {rcb n : Nat} (he : isEngine s.who = false)
    (hn : s.cur.tvec = 0 ∨ bits s.cur.tstatus 0 0 = 1) (hg : regionOf s (coreOf s.who) = some (rcb, n)) :
    enterTrap s t epc = endDomain { s with cur := { s.cur with run := .idle, wait := .ready, span := 0, board := [] } } rcb
      (if bits s.cur.tstatus 0 0 = 1 then 0x31 else t.code) := by
  have region (c : Ctx) : regionOf { s with cur := c } (coreOf s.who) = some (rcb, n) := hg
  rw [enterTrap, if_neg (ne_true_of_eq_false he), if_pos hn]
  dsimp only
  rw [region]

/-! ### The two instructions (R347, R349) -/

/-- `trap k` of a calm core context raises cause 0x06 with INFO k and does nothing else. -/
theorem exec_trap_calm {s : State} (h : Calm [0] s) (k : BitVec 6) (st : BitVec 3) :
    exec (.trap k st) s = .next (raise s { code := 0x06, info := k.toNat }) :=
  have e : exec (.trap k st) s = issue s [0] 4 st [] fun _ => .trap { code := 0x06, info := k.toNat } := rfl
  e.trans (issue_calm h 4 st [] _)

/-- No access raised the trap of a `trap k`, so the TLBs stay (R98). -/
theorem refreshTlb_trap (s : State) (k : Nat) : refreshTlb s { code := 0x06, info := k } = s :=
  refreshTlb_other s (Nat.le_succ 6) rfl

/-- No pager and no wait takes its code (R102, R364). -/
theorem trapCode_direct : (0x06 : Nat) ≠ 0x08 ∧ (0x06 : Nat) ≠ 0x09 ∧ (0x06 : Nat) ≠ 0x100 := by decide

/-- With a handler, `trap k` saves the context with cause 0x06, ACCESS 7 and INFO k, and enters the handler. -/
theorem exec_trap_handler {s : State} (h : Calm [0] s) (hh : HasHandler s) (k : BitVec 6) (st : BitVec 3) :
    Traps (.trap k st) s 0x06 7 k.toNat 0 :=
  traps_of_trap (len := 4) (st := st) (uses := []) hh (refreshTlb_trap s _) trapCode_direct (exec_trap_calm h k st)

/-- `eret` of a calm core context leaves the handler. -/
theorem exec_eret_calm {s : State} (h : Calm [0] s) (st : BitVec 3) : exec (.eret st) s =
    .next { s with cur := (s.cur.settled []).leave.issued (cycleNow s) st.toNat [] } :=
  have e : exec (.eret st) s =
    issue s [0] 4 st [] fun s => .keep { s with cur := s.cur.leave.issued (cycleNow s) st.toNat [] } := rfl
  e.trans (issue_calm h 4 st [] _)

/-- Settles O27: `trap` raises a trap that no pager takes, which enters the handler or ends the domain; `eret` leaves the handler. -/
theorem trapAndReturn : Obligations.TrapAndReturn := by
  unfold Obligations.TrapAndReturn
  intro s k st h
  refine ⟨?handler, exec_eret_calm h st, ?noHandler⟩
  case handler => exact fun hh => exec_trap_handler h hh k st
  case noHandler =>
    intro hn he rcb n hg
    rw [exec_trap_calm h, raise_eq_enterTrap (refreshTlb_trap s _) trapCode_direct, enterTrap_noHandler he hn hg]

end Sys2Proof.Proofs

/-! SUPPORT. Proofs: the round trip of decoder and encoder (R49 to R67). -/

namespace Sys2Proof.Proofs

open Sys2Proof Sys2Proof.Laws

/-- Settles O58: a row with an encoding by its own lemma of `Laws/PerInstr.lean`; the other rows (events of the device, and the
rows of single registers, whose words are those of the plain control-register forms) have no word. -/
theorem roundTrip : Obligations.RoundTrip := by
  unfold Obligations.RoundTrip
  intro i
  cases i with
  | add => apply RoundTrip.add
  | sub => apply RoundTrip.sub
  | andR => apply RoundTrip.andR
  | orR => apply RoundTrip.orR
  | xorR => apply RoundTrip.xorR
  | sll => apply RoundTrip.sll
  | srl => apply RoundTrip.srl
  | sra => apply RoundTrip.sra
  | mul => apply RoundTrip.mul
  | mulh => apply RoundTrip.mulh
  | div => apply RoundTrip.div
  | rem => apply RoundTrip.rem
  | min => apply RoundTrip.min
  | max => apply RoundTrip.max
  | minn => apply RoundTrip.minn
  | maxn => apply RoundTrip.maxn
  | mov => apply RoundTrip.mov
  | cmpEq => apply RoundTrip.cmpEq
  | cmpNe => apply RoundTrip.cmpNe
  | cmpLt => apply RoundTrip.cmpLt
  | cmpGe => apply RoundTrip.cmpGe
  | cmpLtn => apply RoundTrip.cmpLtn
  | cmpGen => apply RoundTrip.cmpGen
  | sel => apply RoundTrip.sel
  | clz => apply RoundTrip.clz
  | popc => apply RoundTrip.popc
  | bdep => apply RoundTrip.bdep
  | bxtr => apply RoundTrip.bxtr
  | addi => apply RoundTrip.addi
  | andi => apply RoundTrip.andi
  | ori => apply RoundTrip.ori
  | xori => apply RoundTrip.xori
  | slli => apply RoundTrip.slli
  | srli => apply RoundTrip.srli
  | srai => apply RoundTrip.srai
  | lim => apply RoundTrip.lim
  | jal => apply RoundTrip.jal
  | jr => apply RoundTrip.jr
  | brEq => apply RoundTrip.brEq
  | brNe => apply RoundTrip.brNe
  | brLt => apply RoundTrip.brLt
  | brGe => apply RoundTrip.brGe
  | brLtn => apply RoundTrip.brLtn
  | brGen => apply RoundTrip.brGen
  | loop => apply RoundTrip.loop
  | ldB => apply RoundTrip.ldB
  | ldH => apply RoundTrip.ldH
  | ldW => apply RoundTrip.ldW
  | ldD => apply RoundTrip.ldD
  | stB => apply RoundTrip.stB
  | stH => apply RoundTrip.stH
  | stW => apply RoundTrip.stW
  | stD => apply RoundTrip.stD
  | ldAcq => apply RoundTrip.ldAcq
  | stRel => apply RoundTrip.stRel
  | amoAddW => apply RoundTrip.amoAddW
  | amoAndW => apply RoundTrip.amoAndW
  | amoOrW => apply RoundTrip.amoOrW
  | amoXorW => apply RoundTrip.amoXorW
  | amoMinW => apply RoundTrip.amoMinW
  | amoMaxW => apply RoundTrip.amoMaxW
  | amoMinnW => apply RoundTrip.amoMinnW
  | amoMaxnW => apply RoundTrip.amoMaxnW
  | amoSwapW => apply RoundTrip.amoSwapW
  | casW => apply RoundTrip.casW
  | amoAddD => apply RoundTrip.amoAddD
  | amoAndD => apply RoundTrip.amoAndD
  | amoOrD => apply RoundTrip.amoOrD
  | amoXorD => apply RoundTrip.amoXorD
  | amoMinD => apply RoundTrip.amoMinD
  | amoMaxD => apply RoundTrip.amoMaxD
  | amoMinnD => apply RoundTrip.amoMinnD
  | amoMaxnD => apply RoundTrip.amoMaxnD
  | amoSwapD => apply RoundTrip.amoSwapD
  | casD => apply RoundTrip.casD
  | vld => apply RoundTrip.vld
  | vst => apply RoundTrip.vst
  | vldx => apply RoundTrip.vldx
  | vstx => apply RoundTrip.vstx
  | vadd => apply RoundTrip.vadd
  | vsub => apply RoundTrip.vsub
  | vadds => apply RoundTrip.vadds
  | vsubs => apply RoundTrip.vsubs
  | vmin => apply RoundTrip.vmin
  | vmax => apply RoundTrip.vmax
  | vabs => apply RoundTrip.vabs
  | vneg => apply RoundTrip.vneg
  | vand => apply RoundTrip.vand
  | vor => apply RoundTrip.vor
  | vxor => apply RoundTrip.vxor
  | vshl => apply RoundTrip.vshl
  | vshr => apply RoundTrip.vshr
  | vcmp => apply RoundTrip.vcmp
  | vsel => apply RoundTrip.vsel
  | vmov => apply RoundTrip.vmov
  | vmul => apply RoundTrip.vmul
  | cmul => apply RoundTrip.cmul
  | cmulc => apply RoundTrip.cmulc
  | vcvt => apply RoundTrip.vcvt
  | vbfly => apply RoundTrip.vbfly
  | vperm => apply RoundTrip.vperm
  | vbcast => apply RoundTrip.vbcast
  | vred => apply RoundTrip.vred
  | pand => apply RoundTrip.pand
  | por => apply RoundTrip.por
  | pnot => apply RoundTrip.pnot
  | vfma => apply RoundTrip.vfma
  | vfms => apply RoundTrip.vfms
  | cfma => apply RoundTrip.cfma
  | cfmac => apply RoundTrip.cfmac
  | csrr => apply RoundTrip.csrr
  | csrw => apply RoundTrip.csrw
  | csrs => apply RoundTrip.csrs
  | csrc => apply RoundTrip.csrc
  | fenceFull => apply RoundTrip.fenceFull
  | fenceAcq => apply RoundTrip.fenceAcq
  | fenceRel => apply RoundTrip.fenceRel
  | fenceAck => apply RoundTrip.fenceAck
  | wait => apply RoundTrip.wait
  | pf => apply RoundTrip.pf
  | trap => apply RoundTrip.trap
  | eret => apply RoundTrip.eret
  | tlbinvPage => apply RoundTrip.tlbinvPage
  | tlbinvTag => apply RoundTrip.tlbinvTag
  | tlbinvAll => apply RoundTrip.tlbinvAll
  | fenceI => apply RoundTrip.fenceI
  | pause => apply RoundTrip.pause
  | taskEnd => apply RoundTrip.taskEnd
  | spawn => apply RoundTrip.spawn
  | yield => apply RoundTrip.yield
  | cntInit => apply RoundTrip.cntInit
  | barInit => apply RoundTrip.barInit
  | barArrive => apply RoundTrip.barArrive
  | barWait => apply RoundTrip.barWait
  | barLink => apply RoundTrip.barLink
  | phase => apply RoundTrip.phase
  | sleep => apply RoundTrip.sleep
  | teamBind => apply RoundTrip.teamBind
  | hand => apply RoundTrip.hand
  | mark => apply RoundTrip.mark
  | driftSet => apply RoundTrip.driftSet
  | realign => apply RoundTrip.realign
  | teamEnd => apply RoundTrip.teamEnd
  | mreqRead => apply RoundTrip.mreqRead
  | mreqWrite => apply RoundTrip.mreqWrite
  | pgmove => apply RoundTrip.pgmove
  | pghot => apply RoundTrip.pghot
  | pgabort => apply RoundTrip.pgabort
  | send => apply RoundTrip.send
  | portOpen => apply RoundTrip.portOpen
  | portClose => apply RoundTrip.portClose
  | treeInj => apply RoundTrip.treeInj
  | treeExt => apply RoundTrip.treeExt
  | cpy => apply RoundTrip.cpy
  | cpyTry => apply RoundTrip.cpyTry
  | cpyid => apply RoundTrip.cpyid
  | cpywait => apply RoundTrip.cpywait
  | sbind => apply RoundTrip.sbind
  | sfree => apply RoundTrip.sfree
  | sstat => apply RoundTrip.sstat
  | dictLd => apply RoundTrip.dictLd
  | launch => apply RoundTrip.launch
  | launchTry => apply RoundTrip.launchTry
  | axdef => apply RoundTrip.axdef
  | axdefRelease => apply RoundTrip.axdefRelease
  | mapSet => apply RoundTrip.mapSet
  | mapSwap => apply RoundTrip.mapSwap
  | mapRd => apply RoundTrip.mapRd
  | remap => apply RoundTrip.remap
  | rmwait => apply RoundTrip.rmwait
  | axld => apply RoundTrip.axld
  | axst => apply RoundTrip.axst
  | axctx => apply RoundTrip.axctx
  | axmat => apply RoundTrip.axmat
  | axap => apply RoundTrip.axap
  | axmm => apply RoundTrip.axmm
  | axdrain => apply RoundTrip.axdrain
  | axstat => apply RoundTrip.axstat
  | axwait => apply RoundTrip.axwait
  | cMov => apply RoundTrip.cMov
  | cAdd => apply RoundTrip.cAdd
  | cSub => apply RoundTrip.cSub
  | cAnd => apply RoundTrip.cAnd
  | cOr => apply RoundTrip.cOr
  | cXor => apply RoundTrip.cXor
  | cLdD => apply RoundTrip.cLdD
  | cStD => apply RoundTrip.cStD
  | cJr => apply RoundTrip.cJr
  | cAddi => apply RoundTrip.cAddi
  | cLim => apply RoundTrip.cLim
  | cSlli => apply RoundTrip.cSlli
  | cSrli => apply RoundTrip.cSrli
  | cSrai => apply RoundTrip.cSrai
  | cAndi => apply RoundTrip.cAndi
  | cBrEq => apply RoundTrip.cBrEq
  | cBrNe => apply RoundTrip.cBrNe
  | cBrLt => apply RoundTrip.cBrLt
  | cBrGe => apply RoundTrip.cBrGe
  | cJmp => apply RoundTrip.cJmp
  | role => apply RoundTrip.role
  | _ => exact RoundTrip.ofNone rfl

end Sys2Proof.Proofs

/-! SUPPORT. Proofs: the one conversion of an exact value to a format (R243, R244, R246). -/

namespace Sys2Proof.Proofs

open Sys2Proof Sys2Proof.Machine

/-! ### The line of magnitude codes (R235) -/

/-- The distance from a magnitude code to the next one. -/
def ulp (f : FloatRow) (c : Nat) : ℚ := 2 ^ (((max (c / 2 ^ f.M) 1 : ℕ) : ℤ) - f.bias - f.M)

/-- The value of a magnitude code; the line runs on past the last code of the format. -/
def magVal (f : FloatRow) (c : Nat) : ℚ := ((if c / 2 ^ f.M = 0 then 0 else 2 ^ f.M) + c % 2 ^ f.M : ℕ) * ulp f c

theorem ulp_pos (f : FloatRow) (c : Nat) : 0 < ulp f c := by unfold ulp; positivity

/-- A significand t below 2^(M+1) at exponent field k, or k + 1 from 2^M on. -/
theorem magVal_place (f : FloatRow) {k t : Nat} (lt : t < 2 * 2 ^ f.M) (h : k = 0 ∨ 2 ^ f.M ≤ t) :
    ulp f (k * 2 ^ f.M + t) = 2 ^ ((k : ℤ) + 1 - f.bias - f.M) ∧
    magVal f (k * 2 ^ f.M + t) = t * 2 ^ ((k : ℤ) + 1 - f.bias - f.M) := by
  have pos : 0 < 2 ^ f.M := by positivity
  unfold magVal ulp
  by_cases sub : t < 2 ^ f.M
  · obtain rfl : k = 0 := by omega
    simp [Nat.div_eq_of_lt sub, Nat.mod_eq_of_lt sub]
  · have split : k * 2 ^ f.M + t = (t - 2 ^ f.M) + (k + 1) * 2 ^ f.M := by rw [Nat.add_mul]; omega
    have quot : (k * 2 ^ f.M + t) / 2 ^ f.M = k + 1 := by
      rw [split, Nat.add_mul_div_right _ _ pos, Nat.div_eq_of_lt (by omega), Nat.zero_add]
    have rest : (k * 2 ^ f.M + t) % 2 ^ f.M = t - 2 ^ f.M := by
      rw [split, Nat.add_mul_mod_self_right, Nat.mod_eq_of_lt (by omega)]
    rw [quot, rest, if_neg (Nat.succ_ne_zero k), Nat.add_sub_cancel' (Nat.not_lt.1 sub), Nat.max_eq_left (by omega)]
    simp

theorem magVal_zero (f : FloatRow) : magVal f 0 = 0 := by simp [magVal]

/-- Every code is a significand below 2^(M+1) at an exponent field. -/
theorem exists_place (f : FloatRow) (c : Nat) :
    ∃ k t, c = k * 2 ^ f.M + t ∧ t < 2 * 2 ^ f.M ∧ (k = 0 ∨ 2 ^ f.M ≤ t) := by
  have pos : 0 < 2 ^ f.M := by positivity
  have lt := Nat.mod_lt c pos
  have eq := Nat.div_add_mod' c (2 ^ f.M)
  rcases Nat.eq_zero_or_pos (c / 2 ^ f.M) with z | p
  · exact ⟨0, c, by omega, by rw [z] at eq; omega, .inl rfl⟩
  · obtain ⟨k, hk⟩ := Nat.exists_eq_add_of_lt p
    refine ⟨k, 2 ^ f.M + c % 2 ^ f.M, ?_, by omega, .inr (by omega)⟩
    rw [hk, Nat.zero_add, Nat.add_mul] at eq
    omega

theorem magVal_succ (f : FloatRow) (c : Nat) : magVal f (c + 1) = magVal f c + ulp f c := by
  obtain ⟨k, t, rfl, lt, h⟩ := exists_place f c
  obtain ⟨u, v⟩ := magVal_place f lt h
  rw [u, v]
  rcases Nat.lt_or_ge (t + 1) (2 * 2 ^ f.M) with next | last
  · have next := (magVal_place f next (h.imp_right (by omega))).2
    rw [← Nat.add_assoc] at next
    rw [next]; push_cast; ring
  · have t_eq : t = 2 * 2 ^ f.M - 1 := by omega
    have pos : 0 < 2 ^ f.M := by positivity
    have carry : k * 2 ^ f.M + t + 1 = (k + 1) * 2 ^ f.M + 2 ^ f.M := by rw [Nat.add_mul]; omega
    have next := (magVal_place f (k := k + 1) (t := 2 ^ f.M) (by omega) (.inr (Nat.le_refl _))).2
    have t_cast : (t : ℚ) + 1 = 2 * 2 ^ f.M := by
      have : t + 1 = 2 * 2 ^ f.M := by omega
      exact_mod_cast this
    have up : ((k + 1 : ℕ) : ℤ) + 1 - f.bias - f.M = ((k : ℤ) + 1 - f.bias - f.M) + 1 := by push_cast; ring
    rw [carry, next, up, zpow_add_one₀ two_ne_zero]
    push_cast
    linear_combination (2 : ℚ) ^ ((k : ℤ) + 1 - f.bias - f.M) * (-t_cast)

theorem magVal_strictMono (f : FloatRow) : StrictMono (magVal f) :=
  strictMono_nat_of_lt_succ fun c => by
    have := ulp_pos f c
    rw [magVal_succ]; linarith

theorem magVal_nonneg (f : FloatRow) (c : Nat) : 0 ≤ magVal f c :=
  (magVal_zero f).symm.le.trans ((magVal_strictMono f).monotone (Nat.zero_le c))

/-- The sign of a value as a factor. -/
def signFactor (neg : Bool) : ℚ := if neg then -1 else 1

theorem floatVal_eq (f : FloatRow) (x : Nat) : f.val x = signFactor (f.neg x) * magVal f (f.mag x) := by
  have quot : f.mag x / 2 ^ f.M = x / 2 ^ f.M % 2 ^ f.E := by
    rw [FloatRow.mag, Nat.add_comm, Nat.pow_add, Nat.mod_mul_right_div_self]
  have rest : f.mag x % 2 ^ f.M = x % 2 ^ f.M := Nat.mod_mod_of_dvd _ (Nat.pow_dvd_pow 2 (Nat.le_add_left ..))
  unfold FloatRow.val magVal ulp signFactor
  rw [quot, rest]
  dsimp only
  congr 1
  have two : (2 : ℚ) ≠ 0 := two_ne_zero
  split
  · next z => simp [z, zpow_sub₀ two]; ring
  · next z =>
    rw [Nat.max_eq_left (Nat.pos_of_ne_zero z), zpow_sub₀ two _ (f.M : ℤ)]
    push_cast
    field_simp
    simp


/-! ### The formats of R235 -/

/-- What the roundings need to know of a format: the decoder's record of it, its codes' shape and its largest finite code. -/
structure RowShape (f : FloatRow) : Prop where
  e : (fmtOf f.t).e = f.E
  m : (fmtOf f.t).m = f.M
  bias : (fmtOf f.t).bias = f.bias
  inf : (fmtOf f.t).inf = decide (8 ≤ f.t)
  maxCode : (fmtOf f.t).maxCode = f.top
  nanCode : (fmtOf f.t).nanCode = f.canonical
  top_pos : 0 < f.top
  top_lt : f.top + (if f.t < 8 then 0 else 1) < 2 ^ (f.E + f.M)
  /-- The code below the largest stands in the same binade. -/
  top_div : (f.top - 1) / 2 ^ f.M = f.top / 2 ^ f.M
  even : 2 ^ (f.E + f.M) % 2 = 0
  fin : ∀ c, f.fin c ↔ c < 2 ^ (1 + f.E + f.M) ∧ f.mag c ≤ f.top

theorem rowShape {f : FloatRow} (h : f ∈ floatRows) : RowShape f := by
  simp only [floatRows, List.mem_cons, List.not_mem_nil, or_false] at h
  rcases h with rfl | rfl | rfl | rfl | rfl | rfl | rfl | rfl <;>
  exact ⟨rfl, rfl, rfl, rfl, rfl, rfl, by decide, by decide, by decide, by decide,
    fun c => by dsimp only [FloatRow.fin, FloatRow.nan, FloatRow.inf, FloatRow.mag, FloatRow.top]; norm_num; omega⟩

/-- The bit that the sign adds to a magnitude code. -/
def signBit (f : FloatRow) (neg : Bool) : Nat := if neg then 2 ^ (f.E + f.M) else 0

section
variable {f : FloatRow} {k : Nat} (lt : k < 2 ^ (f.E + f.M)) (neg : Bool)
include lt

theorem signed_mag : f.mag (signBit f neg + k) = k := by
  cases neg <;> simp [signBit, FloatRow.mag, Nat.mod_eq_of_lt lt]

theorem signed_neg : f.neg (signBit f neg + k) = neg := by
  have pos : 0 < 2 ^ (f.E + f.M) := by positivity
  cases neg <;> simp [signBit, FloatRow.neg, Nat.div_eq_of_lt lt, pos]

theorem signed_val : f.val (signBit f neg + k) = signFactor neg * magVal f k := by
  rw [floatVal_eq, signed_neg lt, signed_mag lt]

theorem signed_fin (shape : RowShape f) : f.fin (signBit f neg + k) ↔ k ≤ f.top := by
  rw [shape.fin, signed_mag lt]
  have : signBit f neg + k < 2 ^ (1 + f.E + f.M) := by
    rw [Nat.add_assoc, Nat.pow_add]
    cases neg <;> simp [signBit] <;> omega
  simp [this]

end

/-! ### Exact values between two codes -/

/-- `roundsUp` with the place d of the value between two neighbours whose distance is u. -/
def roundsUpBy (rm : Nat) (neg odd : Bool) (d u : ℚ) (r : Nat) : Bool :=
  match rm with
  | 0 => decide (u < 2 * d) || (decide (u = 2 * d) && odd)
  | 1 => false
  | 2 => !neg
  | 3 => neg
  | 4 => decide (r * u ≤ d * 65536)
  | _ => true

theorem roundsUp_eq_by {rem den : Nat} (pos : 0 < den) {u : ℚ} (hu : 0 < u) (rm : Nat) (neg odd : Bool) (r : Nat) :
    roundsUp rm neg odd rem den r = roundsUpBy rm neg odd (rem / den * u) u r := by
  have pos' : (0 : ℚ) < den := by exact_mod_cast pos
  have half : den < 2 * rem ↔ u < 2 * (rem / den * u) := by
    rw [← Nat.cast_lt (α := ℚ), show 2 * ((rem : ℚ) / den * u) = (2 * rem) / den * u by ring, lt_mul_iff_one_lt_left hu, one_lt_div pos']
    push_cast; rfl
  have tie : den = 2 * rem ↔ u = 2 * (rem / den * u) := by
    rw [← Nat.cast_inj (R := ℚ), show 2 * ((rem : ℚ) / den * u) = (2 * rem) / den * u by ring, eq_comm (a := u), mul_eq_right₀ hu.ne',
      div_eq_one_iff_eq pos'.ne', eq_comm]
    push_cast; rfl
  have draw : r * den ≤ rem * 65536 ↔ (r : ℚ) * u ≤ rem / den * u * 65536 := by
    rw [← Nat.cast_le (α := ℚ), show (rem : ℚ) / den * u * 65536 = (rem * 65536) / den * u by ring, mul_le_mul_iff_left₀ hu, le_div_iff₀ pos']
    push_cast; rfl
  unfold roundsUp roundsUpBy
  split <;> simp [half, tie, draw]

theorem splitAt_spec {m : Nat} {k : Int} : ∃ t rem den, splitAt m k = (t, rem, den) ∧ rem < den ∧
    (m : ℚ) * 2 ^ k = t + rem / den := by
  unfold splitAt
  split
  · next h =>
    refine ⟨_, _, _, rfl, Nat.one_pos, ?_⟩
    lift k to ℕ using h
    simp
  · next h =>
    refine ⟨_, _, _, rfl, Nat.mod_lt _ (by positivity), ?_⟩
    obtain ⟨n, rfl⟩ : ∃ n : ℕ, k = -n := ⟨(-k).toNat, by omega⟩
    have two : (2 ^ n : ℚ) ≠ 0 := by positivity
    have div : ((2 ^ n * (m / 2 ^ n) + m % 2 ^ n : ℕ) : ℚ) = m := by rw [Nat.div_add_mod]
    simp only [neg_neg, Int.toNat_natCast, zpow_neg, zpow_natCast]
    push_cast at div ⊢
    field_simp
    linarith

/-- Beyond the largest finite value of a format with infinities: does a mode give the infinity? `half` says whether it lies half a
place or more beyond. -/
def overflows (rm : Nat) (neg half : Bool) : Bool :=
  match rm with
  | 0 => half
  | 1 => false
  | 2 => !neg
  | 3 => neg
  | _ => true

/-- Where `roundMag` sends a value that lies d above the code lo, whose distance to the next code is u. -/
def roundAt (f : FloatRow) (rm : Nat) (neg : Bool) (lo : Nat) (d u : ℚ) (r : Nat) : Nat × Bool :=
  if f.top < lo ∨ (lo = f.top ∧ d ≠ 0) then
    (if 8 ≤ f.t ∧ overflows rm neg (decide (f.top < lo ∨ u ≤ 2 * d)) then f.top + 1 else f.top, true)
  else (if d ≠ 0 ∧ roundsUpBy rm neg (lo % 2 = 1) d u r then lo + 1 else lo, decide (d ≠ 0))


/-! ### `roundMag` in the line of codes -/

/-- The rounding of `roundMag` once the magnitude is placed: code lo and rem/den of the way to the next. -/
def roundTail (f : Fmt) (rm : Nat) (neg : Bool) (lo rem den r : Nat) : Nat × Bool :=
  if f.maxCode < lo ∨ (lo = f.maxCode ∧ decide (rem ≠ 0)) then
    (if f.inf && overflows rm neg (decide (f.maxCode < lo) || decide (den ≤ 2 * rem)) then f.maxCode + 1 else f.maxCode, true)
  else (if decide (rem ≠ 0) && roundsUp rm neg (lo % 2 = 1) rem den r then lo + 1 else lo, decide (rem ≠ 0))

/-- The exponent of the last place of m · 2^e in a format. -/
def lastPlace (f : Fmt) (m : Nat) (e : Int) : Int := max ((Nat.log2 m : Int) + e) (1 - (f.bias : Int)) - f.m

theorem roundMag_eq_tail {f : Fmt} {m : Nat} {e : Int} (pos : m ≠ 0) {t rem den : Nat}
    (h : splitAt m (e - lastPlace f m e) = (t, rem, den)) (rm : Nat) (neg : Bool) (r : Nat) :
    roundMag f rm neg m e r =
      roundTail f rm neg ((lastPlace f m e + f.m + f.bias - 1).toNat * 2 ^ f.m + t) rem den r := by
  unfold roundMag roundTail
  rw [if_neg pos]
  unfold lastPlace at h
  simp only [h]
  cases f.inf <;> rfl

theorem roundTail_eq_at {f : FloatRow} (shape : RowShape f) {rem den : Nat} (pos : 0 < den) {u : ℚ} (hu : 0 < u) (rm : Nat)
    (neg : Bool) (lo r : Nat) :
    roundTail (fmtOf f.t) rm neg lo rem den r = roundAt f rm neg lo (rem / den * u) u r := by
  have pos' : (0 : ℚ) < den := by exact_mod_cast pos
  have inexact : rem ≠ 0 ↔ (rem : ℚ) / den * u ≠ 0 := by simp [pos.ne', hu.ne']
  have half : den ≤ 2 * rem ↔ u ≤ 2 * (rem / den * u) := by
    rw [← Nat.cast_le (α := ℚ), show 2 * ((rem : ℚ) / den * u) = (2 * rem) / den * u by ring, le_mul_iff_one_le_left hu, one_le_div pos']
    push_cast; rfl
  unfold roundTail roundAt
  rw [shape.maxCode, shape.inf, roundsUp_eq_by pos hu]
  simp only [decide_eq_true_eq, inexact]
  congr 1
  · simp [half]
  · simp

/-- The code below a magnitude, and its rounding by the place between the two. -/
theorem exists_roundAt {f : FloatRow} (shape : RowShape f) (m : Nat) (e : Int) :
    ∃ lo, magVal f lo ≤ m * 2 ^ e ∧ (m : ℚ) * 2 ^ e < magVal f (lo + 1) ∧ ∀ rm neg r,
      roundMag (fmtOf f.t) rm neg m e r = roundAt f rm neg lo (m * 2 ^ e - magVal f lo) (ulp f lo) r := by
  rcases Nat.eq_zero_or_pos m with rfl | pos
  · refine ⟨0, by simp [magVal_zero], ?_, fun rm neg r => ?_⟩
    · have := ulp_pos f 0
      simpa [magVal_succ, magVal_zero] using this
    · have := shape.top_pos
      simp [roundMag, roundAt, magVal_zero, this.ne]
  · obtain ⟨t, rem, den, split, lt, value⟩ := splitAt_spec (m := m) (k := e - lastPlace (fmtOf f.t) m e)
    have den_pos : 0 < den := by omega
    have frac_nonneg : (0 : ℚ) ≤ rem / den := by positivity
    have frac_lt : (rem : ℚ) / den < 1 := by rw [div_lt_one (by exact_mod_cast den_pos)]; exact_mod_cast lt
    have log_le : 2 ^ Nat.log2 m ≤ m := Nat.log2_self_le pos.ne'
    have lt_log : m < 2 ^ (Nat.log2 m + 1) := Nat.lt_log2_self
    obtain ⟨k, hk⟩ : ∃ k : ℕ, lastPlace (fmtOf f.t) m e = k + 1 - f.bias - f.M :=
      ⟨(lastPlace (fmtOf f.t) m e + f.M + f.bias - 1).toNat, by simp only [lastPlace, shape.m, shape.bias]; omega⟩
    have field : (lastPlace (fmtOf f.t) m e + (fmtOf f.t).m + (fmtOf f.t).bias - 1).toNat = k := by
      rw [hk, shape.m, shape.bias]; omega
    have two : (1 : ℚ) < 2 := one_lt_two
    have scaled : (m : ℚ) * 2 ^ e = (t + rem / den) * 2 ^ lastPlace (fmtOf f.t) m e := by
      rw [← value, mul_assoc, ← zpow_add₀ two_ne_zero]; simp
    have top_exp : (Nat.log2 m : ℤ) + e ≤ lastPlace (fmtOf f.t) m e + f.M := by
      simp only [lastPlace, shape.m]; omega
    have significand : t < 2 * 2 ^ f.M := by
      have : (m : ℚ) * 2 ^ (e - lastPlace (fmtOf f.t) m e) < 2 * 2 ^ f.M := calc
        _ < 2 ^ ((Nat.log2 m + 1 : ℕ) : ℤ) * (2 : ℚ) ^ (e - lastPlace (fmtOf f.t) m e) := by
          rw [zpow_natCast]; gcongr; exact_mod_cast lt_log
        _ = 2 ^ ((Nat.log2 m + 1 : ℕ) + (e - lastPlace (fmtOf f.t) m e)) := (zpow_add₀ two_ne_zero _ _).symm
        _ ≤ 2 ^ ((1 : ℤ) + f.M) := zpow_le_zpow_right₀ two.le (by push_cast; omega)
        _ = 2 * 2 ^ f.M := by rw [zpow_add₀ two_ne_zero]; simp
      rw [value] at this
      have : (t : ℚ) < 2 * 2 ^ f.M := by linarith
      exact_mod_cast this
    have normal : k = 0 ∨ 2 ^ f.M ≤ t := by
      refine or_iff_not_imp_left.2 fun hk0 => ?_
      have top_exp : (Nat.log2 m : ℤ) + e = lastPlace (fmtOf f.t) m e + f.M := by
        have : k ≠ 0 := hk0
        simp only [lastPlace, shape.m, shape.bias] at hk ⊢; omega
      have : (2 : ℚ) ^ f.M ≤ m * 2 ^ (e - lastPlace (fmtOf f.t) m e) := calc
        (2 : ℚ) ^ f.M = 2 ^ ((Nat.log2 m : ℤ) + (e - lastPlace (fmtOf f.t) m e)) := by
          rw [← zpow_natCast]; congr 1; omega
        _ = 2 ^ Nat.log2 m * 2 ^ (e - lastPlace (fmtOf f.t) m e) := by rw [zpow_add₀ two_ne_zero, zpow_natCast]
        _ ≤ _ := by gcongr; exact_mod_cast log_le
      rw [value] at this
      by_contra small
      have : (t : ℚ) + 1 ≤ 2 ^ f.M := by exact_mod_cast Nat.lt_of_not_ge small
      linarith
    obtain ⟨hu, hv⟩ := magVal_place f significand normal
    rw [← hk] at hu hv
    have between : (m : ℚ) * 2 ^ e = magVal f (k * 2 ^ f.M + t) + rem / den * ulp f (k * 2 ^ f.M + t) := by
      rw [hu, hv, scaled]; ring
    have u_pos := ulp_pos f (k * 2 ^ f.M + t)
    refine ⟨k * 2 ^ f.M + t, ?_, ?_, fun rm neg r => ?_⟩
    · have := mul_nonneg frac_nonneg u_pos.le
      linarith
    · rw [magVal_succ, between]
      have := mul_lt_of_lt_one_left u_pos frac_lt
      linarith
    · rw [roundMag_eq_tail pos.ne' split, field, shape.m, roundTail_eq_at shape den_pos u_pos, between, add_sub_cancel_left]


/-! ### What each mode makes of a magnitude between two codes (R243, R244) -/

theorem roundAt_le (f : FloatRow) (rm : Nat) (neg : Bool) {lo : Nat} {d u : ℚ} {r : Nat} :
    (roundAt f rm neg lo d u r).1 ≤ f.top + if f.t < 8 then 0 else 1 := by
  unfold roundAt
  split
  · next h =>
    split
    · next up => rw [if_neg (Nat.not_lt.2 up.1)]
    · exact Nat.le_add_right ..
  · next h =>
    rw [not_or, not_lt, not_and] at h
    obtain ⟨le, exact_top⟩ := h
    refine le_trans ?_ (Nat.le_add_right ..)
    split
    · next up => exact Nat.lt_of_le_of_ne le fun e => exact_top e up.1
    · exact le

/-- No code stands between lo and the next one. -/
theorem magVal_neighbours (f : FloatRow) (lo j : Nat) : magVal f j ≤ magVal f lo ∨ magVal f lo + ulp f lo ≤ magVal f j := by
  rw [← magVal_succ]
  exact (Nat.lt_or_ge lo j).symm.imp (fun h => (magVal_strictMono f).monotone h) fun h => (magVal_strictMono f).monotone h

section
variable {f : FloatRow} {lo : Nat} {X : ℚ} (above : magVal f lo ≤ X) (below : X < magVal f (lo + 1))
include above below

theorem roundAt_beyond (h : magVal f f.top < X) (rm : Nat) (neg : Bool) (r : Nat) :
    roundAt f rm neg lo (X - magVal f lo) (ulp f lo) r = (if 8 ≤ f.t ∧ overflows rm neg (decide (magVal f f.top + ulp f f.top / 2 ≤ X)) then f.top + 1 else f.top, true) := by
  have le : f.top ≤ lo := Nat.lt_succ_iff.1 ((magVal_strictMono f).lt_iff_lt.1 (h.trans below))
  have zone : f.top < lo ∨ lo = f.top ∧ X - magVal f lo ≠ 0 := by
    rcases le.lt_or_eq with lt | rfl
    · exact .inl lt
    · exact .inr ⟨rfl, (sub_pos.2 h).ne'⟩
  have half : (f.top < lo ∨ ulp f lo ≤ 2 * (X - magVal f lo)) ↔ magVal f f.top + ulp f f.top / 2 ≤ X := by
    rcases le.lt_or_eq with lt | rfl
    · have := ulp_pos f f.top
      have next := (magVal_strictMono f).monotone (Nat.succ_le_of_lt lt)
      rw [Nat.succ_eq_add_one, magVal_succ] at next
      simp only [lt, true_or, true_iff]
      linarith
    · simp only [lt_irrefl, false_or]
      constructor <;> intro h <;> linarith
  rw [roundAt, if_pos zone]
  simp only [half]

omit below in
theorem roundAt_within (h : X ≤ magVal f f.top) (rm : Nat) (neg : Bool) (r : Nat) :
    lo ≤ f.top ∧ (X ≠ magVal f lo → lo < f.top) ∧ roundAt f rm neg lo (X - magVal f lo) (ulp f lo) r =
      (if X ≠ magVal f lo ∧ roundsUpBy rm neg (lo % 2 = 1) (X - magVal f lo) (ulp f lo) r then lo + 1 else lo,
        decide (X ≠ magVal f lo)) := by
  have le : lo ≤ f.top := (magVal_strictMono f).le_iff_le.1 (above.trans h)
  have lt (ne : X ≠ magVal f lo) : lo < f.top := (magVal_strictMono f).lt_iff_lt.1 ((above.lt_of_ne' ne).trans_le h)
  have zone : ¬(f.top < lo ∨ lo = f.top ∧ X - magVal f lo ≠ 0) := by
    rintro (gt | ⟨e, ne⟩)
    · omega
    · exact (lt (sub_ne_zero.1 ne)).ne e
  refine ⟨le, lt, ?_⟩
  rw [roundAt, if_neg zone]
  simp only [sub_ne_zero]

/-- Nearest even (mode 0). -/
theorem roundAt_nearest (h : X < magVal f f.top + ulp f f.top / 2 ∨ f.t < 8) (neg : Bool) (r : Nat) :
    let k := (roundAt f 0 neg lo (X - magVal f lo) (ulp f lo) r).1
    k ≤ f.top ∧ ∀ j ≤ f.top, |magVal f k - X| ≤ |magVal f j - X| ∧
      (magVal f j ≠ magVal f k → |magVal f k - X| = |magVal f j - X| → k % 2 = 0) := by
  intro k
  rcases lt_or_ge (magVal f f.top) X with beyond | within
  · have k_top : k = f.top := by
      have : ¬(8 ≤ f.t ∧ overflows 0 neg (decide (magVal f f.top + ulp f f.top / 2 ≤ X)) = true) := by
        rw [overflows, decide_eq_true_eq, not_and, not_le]
        exact fun big => h.resolve_right (Nat.not_lt.2 big)
      simp only [k, roundAt_beyond above below beyond, if_neg this]
    refine ⟨k_top.le, fun j hj => ?_⟩
    have mono := (magVal_strictMono f).monotone hj
    rw [k_top, abs_of_neg (by linarith), abs_of_neg (by linarith)]
    exact ⟨by linarith, fun ne eq => absurd (by linarith) ne⟩
  · obtain ⟨le, lt, eq⟩ := roundAt_within above within 0 neg r
    have u_pos := ulp_pos f lo
    rw [magVal_succ] at below
    by_cases exact_code : X = magVal f lo
    · have k_lo : k = lo := by simp only [k, eq]; simp [exact_code]
      rw [k_lo, exact_code]
      refine ⟨le, fun j _ => ⟨by simp, fun ne e => absurd ?_ ne⟩⟩
      rw [sub_self, abs_zero, eq_comm, abs_eq_zero, sub_eq_zero] at e
      exact e
    · have between : magVal f lo < X := above.lt_of_ne' exact_code
      by_cases up : ulp f lo < 2 * (X - magVal f lo) ∨ ulp f lo = 2 * (X - magVal f lo) ∧ lo % 2 = 1
      · have k_lo : k = lo + 1 := by simp [k, eq, exact_code, roundsUpBy, up]
        rw [k_lo]
        refine ⟨lt exact_code, fun j _ => ?_⟩
        have half : ulp f lo ≤ 2 * (X - magVal f lo) := up.elim le_of_lt fun h => h.1.le
        rw [magVal_succ, abs_of_pos (by linarith)]
        rcases magVal_neighbours f lo j with low | high
        · rw [abs_of_neg (by linarith)]
          refine ⟨by linarith, fun _ e => ?_⟩
          rcases up with up | ⟨_, odd⟩
          · linarith
          · omega
        · rw [abs_of_pos (by linarith)]
          exact ⟨by linarith, fun ne e => absurd (by linarith) ne⟩
      · have k_lo : k = lo := by simp [k, eq, roundsUpBy, up]
        rw [k_lo]
        rw [not_or, not_lt, not_and] at up
        obtain ⟨half, tie⟩ := up
        refine ⟨le, fun j _ => ?_⟩
        rw [abs_of_neg (by linarith)]
        rcases magVal_neighbours f lo j with low | high
        · rw [abs_of_neg (by linarith)]
          exact ⟨by linarith, fun ne e => absurd (by linarith) ne⟩
        · rw [abs_of_pos (by linarith)]
          refine ⟨by linarith, fun _ e => ?_⟩
          have := tie (by linarith)
          omega

/-- Toward zero: mode 1, and the directed modes for a value on the other side of zero. -/
theorem roundAt_inward {rm : Nat} {neg : Bool} (mode : rm = 1 ∨ rm = 2 ∧ neg = true ∨ rm = 3 ∧ neg = false) (r : Nat) :
    let k := (roundAt f rm neg lo (X - magVal f lo) (ulp f lo) r).1
    k ≤ f.top ∧ magVal f k ≤ X ∧ (X ≤ magVal f f.top → k = lo) ∧ ∀ j ≤ f.top, magVal f j ≤ X → magVal f j ≤ magVal f k := by
  intro k
  rcases lt_or_ge (magVal f f.top) X with beyond | within
  · have k_top : k = f.top := by
      rcases mode with rfl | ⟨rfl, rfl⟩ | ⟨rfl, rfl⟩ <;> simp [k, overflows, roundAt_beyond above below beyond]
    rw [k_top]
    exact ⟨le_rfl, beyond.le, fun h => absurd h (not_le.2 beyond), fun j hj _ => (magVal_strictMono f).monotone hj⟩
  · obtain ⟨le, lt, eq⟩ := roundAt_within above within rm neg r
    have k_lo : k = lo := by
      rcases mode with rfl | ⟨rfl, rfl⟩ | ⟨rfl, rfl⟩ <;> simp [k, eq, roundsUpBy]
    rw [k_lo]
    exact ⟨le, above, fun _ => rfl, fun j _ hj =>
      (magVal_neighbours f lo j).resolve_right fun high => by rw [magVal_succ] at below; linarith⟩

/-- Away from zero: the directed modes for a value on their own side of zero. -/
theorem roundAt_outward {rm : Nat} {neg : Bool} (mode : rm = 2 ∧ neg = false ∨ rm = 3 ∧ neg = true) (r : Nat) :
    let k := (roundAt f rm neg lo (X - magVal f lo) (ulp f lo) r).1
    (magVal f f.top < X → k = if f.t < 8 then f.top else f.top + 1) ∧
    (X ≤ magVal f f.top → k ≤ f.top ∧ X ≤ magVal f k ∧ ∀ j, X ≤ magVal f j → magVal f k ≤ magVal f j) := by
  intro k
  refine ⟨fun beyond => ?_, fun within => ?_⟩
  · rcases mode with ⟨rfl, rfl⟩ | ⟨rfl, rfl⟩ <;> by_cases small : f.t < 8 <;>
      simp [k, overflows, roundAt_beyond above below beyond, small, Nat.not_le.2, Nat.not_lt.1]
  · obtain ⟨le, lt, eq⟩ := roundAt_within above within rm neg r
    have k_eq : k = if X ≠ magVal f lo then lo + 1 else lo := by
      rcases mode with ⟨rfl, rfl⟩ | ⟨rfl, rfl⟩ <;> simp [k, eq, roundsUpBy]
    rw [k_eq]
    by_cases exact_code : X = magVal f lo
    · simp [exact_code, le]
    · rw [if_pos exact_code]
      refine ⟨lt exact_code, below.le, fun j hj => ?_⟩
      have between := above.lt_of_ne' exact_code
      rw [magVal_succ]
      exact (magVal_neighbours f lo j).resolve_left fun low => by linarith

/-- Stochastic rounding (mode 4). -/
theorem roundAt_stochastic (neg : Bool) (r : Nat) :
    let k := (roundAt f 4 neg lo (X - magVal f lo) (ulp f lo) r).1
    (magVal f f.top < X → k = if f.t < 8 then f.top else f.top + 1) ∧
    (X ≤ magVal f f.top → k = if X ≠ magVal f lo ∧ r * ulp f lo ≤ (X - magVal f lo) * 65536 then lo + 1 else lo) := by
  intro k
  refine ⟨fun beyond => ?_, fun within => ?_⟩
  · by_cases small : f.t < 8 <;> simp [k, overflows, roundAt_beyond above below beyond, small, Nat.not_le.2, Nat.not_lt.1]
  · simp [k, (roundAt_within above within 4 neg r).2.2, roundsUpBy]

/-- A draw is taken exactly for a value without a code. -/
theorem roundAt_exact (rm : Nat) (neg : Bool) (r : Nat) :
    (roundAt f rm neg lo (X - magVal f lo) (ulp f lo) r).2 = false ↔ ∃ j ≤ f.top, magVal f j = X := by
  rcases lt_or_ge (magVal f f.top) X with beyond | within
  · simp only [roundAt_beyond above below beyond, Bool.true_eq_false, false_iff, not_exists, not_and]
    exact fun j hj e => absurd ((magVal_strictMono f).monotone hj) (by linarith)
  · obtain ⟨le, -, eq⟩ := roundAt_within above within rm neg r
    rw [eq, decide_eq_false_iff_not, not_not]
    refine ⟨fun e => ⟨lo, le, e.symm⟩, fun ⟨j, _, e⟩ => ?_⟩
    have upper := (magVal_strictMono f).lt_iff_lt.1 (e.trans_lt below)
    have lower := (magVal_strictMono f).le_iff_le.1 (above.trans_eq e.symm)
    rw [← e, show j = lo by omega]

end


/-! ### Signs -/

theorem signFactor_mul_self (neg : Bool) : signFactor neg * signFactor neg = 1 := by cases neg <;> simp [signFactor]

theorem abs_signFactor (neg : Bool) : |signFactor neg| = 1 := by cases neg <;> simp [signFactor]

theorem val_fin (neg : Bool) (m : Nat) (x : Int) : (Machine.Num.fin neg m x).val = signFactor neg * (m * 2 ^ x) := by
  rw [Num.val, signFactor, mul_assoc]

theorem abs_floatVal (f : FloatRow) (c : Nat) : |f.val c| = magVal f (f.mag c) := by
  rw [floatVal_eq, abs_mul, abs_signFactor, one_mul, abs_of_nonneg (magVal_nonneg f _)]

/-- A value on the side of σ is its magnitude there; one on the other side is no larger than 0. -/
theorem floatVal_side (f : FloatRow) (c : Nat) (neg : Bool) :
    signFactor neg * f.val c = magVal f (f.mag c) ∨ signFactor neg * f.val c = -magVal f (f.mag c) := by
  rw [floatVal_eq]
  cases neg <;> cases f.neg c <;> simp [signFactor]

theorem floatVal_of_lt {f : FloatRow} {k : Nat} (lt : k < 2 ^ (f.E + f.M)) : f.val k = magVal f k := by
  have := signed_val lt false
  simpa [signBit, signFactor] using this

theorem abs_sub_signed (neg : Bool) (v X : ℚ) : |v - signFactor neg * X| = |signFactor neg * v - X| := by
  rw [← one_mul v, ← signFactor_mul_self neg, mul_assoc, ← mul_sub, abs_mul, abs_signFactor, one_mul, ← mul_assoc,
    signFactor_mul_self, one_mul]

/-! ### The codes of a finite value -/

theorem encodeF_fin {f : FloatRow} (shape : RowShape f) (neg : Bool) (m : Nat) (x : Int) (r rm : Nat) : encodeF (fmtOf f.t) rm (.fin neg m x) r =
    (signBit f neg + (roundMag (fmtOf f.t) rm neg m x r).1, (roundMag (fmtOf f.t) rm neg m x r).2) := by
  rw [encodeF, shape.e, shape.m]; rfl

theorem top_lt_pow {f : FloatRow} (shape : RowShape f) : f.top < 2 ^ (f.E + f.M) := lt_of_le_of_lt (Nat.le_add_right ..) shape.top_lt

theorem beyond_eq {f : FloatRow} (shape : RowShape f) : f.val f.top + (f.val f.top - f.val (f.top - 1)) / 2 = magVal f f.top + ulp f f.top / 2 := by
  have lt := top_lt_pow shape
  have pred : magVal f f.top = magVal f (f.top - 1) + ulp f f.top := by
    obtain ⟨k, hk⟩ := Nat.exists_eq_add_of_lt shape.top_pos
    have same := shape.top_div
    rw [hk, Nat.zero_add, Nat.add_sub_cancel] at same ⊢
    rw [magVal_succ, ulp, ulp, same]
  rw [floatVal_of_lt lt, floatVal_of_lt (by omega), pred]
  ring

/-- Nothing on the side of a value stands between it and the next code toward zero. -/
theorem inward_signed {f : FloatRow} (neg : Bool) {k : Nat} {X : ℚ} (best : ∀ j ≤ f.top, magVal f j ≤ X → magVal f j ≤ magVal f k) {c : Nat} (hc : f.mag c ≤ f.top)
    (h : signFactor neg * f.val c ≤ X) : signFactor neg * f.val c ≤ magVal f k := by
  rcases floatVal_side f c neg with e | e
  · rw [e] at h ⊢
    exact best _ hc h
  · have := magVal_nonneg f (f.mag c)
    have := magVal_nonneg f k
    linarith

/-- Nothing on the side of a value stands between it and the next code away from zero. -/
theorem outward_signed {f : FloatRow} (neg : Bool) {k : Nat} {X : ℚ} (nonneg : 0 ≤ X) (best : ∀ j, X ≤ magVal f j → magVal f k ≤ magVal f j) {c : Nat}
    (h : X ≤ signFactor neg * f.val c) : magVal f k ≤ signFactor neg * f.val c := by
  rcases floatVal_side f c neg with e | e
  · rw [e] at h ⊢
    exact best _ h
  · have := magVal_nonneg f (f.mag c)
    have := best 0 (by rw [magVal_zero]; linarith)
    rw [magVal_zero] at this
    linarith

/-- A nearest magnitude is nearest among the codes of both signs. -/
theorem nearest_signed {f : FloatRow} (neg : Bool) {k : Nat} {X : ℚ} (nonneg : 0 ≤ X)
    (best : ∀ j ≤ f.top, |magVal f k - X| ≤ |magVal f j - X| ∧
      (magVal f j ≠ magVal f k → |magVal f k - X| = |magVal f j - X| → k % 2 = 0)) {c : Nat} (hc : f.mag c ≤ f.top) :
    |magVal f k - X| ≤ |signFactor neg * f.val c - X| ∧
      (signFactor neg * f.val c ≠ magVal f k → |magVal f k - X| = |signFactor neg * f.val c - X| → k % 2 = 0) := by
  rcases floatVal_side f c neg with e | e
  · rw [e]
    exact best _ hc
  · obtain ⟨zero_le, zero_tie⟩ := best 0 (Nat.zero_le _)
    have v := magVal_nonneg f (f.mag c)
    rw [magVal_zero, zero_sub, abs_neg, abs_of_nonneg nonneg] at zero_le zero_tie
    rw [e, abs_of_nonpos (by linarith : -magVal f (f.mag c) - X ≤ 0)]
    refine ⟨by linarith, fun ne tie => zero_tie (fun z => ne ?_) (by linarith)⟩
    linarith

/-- The code of the value ± X, which lies between the magnitude codes lo and lo + 1, under a mode. -/
def codeAt (f : FloatRow) (lo : Nat) (X : ℚ) (neg : Bool) (r rm : Nat) : Nat :=
  signBit f neg + (roundAt f rm neg lo (X - magVal f lo) (ulp f lo) r).1

/-- The codes of a value, in the line of magnitude codes. -/
theorem exists_codeAt {f : FloatRow} (shape : RowShape f) (neg : Bool) (m : Nat) (x : Int) (r : Nat) :
    ∃ lo, magVal f lo ≤ m * 2 ^ x ∧ (m : ℚ) * 2 ^ x < magVal f (lo + 1) ∧ ∀ rm, encodeF (fmtOf f.t) rm (.fin neg m x) r =
      (codeAt f lo (m * 2 ^ x) neg r rm, (roundAt f rm neg lo (m * 2 ^ x - magVal f lo) (ulp f lo) r).2) := by
  obtain ⟨lo, above, below, eq⟩ := exists_roundAt shape m x
  refine ⟨lo, above, below, fun rm => ?_⟩
  rw [encodeF_fin shape, eq, codeAt]

section
variable {f : FloatRow} (shape : RowShape f) {lo : Nat} {X : ℚ} (neg : Bool) (r : Nat)
include shape

theorem roundAt_lt_pow (rm : Nat) : (roundAt f rm neg lo (X - magVal f lo) (ulp f lo) r).1 < 2 ^ (f.E + f.M) :=
  lt_of_le_of_lt (roundAt_le f rm neg) shape.top_lt

theorem neg_codeAt (rm : Nat) : f.neg (codeAt f lo X neg r rm) = neg := signed_neg (roundAt_lt_pow shape neg r rm) neg

variable (above : magVal f lo ≤ X) (below : X < magVal f (lo + 1))
include above below

theorem codeAt_nearest (h : X < magVal f f.top + ulp f f.top / 2 ∨ f.t < 8) :
    f.fin (codeAt f lo X neg r 0) ∧ ∀ c, f.fin c →
      |f.val (codeAt f lo X neg r 0) - signFactor neg * X| ≤ |f.val c - signFactor neg * X| ∧
      (f.val c ≠ f.val (codeAt f lo X neg r 0) →
        |f.val (codeAt f lo X neg r 0) - signFactor neg * X| = |f.val c - signFactor neg * X| → codeAt f lo X neg r 0 % 2 = 0) := by
  obtain ⟨le, best⟩ := roundAt_nearest above below h neg r
  have lt := roundAt_lt_pow shape (lo := lo) (X := X) neg r 0
  refine ⟨(signed_fin lt neg shape).2 le, fun c hc => ?_⟩
  obtain ⟨near, tie⟩ := nearest_signed neg ((magVal_nonneg f lo).trans above) best ((shape.fin c).1 hc).2
  have even : signBit f neg % 2 = 0 := by cases neg <;> simp [signBit, shape.even]
  rw [codeAt, signed_val lt, abs_sub_signed, abs_sub_signed, ← mul_assoc, signFactor_mul_self, one_mul, Nat.add_mod, even, Nat.zero_add,
    Nat.mod_mod]
  refine ⟨near, fun ne => tie fun e => ne ?_⟩
  rw [← e, ← mul_assoc, signFactor_mul_self, one_mul]

omit shape in
theorem codeAt_infinity (big : 8 ≤ f.t) (h : magVal f f.top + ulp f f.top / 2 ≤ X) :
    codeAt f lo X neg r 0 = signBit f neg + f.top + 1 := by
  have := ulp_pos f f.top
  simp [codeAt, roundAt_beyond above below (by linarith), overflows, big, h, Nat.add_assoc]

theorem codeAt_toward_zero :
    f.fin (codeAt f lo X neg r 1) ∧ |f.val (codeAt f lo X neg r 1)| ≤ X ∧
      ∀ c, f.fin c → |f.val c| ≤ X → |f.val c| ≤ |f.val (codeAt f lo X neg r 1)| := by
  obtain ⟨le, under, -, best⟩ := roundAt_inward above below (.inl rfl) (neg := neg) r
  have lt := roundAt_lt_pow shape (lo := lo) (X := X) neg r 1
  refine ⟨(signed_fin lt neg shape).2 le, ?_, fun c hc => ?_⟩
  · rwa [codeAt, abs_floatVal, signed_mag lt]
  · rw [codeAt, abs_floatVal, abs_floatVal, signed_mag lt]
    exact best _ ((shape.fin c).1 hc).2

/-- Toward the side of zero: the code does not pass the value, and none between them does better. -/
theorem codeAt_inward {rm : Nat} (mode : rm = 1 ∨ rm = 2 ∧ neg = true ∨ rm = 3 ∧ neg = false) :
    f.fin (codeAt f lo X neg r rm) ∧ signFactor neg * f.val (codeAt f lo X neg r rm) ≤ X ∧
      ∀ c, f.fin c → signFactor neg * f.val c ≤ X → signFactor neg * f.val c ≤ signFactor neg * f.val (codeAt f lo X neg r rm) := by
  obtain ⟨le, under, -, best⟩ := roundAt_inward above below mode r
  have lt := roundAt_lt_pow shape (lo := lo) (X := X) neg r rm
  rw [codeAt, signed_val lt, ← mul_assoc, signFactor_mul_self, one_mul]
  exact ⟨(signed_fin lt neg shape).2 le, under, fun c hc => inward_signed neg best ((shape.fin c).1 hc).2⟩

/-- Away from zero: within the format, the code is not passed by the value, and none between them does better. -/
theorem codeAt_outward {rm : Nat} (mode : rm = 2 ∧ neg = false ∨ rm = 3 ∧ neg = true) :
    (magVal f f.top < X → codeAt f lo X neg r rm = signBit f neg + if f.t < 8 then f.top else f.top + 1) ∧
    (X ≤ magVal f f.top → f.fin (codeAt f lo X neg r rm) ∧ X ≤ signFactor neg * f.val (codeAt f lo X neg r rm) ∧
      ∀ c, X ≤ signFactor neg * f.val c → signFactor neg * f.val (codeAt f lo X neg r rm) ≤ signFactor neg * f.val c) := by
  obtain ⟨beyond, within⟩ := roundAt_outward above below mode r
  have lt := roundAt_lt_pow shape (lo := lo) (X := X) neg r rm
  refine ⟨fun h => by rw [codeAt, beyond h], fun h => ?_⟩
  obtain ⟨le, past, best⟩ := within h
  rw [codeAt, signed_val lt, ← mul_assoc, signFactor_mul_self, one_mul]
  exact ⟨(signed_fin lt neg shape).2 le, past, fun c => outward_signed neg ((magVal_nonneg f lo).trans above) best⟩

theorem codeAt_up :
    (signFactor neg * X ≤ magVal f f.top → f.fin (codeAt f lo X neg r 2) ∧ signFactor neg * X ≤ f.val (codeAt f lo X neg r 2) ∧
      ∀ c, f.fin c → signFactor neg * X ≤ f.val c → f.val (codeAt f lo X neg r 2) ≤ f.val c) ∧
    (magVal f f.top < signFactor neg * X → codeAt f lo X neg r 2 = if f.t < 8 then f.top else f.top + 1) := by
  have top := magVal_nonneg f f.top
  have X_nonneg := (magVal_nonneg f lo).trans above
  cases neg with
  | false =>
    obtain ⟨beyond, within⟩ := codeAt_outward shape false r above below (.inl ⟨rfl, rfl⟩)
    simp only [signFactor, signBit, Bool.false_eq_true, if_false, one_mul, Nat.zero_add] at beyond within ⊢
    exact ⟨fun h => ⟨(within h).1, (within h).2.1, fun c _ => (within h).2.2 c⟩, beyond⟩
  | true =>
    obtain ⟨fin, under, best⟩ := codeAt_inward shape true r above below (.inr (.inl ⟨rfl, rfl⟩))
    simp only [signFactor, if_true, neg_one_mul] at under best ⊢
    exact ⟨fun _ => ⟨fin, by linarith, fun c hc h => neg_le_neg_iff.1 (best c hc (by linarith))⟩, fun h => by linarith⟩

theorem codeAt_down :
    (-magVal f f.top ≤ signFactor neg * X → f.fin (codeAt f lo X neg r 3) ∧ f.val (codeAt f lo X neg r 3) ≤ signFactor neg * X ∧
      ∀ c, f.fin c → f.val c ≤ signFactor neg * X → f.val c ≤ f.val (codeAt f lo X neg r 3)) ∧
    (signFactor neg * X < -magVal f f.top →
      codeAt f lo X neg r 3 = signBit f neg + if f.t < 8 then f.top else f.top + 1) := by
  have top := magVal_nonneg f f.top
  have X_nonneg := (magVal_nonneg f lo).trans above
  cases neg with
  | false =>
    obtain ⟨fin, under, best⟩ := codeAt_inward shape false r above below (.inr (.inr ⟨rfl, rfl⟩))
    simp only [signFactor, Bool.false_eq_true, if_false, one_mul] at under best ⊢
    exact ⟨fun _ => ⟨fin, under, best⟩, fun h => by linarith⟩
  | true =>
    obtain ⟨beyond, within⟩ := codeAt_outward shape true r above below (.inr ⟨rfl, rfl⟩)
    simp only [signFactor, if_true, neg_one_mul] at beyond within ⊢
    refine ⟨fun h => ?_, fun h => beyond (by linarith)⟩
    obtain ⟨fin, past, best⟩ := within (by linarith)
    exact ⟨fin, by linarith, fun c _ h => neg_le_neg_iff.1 (best c (by linarith))⟩

theorem codeAt_stochastic :
    (magVal f f.top < X → codeAt f lo X neg r 4 = signBit f neg + if f.t < 8 then f.top else f.top + 1) ∧
    (X ≤ magVal f f.top → codeAt f lo X neg r 4 =
      if f.val (codeAt f lo X neg r 1) ≠ signFactor neg * X ∧
        (r : ℚ) * (|f.val (codeAt f lo X neg r 1 + 1)| - |f.val (codeAt f lo X neg r 1)|) ≤
          (X - |f.val (codeAt f lo X neg r 1)|) * 65536
      then codeAt f lo X neg r 1 + 1 else codeAt f lo X neg r 1) := by
  obtain ⟨beyond, within⟩ := roundAt_stochastic above below neg r
  refine ⟨fun h => by rw [codeAt, beyond h], fun h => ?_⟩
  obtain ⟨le, lt, -⟩ := roundAt_within above h 1 neg r
  have low : codeAt f lo X neg r 1 = signBit f neg + lo := by
    rw [codeAt, (roundAt_inward above below (.inl rfl) r).2.2.1 h]
  have top := top_lt_pow shape
  have lo_lt := le.trans_lt top
  rw [low, codeAt, within h, abs_floatVal, abs_floatVal, signed_mag lo_lt, signed_val lo_lt]
  by_cases exact_code : X = magVal f lo
  · simp [exact_code]
  · have sign_ne : signFactor neg ≠ 0 := by cases neg <;> simp [signFactor]
    have ne : signFactor neg * magVal f lo ≠ signFactor neg * X := fun e => exact_code (mul_left_cancel₀ sign_ne e).symm
    rw [Nat.add_assoc, signed_mag (Nat.lt_of_le_of_lt (lt exact_code) top), magVal_succ, add_sub_cancel_left]
    simp only [ne_eq, exact_code, ne, not_false_eq_true, true_and]
    split <;> rfl

theorem codeAt_exact : (roundAt f 4 neg lo (X - magVal f lo) (ulp f lo) r).2 = false ↔ ∃ c, f.fin c ∧ f.val c = signFactor neg * X := by
  have X_nonneg := (magVal_nonneg f lo).trans above
  rw [roundAt_exact above below]
  constructor
  · rintro ⟨j, le, rfl⟩
    have lt := le.trans_lt (top_lt_pow shape)
    exact ⟨_, (signed_fin lt neg shape).2 le, signed_val lt neg⟩
  · rintro ⟨c, hc, eq⟩
    refine ⟨_, ((shape.fin c).1 hc).2, ?_⟩
    rw [← abs_floatVal, eq, abs_mul, abs_signFactor, one_mul, abs_of_nonneg X_nonneg]

end

/-- The codes of a floating format: sign, nearest even, the directed modes, stochastic rounding and its draws. -/
theorem floatCodes {f : FloatRow} (shape : RowShape f) (neg : Bool) (m : Nat) (x : Int) (r : Nat) :
    let q := (Machine.Num.fin neg m x).val
    let sign := if neg then 2 ^ (f.E + f.M) else 0
    let largest := f.val f.top
    let beyond := largest + (largest - f.val (f.top - 1)) / 2
    let out := if f.t < 8 then f.top else f.top + 1
    let code := fun (rm : Nat) => (encodeF (fmtOf f.t) rm (.fin neg m x) r).1
    let low := code 1
    (∀ rm < 5, f.neg (code rm) = neg) ∧
    ((|q| < beyond ∨ f.t < 8) → f.fin (code 0) ∧ ∀ c, f.fin c → |f.val (code 0) - q| ≤ |f.val c - q| ∧
      (f.val c ≠ f.val (code 0) → |f.val (code 0) - q| = |f.val c - q| → code 0 % 2 = 0)) ∧
    (8 ≤ f.t → beyond ≤ |q| → code 0 = sign + f.top + 1) ∧
    (f.fin low ∧ |f.val low| ≤ |q| ∧ ∀ c, f.fin c → |f.val c| ≤ |q| → |f.val c| ≤ |f.val low|) ∧
    (q ≤ largest → f.fin (code 2) ∧ q ≤ f.val (code 2) ∧ ∀ c, f.fin c → q ≤ f.val c → f.val (code 2) ≤ f.val c) ∧
    (largest < q → code 2 = out) ∧
    (-largest ≤ q → f.fin (code 3) ∧ f.val (code 3) ≤ q ∧ ∀ c, f.fin c → f.val c ≤ q → f.val c ≤ f.val (code 3)) ∧
    (q < -largest → code 3 = sign + out) ∧
    (largest < |q| → code 4 = sign + out) ∧
    (|q| ≤ largest → code 4 = if f.val low ≠ q ∧ (r : ℚ) * (|f.val (low + 1)| - |f.val low|) ≤ (|q| - |f.val low|) * 65536 then low + 1
      else low) ∧
    ((encodeF (fmtOf f.t) 4 (.fin neg m x) r).2 = false ↔ ∃ c, f.fin c ∧ f.val c = q) := by
  obtain ⟨lo, above, below, codes⟩ := exists_codeAt shape neg m x r
  have q_abs : |(Machine.Num.fin neg m x).val| = m * 2 ^ x := by
    rw [val_fin, abs_mul, abs_signFactor, one_mul, abs_of_nonneg ((magVal_nonneg f lo).trans above)]
  dsimp only
  simp only [q_abs, codes, beyond_eq shape]
  rw [val_fin, floatVal_of_lt (top_lt_pow shape)]
  generalize (m : ℚ) * 2 ^ x = X at *
  exact ⟨fun rm _ => neg_codeAt shape neg r rm, codeAt_nearest shape neg r above below, codeAt_infinity neg r above below,
    codeAt_toward_zero shape neg r above below, (codeAt_up shape neg r above below).1, (codeAt_up shape neg r above below).2,
    (codeAt_down shape neg r above below).1, (codeAt_down shape neg r above below).2, (codeAt_stochastic shape neg r above below).1,
    (codeAt_stochastic shape neg r above below).2, codeAt_exact shape neg r above below⟩


/-! ### Integer results (R246) -/

/-- The integer that a mode makes of ± X, where X lies d above the integer v. -/
def intAt (rm : Nat) (neg : Bool) (v : Nat) (d : ℚ) (r : Nat) : ℤ :=
  let k : ℤ := if d ≠ 0 ∧ roundsUpBy rm neg (v % 2 = 1) d 1 r then v + 1 else v
  if neg then -k else k

/-- A finite value is rounded to an integer by its place above the integer below its magnitude, and then clamped. -/
theorem exists_intAt (m : Nat) (x : Int) : ∃ v : ℕ, (v : ℚ) ≤ m * 2 ^ x ∧ (m : ℚ) * 2 ^ x < v + 1 ∧ ∀ t rm neg r,
    encodeI t rm (.fin neg m x) r =
      ((clampInt t (intAt rm neg v (m * 2 ^ x - v) r) % 2 ^ intBits t).toNat,
        decide ((m : ℚ) * 2 ^ x - v ≠ 0) || decide (clampInt t (intAt rm neg v (m * 2 ^ x - v) r) ≠ intAt rm neg v (m * 2 ^ x - v) r)) := by
  obtain ⟨v, rem, den, split, lt, value⟩ := splitAt_spec (m := m) (k := x)
  have den_pos : 0 < den := by omega
  have frac_nonneg : (0 : ℚ) ≤ rem / den := by positivity
  have frac_lt : (rem : ℚ) / den < 1 := by rw [div_lt_one (by exact_mod_cast den_pos)]; exact_mod_cast lt
  have inexact : rem ≠ 0 ↔ (rem : ℚ) / den ≠ 0 := by simp [den_pos.ne']
  refine ⟨v, by linarith, by linarith, fun t rm neg r => ?_⟩
  have int_eq : intAt rm neg v (rem / den) r =
      if neg then -(((if rem ≠ 0 && roundsUp rm neg (v % 2 = 1) rem den r then v + 1 else v : ℕ)) : ℤ)
      else ((if rem ≠ 0 && roundsUp rm neg (v % 2 = 1) rem den r then v + 1 else v : ℕ) : ℤ) := by
    rw [intAt, roundsUp_eq_by den_pos one_pos, mul_one]
    simp only [Bool.and_eq_true, decide_eq_true_eq, inexact]
    push_cast
    rfl
  rw [value, add_sub_cancel_left, int_eq]
  simp only [encodeI, split, inexact]

section
variable {v : Nat} {X : ℚ} (above : (v : ℚ) ≤ X) (below : X < v + 1) (neg : Bool) (r : Nat)
include above below

theorem intAt_nearest : |(intAt 0 neg v (X - v) r : ℚ) - signFactor neg * X| ≤ 1 / 2 ∧
    (|(intAt 0 neg v (X - v) r : ℚ) - signFactor neg * X| = 1 / 2 → intAt 0 neg v (X - v) r % 2 = 0) := by
  have side (k : ℤ) : |((if neg then -k else k : ℤ) : ℚ) - signFactor neg * X| = |(k : ℚ) - X| := by
    rw [abs_sub_signed]
    cases neg <;> simp [signFactor]
  have parity (k : ℤ) : (if neg then -k else k) % 2 = k % 2 := by cases neg <;> simp
  rw [intAt, side, parity]
  by_cases up : 1 < 2 * (X - v) ∨ 1 = 2 * (X - v) ∧ v % 2 = 1
  · have half : 1 ≤ 2 * (X - v) := up.elim le_of_lt fun h => h.1.le
    have place : X - v ≠ 0 ∧ roundsUpBy 0 neg (v % 2 = 1) (X - v) 1 r = true := by
      refine ⟨fun z => by linarith, by simpa [roundsUpBy] using up⟩
    rw [if_pos place]
    push_cast
    rw [abs_of_pos (by linarith)]
    refine ⟨by linarith, fun e => ?_⟩
    rcases up with up | ⟨_, odd⟩
    · linarith
    · omega
  · have place : ¬(X - v ≠ 0 ∧ roundsUpBy 0 neg (v % 2 = 1) (X - v) 1 r = true) := by simp [roundsUpBy, up]
    rw [not_or, not_lt, not_and] at up
    obtain ⟨half, tie⟩ := up
    rw [if_neg place]
    push_cast
    rw [abs_of_nonpos (by linarith)]
    refine ⟨by linarith, fun e => ?_⟩
    have := tie (by linarith)
    omega

theorem floor_eq_of_between : ⌊X⌋ = v := Int.floor_eq_iff.2 ⟨by exact_mod_cast above, by exact_mod_cast below⟩

theorem ceil_eq_of_between : ⌈X⌉ = if X - v ≠ 0 then (v : ℤ) + 1 else v := by
  split
  · next h =>
    have := above.lt_of_ne' (sub_ne_zero.1 h)
    exact Int.ceil_eq_iff.2 ⟨by push_cast; linarith, by push_cast; exact below.le⟩
  · next h =>
    rw [not_not, sub_eq_zero] at h
    rw [h, Int.ceil_natCast]

theorem intAt_up : intAt 2 neg v (X - v) r = ⌈signFactor neg * X⌉ := by
  cases neg with
  | false => simp [intAt, roundsUpBy, signFactor, ceil_eq_of_between above below]
  | true => simp [intAt, roundsUpBy, signFactor, Int.ceil_neg, floor_eq_of_between above below]

theorem intAt_down : intAt 3 neg v (X - v) r = ⌊signFactor neg * X⌋ := by
  cases neg with
  | false => simp [intAt, roundsUpBy, signFactor, floor_eq_of_between above below]
  | true => simp [intAt, roundsUpBy, signFactor, Int.floor_neg, ceil_eq_of_between above below]

/-- The integers of a value that is one. -/
theorem intAt_exact {k : ℤ} (h : (k : ℚ) = signFactor neg * X) (rm : Nat) : X - v = 0 ∧ intAt rm neg v (X - v) r = k := by
  have X_nonneg : 0 ≤ X := v.cast_nonneg.trans above
  have X_eq : X = (k.natAbs : ℚ) := by
    rw [Nat.cast_natAbs, Int.cast_abs, h, abs_mul, abs_signFactor, one_mul, abs_of_nonneg X_nonneg]
  have v_eq : v = k.natAbs := by
    rw [X_eq] at above below
    have := Nat.cast_le.1 above
    have : k.natAbs < v + 1 := by exact_mod_cast below
    omega
  have zero : X - v = 0 := by rw [X_eq, v_eq, sub_self]
  refine ⟨zero, ?_⟩
  have k_eq : ((if neg then -(v : ℤ) else v : ℤ) : ℚ) = k := by
    rw [h, sub_eq_zero.1 zero]
    cases neg <;> simp [signFactor]
  rw [zero, intAt]
  simpa using (Int.cast_inj (α := ℚ)).1 k_eq

end

/-- What the roundings need to know of an integer format: its range, as its sign and width give it. -/
structure IntShape (t : Nat) (sign : Bool) (w : Nat) : Prop where
  bits : intBits t = w
  lo : intLo t = if sign then -(2 : ℤ) ^ (w - 1) else 0
  hi : intHi t = if sign then (2 : ℤ) ^ (w - 1) - 1 else 2 ^ w - 1

theorem intShape {p : Nat × Bool × Nat} (h : p ∈ [(0, true, 4), (2, true, 8), (3, false, 8), (16, true, 16), (17, true, 32),
    (18, true, 64), (19, false, 16), (20, false, 32), (21, false, 64)]) : IntShape p.1 p.2.1 p.2.2 := by
  simp only [List.mem_cons, List.not_mem_nil, or_false] at h
  rcases h with rfl | rfl | rfl | rfl | rfl | rfl | rfl | rfl | rfl <;> exact ⟨rfl, rfl, rfl⟩

/-- The codes of an integer format: the integer of the mode, clamped. -/
theorem intCodes {t : Nat} {sgn : Bool} {w : Nat} (shape : IntShape t sgn w) (neg : Bool) (m : Nat) (x : Int) (r : Nat) :
    let q := (Machine.Num.fin neg m x).val
    let low := if sgn then -(2 : ℤ) ^ (w - 1) else 0
    let high := if sgn then (2 : ℤ) ^ (w - 1) - 1 else 2 ^ w - 1
    let held := fun (k : ℤ) => max low (min high k) % 2 ^ w
    let code := fun (rm : Nat) => ((encodeI t rm (.fin neg m x) r).1 : ℤ)
    let a := ⌊|q|⌋
    (∃ k : ℤ, |(k : ℚ) - q| ≤ 1 / 2 ∧ (|(k : ℚ) - q| = 1 / 2 → k % 2 = 0) ∧ code 0 = held k) ∧
    code 1 = held (if neg then -a else a) ∧ code 2 = held ⌈q⌉ ∧ code 3 = held ⌊q⌋ ∧
    (let k := if (a : ℚ) ≠ |q| ∧ (r : ℚ) ≤ (|q| - a) * 65536 then a + 1 else a
     code 4 = held (if neg then -k else k)) ∧
    ((encodeI t 4 (.fin neg m x) r).2 = false ↔ ∃ k : ℤ, low ≤ k ∧ k ≤ high ∧ (k : ℚ) = q) ∧
    ∀ rm, (encodeI t rm .nan r).1 = 0 ∧ ∀ s, ((encodeI t rm (.inf s) r).1 : ℤ) = held (if s then low else high) := by
  obtain ⟨bits, lo, hi⟩ := shape
  have pow_pos : (0 : ℤ) < 2 ^ w := by positivity
  have low_le : intLo t ≤ intHi t := by
    rw [lo, hi]
    have : (0 : ℤ) < 2 ^ (w - 1) := by positivity
    split <;> omega
  have nonneg (k : ℤ) : ((k % 2 ^ w).toNat : ℤ) = k % 2 ^ w := Int.toNat_of_nonneg (Int.emod_nonneg _ pow_pos.ne')
  obtain ⟨v, above, below, codes⟩ := exists_intAt m x
  have q_abs : |(Machine.Num.fin neg m x).val| = m * 2 ^ x := by
    rw [val_fin, abs_mul, abs_signFactor, one_mul, abs_of_nonneg (v.cast_nonneg.trans above)]
  intro q low high held code a
  have codes_held (rm : Nat) : code rm = held (intAt rm neg v (m * 2 ^ x - v) r) := by
    simp only [code, held, codes, nonneg, bits, clampInt, lo, hi, low, high]
  have a_eq : a = v := by simp only [a, q, q_abs]; exact floor_eq_of_between above below
  have q_eq : q = signFactor neg * (m * 2 ^ x) := val_fin neg m x
  have abs_eq : |q| = m * 2 ^ x := q_abs
  refine ⟨⟨intAt 0 neg v (m * 2 ^ x - v) r, ?nearest⟩, ?zero, ?up, ?down, ?stochastic, ?draw, fun rm => ⟨rfl, fun s => ?inf⟩⟩
  case nearest =>
    obtain ⟨near, tie⟩ := intAt_nearest above below neg r
    rw [q_eq]
    exact ⟨near, tie, codes_held 0⟩
  case zero => rw [codes_held, a_eq]; simp [intAt, roundsUpBy]
  case up => rw [codes_held, intAt_up above below, q_eq]
  case down => rw [codes_held, intAt_down above below, q_eq]
  case stochastic =>
    rw [codes_held, a_eq, abs_eq]
    simp only [intAt, roundsUpBy, mul_one, decide_eq_true_eq, Int.cast_natCast, sub_ne_zero.trans ne_comm]
  case draw =>
    have draw_eq : (encodeI t 4 (.fin neg m x) r).2 = false ↔
        (m : ℚ) * 2 ^ x - v = 0 ∧ clampInt t (intAt 4 neg v (m * 2 ^ x - v) r) = intAt 4 neg v (m * 2 ^ x - v) r := by
      rw [codes]; simp
    have clamp_iff (k : ℤ) : clampInt t k = k ↔ low ≤ k ∧ k ≤ high := by
      simp only [clampInt, low, high, ← lo, ← hi]; omega
    rw [draw_eq, clamp_iff, q_eq]
    constructor
    · rintro ⟨zero, le, ge⟩
      refine ⟨_, le, ge, ?_⟩
      rw [zero, sub_eq_zero.1 zero]
      cases neg <;> simp [intAt, signFactor]
    · rintro ⟨k, le, ge, eq⟩
      obtain ⟨zero, int⟩ := intAt_exact above below neg r eq 4
      exact ⟨zero, int ▸ le, int ▸ ge⟩
  case inf =>
    simp only [encodeI, nonneg, bits, held, low, high, ← lo, ← hi]
    cases s <;> simp [low_le]

/-- Settles O18: the float codes by their place in the line of magnitude codes, the integers by their place between two integers. -/
theorem rounding : Obligations.Rounding := by
  unfold Obligations.Rounding
  refine ⟨fun f hf => floatCodes (rowShape hf), fun f hf rm r => ?_, fun p hp => intCodes (intShape hp)⟩
  have shape := rowShape hf
  refine ⟨shape.nanCode, fun neg => ?_⟩
  have small : (fmtOf f.t).inf = true ↔ ¬f.t < 8 := by rw [shape.inf, decide_eq_true_eq, not_lt]
  simp only [encodeF, shape.e, shape.m, shape.maxCode, small, ite_not]

end Sys2Proof.Proofs

/-! SUPPORT. Proofs: what a trap of an access comes to (R101, R102, R111). -/

namespace Sys2Proof.Proofs

open Sys2Proof Sys2Proof.Machine Sys2Proof.Laws

/-! ### What filling the TLBs changes (R96, R98) -/

/-- Two states differ at most in what the TLBs of cores and clusters hold. -/
def Filled (s t : State) : Prop := ∃ cores clusters, t = { s with cores := cores, clusters := clusters }

theorem Filled.refl (s : State) : Filled s s := ⟨s.cores, s.clusters, rfl⟩

theorem Filled.trans {s t u : State} (h : Filled s t) (k : Filled t u) : Filled s u := by
  obtain ⟨_, _, rfl⟩ := h
  obtain ⟨_, _, rfl⟩ := k
  exact ⟨_, _, rfl⟩

theorem Filled.who {s u : State} (f : Filled s u) : u.who = s.who := by obtain ⟨_, _, rfl⟩ := f; rfl
theorem Filled.cur {s u : State} (f : Filled s u) : u.cur = s.cur := by obtain ⟨_, _, rfl⟩ := f; rfl
theorem Filled.net {s u : State} (f : Filled s u) : u.net = s.net := by obtain ⟨_, _, rfl⟩ := f; rfl

theorem translate_filled {s u : State} {core : Nat} {r : Word} {va : VAddr} {k : Nat} {e : TlbEntry}
    (h : Machine.translate s core r va k = .ok (e, u)) : Filled s u := by
  unfold Machine.translate at h
  dsimp only at h
  repeat' split at h
  all_goals cases h
  all_goals exact ⟨_, _, rfl⟩

theorem touchTlb_filled (s : State) (core : Nat) (r : Word) (va : VAddr) (k : Nat) : Filled s (touchTlb s core r va k) := by
  unfold touchTlb
  split
  · exact .refl s
  · split
    case h_1 h => exact translate_filled h
    case h_2 =>
      split
      · exact .refl s
      · split
        · exact ⟨_, _, rfl⟩
        · exact .refl s

theorem replyTouch_filled (s : State) (a : Nat) (engine : Bool) (k : Nat) : Filled s (replyTouch s a engine k) := by
  unfold replyTouch
  split
  · exact .refl s
  · exact touchTlb_filled ..

theorem foldl_filled {β : Type} (f : State → β → State) (h : ∀ s x, Filled s (f s x)) (l : List β) (s : State) :
    Filled s (l.foldl f s) := by
  induction l generalizing s with
  | nil => exact .refl s
  | cons x t ih => exact (h s x).trans (ih _)

theorem refreshTlb_filled (s : State) (t : Trap) : Filled s (refreshTlb s t) := by
  unfold refreshTlb refreshFor
  split
  · exact .refl s
  · dsimp only
    have walked : Filled s (t.walked.foldl (fun u x => touchTlb u (coreOf s.who) (getCtx u (asCtx s.who)).troot x.1 x.2) s) :=
      foldl_filled _ (fun s x => touchTlb_filled ..) _ _
    split
    · exact walked.trans (touchTlb_filled ..)
    · exact walked

/-! ### What a write at a home changes (R71, R115, R127) -/

/-- Two states differ at most in memory, poison, monitors and other contexts, and in the wait and the loads of the focus. -/
def Written (s t : State) : Prop := ∃ w l parked monitors mem poison, t = { s with
  cur := { s.cur with wait := w, loads := l }, parked := parked, monitors := monitors, mem := mem, poison := poison }

theorem Written.refl (s : State) : Written s s := ⟨_, _, _, _, _, _, rfl⟩

theorem Written.trans {s t u : State} (h : Written s t) (k : Written t u) : Written s u := by
  obtain ⟨_, _, _, _, _, _, rfl⟩ := h
  obtain ⟨_, _, _, _, _, _, rfl⟩ := k
  exact ⟨_, _, _, _, _, _, rfl⟩

theorem Written.who {s t : State} (h : Written s t) : t.who = s.who := by obtain ⟨_, _, _, _, _, _, rfl⟩ := h; rfl
theorem Written.net {s t : State} (h : Written s t) : t.net = s.net := by obtain ⟨_, _, _, _, _, _, rfl⟩ := h; rfl
theorem Written.cur {s t : State} (h : Written s t) : ∃ w l, t.cur = { s.cur with wait := w, loads := l } := by
  obtain ⟨_, _, _, _, _, _, rfl⟩ := h; exact ⟨_, _, rfl⟩

theorem foldl_written {β : Type} (f : State → β → State) (h : ∀ s x, Written s (f s x)) (l : List β) (s : State) :
    Written s (l.foldl f s) := by
  induction l generalizing s with
  | nil => exact .refl s
  | cons x t ih => exact (h s x).trans (ih _)

theorem putCtx_wait_written (s : State) (a : Nat) (w : Wait) : Written s (putCtx s a { getCtx s a with wait := w }) := by
  unfold putCtx
  split
  · next h => rw [getCtx, if_pos h]; exact ⟨_, _, _, _, _, _, rfl⟩
  · exact ⟨_, _, _, _, _, _, rfl⟩

theorem fireWhere_written (s : State) (p : Nat → Bool) : Written s (fireWhere s p) := by
  have unhook : Written s { s with monitors := s.monitors.filter fun m => !p m.1 } := ⟨_, _, _, _, _, _, rfl⟩
  refine unhook.trans (foldl_written _ (fun s e => ?_) _ _)
  dsimp only
  split
  · exact putCtx_wait_written ..
  · exact .refl s

theorem wroteAt_written (s : State) (line : Nat) : Written s (wroteAt s line) :=
  (fireWhere_written s _).trans ⟨_, _, _, _, _, _, rfl⟩

theorem wrote_written (s : State) (line : Nat) : Written s (wrote s line) := by
  unfold wrote
  split
  · exact (wroteAt_written ..).trans (wroteAt_written ..)
  · exact wroteAt_written ..

theorem setPoison_written (s : State) (a : Nat) (p : Bool) : Written s (setPoison s a p) := by
  unfold setPoison; split <;> exact ⟨_, _, _, _, _, _, rfl⟩

theorem markLine_written (s : State) (a : Nat) (p : Bool) : Written s (markLine s a p) := by
  unfold markLine
  split
  · exact (setPoison_written ..).trans (setPoison_written ..)
  · exact setPoison_written ..

theorem applyByte_written (s : State) (a : Nat) (b : Byte) : Written s (applyByte s a b) := by
  unfold applyByte; split <;> exact ⟨_, _, _, _, _, _, rfl⟩

theorem applyBytes_written (s : State) (a : Nat) (d : List Byte) : Written s (applyBytes s a d) := by
  induction d generalizing s a with
  | nil => exact .refl s
  | cons b t ih => exact (applyByte_written s a b).trans (ih _ _)

theorem serveWrite_written (s : State) (a : Nat) (d : List Byte) (w : Bool) : Written s (serveWrite s a d w).2 := by
  have mark : Written s (if w then markLine s a false else s) := by
    split
    · exact markLine_written ..
    · exact .refl s
  rcases serveWrite_cases s a d w with ⟨-, h⟩ | ⟨-, -, -, h⟩ | ⟨-, -, h⟩ <;> rw [h]
  · exact .refl s
  · exact .refl s
  · exact (mark.trans (applyBytes_written ..)).trans (wrote_written ..)

/-! ### Traps (R101, R102, R348) -/

/-- A context with a handler whose trap goes to no pager enters the handler, after the translation of a reply word it could not use. -/
theorem raiseIn_enters {u : State} {t : Trap} (hh : HasHandler u) (hw : t.waits = false) (hp : pagerWaits u t = false)
    (none : toPager u t = none) :
    raiseIn u t = { pagerTouch u t with cur := trapCtx u.cur t.code t.access t.info t.va } := by
  obtain ⟨he, hv, hi⟩ := hh
  have free : ¬((t.waits || pagerWaits u t) = true) := by simp [hw, hp]
  have handler : ¬(u.cur.tvec = 0 ∨ bits u.cur.tstatus 0 0 = 1) := fun h => h.elim hv fun h => by omega
  rw [raiseIn, if_neg free, none]
  dsimp only
  rw [enterTrap, (pagerTouch_cur u t).1, (pagerTouch_cur u t).2, he, if_neg Bool.false_ne_true, if_neg handler]
  rfl

theorem toPager_eq_none {u : State} {t : Trap} (he : isEngine u.who = false)
    (h : t.code ≠ 0x08 ∧ t.code ≠ 0x09 ∨ u.cur.pagerTask = true ∨ pagerFor u (coreOf u.who) t.va.toNat = none ∨
      replyLoc u u.who false 1 = none) : toPager u t = none := by
  unfold toPager
  dsimp only
  rw [he]
  rcases h with ⟨h8, h9⟩ | task | pager | word
  · simp [h8, h9]
  · simp [task]
  · simp [pager]
  · rw [word]; cases pagerFor u (coreOf u.who) t.va.toNat <;> exact ite_self none

/-- A fault that a pager takes: the reply word is zeroed, the record goes to the pager's core, and the context waits (R101, R105). -/
theorem toPager_eq_some {u v : State} {t : Trap} {core cls ab l : Nat} (he : isEngine u.who = false) (hc : t.code = 0x08 ∨ t.code = 0x09)
    (task : u.cur.pagerTask = false) (pager : pagerFor u (coreOf u.who) t.va.toNat = some (core, cls, ab))
    (word : replyLoc u u.who false 1 = some l) (hw : serveWrite (replyTouch u u.who false 1) l (toBytes 8 0) false = (0, v)) :
    toPager u t = some { sendRecord v (devAgent (coreOf v.who)) core (faultRec v v.who t cls false) with
      cur := { v.cur.note t with
        span := 0
        spanCode := []
        board := []
        wait := .pager t.code t.access t.va (replyAddr v v.who false) } } := by
  have code : ((decide (t.code = 0x08) || decide (t.code = 0x09)) && !u.cur.pagerTask) = true := by simpa [task] using hc
  unfold toPager
  dsimp only
  rw [he, if_pos code, pager, word]
  dsimp only
  rw [hw]
  rfl

theorem hasHandler_of_filled {s u : State} (h : HasHandler s) (f : Filled s u) : HasHandler u := by
  obtain ⟨_, _, rfl⟩ := f; exact h

/-- What an instruction that raises the trap t of an access comes to. -/
theorem faults_of_raise {i : Instr} {s : State} {t : Trap} (hh : HasHandler s) (e : exec i s = .next (raise s t)) : Faults i s t := by
  have fill := refreshTlb_filled s t
  have handler := hasHandler_of_filled hh fill
  have he : isEngine (refreshTlb s t).who = false := handler.1
  unfold Faults
  rw [raise] at e
  refine ⟨fun waits => ?wait, fun waits free => ⟨fun direct => ?trap, fun code task core cls ab l v pager word hv => ?pager⟩⟩
  case wait =>
    have same : refreshTlb s t = s := by rw [refreshTlb, refreshFor, if_pos waits]
    rw [Stalls, e, same, raiseIn, if_pos (by rw [waits]; rfl)]
  case trap =>
    rw [← fill.who, ← fill.cur] at direct
    rw [e, raiseIn_enters handler waits free (toPager_eq_none he direct), fill.cur]
  case pager =>
    rw [← fill.who] at pager word hv
    rw [← fill.cur] at task
    have taken := toPager_eq_some he code task pager word hv
    have held : ¬((t.waits || pagerWaits (refreshTlb s t) t) = true) := by simp [waits, free]
    rw [raiseIn, if_neg held, taken] at e
    have reply := fill.trans (replyTouch_filled (refreshTlb s t) (refreshTlb s t).who false 1)
    have written : Written _ v := congrArg Prod.snd hv ▸ serveWrite_written ..
    have who := written.who.trans reply.who
    have net := written.net.trans reply.net
    obtain ⟨w, ls, cur⟩ := written.cur
    rw [reply.cur] at cur
    refine ⟨_, e, ?_, ?_, ?_, ?_, ?_, ?_, rfl, ?_⟩
    · rw [who]
    all_goals simp only [sendRecord, sendMsg, Ctx.note, cur, who, net]

end Sys2Proof.Proofs

/-! SUPPORT. Proofs: immediate forms and the 16-bit forms of the scalar datapath (R22, R58, R209). -/

namespace Sys2Proof.Proofs

open Sys2Proof Sys2Proof.Machine Sys2Proof.Laws

/-- An instruction of any agent that only writes a register completes with it. -/
theorem setReg_completes {i : Instr} {s : State} {len : Nat} {d : BitVec 5} {v : Word} {st : BitVec 3} (h : Calm anyAgent s)
    (e : exec i s = issue s anyAgent len st [useS d] fun s => .done (wr s d v) []) : Completes i s (wr s d v) len :=
  completes_of_done (e.trans (issue_calm h len st _ _))

/-- Settles O3: each form is `alu2` or `alu3` of its function, or sets a register. -/
theorem immediateAndShortForms : Obligations.ImmediateAndShortForms := by
  unfold Obligations.ImmediateAndShortForms
  simp only [List.forall_mem_cons, List.not_mem_nil, false_implies, implies_true, and_true]
  refine ⟨fun s d a i j k l st h => ⟨?addi, ?andi, ?ori, ?xori, ?slli, ?srli, ?srai, ?lim⟩,
    fun s d a i h => ⟨?cMov, ?cAdd, ?cSub, ?cAnd, ?cOr, ?cXor, ?cAddi, ?cLim, ?cSlli, ?cSrli, ?cSrai, ?cAndi⟩⟩
  case addi => exact alu2_completes (f := fun x => x + simm i) h rfl
  case andi => exact alu2_completes (f := fun x => x &&& simm j) h rfl
  case ori => exact alu2_completes (f := fun x => x ||| simm j) h rfl
  case xori => exact alu2_completes (f := fun x => x ^^^ simm j) h rfl
  case slli => exact alu2_completes (f := fun x => x <<< k.toNat) h rfl
  case srli => exact alu2_completes (f := fun x => x >>> k.toNat) h rfl
  case srai => exact alu2_completes (f := fun x => x.sshiftRight k.toNat) h rfl
  case lim => exact setReg_completes h rfl
  case cMov => exact alu2_completes (f := id) h rfl
  case cAdd => exact alu3_completes (f := aluAdd) h rfl
  case cSub => exact alu3_completes (f := aluSub) h rfl
  case cAnd => exact alu3_completes (f := aluAnd) h rfl
  case cOr => exact alu3_completes (f := aluOr) h rfl
  case cXor => exact alu3_completes (f := aluXor) h rfl
  case cAddi => exact alu2_completes (f := fun x => x + simm i) h rfl
  case cLim => exact setReg_completes h rfl
  case cSlli => exact alu2_completes (f := fun x => x <<< i.toNat) h rfl
  case cSrli => exact alu2_completes (f := fun x => x >>> i.toNat) h rfl
  case cSrai => exact alu2_completes (f := fun x => x.sshiftRight i.toNat) h rfl
  case cAndi => exact alu2_completes (f := fun x => x &&& simm i) h rfl

end Sys2Proof.Proofs

/-! SUPPORT. Proofs: branches, jumps and calls (R210, R211, R214). -/

namespace Sys2Proof.Proofs

open Sys2Proof Sys2Proof.Machine Sys2Proof.Laws

/-! ### The fields of the two levels -/

@[simp] theorem lpCtl_zero (c : Ctx) : lpCtl c 0 = c.lpctl0 := if_pos rfl
@[simp] theorem lpCtl_one (c : Ctx) : lpCtl c 1 = c.lpctl1 := if_neg Nat.one_ne_zero
@[simp] theorem lpAddr_zero (c : Ctx) : lpAddr c 0 = c.lpaddr0 := if_pos rfl
@[simp] theorem lpAddr_one (c : Ctx) : lpAddr c 1 = c.lpaddr1 := if_neg Nat.one_ne_zero
@[simp] theorem setCtl_zero (c : Ctx) (v : Word) : setCtl c 0 v = { c with lpctl0 := v } := if_pos rfl
@[simp] theorem setCtl_one (c : Ctx) (v : Word) : setCtl c 1 v = { c with lpctl1 := v } := if_neg Nat.one_ne_zero
@[simp] theorem discard_zero (c : Ctx) : Machine.discard c 0 =
    { c with lpctl0 := setBits c.lpctl0 31 31 0, lpctl1 := setBits c.lpctl1 31 31 0 } := if_pos rfl
@[simp] theorem discard_one (c : Ctx) : Machine.discard c 1 = { c with lpctl1 := setBits c.lpctl1 31 31 0 } :=
  if_neg Nat.one_ne_zero

/-- ACTIVE is bit 31 of a level's LPCTL: it is cleared, and nothing else of the word changes. -/
theorem toNat_clearActive (x : Word) : (setBits x 31 31 0).toNat = x.toNat - x.toNat / 2 ^ 31 % 2 * 2 ^ 31 := by
  have := x.isLt
  rw [setBits, bits, BitVec.toNat_ofNat]
  omega

theorem clearActive_idem (x : Word) : setBits (setBits x 31 31 0) 31 31 0 = setBits x 31 31 0 := by
  apply BitVec.eq_of_toNat_eq
  rw [toNat_clearActive, toNat_clearActive]
  omega

/-! ### Levels that a jump leaves (R214) -/

/-- The bytes behind a level's end are those that the fetch has seen. -/
theorem spanExt_eq_of_seen {s : State} {ext : Nat → Nat} (seen : EndsSeen s.cur ext) {k : Nat} (hk : k < 2)
    (active : lpActive s.cur k = true) : spanExt s k = ext k := by
  unfold spanExt
  rw [if_pos active]
  rcases seen k hk active with ⟨span, at1, e⟩ | ⟨no, e⟩
  · rw [if_pos ⟨span, at1⟩, e]
  · rw [if_neg no, e]; rfl

/-- A level is left by a jump from its body to outside it. -/
def Leaves (c : Ctx) (ext : Nat → Nat) (pc target : Word) (k : Nat) : Prop :=
  lpActive c k = true ∧ InBody c ext k pc ∧ ¬InBody c ext k target

theorem leaveBody_test {c : Ctx} {pc target : Word} {ext : Nat → Nat} {k : Nat} :
    (lpActive c k && (decide (lpAddr c k + 4 ≤ pc) && decide (pc ≤ bodyEnd c k ext)) &&
      !(decide (lpAddr c k + 4 ≤ target) && decide (target ≤ bodyEnd c k ext))) = true ↔ Leaves c ext pc target k := by
  simp only [Bool.and_eq_true, Bool.not_eq_true', ← Bool.not_eq_true, and_assoc, decide_eq_true_iff]
  simp only [Leaves, InBody, bodyEnd, and_assoc]

theorem leaveBody_of_leaves {c : Ctx} {pc target : Word} {ext : Nat → Nat} {k : Nat} (h : Leaves c ext pc target k) :
    leaveBody c pc target ext k = Machine.discard c k := if_pos (leaveBody_test.2 h)

theorem leaveBody_of_stays {c : Ctx} {pc target : Word} {ext : Nat → Nat} {k : Nat} (h : ¬Leaves c ext pc target k) :
    leaveBody c pc target ext k = c := if_neg fun t => h (leaveBody_test.1 t)

/-- Level 0 is what it was when level 1 is discarded. -/
theorem leaves_discard_one {c : Ctx} {pc target : Word} {ext : Nat → Nat} :
    Leaves (Machine.discard c 1) ext pc target 0 ↔ Leaves c ext pc target 0 := by
  simp only [Leaves, InBody, lpActive, lpEnd, discard_one, lpCtl_zero, lpAddr_zero]

/-- The levels that a jump which is no call leaves are discarded, level 1 with level 0. -/
theorem jumped_discards (c : Ctx) (pc target : Word) (ext : Nat → Nat) :
    Discards c (jumped c pc target false ext) (Leaves c ext pc target) := by
  unfold jumped
  rw [if_neg Bool.false_ne_true]
  by_cases l1 : Leaves c ext pc target 1
  · rw [leaveBody_of_leaves l1]
    by_cases l0 : Leaves c ext pc target 0
    · rw [leaveBody_of_leaves (leaves_discard_one.2 l0), discard_one, discard_zero]
      exact ⟨fun _ => ⟨rfl, clearActive_idem _⟩, fun no => absurd l0 no⟩
    · rw [leaveBody_of_stays (leaves_discard_one.not.2 l0), discard_one]
      exact ⟨fun l => absurd l l0, fun _ => ⟨rfl, fun _ => rfl, fun no => absurd l1 no⟩⟩
  · rw [leaveBody_of_stays l1]
    by_cases l0 : Leaves c ext pc target 0
    · rw [leaveBody_of_leaves l0, discard_zero]
      exact ⟨fun _ => ⟨rfl, rfl⟩, fun no => absurd l0 no⟩
    · rw [leaveBody_of_stays l0]
      exact ⟨fun l => absurd l l0, fun _ => ⟨rfl, fun l => absurd l l1, fun _ => rfl⟩⟩

/-- The pending results of a context are nothing to what a jump leaves. -/
theorem discards_settled {c d : Ctx} {uses : List RegUse} {p : Nat → Prop} (h : Discards (c.settled uses) d p) : Discards c d p := h

theorem leaves_congr {c : Ctx} {e e' : Nat → Nat} {pc target : Word} {k : Nat} (h : lpActive c k = true → e k = e' k) :
    Leaves c e pc target k ↔ Leaves c e' pc target k :=
  and_congr_right fun active => by rw [InBody, InBody, h active]; rfl

theorem discards_congr {c d : Ctx} {p q : Nat → Prop} (h : ∀ k < 2, p k ↔ q k) (k : Discards c d p) : Discards c d q := by
  have h0 := h 0 (by omega)
  have h1 := h 1 (by omega)
  unfold Discards at *
  rwa [← h0, ← h1]

/-- A jump of an instruction that is no call discards the levels it leaves, whatever register it wrote. -/
theorem jumpDiscards_of_jump {i : Instr} {s u : State} {len : Nat} {st : BitVec 3} {target : Word} {uses : List RegUse}
    (e : exec i s = .next (retire s len st (Body.after uses (.jump u target false)))) (keep : u = s) :
    JumpDiscards i s target := by
  subst keep
  intro ext t seen h
  obtain rfl : retire u len st (Body.after uses (.jump u target false)) = t := by rw [e] at h; exact Host.Outcome.next.inj h
  have spans : ∀ k < 2, Leaves u.cur (spanExt { u with cur := u.cur.settled uses }) u.cur.pc target k ↔ Leaves u.cur ext u.cur.pc target k :=
    fun k hk => leaves_congr fun active => spanExt_eq_of_seen (s := { u with cur := u.cur.settled uses }) seen hk active
  exact discards_congr spans (jumped_discards (u.cur.settled uses) u.cur.pc target _)

/-- A call discards no level. -/
theorem callKeeps_of_call {i : Instr} {s u : State} {len : Nat} {st : BitVec 3} {target : Word} {uses : List RegUse}
    (e : exec i s = .next (retire s len st (Body.after uses (.jump u target true))))
    (keep : u.cur.lpctl0 = s.cur.lpctl0 ∧ u.cur.lpctl1 = s.cur.lpctl1) : CallKeeps i s := by
  intro t h
  obtain rfl := Host.Outcome.next.inj (e.symm.trans h)
  exact keep

/-! ### The forms -/

section
variable {i : Instr} {s : State} {n len : Nat} {c : Word → Word → Bool} {a b : BitVec 5} {o : BitVec n} {st : BitVec 3}
  (h : Calm anyAgent s) (e : exec i s = branch c len a b o st s)
include h e

theorem branch_discards (t : c (rd s a) (rd s b) = true) : JumpDiscards i s (parcelTarget s.cur.pc o) := by
  refine jumpDiscards_of_jump (u := s) (len := len) (st := st) (uses := [useS a, useS b]) (e.trans ((issue_calm h len st _ _).trans ?_)) rfl
  rw [t]; rfl

/-- A branch whose condition is a known one goes to its target and discards what it leaves, or goes on behind itself. -/
theorem branch_either {p : Bool} (hp : c (rd s a) (rd s b) = p) :
    if p then Jumps i s s (parcelTarget s.cur.pc o) ∧ JumpDiscards i s (parcelTarget s.cur.pc o) else Completes i s s len := by
  cases p with
  | true => exact ⟨branch_taken h e hp, branch_discards h e hp⟩
  | false => exact branch_not h e hp

end

section
variable {i : Instr} {s : State} {len : Nat} {d : BitVec 5} {st : BitVec 3} {uses : List RegUse} {target : State → Word}
  (h : Calm anyAgent s)
include h

theorem jumpLink_discards (e : exec i s = jumpLink len 0 st uses target s) : JumpDiscards i s (target s) :=
  jumpDiscards_of_jump (e.trans (issue_calm h len st _ _)) (wr_zero s _)

theorem jumpLink_keeps (e : exec i s = jumpLink len d st uses target s) (link : d ≠ 0) : CallKeeps i s := by
  refine callKeeps_of_call (u := wr s d (s.cur.pc + BitVec.ofNat 64 len)) (len := len) (st := st) (target := target s)
    (uses := useS d :: uses) (e.trans ((issue_calm h len st _ _).trans ?_)) ?_
  · rw [decide_eq_true link]
  · exact ⟨ctxWr_lpctl0 _ _ _, ctxWr_lpctl1 _ _ _⟩

end

/-- Settles O4: every branch is `branch` of its condition. -/
theorem branches : Obligations.Branches := by
  unfold Obligations.Branches
  intro s a b o q st h
  simp only [List.forall_mem_cons, List.not_mem_nil, false_implies, implies_true, and_true]
  refine ⟨⟨?eq, ?ne, ?lt, ?ge, ?ltn, ?gen⟩, ?ceq, ?cne, ?clt, ?cge⟩
  case eq => exact branch_either (c := fun x y => decide (x = y)) h rfl rfl
  case ne => exact branch_either (c := fun x y => decide (x ≠ y)) h rfl rfl
  case lt => exact branch_either (c := fun x y => x.slt y) h rfl (Bool.eq_iff_iff.2 (by rw [BitVec.slt_iff_toInt_lt, decide_eq_true_iff]))
  case ge => exact branch_either (c := fun x y => !x.slt y) h rfl (Bool.eq_iff_iff.2 (by rw [not_slt_iff_toInt_le, decide_eq_true_iff]))
  case ltn => exact branch_either (c := fun x y => x.ult y) h rfl (Bool.eq_iff_iff.2 (by rw [BitVec.ult_iff_toNat_lt, decide_eq_true_iff]))
  case gen => exact branch_either (c := fun x y => !x.ult y) h rfl (Bool.eq_iff_iff.2 (by rw [not_ult_iff_toNat_le, decide_eq_true_iff]))
  case ceq => exact branch_either (b := 0) (c := fun x y => decide (x = y)) h rfl rfl
  case cne => exact branch_either (b := 0) (c := fun x y => decide (x ≠ y)) h rfl rfl
  case clt =>
    exact branch_either (b := 0) (c := fun x y => x.slt y) h rfl (Bool.eq_iff_iff.2 (by rw [BitVec.slt_iff_toInt_lt, decide_eq_true_iff]; rfl))
  case cge =>
    exact branch_either (b := 0) (c := fun x y => !x.slt y) h rfl (Bool.eq_iff_iff.2 (by rw [not_slt_iff_toInt_le, decide_eq_true_iff]; rfl))

/-- Settles O5: every jump is `jumpLink` to its target; with d = s0 it is no call. -/
theorem jumpForms : Obligations.JumpForms := by
  unfold Obligations.JumpForms
  intro s d a o i q st h
  have zero (x : BitVec 5) : rd s x + 2 * simm (0 : BitVec 12) = rd s x := by
    rw [show simm (0 : BitVec 12) = 0 from rfl]; simp
  have ret : jrTarget (rd s a) 0 = rd s a &&& ~~~1#64 := by rw [jrTarget, zero]
  have back := jumpLink_jumps (i := .cJr a) (d := 0) (target := fun s => jrTarget (rd s a) 0) h rfl
  have backDiscards := jumpLink_discards (i := .cJr a) (target := fun s => jrTarget (rd s a) 0) h rfl
  rw [ret] at back backDiscards
  exact ⟨jumpLink_jumps (target := fun s => parcelTarget s.cur.pc o) h rfl, jumpLink_jumps (target := fun s => jrTarget (rd s a) i) h rfl,
    jumpLink_jumps (d := 0) (target := fun s => parcelTarget s.cur.pc q) h rfl, back,
    jumpLink_discards (target := fun s => parcelTarget s.cur.pc o) h rfl, jumpLink_discards (target := fun s => jrTarget (rd s a) i) h rfl,
    jumpLink_discards (target := fun s => parcelTarget s.cur.pc q) h rfl, backDiscards,
    fun link => ⟨jumpLink_keeps (target := fun s => parcelTarget s.cur.pc o) h rfl link,
      jumpLink_keeps (target := fun s => jrTarget (rd s a) i) h rfl link⟩⟩

end Sys2Proof.Proofs

/-! SUPPORT. Proofs: `role` and its span (R24 to R26). -/

namespace Sys2Proof.Proofs

open Sys2Proof Sys2Proof.Machine Sys2Proof.Laws

theorem settled_nil (c : Ctx) : c.settled [] = c := by simp [Ctx.settled]

theorem hasHandler_of_seat {s u : State} (h : HasHandler s) (k : SameSeat s u) : HasHandler u := by
  obtain ⟨who, cur, -⟩ := k
  rwa [HasHandler, who, cur]

/-- An instruction that raises a trap of no access after reads that leave its context alone takes it there. -/
theorem trapsFrom_of_keep {i : Instr} {s u : State} {len : Nat} {st : BitVec 3} {t : Trap} (hh : HasHandler s) (seat : SameSeat s u)
    (quiet : 6 ≤ t.access ∧ t.walked = []) (direct : t.code ≠ 0x08 ∧ t.code ≠ 0x09 ∧ t.code ≠ 0x100)
    (e : exec i s = .next (retire s len st (Body.after [] (.keep (raise u t))))) :
    TrapsFrom i s u t.code t.access t.info t.va := by
  rw [TrapsFrom, e, Body.after, settled_nil, raise_handler (hasHandler_of_seat hh seat) t (refreshTlb_other u quiet.1 quiet.2) direct]
  rfl

theorem asCtx_core {a : Nat} (h : isEngine a = false) : asCtx a = a := if_neg (ne_true_of_eq_false h)

@[simp] theorem getCtx_who (s : State) : getCtx s s.who = s.cur := if_pos rfl

/-- The code of a core context stands at its own HIGH (R88). -/
theorem codeVa_core {s : State} (h : isEngine s.who = false) (pc : Word) : codeVa s pc = widen (vaHigh s.cur) pc := by
  rw [codeVa, asCtx_core h, getCtx_who]

/-- What a `role` with a valid span does: a member executes the span or meets its stop, any other agent skips it (R24 to R26). -/
def spanBody (s s1 : State) (m : BitVec 8) (span : Nat) (ps : List Nat) (t : Option FetchStop) : Body :=
  if inMask s m then match t with
    | some t => t.body s
    | none => .keep { s1 with cur := { noteSpan s1.cur s.cur.pc span with
        pc := s.cur.pc + 2, span := span, spanAt := s.cur.pc, spanCode := ps, wait := .ready } }
  else match t with
    | none | some (.trap _) => .done s1 []
    | some t => t.body s

theorem exec_role_valid {s s1 : State} {n : BitVec 4} {m : BitVec 8} {ps : List Nat} {t : Option FetchStop} (h : Calm anyAgent s)
    (run : spanRun s s.cur.pc (n.toNat + 1) = (ps, t, s1)) (hm : m ≠ 0) (ok : badSpan t.isNone ps = false) :
    exec (.role n m) s = .next (retire s (2 + 2 * (n.toNat + 1)) 0 (Body.after [] (spanBody s s1 m (n.toNat + 1) ps t))) := by
  have go : exec (.role n m) s = execRole n m s := rfl
  rw [execRole, issue_calm h] at go
  rw [go, run]
  dsimp only
  rw [ok, decide_eq_false hm, if_neg (by decide)]
  rcases t with - | x | - | - <;> rfl

/-- Settles O8: the one run of the span decides what `role` does. -/
theorem rolePrefix : Obligations.RolePrefix := by
  unfold Obligations.RolePrefix
  intro s n m (h : Calm anyAgent s) run illegal skips
  have go : exec (.role n m) s = execRole n m s := rfl
  rw [execRole, issue_calm h] at go
  have illegals {ps t s1} (hr : run = (ps, t, s1)) (bad : m = 0 ∨ badSpan t.isNone ps = true) (hh : HasHandler s) : illegal s1 := by
    have va : (illegalTrap s).va = widen (vaHigh s.cur) s.cur.pc := codeVa_core hh.1 _
    show TrapsFrom (.role n m) s s1 0x01 7 0 (widen (vaHigh s.cur) s.cur.pc)
    rw [← va]
    refine trapsFrom_of_keep (t := illegalTrap s) (len := 2 + 2 * (n.toNat + 1)) (st := 0) hh ?_ ⟨?_, rfl⟩ ?_ (go.trans ?_)
    · have seat := spanRun_seat s s.cur.pc (n.toNat + 1)
      rwa [show spanRun s s.cur.pc (n.toNat + 1) = (ps, t, s1) from hr] at seat
    · exact Nat.le_succ 6
    · exact ⟨(by decide : 1 ≠ 8), (by decide : 1 ≠ 9), (by decide : 1 ≠ 0x100)⟩
    · rw [show spanRun s s.cur.pc (n.toNat + 1) = (ps, t, s1) from hr]
      dsimp only
      rw [if_pos (by rwa [Bool.or_eq_true, decide_eq_true_iff])]
  have valid {ps t s1} (hr : run = (ps, t, s1)) (hm : m ≠ 0) (ok : badSpan t.isNone ps = false) := exec_role_valid h hr hm ok
  have held {ps t s1} (hr : run = (ps, some t, s1)) (hm : m ≠ 0) (ok : badSpan false ps = false) (stop : ∀ x, t ≠ .trap x) :
      exec (.role n m) s = .next (retire s (2 + 2 * (n.toNat + 1)) 0 (Body.after [] (t.body s))) := by
    rw [valid hr hm ok]
    cases t with
    | trap x => exact absurd rfl (stop x)
    | wait | host at1 va => rw [spanBody, ite_self]
  refine ⟨fun ps s1 hr => ⟨fun hm ok out => ?skip, fun hm ok mine => ⟨_, valid hr hm ok, ?_⟩, fun bad hh => illegals hr bad hh⟩,
    fun ps f s1 hr bad hh => illegals hr bad hh, fun ps t s1 hr hm ok => ⟨fun mine hh => faults_of_raise hh ?fault, fun out => ?skipFault⟩,
    fun ps s1 hr hm ok => held hr hm ok (by simp), fun ps at1 va s1 hr hm ok => held hr hm ok (by simp)⟩
  case skip => exact completes_of_done (by rw [valid hr hm ok, spanBody, out]; rfl)
  case fault => rw [valid hr hm ok, spanBody, mine]; rfl
  case skipFault => exact completes_of_done (by rw [valid hr hm ok, spanBody, out]; rfl)
  · rw [spanBody, mine]
    exact ⟨rfl, settled_nil _⟩

end Sys2Proof.Proofs

/-! SUPPORT. Proofs: the `loop` instruction (R212). -/

namespace Sys2Proof.Proofs

open Sys2Proof Sys2Proof.Machine Sys2Proof.Laws

/-- What `loop` cannot take: a count above 32 bits, two active levels, or an end behind that of level 0 (R212). -/
def LoopBad (c : Ctx) (n l : Word) : Prop :=
  2 ^ 32 ≤ n.toNat ∨ lpActive c 1 = true ∨ (lpActive c 0 = true ∧ lpEnd c 0 < l)

/-- `loop` at a calm context, behind its tests: an empty body, a count of 0, or a level that it opens. -/
def loopRest (s : State) (a : BitVec 5) (o : BitVec 12) (st : BitVec 3) : Body :=
  let c := s.cur
  let n := rd s a
  let l := parcelTarget c.pc o
  if o = 1 then
    .keep { skipTo s l 2 with cur := (skipTo s l 2).cur.issued (cycleNow s) st.toNat [] }
  else if bits n 31 0 = 0 then
    match parcelAt s l with
    | (p :: _, _, s1) =>
      .keep { skipTo s1 l (lengthAt p) with cur := (skipTo s1 l (lengthAt p)).cur.issued (cycleNow s) st.toNat [] }
    | (_, some t, _) => t.body s
    | (_, none, _) => .trap illegalOperand
  else
    let ctl := BitVec.ofNat 64 (bits n 31 0 * 2 ^ 32 + 2 ^ 31 + o.toNat % 2 ^ 12)
    .keep { s with cur := { (if lpActive c 0 then { c with lpaddr1 := c.pc, lpctl1 := ctl } else { c with lpaddr0 := c.pc, lpctl0 := ctl }) with
      pc := c.pc + 4, span := c.span - 2 }.issued (cycleNow s) st.toNat [] }

theorem bits_high_eq_zero (n : Word) : bits n 63 32 = 0 ↔ n.toNat < 2 ^ 32 := by
  have := n.isLt
  rw [bits]; omega

theorem bits_low (n : Word) (h : n.toNat < 2 ^ 32) : bits n 31 0 = n.toNat := by
  rw [bits]; omega

theorem exec_loop_bad {s : State} {a : BitVec 5} {o : BitVec 12} {st : BitVec 3} (h : Calm anyAgent s)
    (bad : LoopBad s.cur (rd s a) (parcelTarget s.cur.pc o)) :
    exec (.loop a o st) s = .next (retire s 4 st (Body.after [useS a] (.trap illegalOperand))) := by
  have go : exec (.loop a o st) s = execLoop a o st s := rfl
  rw [go, execLoop, issue_calm h]
  dsimp only
  by_cases first : (decide (bits (rd s a) 63 32 ≠ 0) || lpActive s.cur 1) = true
  · rw [if_pos first]
  · rw [if_neg first]
    have level : lpActive s.cur 0 = true ∧ lpEnd s.cur 0 < parcelTarget s.cur.pc o := by
      simp only [ne_eq, bits_high_eq_zero, Bool.or_eq_true, decide_eq_true_eq, not_or, not_not] at first
      exact (bad.resolve_left (Nat.not_le.2 first.1)).resolve_left first.2
    simp [level]

theorem exec_loop_good {s : State} {a : BitVec 5} {o : BitVec 12} {st : BitVec 3} (h : Calm anyAgent s)
    (good : ¬LoopBad s.cur (rd s a) (parcelTarget s.cur.pc o)) :
    exec (.loop a o st) s = .next (retire s 4 st (Body.after [useS a] (loopRest s a o st))) := by
  have go : exec (.loop a o st) s = execLoop a o st s := rfl
  simp only [LoopBad, not_or, not_le] at good
  obtain ⟨count, inner, outer⟩ := good
  have first : ¬(decide (bits (rd s a) 63 32 ≠ 0) || lpActive s.cur 1) = true := by
    rw [decide_eq_false (not_not.2 ((bits_high_eq_zero _).2 count)), Bool.eq_false_of_not_eq_true inner]; decide
  rw [go, execLoop, issue_calm h]
  dsimp only
  rw [if_neg first]
  unfold loopRest
  dsimp only
  cases l0 : lpActive s.cur 0 with
  | false => rfl
  | true =>
    have second : decide (lpEnd s.cur 0 < parcelTarget s.cur.pc o) = false := decide_eq_false fun lt => outer ⟨l0, lt⟩
    simp only [second]
    rfl

/-- A level goes back unless one pass remains; REMAIN 0 stands for 2^32 (R213). -/
theorem loopsBack_iff (c : Ctx) (k : Nat) : loopsBack c k = true ↔ bits (lpCtl c k) 63 32 ≠ 1 := by
  have : bits (lpCtl c k) 63 32 < 2 ^ 32 := Nat.mod_lt _ (by decide)
  rw [loopsBack, remNext, decide_eq_true_iff]
  omega

theorem sameRest_cur (s : State) (c : Ctx) : SameRest s { s with cur := c } := rfl

/-- Where a skipped body's last instruction leaves the pc, and that nothing but the place of the context changes (R212). -/
theorem skipTo_spec (s : State) (l : Word) (len : Nat) :
    SameRest s (skipTo s l len) ∧ SameButPlace s.cur (skipTo s l len).cur ∧
      (skipTo s l len).cur.pc = if lpActive s.cur 0 = true ∧ l = lpEnd s.cur 0 ∧ bits s.cur.lpctl0 63 32 ≠ 1
        then s.cur.lpaddr0 + 4 else l + BitVec.ofNat 64 len := by
  unfold skipTo
  dsimp only
  have level : (lpActive s.cur 0 && decide (l = lpEnd s.cur 0)) = true ↔ lpActive s.cur 0 = true ∧ l = lpEnd s.cur 0 := by simp
  have back := loopsBack_iff s.cur 0
  rw [lpCtl_zero] at back
  by_cases at1 : lpActive s.cur 0 = true ∧ l = lpEnd s.cur 0
  · rw [if_pos (level.2 at1)]
    by_cases more : bits s.cur.lpctl0 63 32 ≠ 1
    · rw [if_pos (back.2 more), if_pos ⟨at1.1, at1.2, more⟩]
      exact ⟨sameRest_cur s _, samePlace_trans (countDown_place _ 0) (at_place _ _ _), congrArg (· + 4) (lpAddr_zero _)⟩
    · rw [if_neg (back.not.2 more), if_neg fun x => more x.2.2]
      exact ⟨sameRest_cur s _, samePlace_trans (countDown_place _ 0) (at_place _ _ _), rfl⟩
  · rw [if_neg (level.not.2 at1), if_neg fun x => at1 ⟨x.1, x.2.1⟩]
    exact ⟨sameRest_cur s _, samePlace_trans (stepPast_place _ _ _ 0) (at_place _ _ _), rfl⟩

theorem issued_place (c : Ctx) (cycle st : Nat) (new : List Pending) : SameButPlace c (c.issued cycle st new) := rfl

theorem sameRest_trans {s t u : State} (h : SameRest s t) (k : SameRest t u) : SameRest s u := Eq.trans h k

/-- An instruction that keeps the pc of its effect only settles the registers it used. -/
theorem exec_of_keep {i : Instr} {s u : State} {c : Ctx} {len : Nat} {st : BitVec 3} {uses : List RegUse}
    (e : exec i s = .next (retire s len st (Body.after uses (.keep { u with cur := c })))) :
    exec i s = .next { u with cur := c.settled uses } := e

/-- What the skip of a body comes to, once it issues. -/
theorem skip_issues {i : Instr} {s s1 : State} {l : Word} {len : Nat} {st : BitVec 3} {uses : List RegUse} {cycle : Nat}
    (e : exec i s = .next (retire s 4 st (Body.after uses (.keep { skipTo s1 l len with
      cur := (skipTo s1 l len).cur.issued cycle st.toNat [] })))) :
    ∃ t, exec i s = .next t ∧ SameRest s1 t ∧ SameButPlace s1.cur t.cur ∧ t.cur.wait = .ready ∧
      t.cur.pc = (skipTo s1 l len).cur.pc ∧ t.cur.lpctl0 = (skipTo s1 l len).cur.lpctl0 ∧ t.cur.lpctl1 = (skipTo s1 l len).cur.lpctl1 := by
  obtain ⟨rest, place, -⟩ := skipTo_spec s1 l len
  generalize skipTo s1 l len = u at *
  exact ⟨_, exec_of_keep e, sameRest_trans rest (sameRest_cur u _),
    samePlace_trans place (samePlace_trans (issued_place ..) (settled_place ..)), rfl, rfl, rfl, rfl⟩

/-- Settles O6: behind its tests, `loop` skips an empty body, looks at the end of the body it skips, or opens a level. -/
theorem loopForms : Obligations.LoopForms := by
  unfold Obligations.LoopForms
  intro s a o st (h : Calm anyAgent s) n l ctl bad
  have l_eq : l = parcelTarget s.cur.pc o := rfl
  refine ⟨fun b hh => ?bad, fun good empty => ?empty, fun good ne pos => ?opens, fun good ne zero p ps f s1 parcel same => ?skips,
    fun good ne zero f s1 parcel => ?held⟩
  case bad =>
    exact traps_of_trap hh (refreshTlb_other s (by decide) rfl) (by decide) (exec_loop_bad h b)
  case empty =>
    have e := exec_loop_good (st := st) h good
    rw [loopRest, if_pos empty, ← l_eq] at e
    obtain ⟨t, e, rest, place, ready, pc, ctl0, ctl1⟩ := skip_issues e
    refine ⟨t, e, rest, place, ready, fun quiet => ?_⟩
    have skip : skipTo s l 2 = { s with cur := { s.cur with pc := l + 2, span := s.cur.span - (l + 2 - s.cur.pc).toNat / 2 } } := by
      simp [skipTo, stepPast, quiet.1]
    have next : l + 2 = s.cur.pc + 4 := by
      rw [l_eq, empty, parcelTarget, show simm (1 : BitVec 12) = 1 from rfl, BitVec.add_assoc]; rfl
    rw [pc, ctl0, ctl1, skip]
    exact ⟨next, rfl, rfl⟩
  case opens =>
    have count : bits (rd s a) 31 0 = n := bits_low _ (Nat.not_le.1 fun big => good (.inl big))
    have e := exec_loop_good (st := st) h good
    rw [loopRest, if_neg ne, if_neg (by omega), count, Nat.mod_eq_of_lt o.isLt] at e
    refine ⟨_, e, rfl, rfl, rfl, ?_⟩
    cases lpActive s.cur 0 with
    | true => exact ⟨rfl, rfl, rfl⟩
    | false => exact ⟨rfl, rfl, rfl⟩
  case skips =>
    have count : bits (rd s a) 31 0 = 0 := (bits_low _ (show n < 2 ^ 32 by omega)).trans zero
    obtain ⟨-, -, at1⟩ := skipTo_spec s1 l (lengthAt p)
    have e := exec_loop_good (st := st) h good
    rw [loopRest, if_neg ne, if_pos count, ← l_eq, parcel] at e
    obtain ⟨t, e, rest, place, ready, pc, -⟩ := skip_issues e
    rw [same] at place at1
    exact ⟨t, e, rest, place, ready, pc.trans at1⟩
  case held =>
    have count : bits (rd s a) 31 0 = 0 := (bits_low _ (show n < 2 ^ 32 by omega)).trans zero
    have e := exec_loop_good (st := st) h good
    rw [loopRest, if_neg ne, if_pos count, ← l_eq, parcel] at e
    refine ⟨?_, ?_, ?_⟩
    · rintro t rfl hh; exact faults_of_raise hh e
    · rintro rfl; exact e
    · rintro at1 va rfl; exact e

end Sys2Proof.Proofs

/-! SUPPORT. Proofs: the back edge of a hardware loop (R213, R214, R397). -/

namespace Sys2Proof.Proofs

open Sys2Proof Sys2Proof.Machine Sys2Proof.Laws

/-! ### REMAIN and ACTIVE of a level's LPCTL -/

theorem remain_setRemain (x : Word) (v : Nat) : bits (setBits x 63 32 v) 63 32 = v % 2 ^ 32 := by
  have := x.isLt
  simp only [bits, setBits, BitVec.toNat_ofNat]
  omega

theorem active_setRemain (x : Word) (v : Nat) : bits (setBits x 63 32 v) 31 31 = bits x 31 31 := by
  have := x.isLt
  simp only [bits, setBits, BitVec.toNat_ofNat]
  omega

theorem active_clearActive (x : Word) : bits (setBits x 31 31 0) 31 31 = 0 := by
  rw [bits, toNat_clearActive]; omega

/-- What one pass less leaves in a level's LPCTL. -/
def ctlAfterPass (x : Word) : Word :=
  let v := setBits x 63 32 ((bits x 63 32 + 2 ^ 32 - 1) % 2 ^ 32)
  if bits x 63 32 ≠ 1 then v else setBits v 31 31 0

theorem countDown_zero (c : Ctx) : countDown c 0 = { c with lpctl0 := ctlAfterPass c.lpctl0 } := by
  have back := loopsBack_iff c 0
  simp only [countDown, remNext, setCtl_zero, lpCtl_zero, ctlAfterPass] at back ⊢
  simp only [back]

theorem countDown_one (c : Ctx) : countDown c 1 = { c with lpctl1 := ctlAfterPass c.lpctl1 } := by
  have back := loopsBack_iff c 1
  simp only [countDown, remNext, setCtl_one, lpCtl_one, ctlAfterPass] at back ⊢
  simp only [back]

/-- While more than one pass remains, REMAIN falls by one and the level stays. -/
theorem ctlAfterPass_more {x : Word} (h : 1 < bits x 63 32) :
    bits (ctlAfterPass x) 63 32 = bits x 63 32 - 1 ∧ bits (ctlAfterPass x) 31 31 = bits x 31 31 := by
  have lt : bits x 63 32 < 2 ^ 32 := Nat.mod_lt _ (by decide)
  rw [ctlAfterPass, if_pos (by omega), remain_setRemain, active_setRemain]
  exact ⟨by omega, rfl⟩

/-- The last pass falls out of the level. -/
theorem ctlAfterPass_last {x : Word} (h : bits x 63 32 = 1) : bits (ctlAfterPass x) 31 31 = 0 := by
  rw [ctlAfterPass, if_neg (by simp [h]), active_clearActive]

theorem loopsBack_last {c : Ctx} {k : Nat} (h : bits (lpCtl c k) 63 32 = 1) : loopsBack c k = false :=
  Bool.eq_false_iff.2 fun b => (loopsBack_iff c k).1 b h

/-! ### Where sequential execution goes -/

section
variable {c : Ctx} {pc : Word} {len : Nat} {ext : Nat → Nat}

/-- Level 1 ends here and goes back. -/
theorem sequential_back_one (e1 : endsLevel c pc len 1 ext = true) (more : 1 < bits c.lpctl1 63 32) :
    sequential c pc len ext = { c with lpctl1 := ctlAfterPass c.lpctl1, pc := c.lpaddr1 + 4, span := 0 } := by
  have back : loopsBack c 1 = true := (loopsBack_iff c 1).2 (by rw [lpCtl_one]; omega)
  simp [sequential, e1, back, countDown_one, bodyStart]

/-- Level 0 ends here and goes back, level 1 inactive or in its last pass here. -/
theorem sequential_back_zero (e0 : endsLevel c pc len 0 ext = true) (more : 1 < bits c.lpctl0 63 32)
    (e1 : endsLevel c pc len 1 ext = true → bits c.lpctl1 63 32 = 1) :
    sequential c pc len ext = { c with
      lpctl1 := if endsLevel c pc len 1 ext then ctlAfterPass c.lpctl1 else c.lpctl1
      lpctl0 := ctlAfterPass c.lpctl0, pc := c.lpaddr0 + 4, span := 0 } := by
  cases h1 : endsLevel c pc len 1 ext with
  | false =>
    have back : loopsBack c 0 = true := (loopsBack_iff c 0).2 (by rw [lpCtl_zero]; omega)
    simp [sequential, e0, h1, back, countDown_zero, bodyStart]
  | true =>
    have last : loopsBack c 1 = false := loopsBack_last (by rw [lpCtl_one, e1 h1])
    have back : loopsBack { c with lpctl1 := ctlAfterPass c.lpctl1 } 0 = true := (loopsBack_iff _ 0).2 (by rw [lpCtl_zero]; exact Nat.ne_of_gt more)
    simp [sequential, e0, h1, last, back, countDown_one, countDown_zero, bodyStart]

/-- No level goes back: execution goes on behind the instruction, which counts the levels that end here down and discards those it
steps past. -/
theorem sequential_on (e0 : endsLevel c pc len 0 ext = true → bits c.lpctl0 63 32 = 1)
    (e1 : endsLevel c pc len 1 ext = true → bits c.lpctl1 63 32 = 1) :
    let next := pc + BitVec.ofNat 64 len
    let c1 := if endsLevel c pc len 1 ext then countDown c 1 else c
    let c0 := if endsLevel c pc len 0 ext then countDown c1 0 else c1
    let c2 := if endsLevel c pc len 1 ext then c0 else stepPast c0 pc next 1
    sequential c pc len ext = { (if endsLevel c pc len 0 ext then c2 else stepPast c2 pc next 0) with
      pc := next, span := c.span - len / 2 } := by
  have stay1 : (endsLevel c pc len 1 ext && loopsBack c 1) = false := by
    cases h1 : endsLevel c pc len 1 ext with
    | false => rfl
    | true => rw [Bool.true_and]; exact loopsBack_last (by rw [lpCtl_one, e1 h1])
  have stay0 (d : Ctx) (same : d.lpctl0 = c.lpctl0) : (endsLevel c pc len 0 ext && loopsBack d 0) = false := by
    cases h0 : endsLevel c pc len 0 ext with
    | false => rfl
    | true => rw [Bool.true_and]; exact loopsBack_last (by rw [lpCtl_zero, same, e0 h0])
  have ctl0 : (if endsLevel c pc len 1 ext then countDown c 1 else c).lpctl0 = c.lpctl0 := by
    split
    · rw [countDown_one]
    · rfl
  rw [sequential]
  dsimp only
  rw [stay1, stay0 _ ctl0]
  rfl

end

/-! ### Levels that end at an instruction (R213, R397) -/

/-- The bytes behind a level's end that the span of a role instruction there takes, as far as they are known. -/
def extKnown (c : Ctx) (k : Nat) : Nat :=
  if 0 < c.span ∧ c.spanAt = lpEnd c k then 2 * c.spanCode.length else (seenEnd c k).getD 0

/-- An instruction of len bytes at the pc ends a level. -/
def EndsAt (c : Ctx) (len k : Nat) : Prop :=
  lpActive c k = true ∧ (c.pc = lpEnd c k ∨ extKnown c k ≠ 0 ∧ lpEnd c k < c.pc ∧
    c.pc + BitVec.ofNat 64 len = lpEnd c k + BitVec.ofNat 64 (2 + extKnown c k))

/-- It does not reach the end of level 0. -/
def Within (c : Ctx) (len : Nat) : Prop :=
  lpActive c 0 = false ∨ c.pc < lpEnd c 0 ∧ c.pc + BitVec.ofNat 64 len ≤ lpEnd c 0

theorem extKnown_eq_spanExt {s : State} {k : Nat} (active : lpActive s.cur k = true) (ne : extKnown s.cur k ≠ 0) :
    spanExt s k = extKnown s.cur k := by
  unfold spanExt extKnown at *
  rw [if_pos active]
  split
  · rfl
  · next h =>
    rw [if_neg h] at ne
    cases e : seenEnd s.cur k with
    | none => rw [e] at ne; exact absurd rfl ne
    | some n => rfl

theorem endsLevel_of_endsAt {s : State} {len k : Nat} (h : EndsAt s.cur len k) : endsLevel s.cur s.cur.pc len k (spanExt s) = true := by
  obtain ⟨active, at1 | ⟨ne, lt, eq⟩⟩ := h
  · rw [endsLevel, active, decide_eq_true at1]; rfl
  · rw [endsLevel, active, extKnown_eq_spanExt active ne, decide_eq_true ne, decide_eq_true lt, decide_eq_true eq]
    simp

theorem endsLevel_before {c : Ctx} {pc : Word} {len k : Nat} {ext : Nat → Nat} (h : lpActive c k = true → pc < lpEnd c k) :
    endsLevel c pc len k ext = false := by
  unfold endsLevel
  cases active : lpActive c k with
  | false => rfl
  | true =>
    have lt := h active
    simp [BitVec.ne_of_lt lt, BitVec.not_lt.2 (BitVec.le_of_lt lt)]

/-- A level that the instruction steps past is discarded (R214). -/
def StepsPast (c : Ctx) (pc next : Word) (k : Nat) : Prop := lpActive c k = true ∧ pc < lpEnd c k ∧ lpEnd c k < next

theorem stepPast_of {c : Ctx} {pc next : Word} {k : Nat} (h : StepsPast c pc next k) : stepPast c pc next k = Machine.discard c k :=
  if_pos (by obtain ⟨a, b, d⟩ := h; simp [a, b, d])

theorem stepPast_not {c : Ctx} {pc next : Word} {k : Nat} (h : ¬StepsPast c pc next k) : stepPast c pc next k = c :=
  if_neg fun t => h (by simpa [StepsPast, and_assoc] using t)

theorem stepsPast_discard_one {c : Ctx} {pc next : Word} :
    StepsPast (Machine.discard c 1) pc next 0 ↔ StepsPast c pc next 0 := by
  simp only [StepsPast, lpActive, lpEnd, discard_one, lpCtl_zero, lpAddr_zero]

/-- Both levels stepped past, one after the other. -/
theorem stepPast_discards (c : Ctx) (pc next : Word) :
    Discards c (stepPast (stepPast c pc next 1) pc next 0) (StepsPast c pc next) := by
  by_cases l1 : StepsPast c pc next 1
  · rw [stepPast_of l1]
    by_cases l0 : StepsPast c pc next 0
    · rw [stepPast_of (stepsPast_discard_one.2 l0), discard_one, discard_zero]
      exact ⟨fun _ => ⟨rfl, clearActive_idem _⟩, fun no => absurd l0 no⟩
    · rw [stepPast_not (stepsPast_discard_one.not.2 l0), discard_one]
      exact ⟨fun l => absurd l l0, fun _ => ⟨rfl, fun _ => rfl, fun no => absurd l1 no⟩⟩
  · rw [stepPast_not l1]
    by_cases l0 : StepsPast c pc next 0
    · rw [stepPast_of l0, discard_zero]
      exact ⟨fun _ => ⟨rfl, rfl⟩, fun no => absurd l0 no⟩
    · rw [stepPast_not l0]
      exact ⟨fun l => absurd l l0, fun _ => ⟨rfl, fun l => absurd l l1, fun _ => rfl⟩⟩

/-! ### What an instruction that ends levels comes to -/

/-- The statement of R213 and R214 for one instruction of len bytes with the effect u at a context c: it steps past ends, or it ends
levels and goes back to a body or on. -/
def LevelsEnd (c : Ctx) (x : Instr) (s u : State) (len : Nat) : Prop :=
  let next := c.pc + BitVec.ofNat 64 len
  ((∀ k < 2, lpActive c k = true → c.pc < lpEnd c k) → ∃ t, exec x s = .next t ∧ SameRest u t ∧ SameButPlace u.cur t.cur ∧
    t.cur.wait = .ready ∧ t.cur.pc = next ∧ Discards c t.cur (StepsPast c c.pc next)) ∧
  ((EndsAt c len 0 ∨ EndsAt c len 1 ∧ Within c len) → (lpActive c 1 = false ∨ EndsAt c len 1) →
    ∃ t, exec x s = .next t ∧ SameRest u t ∧ SameButPlace u.cur t.cur ∧ t.cur.wait = .ready ∧
      (lpActive c 1 = false → 1 < bits c.lpctl0 63 32 → t.cur.pc = c.lpaddr0 + 4 ∧ t.cur.span = 0 ∧ lpActive t.cur 0 = true ∧
        bits t.cur.lpctl0 63 32 = bits c.lpctl0 63 32 - 1) ∧
      (lpActive c 1 = false → bits c.lpctl0 63 32 = 1 → t.cur.pc = next ∧ lpActive t.cur 0 = false) ∧
      (EndsAt c len 1 → 1 < bits c.lpctl1 63 32 → t.cur.pc = c.lpaddr1 + 4 ∧ t.cur.span = 0 ∧ lpActive t.cur 1 = true ∧
        bits t.cur.lpctl1 63 32 = bits c.lpctl1 63 32 - 1 ∧ t.cur.lpctl0 = c.lpctl0) ∧
      (EndsAt c len 1 → Within c len → bits c.lpctl1 63 32 = 1 → t.cur.pc = next ∧ lpActive t.cur 1 = false ∧
        t.cur.lpctl0 = c.lpctl0) ∧
      (EndsAt c len 1 → EndsAt c len 0 → bits c.lpctl1 63 32 = 1 → 1 < bits c.lpctl0 63 32 → t.cur.pc = c.lpaddr0 + 4 ∧
        t.cur.span = 0 ∧ lpActive t.cur 1 = false ∧ lpActive t.cur 0 = true ∧ bits t.cur.lpctl0 63 32 = bits c.lpctl0 63 32 - 1) ∧
      (EndsAt c len 1 → EndsAt c len 0 → bits c.lpctl1 63 32 = 1 → bits c.lpctl0 63 32 = 1 → t.cur.pc = next ∧
        lpActive t.cur 1 = false ∧ lpActive t.cur 0 = false))

theorem lpActive_zero_eq {c : Ctx} : lpActive c 0 = decide (bits c.lpctl0 31 31 = 1) := by rw [lpActive, lpCtl_zero]
theorem lpActive_one_eq {c : Ctx} : lpActive c 1 = decide (bits c.lpctl1 31 31 = 1) := by rw [lpActive, lpCtl_one]

section
variable {s : State} {len : Nat}

/-- Level 0 alone ends here. -/
theorem sequential_zero_alone (at0 : EndsAt s.cur len 0) (off : lpActive s.cur 1 = false) :
    let d := sequential s.cur s.cur.pc len (spanExt s)
    (1 < bits s.cur.lpctl0 63 32 → d.pc = s.cur.lpaddr0 + 4 ∧ d.span = 0 ∧ lpActive d 0 = true ∧
      bits d.lpctl0 63 32 = bits s.cur.lpctl0 63 32 - 1) ∧
    (bits s.cur.lpctl0 63 32 = 1 → d.pc = s.cur.pc + BitVec.ofNat 64 len ∧ lpActive d 0 = false) := by
  have e0 := endsLevel_of_endsAt at0
  have e1 : endsLevel s.cur s.cur.pc len 1 (spanExt s) = false := endsLevel_before fun a => absurd a (by rw [off]; decide)
  have active : bits s.cur.lpctl0 31 31 = 1 := by simpa [lpActive_zero_eq] using at0.1
  refine ⟨fun more => ?_, fun last => ?_⟩
  · obtain ⟨remain, act⟩ := ctlAfterPass_more more
    rw [sequential_back_zero e0 more (by rw [e1]; exact fun h => absurd h (by decide))]
    exact ⟨rfl, rfl, by rw [lpActive_zero_eq]; exact decide_eq_true (act.trans active), remain⟩
  · rw [sequential_on (fun _ => last) (by rw [e1]; exact fun h => absurd h (by decide))]
    have past : stepPast (countDown s.cur 0) s.cur.pc (s.cur.pc + BitVec.ofNat 64 len) 1 = countDown s.cur 0 :=
      stepPast_not fun h => by
        have := h.1
        rw [countDown_zero, lpActive_one_eq, ← lpActive_one_eq (c := s.cur), off] at this
        exact absurd this (by decide)
    simp only [e0, e1, if_true, Bool.false_eq_true, if_false]
    rw [past, countDown_zero]
    exact ⟨by trivial, by rw [lpActive_zero_eq]; exact decide_eq_false (by rw [ctlAfterPass_last last]; decide)⟩

/-- Level 1 ends here and goes back. -/
theorem sequential_one_back (at1 : EndsAt s.cur len 1) (more : 1 < bits s.cur.lpctl1 63 32) :
    let d := sequential s.cur s.cur.pc len (spanExt s)
    d.pc = s.cur.lpaddr1 + 4 ∧ d.span = 0 ∧ lpActive d 1 = true ∧ bits d.lpctl1 63 32 = bits s.cur.lpctl1 63 32 - 1 ∧
      d.lpctl0 = s.cur.lpctl0 := by
  have active : bits s.cur.lpctl1 31 31 = 1 := by simpa [lpActive_one_eq] using at1.1
  obtain ⟨remain, act⟩ := ctlAfterPass_more more
  rw [sequential_back_one (endsLevel_of_endsAt at1) more]
  exact ⟨rfl, rfl, by rw [lpActive_one_eq]; exact decide_eq_true (act.trans active), remain, rfl⟩

/-- Level 1 ends here for the last time, within level 0. -/
theorem sequential_one_last (at1 : EndsAt s.cur len 1) (inside : Within s.cur len) (last : bits s.cur.lpctl1 63 32 = 1) :
    let d := sequential s.cur s.cur.pc len (spanExt s)
    d.pc = s.cur.pc + BitVec.ofNat 64 len ∧ lpActive d 1 = false ∧ d.lpctl0 = s.cur.lpctl0 := by
  have e1 := endsLevel_of_endsAt at1
  have e0 : endsLevel s.cur s.cur.pc len 0 (spanExt s) = false := endsLevel_before fun a =>
    (inside.resolve_left (by rw [a]; decide)).1
  have past : stepPast (countDown s.cur 1) s.cur.pc (s.cur.pc + BitVec.ofNat 64 len) 0 = countDown s.cur 1 :=
    stepPast_not fun h => by
      simp only [StepsPast, countDown_one, lpActive, lpEnd, lpCtl_zero, lpAddr_zero] at h
      have within := inside.resolve_left fun off => by simp [lpActive_zero_eq, of_decide_eq_true h.1] at off
      simp only [lpEnd, lpCtl_zero, lpAddr_zero] at within
      exact absurd h.2.2 (BitVec.not_lt.2 within.2)
  rw [sequential_on (by rw [e0]; exact fun h => absurd h (by decide)) (fun _ => last)]
  simp only [e0, e1, if_true, Bool.false_eq_true, if_false]
  rw [past, countDown_one]
  exact ⟨by trivial, by rw [lpActive_one_eq]; exact decide_eq_false (by rw [ctlAfterPass_last last]; decide), rfl⟩

/-- Both levels end here, level 1 for the last time. -/
theorem sequential_both (at1 : EndsAt s.cur len 1) (at0 : EndsAt s.cur len 0) (last : bits s.cur.lpctl1 63 32 = 1) :
    let d := sequential s.cur s.cur.pc len (spanExt s)
    (1 < bits s.cur.lpctl0 63 32 → d.pc = s.cur.lpaddr0 + 4 ∧ d.span = 0 ∧ lpActive d 1 = false ∧ lpActive d 0 = true ∧
      bits d.lpctl0 63 32 = bits s.cur.lpctl0 63 32 - 1) ∧
    (bits s.cur.lpctl0 63 32 = 1 → d.pc = s.cur.pc + BitVec.ofNat 64 len ∧ lpActive d 1 = false ∧ lpActive d 0 = false) := by
  have e0 := endsLevel_of_endsAt at0
  have e1 := endsLevel_of_endsAt at1
  have active : bits s.cur.lpctl0 31 31 = 1 := by simpa [lpActive_zero_eq] using at0.1
  have off1 : decide (bits (ctlAfterPass s.cur.lpctl1) 31 31 = 1) = false := decide_eq_false (by rw [ctlAfterPass_last last]; decide)
  refine ⟨fun more => ?_, fun last0 => ?_⟩
  · obtain ⟨remain, act⟩ := ctlAfterPass_more more
    rw [sequential_back_zero e0 more fun _ => last]
    simp only [e1, if_true]
    exact ⟨by trivial, by trivial, lpActive_one_eq.trans off1, by rw [lpActive_zero_eq]; exact decide_eq_true (act.trans active), remain⟩
  · rw [sequential_on (fun _ => last0) (fun _ => last)]
    simp only [e0, e1, if_true]
    rw [countDown_one, countDown_zero]
    exact ⟨by trivial, lpActive_one_eq.trans off1, by rw [lpActive_zero_eq]; exact decide_eq_false (by rw [ctlAfterPass_last last0]; decide)⟩

/-- An instruction before the ends of the active levels goes on behind itself and discards what it steps past. -/
theorem sequential_before (before : ∀ k < 2, lpActive s.cur k = true → s.cur.pc < lpEnd s.cur k) :
    let d := sequential s.cur s.cur.pc len (spanExt s)
    d.pc = s.cur.pc + BitVec.ofNat 64 len ∧ Discards s.cur d (StepsPast s.cur s.cur.pc (s.cur.pc + BitVec.ofNat 64 len)) := by
  have e0 : endsLevel s.cur s.cur.pc len 0 (spanExt s) = false := endsLevel_before (before 0 (by omega))
  have e1 : endsLevel s.cur s.cur.pc len 1 (spanExt s) = false := endsLevel_before (before 1 (by omega))
  have no {p : Prop} : false = true → p := fun h => absurd h (by decide)
  rw [sequential_on (by rw [e0]; exact no) (by rw [e1]; exact no)]
  simp only [e0, e1, Bool.false_eq_true, if_false]
  exact ⟨by trivial, stepPast_discards ..⟩

end

/-- Two contexts differ at most in registers and the scoreboard. -/
def SameLevels (c d : Ctx) : Prop := ∃ regs board, d = { c with regs := regs, board := board }

theorem levelsEnd_of_sequential {x : Instr} {s u v : State} {d : Ctx} {l : List Pending} {len cycle st : Nat}
    (same : SameLevels s.cur v.cur) (place : SameButPlace u.cur d) (hd : sequential v.cur v.cur.pc len (spanExt v) = d)
    (e : exec x s = .next { u with cur := d.issued cycle st l }) : LevelsEnd s.cur x s u len := by
  obtain ⟨regs, board, levels⟩ := same
  have before := sequential_before (s := v) (len := len)
  have alone := sequential_zero_alone (s := v) (len := len)
  have back := sequential_one_back (s := v) (len := len)
  have last := sequential_one_last (s := v) (len := len)
  have both := sequential_both (s := v) (len := len)
  rw [hd, levels] at before alone back last both
  have rest : SameRest u { u with cur := d.issued cycle st l } := rfl
  have at0 (off : lpActive s.cur 1 = false) (h : EndsAt s.cur len 0 ∨ EndsAt s.cur len 1 ∧ Within s.cur len) : EndsAt s.cur len 0 :=
    h.resolve_right fun k => Bool.false_ne_true (off.symm.trans k.1.1)
  exact ⟨fun h => ⟨_, e, rest, place, rfl, before h⟩, fun h _ => ⟨_, e, rest, place, rfl, fun off => (alone (at0 off h) off).1,
    fun off => (alone (at0 off h) off).2, back, last, fun a1 a0 l1 => (both a1 a0 l1).1, fun a1 a0 l1 => (both a1 a0 l1).2⟩⟩

/-- An instruction that is done goes back or on as R213 and R214 say. -/
theorem levelsEnd_of_done {x : Instr} {s u : State} {l : List Pending} {len : Nat} {st : BitVec 3} {uses : List RegUse}
    (same : SameLevels s.cur u.cur) (e : exec x s = .next (retire s len st (Body.after uses (.done u l)))) :
    LevelsEnd s.cur x s u len := by
  obtain ⟨regs, board, cur⟩ := same
  refine levelsEnd_of_sequential (v := { u with cur := u.cur.settled uses }) ⟨regs, _, by rw [cur]; rfl⟩
    (samePlace_trans (settled_place u.cur uses) (sequential_place ..)) rfl (cycle := cycleNow s) (st := st.toNat) (l := l) ?_
  have pc : (u.cur.settled uses).pc = s.cur.pc := by rw [cur]; rfl
  rw [pc]
  exact e

theorem sameLevels_wr (s : State) (d : BitVec 5) (v : Word) : SameLevels s.cur (wr s d v).cur := by
  unfold wr Ctx.wr
  split <;> exact ⟨_, _, rfl⟩

section
variable {i : Instr} {s : State} (h : Calm anyAgent s)
include h

theorem alu3_levelsEnd {f : Word → Word → Word} {lat len : Nat} {d a b : BitVec 5} {st : BitVec 3}
    (e : exec i s = alu3 f lat len d a b st s) : LevelsEnd s.cur i s (wr s d (f (rd s a) (rd s b))) len :=
  levelsEnd_of_done (sameLevels_wr ..) (e.trans (issue_calm h len st _ _))

theorem alu2_levelsEnd {f : Word → Word} {len : Nat} {d a : BitVec 5} {st : BitVec 3}
    (e : exec i s = alu2 f len d a st s) : LevelsEnd s.cur i s (wr s d (f (rd s a))) len :=
  levelsEnd_of_done (sameLevels_wr ..) (e.trans (issue_calm h len st _ _))

theorem setReg_levelsEnd {len : Nat} {d : BitVec 5} {v : Word} {st : BitVec 3}
    (e : exec i s = issue s anyAgent len st [useS d] fun s => .done (wr s d v) []) : LevelsEnd s.cur i s (wr s d v) len :=
  levelsEnd_of_done (sameLevels_wr ..) (e.trans (issue_calm h len st _ _))

theorem branch_levelsEnd {n len : Nat} {c : Word → Word → Bool} {a b : BitVec 5} {o : BitVec n} {st : BitVec 3}
    (e : exec i s = branch c len a b o st s) (no : c (rd s a) (rd s b) = false) : LevelsEnd s.cur i s s len := by
  refine levelsEnd_of_done (l := []) (st := st) (uses := [useS a, useS b]) ⟨_, _, rfl⟩ (e.trans ((issue_calm h len st _ _).trans ?_))
  rw [no]; rfl

end

/-- Settles O7: every form is done with an effect that leaves the levels alone. -/
theorem loopBackEdge : Obligations.LoopBackEdge := by
  unfold Obligations.LoopBackEdge
  intro s d a b i l j st (h : Calm anyAgent s) c r0 r1 ends x y
  refine ⟨?forms, fun n m ps s1 run same hm ok out => ?role⟩
  case forms =>
    simp only [List.forall_mem_append, List.forall_mem_cons, List.not_mem_nil, false_implies, implies_true, and_true]
    refine ⟨⟨?add, ?addi, ?mul, ?lim, ?cmpEq, ?cMov, ?cLim⟩, ?brEq⟩
    case add => exact alu3_levelsEnd (f := aluAdd) h rfl
    case addi => exact alu2_levelsEnd (f := fun x => x + simm i) h rfl
    case mul => exact aluMul_eq x y ▸ alu3_levelsEnd (f := aluMul) h rfl
    case lim => exact setReg_levelsEnd h rfl
    case cmpEq =>
      have value : aluCmpEq x y = if x = y then 1 else 0 := ofBool_eq_ite decide_eq_true_iff
      exact value ▸ alu3_levelsEnd (f := aluCmpEq) h rfl
    case cMov => exact alu2_levelsEnd (f := id) h rfl
    case cLim => exact setReg_levelsEnd h rfl
    case brEq =>
      split
      · simp
      · next ne =>
        simp only [List.forall_mem_cons, List.not_mem_nil, false_implies, implies_true, and_true]
        exact branch_levelsEnd (c := fun x y => decide (x = y)) h rfl (decide_eq_false ne)
  case role =>
    have valid : exec (.role n m) s = .next (retire s (2 + 2 * (n.toNat + 1)) 0 (Body.after [] (.done s1 []))) := by
      rw [exec_role_valid h run hm ok, spanBody, out]; rfl
    exact levelsEnd_of_done ⟨_, _, same⟩ valid

end Sys2Proof.Proofs

/-! SUPPORT. Proofs: stores (R113, R116, R117, R141). -/

namespace Sys2Proof.Proofs

open Sys2Proof Sys2Proof.Machine Sys2Proof.Laws

/-! ### What keeps every byte where it stands -/

/-- Two states hold the same bytes at the same places: memory, the swizzles of the tiles and the motions agree. -/
def SameBytes (s t : State) : Prop := t.mem = s.mem ∧ t.tiles = s.tiles ∧ motions t = motions s

theorem SameBytes.refl (s : State) : SameBytes s s := ⟨rfl, rfl, rfl⟩

theorem SameBytes.trans {s t u : State} (h : SameBytes s t) (k : SameBytes t u) : SameBytes s u :=
  ⟨k.1.trans h.1, k.2.1.trans h.2.1, k.2.2.trans h.2.2⟩

theorem motionAt_sameBytes {s t : State} (h : SameBytes s t) (a : Nat) : motionAt t a = motionAt s a := by
  obtain ⟨-, -, motion⟩ := h
  rw [motionAt, motionAt, motion]

theorem forwarded_sameBytes {s t : State} (h : SameBytes s t) (a : Nat) : forwarded t a = forwarded s a := by
  rw [forwarded, forwarded, motionAt_sameBytes h]

theorem readByte_sameBytes {s t : State} (h : SameBytes s t) (a : Nat) : readByte t a = readByte s a := by
  obtain ⟨mem, tiles, -⟩ := id h
  rw [readByte, readByte, physKey, physKey, forwarded_sameBytes h, getTile, getTile, mem, tiles]

theorem Filled.sameBytes {s t : State} (h : Filled s t) : SameBytes s t := by
  obtain ⟨_, _, rfl⟩ := h; exact .refl s

theorem land_filled {s : State} {a : Nat} {va : VAddr} {k : Nat} {l : Landing} (h : land s a va k = .ok l) : Filled s l.st := by
  unfold land at h
  dsimp only at h
  split at h
  · split at h
    · cases h
    · split at h <;> cases h
      exact .refl s
  · split at h
    · cases h
    · next t =>
      split at h
      · cases h
      · split at h <;> cases h
        exact translate_filled t

theorem checkAccess_filled {s : State} {a : Nat} {e : Word} {al k : Nat} {l : Landing} (h : checkAccess s a e al k = .ok l) :
    Filled s l.st := by
  unfold checkAccess at h
  dsimp only at h
  split at h
  · cases h
  · exact land_filled h

/-! ### An entry of the store buffer -/

theorem rotatePath_only (s : State) (any : Bool) : ∃ p, rotatePath s any = { s with cur := { s.cur with stpath := p } } := by
  unfold rotatePath; split
  · exact ⟨_, rfl⟩
  · exact ⟨s.cur.stpath, rfl⟩

/-- A state in which one entry has entered the buffer, and STPATH may have moved on. -/
def Entered (s u : State) (e : StoreEntry) : Prop :=
  ∃ p, u = { s with cur := { s.cur with buf := s.cur.buf ++ [e], seqNext := s.cur.seqNext + 1, stpath := p } }

theorem pushEntry_entered (s : State) (l : Landing) (body : Payload) (ordered any : Bool) :
    ∃ e, Entered s (rotatePath (pushEntry s l body ordered) any) e ∧ e.loc = l.loc ∧ e.body = body ∧ e.ordered = ordered ∧
      e.seq = s.cur.seqNext := by
  obtain ⟨p, h⟩ := rotatePath_only (pushEntry s l body ordered) any
  rw [h]
  exact ⟨_, ⟨p, rfl⟩, rfl, rfl, rfl, rfl⟩

theorem Entered.sameBytes {s u : State} {e : StoreEntry} (h : Entered s u e) : SameBytes s u := by
  obtain ⟨_, rfl⟩ := h; exact .refl s

/-- What `StoreForms` says of a store: its instruction, size, ordered flag, address and length. -/
def EntersBuffer (s : State) (d : BitVec 5) (p : Instr × Nat × Bool × Word × Nat) : Prop :=
  ∀ l, checkAccess s s.who p.2.2.2.1 p.2.1 1 = .ok l →
    ((16 ≤ s.cur.buf.length ∨ pageHeld s s.who l = true) → Stalls p.1 s) ∧
    (s.cur.buf.length < 16 → pageHeld s s.who l = false → ∃ u e, Completes p.1 s u p.2.2.2.2 ∧ u.cur.buf = s.cur.buf ++ [e] ∧ e.loc = l.loc ∧
      e.body = .store (toBytes p.2.1 (rd s d).toNat) false ∧ e.ordered = p.2.2.1 ∧ e.seq = s.cur.seqNext ∧
      u.cur.regs = s.cur.regs ∧ u.cur.vregs = s.cur.vregs ∧ ∀ k, readByte u k = readByte s k)

theorem storeBody_waits {n : Nat} {d : BitVec 5} {ea : State → Word} {o : Bool} {s : State} {l : Landing}
    (h : checkAccess s s.who (ea s) n 1 = .ok l) (full : 16 ≤ s.cur.buf.length ∨ pageHeld s s.who l = true) :
    storeBody n d ea o s = .wait s .stalled := by
  rcases storeBody_cases (n := n) (d := d) (ea := ea) (o := o) (s := s) with ⟨t, k, -⟩ | ⟨_, -, -, e⟩ | ⟨m, k, room, free, -⟩
  · rw [h] at k; cases k
  · exact e
  · rw [h] at k; cases k
    rw [free] at full
    exact absurd full (by simp; omega)

theorem storeBody_enters {n : Nat} {d : BitVec 5} {ea : State → Word} {o : Bool} {s : State} {l : Landing}
    (h : checkAccess s s.who (ea s) n 1 = .ok l) (room : s.cur.buf.length < 16) (free : pageHeld s s.who l = false) :
    ∃ u e, storeBody n d ea o s = .done u [] ∧ Entered l.st u e ∧ e.loc = l.loc ∧
      e.body = .store (toBytes n (rd s d).toNat) false ∧ e.ordered = o ∧ e.seq = l.st.cur.seqNext := by
  rcases storeBody_cases (n := n) (d := d) (ea := ea) (o := o) (s := s) with ⟨t, k, -⟩ | ⟨m, k, full, -⟩ | ⟨m, k, -, -, e⟩
  · rw [h] at k; cases k
  · rw [h] at k; cases k
    rw [free] at full
    exact absurd full (by simp; omega)
  · rw [h] at k; cases k
    obtain ⟨entry, entered, place⟩ := pushEntry_entered l.st l (.store (toBytes n (rd s d).toNat) false) o (steered s.who l.loc)
    exact ⟨_, entry, e, entered, place⟩

theorem store_entersBuffer {i : Instr} {s : State} {n len : Nat} {d : BitVec 5} {ea : State → Word} {o : Bool} {st : BitVec 3}
    {uses : List RegUse} (calm : Calm [0] s) (e : exec i s = issue s coreOnly len st uses (storeBody n d ea o)) :
    EntersBuffer s d (i, n, o, ea s, len) := by
  have calm : Calm coreOnly s := calm
  intro l h
  rw [issue_calm calm] at e
  refine ⟨fun full => ?_, fun room free => ?_⟩
  · rw [storeBody_waits h full] at e
    exact stalls_of_wait e
  · obtain ⟨u, entry, body, entered, loc, bytes, ordered, seq⟩ := storeBody_enters (d := d) (o := o) h room free
    rw [body] at e
    have filled := checkAccess_filled h
    refine ⟨u, entry, completes_of_done e, ?_, loc, bytes, ordered, seq.trans (congrArg Ctx.seqNext filled.cur), ?_, ?_,
      readByte_sameBytes (filled.sameBytes.trans entered.sameBytes)⟩
    all_goals
      obtain ⟨_, rfl⟩ := entered
      simp only [filled.cur]

theorem store_form {i : Instr} {s : State} {n len : Nat} {d b : BitVec 5} {f : BitVec 1} {o : Word} {st : BitVec 3}
    (calm : Calm [0] s) (e : exec i s = store n len d b f o st s) :
    EntersBuffer s d (i, n, decide (f = 1), rd s b + o * BitVec.ofNat 64 n, len) :=
  store_entersBuffer (ea := fun s => rd s b + o * BitVec.ofNat 64 n) calm e

/-- Settles O11: what a store's body leaves, for each of its forms. -/
theorem storeForms : Obligations.StoreForms := by
  unfold Obligations.StoreForms
  intro s d b f o st calm
  show ∀ p ∈ _, EntersBuffer s d p
  have compressed : rd s b + 0 * BitVec.ofNat 64 8 = rd s b := by simp
  simp only [List.forall_mem_cons]
  refine ⟨?_, ?_, ?_, ?_, ?_, fun _ h => absurd h List.not_mem_nil⟩
  · exact store_form (i := .stB d b f o st) calm rfl
  · exact store_form (i := .stH d b f o st) calm rfl
  · exact store_form (i := .stW d b f o st) calm rfl
  · exact store_form (i := .stD d b f o st) calm rfl
  · rw [← compressed]
    exact store_form (i := .cStD b d) (f := 0) calm rfl

/-! ### `st.rel` (R116, R118) -/

/-- With a failed store recorded, what reports it traps STORE_FAIL before all else. -/
theorem storeFailFirst_traps {i : Instr} {s : State} {k : State → Host.Outcome State Fault Refusal}
    (e : exec i s = storeFailFirst s k) (failed : bits s.cur.sterr 63 63 = 1) (core : kindOf s.who = 0) (handler : HasHandler s) :
    Traps i s 0x12 7 0 0 := by
  rw [Traps, e, storeFailFirst, if_pos ⟨failed, core⟩]
  exact congrArg _ (raise_handler handler { code := 0x12 } (refreshTlb_other s (by decide) rfl) (by decide))

theorem storeFailFirst_passes {s : State} {k : State → Host.Outcome State Fault Refusal} (ok : bits s.cur.sterr 63 63 = 0) :
    storeFailFirst s k = k s := by
  rw [storeFailFirst, if_neg]
  rw [ok]
  exact fun h => absurd h.1 (by decide)

theorem kindOf_of_calm {s : State} (calm : Calm [0] s) : kindOf s.who = 0 := by
  obtain ⟨kind, -⟩ := calm
  simpa using kind

/-- Settles O12: STORE_FAIL, then the release, then a store's body. -/
theorem storeRelease : Obligations.StoreRelease := by
  unfold Obligations.StoreRelease
  intro s d b z c o st calm n i
  have calm' : Calm coreOnly s := calm
  have first : exec i s = execStRel d b z c o st s := rfl
  unfold execStRel at first
  refine ⟨fun failed => storeFailFirst_traps first failed (kindOf_of_calm calm), fun ok l h room free => ?_⟩
  have e : exec i s = _ := first.trans <| (storeFailFirst_passes ok).trans (issue_calm calm' ..)
  obtain ⟨u, entry, body, entered, loc, bytes, -, -⟩ :=
    storeBody_enters (n := sizeOf2 z) (d := d) (ea := fun s => effAddr (rd s b) o (sizeOf2 z)) (o := false) h room free
  rw [body] at e
  dsimp only at e
  refine ⟨fun blocked => ?_, fun released => ?_⟩
  · rw [if_pos blocked] at e
    exact stalls_of_wait e
  · rw [if_neg (Bool.eq_false_iff.1 released)] at e
    have filled := checkAccess_filled h
    refine ⟨_, entry, completes_of_done e, ?_, loc, bytes, List.mem_append_right _ (List.mem_singleton.2 rfl), ?_, fun k => ?_⟩
    · obtain ⟨_, rfl⟩ := entered
      simp only [filled.cur]
    · obtain ⟨_, rfl⟩ := entered
      simp only [filled.cur]
    · exact readByte_sameBytes (filled.sameBytes.trans entered.sameBytes) k

end Sys2Proof.Proofs

/-! SUPPORT. Proofs: loads and atomics (R113, R115, R117, R121, R122). -/

namespace Sys2Proof.Proofs

open Sys2Proof Sys2Proof.Machine Sys2Proof.Laws

/-! ### Numbers and bytes -/

theorem toInt_ofNat_eq_signed (w x : Nat) : (BitVec.ofNat w x).toInt = signed w x := by
  rw [BitVec.toInt_eq_toNat_cond, BitVec.toNat_ofNat, signed]

theorem slt_ofNat_iff (w x y : Nat) : (BitVec.ofNat w x).slt (BitVec.ofNat w y) = true ↔ signed w x < signed w y := by
  rw [BitVec.slt, decide_eq_true_eq, toInt_ofNat_eq_signed, toInt_ofNat_eq_signed]

theorem extend_true (n v : Nat) : extend true n v = (BitVec.ofNat (8 * n) v).signExtend 64 := by
  rw [extend, if_pos rfl, BitVec.signExtend, toInt_ofNat_eq_signed, ofInt]

theorem toBytes_succ (n v : Nat) : toBytes (n + 1) v = BitVec.ofNat 8 v :: toBytes n (v / 256) := by
  simp only [toBytes, List.range_succ_eq_map, List.map_cons, List.map_map, pow_zero, Nat.div_one]
  congr 1
  apply List.map_congr_left
  intro k _
  simp only [Function.comp_apply, pow_succ', Nat.div_div_eq_div_mul]

theorem fromBytes_toBytes (n v : Nat) : fromBytes (toBytes n v) = v % 256 ^ n := by
  induction n generalizing v with
  | zero => rw [pow_zero, Nat.mod_one]; rfl
  | succ n ih => rw [toBytes_succ, fromBytes, ih, BitVec.toNat_ofNat, pow_succ' 256, Nat.mod_mul]

/-! ### What counting a request and firing monitors leave where they are (R82, R127) -/

theorem flatMap_mapSet {α β : Type} [DecidableEq α] (g : α → List β) (d : α) (m : SMap α) (k : Nat) (v : α)
    (empty : g d = []) (same : g v = g (mapGet d m k)) :
    (mapSet d m k v).flatMap (fun x => g x.2) = m.flatMap (fun x => g x.2) := by
  induction m with
  | nil =>
    have none : g v = [] := same.trans empty
    rw [mapSet]
    split
    · rfl
    · rw [List.flatMap_cons, none]; rfl
  | cons x t ih =>
    obtain ⟨j, w⟩ := x
    rw [mapSet]
    by_cases below : k < j
    · have miss : mapGet d ((j, w) :: t) k = d := by rw [mapGet, if_neg (by omega), if_pos below]
      have none : g v = [] := same.trans ((congrArg g miss).trans empty)
      rw [if_pos below]
      split
      · rfl
      · rw [List.flatMap_cons, none]; rfl
    · rw [if_neg below]
      by_cases here : k = j
      · have hit : mapGet d ((j, w) :: t) k = w := by rw [mapGet, if_pos here]
        rw [hit] at same
        rw [if_pos here, List.flatMap_cons, ← same]
        split
        · next e => rw [e, empty]; rfl
        · exact List.flatMap_cons
      · have past : mapGet d ((j, w) :: t) k = mapGet d t k := by rw [mapGet, if_neg here, if_neg below]
        rw [past] at same
        rw [if_neg here, List.flatMap_cons, List.flatMap_cons, ih same]

theorem motions_putDie (s : State) (k : Nat) (d : Die) (h : d.active = (getDie s k).active) : motions (putDie s k d) = motions s :=
  flatMap_mapSet Die.active {} s.dies k d rfl h

theorem queueMotion_sameBytes {s u : State} {h : Nat} {m : Motion} (q : queueMotion s h m = some u) : SameBytes s u := by
  unfold queueMotion at q
  dsimp only at q
  split at q <;> cases q
  exact ⟨rfl, rfl, motions_putDie _ _ _ rfl⟩

theorem promotePage_sameBytes (s : State) (frame h : Nat) (p : Hot) : SameBytes s (promotePage s frame h p) := by
  unfold promotePage
  dsimp only
  split
  · split
    · exact .refl s
    · split
      · next k _ =>
        cases q : queueMotion s h { leaf := p.leaf, old := readNat s p.leaf 16, src := frame, dst := 0, log := p.log, loc := k } with
        | none => exact .refl s
        | some u => exact queueMotion_sameBytes q
      · exact .refl s
  · exact .refl s

theorem promote_sameBytes (s : State) (frame h : Nat) (p : Hot) : SameBytes s (promote s frame h p) := by
  unfold promote
  split
  · exact promotePage_sameBytes ..
  · exact .refl s

theorem SameBytes.ite {b : Prop} [Decidable b] {s t u : State} (h : SameBytes s t) (k : SameBytes s u) :
    SameBytes s (if b then t else u) := by
  split
  · exact h
  · exact k

theorem countHot_sameBytes (s : State) (loc core leaf : Nat) : SameBytes s (countHot s loc core leaf) := by
  unfold countHot
  dsimp only
  split
  · exact .refl s
  · split
    · exact .refl s
    · split
      · exact .refl s
      · refine .ite (.trans ?_ (promote_sameBytes ..)) ?_ <;> exact .refl s

theorem fireMonitors_sameBytes (s : State) (line : Nat) : SameBytes s (fireMonitors s line) := by
  obtain ⟨_, _, _, _, mem, _, fired⟩ := fireWhere_written s (decide <| · = line)
  have keeps := fireMonitors_mem s line
  rw [fireMonitors, fired] at keeps ⊢
  exact ⟨keeps, rfl, rfl⟩

/-- The state in which a checked access has been counted at its home. -/
theorem counted_seat {s : State} {e : Word} {al k : Nat} {l : Landing} (h : checkAccess s s.who e al k = .ok l) (core : Nat) :
    SameSeat s (countHot l.st l.loc core l.leaf) := by
  have filled := checkAccess_filled h
  have mem : l.st.mem = s.mem := filled.sameBytes.1
  exact sameSeat_trans ⟨filled.who, filled.cur, mem⟩ (countHot_seat ..)

/-! ### Traps of a home's answer -/

/-- An access that its home answers with a poisoned or a lost line traps where it stands. -/
theorem trapsFrom_of_answer {i : Instr} {s u : State} {len : Nat} {st : BitVec 3} {uses : List RegUse} {c k : Nat} {va : VAddr}
    (hh : HasHandler s) (seat : SameSeat s u) (code : c = 0x10 ∨ c = 0x11) (kind : k ≠ 3)
    (e : exec i s = .next (retire s len st (Body.after uses (.keep (raise u { code := c, access := k, va := va }))))) :
    TrapsFrom i s u c k 0 va := by
  have same : refreshTlb u { code := c, access := k, va := va } = u := by
    rcases code with rfl | rfl <;> simp [refreshTlb, refreshFor, Trap.waits, kind]
  have direct : c ≠ 0x08 ∧ c ≠ 0x09 ∧ c ≠ 0x100 := by rcases code with rfl | rfl <;> decide
  rw [TrapsFrom, e, raise_handler (hasHandler_of_seat hh seat) _ same direct]
  rfl

/-! ### Loads -/

/-- What `LoadForms` says of a load: its instruction, size, sign extension, address and length. -/
def LoadsAs (s : State) (d : BitVec 5) (p : Instr × Nat × Prop × Word × Nat) : Prop :=
  ∀ l, checkAccess s s.who p.2.2.2.1 p.2.1 0 = .ok l →
    (∀ bytes, loadBytes l.st s.who l p.2.1 = .val bytes →
      (s.sched.deferLoads = false ∨ ownBytes l.st s.who l p.2.1 = .all bytes) →
      ∃ v u, Completes p.1 s (wr u d v) p.2.2.2.2 ∧ (∀ k, readByte u k = readByte s k) ∧ u.cur = s.cur ∧
        (¬p.2.2.1 → v = BitVec.ofNat 64 (fromBytes bytes)) ∧
        (p.2.2.1 → v = (BitVec.ofNat (8 * p.2.1) (fromBytes bytes)).signExtend 64)) ∧
    (s.sched.deferLoads = false → HasHandler s →
      let s1 := countHot l.st l.loc (coreOf s.who) l.leaf
      (HomeAnswers l.st l p.2.1 1 → TrapsFrom p.1 s s1 0x10 0 0 (vaOf s p.2.2.2.1)) ∧
      (HomeAnswers l.st l p.2.1 2 → TrapsFrom p.1 s s1 0x11 0 0 (vaOf s p.2.2.2.1))) ∧
    (ownBytes l.st s.who l p.2.1 = .none → s.sched.deferLoads = true → homeOf s l.loc ≠ some 25 →
      boundFor l.st s.who l.loc (·.chan ≠ 0) = false →
      ∃ u x, Completes p.1 s u p.2.2.2.2 ∧ u.cur.loads = [x] ∧ x.d = d ∧ x.size = p.2.1 ∧ (x.sx = true ↔ p.2.2.1) ∧
        x.loc = l.loc ∧ x.val = none ∧ u.cur.regs = s.cur.regs ∧ u.mem = s.mem)

theorem loadBytes_none {s : State} {a n : Nat} {l : Landing} (own : ownBytes s a l n = .none)
    (bound : boundFor s a l.loc (fun _ => true) = false) (bank : bankBusy s l.loc 4096 = false) (far : farWaits s l.loc = false)
    (host : homeOf s l.loc ≠ some 25) :
    loadBytes s a l n = match serveRead s l.loc n with
      | (0, b) => .val b
      | (1, _) => .bad 0x10
      | (_, _) => .bad 0x11 := by
  rw [loadBytes, own]
  dsimp only
  rw [bound, bank, far, if_neg Bool.false_ne_true, if_neg (by decide), if_neg host] <;> rfl

theorem loadBytes_answer {s : State} {l : Landing} {n k : Nat} (h : HomeAnswers s l n k) :
    (k = 1 → loadBytes s s.who l n = .bad 0x10) ∧ (k = 2 → loadBytes s s.who l n = .bad 0x11) := by
  obtain ⟨own, bound, bank, far, host, status⟩ := h
  have e := loadBytes_none own bound bank far host
  cases r : serveRead s l.loc n with
  | mk status' bytes =>
    rw [r] at e status
    dsimp only at status
    subst status
    exact ⟨fun h => by subst h; exact e, fun h => by subst h; exact e⟩

section
variable {n len : Nat} {sx acq : Bool} {d : BitVec 5} {ea : State → Word} {st : BitVec 3} {s : State} {l : Landing}

theorem loadBody_bad {c : Nat} (h : checkAccess s s.who (ea s) n 0 = .ok l) (e : s.cur.loads = [])
    (own : ownBytes l.st s.who l n = .none) (f : s.sched.deferLoads = false) (v : loadBytes l.st s.who l n = .bad c) :
    loadBody n sx acq d ea len st s = .keep (raise (countHot l.st l.loc (coreOf s.who) l.leaf)
      { code := c, access := 0, va := vaOf s (ea s) }) := by
  unfold loadBody
  rw [h]
  dsimp only
  rw [own, f, e, v]
  rfl

theorem loadBody_defers (h : checkAccess s s.who (ea s) n 0 = .ok l)
    (own : ownBytes l.st s.who l n = .none) (f : s.sched.deferLoads = true) (host : homeOf s l.loc ≠ some 25)
    (bound : boundFor l.st s.who l.loc (·.chan ≠ 0) = false) :
    let x := newSlot l.st l n sx acq d (vaOf s (ea s))
    loadBody n sx acq d ea len st s =
      .done (pushSlot (sendMsg l.st s.who { loc := l.loc, leaf := l.leaf, body := .load n x.id }) x) [] := by
  unfold loadBody
  rw [h]
  dsimp only
  rw [own, f, bound]
  dsimp only
  rw [if_pos (by simp [host]), if_neg Bool.false_ne_true]

/-- A load that has its bytes in its own step completes with them. -/
theorem loadBody_gives {bytes : List Byte} (h : checkAccess s s.who (ea s) n 0 = .ok l) (e : s.cur.loads = [])
    (v : loadBytes l.st s.who l n = .val bytes) (now : s.sched.deferLoads = false ∨ ownBytes l.st s.who l n = .all bytes) :
    ∃ u, loadBody n sx acq d ea len st s = .done (wr u d (extend sx n (fromBytes bytes))) [] ∧ SameBytes s u ∧ u.cur = s.cur := by
  have filled := checkAccess_filled h
  have owned (own : ownBytes l.st s.who l n = .all bytes) :
      ∃ u, loadBody n sx acq d ea len st s = .done (wr u d (extend sx n (fromBytes bytes))) [] ∧ SameBytes s u ∧ u.cur = s.cur :=
    ⟨_, loadBody_own h e own, filled.sameBytes, filled.cur⟩
  rcases now with f | own
  · cases own : ownBytes l.st s.who l n with
    | part => rw [loadBytes, own] at v; cases v
    | all b =>
      rw [loadBytes, own] at v
      cases v
      exact owned own
    | none =>
      exact ⟨_, loadBody_val h e own f v, filled.sameBytes.trans (countHot_sameBytes ..), (counted_seat h _).2.1⟩
  · exact owned own

theorem load_loadsAs {i : Instr} {uses : List RegUse} {P : Prop} (calm : Calm [0] s) (empty : s.cur.loads = []) (sign : sx = true ↔ P)
    (e : exec i s = issue s coreOnly len st uses (loadBody n sx acq d ea len st)) : LoadsAs s d (i, n, P, ea s, len) := by
  have calm : Calm coreOnly s := calm
  intro l h
  rw [issue_calm calm] at e
  refine ⟨fun bytes v now => ?_, fun f hh => ?_, fun own f host bound => ?_⟩
  · obtain ⟨u, body, same, cur⟩ := loadBody_gives (sx := sx) (acq := acq) (d := d) (len := len) (st := st) h empty v now
    rw [body] at e
    refine ⟨_, u, completes_of_done e, readByte_sameBytes same, cur, fun unsigned => ?_, fun signs => ?_⟩
    · rw [extend, if_neg (fun h => unsigned (sign.1 h))]
    · rw [sign.2 signs, extend_true]
  · have seat := counted_seat h (coreOf s.who)
    have who : l.st.who = s.who := (checkAccess_filled h).who
    refine ⟨fun answer => ?_, fun answer => ?_⟩
    · have bad := (loadBytes_answer answer).1 rfl
      obtain ⟨own, -⟩ := answer
      rw [who] at bad own
      rw [loadBody_bad h empty own f bad] at e
      exact trapsFrom_of_answer hh seat (.inl rfl) (by decide) e
    · have bad := (loadBytes_answer answer).2 rfl
      obtain ⟨own, -⟩ := answer
      rw [who] at bad own
      rw [loadBody_bad h empty own f bad] at e
      exact trapsFrom_of_answer hh seat (.inr rfl) (by decide) e
  · rw [loadBody_defers h own f host bound] at e
    have filled := checkAccess_filled h
    have mem : l.st.mem = s.mem := filled.sameBytes.1
    refine ⟨_, newSlot l.st l n sx acq d (vaOf s (ea s)), completes_of_done e, ?_, rfl, rfl, sign, rfl, rfl, ?_, mem⟩
    · simp only [pushSlot, sendMsg, filled.cur, empty, List.nil_append]
    · simp only [pushSlot, sendMsg, filled.cur]

end

theorem load_form {i : Instr} {s : State} {n len : Nat} {sx : Bool} {P : Prop} {d b : BitVec 5} {o : Word} {st : BitVec 3}
    (calm : Calm [0] s) (empty : s.cur.loads = []) (sign : sx = true ↔ P) (e : exec i s = load n sx len d b o st s) :
    LoadsAs s d (i, n, P, rd s b + o * BitVec.ofNat 64 n, len) :=
  load_loadsAs (ea := fun s => rd s b + o * BitVec.ofNat 64 n) calm empty sign e

/-- Settles O9: what a load's body leaves, for each of its forms. -/
theorem loadForms : Obligations.LoadForms := by
  unfold Obligations.LoadForms
  intro s d b x o q z c st calm empty
  show ∀ p ∈ _, LoadsAs s d p
  have compressed : rd s b + 0 * BitVec.ofNat 64 8 = rd s b := by simp
  have signs : decide (x = 1) = true ↔ x = 1 := decide_eq_true_iff
  have zeros : false = true ↔ False := by decide
  simp only [List.forall_mem_cons]
  refine ⟨?_, ?_, ?_, ?_, ?_, ?_, fun _ h => absurd h List.not_mem_nil⟩
  · exact load_form (i := .ldB d b x o st) calm empty signs rfl
  · exact load_form (i := .ldH d b x o st) calm empty signs rfl
  · exact load_form (i := .ldW d b x o st) calm empty signs rfl
  · exact load_form (i := .ldD d b o st) calm empty zeros rfl
  · rw [← compressed]
    exact load_form (i := .cLdD b d) (o := 0) calm empty zeros rfl
  · exact load_loadsAs (i := .ldAcq d b z c q st) (ea := fun s => rd s b + simm q * BitVec.ofNat 64 (sizeOf2 z)) calm empty zeros rfl

/-! ### Atomics -/

/-- What `AtomicForms` says of an atomic: its instruction, size, new value and operation. -/
def SwapsAt (s : State) (d a : BitVec 5) (c : BitVec 3) (old : Nat) (p : Instr × Nat × Nat × Nat) : Prop :=
  ∀ l s1, checkAccess s s.who (rd s a) p.2.1 2 = .ok l → atomicPathOk s l.loc p.2.2.2 c.toNat = true →
    fullBlocked s s.who c = false → pageHeld s s.who l = false → boundFor s s.who l.loc (fun _ => true) = false → bankBusy s l.loc 4096 = false →
    writeWaits s l.loc = false → homeOf s l.loc ≠ some 25 → s1 = countHot l.st l.loc (coreOf s.who) l.leaf →
    (serveRead s1 l.loc p.2.1 = (0, toBytes p.2.1 old) → old < 256 ^ p.2.1 →
      ∃ u, Completes p.1 s (wr u d (BitVec.ofNat 64 old)) 4 ∧
        (p.2.2.2 ≠ 9 ∨ old = (rd s d).toNat % 256 ^ p.2.1 → u = (serveWrite s1 l.loc (toBytes p.2.1 p.2.2.1) false).2) ∧
        (p.2.2.2 = 9 ∧ old ≠ (rd s d).toNat % 256 ^ p.2.1 → ∀ k, readByte u k = readByte s k)) ∧
    (HasHandler s → ((serveRead s1 l.loc p.2.1).1 = 1 → TrapsFrom p.1 s s1 0x10 2 0 (vaOf s (rd s a))) ∧
      ((serveRead s1 l.loc p.2.1).1 = 2 → TrapsFrom p.1 s s1 0x11 2 0 (vaOf s (rd s a))))

/-- What an atomic's body comes to at a home that serves it. -/
theorem atomic_served {s : State} {op n : Nat} {d a b : BitVec 5} {c st : BitVec 3} {l : Landing} (calm : Calm [0] s)
    (h : checkAccess s s.who (rd s a) n 2 = .ok l) (path : atomicPathOk s l.loc op c.toNat = true)
    (full : fullBlocked s s.who c = false) (held : pageHeld s s.who l = false)
    (bound : boundFor s s.who l.loc (fun _ => true) = false) (bank : bankBusy s l.loc 4096 = false) (far : writeWaits s l.loc = false)
    (host : homeOf s l.loc ≠ some 25) :
    let s1 := countHot l.st l.loc (coreOf s.who) l.leaf
    let va := vaOf s (rd s a)
    atomic op n d a b c st s = .next (retire s 4 st (Body.after [useS a, useS b, useS d]
      (match amoAt s1 l.loc n op ((rd s b).toNat % 2 ^ (8 * n)) ((rd s d).toNat % 2 ^ (8 * n)) with
      | (0, old, s2) => .done (wr s2 d (BitVec.ofNat 64 old)) []
      | (1, _, _) => .keep (raise s1 { code := 0x10, access := 2, va := va })
      | (_, _, _) => .keep (raise s1 { code := 0x11, access := 2, va := va })))) := by
  have calm : Calm coreOnly s := calm
  unfold atomic
  rw [issue_calm calm, h]
  dsimp only
  rw [path, full, held, bound, bank, far, if_neg (by decide), if_neg (by decide), if_neg host] <;> rfl

theorem amoAt_served {s : State} {loc n op b cmp old : Nat} (r : serveRead s loc n = (0, toBytes n old)) (small : old < 256 ^ n) :
    ∃ u, amoAt s loc n op b cmp = (0, old, u) ∧
      (op ≠ 9 ∨ old = cmp → u = (serveWrite s loc (toBytes n (amoNew op (8 * n) old b cmp)) false).2) ∧
      (op = 9 ∧ old ≠ cmp → SameBytes s u) := by
  have value : fromBytes (toBytes n old) = old := (fromBytes_toBytes n old).trans (Nat.mod_eq_of_lt small)
  simp only [amoAt, r, value]
  by_cases keeps : op = 9 ∧ old ≠ cmp
  · rw [if_pos keeps]
    exact ⟨_, rfl, fun h => absurd keeps (by tauto), fun _ => fireMonitors_sameBytes ..⟩
  · rw [if_neg keeps]
    exact ⟨_, rfl, fun _ => rfl, fun h => absurd h keeps⟩

theorem amoAt_refused {s : State} {loc n op b cmp k : Nat} (r : (serveRead s loc n).1 = k) (bad : k ≠ 0) :
    amoAt s loc n op b cmp = (k, 0, s) := by
  cases e : serveRead s loc n with
  | mk status bytes =>
    rw [e] at r
    dsimp only at r
    subst r
    rw [amoAt, e]
    split
    · next h => cases h; exact absurd rfl bad
    · next h => cases h; rfl

theorem atomic_swapsAt {i : Instr} {s : State} {op n old new : Nat} {d a b : BitVec 5} {c st : BitVec 3} (calm : Calm [0] s)
    (e : exec i s = atomic op n d a b c st s)
    (value : amoNew op (8 * n) old ((rd s b).toNat % 256 ^ n) ((rd s d).toNat % 256 ^ n) = new) :
    SwapsAt s d a c old (i, n, new, op) := by
  have width : 2 ^ (8 * n) = 256 ^ n := pow_mul 2 8 n
  intro l s1 h path full held bound bank far host counted
  rw [atomic_served calm h path full held bound bank far host, width] at e
  dsimp only at e
  rw [← counted] at e
  refine ⟨fun r small => ?_, fun hh => ⟨fun r => ?_, fun r => ?_⟩⟩
  · obtain ⟨u, served, writes, keeps⟩ := amoAt_served (op := op) (b := (rd s b).toNat % 256 ^ n) (cmp := (rd s d).toNat % 256 ^ n) r small
    rw [served] at e
    rw [value] at writes
    have same : SameBytes s s1 := by rw [counted]; exact (checkAccess_filled h).sameBytes.trans (countHot_sameBytes ..)
    exact ⟨u, completes_of_done e, writes, fun k => readByte_sameBytes (same.trans (keeps k))⟩
  · have seat := counted_seat h (coreOf s.who)
    rw [← counted] at seat
    rw [amoAt_refused r (by decide)] at e
    exact trapsFrom_of_answer hh seat (.inl rfl) (by decide) e
  · have seat := counted_seat h (coreOf s.who)
    rw [← counted] at seat
    rw [amoAt_refused r (by decide)] at e
    exact trapsFrom_of_answer hh seat (.inr rfl) (by decide) e

theorem amoNew_min (n old y cmp : Nat) :
    amoNew 4 (8 * n) old y cmp = if (BitVec.ofNat (8 * n) y).slt (BitVec.ofNat (8 * n) old) then y else old := by
  simp only [amoNew, slt_ofNat_iff]

theorem amoNew_max (n old y cmp : Nat) :
    amoNew 5 (8 * n) old y cmp = if (BitVec.ofNat (8 * n) old).slt (BitVec.ofNat (8 * n) y) then y else old := by
  simp only [amoNew, slt_ofNat_iff]

theorem amoNew_minn (w old y cmp : Nat) : amoNew 6 w old y cmp = min old y := by
  simp only [amoNew]; split <;> omega

theorem amoNew_maxn (w old y cmp : Nat) : amoNew 7 w old y cmp = max old y := by
  simp only [amoNew]; split <;> omega

/-- Settles O14: the new value of each operation. -/
theorem atomicForms : Obligations.AtomicForms := by
  unfold Obligations.AtomicForms
  intro s d a b c st calm old y e mn mx
  show ∀ p ∈ _, SwapsAt s d a c old p
  have minimum (n : Nat) := amoNew_min n old ((rd s b).toNat % 256 ^ n) ((rd s d).toNat % 256 ^ n)
  have maximum (n : Nat) := amoNew_max n old ((rd s b).toNat % 256 ^ n) ((rd s d).toNat % 256 ^ n)
  have lower (w n : Nat) := amoNew_minn w old ((rd s b).toNat % 256 ^ n) ((rd s d).toNat % 256 ^ n)
  have upper (w n : Nat) := amoNew_maxn w old ((rd s b).toNat % 256 ^ n) ((rd s d).toNat % 256 ^ n)
  simp only [List.forall_mem_cons]
  refine ⟨?_, ?_, ?_, ?_, ?_, ?_, ?_, ?_, ?_, ?_, ?_, ?_, ?_, ?_, ?_, ?_, ?_, ?_, ?_, ?_, fun _ h => absurd h List.not_mem_nil⟩
  · exact atomic_swapsAt (i := .amoAddW d a b c st) calm rfl rfl
  · exact atomic_swapsAt (i := .amoAndW d a b c st) calm rfl rfl
  · exact atomic_swapsAt (i := .amoOrW d a b c st) calm rfl rfl
  · exact atomic_swapsAt (i := .amoXorW d a b c st) calm rfl rfl
  · exact atomic_swapsAt (i := .amoMinW d a b c st) calm rfl (minimum 4)
  · exact atomic_swapsAt (i := .amoMaxW d a b c st) calm rfl (maximum 4)
  · exact atomic_swapsAt (i := .amoMinnW d a b c st) calm rfl (lower 32 4)
  · exact atomic_swapsAt (i := .amoMaxnW d a b c st) calm rfl (upper 32 4)
  · exact atomic_swapsAt (i := .amoSwapW d a b c st) calm rfl rfl
  · exact atomic_swapsAt (i := .casW d a b c st) calm rfl rfl
  · exact atomic_swapsAt (i := .amoAddD d a b c st) calm rfl rfl
  · exact atomic_swapsAt (i := .amoAndD d a b c st) calm rfl rfl
  · exact atomic_swapsAt (i := .amoOrD d a b c st) calm rfl rfl
  · exact atomic_swapsAt (i := .amoXorD d a b c st) calm rfl rfl
  · exact atomic_swapsAt (i := .amoMinD d a b c st) calm rfl (minimum 8)
  · exact atomic_swapsAt (i := .amoMaxD d a b c st) calm rfl (maximum 8)
  · exact atomic_swapsAt (i := .amoMinnD d a b c st) calm rfl (lower 64 8)
  · exact atomic_swapsAt (i := .amoMaxnD d a b c st) calm rfl (upper 64 8)
  · exact atomic_swapsAt (i := .amoSwapD d a b c st) calm rfl rfl
  · exact atomic_swapsAt (i := .casD d a b c st) calm rfl rfl

end Sys2Proof.Proofs

/-! SUPPORT. Proofs: the checks of an access in their order (R101, R102, R111, R117 to R123). -/

namespace Sys2Proof.Proofs

open Sys2Proof Sys2Proof.Machine Sys2Proof.Laws

/-! ### The checks of one address -/

/-- A translation that fails names the access that asked for it, or waits for a link. -/
theorem translate_error {s : State} {core : Nat} {r : Word} {va : VAddr} {k : Nat} {t : Trap}
    (h : Machine.translate s core r va k = .error t) : t.walked = [] ∧ (t.waits = false → t.access = k ∧ t.va = va) := by
  unfold Machine.translate at h
  dsimp only at h
  repeat' split at h
  all_goals cases h
  all_goals exact ⟨rfl, fun waits => by first | exact ⟨rfl, rfl⟩ | cases waits⟩

section
variable {s : State} {e : Word} {al k : Nat} {va : VAddr}

theorem land_walked {a : Nat} {t : Trap} (h : land s a va k = .error t) : t.walked = [] := by
  unfold land at h
  dsimp only at h
  repeat' split at h
  case h_1 e => cases h; exact (translate_error e).1
  all_goals cases h
  all_goals rfl

/-- The kinds of access that loads, stores and atomics make. -/
theorem needs_of_kind (small : k < 3) : needsR k = decide (k ≠ 1) ∧ needsW k = decide (k ≠ 0) := by
  interval_cases k <;> exact ⟨rfl, rfl⟩

theorem land_withheld {a : Nat} (h : isSliceVA va = true) (small : k < 3)
    (w : k ≠ 0 ∧ (sysArea (sliceOfVA va) = true ∨ withheld s (sliceOfVA va) = true)) :
    land s a va k = .error { code := 0x0D, access := k, va := va } := by
  have stops : (needsW k && (sysArea (sliceOfVA va) || withheld s (sliceOfVA va))) = true := by
    rw [(needs_of_kind small).2]; simpa using w
  unfold land
  dsimp only
  rw [if_pos h, if_pos stops, ite_self]

theorem land_untranslated {a : Nat} {c : Ctx} {t : Trap} (ctx : getCtx s (asCtx a) = c) (h : isSliceVA va = false)
    (fails : Machine.translate s (coreOf a) c.troot va k = .error t) : land s a va k = .error t := by
  unfold land
  rw [if_neg (Bool.eq_false_iff.1 h), ctx, fails]

theorem land_translated {a : Nat} {c : Ctx} {entry : TlbEntry} {u : State} (ctx : getCtx s (asCtx a) = c) (h : isSliceVA va = false)
    (small : k < 3) (ok : Machine.translate s (coreOf a) c.troot va k = .ok (entry, u)) :
    let pa := entry.frame + va.toNat % 2 ^ entry.log
    (homeOf s pa = none → land s a va k = .error { code := 0x0C, access := k, va := va }) ∧
    (homeOf s pa ≠ none → isSys s a = false → (k ≠ 1 ∧ (entry.allows pa).1 = false ∨ k ≠ 0 ∧ (entry.allows pa).2 = false) →
      land s a va k = .error { code := 0x0D, access := k, va := va }) := by
  intro pa
  have e := land.eq_1 s a va k
  rw [if_neg (Bool.eq_false_iff.1 h), ctx, ok] at e
  refine ⟨fun empty => ?_, fun there user denied => ?_⟩
  · have out : (!populated s pa) = true := by rw [populated, empty]; rfl
    exact e.trans (if_pos out)
  · have inside : ¬((!populated s pa) = true) := by
      rw [populated]; simpa using there
    have stops : (!(isSys s a || ((!needsR k && k ≠ 3 || (entry.allows pa).1) && (!needsW k || (entry.allows pa).2)))) = true := by
      rw [user, (needs_of_kind small).1, (needs_of_kind small).2]
      rcases denied with ⟨kind, no⟩ | ⟨kind, no⟩ <;> simp [kind, no]
    exact e.trans ((if_neg inside).trans (if_pos stops))

end

/-- What `MisalignedForms` says of an access of one address: its instruction, size, kind and address. -/
def ChecksInOrder (s : State) (p : Instr × Nat × Nat × Word) : Prop :=
  let va := fun (e : Word) => widen (vaHigh s.cur) e
  let n := p.2.1
  let k := p.2.2.1
  let y := va p.2.2.2
  let loc := sliceOfVA y
  let fails := fun (code : Nat) => Faults p.1 s { code := code, access := k, va := y }
  (p.2.2.2.toNat % n ≠ 0 → fails 0x03) ∧
  (p.2.2.2.toNat % n = 0 → isSliceVA y = true → (sliceAllows s s.who (sliceTile loc) = false ∨
    k ≠ 0 ∧ (sysArea loc = true ∨ withheld s loc = true)) → fails 0x0D) ∧
  (p.2.2.2.toNat % n = 0 → isSliceVA y = false →
    (∀ t, Machine.translate s (coreOf s.who) s.cur.troot y k = .error t →
      (t.waits = false → t.access = k ∧ t.va = y) ∧ Faults p.1 s t) ∧
    ∀ e s1, Machine.translate s (coreOf s.who) s.cur.troot y k = .ok (e, s1) →
      let pa := e.frame + y.toNat % 2 ^ e.log
      (homeOf s pa = none → fails 0x0C) ∧
      (homeOf s pa ≠ none → isSys s s.who = false → (k ≠ 1 ∧ (e.allows pa).1 = false ∨ k ≠ 0 ∧ (e.allows pa).2 = false) →
        fails 0x0D))

/-- The context that a core's accesses are made by is the focus. -/
theorem ctx_of_handler {s : State} (hh : HasHandler s) : getCtx s (asCtx s.who) = s.cur := by
  rw [asCtx_core hh.1, getCtx_who]

/-- An instruction whose one check fails as it does makes all checks in order. -/
theorem checksInOrder_of_raise {i : Instr} {s : State} {n k : Nat} {e : Word} (hh : HasHandler s) (small : k < 3)
    (raises : ∀ t, checkAccess s s.who e n k = .error t → exec i s = .next (raise s t)) : ChecksInOrder s (i, n, k, e) := by
  have ctx := ctx_of_handler hh
  have faults {t : Trap} (h : checkAccess s s.who e n k = .error t) : Faults i s t := faults_of_raise hh (raises t h)
  have lands (aligned : e.toNat % n = 0) : checkAccess s s.who e n k = land s s.who (widen (vaHigh s.cur) e) k := by
    rw [checkAccess_aligned aligned, ctx]
  unfold ChecksInOrder
  dsimp only
  refine ⟨fun odd => ?_, fun aligned slice denied => ?_, fun aligned slice => ⟨fun t error => ?_, fun entry s1 ok => ?_⟩⟩
  · apply faults
    rw [checkAccess_misaligned odd, ctx]
  · apply faults
    rw [lands aligned]
    rcases denied with no | no
    · exact land_denied slice no
    · exact land_withheld slice small no
  · refine ⟨(translate_error error).2, faults ?_⟩
    rw [lands aligned]
    exact land_untranslated ctx slice error
  · have checks := land_translated ctx slice small ok
    refine ⟨fun empty => faults ?_, fun there user no => faults ?_⟩ <;> rw [lands aligned]
    · exact checks.1 empty
    · exact checks.2 there user no

/-! ### Loads, stores and atomics -/

section
variable {i : Instr} {s : State} {n len op : Nat} {d a b : BitVec 5} {st : BitVec 3}

theorem load_checks {ea : State → Word} {sx acq : Bool} {uses : List RegUse} (hh : HasHandler s) (empty : s.cur.loads = [])
    (calm : Calm [0] s) (e : exec i s = issue s coreOnly len st uses (loadBody n sx acq d ea len st)) :
    ChecksInOrder s (i, n, 0, ea s) := by
  have calm : Calm coreOnly s := calm
  refine checksInOrder_of_raise hh (by decide) fun t fails => ?_
  rw [e, issue_calm calm, loadBody_trap fails empty]
  rfl

theorem storeBody_fails {ea : State → Word} {o : Bool} {t : Trap} (fails : checkAccess s s.who (ea s) n 1 = .error t) :
    storeBody n d ea o s = .trap t := by
  rw [storeBody, fails]

theorem store_checks {ea : State → Word} {o : Bool} {uses : List RegUse} (hh : HasHandler s)
    (calm : Calm [0] s) (e : exec i s = issue s coreOnly len st uses (storeBody n d ea o)) : ChecksInOrder s (i, n, 1, ea s) := by
  have calm : Calm coreOnly s := calm
  refine checksInOrder_of_raise hh (by decide) fun t fails => ?_
  rw [e, issue_calm calm, storeBody_fails fails]
  rfl

theorem stRel_checks {z : BitVec 2} {c : BitVec 3} {o : BitVec 6} (hh : HasHandler s) (calm : Calm [0] s)
    (ok : bits s.cur.sterr 63 63 = 0) :
    ChecksInOrder s (.stRel d b z c o st, sizeOf2 z, 1, effAddr (rd s b) o (sizeOf2 z)) := by
  have calm' : Calm coreOnly s := calm
  refine checksInOrder_of_raise hh (by decide) fun t fails => ?_
  have first : exec (.stRel d b z c o st) s = execStRel d b z c o st s := rfl
  rw [first, execStRel, storeFailFirst_passes ok, issue_calm calm',
    storeBody_fails (ea := fun s => effAddr (rd s b) o (sizeOf2 z)) fails]
  rfl

theorem atomic_checks {c : BitVec 3} (hh : HasHandler s) (calm : Calm [0] s) (e : exec i s = atomic op n d a b c st s) :
    ChecksInOrder s (i, n, 2, rd s a) := by
  have calm : Calm coreOnly s := calm
  refine checksInOrder_of_raise hh (by decide) fun t fails => ?_
  rw [e, atomic, issue_calm calm, fails]
  rfl

/-- Where an atomic may not go (R123). -/
theorem atomic_path {c : BitVec 3} {l : Landing} (hh : HasHandler s) (calm : Calm [0] s) (e : exec i s = atomic op n d a b c st s)
    (h : checkAccess s s.who (rd s a) n 2 = .ok l)
    (far : homeAt s l.loc = some 24 ∨ homeAt s l.loc = some 25 ∧ ¬(c = 5 ∧ (op = 0 ∨ op = 8 ∨ op = 9))) :
    Faults i s { code := 0x0E, access := 2, va := widen (vaHigh s.cur) (rd s a) } := by
  have calm : Calm coreOnly s := calm
  have refused : atomicPathOk s l.loc op c.toNat = false := by
    unfold atomicPathOk
    have scope : c.toNat = 5 ↔ c = 5 := ⟨fun h => BitVec.eq_of_toNat_eq h, fun h => by rw [h]; rfl⟩
    rcases far with far | ⟨far, no⟩
    · rw [far]; rfl
    · rw [far, ← Bool.not_eq_true]
      simpa [scope, or_assoc] using no
  apply faults_of_raise hh
  rw [e, atomic, issue_calm calm, h]
  dsimp only
  rw [refused, vaOf, ctx_of_handler hh]
  rfl

end

/-! ### Vector accesses -/

/-- The first check that fails stops a vector access behind the accesses before it. -/
theorem landAll_fails {al k : Nat} {es : List Word} {e : Word} {t : Trap} :
    ∀ {s u : State} {j : Nat} {ls : List (Word × Landing)}, es[j]? = some e → landAll s al k (es.take j) = .ok (ls, u) →
      checkAccess u u.who e al k = .error t → t.walked = [] →
      landAll s al k es = .error { t with walked := (es.take j).map fun e => (vaOf s e, k) } ∧ Filled s u := by
  induction es with
  | nil => intro s u j ls at1; cases at1
  | cons x es ih =>
    intro s u j ls at1 before fails none
    cases j with
    | zero =>
      cases before
      cases at1
      rw [landAll, fails]
      cases t; cases none
      exact ⟨rfl, .refl s⟩
    | succ j =>
      rw [List.take_succ_cons, landAll] at before
      rw [landAll]
      cases check : checkAccess s s.who x al k with
      | error => rw [check] at before; cases before
      | ok l =>
        rw [check] at before
        dsimp only at before ⊢
        have filled := checkAccess_filled check
        cases rest : landAll l.st al k (es.take j) with
        | error => rw [rest] at before; cases before
        | ok r =>
          obtain ⟨r, s'⟩ := r
          rw [rest] at before
          cases before
          obtain ⟨stop, last⟩ := ih at1 rest fails none
          have ctx (y : Word) : vaOf l.st y = vaOf s y := by
            obtain ⟨_, _, e⟩ := filled; rw [e]; rfl
          rw [stop]
          simp only [Trap.after, ctx, List.take_succ_cons, List.map_cons]
          exact ⟨trivial, filled.trans last⟩

/-- What `MisalignedForms` says of a vector access: its instruction, size, kind, addresses and registers. -/
def ChecksLanes (s : State) (p : Instr × Nat × Nat × List Word × Access) : Prop :=
  let va := fun (e : Word) => widen (vaHigh s.cur) e
  VectorReady s p.2.2.2.2 → ∀ j e ls s1, p.2.2.2.1[j]? = some e → landAll s p.2.1 p.2.2.1 (p.2.2.2.1.take j) = .ok (ls, s1) →
    let behind := fun (t : Trap) (j : Nat) => { t with walked := (p.2.2.2.1.take j).map fun e => (va e, p.2.2.1) }
    (e.toNat % p.2.1 ≠ 0 → Faults p.1 s (behind { code := 0x03, access := p.2.2.1, va := va e } j)) ∧
    ∀ t, e.toNat % p.2.1 = 0 → land s1 s.who (va e) p.2.2.1 = .error t → Faults p.1 s (behind t j)

theorem landAll_filled {al k : Nat} {es : List Word} :
    ∀ {s u : State} {ls : List (Word × Landing)}, landAll s al k es = .ok (ls, u) → Filled s u := by
  induction es with
  | nil => intro s u ls h; cases h; exact .refl s
  | cons x es ih =>
    intro s u ls h
    rw [landAll] at h
    split at h
    · cases h
    · next check =>
      split at h
      · cases h
      · next rest => cases h; exact (checkAccess_filled check).trans (ih rest)

theorem vmem_raises {s : State} {st : BitVec 3} {base : BitVec 5} {x : Access} {al k : Nat} {eas : List Word}
    {go : State → List (Word × Landing) → Body} {t : Trap} (ready : VectorReady s x) (fails : landAll s al k eas = .error t) :
    vmem s st base x al k eas go = .next (raise s t) := by
  obtain ⟨core, way, quiet, -, -⟩ := ready
  rw [vmem, if_neg (by simp [core]), if_neg (Bool.eq_false_iff.1 way), shortStop_quiet quiet]
  dsimp only
  rw [fails]

theorem vmem_checksLanes {i : Instr} {s : State} {x : Access} {al k : Nat} {eas : List Word} (hh : HasHandler s)
    (e : VectorReady s x → ∃ st base go, exec i s = vmem s st base x al k eas go) : ChecksLanes s (i, al, k, eas, x) := by
  unfold ChecksLanes
  intro va ready j a ls u at1 before behind
  have filled := landAll_filled before
  have va_eq (y : Word) : vaOf s y = va y := by rw [vaOf, ctx_of_handler hh]
  have ctx : getCtx u (asCtx u.who) = s.cur := by
    rw [ctx_of_handler (hasHandler_of_filled hh filled), filled.cur]
  have stops {t : Trap} (fails : checkAccess u u.who a al k = .error t) (none : t.walked = []) : Faults i s (behind t j) := by
    have stop := (landAll_fails at1 before fails none).1
    simp only [va_eq] at stop
    obtain ⟨_, _, _, e⟩ := e ready
    exact faults_of_raise hh (e.trans (vmem_raises ready stop))
  refine ⟨fun odd => ?_, fun t aligned fails => ?_⟩
  · apply stops ?_ rfl
    rw [checkAccess_misaligned odd, ctx]
  · apply stops ?_ (land_walked fails)
    rw [checkAccess_aligned aligned, ctx, filled.who]
    exact fails

theorem streamStop_of_check {c : Ctx} {x : Access} {v : BitVec 6} (h : streamCheck c x = none) (mem : v ∈ x.reads ++ x.writes) :
    streamStop c v = none := by
  unfold streamCheck at h
  dsimp only at h
  split at h
  · cases h
  · have none := List.head?_eq_none_iff.1 h
    simp only [List.filterMap_eq_nil_iff] at none
    exact none v mem

theorem laneEas_ready {s : State} {b : BitVec 5} {i : BitVec 6} {m : Nat} {x : Access} (ready : VectorReady s x)
    (mem : i ∈ x.reads ++ x.writes) :
    laneEas s b i m = (elems m (readV s.cur i)).map fun x => rd s b + BitVec.ofInt 64 (signed (8 * m) x * m) := by
  obtain ⟨-, -, -, streams, -⟩ := ready
  rw [laneEas, streamStop_of_check streams mem]
  rfl

/-- The atomics of `MisalignedForms` with their sizes and operations, each made as the model makes it. -/
theorem amos_atomic {s : State} {d a b : BitVec 5} {c st : BitVec 3} :
    let amo4 := fun (i : Instr) => (i, 4, 2, rd s a)
    let amo8 := fun (i : Instr) => (i, 8, 2, rd s a)
    ∀ p ∈ [(amo4 (.amoAddW d a b c st), 0), (amo4 (.amoAndW d a b c st), 1), (amo4 (.amoOrW d a b c st), 2),
      (amo4 (.amoXorW d a b c st), 3), (amo4 (.amoMinW d a b c st), 4), (amo4 (.amoMaxW d a b c st), 5),
      (amo4 (.amoMinnW d a b c st), 6), (amo4 (.amoMaxnW d a b c st), 7), (amo4 (.amoSwapW d a b c st), 8),
      (amo4 (.casW d a b c st), 9), (amo8 (.amoAddD d a b c st), 0), (amo8 (.amoAndD d a b c st), 1),
      (amo8 (.amoOrD d a b c st), 2), (amo8 (.amoXorD d a b c st), 3), (amo8 (.amoMinD d a b c st), 4),
      (amo8 (.amoMaxD d a b c st), 5), (amo8 (.amoMinnD d a b c st), 6), (amo8 (.amoMaxnD d a b c st), 7),
      (amo8 (.amoSwapD d a b c st), 8), (amo8 (.casD d a b c st), 9)],
      exec p.1.1 s = atomic p.2 p.1.2.1 d a b c st s ∧ p.1.2.2 = (2, rd s a) := by
  intro amo4 amo8
  simp only [List.forall_mem_cons]
  exact ⟨⟨rfl, rfl⟩, ⟨rfl, rfl⟩, ⟨rfl, rfl⟩, ⟨rfl, rfl⟩, ⟨rfl, rfl⟩, ⟨rfl, rfl⟩, ⟨rfl, rfl⟩, ⟨rfl, rfl⟩, ⟨rfl, rfl⟩, ⟨rfl, rfl⟩,
    ⟨rfl, rfl⟩, ⟨rfl, rfl⟩, ⟨rfl, rfl⟩, ⟨rfl, rfl⟩, ⟨rfl, rfl⟩, ⟨rfl, rfl⟩, ⟨rfl, rfl⟩, ⟨rfl, rfl⟩, ⟨rfl, rfl⟩, ⟨rfl, rfl⟩,
    fun _ h => absurd h List.not_mem_nil⟩

/-- Settles O10: each form raises the first check of its addresses that fails. -/
theorem misalignedForms : Obligations.MisalignedForms := by
  unfold Obligations.MisalignedForms
  intro s d a b v i x f o q z c h w st hh empty ea m er amo4 amo8 rs eas lanes va amos
  have compressed : rd s b + 0 * BitVec.ofNat 64 8 = rd s b := by simp
  refine ⟨fun calm => ?_, fun calm p mem l ok far => ?_, ?_⟩
  · show ∀ p ∈ _, ChecksInOrder s p
    have accesses : ∀ p ∈ [(Instr.ldB d b x o st, 1, 0, ea 1), (.ldH d b x o st, 2, 0, ea 2), (.ldW d b x o st, 4, 0, ea 4),
        (.ldD d b o st, 8, 0, ea 8), (.cLdD b d, 8, 0, rd s b), (.ldAcq d b z c q st, m, 0, er), (.stB d b f o st, 1, 1, ea 1),
        (.stH d b f o st, 2, 1, ea 2), (.stW d b f o st, 4, 1, ea 4), (.stD d b f o st, 8, 1, ea 8), (.cStD b d, 8, 1, rd s b)],
        ChecksInOrder s p := by
      simp only [List.forall_mem_cons]
      refine ⟨?_, ?_, ?_, ?_, ?_, ?_, ?_, ?_, ?_, ?_, ?_, fun _ h => absurd h List.not_mem_nil⟩
      · exact load_checks (i := .ldB d b x o st) (ea := fun s => rd s b + simm o * BitVec.ofNat 64 1) hh empty calm rfl
      · exact load_checks (i := .ldH d b x o st) (ea := fun s => rd s b + simm o * BitVec.ofNat 64 2) hh empty calm rfl
      · exact load_checks (i := .ldW d b x o st) (ea := fun s => rd s b + simm o * BitVec.ofNat 64 4) hh empty calm rfl
      · exact load_checks (i := .ldD d b o st) (ea := fun s => rd s b + simm o * BitVec.ofNat 64 8) hh empty calm rfl
      · rw [← compressed]
        exact load_checks (i := .cLdD b d) (ea := fun s => rd s b + 0 * BitVec.ofNat 64 8) hh empty calm rfl
      · exact load_checks (i := .ldAcq d b z c q st) (ea := fun s => rd s b + simm q * BitVec.ofNat 64 (sizeOf2 z)) hh empty calm rfl
      · exact store_checks (i := .stB d b f o st) (ea := fun s => rd s b + simm o * BitVec.ofNat 64 1) hh calm rfl
      · exact store_checks (i := .stH d b f o st) (ea := fun s => rd s b + simm o * BitVec.ofNat 64 2) hh calm rfl
      · exact store_checks (i := .stW d b f o st) (ea := fun s => rd s b + simm o * BitVec.ofNat 64 4) hh calm rfl
      · exact store_checks (i := .stD d b f o st) (ea := fun s => rd s b + simm o * BitVec.ofNat 64 8) hh calm rfl
      · rw [← compressed]
        exact store_checks (i := .cStD b d) (ea := fun s => rd s b + 0 * BitVec.ofNat 64 8) hh calm rfl
    have atomics : ∀ p ∈ amos.map (·.1), ChecksInOrder s p := by
      intro p mem
      obtain ⟨⟨⟨j, n, k⟩, op⟩, among, rfl⟩ := List.mem_map.1 mem
      obtain ⟨e, kind⟩ := amos_atomic _ among
      subst kind
      exact atomic_checks hh calm e
    have release : ∀ p ∈ (if bits s.cur.sterr 63 63 = 0 then [(Instr.stRel d b z c q st, m, 1, er)] else []), ChecksInOrder s p := by
      split
      · next ok =>
        intro p mem
        rw [List.mem_singleton.1 mem]
        exact stRel_checks hh calm ok
      · exact fun _ h => absurd h List.not_mem_nil
    intro p mem
    rcases List.mem_append.1 mem with mem | mem
    · rcases List.mem_append.1 mem with mem | mem
      · exact accesses p mem
      · exact atomics p mem
    · exact release p mem
  · exact atomic_path hh calm (amos_atomic p mem).1 ok far
  · show ∀ p ∈ _, ChecksLanes s p
    simp only [List.forall_mem_cons]
    refine ⟨?_, ?_, ?_, ?_, fun _ h => absurd h List.not_mem_nil⟩
    · exact vmem_checksLanes (i := .vld v b h w st) hh fun _ => ⟨_, _, _, rfl⟩
    · exact vmem_checksLanes (i := .vst v b h w f st) hh fun _ => ⟨_, _, _, rfl⟩
    · refine vmem_checksLanes (i := .vldx v b i z st) hh fun ready => ?_
      have e : laneEas s b i (sizeOf2 z) = lanes := laneEas_ready ready (List.mem_append_left _ (List.mem_singleton.2 rfl))
      rw [← e]
      exact ⟨_, _, _, rfl⟩
    · refine vmem_checksLanes (i := .vstx v b i z f st) hh fun ready => ?_
      have e : laneEas s b i (sizeOf2 z) = lanes := laneEas_ready ready (List.mem_append_left _ (List.mem_cons_of_mem _ (List.mem_singleton.2 rfl)))
      rw [← e]
      exact ⟨_, _, _, rfl⟩

end Sys2Proof.Proofs

/-! SUPPORT. Proofs: a home's service of a request (R71, R74, R77, R115, R121, R264). -/

namespace Sys2Proof.Proofs

open Sys2Proof Sys2Proof.Machine Sys2Proof.Laws

/-! ### States in which a home answers alike -/

/-- Two states in which every home holds the same bytes and lines in the same condition. -/
def SameHome (s t : State) : Prop := SameBytes s t ∧ t.poison = s.poison ∧ t.far = s.far

theorem SameHome.refl (s : State) : SameHome s s := ⟨.refl s, rfl, rfl⟩

theorem SameHome.trans {s t u : State} (h : SameHome s t) (k : SameHome t u) : SameHome s u :=
  ⟨h.1.trans k.1, k.2.1.trans h.2.1, k.2.2.trans h.2.2⟩

theorem SameHome.ite {b : Prop} [Decidable b] {s t u : State} (h : SameHome s t) (k : SameHome s u) :
    SameHome s (if b then t else u) := by
  split
  · exact h
  · exact k

section
variable {s t : State} (h : SameHome s t)
include h

theorem withheld_sameHome (a : Nat) : withheld t a = withheld s a := by
  obtain ⟨⟨-, tiles, -⟩, -, -⟩ := h
  rw [withheld, withheld, getTile, getTile, tiles]

theorem isPoisoned_sameHome (a : Nat) : isPoisoned t a = isPoisoned s a := by
  obtain ⟨bytes, poison, -⟩ := h
  rw [isPoisoned, isPoisoned, lineAt, lineAt, forwarded_sameBytes bytes, poison]

theorem farLost_sameHome (a : Nat) : farLost t a = farLost s a := by
  obtain ⟨bytes, -, far⟩ := h
  rw [farLost, farLost, farDown, farDown, forwarded_sameBytes bytes, far]

theorem readBytes_sameHome (a n : Nat) : readBytes t a n = readBytes s a n := by
  simp only [readBytes, readByte_sameBytes h.1]

theorem serveRead_sameHome (a n : Nat) : serveRead t a n = serveRead s a n := by
  simp only [serveRead, forwarded_sameBytes h.1, withheld_sameHome h, isPoisoned_sameHome h, farLost_sameHome h, readBytes_sameHome h]

theorem memWf_sameHome (wf : s.MemWf) : t.MemWf := memWf_of_mem wf h.1.1

end

theorem queueMotion_sameHome {s u : State} {h : Nat} {m : Motion} (q : queueMotion s h m = some u) : SameHome s u := by
  refine ⟨queueMotion_sameBytes q, ?_⟩
  unfold queueMotion at q
  dsimp only at q
  split at q <;> cases q
  exact ⟨rfl, rfl⟩

theorem promotePage_sameHome (s : State) (frame h : Nat) (p : Hot) : SameHome s (promotePage s frame h p) := by
  unfold promotePage
  dsimp only
  split
  · split
    · exact .refl s
    · split
      · next k _ =>
        cases q : queueMotion s h { leaf := p.leaf, old := readNat s p.leaf 16, src := frame, dst := 0, log := p.log, loc := k } with
        | none => exact .refl s
        | some u => exact queueMotion_sameHome q
      · exact .refl s
  · exact .refl s

theorem countHot_sameHome (s : State) (loc core leaf : Nat) : SameHome s (countHot s loc core leaf) := by
  unfold countHot
  dsimp only
  split
  · exact .refl s
  · split
    · exact .refl s
    · split
      · exact .refl s
      · refine .ite (.trans ?_ (.ite (promotePage_sameHome ..) (.refl _))) ?_ <;> exact .refl s

/-- Two states with the same mesh and the same contexts. -/
def SameMesh (s t : State) : Prop := t.net = s.net ∧ t.replies = s.replies ∧ t.parked = s.parked

theorem SameMesh.refl (s : State) : SameMesh s s := ⟨rfl, rfl, rfl⟩

theorem SameMesh.trans {s t u : State} (h : SameMesh s t) (k : SameMesh t u) : SameMesh s u :=
  ⟨k.1.trans h.1, k.2.1.trans h.2.1, k.2.2.trans h.2.2⟩

theorem SameMesh.ite {b : Prop} [Decidable b] {s t u : State} (h : SameMesh s t) (k : SameMesh s u) :
    SameMesh s (if b then t else u) := by
  split
  · exact h
  · exact k

theorem promotePage_mesh (s : State) (frame h : Nat) (p : Hot) : SameMesh s (promotePage s frame h p) := by
  unfold promotePage queueMotion
  dsimp only
  repeat' split
  all_goals exact ⟨rfl, rfl, rfl⟩

theorem countHot_mesh (s : State) (loc core leaf : Nat) : SameMesh s (countHot s loc core leaf) := by
  unfold countHot
  dsimp only
  split
  · exact .refl s
  · split
    · exact .refl s
    · split
      · exact .refl s
      · refine .ite (.trans ?_ (.ite (promotePage_mesh ..) (.refl _))) ?_ <;> exact .refl s

/-! ### What a write tells (R127, R322) -/

/-- Two states differ at most in monitors and contexts: what a write to a line sets off. -/
def Told (s t : State) : Prop := ∃ w l parked monitors, t = { s with
  cur := { s.cur with wait := w, loads := l }, parked := parked, monitors := monitors }

theorem Told.refl (s : State) : Told s s := ⟨_, _, _, _, rfl⟩

theorem Told.trans {s t u : State} (h : Told s t) (k : Told t u) : Told s u := by
  obtain ⟨_, _, _, _, rfl⟩ := h
  obtain ⟨_, _, _, _, rfl⟩ := k
  exact ⟨_, _, _, _, rfl⟩

theorem Told.sameHome {s t : State} (h : Told s t) : SameHome s t := by
  obtain ⟨_, _, _, _, rfl⟩ := h; exact .refl s

theorem foldl_told {β : Type} (f : State → β → State) (h : ∀ s x, Told s (f s x)) (l : List β) (s : State) :
    Told s (l.foldl f s) := by
  induction l generalizing s with
  | nil => exact .refl s
  | cons x t ih => exact (h s x).trans (ih _)

theorem putCtx_wait_told (s : State) (a : Nat) (w : Wait) : Told s (putCtx s a { getCtx s a with wait := w }) := by
  unfold putCtx
  split
  · next h => rw [getCtx, if_pos h]; exact ⟨_, _, _, _, rfl⟩
  · exact ⟨_, _, _, _, rfl⟩

theorem fireWhere_told (s : State) (p : Nat → Bool) : Told s (fireWhere s p) := by
  have unhook : Told s { s with monitors := s.monitors.filter fun m => !p m.1 } := ⟨_, _, _, _, rfl⟩
  refine unhook.trans (foldl_told _ (fun s e => ?_) _ _)
  dsimp only
  split
  · exact putCtx_wait_told ..
  · exact .refl s

theorem wroteAt_told (s : State) (line : Nat) : Told s (wroteAt s line) :=
  (fireWhere_told s _).trans ⟨_, _, _, _, rfl⟩

theorem wrote_told (s : State) (line : Nat) : Told s (wrote s line) := by
  unfold wrote
  split
  · exact (wroteAt_told ..).trans (wroteAt_told ..)
  · exact wroteAt_told ..

/-! ### Bytes that a write puts where no page moves -/

/-- The bytes d stand at loc, and every other byte as before. -/
def Puts (s : State) (loc : Nat) (t : State) (d : List Byte) : Prop :=
  (∀ k, k < d.length → readByte t (loc + k) = d.getD k 0) ∧
  (∀ q, (∀ k < d.length, physKey s q ≠ physKey s (loc + k)) → readByte t q = readByte s q) ∧
  ∀ q, motionAt s q = none → ¬(loc ≤ q ∧ q < loc + d.length) → readByte t q = readByte s q

section
variable {s : State} {loc : Nat} {d : List Byte} (still : ∀ k < d.length, motionAt s (loc + k) = none)
include still

theorem puts_of_readByte {t : State} (at1 : ∀ k, k < d.length → readByte t (loc + k) = d.getD k 0)
    (other : ∀ q, (∀ k < d.length, physKey s q ≠ physKey s (loc + k)) → readByte t q = readByte s q) : Puts s loc t d := by
  refine ⟨at1, other, fun q mq out => other q fun k l e => out ?_⟩
  have := physKey_inj s mq (still k l) e
  omega

theorem puts_writeBytes (wf : s.MemWf) : Puts s loc (writeBytes s loc d) d := by
  refine puts_of_readByte still (readByte_writeBytes_at wf loc d fun m n lm ln e => ?_) fun q o => readByte_writeBytes_other wf loc d q o
  have := physKey_inj s (still m lm) (still n ln) e
  omega

/-- A write that lands where no page moves puts its bytes. -/
theorem puts_wrote {c t : State} (wf : s.MemWf) (same : SameBytes s c) (told : Told (applyBytes c loc d) t) : Puts s loc t d := by
  have stillC : ∀ k < d.length, motionAt c (loc + k) = none := fun k l => (motionAt_sameBytes same _).trans (still k l)
  rw [applyBytes_still loc d stillC] at told
  obtain ⟨at1, other, -⟩ := puts_writeBytes stillC (memWf_of_mem wf same.1)
  have key (q : Nat) : physKey c q = physKey s q := by
    rw [physKey, physKey, forwarded_sameBytes same, getTile, getTile, same.2.1]
  have read (q : Nat) := readByte_sameBytes told.sameHome.1 q
  refine puts_of_readByte still (fun k l => (read _).trans (at1 k l)) fun q o => ?_
  rw [read, other q (fun k l => by rw [key, key]; exact o k l), readByte_sameBytes same]

end

/-! ### A write at a home -/

theorem setPoison_clears (s : State) (a : Nat) : isPoisoned (setPoison s a false) a = false := by
  have line : lineAt (setPoison s a false) a = lineAt s a := rfl
  rw [isPoisoned, line, setPoison, if_neg Bool.false_ne_true]
  simp

/-- Everything that a write comes to at a home that answers as in s. -/
theorem serveWrite_lands {s c : State} {loc : Nat} {d : List Byte} (w : Bool) (still : ∀ k < 64, motionAt s (loc + k) = none)
    (wf : s.MemWf) (same : SameHome s c) (short : d.length ≤ 64) :
    (farLost s loc = true → (serveWrite c loc d w).1 = 2 ∧ (serveWrite c loc d w).2.mem = s.mem) ∧
    (farLost s loc = false → isPoisoned s loc = true → w = false →
      (serveWrite c loc d w).1 = 1 ∧ (serveWrite c loc d w).2.mem = s.mem) ∧
    (farLost s loc = false → (isPoisoned s loc = false ∨ w = true) →
      (serveWrite c loc d w).1 = 0 ∧ isPoisoned (serveWrite c loc d w).2 loc = false ∧ Puts s loc (serveWrite c loc d w).2 d) := by
  have bytes : ∀ k < d.length, motionAt s (loc + k) = none := fun k l => still k (by omega)
  have here : motionAt c loc = none := (motionAt_sameBytes same.1 loc).trans (still 0 (by decide))
  rw [← farLost_sameHome same, ← isPoisoned_sameHome same]
  rcases serveWrite_cases c loc d w with ⟨lost, e⟩ | ⟨up, bad, part, e⟩ | ⟨up, good, e⟩
  · rw [e, lost]
    exact ⟨fun _ => ⟨rfl, same.1.1⟩, fun h => Bool.noConfusion h, fun h => Bool.noConfusion h⟩
  · rw [e, up, bad, part]
    exact ⟨fun h => Bool.noConfusion h, fun _ _ _ => ⟨rfl, same.1.1⟩, fun _ h => h.elim (Bool.noConfusion ·) (Bool.noConfusion ·)⟩
  · have told := wrote_told (applyBytes (if w then markLine c loc false else c) loc d) (lineAt c loc)
    have marked : SameBytes s (if w then markLine c loc false else c) := by
      have mark : markLine c loc false = setPoison c loc false := by rw [markLine, mirrorOf, here]
      rw [mark]
      exact same.1.trans (.ite ⟨rfl, rfl, rfl⟩ (.refl c))
    have clean : isPoisoned (if w then markLine c loc false else c) loc = false := by
      split
      · rw [markLine, mirrorOf, here]
        exact setPoison_clears c loc
      · next no => exact good.resolve_right no
    have kept : isPoisoned (applyBytes (if w then markLine c loc false else c) loc d) loc = false := by
      rw [applyBytes_still loc d fun k l => (motionAt_sameBytes marked _).trans (bytes k l), writeBytes_only]
      exact clean
    rw [e, up]
    refine ⟨fun h => Bool.noConfusion h, fun _ bad part => ?_, fun _ _ => ⟨rfl, ?_, puts_wrote bytes wf marked told⟩⟩
    · rw [bad, part] at good
      exact good.elim (Bool.noConfusion ·) (Bool.noConfusion ·)
    · exact (isPoisoned_sameHome told.sameHome loc).trans kept

theorem serveWrite_mesh (c : State) (loc : Nat) (d : List Byte) (w : Bool) :
    (serveWrite c loc d w).2.net = c.net ∧ (serveWrite c loc d w).2.replies = c.replies := by
  obtain ⟨_, _, _, _, _, _, e⟩ := serveWrite_written c loc d w
  rw [e]; exact ⟨rfl, rfl⟩

/-! ### A request that a home serves -/

theorem homeRequest_serves {s : State} {i : Nat} {m : Msg} (at1 : s.net[i]? = some m) (may : mayServe s i m = true)
    (home : isHomeMsg m = true) (ready : axstWaits s m = false) :
    exec (.homeRequest i) s = .next (serveMsg (placeFor m.src) (dropMsg s i) m) := by
  have e : exec (.homeRequest i) s = execHomeRequest i s := rfl
  rw [e, execHomeRequest, at1]
  dsimp only
  rw [home, may, ready]
  rfl

/-- What `StoreAtHome` says of every request served. -/
def Served (s : State) (i : Nat) (m : Msg) (f : State → Reply → Prop) : Prop :=
  ∃ t r, exec (.homeRequest i) s = .next t ∧ t.net = s.net.eraseIdx i ∧ t.replies = s.replies ++ [r] ∧ r.dst = m.src ∧ r.entry = m.entry ∧ f t r

/-- The state in which a home serves a message: the message has left the mesh and its request is counted. -/
theorem arrived_sameHome (s : State) (i : Nat) (m : Msg) (core : Nat) :
    let c := countHot (dropMsg s i) m.entry.loc core m.entry.leaf
    SameHome s c ∧ c.net = s.net.eraseIdx i ∧ c.replies = s.replies ∧ c.parked = s.parked := by
  have left : SameHome s (dropMsg s i) := .refl s
  exact ⟨left.trans (countHot_sameHome ..), countHot_mesh ..⟩

theorem Puts.of_sameHome {s t u : State} {loc : Nat} {d : List Byte} (h : Puts s loc t d) (same : SameHome t u) : Puts s loc u d := by
  obtain ⟨at1, other, out⟩ := h
  have read := readByte_sameBytes same.1
  exact ⟨fun k l => (read _).trans (at1 k l), fun q o => (read q).trans (other q o), fun q m o => (read q).trans (out q m o)⟩

section
variable {s : State} {i : Nat} {m : Msg} (at1 : s.net[i]? = some m) (may : mayServe s i m = true)
include at1 may

/-- A store or the write of an `mreq` is one write at its home. -/
theorem served_write {d : List Byte} {w : Bool} {f : State → Reply → Prop} (host : homeOf s m.entry.loc ≠ some 25)
    (body : m.entry.body = .store d w ∨ w = false ∧ ∃ tag, m.entry.body = .mreqWrite tag d)
    (post : ∀ c t r, SameHome s c →
      let out := serveWrite c m.entry.loc d (w && d.length = 64)
      SameHome out.2 t → r.status = out.1 → f t r) : Served s i m f := by
  obtain ⟨same, net, replies, seats⟩ := arrived_sameHome s i m (coreOf m.src)
  have mesh := serveWrite_mesh (countHot (dropMsg s i) m.entry.loc (coreOf m.src) m.entry.leaf) m.entry.loc d (w && d.length = 64)
  have serves : exec (.homeRequest i) s = .next (reply
      (serveWrite (countHot (dropMsg s i) m.entry.loc (coreOf m.src) m.entry.leaf) m.entry.loc d (w && d.length = 64)).2 m
      (serveWrite (countHot (dropMsg s i) m.entry.loc (coreOf m.src) m.entry.leaf) m.entry.loc d (w && d.length = 64)).1 []) := by
    rcases body with body | ⟨rfl, tag, body⟩
    · have elsewhere : homeOf (dropMsg s i) m.entry.loc ≠ some 25 := host
      rw [homeRequest_serves at1 may (by rw [isHomeMsg, body]) (by rw [axstWaits, body]), serveMsg, body]
      dsimp only
      rw [storeAt, if_neg elsewhere]
    · rw [homeRequest_serves at1 may (by rw [isHomeMsg, body]) (by rw [axstWaits, body]), serveMsg, body]
      rfl
  exact ⟨_, _, serves, mesh.1.trans net, congrArg (· ++ _) (mesh.2.trans replies), rfl, rfl, post _ _ _ same (.refl _) rfl⟩

omit at1 may in
/-- The reply to a read: what the home read. -/
theorem reply_read (m : Msg) (c : State) (n : Nat) :
    let r : Reply := ⟨m.src, m.entry, (serveRead c m.entry.loc n).2, (serveRead c m.entry.loc n).1, []⟩
    (r.status, r.data) = serveRead c m.entry.loc n := rfl

/-- A load or the read of an `mreq` is one read at its home; of a load the slot is marked as served. -/
theorem served_read {n slot : Nat} {f : State → Reply → Prop} (parked : mapWfFrom {} 0 s.parked = true)
    (body : m.entry.body = .load n slot ∨ n = 64 ∧ ∃ tag, m.entry.body = .mreqRead tag)
    (post : ∀ t r, SameHome s t → (r.status, r.data) = serveRead s m.entry.loc n →
      (m.entry.body = .load n slot → ∃ c near, getCtx t m.src = markServed c slot near) → f t r) : Served s i m f := by
  obtain ⟨same, net, replies, seats⟩ := arrived_sameHome s i m (coreOf m.src)
  have read := (reply_read m _ n).trans (serveRead_sameHome same m.entry.loc n)
  rcases body with body | ⟨rfl, tag, body⟩
  · have serves := homeRequest_serves at1 may (by rw [isHomeMsg, body]) (by rw [axstWaits, body])
    rw [serveMsg, body] at serves
    refine ⟨_, _, serves, ?_, ?_, rfl, rfl, post _ _ ?_ read fun _ => ⟨_, _, getCtx_putCtx _ _ _ (seats.symm ▸ parked)⟩⟩
    · simp only [reply, putCtx_net, net]
    · simp only [reply, putCtx_replies, replies]
    · have put (u : State) (c : Ctx) : SameHome u (putCtx u m.src c) := by
        unfold putCtx; split <;> exact .refl u
      exact (same.trans (put ..)).trans (.refl _)
  · have serves := homeRequest_serves at1 may (by rw [isHomeMsg, body]) (by rw [axstWaits, body])
    rw [serveMsg, body] at serves
    refine ⟨_, _, serves, net, congrArg (· ++ _) replies, rfl, rfl, post _ _ (same.trans (.refl _)) read fun h => ?_⟩
    rw [body] at h
    cases h

end

/-! ### Reads and atomics at a home that is on no page in motion -/

theorem serveRead_still {s : State} {loc : Nat} (still : motionAt s loc = none) (n : Nat) :
    (withheld s loc = true → serveRead s loc n = (0, List.replicate n 0)) ∧
    (withheld s loc = false → (isPoisoned s loc = true → serveRead s loc n = (1, [])) ∧
      (isPoisoned s loc = false → farLost s loc = true → serveRead s loc n = (2, [])) ∧
      (isPoisoned s loc = false → farLost s loc = false → serveRead s loc n = (0, readBytes s loc n))) := by
  have place := forwarded_still still
  refine ⟨fun h => ?_, fun h => ⟨fun p => ?_, fun p f => ?_, fun p f => ?_⟩⟩ <;> simp only [serveRead, place] <;> simp [*]

theorem toBytes_fromBytes (l : List Byte) : toBytes l.length (fromBytes l) = l := by
  induction l with
  | nil => rfl
  | cons b t ih =>
    have lt := b.isLt
    have low : BitVec.ofNat 8 (b.toNat + 256 * fromBytes t) = b := by
      apply BitVec.eq_of_toNat_eq
      rw [BitVec.toNat_ofNat]
      omega
    have high : (b.toNat + 256 * fromBytes t) / 256 = fromBytes t := by omega
    rw [fromBytes, List.length_cons, toBytes_succ, low, high, ih]

theorem amoNew_cas (w old b cmp : Nat) : amoNew 9 w old b cmp = if old = cmp then b else old := rfl

section
variable {s : State} {loc n b cmp : Nat} (still : ∀ k < 64, motionAt s (loc + k) = none) (wf : s.MemWf) (size : n ≤ 64)
  (open1 : withheld s loc = false) (good : isPoisoned s loc = false) (up : farLost s loc = false)
include still wf size open1 good up

/-- An atomic leaves its new value, and the old one where a comparison fails. -/
theorem amoAt_puts {op new : Nat}
    (value : new = if op = 9 ∧ fromBytes (readBytes s loc n) ≠ cmp then fromBytes (readBytes s loc n)
      else amoNew op (8 * n) (fromBytes (readBytes s loc n)) b cmp) :
    ∃ t, amoAt s loc n op b cmp = (0, fromBytes (readBytes s loc n), t) ∧ Puts s loc t (toBytes n new) := by
  have here : motionAt s loc = none := still 0 (by decide)
  have read := ((serveRead_still here n).2 open1).2.2 good up
  have length (v : Nat) : (toBytes n v).length = n := by simp [toBytes]
  simp only [amoAt, read]
  by_cases keeps : op = 9 ∧ fromBytes (readBytes s loc n) ≠ cmp
  · rw [if_pos keeps] at value ⊢
    have told : Told s (fireMonitors s (lineAt s loc)) := fireWhere_told ..
    have reads : (readBytes s loc n).length = n := by simp [readBytes]
    have same : toBytes n new = readBytes s loc n := by
      have all := toBytes_fromBytes (readBytes s loc n)
      rwa [reads, ← value] at all
    have all : Puts s loc s (readBytes s loc n) := by
      refine puts_of_readByte (fun k l => still k (by omega)) (fun k l => ?_) fun _ _ => rfl
      have small : k < n := by omega
      simp [readBytes, List.getD, small]
    rw [same]
    exact ⟨_, rfl, all.of_sameHome told.sameHome⟩
  · rw [if_neg keeps] at value ⊢
    have lands := (serveWrite_lands (d := toBytes n new) false still wf (.refl s) (by rw [length]; exact size)).2.2 up (.inl good)
    rw [← value]
    exact ⟨_, rfl, lands.2.2⟩

end

/-- What `StoreAtHome` says of one location, for states whose list of contexts is in canonical form. -/
theorem home_serves {s : State} {loc : Nat} (still : ∀ k < 64, motionAt s (loc + k) = none) (wf : s.MemWf)
    (parked : mapWfFrom {} 0 s.parked = true) :
    (∀ i m, s.net[i]? = some m → m.entry.loc = loc → mayServe s i m = true → homeOf s loc ≠ some 25 →
      (∀ d line, (m.entry.body = .store d line ∨ line = false ∧ ∃ tag, m.entry.body = .mreqWrite tag d) →
        loc % 64 + d.length ≤ 64 → Served s i m fun t r =>
          (farLost s loc = true → r.status = 2 ∧ t.mem = s.mem) ∧
          (farLost s loc = false → isPoisoned s loc = true → ¬(line = true ∧ d.length = 64) → r.status = 1 ∧ t.mem = s.mem) ∧
          (farLost s loc = false → (isPoisoned s loc = false ∨ line = true ∧ d.length = 64) →
            r.status = 0 ∧ isPoisoned t loc = false ∧ Puts s loc t d)) ∧
      ∀ n slot, (m.entry.body = .load n slot ∨ n = 64 ∧ ∃ tag, m.entry.body = .mreqRead tag) → Served s i m fun t r =>
        t.mem = s.mem ∧ t.poison = s.poison ∧ (withheld s loc = true → r.status = 0 ∧ r.data = List.replicate n 0) ∧
        (withheld s loc = false → (isPoisoned s loc = true → r.status = 1) ∧
          (isPoisoned s loc = false → farLost s loc = true → r.status = 2) ∧
          (isPoisoned s loc = false → farLost s loc = false → r.status = 0 ∧ r.data = readBytes s loc n)) ∧
        (m.entry.body = .load n slot → ∀ x ∈ (getCtx t m.src).loads, x.id = slot → x.served = true)) ∧
    ∀ n b cmp, (n = 4 ∨ n = 8) → withheld s loc = false →
      let old := fromBytes (readBytes s loc n)
      (isPoisoned s loc = true → ∀ op, amoAt s loc n op b cmp = (1, 0, s)) ∧
      (isPoisoned s loc = false → farLost s loc = true → ∀ op, amoAt s loc n op b cmp = (2, 0, s)) ∧
      (isPoisoned s loc = false → farLost s loc = false →
        ∀ p ∈ [(0, (old + b) % 256 ^ n), (1, old &&& b), (2, old ||| b), (3, old ^^^ b), (6, min old b), (7, max old b), (8, b),
            (9, if old = cmp then b else old)],
          ∃ t, amoAt s loc n p.1 b cmp = (0, old, t) ∧ Puts s loc t (toBytes n p.2)) := by
  have here : motionAt s loc = none := still 0 (by decide)
  refine ⟨fun i m at1 place may host => ?_, fun n b cmp size open1 => ?_⟩
  · subst place
    refine ⟨fun d line body short => ?_, fun n slot body => ?_⟩
    · apply served_write at1 may host body
      intro c t r same out after status
      obtain ⟨lost, bad, lands⟩ := serveWrite_lands (d := d) (line && d.length = 64) still wf same (by omega)
      have whole : (line && decide (d.length = 64)) = true ↔ line = true ∧ d.length = 64 := by simp
      rw [status]
      refine ⟨fun f => ?_, fun f p part => ?_, fun f p => ?_⟩
      · exact ⟨(lost f).1, after.1.1.trans (lost f).2⟩
      · have out := bad f p (Bool.eq_false_iff.2 fun h => part (whole.1 h))
        exact ⟨out.1, after.1.1.trans out.2⟩
      · obtain ⟨ok, clean, puts⟩ := lands f (p.imp_right whole.2)
        exact ⟨ok, (isPoisoned_sameHome after _).trans clean, puts.of_sameHome after⟩
    · refine served_read at1 may parked body fun t r same out slot => ?_
      obtain ⟨closed, opened⟩ := serveRead_still here n
      rw [Prod.mk.injEq] at out
      obtain ⟨status, data⟩ := out
      rw [status, data]
      refine ⟨same.1.1, same.2.1, fun w => ?_, fun w => ⟨fun p => ?_, fun p f => ?_, fun p f => ?_⟩, fun load x mem mine => ?_⟩
      · rw [closed w]; exact ⟨rfl, rfl⟩
      · rw [(opened w).1 p]
      · rw [(opened w).2.1 p f]
      · rw [(opened w).2.2 p f]; exact ⟨rfl, rfl⟩
      · obtain ⟨c, near, ctx⟩ := slot load
        rw [ctx, markServed] at mem
        obtain ⟨y, -, rfl⟩ := List.mem_map.1 mem
        split at mine
        · next own => rw [if_pos own]
        · next other => exact absurd mine other
  · have read := (serveRead_still here n).2 open1
    refine ⟨fun p op => ?_, fun p f op => ?_, fun p f => ?_⟩
    · exact amoAt_refused (by rw [read.1 p]) (by decide)
    · exact amoAt_refused (by rw [read.2.1 p f]) (by decide)
    · have puts {op new : Nat} := amoAt_puts (b := b) (cmp := cmp) (op := op) (new := new) still wf (by omega : n ≤ 64) open1 p f
      have width : 256 ^ n = 2 ^ (8 * n) := (pow_mul 2 8 n).symm
      simp only [List.forall_mem_cons]
      refine ⟨puts ?_, puts ?_, puts ?_, puts ?_, puts ?_, puts ?_, puts ?_, puts ?_, fun _ h => absurd h List.not_mem_nil⟩
      · rw [width]; rfl
      · rfl
      · rfl
      · rfl
      · rw [amoNew_minn]; rfl
      · rw [amoNew_maxn]; rfl
      · rfl
      · rw [amoNew_cas]
        by_cases hit : fromBytes (readBytes s loc n) = cmp <;> simp [hit]

/-! ### A state that no step leads to -/

/-- A load in flight, and a list of contexts that names its context twice: the first entry empty, the second with the load's slot. -/
def loadInFlight : Msg := { src := 5, entry := { loc := 0, body := .load 8 7 } }
def openSlot : LoadSlot :=
  { id := 7, d := 1, size := 8, sx := false, acq := false, va := 0, loc := 0, leaf := 0, pc := 0, lp0 := 0, lp1 := 0, local1 := false }
def namedTwice : State :=
  { State.reset with parked := [(5, {}), (5, { loads := [openSlot] })], net := [loadInFlight] }

/-- Refutes O13: in `namedTwice` the home marks the slots of the first entry, which has none; an empty entry leaves the list, and the
context then in its place still has the slot unmarked. Of states whose `parked` is in canonical form the statement holds (`home_serves`). -/
theorem not_storeAtHome : ¬ Obligations.StoreAtHome := by
  unfold Obligations.StoreAtHome
  intro h
  have still (k : Nat) (_ : k < 64) : motionAt namedTwice (0 + k) = none := by
    rw [motionAt]; exact ite_self none
  obtain ⟨-, service, -⟩ := h namedTwice 0 still rfl
  obtain ⟨-, reads⟩ := service 0 loadInFlight rfl rfl (by decide) (by decide)
  obtain ⟨t, r, step, -, -, -, -, -, -, -, -, marked⟩ := reads 8 7 (.inl rfl)
  have next := homeRequest_serves (s := namedTwice) (i := 0) (m := loadInFlight) rfl (by decide) rfl rfl
  rw [next] at step
  cases step
  have slots : (getCtx (serveMsg (placeFor 5) (dropMsg namedTwice 0) loadInFlight) 5).loads = [openSlot] := by decide
  exact absurd (marked rfl openSlot (by rw [show loadInFlight.src = 5 from rfl, slots]; exact List.mem_singleton.2 rfl) rfl) (by decide)

end Sys2Proof.Proofs

/-! SUPPORT. Proofs: fixed words and the state at reset (R58 to R67, R350, R382). -/

namespace Sys2Proof.Proofs

open Sys2Proof Sys2Proof.Machine Sys2Proof.Laws

/-- Settles O57: the decoder evaluated at each word. -/
theorem decodeWords : Obligations.DecodeWords := by
  unfold Obligations.DecodeWords
  exact ⟨rfl, rfl, rfl, rfl, rfl, rfl, rfl, rfl, rfl, rfl, rfl, rfl, rfl, rfl, rfl, rfl, rfl⟩

/-- Settles O60: the reset state written out; its registers are the fields' initial values. -/
theorem resetState : Obligations.ResetState := by
  unfold Obligations.ResetState
  exact ⟨reset_memWf, rfl, rfl, rfl, rfl, rfl, rfl, rfl, rfl, rfl, rfl, rfl, rfl, rfl, rfl, rfl, rfl, rfl, rfl, rfl⟩

end Sys2Proof.Proofs

/-! SUPPORT. Proofs: vector block instructions (R218 to R232). -/

namespace Sys2Proof.Proofs

open Sys2Proof Sys2Proof.Machine Sys2Proof.Laws

/-! ### How a block instruction issues (R221) -/

/-- A completion says nothing of the cycle from which the vector datapath is free. -/
theorem completes_vecTill {i : Instr} {s u : State} {len k : Nat}
    (h : Completes i s { u with cur := { u.cur with vecTill := k } } len) : Completes i s u len := h

section
variable {i : Instr} {s : State} {st : BitVec 3} {bad : Bool} {x : Access} {pr pw : List RegUse} {n l0 : Nat}
  {f : Ctx → (BitVec 6 → VReg) → List (BitVec 6 × VReg) × (Ctx → Ctx)}

/-- The context after a block instruction: every source read before any destination is written. -/
def afterBlock (c : Ctx) (x : Access) (r : List (BitVec 6 × VReg) × (Ctx → Ctx)) : Ctx :=
  r.2 (r.1.foldl (fun c w => writeV c w.1 w.2) (popAll c x.reads))

/-- A block instruction whose access can go on completes with its effect. -/
theorem vissue_completes (ready : VectorReady s x) (good : bad = false) (e : exec i s = vissue s st bad x pr pw n l0 f) :
    Completes i s { s with cur := afterBlock s.cur x (f s.cur (readV s.cur)) } 4 := by
  obtain ⟨core, way, quiet, streams, free⟩ := ready
  rw [vissue, if_neg (by simp [core]), good, way, if_neg (by decide), shortStop_quiet quiet] at e
  dsimp only at e
  rw [streams] at e
  dsimp only at e
  rw [free, if_neg Bool.false_ne_true] at e
  exact completes_vecTill (completes_of_done e)

/-- One whose operands the manual refuses traps. -/
theorem vissue_refused (core : kindOf s.who = 0) (hh : HasHandler s) (refused : bad = true)
    (e : exec i s = vissue s st bad x pr pw n l0 f) : Traps i s 0x02 7 0 0 := by
  rw [vissue, if_neg (by simp [core]), refused, if_pos (by rfl)] at e
  rw [Traps, e]
  exact congrArg _ (raise_handler hh illegalOperand (refreshTlb_other s (by decide) rfl) (by decide))

end

/-! ### Pair by pair (R221) -/

/-- What `VectorBlocks` says of a block instruction: its form, whether it is taken, whether it reads d, and its function. -/
def PairByPair (s : State) (d a : BitVec 6) (h w : BitVec 3) (p : Instr × Bool × Bool × (VReg → VReg → VReg)) : Prop :=
  let ds := blockRegs d (h.toNat + 1) (w.toNat + 1)
  let as := blockRegs a (h.toNat + 1) (w.toNat + 1)
  let x : Access := ⟨as ++ (if p.2.2.1 then ds else []), ds⟩
  (p.2.1 = true → VectorReady s x → Completes p.1 s { s with
    cur := (ds.zip as).foldl (fun c q => writeV c q.1 (p.2.2.2 (readV s.cur q.1) (readV s.cur q.2))) (popAll s.cur x.reads) } 4) ∧
  (p.2.1 = false → kindOf s.who = 0 → HasHandler s → Traps p.1 s 0x02 7 0 0)

section
variable {s : State} {d a : BitVec 6} {h w st : BitVec 3} {i : Instr} {ok : Nat → Bool} {role : Role} {l0 : Nat → Nat}

theorem vblock_pairs {extra : Ctx → Bool} {f : Ctx → VReg → VReg → VReg} {good both : Bool}
    (e : exec i s = vblock ok extra role l0 f d a h w st s)
    (takes : (!ok (bits s.cur.vtype 4 0) || extra s.cur) = !good) (reads : both = decide (role = .rw)) :
    PairByPair s d a h w (i, good, both, f s.cur) := by
  unfold vblock at e
  dsimp only at e
  subst reads
  refine ⟨fun taken ready => ?_, fun refused core hh => ?_⟩
  · dsimp only at taken
    subst taken
    have ready : VectorReady s ⟨_, _⟩ := ready
    simp only [decide_eq_true_eq] at ready ⊢
    have done := vissue_completes ready (by exact takes) e
    rw [afterBlock, List.foldl_map] at done
    exact done
  · dsimp only at refused
    subst refused
    exact vissue_refused core hh (by exact takes) e

theorem vpair_pairs {f : Nat → Nat → Nat → Nat} {both : Bool} (e : exec i s = vpair ok role l0 f d a h w st s)
    (reads : both = decide (role = .rw)) :
    let t := bits s.cur.vtype 4 0
    PairByPair s d a h w (i, ok t, both, zipElems (tySize t) (f t)) :=
  vblock_pairs e (by rw [Bool.or_false]) reads

theorem vbits_pairs {f : VReg → VReg → VReg} {both : Bool} (e : exec i s = vbits role f d a h w st s)
    (reads : both = decide (role = .rw)) : PairByPair s d a h w (i, true, both, f) :=
  vblock_pairs e rfl reads

end

theorem refused_iff (ok : Bool) {P Q : Prop} [Decidable P] [Decidable Q] (h : P ↔ ¬Q) : (!ok || decide P) = !(ok && decide Q) := by
  cases ok <;> simp [h]

/-- Settles O15: each form is a block of pairs. -/
theorem vectorBlocks : Obligations.VectorBlocks := by
  unfold Obligations.VectorBlocks
  intro s d a h w st t z ds as el add
  show ∀ p ∈ _, PairByPair s d a h w p
  simp only [List.forall_mem_cons]
  refine ⟨?_, ?_, ?_, ?_, ?_, ?_, ?_, ?_, ?_, ?_, ?_, ?_, ?_, ?_, ?_, ?_, ?_, ?_, ?_, ?_, ?_, fun _ h => absurd h List.not_mem_nil⟩
  · exact vpair_pairs (i := .vadd d a h w st) (ok := realTy) (f := arith (· + ·) Machine.Num.add) rfl rfl
  · exact vpair_pairs (i := .vsub d a h w st) (ok := realTy) (f := arith (· - ·) Machine.Num.sub) rfl rfl
  · exact vpair_pairs (i := .vadds d a h w st) (ok := intTy) (f := fun t x y => wrapTo t (clampInt t (intOf t x + intOf t y))) rfl rfl
  · exact vpair_pairs (i := .vsubs d a h w st) (ok := intTy) (f := fun t x y => wrapTo t (clampInt t (intOf t x - intOf t y))) rfl rfl
  · exact vpair_pairs (i := .vmin d a h w st) (ok := realTy) (f := minMax false) rfl rfl
  · exact vpair_pairs (i := .vmax d a h w st) (ok := realTy) (f := minMax true) rfl rfl
  · exact vpair_pairs (i := .vabs d a h w st) (ok := realTy) (f := fun t _ x => vabsElem t x) rfl rfl
  · exact vpair_pairs (i := .vneg d a h w st) (ok := realTy) (f := fun t _ x => vnegElem t x) rfl rfl
  · exact vbits_pairs (i := .vand d a h w st) (f := (· &&& ·)) rfl rfl
  · exact vbits_pairs (i := .vor d a h w st) (f := (· ||| ·)) rfl rfl
  · exact vbits_pairs (i := .vxor d a h w st) (f := (· ^^^ ·)) rfl rfl
  · exact vbits_pairs (i := .vmov d a h w st) (f := fun _ y => y) rfl rfl
  · exact vpair_pairs (i := .vshl d a h w st) (ok := intTy) (f := shlElem) rfl rfl
  · exact vpair_pairs (i := .vshr d a h w st) (ok := intTy) (f := shrElem) rfl rfl
  · exact vpair_pairs (i := .vmul d a h w st) (ok := realTy) (role := .rw) (l0 := fun _ => 3) (f := arith (· * ·) Machine.Num.mul) rfl rfl
  · exact vpair_pairs (i := .cmul d a h w st) (ok := cplxTy) (role := .rw) (l0 := fun _ => 5) (f := cmulElem false) rfl rfl
  · exact vpair_pairs (i := .cmulc d a h w st) (ok := cplxTy) (role := .rw) (l0 := fun _ => 5) (f := cmulElem true) rfl rfl
  · exact vblock_pairs (i := .vbfly d a h w st) (role := .rw) (l0 := fun _ => 5) (ok := bflyTy) (extra := fun c => decide (logElems (tySize (vET c)) ≤ bits c.vaux 10 8))
      (f := fun c x m => bflyReg (vET c) (bits c.vaux 10 8) x m) rfl
      (refused_iff _ Nat.not_lt.symm) rfl
  · exact vblock_pairs (i := .vperm d a h w st) (role := .w) (l0 := fun _ => 0) (ok := permTy) (extra := fun c => !permOk c)
      (f := fun c _ x => permReg c x) rfl (Bool.not_and ..).symm rfl
  · exact vblock_pairs (i := .vbcast d a h w st) (role := .w) (l0 := fun _ => 0) (ok := permTy) (extra := fun c => decide (32 / tySize (vET c) ≤ bits c.vaux 20 16))
      (f := fun c _ x => mapElems (tySize (vET c)) (fun _ => elemOf x (tySize (vET c)) (bits c.vaux 20 16)) x) rfl
      (refused_iff _ Nat.not_lt.symm) rfl
  · exact vblock_pairs (i := .vred d a h w st) (role := .w) (l0 := fun _ => 6) (ok := realTy) (extra := fun c => decide (bits c.vaux 13 12 = 3))
      (f := fun c _ x => redReg c x) rfl
      (refused_iff _ not_not.symm) rfl

/-! ### Fused forms (R231) -/

/-- What `VectorFused` says of a fused form: its instruction, whether it is taken, and its function. -/
def FusedBlock (s : State) (d a b : BitVec 6) (w h : BitVec 2) (p : Instr × Bool × (Nat → Nat → Nat → Nat)) : Prop :=
  let z := tySize (bits s.cur.vtype 4 0)
  let ds := blockRegs d (2 ^ h.toNat) (2 ^ w.toNat)
  let as := blockRegs a (2 ^ h.toNat) (2 ^ w.toNat)
  let x : Access := ⟨as ++ [b] ++ ds, ds⟩
  (p.2.1 = true → VectorReady s x → Completes p.1 s { s with
    cur := (ds.zip as).foldl (fun c q => writeV c q.1 (vregOf z ((List.range (32 / z)).map fun i =>
      p.2.2 (elemOf (readV s.cur q.1) z i) (elemOf (readV s.cur q.2) z i) (elemOf (readV s.cur b) z i))))
      (popAll s.cur x.reads) } 4) ∧
  (p.2.1 = false → kindOf s.who = 0 → HasHandler s → Traps p.1 s 0x02 7 0 0)

theorem vfused_block {i : Instr} {s : State} {d a b : BitVec 6} {w h : BitVec 2} {st : BitVec 3} {ok : Nat → Bool} {l0 : Nat}
    {f : Nat → Nat → Nat → Nat → Nat} (e : exec i s = vfused ok l0 f d a b w h st s) :
    let t := bits s.cur.vtype 4 0
    FusedBlock s d a b w h (i, ok t, f t) := by
  unfold vfused at e
  dsimp only at e
  refine ⟨fun taken ready => ?_, fun refused core hh => ?_⟩
  · have taken : ok (vET s.cur) = true := taken
    have done := vissue_completes ready (by rw [taken]; rfl) e
    rw [afterBlock, List.foldl_map] at done
    exact done
  · have refused : ok (vET s.cur) = false := refused
    exact vissue_refused core hh (by rw [refused]; rfl) e

/-- Settles O21: each fused form is such a block. -/
theorem vectorFused : Obligations.VectorFused := by
  unfold Obligations.VectorFused
  intro s d a b w h st t z ds as x
  show ∀ p ∈ _, FusedBlock s d a b w h p
  simp only [List.forall_mem_cons]
  refine ⟨?_, ?_, ?_, ?_, fun _ h => absurd h List.not_mem_nil⟩
  · exact vfused_block (i := .vfma d a b w h st) (ok := realTy) (f := fmaElem false) rfl
  · exact vfused_block (i := .vfms d a b w h st) (ok := realTy) (f := fmaElem true) rfl
  · exact vfused_block (i := .cfma d a b w h st) (ok := cplxTy) (f := cfmaElem false) rfl
  · exact vfused_block (i := .cfmac d a b w h st) (ok := cplxTy) (f := cfmaElem true) rfl

end Sys2Proof.Proofs

/-! SUPPORT. Proofs: `vcmp`, `vsel` and `vcvt` (R203, R220, R225, R227). -/

namespace Sys2Proof.Proofs

open Sys2Proof Sys2Proof.Machine Sys2Proof.Laws

/-! ### What reading and writing blocks leaves of a context -/

/-- Two contexts differ at most in vector registers and streams. -/
def SameScalars (c e : Ctx) : Prop := ∃ vregs streams, e = { c with vregs := vregs, streams := streams }

theorem SameScalars.refl (c : Ctx) : SameScalars c c := ⟨_, _, rfl⟩

theorem SameScalars.trans {c e g : Ctx} (h : SameScalars c e) (k : SameScalars e g) : SameScalars c g := by
  obtain ⟨_, _, rfl⟩ := h
  obtain ⟨_, _, rfl⟩ := k
  exact ⟨_, _, rfl⟩

theorem foldl_sameScalars {β : Type} (f : Ctx → β → Ctx) (h : ∀ c x, SameScalars c (f c x)) (l : List β) (c : Ctx) :
    SameScalars c (l.foldl f c) := by
  induction l generalizing c with
  | nil => exact .refl c
  | cons x t ih => exact (h c x).trans (ih _)

theorem writeV_sameScalars (c : Ctx) (v : BitVec 6) (x : VReg) : SameScalars c (writeV c v x) := by
  unfold writeV; split <;> exact ⟨_, _, rfl⟩

/-- A pop takes elements from streams alone. -/
theorem popAll_only (c : Ctx) (l : List (BitVec 6)) : ∃ streams, popAll c l = { c with streams := streams } := by
  have fold (l : List (BitVec 6)) (c : Ctx) : ∃ streams, l.foldl (fun c v => match streamOf c v with
      | some (n, s) => putStream c n { s with buf := s.buf.drop 1, taken := s.taken + 1 }
      | none => c) c = { c with streams := streams } := by
    induction l generalizing c with
    | nil => exact ⟨_, rfl⟩
    | cons v t ih =>
      rw [List.foldl_cons]
      split
      · obtain ⟨_, e⟩ := ih (putStream c _ _); exact ⟨_, e⟩
      · exact ih c
  exact fold l.eraseDups c

theorem popAll_sameScalars (c : Ctx) (l : List (BitVec 6)) : SameScalars c (popAll c l) := by
  obtain ⟨_, e⟩ := popAll_only c l
  rw [e]; exact ⟨_, _, rfl⟩

/-! ### Elements and lanes -/

theorem blockRegs_length (v : BitVec 6) (h w : Nat) : (blockRegs v h w).length = h * w := by simp [blockRegs]

theorem tySize_cases (t : Nat) : tySize t = 1 ∨ tySize t = 2 ∨ tySize t = 4 ∨ tySize t = 8 := by
  unfold tySize; split <;> simp

theorem tySize_pos (t : Nat) : 0 < tySize t := by rcases tySize_cases t with h | h | h | h <;> omega

theorem lane_lt (t : Nat) {i : Nat} (h : i < 32) : i / tySize t < 32 / tySize t := by
  rcases tySize_cases t with e | e | e | e <;> rw [e] <;> omega

theorem testBit_ofElems' {z : Nat} (pos : 0 < z) (l : List Bool) (i : Nat) :
    (lanesOf.ofElems' z l).testBit i = l.getD (i / z) false := by
  induction l generalizing i with
  | nil => simp [lanesOf.ofElems']
  | cons b t ih =>
    have low : (if b then 2 ^ z - 1 else 0) < 2 ^ z := by
      have := Nat.one_le_two_pow (n := z)
      split <;> omega
    rw [lanesOf.ofElems', Nat.add_comm, Nat.testBit_two_pow_mul_add _ low]
    split
    · next near =>
      rw [Nat.div_eq_of_lt near]
      cases b
      · simp
      · simp [Nat.testBit_two_pow_sub_one, near]
    · next far =>
      have down : i / z = (i - z) / z + 1 := by
        rw [← Nat.add_div_right _ pos, Nat.sub_add_cancel (by omega)]
      rw [ih, down]; rfl

/-- Bit i of the lanes of a list of conditions is that of the element it belongs to. -/
theorem getLsbD_lanesOf {z : Nat} (pos : 0 < z) (l : List Bool) {i : Nat} (h : i < 32) : (lanesOf z l).getLsbD i = l.getD (i / z) false := by
  rw [lanesOf, BitVec.getLsbD_ofNat, testBit_ofElems' pos]
  simp [h]

theorem zip_elems (z : Nat) (x y : VReg) (f : Nat → Nat → β) :
    ((elems z x).zip (elems z y)).map (fun q => f q.1 q.2) = (List.range (32 / z)).map fun j => f (elemOf x z j) (elemOf y z j) := by
  rw [elems, elems, List.zip_map', List.map_map]; rfl

theorem zip_blockRegs (d a : BitVec 6) (h w : Nat) :
    (blockRegs d h w).zip (blockRegs a h w) = (List.range (h * w)).map fun k => (blockReg d w k, blockReg a w k) := by
  rw [blockRegs, blockRegs, List.zip_map']

/-! ### Predicates written one after another -/

/-- Predicates p0 up, one value each. -/
def putPreds (c : Ctx) (p0 : Nat) (v : Nat → BitVec 32) (n : Nat) : Ctx :=
  (List.range n).foldl (fun c k => c.pw (BitVec.ofNat 3 (p0 + k)) (v k)) c

theorem putPreds_succ (c : Ctx) (p0 : Nat) (v : Nat → BitVec 32) (n : Nat) :
    putPreds c p0 v (n + 1) = (putPreds c p0 v n).pw (BitVec.ofNat 3 (p0 + n)) (v n) := by
  rw [putPreds, List.range_succ, List.foldl_append]; rfl

theorem putPreds_keeps (c : Ctx) (p0 : Nat) (v : Nat → BitVec 32) (n : Nat) :
    (putPreds c p0 v n).vregs = c.vregs ∧ (putPreds c p0 v n).regs = c.regs := by
  induction n with
  | zero => exact ⟨rfl, rfl⟩
  | succ n ih =>
    obtain ⟨vregs, regs⟩ := ih
    rw [putPreds_succ]
    exact ⟨(ctxPw_vregs ..).trans vregs, (ctxPw_regs ..).trans regs⟩

/-- The first predicate is named by VAUX, which no predicate's write changes. -/
theorem foldl_vPred {c : Ctx} {p0 : Nat} (first : vPred c = p0) (v : Nat → BitVec 32) (n : Nat) :
    (List.range n).foldl (fun c k => c.pw (BitVec.ofNat 3 (vPred c + k)) (v k)) c = putPreds c p0 v n := by
  have fold (l : List Nat) (e : Ctx) (h : vPred e = p0) :
      l.foldl (fun c k => c.pw (BitVec.ofNat 3 (vPred c + k)) (v k)) e = l.foldl (fun c k => c.pw (BitVec.ofNat 3 (p0 + k)) (v k)) e := by
    induction l generalizing e with
    | nil => rfl
    | cons k l ih =>
      rw [List.foldl_cons, List.foldl_cons, h]
      exact ih _ (by rw [vPred, ctxPw_vaux]; exact h)
  exact fold _ c first

theorem pr_putPreds (c : Ctx) (p0 : Nat) (v : Nat → BitVec 32) {n k : Nat} (fits : p0 + n ≤ 8) (h : k < n) (real : p0 + k ≠ 0) :
    (putPreds c p0 v n).pr (BitVec.ofNat 3 (p0 + k)) = v k := by
  induction n with
  | zero => omega
  | succ n ih =>
    have differ : BitVec.ofNat 3 (p0 + k) = BitVec.ofNat 3 (p0 + n) ↔ k = n := by
      refine ⟨fun e => ?_, fun e => by rw [e]⟩
      have := congrArg BitVec.toNat e
      rw [BitVec.toNat_ofNat, BitVec.toNat_ofNat, Nat.mod_eq_of_lt (by omega), Nat.mod_eq_of_lt (by omega)] at this
      omega
    have nonzero : BitVec.ofNat 3 (p0 + k) ≠ 0 := fun e => by
      have := congrArg BitVec.toNat e
      rw [BitVec.toNat_ofNat, Nat.mod_eq_of_lt (by omega)] at this
      exact real this
    rw [putPreds_succ, ctxPw_pr]
    by_cases last : k = n
    · subst last
      rw [if_pos ⟨rfl, nonzero⟩]
    · rw [if_neg fun e => last (differ.1 e.1)]
      exact ih (by omega) (by omega)

/-! ### `vcmp` -/

/-- The lanes that `vcmp` finds, one value for each pair of registers. -/
def cmpLanes (c : Ctx) (ds as : List (BitVec 6)) : List (BitVec 32) :=
  let t := vET c
  let z := tySize t
  (ds.zip as).map fun p => lanesOf z (((elems z (readV c p.1)).zip (elems z (readV c p.2))).map fun q => condCC (bits c.vaux 6 4) t q.1 q.2)

theorem getLsbD_cmpLanes (c : Ctx) (d a : BitVec 6) (h w : Nat) {k i : Nat} (pair : k < h * w) (lane : i < 32) :
    let t := vET c
    let z := tySize t
    ((cmpLanes c (blockRegs d h w) (blockRegs a h w)).getD k 0).getLsbD i = condCC (bits c.vaux 6 4) t
      (elemOf (readV c (blockReg d w k)) z (i / z)) (elemOf (readV c (blockReg a w k)) z (i / z)) := by
  have element := lane_lt (vET c) lane
  simp only [cmpLanes, zip_blockRegs, List.map_map, List.getD, List.getElem?_map, List.getElem?_range pair, Option.map_some,
    Option.getD_some, Function.comp, zip_elems]
  rw [getLsbD_lanesOf (tySize_pos _) _ lane]
  simp only [List.getD, List.getElem?_map, List.getElem?_range element, Option.map_some, Option.getD_some]

/-- Settles O19: the predicates that `vcmp` writes, lane by lane. -/
theorem vectorCompare : Obligations.VectorCompare := by
  unfold Obligations.VectorCompare
  intro s d a h w st t z p0 n ds as
  have count : ds.length = n := blockRegs_length ..
  have pairs : 0 < n := Nat.mul_pos (Nat.succ_pos _) (Nat.succ_pos _)
  have e : exec (.vcmp d a h w st) s = execVcmp d a h w st s := rfl
  unfold execVcmp at e
  have good : (!realTy t || bits s.cur.vaux 6 4 = 7 || decide (7 < p0 + ds.length - 1)) = false ↔
      realTy t = true ∧ bits s.cur.vaux 6 4 ≠ 7 ∧ p0 + n ≤ 8 := by
    have room : p0 + ds.length - 1 ≤ 7 ↔ p0 + n ≤ 8 := by omega
    simp [room, and_assoc]
  refine ⟨fun real cc fits ready => ?_, fun refused core hh => ?_⟩
  · obtain ⟨streams, pop⟩ := popAll_only s.cur (as ++ ds)
    have done : Completes (.vcmp d a h w st) s { s with cur := (List.range ds.length).foldl (fun c k =>
        c.pw (BitVec.ofNat 3 (vPred c + k)) ((cmpLanes s.cur ds as).getD k 0)) (popAll s.cur (as ++ ds)) } 4 :=
      vissue_completes ready (good.2 ⟨real, cc, fits⟩) e
    have first : vPred (popAll s.cur (as ++ ds)) = p0 := by rw [pop]; rfl
    rw [foldl_vPred first fun k => (cmpLanes s.cur ds as).getD k 0, pop, count] at done
    have keeps := putPreds_keeps { s.cur with streams := streams } p0 (fun k => (cmpLanes s.cur ds as).getD k 0) n
    refine ⟨_, done, keeps.1, keeps.2, fun k lt place i lane => ?_⟩
    have pred := pr_putPreds { s.cur with streams := streams } p0 (fun k => (cmpLanes s.cur ds as).getD k 0) fits lt place
    have lanes := getLsbD_cmpLanes s.cur d a (h.toNat + 1) (w.toNat + 1) lt lane
    exact (congrArg (fun v => v.getLsbD i) pred).trans lanes
  · refine vissue_refused core hh (by_contra fun taken => ?_) e
    obtain ⟨real, cc, fits⟩ := good.1 (Bool.eq_false_iff.2 taken)
    rcases refused with no | no | no
    · rw [real] at no; cases no
    · exact cc no
    · omega

/-! ### `vsel` and `vcvt` -/

/-- A conversion in mode 100 leaves its generator in VRAND. -/
def keepDraws (g : Nat) (c : Ctx) : Ctx := if vRM c = 4 then { c with vrand := BitVec.ofNat 64 g } else c

theorem keepDraws_only (g : Nat) (c : Ctx) : keepDraws g c = { c with vrand := if vRM c = 4 then BitVec.ofNat 64 g else c.vrand } := by
  unfold keepDraws; split <;> rfl

/-- Settles O20: `vsel` is a block of merges, `vcvt` a conversion in order that may leave its generator in VRAND. -/
theorem vectorSelectConvert : Obligations.VectorSelectConvert := by
  unfold Obligations.VectorSelectConvert
  intro s d a h w st p0 n ds as src dst rm cnt as' ds' r
  have count : ds.length = n := blockRegs_length ..
  have pairs : 0 < n := Nat.mul_pos (Nat.succ_pos _) (Nat.succ_pos _)
  have select : exec (.vsel d a h w st) s = execVsel d a h w st s := rfl
  have convert : exec (.vcvt d a h w st) s = execVcvt d a h w st s := rfl
  unfold execVsel at select
  unfold execVcvt at convert
  refine ⟨fun fits ready => ?_, fun ok ready => ?_, fun core hh => ⟨fun high => ?_, fun no => ?_⟩⟩
  · have low : ¬7 < p0 + ds.length - 1 := by omega
    have done := vissue_completes ready (decide_eq_false low) select
    refine ⟨_, done, ?_⟩
    dsimp only [afterBlock]
    rw [count, List.foldl_map, List.foldl_map]
    rfl
  · obtain ⟨vregs, streams, written⟩ := (popAll_sameScalars s.cur as').trans (foldl_sameScalars
      (fun c q => writeV c q.1 (vregOf (tySize dst) q.2)) (fun c q => writeV_sameScalars ..) (ds'.zip (runsOf (32 / tySize dst) ds'.length r.1)) _)
    have done : Completes (.vcvt d a h w st) s { s with cur := keepDraws r.2 (((ds'.zip (runsOf (32 / tySize dst) ds'.length r.1)).map
        fun p => (p.1, vregOf (tySize dst) p.2)).foldl (fun c w => writeV c w.1 w.2) (popAll s.cur as')) } 4 :=
      vissue_completes ready (congrArg Bool.not ok) convert
    rw [List.foldl_map, keepDraws_only] at done
    refine ⟨_, done, ?_, ?_, ?_, rfl⟩
    all_goals dsimp only; rw [written]
    rfl
  · have high : 7 < p0 + ds.length - 1 := by omega
    exact vissue_refused core hh (decide_eq_true high) select
  · refine vissue_refused core hh ?_ convert
    rw [Bool.not_eq_true', ← Bool.not_eq_true]
    intro ok
    have ok : cvtOk src dst = true := ok
    apply no
    simpa [cvtOk, and_assoc] using ok

end Sys2Proof.Proofs

/-! SUPPORT. Proofs: vector loads and stores (R113, R115, R119, R120, R327). -/

namespace Sys2Proof.Proofs

open Sys2Proof Sys2Proof.Machine Sys2Proof.Laws

/-! ### A vector access whose addresses all pass -/

theorem vmem_goes {s s1 : State} {st : BitVec 3} {base : BitVec 5} {x : Access} {al k : Nat} {eas : List Word} {ls : List (Word × Landing)}
    {go : State → List (Word × Landing) → Body} (ready : VectorReady s x) (lands : landAll s al k eas = .ok (ls, s1)) :
    vmem s st base x al k eas go = .next (retire s 4 st ((go s1 ls).after (x.uses [useS base]))) := by
  obtain ⟨core, way, quiet, streams, -⟩ := ready
  rw [vmem, if_neg (by simp [core]), if_neg (Bool.eq_false_iff.1 way), shortStop_quiet quiet]
  dsimp only
  rw [lands]
  dsimp only
  rw [streams]

theorem landAll_length {al k : Nat} {es : List Word} :
    ∀ {s u : State} {ls : List (Word × Landing)}, landAll s al k es = .ok (ls, u) → ls.length = es.length := by
  induction es with
  | nil => intro s u ls h; cases h; rfl
  | cons x es ih =>
    intro s u ls h
    rw [landAll] at h
    split at h
    · cases h
    · split at h
      · cases h
      · next rest => cases h; exact congrArg (· + 1) (ih rest)

/-! ### Loads -/

theorem loadAll_cons (s : State) (n : Nat) (e : Word) (l : Landing) (t : List (Word × Landing)) :
    loadAll s n ((e, l) :: t) =
      (let s1 := countHot s l.loc (coreOf s.who) l.leaf
       match loadBytes s1 s1.who l n with
       | .stall => .stall
       | .bad c => .bad { code := c, access := 0, va := vaOf s e } s1
       | .host => match hostBytes (getCtx s1 (asCtx s1.who)) l.loc n with
         | .error k => .host ((l.loc + k) / 8 * 8) (vaOf s e + BitVec.ofNat 80 k)
         | .ok b => match loadAll s1 n t with
           | .vals r s' => .vals (b :: r) s'
           | x => x
       | .val b => match loadAll s1 n t with
         | .vals r s' => .vals (b :: r) s'
         | x => x) := rfl

theorem vaOf_seat {s t : State} (h : SameSeat s t) (hh : HasHandler s) (e : Word) : vaOf t e = vaOf s e := by
  rw [vaOf, vaOf, ctx_of_handler (hasHandler_of_seat hh h), ctx_of_handler hh, h.2.1]

/-- A load stops at the first of its addresses whose home answers badly, with the requests up to it counted. -/
theorem loadAll_bad {n c : Nat} {e : Word} {l : Landing} {ls : List (Word × Landing)} :
    ∀ {s u : State} {j : Nat} {vs : List (List Byte)}, HasHandler s → ls[j]? = some (e, l) → loadAll s n (ls.take j) = .vals vs u →
      let v := countHot u l.loc (coreOf s.who) l.leaf
      loadBytes v v.who l n = .bad c → loadAll s n ls = .bad { code := c, access := 0, va := vaOf s e } v ∧ SameSeat s v := by
  induction ls with
  | nil => intro s u j vs _ at1; cases at1
  | cons x t ih =>
    intro s u j vs hh at1 before v bad
    cases j with
    | zero =>
      cases before
      cases at1
      rw [loadAll_cons]
      dsimp only
      rw [bad]
      exact ⟨rfl, countHot_seat ..⟩
    | succ j =>
      obtain ⟨e0, l0⟩ := x
      have seat := countHot_seat s l0.loc (coreOf s.who) l0.leaf
      have hh0 := hasHandler_of_seat hh seat
      have step {vs : List (List Byte)} (rest : loadAll (countHot s l0.loc (coreOf s.who) l0.leaf) n (t.take j) = .vals vs u) :
          loadAll (countHot s l0.loc (coreOf s.who) l0.leaf) n t = .bad { code := c, access := 0, va := vaOf s e } v ∧ SameSeat s v := by
        have who : coreOf (countHot s l0.loc (coreOf s.who) l0.leaf).who = coreOf s.who := congrArg coreOf seat.1
        have tail := ih (s := countHot s l0.loc (coreOf s.who) l0.leaf) hh0 (at1 : t[j]? = some (e, l)) rest
        rw [who] at tail
        obtain ⟨stop, last⟩ := tail bad
        rw [vaOf_seat seat hh] at stop
        exact ⟨stop, sameSeat_trans seat last⟩
      rw [List.take_succ_cons, loadAll_cons] at before
      rw [loadAll_cons]
      dsimp only at before ⊢
      split at before
      · cases before
      · cases before
      · split at before
        · cases before
        · split at before
          · next rest =>
            cases before
            obtain ⟨stop, last⟩ := step rest
            rw [stop]; exact ⟨rfl, last⟩
          · next no => exact absurd before (no _ _)
      · split at before
        · next rest =>
          cases before
          obtain ⟨stop, last⟩ := step rest
          rw [stop]; exact ⟨rfl, last⟩
        · next no => exact absurd before (no _ _)

theorem landAll_seat {s u : State} {al k : Nat} {es : List Word} {ls : List (Word × Landing)} (h : landAll s al k es = .ok (ls, u)) :
    SameSeat s u := by
  have filled := landAll_filled h
  exact ⟨filled.who, filled.cur, filled.sameBytes.1⟩

/-- What `VectorMemory` says of a load that meets a bad line: its instruction, size, addresses and registers. -/
def StopsAtLine (s : State) (p : Instr × Nat × List Word × Access) : Prop :=
  VectorReady s p.2.2.2 → ∀ ls s1 j e l vs s2, landAll s p.2.1 0 p.2.2.1 = .ok (ls, s1) → ls[j]? = some (e, l) →
    loadAll s1 p.2.1 (ls.take j) = .vals vs s2 →
    let s3 := countHot s2 l.loc (coreOf s.who) l.leaf
    (HomeAnswers s3 l p.2.1 1 → TrapsFrom p.1 s s3 0x10 0 0 (vaOf s e)) ∧
    (HomeAnswers s3 l p.2.1 2 → TrapsFrom p.1 s s3 0x11 0 0 (vaOf s e))

theorem vmem_stopsAtLine {i : Instr} {s : State} {x : Access} {n : Nat} {eas : List Word} (hh : HasHandler s)
    (e : VectorReady s x → ∃ st base go, exec i s = vmem s st base x n 0 eas fun s1 ls => (loadAll s1 n ls).body s go) :
    StopsAtLine s (i, n, eas, x) := by
  intro ready ls s1 j a l vs s2 lands at1 before
  obtain ⟨st, base, go, e⟩ := e ready
  have seat := landAll_seat lands
  have core : coreOf s1.who = coreOf s.who := congrArg coreOf seat.1
  have stops {c : Nat} (code : c = 0x10 ∨ c = 0x11)
      (bad : loadBytes (countHot s2 l.loc (coreOf s1.who) l.leaf) (countHot s2 l.loc (coreOf s1.who) l.leaf).who l n = .bad c) :
      TrapsFrom i s (countHot s2 l.loc (coreOf s.who) l.leaf) c 0 0 (vaOf s a) := by
    obtain ⟨stop, last⟩ := loadAll_bad (hasHandler_of_seat hh seat) at1 before bad
    rw [vmem_goes ready lands] at e
    dsimp only at e
    rw [stop, core, vaOf_seat seat hh] at e
    rw [core] at last
    exact trapsFrom_of_answer hh (sameSeat_trans seat last) code (by decide) e
  rw [← core] at stops ⊢
  exact ⟨fun answer => stops (.inl rfl) ((loadBytes_answer answer).1 rfl), fun answer => stops (.inr rfl) ((loadBytes_answer answer).2 rfl)⟩

/-- A load whose every address has its bytes completes with its effect. -/
theorem vmem_loads {i : Instr} {s s1 s2 u : State} {st : BitVec 3} {base : BitVec 5} {x : Access} {al k n : Nat} {eas : List Word}
    {ls : List (Word × Landing)} {vs : List (List Byte)} {go : List (List Byte) → State → Body} {l : List Pending}
    (ready : VectorReady s x) (lands : landAll s al k eas = .ok (ls, s1)) (vals : loadAll s1 n ls = .vals vs s2)
    (done : go vs s2 = .done u l) (e : exec i s = vmem s st base x al k eas fun s1 ls => (loadAll s1 n ls).body s go) :
    Completes i s u 4 := by
  rw [vmem_goes ready lands] at e
  rw [vals, Loads.body, done] at e
  exact completes_of_done e

/-! ### Stores -/

theorem pushEntry_adds (s : State) (l : Landing) (body : Payload) (ordered : Bool) :
    ∃ e : StoreEntry, pushEntry s l body ordered =
      { s with cur := { s.cur with buf := s.cur.buf ++ [e], seqNext := s.cur.seqNext + 1 } } ∧ e.loc = l.loc ∧ e.body = body :=
  ⟨_, rfl, rfl, rfl⟩

/-- What entering a list of stores leaves: one entry for each, with its place and its bytes. -/
theorem pushAll_enters (f : Bool) (es : List (Landing × List Byte × Bool)) (s : State) :
    ∃ E k, pushAll s f es = { s with cur := { s.cur with buf := s.cur.buf ++ E, seqNext := k } } ∧
      E.map (·.loc) = es.map (·.1.loc) ∧ E.map (fun e => entryBytes e) = es.map (·.2.1) := by
  induction es generalizing s with
  | nil => exact ⟨[], s.cur.seqNext, by rw [List.append_nil]; rfl, rfl, rfl⟩
  | cons x t ih =>
    obtain ⟨l, d, line⟩ := x
    obtain ⟨E, k, push, locs, bytes⟩ := ih (pushEntry s l (.store d line) f)
    obtain ⟨entry, enters, loc, body⟩ := pushEntry_adds s l (.store d line) f
    rw [enters] at push
    rw [pushAll, enters, push]
    refine ⟨entry :: E, k, ?_, ?_, ?_⟩
    · dsimp only
      rw [List.append_assoc]; rfl
    · rw [List.map_cons, List.map_cons, locs, loc]
    · rw [List.map_cons, List.map_cons, bytes, entryBytes, body]

/-- What `VectorMemory` says a store leaves: its entries behind those of the buffer, and everything else as it was. -/
def LeavesEntries (s u : State) (locs : List Nat) (bytes : List (List Byte)) : Prop :=
  u.cur.regs = s.cur.regs ∧ u.cur.vregs = s.cur.vregs ∧ (∀ k, readByte u k = readByte s k) ∧
    ∃ es, u.cur.buf = s.cur.buf ++ es ∧ es.map (·.loc) = locs ∧ es.map (fun e => entryBytes e) = bytes

/-- Entering the stores of an instruction that has popped its streams. -/
theorem pushAll_leaves {s s1 : State} (filled : Filled s s1) (reads : List (BitVec 6)) (f any : Bool) (es : List (Landing × List Byte × Bool)) :
    LeavesEntries s (rotatePath (pushAll { s1 with cur := popAll s1.cur reads } f es) any) (es.map (·.1.loc)) (es.map (·.2.1)) := by
  obtain ⟨_, pop⟩ := popAll_only s1.cur reads
  obtain ⟨E, k, push, locs, bytes⟩ := pushAll_enters f es { s1 with cur := popAll s1.cur reads }
  obtain ⟨p, rotate⟩ := rotatePath_only (pushAll { s1 with cur := popAll s1.cur reads } f es) any
  have same : SameBytes s (pushAll { s1 with cur := popAll s1.cur reads } f es) := by
    rw [push]; exact filled.sameBytes
  rw [rotate]
  refine ⟨?_, ?_, readByte_sameBytes (same.trans (.refl _)), E, ?_, locs, bytes⟩ <;> rw [push, pop, filled.cur]

theorem storesWait_iff (s : State) (ls : List (Word × Landing)) :
    storesWait s ls = true ↔ 16 ≤ s.cur.buf.length ∨ ∃ p ∈ ls, pageHeld s s.who p.2 = true := by
  simp [storesWait, bufFull, List.any_eq_true]

section
variable {i : Instr} {s s1 : State} {st : BitVec 3} {base : BitVec 5} {x : Access} {al k : Nat} {eas : List Word}
  {ls : List (Word × Landing)} {go : State → List (Word × Landing) → Body}
  (ready : VectorReady s x) (lands : landAll s al k eas = .ok (ls, s1))
  (e : exec i s = vmem s st base x al k eas fun s1 ls => if storesWait s ls then .wait s .stalled else go s1 ls)
include ready lands e

theorem vmem_waits (full : 16 ≤ s.cur.buf.length ∨ ∃ p ∈ ls, pageHeld s s.who p.2 = true) : Stalls i s := by
  rw [vmem_goes ready lands] at e
  rw [if_pos ((storesWait_iff s ls).2 full)] at e
  exact stalls_of_wait e

theorem vmem_stores {u : State} {l : List Pending} (room : s.cur.buf.length < 16) (free : ∀ p ∈ ls, pageHeld s s.who p.2 = false)
    (done : go s1 ls = .done u l) : Completes i s u 4 := by
  have open1 : ¬storesWait s ls = true := by
    rw [storesWait_iff]
    rintro (full | ⟨p, mem, held⟩)
    · omega
    · rw [free p mem] at held; cases held
  rw [vmem_goes ready lands] at e
  rw [if_neg open1, done] at e
  exact completes_of_done e

end

/-- One entry for each landing, with the bytes of its place in the list. -/
def entriesOf (ls : List (Word × Landing)) (d : Nat → List Byte) (line : Nat → Bool) (n : Nat) : List (Landing × List Byte × Bool) :=
  (List.range n).filterMap fun k => (ls[k]?).map fun p => (p.2, d k, line k)

theorem entriesOf_maps (ls : List (Word × Landing)) (d : Nat → List Byte) (line : Nat → Bool) :
    (entriesOf ls d line ls.length).map (·.1.loc) = ls.map (·.2.loc) ∧
    (entriesOf ls d line ls.length).map (·.2.1) = (List.range ls.length).map d := by
  have indexed : entriesOf ls d line ls.length = (List.finRange ls.length).map fun k : Fin ls.length => (ls[k].2, d k, line k) := by
    rw [entriesOf, ← List.map_coe_finRange_eq_range, List.filterMap_map]
    simp
  rw [indexed, List.map_map, List.map_map]
  refine ⟨?_, ?_⟩
  · apply List.ext_getElem
    · simp
    · intro k _ _; simp
  · rw [← List.map_coe_finRange_eq_range, List.map_map]; rfl

/-- Settles O23: the four vector accesses. -/
theorem vectorMemory : Obligations.VectorMemory := by
  unfold Obligations.VectorMemory
  intro s c d i b h w st f z rs eas n lanes
  have indexed {x : Access} (ready : VectorReady s x) (mem : i ∈ x.reads ++ x.writes) : laneEas s b i (sizeOf2 z) = lanes :=
    laneEas_ready ready mem
  have vld : exec (.vld c b h w st) s = execVld c b h w st s := rfl
  have vst : exec (.vst c b h w f st) s = execVst c b h w f st s := rfl
  have vldx : exec (.vldx d b i z st) s = execVldx d b i z st s := rfl
  have vstx : exec (.vstx d b i z f st) s = execVstx d b i z f st s := rfl
  unfold execVld at vld
  unfold execVst at vst
  unfold execVldx at vldx
  unfold execVstx at vstx
  dsimp only at vld vst vldx vstx
  refine ⟨fun ls s1 vs s2 ready lands vals => ?_, fun hh => ?_, fun ls s1 ready lands room free => ?_, fun ls s1 ready lands full => ?_,
    fun ls s1 ready lands full => ?_, fun ls s1 vs s2 ready lands vals => ?_, fun ls s1 ready lands room free => ?_⟩
  · exact vmem_loads ready lands vals rfl vld
  · show ∀ p ∈ _, StopsAtLine s p
    simp only [List.forall_mem_cons]
    refine ⟨vmem_stopsAtLine hh fun _ => ⟨_, _, _, vld⟩, vmem_stopsAtLine hh fun ready => ?_, fun _ h => absurd h List.not_mem_nil⟩
    rw [indexed ready (by simp)] at vldx
    exact ⟨_, _, _, vldx⟩
  · have filled := landAll_filled lands
    have count : rs.length = ls.length := by rw [landAll_length lands, List.length_map, List.length_range]
    obtain ⟨locs, bytes⟩ := entriesOf_maps ls (fun k => toBytes 32 (readV s1.cur (blockReg c (w.toNat + 1) k)).toNat) (pairsLine ls)
    refine ⟨_, vmem_stores ready lands vst room free rfl, ?_⟩
    have left (any : Bool) := pushAll_leaves filled rs (f = 1) any
      (entriesOf ls (fun k => toBytes 32 (readV s1.cur (blockReg c (w.toNat + 1) k)).toNat) (pairsLine ls) rs.length)
    have registers : rs.map (fun r => toBytes 32 (readV s.cur r).toNat) =
        (List.range rs.length).map fun k => toBytes 32 (readV s1.cur (blockReg c (w.toNat + 1) k)).toNat := by
      rw [blockRegs_length, filled.cur]; exact List.map_map
    rw [registers, count, ← locs, ← bytes, ← count]
    exact left _
  · exact vmem_waits ready lands vst full
  · rw [indexed ready (by simp)] at vstx
    exact vmem_waits ready lands vstx full
  · rw [indexed ready (by simp)] at vldx
    exact vmem_loads ready lands vals rfl vldx
  · rw [indexed ready (by simp)] at vstx
    have filled := landAll_filled lands
    have count : ls.length = 32 / n := by rw [landAll_length lands, List.length_map, elems, List.length_map, List.length_range]
    obtain ⟨locs, bytes⟩ := entriesOf_maps ls (fun k => toBytes n ((elems n (readV s1.cur d)).getD k 0)) fun _ => false
    refine ⟨_, vmem_stores ready lands vstx room free rfl, ?_⟩
    have left (any : Bool) := pushAll_leaves filled [d, i] (f = 1) any
      (entriesOf ls (fun k => toBytes n ((elems n (readV s1.cur d)).getD k 0)) (fun _ => false) ls.length)
    have elements : (elems n (readV s.cur d)).map (fun x => toBytes n x) =
        (List.range ls.length).map fun k => toBytes n ((elems n (readV s1.cur d)).getD k 0) := by
      rw [count, filled.cur, elems, List.map_map]
      exact List.map_congr_left fun k mem => by simp [List.mem_range.1 mem]
    rw [elements, ← locs, ← bytes]
    exact left _

end Sys2Proof.Proofs

/-! SUPPORT. Proofs: control registers (R308, R350 to R352, R363, R380). -/

namespace Sys2Proof.Proofs

open Sys2Proof Sys2Proof.Machine Sys2Proof.Laws

/-! ### Reads -/

theorem getD_toList {α : Type} {n : Nat} (v : Vector α n) (k : Nat) (d : α) (h : k < n) : v.toList.getD k d = v[k] := by
  simp [List.getD, h]

/-- The agents that may read a control register (R294). -/
theorem readers_eq (n : BitVec 12) :
    (if n.toNat = 0x0F0 ∨ n.toNat = 0x0F1 then anyAgent else coreOnly) = if n = 0x0F0 ∨ n = 0x0F1 then [0, 1, 2, 3] else [0] := by
  have value (k : BitVec 12) : n.toNat = k.toNat ↔ n = k := ⟨BitVec.eq_of_toNat_eq, congrArg _⟩
  have e0 : n.toNat = 0x0F0 ↔ n = 0x0F0 := value 0x0F0
  have e1 : n.toNat = 0x0F1 ↔ n = 0x0F1 := value 0x0F1
  simp only [e0, e1]
  rfl

section
variable {i : Instr} {s : State} {n : Nat} {r : BitVec 5} {st : BitVec 3} (e : exec i s = csrRead n r st s)
include e

theorem csrRead_completes (calm : Calm (if n = 0x0F0 ∨ n = 0x0F1 then anyAgent else coreOnly) s) (ok : readTrap s n = none) :
    Completes i s (wr s r (csrVal s n)) 4 := by
  rw [csrRead, issue_calm calm, ok] at e
  exact completes_of_done e

theorem csrRead_traps {t : Trap} (calm : Calm (if n = 0x0F0 ∨ n = 0x0F1 then anyAgent else coreOnly) s) (hh : HasHandler s)
    (bad : readTrap s n = some t) (other : 6 ≤ t.access) (none : t.walked = [])
    (direct : t.code ≠ 0x08 ∧ t.code ≠ 0x09 ∧ t.code ≠ 0x100) : Traps i s t.code t.access t.info t.va := by
  rw [csrRead, issue_calm calm, bad] at e
  exact traps_of_trap hh (refreshTlb_other s other none) direct e

end

theorem readTrap_copy (s : State) (ch : BitVec 2) :
    readTrap s (0x0E0 + ch.toNat) =
      if bits (myCore s).cpyerr[ch.toNat] 63 63 = 1 then some (copyTrap ch.toNat (myCore s).cpyerr[ch.toNat]) else none := by
  have lt := ch.isLt
  have run : inRun (0x0E0 + ch.toNat) 0x0E0 4 = true := by simp [inRun]; omega
  rw [readTrap, if_pos run, Nat.add_sub_cancel_left, getD_toList _ _ _ lt]

theorem csrVal_copy (s : State) (ch : BitVec 2) : csrVal s (0x0E0 + ch.toNat) = (myCore s).cpydone[ch.toNat] := by
  rw [← getD_toList _ _ 0 ch.isLt]
  have lt := ch.isLt
  generalize ch.toNat = k at lt ⊢
  interval_cases k <;> rfl

theorem csrVal_path (s : State) (p : BitVec 2) : csrVal s (0x0D0 + p.toNat) = s.cur.pathdone[p.toNat] := by
  rw [← getD_toList _ _ 0 p.isLt]
  have lt := p.isLt
  generalize p.toNat = k at lt ⊢
  interval_cases k <;> rfl

/-- Settles O24: the value and the error of each register read. -/
theorem csrReads : Obligations.CsrReads := by
  unfold Obligations.CsrReads
  refine ⟨fun s r n st => ⟨fun calm ok => ?_, ?_⟩, fun s ch p r st calm => ?_⟩
  · rw [← readers_eq] at calm
    exact csrRead_completes (i := .csrr r n st) rfl calm ok
  · simp only [List.forall_mem_cons]
    exact ⟨rfl, rfl, rfl, rfl, rfl, rfl, rfl, rfl, rfl, rfl, rfl, rfl, rfl, rfl, rfl, rfl, rfl, rfl, rfl, rfl, rfl, rfl, rfl, rfl, rfl,
      rfl, getD_toList _ 1 0 (by decide), getD_toList _ 7 0 (by decide), getD_toList _ 2 0 (by decide), getD_toList _ 3 0 (by decide),
      rfl, rfl, getD_toList _ 15 0 (by decide), getD_toList _ 0 0 (by decide), getD_toList _ 15 0 (by decide), rfl, rfl, rfl, rfl, rfl, rfl,
      rfl, getD_toList _ 15 0 (by decide), rfl, rfl, rfl, fun _ h => absurd h List.not_mem_nil⟩
  · intro e x
    have low := ch.isLt
    have path := p.isLt
    have copyCalm : Calm (if 0x0E0 + ch.toNat = 0x0F0 ∨ 0x0E0 + ch.toNat = 0x0F1 then anyAgent else coreOnly) s := by
      rw [if_neg (by omega)]; exact calm
    have pathCalm : Calm (if 0x0D0 + p.toNat = 0x0F0 ∨ 0x0D0 + p.toNat = 0x0F1 then anyAgent else coreOnly) s := by
      rw [if_neg (by omega)]; exact calm
    have axisTraps : readTrap s 0x0E8 = if bits x 63 63 = 1 then some (axisTrap x) else none := rfl
    refine ⟨fun ok => ?_, fun bad hh => ?_, fun ok => ?_, fun bad hh => ?_, ?_⟩
    · rw [← csrVal_copy]
      exact csrRead_completes (i := .cpydoneRead ch r st) rfl copyCalm (by rw [readTrap_copy, if_neg (by rw [ok]; decide)])
    · have code : (copyTrap ch.toNat e).code = 0x18 ∨ (copyTrap ch.toNat e).code = 0x19 := ite_eq_or_eq ..
      have raised : readTrap s (0x0E0 + ch.toNat) = some (copyTrap ch.toNat e) := by rw [readTrap_copy, if_pos bad]
      have go : exec (.cpydoneRead ch r st) s = csrRead (0x0E0 + ch.toNat) r st s := rfl
      have direct : (copyTrap ch.toNat e).code ≠ 0x08 ∧ (copyTrap ch.toNat e).code ≠ 0x09 ∧ (copyTrap ch.toNat e).code ≠ 0x100 := by
        rcases code with h | h <;> rw [h] <;> decide
      have value : (copyTrap ch.toNat e).code = if bits e 61 59 = 1 then 0x18 else 0x19 := by
        unfold copyTrap; split_ifs <;> rfl
      rw [← value]
      exact csrRead_traps go copyCalm hh raised (Nat.le_succ 6) rfl direct
    · exact csrRead_completes (i := .axdoneRead r st) (n := 0x0E8) rfl calm (by rw [axisTraps, if_neg (by rw [ok]; decide)])
    · have code : (axisTrap x).code = 0x1A ∨ (axisTrap x).code = 0x1B := ite_eq_or_eq ..
      have value : (axisTrap x).code = if bits x 61 59 = 1 then 0x1A else 0x1B := by
        unfold axisTrap; split_ifs <;> rfl
      have direct : (axisTrap x).code ≠ 0x08 ∧ (axisTrap x).code ≠ 0x09 ∧ (axisTrap x).code ≠ 0x100 := by
        rcases code with h | h <;> rw [h] <;> decide
      have raised : readTrap s 0x0E8 = some (axisTrap x) := by rw [axisTraps, if_pos bad]
      rw [← value]
      exact csrRead_traps (i := .axdoneRead r st) (n := 0x0E8) rfl calm hh raised (Nat.le_succ 6) rfl direct
    · rw [← csrVal_path]
      have none : readTrap s (0x0D0 + p.toNat) = none := by
        generalize p.toNat = k at path
        interval_cases k <;> rfl
      exact csrRead_completes (i := .pathdoneRead p r st) rfl pathCalm none

/-! ### Writes -/

/-- What `CsrWrites` says of a write: its instruction, operation and register. -/
def MergesOrTraps (s : State) (r : BitVec 5) (p : Instr × Nat × Nat) : Prop :=
  let n := p.2.2
  let x := csrVal s n
  let new := if p.2.1 = 1 then rd s r else if p.2.1 = 2 then x ||| rd s r else x &&& ~~~(rd s r)
  let v := mergeCsr n x new (decide (p.2.1 ≠ 2))
  (mayWrite (isSys s s.who) n = true → ownCheck s n v = none →
    Completes p.1 s (if ignoredWrite s n v then s else csrPut s n v) 4) ∧
  (mayWrite (isSys s s.who) n = false → HasHandler s → Traps p.1 s 0x05 7 0 0) ∧
  (mayWrite (isSys s s.who) n = true → ∀ t, ownCheck s n v = some t → HasHandler s → Traps p.1 s t.code 7 0 0)

/-- A register's own check raises ILLEGAL_OPERAND, or CONFIG of a window. -/
theorem ownCheck_trap {s : State} {n : Nat} {v : Word} {t : Trap} (h : ownCheck s n v = some t) :
    t = illegalOperand ∨ t = { code := 0x1E } := by
  unfold ownCheck at h
  repeat' split at h
  all_goals cases h
  all_goals first | exact .inl rfl | exact .inr rfl

theorem csrWrite_merges {i : Instr} {s : State} {op n : Nat} {r : BitVec 5} {st : BitVec 3} (calm : Calm [0] s)
    (e : exec i s = csrWrite op n r st s) : MergesOrTraps s r (i, op, n) := by
  have calm : Calm coreOnly s := calm
  rw [csrWrite, issue_calm calm] at e
  refine ⟨fun may ok => ?_, fun no hh => ?_, fun may t bad hh => ?_⟩
  · have may : ¬(!mayWrite (isSys s s.who) n) = true := by simp at may ⊢; exact may
    dsimp only at ok
    rw [writeBody, if_neg may] at e
    dsimp only at e
    rw [ok] at e
    exact completes_of_done e
  · have no : (!mayWrite (isSys s s.who) n) = true := by simp at no ⊢; exact no
    rw [writeBody, if_pos no] at e
    exact traps_of_trap hh (refreshTlb_other s (by decide) rfl) (by decide) e
  · have may : ¬(!mayWrite (isSys s s.who) n) = true := by simp at may ⊢; exact may
    dsimp only at bad
    rw [writeBody, if_neg may] at e
    dsimp only at e
    rw [bad] at e
    rcases ownCheck_trap bad with rfl | rfl <;> exact traps_of_trap hh (refreshTlb_other s (by decide) rfl) (by decide) e

/-- What `CsrWrites` says bit by bit of a register of the context: its number, its place and the mask of what a write may change. -/
def KeepsOthers (s : State) (r : BitVec 5) (st : BitVec 3) (p : BitVec 12 × (Ctx → Word) × Word) : Prop :=
  ∃ u, Completes (.csrw r p.1 st) s u 4 ∧ p.2.1 u.cur = (p.2.1 s.cur &&& ~~~p.2.2) ||| (rd s r &&& p.2.2) ∧ u.cur.regs = s.cur.regs ∧
    u.mem = s.mem

theorem csrWrite_keeps {s : State} {r : BitVec 5} {st : BitVec 3} (calm : Calm [0] s) {n : BitVec 12} {f : Ctx → Word} {mask : Word}
    (takes : rwMask n.toNat ≠ 0) (ok : ∀ v, ownCheck s n.toNat v = none) (counts : ∀ v, ignoredWrite s n.toNat v = false)
    (fields : BitVec.ofNat 64 (rwMask n.toNat ||| sysMask n.toNat) = mask) (plain : clearsAny n.toNat = false ∧ clearsSys n.toNat = false)
    (old : csrVal s n.toNat = f s.cur)
    (put : ∀ v, f (csrPut s n.toNat v).cur = v ∧ (csrPut s n.toNat v).cur.regs = s.cur.regs ∧ (csrPut s n.toNat v).mem = s.mem) :
    KeepsOthers s r st (n, f, mask) := by
  have merges := (csrWrite_merges (i := .csrw r n st) calm rfl).1
  dsimp only at merges
  rw [if_pos rfl, ok, counts, if_neg Bool.false_ne_true] at merges
  refine ⟨_, merges (by simp [mayWrite, takes]) rfl, ?_, (put _).2⟩
  dsimp only
  rw [(put _).1, mergeCsr, plain.1, plain.2, fields, old]
  rfl

/-- Settles O25: each row is one write; the registers of the context keep what the mask leaves out. -/
theorem csrWrites : Obligations.CsrWrites := by
  unfold Obligations.CsrWrites
  intro s r m ch w l st calm
  refine ⟨?_, ?_⟩
  · show ∀ p ∈ _, MergesOrTraps s r p
    simp only [List.forall_mem_cons]
    refine ⟨?_, ?_, ?_, ?_, ?_, ?_, ?_, ?_, ?_, ?_, ?_, ?_, ?_, ?_, ?_, ?_, fun _ h => absurd h List.not_mem_nil⟩
    · exact csrWrite_merges (i := .csrw r m st) calm rfl
    · exact csrWrite_merges (i := .csrs r m st) calm rfl
    · exact csrWrite_merges (i := .csrc r m st) calm rfl
    · exact csrWrite_merges (i := .sterrClear r st) calm rfl
    · exact csrWrite_merges (i := .cpyerrClear ch r st) calm rfl
    · exact csrWrite_merges (i := .axerrClear r st) calm rfl
    · exact csrWrite_merges (i := .teamerrClear r st) calm rfl
    · exact csrWrite_merges (i := .slwinWrite w r st) calm rfl
    · exact csrWrite_merges (i := .stpathWrite r st) calm rfl
    · exact csrWrite_merges (i := .vtypeWrite r st) calm rfl
    · exact csrWrite_merges (i := .vauxWrite r st) calm rfl
    · exact csrWrite_merges (i := .lpctlWrite l r st) calm rfl
    · exact csrWrite_merges (i := .vrandWrite r st) calm rfl
    · exact csrWrite_merges (i := .motionctlWrite r st) calm rfl
    · exact csrWrite_merges (i := .mrecptrWrite r st) calm rfl
    · exact csrWrite_merges (i := .evptrWrite r st) calm rfl
  · show ∀ p ∈ _, KeepsOthers s r st p
    simp only [List.forall_mem_cons]
    refine ⟨?_, ?_, ?_, ?_, ?_, ?_, ?_, ?_, fun _ h => absurd h List.not_mem_nil⟩
    all_goals exact csrWrite_keeps calm (by decide) (fun _ => rfl) (fun _ => rfl) (by decide) (by decide) rfl fun _ => ⟨rfl, rfl, rfl⟩

end Sys2Proof.Proofs

/-! SUPPORT. Proofs: writes of the launch queues and of PWRCAP by the host (R308, R328, R363, R379, R380). -/

namespace Sys2Proof.Proofs

open Sys2Proof Sys2Proof.Machine Sys2Proof.Laws

/-! ### What a masked write leaves -/

/-- A field under the mask takes the new value's bits. -/
theorem bits_merge_low {old new m : Word} {h : Nat} (w : h + 1 < 64) (covers : m &&& BitVec.ofNat 64 (2 ^ (h + 1) - 1) = BitVec.ofNat 64 (2 ^ (h + 1) - 1)) :
    bits ((old &&& ~~~m) ||| (new &&& m)) h 0 = bits new h 0 := by
  have field (x : Word) : bits x h 0 = (x &&& BitVec.ofNat 64 (2 ^ (h + 1) - 1)).toNat := by
    have small : 2 ^ (h + 1) - 1 < 2 ^ 64 := by
      have := Nat.pow_lt_pow_right (a := 2) (by decide) w
      omega
    rw [BitVec.toNat_and, BitVec.toNat_ofNat, Nat.mod_eq_of_lt small, Nat.and_two_pow_sub_one_eq_mod, bits, pow_zero, Nat.div_one, Nat.sub_zero]
  have apart : ~~~m &&& BitVec.ofNat 64 (2 ^ (h + 1) - 1) = 0#64 := by
    rw [← covers, ← BitVec.and_assoc, BitVec.and_comm (~~~m), BitVec.and_not_self]; exact BitVec.zero_and
  rw [field, field, BitVec.and_or_distrib_right, BitVec.and_assoc, BitVec.and_assoc, apart, covers, BitVec.and_zero, BitVec.zero_or]

theorem bits_setBits_top (x : Word) : bits (setBits x 63 63 0) 63 63 = 0 ∧ bits (setBits x 63 63 0) 31 0 = bits x 31 0 := by
  have := x.isLt
  simp only [bits, setBits, BitVec.toNat_ofNat]
  omega

theorem setIx_eq_set {α : Type} {n : Nat} (x : Vector α n) (k : Nat) (v : α) (h : k < n) : setIx x k v = x.set k v h := by
  ext j lt
  rw [setIx, Vector.getElem_ofFn, Vector.getElem_set]
  simp [eq_comm]

/-! ### A host's write of a register through BAR0 -/

/-- A host with nothing before its write has it served at once; in P3 or recovery BAR0 has only the mailbox. -/
theorem hostRegWrite_eq {s : State} {n : Nat} (v : Word) (posted : s.posted = []) (waits : s.hostWaits = []) (small : n < 0x1000) :
    hostRegWrite n v s = .next (if s.pstate = 4 then s else if s.recovering = true ∨ s.pstate = 3 then hostDone s 1 []
      else hostDone (bar0Write s (8 * n) (toBytes 8 v.toNat)) 0 []) := by
  have quiet : deliverPosted s = s := by
    cases s; cases posted; rfl
  have empty : { s with hostWaits := [] } = s := by
    cases s; cases waits; rfl
  have length : (toBytes 8 v.toNat).length = 8 := by simp [toBytes]
  have outside : inMailbox (8 * n) 8 = false := by simp [inMailbox]; omega
  have serve : hostServe s 1 (8 * n) (toBytes 8 v.toNat) = some (if s.recovering = true ∨ s.pstate = 3 then hostDone s 1 []
      else hostDone (bar0Write s (8 * n) (toBytes 8 v.toNat)) 0 []) := by
    unfold hostServe
    dsimp only
    rw [length, if_neg (by decide : ¬(1 = 10 ∨ 1 = 13)), if_pos (by decide : 1 < 2), outside]
    by_cases off : s.recovering = true ∨ s.pstate = 3
    · rw [if_pos (.inr ⟨off, rfl⟩), if_pos off]
    · rw [if_neg (fun h => h.elim (by omega) fun h => off h.1), if_neg (by decide), if_neg off]
  unfold hostRegWrite execHostAccess
  dsimp only
  rw [quiet, waits]
  have one : (1 : BitVec 4).toNat = 1 := rfl
  have kind : ¬((1 : BitVec 4).toNat = 6 ∨ (1 : BitVec 4).toNat = 7) := by decide
  rw [if_neg kind]
  by_cases d3 : s.pstate = 4
  · rw [if_pos d3, if_pos d3]
  · rw [if_neg d3, if_neg d3, List.nil_append, List.length_nil, pumpHost]
    dsimp only
    rw [empty, one, serve]
    rfl

/-- A device-wide register is written under its masks, unless the manual ignores the value. -/
theorem bar0Write_reg {s : State} {n : Nat} (v : Word) (small : n < 0x1000) (wide : deviceWide n = true) (may : mayWrite true n = true) :
    bar0Write s (8 * n) (toBytes 8 v.toNat) =
      let x := mergeCsr n (devVal s n) v true
      if ignoredWrite s n x then s else devPut s n x := by
  have length : (toBytes 8 v.toNat).length = 8 := by simp [toBytes]
  have outside : inMailbox (8 * n) 8 = false := by simp [inMailbox]; omega
  have word : at_ (toBytes 8 v.toNat) 0 8 = v.toNat := by
    have all : slice (toBytes 8 v.toNat) 0 8 = toBytes 8 v.toNat := by
      apply List.ext_getElem
      · simp [slice, toBytes]
      · intro k a b
        have lt : k < 8 := by simpa [slice] using a
        simp [slice, toBytes, lt]
    rw [at_, all, fromBytes_toBytes]
    exact Nat.mod_eq_of_lt v.isLt
  have reg : bar0Reg (8 * n) = some n := by
    have spot : 8 * n < 0x8000 ∧ 8 * n % 8 = 0 ∧ deviceWide (8 * n / 8) = true := by
      rw [Nat.mul_div_cancel_left n (by decide)]
      exact ⟨by omega, by omega, wide⟩
    rw [bar0Reg, if_pos spot, Nat.mul_div_cancel_left n (by decide)]
  unfold bar0Write
  dsimp only
  rw [length, outside, if_neg Bool.false_ne_true, if_neg (by decide), reg, word, BitVec.ofNat_toNat, BitVec.setWidth_eq]
  dsimp only
  rw [devWrite, wide, may]
  rfl

/-- The registers that the host's rows write, with their masks and what a write of them does. -/
theorem queue_masks (q : Nat) (h : q < 16) :
    (deviceWide (0x100 + q) ∧ mayWrite true (0x100 + q) ∧ rwMask (0x100 + q) ||| sysMask (0x100 + q) = 0xFFFFFFFFFFF9F ∧
      clearsAny (0x100 + q) = false ∧ clearsSys (0x100 + q) = false) ∧
    (deviceWide (0x110 + q) ∧ mayWrite true (0x110 + q) ∧ rwMask (0x110 + q) ||| sysMask (0x110 + q) = 0xFFFFFFFF ∧
      clearsAny (0x110 + q) = false ∧ clearsSys (0x110 + q) = false) ∧
    (deviceWide (0x120 + q) ∧ mayWrite true (0x120 + q) ∧ rwMask (0x120 + q) ||| sysMask (0x120 + q) = 0 ∧
      clearsAny (0x120 + q) = false ∧ clearsSys (0x120 + q) = true) := by
  interval_cases q <;> decide

theorem queue_values (s : State) (q : Nat) (h : q < 16) :
    devVal s (0x100 + q) = s.dev.lqbase[q] ∧ devVal s (0x110 + q) = s.dev.lqtail[q] ∧ devVal s (0x120 + q) = s.dev.lqhead[q] := by
  rw [← getD_toList _ q 0 h, ← getD_toList _ q 0 h, ← getD_toList _ q 0 h]
  interval_cases q <;> exact ⟨rfl, rfl, rfl⟩

theorem queue_puts (s : State) (q : Nat) (h : q < 16) (v : Word) :
    devPut s (0x100 + q) v = { s with dev := { s.dev with lqbase := s.dev.lqbase.set q v } } ∧
    devPut s (0x110 + q) v = wakeP2 { s with dev := { s.dev with lqtail := s.dev.lqtail.set q v } } ∧
    devPut s (0x120 + q) v = { s with dev := { s.dev with lqhead := s.dev.lqhead.set q v } } := by
  rw [← setIx_eq_set _ q v h, ← setIx_eq_set _ q v h, ← setIx_eq_set _ q v h]
  interval_cases q <;> exact ⟨rfl, rfl, rfl⟩

theorem queue_ignores (s : State) (q : Nat) (h : q < 16) (v : Word) :
    ignoredWrite s (0x100 + q) v = (decide (20 < bits v 4 0) ||
      decide (2 ^ bits v 4 0 < ahead (bits s.dev.lqtail[q] 31 0) (bits s.dev.lqhead[q] 31 0))) ∧
    ignoredWrite s (0x110 + q) v = decide (2 ^ bits s.dev.lqbase[q] 4 0 < ahead (bits v 31 0) (bits s.dev.lqhead[q] 31 0)) ∧
    ignoredWrite s (0x120 + q) v = false := by
  have inside (lo : Nat) : inRun (lo + q) lo 16 = true := by simp [inRun]; omega
  have outside (lo : Nat) (k : Nat) (far : lo + 16 ≤ k ∨ k + 16 ≤ lo) : ¬inRun (k + q) lo 16 = true := by simp [inRun]; omega
  refine ⟨?_, ?_, ?_⟩ <;> unfold ignoredWrite <;> dsimp only
  · rw [if_neg (by omega), if_neg (by omega), if_pos (inside _), Nat.add_sub_cancel_left, getD_toList _ _ _ h, getD_toList _ _ _ h]
  · rw [if_neg (by omega), if_neg (by omega), if_neg (outside _ _ (by decide)), if_pos (inside _), Nat.add_sub_cancel_left,
      getD_toList _ _ _ h, getD_toList _ _ _ h]
  · rw [if_neg (by omega), if_neg (by omega), if_neg (outside _ _ (by decide)), if_neg (outside _ _ (by decide)), if_neg (by omega)]

theorem wakeP2_dev (s : State) : (wakeP2 s).dev = s.dev := by
  unfold wakeP2; split <;> rfl

/-- The four writes are the host's write of one register. -/
theorem hostRows_eq (q : Nat) (v : Word) (h : q < 16) (s : State) :
    exec (.lqbaseWrite q v) s = hostRegWrite (0x100 + q) v s ∧ exec (.lqtailWrite q v) s = hostRegWrite (0x110 + q) v s ∧
    exec (.lqheadWrite q v) s = hostRegWrite (0x120 + q) v s ∧ exec (.pwrcapWrite v) s = hostRegWrite 0x150 v s :=
  ⟨if_pos h, if_pos h, if_pos h, rfl⟩

/-- Settles O26: the host's write of each register under its mask. -/
theorem hostRegisterWrites : Obligations.HostRegisterWrites := by
  unfold Obligations.HostRegisterWrites
  intro s q v h posted waits
  obtain ⟨base, tail, head, cap⟩ := hostRows_eq q v h s
  have rows {n : Nat} (small : n < 0x1000) := hostRegWrite_eq v posted waits small
  refine ⟨?_, fun d2 d3 sound => ?_⟩
  · have one {n : Nat} {i : Instr} (small : n < 0x1000) (e : exec i s = hostRegWrite n v s) :
        (s.pstate = 4 → exec i s = .next s) ∧
        (s.pstate ≠ 4 → (s.pstate = 3 ∨ s.recovering = true) → exec i s = .next { s with hostOut := (1, []) }) := by
      rw [e, rows small]
      refine ⟨fun off => ?_, fun on off => ?_⟩
      · rw [if_pos off]
      · rw [if_neg on, if_pos off.symm]; rfl
    simp only [List.forall_mem_cons]
    exact ⟨one (by omega) base, one (by omega) tail, one (by omega) head, one (by decide) cap, fun _ h => absurd h List.not_mem_nil⟩
  · intro same
    have serves {n : Nat} (small : n < 0x1000) (wide : deviceWide n = true) (may : mayWrite true n = true) :
        hostRegWrite n v s = .next (hostDone (let x := mergeCsr n (devVal s n) v true
          if ignoredWrite s n x then s else devPut s n x) 0 []) := by
      have on : ¬(s.recovering = true ∨ s.pstate = 3) := by rw [sound]; exact fun h => h.elim Bool.noConfusion d2
      rw [rows small, if_neg d3, if_neg on, bar0Write_reg v small wide may]
    obtain ⟨⟨wideB, mayB, maskB, anyB, sysB⟩, ⟨wideT, mayT, maskT, anyT, sysT⟩, wideH, mayH, maskH, anyH, sysH⟩ := queue_masks q h
    obtain ⟨valueB, valueT, valueH⟩ := queue_values s q h
    have mergeB : mergeCsr (0x100 + q) (devVal s (0x100 + q)) v true =
        (s.dev.lqbase[q] &&& ~~~0xFFFFFFFFFFF9F#64) ||| (v &&& 0xFFFFFFFFFFF9F#64) := by rw [mergeCsr, maskB, anyB, sysB, valueB]; rfl
    have mergeT : mergeCsr (0x110 + q) (devVal s (0x110 + q)) v true =
        (s.dev.lqtail[q] &&& ~~~0xFFFFFFFF#64) ||| (v &&& 0xFFFFFFFF#64) := by rw [mergeCsr, maskT, anyT, sysT, valueT]; rfl
    have mergeH : mergeCsr (0x120 + q) (devVal s (0x120 + q)) v true = setBits s.dev.lqhead[q] 63 63 0 := by
      have keeps : (s.dev.lqhead[q] &&& ~~~(BitVec.ofNat 64 0)) ||| (v &&& BitVec.ofNat 64 0) = s.dev.lqhead[q] := by
        have none : BitVec.ofNat 64 0 = 0#64 := rfl
        have all : ~~~0#64 = BitVec.allOnes 64 := by decide
        rw [none, all, BitVec.and_allOnes, BitVec.and_zero, BitVec.or_zero]
      rw [mergeCsr, maskH, anyH, sysH, valueH, keeps]; rfl
    have mergeP : mergeCsr 0x150 (devVal s 0x150) v true = (s.dev.pwrcap &&& ~~~0xFFF#64) ||| (v &&& 0xFFF#64) := rfl
    refine ⟨?_, ?_, ?_, ?_⟩
    · have size := bits_merge_low (old := s.dev.lqbase[q]) (new := v) (m := 0xFFFFFFFFFFF9F#64) (h := 4) (by decide) (by decide)
      rw [base, serves (by omega) wideB mayB, mergeB]
      refine ⟨_, rfl, fun fits => ?_, fun large => ?_⟩
      all_goals dsimp only; rw [(queue_ignores s q h _).1, size]
      · have ok : ¬((decide (20 < bits v 4 0) || decide (2 ^ bits v 4 0 < ahead (bits s.dev.lqtail[q] 31 0) (bits s.dev.lqhead[q] 31 0))) = true) := by
          simp only [Bool.or_eq_true, decide_eq_true_eq, not_or, not_lt]; exact fits
        rw [if_neg ok, (queue_puts s q h _).1]
        rfl
      · rw [if_pos (by simp [large])]
        rfl
    · have count := bits_merge_low (old := s.dev.lqtail[q]) (new := v) (m := 0xFFFFFFFF#64) (h := 31) (by decide) (by decide)
      rw [tail, serves (by omega) wideT mayT, mergeT]
      refine ⟨_, rfl, fun fits => ?_, fun large => ?_⟩
      all_goals dsimp only; rw [(queue_ignores s q h _).2.1, count]
      · have ok : ¬(decide (2 ^ bits s.dev.lqbase[q] 4 0 < ahead (bits v 31 0) (bits s.dev.lqhead[q] 31 0)) = true) := by
          simp only [decide_eq_true_eq, not_lt]; exact fits
        rw [if_neg ok, (queue_puts s q h _).2.1]
        simp only [hostDone, wakeP2_dev, Vector.getElem_set_self, count]
      · have tooMany : decide (2 ^ bits s.dev.lqbase[q] 4 0 < ahead (bits v 31 0) (bits s.dev.lqhead[q] 31 0)) = true := decide_eq_true large
        rw [if_pos tooMany]
        rfl
    · have top := bits_setBits_top s.dev.lqhead[q]
      rw [head, serves (by omega) wideH mayH, mergeH]
      refine ⟨_, rfl, ?_⟩
      dsimp only
      rw [(queue_ignores s q h _).2.2, if_neg Bool.false_ne_true, (queue_puts s q h _).2.2]
      simp only [hostDone, Vector.getElem_set_self]
      exact top
    · have watts := bits_merge_low (old := s.dev.pwrcap) (new := v) (m := 0xFFF#64) (h := 11) (by decide) (by decide)
      have ignored (x : Word) : ignoredWrite s 0x150 x = (decide (bits x 11 0 < 1200) || decide (3600 < bits x 11 0)) := rfl
      have puts (x : Word) : devPut s 0x150 x = { s with dev := { s.dev with pwrcap := x } } := rfl
      rw [cap, serves (by decide) (by decide) (by decide), mergeP]
      refine ⟨_, rfl, fun fits => ?_, fun out => ?_⟩
      all_goals dsimp only; rw [ignored, watts]
      · rw [if_neg (by simp; omega), puts]
        exact watts
      · rw [if_pos (by simpa using out)]
        rfl

end Sys2Proof.Proofs

/-! SUPPORT. Proofs: the instructions that an engine member's kind may not execute (R294, R304). -/

namespace Sys2Proof.Proofs

open Sys2Proof Sys2Proof.Machine Sys2Proof.Laws

/-! ### Sparse maps without their canonical form -/

/-- What stands in a sparse map after a key takes a value that is no default, also where the map is not canonical. -/
theorem mapGet_mapSet_of_ne {α : Type} [DecidableEq α] {d v : α} (h : v ≠ d) (m : SMap α) (k j : Nat) :
    mapGet d (mapSet d m k v) j = if j = k then v else mapGet d m j := by
  induction m with
  | nil => simp only [mapSet, if_neg h, mapGet]; split_ifs <;> rfl
  | cons p t ih =>
    obtain ⟨i, w⟩ := p
    simp only [mapSet, if_neg h]
    split_ifs <;> simp only [mapGet, ih] <;> grind

theorem teamOf_putTeam (s : State) (a : Nat) (tm : Team) : teamOf (putTeam s a (some tm)) a = some tm := by
  have filled : { getCluster s (clusterOf a) with team := some tm } ≠ ({} : Cluster) := fun e => nomatch (congrArg Cluster.team e : some tm = none)
  exact congrArg Cluster.team ((mapGet_mapSet_of_ne filled _ _ _).trans (if_pos rfl))

/-! ### The trap of an engine member -/

/-- The engine member in focus, halted at its instruction. -/
def haltedHere (s : State) : State :=
  { s with cur := { s.cur with run := .halted, wait := .ready, span := 0, board := [], hostGot := [], codeAt := [] } }

/-- A trap of an engine member that is no translation fault of an access goes to its team's table (R304). -/
theorem raise_engine {s : State} (engine : isEngine s.who = true) {t : Trap} (access : 6 ≤ t.access) (walked : t.walked = [])
    (waits : t.waits = false) (code : t.code ≠ 0x08 ∧ t.code ≠ 0x09) : raise s t = engineTrap s t := by
  have direct : (decide (t.code = 0x08) || decide (t.code = 0x09)) = false := by simp [code]
  unfold raise
  rw [refreshTlb_other s access walked]
  unfold raiseIn pagerWaits toPager pagerTouch
  simp only [waits, direct, Bool.false_and, Bool.or_self, Bool.false_eq_true, if_false]
  unfold enterTrap
  rw [if_pos engine]

/-- The lead of a team is a core's context. -/
theorem leadOf_core {tm : Team} {lead : Nat} (h : leadOf tm = some lead) : isEngine lead = false := by
  have keep (ms : List Member) (best : Option Nat) (core : ∀ a, best = some a → isEngine a = false) (a : Nat)
      (e : ms.foldl (fun best m => if isEngine m.agent || m.ended then best else match best with
        | none => some m.agent
        | some b => if m.agent < b then some m.agent else best) best = some a) : isEngine a = false := by
    induction ms generalizing best with
    | nil => exact core a e
    | cons m ms ih =>
      refine ih _ (fun b hb => ?_) e
      dsimp only at hb
      split at hb
      · exact core b hb
      · next free =>
        have coreM : isEngine m.agent = false := by
          cases h : isEngine m.agent <;> simp [h] at free ⊢
        split at hb
        · cases hb; exact coreM
        · split at hb
          · cases hb; exact coreM
          · exact core b hb
  exact keep tm.members none (fun a h => nomatch h) lead h

/-- What the table says of a fault that it records first (R304). -/
theorem bits_teamFault (code tile kind : Nat) (c : code < 256) (k : kind < 4) :
    let err : Word := BitVec.ofNat 64 (2 ^ 63 + code * 2 ^ 54 + (tile % 16) * 2 ^ 50 + kind * 2 ^ 48)
    bits err 63 63 = 1 ∧ bits err 62 62 = 0 ∧ bits err 61 54 = code ∧ bits err 53 50 = tile % 16 ∧ bits err 49 48 = kind := by
  have small : tile % 16 < 16 := Nat.mod_lt _ (by decide)
  generalize tile % 16 = n at small
  simp only [bits, BitVec.toNat_ofNat]
  omega

/-! ### Every instruction checks its agent's kind first -/

/-- The trap of an instruction that the member's kind may not execute. -/
def Withheld (s : State) (o : Host.Outcome State Fault Refusal) : Prop := o = .next (raise s { code := 0x21 })

theorem withheld_issue {s : State} {kinds : List Nat} (other : kinds.contains (kindOf s.who) = false) {len : Nat} {st : BitVec 3}
    {uses : List RegUse} {b : State → Body} : Withheld s (issue s kinds len st uses b) := issue_withheld s other len st uses b

theorem withheld_issue_late {s : State} {kinds : List Nat} (engine : kindOf s.who ≠ 0)
    (other : kinds.contains (kindOf s.who) = false) {len : Nat} {st : BitVec 3} {uses : List RegUse} {b : State → Body} :
    Withheld s (storeFailFirst s fun s => issue s kinds len st uses b) := by
  rw [storeFailFirst_engine engine]
  exact withheld_issue other

theorem contains_other {k a : Nat} (engine : k ≠ 0) (other : k ≠ a) : [0, a].contains k = false := by simp [engine, other]

theorem withheld_csrRead {s : State} (engine : kindOf s.who ≠ 0) {n : Nat} (other : n ≠ 0x0F0 ∧ n ≠ 0x0F1) {r : BitVec 5} {st : BitVec 3} :
    Withheld s (csrRead n r st s) := by
  have kinds : (if n = 0x0F0 ∨ n = 0x0F1 then anyAgent else coreOnly) = coreOnly := if_neg (not_or.mpr other)
  unfold csrRead
  rw [kinds]
  exact withheld_issue (by simpa [coreOnly] using engine)

theorem withheld_pause {s : State} (engine : kindOf s.who ≠ 0) {k : BitVec 6} {st : BitVec 3} : Withheld s (execPause k st s) := by
  have core : coreOnly.contains (kindOf s.who) = false := by simpa [coreOnly] using engine
  unfold execPause
  rw [issue_withheld s core]
  exact if_neg engine

theorem withheld_atomic {s : State} (core : coreOnly.contains (kindOf s.who) = false) {op n : Nat} {d a b : BitVec 5} {c st : BitVec 3} :
    Withheld s (atomic op n d a b c st s) := withheld_issue core

theorem withheld_predOp {s : State} (core : coreOnly.contains (kindOf s.who) = false) {f : BitVec 32 → BitVec 32 → BitVec 32}
    {d a st : BitVec 3} : Withheld s (predOp f d a st s) := withheld_issue core

theorem withheld_onPage {s : State} (core : coreOnly.contains (kindOf s.who) = false) {d a : BitVec 5} {k : Nat} {st : BitVec 3}
    {f : State → PageRef → VAddr → Nat × State} {late : State → Nat → Bool} : Withheld s (onPage d a k st f s late) := withheld_issue core

/-- An instruction that the member's kind may not execute traps before anything else that it does. -/
theorem exec_withheld {s : State} (engine : kindOf s.who ≠ 0) {i : Instr} (w : roleWithheld i (kindOf s.who) = true) :
    exec i s = .next (raise s { code := 0x21 }) := by
  have core : coreOnly.contains (kindOf s.who) = false := by simpa [coreOnly] using engine
  show Withheld s (exec i s)
  cases i
  all_goals try exact absurd w Bool.false_ne_true
  all_goals dsimp only [exec]
  case amoAddW | amoAndW | amoOrW | amoXorW | amoMinW | amoMaxW | amoMinnW | amoMaxnW | amoSwapW | casW | amoAddD | amoAndD | amoOrD |
      amoXorD | amoMinD | amoMaxD | amoMinnD | amoMaxnD | amoSwapD | casD => exact withheld_atomic core
  case ldB | ldH | ldW | ldD | stB | stH | stW | stD | ldAcq | csrw | csrs | csrc | fenceAcq | wait | pf | trap |
      eret | tlbinvPage | tlbinvTag | tlbinvAll | fenceI | taskEnd | spawn | yield | cntInit | barInit | barArrive | barWait | barLink | phase | sleep | mreqRead | mreqWrite | send |
      portOpen | portClose | treeInj | treeExt | sbind | sfree | sstat | launch | launchTry | cLdD | cStD | sterrClear | cpyerrClear |
      axerrClear | teamerrClear | slwinWrite | stpathWrite | vtypeWrite | vauxWrite | lpctlWrite | vrandWrite | motionctlWrite | mrecptrWrite |
      evptrWrite => exact withheld_issue core
  case stRel | fenceFull | fenceRel | fenceAck => exact withheld_issue_late engine core
  case pand | por | pnot => exact withheld_predOp core
  case pgmove | pghot | pgabort => exact withheld_onPage core
  case vadd | vsub | vadds | vsubs | vmin | vmax | vabs | vneg | vand | vor | vxor | vshl | vshr | vcmp | vsel | vmov | vmul | cmul |
      cmulc | vcvt | vbfly | vperm | vbcast | vred | vfma | vfms | cfma | cfmac | vld | vst | vldx | vstx | axld | axst | axmm => exact if_pos engine
  case csrr r n st =>
    obtain ⟨hartid, time⟩ : n ≠ 0x0F0 ∧ n ≠ 0x0F1 := of_decide_eq_true w
    exact withheld_csrRead engine ⟨by bv_omega, by bv_omega⟩
  case pause => exact withheld_pause engine
  case cpy | cpyTry | cpyid | cpywait | dictLd | axdef | axdefRelease | mapSet | mapSwap | mapRd | remap | rmwait | axctx | axmat | axap |
      axdrain | axstat | axwait => exact withheld_issue (contains_other engine (of_decide_eq_true w))
  case cpydoneRead => exact withheld_csrRead engine (by omega)
  case axdoneRead => exact withheld_csrRead engine (by decide)
  case pathdoneRead => exact withheld_csrRead engine (by omega)

theorem engineTrap_alone {s : State} {t : Trap} (team : teamOf s s.who = none) : engineTrap s t = haltedHere s := by
  have team : teamOf (haltedHere s) (haltedHere s).who = none := team
  unfold engineTrap
  show (match teamOf (haltedHere s) (haltedHere s).who with | none => haltedHere s | some tm => _) = _
  rw [team]

theorem engineTrap_coreless {s : State} {t : Trap} {tm : Team} (team : teamOf s s.who = some tm) (lead : leadOf tm = none)
    {g : Nat × Nat} (region : regionOf s (coreOf s.who) = some g) : engineTrap s t = endDomain (haltedHere s) g.1 t.code := by
  have team : teamOf (haltedHere s) (haltedHere s).who = some tm := team
  have region : regionOf (haltedHere s) (coreOf (haltedHere s).who) = some g := region
  unfold engineTrap
  show (match teamOf (haltedHere s) (haltedHere s).who with | none => haltedHere s | some tm => _) = _
  rw [team]
  dsimp only
  rw [lead]
  dsimp only
  exact congrArg (fun r : Option (Nat × Nat) => match r with
    | some (rcb, _) => endDomain (haltedHere s) rcb t.code
    | none => haltedHere s) region

/-- What the table of a team with a fault of its member in focus says (R304). -/
def faulted (s : State) (t : Trap) (tm : Team) : Team :=
  if bits tm.err 63 63 = 1 then { tm with err := setBits tm.err 62 62 1 }
  else { tm with
    err := BitVec.ofNat 64 (2 ^ 63 + t.code * 2 ^ 54 + (tileOf s.who % 16) * 2 ^ 50 + kindOf s.who * 2 ^ 48)
    epc := s.cur.pc }

/-- Two states differ at most in contexts out of focus. -/
def SameButParked (s t : State) : Prop := t = { s with parked := t.parked }

theorem putCtx_parked {s : State} {a : Nat} (other : a ≠ s.who) (c : Ctx) : SameButParked s (putCtx s a c) := by
  unfold putCtx
  rw [if_neg other]
  rfl

/-- The lead that waits in `realign` goes on with it. -/
def leadGoesOn (s : State) (lead : Nat) : State :=
  match (getCtx s lead).wait with
  | .realign _ _ => putCtx s lead { getCtx s lead with wait := .stalled }
  | _ => s

theorem leadGoesOn_parked {s : State} {lead : Nat} (other : lead ≠ s.who) : SameButParked s (leadGoesOn s lead) := by
  unfold leadGoesOn
  split
  · exact putCtx_parked other _
  · rfl

/-- The fault of an engine member whose team has a lead is told to the lead, in the table. -/
theorem engineTrap_led {s : State} {t : Trap} {tm : Team} (team : teamOf s s.who = some tm) {lead : Nat} (led : leadOf tm = some lead)
    (other : lead ≠ s.who) (code : t.code < 0x18 ∨ 0x1B < t.code) :
    engineTrap s t = putTeam (leadGoesOn (haltedHere s) lead) s.who (some (faulted s t tm)) := by
  have team : teamOf (haltedHere s) (haltedHere s).who = some tm := team
  have here : leadGoesOn (haltedHere s) lead = { haltedHere s with parked := (leadGoesOn (haltedHere s) lead).parked } :=
    leadGoesOn_parked other
  have who : (leadGoesOn (haltedHere s) lead).who = s.who := by rw [here]; rfl
  have pc : (leadGoesOn (haltedHere s) lead).cur.pc = s.cur.pc := by rw [here]; rfl
  have copy : ¬((decide (t.code = 0x18) || decide (t.code = 0x19)) = true) := by simp; omega
  have axis : ¬((decide (t.code = 0x1A) || decide (t.code = 0x1B)) = true) := by simp; omega
  unfold engineTrap
  show (match teamOf (haltedHere s) (haltedHere s).who with | none => haltedHere s | some tm => _) = _
  rw [team]
  dsimp only
  rw [led]
  dsimp only
  rw [if_neg copy, if_neg axis]
  unfold faulted
  split
  · show putTeam (leadGoesOn (haltedHere s) lead) (leadGoesOn (haltedHere s) lead).who _ = _
    rw [who]
  · show putTeam (leadGoesOn (haltedHere s) lead) (leadGoesOn (haltedHere s) lead).who (some { tm with
      err := BitVec.ofNat 64 (2 ^ 63 + t.code * 2 ^ 54 + (tileOf (leadGoesOn (haltedHere s) lead).who % 16) * 2 ^ 50 +
        kindOf (leadGoesOn (haltedHere s) lead).who * 2 ^ 48)
      epc := (leadGoesOn (haltedHere s) lead).cur.pc }) = _
    rw [who, pc]

theorem kindOf_lt (a : Nat) : kindOf a < 4 := by
  unfold kindOf
  split <;> omega

/-- Settles O30: every such instruction raises ROLE_KIND before anything else, which halts the member and is told to its team. -/
theorem roleKind : Obligations.RoleKind := by
  unfold Obligations.RoleKind
  intro s i engine kind withheld
  rw [exec_withheld kind withheld, raise_engine engine (by decide) rfl rfl (by decide)]
  refine ⟨⟨_, rfl, fun team => ?_⟩, fun tm team => ⟨fun led => ?_, fun lead rcb n region => ?_⟩⟩
  · rw [engineTrap_alone team]
    exact ⟨rfl, rfl, rfl, rfl⟩
  · obtain ⟨lead, led⟩ := Option.ne_none_iff_exists'.mp led
    have other : lead ≠ s.who := fun e => by
      have core := leadOf_core led
      rw [e, engine] at core
      exact Bool.noConfusion core
    have here : leadGoesOn (haltedHere s) lead = { haltedHere s with parked := (leadGoesOn (haltedHere s) lead).parked } :=
      leadGoesOn_parked other
    rw [engineTrap_led team led other (by decide)]
    generalize leadGoesOn (haltedHere s) lead = v at here
    refine ⟨_, faulted s { code := 0x21 } tm, rfl, ?_, ?_, ?_, ?_, ?_, ?_, teamOf_putTeam _ _ _, ?_, ?_, fun first => ?_, fun later => ?_⟩
    iterate 6 · rw [here]; rfl
    · unfold faulted; split <;> rfl
    · unfold faulted; split <;> rfl
    · have none : ¬bits tm.err 63 63 = 1 := by omega
      unfold faulted
      rw [if_neg none]
      exact ⟨rfl, bits_teamFault 0x21 (tileOf s.who) (kindOf s.who) (by decide) (kindOf_lt _)⟩
    · unfold faulted
      rw [if_pos later]
      exact ⟨rfl, rfl⟩
  · exact congrArg Host.Outcome.next (engineTrap_coreless team lead region)

end Sys2Proof.Proofs

/-! SUPPORT. Proofs: predicate logic, and the registers that no write changes (R203, R226). -/

namespace Sys2Proof.Proofs

open Sys2Proof Sys2Proof.Machine Sys2Proof.Laws

theorem pw_zero (c : Ctx) (m : BitVec 32) : c.pw 0 m = c := if_pos rfl

theorem wr_zero (c : Ctx) (x : Word) : c.wr 0 x = c := if_pos rfl

/-- s0 reads 0 and p0 reads all ones in every context: no write of either is kept, and a read does not look. -/
theorem hardWired (c : Ctx) : HardWired c := ⟨if_pos rfl, if_pos rfl⟩

theorem predOp_completes {i : Instr} {s : State} (calm : Calm [0] s) {f : BitVec 32 → BitVec 32 → BitVec 32} {d a st : BitVec 3}
    (e : exec i s = predOp f d a st s) :
    Completes i s { s with cur := s.cur.pw d (f (s.cur.pr d) (s.cur.pr a)) } 4 ∧ (d = 0 → Completes i s s 4) := by
  have calm : Calm coreOnly s := calm
  have goes : Completes i s { s with cur := s.cur.pw d (f (s.cur.pr d) (s.cur.pr a)) } 4 :=
    completes_of_done (e.trans (issue_calm calm _ _ _ _))
  refine ⟨goes, fun zero => ?_⟩
  rw [zero, pw_zero] at goes
  exact goes

/-- Settles O22: each form is one `predOp`, and reads of s0 and p0 are constant. -/
theorem predicateForms : Obligations.PredicateForms := by
  unfold Obligations.PredicateForms
  refine ⟨fun s d a st calm => ?_, fun c x m => ⟨wr_zero c x, pw_zero c m⟩, fun _ t _ k => hardWired (getCtx t k)⟩
  simp only [List.forall_mem_cons]
  exact ⟨predOp_completes calm (f := (· &&& ·)) rfl, predOp_completes calm (f := (· ||| ·)) rfl,
    predOp_completes calm (f := fun _ x => ~~~x) (d := d) (a := a) rfl, fun _ h => absurd h List.not_mem_nil⟩

end Sys2Proof.Proofs

/-! SUPPORT. Proofs: the stall-count check of consumers (R217, R345). -/

namespace Sys2Proof.Proofs

open Sys2Proof Sys2Proof.Machine Sys2Proof.Laws

/-- What a consumer of short operands comes to: STALL_SHORT where that is checked and no load is on its way, else a wait. -/
def Stops (s : State) (o : Host.Outcome State Fault Refusal) : Prop :=
  (bits s.cur.issuectl 0 0 = 1 → s.cur.loads = [] → o = .next { s with cur := trapCtx s.cur 0x04 7 0 0 }) ∧
  (bits s.cur.issuectl 0 0 = 0 ∨ s.cur.loads ≠ [] → o = .next { s with cur := { s.cur with wait := .stalled } })

/-- Under the condition p, it stops so where one of these registers is short. -/
def StopsWhen (s : State) (p : Prop) (uses : List RegUse) (o : Host.Outcome State Fault Refusal) : Prop :=
  p → Short s uses → Stops s o

theorem shortUse_of_mem {board : List Pending} {uses : List RegUse} {p : Pending} (pending : p ∈ board) (used : (p.cls, p.reg) ∈ uses)
    (near : p.dist < p.lat + 1) : shortUse board uses = true := by
  simp only [shortUse, List.any_eq_true]
  exact ⟨p, pending, by simpa [Nat.lt_succ_iff] using ⟨used, Nat.le_of_lt_succ near⟩⟩

/-- The check of a consumer with a short operand among the registers that it uses. -/
theorem shortStop_of_short {s : State} {uses all : List RegUse} (short : Short s uses) (used : ∀ u ∈ uses, u ∈ all) :
    shortStop s all = some (if bits s.cur.issuectl 0 0 = 1 ∧ s.cur.loads = [] then .trap { code := 0x04 } else .wait s .stalled) := by
  obtain ⟨p, pending, use, near, till⟩ := short
  have off : bits s.cur.issuectl 0 0 = 0 ∨ bits s.cur.issuectl 0 0 = 1 := by simp only [bits]; omega
  unfold shortStop
  split
  · next on =>
    rw [shortUse_of_mem pending (used _ use) near, if_pos rfl]
    cases loads : s.cur.loads <;> simp [on]
  · next not_on =>
    have late : p ∈ s.cur.board.filter fun p => cycleNow s < p.till :=
      List.mem_filter.2 ⟨pending, decide_eq_true (till (off.resolve_right not_on))⟩
    rw [shortUse_of_mem late (used _ use) near, if_pos rfl, if_neg fun h => not_on h.1]

section
variable {s : State} {uses : List RegUse} {p : Prop}

/-- An instruction whose check of these registers comes before all else stops so. -/
theorem stops_of_check {all : List RegUse} {o : Host.Outcome State Fault Refusal} {len : Nat} {st : BitVec 3} (hh : HasHandler s)
    (used : ∀ u ∈ uses, u ∈ all) (checks : p → ∀ b, shortStop s all = some b → o = .next (retire s len st b)) :
    StopsWhen s p uses o := by
  intro holds short
  have stop := checks holds _ (shortStop_of_short short used)
  refine ⟨fun on none => ?_, fun waits => ?_⟩
  · rw [stop, if_pos ⟨on, none⟩]
    exact congrArg _ (raise_handler hh { code := 0x04 } (refreshTlb_other s (by decide) rfl) (by decide))
  · rw [stop, if_neg fun h => waits.elim (fun off => by omega) (fun loads => loads h.2)]
    rfl

theorem issue_stops {kinds : List Nat} (any : kinds.contains (kindOf s.who) = true) {len : Nat} {st : BitVec 3} {all : List RegUse}
    {body : State → Body} {b : Body} (stop : shortStop s all = some b) : issue s kinds len st all body = .next (retire s len st b) := by
  rw [issue, any, stop]
  rfl

theorem stops_issue (core : kindOf s.who = 0) (hh : HasHandler s) {kinds : List Nat} {len : Nat} {st : BitVec 3} {all : List RegUse}
    {body : State → Body} (any : kinds.contains 0 = true) (used : ∀ u ∈ uses, u ∈ all) :
    StopsWhen s p uses (issue s kinds len st all body) :=
  stops_of_check hh used fun _ _ stop => issue_stops (by rw [core]; exact any) stop

theorem stops_atomic (core : kindOf s.who = 0) (hh : HasHandler s) {op n : Nat} {d a b : BitVec 5} {c st : BitVec 3}
    (used : ∀ u ∈ uses, u ∈ [useS a, useS b, useS d]) : StopsWhen s p uses (atomic op n d a b c st s) :=
  stops_issue core hh rfl used

theorem stops_predOp (core : kindOf s.who = 0) (hh : HasHandler s) {f : BitVec 32 → BitVec 32 → BitVec 32} {d a st : BitVec 3}
    (used : ∀ u ∈ uses, u ∈ [useP d, useP a]) : StopsWhen s p uses (predOp f d a st s) :=
  stops_issue core hh rfl used

theorem stops_onPage (core : kindOf s.who = 0) (hh : HasHandler s) {d a : BitVec 5} {k : Nat} {st : BitVec 3}
    {f : State → PageRef → VAddr → Nat × State} {late : State → Nat → Bool} (used : ∀ u ∈ uses, u ∈ [useS a, useS d]) :
    StopsWhen s p uses (onPage d a k st f s late) :=
  stops_issue core hh rfl used

theorem stops_csrRead (core : kindOf s.who = 0) (hh : HasHandler s) {n : Nat} {r : BitVec 5} {st : BitVec 3}
    (used : ∀ u ∈ uses, u ∈ csrUses n r) : StopsWhen s p uses (csrRead n r st s) :=
  stops_issue core hh (by split <;> rfl) used

theorem stops_storeRelease (core : kindOf s.who = 0) (hh : HasHandler s) (calm : p → bits s.cur.sterr 63 63 = 0) {len : Nat}
    {st : BitVec 3} {all : List RegUse} {body : State → Body} (used : ∀ u ∈ uses, u ∈ all) :
    StopsWhen s p uses (storeFailFirst s fun s => issue s coreOnly len st all body) :=
  stops_of_check hh used fun holds b stop =>
    (if_neg fun h => by rw [calm holds] at h; exact absurd h.1 (by decide)).trans (issue_stops (by rw [core]; rfl) stop)

theorem stops_vissue (core : kindOf s.who = 0) (hh : HasHandler s) {st : BitVec 3} {bad : Bool} {x : Access} {pr pw : List RegUse} {n l0 : Nat}
    {f : Ctx → (BitVec 6 → VReg) → List (BitVec 6 × VReg) × (Ctx → Ctx)} (good : p → bad = false) (way : p → wrongWay s.cur x = false)
    (used : ∀ u ∈ uses, u ∈ x.uses (pr ++ pw)) : StopsWhen s p uses (vissue s st bad x pr pw n l0 f) :=
  stops_of_check hh used fun holds b stop => by
    rw [vissue, if_neg (by simp [core]), good holds, way holds, if_neg (by decide), stop]

theorem stops_vmem (core : kindOf s.who = 0) (hh : HasHandler s) {st : BitVec 3} {base : BitVec 5} {x : Access} {al k : Nat} {eas : List Word}
    {go : State → List (Word × Landing) → Body} (way : p → wrongWay s.cur x = false) (used : ∀ u ∈ uses, u ∈ x.uses [useS base]) :
    StopsWhen s p uses (vmem s st base x al k eas go) :=
  stops_of_check hh used fun holds b stop => by
    rw [vmem, if_neg (by simp [core]), way holds, if_neg (by decide), stop]

theorem stops_vblock (core : kindOf s.who = 0) (hh : HasHandler s) {ok : Nat → Bool} {extra : Ctx → Bool} {role : Role} {l0 : Nat → Nat}
    {f : Ctx → VReg → VReg → VReg} {d a : BitVec 6} {h w st : BitVec 3} {x : Access} (takes : p → (!ok (vET s.cur) || extra s.cur) = false)
    (access : x = ⟨blockRegs a (h.toNat + 1) (w.toNat + 1) ++ (if role = .rw then blockRegs d (h.toNat + 1) (w.toNat + 1) else []),
      blockRegs d (h.toNat + 1) (w.toNat + 1)⟩)
    (way : p → wrongWay s.cur x = false) (used : ∀ u ∈ uses, u ∈ x.uses []) :
    StopsWhen s p uses (vblock ok extra role l0 f d a h w st s) := by
  subst access
  unfold vblock
  dsimp only
  exact stops_vissue core hh takes way used

/-- The registers that a vector access names, and the predicates beside them, are among its uses. -/
theorem mem_uses {x : Access} {l : List (BitVec 6)} {more preds : List RegUse} (named : ∀ v ∈ l, v ∈ x.reads ++ x.writes)
    (beside : ∀ u ∈ more, u ∈ preds) : ∀ u ∈ more ++ l.map useV, u ∈ x.uses preds := by
  intro u hu
  rcases List.mem_append.1 hu with h | h
  · exact List.mem_append_right _ (beside u h)
  · obtain ⟨v, hv, rfl⟩ := List.mem_map.1 h
    exact List.mem_append_left _ (List.mem_map_of_mem (named v hv))

/-- The control register of a predicate names it beside the scalar register (R346). -/
theorem csrUses_predicate (d : BitVec 5) (q : BitVec 3) : csrUses (0x088 + q.zeroExtend 12).toNat d = [useS d, useP q] := by
  have number : ∀ q : BitVec 3, inRun (0x088 + q.zeroExtend 12 : BitVec 12).toNat 0x088 8 = true ∧
      BitVec.ofNat 3 ((0x088 + q.zeroExtend 12 : BitVec 12).toNat - 0x088) = q := by decide
  rw [csrUses, (number q).1, if_pos rfl, (number q).2]

end

/-- Settles O28: each form checks its registers before all else, under the conditions that its row names. -/
theorem stallShort : Obligations.StallShort := by
  unfold Obligations.StallShort
  intro s d a b u v y p q n x f z w2 h2 i o g c h w st core hh S V run us vs us2 vs2 t p0 m ps flows
  have regs : us.length = m := blockRegs_length u _ _
  have preds : predUses s.cur us.length = ps := by rw [regs]; rfl
  have swap {w : RegUse} (hw : w ∈ V (vs ++ us) ++ ps) : w ∈ ps ++ V (vs ++ us) := List.mem_append.2 (List.mem_append.1 hw).symm
  show ∀ r : Instr × Prop × List RegUse, r ∈ _ → StopsWhen s r.2.1 r.2.2 (exec r.1 s)
  simp only [List.forall_mem_cons]
  dsimp only [exec, execAdd, execMul, execSel, execMov, execAddi, execLim, execCAdd, execJal, execJr, execBrEq, execBrLtn,
    execLoop, execLdB, execLdD, execCLdD, execLdAcq, execStB, execStD, execStRel, execAmoAddD, execCasW, execCsrr, execCsrw,
    execWait, execPf, execTlbinvPage, execSpawn, execYield, execCntInit, execBarWait, execSleep, execTeamBind, execHand,
    execMreqRead, execMreqWrite, execPgmove, execSend, execTreeInj, execCpy, execCpywait, execSbind, execLaunch, execAxdef,
    execAxap, execAxwait, execVadd, execVmov, execVfma, execVcmp, execVsel, execVld, execVst, execVldx, execVstx, execPand,
    execPnot, alu3, alu2, jumpLink, branch, load, store, atomic, csrWrite, csrRead, onPage, predOp, vpair, vbits, vblock, vfused]
  refine ⟨
    stops_issue core hh rfl (by simp [useS, S]),
    stops_issue core hh rfl (by simp [useS, S]),
    stops_issue core hh rfl (by simp [useS, S]),
    stops_issue core hh rfl (by simp [useS, S]),
    stops_issue core hh rfl (by simp [useS, S]),
    stops_issue core hh rfl (by simp [useS, S]),
    stops_issue core hh rfl (by simp [useS, S]),
    stops_issue core hh rfl (by simp [useS, S]),
    stops_issue core hh rfl (by simp [useS, S]),
    stops_issue core hh rfl (by simp [useS, S]),
    stops_issue core hh rfl (by simp [useS, S]),
    stops_issue core hh rfl (by simp [useS, S]),
    stops_issue core hh rfl (by simp [useS, S]),
    stops_issue core hh rfl (by simp [useS, S]),
    stops_issue core hh rfl (by simp [useS, S]),
    stops_issue core hh rfl (by simp [useS, S]),
    stops_issue core hh rfl (by simp [useS, S]),
    stops_issue core hh rfl (by simp [useS, S]),
    stops_storeRelease core hh id (by simp [useS, S]),
    stops_issue core hh rfl (by simp [useS, S]),
    stops_issue core hh rfl (by simp [useS, S]),
    stops_issue core hh (by split <;> rfl) (by simp [csrUses, useS, S]),
    stops_issue core hh rfl (by simp [csrUses, useS, S]),
    stops_issue core hh (by split <;> rfl) (by rw [csrUses_predicate]; exact fun _ h => h),
    stops_issue core hh rfl (by rw [csrUses_predicate]; exact fun _ h => h),
    stops_issue core hh rfl (by simp [useS, S]),
    stops_issue core hh rfl (by simp [useS, S]),
    stops_issue core hh rfl (by simp [useS, S]),
    stops_issue core hh rfl fun _ h => h,
    stops_issue core hh rfl fun _ h => h,
    stops_issue core hh rfl (by simp [useS, S]),
    stops_issue core hh rfl (by simp [useS, S]),
    stops_issue core hh rfl (by simp [useS, S]),
    stops_issue core hh rfl (by simp [useS, S]),
    stops_issue core hh rfl (by simp [useS, S]),
    stops_issue core hh rfl (by simp [useS, S]),
    stops_issue core hh rfl (by simp [useS, S]),
    stops_issue core hh rfl (by simp [useS, S]),
    stops_issue core hh rfl fun _ h => h,
    stops_issue core hh rfl (by simp [useS, S]),
    stops_issue core hh rfl fun _ h => h,
    stops_issue core hh rfl (by simp [useS, S]),
    stops_issue core hh rfl (by simp [useS, S]),
    stops_issue core hh rfl (by simp [useS, S]),
    stops_issue core hh rfl (by simp [useS, S]),
    stops_issue core hh rfl (by simp [useS, S]),
    stops_issue core hh rfl (by simp [useS, S]),
    ?vadd,
    ?vmov,
    ?vfma,
    ?vcmp,
    ?vsel,
    ?vld,
    ?vst,
    ?vldx,
    ?vstx,
    stops_issue core hh rfl (by simp [useP]),
    stops_issue core hh rfl (by simp [useP]),
    fun _ h => absurd h List.not_mem_nil⟩
  case vadd =>
    exact stops_vissue core hh (fun h => by rw [show realTy (vET s.cur) = true from h.1]; rfl) (fun h => h.2)
      (mem_uses (more := []) (fun _ h => List.mem_append_left us h) fun _ h => h)
  case vmov =>
    exact stops_vissue core hh (fun _ => rfl) (fun h => by rw [← List.append_nil vs] at h; exact h)
      (mem_uses (more := []) (fun v h => by rw [← List.append_nil vs] at h; exact h) fun _ h => h)
  case vfma =>
    exact stops_vissue core hh (fun h => by rw [show realTy (vET s.cur) = true from h.1]; rfl) (fun h => h.2)
      (mem_uses (more := []) (fun _ h => List.mem_append_left us2 h) fun _ h => h)
  case vcmp =>
    refine stops_vissue core hh (fun ⟨ty, cc, fits, _⟩ => ?_) (fun ⟨_, _, _, way⟩ => way) fun w hw => ?_
    · have last : ¬7 < vPred s.cur + us.length - 1 := by rw [regs]; show ¬7 < p0 + m - 1; omega
      rw [show realTy (vET s.cur) = true from ty, decide_eq_false cc, decide_eq_false last]
      rfl
    · exact mem_uses (more := ps) (fun _ h => List.mem_append_left [] h) (fun u h => by rw [← preds] at h; exact h) w (swap hw)
  case vsel =>
    refine stops_vissue core hh (fun ⟨fits, _⟩ => ?_) (fun h => h.2) fun w hw => ?_
    · have last : ¬7 < vPred s.cur + us.length - 1 := by rw [regs]; show ¬7 < p0 + m - 1; omega
      exact decide_eq_false last
    · refine mem_uses (more := ps) (fun _ h => List.mem_append_left us h) (fun u h => ?_) w (swap hw)
      rw [← preds] at h
      exact List.mem_append_left [] h
  case vld => exact stops_vmem core hh id (mem_uses (more := [S b]) (fun _ h => h) fun _ h => h)
  case vst => exact stops_vmem core hh id (mem_uses (more := [S b]) (fun _ h => List.mem_append_left [] h) fun _ h => h)
  case vldx => exact stops_vmem core hh id (mem_uses (more := [S b]) (fun _ h => h) fun _ h => h)
  case vstx => exact stops_vmem core hh id (mem_uses (more := [S b]) (by simp) fun _ h => h)

end Sys2Proof.Proofs

/-! SUPPORT. Proofs: what an instruction leaves on the scoreboard (R28, R216, R217, R233). -/

namespace Sys2Proof.Proofs

open Sys2Proof Sys2Proof.Machine Sys2Proof.Laws

/-! ### What moving the place of a context leaves pending -/

/-- Two contexts have the same results still to come, and hold the vector datapath as long. -/
def SamePending (c d : Ctx) : Prop := d.board = c.board ∧ d.vecTill = c.vecTill

theorem SamePending.refl (c : Ctx) : SamePending c c := ⟨rfl, rfl⟩

theorem SamePending.trans {c d e : Ctx} (h : SamePending c d) (k : SamePending d e) : SamePending c e :=
  ⟨k.1.trans h.1, k.2.trans h.2⟩

theorem SamePending.ite {c d e : Ctx} {p : Prop} [Decidable p] (h : SamePending c d) (k : SamePending c e) :
    SamePending c (if p then d else e) := by
  split
  · exact h
  · exact k

theorem countDown_pending (c : Ctx) (k : Nat) : SamePending c (countDown c k) := .ite ⟨rfl, rfl⟩ ⟨rfl, rfl⟩

theorem discard_pending (c : Ctx) (k : Nat) : SamePending c (discard c k) := .ite ⟨rfl, rfl⟩ ⟨rfl, rfl⟩

theorem stepPast_pending (c : Ctx) (pc next : Word) (k : Nat) : SamePending c (stepPast c pc next k) := .ite (discard_pending c k) (.refl c)

theorem leaveBody_pending (c : Ctx) (pc target : Word) (ext : Nat → Nat) (k : Nat) : SamePending c (leaveBody c pc target ext k) :=
  .ite (discard_pending c k) (.refl c)

theorem at_pending (c : Ctx) (pc : Word) (span : Nat) : SamePending c { c with pc := pc, span := span } := ⟨rfl, rfl⟩

theorem sequential_pending (c : Ctx) (pc : Word) (len : Nat) (ext : Nat → Nat) : SamePending c (sequential c pc len ext) := by
  unfold sequential
  dsimp only
  have inner : SamePending c (if endsLevel c pc len 1 ext then countDown c 1 else c) := .ite (countDown_pending c 1) (.refl c)
  generalize (if endsLevel c pc len 1 ext then countDown c 1 else c) = c1 at inner
  split
  · exact (countDown_pending c 1).trans (at_pending _ _ _)
  · split
    · exact (inner.trans (countDown_pending c1 0)).trans (at_pending _ _ _)
    · have outer : SamePending c (if endsLevel c pc len 0 ext then countDown c1 0 else c1) := .ite (inner.trans (countDown_pending c1 0)) inner
      generalize (if endsLevel c pc len 0 ext then countDown c1 0 else c1) = c0 at outer
      have past : SamePending c (if endsLevel c pc len 1 ext then c0 else stepPast c0 pc (pc + BitVec.ofNat 64 len) 1) :=
        .ite outer (outer.trans (stepPast_pending c0 _ _ 1))
      exact (SamePending.ite (p := endsLevel c pc len 0 ext = true) past (past.trans (stepPast_pending _ _ _ 0))).trans (at_pending _ _ _)

theorem jumped_pending (c : Ctx) (pc target : Word) (call : Bool) (ext : Nat → Nat) : SamePending c (jumped c pc target call ext) := by
  unfold jumped
  exact (SamePending.ite (p := call = true) (.refl c)
    ((leaveBody_pending c pc target ext 1).trans (leaveBody_pending _ pc target ext 0))).trans (at_pending _ _ _)

theorem noteSpan_pending (c : Ctx) (pc : Word) (span : Nat) :
    SamePending c (noteSpan c pc span) ∧ (noteSpan c pc span).busyTill = c.busyTill := by
  have fold (l : List Nat) (c : Ctx) : SamePending c (l.foldl (fun c k => c.noteEnd k (2 * span)) c) ∧
      (l.foldl (fun c k => c.noteEnd k (2 * span)) c).busyTill = c.busyTill := by
    induction l generalizing c with
    | nil => exact ⟨.refl c, rfl⟩
    | cons k t ih => exact ⟨SamePending.trans ⟨rfl, rfl⟩ (ih _).1, (ih _).2⟩
  exact fold _ c

theorem SameScalars.pending {c e : Ctx} (h : SameScalars c e) : SamePending c e := by
  obtain ⟨_, _, rfl⟩ := h
  exact ⟨rfl, rfl⟩

/-! ### What issuing leaves -/

/-- The results that stand as still to come behind an instruction: of these registers, but s0 and p0, of one latency. -/
def Lates (results : List RegUse) (lat : Nat) (ls : List Pending) : Prop :=
  ∀ e, e ∈ ls ↔ (e.cls, e.reg) ∈ results ∧ (e.cls = 1 ∨ e.reg ≠ 0) ∧ 0 < lat ∧ e = ⟨e.cls, e.reg, lat, 0, 0⟩

theorem mem_late {cls reg lat : Nat} {e : Pending} :
    e ∈ late cls reg lat ↔ (e.cls, e.reg) = (cls, reg) ∧ (e.cls = 1 ∨ e.reg ≠ 0) ∧ 0 < lat ∧ e = ⟨e.cls, e.reg, lat, 0, 0⟩ := by
  unfold late
  split
  · next none =>
    refine ⟨fun h => absurd h List.not_mem_nil, fun ⟨same, kept, more, _⟩ => ?_⟩
    obtain ⟨rfl, rfl⟩ := Prod.mk.inj same
    omega
  · next some =>
    rw [List.mem_singleton]
    constructor
    · rintro rfl
      refine ⟨rfl, ?_, by omega, rfl⟩
      show cls = 1 ∨ reg ≠ 0
      omega
    · rintro ⟨same, -, -, eq⟩
      obtain ⟨hc, hr⟩ := Prod.mk.inj same
      rw [eq, hc, hr]

theorem lates_none (lat : Nat) : Lates [] lat [] := fun _ => by simp

theorem lates_zero (results : List RegUse) : Lates results 0 [] := fun _ => by simp

theorem lates_one (cls reg lat : Nat) : Lates [(cls, reg)] lat (late cls reg lat) := fun e => by
  rw [mem_late, List.mem_singleton]

theorem lates_flatMap {α : Type} (l : List α) (f : α → RegUse) (lat : Nat) :
    Lates (l.map f) lat (l.flatMap fun x => late (f x).1 (f x).2 lat) := fun e => by
  simp only [List.mem_flatMap, List.mem_map, mem_late]
  constructor
  · rintro ⟨x, hx, same, rest⟩
    exact ⟨⟨x, hx, same.symm⟩, rest⟩
  · rintro ⟨⟨x, hx, same⟩, rest⟩
    exact ⟨x, hx, same.symm, rest⟩

/-- The scoreboard of a context behind an instruction that used these registers and has these results. -/
def OnBoard (s : State) (uses results : List RegUse) (lat st vec : Nat) (c : Ctx) : Prop :=
  c.busyTill = cycleNow s + 1 + st ∧ c.vecTill = vec ∧ ∀ e : Pending, e ∈ c.board ↔ e.dist ≤ e.lat ∧
    ((∃ o ∈ s.cur.board, (o.cls, o.reg) ∉ uses ∧ e = { o with dist := o.dist + 1 + st }) ∨
      (e.cls, e.reg) ∈ results ∧ (e.cls = 1 ∨ e.reg ≠ 0) ∧ 0 < lat ∧ e = ⟨e.cls, e.reg, lat, 1 + st, cycleNow s + 1 + lat⟩)

/-- Where no register that it uses is short, an instruction leaves the scoreboard so. -/
def LeavesPending (s : State) (uses results : List RegUse) (lat st vec : Nat) (o : Host.Outcome State Fault Refusal) : Prop :=
  ¬Short s uses → ∃ t, o = .next t ∧ OnBoard s uses results lat st vec t.cur

section
variable {s : State} {uses results all : List RegUse} {lat vec : Nat} {ls : List Pending}

/-- Issuing ages what was pending of other registers, and adds the results. -/
theorem leaves_issued {c : Ctx} {st : Nat} (same : ∀ u, u ∈ all ↔ u ∈ uses) (pending : c.board = (s.cur.settled all).board ∧ c.vecTill = vec)
    (late : Lates results lat ls) : OnBoard s uses results lat st vec (c.issued (cycleNow s) st ls) := by
  unfold Lates at late
  refine ⟨rfl, pending.2, fun e => ?_⟩
  simp only [Ctx.issued, advance, pending.1, Ctx.settled, List.mem_filter, List.mem_map, List.mem_append, decide_eq_true_eq, Nat.lt_succ_iff,
    late, and_comm (b := e.dist ≤ e.lat)]
  refine and_congr_right fun _ => ?_
  constructor
  · rintro ⟨o, ⟨old, other⟩ | ⟨n, ⟨result, kept, more, eq⟩, rfl⟩, rfl⟩
    · exact .inl ⟨o, old, by simpa [same] using other, rfl⟩
    · refine .inr ⟨result, kept, more, ?_⟩
      rw [eq, Nat.zero_add]
  · rintro (⟨o, old, other, rfl⟩ | ⟨result, kept, more, eq⟩)
    · exact ⟨o, .inl ⟨old, by simpa [same] using other⟩, rfl⟩
    · refine ⟨⟨e.cls, e.reg, lat, 0, cycleNow s + 1 + lat⟩, .inr ⟨⟨e.cls, e.reg, lat, 0, 0⟩, ⟨result, kept, more, rfl⟩, rfl⟩, ?_⟩
      rw [eq, Nat.zero_add]

theorem leaves_done {u : State} {len : Nat} {st : BitVec 3} (same : ∀ u, u ∈ all ↔ u ∈ uses)
    (pending : u.cur.board = s.cur.board ∧ u.cur.vecTill = vec) (late : Lates results lat ls) :
    OnBoard s uses results lat st.toNat vec (retire s len st (Body.after all (.done u ls))).cur := by
  have moved := sequential_pending (u.cur.settled all) s.cur.pc len (spanExt { u with cur := u.cur.settled all })
  refine leaves_issued same ⟨moved.1.trans ?_, moved.2.trans pending.2⟩ late
  unfold Ctx.settled
  rw [pending.1]

theorem leaves_jump {u : State} {len : Nat} {st : BitVec 3} {target : Word} {call : Bool} (same : ∀ u, u ∈ all ↔ u ∈ uses)
    (pending : u.cur.board = s.cur.board ∧ u.cur.vecTill = vec) (late : Lates results lat []) :
    OnBoard s uses results lat st.toNat vec (retire s len st (Body.after all (.jump u target call))).cur := by
  have moved := jumped_pending (u.cur.settled all) s.cur.pc target call (spanExt { u with cur := u.cur.settled all })
  refine leaves_issued same ⟨moved.1.trans ?_, moved.2.trans pending.2⟩ late
  unfold Ctx.settled
  rw [pending.1]

theorem short_congr (same : ∀ u, u ∈ all ↔ u ∈ uses) : Short s all ↔ Short s uses := by simp only [Short, same]

theorem issue_free {kinds : List Nat} (any : kinds.contains (kindOf s.who) = true) (free : ¬Short s all) {len : Nat} {st : BitVec 3}
    {body : State → Body} : issue s kinds len st all body = .next (retire s len st ((body s).after all)) := by
  rw [issue, any, shortStop_free free]
  rfl

theorem wr_pending (s : State) (r : BitVec 5) (x : Word) : (wr s r x).cur.board = s.cur.board ∧ (wr s r x).cur.vecTill = s.cur.vecTill := by
  unfold wr Ctx.wr
  split <;> exact ⟨rfl, rfl⟩

/-- An instruction that completes, with results that take longer. -/
theorem leaves_of_done {kinds : List Nat} (core : kindOf s.who = 0) (any : kinds.contains 0 = true) {len : Nat} {st : BitVec 3}
    {body : State → Body} {u : State} (same : ∀ u, u ∈ all ↔ u ∈ uses) (done : body s = .done u ls)
    (pending : u.cur.board = s.cur.board ∧ u.cur.vecTill = vec) (late : Lates results lat ls) :
    LeavesPending s uses results lat st.toNat vec (issue s kinds len st all body) := by
  intro free
  refine ⟨_, issue_free (by rw [core]; exact any) (fun h => free ((short_congr same).1 h)), ?_⟩
  rw [done]
  exact leaves_done same pending late

/-- One that jumps. -/
theorem leaves_of_jump {kinds : List Nat} (core : kindOf s.who = 0) (any : kinds.contains 0 = true) {len : Nat} {st : BitVec 3}
    {body : State → Body} {u : State} {target : Word} {call : Bool} (same : ∀ u, u ∈ all ↔ u ∈ uses) (jump : body s = .jump u target call)
    (pending : u.cur.board = s.cur.board ∧ u.cur.vecTill = vec) (late : Lates results lat []) :
    LeavesPending s uses results lat st.toNat vec (issue s kinds len st all body) := by
  intro free
  refine ⟨_, issue_free (by rw [core]; exact any) (fun h => free ((short_congr same).1 h)), ?_⟩
  rw [jump]
  exact leaves_jump same pending late

/-- A block instruction whose effect beside its registers leaves the scoreboard alone. -/
theorem leaves_of_vissue (core : kindOf s.who = 0) {st : BitVec 3} {bad : Bool} {x : Access} {pr pw : List RegUse} {n m l0 : Nat}
    {f : Ctx → (BitVec 6 → VReg) → List (BitVec 6 × VReg) × (Ctx → Ctx)} (size : n = m) (good : bad = false) (way : wrongWay s.cur x = false)
    (streams : streamCheck s.cur x = none) (idle : datapathBusy s = false) (same : ∀ u, u ∈ x.uses (pr ++ pw) ↔ u ∈ uses)
    (beside : ∀ c, SamePending c ((f s.cur (readV s.cur)).2 c))
    (late : ∀ lat, Lates results lat ((x.writes.flatMap fun v => late 1 v.toNat lat) ++ pw.flatMap fun p => late 2 p.2 lat)) :
    LeavesPending s uses results (l0 + (m + 7) / 8 - 1) st.toNat (cycleNow s + (m + 7) / 8) (vissue s st bad x pr pw n l0 f) := by
  subst size
  intro free
  have none : shortStop s (x.uses (pr ++ pw)) = .none := shortStop_free fun h => free ((short_congr same).1 h)
  rw [vissue, if_neg (by simp [core]), good, way, if_neg (by decide), none]
  dsimp only
  rw [streams]
  dsimp only
  rw [idle, if_neg Bool.false_ne_true]
  refine ⟨_, rfl, leaves_done same ⟨?_, rfl⟩ (late _)⟩
  have written := foldl_sameScalars (fun c w => writeV c w.1 w.2) (fun c w => writeV_sameScalars c w.1 w.2)
    (f s.cur (readV s.cur)).1 (popAll s.cur x.reads)
  exact (SamePending.trans ((popAll_sameScalars s.cur x.reads).trans written).pending (beside _)).1

end

/-- A row of the table of blocks (R233): instruction, condition, access, predicates, results, registers and latency. -/
abbrev BlockRow := Instr × Prop × Access × List RegUse × List RegUse × Nat × Nat

/-- What the block of such a row leaves. -/
def BlockLeaves (s : State) (st : BitVec 3) (r : BlockRow) : Prop :=
  r.2.1 → wrongWay s.cur r.2.2.1 = false → streamCheck s.cur r.2.2.1 = none → datapathBusy s = false →
    LeavesPending s ((r.2.2.1.reads ++ r.2.2.1.writes).map useV ++ r.2.2.2.1) r.2.2.2.2.1
      (r.2.2.2.2.2.2 + (r.2.2.2.2.2.1 + 7) / 8 - 1) st.toNat (cycleNow s + (r.2.2.2.2.2.1 + 7) / 8) (exec r.1 s)

theorem lates_block (l : List (BitVec 6)) (lat : Nat) :
    Lates (l.map useV) lat ((l.flatMap fun v => late 1 v.toNat lat) ++ ([] : List RegUse).flatMap fun p => late 2 p.2 lat) := by
  rw [List.flatMap_nil, List.append_nil]
  exact lates_flatMap l useV lat

theorem lates_predicates (c : Ctx) (n lat : Nat) :
    Lates (predUses c n) lat ((([] : List (BitVec 6)).flatMap fun v => late 1 v.toNat lat) ++ (predUses c n).flatMap fun p => late 2 p.2 lat) := by
  rw [List.flatMap_nil, List.nil_append, predUses, List.flatMap_map]
  exact lates_flatMap (List.range n) (fun k => (2, vPred c + k)) lat

theorem pw_pending (c : Ctx) (p : BitVec 3) (m : BitVec 32) : (c.pw p m).board = c.board ∧ (c.pw p m).vecTill = c.vecTill := by
  unfold Ctx.pw
  split <;> exact ⟨rfl, rfl⟩

theorem foldl_pending {β : Type} (f : Ctx → β → Ctx) (h : ∀ c x, SamePending c (f c x)) (l : List β) (c : Ctx) :
    SamePending c (l.foldl f c) := by
  induction l generalizing c with
  | nil => exact .refl c
  | cons x t ih => exact (h c x).trans (ih _)

theorem branch_leaves {s : State} (core : kindOf s.who = 0) {n : Nat} {c : Word → Word → Bool} {len : Nat} {a b : BitVec 5} {o : BitVec n}
    {st : BitVec 3} {uses results : List RegUse} (same : ∀ u, u ∈ [useS a, useS b] ↔ u ∈ uses) :
    LeavesPending s uses results 0 st.toNat s.cur.vecTill (branch c len a b o st s) := by
  unfold branch
  cases taken : c (rd s a) (rd s b) with
  | true => exact leaves_of_jump core rfl same (if_pos taken) ⟨rfl, rfl⟩ (lates_zero _)
  | false => exact leaves_of_done core rfl same (if_neg (Bool.eq_false_iff.1 taken)) ⟨rfl, rfl⟩ (lates_zero _)

/-- A `role`: a skipped span counts as one instruction without stall count, an executed one as none. -/
theorem role_leaves {s : State} (core : kindOf s.who = 0) {k : BitVec 4} {m : BitVec 8} {run : List Nat} {s1 : State}
    (fetched : spanRun s s.cur.pc (k.toNat + 1) = (run, none, s1)) (same : s1.cur = s.cur) (named : m ≠ 0) (valid : badSpan true run = false) :
    (inMask s m = false → LeavesPending s [] [] 0 0 s.cur.vecTill (execRole k m s)) ∧
    (inMask s m = true → ∃ t, execRole k m s = .next t ∧ t.cur.board = s.cur.board ∧ t.cur.busyTill = s.cur.busyTill) := by
  have any : anyAgent.contains (kindOf s.who) = true := by rw [core]; rfl
  have free : ¬Short s [] := fun ⟨_, _, h, _⟩ => absurd h List.not_mem_nil
  have noRefusal : ¬((decide (m = 0) || badSpan (none : Option FetchStop).isNone run) = true) := by
    rw [decide_eq_false named, show badSpan (none : Option FetchStop).isNone run = false from valid]
    decide
  have e : execRole k m s = .next (retire s (2 + 2 * (k.toNat + 1)) 0 (Body.after [] (if inMask s m = true then
      .keep { s1 with cur := { noteSpan s1.cur s.cur.pc (k.toNat + 1) with
        pc := s.cur.pc + 2, span := k.toNat + 1, spanAt := s.cur.pc, spanCode := run, wait := .ready } } else .done s1 []))) := by
    unfold execRole
    dsimp only
    rw [issue_free any free, fetched]
    dsimp only
    rw [if_neg noRefusal]
  refine ⟨fun out _ => ?_, fun member => ?_⟩
  · rw [e, out, if_neg Bool.false_ne_true]
    exact ⟨_, rfl, leaves_done (st := 0) (fun _ => Iff.rfl) (by rw [same]; exact ⟨rfl, rfl⟩) (lates_zero _)⟩
  · rw [e, member, if_pos rfl]
    obtain ⟨⟨board, -⟩, busy⟩ := noteSpan_pending s1.cur s.cur.pc (k.toNat + 1)
    exact ⟨_, rfl, (congrArg Ctx.board (settled_nil _)).trans (board.trans (congrArg Ctx.board same)), busy.trans (congrArg Ctx.busyTill same)⟩

theorem mem_uses_iff {x : Access} {preds : List RegUse} (u : RegUse) : u ∈ x.uses (preds ++ []) ↔ u ∈ (x.reads ++ x.writes).map useV ++ preds := by
  rw [Access.uses, List.append_nil]

theorem vblock_leaves {s : State} (core : kindOf s.who = 0) {ok : Nat → Bool} {extra : Ctx → Bool} {role : Role} {l0 : Nat → Nat}
    {f : Ctx → VReg → VReg → VReg} {d a : BitVec 6} {h w st : BitVec 3} {x : Access} {lat : Nat} (takes : ok (vET s.cur) = true)
    (allowed : extra s.cur = false)
    (access : x = ⟨blockRegs a (h.toNat + 1) (w.toNat + 1) ++ (if role = .rw then blockRegs d (h.toNat + 1) (w.toNat + 1) else []),
      blockRegs d (h.toNat + 1) (w.toNat + 1)⟩) (latency : l0 (vET s.cur) = lat)
    (way : wrongWay s.cur x = false) (streams : streamCheck s.cur x = none) (idle : datapathBusy s = false) :
    let m := (h.toNat + 1) * (w.toNat + 1)
    LeavesPending s ((x.reads ++ x.writes).map useV ++ []) ((blockRegs d (h.toNat + 1) (w.toNat + 1)).map useV) (lat + (m + 7) / 8 - 1) st.toNat
      (cycleNow s + (m + 7) / 8) (vblock ok extra role l0 f d a h w st s) := by
  subst access latency
  unfold vblock
  dsimp only
  exact leaves_of_vissue core (blockRegs_length d _ _) (by rw [takes, allowed]; rfl) way streams idle mem_uses_iff
    (fun _ => .refl _) (lates_block _)

theorem vfused_leaves {s : State} (core : kindOf s.who = 0) {ok : Nat → Bool} {l0 : Nat} {f : Nat → Nat → Nat → Nat → Nat}
    {d a b : BitVec 6} {w h : BitVec 2} {st : BitVec 3} (takes : ok (vET s.cur) = true) :
    let ds := blockRegs d (2 ^ h.toNat) (2 ^ w.toNat)
    let x : Access := ⟨blockRegs a (2 ^ h.toNat) (2 ^ w.toNat) ++ [b] ++ ds, ds⟩
    let m := 2 ^ h.toNat * 2 ^ w.toNat
    wrongWay s.cur x = false → streamCheck s.cur x = none → datapathBusy s = false →
      LeavesPending s ((x.reads ++ x.writes).map useV ++ []) (ds.map useV) (l0 + (m + 7) / 8 - 1) st.toNat
        (cycleNow s + (m + 7) / 8) (vfused ok l0 f d a b w h st s) := by
  intro ds x m way streams idle
  unfold vfused
  dsimp only
  exact leaves_of_vissue core (blockRegs_length d _ _) (by rw [takes]; rfl) way streams idle mem_uses_iff (fun _ => .refl _) (lates_block _)

/-- Settles O29: each row issues, completes and leaves the results of its table, and `role` is one that waits for nothing. -/
theorem scoreboard : Obligations.Scoreboard := by
  unfold Obligations.Scoreboard
  intro s d a b u v y p q i g w2 h2 h w st core S V n us vs n2 us2 vs2 t p0 ps IF src cnt vc uc leaves
  have three {d a b : BitVec 5} (x : RegUse) : x ∈ [useS a, useS b, useS d] ↔ x ∈ [S d, S a, S b] := by
    simp only [useS, S, List.mem_cons, List.not_mem_nil, or_false]; tauto
  have two {d a : BitVec 5} (x : RegUse) : x ∈ [useS a, useS d] ↔ x ∈ [S d, S a] := by
    simp only [useS, S, List.mem_cons, List.not_mem_nil, or_false]; tauto
  refine ⟨?_, ?_, ?_, ?_, fun k m run s1 fetched same named valid => role_leaves core fetched same named valid⟩
  · show ∀ r : Instr × List RegUse × Nat, r ∈ _ → LeavesPending s r.2.1 [S d] r.2.2 st.toNat s.cur.vecTill (exec r.1 s)
    simp only [List.forall_mem_cons]
    dsimp only [exec, execAdd, execCmpLt, execSel, execMov, execClz, execAddi, execLim, execBdep, execBxtr, execMul, execMulh, execDiv,
      execRem, execJal, execJr, execBrEq, alu3, alu2, jumpLink]
    refine ⟨?_, ?_, ?_, ?_, ?_, ?_, ?_, ?_, ?_, ?_, ?_, ?_, ?_, ?_, ?_, ?_, fun _ h => absurd h List.not_mem_nil⟩
    · exact leaves_of_done core rfl three rfl (wr_pending s d _) (lates_one 0 d.toNat 0)
    · exact leaves_of_done core rfl three rfl (wr_pending s d _) (lates_one 0 d.toNat 0)
    · exact leaves_of_done core rfl three rfl (wr_pending s d _) (lates_zero _)
    · exact leaves_of_done core rfl two rfl (wr_pending s d _) (lates_zero _)
    · exact leaves_of_done core rfl two rfl (wr_pending s d _) (lates_zero _)
    · exact leaves_of_done core rfl two rfl (wr_pending s d _) (lates_zero _)
    · exact leaves_of_done core rfl (fun _ => Iff.rfl) rfl (wr_pending s d _) (lates_zero _)
    iterate 6 · exact leaves_of_done core rfl three rfl (wr_pending s d _) (lates_one 0 d.toNat _)
    · exact leaves_of_jump core rfl (fun _ => Iff.rfl) rfl (wr_pending s d _) (lates_zero _)
    · exact leaves_of_jump core rfl (fun _ => Iff.rfl) rfl (wr_pending s d _) (lates_zero _)
    · exact branch_leaves core fun _ => Iff.rfl
  · dsimp only [exec, execCAdd, alu3, leaves]
    exact leaves_of_done core rfl (fun x => by simp only [useS, S, List.mem_cons, List.not_mem_nil, or_false]; tauto) rfl (wr_pending s d _) (lates_none _)
  · show ∀ r ∈ _, LeavesPending s [(2, p.toNat), (2, q.toNat)] [] 0 st.toNat s.cur.vecTill (exec r s)
    simp only [List.forall_mem_cons]
    dsimp only [exec, execPand, execPor, execPnot, predOp]
    refine ⟨?_, ?_, ?_, fun _ h => absurd h List.not_mem_nil⟩
    iterate 3 exact leaves_of_done core rfl (fun _ => Iff.rfl) rfl (pw_pending s.cur p _) (lates_none _)
  · show ∀ r : BlockRow, r ∈ _ → BlockLeaves s st r
    simp only [List.forall_mem_cons]
    dsimp only [BlockLeaves, exec, execVmov, execVand, execVsel, execVperm, execVbcast, execVadd, execVmax, execVneg, execVshl, execVcmp,
      execVcvt, execVmul, execVfma, execCmul, execCfma, execVbfly, execVred, vpair, vbits]
    have regs : us.length = n := blockRegs_length u _ _
    have preds : predUses s.cur us.length = ps n := by rw [regs]; rfl
    have low (fits : p0 + n ≤ 8) : ¬7 < vPred s.cur + us.length - 1 := by rw [regs]; show ¬7 < p0 + n - 1; omega
    have write : (⟨vs, us⟩ : Access) = ⟨vs ++ (if Role.w = Role.rw then us else []), us⟩ := by
      rw [if_neg (by decide), List.append_nil]
    refine ⟨?_, ?_, ?_, ?_, ?_, ?_, ?_, ?_, ?_, ?_, ?_, ?_, ?_, ?_, ?_, ?_, ?_, fun _ h => absurd h List.not_mem_nil⟩
    · exact fun good => vblock_leaves core rfl rfl write rfl
    · exact fun good => vblock_leaves core rfl rfl rfl rfl
    · exact fun fits way streams idle => leaves_of_vissue core (blockRegs_length u _ _) (decide_eq_false (low fits)) way streams idle
        (fun x => by rw [← preds]; exact mem_uses_iff x) (fun _ => .refl _) (lates_block us)
    · exact fun good => vblock_leaves core good.1 (by rw [good.2]; rfl) write rfl
    · exact fun good => vblock_leaves core good.1 (decide_eq_false (not_le.2 good.2)) write rfl
    · exact fun good => vblock_leaves core good rfl rfl rfl
    · exact fun good => vblock_leaves core good rfl rfl rfl
    · exact fun good => vblock_leaves core good rfl write rfl
    · intro good
      have one : latIF (vET s.cur) = 1 := if_neg fun float => by
        have int : classOf (vET s.cur) = .int := of_decide_eq_true good
        rw [int] at float
        exact absurd float (by decide)
      exact vblock_leaves core good rfl rfl one
    · intro good way streams idle
      obtain ⟨takes, condition, fits⟩ := good
      refine leaves_of_vissue core (blockRegs_length u _ _) ?_ way streams idle (fun x => by rw [← preds]; exact Iff.rfl) (fun c => ?_)
        (by rw [← preds]; exact fun lat => lates_predicates s.cur us.length lat)
      · rw [show realTy (vET s.cur) = true from takes, decide_eq_false condition, decide_eq_false (low fits)]
        rfl
      · exact foldl_pending _ (fun c k => pw_pending c _ _) _ c
    · exact fun good way streams idle => leaves_of_vissue core rfl (by rw [show cvtOk (vSRC s.cur) (vET s.cur) = true from good]; rfl) way streams idle mem_uses_iff
        (fun c => .ite ⟨rfl, rfl⟩ (.refl c)) (lates_block uc)
    · exact fun good => vblock_leaves core good rfl rfl rfl
    · exact fun good => vfused_leaves core good
    · exact fun good => vblock_leaves core good rfl rfl rfl
    · exact fun good => vfused_leaves core good
    · exact fun good => vblock_leaves core good.1 (decide_eq_false (not_le.2 good.2)) rfl rfl
    · exact fun good => vblock_leaves core good.1 (decide_eq_false good.2) write rfl

end Sys2Proof.Proofs

/-! SUPPORT. Proofs: fences and `tlbinv` (R124 to R126, R355). -/

namespace Sys2Proof.Proofs

open Sys2Proof Sys2Proof.Machine Sys2Proof.Laws

/-- A fence reports a failed store, waits while it is blocked, and else completes. -/
theorem fence_form {i : Instr} {s u : State} {st : BitVec 3} {blocked : Bool} {body : State → Body} (calm : Calm [0] s)
    (e : exec i s = storeFailFirst s fun s => issue s coreOnly 4 st [] body)
    (here : body s = if blocked then .wait s .stalled else .done u []) :
    (bits s.cur.sterr 63 63 = 1 → HasHandler s → Traps i s 0x12 7 0 0) ∧ (¬bits s.cur.sterr 63 63 = 1 → blocked = false → Completes i s u 4) ∧
    (¬bits s.cur.sterr 63 63 = 1 → blocked = true → Stalls i s) := by
  have calm' : Calm coreOnly s := calm
  have passes (ok : ¬bits s.cur.sterr 63 63 = 1) : exec i s = .next (retire s 4 st (Body.after [] (if blocked then .wait s .stalled else .done u []))) := by
    rw [e, storeFailFirst, if_neg fun h => ok h.1, issue_calm calm', here]
  refine ⟨fun failed handler => storeFailFirst_traps e failed (kindOf_of_calm calm) handler, fun ok free => ?_, fun ok stuck => ?_⟩
  · have done := passes ok
    rw [free, if_neg Bool.false_ne_true] at done
    exact completes_of_done done
  · have waits := passes ok
    rw [stuck, if_pos rfl] at waits
    exact stalls_of_wait waits

/-- Settles O31: each fence is such a form. -/
theorem fenceForms : Obligations.FenceForms := by
  unfold Obligations.FenceForms
  intro s c st calm failed
  have calm' : Calm coreOnly s := calm
  refine ⟨completes_of_done (issue_calm calm' 4 st [] fun s => .done s []), ?_, fun acked => ?_⟩
  · simp only [List.forall_mem_cons]
    have full : exec (.fenceFull c st) s = execFenceFull c st s := rfl
    have rel : exec (.fenceRel c st) s = execFenceRel c st s := rfl
    have ack : exec (.fenceAck st) s = execFenceAck st s := rfl
    exact ⟨fence_form calm full rfl, fence_form calm rel rfl, fence_form calm ack rfl, fun _ h => absurd h List.not_mem_nil⟩
  · have e : exec (.fenceI st) s = execFenceI st s := rfl
    rw [execFenceI, issue_calm calm', acked, if_neg Bool.false_ne_true] at e
    exact completes_of_done e

/-- An agent of kind 0 among the engine members' keys: it is no context, and system software by its own register alone. -/
def keyless : State := { State.reset with who := 32768, cur := { tstatus := 2 } }

theorem keyless_calm : Calm [0] keyless := ⟨by decide, fun _ h => absurd h List.not_mem_nil⟩

theorem keyless_denied : exec (.tlbinvAll 0 0) keyless = .next (raise keyless { code := 0x0D }) := rfl

/-- Refutes O32: of an agent whose key names an engine member of kind 0, `tlbinv` reads the status of core 3's low context, not its own
register, so that kind 2 traps with the register's SYS bit set. -/
theorem not_tlbInvalidate : ¬Obligations.TlbInvalidate := by
  unfold Obligations.TlbInvalidate
  intro h
  obtain ⟨-, -, -, -, -, all, -⟩ := h keyless 0 0 keyless_calm
  obtain ⟨t, e, -, -, -, place⟩ := (all (by decide)).1 (by decide)
  rw [keyless_denied] at e
  cases e
  exact absurd (place ⟨by decide, by decide⟩).1 (by decide)

end Sys2Proof.Proofs

/-! SUPPORT. Proofs: task and barrier instructions (R278 to R286). -/

namespace Sys2Proof.Proofs

open Sys2Proof Sys2Proof.Machine Sys2Proof.Laws

/-! ### An instruction of a core alone, by what its own effect comes to -/

section
variable {i : Instr} {s u : State} {len : Nat} {st : BitVec 3} {uses : List RegUse} {body : State → Body}

theorem core_completes {ls : List Pending} (calm : Calm [0] s) (e : exec i s = issue s coreOnly len st uses body) (b : body s = .done u ls) :
    Completes i s u len := by
  have calm : Calm coreOnly s := calm
  rw [issue_calm calm, b] at e
  exact completes_of_done e

theorem core_stalls (calm : Calm [0] s) (e : exec i s = issue s coreOnly len st uses body) (b : body s = .wait s .stalled) : Stalls i s := by
  have calm : Calm coreOnly s := calm
  rw [issue_calm calm, b] at e
  exact stalls_of_wait e

theorem core_keeps (calm : Calm [0] s) (e : exec i s = issue s coreOnly len st uses body) (b : body s = .keep u) :
    exec i s = .next { u with cur := u.cur.settled uses } := by
  have calm : Calm coreOnly s := calm
  rw [e, issue_calm calm, b]
  rfl

/-- A trap that no access raised. -/
theorem core_traps {code : Nat} (calm : Calm [0] s) (hh : HasHandler s) (e : exec i s = issue s coreOnly len st uses body)
    (b : body s = .trap { code := code }) (other : code ≠ 0x08 ∧ code ≠ 0x09 ∧ code ≠ 0x100) : Traps i s code 7 0 0 := by
  have calm : Calm coreOnly s := calm
  rw [issue_calm calm, b] at e
  exact traps_of_trap (t := { code := code }) hh (refreshTlb_other s (Nat.le_succ 6) rfl) other e

end

/-! ### Tasks -/

theorem endTask_alone {s : State} (team : teamOf s s.who = none) :
    endTask s = { s with cur := { s.cur with run := .idle, wait := .ready, span := 0, pagerTask := false } } := by
  have team' : teamOf { s with cur := { s.cur with run := .idle, wait := .ready, span := 0, pagerTask := false } } s.who = none := team
  unfold endTask
  dsimp only
  rw [team']

/-- Settles O34: each branch of each body, as its condition says. -/
theorem taskForms : Obligations.TaskForms := by
  unfold Obligations.TaskForms
  intro s a b st calm core x cls n rs ry cid at1 k u
  have ended : exec (.taskEnd st) s = execTaskEnd st s := rfl
  have spawn : exec (.spawn a b st) s = execSpawn a b st s := rfl
  have yields : exec (.yield a st) s = execYield a st s := rfl
  have arms : exec (.cntInit a b st) s = execCntInit a b st s := rfl
  have phases : exec (.phase a st) s = execPhase a st s := rfl
  have passes (alone : myTeam s = none) (zero : bits x 63 8 = 0) :
      ¬(((myTeam s).isSome || decide (bits (rd s a) 63 8 ≠ 0)) = true) := by
    rw [alone, show bits (rd s a) 63 8 = 0 from zero]
    decide
  refine ⟨fun alone => ?_, fun member hh => ?_, fun zero => ?_, fun zero alone idle => ?_, fun zero alone work => ?_, fun zero some less => ?_,
    fun bad hh => ?_, fun zero => ?_, fun bad hh => ⟨?_, ?_, ?_⟩⟩
  · have free : (myTeam s).isSome = false := by rw [myTeam, alone]; rfl
    have quiet : endTask { s with cur := s.cur.issued (cycleNow s) st.toNat [] } = _ := endTask_alone alone
    rw [core_keeps calm ended (if_neg (Bool.eq_false_iff.1 free)), quiet, settled_nil]
  · exact core_traps calm hh ended (if_pos member) (by decide)
  · refine core_completes calm spawn (ls := []) ?_
    dsimp only
    rw [if_neg (not_not.2 zero)]
    split
    · rfl
    · rfl
  · refine core_completes calm yields (ls := []) ?_
    dsimp only
    rw [if_neg (passes alone zero), if_pos (by rw [idle]; rfl)]
  · have busy : ¬(nextChoice s s.who false).isNone = true := by
      rw [Option.isNone_iff_eq_none]
      exact Option.isSome_iff_ne_none.1 work
    refine core_keeps calm yields ?_
    dsimp only
    rw [if_neg (passes alone zero), if_neg busy]
    rfl
  · have good : ¬((decide (bits x 31 17 ≠ 0) || decide (bits x 63 32 = 0) || decide (2 ^ 31 ≤ bits x 63 32)) = true) := by
      simp only [Bool.or_eq_true, decide_eq_true_eq]
      omega
    have name : counterLoc core cid = at1 := by
      have small : cid < 256 := Nat.mod_lt _ (by decide)
      rw [counterLoc, Nat.mod_eq_of_lt small]
    refine core_completes calm arms (ls := []) ?_
    dsimp only
    rw [if_neg good]
    rw [show counterLoc (coreOf s.who) (bits (rd s a) 7 0) = at1 from name]
  · refine core_traps calm hh arms (if_pos ?_) (by decide)
    simp only [Bool.or_eq_true, decide_eq_true_eq]
    exact or_assoc.2 bad
  · exact core_completes calm phases (if_neg (not_not.2 zero))
  · exact core_traps calm hh spawn (if_pos bad) (by decide)
  · exact core_traps calm hh yields (if_pos (by simp only [Bool.or_eq_true, decide_eq_true_eq]; exact .inr bad)) (by decide)
  · exact core_traps calm hh phases (if_pos bad) (by decide)

/-! ### Barriers -/

theorem toNat_of_bits_high (y : Word) {k : Nat} (low : k < 64) (h : bits y 63 k = 0) : y.toNat < 2 ^ k := by
  simp only [bits] at h
  have split : 2 ^ (63 + 1 - k) * 2 ^ k = 2 ^ 64 := by rw [← Nat.pow_add]; congr 1; omega
  have small : y.toNat / 2 ^ k < 2 ^ (63 + 1 - k) := by
    rw [Nat.div_lt_iff_lt_mul (Nat.two_pow_pos k), split]
    exact y.isLt
  rw [Nat.mod_eq_of_lt small, Nat.div_eq_zero_iff] at h
  exact h.resolve_left (Nat.two_pow_pos k).ne'

/-- Settles O35: each branch of each body, as its condition says. -/
theorem barrierForms : Obligations.BarrierForms := by
  unfold Obligations.BarrierForms
  intro s a b st calm core x y n
  have init : exec (.barInit a b st) s = execBarInit a b st s := rfl
  have arrive : exec (.barArrive a st) s = execBarArrive a st s := rfl
  have waits : exec (.barWait a b st) s = execBarWait a b st s := rfl
  have link : exec (.barLink a b st) s = execBarLink a b st s := rfl
  have named (h : bits x 63 30 = 0) (k : bits x 15 11 = 0) : ¬((decide (bits x 63 30 ≠ 0) || decide (bits x 15 11 ≠ 0)) = true) := by
    rw [h, k]; decide
  have linked (h : bits x 63 11 = 0) (k : bits y 63 32 = 0) (l : bits y 15 11 = 0) :
      ¬((decide (bits x 63 11 ≠ 0) || decide (bits y 63 32 ≠ 0) || decide (bits y 15 11 ≠ 0)) = true) := by
    rw [h, k, l]; decide
  have awaited (hx : bits x 63 11 = 0) (hy : bits y 63 1 = 0) : ¬((decide (bits x 63 11 ≠ 0) || decide (bits y 63 1 ≠ 0)) = true) := by
    rw [hx, hy]; decide
  have condition (hy : bits y 63 1 = 0) : decide (bits y 0 0 = 1) = decide (y = 1) := by
    have lt := toNat_of_bits_high y (by decide) hy
    have one : bits y 0 0 = 1 ↔ y = 1 := by
      rw [← BitVec.toNat_inj]
      simp only [bits, show (1 : Word).toNat = 1 from rfl]
      omega
    exact decide_eq_decide.2 one
  refine ⟨fun hx hy small => ?_, fun hx hb mine free => ?_, fun hx hb other hh => ?_, fun hx hy => ⟨fun differs => ?_, fun same => ?_⟩,
    fun hh => ⟨fun bad => ?_, fun bad => ?_, fun bad => ?_, fun bad => ?_, fun hx hy hb valid other => ?_⟩, fun hx hb mine blocked => ?_,
    fun hx hy hb => ⟨fun clear => ?_, fun valid mine => ?_⟩⟩
  · have low : bits y 15 0 = y.toNat := by
      have lt := toNat_of_bits_high y (by decide) small
      simp only [bits, Nat.pow_zero, Nat.div_one]
      exact Nat.mod_eq_of_lt lt
    refine core_completes calm init (ls := []) ?_
    have good : ¬((decide (bits x 63 11 ≠ 0) || decide (y = 0) || decide (bits y 63 16 ≠ 0)) = true) := by
      rw [hx, decide_eq_false hy, small]; decide
    rw [if_neg good, show bits (rd s b) 15 0 = y.toNat from low]
  · refine core_completes calm arrive (ls := []) ?_
    dsimp only
    rw [if_neg (named hx hb), if_neg (by rw [show inMyRegion s (bits (rd s a) 29 16) = true from mine]; decide), free, if_neg Bool.false_ne_true]
    split
    · next here => rw [here]
    · rfl
  · refine core_traps calm hh arrive ?_ (by decide)
    dsimp only
    rw [if_neg (named hx hb), if_pos (by rw [show inMyRegion s (bits (rd s a) 29 16) = false from other]; rfl)]
  · refine core_completes calm waits (ls := []) ?_
    rw [if_neg (awaited hx hy), if_neg fun same => differs (same.trans (condition hy))]
  · refine core_stalls calm waits ?_
    rw [if_neg (awaited hx hy), if_pos (same.trans (condition hy).symm)]
  · exact core_traps calm hh init (if_pos (by simp only [Bool.or_eq_true, decide_eq_true_eq]; exact or_assoc.2 bad)) (by decide)
  · exact core_traps calm hh arrive (if_pos (by simp only [Bool.or_eq_true, decide_eq_true_eq]; exact bad)) (by decide)
  · exact core_traps calm hh waits (if_pos (by simp only [Bool.or_eq_true, decide_eq_true_eq]; exact bad)) (by decide)
  · exact core_traps calm hh link (if_pos (by simp only [Bool.or_eq_true, decide_eq_true_eq]; exact or_assoc.2 bad)) (by decide)
  · refine core_traps calm hh link ?_ (by decide)
    dsimp only
    rw [if_neg (linked hx hy hb), if_pos]
    rw [show bits (rd s b) 31 31 = 1 from valid, show inMyRegion s (bits (rd s b) 29 16) = false from other]
    rfl
  · refine core_stalls calm arrive ?_
    dsimp only
    rw [if_neg (named hx hb), if_neg (by rw [show inMyRegion s (bits (rd s a) 29 16) = true from mine]; decide), blocked, if_pos rfl]
  · refine core_completes calm link (ls := []) ?_
    dsimp only
    rw [if_neg (linked hx hy hb), show bits (rd s b) 31 31 = 0 from clear]
    rfl
  · refine core_completes calm link (ls := []) ?_
    dsimp only
    rw [if_neg (linked hx hy hb), show bits (rd s b) 31 31 = 1 from valid, show inMyRegion s (bits (rd s b) 29 16) = true from mine]
    rfl

end Sys2Proof.Proofs

/-! SUPPORT. Proofs: `wait`, `pf`, `pause` and `sleep` (R127 to R129, R287, R354). -/

namespace Sys2Proof.Proofs

open Sys2Proof Sys2Proof.Machine Sys2Proof.Laws

/-! ### One read of a `wait` -/

section
variable {s : State} {e b : Word} {c : BitVec 3} {z : BitVec 1} {st : BitVec 3} {l : Landing}

/-- What a `wait` does with a value, by its condition and by what the line's home is. -/
theorem waitBody_val {m : List Byte} (h : checkAccess s s.who e (if z = 1 then 8 else 4) 0 = .ok l)
    (val : loadBytes l.st s.who l (if z = 1 then 8 else 4) = .val m) :
    let n := if z = 1 then 8 else 4
    let s1 := countHot l.st l.loc (coreOf s.who) l.leaf
    waitBody e b c z st s = if waitCond c (8 * n) (fromBytes m) (b.toNat % 2 ^ (8 * n)) then .done s1 []
      else if homeAt s l.loc = some 24 || homeAt s l.loc = some 25 then .wait s1 (.poll (2 * s.stamp + 1024) e b c z st)
      else .wait { s1 with monitors := s1.monitors ++ [(lineAt s1 l.loc, s.who)] } (.monitor (lineAt s1 l.loc) false e b c z st) := by
  unfold waitBody
  dsimp only
  rw [h]
  dsimp only
  rw [val]

theorem waitBody_bad {k : Nat} (h : checkAccess s s.who e (if z = 1 then 8 else 4) 0 = .ok l)
    (bad : loadBytes l.st s.who l (if z = 1 then 8 else 4) = .bad k) :
    waitBody e b c z st s = .keep (raise (countHot l.st l.loc (coreOf s.who) l.leaf) { code := k, access := 0, va := vaOf s e }) := by
  unfold waitBody
  dsimp only
  rw [h]
  dsimp only
  rw [bad]

theorem waitBody_host (h : checkAccess s s.who e (if z = 1 then 8 else 4) 0 = .ok l)
    (host : loadBytes l.st s.who l (if z = 1 then 8 else 4) = .host) :
    waitBody e b c z st s = .wait (countHot l.st l.loc (coreOf s.who) l.leaf) (.poll (2 * s.stamp + 1024) e b c z st) := by
  unfold waitBody
  dsimp only
  rw [h]
  dsimp only
  rw [host]

end

/-! ### Hints -/

theorem hintLeaf_filled {s s1 : State} {core : Nat} {troot : Word} {va : VAddr} {e : TlbEntry}
    (h : hintLeaf s core troot va = some (e, s1)) : Filled s s1 := by
  unfold hintLeaf at h
  dsimp only at h
  split at h
  · cases h
    exact .refl s
  · split at h
    · cases h
      exact ⟨_, _, rfl⟩
    · split at h
      · cases h
        exact ⟨_, _, rfl⟩
      · exact absurd h nofun

/-- What `pf` does once its operand has issued. -/
def pfBody (a : BitVec 5) (k : BitVec 1) (s : State) : Body :=
  let va := vaOf s (rd s a)
  if isSliceVA va then .done s [] else
  if hintWaits s (coreOf s.who) s.cur.troot va then .wait s .stalled else
  match hintLeaf s (coreOf s.who) s.cur.troot va with
  | none => .done s []
  | some (e, s1) => .done (if k = 1 then countHot s1 (e.frame + va.toNat % 2 ^ e.log) (coreOf s.who) e.leaf else s1) []

section
variable {s : State} {a : BitVec 5} {k : BitVec 1}

theorem execPf_eq (st : BitVec 3) : execPf a k st s = issue s coreOnly 4 st [useS a] (pfBody a k) := rfl

theorem pfBody_none (main : isSliceVA (vaOf s (rd s a)) = false) (none : hintLeaf s (coreOf s.who) s.cur.troot (vaOf s (rd s a)) = .none) :
    pfBody a k s = .done s [] := by
  have ready : hintWaits s (coreOf s.who) s.cur.troot (vaOf s (rd s a)) = false := by
    rw [hintWaits, none]
    exact Bool.and_false _
  unfold pfBody
  dsimp only
  rw [main, ready, none]
  rfl

theorem pfBody_waits (main : isSliceVA (vaOf s (rd s a)) = false)
    (late : hintWaits s (coreOf s.who) s.cur.troot (vaOf s (rd s a)) = true) : pfBody a k s = .wait s .stalled := by
  unfold pfBody
  dsimp only
  rw [main, late]
  rfl

theorem pfBody_leaf {found : TlbEntry × State} (main : isSliceVA (vaOf s (rd s a)) = false)
    (ready : hintWaits s (coreOf s.who) s.cur.troot (vaOf s (rd s a)) = false)
    (leaf : hintLeaf s (coreOf s.who) s.cur.troot (vaOf s (rd s a)) = some found) :
    pfBody a k s = .done (if k = 1 then
      countHot found.2 (found.1.frame + (vaOf s (rd s a)).toNat % 2 ^ found.1.log) (coreOf s.who) found.1.leaf else found.2) [] := by
  unfold pfBody
  dsimp only
  rw [main, ready, leaf]
  rfl

theorem pf_touches {i : Instr} {st : BitVec 3} (calm : Calm [0] s) (hints : exec i s = issue s coreOnly 4 st [useS a] (pfBody a k))
    (ready : isSliceVA (vaOf s (rd s a)) = true ∨ hintWaits s (coreOf s.who) s.cur.troot (vaOf s (rd s a)) = false) :
    ∃ u, Completes i s u 4 ∧ u.cur = s.cur ∧ ∀ q, readByte u q = readByte s q := by
  cases slice : isSliceVA (vaOf s (rd s a)) with
  | true => exact ⟨s, core_completes (ls := []) calm hints (if_pos slice), rfl, fun _ => rfl⟩
  | false =>
    have ready := ready.resolve_left (by rw [slice]; decide)
    cases leaf : hintLeaf s (coreOf s.who) s.cur.troot (vaOf s (rd s a)) with
    | none => exact ⟨s, core_completes (ls := []) calm hints (pfBody_none slice leaf), rfl, fun _ => rfl⟩
    | some found =>
      have filled := hintLeaf_filled (e := found.1) (s1 := found.2) leaf
      have body := pfBody_leaf (k := k) slice ready leaf
      split at body
      · exact ⟨_, core_completes (ls := []) calm hints body, (countHot_seat _ _ _ _).2.1.trans filled.cur,
          readByte_sameBytes (filled.sameBytes.trans (countHot_sameBytes _ _ _ _))⟩
      · exact ⟨_, core_completes (ls := []) calm hints body, filled.cur, readByte_sameBytes filled.sameBytes⟩

end

/-- `pause` completes and is not ready for its cycles behind its own. -/
theorem pause_waits {s : State} {k : BitVec 6} {st : BitVec 3} (calm : Calm [0] s) :
    ∃ t, exec (.pause k st) s = .next t ∧ SameRest s t ∧ SameButPlace s.cur t.cur ∧
      t.cur.wait = .pause (cycleNow s + 1 + 16 * (k.toNat + 1)) ∧ (NoLoop s.cur → t.cur.pc = s.cur.pc + 4) := by
  have calm' : Calm coreOnly s := calm
  have pauses : exec (.pause k st) s = execPause k st s := rfl
  rw [execPause, issue_calm calm'] at pauses
  dsimp only at pauses
  rw [if_pos (kindOf_of_calm calm)] at pauses
  refine ⟨_, pauses, rfl, ?_, rfl, fun idle => ?_⟩
  · dsimp only [retire, Body.after]
    have placed := samePlace_trans (settled_place s.cur []) (sequential_place (s.cur.settled []) s.cur.pc 4
      (spanExt { s with cur := s.cur.settled [] }))
    generalize sequential (s.cur.settled []) s.cur.pc 4 (spanExt { s with cur := s.cur.settled [] }) = c at placed
    exact placed.trans rfl
  · dsimp only [retire, Body.after]
    rw [sequential_noLoop (c := s.cur.settled []) idle]
    rfl

/-- Settles O33: `wait` by what its line answers, `pf` by its leaf, and the branches of `pause` and `sleep`. -/
theorem waitForms : Obligations.WaitForms := by
  unfold Obligations.WaitForms
  refine ⟨fun s a b c z k st calm => ?_, fun s a w k st calm => ?_⟩
  · intro n
    have waits : exec (.wait a b c z st) s = execWait a b c z st s := rfl
    have hints : exec (.pf a k st) s = issue s coreOnly 4 st [useS a] (pfBody a k) := execPf_eq st
    have calm' : Calm coreOnly s := calm
    refine ⟨fun l m h val => ?_, fun hh l h => ?_, fun l h host => ?_, fun slice => ?_,
      fun main => ⟨fun none => ?_, fun late => ?_, fun e s1 ready leaf => ⟨fun zero => ?_, fun one => ?_⟩⟩, fun ready => ?_⟩
    · intro s1 holds
      have body := waitBody_val (b := rd s b) (c := c) (st := st) h val
      refine ⟨fun true => core_completes (ls := []) calm waits ?_, fun false near main => ?_, fun false away => ?_⟩
      · rw [body]
        exact if_pos true
      · rw [waits, execWait, issue_calm calm', body]
        dsimp only
        rw [if_neg (Bool.eq_false_iff.1 false), if_neg (by simp only [Bool.or_eq_true, decide_eq_true_eq]; exact not_or.2 ⟨near, main⟩)]
        rfl
      · rw [waits, execWait, issue_calm calm', body]
        dsimp only
        rw [if_neg (Bool.eq_false_iff.1 false), if_pos (by simp only [Bool.or_eq_true, decide_eq_true_eq]; exact away)]
        rfl
    · intro s1
      have seat := counted_seat h (coreOf s.who)
      have who : l.st.who = s.who := (checkAccess_filled h).who
      refine ⟨fun answer => ?_, fun answer => ?_⟩
      · have bad := (loadBytes_answer answer).1 rfl
        rw [who] at bad
        rw [execWait, issue_calm calm', waitBody_bad h bad] at waits
        exact trapsFrom_of_answer hh seat (.inl rfl) (by decide) waits
      · have bad := (loadBytes_answer answer).2 rfl
        rw [who] at bad
        rw [execWait, issue_calm calm', waitBody_bad h bad] at waits
        exact trapsFrom_of_answer hh seat (.inr rfl) (by decide) waits
    · rw [waits, execWait, issue_calm calm', waitBody_host h host]
      rfl
    · exact core_completes (ls := []) calm hints (if_pos slice)
    · exact core_completes (ls := []) calm hints (pfBody_none main none)
    · exact core_stalls calm hints (pfBody_waits main late)
    · exact core_completes (ls := []) calm hints ((pfBody_leaf main ready leaf).trans (by rw [if_neg (by rw [zero]; decide)]))
    · exact core_completes (ls := []) calm hints ((pfBody_leaf main ready leaf).trans (by rw [if_pos one]))
    · exact pf_touches calm hints ready
  · have sleeps : exec (.sleep a w st) s = execSleep a w st s := rfl
    have calm' : Calm coreOnly s := calm
    refine ⟨?_, fun none never hh => ?_, fun some wakes => ?_, fun some sleeping => ?_⟩
    · exact pause_waits calm
    · exact core_traps calm hh sleeps (if_pos ⟨none, never⟩) (by decide)
    · refine core_completes (ls := []) calm sleeps ?_
      rw [if_neg some, if_pos wakes]
    · rw [sleeps, execSleep, issue_calm calm', if_neg some, if_neg (Bool.eq_false_iff.1 sleeping)]
      rfl

end Sys2Proof.Proofs

/-! SUPPORT. Proofs: team instructions (R292 to R304). -/

namespace Sys2Proof.Proofs

open Sys2Proof Sys2Proof.Machine Sys2Proof.Laws

/-! ### An instruction of any agent, by what its own effect comes to -/

section
variable {i : Instr} {s u : State} {len : Nat} {st : BitVec 3} {kinds : List Nat} {uses : List RegUse} {body : State → Body}

theorem agent_completes {ls : List Pending} (calm : Calm kinds s) (e : exec i s = issue s kinds len st uses body) (b : body s = .done u ls) :
    Completes i s u len := by
  rw [issue_calm calm, b] at e
  exact completes_of_done e

theorem agent_waits {w : Wait} (calm : Calm kinds s) (e : exec i s = issue s kinds len st uses body) (b : body s = .wait u w) :
    exec i s = .next { u with cur := { u.cur with wait := w } } := by
  rw [e, issue_calm calm, b]
  rfl

theorem agent_traps {code : Nat} (calm : Calm kinds s) (hh : HasHandler s) (e : exec i s = issue s kinds len st uses body)
    (b : body s = .trap { code := code }) (other : code ≠ 0x08 ∧ code ≠ 0x09 ∧ code ≠ 0x100) : Traps i s code 7 0 0 := by
  rw [issue_calm calm, b] at e
  exact traps_of_trap (t := { code := code }) hh (refreshTlb_other s (Nat.le_succ 6) rfl) other e

/-- A trap of a state that the instruction has changed. -/
theorem agent_raises {code : Nat} (calm : Calm kinds s) (hh : HasHandler u) (e : exec i s = issue s kinds len st uses body)
    (b : body s = .keep (raise u { code := code })) (other : code ≠ 0x08 ∧ code ≠ 0x09 ∧ code ≠ 0x100) :
    exec i s = .next { u with cur := trapCtx u.cur code 7 0 0 } := by
  rw [e, issue_calm calm, b, raise_handler hh { code := code } (refreshTlb_other u (Nat.le_succ 6) rfl) other]
  rfl

end

theorem after_nil (b : Body) : b.after [] = b := by
  cases b <;> simp only [Body.after, settled_nil]

/-! ### The focus as a member -/

section
variable {s : State} {t : Team} {m : Member} {fault : Bool} {f : State → Team → Member → Body}

theorem teamOf_of_myTeam (member : myTeam s = some (t, m)) : teamOf s s.who = some t ∧ findMember t s.who = some m ∧ m.agent = s.who := by
  unfold myTeam at member
  split at member
  · exact absurd member nofun
  · next found =>
    split at member
    · next here =>
      split at member
      · exact absurd member nofun
      · cases member
        refine ⟨found, here, ?_⟩
        have := List.find?_some here
        simpa using this
    · exact absurd member nofun

theorem inTeam_outside (alone : myTeam s = none) : inTeam fault f s = .trap { code := 0x02 } := by
  unfold inTeam
  rw [alone]
  rfl

theorem inTeam_fault (member : myTeam s = some (t, m)) (lead : leadFault t s.who = true) :
    inTeam true f s = .keep (raise (putTeam s s.who (some (putMember t { m with atMark := false, realign := none }))) { code := 0x23 }) := by
  unfold inTeam
  rw [member]
  exact if_pos (by rw [lead]; rfl)

theorem inTeam_member (member : myTeam s = some (t, m)) (fine : leadFault t s.who = false) : inTeam fault f s = f s t m := by
  unfold inTeam
  rw [member]
  exact if_neg (by rw [fine, Bool.and_false]; decide)

end

/-! ### `hand` -/

/-! The receive by what its partner's buffer holds. -/

section
variable {s : State} {t : Team} {q : Nat} {b : BitVec 5} {sent : Bool}

theorem handReceive_takes (team : teamOf s s.who = some t) {e : HandBuf} (full : bufOf t q s.who = some e) (same : e.pc = s.cur.pc) :
    handReceive s q b sent =
      .done (setHsent (wr (putTeam s s.who (some { t with bufs := t.bufs.filter (· ≠ e) })) b e.value) false) [] := by
  unfold handReceive
  rw [team]
  dsimp only
  rw [full]
  exact if_neg (not_not.2 same)

theorem handReceive_waits (team : teamOf s s.who = some t) (empty : bufOf t q s.who = none)
    (live : (findMember t q).any (·.ended) = false) :
    handReceive s q b sent = .wait (if sent then setHsent s true else s) .stalled := by
  unfold handReceive
  rw [team]
  dsimp only
  rw [empty]
  exact if_neg (Bool.eq_false_iff.1 live)

/-- The partner has ended, or stands at another `hand` (R304). -/
theorem handReceive_stops (team : teamOf s s.who = some t)
    (stop : bufOf t q s.who = none ∧ (findMember t q).any (·.ended) = true ∨ ∃ e, bufOf t q s.who = some e ∧ e.pc ≠ s.cur.pc) :
    handReceive s q b sent = if sent then .keep (raise (setHsent s true) { code := 0x22 }) else .trap { code := 0x22 } := by
  unfold handReceive
  rw [team]
  dsimp only
  rcases stop with ⟨empty, ended⟩ | ⟨e, full, other⟩
  · rw [empty]
    exact if_pos ended
  · rw [full]
    exact if_pos other

end

/-- What a `hand` does once it has issued, by the member's partners in the two roles. -/
def handBody (a b : BitVec 5) (rcv snd : BitVec 3) (s : State) (t : Team) (m : Member) : Body :=
  let rs := rankOf t snd.toNat s.who
  let rr := rankOf t rcv.toNat s.who
  let tgt := rs.bind (withRank t rcv.toNat)
  let frm := rr.bind (withRank t snd.toNat)
  let sent := getHsent s m
  if (rs.isSome && tgt.isNone) || (rr.isSome && frm.isNone) then .trap illegalOperand
  else match tgt with
    | some p =>
      if sent then match frm with
        | some q => handReceive s q b true
        | none => .done (setHsent s false) []
      else if (bufOf t s.who p).isSome then .wait s .stalled
      else if pending s (asCtx s.who) isStoreOrSend && !isEngine s.who then .wait s .stalled
      else
        let s := putTeam s s.who (some { t with bufs := t.bufs ++ [{ snd := s.who, rcv := p, value := rd s a, pc := s.cur.pc }] })
        match frm with
        | some q => handReceive s q b true
        | none => .done s []
    | none => match frm with
      | some q => handReceive s q b false
      | none => .done (setHsent s false) []

theorem execHand_eq (a b : BitVec 5) (rcv snd st : BitVec 3) (s : State) :
    execHand a b rcv snd st s = issue s anyAgent 4 st [useS a, useS b] (inTeam true (handBody a b rcv snd)) := rfl

section
variable {s : State} {t : Team} {m : Member} {a b : BitVec 5} {rcv snd : BitVec 3}

/-- A role held without a partner. -/
theorem handBody_refuses
    (lone : rankOf t snd.toNat s.who ≠ none ∧ (rankOf t snd.toNat s.who).bind (withRank t rcv.toNat) = none ∨
      rankOf t rcv.toNat s.who ≠ none ∧ (rankOf t rcv.toNat s.who).bind (withRank t snd.toNat) = none) :
    handBody a b rcv snd s t m = .trap { code := 0x02 } := by
  refine if_pos ?_
  rcases lone with ⟨held, none⟩ | ⟨held, none⟩ <;>
    simp [Option.isSome_iff_ne_none, held, none]

variable (sender : rankOf t snd.toNat s.who = none ∨ (rankOf t snd.toNat s.who).bind (withRank t rcv.toNat) ≠ none)
  (receiver : rankOf t rcv.toNat s.who = none ∨ (rankOf t rcv.toNat s.who).bind (withRank t snd.toNat) ≠ none)
include sender receiver

theorem hand_partners : ¬(((rankOf t snd.toNat s.who).isSome && ((rankOf t snd.toNat s.who).bind (withRank t rcv.toNat)).isNone ||
    (rankOf t rcv.toNat s.who).isSome && ((rankOf t rcv.toNat s.who).bind (withRank t snd.toNat)).isNone) = true) := by
  simp only [Bool.or_eq_true, Bool.and_eq_true, Option.isSome_iff_ne_none, Option.isNone_iff_eq_none, ne_eq]
  tauto

/-- A receiver alone. -/
theorem handBody_receives {q : Nat} (none : (rankOf t snd.toNat s.who).bind (withRank t rcv.toNat) = .none)
    (some : (rankOf t rcv.toNat s.who).bind (withRank t snd.toNat) = .some q) : handBody a b rcv snd s t m = handReceive s q b false := by
  refine (if_neg (hand_partners sender receiver)).trans ?_
  rw [none]
  dsimp only
  rw [some]

/-- A member that holds neither role passes. -/
theorem handBody_passes (none : (rankOf t snd.toNat s.who).bind (withRank t rcv.toNat) = .none)
    (none' : (rankOf t rcv.toNat s.who).bind (withRank t snd.toNat) = .none) : handBody a b rcv snd s t m = .done (setHsent s false) [] := by
  refine (if_neg (hand_partners sender receiver)).trans ?_
  rw [none]
  dsimp only
  rw [none']

/-- A sender whose value stands in the buffer has only to receive. -/
theorem handBody_sent {p : Nat} (some : (rankOf t snd.toNat s.who).bind (withRank t rcv.toNat) = .some p) (sent : getHsent s m = true) :
    handBody a b rcv snd s t m = match (rankOf t rcv.toNat s.who).bind (withRank t snd.toNat) with
      | .some q => handReceive s q b true
      | .none => .done (setHsent s false) [] := by
  refine (if_neg (hand_partners sender receiver)).trans ?_
  rw [some]
  dsimp only
  rw [sent, if_pos rfl]

/-- A sender waits for its buffer and for the stores that its release covers. -/
theorem handBody_held {p : Nat} (some : (rankOf t snd.toNat s.who).bind (withRank t rcv.toNat) = .some p) (sent : getHsent s m = false)
    (held : (bufOf t s.who p).isSome = true ∨ isEngine s.who = false ∧ pending s (asCtx s.who) isStoreOrSend = true) :
    handBody a b rcv snd s t m = .wait s .stalled := by
  refine (if_neg (hand_partners sender receiver)).trans ?_
  rw [some]
  dsimp only
  rw [sent, if_neg Bool.false_ne_true]
  by_cases full : (bufOf t s.who p).isSome = true
  · exact if_pos full
  · obtain ⟨core, stores⟩ := held.resolve_left full
    rw [if_neg full, stores, core]
    rfl

/-- A sender whose buffer is free puts its value there. -/
theorem handBody_sends {p : Nat} (some : (rankOf t snd.toNat s.who).bind (withRank t rcv.toNat) = .some p) (sent : getHsent s m = false)
    (free : bufOf t s.who p = none) (released : isEngine s.who = true ∨ pending s (asCtx s.who) isStoreOrSend = false) :
    handBody a b rcv snd s t m =
      let u := putTeam s s.who (.some { t with bufs := t.bufs ++ [{ snd := s.who, rcv := p, value := rd s a, pc := s.cur.pc }] })
      match (rankOf t rcv.toNat s.who).bind (withRank t snd.toNat) with
      | .some q => handReceive u q b true
      | .none => .done u [] := by
  refine (if_neg (hand_partners sender receiver)).trans ?_
  have clear : ¬((pending s (asCtx s.who) isStoreOrSend && !isEngine s.who) = true) := by
    rcases released with engine | none
    · rw [engine, Bool.not_true, Bool.and_false]; decide
    · rw [none]; exact Bool.false_ne_true
  rw [some]
  dsimp only
  rw [sent, if_neg Bool.false_ne_true, free, if_neg (by decide), if_neg clear]

end

/-! ### Leaving the team -/

/-- The last member that leaves ends the team. -/
theorem leaveTeam_last {s : State} {t : Team} {m : Member} (named : m.agent = s.who)
    (alone : t.members.filter (fun o => o.agent ≠ s.who && !o.ended) = []) :
    leaveTeam s t m = putTeam { s with cur := { s.cur with run := .idle, wait := .ready, span := 0 } } s.who none := by
  have gone : (putMember t { m with ended := true, atMark := false, realign := none }).members.all (·.ended) = true := by
    simp only [putMember, List.all_map, List.all_eq_true]
    intro o ho
    have other := List.filter_eq_nil_iff.1 alone o ho
    dsimp only [Function.comp]
    split
    · rfl
    · next differs =>
      rw [named] at differs
      simpa [differs] using other
  unfold leaveTeam
  exact if_pos gone

theorem passMark_member {s : State} {t : Team} {m : Member} (team : teamOf s s.who = some t) (here : findMember t s.who = some m) (n : Nat) :
    passMark s n = .done (putTeam s s.who (some (putMember t { m with marks := n, atMark := false }))) [] := by
  unfold passMark
  rw [team]
  dsimp only
  rw [here]

theorem bits_setBits_hsent (x : Word) : bits (setBits x 2 2 1) 0 0 = bits x 0 0 := by
  have := x.isLt
  simp only [bits, setBits, BitVec.toNat_ofNat]
  omega

/-- HSENT of a core's context stands in its status. -/
theorem setHsent_core {s : State} (core : isEngine s.who = false) :
    setHsent s true = { s with cur := { s.cur with tstatus := setBits s.cur.tstatus 2 2 1 } } := by
  unfold setHsent
  exact if_neg (Bool.eq_false_iff.1 core)

/-- A `hand` that reports a fault with its own send standing keeps that in HSENT (R298). -/
theorem handReceive_faults {s : State} {t : Team} {q : Nat} {b : BitVec 5} (hh : HasHandler s) (team : teamOf s s.who = some t)
    (stop : bufOf t q s.who = none ∧ (findMember t q).any (·.ended) = true ∨ ∃ e, bufOf t q s.who = some e ∧ e.pc ≠ s.cur.pc) :
    handReceive s q b true = .keep { s with
      cur := trapCtx { s.cur with tstatus := setBits s.cur.tstatus 2 2 1 } 0x22 7 0 0 } := by
  obtain ⟨core, vector, outside⟩ := hh
  have hh' : HasHandler { s with cur := { s.cur with tstatus := setBits s.cur.tstatus 2 2 1 } } :=
    ⟨core, vector, (bits_setBits_hsent _).trans outside⟩
  rw [handReceive_stops team stop, if_pos rfl, setHsent_core core,
    raise_handler hh' { code := 0x22 } (refreshTlb_other _ (by decide) rfl) (by decide)]

/-- A member with both roles goes on to receive, its value in the buffer. -/
theorem handBody_exchanges {s u : State} {t t1 : Team} {m : Member} {a b : BitVec 5} {rcv snd : BitVec 3} {p q : Nat}
    (some : (rankOf t snd.toNat s.who).bind (withRank t rcv.toNat) = .some p)
    (some' : (rankOf t rcv.toNat s.who).bind (withRank t snd.toNat) = .some q)
    (ready : getHsent s m = true ∨ (bufOf t s.who p = none ∧
      (isEngine s.who = true ∨ pending s (asCtx s.who) isStoreOrSend = false)))
    (put : t1 = if getHsent s m then t else { t with bufs := t.bufs ++ [{ snd := s.who, rcv := p, value := rd s a, pc := s.cur.pc }] })
    (here : u = if getHsent s m then s else putTeam s s.who (.some t1)) : handBody a b rcv snd s t m = handReceive u q b true := by
  have sender : rankOf t snd.toNat s.who = none ∨ (rankOf t snd.toNat s.who).bind (withRank t rcv.toNat) ≠ none :=
    .inr (by rw [some]; exact Option.some_ne_none p)
  have receiver : rankOf t rcv.toNat s.who = none ∨ (rankOf t rcv.toNat s.who).bind (withRank t snd.toNat) ≠ none :=
    .inr (by rw [some']; exact Option.some_ne_none q)
  cases sent : getHsent s m with
  | true =>
    rw [sent, if_pos rfl] at here
    rw [handBody_sent sender receiver some sent, some', here]
  | false =>
    obtain ⟨free, released⟩ := ready.resolve_left (by rw [sent]; decide)
    rw [sent, if_neg Bool.false_ne_true] at here put
    rw [handBody_sends sender receiver some sent free released, some', here, put]

/-- A binding of cores names one that is no live member. -/
theorem bind_missing_iff {t : Team} {cl y : Nat} :
    ((List.range 64).any fun k => y.testBit k && !t.members.any fun m => decide (m.agent = 2 * (64 * cl + k)) && !m.ended) = true ↔
      ∃ k < 64, y.testBit k = true ∧ ∀ o ∈ t.members, o.agent = 2 * (64 * cl + k) → o.ended = true := by
  simp only [List.any_eq_true, List.mem_range, Bool.and_eq_true, Bool.not_eq_true', List.any_eq_false, decide_eq_true_eq, not_and,
    Bool.not_eq_false]

/-- Settles O36: each branch of each body, of a member and of an agent outside a team. -/
theorem teamForms : Obligations.TeamForms := by
  unfold Obligations.TeamForms
  refine ⟨fun s a b rcv snd d st calm hh alone => ?_, fun s t m a b rcv snd st calm hh member lead => ?_,
    fun s t m a b rcv snd st calm member fine => ?_, fun s t m a b rcv snd d st calm member fine => ?_⟩
  · have any : Calm anyAgent s := ⟨by rw [kindOf_of_calm calm]; rfl, calm.2⟩
    have out {i : Instr} {uses : List RegUse} {fault : Bool} {f : State → Team → Member → Body}
        (e : exec i s = issue s anyAgent 4 st uses (inTeam fault f)) : Traps i s 0x02 7 0 0 :=
      agent_traps any hh e (inTeam_outside alone) (by decide)
    simp only [List.forall_mem_cons]
    have e1 : exec (.teamBind a b st) s = execTeamBind a b st s := rfl
    have e2 : exec (.hand a b rcv snd st) s = execHand a b rcv snd st s := rfl
    have e3 : exec (.mark st) s = execMark st s := rfl
    have e4 : exec (.driftSet d st) s = execDriftSet d st s := rfl
    have e5 : exec (.realign st) s = execRealign st s := rfl
    have e6 : exec (.teamEnd st) s = execTeamEnd st s := rfl
    exact ⟨out e1, out e2, out e3, out e4, out e5, out e6, fun _ h => absurd h List.not_mem_nil⟩
  · intro u
    have any : Calm anyAgent s := ⟨by rw [kindOf_of_calm calm]; rfl, calm.2⟩
    have fault {i : Instr} {uses : List RegUse} {f : State → Team → Member → Body}
        (e : exec i s = issue s anyAgent 4 st uses (inTeam true f)) : exec i s = .next { u with cur := trapCtx s.cur 0x23 7 0 0 } :=
      agent_raises (u := u) any hh e (inTeam_fault member lead) (by decide)
    simp only [List.forall_mem_cons]
    have e1 : exec (.hand a b rcv snd st) s = execHand a b rcv snd st s := rfl
    have e2 : exec (.mark st) s = execMark st s := rfl
    have e3 : exec (.realign st) s = execRealign st s := rfl
    have e4 : exec (.teamEnd st) s = execTeamEnd st s := rfl
    exact ⟨fault e1, fault e2, fault e3, fault e4, fun _ h => absurd h List.not_mem_nil⟩
  · intro rs rr sent t1 u ready
    have any : Calm anyAgent s := calm
    obtain ⟨team, -, -⟩ := teamOf_of_myTeam member
    have hand : exec (.hand a b rcv snd st) s = issue s anyAgent 4 st [useS a, useS b] (inTeam true (handBody a b rcv snd)) := rfl
    have body : inTeam true (handBody a b rcv snd) s = handBody a b rcv snd s t m := inTeam_member member fine
    have seat : SameSeat s u := by
      show SameSeat s (if sent = true then s else putTeam s s.who (some t1))
      split
      · exact sameSeat_refl s
      · exact ⟨rfl, rfl, rfl⟩
    obtain ⟨who, cur, -⟩ := id seat
    have exchange {p q : Nat} (some : rs.bind (withRank t rcv.toNat) = .some p) (some' : rr.bind (withRank t snd.toNat) = .some q)
        (goes : ready) : handBody a b rcv snd s t m = handReceive u q b true := by
      refine handBody_exchanges (u := u) (t1 := t1) some some' (goes.imp id fun ⟨free, released⟩ => ⟨by rw [some] at free; exact free, released⟩) ?_ rfl
      show (if sent = true then t else _) = _
      rw [some]
      rfl
    have team1 : teamOf u u.who = .some t1 := by
      rw [who]
      show teamOf (if sent = true then s else putTeam s s.who (.some t1)) s.who = .some t1
      by_cases stands : sent = true
      · rw [if_pos stands]
        exact team.trans (congrArg Option.some (if_pos stands).symm)
      · rw [if_neg stands]
        exact teamOf_putTeam s s.who t1
    refine ⟨fun lone hh => ?_, fun none held stands => ?_, fun none q some => ⟨fun empty live => ?_, fun stop hh => ?_⟩,
      fun p some receiver fresh held => ?_, fun p q some some' goes => ⟨fun e full same => ?_, fun empty live => ?_, fun stop hh => ?_⟩⟩
    · exact agent_traps any hh hand (body.trans (handBody_refuses lone)) (by decide)
    · obtain ⟨p, some⟩ := Option.ne_none_iff_exists'.1 held
      have none' : rr.bind (withRank t snd.toNat) = .none := by rw [none]; rfl
      have passes := handBody_sent (a := a) (b := b) (.inr held) (.inl none) some stands
      rw [none'] at passes
      exact agent_completes (ls := []) any hand (body.trans passes)
    · have alone : rs.bind (withRank t rcv.toNat) = .none := by rw [none]; rfl
      have receives := handBody_receives (m := m) (a := a) (b := b) (.inl none) (.inr (by rw [some]; exact Option.some_ne_none q)) alone some
      exact agent_waits any hand (body.trans (receives.trans (handReceive_waits team empty live)))
    · have alone : rs.bind (withRank t rcv.toNat) = .none := by rw [none]; rfl
      have receives := handBody_receives (m := m) (a := a) (b := b) (.inl none) (.inr (by rw [some]; exact Option.some_ne_none q)) alone some
      exact agent_traps any hh hand (body.trans (receives.trans (handReceive_stops team stop))) (by decide)
    · exact agent_waits any hand (body.trans (handBody_held (.inr (by rw [some]; exact Option.some_ne_none p)) receiver some fresh held))
    · have takes := handReceive_takes (b := b) (sent := true) team1 (by rw [who]; exact full) (by rw [cur]; exact same)
      rw [who] at takes
      exact agent_completes (ls := []) any hand (body.trans ((exchange some some' goes).trans takes))
    · have waits := handReceive_waits (b := b) (sent := true) team1 (by rw [who]; exact empty) live
      exact agent_waits any hand (body.trans ((exchange some some' goes).trans waits))
    · have faults := handReceive_faults (b := b) (hasHandler_of_seat hh seat) team1 (by rw [who, cur]; exact stop)
      rw [hand, issue_calm any, body, exchange some some' goes, faults, cur]
      rfl
  · intro x y kind put others n rs rr
    have any : Calm anyAgent s := calm
    obtain ⟨team, here, named⟩ := teamOf_of_myTeam member
    have binds : exec (.teamBind a b st) s = execTeamBind a b st s := rfl
    have drifts : exec (.driftSet d st) s = execDriftSet d st s := rfl
    have marks : exec (.mark st) s = execMark st s := rfl
    have hand : exec (.hand a b rcv snd st) s = issue s anyAgent 4 st [useS a, useS b] (inTeam true (handBody a b rcv snd)) := rfl
    have realigns : exec (.realign st) s = execRealign st s := rfl
    have ends : exec (.teamEnd st) s = execTeamEnd st s := rfl
    have run {fault : Bool} (f : State → Team → Member → Body) : inTeam fault f s = f s t m := inTeam_member member fine
    have goes (released : isEngine s.who = true ∨ unacked s s.who isStoreOrSend = false) :
        ¬((!isEngine s.who && unacked s s.who isStoreOrSend) = true) := by
      rcases released with engine | none
      · rw [engine]; exact Bool.false_ne_true
      · rw [none, Bool.and_false]; exact Bool.false_ne_true
    refine ⟨fun high low engines cores => ?_, fun bad hh => ?_, fun free => ?_, fun free open_ => ⟨fun near => ?_, fun far => ?_⟩,
      fun free full met => ?_, fun free full short => ?_, fun span hh => ⟨?_, ?_⟩, fun none none' => ?_,
      fun none r p some partner fresh empty released => ?_, fun none r q e some partner full same => ?_, fun met => ?_, fun short => ?_,
      fun released => ⟨fun last => ?_, ?_⟩⟩
    · refine agent_completes (ls := []) any binds ((run _).trans ?_)
      dsimp only
      have reserved : ¬((decide (bits (rd s a) 63 6 ≠ 0) || decide (bits (rd s a) 3 3 ≠ 0)) = true) := by
        rw [show bits (rd s a) 63 6 = 0 from high, show bits (rd s a) 3 3 = 0 from low]; decide
      have wide : ¬((decide (bits (rd s a) 5 4 ≠ 0) && decide (2 ^ 16 ≤ (rd s b).toNat)) = true) := by
        rw [Bool.and_eq_true, decide_eq_true_eq, decide_eq_true_eq]
        exact fun ⟨engine, large⟩ => absurd (engines engine) (not_lt.2 large)
      have missing : ¬((decide (bits (rd s a) 5 4 = 0) && (List.range 64).any fun k => (rd s b).toNat.testBit k &&
          !t.members.any fun m => decide (m.agent = 2 * (64 * clusterOf s.who + k)) && !m.ended) = true) := by
        rw [Bool.and_eq_true, decide_eq_true_eq, bind_missing_iff]
        rintro ⟨core, k, less, bit, gone⟩
        obtain ⟨o, ho, agent, live⟩ := cores core k less bit
        rw [gone o ho agent] at live
        exact Bool.noConfusion live
      rw [if_neg reserved, if_neg wide, if_neg missing]
      rfl
    · refine agent_traps any hh binds ((run _).trans ?_) (by decide)
      dsimp only
      by_cases reserved : (decide (bits (rd s a) 63 6 ≠ 0) || decide (bits (rd s a) 3 3 ≠ 0)) = true
      · exact if_pos reserved
      · rw [if_neg reserved]
        rw [Bool.or_eq_true, decide_eq_true_eq, decide_eq_true_eq, not_or] at reserved
        rcases bad with h | h | ⟨engine, large⟩ | ⟨core, missing⟩
        · exact absurd h reserved.1
        · exact absurd h reserved.2
        · exact if_pos (by rw [Bool.and_eq_true, decide_eq_true_eq, decide_eq_true_eq]; exact ⟨engine, large⟩)
        · rw [if_neg (by rw [Bool.and_eq_true, decide_eq_true_eq]; exact fun h => h.1 core)]
          exact if_pos (by rw [Bool.and_eq_true, decide_eq_true_eq, bind_missing_iff]; exact ⟨core, missing⟩)
    · refine agent_completes (ls := []) any drifts ((run _).trans ?_)
      exact if_neg (not_not.2 free)
    · refine agent_completes (ls := []) any marks ((run _).trans ?_)
      dsimp only
      rw [if_neg (not_not.2 free), if_neg (Bool.eq_false_iff.1 open_), if_pos ?_, passMark_member team here]
      simp only [liveOthers, List.all_eq_true, decide_eq_true_eq]
      exact near
    · refine agent_waits any marks ((run _).trans ?_)
      dsimp only
      rw [if_neg (not_not.2 free), if_neg (Bool.eq_false_iff.1 open_), if_neg]
      simp only [liveOthers, List.all_eq_true, decide_eq_true_eq]
      intro near
      obtain ⟨o, ho, short⟩ := far
      exact absurd (near o ho) (not_le.2 short)
    · rw [marks, execMark, issue_calm any, run, after_nil]
      dsimp only
      rw [if_neg (not_not.2 free), if_pos full, if_pos]
      simp only [liveOthers, List.all_eq_true, Bool.and_eq_true, decide_eq_true_eq]
      exact met
    · refine agent_waits any marks ((run _).trans ?_)
      dsimp only
      rw [if_neg (not_not.2 free), if_pos full, if_neg]
      simp only [liveOthers, List.all_eq_true, Bool.and_eq_true, decide_eq_true_eq]
      intro met
      obtain ⟨o, ho, short⟩ := short
      exact short (met o ho)
    · exact agent_traps any hh marks ((run _).trans (if_pos span)) (by decide)
    · exact agent_traps any hh drifts ((run _).trans (if_pos span)) (by decide)
    · refine agent_completes (ls := []) any hand ((run _).trans (handBody_passes (.inl none) (.inl none') ?_ ?_))
      · rw [show rankOf t snd.toNat s.who = .none from none]; rfl
      · rw [show rankOf t rcv.toNat s.who = .none from none']; rfl
    · have sends := handBody_sends (a := a) (b := b) (m := m) (snd := snd) (rcv := rcv) (p := p) (.inr ?_) (.inl none) ?_ fresh empty released
      · rw [show rankOf t rcv.toNat s.who = .none from none] at sends
        exact agent_completes (ls := []) any hand ((run _).trans sends)
      · rw [show rankOf t snd.toNat s.who = .some r from some, Option.bind_some, partner]
        exact Option.some_ne_none p
      · rw [show rankOf t snd.toNat s.who = .some r from some, Option.bind_some, partner]
    · have receives := handBody_receives (a := a) (b := b) (m := m) (snd := snd) (rcv := rcv) (q := q) (.inl none) (.inr ?_) ?_ ?_
      · exact agent_completes (ls := []) any hand ((run _).trans (receives.trans (handReceive_takes team full same)))
      · rw [show rankOf t rcv.toNat s.who = .some r from some, Option.bind_some, partner]
        exact Option.some_ne_none q
      · rw [show rankOf t snd.toNat s.who = .none from none]; rfl
      · rw [show rankOf t rcv.toNat s.who = .some r from some, Option.bind_some, partner]
    · refine agent_completes (ls := []) any realigns ((run _).trans (if_pos ?_))
      simp only [aligned, liveOthers, List.all_eq_true, decide_eq_true_eq]
      exact met
    · refine agent_waits any realigns ((run _).trans (if_neg ?_))
      simp only [aligned, liveOthers, List.all_eq_true, decide_eq_true_eq]
      intro met
      obtain ⟨o, ho, short⟩ := short
      exact short (met o ho)
    · have leaves := leaveTeam_last (s := { s with cur := s.cur.issued (cycleNow s) st.toNat [] }) named last
      rw [ends, execTeamEnd, issue_calm any, run, after_nil]
      dsimp only
      rw [if_neg (goes released), leaves]
      rfl
    · rw [ends, execTeamEnd, issue_calm any, run, after_nil]
      rw [if_neg (goes released)]
      rfl

end Sys2Proof.Proofs

/-! SUPPORT. Proofs: `send`, `port.open`, `port.close`, `tree.inj` and `tree.ext` (R142 to R149). -/

namespace Sys2Proof.Proofs

open Sys2Proof Sys2Proof.Machine Sys2Proof.Laws

theorem wroteLines_written (s : State) (line k : Nat) : Written s (wroteLines s line k) := by
  induction k generalizing s line with
  | zero => exact .refl s
  | succ k ih => exact (wrote_written s line).trans (ih _ _)

theorem sysBytes_written (s : State) (loc : Nat) (data : List Byte) : Written s (sysBytes s loc data) := by
  unfold sysBytes
  split
  · exact .refl s
  · exact (applyBytes_written ..).trans (wroteLines_written ..)

theorem sysWrite_who (s : State) (loc n v : Nat) : (sysWrite s loc n v).who = s.who := (sysBytes_written ..).who

/-- Settles O38: each branch of each body, as its condition says. -/
theorem sendForms : Obligations.SendForms := by
  unfold Obligations.SendForms
  intro s d a o st calm h va tile remote e
  have sends : exec (.send d a o st) s = execSend d a o st s := rfl
  have opens : exec (.portOpen d a st) s = execPortOpen d a st s := rfl
  have closes : exec (.portClose d st) s = execPortClose d st s := rfl
  have bit : bits h 53 53 = 0 ∨ bits h 53 53 = 1 := by simp only [bits]; omega
  have clear (high : bits h 63 54 = 0) (low : bits h 15 14 = 0) :
      ¬((decide (bits h 63 54 ≠ 0) || decide (bits h 15 14 ≠ 0)) = true) := by
    rw [high, low]; decide
  have allowed (may : ¬remote → sliceAllows s s.who (bits h 13 0 / 4) = true) :
      ¬((decide (bits h 53 53 = 0) && !sliceAllows s s.who (bits h 13 0 / 4)) = true) := by
    rcases bit with zero | one
    · rw [may (by show ¬bits h 53 53 = 1; omega), Bool.not_true, Bool.and_false]; exact Bool.false_ne_true
    · rw [one]; exact Bool.false_ne_true
  refine ⟨fun high low may => ⟨fun few room => ?_, fun many => ?_⟩, fun high low here denied hh => ?_, fun bad hh => ?_,
    fun slice other may => ⟨fun free => ?_, fun p held => ?_⟩, fun none => ?_, fun p held mine buffer copies => ?_⟩
  · refine core_completes (ls := []) calm sends ?_
    dsimp only
    rw [if_neg (clear high low), if_neg (allowed may), if_neg]
    · rfl
    · simp only [bufFull, Bool.or_eq_true, decide_eq_true_eq]
      omega
  · refine core_stalls calm sends ?_
    dsimp only
    rw [if_neg (clear high low), if_neg (allowed may), if_pos]
    rw [decide_eq_true many, Bool.true_or]
  · refine core_traps calm hh sends ?_ (by decide)
    dsimp only
    rw [if_neg (clear high low), if_pos]
    rw [show bits (rd s a) 53 53 = 0 from bit.resolve_right here, show sliceAllows s s.who (bits (rd s a) 13 0 / 4) = false from denied]
    rfl
  · exact core_traps calm hh sends (if_pos (by simp only [Bool.or_eq_true, decide_eq_true_eq]; exact bad)) (by decide)
  · refine core_completes (ls := []) calm opens ?_
    dsimp only
    rw [if_neg, if_neg (by rw [show sliceAllows s s.who (sliceTile (sliceOfVA (vaOf s (rd s a)))) = true from may]; decide), free]
    rw [show isSliceVA (vaOf s (rd s a)) = true from slice, decide_eq_false other]
    decide
  · refine core_completes (ls := []) calm opens ?_
    dsimp only
    rw [if_neg, if_neg (by rw [show sliceAllows s s.who (sliceTile (sliceOfVA (vaOf s (rd s a)))) = true from may]; decide), held]
    rw [show isSliceVA (vaOf s (rd s a)) = true from slice, decide_eq_false other]
    decide
  · refine core_completes (ls := []) calm closes ?_
    dsimp only
    cases held : (myCore s).port with
    | none => rfl
    | some p => exact if_pos (none p held)
  · refine core_completes (ls := []) calm closes ?_
    dsimp only
    rw [held]
    dsimp only
    rw [if_neg (not_not.2 mine), if_neg]
    simp only [Bool.or_eq_true, List.any_eq_true, Bool.and_eq_true, decide_eq_true_eq, Bool.not_eq_true', not_or, not_exists, not_and]
    refine ⟨fun q hq => buffer q hq, fun q hq who chan => ?_⟩
    rw [copies q hq who.1 who.2] at chan
    exact Bool.noConfusion chan

/-- Settles O39: each branch of each body, as its condition says. -/
theorem treeForms : Obligations.TreeForms := by
  unfold Obligations.TreeForms
  intro s d a st calm h v q tail head slot
  have injects : exec (.treeInj d a st) s = execTreeInj d a st s := rfl
  have extracts : exec (.treeExt d a st) s = execTreeExt d a st s := rfl
  refine ⟨fun good released room => ⟨fun free => ?_, fun full => ?_⟩, fun bad hh => ?_, fun empty => ?_, fun some => ?_⟩
  · refine core_completes (ls := []) calm injects ?_
    dsimp only
    rw [if_neg (Bool.eq_false_iff.1 good), if_neg]
    · rw [sysWrite_who, sysWrite_who]; rfl
    · rw [show coveredBlocked s s.who (hScope (rd s d).toNat + 2) (fun _ => true) = false from released,
        show nodeFull (getCluster s (clusterOf s.who)).node (regionTag s s.who) (rd s d).toNat = false from room, Bool.or_false, Bool.or_false,
        decide_eq_true_eq]
      exact not_le.2 free
  · refine core_stalls calm injects ?_
    dsimp only
    rw [if_neg (Bool.eq_false_iff.1 good), if_pos]
    rw [Bool.or_eq_true, Bool.or_eq_true, decide_eq_true_eq]
    exact .inl (.inl full)
  · exact core_traps calm hh injects (if_pos bad) (by decide)
  · exact core_completes (ls := []) calm extracts (if_pos empty)
  · exact core_completes (ls := []) calm extracts (if_neg some)

end Sys2Proof.Proofs

/-! SUPPORT. Proofs: `mreq` and the page instructions (R74, R86, R87). -/

namespace Sys2Proof.Proofs

open Sys2Proof Sys2Proof.Machine Sys2Proof.Laws

/-! ### `mreq` -/

section
variable {s : State} {al k : Nat} {a : BitVec 5} {body : State → Payload}

theorem mreqBody_refuses (bad : isSliceVA (vaOf s (rd s a)) = true ∨ (rd s a).toNat % al ≠ 0) :
    mreqBody al k a body s = .trap { code := 0x02 } :=
  if_pos (by rw [Bool.or_eq_true, decide_eq_true_eq]; exact bad)

theorem mreq_addressed (main : isSliceVA (vaOf s (rd s a)) = false) (aligned : (rd s a).toNat % al = 0) :
    ¬((isSliceVA (vaOf s (rd s a)) || decide ((rd s a).toNat % al ≠ 0)) = true) := by
  rw [main, aligned]; decide

theorem mreqBody_waits (main : isSliceVA (vaOf s (rd s a)) = false) (aligned : (rd s a).toNat % al = 0)
    (held : 8 ≤ s.cur.mreqs ∨ s.cur.buf ≠ [] ∨ inFlight s s.who isAxstEntry = true) : mreqBody al k a body s = .wait s .stalled := by
  refine (if_neg (mreq_addressed main aligned)).trans (if_pos ?_)
  simp only [Bool.or_eq_true, decide_eq_true_eq, Bool.not_eq_true', List.isEmpty_eq_false_iff]
  exact or_assoc.2 held

theorem mreqBody_sends {l : Landing} (main : isSliceVA (vaOf s (rd s a)) = false) (aligned : (rd s a).toNat % al = 0)
    (few : s.cur.mreqs < 8) (empty : s.cur.buf = []) (none : inFlight s s.who isAxstEntry = false)
    (lands : land s s.who (vaOf s (rd s a)) k = .ok l) (device : (homeOf s l.loc).all (· ≤ 24) = true) (free : pageHeld s s.who l = false) :
    let u := sendMsg l.st s.who { loc := l.loc, leaf := l.leaf, body := body s, seq := (rd s a).toNat, page := l.page }
    mreqBody al k a body s = .done { u with cur := { u.cur with mreqs := u.cur.mreqs + 1 } } [] := by
  have room : ¬((decide (8 ≤ s.cur.mreqs) || !s.cur.buf.isEmpty || inFlight s s.who isAxstEntry) = true) := by
    rw [decide_eq_false (not_le.2 few), empty, none]; decide
  have home : ¬((homeOf s l.loc).any (24 < ·) = true) := by
    cases at_ : homeOf s l.loc with
    | none => exact Bool.false_ne_true
    | some n =>
      rw [at_, Option.all_some, decide_eq_true_eq] at device
      rw [Option.any_some, decide_eq_true_eq]
      exact not_lt.2 device
  refine (if_neg (mreq_addressed main aligned)).trans ((if_neg room).trans ?_)
  rw [lands]
  dsimp only
  rw [if_neg home, free, if_neg Bool.false_ne_true]

end

/-! ### Page instructions -/

/-- What a page instruction does once it has issued. -/
def pageBody (d a : BitVec 5) (k : Nat) (f : State → PageRef → VAddr → Nat × State) (late : State → Nat → Bool) (s : State) : Body :=
  let va := vaOf s (rd s a)
  if isSliceVA va then .trap illegalOperand else
  match translate s (coreOf s.who) s.cur.troot va k with
  | .error t => .trap t
  | .ok (e, s1) =>
    let r := f s1 (pageRef s1 e) va
    if late s1 r.1 then .wait s .stalled else .done (wr r.2 d (BitVec.ofNat 64 r.1)) []

theorem onPage_eq (d a : BitVec 5) (k : Nat) (st : BitVec 3) (f : State → PageRef → VAddr → Nat × State) (s : State)
    (late : State → Nat → Bool) : onPage d a k st f s late = issue s coreOnly 4 st [useS a, useS d] (pageBody d a k f late) := rfl

section
variable {i : Instr} {s s1 : State} {d a : BitVec 5} {k : Nat} {st : BitVec 3} {f : State → PageRef → VAddr → Nat × State}
  {late : State → Nat → Bool} {e : TlbEntry} {r : Nat × State}
  (calm : Calm [0] s) (page : exec i s = onPage d a k st f s late) (main : isSliceVA (vaOf s (rd s a)) = false)
  (found : translate s (coreOf s.who) s.cur.troot (vaOf s (rd s a)) k = .ok (e, s1))
  (told : f s1 (pageRef s1 e) (vaOf s (rd s a)) = r)
include calm page main found told

/-- A page instruction whose answer can be given writes it, with what it did to the page. -/
theorem page_answers (ready : late s1 r.1 = false) : Completes i s (wr r.2 d (BitVec.ofNat 64 r.1)) 4 := by
  refine core_completes (ls := []) calm page ((if_neg (Bool.eq_false_iff.1 main)).trans ?_)
  rw [found]
  dsimp only
  rw [told, ready, if_neg Bool.false_ne_true]

/-- One whose answer needs what lies behind a link in its retrain window waits (R364). -/
theorem page_waits (far : late s1 r.1 = true) : Stalls i s := by
  refine core_stalls calm page ((if_neg (Bool.eq_false_iff.1 main)).trans ?_)
  rw [found]
  dsimp only
  rw [told, far, if_pos rfl]

end

/-! ### `pgmove` -/

/-- An answer of `pgmove` that needs a free ring, or a pager's table, waits while that is out of reach (R364). -/
def moveLate (k : BitVec 5) (s : State) (code : Nat) : Bool :=
  (k = 31 && [0, 1, 5].contains code && ringsFar s) || ([0, 1].contains code && pagerFar s (coreOf s.who))

theorem execPgmove_eq (d a k : BitVec 5) (t : BitVec 2) (st : BitVec 3) (s : State) :
    execPgmove d a k t st s = onPage d a 1 st (fun s p va => pgmoveAt s k.toNat t.toNat p va) s (moveLate k) := rfl

theorem moveLate_other {k : BitVec 5} {s : State} {code : Nat} (h : code = 2 ∨ code = 3 ∨ code = 4) : moveLate k s code = false := by
  rcases h with rfl | rfl | rfl <;> simp [moveLate]

theorem moveLate_any (s : State) : moveLate 31 s 5 = ringsFar s := by simp [moveLate]

theorem moveLate_queued {k : BitVec 5} {s : State} {code : Nat} (h : code = 0 ∨ code = 1) :
    moveLate k s code = true ↔ k = 31 ∧ ringsFar s = true ∨ pagerFar s (coreOf s.who) = true := by
  rcases h with rfl | rfl <;> simp [moveLate]

section
variable {s : State} {k tier : Nat} {p : PageRef} {va : VAddr}

/-- A cache stack takes no page of tier 0. -/
def CacheStops (s : State) (k tier : Nat) : Prop := tier = 0 ∧ k < 12 ∧ s.cacheMode.getLsbD k = true

/-- The page is where it is to go. -/
def IsThere (k tier : Nat) (p : PageRef) : Prop := tierOf p.home = tier ∧ (k = 31 ∨ p.home = 12 * tier + k)

theorem cacheStops_iff : (decide (tier = 0) && decide (k < 12) && s.cacheMode.getLsbD k) = true ↔ CacheStops s k tier := by
  simp only [CacheStops, Bool.and_eq_true, decide_eq_true_eq, and_assoc]

theorem isThere_iff : (decide (tierOf p.home = tier) && (decide (k = 31) || decide (p.home = 12 * tier + k))) = true ↔ IsThere k tier p := by
  simp only [IsThere, Bool.and_eq_true, Bool.or_eq_true, decide_eq_true_eq]

theorem pgmoveAt_fixed (fixed : p.movable = false ∨ CacheStops s k tier) : pgmoveAt s k tier p va = (3, s) := by
  unfold pgmoveAt
  cases movable : p.movable with
  | false => rfl
  | true =>
    have stop := fixed.resolve_left (by rw [movable]; decide)
    rw [if_neg (by decide), if_pos (cacheStops_iff.2 stop)]

variable (movable : p.movable = true) (goes : ¬CacheStops s k tier)
include movable goes

theorem pgmoveAt_moving (moving : inMotion s p.frame = true) : pgmoveAt s k tier p va = (4, s) := by
  unfold pgmoveAt
  rw [movable, if_neg (by decide), if_neg (mt cacheStops_iff.1 goes), if_pos moving]

variable (rests : inMotion s p.frame = false)
include rests

theorem pgmoveAt_there (there : IsThere k tier p) : pgmoveAt s k tier p va = (2, s) := by
  unfold pgmoveAt
  rw [movable, if_neg (by decide), if_neg (mt cacheStops_iff.1 goes), if_neg (Bool.eq_false_iff.1 rests), if_pos (isThere_iff.2 there)]

variable (elsewhere : ¬IsThere k tier p)
include elsewhere

theorem pgmoveAt_nowhere (none : (if k = 31 then chooseStack s p tier else some (12 * tier + k)) = .none) :
    pgmoveAt s k tier p va = (5, s) := by
  unfold pgmoveAt
  rw [movable, if_neg (by decide), if_neg (mt cacheStops_iff.1 goes), if_neg (Bool.eq_false_iff.1 rests), if_neg (mt isThere_iff.1 elsewhere), none]

/-- The motion that a page's move asks for. -/
def askedMotion (s : State) (p : PageRef) (va : VAddr) (loc : Nat) : Motion :=
  { leaf := p.leaf, old := 0, src := p.frame, dst := 0, log := p.log, loc := loc, who := some (coreOf s.who, va)
    pager := (pagerFor s (coreOf s.who) va.toNat).bind fun r => (recordRegion s r.1).map fun g => (r.1, r.2.2, g.rcb) }

omit movable goes rests elsewhere in
theorem askedMotion_fields (loc : Nat) : let m := askedMotion s p va loc
    m.leaf = p.leaf ∧ m.src = p.frame ∧ m.log = p.log ∧ m.loc = loc ∧ m.cursor = 0 ∧ m.who = some (coreOf s.who, va) :=
  ⟨rfl, rfl, rfl, rfl, rfl, rfl⟩

theorem pgmoveAt_queues {loc : Nat} (some : (if k = 31 then chooseStack s p tier else some (12 * tier + k)) = .some loc) :
    pgmoveAt s k tier p va = match queueMotion s p.home (askedMotion s p va loc) with
      | none => (1, s)
      | .some u => (0, u) := by
  unfold pgmoveAt
  rw [movable, if_neg (by decide), if_neg (mt cacheStops_iff.1 goes), if_neg (Bool.eq_false_iff.1 rests), if_neg (mt isThere_iff.1 elsewhere), some] <;> rfl

end

/-! ### `pghot` -/

/-- A field's number and the field as a value are the same. -/
theorem toNat_eq_iff {w : Nat} {x : BitVec w} {n : Nat} (h : n < 2 ^ w) : x = BitVec.ofNat w n ↔ x.toNat = n := by
  rw [← BitVec.toNat_inj, BitVec.toNat_ofNat, Nat.mod_eq_of_lt h]

theorem tierOf_lt (h : Nat) : tierOf h < 4 := by
  unfold tierOf
  split_ifs <;> decide

/-- The fields of a page's second answer, packed as `pghot` packs them. -/
theorem pghot_fields {total state tier stack cursor size : Nat} (t : total < 2 ^ 16) (s : state < 4) (r : tier < 4) (k : stack < 16)
    (c : cursor < 2 ^ 15) :
    let v := total + state * 2 ^ 16 + tier * 2 ^ 18 + stack * 2 ^ 20 + cursor * 2 ^ 24 + size * 2 ^ 39
    v % 2 ^ 16 = total ∧ v / 2 ^ 16 % 4 = state ∧ v / 2 ^ 18 % 4 = tier ∧ v / 2 ^ 20 % 16 = stack ∧ v / 2 ^ 24 % 2 ^ 15 = cursor ∧
      v / 2 ^ 39 = size := by
  dsimp only
  omega

/-- The page's heat, of a page that the device holds. -/
def heatOf (s : State) (p : PageRef) : Hot := if p.home < 25 then mapGet {} s.hot p.frame else {}

/-- State and cursor of a page by its motion. -/
def motionState : Option Motion → Nat
  | none => 0
  | some m => if m.forwarding then 2 else 1
def motionCursor : Option Motion → Nat
  | some m => if m.forwarding then 0 else m.cursor
  | none => 0
def stackOf (home : Nat) : Nat := if home < 12 then home else if home < 24 then home - 12 else 15
def sizeCode (log : Nat) : Nat := if log = 16 then 0 else if log = 21 then 1 else 2

theorem pghotAt_counts {s : State} {c : Nat} {p : PageRef} (even : c % 2 = 0) :
    pghotAt s c p = (heatOf s p).ne + (heatOf s p).nw * 2 ^ 16 + (heatOf s p).se * 2 ^ 32 + (heatOf s p).sw * 2 ^ 48 := if_pos even

theorem pghotAt_detail {s : State} {c : Nat} {p : PageRef} (odd : c % 2 = 1) :
    pghotAt s c p = (heatOf s p).total + motionState (pageMotion s p) * 2 ^ 16 + tierOf p.home * 2 ^ 18 + stackOf p.home * 2 ^ 20 +
      motionCursor (pageMotion s p) * 2 ^ 24 + sizeCode p.log * 2 ^ 39 := by
  refine (if_neg (by omega)).trans ?_
  cases pageMotion s p <;> rfl

theorem motionState_lt (m : Option Motion) : motionState m < 4 := by
  unfold motionState
  split
  · decide
  · split <;> decide

theorem stackOf_lt (home : Nat) : stackOf home < 16 := by
  unfold stackOf
  split_ifs <;> omega

/-- What the second answer of `pghot` says of a page (R87). -/
theorem pghot_detail {s1 : State} {c : Nat} {p : PageRef} (odd : c % 2 = 1) (total : (heatOf s1 p).total < 2 ^ 16)
    (cursor : ∀ m, pageMotion s1 p = some m → m.forwarding = false → m.cursor < 2 ^ 15) :
    let v := pghotAt s1 c p
    let moving := fun (n : Nat) => (∃ m, pageMotion s1 p = some m ∧ m.forwarding = false ∧ m.cursor = n)
    v % 2 ^ 16 = (heatOf s1 p).total ∧
    (pageMotion s1 p = none → v / 2 ^ 16 % 4 = 0) ∧ (∀ n, moving n → v / 2 ^ 16 % 4 = 1 ∧ v / 2 ^ 24 % 2 ^ 15 = n) ∧
    (∀ m, pageMotion s1 p = some m → m.forwarding = true → v / 2 ^ 16 % 4 = 2) ∧ ((∀ n, ¬moving n) → v / 2 ^ 24 % 2 ^ 15 = 0) ∧
    v / 2 ^ 18 % 4 = tierOf p.home ∧ v / 2 ^ 20 % 16 = stackOf p.home ∧
    (p.log = 16 → v / 2 ^ 39 = 0) ∧ (p.log = 21 → v / 2 ^ 39 = 1) ∧ (p.log = 30 → v / 2 ^ 39 = 2) := by
  intro v moving
  have small : motionCursor (pageMotion s1 p) < 2 ^ 15 := by
    cases at_ : pageMotion s1 p with
    | none => decide
    | some m =>
      cases forwarding : m.forwarding with
      | true => rw [motionCursor, forwarding, if_pos rfl]; decide
      | false =>
        rw [motionCursor, forwarding, if_neg Bool.false_ne_true]
        exact cursor m at_ forwarding
  obtain ⟨heat, state, tier, stack, cursorAt, size⟩ :=
    pghot_fields (size := sizeCode p.log) total (motionState_lt (pageMotion s1 p)) (tierOf_lt p.home) (stackOf_lt p.home) small
  have packed : v = _ := pghotAt_detail odd
  rw [packed]
  refine ⟨heat, fun none => state.trans (congrArg motionState none), fun n moves => ?_, fun m at_ forwarding => state.trans ?_, fun still => ?_, tier, stack,
    fun log => size.trans (if_pos log), fun log => size.trans ?_, fun log => size.trans ?_⟩
  · obtain ⟨m, at_, forwarding, rfl⟩ := moves
    exact ⟨state.trans ((congrArg motionState at_).trans (if_neg (Bool.eq_false_iff.1 forwarding))),
      cursorAt.trans ((congrArg motionCursor at_).trans (if_neg (Bool.eq_false_iff.1 forwarding)))⟩
  · exact (congrArg motionState at_).trans (if_pos forwarding)
  · refine cursorAt.trans ?_
    cases at_ : pageMotion s1 p with
    | none => rfl
    | some m =>
      cases forwarding : m.forwarding with
      | true => exact if_pos forwarding
      | false => exact absurd ⟨m, at_, forwarding, rfl⟩ (still m.cursor)
  · rw [sizeCode, log, if_neg (by decide), if_pos rfl]
  · rw [sizeCode, log, if_neg (by decide), if_neg (by decide)]

/-- A move that may go waits while what its answer needs is out of reach, and else queues its motion, or reports full queues. -/
theorem pgmove_queues {i : Instr} {s s1 : State} {d a k : BitVec 5} {t : BitVec 2} {st : BitVec 3} {e : TlbEntry} {loc : Nat}
    (calm : Calm [0] s) (page : exec i s = onPage d a 1 st (fun s p va => pgmoveAt s k.toNat t.toNat p va) s (moveLate k))
    (main : isSliceVA (vaOf s (rd s a)) = false) (found : translate s (coreOf s.who) s.cur.troot (vaOf s (rd s a)) 1 = .ok (e, s1))
    (movable : (pageRef s1 e).movable = true) (goes : ¬CacheStops s1 k.toNat t.toNat) (rests : inMotion s1 (pageRef s1 e).frame = false)
    (away : ¬IsThere k.toNat t.toNat (pageRef s1 e))
    (some : (if k = 31 then chooseStack s1 (pageRef s1 e) t.toNat else .some (12 * t.toNat + k.toNat)) = .some loc) :
    let p := pageRef s1 e
    let late := k = 31 ∧ ringsFar s1 = true ∨ pagerFar s1 (coreOf s.who) = true
    (late → Stalls i s) ∧
    (¬late → ∃ m, m.leaf = p.leaf ∧ m.src = p.frame ∧ m.log = p.log ∧ m.loc = loc ∧ m.cursor = 0 ∧
      m.who = .some (coreOf s.who, vaOf s (rd s a)) ∧
      (queueMotion s1 p.home m = none → Completes i s (wr s1 d 1) 4) ∧
      (∀ s2, queueMotion s1 p.home m = .some s2 → Completes i s (wr s2 d 0) 4)) := by
  have who : s1.who = s.who := (translate_filled found).who
  intro p late
  have same : (if k.toNat = 31 then chooseStack s1 p t.toNat else Option.some (12 * t.toNat + k.toNat)) = .some loc := by
    rw [← some]
    exact if_congr (toNat_eq_iff (by decide)).symm rfl rfl
  have queues := pgmoveAt_queues (va := vaOf s (rd s a)) movable goes rests away same
  have waits (code : Nat) (h : code = 0 ∨ code = 1) (far : late) : moveLate k s1 code = true := by
    rw [moveLate_queued h, who]
    exact far
  have goesOn (code : Nat) (h : code = 0 ∨ code = 1) (near : ¬late) : moveLate k s1 code = false := by
    rw [← Bool.not_eq_true, moveLate_queued h, who]
    exact near
  obtain ⟨leaf, src, log, at_, cursor, asks⟩ := askedMotion_fields (s := s1) (p := p) (va := vaOf s (rd s a)) loc
  rw [who] at asks
  refine ⟨fun far => ?_, fun near => ⟨askedMotion s1 p (vaOf s (rd s a)) loc, leaf, src, log, at_, cursor, asks, fun full => ?_, fun s2 queued => ?_⟩⟩
  · cases result : queueMotion s1 p.home (askedMotion s1 p (vaOf s (rd s a)) loc) with
    | none =>
      rw [result] at queues
      exact page_waits calm page main found queues (waits 1 (.inr rfl) far)
    | some u =>
      rw [result] at queues
      exact page_waits calm page main found queues (waits 0 (.inl rfl) far)
  · rw [full] at queues
    exact page_answers calm page main found queues (goesOn 1 (.inr rfl) near)
  · rw [queued] at queues
    exact page_answers calm page main found queues (goesOn 0 (.inl rfl) near)

/-- Settles O37: `mreq` by its checks, and the page instructions by what their pages answer. -/
theorem pageForms : Obligations.PageForms := by
  unfold Obligations.PageForms
  intro s d a k t c g st calm x va
  have reads : exec (.mreqRead a g st) s = execMreqRead a g st s := rfl
  have writes : exec (.mreqWrite d a g st) s = execMreqWrite d a g st s := rfl
  refine ⟨?_, fun main => ⟨fun few empty none => ⟨fun l aligned lands device free => ?_, fun l aligned lands device free => ?_⟩,
    fun e s1 found => ?_, fun e s1 found => ?_⟩⟩
  · simp only [List.forall_mem_cons]
    exact ⟨⟨fun bad hh => core_traps calm hh reads (mreqBody_refuses bad) (by decide),
        fun main aligned held => core_stalls calm reads (mreqBody_waits main aligned held)⟩,
      ⟨fun bad hh => core_traps calm hh writes (mreqBody_refuses bad) (by decide),
        fun main aligned held => core_stalls calm writes (mreqBody_waits main aligned held)⟩, fun _ h => absurd h List.not_mem_nil⟩
  · exact core_completes (ls := []) calm reads (mreqBody_sends main aligned few empty none lands device free)
  · exact core_completes (ls := []) calm writes (mreqBody_sends main aligned few empty none lands device free)
  · intro p there stop i
    have filled := translate_filled found
    have who : s1.who = s.who := filled.who
    have page : exec i s = onPage d a 1 st (fun s p va => pgmoveAt s k.toNat t.toNat p va) s (moveLate k) := rfl
    have aborts : exec (.pgabort d a st) s = execPgabort d a st s := rfl
    have stops : stop ↔ CacheStops s1 k.toNat t.toNat := and_congr_left' (toNat_eq_iff (by decide))
    have isThere : there ↔ IsThere k.toNat t.toNat p := and_congr_right' (or_congr_left (toNat_eq_iff (by decide)))
    refine ⟨fun fixed => ?_, fun movable goes moving => ?_, fun movable goes rests here => ?_, fun movable goes rests away any none => ⟨fun near => ?_, fun far => ?_⟩,
      fun movable goes rests away loc some => ?_, fun none => ?_, fun die j some => ?_⟩
    · exact page_answers calm page main found (pgmoveAt_fixed (fixed.imp id stops.1)) (moveLate_other (.inr (.inl rfl)))
    · exact page_answers calm page main found (pgmoveAt_moving movable (mt stops.2 goes) moving) (moveLate_other (.inr (.inr rfl)))
    · exact page_answers calm page main found (pgmoveAt_there movable (mt stops.2 goes) rests (isThere.1 here)) (moveLate_other (.inl rfl))
    · have lost := pgmoveAt_nowhere (va := va) movable (mt stops.2 goes) rests (mt isThere.2 away) (by rw [if_pos (by rw [any]; rfl)]; exact none)
      exact page_answers calm page main found lost (by rw [any, moveLate_any]; exact near)
    · have lost := pgmoveAt_nowhere (va := va) movable (mt stops.2 goes) rests (mt isThere.2 away) (by rw [if_pos (by rw [any]; rfl)]; exact none)
      exact page_waits calm page main found lost (by rw [any, moveLate_any]; exact far)
    · exact pgmove_queues calm page main found movable (mt stops.2 goes) rests (mt isThere.2 away) some
    · refine page_answers calm aborts main found (r := (1, s1)) ?_ rfl
      rw [none]
    · refine page_answers calm aborts main found (r := (0, abortActive s1 die j 4)) ?_ rfl
      rw [some]
  · intro p h u moving
    have page : exec (.pghot d a c st) s = execPghot d a c st s := rfl
    refine ⟨pghotAt s1 c.toNat p, page_answers calm page main found rfl rfl, fun even => pghotAt_counts even, fun odd total cursor => ?_⟩
    exact pghot_detail odd total fun m at_ forwarding => cursor m.cursor ⟨m, at_, forwarding, rfl⟩

end Sys2Proof.Proofs

/-! SUPPORT. Proofs: copies, streams and launches (R151, R154, R171 to R177, R314, R315). -/

namespace Sys2Proof.Proofs

open Sys2Proof Sys2Proof.Machine Sys2Proof.Laws

/-! ### Copies -/

section
variable {i : Instr} {s : State} {kinds : List Nat} {len : Nat} {st : BitVec 3} {uses : List RegUse} {body : State → Body}

theorem agent_stalls (calm : Calm kinds s) (e : exec i s = issue s kinds len st uses body) (b : body s = .wait s .stalled) : Stalls i s := by
  rw [issue_calm calm, b] at e
  exact stalls_of_wait e

/-- A trap that no access raised, with an INFO. -/
theorem agent_traps_info {code info : Nat} (calm : Calm kinds s) (hh : HasHandler s) (e : exec i s = issue s kinds len st uses body)
    (b : body s = .trap { code := code, info := info }) (other : code ≠ 0x08 ∧ code ≠ 0x09 ∧ code ≠ 0x100) : Traps i s code 7 info 0 := by
  rw [issue_calm calm, b] at e
  exact traps_of_trap (t := { code := code, info := info }) hh (refreshTlb_other s (Nat.le_succ 6) rfl) other e

end

section
variable {s : State} {a : BitVec 5} {wait hit : State → Body}

/-- The SEQ of an identifier is one that its channel has handed out. -/
def HandedOut (s : State) (x : Word) : Prop :=
  bits x 61 61 = 1 ∧ bits x 60 48 = 0 ∧
    seqAfter (bits x 47 0) (((myCore s).cpyNext.toList.getD (bits x 63 62) 1 + 2 ^ 48 - 1) % 2 ^ 48) = false

/-- `CPYDONE` of the identifier's channel covers it. -/
def CopyCovered (s : State) (x : Word) : Prop :=
  seqLe (bits x 47 0) (bits ((myCore s).cpydone.toList.getD (bits x 63 62) 0) 47 0) = true

/-- `CPYERR` of the identifier's channel holds an error of it or of a copy before it. -/
def CopyFailed (s : State) (x : Word) : Prop :=
  let err := (myCore s).cpyerr.toList.getD (bits x 63 62) 0
  bits err 63 63 = 1 ∧ seqLe (bits err 47 0) (bits x 47 0) = true

theorem bits_one_eq_zero_or_one (x : Word) (k : Nat) : bits x k k = 0 ∨ bits x k k = 1 := by
  have : bits x k k < 2 := by
    simp only [bits, Nat.add_sub_cancel_left]
    exact Nat.mod_lt _ (by decide)
  omega

/-- `copyTest` for an identifier that was handed out. -/
theorem copyTest_handedOut (good : HandedOut s (rd s a)) : copyTest a wait hit s =
    if !seqLe (bits (rd s a) 47 0) (bits ((myCore s).cpydone.toList.getD (bits (rd s a) 63 62) 0) 47 0) then wait s
    else
      let e := (myCore s).cpyerr.toList.getD (bits (rd s a) 63 62) 0
      if bits e 63 63 = 1 && seqLe (bits e 47 0) (bits (rd s a) 47 0) then .trap (copyTrap (bits (rd s a) 63 62) e) else hit s := by
  obtain ⟨mark, zero, past⟩ := good
  have layout : ¬(decide (bits (rd s a) 61 61 = 0) || decide (bits (rd s a) 60 48 ≠ 0)) = true := by
    rw [mark, zero]; decide
  exact (if_neg layout).trans (if_neg (Bool.eq_false_iff.1 past))

theorem copyTest_waits (good : HandedOut s (rd s a)) (open_ : ¬CopyCovered s (rd s a)) : copyTest a wait hit s = wait s := by
  rw [copyTest_handedOut good, Bool.eq_false_iff.2 open_]
  rfl

theorem copyTest_hits (good : HandedOut s (rd s a)) (covered : CopyCovered s (rd s a)) (clean : ¬CopyFailed s (rd s a)) :
    copyTest a wait hit s = hit s := by
  rw [copyTest_handedOut good, show _ = true from covered]
  refine (if_neg (by decide)).trans (if_neg ?_)
  rw [Bool.and_eq_true, decide_eq_true_eq]
  exact clean

theorem copyTest_fails (good : HandedOut s (rd s a)) (covered : CopyCovered s (rd s a)) (failed : CopyFailed s (rd s a)) :
    copyTest a wait hit s = .trap (copyTrap (bits (rd s a) 63 62) ((myCore s).cpyerr.toList.getD (bits (rd s a) 63 62) 0)) := by
  rw [copyTest_handedOut good, show _ = true from covered]
  refine (if_neg (by decide)).trans (if_pos ?_)
  rw [Bool.and_eq_true, decide_eq_true_eq]
  exact failed

theorem copyTest_refuses (bad : ¬HandedOut s (rd s a)) : copyTest a wait hit s = .trap { code := 0x02 } := by
  unfold copyTest
  dsimp only
  by_cases layout : (decide (bits (rd s a) 61 61 = 0) || decide (bits (rd s a) 60 48 ≠ 0)) = true
  · exact if_pos layout
  · refine (if_neg layout).trans (if_pos ?_)
    rw [Bool.or_eq_true, decide_eq_true_eq, decide_eq_true_eq, not_or, not_not] at layout
    obtain ⟨mark, zero⟩ := layout
    by_contra past
    exact bad ⟨(bits_one_eq_zero_or_one _ _).resolve_left mark, zero, Bool.eq_false_iff.2 past⟩

end

/-- Settles O40: each branch of each body, as its condition says. -/
theorem copyForms : Obligations.CopyForms := by
  unfold Obligations.CopyForms
  intro s d a k st calm w c ch seq new bad x xc xs good covered err failed loc tile
  have cpy : exec (.cpy d a st) s = execCpy d a st s := rfl
  have cpyTry : exec (.cpyTry d a st) s = execCpyTry d a st s := rfl
  have cpyid : exec (.cpyid d a st) s = execCpyid d a st s := rfl
  have cpywait : exec (.cpywait a st) s = execCpywait a st s := rfl
  have dict : exec (.dictLd a k st) s = execDictLd a k st s := rfl
  refine ⟨?_, ?_, ?_, ?_, ?_, ?_, ?_, ?_⟩
  · intro fine room
    have pushed (full : State → Body) : copyBody full d a s = .done
        (wr (putMyCore s { c with fifo := c.fifo ++ [new], cpyNext := setIx c.cpyNext ch ((seq + 1) % 2 ^ 48) }) d
          (BitVec.ofNat 64 (ch * 2 ^ 62 + 2 ^ 61 + seq))) [] :=
      (if_neg (Bool.eq_false_iff.1 fine)).trans (if_neg (not_le.2 room))
    simp only [List.forall_mem_cons, List.not_mem_nil, false_imp_iff, implies_true, and_true]
    exact ⟨agent_completes calm cpy (pushed _), agent_completes calm cpyTry (pushed _)⟩
  · intro fine full
    have full' (f : State → Body) : copyBody f d a s = f s := (if_neg (Bool.eq_false_iff.1 fine)).trans (if_pos full)
    exact ⟨agent_stalls calm cpy (full' _), agent_completes calm cpyTry (full' _)⟩
  · intro wrong hh
    have refused (f : State → Body) : copyBody f d a s = .trap { code := 0x02 } := if_pos wrong
    exact ⟨agent_traps calm hh cpy (refused _) (by decide), agent_traps calm hh cpyTry (refused _) (by decide)⟩
  · intro good open_
    exact ⟨agent_completes calm cpyid (copyTest_waits good open_), agent_stalls calm cpywait (copyTest_waits good open_)⟩
  · intro good covered clean
    exact ⟨agent_completes calm cpyid (copyTest_hits good covered clean), agent_completes calm cpywait (copyTest_hits good covered clean)⟩
  · intro good covered failed hh
    have other : (if bits err 61 59 = 1 then 0x18 else 0x19) ≠ 0x08 ∧ (if bits err 61 59 = 1 then 0x18 else 0x19) ≠ 0x09 ∧
        (if bits err 61 59 = 1 then 0x18 else 0x19) ≠ 0x100 := by
      split <;> decide
    simp only [List.forall_mem_cons, List.not_mem_nil, false_imp_iff, implies_true, and_true]
    exact ⟨agent_traps_info calm hh cpyid (copyTest_fails good covered failed) other,
      agent_traps_info calm hh cpywait (copyTest_fails good covered failed) other⟩
  · intro bad hh
    exact ⟨agent_traps calm hh cpyid (copyTest_refuses bad) (by decide), agent_traps calm hh cpywait (copyTest_refuses bad) (by decide)⟩
  · intro slice home ends aligned allowed free
    refine agent_completes (ls := []) calm dict ?_
    have inside : ¬(!isSliceVA (widen (highOf s) (rd s a)) || decide (sliceTile (sliceOfVA (widen (highOf s) (rd s a))) ≠ tileOf s.who) ||
        decide (2 ^ 18 < sliceOff (sliceOfVA (widen (highOf s) (rd s a))) + 1024 * k.toNat)) = true := by
      rw [show isSliceVA (widen (highOf s) (rd s a)) = true from slice, show sliceTile (sliceOfVA (widen (highOf s) (rd s a))) = tileOf s.who from home,
        decide_eq_false (not_lt.2 ends)]
      simp
    dsimp only
    rw [if_neg inside, if_neg (not_not.2 (show (rd s a).toNat % 64 = 0 from aligned)),
      show sliceAllows s s.who (tileOf s.who) = true from allowed, if_neg (by decide),
      show (getTile s (tileOf s.who)).dictNext = .none from free, if_neg (by decide)]

/-! ### Streams -/

/-- Loads that are served change neither the seat nor memory. -/
theorem loadAll_seat {n : Nat} : ∀ {ls : List (Word × Landing)} {s u : State} {vs : List (List Byte)},
    loadAll s n ls = .vals vs u → SameSeat s u
  | [], s, u, vs, h => by cases h; exact sameSeat_refl s
  | (e, l) :: t, s, u, vs, h => by
    rw [loadAll_cons] at h
    have first := countHot_seat s l.loc (coreOf s.who) l.leaf
    dsimp only at h
    split at h
    · cases h
    · cases h
    · split at h
      · cases h
      · split at h
        next rest => cases h; exact sameSeat_trans first (loadAll_seat rest)
        next no => exact absurd h (no _ _)
    · split at h
      next rest => cases h; exact sameSeat_trans first (loadAll_seat rest)
      next no => exact absurd h (no _ _)

theorem checkAccess_seat {s : State} {a : Nat} {e : Word} {al k : Nat} {l : Landing} (h : checkAccess s a e al k = .ok l) :
    SameSeat s l.st := by
  obtain ⟨_, _, filled⟩ := checkAccess_filled h
  rw [filled]
  exact ⟨rfl, rfl, rfl⟩

/-- What `sbind` does with the pattern of its descriptor. -/
def bindStream (d a : BitVec 5) (n : BitVec 3) (s s1 : State) (r : Stream × Bool) : Body :=
  if r.2 then .keep (raise s1 illegalOperand)
  else .done (wr { s1 with cur := putStream s1.cur n.toFin { r.1 with high := highOf s, gate := s.cur.seqNext, desc := rd s a } } d 0) []

/-- What `sbind` does once it has issued. -/
def sbindBody (d a : BitVec 5) (n : BitVec 3) (s : State) : Body :=
  if s.cur.streams[(n.toFin : Fin 8)].bound then .done (wr s d 1) []
  else match checkAccess s s.who (rd s a) 64 0 with
    | .error t => .trap t
    | .ok l => (loadAll l.st 64 [(rd s a, l)]).body s fun vs s1 => bindStream d a n s s1 (parseStream (vs.headD []))

theorem execSbind_eq (d a : BitVec 5) (n : BitVec 3) (st : BitVec 3) (s : State) :
    execSbind d a n st s = issue s coreOnly 4 st [useS d, useS a, (1, 56 + n.toNat)] (sbindBody d a n) := rfl

theorem sbindBody_loaded {d a : BitVec 5} {n : BitVec 3} {s s1 : State} {l : Landing} {bytes : List Byte}
    (bound : s.cur.streams[(n.toFin : Fin 8)].bound = false) (access : checkAccess s s.who (rd s a) 64 0 = .ok l)
    (loaded : loadAll l.st 64 [(rd s a, l)] = .vals [bytes] s1) :
    sbindBody d a n s = bindStream d a n s s1 (parseStream bytes) := by
  unfold sbindBody
  rw [bound, if_neg Bool.false_ne_true, access]
  dsimp only
  rw [loaded]
  rfl

/-- Settles O41: each branch of each body, as its condition says. -/
theorem streamForms : Obligations.StreamForms := by
  unfold Obligations.StreamForms
  intro s d a n st calm k x
  have sbind : exec (.sbind d a n st) s = _ := execSbind_eq d a n st s
  have sfree : exec (.sfree d n st) s = execSfree d n st s := rfl
  have sstat : exec (.sstat d n st) s = execSstat d n st s := rfl
  refine ⟨?_, ?_, ?_, ?_, ?_, ?_, ?_⟩
  · intro bound
    exact core_completes (ls := []) calm sbind (if_pos bound)
  · intro bound l bytes s1 access loaded p
    constructor
    · intro good
      exact core_completes calm sbind ((sbindBody_loaded bound access loaded).trans (if_neg (Bool.eq_false_iff.1 good)))
    · intro bad hh
      have seat : SameSeat s s1 := sameSeat_trans (checkAccess_seat access) (loadAll_seat loaded)
      exact agent_raises (kinds := coreOnly) calm (hasHandler_of_seat hh seat) sbind
        ((sbindBody_loaded bound access loaded).trans (if_pos bad)) (by decide)
  · intro bound
    refine core_completes (ls := []) calm sfree (if_pos ?_)
    rw [show s.cur.streams[(n.toFin : Fin 8)].bound = false from bound]; rfl
  · intro bound drained whole u
    refine core_completes (ls := []) calm sfree ?_
    dsimp only
    rw [show s.cur.streams[(n.toFin : Fin 8)].bound = true from bound, if_neg (by decide), if_neg ?_, if_neg ?_]
    · rw [Bool.and_eq_true]; exact whole
    · rw [Bool.and_eq_true, Bool.not_eq_true', List.isEmpty_eq_false_iff]; exact drained
  · intro bound out filled
    refine core_stalls calm sfree ?_
    dsimp only
    rw [show s.cur.streams[(n.toFin : Fin 8)].bound = true from bound, if_neg (by decide), if_pos ?_]
    rw [Bool.and_eq_true, Bool.not_eq_true', List.isEmpty_eq_false_iff]
    exact ⟨out, filled⟩
  · intro bound
    refine core_completes (ls := []) calm sstat ?_
    dsimp only
    rw [show s.cur.streams[(n.toFin : Fin 8)].bound = false from bound]
    rfl
  · intro bound
    refine core_completes (ls := []) calm sstat ?_
    dsimp only
    rw [show s.cur.streams[(n.toFin : Fin 8)].bound = true from bound]
    rfl

/-! ### Launches -/

/-- The lines of an image are checked by one load each. -/
theorem landImage_seat {al : Nat} : ∀ {es : List (Nat × Nat)} {s u : State} {ls : List (Nat × Word × Landing)} (_ : landImage s al es = .ok (ls, u)),
    SameSeat s u := by
  intro es
  induction es generalizing al with
  | nil => intro s u ls h; cases h; exact sameSeat_refl s
  | cons p t ih =>
    intro s u ls h
    unfold landImage at h
    split at h
    · cases h
    next l access =>
      split at h
      · cases h
      next rest => cases h; exact sameSeat_trans (checkAccess_seat access) (ih rest)

theorem readImage_seat : ∀ {ls : List (Nat × Word × Landing)} {s u : State} {vs : List (List Byte)},
    readImage s ls = .vals vs u → SameSeat s u
  | [], s, u, vs, h => by cases h; exact sameSeat_refl s
  | (n, p) :: t, s, u, vs, h => by
    unfold readImage at h
    split at h
    next first =>
      split at h
      next rest => cases h; exact sameSeat_trans (loadAll_seat first) (readImage_seat rest)
      next no => exact absurd h (no _ _)
    next no => exact absurd h (no _ _)

theorem imageAt_seat {s u : State} {ea : Word} {n al : Nat} {limit : Landing → Option Trap} {img : List Byte}
    (image : ImageAt s ea n al limit img u) : SameSeat s u := by
  obtain ⟨ls, s0, landed, _, read⟩ := image
  exact sameSeat_trans (landImage_seat landed) (readImage_seat read)

/-- What an instruction with an image does with it: a trap is one of the state that the reads have left. -/
theorem withImage_image {s u : State} {ea : Word} {n al : Nat} {limit : Landing → Option Trap} {img : List Byte} {f : List Byte → State → Body}
    (image : ImageAt s ea n al limit img u) :
    withImage ea n al limit s f = match f img u with
      | .trap t => .keep (raise u t)
      | b => b := by
  obtain ⟨ls, s0, landed, within, read⟩ := image
  have free : (ls.head?.bind fun p => limit p.2.2) = .none := by
    cases at_ : ls.head? with
    | none => rfl
    | some p => exact within p at_
  unfold withImage
  rw [landed]
  dsimp only
  rw [free]
  dsimp only
  rw [read] <;> rfl

section
variable {s s1 : State} {a : BitVec 5} {bytes : List Byte} {full ok : State → Body}

/-- The record that a launch posts. -/
abbrev launchRec (bytes : List Byte) (s1 : State) : Launch := parseLaunch bytes (BitVec.ofNat 16 (coreOf s1.who)) .none

/-- The context may post records of the launch's RCB. -/
def MayPost (s1 : State) (r : Launch) : Prop := r.rcb = regionTag s1 s1.who ∨ rcbField s1 r.rcb 0 8 = regionTag s1 s1.who

theorem denied_iff {r : Launch} :
    (decide (r.rcb ≠ regionTag s1 s1.who) && decide (rcbField s1 r.rcb 0 8 ≠ regionTag s1 s1.who)) = true ↔ ¬MayPost s1 r := by
  rw [Bool.and_eq_true, decide_eq_true_eq, decide_eq_true_eq, MayPost, not_or]

variable (image : ImageAt s (rd s a) 80 16 (fun _ => .none) bytes s1)
include image

theorem launchBody_malformed (bad : badLaunch bytes = true) : launchBody a full ok s = .keep (raise s1 { code := 0x02 }) := by
  unfold launchBody
  rw [withImage_image image, if_pos bad]
  rfl

variable (good : badLaunch bytes = false)
include good

theorem launchBody_far (isFar : launchFar s1 (launchRec bytes s1).rcb = true) : launchBody a full ok s = .wait s .stalled := by
  unfold launchBody
  rw [withImage_image image, if_neg (Bool.eq_false_iff.1 good), if_pos isFar]

variable (near : ¬launchFar s1 (launchRec bytes s1).rcb = true)
include near

theorem launchBody_late (late : tooMany s1 (launchRec bytes s1) = true) : launchBody a full ok s = .keep (raise s1 { code := 0x02 }) := by
  unfold launchBody
  rw [withImage_image image, if_neg (Bool.eq_false_iff.1 good), if_neg near, if_pos late]
  rfl

variable (few : ¬tooMany s1 (launchRec bytes s1) = true)
include few

theorem launchBody_denied (stranger : ¬MayPost s1 (launchRec bytes s1)) : launchBody a full ok s = .keep (raise s1 { code := 0x0D }) := by
  unfold launchBody
  rw [withImage_image image, if_neg (Bool.eq_false_iff.1 good), if_neg near, if_neg few, if_pos (denied_iff.2 stranger)]

variable (may : MayPost s1 (launchRec bytes s1)) (open_ : launchBlocked s1 (launchRec bytes s1) = false)
include may open_

theorem launchBody_full (filled : storeFull s1 (dieOf s1.who) = true) : launchBody a full ok s = match full s1 with
    | .trap t => .keep (raise s1 t)
    | b => b := by
  unfold launchBody
  rw [withImage_image image, if_neg (Bool.eq_false_iff.1 good), if_neg near, if_neg few, if_neg (mt denied_iff.1 (not_not.2 may)),
    if_neg (Bool.eq_false_iff.1 open_), if_pos filled]

theorem launchBody_posts (room : storeFull s1 (dieOf s1.who) = false) :
    launchBody a full ok s = match ok (pump (enterLaunch s1 (dieOf s1.who) (launchRec bytes s1)) (dieOf s1.who)) with
    | .trap t => .keep (raise s1 t)
    | b => b := by
  unfold launchBody
  rw [withImage_image image, if_neg (Bool.eq_false_iff.1 good), if_neg near, if_neg few, if_neg (mt denied_iff.1 (not_not.2 may)),
    if_neg (Bool.eq_false_iff.1 open_), if_neg (Bool.eq_false_iff.1 room)]

end

/-- Settles O42: the body's conditions in their order. -/
theorem launchForms : Obligations.LaunchForms := by
  unfold Obligations.LaunchForms
  intro s d a st calm bytes s1 image r die own late far posted
  have launch : exec (.launch a st) s = execLaunch a st s := rfl
  have launchTry : exec (.launchTry d a st) s = execLaunchTry d a st s := rfl
  have seat := imageAt_seat image
  have raises {code : Nat} (hh : HasHandler s) (other : code ≠ 0x08 ∧ code ≠ 0x09 ∧ code ≠ 0x100)
      (b : ∀ full ok : State → Body, launchBody a full ok s = .keep (raise s1 { code := code })) :
      TrapsFrom (.launch a st) s s1 code 7 0 0 ∧ TrapsFrom (.launchTry d a st) s s1 code 7 0 0 :=
    ⟨agent_raises (kinds := coreOnly) calm (hasHandler_of_seat hh seat) launch (b _ _) other,
      agent_raises (kinds := coreOnly) calm (hasHandler_of_seat hh seat) launchTry (b _ _) other⟩
  simp only [List.forall_mem_cons, List.not_mem_nil, false_imp_iff, implies_true, and_true]
  refine ⟨?_, ?_, ?_, ?_⟩
  · intro good isFar
    exact ⟨core_stalls calm launch (launchBody_far image good isFar), core_stalls calm launchTry (launchBody_far image good isFar)⟩
  · intro good near few may open_
    exact ⟨fun room => ⟨core_completes calm launch (launchBody_posts image good near few may open_ room),
        core_completes calm launchTry (launchBody_posts image good near few may open_ room)⟩,
      fun filled => ⟨agent_waits (kinds := coreOnly) calm launch (launchBody_full image good near few may open_ filled),
        core_completes calm launchTry (launchBody_full image good near few may open_ filled)⟩⟩
  · intro wrong hh
    refine raises hh (by decide) fun full ok => ?_
    cases good : badLaunch bytes with
    | true => exact launchBody_malformed image good
    | false =>
      obtain ⟨near, many⟩ := wrong.resolve_left (by rw [good]; decide)
      exact launchBody_late image good near many
  · intro good near few stranger foreign hh
    exact raises hh (by decide) fun full ok => launchBody_denied image good near few (not_or.2 ⟨stranger, foreign⟩)

end Sys2Proof.Proofs

/-! SUPPORT. Proofs: axis arrays and their bit maps (R182, R192, R196 to R198). -/

namespace Sys2Proof.Proofs

open Sys2Proof Sys2Proof.Machine Sys2Proof.Laws

/-- An instruction whose image lets it complete. -/
theorem withImage_done {s u v : State} {ea : Word} {n al : Nat} {limit : Landing → Option Trap} {img : List Byte} {f : List Byte → State → Body}
    {ls : List Pending} (image : ImageAt s ea n al limit img u) (done : f img u = .done v ls) : withImage ea n al limit s f = .done v ls := by
  rw [withImage_image image, done]

/-! ### Definition and release -/

section
variable {s s1 : State} {d b : BitVec 5} {img : List Byte} {g : Region}

/-- The array that an `axdef` with the image img defines. -/
abbrev definedArray (img : List Byte) (s1 : State) (b : BitVec 5) (g : Region) : AxArray :=
  parseAxis img (bits (rd s1 b) 2 0) g.rcb g.clusters

/-- An array with the slot of new and one of its tiles. -/
def SlotTaken (s1 : State) (new : AxArray) : Prop := ∃ z ∈ s1.arrays, z.slot = new.slot ∧ ∃ q ∈ z.tiles, q ∈ new.tiles

theorem slotTaken_iff {new : AxArray} :
    (s1.arrays.any fun x => decide (x.slot = new.slot) && x.tiles.any new.tiles.contains) = true ↔ SlotTaken s1 new := by
  simp only [SlotTaken, List.any_eq_true, Bool.and_eq_true, decide_eq_true_eq, List.contains_iff_mem]

variable (region : (regionOf s1 (coreOf s1.who)).bind (fun r => findRegion s1 r.1) = some g) (zero : bits (rd s1 b) 63 3 = 0)
  (fine : badAxis img (definedArray img s1 b g) g.clusters.length = false)
include region zero fine

theorem defineArray_taken (taken : SlotTaken s1 (definedArray img s1 b g)) : defineArray d b img s1 = .done (wr s1 d 1) [] := by
  unfold defineArray
  rw [region]
  dsimp only
  rw [zero, fine, if_neg (by decide), if_pos (slotTaken_iff.2 taken)]

theorem defineArray_defines (free : ¬SlotTaken s1 (definedArray img s1 b g)) (quiet : pending s1 s1.who isStoreOrSend = false) :
    defineArray d b img s1 = .done (wr { s1 with arrays := s1.arrays ++ [definedArray img s1 b g] } d (definedArray img s1 b g).handle) [] := by
  unfold defineArray
  rw [region]
  dsimp only
  rw [zero, fine, if_neg (by decide), if_neg (mt slotTaken_iff.1 free), quiet, if_neg Bool.false_ne_true]

end

theorem handle_eq (r : AxArray) : r.handle = BitVec.ofNat 64 (2 ^ 63 + r.t * 2 ^ 15 + r.first * 8 + r.slot) := by
  simp only [AxArray.handle, AxArray.name, Nat.add_assoc]

/-! ### Maps -/

section
variable {s : State} {a : BitVec 5} {r : AxArray} {f : AxArray → Body} {b : Body} (named : arrayOf s (rd s a) = some r)
include named

theorem withArray_whole (whole : r.fault = false) : withArray a s f = f r := by
  unfold withArray
  rw [named]
  exact if_neg (Bool.eq_false_iff.1 whole)

theorem withArray_faulted (fault : r.fault = true) : withArray a s f = .trap { code := 0x1C } := by
  unfold withArray
  rw [named]
  exact if_pos fault

end

theorem afterWave_free {s : State} {r : AxArray} {b : Body} (free : r.wave ≠ 1 ∧ r.wave ≠ 2) : afterWave r s b = b :=
  if_neg (not_or.2 free)

theorem installMap_installs {d : BitVec 5} {r : AxArray} {img : List Byte} {s : State}
    (perm : isPerm r.n ((img.take r.n).map (·.toNat)) = true) (zero : ∀ z ∈ img.drop r.n, z = 0) (free : r.wave ≠ 1 ∧ r.wave ≠ 2) :
    installMap d r img s = .done (wr (putArr s { r with
      map := (img.take r.n).map (·.toNat)
      prev := (img.take r.n).map (·.toNat)
      stamps := List.replicate r.n 0
      clock := 0
      version := r.version + 1 }) d (BitVec.ofNat 64 (r.version + 1))) [] := by
  have clean : ((img.drop r.n).any fun z => decide (z ≠ 0)) = false := by
    rw [List.any_eq_false]
    intro z at_
    rw [zero z at_]
    decide
  unfold installMap
  dsimp only
  rw [perm, clean, if_neg (by decide), afterWave_free free]

/-- The operands of `map.swap` name two bits of the array. -/
theorem swap_operands {r : AxArray} {y : Word} (high : bits y 63 14 = 0) (mid : bits y 7 6 = 0) (first : bits y 5 0 < r.n)
    (second : bits y 13 8 < r.n) :
    ¬(decide (bits y 63 14 ≠ 0) || decide (bits y 7 6 ≠ 0) || decide (r.n ≤ bits y 5 0) || decide (r.n ≤ bits y 13 8)) = true := by
  rw [high, mid, decide_eq_false (not_le.2 first), decide_eq_false (not_le.2 second)]
  decide

theorem needThen_free {r : AxArray} {named : List Nat} {s : State} {f : Bool → AxArray → State → Body} (free : r.wave ≠ 1 ∧ r.wave ≠ 2) :
    needThen r named s f =
      let z := r.need named (asCtx s.who) (highOf s)
      f z.2 z.1 (putArr s z.1) := by
  unfold needThen
  rw [decide_eq_false (not_or.2 free), Bool.and_false, if_neg Bool.false_ne_true]

theorem remap_operand {r : AxArray} {y : Word} {named : List Nat} (high : bits y 63 32 = 0) (few : named.length ≤ r.b) :
    ¬(decide (bits y 63 32 ≠ 0) || decide (r.b < named.length)) = true := by
  rw [high, decide_eq_false (not_lt.2 few)]
  decide

/-- Settles O43: each branch of each body, as its condition says. -/
theorem axisArrays : Obligations.AxisArrays := by
  unfold Obligations.AxisArrays
  intro s d a b st calm x y
  have axdef : exec (.axdef d a b st) s = execAxdef d a b st s := rfl
  have release : exec (.axdefRelease d b st) s = execAxdefRelease d b st s := rfl
  have mapSet : exec (.mapSet d a b st) s = execMapSet d a b st s := rfl
  have mapSwap : exec (.mapSwap d a b st) s = execMapSwap d a b st s := rfl
  have mapRd : exec (.mapRd d a b st) s = execMapRd d a b st s := rfl
  have remap : exec (.remap d a b st) s = execRemap d a b st s := rfl
  have rmwait : exec (.rmwait a st) s = execRmwait a st s := rfl
  refine ⟨?_, ?_, ?_, ?_, ?_, ?_⟩
  · intro img s1 g image region zero new fine
    constructor
    · intro taken
      exact agent_completes calm axdef (withImage_done image (defineArray_taken region zero fine taken))
    · intro distinct quiet
      have free : ¬SlotTaken s1 new := fun ⟨z, at_, slot, q, mine, its⟩ => distinct z at_ slot q mine its
      rw [← handle_eq]
      exact agent_completes calm axdef (withImage_done image (defineArray_defines region zero fine free quiet))
  · intro r named first second quiet none applies
    refine agent_completes (ls := []) calm release ?_
    rw [show arrayOf s (rd s b) = some r from named]
    dsimp only
    rw [if_neg (not_or.2 ⟨first, second⟩), quiet, none, applies, if_neg (by decide)]
  · intro r named whole free version l1 l2 p q
    refine ⟨?_, ?_, ?_, ?_⟩
    · intro img s1 image perm zero isFree
      exact agent_completes calm mapSet ((withArray_whole named whole).trans (withImage_done image (installMap_installs perm zero isFree)))
    · intro high mid first second
      have operands := swap_operands high mid first second
      constructor
      · intro same
        exact agent_completes calm mapSwap ((withArray_whole named whole).trans ((if_neg operands).trans (if_pos same)))
      · intro differ isFree
        exact agent_completes calm mapSwap ((withArray_whole named whole).trans
          ((if_neg operands).trans ((if_neg differ).trans (afterWave_free isFree))))
    · intro isFree
      exact agent_completes calm rmwait ((withArray_whole named whole).trans (afterWave_free isFree))
    · intro high l chosen named' z few
      have operand := remap_operand (named := named') high few
      constructor
      · intro empty rests
        refine agent_completes (ls := []) calm remap ((withArray_whole named whole).trans ?_)
        rw [show selectors r.n (rd s b) = some l from chosen]
        refine (if_neg operand).trans ((if_pos (List.isEmpty_iff.2 empty)).trans ?_)
        rw [startWave, if_neg rests, if_neg rests]
      · intro filled isFree
        refine agent_completes (ls := []) calm remap ((withArray_whole named whole).trans ?_)
        rw [show selectors r.n (rd s b) = some l from chosen]
        exact (if_neg operand).trans ((if_neg (mt List.isEmpty_iff.1 filled)).trans (needThen_free isFree))
  · intro r named
    constructor
    · intro inside
      refine agent_completes (ls := []) calm mapRd ?_
      rw [show arrayOf s (rd s a) = some r from named]
      exact if_pos inside
    · intro size whole
      have is64 : (rd s b).toNat = 64 := by rw [show rd s b = 64 from whole]; rfl
      refine agent_completes (ls := []) calm mapRd ?_
      rw [show arrayOf s (rd s a) = some r from named]
      dsimp only
      rw [is64, if_neg (not_lt.2 size), if_pos rfl]
  · intro r named fault hh
    exact ⟨agent_traps calm hh mapSwap (withArray_faulted named fault) (by decide),
      agent_traps calm hh remap (withArray_faulted named fault) (by decide),
      agent_traps calm hh rmwait (withArray_faulted named fault) (by decide)⟩
  · intro unnamed hh
    constructor
    · refine agent_traps calm hh mapRd ?_ (by decide)
      rw [show arrayOf s (rd s a) = .none from unnamed]
      rfl
    · refine agent_traps calm hh remap ?_ (by decide)
      unfold withArray
      rw [show arrayOf s (rd s a) = .none from unnamed]
      rfl

end Sys2Proof.Proofs

/-! SUPPORT. Proofs: the elements of axis arrays (R199) and the axis unit's instructions (R252 to R269). -/

namespace Sys2Proof.Proofs

open Sys2Proof Sys2Proof.Machine Sys2Proof.Laws

/-! ### `axld` and `axst` -/

/-- An access to the elements of a register that passes every check. -/
theorem axmem_goes {s s1 : State} {st : BitVec 3} {a b : BitVec 5} {x : Access} {k : Nat} {r : AxArray} {ls : List (Word × Landing)}
    {go : AxArray → Nat → State → List (Word × Landing) → Body} (ready : VectorReady s x) (named : arrayOf s (rd s a) = some r)
    (inside : (rd s b).toNat < 2 ^ r.n) (first : (rd s b).toNat % (32 / r.z) = 0)
    (lands : landAll s r.z k (r.addrs (rd s b).toNat) = .ok (ls, s1)) :
    axmem s st a b x k go = .next (retire s 4 st ((go r (rd s b).toNat s1 ls).after (x.uses [useS a, useS b]))) := by
  obtain ⟨core, way, quiet, streams, -⟩ := ready
  have fits : ¬(2 ^ r.n ≤ (rd s b).toNat ∨ (rd s b).toNat % (32 / r.z) ≠ 0) := by
    rw [not_or, not_le, not_not]; exact ⟨inside, first⟩
  rw [axmem, if_neg (not_not.2 core), if_neg (Bool.eq_false_iff.1 way), shortStop_quiet quiet]
  dsimp only
  rw [named]
  dsimp only
  rw [if_neg fits, lands]
  dsimp only
  rw [streams]

/-- The entry that an `axst` puts into the buffer. -/
def axstEntry (s1 : State) (r : AxArray) (idx : Nat) (d : BitVec 6) (ls : List (Word × Landing)) : StoreEntry :=
  { loc := (ls.head?.map (·.2.loc)).getD 0
    chan := if ls.any fun p => (routeOf s1 s1.who p.2.loc).1 = 3 then 3 else 0
    body := .axst r.id r.z idx (toBytes 32 (readV s1.cur d).toNat)
    seq := s1.cur.seqNext
    leaf := (ls.head?.map (·.2.leaf)).getD 0
    tag := tagOf s1 s1.who
    high := highOf s1
    troot := s1.cur.troot }

/-- What an `axst` leaves. -/
def axstLeft (s1 : State) (r : AxArray) (idx : Nat) (d : BitVec 6) (ls : List (Word × Landing)) : State :=
  let c := popAll s1.cur [d]
  { s1 with cur := { c with buf := c.buf ++ [axstEntry s1 r idx d ls], seqNext := c.seqNext + 1 } }

theorem axstEntry_chan (s1 : State) (r : AxArray) (idx : Nat) (d : BitVec 6) (ls : List (Word × Landing)) [Decidable (∃ q ∈ ls, (routeOf s1 s1.who q.2.loc).1 = 3)] :
    (axstEntry s1 r idx d ls).chan = if ∃ q ∈ ls, (routeOf s1 s1.who q.2.loc).1 = 3 then 3 else 0 := by
  simp only [axstEntry, List.any_eq_true, decide_eq_true_eq]

theorem axstLeft_keeps (s1 : State) (r : AxArray) (idx : Nat) (d : BitVec 6) (ls : List (Word × Landing)) :
    let u := axstLeft s1 r idx d ls
    u.cur.regs = s1.cur.regs ∧ u.cur.vregs = s1.cur.vregs ∧ u.mem = s1.mem ∧ u.cur.buf = s1.cur.buf ++ [axstEntry s1 r idx d ls] := by
  obtain ⟨_, pop⟩ := popAll_only s1.cur [d]
  unfold axstLeft
  rw [pop]
  exact ⟨rfl, rfl, rfl, rfl⟩

/-- Settles O44: both forms go behind the checks of `axmem`. -/
theorem axisElements : Obligations.AxisElements := by
  unfold Obligations.AxisElements
  intro s d a b st r named idx eas inside first
  have axld : exec (.axld d a b st) s = execAxld d a b st s := rfl
  have axst : exec (.axst d a b st) s = execAxst d a b st s := rfl
  constructor
  · intro ls s1 vs s2 ready lands quiet vals
    rw [execAxld, axmem_goes ready named inside first lands] at axld
    rw [quiet, if_neg Bool.false_ne_true, vals] at axld
    exact completes_of_done axld
  · intro ls s1 ready lands room
    have open_ : ¬bufFull s1 = true := by rw [bufFull, decide_eq_true_eq]; exact not_le.2 room
    rw [execAxst, axmem_goes ready named inside first lands] at axst
    rw [if_neg open_] at axst
    exact ⟨axstLeft s1 r idx d ls, axstEntry s1 r idx d ls, completes_of_done axst, rfl, rfl, rfl, axstEntry_chan ..,
      axstLeft_keeps ..⟩

/-! ### Tickets -/

section
variable {s : State} {a : BitVec 5} {wait hit : State → Body}

/-- The ticket is one that the core's axis unit has handed out. -/
def TicketGiven (s : State) (x : Word) : Prop :=
  bits x 63 61 = 0 ∧ bits x 60 60 = 1 ∧ bits x 59 48 = 0 ∧ seqAfter (bits x 47 0) (((myCore s).axNext + 2 ^ 48 - 1) % 2 ^ 48) = false

/-- `AXDONE` covers the ticket. -/
def TicketCovered (s : State) (x : Word) : Prop := seqLe (bits x 47 0) (bits (myCore s).axdone 47 0) = true

/-- `AXERR` holds an error of the ticket's request or of one before it. -/
def TicketFailed (s : State) (x : Word) : Prop :=
  bits (myCore s).axerr 63 63 = 1 ∧ seqLe (bits (myCore s).axerr 47 0) (bits x 47 0) = true

/-- `axisTest` for a ticket that was handed out. -/
theorem axisTest_given (good : TicketGiven s (rd s a)) : axisTest a wait hit s =
    if !seqLe (bits (rd s a) 47 0) (bits (myCore s).axdone 47 0) then wait s
    else if bits (myCore s).axerr 63 63 = 1 && seqLe (bits (myCore s).axerr 47 0) (bits (rd s a) 47 0)
      then .trap (axisTrap (myCore s).axerr) else hit s := by
  obtain ⟨high, mark, zero, past⟩ := good
  have layout : ¬(decide (bits (rd s a) 63 61 ≠ 0) || decide (bits (rd s a) 60 60 = 0) || decide (bits (rd s a) 59 48 ≠ 0)) = true := by
    rw [high, mark, zero]; decide
  exact (if_neg layout).trans (if_neg (Bool.eq_false_iff.1 past))

theorem axisTest_waits (good : TicketGiven s (rd s a)) (open_ : ¬TicketCovered s (rd s a)) : axisTest a wait hit s = wait s := by
  rw [axisTest_given good, Bool.eq_false_iff.2 open_]
  rfl

theorem axisTest_hits (good : TicketGiven s (rd s a)) (covered : TicketCovered s (rd s a)) (clean : ¬TicketFailed s (rd s a)) :
    axisTest a wait hit s = hit s := by
  rw [axisTest_given good, show _ = true from covered]
  refine (if_neg (by decide)).trans (if_neg ?_)
  rw [Bool.and_eq_true, decide_eq_true_eq]
  exact clean

theorem axisTest_fails (good : TicketGiven s (rd s a)) (covered : TicketCovered s (rd s a)) (failed : TicketFailed s (rd s a)) :
    axisTest a wait hit s = .trap (axisTrap (myCore s).axerr) := by
  rw [axisTest_given good, show _ = true from covered]
  refine (if_neg (by decide)).trans (if_pos ?_)
  rw [Bool.and_eq_true, decide_eq_true_eq]
  exact failed

theorem axisTest_refuses (bad : ¬TicketGiven s (rd s a)) : axisTest a wait hit s = .trap { code := 0x02 } := by
  unfold axisTest
  dsimp only
  by_cases layout : (decide (bits (rd s a) 63 61 ≠ 0) || decide (bits (rd s a) 60 60 = 0) || decide (bits (rd s a) 59 48 ≠ 0)) = true
  · exact if_pos layout
  · refine (if_neg layout).trans (if_pos ?_)
    rw [Bool.or_eq_true, Bool.or_eq_true, decide_eq_true_eq, decide_eq_true_eq, decide_eq_true_eq, not_or, not_or, not_not, not_not] at layout
    obtain ⟨⟨high, mark⟩, zero⟩ := layout
    by_contra past
    exact bad ⟨high, (bits_one_eq_zero_or_one _ _).resolve_left mark, zero, Bool.eq_false_iff.2 past⟩

end

/-! ### Requests -/

theorem queueFull_false {s : State} (room : (myCore s).axq.length < 8) : queueFull s = false := decide_eq_false (not_le.2 room)

theorem need_tiles (r : AxArray) (named : List Nat) (who : Nat) (high : BitVec 16) : (r.need named who high).1.tiles = r.tiles := by
  unfold AxArray.need
  dsimp only
  split <;> rfl

/-- What `axmm` does with its descriptor. -/
def axmmBody (d : BitVec 6) (a : BitVec 5) (s : State) (img : List Byte) (s1 : State) : Body :=
  let q := parseMm img
  match sliceAt (highOf s1) q.a, sliceAt (highOf s1) q.b with
  | some la, some lb =>
    if !sliceAllows s1 s1.who (sliceTile la) || !sliceAllows s1 s1.who (sliceTile lb) then .trap { code := 0x0D }
    else if badMm (myCore s1).fmt q la lb then .trap illegalOperand
    else match streamCheck s1.cur ⟨[d], []⟩ with
      | some (.trap t) => .keep (raiseStream s1 t)
      | some .wait => .wait s .stalled
      | .none =>
        if queueFull s1 then .wait s .stalled else
        .done (acceptReq { s1 with cur := popAll s1.cur [d] }
          { op := 1, a := rd s a, desc := img, rows := mmRows (readV s1.cur d) q.m q.arows }) []
  | _, _ => .trap illegalOperand

theorem execAxmm_eq {d : BitVec 6} {a : BitVec 5} {st : BitVec 3} {s : State} (core : kindOf s.who = 0)
    (way : wrongWay s.cur ⟨[d], []⟩ = false) (quiet : Quiet s) : execAxmm d a st s =
      .next (retire s 4 st ((withImage (rd s a) 64 64 (inOwnSlice s 64) s (axmmBody d a s)).after [useS a, useV d])) := by
  unfold execAxmm
  rw [if_neg (not_not.2 core), if_neg (Bool.eq_false_iff.1 way), shortStop_quiet quiet]
  rfl

theorem axmmBody_asks {d : BitVec 6} {a : BitVec 5} {s s1 : State} {img : List Byte} {la lb : Nat}
    (first : sliceAt (highOf s1) (parseMm img).a = some la) (second : sliceAt (highOf s1) (parseMm img).b = some lb)
    (own : sliceAllows s1 s1.who (sliceTile la) = true) (own' : sliceAllows s1 s1.who (sliceTile lb) = true)
    (fine : badMm (myCore s1).fmt (parseMm img) la lb = false) (streams : streamCheck s1.cur ⟨[d], []⟩ = .none)
    (room : (myCore s1).axq.length < 8) :
    axmmBody d a s img s1 = .done (acceptReq { s1 with cur := popAll s1.cur [d] }
      { op := 1, a := rd s a, desc := img, rows := mmRows (readV s1.cur d) (parseMm img).m (parseMm img).arows }) [] := by
  unfold axmmBody
  dsimp only
  rw [first, second]
  dsimp only
  rw [own, own', if_neg (by decide), fine, if_neg Bool.false_ne_true, streams]
  dsimp only
  rw [queueFull_false room, if_neg Bool.false_ne_true]

/-- The operands of an `axap` agree with its array and its matrix. -/
theorem axap_operands {s : State} {r : AxArray} {y : Word} {named : List Nat} {m : Matrix} (some_ : named ≠ [])
    (few : named.length ≤ min 4 r.b) (high : bits y 63 49 = 0) (size : m.k = 2 ^ named.length) (cplx : m.cplx = true → isCplx r.fmt = true)
    (dest : badDest s r y = false) :
    ¬(decide (bits y 63 49 ≠ 0) || decide (named.length = 0) || decide (4 < named.length) || decide (m.k ≠ 2 ^ named.length) ||
      (m.cplx && !isCplx r.fmt) || badDest s r y || decide (r.b < named.length)) = true := by
  obtain ⟨four, block⟩ := le_min_iff.1 few
  have paired : (m.cplx && !isCplx r.fmt) = false := by
    cases c : m.cplx with
    | false => rfl
    | true => rw [cplx c]; rfl
  rw [high, decide_eq_false (mt List.length_eq_zero_iff.1 some_), decide_eq_false (not_lt.2 four), decide_eq_false (not_not.2 size), paired, dest,
    decide_eq_false (not_lt.2 block)]
  decide

/-- The limits of `axmat`'s second operand, and of its image. -/
theorem axmat_limit {s : State} {y : Word} {n : Nat} (high : bits y 63 9 = 0) (mid : bits y 7 6 = 0) (low : bits y 3 3 = 0) :
    (fun (l : Landing) => if decide (bits y 63 9 ≠ 0) || decide (bits y 7 6 ≠ 0) || decide (bits y 3 3 ≠ 0) then some illegalOperand
      else inOwnSlice s n l) = inOwnSlice s n := by
  funext l
  rw [high, mid, low]
  rfl

/-- Settles O45: each branch of each body, as its condition says. -/
theorem axisUnitForms : Obligations.AxisUnitForms := by
  unfold Obligations.AxisUnitForms
  intro s d a b v st calm x y c tile ticketOf k bytes q good covered failed
  have axctx : exec (.axctx a st) s = execAxctx a st s := rfl
  have axmat : exec (.axmat a b st) s = execAxmat a b st s := rfl
  have axap : exec (.axap d a b st) s = execAxap d a b st s := rfl
  have axmm : exec (.axmm v a st) s = execAxmm v a st s := rfl
  have axdrain : exec (.axdrain d a b st) s = execAxdrain d a b st s := rfl
  have axstat : exec (.axstat d a st) s = execAxstat d a st s := rfl
  have axwait : exec (.axwait a st) s = execAxwait a st s := rfl
  refine ⟨?_, ?_, ?_, ?_, ?_, ?_, ?_, ?_, ?_⟩
  · intro img s1 image fine idle
    refine agent_completes (ls := []) calm axctx (withImage_done image ?_)
    dsimp only
    rw [fine, if_neg Bool.false_ne_true, idle]
    rfl
  · intro img s1 high mid low image t
    refine agent_completes (ls := []) calm axmat ?_
    dsimp only
    rw [axmat_limit high mid low]
    exact withImage_done image rfl
  · intro r named m isArr names some_ few slot high size cplx dest whole room first second
    have operands := axap_operands some_ few high size cplx dest
    let z := r.need named (asCtx s.who) (highOf s)
    refine ⟨putArr (putArr s z.1) { z.1 with applies := z.1.applies ++ [coreOf s.who] },
      { op := 0, b := y, mat := some m, bits := named, arr := z.1.id, rows := z.1.map, left := z.1.tiles },
      agent_completes (ls := []) calm axap ?_, rfl, rfl, rfl, rfl, need_tiles .., rfl, rfl⟩
    rw [show arrayOf s (rd s a) = some r from isArr]
    dsimp only
    rw [show namedBits r (rd s b) = some named from names,
      show (getTile s (tileOf s.who)).slots.toList.getD (bits (rd s b) 34 32) .none = some m from slot]
    dsimp only
    rw [if_neg operands, whole, if_neg Bool.false_ne_true, queueFull_false room, if_neg Bool.false_ne_true]
    exact needThen_free ⟨first, second⟩
  · intro img s1 la lb core way streams image p first second own own' fine room
    rw [execAxmm_eq core way calm.2] at axmm
    rw [withImage_done image (axmmBody_asks first second own own' fine streams room)] at axmm
    exact completes_of_done axmm
  · intro aligned allowed fine room
    have granule : ¬(decide (bits (rd s b) 26 26 = 0) && decide ((rd s a).toNat % 16 ≠ 0)) = true := by
      rw [Bool.and_eq_true, decide_eq_true_eq, decide_eq_true_eq]
      rintro ⟨clear, off⟩
      exact aligned.elim (fun set => absurd (set.symm.trans clear) (by decide)) off
    refine agent_completes (ls := []) calm axdrain ?_
    dsimp only
    rw [if_neg granule, show drainDenied s (myCore s).fmt (rd s a) (rd s b) = .none from allowed]
    dsimp only
    rw [show badDrain (myCore s).fmt (rd s a) (rd s b) = false from fine, if_neg Bool.false_ne_true, queueFull_false room,
      if_neg Bool.false_ne_true]
    rfl
  · intro good open_
    exact ⟨agent_completes calm axstat (axisTest_waits good open_), agent_stalls calm axwait (axisTest_waits good open_)⟩
  · intro good covered clean
    exact ⟨agent_completes calm axstat (axisTest_hits good covered clean), agent_completes calm axwait (axisTest_hits good covered clean)⟩
  · intro good covered failed hh
    have other : (if bits c.axerr 61 59 = 1 then 0x1A else 0x1B) ≠ 0x08 ∧ (if bits c.axerr 61 59 = 1 then 0x1A else 0x1B) ≠ 0x09 ∧
        (if bits c.axerr 61 59 = 1 then 0x1A else 0x1B) ≠ 0x100 := by
      split <;> decide
    simp only [List.forall_mem_cons, List.not_mem_nil, false_imp_iff, implies_true, and_true]
    exact ⟨agent_traps calm hh axstat (axisTest_fails good covered failed) other,
      agent_traps calm hh axwait (axisTest_fails good covered failed) other⟩
  · intro bad hh
    exact ⟨agent_traps calm hh axstat (axisTest_refuses bad) (by decide), agent_traps calm hh axwait (axisTest_refuses bad) (by decide)⟩

end Sys2Proof.Proofs

/-! SUPPORT. Proofs: entries that leave their buffer, acknowledgements, replies and host completions (R113, R115, R116, R140, R322, R363). -/

namespace Sys2Proof.Proofs

open Sys2Proof Sys2Proof.Machine Sys2Proof.Laws

/-! ### A context in focus -/

@[simp] theorem focus_who (s : State) (a : Nat) : (focus s a).who = a := by
  unfold focus
  split
  next same => exact same.symm
  next => rfl

@[simp] theorem focus_cur (s : State) (a : Nat) : (focus s a).cur = getCtx s a := by
  unfold focus getCtx
  split <;> rfl

/-- What is done with a context in focus depends on the state that has it there alone. -/
theorem withFocus_congr {s : State} {a : Nat} {f g : State → State} (same : f (focus s a) = g (focus s a)) : withFocus s a f = withFocus s a g := by
  rw [withFocus, same, withFocus]

/-- A handler takes a trap that no pager does; the TLBs stay as they are. -/
theorem raiseIn_handler {s : State} (hh : HasHandler s) {t : Trap} (other : t.code ≠ 0x08 ∧ t.code ≠ 0x09 ∧ t.code ≠ 0x100) :
    raiseIn s t = { s with cur := trapCtx s.cur t.code t.access t.info t.va } := by
  obtain ⟨notRead, notWrite, notWait⟩ := other
  obtain ⟨core, vector, open_⟩ := hh
  have direct : toPager s t = .none := by simp [toPager, notRead, notWrite]
  have untouched : pagerTouch s t = s := by simp [pagerTouch, notRead, notWrite]
  have now : (t.waits || pagerWaits s t) = false := by simp [pagerWaits, Trap.waits, notRead, notWrite, notWait]
  have handled : ¬(s.cur.tvec = 0 ∨ bits s.cur.tstatus 0 0 = 1) := by
    rw [open_]; exact fun h => h.elim vector (by decide)
  rw [raiseIn, now, if_neg Bool.false_ne_true, direct]
  dsimp only
  rw [untouched, enterTrap, core, if_neg Bool.false_ne_true, if_neg handled]
  rfl

/-- The trap of a home's answer touches no TLB. -/
theorem refreshTlb_answer {s : State} {c : Nat} {va : VAddr} (code : c = 0x10 ∨ c = 0x11) :
    refreshTlb s { code := c, access := 0, va := va } = s := by
  rcases code with rfl | rfl <;> simp [refreshTlb, refreshFor, Trap.waits]

theorem deliverPosted_only (s : State) : ∃ m, deliverPosted s = { s with mem := m, posted := [] } := by
  have step : ∀ (l : List (Nat × List Byte)) (u : State), ∃ m, l.foldl (fun s w => writeBytes s w.1 w.2) u = { u with mem := m } := by
    intro l
    induction l with
    | nil => exact fun u => ⟨u.mem, rfl⟩
    | cons w t ih =>
      intro u
      obtain ⟨m, rest⟩ := ih (writeBytes u w.1 w.2)
      exact ⟨m, by rw [List.foldl_cons, rest, writeBytes_only]⟩
  obtain ⟨m, folded⟩ := step s.posted s
  exact ⟨m, by rw [deliverPosted, folded]⟩

theorem getCtx_deliverPosted (s : State) (a : Nat) : getCtx (deliverPosted s) a = getCtx s a := by
  obtain ⟨m, only⟩ := deliverPosted_only s
  rw [only]
  rfl

theorem getCtx_dropReply (s : State) (i a : Nat) : getCtx (dropReply s i) a = getCtx s a := rfl

/-! ### The store buffer -/

/-- The context's buffer with its oldest entries gone, which the path of a routed entry counts. -/
def bufferGone (s : State) (ctx : Nat) (e : StoreEntry) (l : List StoreEntry) (n : Nat) : State :=
  let c := getCtx s ctx
  putCtx s ctx (if e.chan = 2 then bumpSent { c with buf := l } e.path n else { c with buf := l })

theorem putCtx_dev (s : State) (a : Nat) (c : Ctx) : (putCtx s a c).dev = s.dev := by unfold putCtx; split <;> rfl

theorem leaveBuffer_here {s : State} {ctx : Nat} {e : StoreEntry} {l : List StoreEntry} {n : Nat} (here : ∀ h r, e.body ≠ .remote h r) :
    leaveBuffer s ctx e l n = sendMsg (bufferGone s ctx e l n) ctx e := by
  unfold leaveBuffer
  dsimp only
  split
  next h r is => exact absurd is (here h r)
  next => rfl

theorem leaveBuffer_remote {s : State} {ctx : Nat} {e : StoreEntry} {l : List StoreEntry} {n : Nat} {h : Word} {r : Vector Word 8}
    (remote : e.body = .remote h r) (away : bits h 52 34 ≠ bits s.dev.gxcfg 18 0) :
    leaveBuffer s ctx e l n = { bufferGone s ctx e l n with remotes := s.remotes ++ [⟨ctx, h, r, .none, s.stamp, e.seq⟩] } := by
  unfold leaveBuffer bufferGone
  dsimp only
  rw [remote]
  dsimp only
  rw [putCtx_dev, if_neg away]
  unfold putCtx
  split <;> rfl

/-- The two entries of a `vst`'s line leave as one store. -/
theorem linePair_store {e f p : StoreEntry} (pair : linePair e f = some p) :
    p.chan = e.chan ∧ p.path = e.path ∧ ∃ d, p.body = .store d true := by
  unfold linePair at pair
  split at pair
  · split at pair
    · cases pair; exact ⟨rfl, rfl, _, rfl⟩
    · cases pair
  · cases pair

theorem linePair_remote {e f : StoreEntry} {h : Word} {r : Vector Word 8} (remote : e.body = .remote h r) : linePair e f = .none := by
  unfold linePair
  rw [remote]

section
variable {s : State} {ctx : Nat} {e : StoreEntry} {rest : List StoreEntry} (oldest : (getCtx s ctx).buf = e :: rest)
include oldest

theorem drain_stays (held : mayDrain s ctx e = false) : execStoreBufferDrain ctx s = .next s := by
  unfold execStoreBufferDrain
  rw [oldest]
  dsimp only
  rw [held]
  rfl

variable (may : mayDrain s ctx e = true)
include may

theorem drain_alone (alone : ∀ f ∈ rest.head?, linePair e f = .none) : execStoreBufferDrain ctx s = .next (leaveBuffer s ctx e rest 1) := by
  unfold execStoreBufferDrain
  rw [oldest]
  dsimp only
  rw [may, if_neg (by decide)]
  cases rest with
  | nil => rfl
  | cons f rest' =>
    dsimp only
    rw [alone f rfl]

theorem drain_pair {f p : StoreEntry} {rest' : List StoreEntry} (two : rest = f :: rest') (pair : linePair e f = some p) :
    execStoreBufferDrain ctx s = .next (leaveBuffer s ctx p rest' 2) := by
  unfold execStoreBufferDrain
  rw [oldest, two]
  dsimp only
  rw [may, if_neg (by decide), pair]

end

/-! ### Replies -/

theorem replyAt_held {s : State} {i : Nat} {r : Reply} (at_ : s.replies[i]? = some r) (earlier : ∃ q ∈ s.replies.take i, sameWay s r q = true) :
    replyAt s i = .none := by
  rw [replyAt, at_, Option.filter_some, List.any_eq_true.2 earlier]
  rfl

section
variable {s : State} {i : Nat} {r : Reply} (at_ : replyAt s i = some r)
include at_

theorem storeAck_store {d : List Byte} {line : Bool} (store : r.entry.body = .store d line) :
    let k := getCtx s r.dst
    let c := if r.entry.chan = 2 then bumpDone k r.entry.path (if d.length = 64 then 2 else 1) else k
    execStoreAck i s = .next (putCtx (dropReply s i) r.dst (if r.status = 0 then c else recordFailure c r.entry r.status)) := by
  unfold execStoreAck
  rw [at_]
  dsimp only
  rw [store]

theorem storeAck_axst {arr z idx : Nat} {d : List Byte} (axst : r.entry.body = .axst arr z idx d) (fine : r.status = 0) :
    execStoreAck i s = .next (putCtx (dropReply s i) r.dst (getCtx s r.dst)) := by
  unfold execStoreAck
  rw [at_]
  dsimp only
  rw [axst]
  dsimp only
  rw [if_pos fine]

theorem storeAck_send (send : isSend r.entry = true) : execStoreAck i s = .next (dropReply s i) := by
  unfold execStoreAck
  rw [at_]
  dsimp only
  rw [isSend] at send
  cases body : r.entry.body with
  | record core x => rfl
  | remote h x => rfl
  | _ => simp [isSendBody, body] at send

theorem loadReply_load {n slot : Nat} (load : r.entry.body = .load n slot) :
    execLoadReply i s = .next (withFocus (dropReply s i) r.dst fun s =>
      commitLoads { s with cur := slotReply s.cur slot r.status (fromBytes r.data) } s.cur.loads.length) := by
  unfold execLoadReply
  rw [at_]
  dsimp only
  rw [load]

end

theorem recordFailure_first {c : Ctx} {e : StoreEntry} {status : Nat} (clean : bits c.sterr 63 63 = 0) (main : isSlice e.loc = false) :
    recordFailure c e status = { c with sterr := BitVec.ofNat 64 (2 ^ 63 + status * 2 ^ 60 + e.loc) } := by
  rw [recordFailure, if_neg (by rw [clean]; decide)]
  dsimp only
  rw [main, if_neg Bool.false_ne_true, if_neg Bool.false_ne_true, Nat.add_zero]

theorem recordFailure_later {c : Ctx} {e : StoreEntry} {status : Nat} (recorded : bits c.sterr 63 63 = 1) :
    recordFailure c e status = { c with sterr := setBits c.sterr 62 62 1 } := if_pos recorded

/-! ### Loads -/

/-- The reply of the only load of a context that nothing holds back finishes it. -/
theorem commitLoads_only {s : State} {x : LoadSlot} {slot v : Nat} (one : s.cur.loads = [x]) (is : x.id = slot) (calm : x.noticed = false) :
    commitLoads { s with cur := slotReply s.cur slot 0 v } s.cur.loads.length =
      wr { s with cur := { s.cur with loads := [] } } x.d (extend x.sx x.size (v % 256 ^ x.size)) := by
  have replied : slotReply s.cur slot 0 v = { s.cur with loads := [{ x with val := some (0, v) }] } := by
    rw [slotReply, one, List.map_cons, List.map_nil, if_pos is]
  rw [replied, one, List.length_singleton, commitLoads]
  dsimp only
  rw [calm, if_neg Bool.false_ne_true]
  rfl

/-- The context back at the load x, which has no effect. -/
def loadUndone (c : Ctx) (x : LoadSlot) : Ctx :=
  { c with loads := [], pc := x.pc, lpctl0 := x.lp0, lpctl1 := x.lp1, span := 0, board := [] }

/-- A reply that its home answers badly traps at the load. -/
theorem commitLoads_traps {s : State} {x : LoadSlot} {slot status v : Nat} (hh : HasHandler s) (one : s.cur.loads = [x]) (is : x.id = slot)
    (calm : x.noticed = false) (bad : status ≠ 0) :
    commitLoads { s with cur := slotReply s.cur slot status v } s.cur.loads.length =
      { s with
        cur := trapCtx { s.cur with loads := [], pc := x.pc, lpctl0 := x.lp0, lpctl1 := x.lp1 } (if status = 1 then 0x10 else 0x11) 0 0 x.va } := by
  have replied : slotReply s.cur slot status v = { s.cur with loads := [{ x with val := some (status, v) }] } := by
    rw [slotReply, one, List.map_cons, List.map_nil, if_pos is]
  obtain ⟨n, rfl⟩ := Nat.exists_eq_succ_of_ne_zero bad
  rw [replied, one, List.length_singleton, commitLoads]
  dsimp only
  rw [calm, if_neg Bool.false_ne_true]
  have answer : (if n + 1 = 1 then 0x10 else 0x11) = 0x10 ∨ (if n + 1 = 1 then 0x10 else 0x11) = 0x11 := ite_eq_or_eq ..
  have other : (if n + 1 = 1 then 0x10 else 0x11) ≠ 0x08 ∧ (if n + 1 = 1 then 0x10 else 0x11) ≠ 0x09 ∧ (if n + 1 = 1 then 0x10 else 0x11) ≠ 0x100 := by
    split <;> decide
  have handler : HasHandler { s with cur := loadUndone s.cur x } := hh
  exact raise_handler handler { code := if n + 1 = 1 then 0x10 else 0x11, access := 0, va := x.va } (refreshTlb_answer answer) other

/-- While the oldest load has no value, the later ones wait. -/
theorem commitLoads_holds {s : State} {x : LoadSlot} {rest : List LoadSlot} {slot status v : Nat} (n : Nat) (oldest : s.cur.loads = x :: rest)
    (other : x.id ≠ slot) (open_ : x.val = .none) :
    commitLoads { s with cur := slotReply s.cur slot status v } n = { s with cur := slotReply s.cur slot status v } := by
  have replied : (slotReply s.cur slot status v).loads = x :: rest.map fun y => if y.id = slot then { y with val := some (status, v) } else y := by
    rw [slotReply]
    dsimp only
    rw [oldest, List.map_cons, if_neg other]
  cases n with
  | zero => rfl
  | succ n =>
    rw [commitLoads]
    dsimp only
    rw [replied]
    dsimp only
    rw [open_]
    dsimp only
    rw [ite_self]

/-! ### Replays -/

section
variable {s : State} {ctx : Nat}

theorem replay_none (none : ∀ x ∈ (getCtx s ctx).loads, x.noticed = false) : execReplayNotice ctx s = .next s := by
  unfold execReplayNotice
  rw [List.find?_eq_none.2 fun x at_ => Bool.eq_false_iff.1 (none x at_)]

variable {x : LoadSlot} (noticed : (getCtx s ctx).loads.find? (·.noticed) = some x)
include noticed

theorem replay_eq : execReplayNotice ctx s =
    if (getCtx s ctx).buf.any fun e => overlaps s e { loc := x.loc, body := .load x.size x.id } then .next s else .next (resend s ctx x) := by
  unfold execReplayNotice
  rw [noticed]

end

/-! ### Host completions -/

section
variable {s : State} {ctx : Nat} {data : BitVec 512}

/-- A host completion's trap in a context with a handler. -/
theorem hostTrap_taken {status acc : Nat} {va : VAddr} (core : isEngine ctx = false) (vector : (getCtx s ctx).tvec ≠ 0)
    (open_ : bits (getCtx s ctx).tstatus 0 0 = 0) :
    let u := focus (deliverPosted s) ctx
    raiseIn { u with cur := { u.cur with wait := .ready } } (hostTrap status acc va) =
      { u with cur := trapCtx u.cur (if status = 1 then 0x10 else 0x0C) acc 0 va } := by
  intro u
  have at_ : u.cur = getCtx s ctx := (focus_cur ..).trans (getCtx_deliverPosted ..)
  have handler : HasHandler { u with cur := { u.cur with wait := .ready } } := by
    refine ⟨?_, ?_, ?_⟩
    · exact (congrArg isEngine (focus_who ..)).trans core
    · dsimp only; rw [at_]; exact vector
    · dsimp only; rw [at_]; exact open_
  have other : (hostTrap status acc va).code ≠ 0x08 ∧ (hostTrap status acc va).code ≠ 0x09 ∧ (hostTrap status acc va).code ≠ 0x100 := by
    unfold hostTrap
    dsimp only
    split <;> decide
  exact raiseIn_handler handler other

section
variable {d : BitVec 5} {n : Nat} {sx : Bool} {len st : Nat} {va : VAddr} {at1 : Nat} {amo : Option (Nat × Nat × Nat)}
  (waits : (getCtx s ctx).wait = .host d n sx len st va at1 amo)
include waits

theorem hostCompletion_access (status : Nat) : execHostCompletion ctx status data s =
    .next (withFocus (deliverPosted s) ctx fun w =>
      if status = 0 then retire w len (BitVec.ofNat 3 st)
        (.done (wr (hostAmo w at1 n (data.toNat % 256 ^ n) amo) d (extend sx n (data.toNat % 256 ^ n))) [])
      else raiseIn { w with cur := { w.cur with wait := .ready } } (hostTrap status (if amo.isSome then 2 else 0) va)) := by
  unfold execHostCompletion
  rw [waits]

end

section
variable {at1 acc : Nat} {va : VAddr} (waits : (getCtx s ctx).wait = .hostFill at1 acc va)
include waits

theorem hostCompletion_fill (status : Nat) : execHostCompletion ctx status data s =
    .next (withFocus (deliverPosted s) ctx fun w =>
      if status = 0 then { w with cur := { w.cur with
          hostGot := hostFilled w.cur.hostGot at1 acc data.toNat
          codeAt := if acc = 3 then codeNow w else w.cur.codeAt
          wait := .ready } }
      else if acc = 3 then { w with cur := { w.cur with
          hostGot := w.cur.hostGot ++ [(at1, 2 ^ 64 + status)]
          codeAt := if w.cur.codeAt = [] then codeNow w else w.cur.codeAt
          wait := .ready } }
      else raiseIn { w with cur := { w.cur with wait := .ready } } (hostTrap status acc va)) := by
  unfold execHostCompletion
  rw [waits]

end

end

theorem hostFilled_data {got : List (Nat × Nat)} {at1 acc data : Nat} (loaded : acc ≠ 3) :
    hostFilled got at1 acc data = got ++ [(at1, data / 2 ^ (64 * 0) % 2 ^ 64)] := if_neg loaded

theorem hostFilled_code {got : List (Nat × Nat)} {at1 data : Nat} (few : got.length ≤ 7) :
    hostFilled got at1 3 data = (at1, data / 2 ^ (64 * 0) % 2 ^ 64) ::
      (got.zipIdx.map fun x => if 2 ^ 64 ≤ x.1.2 then x.1 else (x.1.1, data / 2 ^ (64 * (x.2 + 1)) % 2 ^ 64)) := by
  unfold hostFilled
  dsimp only
  rw [if_pos rfl, Nat.sub_eq_zero_of_le few, List.take_zero, List.drop_zero, List.nil_append]

/-- Settles O46: each event's branches, as their conditions say. -/
theorem bufferEvents : Obligations.BufferEvents := by
  unfold Obligations.BufferEvents
  intro s ctx i status data c
  have drain : exec (.storeBufferDrain ctx) s = execStoreBufferDrain ctx s := rfl
  have ack : exec (.storeAck i) s = execStoreAck i s := rfl
  have answer : exec (.loadReply i) s = execLoadReply i s := rfl
  have mreq : exec (.mreqReply i) s = execMreqReply i s := rfl
  have replay : exec (.replayNotice ctx) s = execReplayNotice ctx s := rfl
  have completes (k : Nat) : exec (.hostCompletion ctx k data) s = execHostCompletion ctx k data s := rfl
  refine ⟨?_, ?_, ?_, ?_, ?_, ?_, ?_, ?_, ?_⟩
  · intro e rest oldest may gone
    refine ⟨?_, ?_, ?_⟩
    · intro alone here
      rw [drain, drain_alone oldest may alone, leaveBuffer_here here]
      rfl
    · intro f rest' p two pair
      obtain ⟨chan, path, d, store⟩ := linePair_store pair
      have here : ∀ h r, p.body ≠ .remote h r := by rw [store]; exact fun _ _ => Payload.noConfusion
      rw [drain, drain_pair oldest may two pair, leaveBuffer_here here, bufferGone, chan, path]
    · intro h r remote away
      rw [drain, drain_alone oldest may fun _ _ => linePair_remote remote, leaveBuffer_remote remote away]
      rfl
  · intro e rest oldest held
    exact drain.trans (drain_stays oldest held)
  · intro r at_ earlier
    have none := replyAt_held at_ earlier
    refine ⟨ack.trans ?_, answer.trans ?_, mreq.trans ?_⟩
    · unfold execStoreAck; rw [none]
    · unfold execLoadReply; rw [none]
    · unfold execMreqReply; rw [none]
  · intro r at_ k u
    refine ⟨?_, ?_, ?_, ?_⟩
    · intro d line store fine
      rw [ack, storeAck_store at_ store, if_pos fine]
    · intro d line store chan bad
      have stored := storeAck_store at_ store
      dsimp only at stored
      rw [if_neg bad, if_neg chan] at stored
      exact ⟨fun clean main => by rw [ack, stored, recordFailure_first clean main], fun recorded => by rw [ack, stored, recordFailure_later recorded]⟩
    · intro arr z idx d axst fine
      exact ack.trans (storeAck_axst at_ axst fine)
    · intro send
      exact ack.trans (storeAck_send at_ send)
  · intro r n slot at_ load k u
    have cur : (focus u r.dst).cur = k := focus_cur ..
    have replied := answer.trans (loadReply_load at_ load)
    constructor
    · intro x one is calm
      have one' : (focus u r.dst).cur.loads = [x] := by rw [cur]; exact one
      constructor
      · intro fine
        rw [replied, fine]
        exact congrArg _ (withFocus_congr (commitLoads_only one' is calm))
      · intro bad core vector open_
        have handler : HasHandler (focus u r.dst) := by
          refine ⟨(congrArg isEngine (focus_who ..)).trans core, ?_, ?_⟩
          · rw [cur]; exact vector
          · rw [cur]; exact open_
        rw [replied]
        exact congrArg _ (withFocus_congr (commitLoads_traps handler one' is calm bad))
    · intro x rest oldest other open_
      have oldest' : (focus u r.dst).cur.loads = x :: rest := by rw [cur]; exact oldest
      rw [replied]
      exact congrArg _ (withFocus_congr (commitLoads_holds _ oldest' other open_))
  · intro x noticed own
    have eq := replay.trans (replay_eq noticed)
    exact ⟨fun held => by rw [eq, if_pos held], fun free => by rw [eq, if_neg (Bool.eq_false_iff.1 free)]; rfl⟩
  · intro none
    exact replay.trans (replay_none none)
  · intro d n sx len st va at1 amo waits v ends
    refine ⟨?_, ?_, ?_⟩
    · intro load
      rw [completes, hostCompletion_access waits, load]
      exact congrArg _ (withFocus_congr (if_pos rfl))
    · intro op b cmp atomic swaps
      rw [completes, hostCompletion_access waits, atomic]
      refine congrArg _ (withFocus_congr ((if_pos rfl).trans ?_))
      rw [hostAmo, if_neg fun both => swaps both.1]
    · intro bad core vector open_
      rw [completes, hostCompletion_access waits]
      exact congrArg _ (withFocus_congr ((if_neg bad).trans (hostTrap_taken core vector open_)))
  · intro at1 acc va waits word
    have cur : (focus (deliverPosted s) ctx).cur = c := (focus_cur ..).trans (getCtx_deliverPosted ..)
    refine ⟨?_, ?_, ?_, ?_⟩
    · intro data'
      rw [completes, hostCompletion_fill waits]
      refine congrArg _ (withFocus_congr ((if_pos rfl).trans ?_))
      rw [hostFilled_data data', if_neg data']
    · intro code few
      rw [completes, hostCompletion_fill waits]
      refine congrArg _ (withFocus_congr ((if_pos rfl).trans ?_))
      rw [code, if_pos rfl, cur, hostFilled_code few]
    · intro code bad
      rw [completes, hostCompletion_fill waits]
      exact congrArg _ (withFocus_congr ((if_neg bad).trans (if_pos code)))
    · intro data' bad core vector open_
      rw [completes, hostCompletion_fill waits]
      exact congrArg _ (withFocus_congr ((if_neg bad).trans ((if_neg data').trans (hostTrap_taken core vector open_))))

end Sys2Proof.Proofs

/-! SUPPORT. Proofs: events that end a wait (R105, R107, R127, R128, R287, R301). -/

namespace Sys2Proof.Proofs

open Sys2Proof Sys2Proof.Machine Sys2Proof.Laws

/-! ### A reply word -/

/-- A context with a handler enters the trap. -/
theorem enterTrap_handler {s : State} (hh : HasHandler s) (t : Trap) :
    enterTrap s t s.cur.pc = { s with cur := trapCtx s.cur t.code t.access t.info t.va } := by
  obtain ⟨core, vector, open_⟩ := hh
  have handled : ¬(s.cur.tvec = 0 ∨ bits s.cur.tstatus 0 0 = 1) := by
    rw [open_]; exact fun h => h.elim vector (by decide)
  rw [enterTrap, core, if_neg Bool.false_ne_true, if_neg handled]
  rfl

/-- An event of the context in focus is one of the focus. -/
theorem withFocus_of_who {s : State} {a : Nat} {f : State → State} (here : s.who = a) (keeps : (f s).who = s.who) : withFocus s a f = f s := by
  subst here
  have same : focus s s.who = s := if_pos rfl
  rw [withFocus, same]
  exact if_pos keeps.symm

section
variable {s : State} {ctx l : Nat}

section
variable {code k : Nat} {va : VAddr} {w : Word} (waits : (getCtx s ctx).wait = .pager code k va w)
  (word : replyLoc s ctx (isEngine ctx) 0 = some l) (near : farWaits s l = false)
include waits word near

theorem pagerReply_eq : execPagerReply ctx s =
    if (false || decide (readNat s l 8 = 0)) then .next s
    else if readNat s l 8 = 1 then .next (putCtx (replyTouch s ctx (isEngine ctx) 0) ctx { getCtx s ctx with wait := .ready })
    else .next (withFocus (replyTouch s ctx (isEngine ctx) 0) ctx fun s => enterTrap s { code := code, access := k, va := va } s.cur.pc) := by
  unfold execPagerReply
  rw [waits]
  dsimp only
  rw [word]
  dsimp only
  rw [near]

theorem pagerReply_waits (zero : readNat s l 8 = 0) : execPagerReply ctx s = .next s := by
  rw [pagerReply_eq waits word near, decide_eq_true zero]
  rfl

theorem pagerReply_resumes (one : readNat s l 8 = 1) :
    execPagerReply ctx s = .next (putCtx (replyTouch s ctx (isEngine ctx) 0) ctx { getCtx s ctx with wait := .ready }) := by
  rw [pagerReply_eq waits word near, one]
  rfl

theorem pagerReply_traps (refused : 1 < readNat s l 8) (focus_ : ctx = s.who) (hh : HasHandler s) :
    execPagerReply ctx s = .next { replyTouch s ctx (isEngine ctx) 0 with cur := trapCtx s.cur code k 0 va } := by
  have filled := replyTouch_filled s ctx (isEngine ctx) 0
  have entered := enterTrap_handler (hasHandler_of_filled hh filled) { code := code, access := k, va := va }
  rw [pagerReply_eq waits word near, decide_eq_false (Nat.ne_of_gt (Nat.lt_of_succ_lt refused)), if_neg (by decide), if_neg (Nat.ne_of_gt refused)]
  rw [withFocus_of_who (filled.who.trans focus_.symm) (by rw [entered]), entered, filled.cur]

end

section
variable {f : Nat × Nat × Nat × VAddr} (held : (getCtx s ctx).engFault = some f) (word : replyLoc s ctx true 0 = some l) (near : farWaits s l = false)
include held word near

theorem engineReply_waits (zero : readNat s l 8 = 0) : execEngineFaultReply ctx s = .next s := by
  unfold execEngineFaultReply
  dsimp only
  rw [held]
  dsimp only
  rw [word]
  dsimp only
  rw [near, zero]
  rfl

theorem engineReply_answers (set : readNat s l 8 ≠ 0) : execEngineFaultReply ctx s =
    .next (putCtx (replyTouch s ctx true 0) ctx { getCtx s ctx with
      engFault := .none
      engSaid := if f.1 = goneKey then (getCtx s ctx).engSaid else (getCtx s ctx).engSaid ++ [(f.1, decide (readNat s l 8 = 1))] }) := by
  unfold execEngineFaultReply
  dsimp only
  rw [held]
  dsimp only
  rw [word]
  dsimp only
  rw [near, decide_eq_false set, if_neg (by decide)]

end

end

/-- Settles O47: each event's branches, as their conditions say. -/
theorem wakeEvents : Obligations.WakeEvents := by
  unfold Obligations.WakeEvents
  intro s ctx c
  have pause : exec (.pauseEnd ctx) s = execPauseEnd ctx s := rfl
  have sleep : exec (.sleepWake ctx) s = execSleepWake ctx s := rfl
  have realign : exec (.realignTimeout ctx) s = execRealignTimeout ctx s := rfl
  have wake : exec (.waitWake ctx) s = execWaitWake ctx s := rfl
  have poll : exec (.waitPoll ctx) s = execWaitPoll ctx s := rfl
  have pager : exec (.pagerReply ctx) s = execPagerReply ctx s := rfl
  have engine : exec (.engineFaultReply ctx) s = execEngineFaultReply ctx s := rfl
  refine ⟨?_, ?_, ?_, ?_, ?_, ?_, ?_, ?_⟩
  · intro t waits
    unfold execPauseEnd at pause
    dsimp only at pause
    rw [show (getCtx s ctx).wait = .pause t from waits] at pause
    exact ⟨fun due => pause.trans (if_pos due), fun early => pause.trans (if_neg (not_le.2 early))⟩
  · intro t w fired st waits
    unfold execSleepWake at sleep
    rw [show (getCtx s ctx).wait = .sleep t w fired st from waits] at sleep
    refine ⟨fun due => sleep.trans (if_pos (Bool.or_eq_true .. ▸ due)), fun notFired notDue => sleep.trans (if_neg ?_)⟩
    rw [notFired, notDue]
    decide
  · intro t st waits
    unfold execRealignTimeout at realign
    rw [show (getCtx s ctx).wait = .realign t st from waits] at realign
    exact ⟨fun due => realign.trans (if_pos due), fun early => realign.trans (if_neg (not_le.2 early))⟩
  · intro line addr b k z st waits
    unfold execWaitWake at wake
    rw [show (getCtx s ctx).wait = .monitor line true addr b k z st from waits] at wake
    exact wake
  · intro line addr b k z st waits
    unfold execWaitWake at wake
    rw [show (getCtx s ctx).wait = .monitor line false addr b k z st from waits] at wake
    exact wake
  · intro t addr b k z st waits due
    unfold execWaitPoll at poll
    rw [show (getCtx s ctx).wait = .poll t addr b k z st from waits] at poll
    exact poll.trans (if_pos due)
  · intro code k va w l waits word near
    exact ⟨fun zero => pager.trans (pagerReply_waits waits word near zero),
      fun one => pager.trans (pagerReply_resumes waits word near one),
      fun refused focus_ hh => pager.trans (pagerReply_traps waits word near refused focus_ hh)⟩
  · intro f l held word near
    refine ⟨fun zero => engine.trans (engineReply_waits held word near zero), ?_, ?_⟩
    · intro live set
      rw [engine, engineReply_answers held word near set, if_neg live]
    · intro gone set
      rw [engine, engineReply_answers held word near set, if_pos gone]

end Sys2Proof.Proofs

/-! SUPPORT. Proofs: records, replies, barrier messages and contributions as they arrive (R75, R146 to R150, R277 to R282). -/

namespace Sys2Proof.Proofs

open Sys2Proof Sys2Proof.Machine Sys2Proof.Laws

/-! ### Messages -/

section
variable {s : State} {i : Nat} {m : Msg} (at_ : s.net[i]? = some m) (may : mayServe s i m = true)
include at_ may

section
variable {core : BitVec 14} {r : TaskRec} (record : m.entry.body = .record core r)
include record

theorem recordArrival_plain (plain : r.cnt = false) : execRecordArrival i s =
    match regionFor s m.entry.rcb core.toNat with
    | none => .next (reply (dropMsg s i) m 0 [])
    | some g =>
      match (if m.src = devAgent core.toNat then acceptAt s g core.toNat r.pri r else acceptNext s g core.toNat r.pri r) with
      | some s' => .next (reply (dropMsg s' i) m 0 [])
      | none => .next s := by
  unfold execRecordArrival
  rw [at_]
  dsimp only
  rw [record]
  dsimp only
  rw [plain, may, if_neg (by decide)] <;> rfl

theorem counterDecrement_counted (counted : r.cnt = true) :
    execCounterDecrement i s = .next ((countArrival (dropMsg s i) core.toNat r m).getD s) := by
  unfold execCounterDecrement
  rw [at_]
  dsimp only
  rw [record]
  dsimp only
  rw [counted, may, if_neg (by decide)]

end

end

/-- Whether a record goes behind those of the device in its inbox. -/
def GoesFirst (s : State) (m : Msg) (g : Region) (core : Nat) (pri : Bool) : Prop :=
  m.src = devAgent core ∨ recordWaits s g.rcb core pri = false

/-- A record that may go first is taken as its inbox takes it. -/
theorem accept_first {s : State} {m : Msg} {g : Region} {core : Nat} {pri : Bool} {r : TaskRec} (first : GoesFirst s m g core pri) :
    (if m.src = devAgent core then acceptAt s g core pri r else acceptNext s g core pri r) = acceptAt s g core pri r := by
  split
  next => rfl
  next other => rw [acceptNext, first.resolve_left other, if_neg Bool.false_ne_true]

theorem accept_later {s : State} {m : Msg} {g : Region} {core : Nat} {pri : Bool} {r : TaskRec} (later : ¬GoesFirst s m g core pri) :
    (if m.src = devAgent core then acceptAt s g core pri r else acceptNext s g core pri r) = .none := by
  obtain ⟨other, waits⟩ := not_or.1 later
  rw [if_neg other, acceptNext, if_pos (Bool.not_eq_false _ ▸ waits)]

theorem countArrival_now {s : State} {core : Nat} {r : TaskRec} {m : Msg} (here : savedFor s m.entry.rcb core = .none) :
    countArrival s core r m =
      some (reply (if m.entry.rcb ≠ 0 && (regionFor s m.entry.rcb core).isNone then s else countRecord s core r.cid.toNat) m 0 []) := by
  rw [countArrival, here]

theorem countArrival_saved {s : State} {core : Nat} {r : TaskRec} {m : Msg} {g : Region} (saved : savedFor s m.entry.rcb core = some g) :
    countArrival s core r m = spillInto s g core r.pri r (some m) := by
  rw [countArrival, saved]

/-- The arrival of an `mreq`'s reply posts its record. -/
theorem mreqReply_posts {s u : State} {i : Nat} {r : Reply} {tag : BitVec 6} {g : Region} (at_ : replyAt s i = some r)
    (read : r.entry.body = .mreqRead tag) (region : recordRegion s (coreOf r.dst) = some g)
    (near : ∀ x ∈ regionOf s (coreOf r.dst), rcbFar s x.1 [(0x18, 64)] = false)
    (first : recordWaits s g.rcb (coreOf r.dst) (isHigh r.dst) = false)
    (taken : acceptAt s g (coreOf r.dst) (isHigh r.dst) (mreqRec s r tag false) = some u) :
    let v := dropReply u i
    let c := getCtx v r.dst
    execMreqReply i s = .next (tryStart (putCtx v r.dst { c with mreqs := c.mreqs - 1 }) r.dst) := by
  have reach : ((regionOf s (coreOf r.dst)).any fun g => rcbFar s g.1 [(0x18, 64)]) = false := by
    cases of : regionOf s (coreOf r.dst) with
    | none => rfl
    | some x => exact near x (by rw [of]; rfl)
  unfold execMreqReply
  rw [at_]
  dsimp only
  rw [read]
  dsimp only
  rw [region]
  dsimp only
  rw [reach, if_neg Bool.false_ne_true, acceptNext, first, if_neg Bool.false_ne_true, taken]

/-! ### The start of a task -/

section
variable {s : State} {a : Nat}

theorem tryStart_busy (busy : (getCtx s a).run ≠ .idle) : tryStart s a = s := by
  rw [tryStart, if_neg fun h => busy h.1]

variable (idle : (getCtx s a).run = .idle) (agent : isEngine a = false) (runs : coreRuns s (coreOf a) = true) (near : startFar s (coreOf a) = false)
include idle agent runs near

theorem tryStart_idle : tryStart s a = match nextChoice s a true with
    | some (r, s') => if gateMet s r then startRecord s' a r else s
    | none => s := by
  have ready : (getCtx s a).run = .idle ∧ !isEngine a ∧ coreRuns s (coreOf a) ∧ !startFar s (coreOf a) := by
    rw [agent, near]; exact ⟨idle, rfl, runs, rfl⟩
  rw [tryStart, if_pos ready] <;> rfl

theorem tryStart_nothing (none : nextChoice s a true = none) : tryStart s a = s := by
  rw [tryStart_idle idle agent runs near, none]

theorem tryStart_choice {r : TaskRec} {u : State} (choice : nextChoice s a true = some (r, u)) :
    tryStart s a = if gateMet s r then startRecord u a r else s := by
  rw [tryStart_idle idle agent runs near, choice]

end

/-- Settles O48: each event's branches, as their conditions say. -/
theorem messageEvents : Obligations.MessageEvents := by
  unfold Obligations.MessageEvents
  intro s ctx i m
  have arrival : exec (.recordArrival i) s = execRecordArrival i s := rfl
  have decrement : exec (.counterDecrement i) s = execCounterDecrement i s := rfl
  have barrier : exec (.barrierArrival i) s = execBarrierArrival i s := rfl
  have release : exec (.barrierRelease i) s = execBarrierRelease i s := rfl
  have start : exec (.taskStart ctx) s = .next (tryStart s ctx) := rfl
  have contribution : exec (.treeContribution ctx) s = execTreeContribution ctx s := rfl
  have result : exec (.treeResult i) s = execTreeResult i s := rfl
  refine ⟨?_, ?_, ?_, ?_, ?_, ?_⟩
  · intro at_ may
    refine ⟨?_, ?_, ?_⟩
    · intro core r record
      refine ⟨?_, ?_, ?_, ?_⟩
      · intro plain g region first
        have eq := arrival.trans (recordArrival_plain at_ may record plain)
        rw [region] at eq
        dsimp only at eq
        refine ⟨fun u goes taken => ?_, fun stays => ?_⟩
        · rw [eq, accept_first goes, taken]
        · rw [eq]
          by_cases goes : first
          · rw [accept_first goes, stays.resolve_left (not_not.2 goes)]
          · rw [accept_later goes]
      · intro plain gone
        rw [arrival, recordArrival_plain at_ may record plain, gone]
      · intro counted here
        have eq := decrement.trans (counterDecrement_counted at_ may record counted)
        rw [countArrival_now here] at eq
        refine ⟨fun stands => eq.trans ?_, fun named gone => eq.trans ?_⟩
        · have live : ¬(decide (m.entry.rcb ≠ 0) && (regionFor (dropMsg s i) m.entry.rcb core.toNat).isNone) = true := by
            rw [Bool.and_eq_true, decide_eq_true_eq, Option.isNone_iff_eq_none]
            rintro ⟨named, gone⟩
            exact stands.elim named fun h => h gone
          rw [if_neg live]
          rfl
        · rw [gone, decide_eq_true named]
          rfl
      · intro counted g saved
        have eq := decrement.trans (counterDecrement_counted at_ may record counted)
        rw [countArrival_saved saved] at eq
        exact ⟨fun u spilt => by rw [eq, spilt]; rfl, fun full => by rw [eq, full]; rfl⟩
    · intro core b kid arrives
      unfold execBarrierArrival at barrier
      rw [at_] at barrier
      dsimp only at barrier
      rw [arrives] at barrier
      exact barrier.trans (if_pos may)
    · intro core b releases
      unfold execBarrierRelease at release
      rw [at_] at release
      dsimp only at release
      rw [releases] at release
      exact release.trans (if_pos may)
  · intro r tag at_ read g u region near first taken
    exact mreqReply_posts at_ read region near first taken
  · intro idle agent runs near
    refine ⟨fun none => ?_, fun r u choice => ⟨fun met => ?_, fun open_ => ?_⟩⟩
    · rw [start, tryStart_nothing idle agent runs near none]
    · rw [start, tryStart_choice idle agent runs near choice, if_pos met]
    · rw [start, tryStart_choice idle agent runs near choice, open_, if_neg Bool.false_ne_true]
  · intro busy
    rw [start, tryStart_busy busy]
  · intro agent q head v h cl some_ room u w
    have held : ¬(isEngine ctx || decide (readNat s (treeLoc ctx 0x208) 8 ≤ readNat s (treeLoc ctx 0x200) 8)) = true := by
      rw [agent, decide_eq_false (not_le.2 some_)]; decide
    exact contribution.trans ((if_neg held).trans (if_neg (Bool.eq_false_iff.1 room)))
  · intro c v h tag at_ its u tail room
    unfold execTreeResult at result
    rw [at_] at result
    have fits : ¬(decide (regionTag s c ≠ tag) || decide (16 ≤ readNat s (treeLoc c 0x218) 8 - readNat s (treeLoc c 0x210) 8)) = true := by
      rw [decide_eq_false (not_not.2 its), decide_eq_false (not_le.2 room)]; decide
    exact result.trans (if_neg fits)

end Sys2Proof.Proofs

/-! SUPPORT. Proofs: the transfer unit's events (R144, R151, R163, R164, R166, R173, R174). -/

namespace Sys2Proof.Proofs

open Sys2Proof Sys2Proof.Machine Sys2Proof.Laws

/-! ### Copies -/

/-- A finished copy whose SEQ is next takes `CPYDONE` to it. -/
theorem advanceSeq_next {ch seq done : Nat} (next : done + 1 = seq) (small : seq < 2 ^ 48) : advanceSeq [(ch, seq)] ch 1 done = (seq, []) := by
  have step : (done + 1) % 2 ^ 48 = seq := by rw [next, Nat.mod_eq_of_lt small]
  have here : [(ch, seq)].contains (ch, seq) = true := by simp
  rw [advanceSeq]
  dsimp only
  rw [step, if_pos here, advanceSeq]
  simp

/-! ### Streams -/

section
variable {s u : State} {ctx : Nat} {n : Fin 8}

/-- The stream n of a context with the element e behind its others. -/
def streamGot (ctx : Nat) (n : Fin 8) (v : State) (e : StreamElem) : State :=
  let c := getCtx v ctx
  let y := c.streams[n]
  putCtx v ctx (putStream c n { y with buf := y.buf ++ [e], moved := y.moved + 1 })

/-- The stream n of a context with its oldest element gone. -/
def streamSent (ctx : Nat) (n : Fin 8) (u : State) (bad : Bool) : State :=
  let c := getCtx u ctx
  let y := c.streams[n]
  putCtx u ctx (putStream c n { y with buf := y.buf.drop 1, moved := y.moved + 1, fault := y.fault || bad })

theorem streamFetch_got {d : List Byte} {bad : List Nat} (bound : (getCtx s ctx).streams[n].bound = true)
    (input : (getCtx s ctx).streams[n].output = false) (left : (getCtx s ctx).streams[n].moved < (getCtx s ctx).streams[n].total)
    (room : (getCtx s ctx).streams[n].buf.length < 4) (gate : gateOpen s ctx (getCtx s ctx).streams[n].gate = true)
    (read : engRead s (streamUnit ctx n.val (getCtx s ctx).streams[n].moved) ctx (getCtx s ctx).streams[n].high
      (streamAddr (getCtx s ctx).streams[n] (getCtx s ctx).streams[n].moved) 32 = .ok d bad u) :
    execStreamFetch ctx n.val s = .next (streamGot ctx n
      (dropWords u ctx (streamUnit ctx n.val (getCtx s ctx).streams[n].moved).key) { data := vregOfBytes d, err := firstBad bad }) := by
  unfold execStreamFetch
  rw [dif_pos n.isLt]
  dsimp only [Fin.eta]
  have goes : ¬(!(getCtx s ctx).streams[n].bound || (getCtx s ctx).streams[n].output ||
      decide ((getCtx s ctx).streams[n].total ≤ (getCtx s ctx).streams[n].moved) || decide (4 ≤ (getCtx s ctx).streams[n].buf.length) ||
      !gateOpen s ctx (getCtx s ctx).streams[n].gate) = true := by
    rw [bound, input, decide_eq_false (not_le.2 left), decide_eq_false (not_le.2 room), gate]; decide
  rw [if_neg goes, read]
  rfl

section
variable {e : StreamElem} {rest : List StreamElem} (oldest : (getCtx s ctx).streams[n].buf = e :: rest)
  (bound : (getCtx s ctx).streams[n].bound = true) (output : (getCtx s ctx).streams[n].output = true)
  (gate : gateOpen s ctx (getCtx s ctx).streams[n].gate = true)
include oldest bound output gate

theorem streamWrite_eq : execStreamWrite ctx n.val s =
    match engLands s (streamUnit ctx n.val (getCtx s ctx).streams[n].moved) ctx (getCtx s ctx).streams[n].high
        [(streamAddr (getCtx s ctx).streams[n] (getCtx s ctx).streams[n].moved, toBytes 32 e.data.toNat)] with
    | .hold s' => .next (unmade s s')
    | .fail s => .next (streamSent ctx n s true)
    | .ok l u =>
      let r := l.foldl (fun (acc : Bool × State) p =>
        let w := engServe acc.2 (streamUnit ctx n.val (getCtx s ctx).streams[n].moved).place p.1 p.2.1 p.2.2
        (acc.1 || decide (w.1 ≠ 0), w.2)) (false, u)
      .next (streamSent ctx n r.2 r.1) := by
  have goes : ¬(!(getCtx s ctx).streams[n].bound || !(getCtx s ctx).streams[n].output ||
      !gateOpen s ctx (getCtx s ctx).streams[n].gate) = true := by
    rw [bound, output, gate]; decide
  unfold execStreamWrite
  rw [dif_pos n.isLt]
  dsimp only [Fin.eta]
  rw [oldest]
  dsimp only
  rw [if_neg goes] <;> rfl

theorem streamWrite_stores {loc leaf : Nat} {d : List Byte}
    (lands : engLands s (streamUnit ctx n.val (getCtx s ctx).streams[n].moved) ctx (getCtx s ctx).streams[n].high
      [(streamAddr (getCtx s ctx).streams[n] (getCtx s ctx).streams[n].moved, toBytes 32 e.data.toNat)] = .ok [(loc, leaf, d)] u) :
    let w := engServe u (streamUnit ctx n.val (getCtx s ctx).streams[n].moved).place loc leaf d
    execStreamWrite ctx n.val s = .next (streamSent ctx n w.2 (decide (w.1 ≠ 0))) := by
  rw [streamWrite_eq oldest bound output gate, lands]
  dsimp only [List.foldl_cons, List.foldl_nil]
  rw [Bool.false_or]

theorem streamWrite_fails
    (lands : engLands s (streamUnit ctx n.val (getCtx s ctx).streams[n].moved) ctx (getCtx s ctx).streams[n].high
      [(streamAddr (getCtx s ctx).streams[n] (getCtx s ctx).streams[n].moved, toBytes 32 e.data.toNat)] = .fail u) :
    execStreamWrite ctx n.val s = .next (streamSent ctx n u true) := by
  rw [streamWrite_eq oldest bound output gate, lands]

end

end

/-! ### Ports -/

/-- While its core's port is reopening, a context is not ready. -/
theorem fresh_reopening {s : State} {core : Nat} {p : Port} (port : (getCore s core).port = some p) (reopening : p.reopening = true)
    (its : coreOf p.ctx = core) : fresh s p.ctx = false := by
  have held : reopens s p.ctx = true := by
    rw [reopens, its, port, Option.any_some, reopening, decide_eq_true rfl]; rfl
  rw [fresh, ready, held, Bool.not_true, Bool.and_false, Bool.false_and]

theorem issuer_fresh {s : State} {core a : Nat} (issues : issuer s core = some a) : fresh s a = true := by
  unfold issuer at issues
  dsimp only at issues
  split at issues
  next h => cases issues; exact (Bool.and_eq_true ..▸ h).2
  next =>
    split at issues
    next h => cases issues; exact h
    next =>
      split at issues
      next h => cases issues; exact h
      next => cases issues

/-- Settles O49: each event's branches, as their conditions say. -/
theorem transferEvents : Obligations.TransferEvents := by
  unfold Obligations.TransferEvents
  intro s core tile ctx n k x
  have start : exec (.copyStart core) s = execCopyStart core s := rfl
  have complete : exec (.copyComplete core) s = execCopyComplete core s := rfl
  have fill : exec (.dictFillComplete tile) s = execDictFillComplete tile s := rfl
  have route : exec (.portRouteOpen core) s = execPortRouteOpen core s := rfl
  have fetch : exec (.streamFetch ctx n.val) s = execStreamFetch ctx n.val s := rfl
  have write : exec (.streamWrite ctx n.val) s = execStreamWrite ctx n.val s := rfl
  refine ⟨?_, ?_, ?_, ?_, ?_, ?_, ?_⟩
  · intro i c turn next at_ may u r f
    unfold execCopyStart at start
    dsimp only at start
    rw [if_neg (not_not.2 turn), next] at start
    dsimp only at start
    rw [show (getCore s core).fifo[i]? = some c from at_] at start
    refine start.trans (if_neg ?_)
    rw [Bool.and_eq_true, decide_eq_true_eq, Bool.not_eq_true']
    rintro ⟨fresh_, full⟩
    exact may.elim (fun started => by rw [started] at fresh_; cases fresh_) (not_lt.2 full)
  · intro c one moved channel early next small
    unfold execCopyComplete at complete
    dsimp only at complete
    have first : (getCore s core).fifo.find? (·.moved) = some c := by rw [show (getCore s core).fifo = [c] from one]; simp [moved]
    rw [first, show (getCore s core).fifo = [c] from one, show (getCore s core).cpyEarly = [] from early] at complete
    dsimp only [List.length_nil] at complete
    rw [advanceSeq_next next small, List.erase_cons_head] at complete
    rw [complete, ← show (getCore s core).cpyEarly = [] from early]
  · intro d held
    unfold execDictFillComplete at fill
    dsimp only at fill
    rw [held] at fill
    exact fill
  · intro p port open_ links
    unfold execPortRouteOpen at route
    dsimp only at route
    rw [show (getCore s core).port = some p from port] at route
    dsimp only at route
    rw [open_, Bool.false_or] at route
    refine ⟨fun free => route.trans (if_neg ?_), fun ⟨l, at_, taken⟩ => route.trans (if_pos ?_)⟩
    · rw [Option.any_eq_true]
      rintro ⟨l, at_, taken⟩
      rw [free l at_] at taken
      cases taken
    · exact (Option.any_eq_true ..).2 ⟨l, at_, taken⟩
  · intro p port reopening its issues
    have ready_ := issuer_fresh issues
    rw [fresh_reopening port reopening its] at ready_
    cases ready_
  · intro bound input left room gate d bad u read
    exact fetch.trans (streamFetch_got bound input left room gate read)
  · intro e rest oldest bound output gate lands next
    exact ⟨fun loc leaf d u stored => write.trans (streamWrite_stores oldest bound output gate stored),
      fun u failed => write.trans (streamWrite_fails oldest bound output gate failed)⟩

end Sys2Proof.Proofs

/-! SUPPORT. Proofs: the Fennel agent and the axis unit (R186, R187, R193, R255 to R257, R263). -/

namespace Sys2Proof.Proofs

open Sys2Proof Sys2Proof.Machine Sys2Proof.Laws

/-- The core of a tile that takes its turn at the axis unit, or 4 for a span. -/
theorem axisRequestStart_core {s : State} {tile k : Nat} {r : AxReq} {rest : List AxReq} (few : k < 4)
    (turn : (((List.range 5).map fun k => ((getTile s tile).rrAx + k) % 5).find? fun k =>
      if k < 4 then coreTurn s (4 * tile + k) else (nextSpan s tile).isSome) = some k)
    (queue : (getCore s (4 * tile + k)).axq = r :: rest) :
    execAxisRequestStart tile s =
      .next (startReq (putTile s tile { getTile s tile with rrAx := (k + 1) % 5 }) tile (4 * tile + k) r) := by
  have queue' (t : Tile) : (getCore (putTile s tile t) (4 * tile + k)).axq = r :: rest := queue
  unfold execAxisRequestStart
  dsimp only
  rw [turn]
  dsimp only
  rw [if_pos few, queue']

theorem axisRequestStart_idle {s : State} {tile : Nat}
    (idle : (((List.range 5).map fun k => ((getTile s tile).rrAx + k) % 5).find? fun k =>
      if k < 4 then coreTurn s (4 * tile + k) else (nextSpan s tile).isSome) = none) :
    execAxisRequestStart tile s = .next s := by
  unfold execAxisRequestStart
  dsimp only
  rw [idle]

/-- A finished request that is no `axap` releases no array. -/
theorem axisRequestComplete_leaves {s : State} {tile k : Nat} {r : AxReq} {rest : List AxReq}
    (finished : ((rrCores tile 0).find? fun k => ((getCore s k).axq.head?).any fun r =>
      r.done && !(r.op = 2 && bits r.b 26 26 = 1 && wakePending s tile)) = some k)
    (queue : (getCore s k).axq = r :: rest) (other : r.op ≠ 0) :
    execAxisRequestComplete tile s = .next (putCore s k { getCore s k with
      axq := rest
      axdone := setBits (getCore s k).axdone 47 0 r.seq
      axerr := recordErr (getCore s k).axerr r.err r.seq }) := by
  unfold execAxisRequestComplete
  rw [finished]
  dsimp only
  rw [queue]
  dsimp only
  split
  · rw [if_neg other]
  · rfl

/-- Settles O50: each event's branches, as their conditions say. -/
theorem axisEvents : Obligations.AxisEvents := by
  unfold Obligations.AxisEvents
  intro s tile slot t turn
  have exchange : exec (.fennelExchangeStep tile slot) s = execFennelExchangeStep tile slot s := rfl
  have start : exec (.axisRequestStart tile) s = execAxisRequestStart tile s := rfl
  have complete : exec (.axisRequestComplete tile) s = execAxisRequestComplete tile s := rfl
  refine ⟨?_, ?_, ?_, ?_⟩
  · intro a only its wave mine runs q
    have found : (s.arrays.find? fun a => a.slot = slot && a.wave = 2 && a.tiles.contains tile && coreRuns s (4 * tile)) = some a := by
      rw [only, List.find?_cons_of_pos]
      simp [its, wave, mine, runs]
    unfold execFennelExchangeStep at exchange
    rw [found] at exchange
    exact ⟨fun open_ => exchange.trans (if_neg (Bool.eq_false_iff.1 open_)), fun done => exchange.trans (if_pos done)⟩
  · intro idle
    exact start.trans (axisRequestStart_idle idle)
  · intro k r rest few at_ queue
    exact start.trans (axisRequestStart_core few at_ queue)
  · intro k r rest finished queue other
    exact complete.trans (axisRequestComplete_leaves finished queue other)

end Sys2Proof.Proofs

/-! SUPPORT. Proofs: motion, epochs, reservations, walks and soft errors (R73, R77 to R83, R95, R115). -/

namespace Sys2Proof.Proofs

open Sys2Proof Sys2Proof.Machine Sys2Proof.Laws

/-! ### Motion -/

theorem nbits_one_ne_zero_iff (x k : Nat) : nbits x k k ≠ 0 ↔ nbits x k k = 1 := by
  have : nbits x k k < 2 := by
    rw [nbits, Nat.add_sub_cancel_left]
    exact Nat.mod_lt _ (by decide)
  omega

/-- The leaf e is still the one that the motion m was queued for. -/
def SameLeaf (m : Motion) (e : Nat) : Prop := e % 4 = 2 ∧ entryFrame e = m.src ∧ leafLog e = m.log ∧ nbits e 7 7 = 1

theorem sameLeaf_iff {m : Motion} {e : Nat} :
    (decide (e % 4 ≠ 2) || decide (entryFrame e ≠ m.src) || decide (leafLog e ≠ m.log) || decide (nbits e 7 7 = 0)) = true ↔ ¬SameLeaf m e := by
  rw [SameLeaf, ← nbits_one_ne_zero_iff]
  simp only [Bool.or_eq_true, decide_eq_true_eq, not_and_or, or_assoc, ne_eq, not_not]

section
variable {s : State} {die : Nat} {m : Motion} {rest : List Motion} (queue : (getDie s die).queue = m :: rest)
  (room : (getDie s die).active.length < 16) (records : recRoom s = true) (none : s.recs = []) (near : ringFar s m.loc (Machine.sizeCode m.log) = false)
include queue room records none near

theorem motionStart_eq : execTurnipMotionStart die s =
    let s1 := putDie s die { getDie s die with queue := rest }
    let e := readNat s m.leaf 16
    if decide (e % 4 ≠ 2) || decide (entryFrame e ≠ m.src) || decide (leafLog e ≠ m.log) || decide (nbits e 7 7 = 0) then .next (postAbort s1 m 5)
    else match takeFrame s1 m.loc (Machine.sizeCode m.log) with
      | .none => .next (postAbort s1 m 2)
      | some (f, s2) => .next (putDie s2 die { getDie s2 die with
          active := (getDie s2 die).active ++ [{ m with old := e, dst := f, cursor := 0 }] }) := by
  have starts : ¬(decide (16 ≤ (getDie s die).active.length) || !recRoom s || !s.recs.isEmpty || ringFar s m.loc (Machine.sizeCode m.log)) = true := by
    rw [decide_eq_false (not_le.2 room), records, none, near]; decide
  unfold execTurnipMotionStart
  dsimp only
  rw [queue]
  dsimp only
  rw [if_neg starts] <;> rfl

theorem motionStart_changed (changed : ¬SameLeaf m (readNat s m.leaf 16)) :
    execTurnipMotionStart die s = .next (postAbort (putDie s die { getDie s die with queue := rest }) m 5) := by
  rw [motionStart_eq queue room records none near]
  exact if_pos (sameLeaf_iff.2 changed)

variable (same : SameLeaf m (readNat s m.leaf 16))
include same

theorem motionStart_full (full : takeFrame (putDie s die { getDie s die with queue := rest }) m.loc (Machine.sizeCode m.log) = .none) :
    execTurnipMotionStart die s = .next (postAbort (putDie s die { getDie s die with queue := rest }) m 2) := by
  rw [motionStart_eq queue room records none near]
  refine (if_neg (mt sameLeaf_iff.1 (not_not.2 same))).trans ?_
  rw [full]

theorem motionStart_starts {f : Nat} {v : State} (taken : takeFrame (putDie s die { getDie s die with queue := rest }) m.loc (Machine.sizeCode m.log) = some (f, v)) :
    execTurnipMotionStart die s = .next (putDie v die { getDie v die with
      active := (getDie v die).active ++ [{ m with old := readNat s m.leaf 16, dst := f, cursor := 0 }] }) := by
  rw [motionStart_eq queue room records none near]
  refine (if_neg (mt sameLeaf_iff.1 (not_not.2 same))).trans ?_
  rw [taken]

end

theorem bankBusy_free {s : State} {loc tile : Nat} (free : ∀ r ∈ s.reserved, r.row ≠ rowOf (forwarded s loc)) : bankBusy s loc tile = false := by
  have nobody : (s.reserved.any fun r => r.row = rowOf (forwarded s loc) && r.tile ≠ tile && decide (2 * s.stamp < r.last + 2048)) = false := by
    rw [List.any_eq_false]
    intro r at_
    rw [decide_eq_false (free r at_)]
    simp
  rw [bankBusy, nobody, Bool.and_false]

/-- A copy step that nothing holds up moves one line. -/
theorem copyStep_moves {s : State} {die i : Nat} {m : Motion} (at_ : (getDie s die).active[i]? = some m) (moving : m.forwarding = false)
    (src : farLost s (m.src + 64 * m.cursor) = false) (dst : farLost s (m.dst + 64 * m.cursor) = false)
    (near : farWaits s (m.src + 64 * m.cursor) = false) (near' : farWaits s (m.dst + 64 * m.cursor) = false)
    (leaf : writeWaits s m.leaf = false)
    (free : bankBusy s (m.src + 64 * m.cursor) 4096 = false) (free' : bankBusy s (m.dst + 64 * m.cursor) 4096 = false)
    (clean : isPoisoned s (m.dst + 64 * m.cursor) = false) (left : m.cursor + 1 < 2 ^ m.log / 64) :
    execTurnipCopyStep die i s = .next (putDie (copyLine s m) die { getDie s die with
      active := (getDie s die).active.set i { m with cursor := m.cursor + 1 } }) := by
  unfold execTurnipCopyStep
  dsimp only
  rw [at_]
  dsimp only
  rw [moving, if_neg Bool.false_ne_true, src, if_neg Bool.false_ne_true, dst, if_neg Bool.false_ne_true, near, near', leaf, free, free',
    if_neg (by decide), clean, if_neg Bool.false_ne_true, if_pos left]

theorem sweep_ends {s : State} {die i : Nat} {m : Motion} (at_ : (getDie s die).active[i]? = some m) (forwarding : m.forwarding = true)
    (idle : frameBusy s m = false) (records : recRoom s = true) (none : s.recs = []) :
    let u := dropTlb (putDie s die { getDie s die with active := (getDie s die).active.eraseIdx i }) fun e => e.leaf = m.leaf && e.frame = m.src
    execSweepComplete die i s = .next (postRec { u with hot := mapSet {} u.hot m.src {} } (motionRec m m.dst 0 1)) := by
  unfold execSweepComplete
  dsimp only
  rw [at_]
  dsimp only
  rw [forwarding, idle, records, none, if_neg (by decide)]

/-! ### Epochs -/

theorem epochEnd_one {s : State} (one : s.stamp / epochLen s = s.lastEpoch / epochLen s + 1) (still : bits s.dev.motionctl 37 37 = 0) :
    execEpochEnd s = .next { s with
      hot := (s.hot.map fun h => (h.1, halve h.2)).filter fun h => h.2 ≠ {}
      lastEpoch := s.stamp } := by
  have due : epochDue s = true := decide_eq_true (by rw [one]; exact Nat.lt_succ_self _)
  have passed : epochsPassed s = 1 := by rw [epochsPassed, one, Nat.add_sub_cancel_left]; rfl
  rw [execEpochEnd, due, if_pos rfl, endEpoch, passed, endEpochs, endEpochs, endOneEpoch, still]
  rfl

/-! ### Soft errors -/

theorem insertLine_mem (k : Nat) (l : List Nat) : k ∈ insertLine k l := by
  induction l with
  | nil => exact List.mem_singleton_self k
  | cons j t ih =>
    unfold insertLine
    split
    · exact List.mem_cons_self
    · split
      next same => rw [same]; exact List.mem_cons_self
      next => exact List.mem_cons_of_mem _ ih

theorem isPoisoned_setPoison (s : State) (loc : Nat) : isPoisoned (setPoison s loc true) loc = true := by
  rw [isPoisoned, List.contains_iff_mem]
  exact insertLine_mem _ _

theorem softError_getDie (s : State) (loc k : Nat) (corrected : Bool) : getDie (softError s loc corrected) k = getDie s k := by
  cases corrected <;> rfl

/-- An uncorrectable error poisons its line; the motion that has copied it there aborts. -/
theorem softError_uncorrected (s : State) (loc : Nat) : ∃ u, execSoftError loc false s = .next u ∧
    ((∀ k < 4, (getDie s k).active = []) → isPoisoned u loc = true ∧ u.mem = s.mem) := by
  unfold execSoftError
  dsimp only
  rw [if_neg Bool.false_ne_true]
  split
  next die i aborts =>
    refine ⟨_, rfl, fun none => ?_⟩
    obtain ⟨k, at_, found⟩ := List.mem_filterMap.1 (List.mem_of_mem_head? aborts)
    have few : k < 4 := by
      simp only [List.mem_cons, List.not_mem_nil, or_false] at at_
      omega
    rw [softError_getDie, none k few] at found
    cases found
  next => exact ⟨_, rfl, fun _ => ⟨isPoisoned_setPoison s loc, rfl⟩⟩

theorem softError_corrected (s : State) (loc : Nat) : ∃ u, execSoftError loc true s = .next u ∧ u.poison = s.poison ∧ u.mem = s.mem := by
  exact ⟨_, rfl, rfl, rfl⟩

/-- Settles O51: each event's branches, as their conditions say. -/
theorem motionEvents : Obligations.MotionEvents := by
  unfold Obligations.MotionEvents
  intro s die i loc ctx acc va d
  refine ⟨?_, ?_, ?_, ?_, ?_, ?_, ?_, ?_, ?_⟩
  · intro m rest queue room records none near e u same
    exact ⟨motionStart_changed queue room records none near, motionStart_full queue room records none near,
      fun is f v taken => motionStart_starts queue room records none near is taken⟩
  · intro m at_ moving p q src dst near near' leaf free clean left
    exact copyStep_moves at_ moving src dst near near' leaf (bankBusy_free fun r mem => (free r mem).1)
      (bankBusy_free fun r mem => (free r mem).2) clean left
  · intro m at_ forwarding idle records none
    exact sweep_ends at_ forwarding idle records none
  · intro early
    have stays : exec .epochEnd s = execEpochEnd s := rfl
    rw [stays, execEpochEnd, early, if_neg Bool.false_ne_true]
  · exact epochEnd_one
  · intro r at_ due
    have times : exec (.rowReservationTimeout i) s = execRowReservationTimeout i s := rfl
    rw [times, execRowReservationTimeout, at_]
    exact if_pos due
  · intro e u found
    have walk : exec (.pageWalk ctx va acc) s = execPageWalk ctx va acc s := rfl
    rw [walk, execPageWalk, found]
  · exact softError_uncorrected s loc
  · exact softError_corrected s loc

end Sys2Proof.Proofs

/-! SUPPORT. Proofs: the scheduler's events (R273, R274, R288, R290, R306 to R317, R356, R360). -/

namespace Sys2Proof.Proofs

open Sys2Proof Sys2Proof.Machine Sys2Proof.Laws

/-! ### Regions -/

/-- A change of the regions that keeps their RCBs keeps each under its RCB. -/
theorem findRegion_map (s : State) (rcb : Nat) {f : Region → Region} (keeps : ∀ x, (f x).rcb = x.rcb) :
    findRegion { s with regions := s.regions.map f } rcb = (findRegion s rcb).map f := by
  rw [findRegion, List.find?_map, findRegion]
  congr 2
  funext x
  exact congrArg (fun k => decide (k = rcb)) (keeps x)

theorem putRegion_find {s : State} {r g : Region} {rcb : Nat} (found : findRegion s rcb = some g) :
    ∃ g1, findRegion (putRegion s r) rcb = some g1 := by
  refine ⟨_, (findRegion_map s rcb (f := fun x => if x.rcb = r.rcb then r else x) fun x => ?_).trans (congrArg _ found)⟩
  split
  next same => exact same.symm
  next => rfl

theorem judgeBudgets_find (s : State) (rcb : Nat) :
    findRegion (judgeBudgets s) rcb = (findRegion s rcb).map fun g =>
      if !chainFar s chain g.rcb && exhausted s chain g.rcb then { g with overBudget := true } else g := by
  refine findRegion_map s rcb fun x => ?_
  split <;> rfl

theorem addUsed_regions (n : Nat) : ∀ (fuel : Nat) (s : State) (rcb : Nat), (addUsed s n fuel rcb).regions = s.regions
  | 0, s, rcb => rfl
  | fuel + 1, s, rcb => by
    rw [addUsed]
    split
    · rfl
    · rw [addUsed_regions n fuel]
      obtain ⟨_, _, _, _, _, _, written⟩ := sysBytes_written s (rcb + 0x68) (toBytes 8 (rcbField s rcb 0x68 8 + n))
      rw [sysWrite, written]

theorem charge_find {s : State} {g h : Region} {rcb : Nat} (found : findRegion s rcb = some h) : ∃ g1, findRegion (charge s g) rcb = some g1 := by
  unfold charge
  dsimp only
  split
  · exact ⟨h, found⟩
  · have used : findRegion (addUsed s ((s.stamp - g.charged) / 1000 * g.clusters.length) chain g.rcb) rcb = some h := by
      rw [findRegion, addUsed_regions]; exact found
    obtain ⟨g1, put⟩ := putRegion_find (r := { g with charged := g.charged + 1000 * ((s.stamp - g.charged) / 1000) }) used
    exact ⟨_, (judgeBudgets_find ..).trans (congrArg _ put)⟩

/-- A region over its budget is marked. -/
theorem judgeBudgets_marks {s : State} {g : Region} {rcb : Nat} (found : findRegion s rcb = some g) (near : chainFar s chain rcb = false)
    (spent : exhausted s chain rcb = true) : ∃ g1, findRegion (judgeBudgets s) rcb = some g1 ∧ g1.overBudget = true := by
  have its : g.rcb = rcb := by
    have holds := List.find?_some found
    exact of_decide_eq_true holds
  refine ⟨_, (judgeBudgets_find ..).trans (congrArg _ found), ?_⟩
  dsimp only
  rw [its, near, spent]
  rfl

/-! ### Queues, grants and restores -/

/-- The place of the queue's next record. -/
def queuePlace (s : State) (q : Nat) : Nat :=
  bits (s.dev.lqbase.toList.getD q 0) 51 7 * 128 +
    128 * (bits (s.dev.lqhead.toList.getD q 0) 31 0 % 2 ^ bits (s.dev.lqbase.toList.getD q 0) 4 0)

/-- The state with the queue's record taken. -/
def queueTaken (s : State) (q : Nat) : State :=
  let h := s.dev.lqhead.toList.getD q 0
  putDie { s with dev := { s.dev with lqhead := setIx s.dev.lqhead q (setBits h 31 0 (bits h 31 0 + 1)) } } (q % 4)
    { getDie s (q % 4) with rrQueue := (q / 4 + 1) % 4 }

theorem dispatcher_takes {s : State} {q : Nat} (few : q < 16) (power : s.pstate < 2) (up : s.recovering = false)
    (turn : ((List.range 4).map fun k => ((getDie s (q % 4)).rrQueue + k) % 4).find? (fun k => queueReady s (q % 4 + 4 * k)) = some (q / 4))
    (room : storeFull s (q % 4) = false) (near : farWaits s (queuePlace s q) = false)
    (reach : badLaunch (readBytes s (queuePlace s q) 80) = true ∨
      launchFar s (parseLaunch (readBytes s (queuePlace s q) 80) 0x8000 (some q)).rcb = false) :
    execDispatcherTakeRecord q s =
      let b := readBytes s (queuePlace s q) 80
      let l := parseLaunch b 0x8000 (some q)
      .next (if badLaunch b || tooMany (queueTaken s q) l then reportDiscard (queueTaken s q) (q % 4) l
        else pump (enterLaunch (queueTaken s q) (q % 4) l) (q % 4)) := by
  have runs : ¬(16 ≤ q ∨ 2 ≤ s.pstate ∨ s.recovering = true) := by
    rw [up]; simp only [not_or, not_le]; exact ⟨few, power, Bool.false_ne_true⟩
  have mine (t : Option Nat) (is : t = some (q / 4)) : ¬(decide (t ≠ some (q / 4)) || storeFull s (q % 4)) = true := by
    rw [is, room]; simp
  have reached : ¬(farWaits s (queuePlace s q) || (!badLaunch (readBytes s (queuePlace s q) 80) &&
      launchFar s (parseLaunch (readBytes s (queuePlace s q) 80) 0x8000 (some q)).rcb)) = true := by
    rw [near]
    rcases reach with bad | close
    · rw [bad]; simp
    · rw [close]; simp
  exact (if_neg runs).trans ((if_neg (mine _ turn)).trans (if_neg reached))

theorem regionGrant_grants {s : State} {die : Nat} {g : Region} (choice : grantChoice s die = some g) (waits : g.state = 1) (power : s.pstate < 2)
    (up : s.recovering = false) (near : priosFar s = false) (image : imageFar s g.rcb = false)
    (quiet : ∀ k ∈ (freeClusters s g.die).take (rcbBcl s g.rcb), clusterQuiet s k = true) :
    execRegionGrant die s = .next (grantLaunch s g) := by
  have grants : ¬(decide (g.state ≠ 1) || decide (2 ≤ s.pstate) || s.recovering || priosFar s || imageFar s g.rcb ||
      !((freeClusters s g.die).take (rcbBcl s g.rcb)).all (clusterQuiet s)) = true := by
    rw [waits, decide_eq_false (not_le.2 power), up, near, image, List.all_eq_true.2 quiet]; decide
  unfold execRegionGrant
  rw [choice]
  exact if_neg grants

section
variable {s : State} {rcb : Nat} {g : Region} (found : findRegion s rcb = some g)
include found

theorem regionDone_ends (runs : g.state = 2) (idle : regionIdle s g = true) (near : booksFar s rcb = false) :
    execRegionDone rcb s = .next (pumpAll (setStatus (dropRegion (closeBooks s g) g false) rcb 4 0)) := by
  unfold execRegionDone
  rw [found]
  dsimp only
  rw [runs, idle, near, if_neg (by decide)]

theorem regionDone_waits (busy : regionIdle s g = false) : execRegionDone rcb s = .next s := by
  unfold execRegionDone
  rw [found]
  dsimp only
  rw [busy, if_pos (by simp)]

theorem budgetExhausted_judges (runs : g.state = 2) (near : chainFar s chain rcb = false) :
    execBudgetExhausted rcb s = .next (judgeBudgets (charge s g)) := by
  unfold execBudgetExhausted
  rw [found]
  dsimp only
  rw [runs, near, if_pos (by decide)]

theorem duskSave_saves (wants : wantsSave s g = true) : execDuskSave rcb s =
    .next (let u := putRegion s { g with state := 6 }
      if regionSettled u g && !areaFar u g then saveImage u { g with state := 6 } else u) := by
  unfold execDuskSave
  rw [found]
  dsimp only
  rw [wants, if_neg (by decide)]

theorem duskSave_keeps (keeps : wantsSave s g = false) : execDuskSave rcb s = .next s := by
  unfold execDuskSave
  rw [found]
  dsimp only
  rw [keeps, if_pos (by decide)]

/-- What a restore leaves. -/
def restored (s : State) (rcb : Nat) (g : Region) : State :=
  let img := g.image.getD {}
  let area := rcbField s rcb 0x28 8
  let u := (g.clusters.zip (List.range g.clusters.length)).foldl (fun v p => clusterIn v g img area p.1 p.2) (agePassed (claimWaiting s) g)
  let w := { u with arrays := u.arrays ++ arraysIn u g img area }
  let v := beginRun w { g with image := .none, base := fullImage w g area } g.clusters
  pumpAll ((g.clusters.flatMap fun k => (List.range 64).map (64 * k + ·)).foldl
    (fun s c => recount (refill (refill s rcb c true) rcb c false) rcb c) v)

theorem duskRestore_restores (saved : g.state = 3) (power : s.pstate < 2) (near : priosFar s = false) (area : areaFar s g = false)
    (choice : (grantChoice s g.die).map (·.rcb) = some rcb) (quiet : ∀ k ∈ g.clusters, clusterQuiet s k = true) :
    execDuskRestore rcb s = .next (restored s rcb g) := by
  have restores : ¬(decide (g.state ≠ 3) || decide (2 ≤ s.pstate) || priosFar s || areaFar s g ||
      decide ((grantChoice s g.die).map (·.rcb) ≠ some rcb) || !g.clusters.all (clusterQuiet s)) = true := by
    rw [saved, decide_eq_false (not_le.2 power), near, area, choice, List.all_eq_true.2 quiet]; simp
  unfold execDuskRestore
  rw [found]
  exact if_neg restores

theorem mailboxDuskSave_saves (level : bits s.dev.secst 1 0 ≠ 0) (power : s.pstate < 3) (runs : g.state = 2) :
    execMailboxDuskSave rcb s = .next (putRegion s { g with state := 6 }) := by
  unfold execMailboxDuskSave
  rw [found]
  exact if_pos ⟨level, power, runs⟩

theorem mailboxDuskSave_locked (level : bits s.dev.secst 1 0 = 0) : execMailboxDuskSave rcb s = .next s := by
  unfold execMailboxDuskSave
  rw [found]
  exact if_neg fun h => h.1 level

end

/-! ### Clusters and cores -/

theorem utilFlush_flushes {s : State} {cl : Nat} (near : ∀ x ∈ (getCluster s cl).region, rcbFar s x.1 [(0x30, 2 ^ 20)] = false) :
    execUtilFlush cl s = .next (flushUtil s cl) := by
  have reach : ¬((getCluster s cl).region.any fun g => rcbFar s g.1 [(0x30, 2 ^ 20)]) = true := by
    rw [Option.any_eq_true]
    rintro ⟨x, at_, far⟩
    rw [near x at_] at far
    cases far
  rw [execUtilFlush, if_neg reach]

theorem teamStart_starts {s : State} {core rcb k d : Nat} {l : Launch} (region : (getCluster s (core / 64)).region = some (rcb, k))
    (free : (getCluster s (core / 64)).team = .none) (runs : coreRuns s core = true) (near : startFar s core = false)
    (first : [0, 1, 2, 3].findSome? (fun d => ((firstOfRegion (getDie s d).store rcb).filter fun l => l.kind = 1 && l.clk = k).map
      fun l => (d, l)) = some (d, l)) :
    let u := putDie s d { getDie s d with store := (getDie s d).store.erase l }
    let at1 := rcbField u rcb 0x10 8 + 8 * l.cls.toNat
    execTeamStart core s = .next (pump (startTeam u (core / 64) (BitVec.ofNat 64 (readNat u at1 8 / 2 * 2)) at1
      (2 ^ (l.core + 1) - 1) l.carried) d) := by
  unfold execTeamStart
  dsimp only
  rw [region, free]
  dsimp only
  rw [runs, near, if_neg (by decide), first]
  rfl

theorem counted_starved {c : Core} (n : Nat) (none : c.lowTill = .none) (starve : c.starve = 65535) :
    (c.counted true true n).lowTill = some (n + 1 + 1024) := by
  have high : ¬c.lowFirst n = true := by rw [Core.lowFirst, none]; exact Bool.false_ne_true
  rw [Core.counted, if_neg high, none, starve]
  rfl

/-- Settles O52: each event's branches, as their conditions say. -/
theorem schedulerEvents : Obligations.SchedulerEvents := by
  unfold Obligations.SchedulerEvents
  intro s q die rcb core c cl
  refine ⟨?_, ?_, ?_, ?_, ?_, ?_, ?_, ?_, ?_, ?_, ?_⟩
  · intro few power up d base h u at1 b l turn room near reach
    exact dispatcher_takes few power up turn room near reach
  · intro g choice waits power up near image quiet
    exact regionGrant_grants choice waits power up near image quiet
  · intro none
    have grant : exec (.regionGrant die) s = execRegionGrant die s := rfl
    rw [grant, execRegionGrant, none]
  · intro g found
    refine ⟨regionDone_ends found, fun _ busy => regionDone_waits found busy, ?_, duskSave_saves found, duskSave_keeps found, ?_,
      mailboxDuskSave_saves found, mailboxDuskSave_locked found⟩
    · intro runs near u
      refine ⟨budgetExhausted_judges found runs near, rfl, fun close spent => ?_⟩
      obtain ⟨g1, charged⟩ := charge_find (g := g) found
      exact judgeBudgets_marks charged close spent
    · intro saved power near area choice quiet img at_ u w v
      exact duskRestore_restores found saved power near area choice quiet
  · intro near
    exact utilFlush_flushes near
  · intro k d l region free runs near first u at1
    exact teamStart_starts region free runs near first
  · intro a issues
    have choice : exec (.issueChoice core) s = execIssueChoice core s := rfl
    rw [choice, execIssueChoice, issues]
  · intro idle
    have choice : exec (.issueChoice core) s = execIssueChoice core s := rfl
    rw [choice, execIssueChoice, idle]
  · intro n none starve
    exact counted_starved n none starve
  · intro starve none
    have start : exec (.lowPrecedenceStart core) s = execLowPrecedenceStart core s := rfl
    exact start.trans (if_pos ⟨starve, Option.isNone_iff_eq_none.2 none⟩)
  · intro t till past
    have ends : exec (.lowPrecedenceEnd core) s = execLowPrecedenceEnd core s := rfl
    unfold execLowPrecedenceEnd at ends
    dsimp only at ends
    rw [show (getCore s core).lowTill = some t from till] at ends
    exact ends.trans (if_pos past)

end Sys2Proof.Proofs

/-! SUPPORT. Proofs: event records, Noon, power states, Dawn and the mailbox (R377 to R384). -/

namespace Sys2Proof.Proofs

open Sys2Proof Sys2Proof.Machine Sys2Proof.Laws

/-! ### What Noon lets a sample draw -/

/-- A draw above 0 that the room of a window allows, with the draws of its last i samples, is within the window's bound. -/
theorem windowRoom_bound {r d : Nat} (some_ : 0 < d) : ∀ {k b : Nat} {past : List Nat}, d ≤ windowRoom r k b past →
    ∀ i ≤ k, d + (past.take i).sum ≤ b + i * r
  | 0, b, past, h, i, small => by
    obtain rfl := Nat.le_zero.1 small
    simpa [windowRoom] using h
  | k + 1, b, [], h, i, small => by
    rw [List.take_nil, List.sum_nil]
    have : d ≤ b := h
    omega
  | k + 1, b, x :: t, h, i, small => by
    obtain ⟨now, later⟩ := le_min_iff.1 (show d ≤ min b (windowRoom r k (b + r - x) t) from h)
    cases i with
    | zero => simpa using now
    | succ i =>
      have rest := windowRoom_bound some_ later i (Nat.le_of_succ_le_succ small)
      have room := windowRoom_bound some_ later 0 (Nat.zero_le k)
      rw [List.take_succ_cons, List.sum_cons, Nat.succ_mul]
      rw [List.take_zero, List.sum_nil, Nat.zero_mul, Nat.add_zero, Nat.add_zero] at room
      omega

theorem reserve_le (limit : Nat) : reserve limit ≤ limit := min_le_left ..

/-- A draw keeps the window of n + 1 samples, with what is held back for those to come, within c times the limit when the draws before it did. -/
theorem window_kept {r limit c n d : Nat} {past draws : List Nat} (fits : (n + 1) * r ≤ c * limit) (same : ∀ j ≤ n, past.take j = draws.take j)
    (bound : d ≤ r ∨ d ≤ windowRoom r n (c * limit - n * r) past)
    (before : ∀ j ≤ n, (draws.take j).sum + (n + 1 - j) * r ≤ c * limit) :
    ∀ j ≤ n + 1, ((d :: past).take j).sum + (n + 1 - j) * r ≤ c * limit := by
  intro j small
  cases j with
  | zero => simpa using fits
  | succ k =>
    have inside : k ≤ n := Nat.le_of_succ_le_succ small
    rw [List.take_succ_cons, List.sum_cons, Nat.succ_sub_succ]
    rcases le_or_gt d r with low | high
    · have earlier := before k inside
      rw [← same k inside, Nat.succ_sub inside, Nat.succ_mul] at earlier
      omega
    · have room := windowRoom_bound (Nat.lt_of_le_of_lt (Nat.zero_le r) high) (bound.resolve_left (not_le.2 high)) k inside
      have whole : (n - k) * r + k * r = n * r := by rw [← Nat.add_mul, Nat.sub_add_cancel inside]
      rw [Nat.succ_mul] at fits
      omega

section
variable {draws : List Nat} {limit floor d : Nat} (bound : d ≤ drawBound draws limit floor)
include bound

theorem draw_cases : d ≤ reserve limit ∨
    d ≤ ((draws.take 999).length + 1) * limit - (draws.take 999).sum ∧
      d ≤ windowRoom (reserve limit) 999 (1000 * limit - 999 * reserve limit) (draws.take 999) ∧
      d ≤ windowRoom (reserve limit) 9 (12 * limit - 9 * reserve limit) (draws.take 999) := by
  rcases le_max_iff.1 (show d ≤ max (min floor (reserve limit)) _ from bound) with held | free
  · exact .inl (held.trans (min_le_right ..))
  · exact .inr (by rw [← le_min_iff, ← le_min_iff]; exact free)

theorem draw_mean (held : (draws.take 999).sum + reserve limit ≤ ((draws.take 999).length + 1) * limit) :
    (d :: draws.take 999).sum ≤ (d :: draws.take 999).length * limit := by
  rw [List.sum_cons, List.length_cons]
  rcases draw_cases bound with low | ⟨mean, -⟩ <;> omega

theorem draw_window (before : ∀ j ≤ 999, (draws.take j).sum + (1000 - j) * reserve limit ≤ 1000 * limit) :
    ∀ j ≤ 1000, ((d :: draws.take 999).take j).sum + (1000 - j) * reserve limit ≤ 1000 * limit :=
  window_kept (n := 999) (Nat.mul_le_mul_left _ (reserve_le limit)) (fun j small => by rw [List.take_take, min_eq_left small])
    ((draw_cases bound).imp_right fun h => h.2.1) before

theorem draw_burst (before : ∀ j ≤ 9, (draws.take j).sum + (10 - j) * reserve limit ≤ 12 * limit) :
    ∀ j ≤ 10, ((d :: draws.take 999).take j).sum + (10 - j) * reserve limit ≤ 12 * limit :=
  window_kept (n := 9) (Nat.mul_le_mul (by decide) (reserve_le limit)) (fun j small => by rw [List.take_take, min_eq_left (small.trans (by decide))])
    ((draw_cases bound).imp_right fun h => h.2.2) before

end

theorem sum_take_seven (watts : List Nat) : ((List.range 7).map fun k => watts.getD k 0).sum = (watts.take 7).sum := by
  match watts with
  | [] => rfl
  | [a] | [a, b] | [a, b, c] | [a, b, c, d] | [a, b, c, d, e] | [a, b, c, d, e, f] => simp [List.range_succ]
  | a :: b :: c :: d :: e :: f :: g :: t => simp [List.range_succ]

/-- What cannot be held back is no more than what is asked for. -/
theorem floorDraw_le (watts : List Nat) : floorDraw (fun k => watts.getD k 0) ≤ (watts.take 7).sum := by
  rw [← sum_take_seven]
  unfold floorDraw
  refine max_le (Nat.sub_le ..) ?_
  simp only [List.range_succ, List.range_zero, List.nil_append, List.cons_append, List.map_cons, List.map_nil, List.sum_cons, List.sum_nil]
  omega

/-! ### The power register -/

theorem limit_setLimit (x : Word) (v : Nat) : bits (setBits x 31 16 v) 31 16 = v % 2 ^ 16 := by
  have := x.isLt
  simp only [bits, setBits, BitVec.toNat_ofNat]
  omega

theorem limit_setMask (x : Word) (v : Nat) : bits (setBits x 7 4 v) 31 16 = bits x 31 16 := by
  have := x.isLt
  simp only [bits, setBits, BitVec.toNat_ofNat]
  omega

theorem limit_setState (x : Word) (v : Nat) : bits (setBits x 3 0 v) 31 16 = bits x 31 16 := by
  have := x.isLt
  simp only [bits, setBits, BitVec.toNat_ofNat]
  omega

/-- The limit of a sample fits its field. -/
theorem sampleLimit_small (s : State) : min (bits s.dev.pwrcap 11 0) (Config.thermalLimit s.tick) < 2 ^ 16 := by
  have : bits s.dev.pwrcap 11 0 < 2 ^ 12 := Nat.mod_lt _ (by decide)
  omega

/-- The limit of a sample. -/
def sampleLimit (s : State) : Nat := min (bits s.dev.pwrcap 11 0) (Config.thermalLimit s.tick)

/-- What a sample draws. -/
def sampleDraw (s : State) (watts : List Nat) : Nat :=
  min (watts.take 7).sum (drawBound s.draws (sampleLimit s) (floorDraw fun k => watts.getD k 0))

/-- A sample of Noon's: what it records, draws and limits. -/
theorem noonSample_draws {s : State} (watts : List Nat) (due : s.sampleAt ≤ s.stamp) :
    ∃ t, execNoonSample watts s = .next t ∧ t.mem = s.mem ∧ bits t.dev.pwrstat 31 16 = sampleLimit s ∧ t.sampleAt = s.stamp + 1000 ∧
      t.draws = sampleDraw s watts :: s.draws.take 999 ∧ (2 ≤ s.pstate → t.pstate = s.pstate) ∧
      (s.pstate < 2 → sampleLimit s < (watts.take 7).sum ∨ sampleDraw s watts < (watts.take 7).sum → t.pstate = 1) := by
  have logged : ∃ ev, (if bits s.dev.pwrstat 31 16 = sampleLimit s then s else logEvent s 0x5201 6 (sampleLimit s)) = { s with events := ev } := by
    split
    · exact ⟨s.events, rfl⟩
    · exact ⟨_, rfl⟩
  obtain ⟨ev, logged⟩ := logged
  unfold execNoonSample
  dsimp only
  rw [if_neg (not_lt.2 due), show (if bits s.dev.pwrstat 31 16 = min (bits s.dev.pwrcap 11 0) (Config.thermalLimit s.tick) then s
    else logEvent s 0x5201 6 (min (bits s.dev.pwrcap 11 0) (Config.thermalLimit s.tick))) = _ from logged]
  refine ⟨_, rfl, rfl, ?_, rfl, rfl, fun asleep => if_pos asleep, fun awake exceeds => (if_neg (not_le.2 awake)).trans (if_pos ?_)⟩
  · dsimp only
    rw [limit_setState, limit_setMask, limit_setLimit]
    exact Nat.mod_eq_of_lt (sampleLimit_small s)
  · rw [Bool.or_eq_true, Bool.or_eq_true, decide_eq_true_eq, decide_eq_true_eq]
    exact .inl exceeds

/-! ### Dawn -/

theorem foldl_logEvent {β : Type} (f : β → Nat × Nat × Nat) (l : List β) (s : State) :
    ∃ ev, l.foldl (fun s x => logEvent s (f x).1 (f x).2.1 (f x).2.2) s = { s with events := ev } := by
  induction l generalizing s with
  | nil => exact ⟨s.events, rfl⟩
  | cons x t ih =>
    obtain ⟨ev, rest⟩ := ih (logEvent s (f x).1 (f x).2.1 (f x).2.2)
    exact ⟨ev, by rw [List.foldl_cons, rest]; rfl⟩

/-- What a start of the device sets, beside the records of what did not train. -/
theorem startUp_only (d : State) (absent : BitVec 12) (links : BitVec 16) : ∃ ev gx gl, startUp d absent links = { d with
    dev := { d.dev with gxcfg := gx, gxlink := gl }
    absent := absent
    cacheMode := Config.configuredCache d.image
    booted := d.image
    identity := Config.identityKey (Config.measurement d.image)
    recovering := false
    isReady := true
    events := ev } := by
  unfold startUp
  dsimp only
  obtain ⟨ev, reported⟩ := foldl_logEvent (fun k => (0x5000 + k, 5, 0)) ((List.range 12).filter absent.getLsbD) _
  rw [reported]
  obtain ⟨ev', untrained⟩ := foldl_logEvent (fun l => (0x5100 + l, 2, 0)) ((List.range 16).filter fun l => !links.getLsbD l) _
  rw [untrained]
  exact ⟨_, _, _, rfl⟩

theorem checkImage_starts {d : State} (absent : BitVec 12) (links : BitVec 16) (verifies : Config.imageVerifies d.image = true) :
    checkImage d absent links = startUp d absent links := if_pos verifies

theorem checkImage_recovers {d : State} (absent : BitVec 12) (links : BitVec 16) (fails : Config.imageVerifies d.image = false) :
    checkImage d absent links = logEvent { d with recovering := true } 0x5200 0 0 := if_neg (Bool.eq_false_iff.1 fails)

theorem darkState_mem (s : State) : ∀ c ∈ (darkState s).mem, 2 ^ 44 ≤ c.1 ∧ c.1 < 2 ^ 52 := fun _ at_ =>
  of_decide_eq_true (List.mem_filter.1 at_).2

theorem wroteWhere_written (s : State) (p : Nat → Bool) : Written s (wroteWhere s p) :=
  (fireWhere_written s p).trans ⟨_, _, _, _, _, _, rfl⟩

theorem zeroRange_mem (s : State) (inside : Nat → Bool) : (zeroRange s inside).mem = s.mem.filter fun c => !inside c.1 :=
  fireWhere_mem ..

theorem zeroRange_dev (s : State) (inside : Nat → Bool) : (zeroRange s inside).dev = s.dev := by
  unfold zeroRange
  obtain ⟨_, _, _, _, _, _, written⟩ := wroteWhere_written { s with
    mem := s.mem.filter fun c => !inside c.1
    poison := s.poison.filter fun p => !inside (64 * p) } fun l => inside (64 * l)
  rw [written]

theorem zeroRange_pstate (s : State) (inside : Nat → Bool) : (zeroRange s inside).pstate = s.pstate := by
  unfold zeroRange
  obtain ⟨_, _, _, _, _, _, written⟩ := wroteWhere_written { s with
    mem := s.mem.filter fun c => !inside c.1
    poison := s.poison.filter fun p => !inside (64 * p) } fun l => inside (64 * l)
  rw [written]

/-! ### Power commands -/

/-- Two states with the same memory and the same regions. -/
def SameWorld (s t : State) : Prop := t.mem = s.mem ∧ t.regions = s.regions

theorem dropLink_keeps (s : State) (l : Nat) : SameWorld s (dropLink s l) := by
  unfold dropLink putLink
  exact ⟨rfl, rfl⟩

theorem putLinkReg_keeps (s : State) (l : Nat) (v : Word) : SameWorld s (putLinkReg s l v) := ⟨rfl, rfl⟩
theorem logEvent_keeps (s : State) (a b c : Nat) : SameWorld s (logEvent s a b c) := ⟨rfl, rfl⟩

theorem SameWorld.trans {s t u : State} (h : SameWorld s t) (k : SameWorld t u) : SameWorld s u := ⟨k.1.trans h.1, k.2.trans h.2⟩

theorem takeLinkDown_keeps (s : State) (l : Nat) : SameWorld s (takeLinkDown s l) := by
  unfold takeLinkDown
  split
  · exact ⟨rfl, rfl⟩
  · exact ((dropLink_keeps ..).trans (putLinkReg_keeps ..)).trans (logEvent_keeps ..)

theorem foldl_takeLinkDown_keeps (ls : List Nat) (s : State) : SameWorld s (ls.foldl takeLinkDown s) := by
  induction ls generalizing s with
  | nil => exact ⟨rfl, rfl⟩
  | cons l t ih => exact (takeLinkDown_keeps s l).trans (ih _)

/-- Settles O53: each event's branches, as their conditions say. -/
theorem deviceEvents : Obligations.DeviceEvents := by
  unfold Obligations.DeviceEvents
  intro s watts absent links bytes p
  refine ⟨?_, ?_, ?_, ?_, ?_, ?_, ?_, ?_, ?_, ?_, ?_, ?_, ?_, ?_, ?_, ?_, ?_, ?_, ?_, ?_⟩
  · intro none
    have post : exec .eventPost s = execEventPost s := rfl
    rw [post, execEventPost, none]
  · intro e first old room t at1 u
    have post : exec .eventPost s = execEventPost s := rfl
    have posts : ¬(s.stamp < e.stampv + 64 ∨ (!evRoom s) = true) := by
      rw [room]; exact not_or.2 ⟨not_lt.2 old, Bool.false_ne_true⟩
    rw [post, execEventPost, first]
    exact if_neg posts
  · intro early
    exact if_pos early
  · intro due limit past floor r drawn
    obtain ⟨t, next, mem, power, sample, draws, asleep, awake⟩ := noonSample_draws watts due
    have bound : drawn ≤ drawBound s.draws limit floor := min_le_right ..
    refine ⟨t, next, mem, power, sample, draws, ?_, ?_, ?_, ?_, asleep, awake⟩
    · exact le_min ((min_le_left ..).trans (floorDraw_le watts)) (le_max_left ..)
    · rw [draws]; exact draw_mean bound
    · rw [draws]; exact draw_window bound
    · rw [draws]; exact draw_burst bound
  · intro awake up idle since
    exact if_pos ⟨awake, by rw [up]; rfl, idle, since⟩
  · intro busy
    refine if_neg ?_
    rintro ⟨_, _, idle, since⟩
    rcases busy with busy | early
    · rw [busy] at idle; cases idle
    · exact absurd since (not_le.2 early)
  · intro asleep wakes quiet
    have wake : exec .p2Wake s = execP2Wake s := rfl
    have at_ : s.pstate = 2 ∧ s.wakeAt.isSome = true := ⟨asleep, Option.isSome_iff_ne_none.2 wakes⟩
    rw [wake, execP2Wake, if_pos at_]
    dsimp only
    rw [show (setPstate s 0).grx = [] from quiet]
    rfl
  · intro t wakes asleep due
    have exit : exec .p3Exit s = execP3Exit s := rfl
    rw [exit, execP3Exit, wakes]
    exact ⟨_, if_pos ⟨asleep, due⟩, zeroRange_pstate .., zeroRange_mem ..⟩
  · intro dark
    exact ⟨_, if_pos (by rw [dark]; rfl), rfl, rfl, rfl, rfl⟩
  · intro starts fails
    refine ⟨_, if_neg (by rw [starts]; decide), ?_⟩
    rw [checkImage_recovers (d := darkState s) absent links fails]
    exact ⟨rfl, rfl, rfl, rfl⟩
  · intro starts verifies
    refine ⟨_, if_neg (by rw [starts]; decide), ?_⟩
    obtain ⟨ev, gx, gl, only⟩ := startUp_only (darkState s) absent links
    rw [checkImage_starts (d := darkState s) absent links verifies, only]
    exact ⟨rfl, rfl, rfl, rfl, rfl, rfl, rfl, rfl, rfl, darkState_mem s⟩
  · intro on verifies up
    refine (if_neg on).trans ((if_pos verifies).trans ?_)
    rw [up]
    rfl
  · intro on verifies waits
    obtain ⟨ev, gx, gl, only⟩ := startUp_only { s with image := bytes } (Config.untrainedStacks s.tick) (Config.trainedLinks s.tick)
    have started : (if s.recovering then checkImage { s with image := bytes } (Config.untrainedStacks s.tick) (Config.trainedLinks s.tick)
        else { s with image := bytes }) = _ := (if_pos waits).trans ((checkImage_starts _ _ verifies).trans only)
    exact ⟨_, ((if_neg on).trans (if_pos verifies)).trans (congrArg _ started), rfl, rfl, rfl, rfl, rfl⟩
  · intro on fails waits
    exact (if_neg on).trans ((if_neg (Bool.eq_false_iff.1 fails)).trans (if_pos waits))
  · intro on fails up
    exact (if_neg on).trans ((if_neg (Bool.eq_false_iff.1 fails)).trans (if_neg (Bool.eq_false_iff.1 up)))
  · intro on up long report
    refine if_neg ?_
    rw [up]
    simp [on, long]
  · intro on up open_
    have takes : ¬(s.pstate = 4 ∨ s.recovering = true ∨ bits s.dev.secst 1 0 ≠ 0) := by
      rw [up]; simp [on, open_]
    have token : exec (.mailboxDebugToken bytes) s = execMailboxDebugToken bytes s := rfl
    unfold execMailboxDebugToken at token
    dsimp only at token
    rw [if_neg takes] at token
    by_cases one : Config.tokenGrants bytes s.nonce = 1
    · rw [if_pos one] at token
      exact ⟨_, token, fun _ => ⟨rfl, rfl⟩, fun two => absurd (one.symm.trans two) (by decide), fun other => absurd one other⟩
    · rw [if_neg one] at token
      by_cases two : Config.tokenGrants bytes s.nonce = 2
      · rw [if_pos two] at token
        refine ⟨_, token, fun is => absurd is one, fun _ => ⟨rfl, fun c at_ => ?_⟩, fun _ other => absurd two other⟩
        dsimp only at at_
        rw [zeroRange_mem] at at_
        have outside := (List.mem_filter.1 at_).2
        rw [Bool.not_eq_true', Bool.or_eq_false_iff, decide_eq_false_iff_not, not_lt] at outside
        obtain ⟨slice, far⟩ := outside
        exact ⟨far, not_le.1 (of_decide_eq_false slice)⟩
      · rw [if_neg two] at token
        exact ⟨_, token, fun is => absurd is one, fun is => absurd is two, fun _ _ => ⟨rfl, rfl⟩⟩
  · intro locked
    exact if_pos (.inr (.inr locked))
  · intro up on goes quiet
    have idle : (s.regions.all fun g => decide (g.state ≠ 1) && !g.onClusters) = true := by
      rw [List.all_eq_true]
      intro g at_
      obtain ⟨one, two, six, seven⟩ := quiet g at_
      simp [Region.onClusters, one, two, six, seven]
    have takes : ¬(s.recovering = true ∨ s.pstate = 4) := by rw [up]; exact not_or.2 ⟨Bool.false_ne_true, on⟩
    obtain ⟨mem, regions⟩ := foldl_takeLinkDown_keeps (List.range 16) s
    exact ⟨_, (if_neg takes).trans (if_pos ⟨goes, idle⟩), rfl, mem, regions⟩
  · intro asleep zero up none
    have takes : ¬(s.recovering = true ∨ s.pstate = 4) := by rw [up, asleep]; decide
    refine (if_neg takes).trans ((if_neg ?_).trans (if_pos ⟨zero, asleep, by rw [none]; rfl⟩))
    rw [zero]
    rintro ⟨off | off, -⟩
    · exact absurd off.1 (by decide)
    · exact absurd off (by decide)

end Sys2Proof.Proofs

/-! SUPPORT. Proofs: accesses of the host (R328, R361 to R363). -/

namespace Sys2Proof.Proofs

open Sys2Proof Sys2Proof.Machine Sys2Proof.Laws

/-! ### The access as the device serves it -/

/-- The bytes that an access reaches: a CAS carries two operands (R361). -/
def hostReach (k len : Nat) : Nat := if k = 10 ∨ k = 13 then len / 2 else len

/-- The kinds at BAR2. -/
def AtBar2 (k : Nat) : Prop := k = 2 ∨ k = 3 ∨ (8 ≤ k ∧ k ≤ 10)
def hostPlace (k addr : Nat) : Nat := if k = 2 ∨ k = 3 ∨ (8 ≤ k ∧ k ≤ 10) then sliceBase + addr else addr
def HostFits (k addr len : Nat) : Prop :=
  if k = 2 ∨ k = 3 ∨ (8 ≤ k ∧ k ≤ 10) then addr + hostReach k len ≤ 2 ^ 30 else addr + hostReach k len ≤ 2 ^ 42

/-- The lines of an access. -/
def hostPieces (k addr len : Nat) : List (Nat × Nat) := linePieces (hostReach k len / 64 + 2) (hostPlace k addr) (hostReach k len)

section
variable {s : State} {k addr : Nat} {data : List Byte} (memory : 2 ≤ k ∧ k ≤ 13) (up : s.recovering = false) (awake : s.pstate ≠ 3)
include memory

theorem hostServe_outside (outside : ¬HostFits k addr data.length) : hostServe s k addr data = some (hostDone s 1 []) := by
  unfold hostServe
  dsimp only
  rw [if_neg (not_lt.2 memory.1), if_pos]
  exact .inr (.inr (.inl (by rw [Bool.not_eq_true', decide_eq_false_iff_not]; exact outside)))

variable (fits : HostFits k addr data.length)
include up awake fits

theorem hostServe_inside : hostServe s k addr data =
    if (hostPieces k addr data.length).any fun p => hostHeld s (decide (k ≠ 2 ∧ k ≠ 4)) p.1 then .none
    else if k = 2 ∨ k = 4 then
      some (hostDone (hostCount s (fun l => (hostMay s l).1) (hostPieces k addr data.length)) (hostRead s (hostPieces k addr data.length)).1
        (hostRead s (hostPieces k addr data.length)).2)
    else if k = 3 ∨ k = 5 then
      if (hostPieces k addr data.length).all fun p => (hostMay s p.1).2 then
        some (hostDone (hostWrite (hostCount s (fun l => (hostMay s l).2) (hostPieces k addr data.length)) (hostPieces k addr data.length) data) 0 [])
      else some (hostDone s 1 [])
    else some (hostAtomic s (if k ≤ 10 then k - 8 else k - 11) (hostPlace k addr) data) := by
  unfold hostServe
  dsimp only
  rw [if_neg (not_lt.2 memory.1)]
  refine if_neg ?_
  rintro (recovering | asleep | outside | high)
  · rw [up] at recovering; cases recovering
  · exact awake asleep
  · rw [Bool.not_eq_true', decide_eq_false_iff_not] at outside
    exact outside fits
  · exact absurd memory.2 (not_le.2 high)

end

theorem hostServe_bar0 {s : State} {k addr : Nat} {data : List Byte} (bar0 : k < 2) (up : s.recovering = false) (awake : s.pstate ≠ 3) :
    hostServe s k addr data = if 2 ^ 24 < addr + data.length then some (hostDone s 1 [])
      else if k = 0 then some (hostDone s 0 (bar0Read s addr data.length)) else some (hostDone (bar0Write s addr data) 0 []) := by
  have plain : ¬(k = 10 ∨ k = 13) := by omega
  unfold hostServe
  dsimp only
  rw [if_neg plain, if_pos bar0, up]
  by_cases past : 2 ^ 24 < addr + data.length
  · rw [if_pos past, if_pos (.inl past)]
  · rw [if_neg past, if_neg]
    rintro (far | ⟨recovering | asleep, -⟩)
    · exact past far
    · cases recovering
    · exact awake asleep

/-! ### The access as the host makes it -/

/-- An access of the host to its own memory goes through its own caches. -/
theorem hostAccess_own {s : State} (quiet : s.posted = []) {addr : Nat} {data : List Byte} (inside : addr + data.length ≤ 2 ^ 48) :
    exec (.hostAccess 6 addr data) s = .next (hostDone s 0 (readBytes s (2 ^ 51 + addr) data.length)) ∧
      exec (.hostAccess 7 addr data) s = .next (hostDone (writeBytes s (2 ^ 51 + addr) data) 0 []) := by
  have delivered : deliverPosted s = s := by
    cases s; cases quiet; rfl
  have access (k : BitVec 4) : exec (.hostAccess k addr data) s = execHostAccess k addr data s := rfl
  rw [access, access]
  unfold execHostAccess
  dsimp only
  rw [delivered, if_pos (by decide), if_neg (not_lt.2 inside), if_pos (by decide), if_pos (by decide), if_neg (not_lt.2 inside), if_neg (by decide)]
  exact ⟨rfl, rfl⟩

/-- With nothing of the host's under way, its access is served or waits. -/
theorem hostAccess_eq {s : State} (quiet : s.posted = []) (empty : s.hostWaits = []) (on : s.pstate ≠ 4) (k : BitVec 4) (addr : Nat) (data : List Byte)
    (device : ¬(k.toNat = 6 ∨ k.toNat = 7)) :
    exec (.hostAccess k addr data) s =
      .next ((hostServe s k.toNat addr data).getD { s with hostWaits := [(k.toNat, addr, data)] }) := by
  have delivered : deliverPosted s = s := by
    cases s; cases quiet; rfl
  have none : { s with hostWaits := [] } = s := by
    cases s; cases empty; rfl
  have access : exec (.hostAccess k addr data) s = execHostAccess k addr data s := rfl
  rw [access]
  unfold execHostAccess
  dsimp only
  rw [delivered, if_neg device, if_neg on, empty, List.nil_append, List.length_nil, pumpHost]
  dsimp only
  rw [none]
  cases hostServe s k.toNat addr data <;> rfl

/-- Nothing holds up an access: no reserved bank, and no link for what it reaches or what its verdict is read from. -/
def HostFree (s : State) (write : Prop) (ps : List (Nat × Nat)) : Prop :=
  ∀ q ∈ ps, bankBusy s q.1 4096 = false ∧ verdictFar s q.1 = false ∧
    ((¬write → (hostMay s q.1).1 = true → farWaits s q.1 = false) ∧ (write → (hostMay s q.1).2 = true → writeWaits s q.1 = false))

theorem hostFree_iff {s : State} {write : Prop} [Decidable write] {ps : List (Nat × Nat)} :
    (ps.any fun p => hostHeld s (decide write) p.1) = false ↔ HostFree s write ps := by
  rw [List.any_eq_false, HostFree]
  refine forall₂_congr fun q _ => ?_
  unfold hostHeld
  by_cases w : write
  · simp [w, and_assoc]
  · simp [w, and_assoc]

/-! ### AtomicOps -/

section
variable {s : State} {op loc n : Nat} {d : List Byte} (reach : (if op = 2 then d.length / 2 else d.length) = n)
include reach

/-- An AtomicOp that its host may do there. -/
def AtomicGood (s : State) (loc n : Nat) : Prop :=
  (n = 4 ∨ n = 8) ∧ loc % n = 0 ∧ (hostMay s loc).1 = true ∧ (hostMay s loc).2 = true

omit reach in
theorem atomicGood_iff : ¬((n ≠ 4 ∧ n ≠ 8) ∨ loc % n ≠ 0 ∨ (!(hostMay s loc).1) = true ∨ (!(hostMay s loc).2) = true) ↔ AtomicGood s loc n := by
  simp only [AtomicGood, not_or, not_and_or, ne_eq, not_not, Bool.not_eq_true', Bool.not_eq_false]

theorem hostAtomic_refused (bad : ¬AtomicGood s loc n) : hostAtomic s op loc d = hostDone s 1 [] := by
  unfold hostAtomic
  rw [reach]
  exact if_pos (not_not.1 (mt atomicGood_iff.1 bad))

theorem hostAtomic_fails (good : AtomicGood s loc n) (bad : (serveRead (countHot s loc 0 0) loc n).1 ≠ 0) :
    hostAtomic s op loc d = hostDone (countHot s loc 0 0) 2 [] := by
  unfold hostAtomic
  rw [reach]
  refine (if_neg (atomicGood_iff.2 good)).trans ?_
  dsimp only
  split
  next read => rw [read] at bad; exact absurd rfl bad
  next => rfl

theorem hostAtomic_does (good : AtomicGood s loc n) {old : Nat} (read : serveRead (countHot s loc 0 0) loc n = (0, toBytes n old)) (small : old < 256 ^ n) :
    hostAtomic s op loc d = hostDone (serveWrite (countHot s loc 0 0) loc (toBytes n (atomicNew op n old d)) false).2 0 (toBytes n old) := by
  unfold hostAtomic
  rw [reach]
  refine (if_neg (atomicGood_iff.2 good)).trans ?_
  dsimp only
  have same : fromBytes (toBytes n old) = old := by rw [fromBytes_toBytes, Nat.mod_eq_of_lt small]
  rw [read]
  exact congrArg (fun v => hostDone (serveWrite (countHot s loc 0 0) loc (toBytes n (atomicNew op n v d)) false).2 0 (toBytes n old)) same

end

/-! ### The kinds of an access -/

theorem ite_split {p a b : Prop} [Decidable p] : (if p then a else b) ↔ (¬¬p → a) ∧ (¬p → b) := by
  by_cases h : p
  · simp [h]
  · simp [h]

theorem kind_cas (k : BitVec 4) : (k = 10 ∨ k = 13) ↔ (k.toNat = 10 ∨ k.toNat = 13) := by revert k; decide
theorem kind_bar2 (k : BitVec 4) : (k = 2 ∨ k = 3 ∨ k = 8 ∨ k = 9 ∨ k = 10) ↔ (k.toNat = 2 ∨ k.toNat = 3 ∨ (8 ≤ k.toNat ∧ k.toNat ≤ 10)) := by
  revert k; decide
theorem kind_load (k : BitVec 4) : ¬(k = 2 ∨ k = 4) ↔ (k.toNat ≠ 2 ∧ k.toNat ≠ 4) := by revert k; decide
theorem kind_atomic (k : BitVec 4) : (k = 8 ∨ k = 9 ∨ k = 10 ∨ k = 11 ∨ k = 12 ∨ k = 13) → 8 ≤ k.toNat ∧ k.toNat ≤ 13 := by revert k; decide
theorem kind_memory (k : BitVec 4) : (k = 2 ∨ k = 3 ∨ k = 4 ∨ k = 5 ∨ k = 8 ∨ k = 9 ∨ k = 10 ∨ k = 11 ∨ k = 12 ∨ k = 13) →
    (2 ≤ k.toNat ∧ k.toNat ≤ 13) ∧ ¬(k.toNat = 6 ∨ k.toNat = 7) := by revert k; decide
/-- The AtomicOp of a kind: 2 for a CAS. -/
theorem kind_op (k : BitVec 4) (atomic : 8 ≤ k.toNat ∧ k.toNat ≤ 13) :
    ((if k.toNat ≤ 10 then k.toNat - 8 else k.toNat - 11) = 2 ↔ (k.toNat = 10 ∨ k.toNat = 13)) ∧
    ((if k.toNat ≤ 10 then k.toNat - 8 else k.toNat - 11) = 0 ↔ (k = 8 ∨ k = 11)) ∧
    (if k.toNat ≤ 10 then k.toNat - 8 else k.toNat - 11) ≤ 2 := by
  revert k; decide

/-- The value that an AtomicOp of the host leaves (R361). -/
theorem atomicNew_kind (k : BitVec 4) (atomic : 8 ≤ k.toNat ∧ k.toNat ≤ 13) (n old : Nat) (d : List Byte) :
    atomicNew (if k.toNat ≤ 10 then k.toNat - 8 else k.toNat - 11) n old d =
      if k = 10 ∨ k = 13 then (if old = at_ d 0 n then at_ d n n else old)
      else if k = 8 ∨ k = 11 then (old + at_ d 0 n) % 256 ^ n else at_ d 0 n := by
  obtain ⟨cas, add, small⟩ := kind_op k atomic
  unfold atomicNew
  dsimp only
  generalize (if k.toNat ≤ 10 then k.toNat - 8 else k.toNat - 11) = op at cas add small
  by_cases isCas : k = 10 ∨ k = 13
  · have two := cas.2 ((kind_cas k).1 isCas)
    rw [if_pos isCas, two, if_neg (by decide), if_neg (by decide)]
  · have notTwo := mt cas.1 (mt (kind_cas k).2 isCas)
    rw [if_neg isCas]
    by_cases isAdd : k = 8 ∨ k = 11
    · rw [if_pos isAdd, if_pos (add.2 isAdd)]
    · have notZero := mt add.1 isAdd
      rw [if_neg isAdd, if_neg notZero, if_pos (by omega)]

/-- Settles O54: an access is served as `hostServe` says, or waits. -/
theorem hostAccesses : Obligations.HostAccesses := by
  unfold Obligations.HostAccesses
  intro s k addr data n cas m bar2 loc fits rmw good ps free quiet empty on awake up
  have reach : m = hostReach k.toNat n := if_congr (kind_cas k) rfl rfl
  have place : loc = hostPlace k.toNat addr := if_congr (kind_bar2 k) rfl rfl
  have inside : fits ↔ HostFits k.toNat addr n := by
    have bound : (if bar2 then 2 ^ 30 else 2 ^ 42) = if k.toNat = 2 ∨ k.toNat = 3 ∨ (8 ≤ k.toNat ∧ k.toNat ≤ 10) then 2 ^ 30 else 2 ^ 42 :=
      if_congr (kind_bar2 k) rfl rfl
    rw [show fits = (addr + m ≤ if bar2 then 2 ^ 30 else 2 ^ 42) from rfl, bound, reach, HostFits]
    split <;> rfl
  have pieces : ps = hostPieces k.toNat addr n := by
    rw [show ps = linePieces (m / 64 + 2) loc m from rfl, reach, place, hostPieces]
  have isFree : free ↔ HostFree s (k.toNat ≠ 2 ∧ k.toNat ≠ 4) (hostPieces k.toNat addr n) := by
    rw [← pieces, HostFree, ← kind_load]
    refine forall₂_congr fun q _ => and_congr_right fun _ => and_congr_right fun _ => ?_
    exact ite_split
  have access := hostAccess_eq quiet empty on k addr data
  -- an access to memory that fits and is free
  have served (device : (2 ≤ k.toNat ∧ k.toNat ≤ 13) ∧ ¬(k.toNat = 6 ∨ k.toNat = 7)) (isFits : fits) (goes : free) {v : State}
      (rest : (if k.toNat = 2 ∨ k.toNat = 4 then
        some (hostDone (hostCount s (fun l => (hostMay s l).1) (hostPieces k.toNat addr n)) (hostRead s (hostPieces k.toNat addr n)).1
          (hostRead s (hostPieces k.toNat addr n)).2)
      else if k.toNat = 3 ∨ k.toNat = 5 then
        if (hostPieces k.toNat addr n).all fun p => (hostMay s p.1).2 then
          some (hostDone (hostWrite (hostCount s (fun l => (hostMay s l).2) (hostPieces k.toNat addr n)) (hostPieces k.toNat addr n) data) 0 [])
        else some (hostDone s 1 [])
      else some (hostAtomic s (if k.toNat ≤ 10 then k.toNat - 8 else k.toNat - 11) (hostPlace k.toNat addr) data)) = some v) :
      exec (.hostAccess k addr data) s = .next v := by
    rw [access device.2, hostServe_inside device.1 up awake (inside.1 isFits),
      if_neg (Bool.eq_false_iff.1 (hostFree_iff.2 (isFree.1 goes))), rest]
    rfl
  refine ⟨?_, ?_, ?_, ?_, ?_, ?_, ?_, ?_⟩
  · intro inside0
    constructor
    · rw [hostAccess_eq quiet empty on 0 addr data (by decide), hostServe_bar0 (by decide) up awake, if_neg (not_lt.2 inside0)]
      rfl
    · rw [hostAccess_eq quiet empty on 1 addr data (by decide), hostServe_bar0 (by decide) up awake, if_neg (not_lt.2 inside0)]
      rfl
  · intro load isFits goes
    have is : k.toNat = 2 ∨ k.toNat = 4 := by rcases load with rfl | rfl <;> decide
    have loads := served ⟨by omega, by omega⟩ isFits goes (if_pos is)
    rw [← pieces] at loads
    exact loads
  · intro store isFits goes
    have is : k.toNat = 3 ∨ k.toNat = 5 := by rcases store with rfl | rfl <;> decide
    constructor
    · intro may
      have all : (ps.all fun p => (hostMay s p.1).2) = true := List.all_eq_true.2 may
      have stores := served ⟨by omega, by omega⟩ isFits goes ((if_neg (by omega)).trans ((if_pos is).trans (if_pos (pieces ▸ all))))
      rw [← pieces, hostCount, if_pos all] at stores
      exact stores
    · rintro ⟨q, at_, denied⟩
      have some_ : ¬(ps.all fun p => (hostMay s p.1).2) = true := fun all => by
        rw [List.all_eq_true.1 all q at_] at denied
        cases denied
      exact served ⟨by omega, by omega⟩ isFits goes ((if_neg (by omega)).trans ((if_pos is).trans (if_neg (pieces ▸ some_))))
  · intro atomic isFits goes
    have is := kind_atomic k atomic
    have does : exec (.hostAccess k addr data) s =
        .next (hostAtomic s (if k.toNat ≤ 10 then k.toNat - 8 else k.toNat - 11) loc data) := by
      rw [place]
      exact served ⟨by omega, by omega⟩ isFits goes ((if_neg (by omega)).trans (if_neg (by omega)))
    have size : (if (if k.toNat ≤ 10 then k.toNat - 8 else k.toNat - 11) = 2 then data.length / 2 else data.length) = m :=
      if_congr ((kind_op k is).1.trans (kind_cas k).symm) rfl rfl
    refine ⟨fun bad => ?_, fun isGood bad => ?_, fun isGood old read small => ?_⟩
    · rw [does, hostAtomic_refused size bad]
    · rw [does, hostAtomic_fails size isGood bad]
    · rw [does, hostAtomic_does size isGood read small, atomicNew_kind k is]
  · intro kind isFits held
    have device := kind_memory k kind
    rw [access device.2, hostServe_inside device.1 up awake (inside.1 isFits),
      if_pos (Bool.not_eq_false _ ▸ mt hostFree_iff.1 (mt isFree.2 held))]
    rfl
  · intro inside0
    exact hostAccess_own quiet inside0
  · intro kind outside
    have device := kind_memory k kind
    rw [access device.2, hostServe_outside device.1 (mt inside.2 outside)]
    rfl
  · intro past
    constructor
    · rw [hostAccess_eq quiet empty on 0 addr data (by decide), hostServe_bar0 (by decide) up awake, if_pos past]
      rfl
    · rw [hostAccess_eq quiet empty on 1 addr data (by decide), hostServe_bar0 (by decide) up awake, if_pos past]
      rfl

end Sys2Proof.Proofs

/-! SUPPORT. Proofs: links to the far tier and to other devices (R85, R364 to R370, R376). -/

namespace Sys2Proof.Proofs

open Sys2Proof Sys2Proof.Machine Sys2Proof.Laws

/-! ### The far tier -/

/-- With nothing that waits for a link but records, they alone go on. -/
theorem farAgain_records {u : State} (passing : u.passing = []) (asks : u.asks = []) (ends : u.ends = []) : farAgain u = flushRecs u u.recs := by
  have unheld : { u with passing := [], asks := [], ends := [] } = u := by
    cases u; cases passing; cases asks; cases ends; rfl
  unfold farAgain askAgain endWaiting
  dsimp only
  rw [passing, List.foldl_nil]
  dsimp only
  rw [asks, List.foldl_nil]
  dsimp only
  rw [ends, List.foldl_nil, unheld]

theorem flushRecs_nil {u : State} (none : u.recs = []) : flushRecs u u.recs = u := by
  rw [none]
  cases u; cases none; rfl

theorem flushRecs_one {u : State} {r : List Byte} (one : u.recs = [r]) (room : recRoom u = true) :
    flushRecs u u.recs = { writeRec u r with recs := [] } := by
  rw [one, flushRecs, if_pos room, flushRecs]

/-! ### Flits -/

section
variable {s : State} {l : Nat} {flit : List Nat} (link : l < 16) (long : flit.length = 256) (trained : linkTrained s l = true)
include link long trained

theorem flit_received : execGoldexFlitReceive l flit s =
    if crc32 (flit.take 252) ≠ fieldN flit 252 4 then .next s
    else
      let x := takeAck (getLink s l) (fieldN flit 2 2)
      if fieldN flit 4 1 = 0 ∨ fieldN flit 0 2 ≠ x.rxNext then .next (putLink s l x)
      else .next (if fieldN flit 4 1 = 1 then receivePayload (takeFlit s l x) l ((flit.drop 8).take 244)
        else if fieldN flit 4 1 = 2 then takeTime (takeFlit s l x) l (BitVec.ofNat 64 (fieldN ((flit.drop 8).take 244) 8 8)) else takeFlit s l x) := by
  have takes : ¬(16 ≤ l ∨ flit.length ≠ 256 ∨ (!linkTrained s l) = true) := by
    rw [trained]; simp [link, long]
  exact if_neg takes

theorem flit_corrupt (bad : crc32 (flit.take 252) ≠ fieldN flit 252 4) : execGoldexFlitReceive l flit s = .next s :=
  (flit_received link long trained).trans (if_pos bad)

variable (whole : crc32 (flit.take 252) = fieldN flit 252 4)
include whole

theorem flit_outOfOrder (late : fieldN flit 0 2 ≠ (takeAck (getLink s l) (fieldN flit 2 2)).rxNext) :
    execGoldexFlitReceive l flit s = .next (putLink s l (takeAck (getLink s l) (fieldN flit 2 2))) :=
  (flit_received link long trained).trans ((if_neg (not_not.2 whole)).trans (if_pos (.inr late)))

variable (next : fieldN flit 0 2 = (takeAck (getLink s l) (fieldN flit 2 2)).rxNext)
include next

theorem flit_payload (kind : fieldN flit 4 1 = 1) : execGoldexFlitReceive l flit s =
    .next (receivePayload (takeFlit s l (takeAck (getLink s l) (fieldN flit 2 2))) l ((flit.drop 8).take 244)) := by
  have ordered : ¬(fieldN flit 4 1 = 0 ∨ fieldN flit 0 2 ≠ (takeAck (getLink s l) (fieldN flit 2 2)).rxNext) := by
    rw [kind]; simp [next]
  exact (flit_received link long trained).trans ((if_neg (not_not.2 whole)).trans ((if_neg ordered).trans (congrArg _ (if_pos kind))))

theorem flit_time (kind : fieldN flit 4 1 = 2) : execGoldexFlitReceive l flit s =
    .next (takeTime (takeFlit s l (takeAck (getLink s l) (fieldN flit 2 2))) l (BitVec.ofNat 64 (fieldN ((flit.drop 8).take 244) 8 8))) := by
  have ordered : ¬(fieldN flit 4 1 = 0 ∨ fieldN flit 0 2 ≠ (takeAck (getLink s l) (fieldN flit 2 2)).rxNext) := by
    rw [kind]; simp [next]
  have notPayload : fieldN flit 4 1 ≠ 1 := by rw [kind]; decide
  exact (flit_received link long trained).trans ((if_neg (not_not.2 whole)).trans ((if_neg ordered).trans
    (congrArg _ ((if_neg notPayload).trans (if_pos kind)))))

end

/-! ### Streams to another device -/

theorem getTx_names (s : State) (dst ch : Nat) : (getTx s dst ch).dst = dst ∧ (getTx s dst ch).ch = ch := by
  unfold getTx
  cases found : s.gtx.find? fun g => g.dst = dst && g.ch = ch with
  | none => exact ⟨rfl, rfl⟩
  | some g =>
    have is := List.find?_some found
    rw [Bool.and_eq_true, decide_eq_true_eq, decide_eq_true_eq] at is
    exact is

theorem getTx_putTx_other {s : State} {g : GTx} {dst ch : Nat} (other : ch ≠ g.ch) : getTx (putTx s g) dst ch = getTx s dst ch := by
  unfold getTx putTx
  dsimp only
  rw [List.find?_cons_of_neg (by simp [Ne.symm other]), List.find?_filter]
  congr 2
  funext x
  by_cases its : x.ch = ch
  · simp [its, other]
  · simp [its]

theorem sendFlit_gtx {s u : State} {dst : Nat} {body : List Nat} (sent : sendFlit s dst body = some u) : u.gtx = s.gtx := by
  unfold sendFlit at sent
  obtain ⟨l, -, rfl⟩ := Option.map_eq_some_iff.1 sent
  rfl

theorem resendDue_none {s : State} {dst ch : Nat} (none : (getTx s dst ch).unacked = []) : resendDue s dst ch = s := by
  unfold resendDue
  dsimp only
  rw [none]
  rfl

/-- A record whose acknowledgement is overdue is sent again. -/
theorem resendDue_one {s u : State} {dst e t : Nat} {body : List Nat} (one : (getTx s dst 0).unacked = [(e, body, t)])
    (due : t = 0 ∨ t + 100000 ≤ s.stamp) (sent : sendFlit s dst body = some u) :
    resendDue s dst 0 = putTx u { getTx s dst 0 with unacked := [(e, body, max 1 u.stamp)] } := by
  have again : resendOne dst 0 (s, []) (e, body, t) = (u, [(e, body, max 1 u.stamp)]) := by
    unfold resendOne
    rw [if_pos (due.imp_right fun h => ⟨rfl, h⟩), sent]
    rfl
  unfold resendDue
  dsimp only
  rw [one, List.isEmpty_cons, if_neg Bool.false_ne_true, List.foldl_cons, List.foldl_nil, again]

/-! ### Bounces -/

section
variable {s : State} {i : Nat} {r : Remote} (at_ : s.remotes[i]? = some r)
include at_

theorem bounce_reachable (up : reachable s (remoteDev r) = true) : execBounceTimeout i s = .next s := by
  unfold execBounceTimeout
  rw [at_]
  exact if_pos up

theorem keepReachable_since (up : reachable s (remoteDev r) = true) : ∀ q ∈ (keepReachable s).remotes[i]?, q.since = s.stamp := by
  intro q is
  unfold keepReachable at is
  dsimp only at is
  rw [List.getElem?_map, at_, Option.map_some, if_pos up] at is
  cases is
  rfl

variable (down : reachable s (remoteDev r) = false)
include down

theorem bounce_early (early : s.stamp < r.since + 1000000) : execBounceTimeout i s = .next s := by
  unfold execBounceTimeout
  rw [at_]
  exact (if_neg (Bool.eq_false_iff.1 down)).trans (if_pos early)

theorem bounce_due (due : r.since + 1000000 ≤ s.stamp) (unsent : r.eseq = none) :
    execBounceTimeout i s = .next (bounce { s with remotes := s.remotes.eraseIdx i } r.ctx r.hdr 1) := by
  unfold execBounceTimeout
  rw [at_]
  dsimp only
  rw [down, if_neg Bool.false_ne_true, if_neg (not_lt.2 due), unsent]

end

/-! ### Replay and time -/

theorem replayTimeout_due {s : State} {l : Nat} {f : Nat × List Nat × Nat} {rest : List (Nat × List Nat × Nat)} (oldest : (getLink s l).replay = f :: rest)
    (trained : linkTrained s l = true) (due : f.2.2 + 2000 ≤ s.stamp) (few : (getLink s l).failed < 8) :
    execLinkReplayTimeout l s =
      let x := getLink s l
      let failed := if x.tried then x.failed + 1 else x.failed
      if 8 ≤ failed then .next (putLink s l { x with failed := failed }) else .next (
        let u := putLink s l { x with
          replay := x.replay.map fun f => (f.1, f.2.1, s.stamp)
          failed := failed
          tried := true
          gap := false }
        putLinkReg u l (setBits (linkReg u l) 31 0 (bits (linkReg u l) 31 0 + x.replay.length))) := by
  unfold execLinkReplayTimeout
  dsimp only
  rw [oldest]
  dsimp only
  rw [if_pos ⟨trained, .inl due, few⟩]

theorem takeTime_free {s : State} {l : Nat} (count : Word) (free : bits s.dev.gxcfg 28 28 = 0) :
    takeTime s l count = { sendTime s count.toNat l with slew := max (-4) (min 4 (signed 64 (count - BitVec.ofNat 64 s.stamp).toNat)) } :=
  if_neg (by rw [free]; decide)

theorem farLost_late {s : State} {dev t : Nat} {f : FarDev} (one : s.far = [f]) (its : f.dev = dev) (down : f.down = some t)
    (live : f.lost = false) (late : t + 2000000 < s.stamp) :
    execFarLostTimeout dev s = .next (farAgain { s with far := [{ f with lost := true }] }) := by
  have due : (s.far.any fun x => x.dev = dev && !x.lost && x.down.any fun t => decide (t + 2000000 < s.stamp)) = true := by
    rw [one, List.any_cons, its, live, down, Option.any_some, decide_eq_true late, decide_eq_true rfl]
    rfl
  have put : putFar s dev (fun x => { x with lost := true }) = { s with far := [{ f with lost := true }] } := by
    rw [putFar, one, List.map_cons, List.map_nil, if_pos its]
  rw [execFarLostTimeout, if_pos due, put]

theorem farLost_early {s : State} {dev t : Nat} {f : FarDev} (one : s.far = [f]) (down : f.down = some t)
    (early : f.lost = true ∨ s.stamp ≤ t + 2000000) : execFarLostTimeout dev s = .next s := by
  have notDue : ¬(s.far.any fun x => x.dev = dev && !x.lost && x.down.any fun t => decide (t + 2000000 < s.stamp)) = true := by
    rw [one, List.any_cons, List.any_nil, down, Option.any_some]
    rcases early with lost | early
    · rw [lost]; simp
    · rw [decide_eq_false (not_lt.2 early)]; simp
  rw [execFarLostTimeout, if_neg notDue]

theorem retrainStart_trains {s : State} {l : Nat} (link : l < 16) (idle : bits (linkReg s l) 63 62 ≠ 1) (enabled : bits (linkReg s l) 61 61 = 0)
    (power : s.pstate < 3) (up : s.recovering = false) : execRetrainStart l s =
      .next (logEvent (putLinkReg (putLink (dropLink s l) l { trainAt := some s.stamp }) l
        (setBits (setBits (linkReg s l) 63 62 1) 47 32 (min (bits (linkReg s l) 47 32 + 1) 0xFFFF))) (0x5100 + l) 1 0) := by
  refine if_neg ?_
  rw [up]
  simp [link, idle, enabled, power]

/-- Settles O55: each event's branches, as their conditions say. -/
theorem linkEvents : Obligations.LinkEvents := by
  unfold Obligations.LinkEvents
  intro s dev l i flit count x
  refine ⟨?_, ?_, ?_, ?_, ?_, ?_, ?_, ?_, ?_, ?_, ?_, ?_, ?_, ?_⟩
  · rintro ⟨f, at_, its, up⟩
    refine if_pos (List.any_eq_true.2 ⟨f, at_, ?_⟩)
    rw [its, up]; simp
  · rintro ⟨f, at_, its, down⟩
    refine ⟨if_pos (List.any_eq_true.2 ⟨f, at_, ?_⟩), fun passing asks ends => ?_⟩
    · rw [its, Option.isSome_iff_ne_none.2 down]; simp
    · have alone := farAgain_records (u := logEvent (putFar s dev fun f => { f with down := none, lost := false }) 0x5203 3 dev) passing asks ends
      exact ⟨fun none => alone.trans (flushRecs_nil none), fun r one room => alone.trans (flushRecs_one one room)⟩
  · intro f t one its down
    exact ⟨farLost_late one its down, farLost_early one down⟩
  · intro link long trained bad
    exact flit_corrupt link long trained bad
  · intro link long trained whole kind y
    exact ⟨fun late => flit_outOfOrder link long trained whole late, fun next => flit_payload link long trained whole next kind⟩
  · intro link long trained whole kind y
    exact ⟨fun late => flit_outOfOrder link long trained whole late, fun next => flit_time link long trained whole next kind⟩
  · intro f rest oldest trained due few failed
    have eq := replayTimeout_due oldest trained due few
    exact ⟨fun below => eq.trans (if_neg (not_le.2 below)), fun reached => eq.trans (if_pos reached)⟩
  · intro link idle enabled power up
    exact retrainStart_trains link idle enabled power up
  · intro link training up
    refine if_neg ?_
    simp [link, training]
  · intro none none'
    have resend : exec (.endToEndResend i) s = execEndToEndResend i s := rfl
    rw [resend, execEndToEndResend, resendDue_none none, resendDue_none none']
  · intro e body t u one none due sent
    have resend : exec (.endToEndResend i) s = execEndToEndResend i s := rfl
    have other : (getTx (putTx u ⟨(getTx s i 0).dst, (getTx s i 0).ch, (getTx s i 0).next, [(e, body, max 1 u.stamp)]⟩) i 1).unacked = [] := by
      have names : (1 : Nat) ≠ (getTx s i 0).ch := by rw [(getTx_names s i 0).2]; decide
      rw [getTx_putTx_other (by exact names), getTx, sendFlit_gtx sent]
      exact none
    rw [resend, execEndToEndResend, resendDue_one one due sent, resendDue_none other]
  · intro r at_
    exact ⟨fun up => ⟨bounce_reachable at_ up, keepReachable_since at_ up⟩, bounce_early at_, bounce_due at_⟩
  · intro master due power
    exact if_pos ⟨master, due, power⟩
  · intro slave link trained v
    have takes : ¬(16 ≤ l ∨ (!linkTrained s l) = true) := by rw [trained]; simp [link]
    exact (if_neg takes).trans (congrArg _ (takeTime_free (s := v) count slave))

end Sys2Proof.Proofs

/-! SUPPORT. Proofs: what a step of the focus runs (R20, R42, R45, R46). -/

namespace Sys2Proof.Proofs

open Sys2Proof Sys2Proof.Machine Sys2Proof.Laws

/-! ### A step that issues -/

section
variable {s t : State} {i : Instr} (free : s.agenda = []) (even : s.tick % 2 = 0) (may : mayIssue s = true)
include free even may

theorem step_issues : step s = after clock (issueFocus s) := by
  unfold step
  rw [free]
  dsimp only
  rw [decide_eq_true even, may, Bool.true_and, if_pos rfl]

theorem step_runs (fetched : fetchAt s s.cur.pc = .instr i t) (goes : s.cur.loads = [] ∨ passesLoads s.cur i = true) :
    step s = after clock (after (fun u => if hasIssued u i then countIssue (issuable s (s.who + 1)) u else u) (exec i t)) := by
  have issues : (s.cur.loads.isEmpty || passesLoads s.cur i) = true := by
    rw [Bool.or_eq_true, List.isEmpty_iff]; exact goes
  rw [step_issues free even may, issueFocus, fetched]
  dsimp only
  rw [if_pos issues]

theorem step_holds (fetched : fetchAt s s.cur.pc = .instr i t) (loads : s.cur.loads ≠ []) (behind : passesLoads s.cur i = false) :
    step s = .next (clock { t with cur := { t.cur with wait := .stalled } }) := by
  have held : ¬(s.cur.loads.isEmpty || passesLoads s.cur i) = true := by
    rw [behind, Bool.or_false, List.isEmpty_iff]; exact loads
  rw [step_issues free even may, issueFocus, fetched]
  dsimp only
  rw [if_neg held]
  rfl

variable (none : s.cur.loads = [])
include none

theorem step_illegal (fetched : fetchAt s s.cur.pc = .illegal t) : step s = after clock (exec .illegalInstruction t) := by
  rw [step_issues free even may, issueFocus, fetched]
  dsimp only
  rw [List.isEmpty_iff.2 none]
  rfl

theorem step_faults {x : Trap} (fetched : fetchAt s s.cur.pc = .fault x) : step s = after clock (exec .fetchFault s) := by
  rw [step_issues free even may, issueFocus, fetched]
  dsimp only
  rw [List.isEmpty_iff.2 none]
  rfl

theorem step_waits {w : Wait} (fetched : fetchAt s s.cur.pc = .wait w) : step s = .next (clock { s with cur := { s.cur with wait := w } }) := by
  rw [step_issues free even may, issueFocus, fetched]
  dsimp only
  rw [List.isEmpty_iff.2 none]
  rfl

end

/-! ### The fetch -/

theorem keptRun_off {s : State} (off : s.sched.keepFetched = false) (pc : Word) : keptRun s pc = none := by
  rw [keptRun, off, if_neg Bool.false_ne_true]

theorem keepRun_off {s : State} (off : s.sched.keepFetched = false) (pc : Word) (ps : Option (List Nat)) : keepRun s pc ps = s := by
  rw [keepRun, off, if_neg Bool.false_ne_true]

theorem keepPrefix_off {s : State} (off : s.sched.keepFetched = false) (pc : Word) (p : Nat) : keepPrefix s pc p = s := by
  rw [keepPrefix, off, if_neg Bool.false_ne_true]

theorem fetchInstr_span {s : State} (inside : 0 < s.cur.span) (pc : Word) :
    fetchInstr s pc = decodeRun s (s.cur.spanCode.drop (s.cur.spanCode.length - s.cur.span)) := if_pos inside

section
variable {s v w : State} {pc : Word} {p q : Nat} {i : Instr} (outside : s.cur.span = 0)
include outside

theorem fetchInstr_kept {l : List Nat} (kept : keptRun s pc = some (l, v)) : fetchInstr s pc = decodeRun v l := by
  rw [fetchInstr, outside, if_neg (by decide), kept]

variable (off : s.sched.keepFetched = false)
include off

theorem fetchInstr_short (read : readRun s pc 1 = ([p], none, v)) (off' : v.sched.keepFetched = false) (short : isLong p = false)
    (decodes : decode16 p = .ok i) : fetchInstr s pc = .instr i v := by
  have decoded : decodeRun v [p] = .instr i v := by
    rw [decodeRun, short, if_neg Bool.false_ne_true, decodes]
  rw [fetchInstr, outside, if_neg (by decide), keptRun_off off, read]
  dsimp only
  rw [short, if_neg Bool.false_ne_true, keepPrefix_off off', keepRun_off off', decoded, ite_self]

theorem fetchInstr_long (read : readRun s pc 1 = ([p], none, v)) (long : isLong p = true) (read' : readRun v (pc + 2) 1 = ([q], none, w))
    (off' : w.sched.keepFetched = false) (decodes : decode32 (p + 65536 * q) = .ok i) : fetchInstr s pc = .instr i w := by
  rw [fetchInstr, outside, if_neg (by decide), keptRun_off off, read]
  dsimp only
  rw [long, if_pos rfl, read']
  dsimp only
  rw [keepRun_off off', decodeRun, long, if_pos rfl, decodes]

end

/-- A kept run may still be fetched, parcel by parcel. -/
theorem keptRun_places {s t : State} {pc : Word} {l : List Nat} (kept : keptRun s pc = some (l, t)) :
    ∃ places, runPlaces s pc l.length = some (places, t) := by
  unfold keptRun at kept
  split at kept
  · obtain ⟨x, -, run⟩ := Option.bind_eq_some_iff.1 kept
    obtain ⟨r, places, same⟩ := Option.bind_eq_some_iff.1 run
    split at same
    · cases same
      exact ⟨r.1, by rw [List.length_map, places]⟩
    · cases same
  · cases kept

/-! ### The ends of loop levels -/

theorem fetchAt_noLoop {s : State} (none : NoLoop s.cur) (pc : Word) : fetchAt s pc = fetchInstr s pc := by
  have no (i : Instr) : [1, 0].filter (needsEnd s.cur pc i) = [] := by
    rw [List.filter_eq_nil_iff]
    intro k at_
    have off : lpActive s.cur k = false := by
      rcases List.mem_cons.1 at_ with rfl | at_
      · exact none.2
      · rw [List.mem_singleton.1 at_]; exact none.1
    rw [needsEnd, off, Bool.false_and]
    exact Bool.false_ne_true
  unfold fetchAt
  split
  next i t fetched =>
    rw [no i]
    exact fetched.symm
  next => rfl

section
variable {s t : State} {pc : Word} {i : Instr} (fetched : fetchInstr s pc = .instr i t)
include fetched

theorem fetchAt_eq : fetchAt s pc =
    ((([1, 0].filter (needsEnd s.cur pc i)).findSome? (endStop t)).elim (.instr i (([1, 0].filter (needsEnd s.cur pc i)).foldl noteEnd t))
      FetchStop.fetched) := by
  rw [fetchAt, fetched]

theorem fetchAt_reads (reads : ∀ k < 2, needsEnd s.cur pc i k = true → endStop t k = none) :
    fetchAt s pc = .instr i (([1, 0].filter (needsEnd s.cur pc i)).foldl noteEnd t) := by
  have nothing : ([1, 0].filter (needsEnd s.cur pc i)).findSome? (endStop t) = none := by
    rw [List.findSome?_eq_none_iff]
    intro k at_
    obtain ⟨level, needs⟩ := List.mem_filter.1 at_
    refine reads k ?_ needs
    simp only [List.mem_cons, List.not_mem_nil, or_false] at level
    omega
  rw [fetchAt_eq fetched, nothing]
  rfl

theorem fetchAt_stopsInner {w : FetchStop} (needs : needsEnd s.cur pc i 1 = true) (stops : endStop t 1 = some w) : fetchAt s pc = w.fetched := by
  rw [fetchAt_eq fetched, List.filter_cons_of_pos needs, List.findSome?_cons, stops]
  rfl

theorem fetchAt_stopsOuter {w : FetchStop} (skips : needsEnd s.cur pc i 1 = false) (needs : needsEnd s.cur pc i 0 = true)
    (stops : endStop t 0 = some w) : fetchAt s pc = w.fetched := by
  rw [fetchAt_eq fetched, List.filter_cons_of_neg (Bool.eq_false_iff.1 skips), List.filter_cons_of_pos needs, List.findSome?_cons, stops]
  rfl

end

/-! ### A parcel in a slice -/

theorem isSlice_sliceOfVA (va : VAddr) : isSlice (sliceOfVA va) = true := decide_eq_true (Nat.le_add_right ..)

theorem forwarded_slice {s : State} {loc : Nat} (slice : isSlice loc = true) : forwarded s loc = loc := by
  rw [forwarded, motionAt, slice, if_pos rfl]

theorem countHot_slice {s : State} {loc : Nat} (slice : isSlice loc = true) (core leaf : Nat) : countHot s loc core leaf = s := by
  unfold countHot
  dsimp only
  rw [forwarded_slice slice, slice, if_pos rfl]

theorem homeOf_slice {s : State} {loc : Nat} (slice : isSlice loc = true) : homeOf s loc ≠ some 25 := by
  rw [homeOf, slice, if_pos rfl]
  split
  · intro h
    have := Option.some.inj h
    omega
  · exact nofun

theorem fetchParcel_slice {s : State} {first : Bool} {va : VAddr} {bytes : List Byte} (seen : s.cur.codeAt = []) (slice : isSliceVA va = true)
    (owns : sliceAllows s s.who (sliceTile (sliceOfVA va)) = true) (near : farWaits s (sliceOfVA va) = false)
    (read : serveRead s (sliceOfVA va) 2 = (0, bytes)) : fetchParcel s first va = .ok (fromBytes bytes, s) := by
  have landed : land s s.who va 3 = .ok ⟨sliceOfVA va, 0, s, .none⟩ := land_slice slice owns rfl
  have there := isSlice_sliceOfVA va
  have parcel : parcelSeen s.cur va (fromBytes bytes) = some (fromBytes bytes) := by rw [parcelSeen, seen]; rfl
  have free : bankBusy s (sliceOfVA va) 4096 = false := by rw [bankBusy, there]; rfl
  unfold fetchParcel
  rw [landed]
  dsimp only
  rw [countHot_slice there]
  rw [ite_self, free, near, if_neg (by decide), if_neg (homeOf_slice there), read]
  simp only [parcel]

theorem readRun_slice {s : State} {pc : Word} {b0 b1 : Byte} (seen : s.cur.codeAt = []) (slice : isSliceVA (codeVa s pc) = true)
    (owns : sliceAllows s s.who (sliceTile (sliceOfVA (codeVa s pc))) = true) (near : farWaits s (sliceOfVA (codeVa s pc)) = false)
    (read : serveRead s (sliceOfVA (codeVa s pc)) 2 = (0, [b0, b1])) : readRun s pc 1 = ([b0.toNat + 256 * b1.toNat], none, s) := by
  have word : fromBytes [b0, b1] = b0.toNat + 256 * b1.toNat := by simp [fromBytes]
  unfold readRun readOn
  dsimp only
  rw [fetchParcel_slice seen slice owns near read, word]
  rfl

/-- Settles O56: each branch of a step and of the fetch, as its condition says. -/
theorem stepRunsDecoded : Obligations.StepRunsDecoded := by
  unfold Obligations.StepRunsDecoded
  intro s pc low
  refine ⟨?_, ?_, ?_, ?_, ?_, ?_, ?_, ?_, ?_⟩
  · intro free even may
    exact ⟨fun i t fetched goes => step_runs free even may fetched goes, fun i t fetched loads behind => step_holds free even may fetched loads behind,
      fun none => ⟨fun t fetched => step_illegal free even may none fetched, fun t fetched => step_faults free even may none fetched,
        fun w fetched => step_waits free even may none fetched⟩⟩
  · intro outside off
    exact ⟨fun p v i read off' short decodes => fetchInstr_short outside off read off' short decodes,
      fun p q v w i read long read' off' decodes => fetchInstr_long outside off read long read' off' decodes⟩
  · intro l t kept
    exact ⟨fun outside => fetchInstr_kept outside kept, keptRun_places kept⟩
  · intro inside
    exact fetchInstr_span inside pc
  · intro none
    exact fetchAt_noLoop none pc
  · intro i t fetched
    exact ⟨fetchAt_reads fetched, fun w needs stops => fetchAt_stopsInner fetched needs stops,
      fun w skips needs stops => fetchAt_stopsOuter fetched skips needs stops⟩
  · intro va b0 b1 seen slice owns near read
    exact readRun_slice seen slice owns near read
  · intro hh
    have here : codeVa s pc = widen (vaHigh s.cur) pc := by rw [codeVa, ctx_of_handler hh]
    rw [← here]
    exact congrArg _ (raise_handler hh (illegalTrap s) (refreshTlb_other s (Nat.le_succ 6) rfl) ⟨nofun, nofun, nofun⟩)
  · intro t hh fetched
    refine faults_of_raise hh ?_
    have faults : exec .fetchFault s = execFetchFault s := rfl
    rw [faults, execFetchFault, show fetchAt s s.cur.pc = .fault t from fetched]

end Sys2Proof.Proofs

/-! SUPPORT. Proofs: elements of a vector register, and the element functions of integer types. -/
namespace Sys2Proof.Proofs
open Sys2Proof Sys2Proof.Machine Sys2Proof.Laws

/-! ### Elements of a register -/

theorem ofElems_div_mod (z : Nat) (l : List Nat) (j : Nat) :
    ofElems z l / 2 ^ (8 * z * j) % 2 ^ (8 * z) = l.getD j 0 % 2 ^ (8 * z) := by
  induction l generalizing j with
  | nil => simp [ofElems]
  | cons v l ih =>
    cases j with
    | zero => simp [ofElems]
    | succ j =>
      have pos : 0 < 2 ^ (8 * z) := by positivity
      rw [Nat.mul_succ, Nat.add_comm (8 * z * j), pow_add, ← Nat.div_div_eq_div_mul, ofElems, Nat.add_mul_div_left _ _ pos,
        Nat.div_eq_of_lt (Nat.mod_lt _ pos), Nat.zero_add, ih, List.getD_cons_succ]

theorem lane_end_le {z j : Nat} (lane : j < 32 / z) : 8 * z * j + 8 * z ≤ 256 := by
  have := Nat.mul_le_of_le_div z (j + 1) 32 lane
  linarith

theorem elemOf_vregOf {z j : Nat} (lane : j < 32 / z) (l : List Nat) : elemOf (vregOf z l) z j = l.getD j 0 % 2 ^ (8 * z) := by
  have fits := lane_end_le lane
  rw [elemOf, vregOf, BitVec.toNat_ofNat, ← Nat.add_sub_cancel' (show 8 * z * j ≤ 256 by omega), pow_add,
    Nat.mod_mul_right_div_self, Nat.mod_mod_of_dvd _ (pow_dvd_pow 2 (by omega)), ofElems_div_mod]

theorem elemOf_lt (v : VReg) (z j : Nat) : elemOf v z j < 2 ^ (8 * z) := Nat.mod_lt _ (by positivity)

/-- A register made lane by lane holds in each lane what was made for it, cut to its width. -/
theorem elemOf_vregOf_map {z j : Nat} (lane : j < 32 / z) (f : Nat → Nat) :
    elemOf (vregOf z ((List.range (32 / z)).map f)) z j = f j % 2 ^ (8 * z) := by
  rw [elemOf_vregOf lane, List.getD_eq_getElem?_getD, List.getElem?_map, List.getElem?_range lane]
  rfl

theorem elemOf_zipElems {z j : Nat} (lane : j < 32 / z) (f : Nat → Nat → Nat) (x y : VReg) :
    elemOf (zipElems z f x y) z j = f (elemOf x z j) (elemOf y z j) % 2 ^ (8 * z) := by
  rw [zipElems, elems, elems, List.zip_map', List.map_map, elemOf_vregOf_map lane]
  rfl

theorem elemOf_mapElems {z j : Nat} (lane : j < 32 / z) (f : Nat → Nat) (x : VReg) :
    elemOf (mapElems z f x) z j = f (elemOf x z j) % 2 ^ (8 * z) := by
  rw [mapElems, elems, List.map_map, elemOf_vregOf_map lane]
  rfl

theorem elems_eq_cons {z : Nat} (pos : 0 < 32 / z) (x : VReg) :
    elems z x = elemOf x z 0 :: (List.range (32 / z - 1)).map fun k => elemOf x z (k + 1) := by
  obtain ⟨n, n_eq⟩ := Nat.exists_eq_succ_of_ne_zero pos.ne'
  rw [elems, n_eq, List.range_succ_eq_map, List.map_cons, List.map_map, Nat.succ_sub_one]
  rfl

/-! ### The integer types -/

/-- An integer type of the vector unit: its width, its sign, and the range of its values. -/
structure IntTy (t : Nat) : Prop where
  int : isInt t = true
  bits : intBits t = 8 * tySize t
  sign : isSigned t = decide (t = 2 ∨ t = 16 ∨ t = 17 ∨ t = 18)
  pos : 0 < tySize t
  lanes : 0 < 32 / tySize t

theorem intTy_shape {t : Nat} (h : intTy t = true) : IntTy t := by
  have cases_t : t = 2 ∨ t = 3 ∨ t = 16 ∨ t = 17 ∨ t = 18 ∨ t = 19 ∨ t = 20 ∨ t = 21 := by
    simp only [intTy, classOf] at h
    split at h
    · omega
    · repeat' split at h
      all_goals cases h
  rcases cases_t with rfl | rfl | rfl | rfl | rfl | rfl | rfl | rfl <;> exact ⟨rfl, rfl, rfl, by decide, by decide⟩

/-- The integer that a code of the type t stands for. -/
def intVal (t n : Nat) : Int :=
  if t = 2 ∨ t = 16 ∨ t = 17 ∨ t = 18 then (BitVec.ofNat (8 * tySize t) n).toInt else (n : Int)

/-- An integer clamped to the range of the type t. -/
def heldIn (t : Nat) (n : Int) : Int :=
  if t = 2 ∨ t = 16 ∨ t = 17 ∨ t = 18 then max (-(2 : Int) ^ (8 * tySize t - 1)) (min (2 ^ (8 * tySize t - 1) - 1) n)
  else max 0 (min (2 ^ (8 * tySize t) - 1) n)

theorem signed_eq_toInt (w x : Nat) : Machine.signed w x = (BitVec.ofNat w x).toInt := by
  rw [BitVec.toInt, BitVec.toNat_ofNat, Machine.signed]

/-- The integer of a code is the code, modulo the width of its type. -/
theorem intVal_modEq (t n : Nat) : intVal t n ≡ n [ZMOD 2 ^ (8 * tySize t)] := by
  rw [intVal]
  split
  · have pow : (2 : Int) ^ (8 * tySize t) = ((2 ^ (8 * tySize t) : Nat) : Int) := by push_cast; rfl
    rw [BitVec.toInt_eq_toNat_bmod, BitVec.toNat_ofNat, Int.ModEq, pow, Int.bmod_emod, Int.natCast_emod, Int.emod_emod]
  · rfl

theorem intVal_range {t n : Nat} (lt : n < 2 ^ (8 * tySize t)) : -2 ^ (8 * tySize t) ≤ intVal t n ∧ intVal t n < 2 ^ (8 * tySize t) := by
  have lt' : (n : Int) < 2 ^ (8 * tySize t) := by exact_mod_cast lt
  rw [intVal]
  split
  · rw [← signed_eq_toInt, Machine.signed, Nat.mod_eq_of_lt lt]
    push_cast
    split <;> omega
  · omega

section
variable {t : Nat} (ty : IntTy t)
include ty

theorem intOf_eq {n : Nat} (lt : n < 2 ^ (8 * tySize t)) : intOf t n = intVal t n := by
  rw [intOf, intVal, ty.sign, ty.bits, signed_eq_toInt, Nat.mod_eq_of_lt lt]
  simp only [decide_eq_true_eq]

theorem clampInt_eq (n : Int) : clampInt t n = heldIn t n := by
  simp only [clampInt, intLo, intHi, heldIn, ty.sign, ty.bits, decide_eq_true_eq]
  split <;> rfl

theorem wrapTo_cast (v : Int) : (wrapTo t v : Int) = v % 2 ^ (8 * tySize t) := by
  rw [wrapTo, ty.bits]
  exact Int.toNat_of_nonneg (Int.emod_nonneg _ (by positivity))

theorem wrapTo_lt (v : Int) : wrapTo t v < 2 ^ (8 * tySize t) := by
  have lt := Int.emod_lt_of_pos v (show (0 : Int) < 2 ^ (8 * tySize t) by positivity)
  rw [← wrapTo_cast ty] at lt
  exact_mod_cast lt

theorem wrapTo_mod (v : Int) : wrapTo t v % 2 ^ (8 * tySize t) = wrapTo t v := Nat.mod_eq_of_lt (wrapTo_lt ty v)

theorem wrapTo_modEq {v : Int} {n : Nat} (h : v ≡ n [ZMOD 2 ^ (8 * tySize t)]) : wrapTo t v = n % 2 ^ (8 * tySize t) := by
  have cast : (wrapTo t v : Int) = n % 2 ^ (8 * tySize t) := (wrapTo_cast ty v).trans h
  exact_mod_cast cast

omit ty in
/-- Two codes that stand for one integer are one code. -/
theorem intVal_inj {m n : Nat} (hm : m < 2 ^ (8 * tySize t)) (hn : n < 2 ^ (8 * tySize t)) (h : intVal t m = intVal t n) : m = n := by
  have eq : (m : Int) ≡ n [ZMOD 2 ^ (8 * tySize t)] := (intVal_modEq t m).symm.trans (h ▸ intVal_modEq t n)
  have cast : m % 2 ^ (8 * tySize t) = n % 2 ^ (8 * tySize t) := by exact_mod_cast (show (m : Int) % _ = n % _ from eq)
  rwa [Nat.mod_eq_of_lt hm, Nat.mod_eq_of_lt hn] at cast

/-! ### Element results of integer types -/

/-- What an integer operation gives, when its integers are known modulo the width. -/
theorem arith_modEq {fi : Int → Int → Int} {ff : Machine.Num → Machine.Num → Machine.Num} {a b n : Nat}
    (ha : a < 2 ^ (8 * tySize t)) (hb : b < 2 ^ (8 * tySize t)) (h : fi (intVal t a) (intVal t b) ≡ n [ZMOD 2 ^ (8 * tySize t)]) :
    arith fi ff t a b = n % 2 ^ (8 * tySize t) := by
  rw [arith, if_pos ty.int, intOf_eq ty ha, intOf_eq ty hb, wrapTo_modEq ty h]

theorem arith_add {a b : Nat} (ha : a < 2 ^ (8 * tySize t)) (hb : b < 2 ^ (8 * tySize t)) :
    arith (· + ·) Machine.Num.add t a b = (a + b) % 2 ^ (8 * tySize t) :=
  arith_modEq ty ha hb (by push_cast; exact (intVal_modEq t a).add (intVal_modEq t b))

theorem arith_mul {a b : Nat} (ha : a < 2 ^ (8 * tySize t)) (hb : b < 2 ^ (8 * tySize t)) :
    arith (· * ·) Machine.Num.mul t a b = a * b % 2 ^ (8 * tySize t) :=
  arith_modEq ty ha hb (by push_cast; exact (intVal_modEq t a).mul (intVal_modEq t b))

theorem arith_sub {a b : Nat} (ha : a < 2 ^ (8 * tySize t)) (hb : b < 2 ^ (8 * tySize t)) :
    arith (· - ·) Machine.Num.sub t a b = (a + 2 ^ (8 * tySize t) - b) % 2 ^ (8 * tySize t) := by
  refine arith_modEq ty ha hb (((intVal_modEq t a).sub (intVal_modEq t b)).trans ?_)
  push_cast [show b ≤ a + 2 ^ (8 * tySize t) by omega]
  exact Int.modEq_iff_dvd.2 ⟨1, by ring⟩

theorem numOf_int {a : Nat} (ha : a < 2 ^ (8 * tySize t)) : numOf t a = numOfInt (intVal t a) := by
  rw [numOf, if_pos ty.int, intOf_eq ty ha]

omit ty in
theorem cmp_numOfInt (a b : Int) : (numOfInt a).cmp (numOfInt b) = (a - b).sign := by
  have atExp_self (v : Int) : atExp (decide (v < 0)) v.natAbs 0 (min 0 0) = v := by
    simp only [atExp, min_self, sub_self, Int.toNat_zero, pow_zero, mul_one, decide_eq_true_eq]
    split <;> omega
  simp only [numOfInt, Machine.Num.cmp, atExp_self]

/-- The lesser and the greater of two codes. -/
theorem minMax_int {a b : Nat} (ha : a < 2 ^ (8 * tySize t)) (hb : b < 2 ^ (8 * tySize t)) (isMax : Bool) :
    minMax isMax t a b = if intVal t a ≤ intVal t b then (if isMax then b else a) else (if isMax then a else b) := by
  simp only [minMax, numOf_int ty ha, numOf_int ty hb, cmp_numOfInt]
  simp only [numOfInt, Machine.Num.isNan, Machine.Num.isNeg, Bool.or_self, Bool.false_eq_true, if_false, Int.sign_neg_iff, Int.sign_eq_zero_iff_zero]
  rcases lt_trichotomy (intVal t a) (intVal t b) with lt | eq | gt
  · simp [lt, lt.le]
  · have := intVal_inj ha hb eq
    subst this
    simp
  · simp [gt.not_ge, show intVal t a - intVal t b ≠ 0 by omega, show ¬ intVal t a - intVal t b < 0 by omega]

theorem vabs_int {b : Nat} (hb : b < 2 ^ (8 * tySize t)) : (vabsElem t b : Int) = |intVal t b| % 2 ^ (8 * tySize t) := by
  rw [vabsElem, if_pos ty.int, intOf_eq ty hb, wrapTo_cast ty]

theorem vneg_int {b : Nat} (hb : b < 2 ^ (8 * tySize t)) : (vnegElem t b : Int) = -intVal t b % 2 ^ (8 * tySize t) := by
  rw [vnegElem, if_pos ty.int, intOf_eq ty hb, wrapTo_cast ty]

theorem shl_int (a n : Nat) : shlElem t a n = a * 2 ^ n % 2 ^ (8 * tySize t) := by
  rw [shlElem, ty.bits]
  split
  · rw [Nat.mod_eq_zero_of_dvd (Dvd.dvd.mul_left (pow_dvd_pow 2 ‹_›) a)]
  · rfl

/-- Beyond the width of the type a shift to the right leaves the sign alone. -/
theorem shr_int {a : Nat} (ha : a < 2 ^ (8 * tySize t)) (n : Nat) :
    (shrElem t a n : Int) = intVal t a / 2 ^ n % 2 ^ (8 * tySize t) := by
  rw [shrElem, wrapTo_cast ty, intOf_eq ty ha, ty.bits]
  rcases le_total n (8 * tySize t) with le | ge
  · rw [min_eq_left le]
  · obtain ⟨low, high⟩ := intVal_range ha
    have pow_le : (2 : Int) ^ (8 * tySize t) ≤ 2 ^ n := pow_le_pow_right₀ (by norm_num) ge
    have beyond {m : Nat} (le : (2 : Int) ^ (8 * tySize t) ≤ 2 ^ m) : intVal t a / 2 ^ m = if intVal t a < 0 then -1 else 0 := by
      split
      · exact Int.ediv_eq_neg_one_of_neg_of_le ‹_› (by omega)
      · exact Int.ediv_eq_zero_of_lt (by omega) (by omega)
    rw [min_eq_right ge, beyond le_rfl, beyond pow_le]

theorem fma_add {d a b : Nat} (hd : d < 2 ^ (8 * tySize t)) (ha : a < 2 ^ (8 * tySize t)) (hb : b < 2 ^ (8 * tySize t)) :
    fmaElem false t d a b = (d + a * b) % 2 ^ (8 * tySize t) := by
  rw [fmaElem, if_pos ty.int, intOf_eq ty hd, intOf_eq ty ha, intOf_eq ty hb]
  exact wrapTo_modEq ty (by push_cast; exact (intVal_modEq t d).add ((intVal_modEq t a).mul (intVal_modEq t b)))

theorem fma_sub {d a b : Nat} (hd : d < 2 ^ (8 * tySize t)) (ha : a < 2 ^ (8 * tySize t)) (hb : b < 2 ^ (8 * tySize t)) :
    (fmaElem true t d a b : Int) = (d - a * b : Int) % 2 ^ (8 * tySize t) := by
  rw [fmaElem, if_pos ty.int, intOf_eq ty hd, intOf_eq ty ha, intOf_eq ty hb]
  refine (wrapTo_cast ty _).trans ?_
  exact (intVal_modEq t d).sub ((intVal_modEq t a).mul (intVal_modEq t b))

theorem twoTerm_int (real : cplxTy t = false) {m a n b : Nat} (hm : m < 2 ^ (8 * tySize t)) (ha : a < 2 ^ (8 * tySize t))
    (hn : n < 2 ^ (8 * tySize t)) (hb : b < 2 ^ (8 * tySize t)) : twoTerm t m a n b = (m * a + n * b) % 2 ^ (8 * tySize t) := by
  rw [twoTerm, real, if_neg (by decide), if_pos ty.int, intOf_eq ty hm, intOf_eq ty ha, intOf_eq ty hn, intOf_eq ty hb]
  exact wrapTo_modEq ty (by
    push_cast
    exact ((intVal_modEq t m).mul (intVal_modEq t a)).add ((intVal_modEq t n).mul (intVal_modEq t b)))

omit ty in
theorem isNan_numOfInt (a : Int) : (numOfInt a).isNan = false := rfl

/-- The six orders of two integers, and the seventh condition, which holds of NaNs alone. -/
theorem condCC_int {a b : Nat} (ha : a < 2 ^ (8 * tySize t)) (hb : b < 2 ^ (8 * tySize t)) {p : Nat × Bool}
    (h : p ∈ [(0, decide (intVal t a = intVal t b)), (1, decide (intVal t a ≠ intVal t b)), (2, decide (intVal t a < intVal t b)),
      (3, decide (intVal t b ≤ intVal t a)), (4, decide (intVal t a ≤ intVal t b)), (5, decide (intVal t b < intVal t a)), (6, false)]) :
    condCC p.1 t a b = p.2 := by
  have eq_iff : (intVal t a - intVal t b).sign = 0 ↔ intVal t a = intVal t b := by rw [Int.sign_eq_zero_iff_zero, sub_eq_zero]
  have lt_iff : (intVal t a - intVal t b).sign < 0 ↔ intVal t a < intVal t b := by rw [Int.sign_neg_iff, sub_neg]
  have gt_iff : 0 < (intVal t a - intVal t b).sign ↔ intVal t b < intVal t a := by rw [Int.sign_pos_iff, sub_pos]
  have ge_iff : 0 ≤ (intVal t a - intVal t b).sign ↔ intVal t b ≤ intVal t a := by rw [← not_lt, lt_iff, not_lt]
  have le_iff : (intVal t a - intVal t b).sign ≤ 0 ↔ intVal t a ≤ intVal t b := by rw [← not_lt, gt_iff, not_lt]
  simp only [condCC, numOf_int ty ha, numOf_int ty hb, cmp_numOfInt, isNan_numOfInt, Bool.or_self, Bool.not_false, Bool.true_and,
    Bool.false_or, eq_iff, lt_iff, gt_iff, ge_iff, le_iff, ne_eq]
  simp only [List.mem_cons, List.not_mem_nil, or_false] at h
  rcases h with rfl | rfl | rfl | rfl | rfl | rfl | rfl <;> rfl

end

/-- The conversion of an integer to another integer type clamps it, and draws where that changes it. -/
theorem convertElem_int {t u : Nat} (ty : IntTy t) (ty' : IntTy u) (ne : u ≠ t) {a : Nat} (ha : a < 2 ^ (8 * tySize t)) (rm g : Nat) :
    ((convertElem t u rm a g).1 : Int) = heldIn u (intVal t a) % 2 ^ (8 * tySize u) ∧
      (convertElem t u rm a g).2 = if rm = 4 ∧ heldIn u (intVal t a) ≠ intVal t a then draw g else g := by
  have encode (rm r : Nat) : encodeNum u rm (numOfInt (intVal t a)) r =
      (wrapTo u (heldIn u (intVal t a)), decide (heldIn u (intVal t a) ≠ intVal t a)) := by
    have back : (if intVal t a < 0 then -|intVal t a| else |intVal t a|) = intVal t a := by
      split
      · rw [abs_of_neg ‹_›, neg_neg]
      · exact abs_of_nonneg (not_lt.1 ‹_›)
    simp [encodeNum, ty'.int, numOfInt, encodeI, splitAt, wrapTo, ← clampInt_eq ty', back]
  rw [convertElem, if_neg ne.symm, convertNum, numOf_int ty ha]
  rcases Decidable.em (rm = 4) with four | other
  · subst four
    simp only [if_true, encode, true_and]
    by_cases clamped : heldIn u (intVal t a) = intVal t a <;> simp [clamped, wrapTo_cast ty']
  · simp only [other, if_false, encode, false_and, wrapTo_cast ty', and_self]

/-! ### Permutation and reduction -/

/-- What `vred` folds its elements with, by its mode, and where it leaves the result. -/
theorem redReg_eq (c : Ctx) (x : VReg) {t : Nat} (type : vET c = t) (lanes : 0 < 32 / tySize t) : ∃ f : Nat → Nat → Nat,
    (bits c.vaux 13 12 = 0 → f = arith (· + ·) Machine.Num.add t) ∧ (bits c.vaux 13 12 = 1 → f = minMax false t) ∧
    (bits c.vaux 13 12 = 2 → f = minMax true t) ∧
    elemOf (redReg c x) (tySize t) 0 = ((List.range (32 / tySize t - 1)).map fun k => elemOf x (tySize t) (k + 1)).foldl f
      (elemOf x (tySize t) 0) % 2 ^ (8 * tySize t) ∧
    ∀ j < 32 / tySize t, 0 < j → elemOf (redReg c x) (tySize t) j = 0 := by
  subst type
  refine ⟨match bits c.vaux 13 12 with
    | 0 => arith (· + ·) Machine.Num.add (vET c)
    | 1 => minMax false (vET c)
    | _ => minMax true (vET c), fun h => by simp only [h], fun h => by simp only [h], fun h => by simp only [h], ?_, fun j lane pos => ?_⟩
  · rw [redReg, elems_eq_cons lanes]
    exact elemOf_vregOf lanes _
  · rw [redReg, elems_eq_cons lanes]
    obtain ⟨k, rfl⟩ := Nat.exists_eq_succ_of_ne_zero pos.ne'
    refine (elemOf_vregOf lane _).trans ?_
    rw [List.getD_cons_succ, List.getD_eq_getElem?_getD, List.getElem?_map]
    cases ((List.range (32 / tySize (vET c) - 1)).map fun k => elemOf x (tySize (vET c)) (k + 1))[k]? <;> simp

/-- The order that a minimum, or a maximum, chooses by. -/
def ranks (isMax : Bool) (a b : Int) : Prop := if isMax then b ≤ a else a ≤ b

theorem ranks_trans {isMax : Bool} {a b c : Int} (h : ranks isMax a b) (h' : ranks isMax b c) : ranks isMax a c := by
  cases isMax
  · exact le_trans (b := b) h h'
  · exact le_trans (b := b) h' h

section
variable {t : Nat} (ty : IntTy t)
include ty

theorem foldl_arith_add {l : List Nat} (hl : ∀ v ∈ l, v < 2 ^ (8 * tySize t)) {a : Nat} (ha : a < 2 ^ (8 * tySize t)) :
    l.foldl (arith (· + ·) Machine.Num.add t) a = (a + l.sum) % 2 ^ (8 * tySize t) := by
  induction l generalizing a with
  | nil => exact (Nat.mod_eq_of_lt ha).symm
  | cons v l ih =>
    obtain ⟨hv, hl⟩ := List.forall_mem_cons.1 hl
    rw [List.foldl_cons, arith_add ty ha hv, ih hl (Nat.mod_lt _ (by positivity)), Nat.mod_add_mod, List.sum_cons, Nat.add_assoc]

theorem minMax_ranks {a b : Nat} (ha : a < 2 ^ (8 * tySize t)) (hb : b < 2 ^ (8 * tySize t)) (isMax : Bool) :
    (minMax isMax t a b = a ∨ minMax isMax t a b = b) ∧ ranks isMax (intVal t (minMax isMax t a b)) (intVal t a) ∧
      ranks isMax (intVal t (minMax isMax t a b)) (intVal t b) := by
  rw [minMax_int ty ha hb]
  cases isMax <;> simp only [ranks, if_true, if_false, Bool.false_eq_true] <;> split <;> simp <;> omega

/-- The fold of a minimum or maximum is one of the elements, and none ranks before it. -/
theorem foldl_minMax {l : List Nat} (hl : ∀ v ∈ l, v < 2 ^ (8 * tySize t)) (isMax : Bool) {a : Nat} (ha : a < 2 ^ (8 * tySize t)) :
    l.foldl (minMax isMax t) a ∈ a :: l ∧ ∀ v ∈ a :: l, ranks isMax (intVal t (l.foldl (minMax isMax t) a)) (intVal t v) := by
  induction l generalizing a with
  | nil => cases isMax <;> simp [ranks]
  | cons v l ih =>
    obtain ⟨hv, hl⟩ := List.forall_mem_cons.1 hl
    obtain ⟨one, first, second⟩ := minMax_ranks ty ha hv isMax
    have next : minMax isMax t a v < 2 ^ (8 * tySize t) := by rcases one with e | e <;> rw [e] <;> assumption
    obtain ⟨mem, best⟩ := ih hl next
    rw [List.foldl_cons]
    rw [List.forall_mem_cons] at best
    refine ⟨?_, List.forall_mem_cons.2 ⟨ranks_trans best.1 first, List.forall_mem_cons.2 ⟨ranks_trans best.1 second, best.2⟩⟩⟩
    rcases List.mem_cons.1 mem with e | e
    · rw [e]; rcases one with e | e <;> simp [e]
    · simp [e]

/-- The reduction by minimum or maximum leaves one of the elements, and none ranks before it. -/
theorem fold_elems_minMax (y : VReg) (isMax : Bool) : ∃ k < 32 / tySize t,
    ((List.range (32 / tySize t - 1)).map fun k => elemOf y (tySize t) (k + 1)).foldl (minMax isMax t) (elemOf y (tySize t) 0) =
      elemOf y (tySize t) k ∧ ∀ l < 32 / tySize t, ranks isMax (intVal t (elemOf y (tySize t) k)) (intVal t (elemOf y (tySize t) l)) := by
  have all := elems_eq_cons ty.lanes y
  obtain ⟨mem, best⟩ := foldl_minMax ty (l := (List.range (32 / tySize t - 1)).map fun k => elemOf y (tySize t) (k + 1))
    (by simp only [List.mem_map]; rintro _ ⟨k, -, rfl⟩; exact elemOf_lt ..) isMax (elemOf_lt y (tySize t) 0)
  rw [← all] at mem best
  obtain ⟨k, lt, eq⟩ := List.mem_map.1 mem
  refine ⟨k, List.mem_range.1 lt, eq.symm, fun l lt => eq ▸ best _ (List.mem_map.2 ⟨l, List.mem_range.2 lt, rfl⟩)⟩

end

theorem permReg_elem (c : Ctx) (y : VReg) {j m : Nat} (lane : j < 32 / tySize (vET c)) (h : 2 ^ m = 32 / tySize (vET c)) :
    elemOf (permReg c y) (tySize (vET c)) j = elemOf y (tySize (vET c))
      ((List.range m).map fun k => j / 2 ^ k % 2 * 2 ^ (c.vaux.toNat / 2 ^ (24 + 3 * k) % 8)).sum := by
  have pmap_eq (k : Nat) : pmap c k = c.vaux.toNat / 2 ^ (24 + 3 * k) % 8 := by
    rw [pmap, bits, show 26 + 3 * k + 1 - (24 + 3 * k) = 3 by omega, show 2 ^ 3 = 8 from rfl]
  rw [permReg, elemOf_vregOf_map lane, Nat.mod_eq_of_lt (elemOf_lt ..), logElems, ← h, Nat.log2_two_pow, List.sum_eq_foldl, List.foldl_map]
  simp only [pmap_eq]

theorem pow_lane (t : Nat) : 256 ^ tySize t = 2 ^ (8 * tySize t) := by rw [pow_mul]; norm_num

theorem elemOf_mergeLanes (p : BitVec 32) (x y : VReg) {k : Nat} (lt : k < 32) :
    elemOf (mergeLanes p x y) 1 k = if p.getLsbD k then elemOf x 1 k else elemOf y 1 k := by
  rw [mergeLanes, elemOf_vregOf_map (z := 1) lt]
  split <;> exact Nat.mod_eq_of_lt (elemOf_lt ..)

/-- Settles O16: each lane of the result is the element function of the lanes, and of an integer type that is the integer operation
modulo the width. -/
theorem integerLanes : Obligations.IntegerLanes := by
  unfold Obligations.IntegerLanes
  intro t x y w j int lane z e signed int_ held clamp fused
  have ty := intTy_shape int
  have real : cplxTy t = false := by
    simp only [intTy, decide_eq_true_eq] at int
    rw [cplxTy, int]
    rfl
  have lt (v : VReg) (k : Nat) : elemOf v z k < 2 ^ (8 * z) := elemOf_lt v z k
  have pow : 256 ^ z = 2 ^ (8 * z) := pow_lane t
  have int_eq : int_ = intVal t := rfl
  have held_eq : held = heldIn := rfl
  have zip (f : Nat → Nat → Nat) (p q : VReg) : e (zipElems z f p q) = f (e p) (e q) % 2 ^ (8 * z) := elemOf_zipElems lane f p q
  have whole {a : Nat} (n : Int) (h : (a : Int) = n % 2 ^ (8 * z)) : ((a % 2 ^ (8 * z) : Nat) : Int) = n % 2 ^ (8 * z) := by
    push_cast
    rw [h, Int.emod_emod]
  rw [pow, int_eq]
  simp only [zip]
  refine ⟨?add, ?sub, ?mul, ?adds, ?subs, ?min, ?max, ?abs, ?neg, ?shl, ?shr, ?fadd, ?fsub, ?cmp, ?bfly, ?cvt, ?sel, ?bcast, fun c type =>
    ⟨?perm, ?tail, ?sum, ?least, ?greatest⟩⟩
  case add => rw [arith_add ty (lt x j) (lt y j), Nat.mod_mod]
  case sub => rw [arith_sub ty (lt x j) (lt y j), Nat.mod_mod]
  case mul => rw [arith_mul ty (lt x j) (lt y j), Nat.mod_mod]
  case adds => rw [intOf_eq ty (lt x j), intOf_eq ty (lt y j), clampInt_eq ty]; exact whole _ (wrapTo_cast ty _)
  case subs => rw [intOf_eq ty (lt x j), intOf_eq ty (lt y j), clampInt_eq ty]; exact whole _ (wrapTo_cast ty _)
  case min =>
    rw [minMax_int ty (lt x j) (lt y j), Nat.mod_eq_of_lt (by split <;> exact lt _ j)]
    rfl
  case max =>
    rw [minMax_int ty (lt x j) (lt y j), Nat.mod_eq_of_lt (by split <;> exact lt _ j)]
    rfl
  case abs => exact whole _ (vabs_int ty (lt y j))
  case neg => exact whole _ (vneg_int ty (lt y j))
  case shl => rw [shl_int ty, Nat.mod_mod]
  case shr => exact whole _ (shr_int ty (lt x j) _)
  case fadd =>
    refine (elemOf_vregOf_map lane _).trans ?_
    rw [fma_add ty (lt w j) (lt x j) (lt y j), Nat.mod_mod]
  case fsub =>
    refine (congrArg Nat.cast (elemOf_vregOf_map lane _)).trans ?_
    exact whole _ (fma_sub ty (lt w j) (lt x j) (lt y j))
  case cmp => exact fun p h => condCC_int ty (lt x j) (lt y j) h
  case bfly =>
    intro k _
    refine (elemOf_vregOf_map lane _).trans ?_
    split
    · rw [twoTerm_int ty real (lt y 0) (lt x j) (lt y 1) (lt x _), Nat.mod_mod]
    · rw [twoTerm_int ty real (lt y 2) (lt x _) (lt y 3) (lt x j), Nat.mod_mod]
  case cvt =>
    refine fun rm g u => ⟨?_, fun int' ne => convertElem_int ty (intTy_shape int') ne (lt x j) rm g⟩
    rw [convertElem, if_pos rfl, numOf_int ty (lt x j), isNan_numOfInt]
    rfl
  case sel => exact fun p k lt => elemOf_mergeLanes p x y lt
  case bcast => exact fun l => (elemOf_mapElems lane _ y).trans (Nat.mod_eq_of_lt (lt y l))
  case perm =>
    subst type
    exact fun m h => permReg_elem c y lane h
  all_goals obtain ⟨f, add, least, greatest, head, tail⟩ := redReg_eq c y type ty.lanes
  case tail => exact fun pos _ => tail j lane pos
  case sum =>
    rintro rfl mode
    refine head.trans ?_
    rw [add mode, foldl_arith_add ty (by simp only [List.mem_map]; rintro _ ⟨k, -, rfl⟩; exact elemOf_lt ..) (elemOf_lt ..), Nat.mod_mod]
    exact congrArg (fun l : List Nat => l.sum % _) (elems_eq_cons ty.lanes y).symm
  case least =>
    rintro rfl mode
    obtain ⟨k, lt_k, eq, best⟩ := fold_elems_minMax ty y false
    exact ⟨k, lt_k, by rw [← Nat.mod_eq_of_lt (lt y k), ← eq, ← least mode]; exact head, best⟩
  case greatest =>
    rintro rfl mode
    obtain ⟨k, lt_k, eq, best⟩ := fold_elems_minMax ty y true
    exact ⟨k, lt_k, by rw [← Nat.mod_eq_of_lt (lt y k), ← eq, ← greatest mode]; exact head, best⟩

end Sys2Proof.Proofs

/-! SUPPORT. Proofs: exact arithmetic of numbers, and the numbers that the codes of a floating format stand for (R235). -/
namespace Sys2Proof.Proofs
open Sys2Proof Sys2Proof.Machine Sys2Proof.Laws

/-! ### Exact arithmetic -/

theorem isFin_iff {n : Machine.Num} : n.isFin = true ↔ ∃ s m e, n = .fin s m e := by
  cases n <;> simp [Machine.Num.isFin]

theorem isNan_iff {n : Machine.Num} : n.isNan = true ↔ n = .nan := by cases n <;> simp [Machine.Num.isNan]

theorem atExp_val (s : Bool) (m : Nat) {e g : Int} (le : g ≤ e) : (atExp s m e g : ℚ) * 2 ^ g = (Machine.Num.fin s m e).val := by
  have shift : (2 : ℚ) ^ (e - g).toNat * 2 ^ g = 2 ^ e := by
    rw [← zpow_natCast, Int.toNat_of_nonneg (by omega), ← zpow_add₀ two_ne_zero, sub_add_cancel]
  rw [val_fin, ← shift, atExp, signFactor]
  cases s <;> simp only [reduceIte, Bool.false_eq_true] <;> push_cast <;> ring

theorem natAbs_val (v : Int) (g : Int) : (Machine.Num.fin (decide (v < 0)) v.natAbs g).val = v * 2 ^ g := by
  rw [val_fin, signFactor, Nat.cast_natAbs]
  rcases lt_or_ge v 0 with neg | nonneg
  · simp [neg, abs_of_neg neg]
  · simp [nonneg.not_gt, abs_of_nonneg nonneg]

theorem add_fin (s t : Bool) (m n : Nat) (e f : Int) : ((Machine.Num.fin s m e).add (.fin t n f)).isFin = true ∧
    ((Machine.Num.fin s m e).add (.fin t n f)).val = (Machine.Num.fin s m e).val + (Machine.Num.fin t n f).val := by
  rw [← atExp_val s m (min_le_left e f), ← atExp_val t n (min_le_right e f), ← add_mul]
  dsimp only [Machine.Num.add]
  split
  · next zero => exact ⟨rfl, by rw [← Int.cast_add, zero, val_fin]; simp⟩
  · exact ⟨rfl, by rw [natAbs_val, Int.cast_add]⟩

theorem isFin_add {a b : Machine.Num} (ha : a.isFin = true) (hb : b.isFin = true) :
    (a.add b).isFin = true ∧ (a.add b).val = a.val + b.val := by
  obtain ⟨s, m, e, rfl⟩ := isFin_iff.1 ha
  obtain ⟨t, n, f, rfl⟩ := isFin_iff.1 hb
  exact add_fin ..

theorem isFin_neg {a : Machine.Num} (ha : a.isFin = true) : a.neg.isFin = true ∧ a.neg.val = -a.val := by
  obtain ⟨s, m, e, rfl⟩ := isFin_iff.1 ha
  exact ⟨rfl, by rw [Machine.Num.neg, val_fin, val_fin]; cases s <;> simp [signFactor]⟩

theorem isFin_sub {a b : Machine.Num} (ha : a.isFin = true) (hb : b.isFin = true) :
    (a.sub b).isFin = true ∧ (a.sub b).val = a.val - b.val := by
  obtain ⟨hn, hv⟩ := isFin_neg hb
  rw [Machine.Num.sub, sub_eq_add_neg, ← hv]
  exact isFin_add ha hn

theorem isFin_mul {a b : Machine.Num} (ha : a.isFin = true) (hb : b.isFin = true) :
    (a.mul b).isFin = true ∧ (a.mul b).val = a.val * b.val := by
  obtain ⟨s, m, e, rfl⟩ := isFin_iff.1 ha
  obtain ⟨t, n, f, rfl⟩ := isFin_iff.1 hb
  refine ⟨rfl, ?_⟩
  rw [Machine.Num.mul, val_fin, val_fin, val_fin, zpow_add₀ two_ne_zero]
  cases s <;> cases t <;> simp [signFactor] <;> ring

theorem cmp_fin (s t : Bool) (m n : Nat) (e f : Int) :
    ((Machine.Num.fin s m e).cmp (.fin t n f) < 0 ↔ (Machine.Num.fin s m e).val < (Machine.Num.fin t n f).val) ∧
    ((Machine.Num.fin s m e).cmp (.fin t n f) = 0 ↔ (Machine.Num.fin s m e).val = (Machine.Num.fin t n f).val) := by
  have pos : (0 : ℚ) < 2 ^ min e f := by positivity
  rw [← atExp_val s m (min_le_left e f), ← atExp_val t n (min_le_right e f), mul_lt_mul_iff_left₀ pos, mul_left_inj' pos.ne',
    Int.cast_lt, Int.cast_inj]
  dsimp only [Machine.Num.cmp]
  rw [Int.sign_neg_iff, Int.sign_eq_zero_iff_zero, sub_neg, sub_eq_zero]
  exact ⟨Iff.rfl, Iff.rfl⟩

@[simp] theorem nan_add (b : Machine.Num) : Machine.Num.nan.add b = .nan := rfl
@[simp] theorem add_nan (a : Machine.Num) : a.add .nan = .nan := by cases a <;> rfl
@[simp] theorem nan_mul (b : Machine.Num) : Machine.Num.nan.mul b = .nan := rfl
@[simp] theorem mul_nan (a : Machine.Num) : a.mul .nan = .nan := by cases a <;> rfl
@[simp] theorem neg_nan : Machine.Num.nan.neg = .nan := rfl
@[simp] theorem nan_sub (b : Machine.Num) : Machine.Num.nan.sub b = .nan := rfl
@[simp] theorem sub_nan (a : Machine.Num) : a.sub .nan = .nan := add_nan a

/-! ### The number of a code -/

/-- What the fields of a code say of its kind. -/
structure Fields (f : FloatRow) (c : Nat) : Prop where
  nan : f.nan c ↔ 8 ≤ f.t ∧ c / 2 ^ f.M % 2 ^ f.E = 2 ^ f.E - 1 ∧ c % 2 ^ f.M ≠ 0 ∨
    f.t = 7 ∧ c / 2 ^ f.M % 2 ^ f.E = 2 ^ f.E - 1 ∧ c % 2 ^ f.M = 2 ^ f.M - 1
  inf : f.inf c ↔ 8 ≤ f.t ∧ c / 2 ^ f.M % 2 ^ f.E = 2 ^ f.E - 1 ∧ c % 2 ^ f.M = 0
  hasNan : (fmtOf f.t).nan = decide (7 ≤ f.t)
  real : isInt f.t = false

theorem fields {f : FloatRow} (h : f ∈ floatRows) (c : Nat) : Fields f c := by
  simp only [floatRows, List.mem_cons, List.not_mem_nil, or_false] at h
  rcases h with rfl | rfl | rfl | rfl | rfl | rfl | rfl | rfl <;>
  exact ⟨by dsimp only [FloatRow.nan, FloatRow.mag]; norm_num <;> omega, by dsimp only [FloatRow.inf, FloatRow.mag]; norm_num <;> omega, rfl, rfl⟩

/-- The number of a code: NaN, an infinity, or a finite value with the sign and the magnitude of the code. -/
inductive Kind (f : FloatRow) (c : Nat) : Prop
  | nan (code : f.nan c) (num : numOf f.t c = .nan)
  | inf (number : ¬f.nan c) (code : f.inf c) (num : numOf f.t c = .inf (f.neg c))
  | fin (number : ¬f.nan c) (code : ¬f.inf c) (m : Nat) (e : Int) (num : numOf f.t c = .fin (f.neg c) m e) (mag : (m : ℚ) * 2 ^ e = magVal f (f.mag c))

theorem kind {f : FloatRow} (h : f ∈ floatRows) (c : Nat) : Kind f c := by
  have shape := rowShape h
  obtain ⟨nan, inf, hasNan, real⟩ := fields h c
  have quot : f.mag c / 2 ^ f.M = c / 2 ^ f.M % 2 ^ f.E := by
    rw [FloatRow.mag, Nat.add_comm, Nat.pow_add, Nat.mod_mul_right_div_self]
  have rest : f.mag c % 2 ^ f.M = c % 2 ^ f.M := Nat.mod_mod_of_dvd _ (Nat.pow_dvd_pow 2 (Nat.le_add_left ..))
  have num : numOf f.t c = decodeF (fmtOf f.t) c := by rw [numOf, real]; rfl
  simp only [decodeF, shape.e, shape.m, shape.bias, shape.inf, hasNan, Bool.and_eq_true, decide_eq_true_eq, Bool.not_eq_true',
    decide_eq_false_iff_not, and_assoc] at num
  have value : magVal f (f.mag c) = ((if c / 2 ^ f.M % 2 ^ f.E = 0 then 0 else 2 ^ f.M) + c % 2 ^ f.M : ℕ) *
      2 ^ (((max (c / 2 ^ f.M % 2 ^ f.E) 1 : ℕ) : ℤ) - f.bias - f.M) := by rw [magVal, ulp, quot, rest]
  generalize c / 2 ^ f.M % 2 ^ f.E = q at *
  generalize c % 2 ^ f.M = r at *
  by_cases special : 8 ≤ f.t ∧ q = 2 ^ f.E - 1
  · rw [if_pos special] at num
    by_cases zero : r = 0
    · exact .inf (by rw [nan]; omega) (inf.2 ⟨special.1, special.2, zero⟩) (num.trans (if_pos zero))
    · exact .nan (nan.2 (.inl ⟨special.1, special.2, zero⟩)) (num.trans (if_neg zero))
  have finite : ¬f.inf c := fun h => special ⟨(inf.1 h).1, (inf.1 h).2.1⟩
  rw [if_neg special] at num
  by_cases full : ¬8 ≤ f.t ∧ 7 ≤ f.t ∧ q = 2 ^ f.E - 1 ∧ r = 2 ^ f.M - 1
  · exact .nan (nan.2 (.inr ⟨by omega, full.2.2⟩)) (num.trans (if_pos full))
  have number : ¬f.nan c := by rw [nan]; omega
  rw [if_neg full] at num
  by_cases subnormal : q = 0
  · refine .fin number finite r _ (num.trans (if_pos subnormal)) ?_
    rw [value, if_pos subnormal, subnormal, Nat.zero_add]
    rfl
  · refine .fin number finite (2 ^ f.M + r) _ (num.trans (if_neg subnormal)) ?_
    rw [value, if_neg subnormal, max_eq_left (by omega : 1 ≤ q)]

end Sys2Proof.Proofs

/-! SUPPORT. Proofs: the codes of floating results, and the order of floating codes. -/
namespace Sys2Proof.Proofs
open Sys2Proof Sys2Proof.Machine Sys2Proof.Laws

theorem canonical_lt {f : FloatRow} (h : f ∈ floatRows) : f.canonical < 2 ^ (1 + f.E + f.M) := by
  simp only [floatRows, List.mem_cons, List.not_mem_nil, or_false] at h
  rcases h with rfl | rfl | rfl | rfl | rfl | rfl | rfl | rfl <;> decide

theorem top_succ {f : FloatRow} (h : f ∈ floatRows) (big : 8 ≤ f.t) : f.top + 1 = (2 ^ f.E - 1) * 2 ^ f.M := by
  have := (rowShape h).top_pos
  rw [FloatRow.top, if_pos big] at *
  omega

section
variable {f : FloatRow} {c : Nat} (lt : c < 2 ^ (1 + f.E + f.M))
include lt

/-- A code is its sign bit and its magnitude. -/
theorem code_eq : c = signBit f (f.neg c) + f.mag c := by
  have high : c / 2 ^ (f.E + f.M) < 2 := Nat.div_lt_of_lt_mul (by rw [← pow_succ]; convert lt using 2; omega)
  have split := Nat.div_add_mod c (2 ^ (f.E + f.M))
  rw [signBit, FloatRow.neg, FloatRow.mag, Nat.mod_eq_of_lt high]
  interval_cases c / 2 ^ (f.E + f.M) <;> simp <;> omega

theorem code_inj {d : Nat} (lt' : d < 2 ^ (1 + f.E + f.M)) (neg : f.neg c = f.neg d) (mag : f.mag c = f.mag d) : c = d := by
  rw [code_eq lt, code_eq lt', neg, mag]

end

theorem signBit_add_lt {f : FloatRow} {k : Nat} (lt : k < 2 ^ (f.E + f.M)) (s : Bool) : signBit f s + k < 2 ^ (1 + f.E + f.M) := by
  rw [show 1 + f.E + f.M = f.E + f.M + 1 by omega, pow_succ, signBit]
  split <;> omega

section
variable {f : FloatRow} (h : f ∈ floatRows)
include h

theorem roundNE_eq (n : Machine.Num) : roundNE f.t n = (encodeF (fmtOf f.t) 0 n 0).1 := by
  rw [roundNE, encodeNum, (fields h 0).real]; rfl

theorem roundNE_nan : roundNE f.t .nan = f.canonical := (roundNE_eq h _).trans (rowShape h).nanCode

theorem roundNE_inf (big : 8 ≤ f.t) (s : Bool) : roundNE f.t (.inf s) = signBit f s + (f.top + 1) := by
  rw [roundNE_eq h, encodeF, (rowShape h).e, (rowShape h).m, (rowShape h).inf, (rowShape h).maxCode, decide_eq_true big]
  rfl

theorem roundNE_lt (n : Machine.Num) : roundNE f.t n < 2 ^ (1 + f.E + f.M) := by
  have shape := rowShape h
  have top_lt := shape.top_lt
  cases n with
  | nan => exact roundNE_nan h ▸ canonical_lt h
  | inf s =>
    rw [roundNE_eq h, encodeF, shape.e, shape.m, shape.inf, shape.maxCode]
    refine signBit_add_lt (k := if decide (8 ≤ f.t) = true then f.top + 1 else f.top) ?_ s
    simp only [decide_eq_true_eq]
    split at top_lt <;> split <;> omega
  | fin s m e =>
    rw [roundNE_eq h]
    obtain ⟨lo, -, -, codes⟩ := exists_codeAt shape s m e 0
    rw [codes]
    exact signBit_add_lt (roundAt_lt_pow shape s 0 0) s

/-- The code of an infinity. -/
theorem inf_code {c : Nat} (lt : c < 2 ^ (1 + f.E + f.M)) (inf : f.inf c) : roundNE f.t (.inf (f.neg c)) = c := by
  rw [roundNE_inf h inf.1, top_succ h inf.1, ← inf.2]
  exact (code_eq lt).symm

omit h in
theorem not_nan_of_inf {c : Nat} (inf : f.inf c) : ¬f.nan c := by
  obtain ⟨big, eq⟩ := inf
  rw [FloatRow.nan, eq]
  omega

theorem numOf_nan {c : Nat} (nan : f.nan c) : numOf f.t c = .nan := by
  rcases kind h c with ⟨-, num⟩ | ⟨no, -, -⟩ | ⟨no, -, -, -, -, -⟩
  · exact num
  · exact absurd nan no
  · exact absurd nan no

theorem numOf_inf {c : Nat} (inf : f.inf c) : numOf f.t c = .inf (f.neg c) := by
  rcases kind h c with ⟨nan, -⟩ | ⟨-, -, num⟩ | ⟨-, no, -, -, -, -⟩
  · exact absurd nan (not_nan_of_inf inf)
  · exact num
  · exact absurd inf no

theorem numOf_fin {c : Nat} (nan : ¬f.nan c) (inf : ¬f.inf c) :
    ∃ m e, numOf f.t c = .fin (f.neg c) m e ∧ (m : ℚ) * 2 ^ e = magVal f (f.mag c) := by
  rcases kind h c with ⟨yes, -⟩ | ⟨-, yes, -⟩ | ⟨-, -, m, e, num, mag⟩
  · exact absurd yes nan
  · exact absurd yes inf
  · exact ⟨m, e, num, mag⟩

theorem fin_val {c : Nat} (nan : ¬f.nan c) (inf : ¬f.inf c) : (numOf f.t c).isFin = true ∧ (numOf f.t c).val = f.val c ∧
    (numOf f.t c).isNeg = f.neg c := by
  obtain ⟨m, e, num, mag⟩ := numOf_fin h nan inf
  exact ⟨by rw [num]; rfl, by rw [num, val_fin, mag, floatVal_eq], by rw [num]; rfl⟩

theorem isNan_numOf (c : Nat) : (numOf f.t c).isNan = true ↔ f.nan c := by
  rcases kind h c with ⟨nan, num⟩ | ⟨no, -, num⟩ | ⟨no, -, m, e, num, -⟩
  · rw [num]; exact iff_of_true rfl nan
  · rw [num]; exact iff_of_false Bool.false_ne_true no
  · rw [num]; exact iff_of_false Bool.false_ne_true no

theorem isNeg_numOf {c : Nat} (number : ¬f.nan c) : (numOf f.t c).isNeg = f.neg c := by
  by_cases inf : f.inf c
  · rw [numOf_inf h inf]; rfl
  · exact ((fin_val h number inf).2).2

end

/-! ### The order of codes -/

/-- The place of a code in the order of values, in which −0 and +0 are one. -/
def level (f : FloatRow) (c : Nat) : ℤ := if f.neg c then -(f.mag c : ℤ) else f.mag c

theorem signed_magVal_lt (f : FloatRow) (s t : Bool) (a b : Nat) :
    signFactor s * magVal f a < signFactor t * magVal f b ↔ (if s then -(a : ℤ) else a) < if t then -(b : ℤ) else b := by
  have mono {a b : Nat} : magVal f a < magVal f b ↔ a < b := (magVal_strictMono f).lt_iff_lt
  have pos {a : Nat} : 0 < magVal f a ↔ 0 < a := by rw [← magVal_zero f, mono]
  have nonneg := magVal_nonneg f
  have := nonneg a
  have := nonneg b
  cases s <;> cases t <;> simp only [signFactor, reduceIte, Bool.false_eq_true, one_mul, neg_one_mul]
  · rw [mono, Nat.cast_lt]
  · exact iff_of_false (by linarith) (by omega)
  · rcases Nat.eq_zero_or_pos a with rfl | posA
    · simp [magVal_zero, pos]
    · exact iff_of_true (by linarith [pos.2 posA]) (by omega)
  · rw [neg_lt_neg_iff, mono, neg_lt_neg_iff, Nat.cast_lt]

theorem rank_inj {f : FloatRow} {x y : Nat} (hx : x < 2 ^ (1 + f.E + f.M)) (hy : y < 2 ^ (1 + f.E + f.M)) (eq : f.rank x = f.rank y) :
    x = y := by
  suffices f.neg x = f.neg y ∧ f.mag x = f.mag y from code_inj hx hy this.1 this.2
  revert eq
  unfold FloatRow.rank
  cases f.neg x <;> cases f.neg y <;> simp <;> omega

/-- Ranks order the codes by their values, −0 before +0. -/
theorem rank_lt_iff (f : FloatRow) (x y : Nat) :
    f.rank x < f.rank y ↔ level f x < level f y ∨ level f x = level f y ∧ f.neg x = true ∧ f.neg y = false := by
  unfold level FloatRow.rank
  cases f.neg x <;> cases f.neg y <;> simp <;> omega

section
variable {f : FloatRow} (h : f ∈ floatRows) {x y : Nat} (hx : x < 2 ^ (1 + f.E + f.M)) (hy : y < 2 ^ (1 + f.E + f.M))
  (numX : ¬f.nan x) (numY : ¬f.nan y)
include h hx hy numX numY

theorem cmp_numOf : ((numOf f.t x).cmp (numOf f.t y) < 0 ↔ level f x < level f y) ∧
    ((numOf f.t x).cmp (numOf f.t y) = 0 ↔ level f x = level f y) := by
  have within {c : Nat} (lt : c < 2 ^ (1 + f.E + f.M)) (nan : ¬f.nan c) (inf : ¬f.inf c) : f.mag c ≤ f.top :=
    (((rowShape h).fin c).1 ⟨lt, nan, inf⟩).2
  have beyond {c : Nat} (inf : f.inf c) : f.mag c = f.top + 1 := inf.2.trans (top_succ h inf.1).symm
  by_cases infX : f.inf x <;> by_cases infY : f.inf y
  · rw [numOf_inf h infX, numOf_inf h infY]
    simp only [level, beyond infX, beyond infY]
    cases f.neg x <;> cases f.neg y <;> simp [Machine.Num.cmp] <;> omega
  · obtain ⟨m, e, num, -⟩ := numOf_fin h numY infY
    have := within hy numY infY
    rw [numOf_inf h infX, num]
    simp only [level, beyond infX]
    cases f.neg x <;> cases f.neg y <;> simp [Machine.Num.cmp] <;> omega
  · obtain ⟨m, e, num, -⟩ := numOf_fin h numX infX
    have := within hx numX infX
    rw [numOf_inf h infY, num]
    simp only [level, beyond infY]
    cases f.neg x <;> cases f.neg y <;> simp [Machine.Num.cmp] <;> omega
  · obtain ⟨m, e, numA, magA⟩ := numOf_fin h numX infX
    obtain ⟨n, g, numB, magB⟩ := numOf_fin h numY infY
    have order := signed_magVal_lt f
    rw [numA, numB, (cmp_fin ..).1, (cmp_fin ..).2, val_fin, val_fin, magA, magB]
    refine ⟨order .., ?_⟩
    rw [le_antisymm_iff, ← not_lt, ← not_lt, order, order, not_lt, not_lt, ← le_antisymm_iff]
    rfl

theorem minMax_float (isMax : Bool) : minMax isMax f.t x y = if f.rank x ≤ f.rank y ↔ isMax = false then x else y := by
  obtain ⟨lt_iff, eq_iff⟩ := cmp_numOf h hx hy numX numY
  have notX : (numOf f.t x).isNan = false := by rw [← Bool.not_eq_true, isNan_numOf h]; exact numX
  have notY : (numOf f.t y).isNan = false := by rw [← Bool.not_eq_true, isNan_numOf h]; exact numY
  have less : (decide ((numOf f.t x).cmp (numOf f.t y) < 0) || (decide ((numOf f.t x).cmp (numOf f.t y) = 0) && f.neg x && !f.neg y)) =
      decide (f.rank x < f.rank y) := by
    rw [Bool.eq_iff_iff]
    simp only [Bool.or_eq_true, Bool.and_eq_true, decide_eq_true_eq, Bool.not_eq_true', and_assoc]
    rw [lt_iff, eq_iff, rank_lt_iff]
  rw [minMax, notX, notY]
  dsimp only [Bool.or_self]
  rw [isNeg_numOf h numX, isNeg_numOf h numY, less]
  rcases lt_trichotomy (f.rank x) (f.rank y) with lt | eq | gt
  · cases isMax <;> simp [lt, lt.le]
  · have same : x = y := rank_inj hx hy eq
    subst same
    simp
  · cases isMax <;> simp [gt.not_ge, gt.not_gt]

end

section
variable {f : FloatRow} (h : f ∈ floatRows)
include h

theorem minMax_nan (isMax : Bool) {x y : Nat} (nans : f.nan x ∨ f.nan y) : minMax isMax f.t x y = f.canonical := by
  rw [minMax]
  refine (if_pos ?_).trans (rowShape h).nanCode
  rw [Bool.or_eq_true, isNan_numOf h, isNan_numOf h]
  exact nans

/-- The conditions of `vcmp` by the order of the codes, and what they say of a NaN. -/
theorem condCC_float {x y : Nat} (hx : x < 2 ^ (1 + f.E + f.M)) (hy : y < 2 ^ (1 + f.E + f.M)) {p : Nat × Bool × Bool}
    (mem : p ∈ [(0, decide (level f x = level f y), false), (1, decide (level f x ≠ level f y), true),
      (2, decide (level f x < level f y), false), (3, decide (level f y ≤ level f x), false),
      (4, decide (level f x ≤ level f y), false), (5, decide (level f y < level f x), false), (6, false, true)]) :
    (f.nan x ∨ f.nan y → condCC p.1 f.t x y = p.2.2) ∧ (¬(f.nan x ∨ f.nan y) → condCC p.1 f.t x y = p.2.1) := by
  have unordered : ((numOf f.t x).isNan || (numOf f.t y).isNan) = true ↔ f.nan x ∨ f.nan y := by
    rw [Bool.or_eq_true, isNan_numOf h, isNan_numOf h]
  simp only [List.mem_cons, List.not_mem_nil, or_false] at mem
  constructor
  · intro nans
    have un := unordered.2 nans
    rcases mem with rfl | rfl | rfl | rfl | rfl | rfl | rfl <;> simp [condCC, un]
  · intro nums
    have un := Bool.eq_false_iff.2 (mt unordered.1 nums)
    rw [not_or] at nums
    obtain ⟨lt_iff, eq_iff⟩ := cmp_numOf h hx hy nums.1 nums.2
    have le_iff : (numOf f.t x).cmp (numOf f.t y) ≤ 0 ↔ level f x ≤ level f y := by rw [le_iff_lt_or_eq, le_iff_lt_or_eq, lt_iff, eq_iff]
    have ge_iff : 0 ≤ (numOf f.t x).cmp (numOf f.t y) ↔ level f y ≤ level f x := by rw [← not_lt, lt_iff, not_lt]
    have gt_iff : 0 < (numOf f.t x).cmp (numOf f.t y) ↔ level f y < level f x := by rw [← not_le, le_iff, not_le]
    simp only [condCC, un, Bool.not_false, Bool.true_and, Bool.false_or, eq_iff, lt_iff, gt_iff, ge_iff, le_iff, ne_eq]
    rcases mem with rfl | rfl | rfl | rfl | rfl | rfl | rfl <;> rfl

/-- What a conversion of a format to itself gives. -/
theorem convertElem_self (rm c g : Nat) :
    (f.nan c → convertElem f.t f.t rm c g = (f.canonical, g)) ∧ (¬f.nan c → convertElem f.t f.t rm c g = (c, g)) := by
  constructor
  · intro nan
    rw [convertElem, if_pos rfl, if_pos ((isNan_numOf h c).2 nan), (rowShape h).nanCode]
  · intro number
    rw [convertElem, if_pos rfl, if_neg (mt (isNan_numOf h c).1 number)]

theorem numOf_eq_inf_iff (c : Nat) (s : Bool) : numOf f.t c = .inf s ↔ f.inf c ∧ s = f.neg c := by
  rcases kind h c with ⟨nan, num⟩ | ⟨-, inf, num⟩ | ⟨-, no, m, e, num, -⟩
  · rw [num]; exact iff_of_false nofun fun inf => not_nan_of_inf inf.1 nan
  · rw [num, Machine.Num.inf.injEq]; exact ⟨fun eq => ⟨inf, eq.symm⟩, fun eq => eq.2.symm⟩
  · rw [num]; exact iff_of_false nofun fun inf => no inf.1

end

theorem xor_high {n x : Nat} (lt : x < 2 ^ (n + 1)) : Nat.xor x (2 ^ n) = (x + 2 ^ n) % 2 ^ (n + 1) := by
  have high : x / 2 ^ n < 2 := Nat.div_lt_of_lt_mul (by rwa [← pow_succ])
  have low := Nat.mod_lt x (show 0 < 2 ^ n by positivity)
  have split := Nat.div_add_mod x (2 ^ n)
  have split' := Nat.div_add_mod (x ^^^ 2 ^ n) (2 ^ n)
  rw [Nat.xor_div_two_pow, Nat.xor_mod_two_pow, Nat.mod_self, Nat.xor_zero, Nat.div_self (by positivity)] at split'
  change x ^^^ 2 ^ n = _
  generalize x ^^^ 2 ^ n = v at *
  have two := pow_succ 2 n
  interval_cases x / 2 ^ n
  · rw [Nat.mod_eq_of_lt (by omega)]; simp at split'; omega
  · rw [Nat.mod_eq_sub_mod (by omega), Nat.mod_eq_of_lt (by omega)]; simp at split'; omega

end Sys2Proof.Proofs

/-! SUPPORT. Proofs: the element functions of floating and complex types. -/
namespace Sys2Proof.Proofs
open Sys2Proof Sys2Proof.Machine Sys2Proof.Laws

/-! ### Sums and products with infinities -/

theorem inf_add_fin {n : Machine.Num} (fin : n.isFin = true) (s : Bool) : (Machine.Num.inf s).add n = .inf s := by
  obtain ⟨t, m, e, rfl⟩ := isFin_iff.1 fin
  rfl

theorem fin_add_inf {n : Machine.Num} (fin : n.isFin = true) (s : Bool) : n.add (.inf s) = .inf s := by
  obtain ⟨t, m, e, rfl⟩ := isFin_iff.1 fin
  rfl

theorem inf_add_inf (s t : Bool) : (Machine.Num.inf s).add (.inf t) = if s = t then .inf s else .nan := rfl

theorem neg_inf (s : Bool) : (Machine.Num.inf s).neg = .inf !s := rfl

section
variable {f : FloatRow} (h : f ∈ floatRows)
include h

theorem fin_of_mag_zero {c : Nat} (zero : f.mag c = 0) : ¬f.nan c ∧ ¬f.inf c := by
  refine ⟨by rw [FloatRow.nan, zero]; omega, fun inf => ?_⟩
  have := top_succ h inf.1
  rw [← inf.2, zero] at this
  omega

theorem numOf_zero {c : Nat} (zero : f.mag c = 0) : ∃ s e, numOf f.t c = .fin s 0 e := by
  obtain ⟨nan, inf⟩ := fin_of_mag_zero h zero
  obtain ⟨m, e, num, mag⟩ := numOf_fin h nan inf
  rw [zero, magVal_zero, mul_eq_zero, Nat.cast_eq_zero] at mag
  rcases mag with rfl | power
  · exact ⟨_, _, num⟩
  · exact absurd power (by positivity)

theorem numOf_nonzero {c : Nat} (nan : ¬f.nan c) (inf : ¬f.inf c) (nonzero : f.mag c ≠ 0) :
    ∃ m e, numOf f.t c = .fin (f.neg c) m e ∧ m ≠ 0 := by
  obtain ⟨m, e, num, mag⟩ := numOf_fin h nan inf
  refine ⟨m, e, num, ?_⟩
  rintro rfl
  rw [Nat.cast_zero, zero_mul, ← magVal_zero f] at mag
  exact nonzero ((magVal_strictMono f).injective mag).symm

/-- A product that is invalid, or one of a NaN. -/
theorem mul_invalid {x y : Nat} (bad : (f.nan x ∨ f.nan y) ∨ f.inf x ∧ f.mag y = 0 ∨ f.mag x = 0 ∧ f.inf y) :
    (numOf f.t x).mul (numOf f.t y) = .nan := by
  rcases bad with (nan | nan) | ⟨inf, zero⟩ | ⟨zero, inf⟩
  · rw [numOf_nan h nan, nan_mul]
  · rw [numOf_nan h nan, mul_nan]
  · obtain ⟨s, e, num⟩ := numOf_zero h zero
    rw [numOf_inf h inf, num]
    rfl
  · obtain ⟨s, e, num⟩ := numOf_zero h zero
    rw [numOf_inf h inf, num]
    rfl

theorem mul_infinite {x y : Nat} (inf : f.inf x ∨ f.inf y) (nums : ¬(f.nan x ∨ f.nan y)) (hx : f.mag x ≠ 0) (hy : f.mag y ≠ 0) :
    (numOf f.t x).mul (numOf f.t y) = .inf (f.neg x != f.neg y) := by
  rw [not_or] at nums
  by_cases infX : f.inf x
  · rw [numOf_inf h infX]
    by_cases infY : f.inf y
    · rw [numOf_inf h infY]; rfl
    · obtain ⟨m, e, num, pos⟩ := numOf_nonzero h nums.2 infY hy
      rw [num]
      exact if_neg pos
  · obtain ⟨m, e, num, pos⟩ := numOf_nonzero h nums.1 infX hx
    rw [numOf_inf h (inf.resolve_left infX), num]
    exact if_neg pos

theorem arith_float (fi : Int → Int → Int) (ff : Machine.Num → Machine.Num → Machine.Num) (x y : Nat) :
    arith fi ff f.t x y = roundNE f.t (ff (numOf f.t x) (numOf f.t y)) := by
  rw [arith, (fields h 0).real]; rfl

theorem fma_float (sub : Bool) (d a b : Nat) : fmaElem sub f.t d a b = roundNE f.t ((numOf f.t d).add
    (if sub then ((numOf f.t a).mul (numOf f.t b)).neg else (numOf f.t a).mul (numOf f.t b))) := by
  rw [fmaElem, (fields h 0).real]; rfl

theorem fma_nan (sub : Bool) {d a b : Nat} (bad : f.nan d ∨ (numOf f.t a).mul (numOf f.t b) = .nan) :
    fmaElem sub f.t d a b = f.canonical := by
  rw [fma_float h, ← roundNE_nan h]
  congr 1
  rcases bad with nan | nan
  · rw [numOf_nan h nan, nan_add]
  · rw [nan]; cases sub <;> exact add_nan _

theorem fma_infinite (sub : Bool) {d a b : Nat} {s : Bool} (product : (numOf f.t a).mul (numOf f.t b) = .inf s) :
    fmaElem sub f.t d a b = roundNE f.t ((numOf f.t d).add (.inf (s != sub))) := by
  rw [fma_float h, product, neg_inf]
  cases sub <;> simp

theorem isFin_product (sub : Bool) {a b : Nat} (ha : f.fin a) (hb : f.fin b) :
    (if sub then ((numOf f.t a).mul (numOf f.t b)).neg else (numOf f.t a).mul (numOf f.t b)).isFin = true ∧
    (if sub then ((numOf f.t a).mul (numOf f.t b)).neg else (numOf f.t a).mul (numOf f.t b)).val =
      if sub then -(f.val a * f.val b) else f.val a * f.val b := by
  obtain ⟨finA, valA, -⟩ := fin_val h ha.2.1 ha.2.2
  obtain ⟨finB, valB, -⟩ := fin_val h hb.2.1 hb.2.2
  obtain ⟨fin, val⟩ := isFin_mul finA finB
  rw [valA, valB] at val
  cases sub
  · exact ⟨fin, val⟩
  · exact ⟨(isFin_neg fin).1, by rw [if_pos rfl, (isFin_neg fin).2, val]; rfl⟩

theorem twoTerm_float (real : cplxTy f.t = false) (m a n b : Nat) : twoTerm f.t m a n b =
    roundNE f.t (((numOf f.t m).mul (numOf f.t a)).add ((numOf f.t n).mul (numOf f.t b))) := by
  rw [twoTerm, real, (fields h 0).real]; rfl

end

/-- What the lanes of a floating type are: the width of its codes. -/
structure LaneTy (f : FloatRow) : Prop where
  width : 8 * tySize f.t = 1 + f.E + f.M
  lanes : 0 < 32 / tySize f.t
  real : cplxTy f.t = false

theorem laneTy {f : FloatRow} (h : f ∈ floatRows) (big : 9 ≤ f.t) : LaneTy f := by
  simp only [floatRows, List.mem_cons, List.not_mem_nil, or_false] at h
  rcases h with rfl | rfl | rfl | rfl | rfl | rfl | rfl | rfl <;>
  exact ⟨by revert big; decide, by revert big; decide, by revert big; decide⟩

section
variable {f : FloatRow} (h : f ∈ floatRows) (ty : LaneTy f)
include h ty

theorem vabs_float (c : Nat) : vabsElem f.t c = f.mag c := by
  rw [vabsElem, (fields h 0).real, ty.width, FloatRow.mag, show 1 + f.E + f.M - 1 = f.E + f.M by omega]
  rfl

theorem vneg_float {c : Nat} (lt : c < 2 ^ (1 + f.E + f.M)) : vnegElem f.t c = (c + 2 ^ (f.E + f.M)) % 2 ^ (1 + f.E + f.M) := by
  have succ : 1 + f.E + f.M = f.E + f.M + 1 := by omega
  rw [succ] at lt ⊢
  rw [vnegElem, (fields h 0).real, ty.width, succ, Nat.add_sub_cancel, ← xor_high lt]
  rfl

/-- The sum of the elements, each partial sum rounded. -/
theorem redReg_float (c : Ctx) (y : VReg) (type : vET c = f.t) (mode : bits c.vaux 13 12 = 0) {j : Nat} (lane : j < 32 / tySize f.t) :
    elemOf (redReg c y) (tySize f.t) j = if j = 0 then (List.range (32 / tySize f.t - 1)).foldl (fun acc k =>
      arith (· + ·) Machine.Num.add f.t acc (elemOf y (tySize f.t) (k + 1))) (elemOf y (tySize f.t) 0) else 0 := by
  obtain ⟨g, add, -, -, head, tail⟩ := redReg_eq c y type ty.lanes
  split
  · next zero =>
    rw [zero, head, add mode, List.foldl_map]
    refine Nat.mod_eq_of_lt (List.foldlRecOn (motive := (· < 2 ^ (8 * tySize f.t))) _ _ (elemOf_lt ..) fun acc _ k _ => ?_)
    rw [arith_float h, ty.width]
    exact roundNE_lt h _
  · next pos => exact tail j lane (Nat.pos_of_ne_zero pos)

end

end Sys2Proof.Proofs

/-! SUPPORT. Proofs: complex elements, and the statement of the floating lanes. -/
namespace Sys2Proof.Proofs
open Sys2Proof Sys2Proof.Machine Sys2Proof.Laws

/-! ### Complex elements -/

/-- A number with the value q, which stands at exponent 0 when its parts are integers. -/
def Exact (int : Prop) (n : Machine.Num) (q : ℚ) : Prop := ∃ s m e, n = .fin s m e ∧ n.val = q ∧ (int → e = 0)

section
variable {int : Prop} {a b : Machine.Num} {p q : ℚ}

theorem Exact.add (ha : Exact int a p) (hb : Exact int b q) : Exact int (a.add b) (p + q) := by
  obtain ⟨s, m, e, rfl, rfl, zero⟩ := ha
  obtain ⟨t, n, g, rfl, rfl, zero'⟩ := hb
  have val := (add_fin s t m n e g).2
  dsimp only [Machine.Num.add] at val ⊢
  split
  · next sum => exact ⟨_, _, _, rfl, by rw [if_pos sum] at val; exact val, fun _ => rfl⟩
  · next sum => exact ⟨_, _, _, rfl, by rw [if_neg sum] at val; exact val, fun i => by rw [zero i, zero' i]; rfl⟩

theorem Exact.mul (ha : Exact int a p) (hb : Exact int b q) : Exact int (a.mul b) (p * q) := by
  obtain ⟨s, m, e, rfl, rfl, zero⟩ := ha
  obtain ⟨t, n, g, rfl, rfl, zero'⟩ := hb
  exact ⟨_, _, _, rfl, (isFin_mul rfl rfl).2, fun i => by rw [zero i, zero' i]; rfl⟩

theorem Exact.neg (ha : Exact int a p) : Exact int a.neg (-p) := by
  obtain ⟨s, m, e, rfl, rfl, zero⟩ := ha
  exact ⟨_, _, _, rfl, (isFin_neg rfl).2, zero⟩

theorem Exact.sub (ha : Exact int a p) (hb : Exact int b q) : Exact int (a.add b.neg) (p - q) := sub_eq_add_neg p q ▸ ha.add hb.neg

theorem Exact.of_eq (ha : Exact int a p) (eq : p = q) : Exact int a q := eq ▸ ha

end

/-- What the statement says of the parts of a complex element: of cint8 integers, of the others codes of the format f. -/
structure CplxTy (t w : Nat) (f : FloatRow) : Prop where
  row : f ∈ floatRows
  half : 8 * tySize t / 2 = w
  float : t ≠ 15 → partTy t = f.t ∧ w = 1 + f.E + f.M
  byte : t = 15 → w = 8
  cplx : cplxTy t = true

theorem cplxTy_shape {p : Nat × Nat} (h : p ∈ [(12, 16), (13, 16), (14, 32), (15, 8)]) {f : FloatRow} (row : f ∈ floatRows)
    (type : p.1 = 15 ∨ f.t = p.1 - 3) : CplxTy p.1 p.2 f := by
  refine ⟨row, ?_, ?_, ?_, ?_⟩
  all_goals simp only [List.mem_cons, List.not_mem_nil, or_false] at h
  · rcases h with rfl | rfl | rfl | rfl <;> rfl
  · simp only [floatRows, List.mem_cons, List.not_mem_nil, or_false] at row
    rcases h with rfl | rfl | rfl | rfl <;> rcases row with rfl | rfl | rfl | rfl | rfl | rfl | rfl | rfl <;> revert type <;> decide
  · rcases h with rfl | rfl | rfl | rfl <;> decide
  · rcases h with rfl | rfl | rfl | rfl <;> rfl

section
variable {t w : Nat} {f : FloatRow} (ty : CplxTy t w f)
include ty

/-- The value of a part. -/
def partVal (t : Nat) (f : FloatRow) (c : Nat) : ℚ := if t = 15 then ((BitVec.ofNat 8 c).toInt : ℚ) else f.val c

/-- A part of a result: an integer modulo 2^8, or the nearest-even code of a number with the value. -/
def PartIs (t : Nat) (f : FloatRow) (c : Nat) (q : ℚ) : Prop :=
  if t = 15 then ∃ k : ℤ, (k : ℚ) = q ∧ (c : ℤ) = k % 256 else ∃ m : Machine.Num, m.isFin = true ∧ m.val = q ∧ c = roundNE f.t m

omit ty in
theorem numOfInt_val (i : Int) : (numOfInt i).val = i := by rw [numOfInt, natAbs_val, zpow_zero, mul_one]

theorem part_exact {c : Nat} (fin : t = 15 ∨ f.fin c) : Exact (t = 15) (numOf (partTy t) c) (partVal t f c) := by
  by_cases byte : t = 15
  · subst byte
    refine ⟨_, _, _, rfl, ?_, fun _ => rfl⟩
    refine (numOfInt_val _).trans ?_
    rw [partVal, if_pos rfl, intOf, show isSigned (partTy 15) = true from rfl, if_pos rfl, signed_eq_toInt]
    rfl
  · have fin := fin.resolve_left byte
    obtain ⟨m, e, num, -⟩ := numOf_fin ty.row fin.2.1 fin.2.2
    rw [partVal, if_neg byte, (ty.float byte).1]
    exact ⟨_, _, _, num, (fin_val ty.row fin.2.1 fin.2.2).2.1, fun b => absurd b byte⟩

omit ty in
theorem putPart_code (float : t ≠ 15) (n : Machine.Num) : putPart t n = roundNE (partTy t) n := if_neg float

theorem putPart_is {n : Machine.Num} {q : ℚ} (exact' : Exact (t = 15) n q) : PartIs t f (putPart t n) q := by
  obtain ⟨s, m, e, rfl, val, zero⟩ := exact'
  by_cases byte : t = 15
  · subst byte
    rw [PartIs, if_pos rfl]
    refine ⟨atExp s m e 0, ?_, wrapTo_cast (intTy_shape rfl : IntTy 2) _⟩
    rw [← val, ← atExp_val s m (zero rfl).ge, zpow_zero, mul_one]
  · rw [PartIs, if_neg byte, putPart_code byte, (ty.float byte).1]
    exact ⟨_, rfl, val, rfl⟩

theorem putPart_lt (n : Machine.Num) : putPart t n < 2 ^ w := by
  by_cases byte : t = 15
  · rw [ty.byte byte]
    subst byte
    cases n with
    | fin s m e => exact wrapTo_lt (intTy_shape rfl : IntTy 2) _
    | nan => exact Nat.two_pow_pos 8
    | inf s => exact Nat.two_pow_pos 8
  · rw [putPart_code byte, (ty.float byte).1, (ty.float byte).2]
    exact roundNE_lt ty.row n

theorem cplxOf_parts (re im : Machine.Num) : cplxOf t re im % 2 ^ w = putPart t re ∧ cplxOf t re im / 2 ^ w = putPart t im := by
  rw [cplxOf, ty.half]
  exact ⟨by rw [Nat.add_mul_mod_self_right, Nat.mod_eq_of_lt (putPart_lt ty re)],
    by rw [Nat.add_mul_div_right _ _ (by positivity), Nat.div_eq_of_lt (putPart_lt ty re), Nat.zero_add]⟩

theorem cplxOf_is {re im : Machine.Num} {q r : ℚ} (hre : Exact (t = 15) re q) (him : Exact (t = 15) im r) :
    PartIs t f (cplxOf t re im % 2 ^ w) q ∧ PartIs t f (cplxOf t re im / 2 ^ w) r := by
  rw [(cplxOf_parts ty re im).1, (cplxOf_parts ty re im).2]
  exact ⟨putPart_is ty hre, putPart_is ty him⟩

theorem partsOf_eq (c : Nat) : partsOf t c = (numOf (partTy t) (c % 2 ^ w), numOf (partTy t) (c / 2 ^ w)) := by
  rw [← ty.half]; rfl

theorem cplxOf_nan (float : t ≠ 15) : cplxOf t .nan .nan = f.canonical + 2 ^ w * f.canonical := by
  rw [cplxOf, ty.half, putPart_code float, (ty.float float).1, roundNE_nan ty.row, Nat.mul_comm]

/-- A NaN among four parts makes both parts of their product NaN, and of a sum with it. -/
theorem nan_of_bad (float : t ≠ 15) {d a : Nat} (bad : (f.nan (d % 2 ^ w) ∨ f.nan (d / 2 ^ w)) ∨ f.nan (a % 2 ^ w) ∨ f.nan (a / 2 ^ w))
    (conj : Bool) (b : Nat) : cmulElem conj t d a = f.canonical + 2 ^ w * f.canonical ∧ cfmaElem conj t b d a = f.canonical + 2 ^ w * f.canonical := by
  rw [cmulElem, cfmaElem, partsOf_eq ty, partsOf_eq ty, partsOf_eq ty, (ty.float float).1, ← cplxOf_nan ty float]
  have num {c : Nat} (nan : f.nan c) := numOf_nan ty.row nan
  rcases bad with (nan | nan) | nan | nan <;> cases conj <;> simp [cmulTerms, sumNum, num nan]

/-- The parts of an element stand for the numbers that the statement names. -/
theorem parts_exact {c : Nat} (fin : t = 15 ∨ f.fin (c % 2 ^ w) ∧ f.fin (c / 2 ^ w)) :
    Exact (t = 15) (partsOf t c).1 (if t = 15 then ((BitVec.ofNat 8 c).toInt : ℚ) else f.val (c % 2 ^ w)) ∧
    Exact (t = 15) (partsOf t c).2 (if t = 15 then ((BitVec.ofNat 8 (c / 2 ^ w)).toInt : ℚ) else f.val (c / 2 ^ w)) := by
  rw [partsOf_eq ty]
  refine ⟨(part_exact ty (fin.imp id And.left)).of_eq ?_, part_exact ty (fin.imp id And.right)⟩
  rw [partVal]
  by_cases byte : t = 15
  · rw [if_pos byte, if_pos byte, ty.byte byte]
    congr 2
    exact BitVec.eq_of_toNat_eq (by rw [BitVec.toNat_ofNat, BitVec.toNat_ofNat, Nat.mod_mod])
  · rw [if_neg byte, if_neg byte]

section
variable {d a b c : Nat} {dr di ar ai br bi cr ci : ℚ}
  (hd : Exact (t = 15) (partsOf t d).1 dr ∧ Exact (t = 15) (partsOf t d).2 di)
  (ha : Exact (t = 15) (partsOf t a).1 ar ∧ Exact (t = 15) (partsOf t a).2 ai)
  (hb : Exact (t = 15) (partsOf t b).1 br ∧ Exact (t = 15) (partsOf t b).2 bi)
  (hc : Exact (t = 15) (partsOf t c).1 cr ∧ Exact (t = 15) (partsOf t c).2 ci)
include hd ha

theorem cmulElem_is :
    (PartIs t f (cmulElem false t d a % 2 ^ w) (dr * ar - di * ai) ∧ PartIs t f (cmulElem false t d a / 2 ^ w) (dr * ai + di * ar)) ∧
    (PartIs t f (cmulElem true t d a % 2 ^ w) (dr * ar + di * ai) ∧ PartIs t f (cmulElem true t d a / 2 ^ w) (di * ar - dr * ai)) := by
  obtain ⟨hdr, hdi⟩ := hd
  obtain ⟨har, hai⟩ := ha
  exact ⟨cplxOf_is ty ((hdr.mul har).sub (hdi.mul hai)) ((hdr.mul hai).add (hdi.mul har)),
    cplxOf_is ty ((hdr.mul har).add (hdi.mul hai)) ((hdi.mul har).sub (hdr.mul hai))⟩

include hb

theorem cfmaElem_is :
    (PartIs t f (cfmaElem false t d a b % 2 ^ w) (dr + (ar * br - ai * bi)) ∧
      PartIs t f (cfmaElem false t d a b / 2 ^ w) (di + (ar * bi + ai * br))) ∧
    (PartIs t f (cfmaElem true t d a b % 2 ^ w) (dr + (ar * br + ai * bi)) ∧
      PartIs t f (cfmaElem true t d a b / 2 ^ w) (di + (ai * br - ar * bi))) := by
  obtain ⟨hdr, hdi⟩ := hd
  obtain ⟨har, hai⟩ := ha
  obtain ⟨hbr, hbi⟩ := hb
  exact ⟨cplxOf_is ty (((hdr.add (har.mul hbr)).sub (hai.mul hbi)).of_eq (by ring)) (((hdi.add (har.mul hbi)).add (hai.mul hbr)).of_eq (by ring)),
    cplxOf_is ty (((hdr.add (har.mul hbr)).add (hai.mul hbi)).of_eq (by ring)) (((hdi.add (hai.mul hbr)).sub (har.mul hbi)).of_eq (by ring))⟩

include hc

theorem twoTerm_is : PartIs t f (twoTerm t d a b c % 2 ^ w) (dr * ar - di * ai + (br * cr - bi * ci)) ∧
    PartIs t f (twoTerm t d a b c / 2 ^ w) (dr * ai + di * ar + (br * ci + bi * cr)) := by
  obtain ⟨hdr, hdi⟩ := hd
  obtain ⟨har, hai⟩ := ha
  obtain ⟨hbr, hbi⟩ := hb
  obtain ⟨hcr, hci⟩ := hc
  rw [twoTerm, ty.cplx, if_pos rfl]
  exact cplxOf_is ty ((((hdr.mul har).sub (hdi.mul hai)).add (hbr.mul hcr)).sub (hbi.mul hci) |>.of_eq (by ring))
    ((((hdr.mul hai).add (hdi.mul har)).add (hbr.mul hci)).add (hbi.mul hcr) |>.of_eq (by ring))

end

end

end Sys2Proof.Proofs

/-! SUPPORT. Proofs: the statement of the floating lanes. -/
namespace Sys2Proof.Proofs
open Sys2Proof Sys2Proof.Machine Sys2Proof.Laws

/-- Settles O17: every code has the number of R235, each element function computes with those numbers, and one rounding makes the code. -/
theorem floatLanes : Obligations.FloatLanes := by
  unfold Obligations.FloatLanes
  refine ⟨?codes, ?real, ?complex⟩
  case codes =>
    exact fun f h c _ => ⟨isNan_numOf h c, numOf_eq_inf_iff h c, fun fin => fin_val h fin.2.1 fin.2.2, fun rm g => convertElem_self h rm c g⟩
  case complex =>
    intro p mem d a b hd ha hb t n f row type fin re im is both bad nan
    have ty := cplxTy_shape mem row type
    refine ⟨fun finD finA => ?_, fun worse s => ?_⟩
    · obtain ⟨plain, conj⟩ := cmulElem_is ty (parts_exact ty finD) (parts_exact ty finA)
      refine ⟨plain, conj, fun finB => ?_⟩
      obtain ⟨plain, conj⟩ := cfmaElem_is ty (parts_exact ty finD) (parts_exact ty finA) (parts_exact ty finB)
      exact ⟨plain, conj, fun c _ finC =>
        twoTerm_is ty (parts_exact ty finD) (parts_exact ty finA) (parts_exact ty finB) (parts_exact ty finC)⟩
    · exact nan_of_bad ty (worse.elim And.left And.left) (worse.imp And.right And.right) s b
  case real =>
    intro f h big x y w j lane t z e infinity is sum diff prod fused fin level_ nans
    have ty := laneTy h big
    have lt (v : VReg) (k : Nat) : elemOf v z k < 2 ^ (1 + f.E + f.M) := ty.width ▸ elemOf_lt v z k
    have cut {a : Nat} (small : a < 2 ^ (1 + f.E + f.M)) : a % 2 ^ (8 * z) = a := Nat.mod_eq_of_lt (ty.width ▸ small)
    have round (n : Machine.Num) : roundNE t n % 2 ^ (8 * z) = roundNE t n := cut (roundNE_lt h n)
    have zip (g : Nat → Nat → Nat) : e (zipElems z g x y) = g (e x) (e y) % 2 ^ (8 * z) := elemOf_zipElems lane g x y
    have result (fi : Int → Int → Int) (ff : Machine.Num → Machine.Num → Machine.Num) :
        e (zipElems z (arith fi ff t) x y) = roundNE t (ff (numOf t (e x)) (numOf t (e y))) := by
      rw [zip, arith_float h, round]
    have sum_eq : sum = _ := result (· + ·) Machine.Num.add
    have diff_eq : diff = _ := result (· - ·) Machine.Num.sub
    have prod_eq : prod = _ := result (· * ·) Machine.Num.mul
    have fused_eq (s : Bool) : fused s = fmaElem s t (e w) (e x) (e y) := by
      refine (elemOf_vregOf_map lane _).trans ?_
      rw [fma_float h, round]
    have val {v : VReg} (hv : fin v) := fin_val h hv.2.1 hv.2.2
    have inf_num {v : VReg} (hv : f.inf (e v)) : numOf t (e v) = .inf (f.neg (e v)) := numOf_inf h hv
    have infinity_eq (s : Bool) (e8 : 8 ≤ f.t) : infinity s = roundNE t (.inf s) := by rw [roundNE_inf h e8]; exact Nat.add_assoc ..
    have e8 : 8 ≤ f.t := by omega
    have is_of {c : Nat} {q r : ℚ} {n : Machine.Num} (code : c = roundNE t n) (num : n.isFin = true ∧ n.val = r) (eq : r = q) : is c q :=
      ⟨n, num.1, num.2.trans eq, code⟩
    refine ⟨?finite, ?sumNan, ?diffNan, ?prodNan, ?addNan, ?infLeft, ?infRight, ?infProd, ?infAdd, ?minMax, ?abs, ?neg, ?cmp, ?bfly, ?red⟩
    case finite =>
      intro fx fy
      obtain ⟨finX, valX, -⟩ := val fx
      obtain ⟨finY, valY, -⟩ := val fy
      refine ⟨is_of sum_eq (isFin_add finX finY) (by rw [valX, valY]), is_of diff_eq (isFin_sub finX finY) (by rw [valX, valY]),
        is_of prod_eq (isFin_mul finX finY) (by rw [valX, valY]), fun fw => ?_⟩
      obtain ⟨finW, valW, -⟩ := val fw
      have fused_is (s : Bool) : is (fused s) (f.val (e w) + if s then -(f.val (e x) * f.val (e y)) else f.val (e x) * f.val (e y)) := by
        obtain ⟨finP, valP⟩ := isFin_product h s fx fy
        exact is_of ((fused_eq s).trans (fma_float h ..)) (isFin_add finW finP) (by rw [valW, valP])
      exact ⟨fused_is false, sub_eq_add_neg (f.val (e w)) _ ▸ fused_is true⟩
    case sumNan =>
      intro bad
      rw [sum_eq, ← roundNE_nan h]
      congr 1
      rcases bad with (nan | nan) | ⟨infX, infY, ne⟩
      · rw [numOf_nan h nan, nan_add]
      · rw [numOf_nan h nan, add_nan]
      · rw [inf_num infX, inf_num infY, inf_add_inf, if_neg ne]
    case diffNan =>
      intro bad
      rw [diff_eq, ← roundNE_nan h]
      congr 1
      rcases bad with (nan | nan) | ⟨infX, infY, eq⟩
      · rw [numOf_nan h nan, nan_sub]
      · rw [numOf_nan h nan, sub_nan]
      · rw [inf_num infX, inf_num infY, Machine.Num.sub, neg_inf, inf_add_inf, eq, if_neg (by simp)]
    case prodNan =>
      intro bad
      have product := mul_invalid h bad
      exact ⟨by rw [prod_eq, product, roundNE_nan h], fun s => (fused_eq s).trans (fma_nan h s (.inr product))⟩
    case addNan => exact fun nan s => (fused_eq s).trans (fma_nan h s (.inl nan))
    case infLeft =>
      intro infX
      have code := inf_code h (lt x j) infX
      refine ⟨fun fy => ?_, fun infY => ⟨fun eq => ?_, fun ne => ?_⟩⟩
      · obtain ⟨finY, -, -⟩ := val fy
        rw [sum_eq, diff_eq, inf_num infX, inf_add_fin finY, Machine.Num.sub, inf_add_fin (isFin_neg finY).1]
        exact ⟨code, code⟩
      · rw [sum_eq, inf_num infX, inf_num infY, inf_add_inf, if_pos eq]
        exact code
      · rw [diff_eq, inf_num infX, inf_num infY, Machine.Num.sub, neg_inf, inf_add_inf, if_pos (Bool.eq_not.2 ne)]
        exact code
    case infRight =>
      intro fx infY
      obtain ⟨finX, -, -⟩ := val fx
      rw [sum_eq, diff_eq, inf_num infY, fin_add_inf finX, Machine.Num.sub, neg_inf, fin_add_inf finX, infinity_eq _ e8]
      exact ⟨inf_code h (lt y j) infY, rfl⟩
    case infProd =>
      intro inf nums hx hy
      have product := mul_infinite h inf nums hx hy
      refine ⟨by rw [prod_eq, product, infinity_eq _ e8], fun s => ⟨fun fw => ?_, fun infW => ?_⟩⟩
      · obtain ⟨finW, -, -⟩ := val fw
        rw [fused_eq, fma_infinite h s product, fin_add_inf finW, infinity_eq _ e8]
      · rw [fused_eq, fma_infinite h s product, inf_num infW, inf_add_inf]
        split
        · exact inf_code h (lt w j) infW
        · exact roundNE_nan h
    case infAdd =>
      intro infW fx fy s
      rw [fused_eq, fma_float h, inf_num infW, inf_add_fin (isFin_product h s fx fy).1]
      exact inf_code h (lt w j) infW
    case minMax =>
      intro isMax
      rw [zip]
      split
      · next nan => rw [minMax_nan h isMax nan, cut (canonical_lt h)]
      · next nums =>
        rw [not_or] at nums
        rw [minMax_float h (lt x j) (lt y j) nums.1 nums.2]
        exact cut (by split <;> exact lt _ j)
    case abs =>
      rw [zip, vabs_float h ty]
      exact cut (Nat.lt_of_le_of_lt (Nat.mod_le (e y) _) (lt y j))
    case neg => rw [zip, vneg_float h ty (lt y j), cut (Nat.mod_lt _ (by positivity))]
    case cmp => exact fun p mem => condCC_float h (lt x j) (lt y j) mem
    case bfly =>
      intro k _ fm
      have term {m a n b : Nat} (hm : f.fin m) (ha : f.fin a) (hn : f.fin n) (hb : f.fin b) :
          is (twoTerm t m a n b) (f.val m * f.val a + f.val n * f.val b) := by
        obtain ⟨finM, valM, -⟩ := fin_val h hm.2.1 hm.2.2
        obtain ⟨finA, valA, -⟩ := fin_val h ha.2.1 ha.2.2
        obtain ⟨finN, valN, -⟩ := fin_val h hn.2.1 hn.2.2
        obtain ⟨finB, valB, -⟩ := fin_val h hb.2.1 hb.2.2
        obtain ⟨finP, valP⟩ := isFin_mul finM finA
        obtain ⟨finQ, valQ⟩ := isFin_mul finN finB
        exact is_of (twoTerm_float h ty.real m a n b) (isFin_add finP finQ) (by rw [valP, valQ, valM, valA, valN, valB])
      have made : e (bflyReg t k x y) = if j / 2 ^ k % 2 = 0 then
            twoTerm t (elemOf y z 0) (e x) (elemOf y z 1) (elemOf x z (j + 2 ^ k))
          else twoTerm t (elemOf y z 2) (elemOf x z (j - 2 ^ k)) (elemOf y z 3) (e x) := by
        refine (elemOf_vregOf_map lane _).trans ?_
        split <;> rw [twoTerm_float h ty.real, round]
      rw [made]
      refine ⟨fun even fx fo => ?_, fun odd fx fo => ?_⟩
      · rw [if_pos even]
        exact term (fm 0 (by decide)) fx (fm 1 (by decide)) fo
      · rw [if_neg (by omega)]
        exact term (fm 2 (by decide)) fo (fm 3 (by decide)) fx
    case red => exact fun c type mode => redReg_float h ty c y type mode lane

end Sys2Proof.Proofs

/-! SUPPORT. Proofs: the canonical form of memory (O59): state operations, up to traps, fetches, records, barriers and motion. -/

namespace Sys2Proof.Proofs
open Sys2Proof Sys2Proof.Machine Sys2Proof.Laws

/-- A step that leaves the seat alone leaves memory in its form. -/
theorem wf_of_seat {s t : State} (wf : s.MemWf) (seat : SameSeat s t) : t.MemWf := memWf_of_mem wf seat.2.2

/-- What is left of memory is in canonical form too. -/
theorem wf_filter {s t : State} (wf : s.MemWf) (p : Nat × Byte → Bool) (e : t.mem = s.mem.filter p) : t.MemWf := by
  unfold State.MemWf Memory.wf at wf ⊢
  rw [e]
  exact mapWf_filter p wf

/-- What holds of both branches holds of the choice. -/
theorem of_ite {α : Type} (P : α → Prop) {c : Prop} [Decidable c] {a b : α} (ha : P a) (hb : P b) : P (if c then a else b) := by
  split <;> assumption

theorem wf_ite {c : Prop} [Decidable c] {s t : State} (hs : s.MemWf) (ht : t.MemWf) : (if c then s else t).MemWf := by
  split <;> assumption

/-- Every state that a body hands on is in canonical form. -/
def BodyWf : Body → Prop
  | .done s _ => s.MemWf
  | .jump s _ _ => s.MemWf
  | .keep s => s.MemWf
  | .wait s _ => s.MemWf
  | .trap _ => True

/-- Every state that loads hand on is in canonical form. -/
def LoadsWf : Loads → Prop
  | .vals _ s => s.MemWf
  | .bad _ s => s.MemWf
  | .stall => True
  | .host _ _ => True

/-- Every state that a fetch hands on is in canonical form. -/
def FetchedWf : Fetched → Prop
  | .instr _ s => s.MemWf
  | .illegal s => s.MemWf
  | .fault _ => True
  | .wait _ => True

/-- A fold over pairs whose states stand in one place keeps what each step keeps. -/
theorem foldl_snd_wf {α β : Type} (f : α × State → β → α × State) (h : ∀ a x, a.2.MemWf → (f a x).2.MemWf) (l : List β) (a : α × State)
    (wf : a.2.MemWf) : (l.foldl f a).2.MemWf := by
  induction l generalizing a with
  | nil => exact wf
  | cons x t ih => exact ih _ (h a x wf)

theorem foldl_fst_wf {α β : Type} (f : State × α → β → State × α) (h : ∀ a x, a.1.MemWf → (f a x).1.MemWf) (l : List β) (a : State × α)
    (wf : a.1.MemWf) : (l.foldl f a).1.MemWf := by
  induction l generalizing a with
  | nil => exact wf
  | cons x t ih => exact ih _ (h a x wf)

theorem wf_of_serveWrite {s u : State} (wf : s.MemWf) {a k : Nat} {d : List Byte} {w : Bool} (h : serveWrite s a d w = (k, u)) : u.MemWf := by
  have kept := serveWrite_wf wf a d w
  rwa [h] at kept

theorem withFocus_wf {s : State} (wf : s.MemWf) (a : Nat) {f : State → State} (h : ∀ t, t.MemWf → (f t).MemWf) : (withFocus s a f).MemWf :=
  memWf_of_mem (h _ (memWf_of_mem wf (focus_mem ..))) (focus_mem ..)

theorem queueMotion_getD_mem (s : State) (h : Nat) (m : Motion) : ((queueMotion s h m).getD s).mem = s.mem := by
  cases q : queueMotion s h m with
  | none => rfl
  | some u => exact (queueMotion_seat q).2.2

@[simp] theorem promotePage_mem (s : State) (frame h : Nat) (p : Hot) : (promotePage s frame h p).mem = s.mem := by
  unfold promotePage
  dsimp only
  repeat' split
  · rfl
  · exact queueMotion_getD_mem ..
  · rfl
  · rfl

@[simp] theorem promote_mem (s : State) (frame h : Nat) (p : Hot) : (promote s frame h p).mem = s.mem := by
  unfold promote
  split <;> simp

@[simp] theorem askAgain_mem (s : State) : (askAgain s).mem = s.mem := by
  simp [askAgain, foldl_mem]

@[simp] theorem countHot_mem (s : State) (loc0 core leaf : Nat) : (countHot s loc0 core leaf).mem = s.mem := by
  unfold countHot
  grind [promote_mem]

@[simp] theorem noteWhere_mem (s : State) (p : Nat → Bool) : (noteWhere s p).mem = s.mem := rfl

@[simp] theorem wroteWhere_mem (s : State) (p : Nat → Bool) : (wroteWhere s p).mem = s.mem := by
  simp [wroteWhere, fireWhere_mem]

@[simp] theorem statusAcquires_mem (s : State) (rcb : Nat) : (statusAcquires s rcb).mem = s.mem := rfl

theorem setStatus_wf {s : State} (wf : s.MemWf) (rcb st cause : Nat) : (setStatus s rcb st cause).MemWf := by
  unfold setStatus
  grind [State.MemWf, sysWrite_wf, statusAcquires_mem]

@[simp] theorem accountCore_mem (s : State) (core : Nat) : (accountCore s core).mem = s.mem := rfl

theorem flushUtil_wf {s : State} (wf : s.MemWf) (cl : Nat) : (flushUtil s cl).MemWf := by
  unfold flushUtil
  grind [State.MemWf, accountCore_mem, sysWrite_wf, putCluster_mem, foldl_mem, foldl_wf]

theorem addUsed_wf {s : State} (wf : s.MemWf) (n fuel rcb : Nat) : (addUsed s n fuel rcb).MemWf := by
  induction fuel generalizing s rcb with
  | zero => exact wf
  | succ fuel ih =>
    rw [addUsed]
    split
    · exact wf
    · exact ih (sysWrite_wf wf ..) _

@[simp] theorem judgeBudgets_mem (s : State) : (judgeBudgets s).mem = s.mem := rfl

theorem charge_wf {s : State} (wf : s.MemWf) (g : Region) : (charge s g).MemWf := by
  unfold charge
  grind [State.MemWf, judgeBudgets_mem, putRegion_mem, addUsed_wf]

theorem closeBooks_wf {s : State} (wf : s.MemWf) (g : Region) : (closeBooks s g).MemWf := by
  unfold closeBooks
  grind [State.MemWf, flushUtil_wf, charge_wf, foldl_mem, foldl_wf]

@[simp] theorem idleCluster_mem (s : State) (cl : Nat) : (idleCluster s cl).mem = s.mem := by
  unfold idleCluster
  grind [putCtx_mem, foldl_mem]

@[simp] theorem freeCluster_mem (s : State) (cl : Nat) : (freeCluster s cl).mem = s.mem := by
  unfold freeCluster
  grind [idleCluster_mem, putCluster_mem, putTile_mem, foldl_mem]

@[simp] theorem dropRegion_mem (s : State) (r : Region) (discard : Bool) : (dropRegion s r discard).mem = s.mem := by
  unfold dropRegion
  grind [freeCluster_mem, foldl_mem]

theorem endNow_wf {s : State} (wf : s.MemWf) (rcb cause : Nat) : (endNow s rcb cause).MemWf := by
  unfold endNow
  grind [State.MemWf, closeBooks_wf, setStatus_wf, dropRegion_mem, foldl_mem, foldl_wf]

theorem endDomain_wf {s : State} (wf : s.MemWf) (rcb cause : Nat) : (endDomain s rcb cause).MemWf := by
  unfold endDomain
  grind [State.MemWf, putRegion_mem, endNow_wf]

theorem endWaiting_wf {s : State} (wf : s.MemWf) : (endWaiting s).MemWf := by
  unfold endWaiting
  grind [State.MemWf, endDomain_wf, foldl_mem, foldl_wf]

@[simp] theorem fillTlb_mem (s : State) (core : Nat) (e : TlbEntry) : (fillTlb s core e).mem = s.mem := rfl

theorem translate_wf {s u : State} (wf : s.MemWf) {core k : Nat} {troot : Word} {va : VAddr} {e : TlbEntry}
    (h : Machine.translate s core troot va k = .ok (e, u)) : u.MemWf := wf_of_seat wf (translate_seat h)

theorem land_wf {s : State} (wf : s.MemWf) {a k : Nat} {va : VAddr} {l : Landing} (h : land s a va k = .ok l) : l.st.MemWf :=
  wf_of_seat wf (land_seat h)

theorem checkAccess_wf {s : State} (wf : s.MemWf) {a al k : Nat} {e : Word} {l : Landing} (h : checkAccess s a e al k = .ok l) : l.st.MemWf :=
  wf_of_seat wf (checkAccess_seat h)

@[simp] theorem sendRecord_mem (s : State) (a core : Nat) (r : TaskRec) : (sendRecord s a core r).mem = s.mem := rfl

@[simp] theorem putTeam_mem (s : State) (a : Nat) (t : Option Team) : (putTeam s a t).mem = s.mem := rfl

theorem engineTrap_wf {s : State} (wf : s.MemWf) (t : Trap) : (engineTrap s t).MemWf := by
  unfold engineTrap
  grind [State.MemWf, endDomain_wf, putCtx_mem, putTeam_mem, putMyCore_mem]

theorem enterTrap_wf {s : State} (wf : s.MemWf) (t : Trap) (epc : Word) : (enterTrap s t epc).MemWf := by
  unfold enterTrap
  grind [State.MemWf, engineTrap_wf, endDomain_wf]

@[simp] theorem touchTlb_mem (s : State) (core : Nat) (troot : Word) (va : VAddr) (k : Nat) : (touchTlb s core troot va k).mem = s.mem :=
  (touchTlb_seat ..).2.2

@[simp] theorem replyTouch_mem (s : State) (a : Nat) (engine : Bool) (k : Nat) : (replyTouch s a engine k).mem = s.mem := by
  unfold replyTouch
  split <;> simp

theorem toPager_wf {s u : State} (wf : s.MemWf) {t : Trap} (h : toPager s t = some u) : u.MemWf := by
  unfold toPager at h
  dsimp only at h
  split at h
  · split at h
    · next eq _ =>
      split at h
      · next u write =>
        cases h
        have sent := wf_of_serveWrite (memWf_of_mem wf (replyTouch_mem ..)) write
        exact sent
      · cases h
    · cases h
  · cases h

@[simp] theorem refreshFor_mem (s : State) (a : Nat) (t : Trap) : (refreshFor s a t).mem = s.mem := by
  unfold refreshFor
  grind [touchTlb_mem, foldl_mem]

@[simp] theorem refreshTlb_mem (s : State) (t : Trap) : (refreshTlb s t).mem = s.mem := refreshFor_mem ..

@[simp] theorem pagerTouch_mem (s : State) (t : Trap) : (pagerTouch s t).mem = s.mem := by
  unfold pagerTouch
  split <;> simp

theorem raiseIn_wf {s : State} (wf : s.MemWf) (t : Trap) : (raiseIn s t).MemWf := by
  unfold raiseIn
  split
  · exact wf
  · split
    · next sent => exact toPager_wf wf sent
    · exact enterTrap_wf (memWf_of_mem wf (pagerTouch_mem ..)) ..

theorem raise_wf {s : State} (wf : s.MemWf) (t : Trap) : (raise s t).MemWf := by
  unfold raise
  grind [State.MemWf, raiseIn_wf, refreshTlb_mem]

theorem keptRun_wf {s u : State} (wf : s.MemWf) {pc : Word} {l : List Nat} (h : keptRun s pc = some (l, u)) : u.MemWf := by
  unfold keptRun at h
  split at h
  · obtain ⟨x, -, h⟩ := Option.bind_eq_some_iff.1 h
    obtain ⟨r, places, h⟩ := Option.bind_eq_some_iff.1 h
    split at h
    · cases h
      exact wf_of_seat wf (runPlaces_seat _ _ _ _ _ places)
    · cases h
  · cases h

@[simp] theorem keepRun_mem (s : State) (pc : Word) (ps : Option (List Nat)) : (keepRun s pc ps).mem = s.mem := by
  unfold keepRun
  split <;> rfl

theorem readRun_wf {s : State} (wf : s.MemWf) (pc : Word) (n : Nat) : (readRun s pc n).2.2.MemWf := wf_of_seat wf (readOn_seat ..)

theorem fetchRun_wf {s : State} (wf : s.MemWf) (pc : Word) (n : Nat) : (fetchRun s pc n).2.2.MemWf := wf_of_seat wf (fetchRun_seat ..)

theorem spanRun_wf {s : State} (wf : s.MemWf) (pc : Word) (n : Nat) : (spanRun s pc n).2.2.MemWf := wf_of_seat wf (spanRun_seat ..)

theorem readEnd_wf {s : State} (wf : s.MemWf) (k : Nat) : (readEnd s k).2.MemWf := by
  have read := fetchRun_wf wf (lpEnd s.cur k) 1
  unfold readEnd
  split
  · exact wf
  · split <;> (next eq => rw [eq] at read; exact read)

theorem bodyWf_after {b : Body} (body : BodyWf b) (uses : List RegUse) : BodyWf (Body.after uses b) := by
  cases b <;> exact body

theorem shortStop_wf {s : State} (wf : s.MemWf) {uses : List RegUse} {b : Body} (h : shortStop s uses = some b) : BodyWf b := by
  unfold shortStop at h
  split at h
  · split at h
    · cases h
      split
      · trivial
      · exact wf
    · cases h
  · split at h
    · cases h; exact wf
    · cases h

theorem retire_wf {s : State} (wf : s.MemWf) (len : Nat) (st : BitVec 3) {b : Body} (body : BodyWf b) : (retire s len st b).MemWf := by
  cases b with
  | done t l => exact body
  | jump t target call => exact body
  | keep t => exact body
  | wait t w => exact body
  | trap t => exact raise_wf wf t

theorem decodeRun_wf {s : State} (wf : s.MemWf) (l : List Nat) : FetchedWf (decodeRun s l) := by
  unfold decodeRun
  repeat' split
  all_goals exact wf

theorem fetchStop_fetched_wf (t : FetchStop) : FetchedWf t.fetched := by cases t <;> trivial

theorem fetchStop_body_wf {s : State} (wf : s.MemWf) (t : FetchStop) : BodyWf (t.body s) := by
  cases t with
  | trap t => trivial
  | wait => exact wf
  | host at1 va => exact wf

theorem keepPrefix_wf {s : State} (wf : s.MemWf) (pc : Word) (p : Nat) : (keepPrefix s pc p).MemWf := by
  have read := readRun_wf wf (pc + 2) (spanOf p)
  unfold keepPrefix
  split
  · split
    · next eq =>
      rw [eq] at read
      exact memWf_of_mem read ((keepRun_mem ..).trans (keepRun_mem ..))
    · exact memWf_of_mem wf (keepRun_mem ..)
  · exact wf

theorem fetchInstr_wf {s : State} (wf : s.MemWf) (pc : Word) : FetchedWf (fetchInstr s pc) := by
  have read := readRun_wf wf pc 1
  unfold fetchInstr
  split
  · exact decodeRun_wf wf _
  split
  · next kept => exact decodeRun_wf (keptRun_wf wf kept) _
  split
  · next eq =>
    rw [eq] at read
    have again := readRun_wf read (pc + 2) 1
    split
    · split
      · next eq' => rw [eq'] at again; exact decodeRun_wf (memWf_of_mem again (keepRun_mem ..)) _
      · exact fetchStop_fetched_wf _
      · next eq' => rw [eq'] at again; exact again
    split
    · exact decodeRun_wf (keepPrefix_wf read ..) _
    · exact decodeRun_wf (memWf_of_mem read (keepRun_mem ..)) _
  · exact fetchStop_fetched_wf _
  · next eq => rw [eq] at read; exact read

theorem noteEnd_wf {s : State} (wf : s.MemWf) (k : Nat) : (noteEnd s k).MemWf := readEnd_wf wf k

theorem fetchAt_wf {s : State} (wf : s.MemWf) (pc : Word) : FetchedWf (fetchAt s pc) := by
  have fetched := fetchInstr_wf wf pc
  unfold fetchAt
  split
  · next eq =>
    rw [eq] at fetched
    dsimp only
    cases List.findSome? _ _ with
    | none => exact foldl_wf _ (fun _ k wf => noteEnd_wf wf k) _ _ fetched
    | some t => exact fetchStop_fetched_wf t
  · exact fetched

@[simp] theorem skipTo_mem (s : State) (l : Word) (len : Nat) : (skipTo s l len).mem = s.mem := by
  unfold skipTo
  dsimp only
  repeat' split
  all_goals grind []

theorem parcelAt_wf {s : State} (wf : s.MemWf) (l : Word) : (parcelAt s l).2.2.MemWf := by
  unfold parcelAt
  dsimp only
  split
  · exact wf
  · exact fetchRun_wf wf l 1

theorem writeRec_wf {s : State} (wf : s.MemWf) (r : List Byte) : (writeRec s r).MemWf := by
  unfold writeRec
  grind [State.MemWf, sysBytes_wf]

theorem flushRecs_wf {s : State} (wf : s.MemWf) (l : List (List Byte)) : (flushRecs s l).MemWf := by
  induction l generalizing s with
  | nil => exact wf
  | cons r t ih =>
    rw [flushRecs]
    split
    · exact ih (writeRec_wf wf r)
    · exact wf

theorem postRec_wf {s : State} (wf : s.MemWf) (r : List Byte) : (postRec s r).MemWf := by
  unfold postRec
  exact flushRecs_wf wf ..

theorem putInbox_wf {s : State} (wf : s.MemWf) (core : Nat) (pri : Bool) (n : Nat) (bytes : List Byte) (r : TaskRec) : (putInbox s core pri n bytes r).MemWf := by
  unfold putInbox
  exact sysBytes_wf wf ..

theorem spillInto_wf {s u : State} (wf : s.MemWf) {g : Region} {core : Nat} {pri : Bool} {r : TaskRec} {due : Option Msg}
    (h : spillInto s g core pri r due = some u) : u.MemWf := by
  unfold spillInto at h
  dsimp only at h
  split at h
  · cases h
  · split at h
    · cases h
    · cases h
      exact sysBytes_wf wf ..

theorem acceptAt_wf {s u : State} (wf : s.MemWf) {g : Region} {core : Nat} {pri : Bool} {r : TaskRec}
    (h : acceptAt s g core pri r = some u) : u.MemWf := by
  unfold acceptAt at h
  dsimp only at h
  split at h
  · exact spillInto_wf wf h
  · split at h
    · cases h
      exact sysWrite_wf (putInbox_wf wf ..) ..
    · obtain ⟨t, spilt, rfl⟩ := Option.map_eq_some_iff.1 h
      exact sysWrite_wf (spillInto_wf wf spilt) ..

theorem acceptNext_wf {s u : State} (wf : s.MemWf) {g : Region} {core : Nat} {pri : Bool} {r : TaskRec}
    (h : acceptNext s g core pri r = some u) : u.MemWf := by
  unfold acceptNext at h
  split at h
  · cases h
  · exact acceptAt_wf wf h

theorem postTo_wf {s : State} (wf : s.MemWf) (g : Region) (core : Nat) (pri : Bool) (r : TaskRec) : (postTo s g core pri r).MemWf := by
  unfold postTo
  dsimp only
  cases next : acceptNext s g core pri { r with pri := pri } with
  | none => exact memWf_of_mem wf (sendMsg_mem ..)
  | some u => exact acceptNext_wf wf next

theorem post_wf {s : State} (wf : s.MemWf) (core : Nat) (pri : Bool) (r : TaskRec) : (post s core pri r).MemWf := by
  unfold post
  grind [State.MemWf, postTo_wf]

theorem commitLoads_wf {s : State} (wf : s.MemWf) (n : Nat) : (commitLoads s n).MemWf := by
  induction n generalizing s with
  | zero => exact wf
  | succ n ih =>
    rw [commitLoads]
    split
    · exact wf
    split
    · exact wf
    split
    · exact wf
    · exact ih wf
    · exact raise_wf (by exact wf) _

theorem loadBody_wf {s : State} (wf : s.MemWf) (n : Nat) (sx acq : Bool) (d : BitVec 5) (ea : State → Word) (len : Nat) (st : BitVec 3) :
    BodyWf (loadBody n sx acq d ea len st s) := by
  unfold loadBody
  dsimp only
  cases landed : checkAccess s s.who (ea s) n 0 with
  | error t =>
    dsimp only
    split
    · trivial
    · exact wf
  | ok l =>
    have at1 := checkAccess_wf wf landed
    have counted := memWf_of_mem at1 (countHot_mem l.st l.loc (coreOf s.who) l.leaf)
    dsimp only
    repeat' split
    all_goals first
      | exact wf
      | exact at1
      | exact counted
      | exact raise_wf counted _

@[simp] theorem rotatePath_mem (s : State) (any : Bool) : (rotatePath s any).mem = s.mem := by
  unfold rotatePath
  split <;> rfl

@[simp] theorem pushEntry_mem (s : State) (l : Landing) (body : Payload) (ordered : Bool) : (pushEntry s l body ordered).mem = s.mem := rfl

theorem storeBody_wf {s : State} (wf : s.MemWf) (n : Nat) (d : BitVec 5) (ea : State → Word) (ordered : Bool) : BodyWf (storeBody n d ea ordered s) := by
  unfold storeBody
  cases landed : checkAccess s s.who (ea s) n 1 with
  | error t => trivial
  | ok l =>
    have at1 := checkAccess_wf wf landed
    dsimp only
    split
    · exact wf
    · exact memWf_of_mem at1 (rotatePath_mem ..)

theorem amoAt_wf {s : State} (wf : s.MemWf) (loc n op b cmp : Nat) : (amoAt s loc n op b cmp).2.2.MemWf := by
  unfold amoAt
  split
  · dsimp only
    split
    · exact memWf_of_mem wf (fireMonitors_mem ..)
    · exact serveWrite_wf wf ..
  · exact wf

@[simp] theorem released_mem (s : State) (c : BitVec 3) : (released s c).mem = s.mem := by
  unfold released
  split <;> rfl

theorem waitBody_wf {s : State} (wf : s.MemWf) (addr b : Word) (c : BitVec 3) (z : BitVec 1) (st : BitVec 3) : BodyWf (waitBody addr b c z st s) := by
  unfold waitBody
  dsimp only
  cases landed : checkAccess s s.who addr (if z = 1 then 8 else 4) 0 with
  | error t => trivial
  | ok l =>
    have at1 := checkAccess_wf wf landed
    have counted := memWf_of_mem at1 (countHot_mem l.st l.loc (coreOf s.who) l.leaf)
    dsimp only
    repeat' split
    all_goals first
      | exact wf
      | exact counted
      | exact raise_wf counted _

theorem hintLeaf_wf {s u : State} (wf : s.MemWf) {core : Nat} {troot : Word} {va : VAddr} {e : TlbEntry}
    (h : hintLeaf s core troot va = some (e, u)) : u.MemWf := by
  unfold hintLeaf at h
  dsimp only at h
  repeat' split at h
  all_goals cases h
  · exact wf
  · exact memWf_of_mem wf (fillTlb_mem ..)
  · exact memWf_of_mem wf (fillTlb_mem ..)

@[simp] theorem leaveBuffer_mem (s : State) (a : Nat) (e : StoreEntry) (rest : List StoreEntry) (n : Nat) : (leaveBuffer s a e rest n).mem = s.mem := by
  unfold leaveBuffer
  grind [putCtx_mem, sendMsg_mem]

theorem deliverPosted_wf {s : State} (wf : s.MemWf) : (deliverPosted s).MemWf := by
  unfold deliverPosted
  grind [State.MemWf, writeBytes_wf, foldl_mem, foldl_wf]

@[simp] theorem dropMsg_mem (s : State) (i : Nat) : (dropMsg s i).mem = s.mem := rfl

@[simp] theorem reply_mem (s : State) (m : Msg) (status : Nat) (data : List Byte) (spots : List Nat) : (reply s m status data spots).mem = s.mem := rfl

theorem storeAt_wf {s : State} (wf : s.MemWf) (loc core leaf : Nat) (d : List Byte) (whole : Bool) : (storeAt s loc core leaf d whole).2.MemWf := by
  unfold storeAt
  split
  · exact wf
  · exact serveWrite_wf (memWf_of_mem wf (countHot_mem ..)) ..

theorem serveMsg_wf {s : State} (wf : s.MemWf) (place : State → StoreEntry → Nat → Option (Nat × Nat)) (m : Msg) : (serveMsg place s m).MemWf := by
  unfold serveMsg
  dsimp only
  split
  · exact memWf_of_mem (storeAt_wf wf ..) (reply_mem ..)
  · refine memWf_of_mem (foldl_snd_wf _ (fun a i wf => ?_) _ _ wf) (reply_mem ..)
    split
    · exact storeAt_wf wf ..
    · exact wf
  · exact memWf_of_mem wf ((reply_mem ..).trans ((putCtx_mem ..).trans (countHot_mem ..)))
  · exact memWf_of_mem wf ((reply_mem ..).trans (countHot_mem ..))
  · exact memWf_of_mem (serveWrite_wf (memWf_of_mem wf (countHot_mem ..)) ..) (reply_mem ..)
  · exact wf

@[simp] theorem dropReply_mem (s : State) (i : Nat) : (dropReply s i).mem = s.mem := rfl

@[simp] theorem resend_mem (s : State) (a : Nat) (x : LoadSlot) : (resend s a x).mem = s.mem := by
  simp [resend, putCtx_mem]

theorem hostAmo_wf {s : State} (wf : s.MemWf) (at1 n old : Nat) (a4 : Option (Nat × Nat × Nat)) : (hostAmo s at1 n old a4).MemWf := by
  unfold hostAmo
  grind [State.MemWf, writeBytes_wf]

theorem engCompletion_wf {s : State} (wf : s.MemWf) (ctx status : Nat) (data : BitVec 512) : (engCompletion s ctx status data).MemWf := by
  unfold engCompletion
  grind [State.MemWf, putCtx_mem, deliverPosted_wf]

@[simp] theorem logEvent_mem (s : State) (source code detail : Nat) : (logEvent s source code detail).mem = s.mem := rfl

@[simp] theorem softError_mem (s : State) (loc : Nat) (corrected : Bool) : (softError s loc corrected).mem = s.mem := by
  unfold softError
  grind [logEvent_mem, setPoison_mem]

theorem takeInbox_wf {s u : State} (wf : s.MemWf) {core : Nat} {pri : Bool} {r : TaskRec} (h : takeInbox s core pri = some (r, u)) : u.MemWf := by
  unfold takeInbox at h
  dsimp only at h
  split at h
  · cases h
  · cases h
    have taken (c : Core) := sysWrite_wf (memWf_of_mem wf (putCore_mem s core c)) (homeLoc core (takenOff pri)) 8 (takenOf s core pri + 1)
    split
    · exact taken _
    · split
      · exact taken _
      · exact memWf_of_mem (putInbox_wf (taken _) ..) (putRegion_mem ..)

theorem takeDeque_wf {s u : State} (wf : s.MemWf) {core : Nat} {r : TaskRec} (h : takeDeque s core = some (r, u)) : u.MemWf := by
  unfold takeDeque at h
  dsimp only at h
  split at h
  · cases h
  · cases h
    exact sysWrite_wf (memWf_of_mem wf (putCore_mem ..)) ..

theorem stealDeque_wf {s u : State} (wf : s.MemWf) {core : Nat} {r : TaskRec} (h : stealDeque s core = some (r, u)) : u.MemWf := by
  unfold stealDeque at h
  dsimp only at h
  split at h
  · cases h
  · cases h
    exact sysWrite_wf (memWf_of_mem wf (putCore_mem ..)) ..

theorem firstSteal_wf {s u : State} (wf : s.MemWf) {rcb : Nat} {r : TaskRec} {l : List Nat} (h : firstSteal s rcb l = some (r, u)) : u.MemWf := by
  induction l with
  | nil => cases h
  | cons c t ih =>
    rw [firstSteal] at h
    split at h
    · exact ih h
    · split at h
      · next stolen => cases h; exact stealDeque_wf wf stolen
      · exact ih h

theorem nextChoice_wf {s u : State} (wf : s.MemWf) {a : Nat} {steals : Bool} {r : TaskRec} (h : nextChoice s a steals = some (r, u)) : u.MemWf := by
  unfold nextChoice at h
  dsimp only at h
  split at h
  · exact takeInbox_wf wf h
  split at h
  · next taken => cases h; exact takeInbox_wf wf taken
  split at h
  · next taken => cases h; exact takeDeque_wf wf taken
  split at h
  · split at h
    · exact firstSteal_wf wf h
    · cases h
  · cases h

@[simp] theorem clearLowSpan_mem (s : State) (a : Nat) : (clearLowSpan s a).mem = s.mem := by
  unfold clearLowSpan
  split <;> simp [putCtx_mem]

theorem startRecord_wf {s : State} (wf : s.MemWf) (a : Nat) (r : TaskRec) : (startRecord s a r).MemWf := by
  unfold startRecord
  split
  · exact wf
  · apply withFocus_wf (memWf_of_mem wf (clearLowSpan_mem ..)) a
    intro t wf
    extract_lets c regs started
    clear_value started
    split
    · refine enterTrap_wf ?_ _ _
      exact wf
    · exact wf

theorem tryStart_wf {s : State} (wf : s.MemWf) (a : Nat) : (tryStart s a).MemWf := by
  unfold tryStart
  split
  · split
    · next choice =>
      split
      · exact startRecord_wf (nextChoice_wf wf choice) ..
      · exact wf
    · exact wf
  · exact wf

theorem fire_wf {s : State} (wf : s.MemWf) (core cid : Nat) : (fire s core cid).MemWf := by
  unfold fire
  grind [State.MemWf, sysWrite_wf, post_wf]

theorem setCount_wf {s : State} (wf : s.MemWf) (core cid : Nat) (c : Int) : (setCount s core cid c).MemWf := by
  unfold setCount
  exact sysWrite_wf wf ..

theorem countRecord_wf {s : State} (wf : s.MemWf) (core cid : Nat) : (countRecord s core cid).MemWf := by
  unfold countRecord
  grind [State.MemWf, setCount_wf, fire_wf]

theorem countArrival_wf {s u : State} (wf : s.MemWf) {core : Nat} {r : TaskRec} {m : Msg} (h : countArrival s core r m = some u) : u.MemWf := by
  unfold countArrival at h
  split at h
  · exact spillInto_wf wf h
  · cases h
    refine memWf_of_mem ?_ (reply_mem ..)
    split
    · exact wf
    · exact countRecord_wf wf ..

theorem acceptRemote_wf {s u : State} (wf : s.MemWf) {hdr : Word} {regs : Vector Word 8} {src k : Nat} (h : acceptRemote s hdr regs src = some (k, u)) :
    u.MemWf := by
  unfold acceptRemote at h
  dsimp only at h
  split at h
  · cases h; exact wf
  split at h
  · split at h
    · cases h
    · cases h; exact countRecord_wf wf ..
  split at h
  · cases h; exact wf
  · obtain ⟨t, next, eq⟩ := Option.map_eq_some_iff.1 h
    cases eq
    exact acceptNext_wf wf next

theorem bounce_wf {s : State} (wf : s.MemWf) (a : Nat) (h : Word) (reason : Nat) : (bounce s a h reason).MemWf := by
  unfold bounce
  grind [State.MemWf, post_wf, logEvent_mem]

theorem arriveLocal_wf {s u : State} (wf : s.MemWf) {i : Nat} {m : Msg} {hdr : Word} {regs : Vector Word 8} (h : arriveLocal s i m hdr regs = some u) :
    u.MemWf := by
  have dropped := memWf_of_mem wf (dropMsg_mem s i)
  unfold arriveLocal at h
  dsimp only at h
  split at h
  · exact countArrival_wf dropped h
  · obtain ⟨⟨reason, t⟩, accepted, rfl⟩ := Option.map_eq_some_iff.1 h
    refine memWf_of_mem ?_ (reply_mem ..)
    split
    · exact acceptRemote_wf dropped accepted
    · exact bounce_wf (acceptRemote_wf dropped accepted) ..

@[simp] theorem putBar_mem (s : State) (core b : Nat) (x : Barrier) : (putBar s core b x).mem = s.mem := rfl

@[simp] theorem sendArrive_mem (s : State) (src core b : Nat) (child : Option (Nat × Nat)) : (sendArrive s src core b child).mem = s.mem := rfl

@[simp] theorem sendRelease_mem (s : State) (src core b : Nat) : (sendRelease s src core b).mem = s.mem := rfl

@[simp] theorem flip_mem (s : State) (core b : Nat) : (Machine.flip s core b).mem = s.mem := by
  unfold Machine.flip
  exact (foldl_mem _ (fun _ _ => sendRelease_mem ..) _ _).trans (putBar_mem ..)

@[simp] theorem completeBar_mem (s : State) (core b : Nat) : (completeBar s core b).mem = s.mem := by
  unfold completeBar
  grind [putBar_mem, sendArrive_mem, flip_mem]

@[simp] theorem arriveBar_mem (s : State) (core b : Nat) (child : Option (Nat × Nat)) : (arriveBar s core b child).mem = s.mem := by
  unfold arriveBar
  grind [putBar_mem, completeBar_mem]

@[simp] theorem releaseBar_mem (s : State) (core b : Nat) : (releaseBar s core b).mem = s.mem := by
  unfold releaseBar
  grind [flip_mem, putBar_mem, completeBar_mem]

theorem joinTeam_wf {s : State} (wf : s.MemWf) (t : Team) : (joinTeam s t).MemWf := by
  unfold joinTeam
  grind [State.MemWf, clearLowSpan_mem, enterTrap_wf]

theorem endTask_wf {s : State} (wf : s.MemWf) : (endTask s).MemWf := by
  unfold endTask
  grind [State.MemWf, joinTeam_wf, putTeam_mem]

@[simp] theorem rouse_mem (s : State) (core : Nat) : (rouse s core).mem = s.mem := by
  unfold rouse
  grind [putCtx_mem]

theorem postAbort_wf {s : State} (wf : s.MemWf) (m : Motion) (cause : Nat) : (postAbort s m cause).MemWf := by
  unfold postAbort
  grind [State.MemWf, postTo_wf, postRec_wf]

theorem abortActive_wf {s : State} (wf : s.MemWf) (die i cause : Nat) : (abortActive s die i cause).MemWf := by
  unfold abortActive
  grind [State.MemWf, postAbort_wf, putDie_mem]

theorem takeFrame_wf {s u : State} (wf : s.MemWf) {k z n : Nat} (h : takeFrame s k z = some (n, u)) : u.MemWf := by
  unfold takeFrame at h
  split at h
  · cases h
  split at h
  · cases h
  · next base cap head _ _ _ =>
    have kept := sysWrite_wf wf (bits s.dev.mfree 51 6 * 64 + 32 * (2 * k + z) + 12) 4 (head + 1)
    rwa [(Prod.mk.inj (Option.some.inj h)).2] at kept

theorem copyLine_wf {s : State} (wf : s.MemWf) (m : Motion) : (copyLine s m).MemWf := by
  unfold copyLine
  grind [State.MemWf, wrote_mem, setPoison_mem, writeBytes_wf]

@[simp] theorem passForward_mem (s : State) (m : Motion) : (passForward s m).mem = s.mem := fireWhere_mem ..

@[simp] theorem dropTlb_mem (s : State) (p : TlbEntry → Bool) : (dropTlb s p).mem = s.mem := rfl

@[simp] theorem demote_mem (s : State) (frame : Nat) (p : Hot) : (demote s frame p).mem = s.mem := by
  unfold demote
  dsimp only
  repeat' split
  · exact queueMotion_getD_mem ..
  · rfl
  · rfl

@[simp] theorem endOneEpoch_mem (s : State) : (endOneEpoch s).mem = s.mem := by
  unfold endOneEpoch
  split <;> simp [foldl_mem]

@[simp] theorem endEpochs_mem (s : State) (n : Nat) : (endEpochs s n).mem = s.mem := by
  induction n generalizing s with
  | zero => rfl
  | succ n ih =>
    rw [endEpochs, ih]
    exact endOneEpoch_mem s

@[simp] theorem endEpoch_mem (s : State) : (endEpoch s).mem = s.mem := endEpochs_mem ..

theorem pgmoveAt_wf {s : State} (wf : s.MemWf) (k tier : Nat) (p : PageRef) (va : VAddr) : (pgmoveAt s k tier p va).2.MemWf := by
  unfold pgmoveAt
  dsimp only
  split
  · exact wf
  split
  · exact wf
  split
  · exact wf
  split
  · exact wf
  split
  · exact wf
  split
  · exact wf
  · next queued => exact wf_of_seat wf (queueMotion_seat queued)

@[simp] theorem clearHot_mem (s : State) (p : PageRef) : (clearHot s p).mem = s.mem := rfl

theorem mreqBody_wf {s : State} (wf : s.MemWf) (al k : Nat) (a : BitVec 5) (body : State → Payload) : BodyWf (mreqBody al k a body s) := by
  unfold mreqBody
  dsimp only
  split
  · trivial
  split
  · exact wf
  split
  · trivial
  · next landed =>
    split
    · trivial
    split
    · exact wf
    · exact land_wf wf landed

end Sys2Proof.Proofs

/-! SUPPORT. Proofs: the canonical form of memory (O59): control registers, teams, vector memory and the engines. -/

namespace Sys2Proof.Proofs
open Sys2Proof Sys2Proof.Machine Sys2Proof.Laws

@[simp] theorem wakeP2_mem (s : State) : (wakeP2 s).mem = s.mem := by
  unfold wakeP2
  split <;> rfl

@[simp] theorem putLink_mem (s : State) (l : Nat) (x : GLink) : (putLink s l x).mem = s.mem := rfl

@[simp] theorem putLinkReg_mem (s : State) (l : Nat) (v : Word) : (putLinkReg s l v).mem = s.mem := rfl

@[simp] theorem dropLink_mem (s : State) (link : Nat) : (dropLink s link).mem = s.mem := rfl

@[simp] theorem takeLinkDown_mem (s : State) (l : Nat) : (takeLinkDown s l).mem = s.mem := by
  unfold takeLinkDown
  split <;> simp

theorem devPut_wf {s : State} (wf : s.MemWf) (n : Nat) (v : Word) : (devPut s n v).MemWf := by
  have epoch : (if epochDue s then endEpoch s else s).MemWf := wf_ite (memWf_of_mem wf (endEpoch_mem s)) wf
  unfold devPut
  extract_lets d
  refine wf_ite epoch (wf_ite wf (wf_ite ?records (wf_ite ?pointer (wf_ite wf (wf_ite ?tail (wf_ite wf (wf_ite wf (wf_ite wf (wf_ite wf
    (wf_ite wf (wf_ite wf (wf_ite ?link (wf_ite wf wf)))))))))))))
  case records =>
    refine flushRecs_wf ?_ _
    exact wf
  case pointer =>
    refine flushRecs_wf ?_ _
    exact wf
  case tail => exact memWf_of_mem wf (wakeP2_mem _)
  case link => exact wf_ite (memWf_of_mem wf ((takeLinkDown_mem ..).trans (putLinkReg_mem ..))) (memWf_of_mem wf (putLinkReg_mem ..))

@[simp] theorem resumeEngines_mem (s : State) : (resumeEngines s).mem = s.mem := by
  unfold resumeEngines
  grind [putCtx_mem, foldl_mem]

theorem csrPut_wf {s : State} (wf : s.MemWf) (n : Nat) (v : Word) : (csrPut s n v).MemWf := by
  unfold csrPut
  extract_lets c k t setc
  have team : (match myTeam s with
      | some (tm, _) =>
        let s1 := putTeam s s.who (some { tm with err := v })
        if bits tm.err 63 63 = 1 ∧ bits v 63 63 = 0 then resumeEngines s1 else s1
      | none => s).MemWf := by
    split
    · exact wf_ite (memWf_of_mem wf ((resumeEngines_mem _).trans (putTeam_mem ..))) (memWf_of_mem wf (putTeam_mem ..))
    · exact wf
  have set (d : Ctx) : (setc d).MemWf := wf
  iterate 20 refine wf_ite (set _) ?_
  exact wf_ite wf (wf_ite wf (wf_ite wf (wf_ite team (wf_ite wf (devPut_wf wf n v)))))

theorem writeBody_wf {s : State} (wf : s.MemWf) (op n : Nat) (r : BitVec 5) : BodyWf (writeBody op n r s) := by
  unfold writeBody
  extract_lets x new
  split
  · trivial
  split
  · trivial
  · exact wf_ite wf (csrPut_wf wf ..)

theorem devWrite_wf {s : State} (wf : s.MemWf) (n : Nat) (new : Word) : (devWrite s n new).MemWf := by
  unfold devWrite
  grind [State.MemWf, devPut_wf]

theorem tlbinvBody_wf {s : State} (wf : s.MemWf) (check : State → Option Trap) (p : State → TlbEntry → Bool) : BodyWf (tlbinvBody check p s) := by
  unfold tlbinvBody
  split
  · trivial
  split
  · exact wf
  · exact memWf_of_mem wf (dropTlb_mem ..)

theorem inTeam_wf {s : State} (wf : s.MemWf) (fault : Bool) {f : State → Team → Member → Body} (h : ∀ t m, BodyWf (f s t m)) :
    BodyWf (inTeam fault f s) := by
  unfold inTeam
  split
  · trivial
  split
  · exact raise_wf (memWf_of_mem wf (putTeam_mem ..)) _
  · exact h ..

theorem startTeam_wf {s : State} (wf : s.MemWf) (cl : Nat) (entry : Word) (entryAt mask : Nat) (carried : Vector Word 8) :
    (startTeam s cl entry entryAt mask carried).MemWf := by
  unfold startTeam
  exact foldl_wf _ (fun s m wf => wf_ite wf (withFocus_wf wf m.agent fun _ wf => joinTeam_wf wf _)) _ _ wf

@[simp] theorem install_mem (s : State) (t : Team) (n : Nat) : (install s t n).mem = s.mem := by
  simp [install, putCtx_mem, foldl_mem]

theorem passMark_wf {s : State} (wf : s.MemWf) (n : Nat) : BodyWf (passMark s n) := by
  unfold passMark
  split
  · exact wf
  split
  · exact memWf_of_mem wf (putTeam_mem ..)
  · exact wf

@[simp] theorem setHsent_mem (s : State) (v : Bool) : (setHsent s v).mem = s.mem := by
  unfold setHsent
  grind [putTeam_mem]

theorem handReceive_wf {s : State} (wf : s.MemWf) (p : Nat) (b : BitVec 5) (sent : Bool) : BodyWf (handReceive s p b sent) := by
  have marked := memWf_of_mem wf (setHsent_mem s true)
  have stop : BodyWf (if sent then Body.keep (raise (setHsent s true) { code := 0x22 }) else .trap { code := 0x22 }) := by
    split
    · exact raise_wf marked _
    · trivial
  unfold handReceive
  split
  · trivial
  dsimp only
  split
  · split
    · exact stop
    · change State.MemWf (if _ then _ else _)
      split
      · exact marked
      · exact wf
  split
  · exact stop
  · exact memWf_of_mem wf ((setHsent_mem ..).trans ((wr_mem ..).trans (putTeam_mem ..)))

theorem leaveRealign_wf {s : State} (wf : s.MemWf) (a : Nat) : (leaveRealign s a).MemWf := by
  refine withFocus_wf wf a fun s wf => ?_
  extract_lets left
  have left_wf : left.MemWf := by
    unfold left
    repeat' split
    · exact memWf_of_mem wf (putTeam_mem ..)
    · exact wf
    · exact wf
  clear_value left
  split
  · exact retire_wf left_wf 4 _ (by exact left_wf)
  · exact left_wf

theorem settleRealign_wf {s : State} (wf : s.MemWf) (a : Nat) : (settleRealign s a).MemWf := by
  unfold settleRealign
  split
  · exact wf
  · exact foldl_wf _ (fun _ _ wf => leaveRealign_wf wf _) _ _ wf

theorem leaveTeam_wf {s : State} (wf : s.MemWf) (t : Team) (m : Member) : (leaveTeam s t m).MemWf := by
  unfold leaveTeam
  grind [State.MemWf, putTeam_mem, settleRealign_wf]

theorem raiseStream_wf {s : State} (wf : s.MemWf) (t : Trap) : (raiseStream s t).MemWf := by
  unfold raiseStream
  grind [State.MemWf, raise_wf]

theorem landAll_wf {s u : State} (wf : s.MemWf) {al k : Nat} {es : List Word} {ls : List (Word × Landing)} (h : landAll s al k es = .ok (ls, u)) :
    u.MemWf := wf_of_seat wf (landAll_seat h)

theorem loads_body_wf {s : State} (wf : s.MemWf) {l : Loads} (loads : LoadsWf l) {go : List (List Byte) → State → Body}
    (h : ∀ vs t, t.MemWf → BodyWf (go vs t)) : BodyWf (l.body s go) := by
  cases l with
  | vals vs t => exact h vs t loads
  | stall => exact wf
  | host at1 va => exact wf
  | bad t u => exact raise_wf loads t

theorem loadAll_wf {s : State} (wf : s.MemWf) (n : Nat) (ls : List (Word × Landing)) : LoadsWf (loadAll s n ls) := by
  induction ls generalizing s with
  | nil => exact wf
  | cons p t ih =>
    obtain ⟨e, l⟩ := p
    have counted := memWf_of_mem wf (countHot_mem s l.loc (coreOf s.who) l.leaf)
    have rest := ih counted
    rw [loadAll]
    split
    · trivial
    · exact counted
    · split
      · trivial
      · split
        · next eq => rw [eq] at rest; exact rest
        · exact rest
    · split
      · next eq => rw [eq] at rest; exact rest
      · exact rest

@[simp] theorem pushAll_mem (s : State) (ordered : Bool) (l : List (Landing × List Byte × Bool)) : (pushAll s ordered l).mem = s.mem := by
  induction l generalizing s with
  | nil => rfl
  | cons p t ih => exact (ih _).trans (pushEntry_mem ..)

@[simp] theorem takeReply_mem (s : State) (a key : Nat) : (takeReply s a key).mem = s.mem := putCtx_mem ..

@[simp] theorem unmade_mem (s0 s : State) : (unmade s0 s).mem = s.mem := rfl

@[simp] theorem markHeld_mem (s : State) (a key : Nat) (held : Bool) : (markHeld s a key held).mem = s.mem := by
  unfold markHeld
  grind [putCtx_mem]

/-- Every state that a turn of an engine hands on is in canonical form. -/
def EngTurnWf : EngTurn → Prop
  | .go s => s.MemWf
  | .fail s => s.MemWf
  | .hold => True

/-- The same of the landing of one address. -/
def EngLandWf : EngLand → Prop
  | .ok _ _ s => s.MemWf
  | .fail s => s.MemWf
  | .hold s => s.MemWf

/-- The same of the landings of a list of addresses. -/
def EngLandsWf : EngLands → Prop
  | .ok _ s => s.MemWf
  | .fail s => s.MemWf
  | .hold s => s.MemWf

/-- The same of the reads of an engine. -/
def EngReadWf : EngRead → Prop
  | .ok _ _ s => s.MemWf
  | .fail s => s.MemWf
  | .hold s => s.MemWf

theorem engTurn_wf {s : State} (wf : s.MemWf) (a key : Nat) : EngTurnWf (engTurn s a key) := by
  have taken := memWf_of_mem wf (takeReply_mem s a key)
  unfold engTurn
  dsimp only
  split
  · exact taken
  · exact taken
  · split
    · trivial
    · exact wf

theorem engFaulted_wf {s : State} (wf : s.MemWf) (a key : Nat) (t : Trap) : EngLandWf (engFaulted s a key t) := by
  have touched := memWf_of_mem wf (replyTouch_mem s a true 1)
  unfold engFaulted
  split
  · exact wf
  split
  · exact wf
  split
  · split
    · next write => exact memWf_of_mem (wf_of_serveWrite touched write) ((putCtx_mem ..).trans (sendRecord_mem ..))
    · exact touched
  · exact touched
  · exact wf

@[simp] theorem keepRow_mem (s : State) (u : EngUnit) (loc : Nat) : (keepRow s u loc).mem = s.mem := by
  unfold keepRow
  grind []

theorem engLand_wf {s : State} (wf : s.MemWf) (u : EngUnit) (a : Nat) (high : BitVec 16) (e : Word) (k : Nat) : EngLandWf (engLand s u a high e k) := by
  have turn := engTurn_wf wf a u.key
  unfold engLand
  extract_lets va
  split
  · exact wf
  · next eq => rw [eq] at turn; exact memWf_of_mem turn (markHeld_mem ..)
  · next s1 eq =>
    rw [eq] at turn
    have marked : (markHeld s1 a u.key false).MemWf := memWf_of_mem turn (markHeld_mem ..)
    have done_wf {p : Prop} [Decidable p] {t : State} (wf : t.MemWf) (loc leaf : Nat) :
        EngLandWf (if p then .hold t else .ok loc leaf (keepRow t u loc)) := of_ite EngLandWf wf (memWf_of_mem wf (keepRow_mem ..))
    split
    · exact of_ite EngLandWf marked (done_wf marked _ _)
    rcases landed : Machine.translate (markHeld s1 a u.key false) (coreOf a) (getCtx (markHeld s1 a u.key false) a).troot va k
      with fault | ⟨entry, t⟩ <;> simp only [landed]
    · have faulted := engFaulted_wf (memWf_of_mem marked (refreshFor_mem _ a fault)) a u.key fault
      refine of_ite EngLandWf marked ?_
      split
      · next eq => rw [eq] at faulted; exact memWf_of_mem faulted (markHeld_mem ..)
      · exact faulted
    · have at1 := translate_wf marked landed
      exact of_ite EngLandWf at1 (done_wf at1 _ _)

@[simp] theorem wantWord_mem (s : State) (a key loc : Nat) : (wantWord s a key loc).mem = s.mem := by
  unfold wantWord
  grind [putCtx_mem]

@[simp] theorem dropWords_mem (s : State) (a key : Nat) : (dropWords s a key).mem = s.mem := by
  unfold dropWords
  grind [putCtx_mem]

theorem engReadPieces_wf {s : State} (wf : s.MemWf) (u : EngUnit) (a : Nat) (high : BitVec 16) (l : List (Nat × Nat)) :
    EngReadWf (engReadPieces s u a high l) := by
  induction l generalizing s with
  | nil => exact wf
  | cons p t ih =>
    obtain ⟨e, n⟩ := p
    have landed := engLand_wf wf u a high (BitVec.ofNat 64 e) 4
    have join {s : State} (wf : s.MemWf) (d : List Byte) (b : Nat) : EngReadWf (match engReadPieces s u a high t with
        | .ok d' b' s2 => EngRead.ok (d ++ d') (List.replicate n b ++ b') s2
        | x => x) := by
      have rest := ih wf
      split
      · next eq => rw [eq] at rest; exact rest
      · exact rest
    rw [engReadPieces]
    split
    · next eq => rw [eq] at landed; exact landed
    · next eq => rw [eq] at landed; exact landed
    · next loc leaf s1 eq =>
      rw [eq] at landed
      have counted : (countHot s1 loc u.place leaf).MemWf := memWf_of_mem landed (countHot_mem ..)
      dsimp only
      split
      · split
        · exact memWf_of_mem landed (wantWord_mem ..)
        · split
          · exact landed
          · exact join landed _ _
      · split
        · exact join counted _ _
        · exact join counted _ _

theorem engRead_wf {s : State} (wf : s.MemWf) (u : EngUnit) (a : Nat) (high : BitVec 16) (e : Word) (n : Nat) : EngReadWf (engRead s u a high e n) :=
  engReadPieces_wf wf ..

theorem engWritePieces_wf {s : State} (wf : s.MemWf) (u : EngUnit) (a : Nat) (high : BitVec 16) (l : List (Nat × Nat)) (d : List Byte) :
    EngLandsWf (engWritePieces s u a high l d) := by
  induction l generalizing s d with
  | nil => exact wf
  | cons p t ih =>
    obtain ⟨e, n⟩ := p
    have landed := engLand_wf wf u a high (BitVec.ofNat 64 e) 5
    rw [engWritePieces]
    split
    · next eq => rw [eq] at landed; exact landed
    · next eq => rw [eq] at landed; exact landed
    · next eq =>
      rw [eq] at landed
      have rest := ih (show State.MemWf _ from landed) (d.drop n)
      split
      · next eq' => rw [eq'] at rest; exact rest
      · exact rest

theorem engLands_wf {s : State} (wf : s.MemWf) (u : EngUnit) (a : Nat) (high : BitVec 16) (l : List (Word × List Byte)) :
    EngLandsWf (engLands s u a high l) := by
  induction l generalizing s with
  | nil => exact wf
  | cons p t ih =>
    obtain ⟨e, d⟩ := p
    have landed := engWritePieces_wf wf u a high (linePieces d.length e.toNat d.length) d
    rw [engLands]
    split
    · next eq =>
      rw [eq] at landed
      have rest := ih (show State.MemWf _ from landed)
      split
      · next eq' => rw [eq'] at rest; exact rest
      · exact rest
    · exact landed

theorem engServe_wf {s : State} (wf : s.MemWf) (core loc leaf : Nat) (d : List Byte) : (engServe s core loc leaf d).2.MemWf := by
  unfold engServe
  split
  · exact wf
  · exact serveWrite_wf (memWf_of_mem wf (countHot_mem ..)) ..

@[simp] theorem mover_note_st (m : Mover) (e : Nat) : (m.note e).st = m.st := by
  unfold Mover.note
  split <;> rfl

theorem writePacket_wf {m : Mover} (wf : m.st.MemWf) (core : Nat) (p : Packet) : (writePacket core m p).st.MemWf := by
  have noted (e : Nat) : (m.note e).st.MemWf := by rw [mover_note_st]; exact wf
  have served := engServe_wf wf core p.loc p.leaf p.data
  unfold writePacket
  split
  · exact of_ite (fun m : Mover => m.st.MemWf) (noted _) (memWf_of_mem (noted _) ((poisonWrite_mem ..).trans (countHot_mem ..)))
  · refine of_ite (fun m : Mover => m.st.MemWf) served (of_ite (fun m : Mover => m.st.MemWf) ?_ ?_)
    · rw [mover_note_st]; exact served
    · change (Mover.st (Mover.note _ _)).MemWf
      rw [mover_note_st]
      exact served

theorem foldl_mover_wf {β : Type} {f : Mover → β → Mover} (h : ∀ m x, m.st.MemWf → (f m x).st.MemWf) (l : List β) {m : Mover} (wf : m.st.MemWf) :
    (l.foldl f m).st.MemWf := by
  induction l generalizing m with
  | nil => exact wf
  | cons x t ih => exact ih (h m x wf)

theorem flush_wf {m : Mover} (wf : m.st.MemWf) (core : Nat) : (flush core m).st.MemWf :=
  foldl_mover_wf (fun _ p wf => writePacket_wf wf core p) m.pend wf

theorem addPacket_wf {m : Mover} (wf : m.st.MemWf) (core : Nat) (p : Packet) : (addPacket core m p).st.MemWf := by
  have room : (if m.pend.any p.meets || decide (32 ≤ m.pend.length) then flush core m else m).st.MemWf := by
    split
    · exact flush_wf wf core
    · exact wf
  unfold addPacket
  dsimp only
  split <;> exact room

theorem accElem_wf {m : Mover} (wf : m.st.MemWf) (core op ty : Nat) (p : Packet) : (accElem core op ty m p).st.MemWf := by
  have counted := memWf_of_mem wf (countHot_mem m.st p.loc core p.leaf)
  unfold accElem
  split
  · rw [mover_note_st]; exact wf
  · rw [mover_note_st]; exact wf
  split
  · exact writePacket_wf wf core p
  split
  · exact writePacket_wf wf core _
  · exact counted
  · exact counted

/-- Every mover that an element hands on has a state in canonical form. -/
def MovedWf : Moved → Prop
  | .ok m => m.st.MemWf
  | .hold m => m.st.MemWf
  | .stop m => m.st.MemWf

theorem readsOf_wf {s : State} (wf : s.MemWf) (u : EngUnit) (a : Nat) (high : BitVec 16) (l : List (Word × Nat)) :
    EngReadWf (readsOf s u a high l) := by
  induction l generalizing s with
  | nil => exact wf
  | cons p t ih =>
    obtain ⟨e, n⟩ := p
    have read := engRead_wf wf u a high e n
    rw [readsOf]
    split
    · next eq =>
      rw [eq] at read
      have rest := ih (show State.MemWf _ from read)
      split
      · next eq' => rw [eq'] at rest; exact rest
      · exact rest
    · exact read

theorem held_wf {m : Mover} (wf : m.st.MemWf) (core : Nat) : MovedWf (.held core m) := by
  unfold Moved.held
  dsimp only
  split <;> exact flush_wf wf core

/-- A mover that stops behind a flush, with or without a cause. -/
theorem stopped_wf {m : Mover} (wf : m.st.MemWf) (core e : Nat) : MovedWf (.stop ({ flush core m with stop := true }.note e)) := by
  change (Mover.st (Mover.note _ _)).MemWf
  rw [mover_note_st]
  exact flush_wf wf core

theorem moveElem_wf {m : Mover} (wf : m.st.MemWf) (u : EngUnit) (a : Nat) (high : BitVec 16) (w3 : Word) (s0 : State) (e : Elem) :
    MovedWf (moveElem u a high w3 s0 m e) := by
  unfold moveElem
  extract_lets core r
  have read : EngReadWf r := by
    unfold r
    split
    · exact wf
    · exact readsOf_wf wf ..
  clear_value r
  cases r with
  | fail s => exact stopped_wf (m := { m with st := s }) read ..
  | hold s => exact held_wf (m := { m with st := unmade s0 s }) read _
  | ok d bad s =>
    have landed := engLands_wf (show s.MemWf from read) u a high (mcast w3 (splitData e.writes d))
    dsimp only
    cases lands : engLands s u a high (mcast w3 (splitData e.writes d)) with
    | fail s1 => rw [lands] at landed; exact stopped_wf (m := { m with st := s1 }) landed ..
    | hold s1 => rw [lands] at landed; exact held_wf (m := { m with st := unmade s0 s1 }) landed _
    | ok l s1 =>
      rw [lands] at landed
      have dropped : (dropWords s1 a u.key).MemWf := memWf_of_mem landed (dropWords_mem ..)
      dsimp only
      split
      · have flushed : (flush (coreOf a) { m with st := dropWords s1 a u.key }).st.MemWf := flush_wf dropped _
        change (Mover.st (Mover.note _ _)).MemWf
        rw [mover_note_st]
        split
        · exact flushed
        · rw [mover_note_st]; exact flushed
      · have moved {l : List Packet} : (l.foldl (fun m p => if w3Op w3 = 1 then (if m.stop then m else accElem (coreOf a) (w3AccOp w3) (w3AccTy w3) m p)
            else addPacket (coreOf a) m p) { m with st := dropWords s1 a u.key }).st.MemWf := by
          refine foldl_mover_wf (fun m p wf => ?_) l dropped
          split
          · split
            · exact wf
            · exact accElem_wf wf ..
          · exact addPacket_wf wf ..
        exact of_ite MovedWf (flush_wf moved _) moved

theorem ranOut_wf {m : Mover} (wf : m.st.MemWf) (core pos : Nat) (atEnd : Bool) : (ranOut core m pos atEnd).m.st.MemWf := flush_wf wf core

theorem moveInline_wf {m : Mover} (wf : m.st.MemWf) (u : EngUnit) (c : Copy) (len pos left : Nat) : (moveInline u c len m pos left).m.st.MemWf := by
  induction left generalizing m pos with
  | zero => exact ranOut_wf wf ..
  | succ left ih =>
    have moved := moveElem_wf wf u c.ctx c.high c.w3 m.st (inlineElem c pos (inlineStep c pos len))
    rw [moveInline]
    split
    · exact ranOut_wf wf ..
    dsimp only
    split
    · next eq => rw [eq] at moved; exact ih moved _
    · next eq => rw [eq] at moved; exact moved
    · next eq => rw [eq] at moved; exact moved

theorem moveShape_wf {m : Mover} (wf : m.st.MemWf) (u : EngUnit) (d : Desc) (c : Copy) (pos left : Nat) : (moveShape u d c m pos left).m.st.MemWf := by
  induction left generalizing m pos with
  | zero => exact ranOut_wf wf ..
  | succ left ih =>
    rw [moveShape]
    extract_lets r
    split
    · exact ranOut_wf wf ..
    have read : EngReadWf r := by
      unfold r
      split
      · exact wf
      · exact engRead_wf wf ..
    clear_value r
    cases r with
    | fail s =>
      change (Mover.st (Mover.note _ _)).MemWf
      rw [mover_note_st]
      exact flush_wf (m := { m with st := s }) read _
    | hold s => exact ranOut_wf (m := { m with st := unmade m.st s }) read ..
    | ok b bad s =>
      dsimp only
      split
      · change (Mover.st (Mover.note _ _)).MemWf
        rw [mover_note_st]
        exact flush_wf (m := { m with st := s }) read _
      · have moved := moveElem_wf (m := { m with st := s }) read u c.ctx c.high c.w3 m.st (shapeElem d c pos (signed (8 * d.isize) (fromBytes b)))
        split
        · next eq => rw [eq] at moved; exact ih moved _
        · next eq => rw [eq] at moved; exact moved
        · next eq => rw [eq] at moved; exact moved

end Sys2Proof.Proofs

/-! SUPPORT. Proofs: the canonical form of memory (O59): copies, the tree, axis arrays and the axis unit. -/

namespace Sys2Proof.Proofs
open Sys2Proof Sys2Proof.Machine Sys2Proof.Laws

/-- Every state that a token of a compressed stream hands on is in canonical form. -/
def TokenWf : Token → Prop
  | .go _ s => s.MemWf
  | .hold s => s.MemWf
  | .stop _ s => s.MemWf

theorem nextToken_wf {s : State} (wf : s.MemWf) (u : EngUnit) (c : Copy) (len : Nat) (x : Unpack) : TokenWf (nextToken u c len x s) := by
  have read {s : State} (wf : s.MemWf) (o k : Nat) := engRead_wf wf u c.ctx c.high (c.w0 + BitVec.ofNat 64 o) k
  unfold nextToken
  extract_lets n at1 get rest k s0 y
  split
  · have first := read wf x.src k
    split
    · next eq => rw [show engRead s u c.ctx c.high _ k = _ from eq] at first; exact first
    · next eq => rw [show engRead s u c.ctx c.high _ k = _ from eq] at first; exact first
    · next eq => rw [show engRead s u c.ctx c.high _ k = _ from eq] at first; exact first
  · have first := read wf x.src 1
    split
    · next eq => rw [show engRead s u c.ctx c.high _ 1 = _ from eq] at first; exact first
    · next eq => rw [show engRead s u c.ctx c.high _ 1 = _ from eq] at first; exact first
    · next s1 eq =>
      rw [show engRead s u c.ctx c.high _ 1 = _ from eq] at first
      have second := read (show s1.MemWf from first) (x.src + 1) 2
      refine of_ite TokenWf first (of_ite TokenWf first (of_ite TokenWf first ?_))
      split
      · next eq => rw [show engRead s1 u c.ctx c.high _ 2 = _ from eq] at second; exact second
      · next eq => rw [show engRead s1 u c.ctx c.high _ 2 = _ from eq] at second; exact second
      · next eq =>
        rw [show engRead s1 u c.ctx c.high _ 2 = _ from eq] at second
        exact of_ite TokenWf second (of_ite TokenWf (of_ite TokenWf second second) (of_ite TokenWf second second))

@[simp] theorem settleRow_mem (s : State) (c : Copy) : (settleRow s c).mem = s.mem := by
  unfold settleRow
  grind []

/-- Every state that the write of a notice hands on is in canonical form. -/
def NotifiedWf : Notified → Prop
  | .ok s => s.MemWf
  | .hold s => s.MemWf
  | .fail s => s.MemWf

theorem writeNotify_wf {s : State} (wf : s.MemWf) (u : EngUnit) (c : Copy) (addr : Word) (v : Nat) : NotifiedWf (writeNotify s u c addr v) := by
  unfold writeNotify
  split
  · exact wf
  · extract_lets va same ws
    have landed := engLands_wf wf u c.ctx c.high ws
    split
    · next l s1 eq =>
      rw [eq] at landed
      refine List.foldlRecOn (motive := NotifiedWf) l _ landed fun acc acc_wf x _ => ?_
      split
      · next t =>
        have served := engServe_wf (show t.MemWf from acc_wf) u.place x.1 x.2.1 x.2.2
        split
        · next eq => rw [eq] at served; exact served
        · next eq => rw [eq] at served; exact served
      · exact acc_wf
    · next eq => rw [eq] at landed; exact landed
    · next eq => rw [eq] at landed; exact landed

theorem finishRun_wf {r : RunResult} (wf : r.m.st.MemWf) (u : EngUnit) (c : Copy) (notify : Option (Word × Nat)) : (finishRun u c r notify).2.MemWf := by
  have done {s : State} (wf : s.MemWf) (c : Copy) : (dropWords (settleRow s c) c.ctx u.key).MemWf :=
    memWf_of_mem wf ((dropWords_mem ..).trans (settleRow_mem ..))
  unfold finishRun
  extract_lets c1 finish
  split
  · exact wf
  split
  · exact done wf _
  · next addr v _ =>
    have notified := writeNotify_wf wf u c1 addr v
    split
    · next eq => rw [eq] at notified; exact done notified _
    · next eq => rw [eq] at notified; exact notified
    · next eq => rw [eq] at notified; exact done notified _

theorem writePart_wf {m : Mover} (wf : m.st.MemWf) (u : EngUnit) (c : Copy) (x : Unpack) (k : Nat) : MovedWf (writePart u c m x k).1 := by
  unfold writePart
  extract_lets p
  have landed := engLands_wf wf u c.ctx c.high [(c.w1 + BitVec.ofNat 64 x.out.length, p.map fun b => BitVec.ofNat 8 b.1)]
  split
  · next s eq => rw [eq] at landed; exact stopped_wf (m := { m with st := s }) landed ..
  · next s eq => rw [eq] at landed; exact held_wf (m := { m with st := unmade m.st s }) landed _
  · next l s eq =>
    rw [eq] at landed
    have moved {q : List Packet} : (q.foldl (addPacket (coreOf c.ctx)) { m with st := dropWords s c.ctx u.key }).st.MemWf :=
      foldl_mover_wf (fun _ _ wf => addPacket_wf wf ..) q (memWf_of_mem landed (dropWords_mem ..))
    exact of_ite MovedWf (flush_wf moved _) moved

theorem endStream_wf {m : Mover} (wf : m.st.MemWf) (u : EngUnit) (c : Copy) (x : Unpack) (cause : Nat) : (endStream u c m x cause).1.m.st.MemWf := by
  have noted {m : Mover} (wf : m.st.MemWf) : (m.note cause).st.MemWf := by rw [mover_note_st]; exact wf
  have written := writePart_wf wf u c x x.todo.length
  unfold endStream
  split
  · exact noted (flush_wf wf _)
  · split
    · next eq => rw [eq] at written; exact written
    · next eq => rw [eq] at written; exact noted written
    · next eq => rw [eq] at written; exact noted (flush_wf written _)

theorem decompress_wf {m : Mover} (wf : m.st.MemWf) (u : EngUnit) (c : Copy) (len fuel : Nat) (x : Unpack) : (decompress u c len fuel m x).1.m.st.MemWf := by
  induction fuel generalizing m x with
  | zero => exact ranOut_wf wf ..
  | succ fuel ih =>
    rw [decompress]
    split
    · exact ranOut_wf wf ..
    split
    · have written := writePart_wf wf u c x (inlineStep c x.out.length len)
      split
      · next eq => rw [eq] at written; exact ih written _
      · next eq => rw [eq] at written; exact written
      · next eq => rw [eq] at written; exact written
    · have token := nextToken_wf wf u c len x
      split
      · next y s eq => rw [eq] at token; exact ih (m := { m with st := s }) token _
      · next s eq => rw [eq] at token; exact ranOut_wf (m := { m with st := s }) token ..
      · next cause s eq => rw [eq] at token; exact endStream_wf (m := { m with st := s }) token ..

theorem runCopy_wf {s : State} (wf : s.MemWf) (tile : Nat) (c : Copy) : (runCopy s tile c).2.MemWf := by
  unfold runCopy
  extract_lets u m len c1 r d ends
  split
  · split
    · split
      · exact wf
      split
      · exact wf
      · exact wf
    split
    · exact finishRun_wf (decompress_wf wf ..) ..
    · exact finishRun_wf (moveInline_wf wf ..) ..
  · have read : EngReadWf d := of_ite EngReadWf (engRead_wf wf ..) wf
    clear_value d
    have ends_wf {s : State} (wf : s.MemWf) (e : Nat) : (ends e s).2.MemWf := finishRun_wf (r := ⟨{ st := s, err := e }, _, _, _⟩) wf ..
    cases d with
    | fail s => exact ends_wf read _
    | hold s => exact read
    | ok b bad s =>
      have dropped : (if c.desc.isEmpty then dropWords s c.ctx u.key else s).MemWf := wf_ite (memWf_of_mem read (dropWords_mem ..)) read
      exact of_ite (fun r : Copy × State => r.2.MemWf) (ends_wf read _) (of_ite (fun r : Copy × State => r.2.MemWf) (ends_wf read _)
        (finishRun_wf (moveShape_wf (m := { m with st := _ }) dropped ..) ..))

theorem copyBody_wf {s : State} (wf : s.MemWf) {full : State → Body} (h : BodyWf (full s)) (d a : BitVec 5) : BodyWf (copyBody full d a s) := by
  unfold copyBody
  dsimp only
  split
  · trivial
  split
  · exact h
  · exact memWf_of_mem wf ((wr_mem ..).trans (putMyCore_mem ..))

theorem copyTest_wf {s : State} {wait hit : State → Body} (hw : BodyWf (wait s)) (hh : BodyWf (hit s)) (a : BitVec 5) :
    BodyWf (copyTest a wait hit s) := by
  unfold copyTest
  extract_lets i ch seq c last e
  clear_value last
  exact of_ite BodyWf trivial (of_ite BodyWf trivial (of_ite BodyWf hw (of_ite BodyWf trivial hh)))

@[simp] theorem forgetStream_mem (s : State) (n : Nat) : (forgetStream s n).mem = s.mem := putCtx_mem ..

@[simp] theorem pushSend_mem (s : State) (h : Word) (d : BitVec 5) (ordered : Bool) : (pushSend s h d ordered).mem = s.mem := rfl

@[simp] theorem settleRoot_mem (s : State) (n : Nat) : (settleRoot s n).mem = s.mem := by
  induction n generalizing s with
  | zero => rfl
  | succ n ih =>
    unfold settleRoot
    split
    · rfl
    · exact ih _

@[simp] theorem settleDie_mem (s : State) (die n : Nat) : (settleDie s die n).mem = s.mem := by
  induction n generalizing s with
  | zero => rfl
  | succ n ih =>
    unfold settleDie
    split
    · rfl
    · refine (ih _).trans ?_
      split <;> rfl

@[simp] theorem settleNode_mem (s : State) (cl n : Nat) : (settleNode s cl n).mem = s.mem := by
  induction n generalizing s with
  | zero => rfl
  | succ n ih =>
    unfold settleNode
    extract_lets d
    split
    · rfl
    · refine (ih _).trans ?_
      split <;> rfl

@[simp] theorem settlePass_mem (s : State) : (settlePass s).mem = s.mem := by
  unfold settlePass
  rw [settleRoot_mem, foldl_mem _ fun _ _ => settleDie_mem .., foldl_mem _ fun _ _ => settleNode_mem ..]

@[simp] theorem settle_mem (s : State) (n : Nat) : (settle s n).mem = s.mem := by
  induction n generalizing s with
  | zero => rfl
  | succ n ih =>
    unfold settle
    rw [ih, settlePass_mem]

@[simp] theorem putArr_mem (s : State) (a : AxArray) : (putArr s a).mem = s.mem := rfl

@[simp] theorem startWave_mem (s : State) (a : AxArray) : (startWave s a).mem = s.mem := by
  unfold startWave
  split <;> rfl

/-- Every state that reads of lines hand on is in canonical form. -/
def LineReadsWf : LineReads → Prop
  | .ok _ _ s => s.MemWf
  | .fail s => s.MemWf
  | .hold s => s.MemWf

theorem readLines_wf {s : State} (wf : s.MemWf) (u : EngUnit) (a : AxArray) (l : List Nat) : LineReadsWf (readLines u a s l) := by
  induction l generalizing s with
  | nil => exact wf
  | cons x t ih =>
    have next_wf {s : State} (wf : s.MemWf) (d : List Byte) (bad : Bool) : LineReadsWf (match readLines u a s t with
        | .ok l b s => .ok ((x, d) :: l) (b || bad) s
        | r => r) := by
      have rest := ih wf
      split
      · next eq => rw [eq] at rest; exact rest
      · exact rest
    rw [readLines]
    split
    · exact of_ite LineReadsWf (next_wf wf _ _) wf
    · next e _ =>
      have read := engRead_wf wf u a.who a.high e 64
      split
      · next eq => rw [eq] at read; exact read
      · next eq => rw [eq] at read; exact read
      · next eq => rw [eq] at read; exact of_ite LineReadsWf read (next_wf read _ _)

theorem landLines_wf {s : State} (wf : s.MemWf) (u : EngUnit) (a : AxArray) (l : List Nat) : EngLandsWf (landLines u a s l) := by
  induction l generalizing s with
  | nil => exact wf
  | cons x t ih =>
    have next_wf {s : State} (wf : s.MemWf) (loc leaf : Nat) : EngLandsWf (match landLines u a s t with
        | .ok l s => .ok ((loc, leaf, []) :: l) s
        | r => r) := by
      have rest := ih wf
      split
      · next eq => rw [eq] at rest; exact rest
      · exact rest
    rw [landLines]
    split
    · exact of_ite EngLandsWf (next_wf wf _ _) wf
    · next e _ =>
      have landed := engLand_wf wf u a.who a.high e 5
      split
      · next eq => rw [eq] at landed; exact landed
      · next eq => rw [eq] at landed; exact landed
      · next eq => rw [eq] at landed; exact next_wf landed _ _

@[simp] theorem stopWave_mem (s : State) (a : AxArray) : (stopWave s a).mem = s.mem := by
  simp [stopWave, putCtx_mem]

theorem exchangeSet_wf {s : State} (wf : s.MemWf) (a : AxArray) (q g : Nat) : (exchangeSet s a q g).MemWf := by
  unfold exchangeSet
  extract_lets c u
  split
  · exact wf
  · next x _ =>
    extract_lets lines
    have read := readLines_wf wf u a lines
    split
    · next eq => rw [eq] at read; exact read
    · next eq => rw [eq] at read; exact memWf_of_mem read (stopWave_mem ..)
    · next s1 eq =>
      rw [eq] at read
      have landed := landLines_wf (show s1.MemWf from read) u a lines
      split
      · next eq => rw [eq] at landed; exact landed
      · next eq => rw [eq] at landed; exact memWf_of_mem landed (stopWave_mem ..)
      · next ls s2 eq =>
        rw [eq] at landed
        refine memWf_of_mem (foldl_wf _ (fun t p wf => ?_) (lines.zip ls) _ (memWf_of_mem landed (dropWords_mem ..))) (putArr_mem ..)
        exact wf_ite (memWf_of_mem (engServe_wf wf ..) (poisonWrite_mem ..)) (engServe_wf wf ..)

theorem landImage_wf {s u : State} (wf : s.MemWf) {al : Nat} {es : List (Nat × Nat)} {ls : List (Nat × Word × Landing)}
    (h : landImage s al es = .ok (ls, u)) : u.MemWf := wf_of_seat wf (landImage_seat h)

theorem readImage_wf {s : State} (wf : s.MemWf) (ls : List (Nat × Word × Landing)) : LoadsWf (readImage s ls) := by
  induction ls generalizing s with
  | nil => exact wf
  | cons p t ih =>
    obtain ⟨n, p⟩ := p
    have read := loadAll_wf wf n [p]
    rw [readImage]
    split
    · next eq =>
      rw [eq] at read
      have rest := ih (show State.MemWf _ from read)
      split
      · next eq' => rw [eq'] at rest; exact rest
      · exact rest
    · exact read

theorem withImage_wf {s : State} (wf : s.MemWf) (ea : Word) (n al : Nat) (limit : Landing → Option Trap) {f : List Byte → State → Body}
    (h : ∀ img t, t.MemWf → BodyWf (f img t)) : BodyWf (withImage ea n al limit s f) := by
  unfold withImage
  split
  · trivial
  · next landed =>
    have at1 := landImage_wf wf landed
    split
    · exact raise_wf at1 _
    · refine loads_body_wf wf (readImage_wf at1 _) fun vs t wf => ?_
      have body := h (vs.headD []) t wf
      split
      · exact raise_wf wf _
      · exact body

theorem defineArray_wf {s : State} (wf : s.MemWf) (d b : BitVec 5) (img : List Byte) : BodyWf (defineArray d b img s) := by
  unfold defineArray
  split
  · trivial
  · extract_lets a
    exact of_ite BodyWf trivial (of_ite BodyWf wf (of_ite BodyWf wf wf))

theorem withArray_wf {s : State} {f : AxArray → Body} (h : ∀ a, BodyWf (f a)) (r : BitVec 5) : BodyWf (withArray r s f) := by
  unfold withArray
  split
  · trivial
  · exact of_ite BodyWf trivial (h _)

theorem afterWave_wf {s : State} (wf : s.MemWf) (a : AxArray) {b : Body} (h : BodyWf b) : BodyWf (afterWave a s b) :=
  of_ite BodyWf (memWf_of_mem wf (startWave_mem ..)) h

theorem installMap_wf {s : State} (wf : s.MemWf) (d : BitVec 5) (a : AxArray) (img : List Byte) : BodyWf (installMap d a img s) :=
  of_ite BodyWf trivial (afterWave_wf wf a (memWf_of_mem wf ((wr_mem ..).trans (putArr_mem ..))))

theorem needThen_wf {s : State} (wf : s.MemWf) (x : AxArray) (named : List Nat) {f : Bool → AxArray → State → Body}
    (h : ∀ b a t, t.MemWf → BodyWf (f b a t)) : BodyWf (needThen x named s f) :=
  of_ite BodyWf (memWf_of_mem wf (startWave_mem ..)) (h _ _ _ (memWf_of_mem wf (putArr_mem ..)))

@[simp] theorem acceptReq_mem (s : State) (r : AxReq) : (acceptReq s r).mem = s.mem := rfl

@[simp] theorem drainTouch_mem (s : State) (c : FmtCtx) : (drainTouch s c).mem = s.mem := by
  unfold drainTouch
  split <;> simp

theorem axisTest_wf {s : State} {wait hit : State → Body} (hw : BodyWf (wait s)) (hh : BodyWf (hit s)) (a : BitVec 5) :
    BodyWf (axisTest a wait hit s) := by
  unfold axisTest
  extract_lets i seq c last
  clear_value last
  exact of_ite BodyWf trivial (of_ite BodyWf trivial (of_ite BodyWf hw (of_ite BodyWf trivial hh)))

/-- Every state that reads of elements hand on is in canonical form. -/
def ElemReadsWf : ElemReads → Prop
  | .ok _ s => s.MemWf
  | .fail _ s => s.MemWf
  | .hold s => s.MemWf

/-- The same of the results of an application. -/
def ApAllWf : ApAll → Prop
  | .ok _ _ s => s.MemWf
  | .fail _ s => s.MemWf
  | .hold s => s.MemWf

theorem readElems_wf {s : State} (wf : s.MemWf) (u : EngUnit) (r : AxReq) (a : AxArray) (l : List Nat) : ElemReadsWf (readElems u r a s l) := by
  induction l generalizing s with
  | nil => exact wf
  | cons x t ih =>
    have next_wf {s : State} (wf : s.MemWf) (v bad : Nat) : ElemReadsWf (match readElems u r a s t with
        | .ok l s => .ok ((v, bad) :: l) s
        | .fail b s => .fail (if bad = 0 then b else bad) s
        | .hold s => .hold s) := by
      have rest := ih wf
      split
      · next eq => rw [eq] at rest; exact rest
      · next eq => rw [eq] at rest; exact rest
      · next eq => rw [eq] at rest; exact rest
    rw [readElems]
    split
    · exact of_ite ElemReadsWf (next_wf wf _ _) (next_wf wf _ _)
    · next e _ =>
      have read := engRead_wf wf u r.ctx r.high e a.z
      split
      · next eq => rw [eq] at read; exact read
      · next eq => rw [eq] at read; exact read
      · next eq => rw [eq] at read; exact next_wf read _ _

theorem apResults_wf {s : State} (wf : s.MemWf) (u : EngUnit) (r : AxReq) (m : Matrix) (a : AxArray) (l : List Nat) : ApAllWf (apResults u r m a s l) := by
  induction l generalizing s with
  | nil => exact wf
  | cons x t ih =>
    rw [apResults]
    have read := readElems_wf wf u r a ((List.range m.k).map (member r x))
    split
    · next eq => rw [eq] at read; exact read
    · next eq => rw [eq] at read; exact read
    · next s1 eq =>
      rw [eq] at read
      have rest := ih (show s1.MemWf from read)
      split
      · next eq => rw [eq] at rest; exact rest
      · next eq => rw [eq] at rest; exact rest
      · next eq => rw [eq] at rest; exact rest

theorem landElems_wf {s : State} (wf : s.MemWf) (u : EngUnit) (r : AxReq) (a : AxArray) (l : List Nat) : EngLandsWf (landElems u r a s l) := by
  induction l generalizing s with
  | nil => exact wf
  | cons x t ih =>
    have next_wf {s : State} (wf : s.MemWf) (loc leaf : Nat) : EngLandsWf (match landElems u r a s t with
        | .ok l s => .ok ((loc, leaf, []) :: l) s
        | z => z) := by
      have rest := ih wf
      split
      · next eq => rw [eq] at rest; exact rest
      · exact rest
    rw [landElems]
    split
    · exact next_wf wf _ _
    · next e _ =>
      have landed := engLand_wf wf u r.ctx r.high e 5
      split
      · next eq => rw [eq] at landed; exact landed
      · next eq => rw [eq] at landed; exact landed
      · next eq => rw [eq] at landed; exact next_wf landed _ _

theorem apStore_wf {s : State} (wf : s.MemWf) (core z : Nat) (l : List (ApRes × Nat × Nat × Nat × List Byte)) : (apStore core z s l).2.MemWf := by
  induction l generalizing s with
  | nil => exact wf
  | cons p t ih =>
    obtain ⟨v, code, loc, leaf, d⟩ := p
    have served := engServe_wf wf core loc leaf (toBytes z code)
    exact ih (wf_ite (memWf_of_mem served (poisonWrite_mem ..)) served)

@[simp] theorem putHead_mem (s : State) (core : Nat) (r : AxReq) : (putHead s core r).mem = s.mem := by
  unfold putHead
  grind [putCore_mem]

@[simp] theorem putGen_mem (s : State) (u gen : Nat) : (putGen s u gen).mem = s.mem := rfl

@[simp] theorem unitDone_mem (s0 : State) (u core : Nat) (r : AxReq) (gen err : Nat) : (unitDone s0 u core r gen err).mem = s0.mem := by
  simp [unitDone]

theorem leaveStaged_wf {s : State} (wf : s.MemWf) (u : Nat) (r : AxReq) (a : AxArray) (q : Nat) : (leaveStaged s u r a q).MemWf := by
  unfold leaveStaged
  split
  · exact wf
  · extract_lets x
    have read := engRead_wf wf (axisUnit u r) r.ctx r.high (a.mbase + BitVec.ofNat 64 (x * a.z)) (2 ^ a.b * a.z)
    split
    · next s1 eq =>
      rw [eq] at read
      exact sysBytes_wf (s := unmade s s1) read ..
    · exact wf

theorem runUnit_wf {s : State} (wf : s.MemWf) (u core : Nat) (r : AxReq) (m : Matrix) (a : AxArray) : (runUnit s u core r m a).MemWf := by
  unfold runUnit
  extract_lets q t seed
  refine wf_ite (memWf_of_mem wf (putGen_mem ..)) ?_
  have results := apResults_wf wf (axisUnit u r) r m a (apSets r a q)
  split
  · next eq => rw [eq] at results; exact memWf_of_mem results (putGen_mem ..)
  · next eq => rw [eq] at results; exact memWf_of_mem results (unitDone_mem ..)
  · next l bad s1 eq =>
    rw [eq] at results
    refine wf_ite (memWf_of_mem results (unitDone_mem ..)) (wf_ite (memWf_of_mem results ((unitDone_mem ..).trans (putCore_mem ..))) ?_)
    have landed := landElems_wf (show s1.MemWf from results) (axisUnit u r) r a (l.map (·.x))
    split
    · next eq => rw [eq] at landed; exact memWf_of_mem landed (putGen_mem ..)
    · next eq => rw [eq] at landed; exact memWf_of_mem landed (unitDone_mem ..)
    · next eq =>
      rw [eq] at landed
      exact memWf_of_mem (leaveStaged_wf (apStore_wf landed ..) ..) (unitDone_mem ..)

@[simp] theorem runMm_mem (s : State) (core : Nat) (r : AxReq) : (runMm s core r).mem = s.mem := by
  simp [runMm]

theorem drainRun_wf {s : State} (wf : s.MemWf) (u : EngUnit) (r : AxReq) (err : Nat) (l : List (Word × List Byte × Bool)) (pos : Nat) :
    (drainRun u r s err l pos).2.2.2.2.MemWf := by
  induction l generalizing s err pos with
  | nil => exact wf
  | cons p t ih =>
    obtain ⟨e, d, bad⟩ := p
    have landed := engLand_wf wf u r.ctx r.high e 5
    rw [drainRun]
    split
    · next eq => rw [eq] at landed; exact landed
    · next eq => rw [eq] at landed; exact landed
    · next loc leaf s1 eq =>
      rw [eq] at landed
      have served := engServe_wf (show s1.MemWf from landed) u.place loc leaf d
      have written := wf_ite (c := bad = true ∧ (engServe s1 u.place loc leaf d).1 ≠ 2)
        (memWf_of_mem served (poisonWrite_mem (engServe s1 u.place loc leaf d).2 loc)) served
      exact of_ite (fun w : Nat × Nat × Bool × Bool × State => w.2.2.2.2.MemWf) written (ih written _ _)

@[simp] theorem wakeUp_mem (s : State) (u : Nat) (r : AxReq) : (wakeUp s u r).mem = s.mem := rfl

theorem runDrain_wf {s : State} (wf : s.MemWf) (u core : Nat) (r : AxReq) : (runDrain s u core r).MemWf := by
  unfold runDrain
  extract_lets s1 w r1 s2
  have drained : s2.MemWf := drainRun_wf (memWf_of_mem wf (putGen_mem ..)) ..
  clear_value s2 r1 w s1
  refine wf_ite (memWf_of_mem drained (putHead_mem ..)) ?_
  have cleared : (if bits r.b 25 25 = 1 then putCore s2 core (clearBank (getCore s2 core) r) else s2).MemWf :=
    wf_ite (memWf_of_mem drained (putCore_mem ..)) drained
  exact memWf_of_mem (wf_ite (memWf_of_mem cleared (wakeUp_mem ..)) cleared) (putHead_mem ..)

theorem startReq_wf {s : State} (wf : s.MemWf) (u core : Nat) (r : AxReq) : (startReq s u core r).MemWf := by
  unfold startReq
  grind [State.MemWf, runMm_mem, runDrain_wf, putTile_mem, putHead_mem, foldl_mem, foldl_wf]

end Sys2Proof.Proofs

/-! SUPPORT. Proofs: the canonical form of memory (O59): launches, saved images, links and the host. -/

namespace Sys2Proof.Proofs
open Sys2Proof Sys2Proof.Machine Sys2Proof.Laws

@[simp] theorem reportDiscard_mem (s : State) (die : Nat) (l : Launch) : (reportDiscard s die l).mem = s.mem := by
  unfold reportDiscard
  split <;> rfl

theorem resolveRcb_wf {s : State} (wf : s.MemWf) (rcb : Nat) : (resolveRcb s rcb).MemWf := by
  unfold resolveRcb
  grind [State.MemWf, sysBytes_wf, foldl_mem, foldl_wf]

theorem deliverTask_wf {s : State} (wf : s.MemWf) (g : Region) (l : Launch) : (deliverTask s g l).MemWf := by
  unfold deliverTask
  exact post_wf wf ..

/-- The first of a pair, a state, is in canonical form. -/
def FirstWf {α : Type} (r : State × α) : Prop := r.1.MemWf

theorem handleLaunch_wf {s : State} (wf : s.MemWf) (die : Nat) (l : Launch) (free : Bool) : FirstWf (handleLaunch s die l free) := by
  have discard (t : State) (h : t.MemWf) : FirstWf (reportDiscard t die l, (none : Option Launch)) :=
    memWf_of_mem h (reportDiscard_mem ..)
  unfold handleLaunch
  extract_lets s1 g
  clear_value g
  refine of_ite FirstWf wf ?_
  split
  · next known _ =>
    refine of_ite FirstWf (discard s wf) (of_ite FirstWf ?_ (of_ite FirstWf wf wf))
    exact of_ite FirstWf (deliverTask_wf wf ..) (of_ite FirstWf wf wf)
  · have resolved : s1.MemWf := resolveRcb_wf wf _
    clear_value s1
    have opened : ({ s1 with regions := s1.regions ++ [g] } : State).MemWf := resolved
    have status {t : State} (h : t.MemWf) (st cause : Nat) (o : Option Launch) : FirstWf (setStatus t l.rcb st cause, o) := setStatus_wf h ..
    exact of_ite FirstWf wf (of_ite FirstWf (status resolved ..) (of_ite FirstWf (discard s wf) (status opened ..)))

theorem pumpList_wf {s : State} (wf : s.MemWf) (die : Nat) (held : List Nat) (l : List Launch) : (pumpList s die held l).1.MemWf := by
  induction l generalizing s held with
  | nil => exact wf
  | cons x t ih =>
    have handled := handleLaunch_wf wf die x (!held.contains x.rcb)
    unfold pumpList
    split
    · next eq => rw [eq] at handled; exact ih handled _
    · next eq => rw [eq] at handled; exact ih handled _

theorem pump_wf {s : State} (wf : s.MemWf) (die : Nat) : (pump s die).MemWf :=
  memWf_of_mem (pumpList_wf wf die [] _) (putDie_mem ..)

theorem pumpAll_wf {s : State} (wf : s.MemWf) : (pumpAll s).MemWf := by
  unfold pumpAll
  grind [State.MemWf, pump_wf, foldl_mem, foldl_wf]

@[simp] theorem enterLaunch_mem (s : State) (die : Nat) (l : Launch) : (enterLaunch s die l).mem = s.mem := rfl

theorem launchBody_wf {s : State} (wf : s.MemWf) (a : BitVec 5) {full ok : State → Body} (hf : ∀ t, t.MemWf → BodyWf (full t))
    (hk : ∀ t, t.MemWf → BodyWf (ok t)) : BodyWf (launchBody a full ok s) := by
  unfold launchBody
  refine withImage_wf wf _ _ _ _ fun img t at1 => ?_
  extract_lets l own die
  clear_value l own die
  exact of_ite BodyWf trivial (of_ite BodyWf wf (of_ite BodyWf trivial (of_ite BodyWf trivial (of_ite BodyWf wf
    (of_ite BodyWf (hf t at1) (hk _ (pump_wf (memWf_of_mem at1 (enterLaunch_mem ..)) _)))))))

theorem claimWaiting_wf {s : State} (wf : s.MemWf) : (claimWaiting s).MemWf := by
  unfold claimWaiting
  grind [State.MemWf]

@[simp] theorem agePassed_mem (s : State) (g : Region) : (agePassed s g).mem = s.mem := by
  unfold agePassed
  grind [putRegion_mem, foldl_mem]

theorem zeroSlice_wf {s : State} (wf : s.MemWf) (tile : Nat) : (zeroSlice s tile).MemWf :=
  wf_filter wf _ (wroteWhere_mem ..)

theorem openCluster_wf {s : State} (wf : s.MemWf) (rcb cl k : Nat) : (openCluster s rcb cl k).MemWf := by
  unfold openCluster
  grind [State.MemWf, putCluster_mem, putTile_mem, zeroSlice_wf, putCore_mem, putCtx_mem, foldl_mem, foldl_wf]

theorem loadImage_wf {s : State} (wf : s.MemWf) (rcb : Nat) (clusters : List Nat) : (loadImage s rcb clusters).MemWf := by
  unfold loadImage
  grind [State.MemWf, writeBytes_wf, foldl_mem, foldl_wf]

theorem beginRun_wf {s : State} (wf : s.MemWf) (g : Region) (clusters : List Nat) : (beginRun s g clusters).MemWf := by
  unfold beginRun
  grind [State.MemWf, setStatus_wf, putRegion_mem]

theorem grantLaunch_wf {s : State} (wf : s.MemWf) (g : Region) : (grantLaunch s g).MemWf := by
  unfold grantLaunch
  grind [State.MemWf, agePassed_mem, claimWaiting_wf, openCluster_wf, pumpAll_wf, beginRun_wf, loadImage_wf, foldl_mem, foldl_wf]

@[simp] theorem countIssue_mem (lowReady : Bool) (s : State) : (countIssue lowReady s).mem = s.mem := by
  unfold countIssue
  split <;> rfl

theorem writeUnit_wf {s : State} (wf : s.MemWf) (new : AreaImage) (u : Nat × Nat) : (writeUnit new s u).MemWf := by
  unfold writeUnit
  grind [State.MemWf, applyBytes_wf, markLine_mem]

theorem writeArea_wf {s : State} (wf : s.MemWf) (whole : Bool) (base new : AreaImage) (lo n : Nat) : (writeArea s whole base new lo n).MemWf := by
  unfold writeArea
  grind [State.MemWf, wroteWhere_mem, writeUnit_wf, foldl_mem, foldl_wf]

/-- Bytes that are set one after another leave memory in its form. -/
theorem foldl_mapSet_wf (at1 : Nat × Byte → Nat) (l : List (Nat × Byte)) {s : State} (wf : s.MemWf) :
    (l.foldl (fun s c => { s with mem := mapSet 0 s.mem (at1 c) c.2 }) s).MemWf :=
  foldl_wf (fun (s : State) c => { s with mem := mapSet 0 s.mem (at1 c) c.2 }) (fun _ c wf => mapSet_wf (at1 c) c.2 wf) l s wf

/-- Poison that is set line after line leaves memory as it is. -/
theorem foldl_insertLine_mem (at1 : Nat → Nat) (l : List Nat) (s : State) :
    (l.foldl (fun s p => { s with poison := insertLine (at1 p) s.poison }) s).mem = s.mem :=
  foldl_mem (fun (s : State) p => { s with poison := insertLine (at1 p) s.poison }) (fun _ _ => rfl) ..

theorem sliceIn_wf {s : State} (wf : s.MemWf) (tile src : Nat) : (sliceIn s tile src).MemWf := by
  unfold sliceIn
  exact memWf_of_mem (foldl_mapSet_wf _ _ (zeroSlice_wf wf tile)) (foldl_insertLine_mem ..)

theorem saveImage_wf {s : State} (wf : s.MemWf) (g : Region) : (saveImage s g).MemWf := by
  unfold saveImage
  grind [State.MemWf, closeBooks_wf, writeArea_wf, sysWrite_wf, freeCluster_mem, putCore_mem, setStatus_wf, putRegion_mem, foldl_mem, foldl_wf]

theorem clusterIn_wf {s : State} (wf : s.MemWf) (g : Region) (img : Image) (area cl k : Nat) : (clusterIn s g img area cl k).MemWf := by
  unfold clusterIn
  grind [State.MemWf, putCluster_mem, sliceIn_wf, putTile_mem, putCore_mem, putCtx_mem, foldl_mem, foldl_wf]

theorem refill_wf {s : State} (wf : s.MemWf) (rcb core : Nat) (pri : Bool) : (refill s rcb core pri).MemWf := by
  unfold refill
  split
  · exact wf
  · refine wf_ite wf (foldl_fst_wf _ (fun acc x at1 => ?_) _ _ (sysWrite_wf wf ..))
    have put := putInbox_wf at1 core pri acc.2 (readBytes acc.1 (rcbField acc.1 rcb 0x20 8 + 128 * x.slot) 80) x.task
    dsimp only
    split
    · exact put
    · exact put

@[simp] theorem setPstate_mem (s : State) (p : Nat) : (setPstate s p).mem = s.mem := rfl

@[simp] theorem putOnLink_mem (s : State) (l kind : Nat) (body : List Nat) : (putOnLink s l kind body).mem = s.mem := rfl

@[simp] theorem sendFlit_getD_mem (s : State) (dst : Nat) (body : List Nat) : ((sendFlit s dst body).getD s).mem = s.mem := by
  unfold sendFlit
  cases bestLink s dst <;> rfl

theorem sendFlit_mem {s u : State} {dst : Nat} {body : List Nat} (h : sendFlit s dst body = some u) : u.mem = s.mem := by
  have kept := sendFlit_getD_mem s dst body
  rwa [h] at kept

@[simp] theorem putTx_mem (s : State) (g : GTx) : (putTx s g).mem = s.mem := rfl

@[simp] theorem putRx_mem (s : State) (g : GRx) : (putRx s g).mem = s.mem := rfl

@[simp] theorem pumpStream_mem (s : State) (dst n : Nat) : (pumpStream s dst n).mem = s.mem := by
  induction n generalizing s with
  | zero => rfl
  | succ n ih =>
    unfold pumpStream
    split
    · rfl
    · split
      · rfl
      · extract_lets g body
        split
        · rfl
        · split
          · rfl
          · next u sent => exact (ih _).trans (show u.mem = s.mem from sendFlit_mem sent)

/-- The state that a frame's slots have been accepted in is in canonical form. -/
def SlotsWf (r : Option (Nat × State)) : Prop := ∀ p, r = some p → p.2.MemWf

theorem acceptSlot_wf {acc : Option (Nat × State)} (wf : SlotsWf acc) (body : List Nat) (k : Nat) : SlotsWf (acceptSlot body k acc) := by
  intro p h
  unfold acceptSlot at h
  split at h
  · cases h
  · next mask s =>
    have at1 : s.MemWf := wf _ rfl
    split at h
    · exact Option.some.inj h ▸ at1
    · next hdr core regs _ =>
      obtain ⟨⟨why, u⟩, accepted, rfl⟩ := Option.map_eq_some_iff.mp h
      exact acceptRemote_wf at1 accepted

@[simp] theorem sendKept_mem (s : State) (g : GTx) (e : Nat) (body : List Nat) : (sendKept s g e body).mem = s.mem := sendFlit_getD_mem ..

@[simp] theorem sendAck_mem (s : State) (src e : Nat) (refused : Option (Nat × Nat × Nat)) : (sendAck s src e refused).mem = s.mem := sendKept_mem ..

@[simp] theorem againAck_mem (s : State) (src e : Nat) : (againAck s src e).mem = s.mem := rfl

theorem passOn_wf {s : State} (wf : s.MemWf) (src n : Nat) : (passOn s src n).MemWf := by
  induction n generalizing s with
  | zero => exact wf
  | succ n ih =>
    unfold passOn
    extract_lets g
    split
    · exact wf
    · next body _ =>
      refine wf_ite wf ?_
      have first : SlotsWf (some (0, s)) := fun p h => Option.some.inj h ▸ wf
      split
      · exact wf
      · next eq =>
        have both := acceptSlot_wf (acceptSlot_wf first body 0) body 1 _ eq
        exact ih (memWf_of_mem both (sendAck_mem ..))

theorem passAck_wf {s : State} (wf : s.MemWf) (dst e : Nat) (body : List Nat) : (passAck s dst e body).MemWf := by
  unfold passAck
  grind [State.MemWf, bounce_wf, putTx_mem, foldl_mem, foldl_wf]

theorem passAcks_wf {s : State} (wf : s.MemWf) (src n : Nat) : (passAcks s src n).MemWf := by
  induction n generalizing s with
  | zero => exact wf
  | succ n ih =>
    unfold passAcks
    extract_lets g
    split
    · exact wf
    · exact ih (passAck_wf (memWf_of_mem wf (putRx_mem ..)) ..)

@[simp] theorem passFlit_mem (s : State) (dst : Nat) (body : List Nat) : (passFlit s dst body).mem = s.mem := by
  unfold passFlit
  split
  · rfl
  · exact sendFlit_getD_mem ..

@[simp] theorem forwardFlit_mem (s : State) (link dst : Nat) (body : List Nat) : (forwardFlit s link dst body).mem = s.mem := by
  unfold forwardFlit
  grind [logEvent_mem, passFlit_mem]

@[simp] theorem sendTime_mem (s : State) (count but : Nat) : (sendTime s count but).mem = s.mem := by
  unfold sendTime
  exact foldl_mem _ (fun _ _ => putOnLink_mem ..) ..

@[simp] theorem takeTime_mem (s : State) (link : Nat) (count : Word) : (takeTime s link count).mem = s.mem := by
  unfold takeTime
  split <;> simp

@[simp] theorem takeFlit_mem (s : State) (link : Nat) (x : GLink) : (takeFlit s link x).mem = s.mem := rfl

@[simp] theorem endRetrain_mem (s : State) (link : Nat) (up : Bool) : (endRetrain s link up).mem = s.mem := by
  simp [endRetrain]

@[simp] theorem endTraining_mem (s : State) : (endTraining s).mem = s.mem := by
  simp [endTraining, foldl_mem]

theorem resendOne_mem (dst ch : Nat) (acc : State × List (Nat × List Nat × Nat)) (u : Nat × List Nat × Nat) :
    (resendOne dst ch acc u).1.mem = acc.1.mem := by
  unfold resendOne
  split
  · split
    · next sent => exact sendFlit_mem sent
    · rfl
  · rfl

theorem resendDue_wf {s : State} (wf : s.MemWf) (dst ch : Nat) : (resendDue s dst ch).MemWf := by
  unfold resendDue
  extract_lets g r
  have sent : r.1.MemWf := foldl_fst_wf _ (fun acc x at1 => memWf_of_mem at1 (resendOne_mem ..)) _ _ wf
  exact wf_ite wf (memWf_of_mem sent (putTx_mem ..))

@[simp] theorem keepReachable_mem (s : State) : (keepReachable s).mem = s.mem := rfl

@[simp] theorem passTime_mem (s : State) (n : Nat) : (passTime s n).mem = s.mem := rfl

theorem zeroRange_wf {s : State} (wf : s.MemWf) (inside : Nat → Bool) : (zeroRange s inside).MemWf := wf_filter wf _ (wroteWhere_mem ..)

theorem darkState_wf {s : State} (wf : s.MemWf) : (darkState s).MemWf := wf_filter wf _ rfl

@[simp] theorem startUp_mem (d : State) (absent : BitVec 12) (links : BitVec 16) : (startUp d absent links).mem = d.mem := by
  unfold startUp
  rw [foldl_mem _ fun _ _ => logEvent_mem .., foldl_mem _ fun _ _ => logEvent_mem ..]

@[simp] theorem checkImage_mem (d : State) (absent : BitVec 12) (links : BitVec 16) : (checkImage d absent links).mem = d.mem := by
  unfold checkImage
  split <;> simp

@[simp] theorem hostDone_mem (s : State) (status : Nat) (data : List Byte) : (hostDone s status data).mem = s.mem := rfl

@[simp] theorem hostCount_mem (s : State) (may : Nat → Bool) (ps : List (Nat × Nat)) : (hostCount s may ps).mem = s.mem := by
  unfold hostCount
  split <;> simp [foldl_mem]

theorem hostWrite_wf {s : State} (wf : s.MemWf) (ps : List (Nat × Nat)) (d : List Byte) : (hostWrite s ps d).MemWf := by
  induction ps generalizing s d with
  | nil => exact wf
  | cons p t ih => exact ih (serveWrite_wf wf ..) _

theorem hostAtomic_wf {s : State} (wf : s.MemWf) (op loc : Nat) (d : List Byte) : (hostAtomic s op loc d).MemWf := by
  have counted : (countHot s loc 0 0).MemWf := memWf_of_mem wf (countHot_mem ..)
  unfold hostAtomic
  extract_lets n u
  refine wf_ite wf ?_
  split
  · exact serveWrite_wf counted ..
  · exact counted

theorem bar0Write_wf {s : State} (wf : s.MemWf) (a : Nat) (d : List Byte) : (bar0Write s a d).MemWf := by
  unfold bar0Write
  grind [State.MemWf, devWrite_wf, putTile_mem]

theorem hostServe_wf {s u : State} (wf : s.MemWf) {k addr : Nat} {data : List Byte} (h : hostServe s k addr data = some u) : u.MemWf := by
  have done1 {t : State} (h : t.MemWf) (status : Nat) (data : List Byte) : (hostDone t status data).MemWf := memWf_of_mem h (hostDone_mem ..)
  have counted (may : Nat → Bool) (ps : List (Nat × Nat)) : (hostCount s may ps).MemWf := memWf_of_mem wf (hostCount_mem ..)
  suffices kept : ∀ v, hostServe s k addr data = some v → v.MemWf from kept u h
  clear h u
  unfold hostServe
  extract_lets n bar2 loc fits ps r
  have some1 {t : State} (h : t.MemWf) : ∀ v, some t = some v → v.MemWf := fun v e => Option.some.inj e ▸ h
  let P (o : Option State) : Prop := ∀ v, o = some v → v.MemWf
  refine of_ite P (of_ite P (some1 (done1 wf ..)) (of_ite P (some1 (done1 wf ..)) (some1 (done1 (bar0Write_wf wf ..) ..)))) ?_
  refine of_ite P (some1 (done1 wf ..)) (of_ite P (fun v e => nomatch e) (of_ite P (some1 (done1 (counted ..) ..)) ?_))
  exact of_ite P (of_ite P (some1 (done1 (hostWrite_wf (counted ..) ..) ..)) (some1 (done1 wf ..))) (some1 (hostAtomic_wf wf ..))

theorem pumpHost_wf {s : State} (wf : s.MemWf) (n : Nat) : (pumpHost s n).MemWf := by
  induction n generalizing s with
  | zero => exact wf
  | succ n ih =>
    unfold pumpHost
    split
    · exact wf
    · next t _ =>
      have waiting : ({ s with hostWaits := t } : State).MemWf := wf
      split
      · next served => exact ih (hostServe_wf waiting served)
      · exact wf

@[simp] theorem putFar_mem (s : State) (dev : Nat) (f : FarDev → FarDev) : (putFar s dev f).mem = s.mem := rfl

theorem farAgain_wf {s : State} (wf : s.MemWf) : (farAgain s).MemWf := by
  unfold farAgain
  grind [State.MemWf, passFlit_mem, endWaiting_wf, askAgain_mem, flushRecs_wf, foldl_mem, foldl_wf]

@[simp] theorem retryAll_mem (s : State) : (retryAll s).mem = s.mem := rfl

@[simp] theorem clock_mem (s : State) : (clock s).mem = s.mem := by
  unfold clock
  grind [retryAll_mem, keepReachable_mem, endTraining_mem, passTime_mem, endEpoch_mem]

end Sys2Proof.Proofs

/-! SUPPORT. Proofs: the canonical form of memory (O59): scalar, memory, task and team instructions. -/

namespace Sys2Proof.Proofs
open Sys2Proof Sys2Proof.Machine Sys2Proof.Laws

/-- The next state of an outcome, if it has one, is in canonical form. -/
def NextWf : Host.Outcome State Fault Refusal → Prop
  | .next s => s.MemWf
  | .fault _ => True
  | .refused _ => True

theorem nextWf_next {s : State} (wf : s.MemWf) : NextWf (.next s) := wf

theorem nextWf_after {o : Host.Outcome State Fault Refusal} (h : NextWf o) {f : State → State} (hf : ∀ t, t.MemWf → (f t).MemWf) :
    NextWf (after f o) := by
  cases o with
  | next t => exact hf t h
  | fault f => trivial
  | refused r => trivial

theorem nextWf_raise {s : State} (wf : s.MemWf) (t : Trap) : NextWf (.next (raise s t)) := nextWf_next (raise_wf wf t)

theorem nextWf_retire {s : State} (wf : s.MemWf) (len : Nat) (st : BitVec 3) {b : Body} (h : BodyWf b) : NextWf (.next (retire s len st b)) :=
  nextWf_next (retire_wf wf len st h)

/-- Changing the focus alone leaves memory in its form. -/
theorem cur_wf {s : State} (wf : s.MemWf) (c : Ctx) : ({ s with cur := c } : State).MemWf := wf

theorem wr_wf {s : State} (wf : s.MemWf) (d : BitVec 5) (v : Word) : (wr s d v).MemWf := memWf_of_mem wf (wr_mem ..)

/-- Issuing keeps memory in its form where the instruction's own effect does. -/
theorem issue_wf {s : State} (wf : s.MemWf) (kinds : List Nat) (len : Nat) (st : BitVec 3) (uses : List RegUse) {b : State → Body}
    (h : BodyWf (b s)) : NextWf (issue s kinds len st uses b) := by
  rcases issue_cases s kinds len st uses b with ⟨-, e⟩ | ⟨-, -, -, e⟩ | ⟨-, e⟩ | ⟨-, e⟩ <;> rw [e]
  · exact nextWf_raise wf _
  · exact nextWf_raise wf _
  · exact nextWf_next (cur_wf wf _)
  · exact nextWf_retire wf _ _ (bodyWf_after h _)

/-! Scalar instructions. -/

theorem alu3_wf {s : State} (wf : s.MemWf) (f : Word → Word → Word) (lat len : Nat) (d a b : BitVec 5) (st : BitVec 3) :
    NextWf (alu3 f lat len d a b st s) := issue_wf wf _ _ _ _ (wr_wf wf ..)

theorem alu2_wf {s : State} (wf : s.MemWf) (f : Word → Word) (len : Nat) (d a : BitVec 5) (st : BitVec 3) :
    NextWf (alu2 f len d a st s) := issue_wf wf _ _ _ _ (wr_wf wf ..)

theorem execSel_wf {s : State} (wf : s.MemWf) (d a b : BitVec 5) (st : BitVec 3) : NextWf (execSel d a b st s) :=
  issue_wf wf _ _ _ _ (wr_wf wf ..)

theorem execLim_wf {s : State} (wf : s.MemWf) (d : BitVec 5) (i : BitVec 17) (st : BitVec 3) : NextWf (execLim d i st s) :=
  issue_wf wf _ _ _ _ (wr_wf wf ..)

theorem execCLim_wf {s : State} (wf : s.MemWf) (i d : BitVec 5) : NextWf (execCLim i d s) := issue_wf wf _ _ _ _ (wr_wf wf ..)

theorem branch_wf {s : State} (wf : s.MemWf) {n : Nat} (c : Word → Word → Bool) (len : Nat) (a b : BitVec 5) (o : BitVec n) (st : BitVec 3) :
    NextWf (branch c len a b o st s) := issue_wf wf _ _ _ _ (of_ite BodyWf wf wf)

theorem jumpLink_wf {s : State} (wf : s.MemWf) (len : Nat) (d : BitVec 5) (st : BitVec 3) (uses : List RegUse) (target : State → Word) :
    NextWf (jumpLink len d st uses target s) := issue_wf wf _ _ _ _ (wr_wf wf ..)

theorem execIllegalInstruction_wf {s : State} (wf : s.MemWf) : NextWf (execIllegalInstruction s) := nextWf_raise wf _

theorem execFetchFault_wf {s : State} (wf : s.MemWf) : NextWf (execFetchFault s) := by
  unfold execFetchFault
  split
  · exact nextWf_raise wf _
  · exact nextWf_next wf

theorem execRole_wf {s : State} (wf : s.MemWf) (n : BitVec 4) (m : BitVec 8) : NextWf (execRole n m s) := by
  unfold execRole
  extract_lets span
  refine issue_wf wf _ _ _ _ ?_
  have run := spanRun_wf wf s.cur.pc span
  rcases h : spanRun s s.cur.pc span with ⟨ps, t, s1⟩
  rw [h] at run
  simp only
  refine of_ite BodyWf (raise_wf run _) (of_ite BodyWf ?_ ?_)
  · split
    · exact fetchStop_body_wf wf _
    · exact run
  · split
    · exact run
    · exact run
    · exact fetchStop_body_wf wf _

/-- A state that a skip leaves, whose instruction has issued, is in canonical form. -/
theorem skipTo_wf {s : State} (wf : s.MemWf) (l : Word) (len : Nat) : (skipTo s l len).MemWf := memWf_of_mem wf (skipTo_mem ..)

theorem execLoop_wf {s : State} (wf : s.MemWf) (a : BitVec 5) (o : BitVec 12) (st : BitVec 3) : NextWf (execLoop a o st s) := by
  refine issue_wf wf _ _ _ _ ?_
  dsimp only
  refine of_ite BodyWf trivial (of_ite BodyWf trivial (of_ite BodyWf (skipTo_wf wf ..) (of_ite BodyWf ?_ wf)))
  have read := parcelAt_wf wf (parcelTarget s.cur.pc o)
  split
  · next h => rw [h] at read; exact skipTo_wf read ..
  · exact fetchStop_body_wf wf _
  · trivial

/-! Loads, stores, atomics, fences and waits. -/

theorem load_wf {s : State} (wf : s.MemWf) (n : Nat) (sx : Bool) (len : Nat) (d b : BitVec 5) (o : Word) (st : BitVec 3) :
    NextWf (load n sx len d b o st s) := issue_wf wf _ _ _ _ (loadBody_wf wf ..)

theorem execLdAcq_wf {s : State} (wf : s.MemWf) (d b : BitVec 5) (z : BitVec 2) (c : BitVec 3) (o : BitVec 6) (st : BitVec 3) :
    NextWf (execLdAcq d b z c o st s) := issue_wf wf _ _ _ _ (loadBody_wf wf ..)

theorem store_wf {s : State} (wf : s.MemWf) (n len : Nat) (d b : BitVec 5) (f : BitVec 1) (o : Word) (st : BitVec 3) :
    NextWf (store n len d b f o st s) := issue_wf wf _ _ _ _ (storeBody_wf wf ..)

theorem storeFailFirst_wf {s : State} (wf : s.MemWf) {k : State → Host.Outcome State Fault Refusal} (h : NextWf (k s)) :
    NextWf (storeFailFirst s k) := of_ite NextWf (nextWf_raise wf _) h

theorem execStRel_wf {s : State} (wf : s.MemWf) (d b : BitVec 5) (z : BitVec 2) (c : BitVec 3) (o : BitVec 6) (st : BitVec 3) :
    NextWf (execStRel d b z c o st s) := by
  refine storeFailFirst_wf wf (issue_wf wf _ _ _ _ ?_)
  have stored := storeBody_wf wf (sizeOf2 z) d (fun s => effAddr (rd s b) o (sizeOf2 z)) false
  dsimp only
  split
  · next h =>
    rw [h] at stored
    exact of_ite BodyWf wf stored
  · exact stored

theorem atomic_wf {s : State} (wf : s.MemWf) (op n : Nat) (d a b : BitVec 5) (c st : BitVec 3) : NextWf (atomic op n d a b c st s) := by
  refine issue_wf wf _ _ _ _ ?_
  dsimp only
  split
  · trivial
  · next l landed =>
    have counted : (countHot l.st l.loc (coreOf s.who) l.leaf).MemWf := memWf_of_mem (checkAccess_wf wf landed) (countHot_mem ..)
    refine of_ite BodyWf trivial (of_ite BodyWf wf (of_ite BodyWf counted ?_))
    have served := amoAt_wf counted l.loc n op ((rd s b).toNat % 2 ^ (8 * n)) ((rd s d).toNat % 2 ^ (8 * n))
    split
    · next h => rw [h] at served; exact wr_wf served ..
    · exact raise_wf counted _
    · exact raise_wf counted _

theorem execFenceAcq_wf {s : State} (wf : s.MemWf) (c st : BitVec 3) : NextWf (execFenceAcq c st s) := issue_wf wf _ _ _ _ wf

theorem execFenceRel_wf {s : State} (wf : s.MemWf) (c st : BitVec 3) : NextWf (execFenceRel c st s) :=
  storeFailFirst_wf wf (issue_wf wf _ _ _ _ (of_ite BodyWf wf (memWf_of_mem wf (released_mem ..))))

theorem execFenceFull_wf {s : State} (wf : s.MemWf) (c st : BitVec 3) : NextWf (execFenceFull c st s) :=
  storeFailFirst_wf wf (issue_wf wf _ _ _ _ (of_ite BodyWf wf wf))

theorem execFenceAck_wf {s : State} (wf : s.MemWf) (st : BitVec 3) : NextWf (execFenceAck st s) :=
  storeFailFirst_wf wf (issue_wf wf _ _ _ _ (of_ite BodyWf wf wf))

theorem execWait_wf {s : State} (wf : s.MemWf) (a b : BitVec 5) (c : BitVec 3) (z : BitVec 1) (st : BitVec 3) :
    NextWf (execWait a b c z st s) := issue_wf wf _ _ _ _ (waitBody_wf wf ..)

theorem execPf_wf {s : State} (wf : s.MemWf) (a : BitVec 5) (k : BitVec 1) (st : BitVec 3) : NextWf (execPf a k st s) := by
  refine issue_wf wf _ _ _ _ ?_
  dsimp only
  refine of_ite BodyWf wf (of_ite BodyWf wf ?_)
  split
  · exact wf
  · next h => exact wf_ite (memWf_of_mem (hintLeaf_wf wf h) (countHot_mem ..)) (hintLeaf_wf wf h)

/-! Tasks, counters and barriers. -/

theorem execTaskEnd_wf {s : State} (wf : s.MemWf) (st : BitVec 3) : NextWf (execTaskEnd st s) :=
  issue_wf wf _ _ _ _ (of_ite BodyWf trivial (endTask_wf (cur_wf wf _)))

theorem execSpawn_wf {s : State} (wf : s.MemWf) (a b : BitVec 5) (st : BitVec 3) : NextWf (execSpawn a b st s) := by
  refine issue_wf wf _ _ _ _ ?_
  extract_lets core r n t
  clear_value r n
  have pushed : t.MemWf := sysWrite_wf (sysBytes_wf wf ..) ..
  clear_value t
  generalize n - dqTop s core = free
  exact of_ite BodyWf trivial (of_ite BodyWf (memWf_of_mem (memWf_of_mem pushed (putCore_mem ..)) (rouse_mem ..)) (post_wf wf ..))

theorem execYield_wf {s : State} (wf : s.MemWf) (a : BitVec 5) (st : BitVec 3) : NextWf (execYield a st s) := by
  refine issue_wf wf _ _ _ _ ?_
  dsimp only
  refine of_ite BodyWf trivial (of_ite BodyWf wf ?_)
  exact endTask_wf (cur_wf (post_wf (memWf_of_mem wf (released_mem ..)) ..) _)

theorem execCntInit_wf {s : State} (wf : s.MemWf) (a b : BitVec 5) (st : BitVec 3) : NextWf (execCntInit a b st s) := by
  refine issue_wf wf _ _ _ _ ?_
  dsimp only
  refine of_ite BodyWf trivial ?_
  have set {t : State} (h : t.MemWf) (cid : Nat) (n : Int) : (setCount t (coreOf s.who) cid n).MemWf := setCount_wf h ..
  exact wf_ite (fire_wf (set (sysWrite_wf (sysWrite_wf (sysWrite_wf wf ..) ..) ..) ..) ..)
    (set (sysWrite_wf (sysWrite_wf (sysWrite_wf wf ..) ..) ..) ..)

theorem execBarInit_wf {s : State} (wf : s.MemWf) (a b : BitVec 5) (st : BitVec 3) : NextWf (execBarInit a b st s) :=
  issue_wf wf _ _ _ _ (of_ite BodyWf trivial (memWf_of_mem wf (putBar_mem ..)))

theorem execBarArrive_wf {s : State} (wf : s.MemWf) (a : BitVec 5) (st : BitVec 3) : NextWf (execBarArrive a st s) :=
  issue_wf wf _ _ _ _ (of_ite BodyWf trivial (of_ite BodyWf trivial (of_ite BodyWf wf
    (of_ite BodyWf (memWf_of_mem wf (arriveBar_mem ..)) (memWf_of_mem wf (sendArrive_mem ..))))))

theorem execBarWait_wf {s : State} (wf : s.MemWf) (a b : BitVec 5) (st : BitVec 3) : NextWf (execBarWait a b st s) :=
  issue_wf wf _ _ _ _ (of_ite BodyWf trivial (of_ite BodyWf wf wf))

theorem execBarLink_wf {s : State} (wf : s.MemWf) (a b : BitVec 5) (st : BitVec 3) : NextWf (execBarLink a b st s) :=
  issue_wf wf _ _ _ _ (of_ite BodyWf trivial (of_ite BodyWf trivial (memWf_of_mem wf (putBar_mem ..))))

theorem execPhase_wf {s : State} (wf : s.MemWf) (a : BitVec 5) (st : BitVec 3) : NextWf (execPhase a st s) :=
  issue_wf wf _ _ _ _ (of_ite BodyWf trivial (memWf_of_mem (memWf_of_mem wf (accountCore_mem ..)) (putMyCore_mem ..)))

theorem execSleep_wf {s : State} (wf : s.MemWf) (a : BitVec 5) (w : BitVec 1) (st : BitVec 3) : NextWf (execSleep a w st s) :=
  issue_wf wf _ _ _ _ (of_ite BodyWf trivial (of_ite BodyWf wf wf))

theorem execPause_wf {s : State} (wf : s.MemWf) (k : BitVec 6) (st : BitVec 3) : NextWf (execPause k st s) := by
  have issued := issue_wf wf coreOnly 4 st [] (b := fun s => .done s []) wf
  unfold execPause
  split
  · next t h =>
    rw [h] at issued
    exact of_ite NextWf (nextWf_next (cur_wf issued _)) (nextWf_next issued)
  · exact issued

/-! Pages, control registers and teams. -/

theorem onPage_wf {s : State} (wf : s.MemWf) (d a : BitVec 5) (k : Nat) (st : BitVec 3) {f : State → PageRef → VAddr → Nat × State}
    (h : ∀ t p va, t.MemWf → (f t p va).2.MemWf) (late : State → Nat → Bool) : NextWf (onPage d a k st f s late) := by
  refine issue_wf wf _ _ _ _ ?_
  dsimp only
  refine of_ite BodyWf trivial ?_
  split
  · trivial
  · next found => exact of_ite BodyWf wf (wr_wf (h _ _ _ (translate_wf wf found)) ..)

theorem execPgmove_wf {s : State} (wf : s.MemWf) (d a k : BitVec 5) (t : BitVec 2) (st : BitVec 3) : NextWf (execPgmove d a k t st s) :=
  onPage_wf wf d a 1 st (fun _ _ _ h => pgmoveAt_wf h ..) _

theorem execPghot_wf {s : State} (wf : s.MemWf) (d a : BitVec 5) (c : BitVec 2) (st : BitVec 3) : NextWf (execPghot d a c st s) :=
  onPage_wf wf d a 0 st (fun _ _ _ h => wf_ite (memWf_of_mem h (clearHot_mem ..)) h) _

theorem execPgabort_wf {s : State} (wf : s.MemWf) (d a : BitVec 5) (st : BitVec 3) : NextWf (execPgabort d a st s) := by
  refine onPage_wf wf d a 1 st (fun t p _ h => ?_) _
  split
  · exact abortActive_wf h ..
  · exact h

theorem execMreqRead_wf {s : State} (wf : s.MemWf) (a : BitVec 5) (t : BitVec 6) (st : BitVec 3) : NextWf (execMreqRead a t st s) :=
  issue_wf wf _ _ _ _ (mreqBody_wf wf ..)

theorem execMreqWrite_wf {s : State} (wf : s.MemWf) (d a : BitVec 5) (t : BitVec 6) (st : BitVec 3) : NextWf (execMreqWrite d a t st s) :=
  issue_wf wf _ _ _ _ (mreqBody_wf wf ..)

theorem csrWrite_wf {s : State} (wf : s.MemWf) (op n : Nat) (r : BitVec 5) (st : BitVec 3) : NextWf (csrWrite op n r st s) :=
  issue_wf wf _ _ _ _ (writeBody_wf wf ..)

theorem csrRead_wf {s : State} (wf : s.MemWf) (n : Nat) (r : BitVec 5) (st : BitVec 3) : NextWf (csrRead n r st s) := by
  refine issue_wf wf _ _ _ _ ?_
  split
  · trivial
  · exact wr_wf wf ..

theorem execTrap_wf {s : State} (wf : s.MemWf) (k : BitVec 6) (st : BitVec 3) : NextWf (execTrap k st s) := issue_wf wf _ _ _ _ trivial

theorem execEret_wf {s : State} (wf : s.MemWf) (st : BitVec 3) : NextWf (execEret st s) := issue_wf wf _ _ _ _ (cur_wf wf _)

theorem execTlbinvPage_wf {s : State} (wf : s.MemWf) (a : BitVec 5) (st : BitVec 3) : NextWf (execTlbinvPage a st s) :=
  issue_wf wf _ _ _ _ (tlbinvBody_wf wf ..)

theorem execTlbinvTag_wf {s : State} (wf : s.MemWf) (a : BitVec 5) (st : BitVec 3) : NextWf (execTlbinvTag a st s) :=
  issue_wf wf _ _ _ _ (tlbinvBody_wf wf ..)

theorem execTlbinvAll_wf {s : State} (wf : s.MemWf) (a : BitVec 5) (st : BitVec 3) : NextWf (execTlbinvAll a st s) :=
  issue_wf wf _ _ _ _ (tlbinvBody_wf wf ..)

theorem execFenceI_wf {s : State} (wf : s.MemWf) (st : BitVec 3) : NextWf (execFenceI st s) :=
  issue_wf wf _ _ _ _ (of_ite BodyWf wf (memWf_of_mem wf (putCluster_mem ..)))

theorem execTeamBind_wf {s : State} (wf : s.MemWf) (a b : BitVec 5) (st : BitVec 3) : NextWf (execTeamBind a b st s) :=
  issue_wf wf _ _ _ _ (inTeam_wf wf _ fun _ _ => of_ite BodyWf trivial (of_ite BodyWf trivial (of_ite BodyWf trivial
    (memWf_of_mem wf (putTeam_mem ..)))))

theorem execMark_wf {s : State} (wf : s.MemWf) (st : BitVec 3) : NextWf (execMark st s) :=
  issue_wf wf _ _ _ _ (inTeam_wf wf _ fun _ _ => of_ite BodyWf trivial (of_ite BodyWf
    (of_ite BodyWf (passMark_wf (memWf_of_mem wf (install_mem ..)) _) (memWf_of_mem wf (putTeam_mem ..)))
    (of_ite BodyWf (passMark_wf wf _) wf)))

theorem execDriftSet_wf {s : State} (wf : s.MemWf) (bound : BitVec 6) (st : BitVec 3) : NextWf (execDriftSet bound st s) :=
  issue_wf wf _ _ _ _ (inTeam_wf wf _ fun _ _ => of_ite BodyWf trivial (memWf_of_mem wf (putTeam_mem ..)))

theorem setHsent_wf {s : State} (wf : s.MemWf) (v : Bool) : (setHsent s v).MemWf := memWf_of_mem wf (setHsent_mem ..)

theorem execHand_wf {s : State} (wf : s.MemWf) (a b : BitVec 5) (rcv snd st : BitVec 3) : NextWf (execHand a b rcv snd st s) := by
  refine issue_wf wf _ _ _ _ (inTeam_wf wf _ fun t m => ?_)
  extract_lets rs rr tgt frm sent
  clear_value tgt frm
  refine of_ite BodyWf trivial ?_
  cases tgt with
  | none => cases frm with
    | none => exact setHsent_wf wf _
    | some q => exact handReceive_wf wf ..
  | some p => cases frm with
    | none => exact of_ite BodyWf (setHsent_wf wf _) (of_ite BodyWf wf (of_ite BodyWf wf (memWf_of_mem wf (putTeam_mem ..))))
    | some q =>
      exact of_ite BodyWf (handReceive_wf wf ..) (of_ite BodyWf wf (of_ite BodyWf wf
        (handReceive_wf (memWf_of_mem wf (putTeam_mem ..)) ..)))

theorem execRealign_wf {s : State} (wf : s.MemWf) (st : BitVec 3) : NextWf (execRealign st s) :=
  issue_wf wf _ _ _ _ (inTeam_wf wf _ fun _ _ => of_ite BodyWf (foldl_wf _ (fun _ _ h => leaveRealign_wf h _) _ _ wf)
    (memWf_of_mem wf (putTeam_mem ..)))

theorem execTeamEnd_wf {s : State} (wf : s.MemWf) (st : BitVec 3) : NextWf (execTeamEnd st s) :=
  issue_wf wf _ _ _ _ (inTeam_wf wf _ fun _ _ => of_ite BodyWf wf (leaveTeam_wf (cur_wf wf _) ..))

end Sys2Proof.Proofs

/-! SUPPORT. Proofs: the canonical form of memory (O59): vector, copy, message and axis instructions. -/

namespace Sys2Proof.Proofs
open Sys2Proof Sys2Proof.Machine Sys2Proof.Laws

/-! Vector instructions. -/

theorem vissue_wf {s : State} (wf : s.MemWf) (st : BitVec 3) (bad : Bool) (x : Access) (pr pw : List RegUse) (n l0 : Nat)
    (f : Ctx → (BitVec 6 → VReg) → List (BitVec 6 × VReg) × (Ctx → Ctx)) : NextWf (vissue s st bad x pr pw n l0 f) := by
  unfold vissue
  refine of_ite NextWf (nextWf_raise wf _) (of_ite NextWf (nextWf_raise wf _) ?_)
  split
  · next short => exact nextWf_retire wf _ _ (shortStop_wf wf short)
  · split
    · exact nextWf_next (raiseStream_wf wf _)
    · exact nextWf_retire wf 4 st (b := .wait s .stalled) wf
    · refine of_ite NextWf (nextWf_retire wf 4 st (b := .wait s .stalled) wf) (nextWf_retire wf _ _ (bodyWf_after ?_ _))
      exact cur_wf wf _

theorem vblock_wf {s : State} (wf : s.MemWf) (ok : Nat → Bool) (extra : Ctx → Bool) (role : Role) (l0 : Nat → Nat)
    (f : Ctx → VReg → VReg → VReg) (d a : BitVec 6) (h w st : BitVec 3) : NextWf (vblock ok extra role l0 f d a h w st s) := by
  unfold vblock
  exact vissue_wf wf _ _ _ _ _ _ _ _

theorem vpair_wf {s : State} (wf : s.MemWf) (ok : Nat → Bool) (role : Role) (l0 : Nat → Nat) (f : Nat → Nat → Nat → Nat) (d a : BitVec 6)
    (h w st : BitVec 3) : NextWf (vpair ok role l0 f d a h w st s) := vblock_wf wf ..

theorem vbits_wf {s : State} (wf : s.MemWf) (role : Role) (f : VReg → VReg → VReg) (d a : BitVec 6) (h w st : BitVec 3) :
    NextWf (vbits role f d a h w st s) := vblock_wf wf ..

theorem vfused_wf {s : State} (wf : s.MemWf) (ok : Nat → Bool) (l0 : Nat) (f : Nat → Nat → Nat → Nat → Nat) (d a b : BitVec 6)
    (w h : BitVec 2) (st : BitVec 3) : NextWf (vfused ok l0 f d a b w h st s) := by
  unfold vfused
  exact vissue_wf wf _ _ _ _ _ _ _ _

theorem execVcmp_wf {s : State} (wf : s.MemWf) (d a : BitVec 6) (h w st : BitVec 3) : NextWf (execVcmp d a h w st s) := by
  unfold execVcmp
  exact vissue_wf wf _ _ _ _ _ _ _ _

theorem execVsel_wf {s : State} (wf : s.MemWf) (d a : BitVec 6) (h w st : BitVec 3) : NextWf (execVsel d a h w st s) := by
  unfold execVsel
  exact vissue_wf wf _ _ _ _ _ _ _ _

theorem execVcvt_wf {s : State} (wf : s.MemWf) (d a : BitVec 6) (h w st : BitVec 3) : NextWf (execVcvt d a h w st s) := by
  unfold execVcvt
  exact vissue_wf wf _ _ _ _ _ _ _ _

theorem predOp_wf {s : State} (wf : s.MemWf) (f : BitVec 32 → BitVec 32 → BitVec 32) (d a st : BitVec 3) : NextWf (predOp f d a st s) :=
  issue_wf wf _ _ _ _ (cur_wf wf _)

theorem vmem_wf {s : State} (wf : s.MemWf) (st : BitVec 3) (base : BitVec 5) (x : Access) (al k : Nat) (eas : List Word)
    {go : State → List (Word × Landing) → Body} (h : ∀ t ls, t.MemWf → BodyWf (go t ls)) : NextWf (vmem s st base x al k eas go) := by
  unfold vmem
  refine of_ite NextWf (nextWf_raise wf _) (of_ite NextWf (nextWf_raise wf _) ?_)
  split
  · next short => exact nextWf_retire wf _ _ (shortStop_wf wf short)
  · split
    · exact nextWf_raise wf _
    · next landed =>
      have at1 := landAll_wf wf landed
      split
      · exact nextWf_next (raiseStream_wf at1 _)
      · exact nextWf_retire wf 4 st (b := .wait s .stalled) wf
      · exact nextWf_retire wf _ _ (bodyWf_after (h _ _ at1) _)

theorem execVld_wf {s : State} (wf : s.MemWf) (c : BitVec 6) (b : BitVec 5) (h w st : BitVec 3) : NextWf (execVld c b h w st s) :=
  vmem_wf wf _ _ _ _ _ _ fun _ _ at1 => loads_body_wf wf (loadAll_wf at1 ..) fun _ _ got => cur_wf got _

theorem execVldx_wf {s : State} (wf : s.MemWf) (d : BitVec 6) (b : BitVec 5) (i : BitVec 6) (z : BitVec 2) (st : BitVec 3) :
    NextWf (execVldx d b i z st s) :=
  vmem_wf wf _ _ _ _ _ _ fun _ _ at1 => loads_body_wf wf (loadAll_wf at1 ..) fun _ _ got => cur_wf got _

/-- The entries of a vector store leave memory in its form. -/
theorem pushed_wf {s : State} (wf : s.MemWf) (c : Ctx) (ordered : Bool) (l : List (Landing × List Byte × Bool)) (any : Bool) :
    (rotatePath (pushAll { s with cur := c } ordered l) any).MemWf :=
  memWf_of_mem (memWf_of_mem (cur_wf wf c) (pushAll_mem ..)) (rotatePath_mem ..)

theorem execVst_wf {s : State} (wf : s.MemWf) (c : BitVec 6) (b : BitVec 5) (h w : BitVec 3) (f : BitVec 1) (st : BitVec 3) :
    NextWf (execVst c b h w f st s) := vmem_wf wf _ _ _ _ _ _ fun _ _ at1 => of_ite BodyWf wf (pushed_wf at1 ..)

theorem execVstx_wf {s : State} (wf : s.MemWf) (d : BitVec 6) (b : BitVec 5) (i : BitVec 6) (z : BitVec 2) (f : BitVec 1) (st : BitVec 3) :
    NextWf (execVstx d b i z f st s) := vmem_wf wf _ _ _ _ _ _ fun _ _ at1 => of_ite BodyWf wf (pushed_wf at1 ..)

/-! Copies and streams. -/

theorem execCpy_wf {s : State} (wf : s.MemWf) (d a : BitVec 5) (st : BitVec 3) : NextWf (execCpy d a st s) :=
  issue_wf wf _ _ _ _ (copyBody_wf wf (full := fun s => .wait s .stalled) wf ..)

theorem execCpyTry_wf {s : State} (wf : s.MemWf) (d a : BitVec 5) (st : BitVec 3) : NextWf (execCpyTry d a st s) :=
  issue_wf wf _ _ _ _ (copyBody_wf wf (full := fun s => .done (wr s d 1) []) (wr_wf wf ..) ..)

theorem execCpyid_wf {s : State} (wf : s.MemWf) (d a : BitVec 5) (st : BitVec 3) : NextWf (execCpyid d a st s) :=
  issue_wf wf _ _ _ _ (copyTest_wf (wait := fun s => .done (wr s d 0) []) (hit := fun s => .done (wr s d 1) []) (wr_wf wf ..) (wr_wf wf ..) _)

theorem execCpywait_wf {s : State} (wf : s.MemWf) (a : BitVec 5) (st : BitVec 3) : NextWf (execCpywait a st s) :=
  issue_wf wf _ _ _ _ (copyTest_wf (wait := fun s => .wait s .stalled) (hit := fun s => .done s []) wf wf _)

theorem execDictLd_wf {s : State} (wf : s.MemWf) (a : BitVec 5) (k : BitVec 7) (st : BitVec 3) : NextWf (execDictLd a k st s) :=
  issue_wf wf _ _ _ _ (of_ite BodyWf trivial (of_ite BodyWf trivial (of_ite BodyWf trivial
    (of_ite BodyWf wf (memWf_of_mem wf (putTile_mem ..))))))

theorem execSbind_wf {s : State} (wf : s.MemWf) (d a : BitVec 5) (n st : BitVec 3) : NextWf (execSbind d a n st s) := by
  refine issue_wf wf _ _ _ _ (of_ite BodyWf (wr_wf wf ..) ?_)
  split
  · trivial
  · next landed =>
    refine loads_body_wf wf (loadAll_wf (checkAccess_wf wf landed) ..) fun vs t got => ?_
    extract_lets r x
    clear_value x r
    refine of_ite BodyWf (raise_wf got _) (wr_wf ?_ ..)
    exact cur_wf got _

theorem execSfree_wf {s : State} (wf : s.MemWf) (d : BitVec 5) (n st : BitVec 3) : NextWf (execSfree d n st s) := by
  refine issue_wf wf _ _ _ _ ?_
  extract_lets k x t c
  have forgot : t.MemWf := memWf_of_mem wf (forgetStream_mem ..)
  clear_value t c
  refine of_ite BodyWf (wr_wf wf ..) (of_ite BodyWf wf (of_ite BodyWf (raiseStream_wf wf _) (wr_wf ?_ ..)))
  exact cur_wf forgot _

theorem execSstat_wf {s : State} (wf : s.MemWf) (d : BitVec 5) (n st : BitVec 3) : NextWf (execSstat d n st s) :=
  issue_wf wf _ _ _ _ (wr_wf wf ..)

/-! Messages, ports and the tree. -/

theorem execSend_wf {s : State} (wf : s.MemWf) (d a : BitVec 5) (o : BitVec 1) (st : BitVec 3) : NextWf (execSend d a o st s) :=
  issue_wf wf _ _ _ _ (of_ite BodyWf trivial (of_ite BodyWf trivial (of_ite BodyWf wf (memWf_of_mem wf (pushSend_mem ..)))))

theorem putMyCore_wf {s : State} (wf : s.MemWf) (c : Core) : (putMyCore s c).MemWf := memWf_of_mem wf (putMyCore_mem ..)

theorem execPortOpen_wf {s : State} (wf : s.MemWf) (d a : BitVec 5) (st : BitVec 3) : NextWf (execPortOpen d a st s) := by
  refine issue_wf wf _ _ _ _ (of_ite BodyWf trivial (of_ite BodyWf trivial ?_))
  split
  · exact wr_wf wf ..
  · exact wr_wf (putMyCore_wf wf _) ..

theorem execPortClose_wf {s : State} (wf : s.MemWf) (d : BitVec 5) (st : BitVec 3) : NextWf (execPortClose d st s) := by
  refine issue_wf wf _ _ _ _ ?_
  dsimp only
  split
  · exact of_ite BodyWf (wr_wf wf ..) (of_ite BodyWf wf (wr_wf (putMyCore_wf wf _) ..))
  · exact wr_wf wf ..

theorem execTreeInj_wf {s : State} (wf : s.MemWf) (d a : BitVec 5) (st : BitVec 3) : NextWf (execTreeInj d a st s) := by
  refine issue_wf wf _ _ _ _ ?_
  extract_lets h v tail t
  have added : t.MemWf := sysWrite_wf (sysWrite_wf wf ..) ..
  clear_value tail t
  generalize tail - readNat s (treeLoc s.who 0x200) 8 = used
  exact of_ite BodyWf trivial (of_ite BodyWf wf (sysWrite_wf added ..))

theorem execTreeExt_wf {s : State} (wf : s.MemWf) (d a : BitVec 5) (st : BitVec 3) : NextWf (execTreeExt d a st s) := by
  refine issue_wf wf _ _ _ _ ?_
  extract_lets head at1 v h t
  have read : t.MemWf := sysWrite_wf wf ..
  clear_value head t
  exact of_ite BodyWf (wr_wf (wr_wf wf ..) ..) (wr_wf (wr_wf read ..) ..)

/-! Axis arrays and the axis unit. -/

theorem execAxdef_wf {s : State} (wf : s.MemWf) (d a b : BitVec 5) (st : BitVec 3) : NextWf (execAxdef d a b st s) :=
  issue_wf wf _ _ _ _ (withImage_wf wf _ _ _ _ fun _ _ h => defineArray_wf h ..)

theorem execAxdefRelease_wf {s : State} (wf : s.MemWf) (d b : BitVec 5) (st : BitVec 3) : NextWf (execAxdefRelease d b st s) := by
  refine issue_wf wf _ _ _ _ ?_
  split
  · trivial
  · next a _ =>
    have fewer : ({ s with arrays := s.arrays.filter (·.id ≠ a.id) } : State).MemWf := wf
    exact of_ite BodyWf (memWf_of_mem wf (startWave_mem ..)) (of_ite BodyWf wf (wr_wf fewer ..))

theorem execMapSet_wf {s : State} (wf : s.MemWf) (d a b : BitVec 5) (st : BitVec 3) : NextWf (execMapSet d a b st s) :=
  issue_wf wf _ _ _ _ (withArray_wf (fun _ => withImage_wf wf _ _ _ _ fun _ _ h => installMap_wf h ..) _)

theorem execMapSwap_wf {s : State} (wf : s.MemWf) (d a b : BitVec 5) (st : BitVec 3) : NextWf (execMapSwap d a b st s) := by
  refine issue_wf wf _ _ _ _ (withArray_wf (fun x => ?_) _)
  refine of_ite BodyWf trivial (of_ite BodyWf (wr_wf wf ..) (afterWave_wf wf _ ?_))
  exact wr_wf (memWf_of_mem wf (putArr_mem ..)) ..

theorem execMapRd_wf {s : State} (wf : s.MemWf) (d a b : BitVec 5) (st : BitVec 3) : NextWf (execMapRd d a b st s) := by
  refine issue_wf wf _ _ _ _ ?_
  split
  · trivial
  · exact of_ite BodyWf (wr_wf wf ..) (of_ite BodyWf (wr_wf wf ..) trivial)

theorem execRemap_wf {s : State} (wf : s.MemWf) (d a b : BitVec 5) (st : BitVec 3) : NextWf (execRemap d a b st s) := by
  refine issue_wf wf _ _ _ _ (withArray_wf (fun x => ?_) _)
  split
  · trivial
  · exact of_ite BodyWf trivial (of_ite BodyWf (wr_wf (memWf_of_mem wf (startWave_mem ..)) ..)
      (needThen_wf wf _ _ fun _ _ _ h => wr_wf h ..))

theorem execRmwait_wf {s : State} (wf : s.MemWf) (a : BitVec 5) (st : BitVec 3) : NextWf (execRmwait a st s) :=
  issue_wf wf _ _ _ _ (withArray_wf (fun _ => afterWave_wf wf _ (b := .done s []) wf) _)

theorem axmem_wf {s : State} (wf : s.MemWf) (st : BitVec 3) (a b : BitVec 5) (x : Access) (k : Nat)
    {go : AxArray → Nat → State → List (Word × Landing) → Body} (h : ∀ r i t ls, t.MemWf → BodyWf (go r i t ls)) :
    NextWf (axmem s st a b x k go) := by
  unfold axmem
  refine of_ite NextWf (nextWf_raise wf _) (of_ite NextWf (nextWf_raise wf _) ?_)
  split
  · next short => exact nextWf_retire wf _ _ (shortStop_wf wf short)
  · split
    · exact nextWf_raise wf _
    · refine of_ite NextWf (nextWf_raise wf _) ?_
      split
      · exact nextWf_raise wf _
      · next landed =>
        have at1 := landAll_wf wf landed
        split
        · exact nextWf_next (raiseStream_wf at1 _)
        · exact nextWf_retire wf 4 st (b := .wait s .stalled) wf
        · exact nextWf_retire wf _ _ (bodyWf_after (h _ _ _ _ at1) _)

theorem execAxld_wf {s : State} (wf : s.MemWf) (d : BitVec 6) (a b : BitVec 5) (st : BitVec 3) : NextWf (execAxld d a b st s) :=
  axmem_wf wf _ _ _ _ _ fun _ _ _ _ at1 => of_ite BodyWf wf (loads_body_wf wf (loadAll_wf at1 ..) fun _ _ got => cur_wf got _)

theorem execAxst_wf {s : State} (wf : s.MemWf) (d : BitVec 6) (a b : BitVec 5) (st : BitVec 3) : NextWf (execAxst d a b st s) :=
  axmem_wf wf _ _ _ _ _ fun _ _ _ _ at1 => of_ite BodyWf wf (cur_wf at1 _)

theorem execAxctx_wf {s : State} (wf : s.MemWf) (a : BitVec 5) (st : BitVec 3) : NextWf (execAxctx a st s) :=
  issue_wf wf _ _ _ _ (withImage_wf wf _ _ _ _ fun _ _ h => of_ite BodyWf trivial (of_ite BodyWf wf (putMyCore_wf h _)))

theorem execAxmat_wf {s : State} (wf : s.MemWf) (a b : BitVec 5) (st : BitVec 3) : NextWf (execAxmat a b st s) :=
  issue_wf wf _ _ _ _ (withImage_wf wf _ _ _ _ fun _ _ h => memWf_of_mem h (putTile_mem ..))

theorem accept_wf {s : State} (wf : s.MemWf) (r : AxReq) : (acceptReq s r).MemWf := memWf_of_mem wf (acceptReq_mem ..)

theorem execAxap_wf {s : State} (wf : s.MemWf) (d a b : BitVec 5) (st : BitVec 3) : NextWf (execAxap d a b st s) := by
  refine issue_wf wf _ _ _ _ ?_
  dsimp only
  split
  · trivial
  · split
    · exact of_ite BodyWf trivial (of_ite BodyWf trivial (of_ite BodyWf wf (needThen_wf wf _ _ fun _ _ _ h =>
        wr_wf (accept_wf (memWf_of_mem h (putArr_mem ..)) _) ..)))
    · trivial

theorem execAxmm_wf {s : State} (wf : s.MemWf) (d : BitVec 6) (a : BitVec 5) (st : BitVec 3) : NextWf (execAxmm d a st s) := by
  unfold execAxmm
  refine of_ite NextWf (nextWf_raise wf _) (of_ite NextWf (nextWf_raise wf _) ?_)
  split
  · next short => exact nextWf_retire wf _ _ (shortStop_wf wf short)
  · refine nextWf_retire wf _ _ (bodyWf_after (withImage_wf wf _ _ _ _ fun img t h => ?_) _)
    dsimp only
    split
    · refine of_ite BodyWf trivial (of_ite BodyWf trivial ?_)
      split
      · exact raiseStream_wf h _
      · exact wf
      · exact of_ite BodyWf wf (accept_wf (cur_wf h _) _)
    · trivial

theorem execAxdrain_wf {s : State} (wf : s.MemWf) (d a b : BitVec 5) (st : BitVec 3) : NextWf (execAxdrain d a b st s) := by
  refine issue_wf wf _ _ _ _ (of_ite BodyWf trivial ?_)
  have touched (c : FmtCtx) : (drainTouch s c).MemWf := memWf_of_mem wf (drainTouch_mem ..)
  split
  · trivial
  · exact of_ite BodyWf (raise_wf (touched _) _) (of_ite BodyWf wf (wr_wf (accept_wf (touched _) _) ..))

theorem execAxstat_wf {s : State} (wf : s.MemWf) (d a : BitVec 5) (st : BitVec 3) : NextWf (execAxstat d a st s) :=
  issue_wf wf _ _ _ _ (axisTest_wf (wait := fun s => .done (wr s d 0) []) (hit := fun s => .done (wr s d 1) []) (wr_wf wf ..) (wr_wf wf ..) _)

theorem execAxwait_wf {s : State} (wf : s.MemWf) (a : BitVec 5) (st : BitVec 3) : NextWf (execAxwait a st s) :=
  issue_wf wf _ _ _ _ (axisTest_wf (wait := fun s => .wait s .stalled) (hit := fun s => .done s []) wf wf _)

theorem execLaunch_wf {s : State} (wf : s.MemWf) (a : BitVec 5) (st : BitVec 3) : NextWf (execLaunch a st s) :=
  issue_wf wf _ _ _ _ (launchBody_wf wf _ (fun _ h => h) fun _ h => h)

theorem execLaunchTry_wf {s : State} (wf : s.MemWf) (d a : BitVec 5) (st : BitVec 3) : NextWf (execLaunchTry d a st s) :=
  issue_wf wf _ _ _ _ (launchBody_wf wf _ (fun _ h => wr_wf h ..) fun _ h => wr_wf h ..)

end Sys2Proof.Proofs

/-! SUPPORT. Proofs: the canonical form of memory (O59): events of contexts, messages and motion. -/

namespace Sys2Proof.Proofs
open Sys2Proof Sys2Proof.Machine Sys2Proof.Laws

theorem putCtx_wf {s : State} (wf : s.MemWf) (a : Nat) (c : Ctx) : (putCtx s a c).MemWf := memWf_of_mem wf (putCtx_mem ..)

theorem putCore_wf {s : State} (wf : s.MemWf) (k : Nat) (c : Core) : (putCore s k c).MemWf := memWf_of_mem wf (putCore_mem ..)

theorem putTile_wf {s : State} (wf : s.MemWf) (k : Nat) (c : Tile) : (putTile s k c).MemWf := memWf_of_mem wf (putTile_mem ..)

theorem putDie_wf {s : State} (wf : s.MemWf) (k : Nat) (c : Die) : (putDie s k c).MemWf := memWf_of_mem wf (putDie_mem ..)

theorem dropReply_wf {s : State} (wf : s.MemWf) (i : Nat) : (dropReply s i).MemWf := memWf_of_mem wf (dropReply_mem ..)

theorem dropMsg_wf {s : State} (wf : s.MemWf) (i : Nat) : (dropMsg s i).MemWf := memWf_of_mem wf (dropMsg_mem ..)

theorem reply_wf {s : State} (wf : s.MemWf) (m : Msg) (status : Nat) (data : List Byte) (spots : List Nat) :
    (reply s m status data spots).MemWf := memWf_of_mem wf (reply_mem ..)

/-! Waits that end, entries that leave their buffer, and replies. -/

/-- A context that goes on with an instruction it had begun keeps memory in its form. -/
theorem focusRetire_wf {s : State} (wf : s.MemWf) (a : Nat) (st : BitVec 3) {b : State → Body} (h : ∀ t, t.MemWf → BodyWf (b t)) :
    NextWf (.next (withFocus s a fun t => retire t 4 st (b t))) := nextWf_next (withFocus_wf wf a fun t at1 => retire_wf at1 4 st (h t at1))

theorem execWaitWake_wf {s : State} (wf : s.MemWf) (ctx : Nat) : NextWf (execWaitWake ctx s) := by
  unfold execWaitWake
  split
  · exact focusRetire_wf wf _ _ fun _ h => waitBody_wf h ..
  · exact nextWf_next wf

theorem execWaitPoll_wf {s : State} (wf : s.MemWf) (ctx : Nat) : NextWf (execWaitPoll ctx s) := by
  unfold execWaitPoll
  split
  · exact of_ite NextWf (focusRetire_wf wf _ _ fun _ h => waitBody_wf h ..) (nextWf_next wf)
  · exact nextWf_next wf

theorem execSleepWake_wf {s : State} (wf : s.MemWf) (ctx : Nat) : NextWf (execSleepWake ctx s) := by
  unfold execSleepWake
  split
  · exact of_ite NextWf (focusRetire_wf wf _ _ (b := fun s => .done s []) fun _ h => h) (nextWf_next wf)
  · exact nextWf_next wf

theorem execPauseEnd_wf {s : State} (wf : s.MemWf) (ctx : Nat) : NextWf (execPauseEnd ctx s) := by
  unfold execPauseEnd
  extract_lets c
  split
  · exact of_ite NextWf (nextWf_next (putCtx_wf wf ..)) (nextWf_next wf)
  · exact nextWf_next wf

theorem replyTouch_wf {s : State} (wf : s.MemWf) (a : Nat) (engine : Bool) (k : Nat) : (replyTouch s a engine k).MemWf :=
  memWf_of_mem wf (replyTouch_mem ..)

theorem execPagerReply_wf {s : State} (wf : s.MemWf) (ctx : Nat) : NextWf (execPagerReply ctx s) := by
  unfold execPagerReply
  split
  · split
    · exact nextWf_next wf
    · next l _ =>
      extract_lets v
      clear_value v
      exact of_ite NextWf (nextWf_next wf) (of_ite NextWf (nextWf_next (putCtx_wf (replyTouch_wf wf ..) ..))
        (nextWf_next (withFocus_wf (replyTouch_wf wf ..) _ fun _ h => enterTrap_wf h ..)))
  · exact nextWf_next wf

theorem execEngineFaultReply_wf {s : State} (wf : s.MemWf) (ctx : Nat) : NextWf (execEngineFaultReply ctx s) := by
  unfold execEngineFaultReply
  extract_lets c
  split
  · exact nextWf_next wf
  · split
    · exact nextWf_next wf
    · extract_lets v
      clear_value v
      exact of_ite NextWf (nextWf_next wf) (nextWf_next (putCtx_wf (replyTouch_wf wf ..) ..))

theorem execRealignTimeout_wf {s : State} (wf : s.MemWf) (ctx : Nat) : NextWf (execRealignTimeout ctx s) := by
  unfold execRealignTimeout
  split
  · exact of_ite NextWf (nextWf_next (leaveRealign_wf wf _)) (nextWf_next wf)
  · exact nextWf_next wf

theorem leaveBuffer_wf {s : State} (wf : s.MemWf) (a : Nat) (e : StoreEntry) (rest : List StoreEntry) (n : Nat) :
    (leaveBuffer s a e rest n).MemWf := memWf_of_mem wf (leaveBuffer_mem ..)

theorem execStoreBufferDrain_wf {s : State} (wf : s.MemWf) (ctx : Nat) : NextWf (execStoreBufferDrain ctx s) := by
  unfold execStoreBufferDrain
  split
  · exact nextWf_next wf
  · refine of_ite NextWf (nextWf_next wf) ?_
    split
    · split
      · exact nextWf_next (leaveBuffer_wf wf ..)
      · exact nextWf_next (leaveBuffer_wf wf ..)
    · exact nextWf_next (leaveBuffer_wf wf ..)

theorem execStoreAck_wf {s : State} (wf : s.MemWf) (i : Nat) : NextWf (execStoreAck i s) := by
  have dropped := dropReply_wf wf i
  unfold execStoreAck
  split
  · exact nextWf_next wf
  · split
    · exact nextWf_next (putCtx_wf dropped ..)
    · exact nextWf_next (putCtx_wf dropped ..)
    · exact nextWf_next dropped
    · exact nextWf_next dropped
    · exact nextWf_next dropped
    · exact nextWf_next dropped
    · exact nextWf_next wf

theorem execLoadReply_wf {s : State} (wf : s.MemWf) (i : Nat) : NextWf (execLoadReply i s) := by
  unfold execLoadReply
  split
  · exact nextWf_next wf
  · split
    · exact nextWf_next (withFocus_wf (dropReply_wf wf _) _ fun _ h => commitLoads_wf (cur_wf h _) _)
    · exact nextWf_next wf

theorem execReplayNotice_wf {s : State} (wf : s.MemWf) (ctx : Nat) : NextWf (execReplayNotice ctx s) := by
  unfold execReplayNotice
  split
  · exact of_ite NextWf (nextWf_next wf) (nextWf_next (memWf_of_mem wf (resend_mem ..)))
  · exact nextWf_next wf

theorem execHostCompletion_wf {s : State} (wf : s.MemWf) (ctx status : Nat) (data : BitVec 512) : NextWf (execHostCompletion ctx status data s) := by
  have posted := deliverPosted_wf wf
  have again {t : State} (h : t.MemWf) (trap : Trap) : (raiseIn { t with cur := { t.cur with wait := .ready } } trap).MemWf :=
    raiseIn_wf (cur_wf h _) trap
  unfold execHostCompletion
  split
  · exact nextWf_next (withFocus_wf posted _ fun t h => wf_ite (retire_wf h _ _ (wr_wf (hostAmo_wf h ..) ..)) (again h _))
  · exact nextWf_next (withFocus_wf posted _ fun t h => wf_ite (cur_wf h _) (wf_ite (cur_wf h _) (again h _)))
  · exact nextWf_next (withFocus_wf wf _ fun t h => wf_ite (engCompletion_wf h ..) (wf_ite (again h _)
      (wf_ite (retire_wf h _ _ h) h)))
  · exact nextWf_next (engCompletion_wf wf ..)

theorem execRowReservationTimeout_wf {s : State} (wf : s.MemWf) (i : Nat) : NextWf (execRowReservationTimeout i s) := by
  unfold execRowReservationTimeout
  split
  · exact of_ite NextWf (nextWf_next (s := { s with reserved := s.reserved.eraseIdx i }) wf) (nextWf_next wf)
  · exact nextWf_next wf

theorem execHomeRequest_wf {s : State} (wf : s.MemWf) (i : Nat) : NextWf (execHomeRequest i s) := by
  unfold execHomeRequest
  split
  · exact of_ite NextWf (nextWf_next (serveMsg_wf (dropMsg_wf wf _) ..)) (nextWf_next wf)
  · exact nextWf_next wf

/-! Records, counters and barriers. -/

theorem arriveLocal_getD_wf {s : State} (wf : s.MemWf) (i : Nat) (m : Msg) (hdr : Word) (regs : Vector Word 8) :
    ((arriveLocal s i m hdr regs).getD s).MemWf := by
  cases h : arriveLocal s i m hdr regs with
  | none => exact wf
  | some u => exact arriveLocal_wf wf h

theorem countArrival_getD_wf {s u : State} (wf : s.MemWf) (at1 : u.MemWf) (core : Nat) (r : TaskRec) (m : Msg) :
    ((countArrival u core r m).getD s).MemWf := by
  cases h : countArrival u core r m with
  | none => exact wf
  | some v => exact countArrival_wf at1 h

theorem execRecordArrival_wf {s : State} (wf : s.MemWf) (i : Nat) : NextWf (execRecordArrival i s) := by
  unfold execRecordArrival
  split
  · split
    · refine of_ite NextWf (nextWf_next wf) ?_
      split
      · exact nextWf_next (reply_wf (dropMsg_wf wf _) ..)
      · next m _ _ core r _ _ g _ =>
        have accepted {u : State} (h : (if m.src = devAgent core.toNat then acceptAt s g core.toNat r.pri r
            else acceptNext s g core.toNat r.pri r) = some u) : u.MemWf := by
          split at h
          · exact acceptAt_wf wf h
          · exact acceptNext_wf wf h
        split
        · next h => exact nextWf_next (reply_wf (dropMsg_wf (accepted h) _) ..)
        · exact nextWf_next wf
    · exact of_ite NextWf (nextWf_next wf) (nextWf_next (arriveLocal_getD_wf wf ..))
    · exact nextWf_next wf
  · exact nextWf_next wf

theorem execCounterDecrement_wf {s : State} (wf : s.MemWf) (i : Nat) : NextWf (execCounterDecrement i s) := by
  unfold execCounterDecrement
  split
  · split
    · exact of_ite NextWf (nextWf_next wf) (nextWf_next (countArrival_getD_wf wf (dropMsg_wf wf _) ..))
    · exact of_ite NextWf (nextWf_next wf) (nextWf_next (arriveLocal_getD_wf wf ..))
    · exact nextWf_next wf
  · exact nextWf_next wf

theorem execMreqReply_wf {s : State} (wf : s.MemWf) (i : Nat) : NextWf (execMreqReply i s) := by
  unfold execMreqReply
  split
  · exact nextWf_next wf
  · next r _ =>
    extract_lets go
    have gone (tag : BitVec 6) (write : Bool) : (go tag write).MemWf := by
      unfold go
      dsimp only
      split
      · exact dropReply_wf wf _
      · refine wf_ite wf ?_
        split
        · exact wf
        · next h => exact tryStart_wf (putCtx_wf (dropReply_wf (acceptNext_wf wf h) _) ..) _
    clear_value go
    split
    · exact nextWf_next (gone ..)
    · exact nextWf_next (gone ..)
    · exact nextWf_next wf

theorem execBarrierArrival_wf {s : State} (wf : s.MemWf) (i : Nat) : NextWf (execBarrierArrival i s) := by
  unfold execBarrierArrival
  split
  · split
    · exact of_ite NextWf (nextWf_next (reply_wf (memWf_of_mem (dropMsg_wf wf _) (arriveBar_mem ..)) ..)) (nextWf_next wf)
    · exact nextWf_next wf
  · exact nextWf_next wf

theorem execBarrierRelease_wf {s : State} (wf : s.MemWf) (i : Nat) : NextWf (execBarrierRelease i s) := by
  unfold execBarrierRelease
  split
  · split
    · exact of_ite NextWf (nextWf_next (reply_wf (memWf_of_mem (dropMsg_wf wf _) (releaseBar_mem ..)) ..)) (nextWf_next wf)
    · exact nextWf_next wf
  · exact nextWf_next wf

theorem execTaskStart_wf {s : State} (wf : s.MemWf) (ctx : Nat) : NextWf (execTaskStart ctx s) := nextWf_next (tryStart_wf wf _)

theorem execTreeContribution_wf {s : State} (wf : s.MemWf) (ctx : Nat) : NextWf (execTreeContribution ctx s) := by
  unfold execTreeContribution
  extract_lets head v h cl c t c1 u
  have taken : t.MemWf := sysWrite_wf wf ..
  have added : u.MemWf := memWf_of_mem taken (putCluster_mem ..)
  clear_value head u
  exact of_ite NextWf (nextWf_next wf) (of_ite NextWf (nextWf_next wf) (nextWf_next (memWf_of_mem added (settle_mem ..))))

theorem execTreeResult_wf {s : State} (wf : s.MemWf) (i : Nat) : NextWf (execTreeResult i s) := by
  unfold execTreeResult
  split
  · exact nextWf_next wf
  · next ctx v h tag _ =>
    extract_lets tail u at1 t
    have taken : u.MemWf := wf
    have written : t.MemWf := sysWrite_wf (sysWrite_wf taken ..) ..
    clear_value tail t
    generalize tail - readNat s (treeLoc ctx 0x210) 8 = used
    exact of_ite NextWf (nextWf_next wf) (nextWf_next (sysWrite_wf written ..))

/-! Motion, walks and soft errors. -/

theorem execTurnipMotionStart_wf {s : State} (wf : s.MemWf) (die : Nat) : NextWf (execTurnipMotionStart die s) := by
  unfold execTurnipMotionStart
  extract_lets d
  split
  · exact nextWf_next wf
  · extract_lets s1 e
    have begun : s1.MemWf := putDie_wf wf ..
    clear_value s1 e
    refine of_ite NextWf (nextWf_next wf) (of_ite NextWf (nextWf_next (postAbort_wf begun ..)) ?_)
    split
    · exact nextWf_next (postAbort_wf begun ..)
    · next h => exact nextWf_next (putDie_wf (takeFrame_wf begun h) ..)

theorem execTurnipCopyStep_wf {s : State} (wf : s.MemWf) (die i : Nat) : NextWf (execTurnipCopyStep die i s) := by
  unfold execTurnipCopyStep
  extract_lets d
  split
  · exact nextWf_next wf
  · next m _ =>
    extract_lets a b s1 m1 s2 e
    have copied : s1.MemWf := copyLine_wf wf m
    have forwarding : s2.MemWf := putDie_wf copied ..
    have aborted (cause : Nat) : NextWf (.next (abortActive s die i cause)) := nextWf_next (abortActive_wf wf ..)
    have moved (t : State) (h : t.MemWf) (v : Nat) : (passForward (sysWrite t m.leaf 16 v) m).MemWf :=
      memWf_of_mem (sysWrite_wf h ..) (passForward_mem ..)
    clear_value s1 s2 e
    exact of_ite NextWf (nextWf_next wf) (of_ite NextWf (aborted _) (of_ite NextWf (aborted _) (of_ite NextWf (nextWf_next wf)
      (of_ite NextWf (aborted _) (of_ite NextWf (nextWf_next (putDie_wf copied ..)) (of_ite NextWf (nextWf_next (moved _ forwarding _))
      (nextWf_next (abortActive_wf (putDie_wf copied ..) ..))))))))

theorem execSweepComplete_wf {s : State} (wf : s.MemWf) (die i : Nat) : NextWf (execSweepComplete die i s) := by
  unfold execSweepComplete
  extract_lets d
  split
  · exact nextWf_next wf
  · next m _ =>
    refine of_ite NextWf (nextWf_next wf) ?_
    extract_lets u
    have swept : u.MemWf := memWf_of_mem (putDie_wf wf ..) (dropTlb_mem ..)
    clear_value u
    have cold : ({ u with hot := mapSet {} u.hot m.src {} } : State).MemWf := swept
    exact nextWf_next (postRec_wf cold _)

theorem execEpochEnd_wf {s : State} (wf : s.MemWf) : NextWf (execEpochEnd s) :=
  nextWf_next (wf_ite (memWf_of_mem wf (endEpoch_mem _)) wf)

theorem execPageWalk_wf {s : State} (wf : s.MemWf) (ctx : Nat) (va : VAddr) (acc : Nat) : NextWf (execPageWalk ctx va acc s) := by
  unfold execPageWalk
  split
  · next h => exact nextWf_next (translate_wf wf h)
  · exact nextWf_next wf

theorem execSoftError_wf {s : State} (wf : s.MemWf) (loc : Nat) (corrected : Bool) : NextWf (execSoftError loc corrected s) := by
  have struck : (softError s loc corrected).MemWf := memWf_of_mem wf (softError_mem ..)
  unfold execSoftError
  extract_lets s1
  refine of_ite NextWf (nextWf_next struck) ?_
  split
  · exact nextWf_next (abortActive_wf struck ..)
  · exact nextWf_next struck

end Sys2Proof.Proofs

/-! SUPPORT. Proofs: the canonical form of memory (O59): events of transfer units, regions, the device and the host. -/

namespace Sys2Proof.Proofs
open Sys2Proof Sys2Proof.Machine Sys2Proof.Laws

/-! The transfer unit, streams and ports. -/

theorem execDictFillComplete_wf {s : State} (wf : s.MemWf) (tile : Nat) : NextWf (execDictFillComplete tile s) := by
  unfold execDictFillComplete
  extract_lets t
  split
  · exact nextWf_next (putTile_wf wf ..)
  · exact nextWf_next wf

theorem execCopyStart_wf {s : State} (wf : s.MemWf) (core : Nat) : NextWf (execCopyStart core s) := by
  unfold execCopyStart
  extract_lets tile t running
  clear_value running
  refine of_ite NextWf (nextWf_next wf) ?_
  split
  · exact nextWf_next wf
  · split
    · exact nextWf_next wf
    · next c _ =>
      refine of_ite NextWf (nextWf_next wf) ?_
      extract_lets r k turn
      have ran : r.2.MemWf := runCopy_wf (putTile_wf wf ..) tile c
      clear_value r turn
      exact nextWf_next (putCore_wf ran ..)

theorem execCopyComplete_wf {s : State} (wf : s.MemWf) (core : Nat) : NextWf (execCopyComplete core s) := by
  unfold execCopyComplete
  extract_lets k
  split
  · exact nextWf_next wf
  · exact nextWf_next (putCore_wf wf ..)

theorem dropWords_wf {s : State} (wf : s.MemWf) (a key : Nat) : (dropWords s a key).MemWf := memWf_of_mem wf (dropWords_mem ..)

theorem execStreamFetch_wf {s : State} (wf : s.MemWf) (ctx n : Nat) : NextWf (execStreamFetch ctx n s) := by
  unfold execStreamFetch
  split
  · next lt =>
    extract_lets k x put u
    have placed {t : State} (h : t.MemWf) (e : StreamElem) : (put t e).MemWf := putCtx_wf h ..
    have read := engRead_wf wf u ctx x.high (streamAddr x x.moved) 32
    clear_value put
    refine of_ite NextWf (nextWf_next wf) ?_
    split
    · next h => rw [h] at read; exact nextWf_next (memWf_of_mem read (unmade_mem ..))
    · next h => rw [h] at read; exact nextWf_next (placed (dropWords_wf read ..) _)
    · next h => rw [h] at read; exact nextWf_next (placed (dropWords_wf read ..) _)
  · exact nextWf_next wf

theorem execStreamWrite_wf {s : State} (wf : s.MemWf) (ctx n : Nat) : NextWf (execStreamWrite ctx n s) := by
  unfold execStreamWrite
  split
  · next lt =>
    extract_lets k x
    split
    · exact nextWf_next wf
    · next put u _ e _ _ =>
      have placed {t : State} (h : t.MemWf) (bad : Bool) : (put t bad).MemWf := putCtx_wf h ..
      have landed := engLands_wf wf u ctx x.high [(streamAddr x x.moved, toBytes 32 e.data.toNat)]
      clear_value put
      refine of_ite NextWf (nextWf_next wf) ?_
      split
      · next h => rw [h] at landed; exact nextWf_next (memWf_of_mem landed (unmade_mem ..))
      · next h => rw [h] at landed; exact nextWf_next (placed landed _)
      · next l t h =>
        rw [h] at landed
        refine nextWf_next (placed (foldl_snd_wf _ ?_ l (false, t) landed) _)
        exact fun _ _ at1 => engServe_wf at1 ..
  · exact nextWf_next wf

theorem execPortRouteOpen_wf {s : State} (wf : s.MemWf) (core : Nat) : NextWf (execPortRouteOpen core s) := by
  unfold execPortRouteOpen
  extract_lets c
  split
  · exact nextWf_next wf
  · exact of_ite NextWf (nextWf_next wf) (nextWf_next (putCore_wf wf ..))

/-! Axis arrays and the axis unit. -/

theorem execFennelExchangeStep_wf {s : State} (wf : s.MemWf) (tile slot : Nat) : NextWf (execFennelExchangeStep tile slot s) := by
  unfold execFennelExchangeStep
  split
  · exact nextWf_next wf
  · exact of_ite NextWf (nextWf_next wf) (nextWf_next (exchangeSet_wf wf ..))

theorem execAxisRequestStart_wf {s : State} (wf : s.MemWf) (tile : Nat) : NextWf (execAxisRequestStart tile s) := by
  unfold execAxisRequestStart
  extract_lets t turn
  clear_value turn
  split
  · exact nextWf_next wf
  · next k =>
    extract_lets u
    have turned : u.MemWf := putTile_wf wf ..
    clear_value u
    refine of_ite NextWf ?_ ?_
    · split
      · exact nextWf_next (startReq_wf turned ..)
      · exact nextWf_next turned
    · split
      · exact nextWf_next (runUnit_wf turned ..)
      · exact nextWf_next turned

theorem execAxisRequestComplete_wf {s : State} (wf : s.MemWf) (tile : Nat) : NextWf (execAxisRequestComplete tile s) := by
  unfold execAxisRequestComplete
  split
  · exact nextWf_next wf
  · extract_lets c
    split
    · exact nextWf_next wf
    · extract_lets s1
      have left : s1.MemWf := putCore_wf wf ..
      clear_value s1
      refine nextWf_next ?_
      split
      · exact wf_ite (memWf_of_mem left (putArr_mem ..)) left
      · exact left

/-! Regions, dispatchers and cores. -/

theorem execBudgetExhausted_wf {s : State} (wf : s.MemWf) (rcb : Nat) : NextWf (execBudgetExhausted rcb s) := by
  unfold execBudgetExhausted
  split
  · exact nextWf_next wf
  · exact nextWf_next (wf_ite (memWf_of_mem (charge_wf wf _) (judgeBudgets_mem ..)) wf)

theorem execDispatcherTakeRecord_wf {s : State} (wf : s.MemWf) (q : Nat) : NextWf (execDispatcherTakeRecord q s) := by
  unfold execDispatcherTakeRecord
  extract_lets die d turn base h at1 b l dev t u
  have taken : u.MemWf := putDie_wf (s := t) wf ..
  clear_value turn l u
  exact of_ite NextWf (nextWf_next wf) (of_ite NextWf (nextWf_next (pump_wf wf _)) (of_ite NextWf (nextWf_next (pump_wf wf _))
    (nextWf_next (wf_ite (memWf_of_mem taken (reportDiscard_mem ..)) (pump_wf (memWf_of_mem taken (enterLaunch_mem ..)) _)))))

theorem execTeamStart_wf {s : State} (wf : s.MemWf) (core : Nat) : NextWf (execTeamStart core s) := by
  unfold execTeamStart
  extract_lets cl
  split
  · refine of_ite NextWf (nextWf_next wf) ?_
    split
    · exact nextWf_next wf
    · exact nextWf_next (pump_wf (startTeam_wf (putDie_wf wf ..) ..) _)
  · exact nextWf_next wf

theorem execRegionGrant_wf {s : State} (wf : s.MemWf) (die : Nat) : NextWf (execRegionGrant die s) := by
  unfold execRegionGrant
  split
  · exact nextWf_next wf
  · exact of_ite NextWf (nextWf_next wf) (nextWf_next (grantLaunch_wf wf _))

theorem execUtilFlush_wf {s : State} (wf : s.MemWf) (cluster : Nat) : NextWf (execUtilFlush cluster s) :=
  nextWf_next (wf_ite wf (flushUtil_wf wf _))

theorem execRegionDone_wf {s : State} (wf : s.MemWf) (rcb : Nat) : NextWf (execRegionDone rcb s) := by
  unfold execRegionDone
  split
  · exact nextWf_next wf
  · exact of_ite NextWf (nextWf_next wf) (nextWf_next (pumpAll_wf (setStatus_wf (memWf_of_mem (closeBooks_wf wf _) (dropRegion_mem ..)) ..)))

theorem execIssueChoice_wf {s : State} (wf : s.MemWf) (core : Nat) : NextWf (execIssueChoice core s) := by
  unfold execIssueChoice
  split
  · exact nextWf_next (memWf_of_mem wf (focus_mem ..))
  · exact nextWf_next wf

theorem execLowPrecedenceStart_wf {s : State} (wf : s.MemWf) (core : Nat) : NextWf (execLowPrecedenceStart core s) :=
  of_ite NextWf (nextWf_next (putCore_wf wf ..)) (nextWf_next wf)

theorem execLowPrecedenceEnd_wf {s : State} (wf : s.MemWf) (core : Nat) : NextWf (execLowPrecedenceEnd core s) := by
  unfold execLowPrecedenceEnd
  extract_lets c
  split
  · exact of_ite NextWf (nextWf_next (putCore_wf wf ..)) (nextWf_next wf)
  · exact nextWf_next wf

theorem putRegion_wf {s : State} (wf : s.MemWf) (g : Region) : (putRegion s g).MemWf := wf

theorem execDuskSave_wf {s : State} (wf : s.MemWf) (rcb : Nat) : NextWf (execDuskSave rcb s) := by
  unfold execDuskSave
  split
  · exact nextWf_next wf
  · exact of_ite NextWf (nextWf_next wf) (nextWf_next (wf_ite (saveImage_wf (putRegion_wf wf _) _) (putRegion_wf wf _)))

theorem recount_wf {s : State} (wf : s.MemWf) (rcb core : Nat) : (recount s rcb core).MemWf := by
  unfold recount
  split
  · exact wf
  · refine foldl_wf _ (fun t x h => ?_) _ _ (putRegion_wf wf _)
    dsimp only
    cases x.due with
    | none => exact countRecord_wf h ..
    | some m => exact reply_wf (countRecord_wf h ..) ..

theorem execDuskRestore_wf {s : State} (wf : s.MemWf) (rcb : Nat) : NextWf (execDuskRestore rcb s) := by
  unfold execDuskRestore
  split
  · exact nextWf_next wf
  · next g _ =>
    refine of_ite NextWf (nextWf_next wf) ?_
    extract_lets area img claimed read withArrays base run cores
    have back : read.MemWf := foldl_wf _ (fun _ _ h => clusterIn_wf h ..) _ _ (memWf_of_mem (claimWaiting_wf wf) (agePassed_mem ..))
    have arrays : withArrays.MemWf := back
    have begun : run.MemWf := beginRun_wf arrays ..
    clear_value run
    exact nextWf_next (pumpAll_wf (foldl_wf _ (fun _ _ h => recount_wf (refill_wf (refill_wf h ..) ..) ..) _ _ begun))

/-! The device, its links and the host. -/

theorem setPstate_wf {s : State} (wf : s.MemWf) (p : Nat) : (setPstate s p).MemWf := memWf_of_mem wf (setPstate_mem ..)

theorem logEvent_wf {s : State} (wf : s.MemWf) (source code detail : Nat) : (logEvent s source code detail).MemWf :=
  memWf_of_mem wf (logEvent_mem ..)

theorem putLink_wf {s : State} (wf : s.MemWf) (l : Nat) (x : GLink) : (putLink s l x).MemWf := memWf_of_mem wf (putLink_mem ..)

theorem putLinkReg_wf {s : State} (wf : s.MemWf) (l : Nat) (v : Word) : (putLinkReg s l v).MemWf := memWf_of_mem wf (putLinkReg_mem ..)

theorem checkImage_wf {s : State} (wf : s.MemWf) (absent : BitVec 12) (links : BitVec 16) : (checkImage s absent links).MemWf :=
  memWf_of_mem wf (checkImage_mem ..)

theorem execEventPost_wf {s : State} (wf : s.MemWf) : NextWf (execEventPost s) := by
  unfold execEventPost
  split
  · exact nextWf_next wf
  · next e _ =>
    have written : (sysBytes s (evSlot s) (eventBytes e)).MemWf := sysBytes_wf wf ..
    exact of_ite NextWf (nextWf_next wf) (nextWf_next (memWf_of_mem written rfl))

theorem execNoonSample_wf {s : State} (wf : s.MemWf) (watts : List Nat) : NextWf (execNoonSample watts s) := by
  unfold execNoonSample
  extract_lets w total limit t drawn draws above capped mask p v dev
  have told : t.MemWf := wf_ite wf (logEvent_wf wf ..)
  clear_value t draws p v
  exact of_ite NextWf (nextWf_next wf) (nextWf_next (memWf_of_mem told rfl))

theorem execEnterP2_wf {s : State} (wf : s.MemWf) : NextWf (execEnterP2 s) :=
  of_ite NextWf (nextWf_next (setPstate_wf wf _)) (nextWf_next wf)

theorem receivePayload_wf {s : State} (wf : s.MemWf) (link : Nat) (body : List Nat) : (receivePayload s link body).MemWf := by
  have awake : (wakeP2 s).MemWf := memWf_of_mem wf (wakeP2_mem s)
  have record (src e : Nat) : (receiveRecord (wakeP2 s) src e body).MemWf :=
    wf_ite (memWf_of_mem awake (againAck_mem ..)) (wf_ite awake (passOn_wf (memWf_of_mem awake (putRx_mem ..)) ..))
  have ack (src e : Nat) : (receiveAck (wakeP2 s) src e body).MemWf :=
    wf_ite awake (memWf_of_mem (passAcks_wf (memWf_of_mem awake (putRx_mem ..)) ..) (pumpStream_mem ..))
  exact wf_ite wf (wf_ite (memWf_of_mem wf (forwardFlit_mem ..)) (wf_ite (record ..) (ack ..)))

theorem execGoldexFlitReceive_wf {s : State} (wf : s.MemWf) (link : Nat) (flit : List Nat) : NextWf (execGoldexFlitReceive link flit s) := by
  unfold execGoldexFlitReceive
  extract_lets x kind s1 s2 body
  have taken : s2.MemWf := memWf_of_mem wf (takeFlit_mem ..)
  have linked : s1.MemWf := putLink_wf wf ..
  clear_value s1 s2 x kind body
  exact of_ite NextWf (nextWf_next wf) (of_ite NextWf (nextWf_next wf) (of_ite NextWf (nextWf_next linked)
    (nextWf_next (wf_ite (receivePayload_wf taken ..) (wf_ite (memWf_of_mem taken (takeTime_mem ..)) taken)))))

theorem execLinkReplayTimeout_wf {s : State} (wf : s.MemWf) (link : Nat) : NextWf (execLinkReplayTimeout link s) := by
  unfold execLinkReplayTimeout
  extract_lets x
  split
  · exact nextWf_next wf
  · exact of_ite NextWf (of_ite NextWf (nextWf_next (putLink_wf wf ..)) (nextWf_next (putLinkReg_wf (putLink_wf wf ..) ..))) (nextWf_next wf)

theorem execRetrainStart_wf {s : State} (wf : s.MemWf) (link : Nat) : NextWf (execRetrainStart link s) := by
  have dropped : (dropLink s link).MemWf := memWf_of_mem wf (dropLink_mem ..)
  exact of_ite NextWf (nextWf_next wf) (nextWf_next (logEvent_wf (putLinkReg_wf (putLink_wf dropped ..) ..) ..))

theorem execRetrainEnd_wf {s : State} (wf : s.MemWf) (link : Nat) (up : Bool) : NextWf (execRetrainEnd link up s) :=
  of_ite NextWf (nextWf_next wf) (nextWf_next (memWf_of_mem wf (endRetrain_mem ..)))

theorem execEndToEndResend_wf {s : State} (wf : s.MemWf) (i : Nat) : NextWf (execEndToEndResend i s) :=
  nextWf_next (passOn_wf (memWf_of_mem (resendDue_wf (resendDue_wf wf ..) ..) (pumpStream_mem ..)) ..)

theorem execBounceTimeout_wf {s : State} (wf : s.MemWf) (i : Nat) : NextWf (execBounceTimeout i s) := by
  unfold execBounceTimeout
  split
  · exact nextWf_next wf
  · next r _ =>
    extract_lets dst g t
    have cleared : t.MemWf := by
      unfold t
      split
      · exact wf
      · exact memWf_of_mem wf (putTx_mem ..)
    clear_value t
    have fewer : ({ t with remotes := t.remotes.eraseIdx i } : State).MemWf := cleared
    exact of_ite NextWf (nextWf_next wf) (of_ite NextWf (nextWf_next wf) (nextWf_next (bounce_wf fewer ..)))

theorem execTimeFlitSend_wf {s : State} (wf : s.MemWf) : NextWf (execTimeFlitSend s) := by
  have sent : (sendTime s s.stamp 16).MemWf := memWf_of_mem wf (sendTime_mem ..)
  unfold execTimeFlitSend
  split
  · exact nextWf_next sent
  · exact nextWf_next wf

theorem execTimeFlitReceive_wf {s : State} (wf : s.MemWf) (link : Nat) (count : BitVec 64) : NextWf (execTimeFlitReceive link count s) :=
  of_ite NextWf (nextWf_next wf) (nextWf_next (memWf_of_mem (memWf_of_mem wf (takeFlit_mem ..)) (takeTime_mem ..)))

theorem execP2Wake_wf {s : State} (wf : s.MemWf) : NextWf (execP2Wake s) := by
  have awake : ({ setPstate s 0 with idleSince := s.stamp } : State).MemWf := setPstate_wf wf 0
  exact of_ite NextWf (nextWf_next (foldl_wf _ (fun _ _ h => passOn_wf h ..) _ _ awake)) (nextWf_next wf)

theorem execP3Exit_wf {s : State} (wf : s.MemWf) : NextWf (execP3Exit s) := by
  have zeroed : (zeroRange (setPstate s 0) isSlice).MemWf := zeroRange_wf (setPstate_wf wf 0) _
  unfold execP3Exit
  split
  · split
    · exact nextWf_next zeroed
    · exact nextWf_next wf
  · exact nextWf_next wf

theorem execDawn_wf {s : State} (wf : s.MemWf) (absent : BitVec 12) (links : BitVec 16) : NextWf (execDawn absent links s) :=
  of_ite NextWf (nextWf_next (setPstate_wf (darkState_wf wf) _)) (nextWf_next (checkImage_wf (darkState_wf wf) ..))

theorem execMailboxImage_wf {s : State} (wf : s.MemWf) (image : List Byte) : NextWf (execMailboxImage image s) := by
  have loaded : ({ s with image := image } : State).MemWf := wf
  exact of_ite NextWf (nextWf_next wf) (of_ite NextWf (nextWf_next (wf_ite (checkImage_wf loaded ..) loaded))
    (of_ite NextWf (nextWf_next (logEvent_wf wf ..)) (nextWf_next wf)))

theorem execMailboxAttest_wf {s : State} (wf : s.MemWf) (nonce : List Byte) : NextWf (execMailboxAttest nonce s) := by
  unfold execMailboxAttest
  split
  · exact nextWf_next wf
  · exact nextWf_next (s := { s with mailbox := _ }) wf

theorem execMailboxDebugToken_wf {s : State} (wf : s.MemWf) (token : List Byte) : NextWf (execMailboxDebugToken token s) := by
  unfold execMailboxDebugToken
  extract_lets g t dev u
  have renewed : t.MemWf := wf
  have zeroed : u.MemWf := zeroRange_wf renewed _
  clear_value g t u
  exact of_ite NextWf (nextWf_next wf) (of_ite NextWf (nextWf_next renewed) (of_ite NextWf (nextWf_next zeroed) (nextWf_next renewed)))

theorem execMailboxPowerCommand_wf {s : State} (wf : s.MemWf) (p : BitVec 4) : NextWf (execMailboxPowerCommand p s) := by
  have down : ((List.range 16).foldl takeLinkDown s).MemWf := foldl_wf _ (fun _ _ h => memWf_of_mem h (takeLinkDown_mem ..)) _ _ wf
  have waking : ({ s with wakeAt := some s.stamp } : State).MemWf := wf
  exact of_ite NextWf (nextWf_next wf) (of_ite NextWf (nextWf_next (setPstate_wf down _)) (of_ite NextWf (nextWf_next waking) (nextWf_next wf)))

theorem execMailboxDuskSave_wf {s : State} (wf : s.MemWf) (rcb : Nat) : NextWf (execMailboxDuskSave rcb s) := by
  unfold execMailboxDuskSave
  split
  · exact nextWf_next wf
  · exact of_ite NextWf (nextWf_next (putRegion_wf wf _)) (nextWf_next wf)

theorem hostDone_wf {s : State} (wf : s.MemWf) (status : Nat) (data : List Byte) : (hostDone s status data).MemWf :=
  memWf_of_mem wf (hostDone_mem ..)

theorem execHostAccess_wf {s : State} (wf : s.MemWf) (kind : BitVec 4) (addr : Nat) (data : List Byte) : NextWf (execHostAccess kind addr data s) := by
  unfold execHostAccess
  extract_lets t k n
  have posted : t.MemWf := deliverPosted_wf wf
  clear_value t k n
  have waiting : ({ t with hostWaits := t.hostWaits ++ [(k, addr, data)] } : State).MemWf := posted
  split
  · split
    · exact nextWf_next (hostDone_wf posted ..)
    · exact of_ite NextWf (nextWf_next (hostDone_wf posted ..)) (nextWf_next (hostDone_wf (writeBytes_wf posted ..) ..))
  · exact of_ite NextWf (nextWf_next posted) (nextWf_next (pumpHost_wf waiting _))

theorem hostRegWrite_wf {s : State} (wf : s.MemWf) (n : Nat) (v : BitVec 64) : NextWf (hostRegWrite n v s) := execHostAccess_wf wf _ _ _

theorem execLqbaseWrite_wf {s : State} (wf : s.MemWf) (q : Nat) (v : BitVec 64) : NextWf (execLqbaseWrite q v s) :=
  of_ite NextWf (hostRegWrite_wf wf _ _) (nextWf_next wf)

theorem execLqtailWrite_wf {s : State} (wf : s.MemWf) (q : Nat) (v : BitVec 64) : NextWf (execLqtailWrite q v s) :=
  of_ite NextWf (hostRegWrite_wf wf _ _) (nextWf_next wf)

theorem execLqheadWrite_wf {s : State} (wf : s.MemWf) (q : Nat) (v : BitVec 64) : NextWf (execLqheadWrite q v s) :=
  of_ite NextWf (hostRegWrite_wf wf _ _) (nextWf_next wf)

theorem retryHost_wf {s : State} (wf : s.MemWf) : NextWf (retryHost s) := nextWf_next (pumpHost_wf wf _)

theorem putFar_wf {s : State} (wf : s.MemWf) (dev : Nat) (f : FarDev → FarDev) : (putFar s dev f).MemWf := memWf_of_mem wf (putFar_mem ..)

theorem execFarLinkDown_wf {s : State} (wf : s.MemWf) (dev : Nat) : NextWf (execFarLinkDown dev s) :=
  of_ite NextWf (nextWf_next (logEvent_wf (putFar_wf wf ..) ..)) (nextWf_next wf)

theorem execFarLostTimeout_wf {s : State} (wf : s.MemWf) (dev : Nat) : NextWf (execFarLostTimeout dev s) :=
  nextWf_next (wf_ite (farAgain_wf (putFar_wf wf ..)) wf)

theorem execFarLinkUp_wf {s : State} (wf : s.MemWf) (dev : Nat) : NextWf (execFarLinkUp dev s) :=
  of_ite NextWf (nextWf_next (farAgain_wf (logEvent_wf (putFar_wf wf ..) ..))) (nextWf_next wf)

end Sys2Proof.Proofs

/-! SUPPORT. Proofs: the canonical form of memory (O59): every meaning, and the step. -/

namespace Sys2Proof.Proofs
open Sys2Proof Sys2Proof.Machine Sys2Proof.Laws

/-- Every instruction and every event keeps memory in its form: one line for each meaning, and for each shared form of meanings. -/
theorem exec_wf {s : State} (wf : s.MemWf) (i : Instr) : NextWf (exec i s) := by
  unfold exec
  cases i with
  | add | sub | andR | orR | xorR | sll | srl | sra | mul | mulh | div | rem | min | max | minn | maxn | cmpEq | cmpNe | cmpLt
  | cmpGe | cmpLtn | cmpGen | bdep | bxtr | cAdd | cSub | cAnd | cOr | cXor => exact alu3_wf wf ..
  | mov | clz | popc | addi | andi | ori | xori | slli | srli | srai | cMov | cAddi | cSlli | cSrli | cSrai
  | cAndi => exact alu2_wf wf ..
  | sel => exact execSel_wf wf ..
  | lim => exact execLim_wf wf ..
  | jal | jr | cJr | cJmp => exact jumpLink_wf wf ..
  | brEq | brNe | brLt | brGe | brLtn | brGen | cBrEq | cBrNe | cBrLt | cBrGe => exact branch_wf wf ..
  | loop => exact execLoop_wf wf ..
  | ldB | ldH | ldW | ldD | cLdD => exact load_wf wf ..
  | stB | stH | stW | stD | cStD => exact store_wf wf ..
  | ldAcq => exact execLdAcq_wf wf ..
  | stRel => exact execStRel_wf wf ..
  | amoAddW | amoAndW | amoOrW | amoXorW | amoMinW | amoMaxW | amoMinnW | amoMaxnW | amoSwapW | casW | amoAddD | amoAndD | amoOrD
  | amoXorD | amoMinD | amoMaxD | amoMinnD | amoMaxnD | amoSwapD | casD => exact atomic_wf wf ..
  | vld => exact execVld_wf wf ..
  | vst => exact execVst_wf wf ..
  | vldx => exact execVldx_wf wf ..
  | vstx => exact execVstx_wf wf ..
  | vadd | vsub | vadds | vsubs | vmin | vmax | vabs | vneg | vshl | vshr | vmul | cmul | cmulc => exact vpair_wf wf ..
  | vand | vor | vxor | vmov => exact vbits_wf wf ..
  | vcmp => exact execVcmp_wf wf ..
  | vsel => exact execVsel_wf wf ..
  | vcvt => exact execVcvt_wf wf ..
  | vbfly | vperm | vbcast | vred => exact vblock_wf wf ..
  | pand | por | pnot => exact predOp_wf wf ..
  | vfma | vfms | cfma | cfmac => exact vfused_wf wf ..
  | csrr | cpydoneRead | axdoneRead | pathdoneRead => exact csrRead_wf wf ..
  | csrw | csrs | csrc | sterrClear | cpyerrClear | axerrClear | teamerrClear | slwinWrite | stpathWrite | vtypeWrite | vauxWrite
  | lpctlWrite | vrandWrite | motionctlWrite | mrecptrWrite | evptrWrite => exact csrWrite_wf wf ..
  | fenceFull => exact execFenceFull_wf wf ..
  | fenceAcq => exact execFenceAcq_wf wf ..
  | fenceRel => exact execFenceRel_wf wf ..
  | fenceAck => exact execFenceAck_wf wf ..
  | wait => exact execWait_wf wf ..
  | pf => exact execPf_wf wf ..
  | trap => exact execTrap_wf wf ..
  | eret => exact execEret_wf wf ..
  | tlbinvPage => exact execTlbinvPage_wf wf ..
  | tlbinvTag => exact execTlbinvTag_wf wf ..
  | tlbinvAll => exact execTlbinvAll_wf wf ..
  | fenceI => exact execFenceI_wf wf ..
  | pause => exact execPause_wf wf ..
  | taskEnd => exact execTaskEnd_wf wf ..
  | spawn => exact execSpawn_wf wf ..
  | yield => exact execYield_wf wf ..
  | cntInit => exact execCntInit_wf wf ..
  | barInit => exact execBarInit_wf wf ..
  | barArrive => exact execBarArrive_wf wf ..
  | barWait => exact execBarWait_wf wf ..
  | barLink => exact execBarLink_wf wf ..
  | phase => exact execPhase_wf wf ..
  | sleep => exact execSleep_wf wf ..
  | teamBind => exact execTeamBind_wf wf ..
  | hand => exact execHand_wf wf ..
  | mark => exact execMark_wf wf ..
  | driftSet => exact execDriftSet_wf wf ..
  | realign => exact execRealign_wf wf ..
  | teamEnd => exact execTeamEnd_wf wf ..
  | mreqRead => exact execMreqRead_wf wf ..
  | mreqWrite => exact execMreqWrite_wf wf ..
  | pgmove => exact execPgmove_wf wf ..
  | pghot => exact execPghot_wf wf ..
  | pgabort => exact execPgabort_wf wf ..
  | send => exact execSend_wf wf ..
  | portOpen => exact execPortOpen_wf wf ..
  | portClose => exact execPortClose_wf wf ..
  | treeInj => exact execTreeInj_wf wf ..
  | treeExt => exact execTreeExt_wf wf ..
  | cpy => exact execCpy_wf wf ..
  | cpyTry => exact execCpyTry_wf wf ..
  | cpyid => exact execCpyid_wf wf ..
  | cpywait => exact execCpywait_wf wf ..
  | sbind => exact execSbind_wf wf ..
  | sfree => exact execSfree_wf wf ..
  | sstat => exact execSstat_wf wf ..
  | dictLd => exact execDictLd_wf wf ..
  | launch => exact execLaunch_wf wf ..
  | launchTry => exact execLaunchTry_wf wf ..
  | axdef => exact execAxdef_wf wf ..
  | axdefRelease => exact execAxdefRelease_wf wf ..
  | mapSet => exact execMapSet_wf wf ..
  | mapSwap => exact execMapSwap_wf wf ..
  | mapRd => exact execMapRd_wf wf ..
  | remap => exact execRemap_wf wf ..
  | rmwait => exact execRmwait_wf wf ..
  | axld => exact execAxld_wf wf ..
  | axst => exact execAxst_wf wf ..
  | axctx => exact execAxctx_wf wf ..
  | axmat => exact execAxmat_wf wf ..
  | axap => exact execAxap_wf wf ..
  | axmm => exact execAxmm_wf wf ..
  | axdrain => exact execAxdrain_wf wf ..
  | axstat => exact execAxstat_wf wf ..
  | axwait => exact execAxwait_wf wf ..
  | cLim => exact execCLim_wf wf ..
  | role => exact execRole_wf wf ..
  | lqbaseWrite => exact execLqbaseWrite_wf wf ..
  | lqtailWrite => exact execLqtailWrite_wf wf ..
  | lqheadWrite => exact execLqheadWrite_wf wf ..
  | pwrcapWrite => exact hostRegWrite_wf wf ..
  | storeBufferDrain => exact execStoreBufferDrain_wf wf ..
  | homeRequest => exact execHomeRequest_wf wf ..
  | storeAck => exact execStoreAck_wf wf ..
  | loadReply => exact execLoadReply_wf wf ..
  | replayNotice => exact execReplayNotice_wf wf ..
  | waitWake => exact execWaitWake_wf wf ..
  | waitPoll => exact execWaitPoll_wf wf ..
  | mreqReply => exact execMreqReply_wf wf ..
  | rowReservationTimeout => exact execRowReservationTimeout_wf wf ..
  | pageWalk => exact execPageWalk_wf wf ..
  | pagerReply => exact execPagerReply_wf wf ..
  | engineFaultReply => exact execEngineFaultReply_wf wf ..
  | turnipMotionStart => exact execTurnipMotionStart_wf wf ..
  | turnipCopyStep => exact execTurnipCopyStep_wf wf ..
  | sweepComplete => exact execSweepComplete_wf wf ..
  | epochEnd => exact execEpochEnd_wf wf ..
  | copyStart => exact execCopyStart_wf wf ..
  | copyComplete => exact execCopyComplete_wf wf ..
  | dictFillComplete => exact execDictFillComplete_wf wf ..
  | streamFetch => exact execStreamFetch_wf wf ..
  | streamWrite => exact execStreamWrite_wf wf ..
  | portRouteOpen => exact execPortRouteOpen_wf wf ..
  | recordArrival => exact execRecordArrival_wf wf ..
  | counterDecrement => exact execCounterDecrement_wf wf ..
  | barrierArrival => exact execBarrierArrival_wf wf ..
  | barrierRelease => exact execBarrierRelease_wf wf ..
  | treeContribution => exact execTreeContribution_wf wf ..
  | treeResult => exact execTreeResult_wf wf ..
  | taskStart => exact execTaskStart_wf wf ..
  | teamStart => exact execTeamStart_wf wf ..
  | axisRequestStart => exact execAxisRequestStart_wf wf ..
  | axisRequestComplete => exact execAxisRequestComplete_wf wf ..
  | fennelExchangeStep => exact execFennelExchangeStep_wf wf ..
  | issueChoice => exact execIssueChoice_wf wf ..
  | lowPrecedenceStart => exact execLowPrecedenceStart_wf wf ..
  | lowPrecedenceEnd => exact execLowPrecedenceEnd_wf wf ..
  | pauseEnd => exact execPauseEnd_wf wf ..
  | sleepWake => exact execSleepWake_wf wf ..
  | realignTimeout => exact execRealignTimeout_wf wf ..
  | dispatcherTakeRecord => exact execDispatcherTakeRecord_wf wf ..
  | regionGrant => exact execRegionGrant_wf wf ..
  | duskSave => exact execDuskSave_wf wf ..
  | duskRestore => exact execDuskRestore_wf wf ..
  | budgetExhausted => exact execBudgetExhausted_wf wf ..
  | regionDone => exact execRegionDone_wf wf ..
  | utilFlush => exact execUtilFlush_wf wf ..
  | eventPost => exact execEventPost_wf wf ..
  | softError => exact execSoftError_wf wf ..
  | noonSample => exact execNoonSample_wf wf ..
  | enterP2 => exact execEnterP2_wf wf ..
  | p2Wake => exact execP2Wake_wf wf ..
  | p3Exit => exact execP3Exit_wf wf ..
  | dawn => exact execDawn_wf wf ..
  | mailboxImage => exact execMailboxImage_wf wf ..
  | mailboxAttest => exact execMailboxAttest_wf wf ..
  | mailboxDebugToken => exact execMailboxDebugToken_wf wf ..
  | mailboxPowerCommand => exact execMailboxPowerCommand_wf wf ..
  | mailboxDuskSave => exact execMailboxDuskSave_wf wf ..
  | hostAccess => exact execHostAccess_wf wf ..
  | hostCompletion => exact execHostCompletion_wf wf ..
  | farLinkDown => exact execFarLinkDown_wf wf ..
  | farLostTimeout => exact execFarLostTimeout_wf wf ..
  | farLinkUp => exact execFarLinkUp_wf wf ..
  | goldexFlitReceive => exact execGoldexFlitReceive_wf wf ..
  | linkReplayTimeout => exact execLinkReplayTimeout_wf wf ..
  | retrainStart => exact execRetrainStart_wf wf ..
  | retrainEnd => exact execRetrainEnd_wf wf ..
  | endToEndResend => exact execEndToEndResend_wf wf ..
  | bounceTimeout => exact execBounceTimeout_wf wf ..
  | timeFlitSend => exact execTimeFlitSend_wf wf ..
  | timeFlitReceive => exact execTimeFlitReceive_wf wf ..
  | illegalInstruction => exact execIllegalInstruction_wf wf ..
  | fetchFault => exact execFetchFault_wf wf ..

/-! The device's own events. -/

theorem engineTurn_wf {s : State} (wf : s.MemWf) (a : Nat) : NextWf (engineTurn a s) :=
  nextWf_next (wf_ite (memWf_of_mem wf (focus_mem ..)) wf)

/-- An event that keeps memory in its form, whatever the state. -/
def HappeningWf (e : Happening) : Prop := ∀ t : State, t.MemWf → NextWf (e t)

theorem ctxEvents_wf (a : Nat) : ∀ e ∈ ctxEvents a, HappeningWf e := by
  intro e h
  simp only [ctxEvents, List.mem_append, List.mem_cons, List.mem_flatMap, List.not_mem_nil, or_false] at h
  rcases h with (rfl | rfl | rfl | rfl | rfl | rfl | rfl | rfl | rfl | rfl) | ⟨n, -, rfl | rfl⟩
  · exact fun _ wf => execStoreBufferDrain_wf wf _
  · exact fun _ wf => execReplayNotice_wf wf _
  · exact fun _ wf => execWaitWake_wf wf _
  · exact fun _ wf => execWaitPoll_wf wf _
  · exact fun _ wf => execPagerReply_wf wf _
  · exact fun _ wf => execEngineFaultReply_wf wf _
  · exact fun _ wf => execPauseEnd_wf wf _
  · exact fun _ wf => execSleepWake_wf wf _
  · exact fun _ wf => execRealignTimeout_wf wf _
  · exact fun _ wf => engineTurn_wf wf _
  · exact fun _ wf => execStreamFetch_wf wf ..
  · exact fun _ wf => execStreamWrite_wf wf ..

theorem coreEvents_wf (k : Nat) : ∀ e ∈ coreEvents k, HappeningWf e := by
  intro e h
  simp only [coreEvents, List.mem_cons, List.not_mem_nil, or_false] at h
  rcases h with rfl | rfl | rfl | rfl | rfl | rfl
  · exact fun _ wf => execIssueChoice_wf wf _
  · exact fun _ wf => execCopyStart_wf wf _
  · exact fun _ wf => execCopyComplete_wf wf _
  · exact fun _ wf => execPortRouteOpen_wf wf _
  · exact fun _ wf => execLowPrecedenceStart_wf wf _
  · exact fun _ wf => execLowPrecedenceEnd_wf wf _

theorem tileEvents_wf (t : Nat) : ∀ e ∈ tileEvents t, HappeningWf e := by
  intro e h
  simp only [tileEvents, List.mem_cons, List.not_mem_nil, or_false] at h
  rcases h with rfl | rfl | rfl
  · exact fun _ wf => execAxisRequestStart_wf wf _
  · exact fun _ wf => execAxisRequestComplete_wf wf _
  · exact fun _ wf => execDictFillComplete_wf wf _

theorem clusterEvents_wf (cl : Nat) : ∀ e ∈ clusterEvents cl, HappeningWf e := by
  intro e h
  simp only [clusterEvents, List.mem_append, List.mem_cons, List.mem_flatMap, List.not_mem_nil, or_false] at h
  rcases h with (rfl | rfl) | ⟨x, -, rfl | rfl⟩
  · exact fun _ wf => execTeamStart_wf wf _
  · exact fun _ wf => execUtilFlush_wf wf _
  · exact fun _ wf => execTaskStart_wf wf _
  · exact fun _ wf => execTreeContribution_wf wf _

theorem netEvents_wf (i : Nat) : ∀ e ∈ netEvents i, HappeningWf e := by
  intro e h
  simp only [netEvents, List.mem_cons, List.not_mem_nil, or_false] at h
  rcases h with rfl | rfl | rfl | rfl | rfl
  · exact fun _ wf => execHomeRequest_wf wf _
  · exact fun _ wf => execRecordArrival_wf wf _
  · exact fun _ wf => execCounterDecrement_wf wf _
  · exact fun _ wf => execBarrierArrival_wf wf _
  · exact fun _ wf => execBarrierRelease_wf wf _

theorem replyEvents_wf (i : Nat) : ∀ e ∈ replyEvents i, HappeningWf e := by
  intro e h
  simp only [replyEvents, List.mem_cons, List.not_mem_nil, or_false] at h
  rcases h with rfl | rfl | rfl
  · exact fun _ wf => execStoreAck_wf wf _
  · exact fun _ wf => execLoadReply_wf wf _
  · exact fun _ wf => execMreqReply_wf wf _

theorem dieEvents_wf (s : State) (d : Nat) : ∀ e ∈ dieEvents s d, HappeningWf e := by
  intro e h
  simp only [dieEvents, List.mem_append, List.mem_cons, List.mem_flatMap, List.not_mem_nil, or_false] at h
  rcases h with (rfl | rfl) | ⟨i, -, rfl | rfl⟩
  · exact fun _ wf => execTurnipMotionStart_wf wf _
  · exact fun _ wf => execRegionGrant_wf wf _
  · exact fun _ wf => execTurnipCopyStep_wf wf ..
  · exact fun _ wf => execSweepComplete_wf wf ..

theorem regionEvents_wf (g : Region) : ∀ e ∈ regionEvents g, HappeningWf e := by
  intro e h
  simp only [regionEvents, List.mem_cons, List.not_mem_nil, or_false] at h
  rcases h with rfl | rfl | rfl | rfl
  · exact fun _ wf => execDuskSave_wf wf _
  · exact fun _ wf => execDuskRestore_wf wf _
  · exact fun _ wf => execBudgetExhausted_wf wf _
  · exact fun _ wf => execRegionDone_wf wf _

theorem linkEvents_wf (l : Nat × GLink) :
    ∀ e ∈ execLinkReplayTimeout l.1 :: (if 8 ≤ l.2.failed then [execRetrainStart l.1] else []), HappeningWf e := by
  intro e h
  rcases List.mem_cons.mp h with rfl | h
  · exact fun _ wf => execLinkReplayTimeout_wf wf _
  · split at h
    · exact List.mem_singleton.mp h ▸ fun _ wf => execRetrainStart_wf wf _
    · cases h

/-- Events that a list of places has, all of which keep memory in its form. -/
theorem flatMap_wf {α : Type} {f : α → List Happening} (h : ∀ a, ∀ e ∈ f a, HappeningWf e) (l : List α) : ∀ e ∈ l.flatMap f, HappeningWf e := by
  intro e k
  obtain ⟨a, -, k⟩ := List.mem_flatMap.mp k
  exact h a e k

theorem map_wf {α : Type} {f : α → Happening} (h : ∀ a, HappeningWf (f a)) (l : List α) : ∀ e ∈ l.map f, HappeningWf e := by
  intro e k
  obtain ⟨a, -, rfl⟩ := List.mem_map.mp k
  exact h a

theorem append_wf {l m : List Happening} (hl : ∀ e ∈ l, HappeningWf e) (hm : ∀ e ∈ m, HappeningWf e) : ∀ e ∈ l ++ m, HappeningWf e :=
  fun e h => (List.mem_append.mp h).elim (hl e) (hm e)

/-- The events that belong to no place. -/
theorem deviceEvents_wf : ∀ e ∈ ([retryHost, execEpochEnd, execEventPost, execEnterP2, execP2Wake, execP3Exit, execTimeFlitSend] : List Happening),
    HappeningWf e := by
  intro e h
  simp only [List.mem_cons, List.not_mem_nil, or_false] at h
  rcases h with rfl | rfl | rfl | rfl | rfl | rfl | rfl
  · exact fun _ wf => retryHost_wf wf
  · exact fun _ wf => execEpochEnd_wf wf
  · exact fun _ wf => execEventPost_wf wf
  · exact fun _ wf => execEnterP2_wf wf
  · exact fun _ wf => execP2Wake_wf wf
  · exact fun _ wf => execP3Exit_wf wf
  · exact fun _ wf => execTimeFlitSend_wf wf

theorem ownEvents_wf (s : State) : ∀ e ∈ ownEvents s, HappeningWf e := by
  unfold ownEvents
  refine append_wf ?_ deviceEvents_wf
  refine append_wf ?_ (map_wf (fun _ _ wf => execBounceTimeout_wf wf _) _)
  refine append_wf ?_ (map_wf (fun _ _ wf => execEndToEndResend_wf wf _) _)
  refine append_wf ?_ (flatMap_wf linkEvents_wf _)
  refine append_wf ?_ (map_wf (fun _ _ wf => execFarLostTimeout_wf wf _) _)
  refine append_wf ?_ (flatMap_wf regionEvents_wf _)
  refine append_wf ?_ (map_wf (fun _ _ wf => execDispatcherTakeRecord_wf wf _) _)
  refine append_wf ?_ (flatMap_wf (dieEvents_wf s) _)
  refine append_wf ?_ (map_wf (fun _ _ wf => execRowReservationTimeout_wf wf _) _)
  refine append_wf ?_ (map_wf (fun _ _ wf => execTreeResult_wf wf _) _)
  refine append_wf ?_ (flatMap_wf replyEvents_wf _)
  refine append_wf ?_ (flatMap_wf netEvents_wf _)
  refine append_wf ?_ (flatMap_wf (fun _ => flatMap_wf clusterEvents_wf _) _)
  refine append_wf ?_ (flatMap_wf (fun _ => map_wf (fun _ _ wf => execFennelExchangeStep_wf wf ..) _) _)
  exact append_wf (append_wf (flatMap_wf ctxEvents_wf _) (flatMap_wf coreEvents_wf _)) (flatMap_wf tileEvents_wf _)

theorem firstEffect_wf {s : State} (wf : s.MemWf) {l : List Happening} (h : ∀ e ∈ l, HappeningWf e) : NextWf (firstEffect s l) := by
  induction l with
  | nil => exact wf
  | cons e t ih =>
    have kept := h e List.mem_cons_self s wf
    unfold firstEffect
    split
    · next eq =>
      rw [eq] at kept
      exact of_ite NextWf (ih fun x k => h x (List.mem_cons_of_mem _ k)) kept
    · exact kept

theorem ownEvent_wf {s : State} (wf : s.MemWf) : NextWf (ownEvent s) := by
  unfold ownEvent
  refine firstEffect_wf wf fun e h => ownEvents_wf s e ?_
  rcases List.mem_append.mp h with h | h
  · exact List.mem_of_mem_drop h
  · exact List.mem_of_mem_take h

/-! The step. -/

theorem holdFocus_wf {s : State} (wf : s.MemWf) (w : Wait) : NextWf (holdFocus s w) := cur_wf wf _

theorem issueFocus_wf {s : State} (wf : s.MemWf) : NextWf (issueFocus s) := by
  have fetched := fetchAt_wf wf s.cur.pc
  have counted (low : Bool) (i : Instr) (t : State) (h : t.MemWf) : (if hasIssued t i then countIssue low t else t).MemWf :=
    wf_ite (memWf_of_mem h (countIssue_mem ..)) h
  unfold issueFocus
  extract_lets low free
  split
  · next h =>
    rw [h] at fetched
    exact of_ite NextWf (nextWf_after (exec_wf fetched _) (counted _ _)) (holdFocus_wf fetched _)
  · next h =>
    rw [h] at fetched
    exact of_ite NextWf (execIllegalInstruction_wf fetched) (holdFocus_wf fetched _)
  · exact of_ite NextWf (execFetchFault_wf wf) (holdFocus_wf wf _)
  · exact holdFocus_wf wf _

theorem step_wf {s : State} (wf : s.MemWf) : NextWf (step s) := by
  have ticked (t : State) (h : t.MemWf) : (clock t).MemWf := memWf_of_mem h (clock_mem t)
  unfold step
  split
  · next rest _ =>
    have taken : ({ s with agenda := rest } : State).MemWf := wf
    exact of_ite NextWf (nextWf_after (exec_wf taken _) ticked) trivial
  · exact nextWf_after (of_ite NextWf (issueFocus_wf wf) (ownEvent_wf wf)) ticked

/-- Settles O59: every instruction, every event and the clock keep memory in its canonical form. -/
theorem memoryCanonical : Obligations.MemoryCanonical := by
  unfold Obligations.MemoryCanonical
  intro s t wf h
  have kept := step_wf wf
  rwa [h] at kept

end Sys2Proof.Proofs
